-- ==== Sys2Proof/Word.lean ====
section
/-!
DEFINITION. The word types of the Freard: scalar registers hold 64 bits, lanes 32 bits, vector registers 512 bits,
instructions 96 bits (R17, R49).
-/
namespace Sys2Proof

/-- One byte of memory. -/
abbrev Byte := BitVec 8
/-- A 16-bit value: a predicate register (R17). -/
abbrev W16 := BitVec 16
/-- A 32-bit lane, line word or index register. -/
abbrev W32 := BitVec 32
/-- A 64-bit scalar or special register. -/
abbrev W64 := BitVec 64
/-- An instruction word (R49). -/
abbrev W96 := BitVec 96
/-- A vector register, queue entry or 64-byte sector. -/
abbrev V512 := BitVec 512
/-- A path set: bit 0 C, 1 K, 2 X, 3 G, 4 U, 5 M, 6 T, 7 P, 8 H (R52). -/
abbrev PathSet := BitVec 9

/-- The fields of an instruction word (R49). In format I48 the 48-bit immediate stands in `imm` and `fn` together. -/
structure Raw where
  opc : BitVec 8
  pred : BitVec 4
  fmt : BitVec 4
  dst : BitVec 8
  sa : BitVec 8
  sb : BitVec 8
  sc : BitVec 8
  fn : W16
  imm : W32
  deriving DecidableEq, Repr

/-- Why a word is no instruction: the checks of R63 step 3, each of which traps ILLEGAL. -/
inductive DecodeErr where
  /-- An unassigned major opcode (R60). -/
  | unassigned
  /-- FMT differs from the opcode's format (R50). -/
  | fmtMismatch
  /-- The predicate is negated p0 (R49). -/
  | negatedP0
  /-- A field that the form does not use is not zero (R50, R58). -/
  | unusedField
  /-- An operand of a class the field does not accept, or a reserved FN code (R54, R58). -/
  | operandClass
  /-- A type, modifier or operand value that the form does not accept (R58, R61). -/
  | fnValue
  deriving DecidableEq, Repr

end Sys2Proof
end

