-- ==== Sys2Proof/Syntax.lean ====
section
/-!
DEFINITION. The syntax: operands and modifiers of the instruction word (R49 to R59), one operand record for each shape of
form, and Instr, one constructor for each row of the opcode table.
-/
namespace Sys2Proof

/-- TYPE, TYPE2 and FROM, in the code order of R59. -/
inductive Ty where
  | i64 | i32 | i16 | i8 | n64 | n32 | n16 | n8 | f64 | f32 | f16 | bf16 | e4m3 | e5m2 | e2m1 | auto
  deriving DecidableEq, Repr

/-- RND of R59. -/
inductive Rnd where
  | rne | rtz | rdn | rup
  deriving DecidableEq, Repr

/-- READ of R59: the reading of narrow codes. -/
inductive Rd where
  | fin | nan | ieee | tag
  deriving DecidableEq, Repr

/-- SEL as cc of R59. -/
inductive Cc where
  | eq | ne | lt | le | gt | ge | ord | uno
  deriving DecidableEq, Repr

/-- SEL as op of R59. -/
inductive AOp where
  | add | min | max | and | or | xor | swap
  deriving DecidableEq, Repr

/-- SCOPE of R59. -/
inductive Scope where
  | clu | die | dev | sys
  deriving DecidableEq, Repr

/-- PATH of R59. -/
inductive Path where
  | C | K | X | G | U | M | T | P | H
  deriving DecidableEq, Repr

/-- The PRED field (R49): a predicate register, possibly negated. -/
structure Pred where
  idx : Fin 8
  neg : Bool
  deriving DecidableEq, Repr

/-- A scalar position of an OP3, OP4 or I32 form (R104): a scalar register or a special-register shortcut (R56). -/
inductive SOp where
  | s (r : Fin 32)
  | sc (k : Fin 16)
  deriving DecidableEq, Repr

/-- A vector position (R134): a base register, a queue register, or `v[xI+k]`. -/
inductive VOp where
  | v (r : Fin 32)
  | q (r : Fin 16)
  | x (i : Fin 8) (k : Fin 16)
  deriving DecidableEq, Repr

/-- An operand of `pmov` (R110). -/
inductive PSOp where
  | p (r : Fin 8)
  | s (o : SOp)
  deriving DecidableEq, Repr

/-- The source of `xmov` (R111). -/
inductive XSOp where
  | x (r : Fin 8)
  | s (o : SOp)
  deriving DecidableEq, Repr

/-- The A operand of `mmul` and `mmac` (R174, R186): a matrix register or a location with its row stride. -/
inductive MSrc where
  | reg (m : Fin 8)
  | loc (pool : Bool) (disp : BitVec 24) (base stride : Fin 32)
  deriving DecidableEq, Repr

/-- Where an array error of R388 and R389 is found: a sector of a slice at home, or a U copy of a line, which the slice of a cluster
holds, are places of their own. -/
inductive ErrLoc where
  | l1 (core addr : Nat)
  | slice (addr : Nat)
  | ucopy (cluster line : Nat)
  | hbm (ctx slot addr : Nat)
  | core (core : Nat)
  | command (ctx : Nat)
  | rigBank (cluster bank : Nat)
  | clusterTlb (cluster va : Nat)
  | device
  deriving DecidableEq, Repr

/-- Requests to the SPDM responder (R366): the certificate chain of a slot, a challenge with its nonce, the signed measurement of an
index, and a key exchange with the requester's value. -/
inductive Spdm where
  | certificate (slot : Nat)
  | challenge (nonce : BitVec 256)
  | measurement (index : Nat)
  | keyExchange (value : BitVec 512)
  deriving DecidableEq, Repr

/-- What MONITOR_SAMPLE does at a monitor (R407): it takes a sample, or the hypervisor sets the monitor's thresholds with the contexts
that a crossing notifies, each with its bit (log 65). -/
inductive MonAct where
  | sample
  | thresholds (at_ : List W64) (ctxs : List (Nat × Option Nat))
  deriving DecidableEq, Repr

/-- Completion ring of a partition, as JOB_COMPLETION names it: the key slot, physical address and entries (R399; log 61). -/
structure CompRing where
  part : Nat
  slot : Nat
  base : Nat
  len : Nat
  deriving DecidableEq, Repr

/-- A form with no operands but its predicate. -/
structure Bare where
  p : Pred
  deriving DecidableEq, Repr

/-- OP3 scalar form with two sources (R102, R105). -/
structure SAlu where
  p : Pred
  t : Ty
  sat : Bool
  d : SOp
  a : SOp
  b : SOp
  deriving DecidableEq, Repr

/-- OP3 scalar form with one source (R105). -/
structure SUn where
  p : Pred
  t : Ty
  d : SOp
  a : SOp
  deriving DecidableEq, Repr

/-- I32 scalar form (R105). -/
structure SImm where
  p : Pred
  t : Ty
  sat : Bool
  d : SOp
  a : SOp
  imm : W32
  deriving DecidableEq, Repr

/-- OP4 bit-field form (R107). -/
structure SBf where
  p : Pred
  t : Ty
  d : SOp
  a : SOp
  b : SOp
  c : SOp
  deriving DecidableEq, Repr

/-- `sel` (R108). -/
structure SSel where
  p : Pred
  d : SOp
  a : SOp
  b : SOp
  c : Fin 8
  deriving DecidableEq, Repr

/-- `li` (R108). -/
structure SLi where
  p : Pred
  d : Fin 32
  imm : BitVec 48
  deriving DecidableEq, Repr

/-- `addip` (R108). -/
structure SIp where
  p : Pred
  d : SOp
  imm : W32
  deriving DecidableEq, Repr

/-- `lea` (R108). -/
structure SLea where
  p : Pred
  d : Fin 32
  a : Fin 32
  disp : W32
  deriving DecidableEq, Repr

/-- `mov` (R108). -/
structure SMov where
  p : Pred
  d : SOp
  a : SOp
  deriving DecidableEq, Repr

/-- Scalar compare (R109). -/
structure SCmp where
  p : Pred
  t : Ty
  cc : Cc
  d : Fin 8
  a : SOp
  b : SOp
  deriving DecidableEq, Repr

/-- Predicate form with two sources (R110). -/
structure P3 where
  p : Pred
  d : Fin 8
  a : Fin 8
  b : Fin 8
  deriving DecidableEq, Repr

/-- `pnot` (R110). -/
structure P2 where
  p : Pred
  d : Fin 8
  a : Fin 8
  deriving DecidableEq, Repr

/-- `pmov` (R110). -/
structure PMov where
  p : Pred
  d : PSOp
  a : PSOp
  deriving DecidableEq, Repr

/-- `pcnt` (R110), `xget` (R111): a scalar from a predicate or index register. -/
structure PCnt where
  p : Pred
  d : SOp
  a : Fin 8
  deriving DecidableEq, Repr

/-- `xset` (R111). -/
structure XSet where
  p : Pred
  d : Fin 8
  imm : W32
  deriving DecidableEq, Repr

/-- `xadd` (R111). -/
structure XAdd where
  p : Pred
  d : Fin 8
  a : Fin 8
  add : W16
  m : W16
  deriving DecidableEq, Repr

/-- `xmov` (R111). -/
structure XMov where
  p : Pred
  d : Fin 8
  a : XSOp
  deriving DecidableEq, Repr

/-- `br` (R112). -/
structure BrP where
  p : Pred
  c : Fin 8
  tgt : W32
  deriving DecidableEq, Repr

/-- `jmp` (R112). -/
structure BrJ where
  p : Pred
  tgt : W32
  deriving DecidableEq, Repr

/-- `call`, `loop` (R112, R113). -/
structure BrD where
  p : Pred
  d : Fin 32
  tgt : W32
  deriving DecidableEq, Repr

/-- A form with one scalar source register. -/
structure SA1 where
  p : Pred
  a : Fin 32
  deriving DecidableEq, Repr

/-- A form with one scalar destination register. -/
structure SD1 where
  p : Pred
  d : Fin 32
  deriving DecidableEq, Repr

/-- A form with a scalar destination and a scalar source. -/
structure SD2 where
  p : Pred
  d : Fin 32
  a : Fin 32
  deriving DecidableEq, Repr

/-- A form with two scalar sources. -/
structure SA2 where
  p : Pred
  a : Fin 32
  b : Fin 32
  deriving DecidableEq, Repr

/-- A form with a scalar destination and two scalar sources. -/
structure S3 where
  p : Pred
  d : Fin 32
  a : Fin 32
  b : Fin 32
  deriving DecidableEq, Repr

/-- A form with a scalar destination and three scalar sources. -/
structure S4 where
  p : Pred
  d : Fin 32
  a : Fin 32
  b : Fin 32
  c : Fin 32
  deriving DecidableEq, Repr

/-- A form with three scalar sources. -/
structure SA3 where
  p : Pred
  a : Fin 32
  b : Fin 32
  c : Fin 32
  deriving DecidableEq, Repr

/-- Scalar load or store (R118, R121). -/
structure MemS where
  p : Pred
  t : Ty
  d : Fin 32
  a : Fin 32
  disp : W32
  deriving DecidableEq, Repr

/-- Vector load or store (R119). -/
structure MemV where
  p : Pred
  d : VOp
  a : Fin 32
  disp : W32
  deriving DecidableEq, Repr

/-- Converting `vld` (R150). -/
structure MemC where
  p : Pred
  t : Ty
  src : Ty
  rd : Rd
  d : VOp
  a : Fin 32
  disp : W32
  deriving DecidableEq, Repr

/-- `vldm`, `vstm` (R120). -/
structure MemM where
  p : Pred
  d : VOp
  a : Fin 32
  b : Fin 32
  disp : W32
  deriving DecidableEq, Repr

/-- `pref` (R122). -/
structure MemA where
  p : Pred
  a : Fin 32
  disp : W32
  deriving DecidableEq, Repr

/-- Per-lane gather and scatter (R157). -/
structure VGs where
  p : Pred
  t : Ty
  d : VOp
  a : Fin 32
  b : VOp
  disp : W32
  deriving DecidableEq, Repr

/-- `trap`, `brk`, `sysc` (R128). -/
structure Code where
  p : Pred
  code : BitVec 24
  deriving DecidableEq, Repr

/-- `mfs` (R126). -/
structure MfsO where
  p : Pred
  d : Fin 32
  num : BitVec 12
  deriving DecidableEq, Repr

/-- `mts`, `mtsp` (R126, R354). -/
structure MtsO where
  p : Pred
  a : Fin 32
  num : BitVec 12
  deriving DecidableEq, Repr

/-- Vector arithmetic with two sources (R138, R144). -/
structure VBin where
  p : Pred
  t : Ty
  rnd : Rnd
  sat : Bool
  d : VOp
  a : VOp
  b : VOp
  deriving DecidableEq, Repr

/-- Vector arithmetic with one source. -/
structure VUn where
  p : Pred
  t : Ty
  rnd : Rnd
  sat : Bool
  d : VOp
  a : VOp
  deriving DecidableEq, Repr

/-- Vector arithmetic with three sources (R138, R146). -/
structure VTri where
  p : Pred
  t : Ty
  rnd : Rnd
  sat : Bool
  d : VOp
  a : VOp
  b : VOp
  c : VOp
  deriving DecidableEq, Repr

/-- `vcmp` (R147). -/
structure VCmp where
  p : Pred
  t : Ty
  cc : Cc
  d : Fin 8
  a : VOp
  b : VOp
  deriving DecidableEq, Repr

/-- `vsel` (R148). -/
structure VSel where
  p : Pred
  t : Ty
  d : VOp
  a : VOp
  b : VOp
  c : Fin 8
  deriving DecidableEq, Repr

/-- `vcvt` (R149). -/
structure VCvt where
  p : Pred
  t : Ty
  src : Ty
  rnd : Rnd
  sat : Bool
  rd : Rd
  d : VOp
  a : VOp
  b : SOp
  deriving DecidableEq, Repr

/-- `vround` (R143). -/
structure VRnd where
  p : Pred
  t : Ty
  rnd : Rnd
  d : VOp
  a : VOp
  deriving DecidableEq, Repr

/-- Bitwise, shift and permute forms (R145, R151). -/
structure VLog where
  p : Pred
  t : Ty
  d : VOp
  a : VOp
  b : VOp
  deriving DecidableEq, Repr

/-- `vpopc`, `vcompress`, `vexpand` (R145, R153). -/
structure VUnT where
  p : Pred
  t : Ty
  d : VOp
  a : VOp
  deriving DecidableEq, Repr

/-- `vbcast`, `vlane` (R151). -/
structure VFromS where
  p : Pred
  t : Ty
  d : VOp
  a : SOp
  deriving DecidableEq, Repr

/-- `vext` (R152). -/
structure VExt where
  p : Pred
  t : Ty
  d : SOp
  a : VOp
  b : SOp
  deriving DecidableEq, Repr

/-- `vins` (R152). -/
structure VIns where
  p : Pred
  t : Ty
  d : VOp
  a : SOp
  b : SOp
  deriving DecidableEq, Repr

/-- Reductions (R154). -/
structure VRed where
  p : Pred
  t : Ty
  rnd : Rnd
  d : SOp
  a : VOp
  deriving DecidableEq, Repr

/-- `vscan` (R155). -/
structure VScan where
  p : Pred
  t : Ty
  op : AOp
  rnd : Rnd
  d : VOp
  a : VOp
  deriving DecidableEq, Repr

/-- `vrng`, `vmov`, `rsvget` (R151, R156, R239). -/
structure V2 where
  p : Pred
  d : VOp
  a : VOp
  deriving DecidableEq, Repr

/-- `rsvupd`, `rsvmrg` (R235). -/
structure V2S where
  p : Pred
  d : VOp
  a : VOp
  b : SOp
  deriving DecidableEq, Repr

/-- `mbld` (R177). -/
structure MBld where
  p : Pred
  t : Ty
  rd : Rd
  gran : BitVec 3
  mac : Fin 8
  pool : Bool
  disp : BitVec 24
  a : Fin 32
  b : Fin 32
  deriving DecidableEq, Repr

/-- `mbrel` (R177). -/
structure MBrel where
  p : Pred
  gran : BitVec 3
  mac : Fin 8
  deriving DecidableEq, Repr

/-- `mld`, `mst`, `mcvt` (R178, R179). -/
structure MLoc where
  p : Pred
  t : Ty
  rd : Rd
  gran : BitVec 3
  d : Fin 8
  pool : Bool
  disp : BitVec 24
  a : Fin 32
  b : Fin 32
  deriving DecidableEq, Repr

/-- `mzero` (R181). -/
structure M1 where
  p : Pred
  gran : BitVec 3
  d : Fin 8
  deriving DecidableEq, Repr

/-- `mreef`, `mprom`, `mtr` (R181, R182, R189). -/
structure M2 where
  p : Pred
  gran : BitVec 3
  d : Fin 8
  a : Fin 8
  deriving DecidableEq, Repr

/-- `mlradd`, `mlrmul` (R183, R184). -/
structure M3 where
  p : Pred
  gran : BitVec 3
  d : Fin 8
  a : Fin 8
  b : Fin 8
  deriving DecidableEq, Repr

/-- `mmul`, `mmac` (R186); `b` = s0 names the macro `mac`. -/
structure MMul where
  p : Pred
  t : Ty
  rd : Rd
  gran : BitVec 3
  d : Fin 8
  a : MSrc
  b : Fin 32
  mac : Fin 8
  deriving DecidableEq, Repr

/-- `mfac` (R180). -/
structure MFac where
  p : Pred
  gran : BitVec 3
  d : Fin 8
  a : VOp
  b : VOp
  deriving DecidableEq, Repr

/-- `mscale` (R181). -/
structure MScale where
  p : Pred
  gran : BitVec 3
  d : Fin 8
  a : Fin 8
  b : Fin 32
  deriving DecidableEq, Repr

/-- `mrank` (R185). -/
structure MRank where
  p : Pred
  gran : BitVec 3
  d : Fin 32
  a : Fin 8
  deriving DecidableEq, Repr

/-- `mrec` (R187). -/
structure MRec where
  p : Pred
  gran : BitVec 3
  a : VOp
  deriving DecidableEq, Repr

/-- `mrun` (R188). -/
structure MRun where
  p : Pred
  gran : BitVec 3
  d : Fin 8
  a : Fin 8
  mac : Fin 8
  deriving DecidableEq, Repr

/-- `mwait` (R185). -/
structure MWait where
  p : Pred
  gran : BitVec 3
  deriving DecidableEq, Repr

/-- `mfree` (R185). -/
structure MFree where
  p : Pred
  gran : BitVec 3
  d : Fin 32
  deriving DecidableEq, Repr

/-- `rayopen` (R195). -/
structure RayOpen where
  p : Pred
  d : Fin 32
  a : VOp
  deriving DecidableEq, Repr

/-- `raywait` (R198). -/
structure RayWait where
  p : Pred
  d : Fin 32
  a : Fin 32
  rel : Bool
  poll : Bool
  deriving DecidableEq, Repr

/-- `hitq` (R211). -/
structure HitQ where
  p : Pred
  d : VOp
  deriving DecidableEq, Repr

/-- `ivpost` (R230). -/
structure IvPost where
  p : Pred
  a : Fin 32
  b : VOp
  deriving DecidableEq, Repr

/-- `ivread` (R231). -/
structure IvRead where
  p : Pred
  d : VOp
  a : Fin 32
  b : Fin 32
  deriving DecidableEq, Repr

/-- `ivstat` (R233). -/
structure IvStat where
  p : Pred
  d : Fin 32
  a : Fin 32
  sel : Bool
  deriving DecidableEq, Repr

/-- `amo` (R262). -/
structure Amo where
  p : Pred
  t : Ty
  op : AOp
  scope : Scope
  acq : PathSet
  rel : PathSet
  d : Fin 32
  a : Fin 32
  b : Fin 32
  disp : BitVec 14
  deriving DecidableEq, Repr

/-- `cas` (R263). -/
structure Cas where
  p : Pred
  t : Ty
  scope : Scope
  acq : PathSet
  rel : PathSet
  d : Fin 32
  a : Fin 32
  b : Fin 32
  c : Fin 32
  disp : BitVec 14
  deriving DecidableEq, Repr

/-- `cas2` (R264). -/
structure Cas2 where
  p : Pred
  scope : Scope
  acq : PathSet
  rel : PathSet
  d : Fin 32
  a : Fin 32
  b : Fin 32
  c : Fin 32
  disp : BitVec 14
  deriving DecidableEq, Repr

/-- `red` (R265). -/
structure Red where
  p : Pred
  t : Ty
  op : AOp
  scope : Scope
  acq : PathSet
  rel : PathSet
  a : Fin 32
  b : Fin 32
  disp : BitVec 14
  deriving DecidableEq, Repr

/-- `amsg` (R268). -/
structure Amsg where
  p : Pred
  scope : Scope
  d : VOp
  a : Fin 32
  b : VOp
  c : Fin 32
  disp : W32
  deriving DecidableEq, Repr

/-- `gath` (R269). -/
structure Gath where
  p : Pred
  gran : BitVec 3
  d : Fin 32
  a : Fin 32
  b : VOp
  deriving DecidableEq, Repr

/-- `fence` (R286). -/
structure Fence where
  p : Pred
  scope : Scope
  before : PathSet
  after : PathSet
  deriving DecidableEq, Repr

/-- Path form of `ld`, `st` (R247). -/
structure MemSP where
  p : Pred
  t : Ty
  path : Path
  scope : Scope
  d : Fin 32
  a : Fin 32
  disp : W32
  deriving DecidableEq, Repr

/-- Path form of `vld`, `vst` (R247). -/
structure MemVP where
  p : Pred
  path : Path
  scope : Scope
  d : VOp
  a : Fin 32
  disp : W32
  deriving DecidableEq, Repr

/-- `cset` (R272). -/
structure CSet where
  p : Pred
  num : BitVec 4
  a : Fin 32
  deriving DecidableEq, Repr

/-- `semw`, `semset` (R279). -/
structure Sem where
  p : Pred
  a : Fin 32
  n : BitVec 6
  deriving DecidableEq, Repr

/-- `seminc` (R279). -/
structure SemI where
  p : Pred
  d : Fin 32
  a : Fin 32
  n : BitVec 6
  deriving DecidableEq, Repr

/-- `rst` (R299). -/
structure Rst where
  p : Pred
  d : VOp
  a : Fin 32
  mc : Bool
  c : Fin 32
  cls : BitVec 4
  disp : BitVec 24
  deriving DecidableEq, Repr

/-- `send` (R303). -/
structure Send where
  p : Pred
  a : VOp
  b : Fin 32
  cls : BitVec 4
  deriving DecidableEq, Repr

/-- `cmask`, `cunmask` (R332). -/
structure CMask where
  p : Pred
  n : BitVec 4
  deriving DecidableEq, Repr

/-- `qbind` (R332). -/
structure QBind where
  p : Pred
  d : Fin 8
  n : BitVec 4
  un : Bool
  deriving DecidableEq, Repr

/-- `qlen`, `qdrop` (R332). -/
structure QReg where
  p : Pred
  d : Fin 32
  a : Fin 16
  deriving DecidableEq, Repr

/-- `spawn` (R318). -/
structure Spawn where
  p : Pred
  a : VOp
  deriving DecidableEq, Repr

/-- `spawnt` (R318). -/
structure SpawnT where
  p : Pred
  d : Fin 8
  a : VOp
  deriving DecidableEq, Repr

/-- `ejoin` (R328). -/
structure EJoin where
  p : Pred
  a : Fin 32
  n : BitVec 8
  deriving DecidableEq, Repr

/-- `ewait`, `eset` (R328). -/
structure Ev where
  p : Pred
  n : BitVec 8
  clr : Bool
  deriving DecidableEq, Repr

/-- `cancel` (R326). -/
structure Cancel where
  p : Pred
  hard : Bool
  d : Fin 32
  a : Fin 32
  deriving DecidableEq, Repr

/-- `ctrd` (R325). -/
structure Ctrd where
  p : Pred
  d : Fin 32
  a : Fin 32
  k : BitVec 2
  deriving DecidableEq, Repr

/-- `castpin` (R348). -/
structure CastPin where
  p : Pred
  d : Fin 32
  mode : BitVec 2
  deriving DecidableEq, Repr

/-- `tlbinv` (R361). -/
structure TlbInv where
  p : Pred
  d : Fin 32
  a : Fin 32
  b : Fin 32
  all : Bool
  deriving DecidableEq, Repr

/-- The instructions (R60) and the operations and events of the device: one constructor for each row of the opcode
table, in its order. An instruction holds its operand record; an event holds what names it. -/
inductive Instr where
  | add (o : SAlu)
  | sub (o : SAlu)
  | addi (o : SImm)
  | mul (o : SAlu)
  | mulh (o : SAlu)
  | mulhn (o : SAlu)
  | div (o : SAlu)
  | divn (o : SAlu)
  | rem (o : SAlu)
  | remn (o : SAlu)
  | and (o : SAlu)
  | or (o : SAlu)
  | xor (o : SAlu)
  | andn (o : SAlu)
  | orn (o : SAlu)
  | shl (o : SAlu)
  | shr (o : SAlu)
  | sar (o : SAlu)
  | rol (o : SAlu)
  | ror (o : SAlu)
  | clz (o : SUn)
  | ctz (o : SUn)
  | popc (o : SUn)
  | min (o : SAlu)
  | max (o : SAlu)
  | minn (o : SAlu)
  | maxn (o : SAlu)
  | sext (o : SUn)
  | zext (o : SUn)
  | bfx (o : SBf)
  | bfi (o : SBf)
  | sel (o : SSel)
  | li (o : SLi)
  | addip (o : SIp)
  | lea (o : SLea)
  | mov (o : SMov)
  | cmpI (o : SCmp)
  | cmpF (o : SCmp)
  | pand (o : P3)
  | por (o : P3)
  | pxor (o : P3)
  | pnot (o : P2)
  | pmov (o : PMov)
  | pcnt (o : PCnt)
  | xset (o : XSet)
  | xadd (o : XAdd)
  | xmov (o : XMov)
  | xget (o : PCnt)
  | br (o : BrP)
  | jmp (o : BrJ)
  | call (o : BrD)
  | ret (o : SA1)
  | loop (o : BrD)
  | brx (o : SD2)
  | end_ (o : Bare)
  | yield_ (o : Bare)
  | ld (o : MemS)
  | st (o : MemS)
  | vld (o : MemV)
  | vldConverting (o : MemC)
  | vst (o : MemV)
  | vldm (o : MemM)
  | vstm (o : MemM)
  | ldk (o : MemS)
  | pref (o : MemA)
  | vgath32 (o : VGs)
  | vgath64 (o : VGs)
  | vscat32 (o : VGs)
  | vscat64 (o : VGs)
  | trap (o : Code)
  | tret (o : Bare)
  | upret (o : SA1)
  | mfs (o : MfsO)
  | mts (o : MtsO)
  | sysc (o : Code)
  | brk (o : Code)
  | rdtime (o : SD1)
  | ifence (o : Bare)
  | halt (o : Bare)
  | vaddI (o : VBin)
  | vaddF (o : VBin)
  | vsubI (o : VBin)
  | vsubF (o : VBin)
  | vmulI (o : VBin)
  | vmulF (o : VBin)
  | vfma (o : VTri)
  | vfms (o : VTri)
  | vfnma (o : VTri)
  | vdiv (o : VBin)
  | vsqrt (o : VUn)
  | vrcp (o : VUn)
  | vrsqrt (o : VUn)
  | vexp2 (o : VUn)
  | vlog2 (o : VUn)
  | vminI (o : VBin)
  | vminF (o : VBin)
  | vmaxI (o : VBin)
  | vmaxF (o : VBin)
  | vabsI (o : VUn)
  | vabsF (o : VUn)
  | vnegI (o : VUn)
  | vnegF (o : VUn)
  | vcmpI (o : VCmp)
  | vcmpF (o : VCmp)
  | vsel (o : VSel)
  | vcvtII (o : VCvt)
  | vcvtIF (o : VCvt)
  | vcvtFI (o : VCvt)
  | vcvtFF (o : VCvt)
  | vround (o : VRnd)
  | vand (o : VLog)
  | vor (o : VLog)
  | vxor (o : VLog)
  | vshl (o : VLog)
  | vshr (o : VLog)
  | vsar (o : VLog)
  | vperm32 (o : VLog)
  | vperm64 (o : VLog)
  | vbcast32 (o : VFromS)
  | vbcast64 (o : VFromS)
  | vext (o : VExt)
  | vins (o : VIns)
  | vredaddI (o : VRed)
  | vredaddF (o : VRed)
  | vredminI (o : VRed)
  | vredminF (o : VRed)
  | vredmaxI (o : VRed)
  | vredmaxF (o : VRed)
  | vscanI (o : VScan)
  | vscanF (o : VScan)
  | vdot8 (o : VTri)
  | vdot16 (o : VTri)
  | vmac8 (o : VTri)
  | vmac16 (o : VTri)
  | vrng (o : V2)
  | vcompress (o : VUnT)
  | vexpand (o : VUnT)
  | vpopc (o : VUnT)
  | vlane (o : VFromS)
  | vmov (o : V2)
  | mbld8 (o : MBld)
  | mbld16 (o : MBld)
  | mbrel (o : MBrel)
  | mld32 (o : MLoc)
  | mld16 (o : MLoc)
  | mst32 (o : MLoc)
  | mst16 (o : MLoc)
  | mzero (o : M1)
  | mmulE2M1 (o : MMul)
  | mmul8 (o : MMul)
  | mmul16 (o : MMul)
  | mmacE2M1 (o : MMul)
  | mmac8 (o : MMul)
  | mmac16 (o : MMul)
  | mfac (o : MFac)
  | mlradd (o : M3)
  | mlrmul (o : M3)
  | mreef (o : M2)
  | mprom (o : M2)
  | mrank (o : MRank)
  | mcvt (o : MLoc)
  | mtr (o : M2)
  | mscale (o : MScale)
  | mrec (o : MRec)
  | mrun (o : MRun)
  | mwait (o : MWait)
  | mfree (o : MFree)
  | rayopen (o : RayOpen)
  | raytrace (o : SA1)
  | raywait (o : RayWait)
  | ivpost (o : IvPost)
  | ivread (o : IvRead)
  | ivclr (o : SA1)
  | ivstat (o : IvStat)
  | hitq (o : HitQ)
  | rsvupd (o : V2S)
  | rsvmrg (o : V2S)
  | rsvget (o : V2)
  | logset (o : SA3)
  | replay (o : SA1)
  | amoI (o : Amo)
  | amoF (o : Amo)
  | cas (o : Cas)
  | cas2 (o : Cas2)
  | redI (o : Red)
  | redF (o : Red)
  | amsg (o : Amsg)
  | gath (o : Gath)
  | fence (o : Fence)
  | ldPath (o : MemSP)
  | stPath (o : MemSP)
  | vldPath (o : MemVP)
  | vstPath (o : MemVP)
  | cset (o : CSet)
  | cpygo (o : SD2)
  | cpycan (o : SD2)
  | semw (o : Sem)
  | seminc (o : SemI)
  | semset (o : Sem)
  | mcset (o : SA2)
  | rst (o : Rst)
  | send (o : Send)
  | cmask (o : CMask)
  | cunmask (o : CMask)
  | qbind (o : QBind)
  | qlen (o : QReg)
  | qdrop (o : QReg)
  | spawn (o : Spawn)
  | spawnt (o : SpawnT)
  | join (o : S3)
  | ejoin (o : EJoin)
  | ewait (o : Ev)
  | eset (o : Ev)
  | launch (o : SD2)
  | cancel (o : Cancel)
  | ctrd (o : Ctrd)
  | resid (o : SD1)
  | defer_ (o : Bare)
  | castpin (o : CastPin)
  | tlbinv (o : TlbInv)
  | ctxsv (o : S4)
  | ctxrs (o : S3)
  | rgload (o : S4)
  | mtsp (o : MtsO)
  | translationRegisterWrite (ctx cluster : Nat)
  | ffbaseWrite (g : Nat) (v : W64)
  | fresRetry (fid : W64)
  | fresAbort (fid : W64)
  | fresDiscard (fid : W64)
  | dcmdHalt (g : Nat)
  | dcmdResume (g : Nat)
  | dcmdStep (g : Nat)
  | ddataWrite (g : Nat) (pool : Bool) (off : Nat) (v : W64)
  | rigNop (cluster slot : Nat)
  | rigLdi (cluster slot : Nat)
  | rigMov (cluster slot : Nat)
  | rigAdd (cluster slot : Nat)
  | rigSub (cluster slot : Nat)
  | rigAnd (cluster slot : Nat)
  | rigOr (cluster slot : Nat)
  | rigShl (cluster slot : Nat)
  | rigShr (cluster slot : Nat)
  | rigCmp (cluster slot : Nat)
  | rigRayw (cluster slot : Nat)
  | rigFetch (cluster slot : Nat)
  | rigNbw (cluster slot : Nat)
  | rigBox (cluster slot : Nat)
  | rigChild (cluster slot : Nat)
  | rigPush (cluster slot : Nat)
  | rigPop (cluster slot : Nat)
  | rigFront (cluster slot : Nat)
  | rigTri (cluster slot : Nat)
  | rigSplat (cluster slot : Nat)
  | rigLeaf (cluster slot : Nat)
  | rigCall (cluster slot : Nat)
  | rigRet (cluster slot : Nat)
  | rigDone (cluster slot : Nat)
  | microwordWatchdog (cluster slot : Nat)
  | hitTaskPush (cluster : Nat)
  | listArrival (cluster slot : Nat)
  | rayDone (cluster slot : Nat)
  | taskPop (g : Nat)
  | agingPop (g : Nat)
  | activationStart (g : Nat)
  | steal (cluster ctx : Nat)
  | stealRetry (cluster ctx : Nat)
  | overflowRefill (cluster ctx prio : Nat)
  | continuationPush (ctx : Nat)
  | coreBind (core ctx lid : Nat)
  | coreRelease (core : Nat)
  | launchAdmission (ctx lid : Nat)
  | unitDispatch (ctx lid : Nat)
  | residentRelease (ctx lid : Nat)
  | engineFault (cluster id : Nat)
  | macroParityError (core mac : Nat)
  | matrixGrant (cluster : Nat)
  | matrixMigration (core : Nat)
  | matrixCommandComplete (core : Nat)
  | copyStart (cluster id groups : Nat) (order : List Nat)
  | copyComplete (cluster id : Nat)
  | homeLoad (g addr : Nat)
  | homeStore (g : Nat)
  | storeAcknowledge (g : Nat)
  | atomicReply (g : Nat)
  | uCopyMerge (cluster line : Nat)
  | amsgPerform (g : Nat)
  | amsgReply (g : Nat)
  | lineFill (ctx slot sector : Nat)
  | writeBackDrain (line : Nat)
  | ptsTick
  | timestampRebase
  | routerGrant (cluster port : Nat)
  | routerAgingGrant (cluster port : Nat)
  | rstDelivery (packet : Nat)
  | sendDelivery (packet : Nat)
  | pAcknowledge (packet : Nat)
  | packetForward (packet : Nat)
  | swapInstant (part : Nat)
  | castle (part : Nat)
  | placementUpdate (core : Nat)
  | forwardingExpiry (core : Nat)
  | contextDrain (ctx : Nat)
  | correctableError (loc : ErrLoc)
  | uncorrectableError (loc : ErrLoc)
  | scrub (loc : ErrLoc)
  | doorbellWrite (part tail : Nat)
  | jobDescriptor (part ctx slot base len : Nat)
  | jobCompletion (ring : CompRing)
  | hostApertureAccess (part slot off : Nat) (write : Bool) (data : List Byte)
  | bilathMemoryWrite (conn ctx va : Nat) (data : List Byte)
  | bilathClassMessage (conn ctx core cls : Nat) (ev : Option Nat) (data : V512)
  | macsecFrameDrop (port : Nat)
  | spdmRequest (req : Spdm) (hashOk sigOk : Bool)
  | tdispLock (part : Nat)
  | tdispUnlock (part : Nat)
  | contextCreate (ctx part : Nat) (slots : List (Nat × Option Nat))
  | semaphoreAssign (cluster n ctx : Nat)
  | castlingControlWordWrite (part : Nat) (w : W64)
  | partitionRangeWrite (part k : Nat) (w : W64)
  | telemetryRead (reg : Nat)
  | boot (ok : Bool) (caps : List (Nat × Nat)) (meas : List (Nat × BitVec 256))
  | thermalTrip
  | monitorSample (monitor : Nat) (value : W64) (act : MonAct)
  | hbmRefresh (controller : Nat)
  | phyCalibration (link : Nat)
  | serviceMessageDelivery (k : Nat)
  | cxlCacheResponse (g : Nat)
  | formatWindowWrite (controller window reg : Nat) (w : W64)
  | partitionCreation (part c0 c1 r0 r1 sup supCore : Nat) (timerOff : W64)
  | keySlotFill (ctx k : Nat) (aliasOf : Option Nat)
  | systemImageTimer (ctx bit : Nat)
  | bilathRetransmission (conn : Nat)
  | corePowerGating (core : Nat) (on : Bool)
  deriving DecidableEq, Repr

/-- One of the 224 instructions of R60, not an event: what a fetched word can decode to. -/
def Instr.isInstruction (i : Instr) : Bool :=
  match i with
  | .translationRegisterWrite _ _ => false
  | .ffbaseWrite _ _ => false
  | .fresRetry _ => false
  | .fresAbort _ => false
  | .fresDiscard _ => false
  | .dcmdHalt _ => false
  | .dcmdResume _ => false
  | .dcmdStep _ => false
  | .ddataWrite _ _ _ _ => false
  | .rigNop _ _ => false
  | .rigLdi _ _ => false
  | .rigMov _ _ => false
  | .rigAdd _ _ => false
  | .rigSub _ _ => false
  | .rigAnd _ _ => false
  | .rigOr _ _ => false
  | .rigShl _ _ => false
  | .rigShr _ _ => false
  | .rigCmp _ _ => false
  | .rigRayw _ _ => false
  | .rigFetch _ _ => false
  | .rigNbw _ _ => false
  | .rigBox _ _ => false
  | .rigChild _ _ => false
  | .rigPush _ _ => false
  | .rigPop _ _ => false
  | .rigFront _ _ => false
  | .rigTri _ _ => false
  | .rigSplat _ _ => false
  | .rigLeaf _ _ => false
  | .rigCall _ _ => false
  | .rigRet _ _ => false
  | .rigDone _ _ => false
  | .microwordWatchdog _ _ => false
  | .hitTaskPush _ => false
  | .listArrival _ _ => false
  | .rayDone _ _ => false
  | .taskPop _ => false
  | .agingPop _ => false
  | .activationStart _ => false
  | .steal _ _ => false
  | .stealRetry _ _ => false
  | .overflowRefill _ _ _ => false
  | .continuationPush _ => false
  | .coreBind _ _ _ => false
  | .coreRelease _ => false
  | .launchAdmission _ _ => false
  | .unitDispatch _ _ => false
  | .residentRelease _ _ => false
  | .engineFault _ _ => false
  | .macroParityError _ _ => false
  | .matrixGrant _ => false
  | .matrixMigration _ => false
  | .matrixCommandComplete _ => false
  | .copyStart _ _ _ _ => false
  | .copyComplete _ _ => false
  | .homeLoad _ _ => false
  | .homeStore _ => false
  | .storeAcknowledge _ => false
  | .atomicReply _ => false
  | .uCopyMerge _ _ => false
  | .amsgPerform _ => false
  | .amsgReply _ => false
  | .lineFill _ _ _ => false
  | .writeBackDrain _ => false
  | .ptsTick => false
  | .timestampRebase => false
  | .routerGrant _ _ => false
  | .routerAgingGrant _ _ => false
  | .rstDelivery _ => false
  | .sendDelivery _ => false
  | .pAcknowledge _ => false
  | .packetForward _ => false
  | .swapInstant _ => false
  | .castle _ => false
  | .placementUpdate _ => false
  | .forwardingExpiry _ => false
  | .contextDrain _ => false
  | .correctableError _ => false
  | .uncorrectableError _ => false
  | .scrub _ => false
  | .doorbellWrite _ _ => false
  | .jobDescriptor _ _ _ _ _ => false
  | .jobCompletion _ => false
  | .hostApertureAccess _ _ _ _ _ => false
  | .bilathMemoryWrite _ _ _ _ => false
  | .bilathClassMessage _ _ _ _ _ _ => false
  | .macsecFrameDrop _ => false
  | .spdmRequest _ _ _ => false
  | .tdispLock _ => false
  | .tdispUnlock _ => false
  | .contextCreate _ _ _ => false
  | .semaphoreAssign _ _ _ => false
  | .castlingControlWordWrite _ _ => false
  | .partitionRangeWrite _ _ _ => false
  | .telemetryRead _ => false
  | .boot _ _ _ => false
  | .thermalTrip => false
  | .monitorSample _ _ _ => false
  | .hbmRefresh _ => false
  | .phyCalibration _ => false
  | .serviceMessageDelivery _ => false
  | .cxlCacheResponse _ => false
  | .formatWindowWrite _ _ _ _ => false
  | .partitionCreation _ _ _ _ _ _ _ _ => false
  | .keySlotFill _ _ _ => false
  | .systemImageTimer _ _ => false
  | .bilathRetransmission _ => false
  | .corePowerGating _ _ => false
  | _ => true

end Sys2Proof
end

