-- ==== Sys2Proof/WellFormed.lean ====
section
/-!
DEFINITION. WellFormed: what the fields of each form accept beyond their shape (R49, R54, R58, R61 and the forms' entries).
A word whose fields are not well-formed traps ILLEGAL.
-/
namespace Sys2Proof

/-- A signed integer type (R74). -/
def Ty.isI (t : Ty) : Bool := t ∈ [.i64, .i32, .i16, .i8]
/-- An unsigned integer type (R74). -/
def Ty.isN (t : Ty) : Bool := t ∈ [.n64, .n32, .n16, .n8]
/-- An integer type (R74). -/
def Ty.isInt (t : Ty) : Bool := t.isI || t.isN
/-- One of the four IEEE formats (R77). -/
def Ty.isF (t : Ty) : Bool := t ∈ [.f64, .f32, .f16, .bf16]
/-- A narrow format (R83, R84, R86). -/
def Ty.isNarrow (t : Ty) : Bool := t ∈ [.e4m3, .e5m2, .e2m1]
/-- The F class of `vcvt` (R61). -/
def Ty.isFn (t : Ty) : Bool := t.isF || t.isNarrow
/-- Every type but `auto` (R59). -/
def Ty.concrete (t : Ty) : Bool := t ≠ .auto
/-- Element width in bits (R74, R77, R83, R84, R86). -/
def Ty.w (t : Ty) : Nat :=
  match t with
  | .i64 | .n64 | .f64 => 64
  | .i32 | .n32 | .f32 => 32
  | .i16 | .n16 | .f16 | .bf16 => 16
  | .i8 | .n8 | .e4m3 | .e5m2 => 8
  | .e2m1 => 4
  | .auto => 8

/-- Negated p0 is no predicate (R49). -/
def Pred.wf (p : Pred) : Bool := !(p.idx == 0 && p.neg)
/-- A vector position that accepts no queue register (R174, R194, R229, R269, R333). -/
def VOp.noQueue (o : VOp) : Bool :=
  match o with
  | .q _ => false
  | _ => true
/-- `ord` and `uno` need a floating type (R59). -/
def Cc.intOk (c : Cc) : Bool := c ≠ .ord && c ≠ .uno
/-- The paths and scopes of the path loads (R247). -/
def pathLoadOk (p : Path) (sc : Scope) : Bool := p == .K || (p == .H && sc == .sys)
/-- The path and scope of the path stores (R247). -/
def pathStoreOk (p : Path) (sc : Scope) : Bool := p == .H && sc == .sys
/-- The registers of a `cas2` pair are even (R264). -/
def evenReg (r : Fin 32) : Bool := r.val % 2 == 0
/-- The 32-bit class of R61. -/
def Ty.is32 (t : Ty) : Bool := t ∈ [.i32, .n32, .f32]
/-- The 64-bit class of R61. -/
def Ty.is64 (t : Ty) : Bool := t ∈ [.i64, .n64, .f64]
/-- The integer types of `vcmp`, `amo`, `cas` and `red` (R61). -/
def Ty.isInt3264 (t : Ty) : Bool := t ∈ [.i32, .n32, .i64, .n64]

/-- A BR target names a slot from 0 to 4 (R51). -/
def slotOk (tgt : W32) : Bool := tgt.toNat % 8 ≤ 4

/-- Path sets name H only with scope sys (R286, R288); those of an atomic act as its fences do (R289; DEDUCED, log 74). -/
def scopeOk (sc : Scope) (a b : PathSet) : Bool := sc == .sys || !(a.getLsbD 8 || b.getLsbD 8)

/-- The form accepts its operands and modifiers. A conversion between integer types accepts every RND, as `vcvt` is no arithmetic form
of R65 (DESIGN CHOICE beside R137, log 72). -/
def Instr.fieldsOk (i : Instr) : Bool :=
  match i with
  | .add o | .sub o | .mul o | .shl o => o.t.isInt
  | .mulh o | .div o | .rem o | .min o | .max o => o.t.isI && !o.sat
  | .mulhn o | .divn o | .remn o | .minn o | .maxn o => o.t.isN && !o.sat
  | .and o | .or o | .xor o | .andn o | .orn o | .shr o | .sar o | .rol o | .ror o => o.t.isInt && !o.sat
  | .addi o => o.t.isInt
  | .clz o | .ctz o | .popc o => o.t.isInt
  | .sext o => o.t.isI
  | .zext o => o.t.isN
  | .bfx o => o.t == .i64 || o.t == .n64
  | .bfi o => o.t == .n64
  | .cmpI o => o.t.isInt && o.cc.intOk
  | .cmpF o => o.t.isF
  | .pmov o => match o.d, o.a with
    | .s _, .s _ => false
    | _, _ => true
  | .br o => slotOk o.tgt
  | .jmp o => slotOk o.tgt
  | .call o | .loop o => slotOk o.tgt
  | .ld o | .st o | .ldk o => o.t.isInt
  | .vldConverting o => o.t.isF && o.src ∈ [.f16, .bf16, .e4m3, .e5m2, .e2m1, .auto] && o.src.w ≤ o.t.w
  | .vldm o | .vstm o => o.d.noQueue
  | .vgath32 o | .vscat32 o => o.t.is32
  | .vgath64 o | .vscat64 o => o.t.is64
  | .vaddI o | .vsubI o | .vmulI o | .vminI o | .vmaxI o => o.t.isInt && o.rnd == .rne
  | .vaddF o | .vsubF o | .vmulF o | .vdiv o | .vminF o | .vmaxF o => o.t.isF
  | .vabsI o | .vnegI o => o.t.isInt && o.rnd == .rne
  | .vsqrt o | .vrcp o | .vrsqrt o | .vexp2 o | .vlog2 o | .vabsF o | .vnegF o => o.t.isF
  | .vfma o | .vfms o | .vfnma o => o.t.isF
  | .vcmpI o => o.t.isInt3264 && o.cc.intOk
  | .vcmpF o => o.t == .f32 || o.t == .f64
  | .vsel o => o.t.concrete
  | .vcvtII o => o.t.isInt && o.src.isInt && o.rd ≠ .tag
  | .vcvtIF o => o.t.isFn && o.src.isInt && o.rd ≠ .tag
  | .vcvtFI o => o.t.isInt && o.src.isFn && o.rd ≠ .tag
  | .vcvtFF o => o.t.isFn && o.src.isFn && o.rd ≠ .tag
  | .vround o => o.t.isF
  | .vand o | .vor o | .vxor o => o.t.concrete
  | .vshl o | .vshr o | .vsar o => o.t.isInt
  | .vperm32 o => o.t.is32
  | .vperm64 o => o.t.is64
  | .vbcast32 o => o.t.is32
  | .vbcast64 o => o.t.is64
  | .vext o => o.t.isInt || o.t.isF
  | .vins o => (o.t.isInt || o.t.isF) && o.d.noQueue
  | .vredaddI o | .vredminI o | .vredmaxI o => o.t.isInt && o.rnd == .rne
  | .vredaddF o | .vredminF o | .vredmaxF o => o.t.isF
  | .vscanI o => o.t.isInt && o.rnd == .rne && o.op ≠ .swap
  | .vscanF o => o.t.isF && (o.op == .add || o.op == .min || o.op == .max)
  | .vdot8 o | .vmac8 o => (o.t == .i8 || o.t == .n8) && o.rnd == .rne
  | .vdot16 o | .vmac16 o => (o.t == .i16 || o.t == .n16) && o.rnd == .rne
  | .vcompress o | .vexpand o => o.t.concrete
  | .vpopc o => o.t.isInt
  | .vlane o => o.t.isInt
  | .mbld8 o => o.t ∈ [.i8, .e4m3, .e5m2, .e2m1]
  | .mbld16 o => o.t ∈ [.f16, .bf16] && o.mac.val % 2 == 0
  | .mld32 o | .mst32 o => o.t == .f32
  | .mld16 o | .mst16 o => o.t ∈ [.f16, .bf16]
  | .mcvt o => o.t ∈ [.i8, .e4m3, .e5m2]
  | .mmulE2M1 o | .mmacE2M1 o => o.t == .e2m1 && (o.b == 0 || o.mac.val % 2 == 0)
  | .mmul8 o | .mmac8 o => o.t ∈ [.i8, .e4m3, .e5m2] && (o.b == 0 || o.mac.val % 2 == 0)
  | .mmul16 o | .mmac16 o => o.t ∈ [.f16, .bf16] && (o.b == 0 || o.mac.val % 2 == 0)
  | .mfac o => o.a.noQueue && o.b.noQueue
  | .mrec o => o.a.noQueue
  | .rayopen o => o.a.noQueue
  | .hitq o => o.d.noQueue
  | .ivpost o => o.b.noQueue
  | .ivread o => o.d.noQueue
  | .spawn o => o.a.noQueue
  | .spawnt o => o.a.noQueue
  | .amoI o => o.t.isInt3264 && scopeOk o.scope o.acq o.rel
  | .amoF o => (o.t == .f32 || o.t == .f64) && o.op ∈ [.add, .min, .max, .swap] && scopeOk o.scope o.acq o.rel
  | .cas o => o.t.isInt3264 && scopeOk o.scope o.acq o.rel
  | .cas2 o => evenReg o.d && evenReg o.b && evenReg o.c && scopeOk o.scope o.acq o.rel
  | .redI o => o.t.isInt3264 && o.op ≠ .swap && scopeOk o.scope o.acq o.rel
  | .redF o => (o.t == .f32 || o.t == .bf16) && o.op ∈ [.add, .min, .max] && scopeOk o.scope o.acq o.rel
  | .gath o => o.b.noQueue && !(o.d == o.a && o.d != 0)
  | .fence o => o.before ≠ 0 && o.after ≠ 0 && scopeOk o.scope o.before o.after
  | .ldPath o => o.t.isInt && pathLoadOk o.path o.scope
  | .stPath o => o.t.isInt && pathStoreOk o.path o.scope
  | .vldPath o => pathLoadOk o.path o.scope
  | .vstPath o => pathStoreOk o.path o.scope
  | .cset o => o.num.toNat ≤ 6
  | .cpygo o => !(o.d == o.a && o.d != 0)
  | .cancel o => !(o.d == o.a && o.d != 0)
  | .rst o => o.mc || o.c == 0
  | .castpin o => o.mode ≠ 3
  | .tlbinv o => !o.all || o.b == 0
  | _ => true

/-- The predicate of an instruction; an event has none and counts as p0. -/
def Instr.pred (i : Instr) : Pred :=
  match i with
  | .add o => o.p
  | .sub o => o.p
  | .addi o => o.p
  | .mul o => o.p
  | .mulh o => o.p
  | .mulhn o => o.p
  | .div o => o.p
  | .divn o => o.p
  | .rem o => o.p
  | .remn o => o.p
  | .and o => o.p
  | .or o => o.p
  | .xor o => o.p
  | .andn o => o.p
  | .orn o => o.p
  | .shl o => o.p
  | .shr o => o.p
  | .sar o => o.p
  | .rol o => o.p
  | .ror o => o.p
  | .clz o => o.p
  | .ctz o => o.p
  | .popc o => o.p
  | .min o => o.p
  | .max o => o.p
  | .minn o => o.p
  | .maxn o => o.p
  | .sext o => o.p
  | .zext o => o.p
  | .bfx o => o.p
  | .bfi o => o.p
  | .sel o => o.p
  | .li o => o.p
  | .addip o => o.p
  | .lea o => o.p
  | .mov o => o.p
  | .cmpI o => o.p
  | .cmpF o => o.p
  | .pand o => o.p
  | .por o => o.p
  | .pxor o => o.p
  | .pnot o => o.p
  | .pmov o => o.p
  | .pcnt o => o.p
  | .xset o => o.p
  | .xadd o => o.p
  | .xmov o => o.p
  | .xget o => o.p
  | .br o => o.p
  | .jmp o => o.p
  | .call o => o.p
  | .ret o => o.p
  | .loop o => o.p
  | .brx o => o.p
  | .end_ o => o.p
  | .yield_ o => o.p
  | .ld o => o.p
  | .st o => o.p
  | .vld o => o.p
  | .vldConverting o => o.p
  | .vst o => o.p
  | .vldm o => o.p
  | .vstm o => o.p
  | .ldk o => o.p
  | .pref o => o.p
  | .vgath32 o => o.p
  | .vgath64 o => o.p
  | .vscat32 o => o.p
  | .vscat64 o => o.p
  | .trap o => o.p
  | .tret o => o.p
  | .upret o => o.p
  | .mfs o => o.p
  | .mts o => o.p
  | .sysc o => o.p
  | .brk o => o.p
  | .rdtime o => o.p
  | .ifence o => o.p
  | .halt o => o.p
  | .vaddI o => o.p
  | .vaddF o => o.p
  | .vsubI o => o.p
  | .vsubF o => o.p
  | .vmulI o => o.p
  | .vmulF o => o.p
  | .vfma o => o.p
  | .vfms o => o.p
  | .vfnma o => o.p
  | .vdiv o => o.p
  | .vsqrt o => o.p
  | .vrcp o => o.p
  | .vrsqrt o => o.p
  | .vexp2 o => o.p
  | .vlog2 o => o.p
  | .vminI o => o.p
  | .vminF o => o.p
  | .vmaxI o => o.p
  | .vmaxF o => o.p
  | .vabsI o => o.p
  | .vabsF o => o.p
  | .vnegI o => o.p
  | .vnegF o => o.p
  | .vcmpI o => o.p
  | .vcmpF o => o.p
  | .vsel o => o.p
  | .vcvtII o => o.p
  | .vcvtIF o => o.p
  | .vcvtFI o => o.p
  | .vcvtFF o => o.p
  | .vround o => o.p
  | .vand o => o.p
  | .vor o => o.p
  | .vxor o => o.p
  | .vshl o => o.p
  | .vshr o => o.p
  | .vsar o => o.p
  | .vperm32 o => o.p
  | .vperm64 o => o.p
  | .vbcast32 o => o.p
  | .vbcast64 o => o.p
  | .vext o => o.p
  | .vins o => o.p
  | .vredaddI o => o.p
  | .vredaddF o => o.p
  | .vredminI o => o.p
  | .vredminF o => o.p
  | .vredmaxI o => o.p
  | .vredmaxF o => o.p
  | .vscanI o => o.p
  | .vscanF o => o.p
  | .vdot8 o => o.p
  | .vdot16 o => o.p
  | .vmac8 o => o.p
  | .vmac16 o => o.p
  | .vrng o => o.p
  | .vcompress o => o.p
  | .vexpand o => o.p
  | .vpopc o => o.p
  | .vlane o => o.p
  | .vmov o => o.p
  | .mbld8 o => o.p
  | .mbld16 o => o.p
  | .mbrel o => o.p
  | .mld32 o => o.p
  | .mld16 o => o.p
  | .mst32 o => o.p
  | .mst16 o => o.p
  | .mzero o => o.p
  | .mmulE2M1 o => o.p
  | .mmul8 o => o.p
  | .mmul16 o => o.p
  | .mmacE2M1 o => o.p
  | .mmac8 o => o.p
  | .mmac16 o => o.p
  | .mfac o => o.p
  | .mlradd o => o.p
  | .mlrmul o => o.p
  | .mreef o => o.p
  | .mprom o => o.p
  | .mrank o => o.p
  | .mcvt o => o.p
  | .mtr o => o.p
  | .mscale o => o.p
  | .mrec o => o.p
  | .mrun o => o.p
  | .mwait o => o.p
  | .mfree o => o.p
  | .rayopen o => o.p
  | .raytrace o => o.p
  | .raywait o => o.p
  | .ivpost o => o.p
  | .ivread o => o.p
  | .ivclr o => o.p
  | .ivstat o => o.p
  | .hitq o => o.p
  | .rsvupd o => o.p
  | .rsvmrg o => o.p
  | .rsvget o => o.p
  | .logset o => o.p
  | .replay o => o.p
  | .amoI o => o.p
  | .amoF o => o.p
  | .cas o => o.p
  | .cas2 o => o.p
  | .redI o => o.p
  | .redF o => o.p
  | .amsg o => o.p
  | .gath o => o.p
  | .fence o => o.p
  | .ldPath o => o.p
  | .stPath o => o.p
  | .vldPath o => o.p
  | .vstPath o => o.p
  | .cset o => o.p
  | .cpygo o => o.p
  | .cpycan o => o.p
  | .semw o => o.p
  | .seminc o => o.p
  | .semset o => o.p
  | .mcset o => o.p
  | .rst o => o.p
  | .send o => o.p
  | .cmask o => o.p
  | .cunmask o => o.p
  | .qbind o => o.p
  | .qlen o => o.p
  | .qdrop o => o.p
  | .spawn o => o.p
  | .spawnt o => o.p
  | .join o => o.p
  | .ejoin o => o.p
  | .ewait o => o.p
  | .eset o => o.p
  | .launch o => o.p
  | .cancel o => o.p
  | .ctrd o => o.p
  | .resid o => o.p
  | .defer_ o => o.p
  | .castpin o => o.p
  | .tlbinv o => o.p
  | .ctxsv o => o.p
  | .ctxrs o => o.p
  | .rgload o => o.p
  | .mtsp o => o.p
  | .translationRegisterWrite _ _ => ⟨0, false⟩
  | .ffbaseWrite _ _ => ⟨0, false⟩
  | .fresRetry _ => ⟨0, false⟩
  | .fresAbort _ => ⟨0, false⟩
  | .fresDiscard _ => ⟨0, false⟩
  | .dcmdHalt _ => ⟨0, false⟩
  | .dcmdResume _ => ⟨0, false⟩
  | .dcmdStep _ => ⟨0, false⟩
  | .ddataWrite _ _ _ _ => ⟨0, false⟩
  | .rigNop _ _ => ⟨0, false⟩
  | .rigLdi _ _ => ⟨0, false⟩
  | .rigMov _ _ => ⟨0, false⟩
  | .rigAdd _ _ => ⟨0, false⟩
  | .rigSub _ _ => ⟨0, false⟩
  | .rigAnd _ _ => ⟨0, false⟩
  | .rigOr _ _ => ⟨0, false⟩
  | .rigShl _ _ => ⟨0, false⟩
  | .rigShr _ _ => ⟨0, false⟩
  | .rigCmp _ _ => ⟨0, false⟩
  | .rigRayw _ _ => ⟨0, false⟩
  | .rigFetch _ _ => ⟨0, false⟩
  | .rigNbw _ _ => ⟨0, false⟩
  | .rigBox _ _ => ⟨0, false⟩
  | .rigChild _ _ => ⟨0, false⟩
  | .rigPush _ _ => ⟨0, false⟩
  | .rigPop _ _ => ⟨0, false⟩
  | .rigFront _ _ => ⟨0, false⟩
  | .rigTri _ _ => ⟨0, false⟩
  | .rigSplat _ _ => ⟨0, false⟩
  | .rigLeaf _ _ => ⟨0, false⟩
  | .rigCall _ _ => ⟨0, false⟩
  | .rigRet _ _ => ⟨0, false⟩
  | .rigDone _ _ => ⟨0, false⟩
  | .microwordWatchdog _ _ => ⟨0, false⟩
  | .hitTaskPush _ => ⟨0, false⟩
  | .listArrival _ _ => ⟨0, false⟩
  | .rayDone _ _ => ⟨0, false⟩
  | .taskPop _ => ⟨0, false⟩
  | .agingPop _ => ⟨0, false⟩
  | .activationStart _ => ⟨0, false⟩
  | .steal _ _ => ⟨0, false⟩
  | .stealRetry _ _ => ⟨0, false⟩
  | .overflowRefill _ _ _ => ⟨0, false⟩
  | .continuationPush _ => ⟨0, false⟩
  | .coreBind _ _ _ => ⟨0, false⟩
  | .coreRelease _ => ⟨0, false⟩
  | .launchAdmission _ _ => ⟨0, false⟩
  | .unitDispatch _ _ => ⟨0, false⟩
  | .residentRelease _ _ => ⟨0, false⟩
  | .engineFault _ _ => ⟨0, false⟩
  | .macroParityError _ _ => ⟨0, false⟩
  | .matrixGrant _ => ⟨0, false⟩
  | .matrixMigration _ => ⟨0, false⟩
  | .matrixCommandComplete _ => ⟨0, false⟩
  | .copyStart _ _ _ _ => ⟨0, false⟩
  | .copyComplete _ _ => ⟨0, false⟩
  | .homeLoad _ _ => ⟨0, false⟩
  | .homeStore _ => ⟨0, false⟩
  | .storeAcknowledge _ => ⟨0, false⟩
  | .atomicReply _ => ⟨0, false⟩
  | .uCopyMerge _ _ => ⟨0, false⟩
  | .amsgPerform _ => ⟨0, false⟩
  | .amsgReply _ => ⟨0, false⟩
  | .lineFill _ _ _ => ⟨0, false⟩
  | .writeBackDrain _ => ⟨0, false⟩
  | .ptsTick => ⟨0, false⟩
  | .timestampRebase => ⟨0, false⟩
  | .routerGrant _ _ => ⟨0, false⟩
  | .routerAgingGrant _ _ => ⟨0, false⟩
  | .rstDelivery _ => ⟨0, false⟩
  | .sendDelivery _ => ⟨0, false⟩
  | .pAcknowledge _ => ⟨0, false⟩
  | .packetForward _ => ⟨0, false⟩
  | .swapInstant _ => ⟨0, false⟩
  | .castle _ => ⟨0, false⟩
  | .placementUpdate _ => ⟨0, false⟩
  | .forwardingExpiry _ => ⟨0, false⟩
  | .contextDrain _ => ⟨0, false⟩
  | .correctableError _ => ⟨0, false⟩
  | .uncorrectableError _ => ⟨0, false⟩
  | .scrub _ => ⟨0, false⟩
  | .doorbellWrite _ _ => ⟨0, false⟩
  | .jobDescriptor _ _ _ _ _ => ⟨0, false⟩
  | .jobCompletion _ => ⟨0, false⟩
  | .hostApertureAccess _ _ _ _ _ => ⟨0, false⟩
  | .bilathMemoryWrite _ _ _ _ => ⟨0, false⟩
  | .bilathClassMessage _ _ _ _ _ _ => ⟨0, false⟩
  | .macsecFrameDrop _ => ⟨0, false⟩
  | .spdmRequest _ _ _ => ⟨0, false⟩
  | .tdispLock _ => ⟨0, false⟩
  | .tdispUnlock _ => ⟨0, false⟩
  | .contextCreate _ _ _ => ⟨0, false⟩
  | .semaphoreAssign _ _ _ => ⟨0, false⟩
  | .castlingControlWordWrite _ _ => ⟨0, false⟩
  | .partitionRangeWrite _ _ _ => ⟨0, false⟩
  | .telemetryRead _ => ⟨0, false⟩
  | .boot _ _ _ => ⟨0, false⟩
  | .thermalTrip => ⟨0, false⟩
  | .monitorSample _ _ _ => ⟨0, false⟩
  | .hbmRefresh _ => ⟨0, false⟩
  | .phyCalibration _ => ⟨0, false⟩
  | .serviceMessageDelivery _ => ⟨0, false⟩
  | .cxlCacheResponse _ => ⟨0, false⟩
  | .formatWindowWrite _ _ _ _ => ⟨0, false⟩
  | .partitionCreation _ _ _ _ _ _ _ _ => ⟨0, false⟩
  | .keySlotFill _ _ _ => ⟨0, false⟩
  | .systemImageTimer _ _ => ⟨0, false⟩
  | .bilathRetransmission _ => ⟨0, false⟩
  | .corePowerGating _ _ => ⟨0, false⟩

/-- A well-formed instruction: a legal predicate and fields that its form accepts (R63 step 3). -/
def Instr.wf (i : Instr) : Bool := i.pred.wf && i.fieldsOk

end Sys2Proof
end

