-- ==== Sys2Proof/Decode.lean ====
section
/-!
DEFINITION. Decode: the instruction word (R49 to R61). `decodeWord` is total: it answers an instruction or the check of R63
step 3 that the word fails. `encode` writes the word of a well-formed instruction from the same tables.
-/
namespace Sys2Proof

/-- The `len` bits of `w` from bit `lo` on, as a number. -/
def fld {n : Nat} (w : BitVec n) (lo len : Nat) : Nat := w.toNat / 2 ^ lo % 2 ^ len

/-- The code of a type (R59). -/
def Ty.code (t : Ty) : Nat :=
  match t with
  | .i64 => 0 | .i32 => 1 | .i16 => 2 | .i8 => 3 | .n64 => 4 | .n32 => 5 | .n16 => 6 | .n8 => 7
  | .f64 => 8 | .f32 => 9 | .f16 => 10 | .bf16 => 11 | .e4m3 => 12 | .e5m2 => 13 | .e2m1 => 14 | .auto => 15
/-- The type of a code (R59). -/
def Ty.ofCode (n : Nat) : Option Ty :=
  [Ty.i64, .i32, .i16, .i8, .n64, .n32, .n16, .n8, .f64, .f32, .f16, .bf16, .e4m3, .e5m2, .e2m1, .auto][n]?
/-- The code of a rounding mode (R59). -/
def Rnd.code (t : Rnd) : Nat :=
  match t with
  | .rne => 0 | .rtz => 1 | .rdn => 2 | .rup => 3
/-- The rounding mode of a code (R59). -/
def Rnd.ofCode (n : Nat) : Option Rnd := [Rnd.rne, .rtz, .rdn, .rup][n]?
/-- The code of a reading (R59). -/
def Rd.code (t : Rd) : Nat :=
  match t with
  | .fin => 0 | .nan => 1 | .ieee => 2 | .tag => 3
/-- The reading of a code (R59). -/
def Rd.ofCode (n : Nat) : Option Rd := [Rd.fin, .nan, .ieee, .tag][n]?
/-- The code of a condition (R59). -/
def Cc.code (t : Cc) : Nat :=
  match t with
  | .eq => 0 | .ne => 1 | .lt => 2 | .le => 3 | .gt => 4 | .ge => 5 | .ord => 6 | .uno => 7
/-- The condition of a code (R59). -/
def Cc.ofCode (n : Nat) : Option Cc := [Cc.eq, .ne, .lt, .le, .gt, .ge, .ord, .uno][n]?
/-- The code of an op (R59). -/
def AOp.code (t : AOp) : Nat :=
  match t with
  | .add => 0 | .min => 1 | .max => 2 | .and => 3 | .or => 4 | .xor => 5 | .swap => 6
/-- The op of a code; 7 is reserved (R59). -/
def AOp.ofCode (n : Nat) : Option AOp := [AOp.add, .min, .max, .and, .or, .xor, .swap][n]?
/-- The code of a scope (R59). -/
def Scope.code (t : Scope) : Nat :=
  match t with
  | .clu => 0 | .die => 1 | .dev => 2 | .sys => 3
/-- The scope of a code (R59). -/
def Scope.ofCode (n : Nat) : Option Scope := [Scope.clu, .die, .dev, .sys][n]?
/-- The code of a path (R59). -/
def Path.code (t : Path) : Nat :=
  match t with
  | .C => 0 | .K => 1 | .X => 2 | .G => 3 | .U => 4 | .M => 5 | .T => 6 | .P => 7 | .H => 8
/-- The path of a code; 9 to 15 are reserved (R59). -/
def Path.ofCode (n : Nat) : Option Path := [Path.C, .K, .X, .G, .U, .M, .T, .P, .H][n]?

/-- The operand byte of a scalar register (R53). -/
def sCode (r : Fin 32) : Byte := BitVec.ofNat 8 r.val
/-- A scalar register position (R53, R54). -/
def getS (b : Byte) : Option (Fin 32) := if b.toNat < 32 then some (Fin.ofNat 32 b.toNat) else none
/-- The operand byte of a scalar position (R53, R56). -/
def SOp.code (o : SOp) : Byte :=
  match o with
  | .s r => BitVec.ofNat 8 r.val
  | .sc k => BitVec.ofNat 8 (112 + k.val)
/-- A scalar position that accepts shortcuts (R54, R56). -/
def getSOp (b : Byte) : Option SOp :=
  if b.toNat < 32 then some (.s (Fin.ofNat 32 b.toNat))
  else if 112 ≤ b.toNat ∧ b.toNat < 128 then some (.sc (Fin.ofNat 16 (b.toNat - 112)))
  else none
/-- The operand byte of a vector position (R53). -/
def VOp.code (o : VOp) : Byte :=
  match o with
  | .v r => BitVec.ofNat 8 (32 + r.val)
  | .q r => BitVec.ofNat 8 (80 + r.val)
  | .x i k => BitVec.ofNat 8 (128 + 16 * i.val + k.val)
/-- A vector position (R53, R54). -/
def getVOp (b : Byte) : Option VOp :=
  if 128 ≤ b.toNat then some (.x (Fin.ofNat 8 ((b.toNat - 128) / 16)) (Fin.ofNat 16 (b.toNat % 16)))
  else if 32 ≤ b.toNat ∧ b.toNat < 64 then some (.v (Fin.ofNat 32 (b.toNat - 32)))
  else if 80 ≤ b.toNat ∧ b.toNat < 96 then some (.q (Fin.ofNat 16 (b.toNat - 80)))
  else none
/-- The operand byte of a matrix register (R53). -/
def mCode (r : Fin 8) : Byte := BitVec.ofNat 8 (64 + r.val)
/-- A matrix register position (R53, R54). -/
def getM (b : Byte) : Option (Fin 8) := if 64 ≤ b.toNat ∧ b.toNat < 72 then some (Fin.ofNat 8 (b.toNat - 64)) else none
/-- The operand byte of a queue register (R53). -/
def qCode (r : Fin 16) : Byte := BitVec.ofNat 8 (80 + r.val)
/-- A queue register position (R53, R54). -/
def getQ (b : Byte) : Option (Fin 16) := if 80 ≤ b.toNat ∧ b.toNat < 96 then some (Fin.ofNat 16 (b.toNat - 80)) else none
/-- The operand byte of a bound queue register, q0 to q7 (R333). -/
def q8Code (r : Fin 8) : Byte := BitVec.ofNat 8 (80 + r.val)
/-- A position that accepts q0 to q7 (R333). -/
def getQ8 (b : Byte) : Option (Fin 8) := if 80 ≤ b.toNat ∧ b.toNat < 88 then some (Fin.ofNat 8 (b.toNat - 80)) else none
/-- The operand byte of a predicate register (R53). -/
def pCode (r : Fin 8) : Byte := BitVec.ofNat 8 (96 + r.val)
/-- A predicate register position (R53, R54). -/
def getP (b : Byte) : Option (Fin 8) := if 96 ≤ b.toNat ∧ b.toNat < 104 then some (Fin.ofNat 8 (b.toNat - 96)) else none
/-- The operand byte of an index register (R53). -/
def xCode (r : Fin 8) : Byte := BitVec.ofNat 8 (104 + r.val)
/-- An index register position (R53, R54). -/
def getX (b : Byte) : Option (Fin 8) := if 104 ≤ b.toNat ∧ b.toNat < 112 then some (Fin.ofNat 8 (b.toNat - 104)) else none
/-- The operand byte of a `pmov` position (R110). -/
def PSOp.code (o : PSOp) : Byte :=
  match o with
  | .p r => pCode r
  | .s a => a.code
/-- A `pmov` position (R110). -/
def getPSOp (b : Byte) : Option PSOp :=
  match getP b with
  | some r => some (.p r)
  | none => (getSOp b).map .s
/-- The operand byte of an `xmov` source (R111). -/
def XSOp.code (o : XSOp) : Byte :=
  match o with
  | .x r => xCode r
  | .s a => a.code
/-- An `xmov` source (R111). -/
def getXSOp (b : Byte) : Option XSOp :=
  match getX b with
  | some r => some (.x r)
  | none => (getSOp b).map .s

/-- The PRED field of a predicate (R49). -/
def Pred.code (p : Pred) : BitVec 4 := BitVec.ofNat 4 (p.idx.val + 8 * p.neg.toNat)
/-- The predicate of a PRED field (R49). -/
def getPred (b : BitVec 4) : Pred := { idx := Fin.ofNat 8 (b.toNat % 8), neg := (8 ≤ b.toNat) }

/-- FN of OP3, OP4 and I32 (R58). -/
def fn3 (rd sel flag rnd ty2 ty : Nat) : W16 :=
  BitVec.ofNat 16 (ty + ty2 * 16 + rnd * 256 + flag * 1024 + sel * 2048 + rd * 16384)
/-- FN of MEM (R58); FROM stands in the place of PATH. -/
def fnM (path scope sel flag rd ty : Nat) : W16 :=
  BitVec.ofNat 16 (ty + rd * 16 + flag * 64 + sel * 128 + scope * 1024 + path * 4096)
/-- FN of ENG (R58); no ENG form uses SEL. -/
def fnE (gran rd ty2 ty : Nat) : W16 := BitVec.ofNat 16 (ty + ty2 * 16 + rd * 2048 + gran * 8192)
/-- FN of SYS (R58); no SYS form uses SEL. -/
def fnS (scope flag : Nat) : W16 := BitVec.ofNat 16 (flag * 32 + scope * 64)

/-- The fields of a word with opcode `opc` and format `fmt` (R49). -/
def raw (opc fmt : Nat) (p : Pred) (dst sa sb sc : Byte) (fn : W16) (imm : W32) : Raw :=
  { opc := BitVec.ofNat 8 opc, pred := p.code, fmt := BitVec.ofNat 4 fmt, dst := dst, sa := sa, sb := sb, sc := sc,
    fn := fn, imm := imm }

/-- All fields zero: the word of no instruction (R60). -/
def zeroRaw : Raw := { opc := 0, pred := 0, fmt := 0, dst := 0, sa := 0, sb := 0, sc := 0, fn := 0, imm := 0 }

/-- The word of a `Bare` form (R49 to R52, R58). -/
def encBare (opc fmt : Nat) (o : Bare) : Raw :=
  raw opc fmt o.p (0) (0) (0) (0) (0) (0)

/-- The fields of a `Bare` form, where its operands have the classes it accepts (R54). -/
def getBare (r : Raw) : Option Bare := do
  some { p := getPred r.pred }

/-- The word of a `SAlu` form (R49 to R52, R58). -/
def encSAlu (opc fmt : Nat) (o : SAlu) : Raw :=
  raw opc fmt o.p (SOp.code o.d) (SOp.code o.a) (SOp.code o.b) (0) (fn3 0 0 o.sat.toNat 0 0 o.t.code) (0)

/-- The fields of a `SAlu` form, where its operands have the classes it accepts (R54). -/
def getSAlu (r : Raw) : Option SAlu := do
  let d ← getSOp r.dst
  let a ← getSOp r.sa
  let b ← getSOp r.sb
  let t ← Ty.ofCode (fld r.fn 0 4)
  some { p := getPred r.pred, d := d, a := a, b := b, sat := (fld r.fn 10 1 == 1), t := t }

/-- The word of a `SUn` form (R49 to R52, R58). -/
def encSUn (opc fmt : Nat) (o : SUn) : Raw :=
  raw opc fmt o.p (SOp.code o.d) (SOp.code o.a) (0) (0) (fn3 0 0 0 0 0 o.t.code) (0)

/-- The fields of a `SUn` form, where its operands have the classes it accepts (R54). -/
def getSUn (r : Raw) : Option SUn := do
  let d ← getSOp r.dst
  let a ← getSOp r.sa
  let t ← Ty.ofCode (fld r.fn 0 4)
  some { p := getPred r.pred, d := d, a := a, t := t }

/-- The word of a `SImm` form (R49 to R52, R58). -/
def encSImm (opc fmt : Nat) (o : SImm) : Raw :=
  raw opc fmt o.p (SOp.code o.d) (SOp.code o.a) (0) (0) (fn3 0 0 o.sat.toNat 0 0 o.t.code) (o.imm)

/-- The fields of a `SImm` form, where its operands have the classes it accepts (R54). -/
def getSImm (r : Raw) : Option SImm := do
  let d ← getSOp r.dst
  let a ← getSOp r.sa
  let t ← Ty.ofCode (fld r.fn 0 4)
  some { p := getPred r.pred, d := d, a := a, sat := (fld r.fn 10 1 == 1), t := t, imm := r.imm }

/-- The word of a `SBf` form (R49 to R52, R58). -/
def encSBf (opc fmt : Nat) (o : SBf) : Raw :=
  raw opc fmt o.p (SOp.code o.d) (SOp.code o.a) (SOp.code o.b) (SOp.code o.c) (fn3 0 0 0 0 0 o.t.code) (0)

/-- The fields of a `SBf` form, where its operands have the classes it accepts (R54). -/
def getSBf (r : Raw) : Option SBf := do
  let d ← getSOp r.dst
  let a ← getSOp r.sa
  let b ← getSOp r.sb
  let c ← getSOp r.sc
  let t ← Ty.ofCode (fld r.fn 0 4)
  some { p := getPred r.pred, d := d, a := a, b := b, c := c, t := t }

/-- The word of a `SSel` form (R49 to R52, R58). -/
def encSSel (opc fmt : Nat) (o : SSel) : Raw :=
  raw opc fmt o.p (SOp.code o.d) (SOp.code o.a) (SOp.code o.b) (pCode o.c) (0) (0)

/-- The fields of a `SSel` form, where its operands have the classes it accepts (R54). -/
def getSSel (r : Raw) : Option SSel := do
  let d ← getSOp r.dst
  let a ← getSOp r.sa
  let b ← getSOp r.sb
  let c ← getP r.sc
  some { p := getPred r.pred, d := d, a := a, b := b, c := c }

/-- The word of a `SLi` form (R49 to R52, R58). -/
def encSLi (opc fmt : Nat) (o : SLi) : Raw :=
  raw opc fmt o.p (sCode o.d) (0) (0) (0) (o.imm.extractLsb' 0 16) (o.imm.extractLsb' 16 32)

/-- The fields of a `SLi` form, where its operands have the classes it accepts (R54). -/
def getSLi (r : Raw) : Option SLi := do
  let d ← getS r.dst
  some { p := getPred r.pred, d := d, imm := r.imm ++ r.fn }

/-- The word of a `SIp` form (R49 to R52, R58). -/
def encSIp (opc fmt : Nat) (o : SIp) : Raw :=
  raw opc fmt o.p (SOp.code o.d) (0) (0) (0) (0) (o.imm)

/-- The fields of a `SIp` form, where its operands have the classes it accepts (R54). -/
def getSIp (r : Raw) : Option SIp := do
  let d ← getSOp r.dst
  some { p := getPred r.pred, d := d, imm := r.imm }

/-- The word of a `SLea` form (R49 to R52, R58). -/
def encSLea (opc fmt : Nat) (o : SLea) : Raw :=
  raw opc fmt o.p (sCode o.d) (sCode o.a) (0) (0) (0) (o.disp)

/-- The fields of a `SLea` form, where its operands have the classes it accepts (R54). -/
def getSLea (r : Raw) : Option SLea := do
  let d ← getS r.dst
  let a ← getS r.sa
  some { p := getPred r.pred, d := d, a := a, disp := r.imm }

/-- The word of a `SMov` form (R49 to R52, R58). -/
def encSMov (opc fmt : Nat) (o : SMov) : Raw :=
  raw opc fmt o.p (SOp.code o.d) (SOp.code o.a) (0) (0) (0) (0)

/-- The fields of a `SMov` form, where its operands have the classes it accepts (R54). -/
def getSMov (r : Raw) : Option SMov := do
  let d ← getSOp r.dst
  let a ← getSOp r.sa
  some { p := getPred r.pred, d := d, a := a }

/-- The word of a `SCmp` form (R49 to R52, R58). -/
def encSCmp (opc fmt : Nat) (o : SCmp) : Raw :=
  raw opc fmt o.p (pCode o.d) (SOp.code o.a) (SOp.code o.b) (0) (fn3 0 o.cc.code 0 0 0 o.t.code) (0)

/-- The fields of a `SCmp` form, where its operands have the classes it accepts (R54). -/
def getSCmp (r : Raw) : Option SCmp := do
  let d ← getP r.dst
  let a ← getSOp r.sa
  let b ← getSOp r.sb
  let cc ← Cc.ofCode (fld r.fn 11 3)
  let t ← Ty.ofCode (fld r.fn 0 4)
  some { p := getPred r.pred, d := d, a := a, b := b, cc := cc, t := t }

/-- The word of a `P3` form (R49 to R52, R58). -/
def encP3 (opc fmt : Nat) (o : P3) : Raw :=
  raw opc fmt o.p (pCode o.d) (pCode o.a) (pCode o.b) (0) (0) (0)

/-- The fields of a `P3` form, where its operands have the classes it accepts (R54). -/
def getP3 (r : Raw) : Option P3 := do
  let d ← getP r.dst
  let a ← getP r.sa
  let b ← getP r.sb
  some { p := getPred r.pred, d := d, a := a, b := b }

/-- The word of a `P2` form (R49 to R52, R58). -/
def encP2 (opc fmt : Nat) (o : P2) : Raw :=
  raw opc fmt o.p (pCode o.d) (pCode o.a) (0) (0) (0) (0)

/-- The fields of a `P2` form, where its operands have the classes it accepts (R54). -/
def getP2 (r : Raw) : Option P2 := do
  let d ← getP r.dst
  let a ← getP r.sa
  some { p := getPred r.pred, d := d, a := a }

/-- The word of a `PMov` form (R49 to R52, R58). -/
def encPMov (opc fmt : Nat) (o : PMov) : Raw :=
  raw opc fmt o.p (PSOp.code o.d) (PSOp.code o.a) (0) (0) (0) (0)

/-- The fields of a `PMov` form, where its operands have the classes it accepts (R54). -/
def getPMov (r : Raw) : Option PMov := do
  let d ← getPSOp r.dst
  let a ← getPSOp r.sa
  some { p := getPred r.pred, d := d, a := a }

/-- The word of a `PCnt` form (R49 to R52, R58). -/
def encPCntP (opc fmt : Nat) (o : PCnt) : Raw :=
  raw opc fmt o.p (SOp.code o.d) (pCode o.a) (0) (0) (0) (0)

/-- The fields of a `PCnt` form, where its operands have the classes it accepts (R54). -/
def getPCntP (r : Raw) : Option PCnt := do
  let d ← getSOp r.dst
  let a ← getP r.sa
  some { p := getPred r.pred, d := d, a := a }

/-- The word of a `PCnt` form (R49 to R52, R58). -/
def encPCntX (opc fmt : Nat) (o : PCnt) : Raw :=
  raw opc fmt o.p (SOp.code o.d) (xCode o.a) (0) (0) (0) (0)

/-- The fields of a `PCnt` form, where its operands have the classes it accepts (R54). -/
def getPCntX (r : Raw) : Option PCnt := do
  let d ← getSOp r.dst
  let a ← getX r.sa
  some { p := getPred r.pred, d := d, a := a }

/-- The word of a `XSet` form (R49 to R52, R58). -/
def encXSet (opc fmt : Nat) (o : XSet) : Raw :=
  raw opc fmt o.p (xCode o.d) (0) (0) (0) (0) (o.imm)

/-- The fields of a `XSet` form, where its operands have the classes it accepts (R54). -/
def getXSet (r : Raw) : Option XSet := do
  let d ← getX r.dst
  some { p := getPred r.pred, d := d, imm := r.imm }

/-- The word of a `XAdd` form (R49 to R52, R58). -/
def encXAdd (opc fmt : Nat) (o : XAdd) : Raw :=
  raw opc fmt o.p (xCode o.d) (xCode o.a) (0) (0) (0) (BitVec.ofNat 32 (o.add.toNat + o.m.toNat * 65536))

/-- The fields of a `XAdd` form, where its operands have the classes it accepts (R54). -/
def getXAdd (r : Raw) : Option XAdd := do
  let d ← getX r.dst
  let a ← getX r.sa
  some { p := getPred r.pred, d := d, a := a, add := BitVec.ofNat 16 (fld r.imm 0 16), m := BitVec.ofNat 16 (fld r.imm 16 16) }

/-- The word of a `XMov` form (R49 to R52, R58). -/
def encXMov (opc fmt : Nat) (o : XMov) : Raw :=
  raw opc fmt o.p (xCode o.d) (XSOp.code o.a) (0) (0) (0) (0)

/-- The fields of a `XMov` form, where its operands have the classes it accepts (R54). -/
def getXMov (r : Raw) : Option XMov := do
  let d ← getX r.dst
  let a ← getXSOp r.sa
  some { p := getPred r.pred, d := d, a := a }

/-- The word of a `BrP` form (R49 to R52, R58). -/
def encBrP (opc fmt : Nat) (o : BrP) : Raw :=
  raw opc fmt o.p (pCode o.c) (0) (0) (0) (0) (o.tgt)

/-- The fields of a `BrP` form, where its operands have the classes it accepts (R54). -/
def getBrP (r : Raw) : Option BrP := do
  let c ← getP r.dst
  some { p := getPred r.pred, c := c, tgt := r.imm }

/-- The word of a `BrJ` form (R49 to R52, R58). -/
def encBrJ (opc fmt : Nat) (o : BrJ) : Raw :=
  raw opc fmt o.p (0) (0) (0) (0) (0) (o.tgt)

/-- The fields of a `BrJ` form, where its operands have the classes it accepts (R54). -/
def getBrJ (r : Raw) : Option BrJ := do
  some { p := getPred r.pred, tgt := r.imm }

/-- The word of a `BrD` form (R49 to R52, R58). -/
def encBrD (opc fmt : Nat) (o : BrD) : Raw :=
  raw opc fmt o.p (sCode o.d) (0) (0) (0) (0) (o.tgt)

/-- The fields of a `BrD` form, where its operands have the classes it accepts (R54). -/
def getBrD (r : Raw) : Option BrD := do
  let d ← getS r.dst
  some { p := getPred r.pred, d := d, tgt := r.imm }

/-- The word of a `SA1` form (R49 to R52, R58). -/
def encSA1 (opc fmt : Nat) (o : SA1) : Raw :=
  raw opc fmt o.p (0) (sCode o.a) (0) (0) (0) (0)

/-- The fields of a `SA1` form, where its operands have the classes it accepts (R54). -/
def getSA1 (r : Raw) : Option SA1 := do
  let a ← getS r.sa
  some { p := getPred r.pred, a := a }

/-- The word of a `SD1` form (R49 to R52, R58). -/
def encSD1 (opc fmt : Nat) (o : SD1) : Raw :=
  raw opc fmt o.p (sCode o.d) (0) (0) (0) (0) (0)

/-- The fields of a `SD1` form, where its operands have the classes it accepts (R54). -/
def getSD1 (r : Raw) : Option SD1 := do
  let d ← getS r.dst
  some { p := getPred r.pred, d := d }

/-- The word of a `SD2` form (R49 to R52, R58). -/
def encSD2 (opc fmt : Nat) (o : SD2) : Raw :=
  raw opc fmt o.p (sCode o.d) (sCode o.a) (0) (0) (0) (0)

/-- The fields of a `SD2` form, where its operands have the classes it accepts (R54). -/
def getSD2 (r : Raw) : Option SD2 := do
  let d ← getS r.dst
  let a ← getS r.sa
  some { p := getPred r.pred, d := d, a := a }

/-- The word of a `SA2` form (R49 to R52, R58). -/
def encSA2 (opc fmt : Nat) (o : SA2) : Raw :=
  raw opc fmt o.p (0) (sCode o.a) (sCode o.b) (0) (0) (0)

/-- The fields of a `SA2` form, where its operands have the classes it accepts (R54). -/
def getSA2 (r : Raw) : Option SA2 := do
  let a ← getS r.sa
  let b ← getS r.sb
  some { p := getPred r.pred, a := a, b := b }

/-- The word of a `S3` form (R49 to R52, R58). -/
def encS3 (opc fmt : Nat) (o : S3) : Raw :=
  raw opc fmt o.p (sCode o.d) (sCode o.a) (sCode o.b) (0) (0) (0)

/-- The fields of a `S3` form, where its operands have the classes it accepts (R54). -/
def getS3 (r : Raw) : Option S3 := do
  let d ← getS r.dst
  let a ← getS r.sa
  let b ← getS r.sb
  some { p := getPred r.pred, d := d, a := a, b := b }

/-- The word of a `S4` form (R49 to R52, R58). -/
def encS4 (opc fmt : Nat) (o : S4) : Raw :=
  raw opc fmt o.p (sCode o.d) (sCode o.a) (sCode o.b) (sCode o.c) (0) (0)

/-- The fields of a `S4` form, where its operands have the classes it accepts (R54). -/
def getS4 (r : Raw) : Option S4 := do
  let d ← getS r.dst
  let a ← getS r.sa
  let b ← getS r.sb
  let c ← getS r.sc
  some { p := getPred r.pred, d := d, a := a, b := b, c := c }

/-- The word of a `SA3` form (R49 to R52, R58). -/
def encSA3 (opc fmt : Nat) (o : SA3) : Raw :=
  raw opc fmt o.p (0) (sCode o.a) (sCode o.b) (sCode o.c) (0) (0)

/-- The fields of a `SA3` form, where its operands have the classes it accepts (R54). -/
def getSA3 (r : Raw) : Option SA3 := do
  let a ← getS r.sa
  let b ← getS r.sb
  let c ← getS r.sc
  some { p := getPred r.pred, a := a, b := b, c := c }

/-- The word of a `MemS` form (R49 to R52, R58). -/
def encMemS (opc fmt : Nat) (o : MemS) : Raw :=
  raw opc fmt o.p (sCode o.d) (sCode o.a) (0) (0) (fnM 0 0 0 0 0 o.t.code) (o.disp)

/-- The fields of a `MemS` form, where its operands have the classes it accepts (R54). -/
def getMemS (r : Raw) : Option MemS := do
  let d ← getS r.dst
  let a ← getS r.sa
  let t ← Ty.ofCode (fld r.fn 0 4)
  some { p := getPred r.pred, d := d, a := a, t := t, disp := r.imm }

/-- The word of a `MemV` form (R49 to R52, R58). -/
def encMemV (opc fmt : Nat) (o : MemV) : Raw :=
  raw opc fmt o.p (VOp.code o.d) (sCode o.a) (0) (0) (0) (o.disp)

/-- The fields of a `MemV` form, where its operands have the classes it accepts (R54). -/
def getMemV (r : Raw) : Option MemV := do
  let d ← getVOp r.dst
  let a ← getS r.sa
  some { p := getPred r.pred, d := d, a := a, disp := r.imm }

/-- The word of a `MemC` form (R49 to R52, R58). -/
def encMemC (opc fmt : Nat) (o : MemC) : Raw :=
  raw opc fmt o.p (VOp.code o.d) (sCode o.a) (0) (0) (fnM o.src.code 0 0 0 o.rd.code o.t.code) (o.disp)

/-- The fields of a `MemC` form, where its operands have the classes it accepts (R54). -/
def getMemC (r : Raw) : Option MemC := do
  let d ← getVOp r.dst
  let a ← getS r.sa
  let src ← Ty.ofCode (fld r.fn 12 4)
  let rd ← Rd.ofCode (fld r.fn 4 2)
  let t ← Ty.ofCode (fld r.fn 0 4)
  some { p := getPred r.pred, d := d, a := a, src := src, rd := rd, t := t, disp := r.imm }

/-- The word of a `MemM` form (R49 to R52, R58). -/
def encMemM (opc fmt : Nat) (o : MemM) : Raw :=
  raw opc fmt o.p (VOp.code o.d) (sCode o.a) (sCode o.b) (0) (0) (o.disp)

/-- The fields of a `MemM` form, where its operands have the classes it accepts (R54). -/
def getMemM (r : Raw) : Option MemM := do
  let d ← getVOp r.dst
  let a ← getS r.sa
  let b ← getS r.sb
  some { p := getPred r.pred, d := d, a := a, b := b, disp := r.imm }

/-- The word of a `MemA` form (R49 to R52, R58). -/
def encMemA (opc fmt : Nat) (o : MemA) : Raw :=
  raw opc fmt o.p (0) (sCode o.a) (0) (0) (0) (o.disp)

/-- The fields of a `MemA` form, where its operands have the classes it accepts (R54). -/
def getMemA (r : Raw) : Option MemA := do
  let a ← getS r.sa
  some { p := getPred r.pred, a := a, disp := r.imm }

/-- The word of a `VGs` form (R49 to R52, R58). -/
def encVGs (opc fmt : Nat) (o : VGs) : Raw :=
  raw opc fmt o.p (VOp.code o.d) (sCode o.a) (VOp.code o.b) (0) (fnM 0 0 0 0 0 o.t.code) (o.disp)

/-- The fields of a `VGs` form, where its operands have the classes it accepts (R54). -/
def getVGs (r : Raw) : Option VGs := do
  let d ← getVOp r.dst
  let a ← getS r.sa
  let b ← getVOp r.sb
  let t ← Ty.ofCode (fld r.fn 0 4)
  some { p := getPred r.pred, d := d, a := a, b := b, t := t, disp := r.imm }

/-- The word of a `Code` form (R49 to R52, R58). -/
def encCode (opc fmt : Nat) (o : Code) : Raw :=
  raw opc fmt o.p (0) (0) (0) (0) (0) (BitVec.ofNat 32 (o.code.toNat))

/-- The fields of a `Code` form, where its operands have the classes it accepts (R54). -/
def getCode (r : Raw) : Option Code := do
  some { p := getPred r.pred, code := BitVec.ofNat 24 (fld r.imm 0 24) }

/-- The word of a `MfsO` form (R49 to R52, R58). -/
def encMfsO (opc fmt : Nat) (o : MfsO) : Raw :=
  raw opc fmt o.p (sCode o.d) (0) (0) (0) (0) (BitVec.ofNat 32 (o.num.toNat))

/-- The fields of a `MfsO` form, where its operands have the classes it accepts (R54). -/
def getMfsO (r : Raw) : Option MfsO := do
  let d ← getS r.dst
  some { p := getPred r.pred, d := d, num := BitVec.ofNat 12 (fld r.imm 0 12) }

/-- The word of a `MtsO` form (R49 to R52, R58). -/
def encMtsO (opc fmt : Nat) (o : MtsO) : Raw :=
  raw opc fmt o.p (0) (sCode o.a) (0) (0) (0) (BitVec.ofNat 32 (o.num.toNat))

/-- The fields of a `MtsO` form, where its operands have the classes it accepts (R54). -/
def getMtsO (r : Raw) : Option MtsO := do
  let a ← getS r.sa
  some { p := getPred r.pred, a := a, num := BitVec.ofNat 12 (fld r.imm 0 12) }

/-- The word of a `VBin` form (R49 to R52, R58). -/
def encVBin (opc fmt : Nat) (o : VBin) : Raw :=
  raw opc fmt o.p (VOp.code o.d) (VOp.code o.a) (VOp.code o.b) (0) (fn3 0 0 o.sat.toNat o.rnd.code 0 o.t.code) (0)

/-- The fields of a `VBin` form, where its operands have the classes it accepts (R54). -/
def getVBin (r : Raw) : Option VBin := do
  let d ← getVOp r.dst
  let a ← getVOp r.sa
  let b ← getVOp r.sb
  let rnd ← Rnd.ofCode (fld r.fn 8 2)
  let t ← Ty.ofCode (fld r.fn 0 4)
  some { p := getPred r.pred, d := d, a := a, b := b, sat := (fld r.fn 10 1 == 1), rnd := rnd, t := t }

/-- The word of a `VUn` form (R49 to R52, R58). -/
def encVUn (opc fmt : Nat) (o : VUn) : Raw :=
  raw opc fmt o.p (VOp.code o.d) (VOp.code o.a) (0) (0) (fn3 0 0 o.sat.toNat o.rnd.code 0 o.t.code) (0)

/-- The fields of a `VUn` form, where its operands have the classes it accepts (R54). -/
def getVUn (r : Raw) : Option VUn := do
  let d ← getVOp r.dst
  let a ← getVOp r.sa
  let rnd ← Rnd.ofCode (fld r.fn 8 2)
  let t ← Ty.ofCode (fld r.fn 0 4)
  some { p := getPred r.pred, d := d, a := a, sat := (fld r.fn 10 1 == 1), rnd := rnd, t := t }

/-- The word of a `VTri` form (R49 to R52, R58). -/
def encVTri (opc fmt : Nat) (o : VTri) : Raw :=
  raw opc fmt o.p (VOp.code o.d) (VOp.code o.a) (VOp.code o.b) (VOp.code o.c) (fn3 0 0 o.sat.toNat o.rnd.code 0 o.t.code) (0)

/-- The fields of a `VTri` form, where its operands have the classes it accepts (R54). -/
def getVTri (r : Raw) : Option VTri := do
  let d ← getVOp r.dst
  let a ← getVOp r.sa
  let b ← getVOp r.sb
  let c ← getVOp r.sc
  let rnd ← Rnd.ofCode (fld r.fn 8 2)
  let t ← Ty.ofCode (fld r.fn 0 4)
  some { p := getPred r.pred, d := d, a := a, b := b, c := c, sat := (fld r.fn 10 1 == 1), rnd := rnd, t := t }

/-- The word of a `VCmp` form (R49 to R52, R58). -/
def encVCmp (opc fmt : Nat) (o : VCmp) : Raw :=
  raw opc fmt o.p (pCode o.d) (VOp.code o.a) (VOp.code o.b) (0) (fn3 0 o.cc.code 0 0 0 o.t.code) (0)

/-- The fields of a `VCmp` form, where its operands have the classes it accepts (R54). -/
def getVCmp (r : Raw) : Option VCmp := do
  let d ← getP r.dst
  let a ← getVOp r.sa
  let b ← getVOp r.sb
  let cc ← Cc.ofCode (fld r.fn 11 3)
  let t ← Ty.ofCode (fld r.fn 0 4)
  some { p := getPred r.pred, d := d, a := a, b := b, cc := cc, t := t }

/-- The word of a `VSel` form (R49 to R52, R58). -/
def encVSel (opc fmt : Nat) (o : VSel) : Raw :=
  raw opc fmt o.p (VOp.code o.d) (VOp.code o.a) (VOp.code o.b) (pCode o.c) (fn3 0 0 0 0 0 o.t.code) (0)

/-- The fields of a `VSel` form, where its operands have the classes it accepts (R54). -/
def getVSel (r : Raw) : Option VSel := do
  let d ← getVOp r.dst
  let a ← getVOp r.sa
  let b ← getVOp r.sb
  let c ← getP r.sc
  let t ← Ty.ofCode (fld r.fn 0 4)
  some { p := getPred r.pred, d := d, a := a, b := b, c := c, t := t }

/-- The word of a `VCvt` form (R49 to R52, R58). -/
def encVCvt (opc fmt : Nat) (o : VCvt) : Raw :=
  raw opc fmt o.p (VOp.code o.d) (VOp.code o.a) (SOp.code o.b) (0) (fn3 o.rd.code 0 o.sat.toNat o.rnd.code o.src.code o.t.code) (0)

/-- The fields of a `VCvt` form, where its operands have the classes it accepts (R54). -/
def getVCvt (r : Raw) : Option VCvt := do
  let d ← getVOp r.dst
  let a ← getVOp r.sa
  let b ← getSOp r.sb
  let rd ← Rd.ofCode (fld r.fn 14 2)
  let rnd ← Rnd.ofCode (fld r.fn 8 2)
  let src ← Ty.ofCode (fld r.fn 4 4)
  let t ← Ty.ofCode (fld r.fn 0 4)
  some { p := getPred r.pred, d := d, a := a, b := b, rd := rd, sat := (fld r.fn 10 1 == 1), rnd := rnd, src := src, t := t }

/-- The word of a `VRnd` form (R49 to R52, R58). -/
def encVRnd (opc fmt : Nat) (o : VRnd) : Raw :=
  raw opc fmt o.p (VOp.code o.d) (VOp.code o.a) (0) (0) (fn3 0 0 0 o.rnd.code 0 o.t.code) (0)

/-- The fields of a `VRnd` form, where its operands have the classes it accepts (R54). -/
def getVRnd (r : Raw) : Option VRnd := do
  let d ← getVOp r.dst
  let a ← getVOp r.sa
  let rnd ← Rnd.ofCode (fld r.fn 8 2)
  let t ← Ty.ofCode (fld r.fn 0 4)
  some { p := getPred r.pred, d := d, a := a, rnd := rnd, t := t }

/-- The word of a `VLog` form (R49 to R52, R58). -/
def encVLog (opc fmt : Nat) (o : VLog) : Raw :=
  raw opc fmt o.p (VOp.code o.d) (VOp.code o.a) (VOp.code o.b) (0) (fn3 0 0 0 0 0 o.t.code) (0)

/-- The fields of a `VLog` form, where its operands have the classes it accepts (R54). -/
def getVLog (r : Raw) : Option VLog := do
  let d ← getVOp r.dst
  let a ← getVOp r.sa
  let b ← getVOp r.sb
  let t ← Ty.ofCode (fld r.fn 0 4)
  some { p := getPred r.pred, d := d, a := a, b := b, t := t }

/-- The word of a `VUnT` form (R49 to R52, R58). -/
def encVUnT (opc fmt : Nat) (o : VUnT) : Raw :=
  raw opc fmt o.p (VOp.code o.d) (VOp.code o.a) (0) (0) (fn3 0 0 0 0 0 o.t.code) (0)

/-- The fields of a `VUnT` form, where its operands have the classes it accepts (R54). -/
def getVUnT (r : Raw) : Option VUnT := do
  let d ← getVOp r.dst
  let a ← getVOp r.sa
  let t ← Ty.ofCode (fld r.fn 0 4)
  some { p := getPred r.pred, d := d, a := a, t := t }

/-- The word of a `VFromS` form (R49 to R52, R58). -/
def encVFromS (opc fmt : Nat) (o : VFromS) : Raw :=
  raw opc fmt o.p (VOp.code o.d) (SOp.code o.a) (0) (0) (fn3 0 0 0 0 0 o.t.code) (0)

/-- The fields of a `VFromS` form, where its operands have the classes it accepts (R54). -/
def getVFromS (r : Raw) : Option VFromS := do
  let d ← getVOp r.dst
  let a ← getSOp r.sa
  let t ← Ty.ofCode (fld r.fn 0 4)
  some { p := getPred r.pred, d := d, a := a, t := t }

/-- The word of a `VExt` form (R49 to R52, R58). -/
def encVExt (opc fmt : Nat) (o : VExt) : Raw :=
  raw opc fmt o.p (SOp.code o.d) (VOp.code o.a) (SOp.code o.b) (0) (fn3 0 0 0 0 0 o.t.code) (0)

/-- The fields of a `VExt` form, where its operands have the classes it accepts (R54). -/
def getVExt (r : Raw) : Option VExt := do
  let d ← getSOp r.dst
  let a ← getVOp r.sa
  let b ← getSOp r.sb
  let t ← Ty.ofCode (fld r.fn 0 4)
  some { p := getPred r.pred, d := d, a := a, b := b, t := t }

/-- The word of a `VIns` form (R49 to R52, R58). -/
def encVIns (opc fmt : Nat) (o : VIns) : Raw :=
  raw opc fmt o.p (VOp.code o.d) (SOp.code o.a) (SOp.code o.b) (0) (fn3 0 0 0 0 0 o.t.code) (0)

/-- The fields of a `VIns` form, where its operands have the classes it accepts (R54). -/
def getVIns (r : Raw) : Option VIns := do
  let d ← getVOp r.dst
  let a ← getSOp r.sa
  let b ← getSOp r.sb
  let t ← Ty.ofCode (fld r.fn 0 4)
  some { p := getPred r.pred, d := d, a := a, b := b, t := t }

/-- The word of a `VRed` form (R49 to R52, R58). -/
def encVRed (opc fmt : Nat) (o : VRed) : Raw :=
  raw opc fmt o.p (SOp.code o.d) (VOp.code o.a) (0) (0) (fn3 0 0 0 o.rnd.code 0 o.t.code) (0)

/-- The fields of a `VRed` form, where its operands have the classes it accepts (R54). -/
def getVRed (r : Raw) : Option VRed := do
  let d ← getSOp r.dst
  let a ← getVOp r.sa
  let rnd ← Rnd.ofCode (fld r.fn 8 2)
  let t ← Ty.ofCode (fld r.fn 0 4)
  some { p := getPred r.pred, d := d, a := a, rnd := rnd, t := t }

/-- The word of a `VScan` form (R49 to R52, R58). -/
def encVScan (opc fmt : Nat) (o : VScan) : Raw :=
  raw opc fmt o.p (VOp.code o.d) (VOp.code o.a) (0) (0) (fn3 0 o.op.code 0 o.rnd.code 0 o.t.code) (0)

/-- The fields of a `VScan` form, where its operands have the classes it accepts (R54). -/
def getVScan (r : Raw) : Option VScan := do
  let d ← getVOp r.dst
  let a ← getVOp r.sa
  let op ← AOp.ofCode (fld r.fn 11 3)
  let rnd ← Rnd.ofCode (fld r.fn 8 2)
  let t ← Ty.ofCode (fld r.fn 0 4)
  some { p := getPred r.pred, d := d, a := a, op := op, rnd := rnd, t := t }

/-- The word of a `V2` form (R49 to R52, R58). -/
def encV2 (opc fmt : Nat) (o : V2) : Raw :=
  raw opc fmt o.p (VOp.code o.d) (VOp.code o.a) (0) (0) (0) (0)

/-- The fields of a `V2` form, where its operands have the classes it accepts (R54). -/
def getV2 (r : Raw) : Option V2 := do
  let d ← getVOp r.dst
  let a ← getVOp r.sa
  some { p := getPred r.pred, d := d, a := a }

/-- The word of a `V2S` form (R49 to R52, R58). -/
def encV2S (opc fmt : Nat) (o : V2S) : Raw :=
  raw opc fmt o.p (VOp.code o.d) (VOp.code o.a) (SOp.code o.b) (0) (0) (0)

/-- The fields of a `V2S` form, where its operands have the classes it accepts (R54). -/
def getV2S (r : Raw) : Option V2S := do
  let d ← getVOp r.dst
  let a ← getVOp r.sa
  let b ← getSOp r.sb
  some { p := getPred r.pred, d := d, a := a, b := b }

/-- The word of a `MBld` form (R49 to R52, R58). -/
def encMBld (opc fmt : Nat) (o : MBld) : Raw :=
  raw opc fmt o.p (0) (sCode o.a) (sCode o.b) (0) (fnE o.gran.toNat o.rd.code 0 o.t.code) (BitVec.ofNat 32 (o.disp.toNat + o.pool.toNat * 16777216 + o.mac.val * 33554432))

/-- The fields of a `MBld` form, where its operands have the classes it accepts (R54). -/
def getMBld (r : Raw) : Option MBld := do
  let a ← getS r.sa
  let b ← getS r.sb
  let rd ← Rd.ofCode (fld r.fn 11 2)
  let t ← Ty.ofCode (fld r.fn 0 4)
  some { p := getPred r.pred, a := a, b := b, gran := BitVec.ofNat 3 (fld r.fn 13 3), rd := rd, t := t, disp := BitVec.ofNat 24 (fld r.imm 0 24), pool := (fld r.imm 24 1 == 1), mac := Fin.ofNat 8 (fld r.imm 25 3) }

/-- The word of a `MBrel` form (R49 to R52, R58). -/
def encMBrel (opc fmt : Nat) (o : MBrel) : Raw :=
  raw opc fmt o.p (0) (0) (0) (0) (fnE o.gran.toNat 0 0 0) (BitVec.ofNat 32 (o.mac.val * 33554432))

/-- The fields of a `MBrel` form, where its operands have the classes it accepts (R54). -/
def getMBrel (r : Raw) : Option MBrel := do
  some { p := getPred r.pred, gran := BitVec.ofNat 3 (fld r.fn 13 3), mac := Fin.ofNat 8 (fld r.imm 25 3) }

/-- The word of a `MLoc` form (R49 to R52, R58). -/
def encMLoc (opc fmt : Nat) (o : MLoc) : Raw :=
  raw opc fmt o.p (mCode o.d) (sCode o.a) (sCode o.b) (0) (fnE o.gran.toNat o.rd.code 0 o.t.code) (BitVec.ofNat 32 (o.disp.toNat + o.pool.toNat * 16777216))

/-- The fields of a `MLoc` form, where its operands have the classes it accepts (R54). -/
def getMLoc (r : Raw) : Option MLoc := do
  let d ← getM r.dst
  let a ← getS r.sa
  let b ← getS r.sb
  let rd ← Rd.ofCode (fld r.fn 11 2)
  let t ← Ty.ofCode (fld r.fn 0 4)
  some { p := getPred r.pred, d := d, a := a, b := b, gran := BitVec.ofNat 3 (fld r.fn 13 3), rd := rd, t := t, disp := BitVec.ofNat 24 (fld r.imm 0 24), pool := (fld r.imm 24 1 == 1) }

/-- The word of a `M1` form (R49 to R52, R58). -/
def encM1 (opc fmt : Nat) (o : M1) : Raw :=
  raw opc fmt o.p (mCode o.d) (0) (0) (0) (fnE o.gran.toNat 0 0 0) (0)

/-- The fields of a `M1` form, where its operands have the classes it accepts (R54). -/
def getM1 (r : Raw) : Option M1 := do
  let d ← getM r.dst
  some { p := getPred r.pred, d := d, gran := BitVec.ofNat 3 (fld r.fn 13 3) }

/-- The word of a `M2` form (R49 to R52, R58). -/
def encM2 (opc fmt : Nat) (o : M2) : Raw :=
  raw opc fmt o.p (mCode o.d) (mCode o.a) (0) (0) (fnE o.gran.toNat 0 0 0) (0)

/-- The fields of a `M2` form, where its operands have the classes it accepts (R54). -/
def getM2 (r : Raw) : Option M2 := do
  let d ← getM r.dst
  let a ← getM r.sa
  some { p := getPred r.pred, d := d, a := a, gran := BitVec.ofNat 3 (fld r.fn 13 3) }

/-- The word of a `M3` form (R49 to R52, R58). -/
def encM3 (opc fmt : Nat) (o : M3) : Raw :=
  raw opc fmt o.p (mCode o.d) (mCode o.a) (mCode o.b) (0) (fnE o.gran.toNat 0 0 0) (0)

/-- The fields of a `M3` form, where its operands have the classes it accepts (R54). -/
def getM3 (r : Raw) : Option M3 := do
  let d ← getM r.dst
  let a ← getM r.sa
  let b ← getM r.sb
  some { p := getPred r.pred, d := d, a := a, b := b, gran := BitVec.ofNat 3 (fld r.fn 13 3) }

/-- The word of a `MMul` form: a location fills DISP, LOC and SC, a matrix register leaves them zero (R173, R174). -/
def encMMul (opc fmt : Nat) (o : MMul) : Raw :=
  match o.a with
  | .reg m =>
    raw opc fmt o.p (mCode o.d) (mCode m) (sCode o.b) 0 (fnE o.gran.toNat o.rd.code 0 o.t.code)
      (BitVec.ofNat 32 (o.mac.val * 33554432))
  | .loc pool disp base stride =>
    raw opc fmt o.p (mCode o.d) (sCode base) (sCode o.b) (sCode stride) (fnE o.gran.toNat o.rd.code 0 o.t.code)
      (BitVec.ofNat 32 (disp.toNat + pool.toNat * 16777216 + o.mac.val * 33554432))

/-- The A operand of a `MMul` form (R174). -/
def getMSrc (r : Raw) : Option MSrc :=
  match getM r.sa with
  | some m => some (.reg m)
  | none =>
    match getS r.sa, getS r.sc with
    | some base, some stride => some (.loc (fld r.imm 24 1 == 1) (BitVec.ofNat 24 (fld r.imm 0 24)) base stride)
    | _, _ => none

/-- The fields of a `MMul` form (R173, R174). -/
def getMMul (r : Raw) : Option MMul := do
  let d ← getM r.dst
  let a ← getMSrc r
  let b ← getS r.sb
  let rd ← Rd.ofCode (fld r.fn 11 2)
  let t ← Ty.ofCode (fld r.fn 0 4)
  some { p := getPred r.pred, t := t, rd := rd, gran := BitVec.ofNat 3 (fld r.fn 13 3), d := d, a := a, b := b, mac := Fin.ofNat 8 (fld r.imm 25 3) }

/-- The word of a `MFac` form (R49 to R52, R58). -/
def encMFac (opc fmt : Nat) (o : MFac) : Raw :=
  raw opc fmt o.p (mCode o.d) (VOp.code o.a) (VOp.code o.b) (0) (fnE o.gran.toNat 0 0 0) (0)

/-- The fields of a `MFac` form, where its operands have the classes it accepts (R54). -/
def getMFac (r : Raw) : Option MFac := do
  let d ← getM r.dst
  let a ← getVOp r.sa
  let b ← getVOp r.sb
  some { p := getPred r.pred, d := d, a := a, b := b, gran := BitVec.ofNat 3 (fld r.fn 13 3) }

/-- The word of a `MScale` form (R49 to R52, R58). -/
def encMScale (opc fmt : Nat) (o : MScale) : Raw :=
  raw opc fmt o.p (mCode o.d) (mCode o.a) (sCode o.b) (0) (fnE o.gran.toNat 0 0 0) (0)

/-- The fields of a `MScale` form, where its operands have the classes it accepts (R54). -/
def getMScale (r : Raw) : Option MScale := do
  let d ← getM r.dst
  let a ← getM r.sa
  let b ← getS r.sb
  some { p := getPred r.pred, d := d, a := a, b := b, gran := BitVec.ofNat 3 (fld r.fn 13 3) }

/-- The word of a `MRank` form (R49 to R52, R58). -/
def encMRank (opc fmt : Nat) (o : MRank) : Raw :=
  raw opc fmt o.p (sCode o.d) (mCode o.a) (0) (0) (fnE o.gran.toNat 0 0 0) (0)

/-- The fields of a `MRank` form, where its operands have the classes it accepts (R54). -/
def getMRank (r : Raw) : Option MRank := do
  let d ← getS r.dst
  let a ← getM r.sa
  some { p := getPred r.pred, d := d, a := a, gran := BitVec.ofNat 3 (fld r.fn 13 3) }

/-- The word of a `MRec` form (R49 to R52, R58). -/
def encMRec (opc fmt : Nat) (o : MRec) : Raw :=
  raw opc fmt o.p (0) (VOp.code o.a) (0) (0) (fnE o.gran.toNat 0 0 0) (0)

/-- The fields of a `MRec` form, where its operands have the classes it accepts (R54). -/
def getMRec (r : Raw) : Option MRec := do
  let a ← getVOp r.sa
  some { p := getPred r.pred, a := a, gran := BitVec.ofNat 3 (fld r.fn 13 3) }

/-- The word of a `MRun` form (R49 to R52, R58). -/
def encMRun (opc fmt : Nat) (o : MRun) : Raw :=
  raw opc fmt o.p (mCode o.d) (mCode o.a) (0) (0) (fnE o.gran.toNat 0 0 0) (BitVec.ofNat 32 (o.mac.val * 33554432))

/-- The fields of a `MRun` form, where its operands have the classes it accepts (R54). -/
def getMRun (r : Raw) : Option MRun := do
  let d ← getM r.dst
  let a ← getM r.sa
  some { p := getPred r.pred, d := d, a := a, gran := BitVec.ofNat 3 (fld r.fn 13 3), mac := Fin.ofNat 8 (fld r.imm 25 3) }

/-- The word of a `MWait` form (R49 to R52, R58). -/
def encMWait (opc fmt : Nat) (o : MWait) : Raw :=
  raw opc fmt o.p (0) (0) (0) (0) (fnE o.gran.toNat 0 0 0) (0)

/-- The fields of a `MWait` form, where its operands have the classes it accepts (R54). -/
def getMWait (r : Raw) : Option MWait := do
  some { p := getPred r.pred, gran := BitVec.ofNat 3 (fld r.fn 13 3) }

/-- The word of a `MFree` form (R49 to R52, R58). -/
def encMFree (opc fmt : Nat) (o : MFree) : Raw :=
  raw opc fmt o.p (sCode o.d) (0) (0) (0) (fnE o.gran.toNat 0 0 0) (0)

/-- The fields of a `MFree` form, where its operands have the classes it accepts (R54). -/
def getMFree (r : Raw) : Option MFree := do
  let d ← getS r.dst
  some { p := getPred r.pred, d := d, gran := BitVec.ofNat 3 (fld r.fn 13 3) }

/-- The word of a `RayOpen` form (R49 to R52, R58). -/
def encRayOpen (opc fmt : Nat) (o : RayOpen) : Raw :=
  raw opc fmt o.p (sCode o.d) (VOp.code o.a) (0) (0) (0) (0)

/-- The fields of a `RayOpen` form, where its operands have the classes it accepts (R54). -/
def getRayOpen (r : Raw) : Option RayOpen := do
  let d ← getS r.dst
  let a ← getVOp r.sa
  some { p := getPred r.pred, d := d, a := a }

/-- The word of a `RayWait` form (R49 to R52, R58). -/
def encRayWait (opc fmt : Nat) (o : RayWait) : Raw :=
  raw opc fmt o.p (sCode o.d) (sCode o.a) (0) (0) (0) (BitVec.ofNat 32 (o.rel.toNat + o.poll.toNat * 2))

/-- The fields of a `RayWait` form, where its operands have the classes it accepts (R54). -/
def getRayWait (r : Raw) : Option RayWait := do
  let d ← getS r.dst
  let a ← getS r.sa
  some { p := getPred r.pred, d := d, a := a, rel := (fld r.imm 0 1 == 1), poll := (fld r.imm 1 1 == 1) }

/-- The word of a `HitQ` form (R49 to R52, R58). -/
def encHitQ (opc fmt : Nat) (o : HitQ) : Raw :=
  raw opc fmt o.p (VOp.code o.d) (0) (0) (0) (0) (0)

/-- The fields of a `HitQ` form, where its operands have the classes it accepts (R54). -/
def getHitQ (r : Raw) : Option HitQ := do
  let d ← getVOp r.dst
  some { p := getPred r.pred, d := d }

/-- The word of a `IvPost` form (R49 to R52, R58). -/
def encIvPost (opc fmt : Nat) (o : IvPost) : Raw :=
  raw opc fmt o.p (0) (sCode o.a) (VOp.code o.b) (0) (0) (0)

/-- The fields of a `IvPost` form, where its operands have the classes it accepts (R54). -/
def getIvPost (r : Raw) : Option IvPost := do
  let a ← getS r.sa
  let b ← getVOp r.sb
  some { p := getPred r.pred, a := a, b := b }

/-- The word of a `IvRead` form (R49 to R52, R58). -/
def encIvRead (opc fmt : Nat) (o : IvRead) : Raw :=
  raw opc fmt o.p (VOp.code o.d) (sCode o.a) (sCode o.b) (0) (0) (0)

/-- The fields of a `IvRead` form, where its operands have the classes it accepts (R54). -/
def getIvRead (r : Raw) : Option IvRead := do
  let d ← getVOp r.dst
  let a ← getS r.sa
  let b ← getS r.sb
  some { p := getPred r.pred, d := d, a := a, b := b }

/-- The word of a `IvStat` form (R49 to R52, R58). -/
def encIvStat (opc fmt : Nat) (o : IvStat) : Raw :=
  raw opc fmt o.p (sCode o.d) (sCode o.a) (0) (0) (0) (BitVec.ofNat 32 (o.sel.toNat))

/-- The fields of a `IvStat` form, where its operands have the classes it accepts (R54). -/
def getIvStat (r : Raw) : Option IvStat := do
  let d ← getS r.dst
  let a ← getS r.sa
  some { p := getPred r.pred, d := d, a := a, sel := (fld r.imm 0 1 == 1) }

/-- The word of a `Amo` form (R49 to R52, R58). -/
def encAmo (opc fmt : Nat) (o : Amo) : Raw :=
  raw opc fmt o.p (sCode o.d) (sCode o.a) (sCode o.b) (0) (fnM 0 o.scope.code o.op.code 0 0 o.t.code) (BitVec.ofNat 32 (o.disp.toNat + o.acq.toNat * 16384 + o.rel.toNat * 8388608))

/-- The fields of a `Amo` form, where its operands have the classes it accepts (R54). -/
def getAmo (r : Raw) : Option Amo := do
  let d ← getS r.dst
  let a ← getS r.sa
  let b ← getS r.sb
  let scope ← Scope.ofCode (fld r.fn 10 2)
  let op ← AOp.ofCode (fld r.fn 7 3)
  let t ← Ty.ofCode (fld r.fn 0 4)
  some { p := getPred r.pred, d := d, a := a, b := b, scope := scope, op := op, t := t, disp := BitVec.ofNat 14 (fld r.imm 0 14), acq := BitVec.ofNat 9 (fld r.imm 14 9), rel := BitVec.ofNat 9 (fld r.imm 23 9) }

/-- The word of a `Cas` form (R49 to R52, R58). -/
def encCas (opc fmt : Nat) (o : Cas) : Raw :=
  raw opc fmt o.p (sCode o.d) (sCode o.a) (sCode o.b) (sCode o.c) (fnM 0 o.scope.code 0 0 0 o.t.code) (BitVec.ofNat 32 (o.disp.toNat + o.acq.toNat * 16384 + o.rel.toNat * 8388608))

/-- The fields of a `Cas` form, where its operands have the classes it accepts (R54). -/
def getCas (r : Raw) : Option Cas := do
  let d ← getS r.dst
  let a ← getS r.sa
  let b ← getS r.sb
  let c ← getS r.sc
  let scope ← Scope.ofCode (fld r.fn 10 2)
  let t ← Ty.ofCode (fld r.fn 0 4)
  some { p := getPred r.pred, d := d, a := a, b := b, c := c, scope := scope, t := t, disp := BitVec.ofNat 14 (fld r.imm 0 14), acq := BitVec.ofNat 9 (fld r.imm 14 9), rel := BitVec.ofNat 9 (fld r.imm 23 9) }

/-- The word of a `Cas2` form (R49 to R52, R58). -/
def encCas2 (opc fmt : Nat) (o : Cas2) : Raw :=
  raw opc fmt o.p (sCode o.d) (sCode o.a) (sCode o.b) (sCode o.c) (fnM 0 o.scope.code 0 0 0 0) (BitVec.ofNat 32 (o.disp.toNat + o.acq.toNat * 16384 + o.rel.toNat * 8388608))

/-- The fields of a `Cas2` form, where its operands have the classes it accepts (R54). -/
def getCas2 (r : Raw) : Option Cas2 := do
  let d ← getS r.dst
  let a ← getS r.sa
  let b ← getS r.sb
  let c ← getS r.sc
  let scope ← Scope.ofCode (fld r.fn 10 2)
  some { p := getPred r.pred, d := d, a := a, b := b, c := c, scope := scope, disp := BitVec.ofNat 14 (fld r.imm 0 14), acq := BitVec.ofNat 9 (fld r.imm 14 9), rel := BitVec.ofNat 9 (fld r.imm 23 9) }

/-- The word of a `Red` form (R49 to R52, R58). -/
def encRed (opc fmt : Nat) (o : Red) : Raw :=
  raw opc fmt o.p (0) (sCode o.a) (sCode o.b) (0) (fnM 0 o.scope.code o.op.code 0 0 o.t.code) (BitVec.ofNat 32 (o.disp.toNat + o.acq.toNat * 16384 + o.rel.toNat * 8388608))

/-- The fields of a `Red` form, where its operands have the classes it accepts (R54). -/
def getRed (r : Raw) : Option Red := do
  let a ← getS r.sa
  let b ← getS r.sb
  let scope ← Scope.ofCode (fld r.fn 10 2)
  let op ← AOp.ofCode (fld r.fn 7 3)
  let t ← Ty.ofCode (fld r.fn 0 4)
  some { p := getPred r.pred, a := a, b := b, scope := scope, op := op, t := t, disp := BitVec.ofNat 14 (fld r.imm 0 14), acq := BitVec.ofNat 9 (fld r.imm 14 9), rel := BitVec.ofNat 9 (fld r.imm 23 9) }

/-- The word of a `Amsg` form (R49 to R52, R58). -/
def encAmsg (opc fmt : Nat) (o : Amsg) : Raw :=
  raw opc fmt o.p (VOp.code o.d) (sCode o.a) (VOp.code o.b) (sCode o.c) (fnM 0 o.scope.code 0 0 0 0) (o.disp)

/-- The fields of a `Amsg` form, where its operands have the classes it accepts (R54). -/
def getAmsg (r : Raw) : Option Amsg := do
  let d ← getVOp r.dst
  let a ← getS r.sa
  let b ← getVOp r.sb
  let c ← getS r.sc
  let scope ← Scope.ofCode (fld r.fn 10 2)
  some { p := getPred r.pred, d := d, a := a, b := b, c := c, scope := scope, disp := r.imm }

/-- The word of a `Gath` form (R49 to R52, R58). -/
def encGath (opc fmt : Nat) (o : Gath) : Raw :=
  raw opc fmt o.p (sCode o.d) (sCode o.a) (VOp.code o.b) (0) (fnE o.gran.toNat 0 0 0) (0)

/-- The fields of a `Gath` form, where its operands have the classes it accepts (R54). -/
def getGath (r : Raw) : Option Gath := do
  let d ← getS r.dst
  let a ← getS r.sa
  let b ← getVOp r.sb
  some { p := getPred r.pred, d := d, a := a, b := b, gran := BitVec.ofNat 3 (fld r.fn 13 3) }

/-- The word of a `Fence` form (R49 to R52, R58). -/
def encFence (opc fmt : Nat) (o : Fence) : Raw :=
  raw opc fmt o.p (0) (0) (0) (0) (fnS o.scope.code 0) (BitVec.ofNat 32 (o.before.toNat + o.after.toNat * 512))

/-- The fields of a `Fence` form, where its operands have the classes it accepts (R54). -/
def getFence (r : Raw) : Option Fence := do
  let scope ← Scope.ofCode (fld r.fn 6 2)
  some { p := getPred r.pred, scope := scope, before := BitVec.ofNat 9 (fld r.imm 0 9), after := BitVec.ofNat 9 (fld r.imm 9 9) }

/-- The word of a `MemSP` form (R49 to R52, R58). -/
def encMemSP (opc fmt : Nat) (o : MemSP) : Raw :=
  raw opc fmt o.p (sCode o.d) (sCode o.a) (0) (0) (fnM o.path.code o.scope.code 0 0 0 o.t.code) (o.disp)

/-- The fields of a `MemSP` form, where its operands have the classes it accepts (R54). -/
def getMemSP (r : Raw) : Option MemSP := do
  let d ← getS r.dst
  let a ← getS r.sa
  let path ← Path.ofCode (fld r.fn 12 4)
  let scope ← Scope.ofCode (fld r.fn 10 2)
  let t ← Ty.ofCode (fld r.fn 0 4)
  some { p := getPred r.pred, d := d, a := a, path := path, scope := scope, t := t, disp := r.imm }

/-- The word of a `MemVP` form (R49 to R52, R58). -/
def encMemVP (opc fmt : Nat) (o : MemVP) : Raw :=
  raw opc fmt o.p (VOp.code o.d) (sCode o.a) (0) (0) (fnM o.path.code o.scope.code 0 0 0 0) (o.disp)

/-- The fields of a `MemVP` form, where its operands have the classes it accepts (R54). -/
def getMemVP (r : Raw) : Option MemVP := do
  let d ← getVOp r.dst
  let a ← getS r.sa
  let path ← Path.ofCode (fld r.fn 12 4)
  let scope ← Scope.ofCode (fld r.fn 10 2)
  some { p := getPred r.pred, d := d, a := a, path := path, scope := scope, disp := r.imm }

/-- The word of a `CSet` form (R49 to R52, R58). -/
def encCSet (opc fmt : Nat) (o : CSet) : Raw :=
  raw opc fmt o.p (0) (sCode o.a) (0) (0) (0) (BitVec.ofNat 32 (o.num.toNat))

/-- The fields of a `CSet` form, where its operands have the classes it accepts (R54). -/
def getCSet (r : Raw) : Option CSet := do
  let a ← getS r.sa
  some { p := getPred r.pred, a := a, num := BitVec.ofNat 4 (fld r.imm 0 4) }

/-- The word of a `Sem` form (R49 to R52, R58). -/
def encSem (opc fmt : Nat) (o : Sem) : Raw :=
  raw opc fmt o.p (0) (sCode o.a) (0) (0) (0) (BitVec.ofNat 32 (o.n.toNat))

/-- The fields of a `Sem` form, where its operands have the classes it accepts (R54). -/
def getSem (r : Raw) : Option Sem := do
  let a ← getS r.sa
  some { p := getPred r.pred, a := a, n := BitVec.ofNat 6 (fld r.imm 0 6) }

/-- The word of a `SemI` form (R49 to R52, R58). -/
def encSemI (opc fmt : Nat) (o : SemI) : Raw :=
  raw opc fmt o.p (sCode o.d) (sCode o.a) (0) (0) (0) (BitVec.ofNat 32 (o.n.toNat))

/-- The fields of a `SemI` form, where its operands have the classes it accepts (R54). -/
def getSemI (r : Raw) : Option SemI := do
  let d ← getS r.dst
  let a ← getS r.sa
  some { p := getPred r.pred, d := d, a := a, n := BitVec.ofNat 6 (fld r.imm 0 6) }

/-- The word of a `Rst` form (R49 to R52, R58). -/
def encRst (opc fmt : Nat) (o : Rst) : Raw :=
  raw opc fmt o.p (VOp.code o.d) (sCode o.a) (0) (sCode o.c) (0) (BitVec.ofNat 32 (o.cls.toNat + o.mc.toNat * 16 + o.disp.toNat * 256))

/-- The fields of a `Rst` form, where its operands have the classes it accepts (R54). -/
def getRst (r : Raw) : Option Rst := do
  let d ← getVOp r.dst
  let a ← getS r.sa
  let c ← getS r.sc
  some { p := getPred r.pred, d := d, a := a, c := c, cls := BitVec.ofNat 4 (fld r.imm 0 4), mc := (fld r.imm 4 1 == 1), disp := BitVec.ofNat 24 (fld r.imm 8 24) }

/-- The word of a `Send` form (R49 to R52, R58). -/
def encSend (opc fmt : Nat) (o : Send) : Raw :=
  raw opc fmt o.p (0) (VOp.code o.a) (sCode o.b) (0) (0) (BitVec.ofNat 32 (o.cls.toNat))

/-- The fields of a `Send` form, where its operands have the classes it accepts (R54). -/
def getSend (r : Raw) : Option Send := do
  let a ← getVOp r.sa
  let b ← getS r.sb
  some { p := getPred r.pred, a := a, b := b, cls := BitVec.ofNat 4 (fld r.imm 0 4) }

/-- The word of a `CMask` form (R49 to R52, R58). -/
def encCMask (opc fmt : Nat) (o : CMask) : Raw :=
  raw opc fmt o.p (0) (0) (0) (0) (0) (BitVec.ofNat 32 (o.n.toNat))

/-- The fields of a `CMask` form, where its operands have the classes it accepts (R54). -/
def getCMask (r : Raw) : Option CMask := do
  some { p := getPred r.pred, n := BitVec.ofNat 4 (fld r.imm 0 4) }

/-- The word of a `QBind` form (R49 to R52, R58). -/
def encQBind (opc fmt : Nat) (o : QBind) : Raw :=
  raw opc fmt o.p (q8Code o.d) (0) (0) (0) (0) (BitVec.ofNat 32 (o.n.toNat + o.un.toNat * 16))

/-- The fields of a `QBind` form, where its operands have the classes it accepts (R54). -/
def getQBind (r : Raw) : Option QBind := do
  let d ← getQ8 r.dst
  some { p := getPred r.pred, d := d, n := BitVec.ofNat 4 (fld r.imm 0 4), un := (fld r.imm 4 1 == 1) }

/-- The word of a `QReg` form (R49 to R52, R58). -/
def encQReg (opc fmt : Nat) (o : QReg) : Raw :=
  raw opc fmt o.p (sCode o.d) (qCode o.a) (0) (0) (0) (0)

/-- The fields of a `QReg` form, where its operands have the classes it accepts (R54). -/
def getQReg (r : Raw) : Option QReg := do
  let d ← getS r.dst
  let a ← getQ r.sa
  some { p := getPred r.pred, d := d, a := a }

/-- The word of a `Spawn` form (R49 to R52, R58). -/
def encSpawn (opc fmt : Nat) (o : Spawn) : Raw :=
  raw opc fmt o.p (0) (VOp.code o.a) (0) (0) (0) (0)

/-- The fields of a `Spawn` form, where its operands have the classes it accepts (R54). -/
def getSpawn (r : Raw) : Option Spawn := do
  let a ← getVOp r.sa
  some { p := getPred r.pred, a := a }

/-- The word of a `SpawnT` form (R49 to R52, R58). -/
def encSpawnT (opc fmt : Nat) (o : SpawnT) : Raw :=
  raw opc fmt o.p (pCode o.d) (VOp.code o.a) (0) (0) (0) (0)

/-- The fields of a `SpawnT` form, where its operands have the classes it accepts (R54). -/
def getSpawnT (r : Raw) : Option SpawnT := do
  let d ← getP r.dst
  let a ← getVOp r.sa
  some { p := getPred r.pred, d := d, a := a }

/-- The word of a `EJoin` form (R49 to R52, R58). -/
def encEJoin (opc fmt : Nat) (o : EJoin) : Raw :=
  raw opc fmt o.p (0) (sCode o.a) (0) (0) (0) (BitVec.ofNat 32 (o.n.toNat))

/-- The fields of a `EJoin` form, where its operands have the classes it accepts (R54). -/
def getEJoin (r : Raw) : Option EJoin := do
  let a ← getS r.sa
  some { p := getPred r.pred, a := a, n := BitVec.ofNat 8 (fld r.imm 0 8) }

/-- The word of a `Ev` form (R49 to R52, R58). -/
def encEv (opc fmt : Nat) (o : Ev) : Raw :=
  raw opc fmt o.p (0) (0) (0) (0) (0) (BitVec.ofNat 32 (o.n.toNat + o.clr.toNat * 256))

/-- The fields of a `Ev` form, where its operands have the classes it accepts (R54). -/
def getEv (r : Raw) : Option Ev := do
  some { p := getPred r.pred, n := BitVec.ofNat 8 (fld r.imm 0 8), clr := (fld r.imm 8 1 == 1) }

/-- The word of a `Cancel` form (R49 to R52, R58). -/
def encCancel (opc fmt : Nat) (o : Cancel) : Raw :=
  raw opc fmt o.p (sCode o.d) (sCode o.a) (0) (0) (fnS 0 o.hard.toNat) (0)

/-- The fields of a `Cancel` form, where its operands have the classes it accepts (R54). -/
def getCancel (r : Raw) : Option Cancel := do
  let d ← getS r.dst
  let a ← getS r.sa
  some { p := getPred r.pred, d := d, a := a, hard := (fld r.fn 5 1 == 1) }

/-- The word of a `Ctrd` form (R49 to R52, R58). -/
def encCtrd (opc fmt : Nat) (o : Ctrd) : Raw :=
  raw opc fmt o.p (sCode o.d) (sCode o.a) (0) (0) (0) (BitVec.ofNat 32 (o.k.toNat))

/-- The fields of a `Ctrd` form, where its operands have the classes it accepts (R54). -/
def getCtrd (r : Raw) : Option Ctrd := do
  let d ← getS r.dst
  let a ← getS r.sa
  some { p := getPred r.pred, d := d, a := a, k := BitVec.ofNat 2 (fld r.imm 0 2) }

/-- The word of a `CastPin` form (R49 to R52, R58). -/
def encCastPin (opc fmt : Nat) (o : CastPin) : Raw :=
  raw opc fmt o.p (sCode o.d) (0) (0) (0) (0) (BitVec.ofNat 32 (o.mode.toNat))

/-- The fields of a `CastPin` form, where its operands have the classes it accepts (R54). -/
def getCastPin (r : Raw) : Option CastPin := do
  let d ← getS r.dst
  some { p := getPred r.pred, d := d, mode := BitVec.ofNat 2 (fld r.imm 0 2) }

/-- The word of a `TlbInv` form (R49 to R52, R58). -/
def encTlbInv (opc fmt : Nat) (o : TlbInv) : Raw :=
  raw opc fmt o.p (sCode o.d) (sCode o.a) (sCode o.b) (0) (0) (BitVec.ofNat 32 (o.all.toNat))

/-- The fields of a `TlbInv` form, where its operands have the classes it accepts (R54). -/
def getTlbInv (r : Raw) : Option TlbInv := do
  let d ← getS r.dst
  let a ← getS r.sa
  let b ← getS r.sb
  some { p := getPred r.pred, d := d, a := a, b := b, all := (fld r.imm 0 1 == 1) }

/-- One row of the opcode map (R60): the format of the value, and its form read from a word's fields. -/
structure Row where
  fmt : Nat
  get : Raw → Option Instr

/-- Opcode values 0x01 to 0x1C (R60). -/
def rows0 : List Row := [
  ⟨0, fun r => (getSAlu r).map .add⟩,
  ⟨0, fun r => (getSAlu r).map .sub⟩,
  ⟨2, fun r => (getSImm r).map .addi⟩,
  ⟨0, fun r => (getSAlu r).map .mul⟩,
  ⟨0, fun r => (getSAlu r).map .mulh⟩,
  ⟨0, fun r => (getSAlu r).map .mulhn⟩,
  ⟨0, fun r => (getSAlu r).map .div⟩,
  ⟨0, fun r => (getSAlu r).map .divn⟩,
  ⟨0, fun r => (getSAlu r).map .rem⟩,
  ⟨0, fun r => (getSAlu r).map .remn⟩,
  ⟨0, fun r => (getSAlu r).map .and⟩,
  ⟨0, fun r => (getSAlu r).map .or⟩,
  ⟨0, fun r => (getSAlu r).map .xor⟩,
  ⟨0, fun r => (getSAlu r).map .andn⟩,
  ⟨0, fun r => (getSAlu r).map .orn⟩,
  ⟨0, fun r => (getSAlu r).map .shl⟩,
  ⟨0, fun r => (getSAlu r).map .shr⟩,
  ⟨0, fun r => (getSAlu r).map .sar⟩,
  ⟨0, fun r => (getSAlu r).map .rol⟩,
  ⟨0, fun r => (getSAlu r).map .ror⟩,
  ⟨0, fun r => (getSUn r).map .clz⟩,
  ⟨0, fun r => (getSUn r).map .ctz⟩,
  ⟨0, fun r => (getSUn r).map .popc⟩,
  ⟨0, fun r => (getSAlu r).map .min⟩,
  ⟨0, fun r => (getSAlu r).map .max⟩,
  ⟨0, fun r => (getSAlu r).map .minn⟩,
  ⟨0, fun r => (getSAlu r).map .maxn⟩,
  ⟨0, fun r => (getSUn r).map .sext⟩]

/-- Opcode values 0x1D to 0x38 (R60). -/
def rows1 : List Row := [
  ⟨0, fun r => (getSUn r).map .zext⟩,
  ⟨1, fun r => (getSBf r).map .bfx⟩,
  ⟨1, fun r => (getSBf r).map .bfi⟩,
  ⟨1, fun r => (getSSel r).map .sel⟩,
  ⟨3, fun r => (getSLi r).map .li⟩,
  ⟨2, fun r => (getSIp r).map .addip⟩,
  ⟨4, fun r => (getSLea r).map .lea⟩,
  ⟨0, fun r => (getSMov r).map .mov⟩,
  ⟨0, fun r => (getSCmp r).map .cmpI⟩,
  ⟨0, fun r => (getSCmp r).map .cmpF⟩,
  ⟨0, fun r => (getP3 r).map .pand⟩,
  ⟨0, fun r => (getP3 r).map .por⟩,
  ⟨0, fun r => (getP3 r).map .pxor⟩,
  ⟨0, fun r => (getP2 r).map .pnot⟩,
  ⟨0, fun r => (getPMov r).map .pmov⟩,
  ⟨0, fun r => (getPCntP r).map .pcnt⟩,
  ⟨2, fun r => (getXSet r).map .xset⟩,
  ⟨2, fun r => (getXAdd r).map .xadd⟩,
  ⟨0, fun r => (getXMov r).map .xmov⟩,
  ⟨0, fun r => (getPCntX r).map .xget⟩,
  ⟨5, fun r => (getBrP r).map .br⟩,
  ⟨5, fun r => (getBrJ r).map .jmp⟩,
  ⟨5, fun r => (getBrD r).map .call⟩,
  ⟨5, fun r => (getSA1 r).map .ret⟩,
  ⟨5, fun r => (getBrD r).map .loop⟩,
  ⟨5, fun r => (getSD2 r).map .brx⟩,
  ⟨7, fun r => (getBare r).map .end_⟩,
  ⟨7, fun r => (getBare r).map .yield_⟩]

/-- Opcode values 0x39 to 0x54 (R60). -/
def rows2 : List Row := [
  ⟨4, fun r => (getMemS r).map .ld⟩,
  ⟨4, fun r => (getMemS r).map .st⟩,
  ⟨4, fun r => (getMemV r).map .vld⟩,
  ⟨4, fun r => (getMemC r).map .vldConverting⟩,
  ⟨4, fun r => (getMemV r).map .vst⟩,
  ⟨4, fun r => (getMemM r).map .vldm⟩,
  ⟨4, fun r => (getMemM r).map .vstm⟩,
  ⟨4, fun r => (getMemS r).map .ldk⟩,
  ⟨4, fun r => (getMemA r).map .pref⟩,
  ⟨4, fun r => (getVGs r).map .vgath32⟩,
  ⟨4, fun r => (getVGs r).map .vgath64⟩,
  ⟨4, fun r => (getVGs r).map .vscat32⟩,
  ⟨4, fun r => (getVGs r).map .vscat64⟩,
  ⟨7, fun r => (getCode r).map .trap⟩,
  ⟨7, fun r => (getBare r).map .tret⟩,
  ⟨7, fun r => (getSA1 r).map .upret⟩,
  ⟨7, fun r => (getMfsO r).map .mfs⟩,
  ⟨7, fun r => (getMtsO r).map .mts⟩,
  ⟨7, fun r => (getCode r).map .sysc⟩,
  ⟨7, fun r => (getCode r).map .brk⟩,
  ⟨7, fun r => (getSD1 r).map .rdtime⟩,
  ⟨7, fun r => (getBare r).map .ifence⟩,
  ⟨7, fun r => (getBare r).map .halt⟩,
  ⟨0, fun r => (getVBin r).map .vaddI⟩,
  ⟨0, fun r => (getVBin r).map .vaddF⟩,
  ⟨0, fun r => (getVBin r).map .vsubI⟩,
  ⟨0, fun r => (getVBin r).map .vsubF⟩,
  ⟨0, fun r => (getVBin r).map .vmulI⟩]

/-- Opcode values 0x55 to 0x70 (R60). -/
def rows3 : List Row := [
  ⟨0, fun r => (getVBin r).map .vmulF⟩,
  ⟨1, fun r => (getVTri r).map .vfma⟩,
  ⟨1, fun r => (getVTri r).map .vfms⟩,
  ⟨1, fun r => (getVTri r).map .vfnma⟩,
  ⟨0, fun r => (getVBin r).map .vdiv⟩,
  ⟨0, fun r => (getVUn r).map .vsqrt⟩,
  ⟨0, fun r => (getVUn r).map .vrcp⟩,
  ⟨0, fun r => (getVUn r).map .vrsqrt⟩,
  ⟨0, fun r => (getVUn r).map .vexp2⟩,
  ⟨0, fun r => (getVUn r).map .vlog2⟩,
  ⟨0, fun r => (getVBin r).map .vminI⟩,
  ⟨0, fun r => (getVBin r).map .vminF⟩,
  ⟨0, fun r => (getVBin r).map .vmaxI⟩,
  ⟨0, fun r => (getVBin r).map .vmaxF⟩,
  ⟨0, fun r => (getVUn r).map .vabsI⟩,
  ⟨0, fun r => (getVUn r).map .vabsF⟩,
  ⟨0, fun r => (getVUn r).map .vnegI⟩,
  ⟨0, fun r => (getVUn r).map .vnegF⟩,
  ⟨0, fun r => (getVCmp r).map .vcmpI⟩,
  ⟨0, fun r => (getVCmp r).map .vcmpF⟩,
  ⟨1, fun r => (getVSel r).map .vsel⟩,
  ⟨0, fun r => (getVCvt r).map .vcvtII⟩,
  ⟨0, fun r => (getVCvt r).map .vcvtIF⟩,
  ⟨0, fun r => (getVCvt r).map .vcvtFI⟩,
  ⟨0, fun r => (getVCvt r).map .vcvtFF⟩,
  ⟨0, fun r => (getVRnd r).map .vround⟩,
  ⟨0, fun r => (getVLog r).map .vand⟩,
  ⟨0, fun r => (getVLog r).map .vor⟩]

/-- Opcode values 0x71 to 0x8C (R60). -/
def rows4 : List Row := [
  ⟨0, fun r => (getVLog r).map .vxor⟩,
  ⟨0, fun r => (getVLog r).map .vshl⟩,
  ⟨0, fun r => (getVLog r).map .vshr⟩,
  ⟨0, fun r => (getVLog r).map .vsar⟩,
  ⟨0, fun r => (getVLog r).map .vperm32⟩,
  ⟨0, fun r => (getVLog r).map .vperm64⟩,
  ⟨0, fun r => (getVFromS r).map .vbcast32⟩,
  ⟨0, fun r => (getVFromS r).map .vbcast64⟩,
  ⟨0, fun r => (getVExt r).map .vext⟩,
  ⟨0, fun r => (getVIns r).map .vins⟩,
  ⟨0, fun r => (getVRed r).map .vredaddI⟩,
  ⟨0, fun r => (getVRed r).map .vredaddF⟩,
  ⟨0, fun r => (getVRed r).map .vredminI⟩,
  ⟨0, fun r => (getVRed r).map .vredminF⟩,
  ⟨0, fun r => (getVRed r).map .vredmaxI⟩,
  ⟨0, fun r => (getVRed r).map .vredmaxF⟩,
  ⟨0, fun r => (getVScan r).map .vscanI⟩,
  ⟨0, fun r => (getVScan r).map .vscanF⟩,
  ⟨1, fun r => (getVTri r).map .vdot8⟩,
  ⟨1, fun r => (getVTri r).map .vdot16⟩,
  ⟨1, fun r => (getVTri r).map .vmac8⟩,
  ⟨1, fun r => (getVTri r).map .vmac16⟩,
  ⟨0, fun r => (getV2 r).map .vrng⟩,
  ⟨0, fun r => (getVUnT r).map .vcompress⟩,
  ⟨0, fun r => (getVUnT r).map .vexpand⟩,
  ⟨0, fun r => (getVUnT r).map .vpopc⟩,
  ⟨0, fun r => (getVFromS r).map .vlane⟩,
  ⟨0, fun r => (getV2 r).map .vmov⟩]

/-- Opcode values 0x8D to 0xA8 (R60). -/
def rows5 : List Row := [
  ⟨6, fun r => (getMBld r).map .mbld8⟩,
  ⟨6, fun r => (getMBld r).map .mbld16⟩,
  ⟨6, fun r => (getMBrel r).map .mbrel⟩,
  ⟨6, fun r => (getMLoc r).map .mld32⟩,
  ⟨6, fun r => (getMLoc r).map .mld16⟩,
  ⟨6, fun r => (getMLoc r).map .mst32⟩,
  ⟨6, fun r => (getMLoc r).map .mst16⟩,
  ⟨6, fun r => (getM1 r).map .mzero⟩,
  ⟨6, fun r => (getMMul r).map .mmulE2M1⟩,
  ⟨6, fun r => (getMMul r).map .mmul8⟩,
  ⟨6, fun r => (getMMul r).map .mmul16⟩,
  ⟨6, fun r => (getMMul r).map .mmacE2M1⟩,
  ⟨6, fun r => (getMMul r).map .mmac8⟩,
  ⟨6, fun r => (getMMul r).map .mmac16⟩,
  ⟨6, fun r => (getMFac r).map .mfac⟩,
  ⟨6, fun r => (getM3 r).map .mlradd⟩,
  ⟨6, fun r => (getM3 r).map .mlrmul⟩,
  ⟨6, fun r => (getM2 r).map .mreef⟩,
  ⟨6, fun r => (getM2 r).map .mprom⟩,
  ⟨6, fun r => (getMRank r).map .mrank⟩,
  ⟨6, fun r => (getMLoc r).map .mcvt⟩,
  ⟨6, fun r => (getM2 r).map .mtr⟩,
  ⟨6, fun r => (getMScale r).map .mscale⟩,
  ⟨6, fun r => (getMRec r).map .mrec⟩,
  ⟨6, fun r => (getMRun r).map .mrun⟩,
  ⟨6, fun r => (getMWait r).map .mwait⟩,
  ⟨6, fun r => (getMFree r).map .mfree⟩,
  ⟨6, fun r => (getRayOpen r).map .rayopen⟩]

/-- Opcode values 0xA9 to 0xC4 (R60). -/
def rows6 : List Row := [
  ⟨6, fun r => (getSA1 r).map .raytrace⟩,
  ⟨6, fun r => (getRayWait r).map .raywait⟩,
  ⟨6, fun r => (getIvPost r).map .ivpost⟩,
  ⟨6, fun r => (getIvRead r).map .ivread⟩,
  ⟨6, fun r => (getSA1 r).map .ivclr⟩,
  ⟨6, fun r => (getIvStat r).map .ivstat⟩,
  ⟨6, fun r => (getHitQ r).map .hitq⟩,
  ⟨0, fun r => (getV2S r).map .rsvupd⟩,
  ⟨0, fun r => (getV2S r).map .rsvmrg⟩,
  ⟨0, fun r => (getV2 r).map .rsvget⟩,
  ⟨6, fun r => (getSA3 r).map .logset⟩,
  ⟨6, fun r => (getSA1 r).map .replay⟩,
  ⟨4, fun r => (getAmo r).map .amoI⟩,
  ⟨4, fun r => (getAmo r).map .amoF⟩,
  ⟨4, fun r => (getCas r).map .cas⟩,
  ⟨4, fun r => (getCas2 r).map .cas2⟩,
  ⟨4, fun r => (getRed r).map .redI⟩,
  ⟨4, fun r => (getRed r).map .redF⟩,
  ⟨4, fun r => (getAmsg r).map .amsg⟩,
  ⟨6, fun r => (getGath r).map .gath⟩,
  ⟨7, fun r => (getFence r).map .fence⟩,
  ⟨4, fun r => (getMemSP r).map .ldPath⟩,
  ⟨4, fun r => (getMemSP r).map .stPath⟩,
  ⟨4, fun r => (getMemVP r).map .vldPath⟩,
  ⟨4, fun r => (getMemVP r).map .vstPath⟩,
  ⟨6, fun r => (getCSet r).map .cset⟩,
  ⟨6, fun r => (getSD2 r).map .cpygo⟩,
  ⟨6, fun r => (getSD2 r).map .cpycan⟩]

/-- Opcode values 0xC5 to 0xE0 (R60). -/
def rows7 : List Row := [
  ⟨7, fun r => (getSem r).map .semw⟩,
  ⟨7, fun r => (getSemI r).map .seminc⟩,
  ⟨7, fun r => (getSem r).map .semset⟩,
  ⟨6, fun r => (getSA2 r).map .mcset⟩,
  ⟨4, fun r => (getRst r).map .rst⟩,
  ⟨6, fun r => (getSend r).map .send⟩,
  ⟨7, fun r => (getCMask r).map .cmask⟩,
  ⟨7, fun r => (getCMask r).map .cunmask⟩,
  ⟨7, fun r => (getQBind r).map .qbind⟩,
  ⟨7, fun r => (getQReg r).map .qlen⟩,
  ⟨7, fun r => (getQReg r).map .qdrop⟩,
  ⟨6, fun r => (getSpawn r).map .spawn⟩,
  ⟨6, fun r => (getSpawnT r).map .spawnt⟩,
  ⟨7, fun r => (getS3 r).map .join⟩,
  ⟨7, fun r => (getEJoin r).map .ejoin⟩,
  ⟨7, fun r => (getEv r).map .ewait⟩,
  ⟨7, fun r => (getEv r).map .eset⟩,
  ⟨6, fun r => (getSD2 r).map .launch⟩,
  ⟨7, fun r => (getCancel r).map .cancel⟩,
  ⟨7, fun r => (getCtrd r).map .ctrd⟩,
  ⟨7, fun r => (getSD1 r).map .resid⟩,
  ⟨7, fun r => (getBare r).map .defer_⟩,
  ⟨7, fun r => (getCastPin r).map .castpin⟩,
  ⟨7, fun r => (getTlbInv r).map .tlbinv⟩,
  ⟨7, fun r => (getS4 r).map .ctxsv⟩,
  ⟨7, fun r => (getS3 r).map .ctxrs⟩,
  ⟨6, fun r => (getS4 r).map .rgload⟩,
  ⟨7, fun r => (getMtsO r).map .mtsp⟩]

/-- The opcode map: the row at index n belongs to opcode value n + 1; 0x00 and 0xE1 to 0xFF are unassigned (R60). -/
def rows : List Row :=
  rows0 ++ rows1 ++ rows2 ++ rows3 ++ rows4 ++ rows5 ++ rows6 ++ rows7

/-- The fields of the word of an instruction (R49 to R60). An event has no word: its fields are all zero. -/
def encRaw (i : Instr) : Raw :=
  match i with
  | .add o => encSAlu 1 0 o
  | .sub o => encSAlu 2 0 o
  | .addi o => encSImm 3 2 o
  | .mul o => encSAlu 4 0 o
  | .mulh o => encSAlu 5 0 o
  | .mulhn o => encSAlu 6 0 o
  | .div o => encSAlu 7 0 o
  | .divn o => encSAlu 8 0 o
  | .rem o => encSAlu 9 0 o
  | .remn o => encSAlu 10 0 o
  | .and o => encSAlu 11 0 o
  | .or o => encSAlu 12 0 o
  | .xor o => encSAlu 13 0 o
  | .andn o => encSAlu 14 0 o
  | .orn o => encSAlu 15 0 o
  | .shl o => encSAlu 16 0 o
  | .shr o => encSAlu 17 0 o
  | .sar o => encSAlu 18 0 o
  | .rol o => encSAlu 19 0 o
  | .ror o => encSAlu 20 0 o
  | .clz o => encSUn 21 0 o
  | .ctz o => encSUn 22 0 o
  | .popc o => encSUn 23 0 o
  | .min o => encSAlu 24 0 o
  | .max o => encSAlu 25 0 o
  | .minn o => encSAlu 26 0 o
  | .maxn o => encSAlu 27 0 o
  | .sext o => encSUn 28 0 o
  | .zext o => encSUn 29 0 o
  | .bfx o => encSBf 30 1 o
  | .bfi o => encSBf 31 1 o
  | .sel o => encSSel 32 1 o
  | .li o => encSLi 33 3 o
  | .addip o => encSIp 34 2 o
  | .lea o => encSLea 35 4 o
  | .mov o => encSMov 36 0 o
  | .cmpI o => encSCmp 37 0 o
  | .cmpF o => encSCmp 38 0 o
  | .pand o => encP3 39 0 o
  | .por o => encP3 40 0 o
  | .pxor o => encP3 41 0 o
  | .pnot o => encP2 42 0 o
  | .pmov o => encPMov 43 0 o
  | .pcnt o => encPCntP 44 0 o
  | .xset o => encXSet 45 2 o
  | .xadd o => encXAdd 46 2 o
  | .xmov o => encXMov 47 0 o
  | .xget o => encPCntX 48 0 o
  | .br o => encBrP 49 5 o
  | .jmp o => encBrJ 50 5 o
  | .call o => encBrD 51 5 o
  | .ret o => encSA1 52 5 o
  | .loop o => encBrD 53 5 o
  | .brx o => encSD2 54 5 o
  | .end_ o => encBare 55 7 o
  | .yield_ o => encBare 56 7 o
  | .ld o => encMemS 57 4 o
  | .st o => encMemS 58 4 o
  | .vld o => encMemV 59 4 o
  | .vldConverting o => encMemC 60 4 o
  | .vst o => encMemV 61 4 o
  | .vldm o => encMemM 62 4 o
  | .vstm o => encMemM 63 4 o
  | .ldk o => encMemS 64 4 o
  | .pref o => encMemA 65 4 o
  | .vgath32 o => encVGs 66 4 o
  | .vgath64 o => encVGs 67 4 o
  | .vscat32 o => encVGs 68 4 o
  | .vscat64 o => encVGs 69 4 o
  | .trap o => encCode 70 7 o
  | .tret o => encBare 71 7 o
  | .upret o => encSA1 72 7 o
  | .mfs o => encMfsO 73 7 o
  | .mts o => encMtsO 74 7 o
  | .sysc o => encCode 75 7 o
  | .brk o => encCode 76 7 o
  | .rdtime o => encSD1 77 7 o
  | .ifence o => encBare 78 7 o
  | .halt o => encBare 79 7 o
  | .vaddI o => encVBin 80 0 o
  | .vaddF o => encVBin 81 0 o
  | .vsubI o => encVBin 82 0 o
  | .vsubF o => encVBin 83 0 o
  | .vmulI o => encVBin 84 0 o
  | .vmulF o => encVBin 85 0 o
  | .vfma o => encVTri 86 1 o
  | .vfms o => encVTri 87 1 o
  | .vfnma o => encVTri 88 1 o
  | .vdiv o => encVBin 89 0 o
  | .vsqrt o => encVUn 90 0 o
  | .vrcp o => encVUn 91 0 o
  | .vrsqrt o => encVUn 92 0 o
  | .vexp2 o => encVUn 93 0 o
  | .vlog2 o => encVUn 94 0 o
  | .vminI o => encVBin 95 0 o
  | .vminF o => encVBin 96 0 o
  | .vmaxI o => encVBin 97 0 o
  | .vmaxF o => encVBin 98 0 o
  | .vabsI o => encVUn 99 0 o
  | .vabsF o => encVUn 100 0 o
  | .vnegI o => encVUn 101 0 o
  | .vnegF o => encVUn 102 0 o
  | .vcmpI o => encVCmp 103 0 o
  | .vcmpF o => encVCmp 104 0 o
  | .vsel o => encVSel 105 1 o
  | .vcvtII o => encVCvt 106 0 o
  | .vcvtIF o => encVCvt 107 0 o
  | .vcvtFI o => encVCvt 108 0 o
  | .vcvtFF o => encVCvt 109 0 o
  | .vround o => encVRnd 110 0 o
  | .vand o => encVLog 111 0 o
  | .vor o => encVLog 112 0 o
  | .vxor o => encVLog 113 0 o
  | .vshl o => encVLog 114 0 o
  | .vshr o => encVLog 115 0 o
  | .vsar o => encVLog 116 0 o
  | .vperm32 o => encVLog 117 0 o
  | .vperm64 o => encVLog 118 0 o
  | .vbcast32 o => encVFromS 119 0 o
  | .vbcast64 o => encVFromS 120 0 o
  | .vext o => encVExt 121 0 o
  | .vins o => encVIns 122 0 o
  | .vredaddI o => encVRed 123 0 o
  | .vredaddF o => encVRed 124 0 o
  | .vredminI o => encVRed 125 0 o
  | .vredminF o => encVRed 126 0 o
  | .vredmaxI o => encVRed 127 0 o
  | .vredmaxF o => encVRed 128 0 o
  | .vscanI o => encVScan 129 0 o
  | .vscanF o => encVScan 130 0 o
  | .vdot8 o => encVTri 131 1 o
  | .vdot16 o => encVTri 132 1 o
  | .vmac8 o => encVTri 133 1 o
  | .vmac16 o => encVTri 134 1 o
  | .vrng o => encV2 135 0 o
  | .vcompress o => encVUnT 136 0 o
  | .vexpand o => encVUnT 137 0 o
  | .vpopc o => encVUnT 138 0 o
  | .vlane o => encVFromS 139 0 o
  | .vmov o => encV2 140 0 o
  | .mbld8 o => encMBld 141 6 o
  | .mbld16 o => encMBld 142 6 o
  | .mbrel o => encMBrel 143 6 o
  | .mld32 o => encMLoc 144 6 o
  | .mld16 o => encMLoc 145 6 o
  | .mst32 o => encMLoc 146 6 o
  | .mst16 o => encMLoc 147 6 o
  | .mzero o => encM1 148 6 o
  | .mmulE2M1 o => encMMul 149 6 o
  | .mmul8 o => encMMul 150 6 o
  | .mmul16 o => encMMul 151 6 o
  | .mmacE2M1 o => encMMul 152 6 o
  | .mmac8 o => encMMul 153 6 o
  | .mmac16 o => encMMul 154 6 o
  | .mfac o => encMFac 155 6 o
  | .mlradd o => encM3 156 6 o
  | .mlrmul o => encM3 157 6 o
  | .mreef o => encM2 158 6 o
  | .mprom o => encM2 159 6 o
  | .mrank o => encMRank 160 6 o
  | .mcvt o => encMLoc 161 6 o
  | .mtr o => encM2 162 6 o
  | .mscale o => encMScale 163 6 o
  | .mrec o => encMRec 164 6 o
  | .mrun o => encMRun 165 6 o
  | .mwait o => encMWait 166 6 o
  | .mfree o => encMFree 167 6 o
  | .rayopen o => encRayOpen 168 6 o
  | .raytrace o => encSA1 169 6 o
  | .raywait o => encRayWait 170 6 o
  | .ivpost o => encIvPost 171 6 o
  | .ivread o => encIvRead 172 6 o
  | .ivclr o => encSA1 173 6 o
  | .ivstat o => encIvStat 174 6 o
  | .hitq o => encHitQ 175 6 o
  | .rsvupd o => encV2S 176 0 o
  | .rsvmrg o => encV2S 177 0 o
  | .rsvget o => encV2 178 0 o
  | .logset o => encSA3 179 6 o
  | .replay o => encSA1 180 6 o
  | .amoI o => encAmo 181 4 o
  | .amoF o => encAmo 182 4 o
  | .cas o => encCas 183 4 o
  | .cas2 o => encCas2 184 4 o
  | .redI o => encRed 185 4 o
  | .redF o => encRed 186 4 o
  | .amsg o => encAmsg 187 4 o
  | .gath o => encGath 188 6 o
  | .fence o => encFence 189 7 o
  | .ldPath o => encMemSP 190 4 o
  | .stPath o => encMemSP 191 4 o
  | .vldPath o => encMemVP 192 4 o
  | .vstPath o => encMemVP 193 4 o
  | .cset o => encCSet 194 6 o
  | .cpygo o => encSD2 195 6 o
  | .cpycan o => encSD2 196 6 o
  | .semw o => encSem 197 7 o
  | .seminc o => encSemI 198 7 o
  | .semset o => encSem 199 7 o
  | .mcset o => encSA2 200 6 o
  | .rst o => encRst 201 4 o
  | .send o => encSend 202 6 o
  | .cmask o => encCMask 203 7 o
  | .cunmask o => encCMask 204 7 o
  | .qbind o => encQBind 205 7 o
  | .qlen o => encQReg 206 7 o
  | .qdrop o => encQReg 207 7 o
  | .spawn o => encSpawn 208 6 o
  | .spawnt o => encSpawnT 209 6 o
  | .join o => encS3 210 7 o
  | .ejoin o => encEJoin 211 7 o
  | .ewait o => encEv 212 7 o
  | .eset o => encEv 213 7 o
  | .launch o => encSD2 214 6 o
  | .cancel o => encCancel 215 7 o
  | .ctrd o => encCtrd 216 7 o
  | .resid o => encSD1 217 7 o
  | .defer_ o => encBare 218 7 o
  | .castpin o => encCastPin 219 7 o
  | .tlbinv o => encTlbInv 220 7 o
  | .ctxsv o => encS4 221 7 o
  | .ctxrs o => encS3 222 7 o
  | .rgload o => encS4 223 6 o
  | .mtsp o => encMtsO 224 7 o
  | .translationRegisterWrite _ _ => zeroRaw
  | .ffbaseWrite _ _ => zeroRaw
  | .fresRetry _ => zeroRaw
  | .fresAbort _ => zeroRaw
  | .fresDiscard _ => zeroRaw
  | .dcmdHalt _ => zeroRaw
  | .dcmdResume _ => zeroRaw
  | .dcmdStep _ => zeroRaw
  | .ddataWrite _ _ _ _ => zeroRaw
  | .rigNop _ _ => zeroRaw
  | .rigLdi _ _ => zeroRaw
  | .rigMov _ _ => zeroRaw
  | .rigAdd _ _ => zeroRaw
  | .rigSub _ _ => zeroRaw
  | .rigAnd _ _ => zeroRaw
  | .rigOr _ _ => zeroRaw
  | .rigShl _ _ => zeroRaw
  | .rigShr _ _ => zeroRaw
  | .rigCmp _ _ => zeroRaw
  | .rigRayw _ _ => zeroRaw
  | .rigFetch _ _ => zeroRaw
  | .rigNbw _ _ => zeroRaw
  | .rigBox _ _ => zeroRaw
  | .rigChild _ _ => zeroRaw
  | .rigPush _ _ => zeroRaw
  | .rigPop _ _ => zeroRaw
  | .rigFront _ _ => zeroRaw
  | .rigTri _ _ => zeroRaw
  | .rigSplat _ _ => zeroRaw
  | .rigLeaf _ _ => zeroRaw
  | .rigCall _ _ => zeroRaw
  | .rigRet _ _ => zeroRaw
  | .rigDone _ _ => zeroRaw
  | .microwordWatchdog _ _ => zeroRaw
  | .hitTaskPush _ => zeroRaw
  | .listArrival _ _ => zeroRaw
  | .rayDone _ _ => zeroRaw
  | .taskPop _ => zeroRaw
  | .agingPop _ => zeroRaw
  | .activationStart _ => zeroRaw
  | .steal _ _ => zeroRaw
  | .stealRetry _ _ => zeroRaw
  | .overflowRefill _ _ _ => zeroRaw
  | .continuationPush _ => zeroRaw
  | .coreBind _ _ _ => zeroRaw
  | .coreRelease _ => zeroRaw
  | .launchAdmission _ _ => zeroRaw
  | .unitDispatch _ _ => zeroRaw
  | .residentRelease _ _ => zeroRaw
  | .engineFault _ _ => zeroRaw
  | .macroParityError _ _ => zeroRaw
  | .matrixGrant _ => zeroRaw
  | .matrixMigration _ => zeroRaw
  | .matrixCommandComplete _ => zeroRaw
  | .copyStart _ _ _ _ => zeroRaw
  | .copyComplete _ _ => zeroRaw
  | .homeLoad _ _ => zeroRaw
  | .homeStore _ => zeroRaw
  | .storeAcknowledge _ => zeroRaw
  | .atomicReply _ => zeroRaw
  | .uCopyMerge _ _ => zeroRaw
  | .amsgPerform _ => zeroRaw
  | .amsgReply _ => zeroRaw
  | .lineFill _ _ _ => zeroRaw
  | .writeBackDrain _ => zeroRaw
  | .ptsTick => zeroRaw
  | .timestampRebase => zeroRaw
  | .routerGrant _ _ => zeroRaw
  | .routerAgingGrant _ _ => zeroRaw
  | .rstDelivery _ => zeroRaw
  | .sendDelivery _ => zeroRaw
  | .pAcknowledge _ => zeroRaw
  | .packetForward _ => zeroRaw
  | .swapInstant _ => zeroRaw
  | .castle _ => zeroRaw
  | .placementUpdate _ => zeroRaw
  | .forwardingExpiry _ => zeroRaw
  | .contextDrain _ => zeroRaw
  | .correctableError _ => zeroRaw
  | .uncorrectableError _ => zeroRaw
  | .scrub _ => zeroRaw
  | .doorbellWrite _ _ => zeroRaw
  | .jobDescriptor _ _ _ _ _ => zeroRaw
  | .jobCompletion _ => zeroRaw
  | .hostApertureAccess _ _ _ _ _ => zeroRaw
  | .bilathMemoryWrite _ _ _ _ => zeroRaw
  | .bilathClassMessage _ _ _ _ _ _ => zeroRaw
  | .macsecFrameDrop _ => zeroRaw
  | .spdmRequest _ _ _ => zeroRaw
  | .tdispLock _ => zeroRaw
  | .tdispUnlock _ => zeroRaw
  | .contextCreate _ _ _ => zeroRaw
  | .semaphoreAssign _ _ _ => zeroRaw
  | .castlingControlWordWrite _ _ => zeroRaw
  | .partitionRangeWrite _ _ _ => zeroRaw
  | .telemetryRead _ => zeroRaw
  | .boot _ _ _ => zeroRaw
  | .thermalTrip => zeroRaw
  | .monitorSample _ _ _ => zeroRaw
  | .hbmRefresh _ => zeroRaw
  | .phyCalibration _ => zeroRaw
  | .serviceMessageDelivery _ => zeroRaw
  | .cxlCacheResponse _ => zeroRaw
  | .formatWindowWrite _ _ _ _ => zeroRaw
  | .partitionCreation _ _ _ _ _ _ _ _ => zeroRaw
  | .keySlotFill _ _ _ => zeroRaw
  | .systemImageTimer _ _ => zeroRaw
  | .bilathRetransmission _ => zeroRaw
  | .corePowerGating _ _ => zeroRaw

/-- The fields of a 96-bit word (R49). -/
def Raw.ofWord (w : W96) : Raw :=
  { opc := w.extractLsb' 0 8, pred := w.extractLsb' 8 4, fmt := w.extractLsb' 12 4, dst := w.extractLsb' 16 8,
    sa := w.extractLsb' 24 8, sb := w.extractLsb' 32 8, sc := w.extractLsb' 40 8, fn := w.extractLsb' 48 16,
    imm := w.extractLsb' 64 32 }

/-- The 96-bit word of its fields (R49). -/
def Raw.toWord (r : Raw) : W96 := r.imm ++ r.fn ++ r.sc ++ r.sb ++ r.sa ++ r.dst ++ r.fmt ++ r.pred ++ r.opc

/-- The instruction of a word's fields, or the check of R63 step 3 that fails. A slot value of 5 to 7 in a BR target (R51)
and a field that the form does not use count here too: the fields of an instruction are those that `encRaw` writes. -/
def decodeRaw (r : Raw) : Except DecodeErr Instr :=
  if r.opc = 0 then .error .unassigned
  else
    match rows[r.opc.toNat - 1]? with
    | none => .error .unassigned
    | some row =>
      if r.fmt.toNat ≠ row.fmt then .error .fmtMismatch
      else if r.pred = 8 then .error .negatedP0
      else
        match row.get r with
        | none => .error .operandClass
        | some i =>
          if encRaw i ≠ r then .error .unusedField
          else if i.wf then .ok i
          else .error .fnValue

/-- Decoding of an instruction word (R49 to R63). -/
def decodeWord (w : W96) : Except DecodeErr Instr := decodeRaw (Raw.ofWord w)

/-- The word of an instruction (R49 to R60). -/
def encode (i : Instr) : W96 := (encRaw i).toWord

/-- What the decoder reads from an instruction whose low `nbits` bits are those of `w` and whose other bits are zero. -/
def decodeTableWord (nbits w : Nat) : Option Instr :=
  match decodeWord (BitVec.ofNat 96 (w % 2 ^ nbits)) with
  | .ok i => some i
  | .error _ => none

end Sys2Proof
end

