-- ==== Sys2Proof/Config.lean ====
section
/-!
DEFINITION. What the manual leaves free: constants without a body, so that no proof can rest on their value
(log entries 4 and 5), and the fixed figures of the device (R1).
-/
namespace Sys2Proof
namespace Config

/-- Cycles of the arithmetic clock beyond the first that the n-th step takes; R409 gives no time (log 4). -/
opaque stepCycles : Nat → Nat
/-- Nanoseconds of the reference timer that the n-th step takes (R131, R409; log 4). -/
opaque stepNanos : Nat → Nat
/-- The encryption of a sector under a key at a sector number: a permutation of the 512-bit values, whose inverse is the
decryption (R362); the keys never leave the device, so nothing more is known of it (log 5). -/
opaque xts : (key sector : Nat) → Equiv.Perm (BitVec 512)
/-- Which of the copies or lines of a full set leaves, by the step: R359 and the cache chapters leave replacement open (log 68). -/
opaque victim : Nat → Nat
/-- The security processor's RSASSA-PSS signature of 3,072 bits over a SHA-256 digest, by the request that asks (R366; log 5). -/
opaque signature : BitVec 256 → Nat → BitVec 3072
/-- The certificate chain of slot 0, the signature that answers a challenge's nonce, and the responder's part of the `n`-th key exchange
(R366; log 5). -/
opaque certificates : List (BitVec 512)
opaque challengeSig : BitVec 256 → BitVec 3072
opaque keyExchange : BitVec 512 → Nat → BitVec 512
/-- SHA-256 over the hypervisor's configuration, whose serial form R365 does not give (log 5). -/
opaque configDigest : List Nat → BitVec 256
/-- The bytes of the saved command and instance records, whose layout R386 leaves to `ctxrs` (log 6). -/
opaque savedRecord : (ctx core off : Nat) → BitVec 8
/-- A telemetry register of the management controller or of a monitor (R404, R407; log 11). -/
opaque telemetry : Nat → BitVec 64

end Config

/-- Clusters of the mesh (R13). -/
def numClusters : Nat := 288
/-- Cores of the device (R13). -/
def numCores : Nat := 2304
/-- Bytes of one core's pool (R241). -/
def poolBytes : Nat := 786432
/-- First virtual address of the pool window (R242). -/
def poolWindow : Nat := 0xFFFFFF0000000000
/-- First physical address that is not HBM (R257). -/
def hbmEnd : Nat := 0x9000000000
/-- First physical address of host memory (R249, R351). -/
def hostBase : Nat := 0x8000000000000

end Sys2Proof
end

