-- ==== Sys2Proof/Machine/State.lean ====
section
/-!
DEFINITION. State: everything the manual gives the device, as plain data, and the state right after device reset.
Arrays over cores, clusters, contexts and partitions are association maps: an index that a map does not list holds
the default value of its type, which is what reset leaves (log 1). One thread set and its core stand in fields of their own,
the focus, because each instruction acts on one thread set.
-/
namespace Sys2Proof
namespace Machine

/-- An association map with ascending keys; an absent key holds a default. -/
abbrev AMap (α : Type) := List (Nat × α)
/-- Byte memory in canonical form: addresses strictly rising, no byte that an unlisted address reads as (log 2). -/
abbrev Mem := List Host.Cell

/-- How the last issue of a thread set ended. -/
inductive Issue where
  /-- The instruction completed. -/
  | issued
  /-- It was not ready (R18) and has no effect. -/
  | stalled
  /-- It is not ready, and has begun what it waits for: it issues again (R354, R370). -/
  | begun
  /-- It trapped, took an upcall, stopped, halted or blocked. -/
  | trapped
  deriving DecidableEq, Repr

/-- State of a thread set (R387). -/
inductive TsState where
  | idle | task | activation | halted | stopped | blocked
  deriving DecidableEq, Repr

/-- The registers of one thread set that a program names (R17, R123). The extended vector file lies in the pool (R368). -/
structure Regs where
  s : Vector W64 32
  v : Vector V512 32
  p : Vector W16 8
  x : Vector W32 8
  unit : W64
  frame : W64
  lpb : W64
  flags : W64
  mtol : W64
  mrmax : W64
  ivstop : W64
  mweight : W64
  rngkey : W64
  trapvec : W64
  upvec : W64
  ffbase : W64
  faultinfo : W64
  faultaddr : W64
  deriving DecidableEq, Repr

/-- Shape of a matrix register (R159); `pending` is the result of an `mreef` that has not completed (R161). -/
inductive Shape where
  | zero
  | factor (r : Nat)
  | dense
  | pending (r : Nat)
  deriving DecidableEq, Repr

/-- Contents of a matrix register: FP32 patterns. A factor holds its columns, a dense tile its rows (R159). -/
inductive MVal where
  | zero
  | factor (u v : List (List W32))
  | dense (rows : List (List W32))
  deriving DecidableEq, Repr

/-- A running activation (R29, R331): instance number, resident number, class, launch, and its current message. -/
structure Act where
  inst : Nat
  resNo : Nat
  lid : Nat
  cls : Nat
  cur : Option V512
  deriving DecidableEq, Repr

/-- A destination vector register, resolved at issue: base register, extended register or queue register. -/
inductive VDst where
  | base (n : Fin 32)
  | ext (i : Nat)
  | queue (q : Fin 16)
  deriving DecidableEq, Repr

/-- What a C-path access that has issued does when it is performed (R118 to R122, R157, R250, R260). A gather lists its active
elements with their distances from the first byte. A converting load has its operands (R153); a join update adds to COUNT and
completes the block with a payload (R311). -/
inductive CKind where
  | load (t : Ty)
  | vload (mask : W16) (d : VDst)
  | gath (w : Nat) (mask : W16) (offs : List (Nat × Nat)) (d : VDst)
  | pref
  | store
  | amo (t : Ty) (op : AOp) (b : W64)
  | cas (t : Ty) (b c : W64)
  | cas2 (b c : BitVec 128)
  | conv (o : MemC) (mask : W16) (d : VDst)
  | join (b payload : W64)
  deriving DecidableEq, Repr

/-- A C-path access of a thread set that has issued and is not complete (R19, R280). `pool` tells an access of the pool window,
whose `pa` is a pool offset (R242). A store or atomic that home has performed has the acknowledged timestamp, the sectors as they
stood at home then, the old value and the flags of the reply. A load may be at home already (R255), merged into an older read, or
the older read of others (R283). An atomic may wait for a matrix command that its pair's slot j issued (R45, R261), and may have an
acquire set that acts at its reply. `stale` tells that a shoot-down has removed the translation of an access that is held, which
translates afresh (R384). -/
structure CReq where
  kind : CKind
  pool : Bool
  va : W64
  pa : Nat
  slot : Nat
  stale : Bool
  bytes : List (Nat × Byte)
  noL1 : Bool
  dst : Nat
  behind : Option Nat
  acq : PathSet
  atHome : Bool
  joined : Bool
  merged : List Nat
  performed : Bool
  wts : Nat
  after : List (Nat × V512)
  reply : BitVec 128
  flags : BitVec 5
  deriving DecidableEq, Repr

/-- A K-path load that has issued and has not taken its value (R121, R247, R248): into a scalar register, or the masked lanes of a
vector register. -/
structure KReq where
  pa : Nat
  slot : Nat
  noL1 : Bool
  ty : Ty
  dst : Nat
  vec : Option (W16 × VDst)
  deriving DecidableEq, Repr

/-- A red that has issued and has not been folded (R265, R266), with the wait and the acquire set of an atomic, and whether it
translates afresh (R384). -/
structure UReq where
  va : W64
  stale : Bool
  pa : Nat
  slot : Nat
  ubit : Bool
  ty : Ty
  op : AOp
  b : Nat
  behind : Option Nat
  acq : PathSet
  deriving DecidableEq, Repr

/-- An active message that waits for its performance or its reply (R268). -/
structure AmsgReq where
  pa : Nat
  slot : Nat
  desc : W64
  data : V512
  dst : VDst
  performed : Bool
  reply : V512
  deriving DecidableEq, Repr

/-- An H-path access that waits for the host's answer (R249): a load into a scalar or vector destination, or a store. -/
structure HReq where
  pa : Nat
  load : Bool
  ty : Ty
  vec : Bool
  mask : W16
  dst : Nat
  vdst : VDst
  bytes : List (Nat × Byte)
  deriving DecidableEq, Repr

/-- The trap of a thread set that could not be entered, or the fault it blocks on (R376, R381). -/
structure Fault1 where
  cause : Nat
  addr : W64
  acc : W64
  fid : W64
  deriving DecidableEq, Repr

/-- One thread set. -/
structure Thread where
  rf : Regs
  /-- Registers, pool and count of matrix commands as they stood before the pair whose slot j + 1 is issuing (R45). -/
  snap : Option (Regs × AMap V512 × Nat)
  pc : W64
  /-- Address of the instruction that issues. -/
  ipc : W64
  slot1 : Bool
  inPair : Bool
  res : Issue
  st : TsState
  /-- The running task record (R309). -/
  task : BitVec 256
  act : Option Act
  /-- Pending status registers (R273, R326): bit n for sn. -/
  busy : W32
  shapes : Vector Shape 8
  m : Vector MVal 8
  /-- Matrix fault latch with its macro (R172). -/
  mlatch : Option Nat
  /-- P fault latch: cause and w' (R305). -/
  platch : Option (Nat × W64)
  ptgt : Option W64
  solo : Bool
  xfer : Option Nat
  /-- Shadow copy registers 0 to 8 (R271). -/
  shadow : Vector W64 9
  pts : Nat
  /-- C accesses, K loads and reds that have issued and are not complete, oldest first (R19, R280, R284). -/
  creqs : List CReq
  kreqs : List KReq
  ureqs : List UReq
  amsgs : List AmsgReq
  hreqs : List HReq
  /-- Handles whose `raytrace` or `replay` this thread set issued (R287). -/
  rays : List W64
  /-- Launch entry whose registers the thread set holds (R30), with its generation. -/
  lcur : Option (Nat × Nat)
  csel : Nat
  /-- Hit-buffer entry of the running hit task (R208): cluster and entry. -/
  hit : Option (Nat × Nat)
  fault : Option Fault1
  /-- Other thread sets of the core that a `yield` waits for (R116). -/
  yields : List Nat
  /-- Single step in progress (R396); halt taken, whose accesses are not complete (R393); an `end` in slot j + 1 that has issued with
  its pair and waits (R45, R115). -/
  dstep : Bool
  halting : Bool
  ending : Bool
  /-- 1 while a write of a translation register that the waiting `mtsp` has begun is not complete (R354). -/
  stage : Nat
  deriving DecidableEq, Repr

/-- An L1 copy of one sector (R250, R259, R287, R363), and the cycle at which home served it (R251). -/
structure L1Copy where
  data : V512
  wts : Nat
  le : Nat
  born : Nat
  tag : Nat
  sc0 : Byte
  sc1 : Byte
  slot : Nat
  /-- Set by a fence with K in A: K reads need a lease (R287). -/
  leased : Bool
  deriving DecidableEq, Repr

/-- One TLB entry (R359): page base, page size in bits, physical page base, permissions of R358. -/
structure TlbEntry where
  ctx : Nat
  va : Nat
  bits : Nat
  pa : Nat
  pte : W64
  deriving DecidableEq, Repr

/-- A macro (R163): empty, or loaded with cells (column by column), column exponents and column marks; `half` is 0 for an
8-bit tile, 1 for the low and 2 for the high half of a pair; `bad` tells a row with a parity error (R172). -/
inductive MArr where
  | empty
  | loaded (half : Nat) (cells : List (List Int)) (exps : List Int) (marks : BitVec 64) (bad : Bool)
  deriving DecidableEq, Repr

/-- The tracking of one macro at issue (R164). -/
inductive MTrack where
  | empty | single | low | high
  deriving DecidableEq, Repr

/-- A location of a matrix command (R175): pool or memory, base address, row stride. -/
structure MLocV where
  pool : Bool
  base : W64
  stride : W64
  deriving DecidableEq, Repr

/-- A queued matrix command (R165): the operation with its operands as read at issue. -/
inductive MOp where
  | mbld (wide : Bool) (t : Ty) (rd : Rd) (mac : Fin 8) (loc : MLocV)
  | mbrel (mac : Fin 8)
  | mld (t : Ty) (d : Fin 8) (loc : MLocV)
  | mst (t : Ty) (d : Fin 8) (loc : MLocV)
  | mcvt (t : Ty) (rd : Rd) (d : Fin 8) (loc : MLocV)
  | mzero (d : Fin 8)
  | mmul (acc : Bool) (t : Ty) (rd : Rd) (d : Fin 8) (areg : Option (Fin 8)) (aloc : MLocV) (baddr : Option W64) (mac : Fin 8)
  | mfac (d : Fin 8) (u v : List W32)
  | mlradd (d a b : Fin 8)
  | mlrmul (d a b : Fin 8)
  | mreef (d a : Fin 8) (mtol : W32)
  | mprom (d a : Fin 8)
  | mtr (d a : Fin 8)
  | mscale (d a : Fin 8) (c : W32)
  | mrec (prog : V512)
  | mrun (d a mac : Fin 8)
  deriving DecidableEq, Repr

/-- A piece of a row that a matrix command has read: its bytes as a number, their count, and the tag and scale bytes of
their sector (R176). -/
structure MPiece where
  data : Nat
  len : Nat
  tag : Nat
  sc0 : Byte
  sc1 : Byte
  deriving DecidableEq, Repr

/-- A matrix command with its number, issuing thread set, weight and granule; whether it is granted, the cycle at which it came
to the head of its queue, the cluster that it migrated to, the rows that it has read, the number of rows that it has written or
dropped, a macro in which its staged tile has a row with a parity error, and a fault that it waits on (R165 to R172, R383). `prior` is
its destination as it stood when the command began, and `part` the split units of its product that are complete (R170; log 37). `lose`
names macros whose former tiles were lost at the issue of a later command that is gone, once this one has completed (R186). -/
structure MCmd where
  num : Nat
  ts : Nat
  op : MOp
  gran : Nat
  weight : Nat
  granted : Bool
  headAt : Option W64
  migrated : Option Nat
  got : AMap (List MPiece)
  wrote : Nat
  bad : Option Nat
  fault : Option W64
  prior : Option MVal
  part : List (List W32)
  lose : List Nat
  deriving DecidableEq, Repr

/-- An entry of the binding table (R330). -/
structure Bind where
  cls : Nat
  bound : Bool
  masked : Bool
  deriving DecidableEq, Repr

/-- A resident placed on a core (R320, R335, R337, R348): instance, launch, resident number, classes, region span, pin bit and
traffic counters. -/
structure Resident where
  inst : Nat
  lid : Nat
  gen : Nat
  resNo : Nat
  classes : W16
  spanLo : Nat
  spanLen : Nat
  nominal : Nat
  pin : Bool
  traffic : List (Nat × Nat)
  deriving DecidableEq, Repr

/-- One core. The slot of the focus thread set in `threads` is stale while it stands in the state's `th`. -/
structure CoreSt where
  threads : Vector Thread 4
  ctx : Option Nat
  /-- Partition word (R240). -/
  pword : W64
  alloc : Nat
  cap : Nat
  /-- The pool in 64-byte blocks; an absent block is zero (R241). -/
  pool : AMap V512
  /-- Latest time of an access of the pool in the timestamp order (R281, R290; log 73). -/
  ptime : Nat
  q : Vector (List V512) 16
  binds : Vector Bind 8
  macros : Vector MArr 8
  mtrack : Vector MTrack 8
  /-- Recurrence program as `mrec` set it (R187). -/
  recprog : V512
  mq : List MCmd
  mnum : Nat
  l1 : AMap L1Copy
  tlb : List TlbEntry
  gated : Bool
  resid : List Resident
  /-- Placement cache: instance to core, by the instance's key (R336). -/
  pcache : AMap Nat
  /-- Forwarding entries: context × 2^64 and the same key, to the new core and the swap instants until the entry ends (R343). -/
  fwd : AMap (Nat × Nat)
  /-- Held by the swap instant (R341). -/
  held : Bool
  /-- The core castled at the last swap instant (R341 item 8). -/
  castled : Bool
  /-- Thread set of the core that issued last (R18). -/
  lastTs : Nat
  deriving DecidableEq, Repr

/-- A copy or gather in the queue of a copy engine (R269, R273). -/
structure Copy where
  id : Nat
  g : Nat
  ctx : Nat
  gather : Bool
  /-- Shadow registers as `cpygo` found them, or the descriptor lanes of a gather. -/
  desc : Vector W64 9
  gran : Nat
  status : Nat
  started : Bool
  /-- Groups done, elements done in the order of the current group, that order (ascending where it is short), elements done ahead
  of it, the element at which a fault stopped it, and the bytes written. -/
  groups : Nat
  elems : Nat
  order : List Nat
  early : List Nat
  stuck : Nat
  bytes : Nat
  /-- Indices that a gather has read, by row (R270). -/
  kidx : AMap Nat
  /-- Bytes that later-issued copies of the thread set wrote meanwhile (R274): place (a core, or `numCores` for memory), first byte,
  count. -/
  later : List (Nat × Nat × Nat)
  denied : W32
  /-- First address that a multicast was denied (R276). -/
  deny : Option W64
  cause : Nat
  cancelled : Bool
  finished : Bool
  fault : Option W64
  deriving DecidableEq, Repr

/-- An answer record of an interval list (R215), as a 256-bit value. -/
abbrev Answer := BitVec 256

/-- States of a ray slot (R190). -/
inductive RayState where
  | free | open_ | run | done
  deriving DecidableEq, Repr

/-- A rigging image (R199 to R202): a standard one or the microwords of a loaded image. -/
inductive Rig where
  | std (fp64 : Bool)
  | image (words : List (BitVec 128))
  deriving DecidableEq, Repr

/-- A hit child in the child list of a ray (R204): address, kind, count, tin and tout. -/
structure Child where
  addr : W64
  kind : Nat
  count : Nat
  tin : W32
  tout : W32
  deriving DecidableEq, Repr

/-- A hit task that waits for an entry of the hit buffer and for room in the ring: address and bytes of its leaf record, and what
its hit record says (R208). -/
structure HitWait where
  recAddr : W64
  leaf : V512
  code : W64
  frame : W64
  prio : Nat
  deriving DecidableEq, Repr

/-- A log write that has not been performed (R212): bytes at an address, a unit's count of rays begun, the log header, or the ray's
own header. -/
inductive LogW where
  | bytes (va : W64) (b : List Byte)
  | begun (unit : Nat)
  | head
  | rayHead
  deriving DecidableEq, Repr

/-- One ray slot (R190 to R214, R217). -/
structure Ray where
  gen : Nat
  st : RayState
  ctx : Nat
  d0 : V512
  d1 : V512
  rig : Rig
  ivstop : W32
  /-- The interval list and its state (R217). -/
  recs : List Answer
  front : W32
  opq : Bool
  arrCount : W32
  arrivals : Nat
  late : Nat
  dup : Nat
  reject : Nat
  merges : Nat
  /-- Status bits 8:0, and the counts of R193. -/
  stat : BitVec 9
  nodes : Nat
  hits : Nat
  drop : Nat
  w : Vector W64 16
  fz : Bool
  fn : Bool
  fm : Bool
  fe : Bool
  ff : Bool
  upc : Nat
  stack : List (W64 × W64)
  rstack : List Nat
  node : BitVec 1024
  /-- Sectors of the current microword's read that it has read already, by virtual address / 64 (R210), and answers of a brick that
  have not arrived (R207, R212). -/
  ahead : AMap V512
  cells : List Answer
  children : List Child
  /-- tin and tout of the leaf's box, and records of the leaf that the microword has tested. -/
  tin : W32
  tout : W32
  leafDone : Nat
  /-- Microwords since the last one that fetched or tested. -/
  wd : Nat
  /-- Traversal has ended (R197). -/
  ended : Bool
  outstanding : Nat
  hitWait : Option HitWait
  /-- Answers that wait to arrive, each with the thread set that posted it (R218, R230). -/
  queue : List (Answer × Nat)
  /-- Thread set that opened the ray, then the one that started it; launch entry with its generation, and unit, of the first; launch
  entry and unit of the second (R209, R212). -/
  tracer : Nat
  lid : Nat
  lgen : Nat
  unit : Nat
  hlid : Nat
  hunit : Nat
  /-- The log of the launch when the ray was opened, the ray's number there, and whether it records (R212). -/
  log : Option (W64 × W64 × W64)
  logN : Option Nat
  logOn : Bool
  visits : Nat
  answers : Nat
  lastVisit : Option W64
  pend : List LogW
  /-- The supervisor has had the write of the ray's header discarded (R212, R383). -/
  headed : Bool
  replay : Bool
  parked : Bool
  fault : Option W64
  deriving DecidableEq, Repr

/-- An entry of the hit buffer (R208). -/
structure HitEntry where
  slot : Nat
  ctx : Nat
  /-- Priority of its task record, and whether that record has been popped; an untaken entry goes with the context's oldest hit
  record of that priority that has not been popped. -/
  prio : Nat
  taken : Bool
  d0 : V512
  d1 : V512
  deriving DecidableEq, Repr

/-- A ring set (R313): eight rings of records with push numbers, and the push numbers of the records in each overflow chain, oldest
first (R314, R316). -/
structure RingSet where
  rings : Vector (List (Nat × BitVec 256)) 8
  ovf : Vector (List Nat) 8
  deriving DecidableEq, Repr

/-- A U copy of a slice (R266): operation, type, key slot, word mask and words. -/
structure UCopy where
  op : AOp
  t : Ty
  slot : Nat
  ctx : Nat
  mask : W64
  words : AMap W64
  deriving DecidableEq, Repr

/-- An entry of a slice's miss table: a line whose sectors in the list are being filled, for the access that missed (R255). -/
structure Miss where
  line : Nat
  ctx : Nat
  slot : Nat
  secs : List Nat
  deriving DecidableEq, Repr

/-- One cluster's engines. -/
structure Cluster where
  /-- Semaphores: owner context and value (R23). -/
  sems : AMap (Nat × W32)
  cq : List Copy
  cqCount : W32
  rays : AMap Ray
  /-- Context and image of each control-store bank that holds one, most recently used first (R199). -/
  banks : List (Nat × Rig)
  hitbuf : AMap HitEntry
  rings : AMap RingSet
  pushNo : Nat
  popCount : Nat
  /-- Where the rotation of steals stands: the neighbour after the one tried last (R317). -/
  stealPos : Nat
  /-- U copies of the slice by line number (R266). -/
  ucopies : AMap UCopy
  /-- Miss table of the slice, and the thread sets whose C reads wait in its input buffer for an entry (R255). -/
  miss : List Miss
  inbuf : List Nat
  /-- Lines that the write-back buffer holds, oldest first (R256). -/
  wbuf : List Nat
  tlb : List TlbEntry
  /-- Walks under way: context, page number, level to read next, address of its table, and the context's latest event when the walk
  came there: one that has ended in a fault since leaves nothing behind (R357, R359, R360). -/
  walks : List (Nat × Nat × Nat × Nat × W64)
  /-- Core at which the arbiter's round stands and the grants it has given there (R168). -/
  mxCore : Nat
  mxGrants : Nat
  migrated : Option Nat
  /-- Next SEQ of each unit (R378). -/
  faultSeq : Vector (BitVec 12) 8
  /-- Grants given at each output port (R331). -/
  grants : Vector Nat 6
  rr : Vector Nat 6
  deriving DecidableEq, Repr

/-- A launch entry (R319 to R325). -/
structure Launch where
  /-- Live from its issue to its completion (R324, R325). -/
  live : Bool
  gen : Nat
  block : BitVec 2048
  addr : W64
  job : Nat
  /-- Resident table, and class table with the entries that CVALID marks, as the dispatcher read them. -/
  rtab : List (BitVec 128)
  ctab : AMap (BitVec 128)
  admitted : Bool
  /-- Window head, next unit to dispatch, and from which unit on every unit is reported with one status (R312, R326). -/
  head : Nat
  next : Nat
  tail : Option (Nat × Nat)
  /-- Records that have arrived and not been reported: unit, status, payload. -/
  recs : List (Nat × Nat × W64)
  completed : Nat
  cancelled : Nat
  stopped : Nat
  complete : Bool
  cancelling : Bool
  /-- Cause of a failed launch or of a failed join-block store, and of the first dropped completion-ring store. -/
  cause : Nat
  rcause : Nat
  /-- Units whose log writes are committed, and a fault that a write of that count waits on, with the count (R212, R383). -/
  committed : Nat
  logFault : Option (W64 × Nat)
  /-- Log binding: base, unit stride, ray stride, and whether any ray was traced (R212). -/
  log : Option (W64 × W64 × W64)
  traced : Bool
  /-- Rays begun by unit (R212). -/
  begun : AMap Nat
  residReleased : Bool
  deriving DecidableEq, Repr

/-- A graph, phase or job (R324, R325). -/
structure Level where
  live : Bool
  closed : Bool
  complete : Bool
  cancelled : Bool
  completed : Nat
  cancelledUnits : Nat
  stopped : Nat
  admitted : Nat
  event : Option Nat
  /-- Phases of a graph, and jobs of a phase: those of the launches that name it (R32, R324). -/
  above : List Nat
  /-- Launches that have named the level since it opened: entry and generation (R324, R326). -/
  lids : List (Nat × Nat)
  deriving DecidableEq, Repr

/-- A continuation push that waits for room (R311): record, cluster of the performer, and the event that follows it. -/
structure ContPush where
  record : BitVec 256
  cluster : Nat
  event : Option Nat
  deriving DecidableEq, Repr

/-- A cancel in progress (R326): thread set, status register, level identifier, and the issuer's own launch entry and unit. -/
structure CancelReq where
  g : Nat
  dst : Nat
  ident : W64
  own : Option (Nat × Nat)
  deriving DecidableEq, Repr

/-- One context (R352, R353). -/
structure Context where
  created : Bool
  part : Nat
  hbase : W64
  hlim : W64
  hoff : W64
  ptroot : W64
  hitbase : W64
  hitcnt : W64
  /-- Values of registers 0x801 to 0x806 that clusters not listed as updated still use (R354): old value and clusters done. -/
  transOld : AMap (W64 × List Nat)
  kvalid : Byte
  /-- Key identity of each slot (R362). -/
  keys : Vector Nat 8
  savgen : W64
  saved : Option (List (Nat × CoreSt))
  classes : AMap (BitVec 128)
  events : BitVec 256
  evseq : W64
  launches : AMap Launch
  levels : AMap Level
  conts : List ContPush
  cancels : List CancelReq
  ovft : W64
  rig : Rig
  rm : BitVec 256
  dbgctl : W64
  dsel : W64
  /-- Placement table: an instance's key to its core (R343). -/
  placement : AMap Nat
  draining : Bool
  /-- Answers to fault messages that came while the context was drained or saved: fault id and act (R385). -/
  answers : List (W64 × Nat)
  deriving DecidableEq, Repr

/-- A job whose completion entry has not been formed (R399): its context and number, the cause of a block that failed at its issue,
and, once the job has completed (R324), its cause and counter 0. -/
structure JobOpen where
  ctx : Nat
  job : Nat
  cause : Nat
  ended : Option (Nat × Nat)
  deriving DecidableEq, Repr

/-- One partition (R349 to R352, R339). -/
structure Partition where
  created : Bool
  c0 : Nat
  c1 : Nat
  r0 : Nat
  r1 : Nat
  prng : Vector W64 8
  sup : Nat
  supCore : Nat
  locked : Bool
  cword : W64
  cpending : Option W64
  /-- Epoch of the last swap instant (R340). -/
  epoch : Nat
  /-- Pairs chosen at the last swap instant that have not castled, and pairs that castled, with the formations for which the
  repetition guard still forbids them (R341 item 8). -/
  chosen : List (Nat × Nat)
  guard : List (Nat × Nat × Nat)
  timerOff : W64
  /-- Alias key slot of the host's aperture, from its first access on (R398). -/
  apSlot : Option Nat
  /-- Job ring: tail and head, blocks of the head descriptor that have been issued, and the jobs that have not completed; the
  completion ring's next entry, the entries that have still to be written there, and the MSI-X vectors sent (R398, R399). -/
  jobTail : Nat
  jobHead : Nat
  jobBlk : Nat
  jobsOpen : List JobOpen
  compTail : Nat
  completions : List (BitVec 128)
  msix : List Nat
  /-- Phase and job completions that the hypervisor has received: context and level (R324). -/
  levelsDone : List (Nat × Nat)
  deriving DecidableEq, Repr

/-- A slice line (R254, R259, R39, R363); `buffered` when it stands in the write-back buffer of its slice (R256). -/
structure Line where
  buffered : Bool
  valid : BitVec 4
  dirty : BitVec 4
  mask : W64
  tag : Nat
  scales : W64
  owner : Nat
  partLine : Bool
  slot : Nat
  wts : Nat
  rts : Nat
  deriving DecidableEq, Repr

/-- A resident instance of a context (R335): launch entry with its generation, and instance number. -/
structure Inst where
  lid : Nat
  gen : Nat
  inst : Nat
  deriving DecidableEq, Repr

/-- A destination of a packet: the core that the write named and the one it goes to, by global number; the word that the P fault
latch takes on a refusal (R305); the instance of a resident-addressed write (R336), and whether the sender's placement of that instance
has changed since (R345). -/
structure PDst where
  named : Nat
  core : Nat
  word : W64
  inst : Option Inst
  old : Bool
  deriving DecidableEq, Repr

/-- A packet of path P in the mesh (R294 to R307). A multicast is one packet until a router replicates it (R294). -/
structure Packet where
  num : Nat
  /-- Number of the write that sent it. -/
  write : Nat
  g : Nat
  ctx : Nat
  cls : Nat
  isSend : Bool
  mc : Bool
  off : Nat
  data : V512
  dsts : List PDst
  /-- The buffer that holds it: a router's, by cluster, or a link's, by `linkAt`; its turn there, and the buffers on its route that it
  has left, each with its turn (R295; log 69). -/
  pos : Nat
  turn : Nat
  route : List (Nat × Nat)
  /-- Performed or refused; the acknowledgement is on its way, with the refusal's cause. -/
  ended : Bool
  cause : Nat
  deriving DecidableEq, Repr

/-- A service message of class 15 that waits for its core in the class-15 buffer of the core's router, with its turn there (R295,
R377). -/
structure Service where
  ctx : Nat
  core : Nat
  data : V512
  turn : Nat
  deriving DecidableEq, Repr

/-- An engine or core fault that waits for `fres` (R378 to R383): its id and the message sent. -/
structure Waiting where
  fid : W64
  va : W64
  acc : W64
  cause : Nat
  g : Nat
  deriving DecidableEq, Repr

/-- A Bilath connection (R402). -/
structure Conn where
  ctx : Nat
  live : Bool
  cause : Nat
  delivered : Nat
  /-- Write time of the connection's latest memory write (R403). -/
  time : Nat
  deriving DecidableEq, Repr

/-- How boot stands (R405): the steps that have completed, until the last one. -/
inductive BootStage where
  | off
  | step (n : Nat)
  | up
  | failed
  deriving DecidableEq, Repr

/-- What the agenda names next: an issue of a core, an event, or a step inside an instruction that the table gives no row: a thread
set's oldest C access or K load takes its value, one of its reds is folded, one of its active messages is performed or answered, its
read merges into an older one at a router, a walk reads its next entry, a gather reads an index or a copy engine moves an element, a
matrix command runs to its next split point, a copy leaves an L1, a line leaves a slice for the write-back buffer, or a link's buffer
of a class gives its oldest packet to the next router (log 3). -/
inductive Turn where
  | issue (core : Nat)
  | event (i : Instr)
  | access (g : Nat)
  | kread (g n : Nat)
  | red (g n : Nat)
  | amsg (g n : Nat)
  | amsgReply (g n : Nat)
  | merge (g older : Nat)
  | walk (cluster ctx va : Nat)
  | index (cluster id row : Nat)
  | element (cluster id n : Nat)
  | rows (core : Nat)
  | sector (cluster slot sector : Nat)
  | evictL1 (core sector : Nat)
  | evictLine (line : Nat)
  | link (cluster port cls : Nat)
  deriving DecidableEq, Repr

/-- The device. -/
structure State where
  /-- Thread set in focus: its global number, its own state and its core's. -/
  here : Nat
  th : Thread
  core : CoreSt
  cores : AMap CoreSt
  clusters : AMap Cluster
  ctxs : AMap Context
  parts : AMap Partition
  /-- The value at home of every byte of HBM (R24, R254), plain under the key that `memKey` names for its sector. -/
  mem : Mem
  /-- Key identity under which each written sector stands (R362); an absent sector reads the same under every key (log 5). -/
  memKey : AMap Nat
  /-- What HBM holds under each dirty sector: its bytes and key identity (R254, R391). -/
  older : AMap (V512 × Option Nat)
  lines : AMap Line
  /-- Greatest write time that home has given to a write on each path, by the code of R59, and greatest program timestamp of a
  release, the write times of the other paths with it (R250, R290, R292). -/
  pathTime : Vector Nat 9
  released : Nat
  /-- For each path, the greatest time that a fence with the path in its AFTER set has put before the path's later accesses (R290;
  log 73). -/
  fenced : Vector Nat 9
  /-- Program timestamp that the ticks have given to every core that the map does not list (R37). -/
  basePts : Nat
  host : Mem
  /-- Format windows by controller × 16 + window: WCTL, WBASE, WLIM, WSCL (R258). -/
  windows : AMap (Vector W64 4)
  packets : List Packet
  pktNum : Nat
  services : List Service
  waiting : List Waiting
  conns : AMap Conn
  boot : BootStage
  /-- Keys that the security processor has made: each new one has an identity of its own (R362). -/
  keyNum : Nat
  /-- Latest samples of the monitors, and their thresholds with the contexts and bits of their notices (R407). -/
  monitors : AMap W64
  monCfg : AMap (List W64 × List (Nat × Option Nat))
  /-- Measurements by SPDM index (R365). -/
  meas : AMap (BitVec 256)
  cycle : W64
  /-- Ticks of the program timestamps that have been given (R37, R251). -/
  ticks : Nat
  rtime : W64
  /-- Telemetry counts: corrected errors, dropped MACsec frames, retransmissions, management answers (R388, R401, R404). -/
  corrected : Nat
  macsecDrops : Nat
  retransmits : Nat
  /-- Words that the host and the management path have received: what BAR2, telemetry, SPDM and HBM refresh returned. -/
  hostOut : List W64
  mgmtOut : List (BitVec 512)
  /-- SPDM sessions that key exchanges have opened (R366). -/
  sessions : Nat
  /-- What comes next (log 3). -/
  agenda : List Turn
  /-- Steps taken: the counter that the free values are applied to (log 4). -/
  steps : Nat
  deriving DecidableEq, Repr

/-- Why the machine stops. -/
inductive Fault where
  /-- Raised by `step` when boot has failed and the step is not one that standby power serves: the device never runs (R404, R405);
  safe, the manual gives it no further step. -/
  | bootFailed
  deriving DecidableEq, Repr

/-- Why an instruction has no meaning here. -/
inductive Refusal where
  /-- Raised by `exec` for an instruction that is not modelled yet; safe, nothing is claimed of it. -/
  | notModelled (mnemonic : String)
  deriving DecidableEq, Repr

/-- What a step or a meaning answers. -/
abbrev Out := Host.Outcome State Fault Refusal

/-- Registers as reset leaves them (log 1). -/
def Regs.init : Regs :=
  { s := Vector.replicate 32 0, v := Vector.replicate 32 0, p := Vector.replicate 8 0, x := Vector.replicate 8 0,
    unit := 0, frame := 0, lpb := 0, flags := 0, mtol := 0, mrmax := 0, ivstop := 0, mweight := 0, rngkey := 0,
    trapvec := 0, upvec := 0, ffbase := 0, faultinfo := 0, faultaddr := 0 }

/-- A thread set as reset leaves it: idle. -/
def Thread.init : Thread :=
  { rf := Regs.init, snap := none, pc := 0, ipc := 0, slot1 := false, inPair := false, res := .issued, st := .idle, task := 0,
    act := none, busy := 0, shapes := Vector.replicate 8 .zero, m := Vector.replicate 8 .zero, mlatch := none, platch := none,
    ptgt := none, solo := false, xfer := none, shadow := Vector.replicate 9 0, pts := 0,
    creqs := [], kreqs := [], ureqs := [], amsgs := [], hreqs := [],
    rays := [], lcur := none, csel := 0, hit := none, fault := none, yields := [], dstep := false,
    halting := false, ending := false, stage := 0 }

/-- A core as reset leaves it: unbound. -/
def CoreSt.init : CoreSt :=
  { threads := Vector.replicate 4 Thread.init, ctx := none, pword := 0, alloc := 0, cap := 256, pool := [],
    ptime := 0, q := Vector.replicate 16 [], binds := Vector.replicate 8 ⟨0, false, false⟩, macros := Vector.replicate 8 .empty,
    mtrack := Vector.replicate 8 .empty, recprog := 0, mq := [], mnum := 0, l1 := [], tlb := [], gated := false, resid := [],
    pcache := [], fwd := [], held := false, castled := false, lastTs := 3 }

/-- A ray slot as reset leaves it: FREE (R190). -/
def Ray.init : Ray :=
  { gen := 0, st := .free, ctx := 0, d0 := 0, d1 := 0, rig := .std false, ivstop := 0, recs := [], front := 0x7F800000,
    opq := false, arrCount := 0, arrivals := 0, late := 0, dup := 0, reject := 0, merges := 0, stat := 0, nodes := 0, hits := 0,
    drop := 0, w := Vector.replicate 16 0, fz := false, fn := false, fm := false, fe := false, ff := false, upc := 1, stack := [],
    rstack := [], node := 0, ahead := [], cells := [], children := [], tin := 0, tout := 0,
    leafDone := 0, wd := 0, ended := false, outstanding := 0,
    hitWait := none, queue := [], tracer := 0, lid := 0, lgen := 0, unit := 0, hlid := 0, hunit := 0, log := none, logN := none,
    logOn := false, visits := 0, answers := 0, lastVisit := none, pend := [], headed := false, replay := false, parked := false,
    fault := none }

/-- An empty ring set (R313). -/
def RingSet.init : RingSet := { rings := Vector.replicate 8 [], ovf := Vector.replicate 8 [] }

/-- A cluster as reset leaves it. -/
def Cluster.init : Cluster :=
  { sems := [], cq := [], cqCount := 0, rays := [], banks := [], hitbuf := [], rings := [], pushNo := 0, popCount := 0, stealPos := 0,
    ucopies := [], miss := [], inbuf := [], wbuf := [], tlb := [], walks := [],
    mxCore := 0, mxGrants := 0, migrated := none, faultSeq := Vector.replicate 8 0,
    grants := Vector.replicate 6 0, rr := Vector.replicate 6 0 }

/-- A launch entry that is free. -/
def Launch.init : Launch :=
  { live := false, gen := 0, block := 0, addr := 0, job := 0, rtab := [], ctab := [], admitted := false, head := 0, next := 0,
    tail := none, recs := [], completed := 0, cancelled := 0, stopped := 0, complete := false, cancelling := false, cause := 0,
    rcause := 0, committed := 0, logFault := none, log := none, traced := false, begun := [], residReleased := true }

/-- A level that is not live. -/
def Level.init : Level :=
  { live := false, closed := false, complete := false, cancelled := false, completed := 0, cancelledUnits := 0, stopped := 0,
    admitted := 0, event := none, above := [], lids := [] }

/-- A context that has not been created. -/
def Context.init : Context :=
  { created := false, part := 0, hbase := 0, hlim := 0, hoff := 0, ptroot := 0, hitbase := 0, hitcnt := 0, transOld := [],
    kvalid := 0, keys := Vector.replicate 8 0, savgen := 0, saved := none, classes := [], events := 0, evseq := 0, launches := [],
    levels := [], conts := [], cancels := [], ovft := 0, rig := .std false, rm := 0, dbgctl := 0, dsel := 0, placement := [],
    draining := false, answers := [] }

/-- A partition that has not been created; the castling control word has the reset value of R339. -/
def Partition.init : Partition :=
  { created := false, c0 := 0, c1 := 0, r0 := 0, r1 := 0, prng := Vector.replicate 8 0, sup := 0, supCore := 0, locked := false,
    cword := 0x0000100080000314, cpending := none, epoch := 0, chosen := [], guard := [], timerOff := 0, apSlot := none,
    jobTail := 0, jobHead := 0, jobBlk := 0, jobsOpen := [], compTail := 0, completions := [], msix := [], levelsDone := [] }

/-- A line that the slice does not hold. -/
def Line.init : Line :=
  { buffered := false, valid := 0, dirty := 0, mask := 0, tag := 0, scales := 0, owner := 0, partLine := false, slot := 0, wts := 0, rts := 0 }

/-- A connection that has not been opened. -/
def Conn.init : Conn := { ctx := 0, live := false, cause := 0, delivered := 0, time := 0 }

/-- The device right after reset: nothing booted, no partition, every thread set idle, memory with nothing listed. -/
def State.reset : State :=
  { here := 0, th := Thread.init, core := CoreSt.init, cores := [], clusters := [], ctxs := [], parts := [], mem := [],
    memKey := [], older := [], lines := [], pathTime := Vector.replicate 9 0, released := 0,
    fenced := Vector.replicate 9 0, basePts := 0,
    host := [], windows := [], packets := [], pktNum := 0, services := [], waiting := [],
    conns := [], boot := .off, keyNum := 0, monitors := [], monCfg := [], meas := [], cycle := 0, ticks := 0,
    rtime := 0, corrected := 0, macsecDrops := 0, retransmits := 0,
    hostOut := [], mgmtOut := [], sessions := 0, agenda := [], steps := 0 }

end Machine
end Sys2Proof
end

