-- ==== Sys2Proof/Machine/Bits.lean ====
section
/-!
DEFINITION. Bits: fields, sign extension, elements of vector registers and little-endian bytes, on natural numbers
(R73, R74, R90), and the lookups of association maps.
-/
namespace Sys2Proof
namespace Machine

/-- The `len` bits of `x` from bit `lo` up. -/
def bitsOf (x lo len : Nat) : Nat := x / 2 ^ lo % 2 ^ len
/-- The `len` bits of a 64-bit word from bit `lo` up. -/
def fieldOf (x : W64) (lo len : Nat) : Nat := bitsOf x.toNat lo len
/-- Bit `i` of a number. -/
def bitOf (x i : Nat) : Bool := x / 2 ^ i % 2 == 1
/-- The two's-complement reading of the low `w` bits of `x` (R74). -/
def signedOf (w x : Nat) : Int :=
  let y := x % 2 ^ w
  if y < 2 ^ (w - 1) then (y : Int) else (y : Int) - (2 ^ w : Nat)
/-- The low `w` bits of an integer, as a pattern (R75 without saturation). -/
def wrapTo (w : Nat) (i : Int) : Nat := (i % (2 ^ w : Nat)).toNat
/-- Sign extension of a `w`-bit pattern to 64 bits (R73). -/
def sext64 (w x : Nat) : W64 := BitVec.ofInt 64 (signedOf w x)
/-- Zero extension of a `w`-bit pattern to 64 bits (R73). -/
def zext64 (w x : Nat) : W64 := BitVec.ofNat 64 (x % 2 ^ w)
/-- A Boolean as a bit. -/
def bit (b : Bool) : Nat := if b then 1 else 0

/-- Puts an entry before the first one that it may precede. -/
def putInOrder {α : Type} (le : α → α → Bool) (x : α) : List α → List α
  | [] => [x]
  | y :: l => if le x y then x :: y :: l else y :: putInOrder le x l
/-- The list in order; entries that are equal in it keep their places. -/
def sortBy {α : Type} (le : α → α → Bool) (l : List α) : List α := l.foldr (putInOrder le) []

/-- Element `n` of width `w` of a vector register (R90). -/
def elem (w : Nat) (v : V512) (n : Nat) : Nat := bitsOf v.toNat (w * n) w
/-- The number whose base-2^w digits are given, least first. -/
def joinDigits (w : Nat) (l : List Nat) : Nat := l.foldr (fun e acc => e % 2 ^ w + 2 ^ w * acc) 0
/-- A vector register from its elements of width `w`, element 0 first (R90). -/
def ofElems (w : Nat) (l : List Nat) : V512 := BitVec.ofNat 512 (joinDigits w l)
/-- The elements of a vector register, element 0 first (R90). -/
def elems (w : Nat) (v : V512) : List Nat := (List.range (512 / w)).map (elem w v)
/-- 32-bit lane `l` (R73). -/
def lane (v : V512) (l : Nat) : Nat := elem 32 v l
/-- 64-bit lane `l` (R73). -/
def lane64 (v : V512) (l : Nat) : W64 := BitVec.ofNat 64 (elem 64 v l)
/-- A 64-byte entry from its eight 64-bit words. -/
def of64 (l : List W64) : V512 := ofElems 64 (l.map (·.toNat))

/-- The `n` low bytes of a number, least first (R73). -/
def toBytes (n x : Nat) : List Byte := (List.range n).map fun i => BitVec.ofNat 8 (bitsOf x (8 * i) 8)
/-- The number whose little-endian bytes are given. -/
def ofBytes (l : List Byte) : Nat := joinDigits 8 (l.map (·.toNat))
/-- A range of bytes with their addresses. -/
def atAddr (a : Nat) (l : List Byte) : List (Nat × Byte) := (List.range l.length).zipWith (fun i b => (a + i, b)) l

/-- Number of set bits among the low `w`. -/
def popcount (w x : Nat) : Nat := ((List.range w).filter (bitOf x)).length
/-- Even parity: the exclusive or of the bits. -/
def parity (w x : Nat) : Bool := popcount w x % 2 == 1
/-- Position of the lowest set bit among the low `w`, or `w`. -/
def lowestBit (w x : Nat) : Nat := ((List.range w).find? (bitOf x)).getD w
/-- Position of the highest set bit among the low `w`, when there is one. -/
def highestBit (w x : Nat) : Option Nat := ((List.range w).reverse).find? (bitOf x)

/-- The rigging image is FP64 (R195, R202). -/
def Rig.is64 (r : Rig) : Bool := match r with
  | .std b => b
  | .image l => bitOf (l.headD 0).toNat 0

/-- Lookup in an association map; an absent key holds `d`. -/
def amGet {α : Type} (d : α) : AMap α → Nat → α
  | [], _ => d
  | (j, x) :: m, k => if j = k then x else if k < j then d else amGet d m k
/-- Lookup that tells an absent key. -/
def amFind {α : Type} : AMap α → Nat → Option α
  | [], _ => none
  | (j, x) :: m, k => if j = k then some x else if k < j then none else amFind m k
/-- Update of an association map, keys ascending. -/
def amSet {α : Type} (m : AMap α) (k : Nat) (v : α) : AMap α :=
  match m with
  | [] => [(k, v)]
  | (j, x) :: m' => if j = k then (k, v) :: m' else if k < j then (k, v) :: (j, x) :: m' else (j, x) :: amSet m' k v
/-- Removal of a key. -/
def amDel {α : Type} (m : AMap α) (k : Nat) : AMap α := m.filter (fun e => e.1 != k)

/-- One byte of memory; an unlisted address reads 0 (log 2). -/
def memGet : Mem → Nat → Byte
  | [], _ => 0
  | (j, x) :: m, k => if j = k then x else if k < j then 0 else memGet m k
/-- Write of one byte, keeping the canonical form: a byte 0 is not listed. -/
def memSet (m : Mem) (k : Nat) (b : Byte) : Mem :=
  match m with
  | [] => if b = 0 then [] else [(k, b)]
  | (j, x) :: m' =>
    if j = k then (if b = 0 then m' else (k, b) :: m')
    else if k < j then (if b = 0 then (j, x) :: m' else (k, b) :: (j, x) :: m')
    else (j, x) :: memSet m' k b
/-- Writes of several bytes. -/
def memSetAll (m : Mem) (l : List (Nat × Byte)) : Mem := l.foldl (fun m e => memSet m e.1 e.2) m
/-- The `n` bytes from address `a` (R73). -/
def memRead (m : Mem) (a n : Nat) : List Byte := (List.range n).map fun i => memGet m (a + i)
/-- The canonical form: every listed address above `lo`, rising, and no listed byte 0. -/
def Memory.wfFrom (lo : Option Nat) : Mem → Bool
  | [] => true
  | (k, b) :: m => (match lo with | none => true | some j => decide (j < k)) && b != 0 && Memory.wfFrom (some k) m
/-- Memory in canonical form: addresses strictly rising and no byte that an unlisted address reads as (log 2). -/
def Memory.wf (m : Mem) : Bool := Memory.wfFrom none m

end Machine
end Sys2Proof
end

