-- ==== Sys2Proof/Machine/Float.lean ====
section
/-!
DEFINITION. Float: the floating formats, their readings, rounding, the sticky-flag conditions, and the correctly rounded
functions (R77 to R93, R138 to R143). Every operation works on exact dyadic values and rounds once.
-/
namespace Sys2Proof
namespace Machine

/-- A value read from a floating pattern: `(-1)^neg × m × 2^e`, an infinity, or a NaN that may be signalling (R79). -/
inductive FV where
  | nan (signalling : Bool)
  | inf (neg : Bool)
  | fin (neg : Bool) (m : Nat) (e : Int)
  deriving DecidableEq, Repr

/-- A format with its reading (R77, R83 to R86): mantissa bits, bias, width, magnitude code of the largest finite value,
and the codes of +Inf and of the canonical NaN where the reading has them. -/
structure Fmt where
  mb : Nat
  bias : Nat
  w : Nat
  maxCode : Nat
  infCode : Option Nat
  nanCode : Option Nat
  ieee : Bool
  deriving DecidableEq, Repr

/-- The flag bits of R81. -/
def flagNV : Nat := 16
def flagDZ : Nat := 8
def flagOF : Nat := 4
def flagUF : Nat := 2
def flagNX : Nat := 1

/-- Format of a type under a reading (R77, R79, R83 to R86). An integer type has none; it reads as FP32. -/
def fmtOf (t : Ty) (rd : Rd) : Fmt :=
  match t with
  | .f64 => ⟨52, 1023, 64, 0x7FEFFFFFFFFFFFFF, some 0x7FF0000000000000, some 0x7FF8000000000000, true⟩
  | .f16 => ⟨10, 15, 16, 0x7BFF, some 0x7C00, some 0x7E00, true⟩
  | .bf16 => ⟨7, 127, 16, 0x7F7F, some 0x7F80, some 0x7FC0, true⟩
  | .e4m3 => match rd with
    | .nan => ⟨3, 7, 8, 0x7E, none, some 0x7F, false⟩
    | .ieee => ⟨3, 7, 8, 0x77, some 0x78, some 0x7C, false⟩
    | _ => ⟨3, 7, 8, 0x7F, none, none, false⟩
  | .e5m2 => match rd with
    | .nan => ⟨2, 15, 8, 0x7E, none, some 0x7F, false⟩
    | .ieee => ⟨2, 15, 8, 0x7B, some 0x7C, some 0x7E, false⟩
    | _ => ⟨2, 15, 8, 0x7F, none, none, false⟩
  | .e2m1 => ⟨1, 1, 4, 7, none, none, false⟩
  | _ => ⟨23, 127, 32, 0x7F7FFFFF, some 0x7F800000, some 0x7FC00000, true⟩

/-- A magnitude code with its sign bit. -/
def withSign (f : Fmt) (neg : Bool) (k : Nat) : Nat := if neg then k + 2 ^ (f.w - 1) else k

/-- The value of a pattern (R77, R83 to R86). The E2M1 code 0b1000 reads as +0 (R149). -/
def fdec (t : Ty) (rd : Rd) (x : Nat) : FV :=
  let f := fmtOf t rd
  let neg := bitOf x (f.w - 1)
  let k := x % 2 ^ (f.w - 1)
  let field := k / 2 ^ f.mb
  let man := k % 2 ^ f.mb
  if k > f.maxCode then
    (if f.infCode = some k then .inf neg else .nan (f.ieee && !bitOf man (f.mb - 1)))
  else if t == .e2m1 && k == 0 then .fin false 0 0
  else if field = 0 then .fin neg man (1 - (f.bias : Int) - f.mb)
  else .fin neg (man + 2 ^ f.mb) ((field : Int) - f.bias - f.mb)

/-- The integer part of a magnitude `m × 2^-sh` (with a tail below it when `sticky`) rounded in a mode, and whether it
changed (R78). -/
def roundShift (rnd : Rnd) (neg : Bool) (m sh : Nat) (sticky : Bool) : Nat × Bool :=
  let sig := m / 2 ^ sh
  let rem := m % 2 ^ sh
  let twice := 2 * rem
  let inexact := rem != 0 || sticky
  let up := match rnd with
    | .rne => decide (twice > 2 ^ sh) || (twice == 2 ^ sh && (sticky || sig % 2 == 1))
    | .rtz => false
    | .rdn => neg && inexact
    | .rup => !neg && inexact
  (sig + bit up, inexact)

/-- Scaling of `m × 2^e` to the quantum `2^q`, then rounding. -/
def roundAt (rnd : Rnd) (neg : Bool) (m : Nat) (e q : Int) (sticky : Bool) : Nat × Bool :=
  if q ≤ e then (m * 2 ^ (e - q).toNat, sticky) else roundShift rnd neg m (q - e).toNat sticky

/-- A nonzero magnitude rounded to a format with an unbounded exponent range above: its magnitude code, whether it is
inexact, and whether it is tiny after rounding (R78, R92). -/
def roundMag (f : Fmt) (rnd : Rnd) (neg : Bool) (m : Nat) (e : Int) (sticky : Bool) : Nat × Bool × Bool :=
  let ev : Int := e + (Nat.log2 m : Nat)
  let emin : Int := 1 - (f.bias : Int)
  let qmin : Int := emin - f.mb
  let q : Int := max ev emin - f.mb
  let r := roundAt rnd neg m e q sticky
  let tiny :=
    if emin ≤ ev then false
    else decide (ev < emin - 1) || (roundAt rnd neg m e (ev - f.mb) sticky).1 < 2 ^ (f.mb + 1)
  ((q - qmin).toNat * 2 ^ f.mb + r.1, r.2, tiny)

/-- Result of a finite value that overflows (R78, R92, R139). -/
def overflowOf (f : Fmt) (rnd : Rnd) (sat neg : Bool) : Nat :=
  let toInf := match rnd with
    | .rne => true
    | .rtz => false
    | .rdn => neg
    | .rup => !neg
  if sat || !toInf then withSign f neg f.maxCode
  else match f.infCode, f.nanCode with
    | some k, _ => withSign f neg k
    | none, some k => k
    | none, none => withSign f neg f.maxCode

/-- Rounds the exact value `(-1)^neg × m × 2^e` to a format: pattern and flags (R78, R92). `sticky` adds a nonzero tail below
the last bit of `m`. -/
def encFin (t : Ty) (rd : Rd) (rnd : Rnd) (sat neg : Bool) (m : Nat) (e : Int) (sticky : Bool) : Nat × Nat :=
  let f := fmtOf t rd
  let plusZero := t == .e2m1
  if m = 0 then (if plusZero then 0 else withSign f neg 0, 0)
  else
    let r := roundMag f rnd neg m e sticky
    if r.1 > f.maxCode then (overflowOf f rnd sat neg, flagOF ||| flagNX)
    else (if plusZero && r.1 == 0 then 0 else withSign f neg r.1,
      if r.2.1 then (if r.2.2 then flagUF ||| flagNX else flagNX) else 0)

/-- Result for an infinite source (R92). -/
def encInf (t : Ty) (rd : Rd) (sat neg : Bool) : Nat × Nat :=
  let f := fmtOf t rd
  match f.infCode, f.nanCode with
  | some k, _ => (withSign f neg k, 0)
  | none, some k => if sat then (withSign f neg f.maxCode, 0) else (k, flagNV)
  | none, none => (withSign f neg f.maxCode, 0)

/-- Result for a NaN source (R79, R92). -/
def encNan (t : Ty) (rd : Rd) (signalling : Bool) : Nat × Nat :=
  match (fmtOf t rd).nanCode with
  | some k => (k, if signalling then flagNV else 0)
  | none => (0, flagNV)

/-- Rounds a value to a format (R92). -/
def encFV (t : Ty) (rd : Rd) (rnd : Rnd) (sat : Bool) (x : FV) : Nat × Nat :=
  match x with
  | .nan s => encNan t rd s
  | .inf n => encInf t rd sat n
  | .fin n m e => encFin t rd rnd sat n m e false

/-- The canonical NaN of an IEEE format with flags (R79). -/
def nanResult (t : Ty) (flags : Nat) : Nat × Nat := (((fmtOf t .ieee).nanCode).getD 0, flags)

/-- A signalling NaN (R79). -/
def FV.isSig (x : FV) : Bool := match x with
  | .nan s => s
  | _ => false
def FV.isNan (x : FV) : Bool := match x with
  | .nan _ => true
  | _ => false
/-- Sign inversion. -/
def FV.negate (x : FV) : FV := match x with
  | .nan s => .nan s
  | .inf n => .inf (!n)
  | .fin n m e => .fin (!n) m e

/-- A magnitude with a sign as an integer. -/
def signInt (neg : Bool) (m : Nat) : Int := if neg then -(m : Int) else m

/-- Sum of two values that are not NaN, rounded once (R78, R138). -/
def addFV (t : Ty) (rnd : Rnd) (sat : Bool) (x y : FV) : Nat × Nat :=
  match x, y with
  | .inf a, .inf b => if a = b then encInf t .ieee sat a else nanResult t flagNV
  | .inf a, _ => encInf t .ieee sat a
  | _, .inf b => encInf t .ieee sat b
  | .fin a ma ea, .fin b mb eb =>
    let e := min ea eb
    let v := signInt a (ma * 2 ^ (ea - e).toNat) + signInt b (mb * 2 ^ (eb - e).toNat)
    if v = 0 then
      let neg := if ma = 0 && mb = 0 && a = b then a else rnd == .rdn
      (withSign (fmtOf t .ieee) neg 0, 0)
    else encFin t .ieee rnd sat (decide (v < 0)) v.natAbs e false
  | _, _ => nanResult t 0

/-- The exact product of two values that are not NaN, or none for ∞ × 0 (R138). -/
def mulFV (x y : FV) : Option FV :=
  match x, y with
  | .fin a ma ea, .fin b mb eb => some (.fin (a != b) (ma * mb) (ea + eb))
  | .inf a, .inf b => some (.inf (a != b))
  | .inf a, .fin b mb _ => if mb = 0 then none else some (.inf (a != b))
  | .fin a ma _, .inf b => if ma = 0 then none else some (.inf (a != b))
  | _, _ => none

/-- Floating addition (R138). -/
def fAdd (t : Ty) (rnd : Rnd) (sat : Bool) (a b : Nat) : Nat × Nat :=
  let x := fdec t .ieee a
  let y := fdec t .ieee b
  let nv := if x.isSig || y.isSig then flagNV else 0
  if x.isNan || y.isNan then nanResult t nv else addFV t rnd sat x y
/-- Floating subtraction (R138). -/
def fSub (t : Ty) (rnd : Rnd) (sat : Bool) (a b : Nat) : Nat × Nat :=
  let x := fdec t .ieee a
  let y := fdec t .ieee b
  let nv := if x.isSig || y.isSig then flagNV else 0
  if x.isNan || y.isNan then nanResult t nv else addFV t rnd sat x y.negate
/-- Floating multiplication (R138). -/
def fMul (t : Ty) (rnd : Rnd) (sat : Bool) (a b : Nat) : Nat × Nat :=
  let x := fdec t .ieee a
  let y := fdec t .ieee b
  let nv := if x.isSig || y.isSig then flagNV else 0
  if x.isNan || y.isNan then nanResult t nv
  else match mulFV x y with
    | some z => encFV t .ieee rnd sat z
    | none => nanResult t flagNV
/-- Fused forms on values: ±(A × B) ± C (R138). -/
def fmaFV (t : Ty) (rnd : Rnd) (sat negP negC : Bool) (x y z : FV) : Nat × Nat :=
  let nv := if x.isSig || y.isSig || z.isSig then flagNV else 0
  if x.isNan || y.isNan then nanResult t nv
  else match mulFV x y with
    | none => nanResult t flagNV
    | some p => if z.isNan then nanResult t nv
      else addFV t rnd sat (if negP then p.negate else p) (if negC then z.negate else z)
/-- Fused forms: ±(A × B) ± C (R138). -/
def fFma (t : Ty) (rnd : Rnd) (sat negP negC : Bool) (a b c : Nat) : Nat × Nat :=
  fmaFV t rnd sat negP negC (fdec t .ieee a) (fdec t .ieee b) (fdec t .ieee c)

/-- Number of bits of a magnitude. -/
def bitLen (m : Nat) : Nat := if m = 0 then 0 else Nat.log2 m + 1

/-- Quotient of two finite nonzero magnitudes, rounded once (R80). -/
def divMag (t : Ty) (rnd : Rnd) (sat neg : Bool) (ma : Nat) (ea : Int) (mb : Nat) (eb : Int) : Nat × Nat :=
  let k := (fmtOf t .ieee).mb + 4 + bitLen mb
  let n := ma * 2 ^ k
  encFin t .ieee rnd sat neg (n / mb) (ea - eb - k) (n % mb != 0)

/-- Division of values (R138, R140). -/
def divFV (t : Ty) (rnd : Rnd) (sat : Bool) (x y : FV) : Nat × Nat :=
  let f := fmtOf t .ieee
  let nv := if x.isSig || y.isSig then flagNV else 0
  match x, y with
  | .inf _, .inf _ => nanResult t flagNV
  | .inf s, .fin u _ _ => encInf t .ieee sat (s != u)
  | .fin s _ _, .inf u => (withSign f (s != u) 0, 0)
  | .fin s ma ea, .fin u mb eb =>
    if mb = 0 then
      (if ma = 0 then nanResult t flagNV else ((encInf t .ieee false (s != u)).1, flagDZ))
    else if ma = 0 then (withSign f (s != u) 0, 0)
    else divMag t rnd sat (s != u) ma ea mb eb
  | _, _ => nanResult t nv

/-- Floating division (R138, R140). -/
def fDiv (t : Ty) (rnd : Rnd) (sat : Bool) (a b : Nat) : Nat × Nat := divFV t rnd sat (fdec t .ieee a) (fdec t .ieee b)

/-- Floor of the square root, by bits from `2^n` down. -/
def isqrtFrom (x : Nat) : Nat → Nat → Nat
  | 0, r => if (r + 1) * (r + 1) ≤ x then r + 1 else r
  | n + 1, r => isqrtFrom x n (if (r + 2 ^ (n + 1)) * (r + 2 ^ (n + 1)) ≤ x then r + 2 ^ (n + 1) else r)
/-- Floor of the square root. -/
def isqrt (x : Nat) : Nat := isqrtFrom x (bitLen x / 2 + 1) 0

/-- Square root (R138, R140). -/
def fSqrt (t : Ty) (rnd : Rnd) (sat : Bool) (a : Nat) : Nat × Nat :=
  let f := fmtOf t .ieee
  match fdec t .ieee a with
  | .nan s => nanResult t (if s then flagNV else 0)
  | .inf n => if n then nanResult t flagNV else encInf t .ieee sat false
  | .fin n m e =>
    if m = 0 then (withSign f n 0, 0)
    else if n then nanResult t flagNV
    else
      let k := 2 * (f.mb + 4) + (e % 2).toNat
      let x := m * 2 ^ k
      let r := isqrt x
      encFin t .ieee rnd sat false r ((e - k) / 2) (r * r != x)

/-- Reciprocal (R138, R140). -/
def fRcp (t : Ty) (rnd : Rnd) (sat : Bool) (a : Nat) : Nat × Nat :=
  let f := fmtOf t .ieee
  match fdec t .ieee a with
  | .nan s => nanResult t (if s then flagNV else 0)
  | .inf n => (withSign f n 0, 0)
  | .fin n m e =>
    if m = 0 then ((encInf t .ieee false n).1, flagDZ) else divMag t rnd sat n 1 0 m e

/-- Reciprocal square root (R138, R140). -/
def fRsqrt (t : Ty) (rnd : Rnd) (sat : Bool) (a : Nat) : Nat × Nat :=
  let f := fmtOf t .ieee
  match fdec t .ieee a with
  | .nan s => nanResult t (if s then flagNV else 0)
  | .inf n => if n then nanResult t flagNV else (0, 0)
  | .fin n m e =>
    if m = 0 then ((encInf t .ieee false n).1, flagDZ)
    else if n then nanResult t flagNV
    else
      -- 1/√(m 2^e) with an even exponent: ⌊√(2^2k / m')⌋ × 2^(−k − e'/2)
      let m' := m * 2 ^ (e % 2).toNat
      let e' := e - (e % 2)
      let k := f.mb + 4 + bitLen m'
      let r := isqrt (2 ^ (2 * k) / m')
      encFin t .ieee rnd sat false r (-(k : Int) - e' / 2) (r * r * m' != 2 ^ (2 * k))

/-- Fraction bits of the fixed-point values of `vexp2` and `vlog2` (log 7). -/
def fxBits : Nat := 400
/-- `2^p × Σ z^(2i+1)/(2i+1)` for i from `i` on, with `pw` = 2^p z^(2i+1), rounded down term by term: the inverse hyperbolic
tangent of z² = `num/den`. -/
def atanhSum (num den : Nat) : Nat → Nat → Nat → Nat
  | 0, _, _ => 0
  | n + 1, i, pw => pw / (2 * i + 1) + atanhSum num den n (i + 1) (pw * num / den)
/-- ln 2 in fixed point: 2 atanh(1/3). -/
def ln2Fx : Nat := 2 * atanhSum 1 9 140 0 (2 ^ fxBits / 3)
/-- `Σ y^k/k!` in fixed point from the k-th term on. -/
def expSum (y : Nat) : Nat → Nat → Nat → Nat
  | 0, _, _ => 0
  | n + 1, k, term => term + expSum y n (k + 1) (term * y / 2 ^ fxBits / (k + 1))
/-- 2^f for a fixed-point f below 1, below 2 in fixed point. -/
def exp2Fx (f : Nat) : Nat := min (expSum (f * ln2Fx / 2 ^ fxBits) 100 0 (2 ^ fxBits)) (2 * 2 ^ fxBits - 1)
/-- log2 of a fixed-point z from 1 up to 2, in fixed point: 2 atanh((z−1)/(z+1)) / ln 2. -/
def log2Fx (z : Nat) : Nat :=
  let one := 2 ^ fxBits
  let u := (z - one) * one / (z + one)
  2 * atanhSum (u * u) (one * one) 140 0 u * one / ln2Fx

/-- Base-2 exponential, correctly rounded (R80, R138, R140; log 7). -/
def fvExp2 (t : Ty) (rnd : Rnd) (sat : Bool) (x : FV) : Nat × Nat :=
  match x with
  | .nan s => nanResult t (if s then flagNV else 0)
  | .inf n => if n then (0, 0) else encInf t .ieee sat false
  | .fin neg m e =>
    if m = 0 then encFin t .ieee rnd sat false 1 0 false
    else if 0 ≤ e then
      -- an integer: beyond 2^12 in magnitude the result overflows or underflows in every format
      let x := signInt neg (min (m * 2 ^ (min e 64).toNat) 8192)
      encFin t .ieee rnd sat false 1 x false
    else
      let sh := (-e).toNat
      let x := signInt neg m
      let whole := x / (2 ^ sh : Nat)
      let frac := (x % (2 ^ sh : Nat)).toNat
      if frac = 0 then encFin t .ieee rnd sat false 1 (max (min whole 8192) (-8192)) false
      else
        let f := frac * 2 ^ fxBits / 2 ^ sh
        encFin t .ieee rnd sat false (exp2Fx f) (max (min whole 8192) (-8192) - fxBits) true

/-- The same of a pattern. -/
def fExp2 (t : Ty) (rnd : Rnd) (sat : Bool) (a : Nat) : Nat × Nat := fvExp2 t rnd sat (fdec t .ieee a)

/-- Base-2 logarithm, correctly rounded (R80, R138, R140; log 7). -/
def fvLog2 (t : Ty) (rnd : Rnd) (sat : Bool) (x : FV) : Nat × Nat :=
  match x with
  | .nan s => nanResult t (if s then flagNV else 0)
  | .inf n => if n then nanResult t flagNV else encInf t .ieee sat false
  | .fin neg m e =>
    if m = 0 then ((encInf t .ieee false true).1, flagDZ)
    else if neg then nanResult t flagNV
    else
      let k := Nat.log2 m
      let whole : Int := e + k
      if m = 2 ^ k then
        (if whole = 0 then (0, 0) else encFin t .ieee rnd sat (decide (whole < 0)) whole.natAbs 0 false)
      else
        let v : Int := whole * (2 ^ fxBits : Nat) + log2Fx (m * 2 ^ fxBits / 2 ^ k)
        if v < 0 then encFin t .ieee rnd sat true ((-v).toNat - 1) (-(fxBits : Int)) true
        else encFin t .ieee rnd sat false v.toNat (-(fxBits : Int)) true

/-- The same of a pattern. -/
def fLog2 (t : Ty) (rnd : Rnd) (sat : Bool) (a : Nat) : Nat × Nat := fvLog2 t rnd sat (fdec t .ieee a)

/-- Less-than on values that are not NaN; `−0 < +0` only when `signedZero` (R109, R141). -/
def ltFV (signedZero : Bool) (x y : FV) : Bool :=
  match x, y with
  | .inf a, .inf b => a && !b
  | .inf a, .fin _ _ _ => a
  | .fin _ _ _, .inf b => !b
  | .fin a ma ea, .fin b mb eb =>
    let e := min ea eb
    let u := signInt a (ma * 2 ^ (ea - e).toNat)
    let v := signInt b (mb * 2 ^ (eb - e).toNat)
    decide (u < v) || (signedZero && ma == 0 && mb == 0 && a && !b)
  | _, _ => false

/-- Minimum or maximum (R141). -/
def fMinMax (isMax : Bool) (t : Ty) (a b : Nat) : Nat × Nat :=
  let x := fdec t .ieee a
  let y := fdec t .ieee b
  let nv := if x.isSig || y.isSig then flagNV else 0
  if x.isNan && y.isNan then nanResult t nv
  else if x.isNan then (b, nv)
  else if y.isNan then (a, nv)
  else if isMax then (if ltFV true x y then b else a, nv)
  else (if ltFV true y x then b else a, nv)

/-- A floating comparison (R109): whether it holds, and its flags. -/
def fCmp (t : Ty) (cc : Cc) (a b : Nat) : Bool × Nat :=
  let x := fdec t .ieee a
  let y := fdec t .ieee b
  let un := x.isNan || y.isNan
  let ordered := cc == .lt || cc == .le || cc == .gt || cc == .ge
  let nv := if x.isSig || y.isSig || (un && ordered) then flagNV else 0
  let lt := ltFV false x y
  let gt := ltFV false y x
  let holds := match cc with
    | .eq => !un && !lt && !gt
    | .ne => un || lt || gt
    | .lt => !un && lt
    | .le => !un && !gt
    | .gt => !un && gt
    | .ge => !un && !lt
    | .ord => !un
    | .uno => un
  (holds, nv)

/-- The magnitude of a finite value rounded to an integer, and whether it changed (R78). -/
def toIntMag (rnd : Rnd) (neg : Bool) (m : Nat) (e : Int) : Nat × Bool := roundAt rnd neg m e 0 false

/-- Rounding to an integral value of the same format (R143). -/
def fRound (t : Ty) (rnd : Rnd) (a : Nat) : Nat × Nat :=
  let f := fmtOf t .ieee
  match fdec t .ieee a with
  | .nan s => nanResult t (if s then flagNV else 0)
  | .inf _ => (a, 0)
  | .fin n m e =>
    let r := toIntMag rnd n m e
    if r.2 then
      (if r.1 = 0 then withSign f n 0 else (encFin t .ieee .rne false n r.1 0 false).1, flagNX)
    else (a, 0)

/-- Lowest and highest value of an integer type (R74). -/
def intLo (t : Ty) : Int := if t.isI then -(2 ^ (t.w - 1) : Nat) else 0
def intHi (t : Ty) : Int := if t.isI then (2 ^ (t.w - 1) : Nat) - 1 else (2 ^ t.w : Nat) - 1
/-- Reduction of an exact result to an integer type's pattern (R75). -/
def reduceTo (t : Ty) (sat : Bool) (x : Int) : Nat :=
  wrapTo t.w (if sat then max (intLo t) (min (intHi t) x) else x)
/-- The value of an element of an integer type (R74, R103). -/
def intVal (t : Ty) (x : Nat) : Int := if t.isI then signedOf t.w x else (x % 2 ^ t.w : Nat)

/-- Conversion of a floating value to an integer type (R93). -/
def fvToInt (t : Ty) (rnd : Rnd) (sat : Bool) (x : FV) : Nat × Nat :=
  match x with
  | .nan _ => (0, flagNV)
  | .inf n => (if sat then reduceTo t true (if n then intLo t else intHi t) else 0, flagNV)
  | .fin n m e =>
    let r := toIntMag rnd n m e
    let v := signInt n r.1
    if intLo t ≤ v ∧ v ≤ intHi t then (reduceTo t false v, if r.2 then flagNX else 0)
    else (reduceTo t sat v, flagNV)

/-- Conversion of one element (R92 to R94, R149). The E2M1 code 0b1000 converts as +0 to E2M1 too, where R149 also calls an element
of the same format unchanged (DESIGN CHOICE, log 72). -/
def convertElem (dt src : Ty) (rnd : Rnd) (sat : Bool) (rd : Rd) (x : Nat) : Nat × Nat :=
  if src.isInt then
    let v := intVal src x
    if dt.isInt then (reduceTo dt sat v, 0)
    else encFin dt rd rnd sat (decide (v < 0)) v.natAbs 0 false
  else
    let r := if src.isF then Rd.ieee else rd
    let v := fdec src r x
    if dt.isInt then fvToInt dt rnd sat v
    else if dt = src then (match v with
      | .nan _ => encFV dt rd rnd sat v
      | _ => (if dt = .e2m1 ∧ x = 8 then 0 else x, 0))
    else encFV dt rd rnd sat v

/-- FP32 value of a pattern and back, in round to nearest even: the arithmetic of the matrix unit and the sequencer. -/
def add32 (a b : Nat) : Nat := (fAdd .f32 .rne false a b).1
def sub32 (a b : Nat) : Nat := (fSub .f32 .rne false a b).1
def mul32 (a b : Nat) : Nat := (fMul .f32 .rne false a b).1
def div32 (a b : Nat) : Nat := (fDiv .f32 .rne false a b).1
def neg32 (a : Nat) : Nat := if bitOf a 31 then a - 2 ^ 31 else a + 2 ^ 31
def abs32 (a : Nat) : Nat := a % 2 ^ 31
def lt32 (a b : Nat) : Bool := (fCmp .f32 .lt a b).1
def le32 (a b : Nat) : Bool := (fCmp .f32 .le a b).1
def eq32 (a b : Nat) : Bool := (fCmp .f32 .eq a b).1
def isNan32 (a : Nat) : Bool := (fdec .f32 .ieee a).isNan
def min32 (a b : Nat) : Nat := (fMinMax false .f32 a b).1
def max32 (a b : Nat) : Nat := (fMinMax true .f32 a b).1
/-- +Inf and 1.0 in FP32. -/
def inf32 : Nat := 0x7F800000
def one32 : Nat := 0x3F800000

/-- The read-modify-write operations of R262 and R265 on one element: new value and flags. -/
def aopElem (t : Ty) (op : AOp) (m b : Nat) : Nat × Nat :=
  if t.isInt then
    let x := intVal t m
    let y := intVal t b
    (match op with
    | .add => reduceTo t false (x + y)
    | .min => reduceTo t false (min x y)
    | .max => reduceTo t false (max x y)
    | .and => Nat.land (m % 2 ^ t.w) (b % 2 ^ t.w)
    | .or => Nat.lor (m % 2 ^ t.w) (b % 2 ^ t.w)
    | .xor => Nat.xor (m % 2 ^ t.w) (b % 2 ^ t.w)
    | .swap => b % 2 ^ t.w, 0)
  else match op with
    | .add => fAdd t .rne false m b
    | .min => fMinMax false t m b
    | .max => fMinMax true t m b
    | _ => (b % 2 ^ t.w, 0)

/-- EMPTY(op) of R95. -/
def emptyOf (t : Ty) (op : AOp) : Nat :=
  match op with
  | .min => if t.isInt then reduceTo t false (intHi t) else (encInf t .ieee false false).1
  | .max => if t.isInt then reduceTo t false (intLo t) else (encInf t .ieee false true).1
  | .and => 2 ^ t.w - 1
  | _ => 0

end Machine
end Sys2Proof
end

