-- ==== Sys2Proof/Machine/Ops.lean ====
section
/-!
DEFINITION. Ops: named operations over the state. Accessors of cores, thread sets, contexts, partitions and clusters;
events and messages to the supervisor; memory at its home slice; translation; the L1; the pool; fetch lines; taking a trap
or upcall, and the return from one.
-/
namespace Sys2Proof
namespace Machine

/-! ### Accessors -/

/-- Core number of a global thread-set number, and cluster of a core (R13). -/
def coreNo (g : Nat) : Nat := g / 4
def cluOf (core : Nat) : Nat := core / 8

/-- State of a core. -/
def getCore (s : State) (c : Nat) : CoreSt := if c = coreNo s.here then s.core else amGet CoreSt.init s.cores c
def setCore (s : State) (c : Nat) (x : CoreSt) : State :=
  if c = coreNo s.here then { s with core := x } else { s with cores := amSet s.cores c x }
/-- A thread set of a core's record; index taken modulo 4. -/
def slotOf (c : CoreSt) (t : Nat) : Thread := c.threads.toList.getD t Thread.init
def setSlot (c : CoreSt) (t : Nat) (th : Thread) : CoreSt :=
  if h : t < 4 then { c with threads := c.threads.set t th h } else c
/-- State of a thread set. -/
def threadAt (s : State) (g : Nat) : Thread := if g = s.here then s.th else slotOf (getCore s (coreNo g)) (g % 4)
def setThread (s : State) (g : Nat) (t : Thread) : State :=
  if g = s.here then { s with th := t } else setCore s (coreNo g) (setSlot (getCore s (coreNo g)) (g % 4) t)
/-- Change of the focus thread set. -/
def withTh (s : State) (f : Thread → Thread) : State := { s with th := f s.th }
/-- Change of the focus thread set's registers. -/
def withRf (s : State) (f : Regs → Regs) : State := { s with th := { s.th with rf := f s.th.rf } }
/-- Change of the focus core. -/
def withCore (s : State) (f : CoreSt → CoreSt) : State := { s with core := f s.core }
/-- Change of any core or thread set. -/
def onCore (s : State) (c : Nat) (f : CoreSt → CoreSt) : State := setCore s c (f (getCore s c))
def onThread (s : State) (g : Nat) (f : Thread → Thread) : State := setThread s g (f (threadAt s g))

/-- Moves the focus to thread set `g`. -/
def focus (s : State) (g : Nat) : State :=
  if g = s.here then s
  else
    let core := setSlot s.core (s.here % 4) s.th
    let cores := if coreNo g = coreNo s.here then s.cores else amSet s.cores (coreNo s.here) core
    let core' := if coreNo g = coreNo s.here then core else amGet CoreSt.init cores (coreNo g)
    { s with here := g, cores := cores, core := core', th := slotOf core' (g % 4) }

/-- Lookups of the maps. -/
def getCtx (s : State) (c : Nat) : Context := amGet Context.init s.ctxs c
def setCtx (s : State) (c : Nat) (x : Context) : State := { s with ctxs := amSet s.ctxs c x }
def onCtx (s : State) (c : Nat) (f : Context → Context) : State := setCtx s c (f (getCtx s c))
def getPart (s : State) (p : Nat) : Partition := amGet Partition.init s.parts p
def setPart (s : State) (p : Nat) (x : Partition) : State := { s with parts := amSet s.parts p x }
def onPart (s : State) (p : Nat) (f : Partition → Partition) : State := setPart s p (f (getPart s p))
def getClu (s : State) (k : Nat) : Cluster := amGet Cluster.init s.clusters k
def setClu (s : State) (k : Nat) (x : Cluster) : State := { s with clusters := amSet s.clusters k x }
def onClu (s : State) (k : Nat) (f : Cluster → Cluster) : State := setClu s k (f (getClu s k))
def getLine (s : State) (l : Nat) : Line := amGet Line.init s.lines l
def setLine (s : State) (l : Nat) (x : Line) : State := { s with lines := amSet s.lines l x }

/-- Core, cluster and context of the focus thread set. -/
def myCore (s : State) : Nat := coreNo s.here
def myClu (s : State) : Nat := cluOf (myCore s)
def myCtx (s : State) : Nat := s.core.ctx.getD 0
def myPart (s : State) : Nat := (getCtx s (myCtx s)).part
/-- The supervisor context of a partition (R352). -/
def isSup (s : State) (ctx : Nat) : Bool :=
  (getCtx s ctx).created && (getPart s (getCtx s ctx).part).created && (getPart s (getCtx s ctx).part).sup == ctx
/-- Supervisor mode of the focus thread set (R352). -/
def supMode (s : State) : Bool := s.core.ctx.isSome && isSup s (myCtx s)

/-- Column, row and die of a cluster (R13, R14). -/
def colOf (k : Nat) : Nat := k % 24
def rowOf (k : Nat) : Nat := k / 24
def dieOf (k : Nat) : Nat := colOf k / 8 + 3 * (rowOf k / 6)
/-- Hop distance of R15. -/
def hopDist (a b : Nat) : Nat :=
  let lo := min (colOf a) (colOf b)
  let hi := max (colOf a) (colOf b)
  let rlo := min (rowOf a) (rowOf b)
  let rhi := max (rowOf a) (rowOf b)
  (hi - lo) + (rhi - rlo) + 3 * (bit (decide (lo < 8 ∧ 8 ≤ hi)) + bit (decide (lo < 16 ∧ 16 ≤ hi)))
    + 3 * bit (decide (rlo ≤ 5 ∧ 6 ≤ rhi))
/-- A cluster lies in a partition's rectangle (R350). -/
def inRect (p : Partition) (k : Nat) : Bool :=
  p.created && decide (k < numClusters) && decide (p.c0 ≤ colOf k) && decide (colOf k ≤ p.c1) && decide (p.r0 ≤ rowOf k)
    && decide (rowOf k ≤ p.r1)
/-- Clusters of a partition, ascending. -/
def rectClusters (p : Partition) : List Nat := (List.range numClusters).filter (inRect p)

/-! ### Events, messages to the supervisor (R36, R327, R377 to R379) -/

/-- The next sequence number of a context's event arbiter, and an event bit set with it (R36). -/
def raiseEvent (s : State) (ctx : Nat) (b : Option Nat) : Nat × State :=
  let c := getCtx s ctx
  let n := c.evseq + 1
  let ev := match b with
    | some i => c.events ||| ((1 : BitVec 256) <<< i)
    | none => c.events
  (n.toNat, setCtx s ctx { c with evseq := n, events := ev })

/-- An interrupt of the partition's interface (R398). -/
def sendMsix (s : State) (part v : Nat) : State := onPart s part fun p => { p with msix := p.msix ++ [v] }
/-- A service message that waits for its core, behind what its router's class-15 buffer holds already (R295, R377). -/
def sendService (s : State) (ctx core : Nat) (d : V512) : State :=
  { s with services := s.services ++ [{ ctx := ctx, core := core, data := d, turn := s.pktNum }], pktNum := s.pktNum + 1 }

/-- A fresh fault id (R378). -/
def newFault (s : State) (ctx unit ts cluster : Nat) : W64 × State :=
  let k := getClu s cluster
  let seq := (k.faultSeq.toList.getD unit 0).toNat
  let id := ctx * 2 ^ 32 + seq * 2 ^ 20 + unit * 2 ^ 16 + ts % 4 * 2 ^ 12 + coreNo ts % 8 * 2 ^ 9 + cluster
  (BitVec.ofNat 64 id,
    setClu s cluster { k with faultSeq := if h : unit < 8 then k.faultSeq.set unit (BitVec.ofNat 12 (seq + 1)) h else k.faultSeq })

/-- A fault message to the supervisor core (R379). -/
def sendFault (s : State) (ctx : Nat) (fid va acc cw : W64) (evs : Nat) : State :=
  let p := getPart s (getCtx s ctx).part
  sendService s p.sup p.supCore (of64 [fid, va, acc, cw, BitVec.ofNat 64 evs])
/-- A fault message of a kind that the host hears of too: a fault record, or the end of a context (R372, R398). -/
def sendRecord (s : State) (ctx : Nat) (fid va acc cw : W64) (evs : Nat) : State :=
  sendFault (sendMsix s (getCtx s ctx).part 1) ctx fid va acc cw evs

/-! ### Keys, partitions and the home slice (R253 to R259, R351, R362, R363) -/

/-- A physical address lies in a partition (R351). -/
def liesIn (s : State) (part pa : Nat) : Bool :=
  decide (pa < 2 ^ 52) && (getPart s part).prng.toList.any fun w =>
    bitOf w.toNat 63 && decide (fieldOf w 0 22 ≤ pa / 2 ^ 30) && decide (pa / 2 ^ 30 < fieldOf w 32 22)
/-- Key identity of a device slot, and its valid bit (R362). -/
def keyOf (s : State) (slot : Nat) : Nat := (getCtx s (slot / 8)).keys.toList.getD (slot % 8) 0
def slotValid (s : State) (slot : Nat) : Bool := bitOf (getCtx s (slot / 8)).kvalid.toNat (slot % 8)
/-- A slot filled as an alias of another: its key was made for another slot (R362, R390; log 5). -/
def isAlias (s : State) (slot : Nat) : Bool := keyOf s slot % 2048 != slot

/-- Home cluster of a physical address (R253). -/
def homeOf (pa : Nat) : Nat :=
  let g := pa / 4096
  let h := Nat.xor (Nat.xor (bitsOf g 0 16) (bitsOf g 16 16)) (bitsOf g 32 8)
  h * 288 / 65536

/-- The bytes of a sector as they stand, whatever their key. -/
def sectorRaw (s : State) (sec : Nat) : V512 := BitVec.ofNat 512 (ofBytes (memRead s.mem (sec * 64) 64))
/-- A sector as a reader under `key` sees it: bytes under another key are encrypted and decrypt to others (R362; log 5). -/
def sectorAs (s : State) (key sec : Nat) : V512 :=
  match amFind s.memKey sec with
  | some k => if k = key then sectorRaw s sec else (Config.xts key sec).symm (Config.xts k sec (sectorRaw s sec))
  | none => sectorRaw s sec
/-- A byte as a reader under `key` sees it (R362). -/
def homeByte (s : State) (key a : Nat) : Byte :=
  match amFind s.memKey (a / 64) with
  | some k => if k = key then memGet s.mem a else BitVec.ofNat 8 (elem 8 (sectorAs s key (a / 64)) (a % 64))
  | none => memGet s.mem a
/-- Bytes as a reader under `slot` sees them. -/
def homeBytes (s : State) (slot a n : Nat) : List Byte := (List.range n).map fun i => homeByte s (keyOf s slot) (a + i)

/-- What HBM holds of a sector is kept when the sector becomes dirty (R391). -/
def keepOlder (s : State) (sec : Nat) : State :=
  if bitOf (getLine s (sec / 4)).dirty.toNat (sec % 4) then s
  else { s with older := amSet s.older sec (sectorRaw s sec, amFind s.memKey sec) }
/-- A sector under another key takes the bytes that a reader under the new key sees (R254, R362). -/
def rekeySector (s : State) (key sec : Nat) : State :=
  if amFind s.memKey sec = some key then s
  else { s with mem := memSetAll s.mem (atAddr (sec * 64) ((List.range 64).map fun i => homeByte s key (sec * 64 + i))),
                memKey := amSet s.memKey sec key }

/-! ### Lines of a slice (R1, R254, R256) -/

/-- The slice holds the line. -/
def lineHere (ln : Line) : Bool := (ln.valid != 0 || ln.dirty != 0) && !ln.buffered
/-- Home of a line (R253). -/
def homeOfLine (l : Nat) : Nat := homeOf (l * 256)
/-- A line's dirty sectors stand in HBM (R254). -/
def writeBack (s : State) (l : Nat) : State :=
  let ln := getLine s l
  let older := (List.range 4).foldl (fun o i => if bitOf ln.dirty.toNat i then amDel o (l * 4 + i) else o) s.older
  { setLine s l { ln with dirty := 0, mask := 0 } with older := older }
/-- A line leaves the slice or its write-back buffer; its timestamps stand (log 3). -/
def dropLine (s : State) (l : Nat) : State :=
  let ln := getLine s l
  let s := if ln.buffered then onClu s (homeOfLine l) fun c => { c with wbuf := c.wbuf.filter (· != l) } else s
  setLine s l { ln with buffered := false, valid := 0, dirty := 0, mask := 0, tag := 0, scales := 0 }
/-- HBM's older contents of a sector stand again (R391). -/
def restoreSector (s : State) (sec : Nat) : State :=
  match amFind s.older sec with
  | some (d, k) => { s with
      mem := memSetAll s.mem (atAddr (sec * 64) (toBytes 64 d.toNat)), older := amDel s.older sec,
      memKey := match k with
        | some k => amSet s.memKey sec k
        | none => amDel s.memKey sec }
  | none => s
/-- A line leaves the slice without write-back: HBM keeps its older contents (R391). -/
def dropNoWriteBack (s : State) (l : Nat) : State :=
  let dirty := (getLine s l).dirty.toNat
  dropLine ((List.range 4).foldl (fun s i => if bitOf dirty i then restoreSector s (l * 4 + i) else s) s) l
/-- An entry of the write-back buffer reaches HBM (R256). -/
def drainLine (s : State) (l : Nat) : State := dropLine (writeBack s l) l
/-- A line is evicted: a dirty one goes to the write-back buffer of its slice, whose oldest entry drains first when it is full
(R254, R256). -/
def evictLine (s : State) (l : Nat) : State :=
  let ln := getLine s l
  if !lineHere ln then s
  else if ln.dirty = 0 then dropLine s l
  else
    let k := homeOfLine l
    let s := match (getClu s k).wbuf with
      | o :: rest => if rest.length < 7 then s else drainLine s o
      | [] => s
    onClu (setLine s l { ln with buffered := true, valid := 0 }) k fun c => { c with wbuf := c.wbuf ++ [l] }
/-- Lines that a slice holds in the set of a line: 16 ways, 2,048 sets (R1; log 68). -/
def setMates (s : State) (l : Nat) : List Nat :=
  s.lines.filterMap fun e =>
    if e.1 % 2048 == l % 2048 && e.1 != l && lineHere e.2 && homeOfLine e.1 == homeOfLine l then some e.1 else none
/-- U copies that a slice holds in the set of a line: each occupies one line of it (R1, R266; log 68). -/
def setCopies (s : State) (k l : Nat) : List (Nat × UCopy) := (getClu s k).ucopies.filter fun e => e.1 % 2048 == l % 2048
/-- One of the lines of a list leaves its slice. -/
def evictOne (s : State) (m : List Nat) : State := evictLine s (m.getD (Config.victim s.steps % m.length) 0)
/-- Room for a line in its slice: its entry in the write-back buffer drains, and a full set evicts (R1, R254, R256). -/
def lineRoom (s : State) (l : Nat) : State :=
  let s := if (getLine s l).buffered then drainLine s l else s
  if lineHere (getLine s l) then s
  else
    let m := setMates s l
    if m.length + (setCopies s (homeOfLine l) l).length < 16 then s else evictOne s m

/-- A line that a slot takes: its owner, as a line of the partition when the slot is an alias (R362, R363, R390). -/
def ownLine (s : State) (ctx slot : Nat) (ln : Line) : Line :=
  { ln with slot := slot, owner := if isAlias s slot then (getCtx s ctx).part else ctx, partLine := isAlias s slot }
/-- The line of a sector becomes dirty there; a line that the slice did not hold is owned by the writer (R254, R363). -/
def dirtyLine (s : State) (ctx slot sec : Nat) : Line :=
  let ln := getLine s (sec / 4)
  let d := { ln with dirty := ln.dirty ||| ((1 : BitVec 4) <<< (sec % 4)) }
  if lineHere ln then d else { ownLine s ctx slot d with tag := 0, scales := 0 }
/-- Makes a sector ready for a write under a slot's key. -/
def prepSector (s : State) (ctx slot sec : Nat) : State :=
  let s := lineRoom s (sec / 4)
  let t := rekeySector (keepOlder s sec) (keyOf s slot) sec
  setLine t (sec / 4) (dirtyLine s ctx slot sec)

/-- Sectors that a list of bytes touches. -/
def sectorsOf (l : List (Nat × Byte)) : List Nat := (l.map fun e => e.1 / 64).eraseDups

/-- Bytes as they come to stand in HBM's order of addresses. -/
def storeBytes (s : State) (l : List (Nat × Byte)) : State := { s with mem := memSetAll s.mem l }
/-- A written word is marked in its line's mask (R259). -/
def markWord (s : State) (w : Nat) : State :=
  setLine s (w / 64) { getLine s (w / 64) with mask := (getLine s (w / 64)).mask ||| ((1 : W64) <<< (w % 64)) }
/-- Bytes written at home under a slot, without the recall of U copies (R254). -/
def putBytes (s : State) (ctx slot : Nat) (l : List (Nat × Byte)) : State :=
  let s := (sectorsOf l).foldl (fun s sec => prepSector s ctx slot sec) s
  (l.map fun e => e.1 / 4).eraseDups.foldl markWord (storeBytes s l)

/-- PATH code of R59. -/
def pathCode (p : Path) : Nat := match p with
  | .C => 0 | .K => 1 | .X => 2 | .G => 3 | .U => 4 | .M => 5 | .T => 6 | .P => 7 | .H => 8
/-- An access on a path has been performed at a time (R250, R290; log 73). -/
def notePath (s : State) (p : Path) (w : Nat) : State :=
  { s with pathTime := Vector.ofFn fun i => if i.val = pathCode p then max s.pathTime[i] w else s.pathTime[i] }
/-- Greatest time that a fence has put before the later accesses of a path (R290; log 73). -/
def floorOf (s : State) (p : Path) : Nat := s.fenced.toList.getD (pathCode p) 0
/-- Lines after one write in the timestamp order of R250: its time, which is later than every lease of them, and than what a fence has
put before the path's writes (R290; log 73). -/
def stampLines (s : State) (p : Path) (pts : Nat) (ls : List Nat) : Nat × State :=
  let w := ls.foldl (fun w x => max w ((getLine s x).rts + 1)) (max pts (floorOf s p))
  (w, notePath (ls.foldl (fun s x => setLine s x { getLine s x with wts := w, rts := w }) s) p w)

/-- Merge of one word of a U copy of line `l` into home (R266). -/
def mergeWord (l : Nat) (u : UCopy) (s : State) (e : Nat × W64) : State :=
  let n := u.t.w / 8
  let a := l * 256 + e.1 * 2
  putBytes s u.ctx u.slot (atAddr a (toBytes n (aopElem u.t u.op (ofBytes (homeBytes s u.slot a n)) e.2.toNat).1))
/-- An access under another slot than a line's writes the line back and drops it (R363). -/
def alignSlot (s : State) (slot l : Nat) : State :=
  let ln := getLine s l
  if ln.buffered || (lineHere ln && ln.slot != slot) then dropLine (writeBack s l) l else s
/-- Merge of one U copy into home, element by element, under the copy's own slot (R266, R363). -/
def mergeU (s : State) (k l : Nat) (u : UCopy) : State :=
  let s := onClu s k fun c => { c with ucopies := amDel c.ucopies l }
  if u.words.isEmpty then s else (stampLines (u.words.foldl (mergeWord l u) (alignSlot s u.slot l)) .U 0 [l]).2

/-- Clusters that hold a U copy of a line. -/
def holdersU (s : State) (l : Nat) : List (Nat × UCopy) :=
  s.clusters.filterMap fun e => (amFind e.2.ucopies l).map fun u => (e.1, u)
/-- Recall of every U copy of a line (R266). -/
def recallU (s : State) (l : Nat) : State := (holdersU s l).foldl (fun s e => mergeU s e.1 l e.2) s

/-- Merge of every U copy that a cluster's slice holds (R266, R287). -/
def mergeAllU (s : State) (k : Nat) : State :=
  (getClu s k).ucopies.foldl (fun s e => mergeU s k e.1 e.2) s

/-- Any access to a line but a red or a merge first recalls the U copies (R266, R363). -/
def touchLine (s : State) (slot l : Nat) : State := alignSlot (recallU s l) slot l

/-- The window that tags a fill (R259, R364): tag, base and scale base. -/
def windowFor (s : State) (ctx pa : Nat) : Option (Nat × Nat × Nat) :=
  let ctl := pa / 4096 % 12
  (List.range 16).findSome? fun i =>
    match amFind s.windows (ctl * 16 + i) with
    | some w =>
      let w0 := w.toList.getD 0 0
      let base := fieldOf (w.toList.getD 1 0) 12 40 * 4096
      let lim := fieldOf (w.toList.getD 2 0) 12 40 * 4096
      if fieldOf w0 0 4 != 0 && fieldOf w0 8 4 == (getCtx s ctx).part && decide (base ≤ pa) && decide (pa < lim) then
        some (fieldOf w0 0 4, base, fieldOf (w.toList.getD 3 0) 3 49 * 8)
      else none
    | none => none

/-- Address of the scale bytes that the first fill of a line reads (R259). -/
def scaleAddr (s : State) (ctx l : Nat) : Option Nat := match windowFor s ctx (l * 256) with
  | some (tag, base, sb) => if 7 ≤ tag ∧ tag ≤ 12 then some (sb + (l * 256 - base) / 32) else none
  | none => none
/-- The line of a sector that is filled from HBM (R254, R259): its first fill tags it and reads its scale bytes at their home. -/
def filledLine (s : State) (ctx slot sec : Nat) : Line :=
  let l := sec / 4
  let ln := getLine s l
  let owned := if lineHere ln then ln else ownLine s ctx slot ln
  let tagged := if ln.valid != 0 then owned
    else { owned with
      tag := match windowFor s ctx (l * 256) with
        | some w => w.1
        | none => 0
      scales := match scaleAddr s ctx l with
        | some a => BitVec.ofNat 64 (ofBytes (homeBytes s slot a 8))
        | none => 0 }
  { tagged with valid := ln.valid ||| ((1 : BitVec 4) <<< (sec % 4)) }
/-- A sector's fill has landed: its miss-table entry goes with its last sector (R255). -/
def dropMiss (l : List Miss) (sec : Nat) : List Miss :=
  (l.map fun e => if e.line = sec / 4 then { e with secs := e.secs.filter (· != sec) } else e).filter fun e => !e.secs.isEmpty
/-- The fill of a sector lands: its line is tagged, and its miss-table entry goes (R254, R255); scale bytes are read as they stand at
their home (R259, R266, R363). -/
def landFill (s : State) (ctx slot sec : Nat) : State :=
  let s := lineRoom s (sec / 4)
  let s := match (if (getLine s (sec / 4)).valid != 0 then none else scaleAddr s ctx (sec / 4)) with
    | some a => touchLine s slot (a / 256)
    | none => s
  let s := setLine s (sec / 4) (filledLine s ctx slot sec)
  onClu s (homeOf (sec * 64)) fun c => { c with miss := dropMiss c.miss sec }
/-- A full miss table gives its oldest entry up: that entry's fills land (R255; log 70). -/
def missRoom (s : State) (sec : Nat) : State :=
  let t := (getClu s (homeOf (sec * 64))).miss
  match (if t.length < 64 || t.any (fun e => e.line == sec / 4) then none else t.head?) with
  | some e => e.secs.foldl (fun s x => if bitOf (getLine s (x / 4)).valid.toNat (x % 4) then s
      else landFill (touchLine s e.slot (x / 4)) e.ctx e.slot x) s
  | none => s
/-- Fill of a sector that the line does not hold, for a reader that waits for it: it takes an entry of the miss table, or joins its
line's, and lands in the same step (R254, R255; log 70). -/
def fillSector (s : State) (ctx slot sec : Nat) : State :=
  if bitOf (getLine s (sec / 4)).valid.toNat (sec % 4) then s else landFill (missRoom s sec) ctx slot sec

/-- Sectors of a range of bytes, ascending. -/
def sectorRange (pa n : Nat) : List Nat := (List.range ((pa + n - 1) / 64 + 1 - pa / 64)).map (pa / 64 + ·)
/-- A read at home of `n` bytes (R24, R254, R266, R363). -/
def homeRead (s : State) (ctx slot pa n : Nat) : List Byte × State :=
  let s := (sectorRange pa n).foldl (fun s sec => fillSector (touchLine s slot (sec / 4)) ctx slot sec) s
  (homeBytes s slot pa n, s)
/-- A write at home on a path (R24, R254, R266, R363). Every write of a line is one write in its timestamp order (R250). -/
def homeWrite (s : State) (ctx slot : Nat) (p : Path) (pts : Nat) (l : List (Nat × Byte)) : Nat × State :=
  let lines := (l.map fun e => e.1 / 256).eraseDups
  let s := lines.foldl (fun s x => touchLine s slot x) s
  stampLines (putBytes s ctx slot l) p pts lines

/-! ### Translation (R355 to R359) -/

/-- What an access does, for the permissions of R358. -/
inductive Acc where
  | read | fetch | write | gwrite | red | xwrite | xred | mtwrite
  deriving DecidableEq, Repr

/-- A translated access: physical address, device slot, and bits 54 and 57 of its page. -/
structure Xl where
  pa : Nat
  slot : Nat
  noL1 : Bool
  ubit : Bool
  deriving DecidableEq, Repr

/-- The answer of a translation. -/
inductive XRes where
  | ok (x : Xl) (s : State)
  | page
  | perm

/-- A leaf permits an access (R358). -/
def permits (acc : Acc) (pte : Nat) (user : Bool) : Bool :=
  (!user || bitOf pte 4) && match acc with
    | .read => bitOf pte 1
    | .fetch => bitOf pte 3
    | .write => bitOf pte 1 && bitOf pte 2
    | .gwrite => bitOf pte 1 && bitOf pte 2 && bitOf pte 55
    | .red => bitOf pte 2
    | .xwrite => bitOf pte 2 && bitOf pte 55
    | .xred => bitOf pte 1 && bitOf pte 2 && bitOf pte 55
    | .mtwrite => bitOf pte 2 && bitOf pte 56
/-- The access writes. -/
def Acc.writes (a : Acc) : Bool := match a with
  | .read | .fetch => false
  | _ => true

/-- What a walk answers. -/
inductive WalkRes where
  | leaf (e : TlbEntry)
  | page
  | perm

/-- Position of a page-table entry's leaf and its page (R357). -/
def leafOf (ctx va pte lvl : Nat) : TlbEntry :=
  let bits := if bitOf pte 63 then 16 else 12 + 9 * lvl
  let ppn := bitsOf pte 10 44
  { ctx := ctx, va := va / 2 ^ bits * 2 ^ bits, bits := bits, pa := ppn * 4096 / 2 ^ bits * 2 ^ bits, pte := BitVec.ofNat 64 pte }

/-- A page-table entry that R357 refuses whatever its level. -/
def pteBad (pte : Nat) : Bool := !bitOf pte 0 || (!bitOf pte 1 && bitOf pte 2) || bitsOf pte 50 4 != 0 || bitsOf pte 61 2 != 0
/-- The table that an entry at level `n` points to: none when it is a leaf; an entry that R357 refuses answers `some none`. -/
def nextTable (pte n : Nat) : Option (Option Nat) :=
  if bitOf pte 1 || bitOf pte 3 then none
  else if n = 0 || bitOf pte 63 || bitsOf pte 54 7 != 0 || bitOf pte 4 || bitOf pte 6 || bitOf pte 7 then some none
  else some (some (bitsOf pte 10 44 * 4096))
/-- Address of the entry that a walk reads at level `n` of the table at `a` (R357). -/
def pteAddr (va n a : Nat) : Nat := a + bitsOf va (12 + 9 * n) 9 * 8
/-- Path H alone reaches host memory (R249); a table there is out of the walker's reach. -/
def walkerReaches (s : State) (ctx e : Nat) : Bool := liesIn s (getCtx s ctx).part e && !bitOf e 51
/-- The walk from level `n - 1` down, with the table at `a`: each entry is read once at its home (R357, R360). -/
def walk (ctx : Nat) (acc : Acc) (user : Bool) (va : Nat) : Nat → Nat → State → WalkRes × State
  | 0, _, s => (.page, s)
  | n + 1, a, s =>
    let e := pteAddr va n a
    if !walkerReaches s ctx e then (.perm, s)
    else
      let r := homeRead s ctx (8 * ctx) e 8
      let pte := ofBytes r.1
      if pteBad pte then (.page, r.2)
      else match nextTable pte n with
        | some none => (.page, r.2)
        | some (some t) => walk ctx acc user va n t r.2
        | none =>
          if bitOf pte 63 && (n != 0 || bitsOf pte 10 4 != 8) then (.page, r.2)
          else if bitsOf pte 10 (9 * n) != 0 then (.page, r.2)
          else if !bitOf pte 6 then (.page, r.2)
          else if !permits acc pte user then (.perm, r.2)
          else if acc.writes && !bitOf pte 7 then (.page, r.2)
          else
            let l := leafOf ctx va pte n
            (if liesIn r.2 (getCtx s ctx).part (l.pa + va % 2 ^ l.bits) then .leaf l else .perm, r.2)

/-- The entry of a TLB that covers an address. -/
def tlbFind (t : List TlbEntry) (ctx va : Nat) : Option TlbEntry :=
  t.find? fun e => e.ctx == ctx && va / 2 ^ e.bits * 2 ^ e.bits == e.va

/-- A table of at most `n` entries with an entry taken to its front (R359). -/
def withEntry (n : Nat) (e : TlbEntry) (l : List TlbEntry) : List TlbEntry :=
  e :: (l.filter fun x => !(x.ctx == e.ctx && x.va == e.va && x.bits == e.bits)).take (n - 1)
/-- The TLBs of the core, if one translates, and of the cluster hold an entry. -/
def takeTlb (s : State) (core : Option Nat) (cluster : Nat) (e : TlbEntry) : State :=
  let s := match core with
    | some k => onCore s k fun c => { c with tlb := withEntry 64 e c.tlb }
    | none => s
  onClu s cluster fun c => { c with tlb := withEntry 2048 e c.tlb }

/-- A translation register as a cluster sees it while `mtsp` updates it (R354). -/
def transReg (s : State) (ctx cluster num : Nat) (now : W64) : W64 :=
  match amFind (getCtx s ctx).transOld num with
  | some (old, doneIn) => if doneIn.contains cluster then now else old
  | none => now

/-- The slot of a translated access must hold a key (R362). -/
def keyCheck (s : State) (x : Xl) : XRes := if slotValid s x.slot then .ok x s else .perm

/-- Level and table from which a walk goes on: the root, or where a walk of that page under way stands (R360). One that came there
before the context's latest event may have ended in a fault, which leaves nothing behind (R359). -/
def walkFrom (s : State) (ctx cluster va root : Nat) : Nat × Nat :=
  match (getClu s cluster).walks.find? fun w => w.1 == ctx && w.2.1 == va / 4096 && w.2.2.2.2 == (getCtx s ctx).evseq with
  | some w => (w.2.2.1, w.2.2.2.1)
  | none => (5, root * 4096)
/-- No walk of a context is under way in a cluster. -/
def dropWalks (s : State) (ctx cluster : Nat) : State := onClu s cluster fun c => { c with walks := c.walks.filter fun w => w.1 != ctx }
/-- No walk of a page is under way. -/
def endWalk (s : State) (ctx cluster va : Nat) : State :=
  onClu s cluster fun c => { c with walks := c.walks.filter fun w => !(w.1 == ctx && w.2.1 == va / 4096) }
/-- An entry that serves an access: a write through an entry with D clear walks again (R359), and the address must lie in the
partition (R351). -/
def hitRes (s : State) (part : Nat) (acc : Acc) (user : Bool) (va : Nat) (e : TlbEntry) : Option WalkRes :=
  if acc.writes && !bitOf e.pte.toNat 7 then none
  else some (if permits acc e.pte.toNat user && liesIn s part (e.pa + va % 2 ^ e.bits) then .leaf e else .perm)

/-- The leaf that serves an access outside the heap: of a TLB, or else of a walk (R355 to R359). -/
def leafFor (s : State) (ctx cluster : Nat) (core : Option Nat) (acc : Acc) (user : Bool) (va root : Nat) : WalkRes × State :=
  let mine := match core with
    | some k => (getCore s k).tlb
    | none => []
  let hit := match tlbFind mine ctx va with
    | some e => some e
    | none => tlbFind (getClu s cluster).tlb ctx va
  match hit.bind (hitRes s (getCtx s ctx).part acc user va) with
  | some r => (r, s)
  | none =>
    let w := walkFrom s ctx cluster va root
    walk ctx acc user va w.1 w.2 (endWalk s ctx cluster va)
/-- Translation of a virtual address that is canonical and outside the pool window (R355 to R359). `core` is the core whose TLB
serves a core form; an engine's translation passes none. -/
def xlate (s : State) (ctx cluster : Nat) (core : Option Nat) (acc : Acc) (va : Nat) : XRes :=
  let c := getCtx s ctx
  let hbase := (transReg s ctx cluster 0x801 c.hbase).toNat
  let hlim := (transReg s ctx cluster 0x802 c.hlim).toNat
  let hoff := (transReg s ctx cluster 0x803 c.hoff).toNat
  let root := transReg s ctx cluster 0x804 c.ptroot
  let user := !isSup s ctx
  if hbase ≤ va ∧ va < hlim then
    let pa := (va + hoff) % 2 ^ 64
    if pa ≥ 2 ^ 52 || !liesIn s c.part pa || acc == .fetch then .perm
    else keyCheck s { pa := pa, slot := 8 * ctx, noL1 := false, ubit := true }
  else if !bitOf root.toNat 63 then .page
  else
    match leafFor s ctx cluster core acc user va (fieldOf root 0 44) with
    | (.page, _) => .page
    | (.perm, _) => .perm
    | (.leaf e, s) =>
      let x : Xl := { pa := e.pa + va % 2 ^ e.bits, slot := 8 * ctx + bitsOf e.pte.toNat 58 3,
                      noL1 := bitOf e.pte.toNat 54, ubit := bitOf e.pte.toNat 57 }
      keyCheck (takeTlb s core cluster e) x

/-- A canonical address (R117 step 5). -/
def canonical (va : Nat) : Bool := bitsOf va 57 7 == (if bitOf va 56 then 127 else 0)
/-- The address lies in the pool window (R242). -/
def inPoolWindow (va : Nat) : Bool := decide (poolWindow ≤ va) && decide (va < poolWindow + 0x1000000)

/-- Steps 5 and 6 of R117 for a core form on any path but the pool window: canonical check, translation, and the host bit of
R249. -/
def xlateCore (s : State) (acc : Acc) (isH : Bool) (va : Nat) : XRes :=
  if !canonical va then .page
  else match xlate s (myCtx s) (myClu s) (some (myCore s)) acc va with
    | .ok x s' => if bitOf x.pa 51 == isH then .ok x s' else .perm
    | r => r
/-- The same for an engine's access of a context in a cluster (R242, R249, R355). -/
def xlateEngine (s : State) (ctx cluster : Nat) (acc : Acc) (va : Nat) : XRes :=
  if inPoolWindow va then .perm
  else if !canonical va then .page
  else match xlate s ctx cluster none acc va with
    | .ok x s' => if bitOf x.pa 51 then .perm else .ok x s'
    | r => r

/-- A walk under way reads the entry of its next table (R360). -/
def evWalk (k ctx va : Nat) (s : State) : Option State :=
  let root := transReg s ctx k 0x804 (getCtx s ctx).ptroot
  let w := walkFrom s ctx k va (fieldOf root 0 44)
  let e := pteAddr va (w.1 - 1) w.2
  if !(getCtx s ctx).created || !canonical va || !bitOf root.toNat 63 || w.1 = 0 || !walkerReaches s ctx e then none
  else
    let r := homeRead s ctx (8 * ctx) e 8
    if pteBad (ofBytes r.1) then none
    else match nextTable (ofBytes r.1) (w.1 - 1) with
      | some (some t) => some (onClu (endWalk r.2 ctx k va) k fun c => { c with walks := (ctx, va / 4096, w.1 - 1, t, (getCtx s ctx).evseq) :: c.walks })
      | _ => none

/-! ### The pool (R240 to R244) -/

/-- Granules of the register and scratchpad regions (R240), and the scratchpad's bounds in bytes (R241). -/
def regGran (c : CoreSt) : Nat := fieldOf c.pword 0 6
def scrGran (c : CoreSt) : Nat := fieldOf c.pword 8 6
def accGran (c : CoreSt) : Nat := fieldOf c.pword 16 6
def scrLo (c : CoreSt) : Nat := regGran c * 16384
def scrHi (c : CoreSt) : Nat := (regGran c + scrGran c) * 16384
/-- A range of bytes lies wholly in the scratchpad region (R242). -/
def inScratch (c : CoreSt) (off n : Nat) : Bool := decide (scrLo c ≤ off) && decide (off + n ≤ scrHi c)
/-- A range touches the region span of a resident whose activation does not run (R244). -/
def closedRange (c : CoreSt) (act : Option Act) (off n : Nat) : Bool :=
  c.resid.any fun r => decide (0 < r.spanLen) && decide (0 < n) && decide (off < r.spanLo + r.spanLen) && decide (r.spanLo < off + n)
    && !(match act with
      | some a => a.resNo == r.resNo
      | none => false)
/-- A pool-offset operand or a pool-window access passes R242 and R244. -/
def poolOk (c : CoreSt) (act : Option Act) (off n : Nat) : Bool := inScratch c off n && !closedRange c act off n

/-- One 64-byte block of a pool. -/
def poolBlock (p : AMap V512) (b : Nat) : V512 := amGet 0 p b
/-- Bytes of a pool. -/
def poolByte (p : AMap V512) (off : Nat) : Byte := BitVec.ofNat 8 (elem 8 (poolBlock p (off / 64)) (off % 64))
def poolBytesAt (p : AMap V512) (off n : Nat) : List Byte := (List.range n).map fun i => poolByte p (off + i)
/-- Write of one byte of a pool. -/
def poolPut (p : AMap V512) (off : Nat) (b : Byte) : AMap V512 :=
  let v := poolBlock p (off / 64)
  let sh := 8 * (off % 64)
  amSet p (off / 64) ((v &&& ~~~((255 : V512) <<< sh)) ||| (BitVec.zeroExtend 512 b <<< sh))
/-- Writes of bytes of a pool. -/
def poolPutAll (p : AMap V512) (l : List (Nat × Byte)) : AMap V512 := l.foldl (fun p e => poolPut p e.1 e.2) p

/-- The focus thread set's C load of its pool takes its place in the timestamp order (R281, R290; log 73). -/
def poolLoaded (s : State) : State :=
  let t := max s.th.pts s.core.ptime
  withCore (withTh s fun x => { x with pts := t }) fun c => { c with ptime := t }
/-- A C store of the focus thread set to its pool: after every earlier access of the pool (R281, R290; log 73). -/
def poolStored (s : State) : State :=
  let t := max s.th.pts (s.core.ptime + 1)
  withCore (withTh s fun x => { x with pts := t }) fun c => { c with ptime := t }
/-- Another path has written, or read, the pool of a core (R290; log 73). -/
def poolWrote (s : State) (core : Nat) (p : Path) : State :=
  let t := max ((getCore s core).ptime + 1) (floorOf s p)
  notePath (onCore s core fun c => { c with ptime := t }) p t
def poolRead (s : State) (core : Nat) (p : Path) : State := notePath s p (getCore s core).ptime
/-- Another path has read a line at home (R290; log 73). -/
def homeSeen (s : State) (p : Path) (pa : Nat) : State := notePath s p (getLine s (pa / 256)).wts

/-! ### The L1 and reads at home (R248, R250 to R252) -/

/-- The contents of an L1 copy as a load sees them: data, tag and scale bytes (R259). -/
structure Sector where
  data : V512
  tag : Nat
  sc0 : Byte
  sc1 : Byte
  deriving DecidableEq, Repr

/-- Copies of an L1 in the set of a sector: 8 ways, 4,096 sets (R1; log 68). -/
def l1Mates (l1 : AMap L1Copy) (sec : Nat) : List Nat :=
  l1.filterMap fun e => if e.1 % 4096 == sec % 4096 && e.1 != sec then some e.1 else none
/-- An L1 takes a copy; a full set loses one. -/
def l1Put (n : Nat) (sec : Nat) (x : L1Copy) (l1 : AMap L1Copy) : AMap L1Copy :=
  let m := l1Mates l1 sec
  amSet (if m.length < 8 then l1 else amDel l1 (m.getD (Config.victim n % m.length) 0)) sec x

/-- One C read at home of sectors for a program timestamp: it takes one time, and each line is leased until 64 after it (R158,
R250). The answer is the copies. -/
def leaseHome (s : State) (ctx slot pts : Nat) (secs : List Nat) : AMap L1Copy × State :=
  let s := secs.foldl (fun s sec => fillSector (touchLine s slot (sec / 4)) ctx slot sec) s
  let lines := (secs.map (· / 4)).eraseDups
  let le := lines.foldl (fun m l => max m (getLine s l).wts) pts + 64
  let one := fun (sec : Nat) =>
    let ln := getLine s (sec / 4)
    (sec, { data := sectorAs s (keyOf s slot) sec, wts := ln.wts, le := le, tag := ln.tag,
            sc0 := BitVec.ofNat 8 (fieldOf ln.scales (16 * (sec % 4)) 8),
            sc1 := BitVec.ofNat 8 (fieldOf ln.scales (16 * (sec % 4) + 8) 8),
            slot := slot, born := s.cycle.toNat, leased := false : L1Copy })
  (secs.foldl (fun m sec => let e := one sec; amSet m e.1 e.2) [],
   lines.foldl (fun s l => setLine s l { getLine s l with rts := max (getLine s l).rts le }) s)

/-- The contents of a copy as a load sees them. -/
def sectorOf (c : L1Copy) : Sector := ⟨c.data, c.tag, c.sc0, c.sc1⟩
/-- The core keeps copies that home leased, unless their page keeps them out (R250, R252). -/
def keepCopies (s : State) (noL1 : Bool) (l : AMap L1Copy) : State :=
  withCore s fun k => { k with l1 := l.foldl (fun l1 e => if noL1 then amDel l1 e.1 else l1Put s.steps e.1 e.2 l1) k.l1 }
/-- The program timestamp after a load of copies (R250). -/
def raisePts (s : State) (n : Nat) : State := withTh s fun t => { t with pts := max t.pts n }
/-- Greatest write time of copies. -/
def copiesWts (l : AMap L1Copy) : Nat := l.foldl (fun m e => max m e.2.wts) 0
/-- Cycles for which a copy may serve after home has served it (R251): a reader whose program timestamp lags sees a later store no later
than one whose own has passed the lease. -/
def copyLife : Nat := 16384
/-- An L1 copy that may serve a C load of the focus thread set (R250, R251, R252, R363). -/
def copyServes (s : State) (x : Xl) (c : L1Copy) : Bool :=
  decide (c.slot = x.slot ∧ s.th.pts ≤ c.le ∧ s.cycle.toNat < c.born + copyLife ∧ !x.noL1)
/-- A C load of one sector that the L1 serves (R250). -/
def loadL1 (s : State) (x : Xl) : Option (Sector × State) := match amFind s.core.l1 (x.pa / 64) with
  | some c => if copyServes s x c then some (sectorOf c, raisePts s (max c.wts (c.le - 64))) else none
  | none => none
/-- A C load of sectors at home: their copies, the first of which is asked for (R250). -/
def loadHome (s : State) (x : Xl) (secs : List Nat) : AMap L1Copy × State :=
  let r := leaseHome s (myCtx s) x.slot s.th.pts secs
  (r.1, raisePts (keepCopies r.2 x.noL1 r.1) (copiesWts r.1))
/-- A sector among copies. -/
def copyAt (l : AMap L1Copy) (sec : Nat) : Sector := match amFind l sec with
  | some c => sectorOf c
  | none => ⟨0, 0, 0, 0⟩
/-- A C load of one sector by the focus thread set (R250). -/
def loadC (s : State) (x : Xl) : Sector × State := match loadL1 s x with
  | some r => r
  | none => let r := loadHome s x [x.pa / 64]; (copyAt r.1 (x.pa / 64), r.2)
/-- A K read of one sector: any copy serves it, unless the page bypasses the L1, or a fence marked it and its lease has passed
(R248, R252, R287). Its time on path K is the write time of what it read (log 73). -/
def loadK (s : State) (x : Xl) : Sector × State :=
  match amFind s.core.l1 (x.pa / 64) with
  | some c => if c.slot = x.slot ∧ !x.noL1 ∧ (!c.leased ∨ s.th.pts ≤ c.le) then (sectorOf c, notePath s .K c.wts) else loadC s x
  | none => loadC s x

/-- The bytes of a sector from an offset, as a number. -/
def sectorNat (v : Sector) (off n : Nat) : Nat := bitsOf v.data.toNat (8 * off) (8 * n)

/-- Scalar register write of any thread set; s0 discards it (R17, R104). -/
def rfSetS (r : Regs) (n : Nat) (v : W64) : Regs :=
  if h : n < 32 then (if n = 0 then r else { r with s := r.s.set n v h }) else r
/-- OR into the sticky flags (R82). -/
def rfOrFlags (r : Regs) (f : Nat) : Regs := { r with flags := r.flags ||| BitVec.ofNat 64 (f % 32) }

/-! ### Fetch lines (R40 to R48) -/

/-- What a fetch answers. -/
inductive LineRes where
  | ok (line : V512) (s : State)
  | page
  | perm

/-- Line word and slots of a line (R40). -/
def lineWord (v : V512) : Nat := bitsOf v.toNat 480 32
def slotWord (v : V512) (i : Nat) : W96 := BitVec.ofNat 96 (bitsOf v.toNat (96 * i) 96)
/-- Parity of the line word and of a slot (R41). -/
def lparOk (v : V512) : Bool := parity 26 (lineWord v) == bitOf (lineWord v) 31
def sparOk (v : V512) (i : Nat) : Bool := parity 96 (slotWord v i).toNat == bitOf (lineWord v) (26 + i)
/-- PAIR bit `j` and TGT bit `i` of a line (R41). -/
def pairBit (v : V512) (j : Nat) : Bool := bitOf (lineWord v) (5 + j)
def tgtBit (v : V512) (i : Nat) : Bool := bitOf (lineWord v) i

/-- The line of an instruction address, read on path K (R48, R358). -/
def fetchLine (s : State) (va : Nat) : LineRes :=
  if inPoolWindow va then .perm
  else match xlateCore s .fetch false (va / 64 * 64) with
    | .ok x s' => let r := loadK s' x; .ok r.1.data r.2
    | .page => .page
    | .perm => .perm
/-- The same after the core has discarded its copy of the line (R46): it reads the line at home. -/
def refetchLine (s : State) (va : Nat) : LineRes :=
  match xlateCore s .fetch false (va / 64 * 64) with
  | .ok x s' =>
    let r := loadHome (withCore s' fun c => { c with l1 := amDel c.l1 (x.pa / 64) }) x [x.pa / 64]
    .ok (copyAt r.1 (x.pa / 64)).data r.2
  | .page => .page
  | .perm => .perm
/-- A line whose parity check `good` passes on the first or the second copy (R46): the line and whether it passed. -/
def checkedLine (s : State) (va : Nat) (good : V512 → Bool) : Bool × LineRes :=
  match fetchLine s va with
  | .ok l s' => if good l then (true, .ok l s')
    else match refetchLine s' va with
      | .ok l2 s2 => (good l2, .ok l2 s2)
      | r => (true, r)
  | r => (true, r)

/-- What the check of a control transfer's target answers (R43, R112). -/
inductive TgtRes where
  | ok (s : State)
  | bad (s : State)
  | linepar (s : State)
  | page
  | perm

/-- The target check of R43. The reads that it makes stand, whatever it finds (R46). -/
def checkTarget (s : State) (va : W64) : TgtRes :=
  if fieldOf va 3 3 != 0 || fieldOf va 0 3 > 4 then .bad s
  else match checkedLine s va.toNat lparOk with
    | (false, .ok _ s') => .linepar s'
    | (_, .ok l s') => if tgtBit l (fieldOf va 0 3) then .ok s' else .bad s'
    | (_, .page) => .page
    | (_, .perm) => .perm

/-! ### Traps and upcalls (R125 to R131, R372 to R383) -/

/-- Causes of R125. -/
def cILLEGAL : Nat := 0x01
def cBADTARGET : Nat := 0x02
def cILLPAIR : Nat := 0x03
def cLINEPAR : Nat := 0x04
def cBOUNDS : Nat := 0x10
def cMISALIGN : Nat := 0x11
def cPAGE : Nat := 0x20
def cPERM : Nat := 0x21
def cRANKOVF : Nat := 0x30
def cMSPACE : Nat := 0x31
def cQFULL : Nat := 0x40
def cBADCOUNT : Nat := 0x41
def cBREAK : Nat := 0x50
def cSYSCALL : Nat := 0x51
def cECCUNC : Nat := 0x60
def cENGINE : Nat := 0x61
def cCIMPAR : Nat := 0x62
def cBVHRANGE : Nat := 0x70

/-- What a trap or upcall records: cause, address, access word, code, BRK, transferred prefix, and whether it restarts at the
successor (R124, R128, R373). -/
structure Trap where
  cause : Nat
  addr : W64
  acc : W64
  code : Nat
  brk : Bool
  xfer : Option Nat
  next : Bool
  deriving DecidableEq, Repr

/-- A trap with no access. -/
def trapOf (cause : Nat) (addr : W64) : Trap :=
  { cause := cause, addr := addr, acc := 0, code := 0, brk := false, xfer := none, next := false }
/-- A trap of an access. -/
def trapAcc (cause : Nat) (addr acc : W64) : Trap := { trapOf cause addr with acc := acc }
/-- Access word of R373: path, write, fetch and size in bytes, a power of two. -/
def accWord (p : Path) (write fetch : Bool) (bytes : Nat) : W64 :=
  BitVec.ofNat 64 (pathCode p + 16 * bit write + 32 * bit fetch + 256 * Nat.log2 bytes)

/-- HA of `faultinfo` (R124). -/
def haBit (r : Regs) : Bool := bitOf r.faultinfo.toNat 15
def clearHA (r : Regs) : Regs := { r with faultinfo := r.faultinfo &&& ~~~(0x8000 : W64) }

/-- The instruction address after another, in sequence (R42). -/
def nextAddr (pc : W64) : W64 := if fieldOf pc 0 3 < 4 then pc + 1 else (pc &&& ~~~(63 : W64)) + 64

/-- A stop of the thread set at the instruction that trapped, with the message of R376. -/
def doubleTrap (s : State) (t : Trap) : State :=
  let ctx := myCtx s
  let f := newFault s ctx 5 s.here (myClu s)
  let e := raiseEvent f.2 ctx none
  let why : Fault1 := { cause := t.cause, addr := t.addr, acc := t.acc, fid := f.1 }
  let s := withTh e.2 fun th =>
    { th with st := .stopped, pc := th.ipc, solo := th.slot1, res := .trapped, fault := some why }
  sendFault s ctx f.1 t.addr t.acc (BitVec.ofNat 64 (t.cause + 256)) e.1

/-- Restart address, SOLO and pending target of a trap (R114, R128, R373, R374). -/
def restartOf (th : Thread) (next : Bool) : W64 × Bool × Option W64 :=
  if next then
    (if th.inPair && !th.slot1 then (nextAddr th.ipc, true, none)
    else match th.ptgt with
      | some p => (p, false, none)
      | none => (nextAddr th.ipc, false, none))
  else (th.ipc, th.slot1, if th.slot1 then th.ptgt else none)

/-- The fault frame (R373, R374), as sixteen 64-bit words. -/
def frameWords (s : State) (t : Trap) (finfo : W64) (fid : W64) (up : Bool) (evs : Nat) : List W64 :=
  let r := restartOf s.th t.next
  [r.1, (r.2.2).getD 0, finfo, t.addr, fid,
    BitVec.ofNat 64 (bit r.2.2.isSome + 2 * bit r.2.1 + 4 * bit t.xfer.isSome + 8 * bit up),
    BitVec.ofNat 64 (s.here + myCtx s * 2 ^ 16), BitVec.ofNat 64 evs, t.acc, 0, 0, 0, 0, 0, 0, 0]

/-- `faultinfo` as it stands after entry (R124). -/
def faultInfoOf (th : Thread) (t : Trap) : W64 :=
  BitVec.ofNat 64 (t.cause + 256 * (t.xfer.getD 0) + 0x2000 * bit th.slot1 + 0x4000 * bit t.brk + 0x8000 + 2 ^ 24 * t.code)

/-- The state with the fault frame in the pool and the trap in `faultinfo` and `faultaddr` (R127 steps 2 and 3, R373). -/
def saveFrame (s : State) (t : Trap) (fid : W64) (up : Bool) : State :=
  let e := raiseEvent s (myCtx s) none
  let fi := faultInfoOf s.th t
  let bytes := (frameWords s t fi fid up e.1).flatMap fun w => toBytes 8 w.toNat
  let s := withCore e.2 fun c => { c with pool := poolPutAll c.pool (atAddr s.th.rf.ffbase.toNat bytes) }
  withRf s fun r => { r with faultinfo := fi, faultaddr := t.addr }
/-- Entry at a vector (R127 steps 2 to 4), when HA is clear and there is a frame. -/
def enterAt (s : State) (t : Trap) (vec fid : W64) (up : Bool) : State :=
  let s := saveFrame s t fid up
  match checkTarget s vec with
  | .ok s' => withTh s' fun th => { th with pc := vec, solo := false, ptgt := none, xfer := none, res := .trapped }
  | .bad s' => doubleTrap s' t
  | .linepar s' => doubleTrap s' t
  | .page => doubleTrap s t
  | .perm => doubleTrap s t

/-- A precise trap (R127). -/
def takeTrap (s : State) (t : Trap) : State :=
  if haBit s.th.rf || s.th.rf.ffbase == 0 then doubleTrap s t else enterAt s t s.th.rf.trapvec 0 false

/-- Class 15 is bound on the core (R381). -/
def class15Bound (c : CoreSt) : Bool := c.binds.toList.any fun b => b.bound && b.cls == 15

/-- A PAGE fault of a core instruction: an upcall, a block, or a double trap (R381). -/
def takePage (s : State) (t : Trap) : State :=
  let r := s.th.rf
  if haBit r then doubleTrap s t
  else
    let ctx := myCtx s
    let f := newFault s ctx 0 s.here (myClu s)
    let cw : W64 := BitVec.ofNat 64 t.cause
    let wait := fun (s : State) => { s with waiting := s.waiting ++ [{ fid := f.1, va := t.addr, acc := t.acc, cause := t.cause, g := s.here }] }
    if r.upvec != 0 && r.ffbase != 0 && class15Bound s.core then
      let s := enterAt f.2 t r.upvec f.1 true
      wait (sendFault s ctx f.1 t.addr t.acc cw (getCtx s ctx).evseq.toNat)
    else
      let e := raiseEvent f.2 ctx none
      let why : Fault1 := { cause := t.cause, addr := t.addr, acc := t.acc, fid := f.1 }
      let s := withTh e.2 fun th =>
        { th with st := .blocked, pc := th.ipc, solo := th.slot1, res := .trapped, xfer := t.xfer, fault := some why }
      wait (sendFault s ctx f.1 t.addr t.acc cw e.1)

/-- QFULL raised by `spawn` (R382). -/
def takeQfull (s : State) (addr : W64) : State :=
  let r := s.th.rf
  let t := trapOf cQFULL addr
  if haBit r || r.ffbase == 0 then doubleTrap s t
  else if r.upvec != 0 then enterAt s t r.upvec 0 true
  else enterAt s t r.trapvec 0 false

/-- Why an instruction does not run to its end: it is not ready (R18), it traps, or it takes a PAGE fault. -/
inductive Stop where
  | stall
  | trap (t : Trap)
  | page (t : Trap)
  | qfull (addr : W64)
  /-- A trap after reads that stand: those of a target's line, the second copy of one that failed its parity check among them (R46). -/
  | after (s : State) (t : Trap)
  deriving DecidableEq, Repr

/-- An instruction that is not ready leaves the state as it was but for the mark. -/
def stalled (s : State) : State := withTh s fun t => { t with res := .stalled }

/-- Acts on a stop, from the state before the instruction (R73, R127, R381). -/
def onStop (s : State) (x : Stop) : State :=
  match x with
  | .stall => stalled s
  | .trap t => takeTrap s t
  | .page t => takePage s t
  | .qfull a => takeQfull s a
  | .after s' t => takeTrap s' t

/-- Runs the body of an instruction, or acts on its stop. -/
def runBody (s : State) (r : Except Stop State) : State :=
  match r with
  | .ok s' => s'
  | .error x => onStop s x

/-- Raises a precise trap with no access. -/
def trapE {α : Type} (cause : Nat) (addr : W64) : Except Stop α := .error (.trap (trapOf cause addr))
/-- A check that traps when it fails. -/
def require (ok : Bool) (cause : Nat) (addr : W64) : Except Stop Unit := if ok then .ok () else trapE cause addr
/-- A condition of readiness (R18). -/
def ready (ok : Bool) : Except Stop Unit := if ok then .ok () else .error .stall

/-- Transfer of control by an instruction (R112, R114): the pair's slot j transfers after slot j + 1. -/
def transfer (s : State) (tgt : W64) : State :=
  withTh s fun t => if t.inPair && !t.slot1 then { t with ptgt := some tgt } else { t with pc := tgt, ptgt := none }
/-- Transfer to a checked target (R43, R112). -/
def transferChecked (s : State) (tgt : W64) : Except Stop State :=
  match checkTarget s tgt with
  | .ok s' => .ok (transfer s' tgt)
  | .bad s' => .error (.after s' (trapOf cBADTARGET tgt))
  | .linepar s' => .error (.after s' (trapOf cLINEPAR tgt))
  | .page => .error (.page (trapAcc cPAGE tgt (accWord .K false true 64)))
  | .perm => .error (.trap (trapAcc cPERM tgt (accWord .K false true 64)))

/-- Resumption from a frame at a pool offset (R129, R130, R375): HA clears and the restart instruction issues next. -/
def resumeFrame (s : State) (off : Nat) : State :=
  let w := fun i => BitVec.ofNat 64 (ofBytes (poolBytesAt s.core.pool (off + 8 * i) 8))
  let ffl := w 5
  let s := withRf s clearHA
  withTh s fun t => { t with pc := w 0, solo := bitOf ffl.toNat 1,
                             xfer := if bitOf ffl.toNat 2 then some (fieldOf (w 2) 8 5) else none,
                             ptgt := if bitOf ffl.toNat 0 then some (w 1) else none }

end Machine
end Sys2Proof
end

