-- ==== Sys2Proof/Machine/Operands.lean ====
section
/-!
DEFINITION. Operands: reads and writes of every operand form (R17, R49 to R57, R104, R134 to R136), the special registers of
R123, predicates, and the queue registers.
-/
namespace Sys2Proof
namespace Machine

/-! ### Registers of the focus thread set (R17, R45) -/

/-- The registers that an instruction reads: those before the pair, for slot j + 1 of a pair (R45). -/
def vw (s : State) : Regs := match s.th.snap with
  | some r => r.1
  | none => s.th.rf
/-- The pool that an instruction's extended registers are read from (R45). -/
def vwPool (s : State) : AMap V512 := match s.th.snap with
  | some r => r.2.1
  | none => s.core.pool

/-- Matrix commands that the core had accepted before the pair, or by now (R45). -/
def vwCmds (s : State) : Nat := match s.th.snap with
  | some r => r.2.2
  | none => s.core.mnum

/-- Scalar register; s0 reads zero (R17). -/
def getS (s : State) (n : Fin 32) : W64 := if n = 0 then 0 else (vw s).s[n]
/-- Scalar register write; s0 discards it (R17, R104). -/
def setS (s : State) (n : Fin 32) (v : W64) : State := withRf s fun r => if n = 0 then r else { r with s := r.s.set n.val v n.isLt }
/-- Predicate register; p0 reads all ones (R17). -/
def getP (s : State) (n : Fin 8) : W16 := if n = 0 then 0xFFFF else (vw s).p[n]
def setP (s : State) (n : Fin 8) (v : W16) : State := withRf s fun r => if n = 0 then r else { r with p := r.p.set n.val v n.isLt }
/-- Index register (R111). -/
def getX (s : State) (n : Fin 8) : W32 := (vw s).x[n]
def setX (s : State) (n : Fin 8) (v : W32) : State := withRf s fun r => { r with x := r.x.set n.val v n.isLt }
/-- OR of exception conditions into `flags` (R82). -/
def orFlags (s : State) (f : Nat) : State := withRf s fun r => rfOrFlags r f

/-- Predicate value of an instruction (R49, R135). -/
def predVal (s : State) (p : Pred) : W16 := if p.neg then ~~~(getP s p.idx) else getP s p.idx
/-- Bit 0 of the predicate value. -/
def pred0 (s : State) (p : Pred) : Bool := bitOf (predVal s p).toNat 0
/-- Lane `l` is active (R119). -/
def laneOn (pv : W16) (l : Nat) : Bool := bitOf pv.toNat l
/-- Element `n` of width `w` is active (R135). -/
def elemOn (pv : W16) (w n : Nat) : Bool := if w ≤ 32 then bitOf pv.toNat (w * n / 32) else bitOf pv.toNat (2 * n)
/-- Some element of width `w` is active (R63 step 5). -/
def anyOn (pv : W16) (w : Nat) : Bool := (List.range (512 / w)).any (elemOn pv w)

/-- A form whose predicate is bit 0: nothing happens when it is false (R63 step 5). -/
def bit0Form (s : State) (p : Pred) (body : Except Stop State) : State := if pred0 s p then runBody s body else s
/-- A form whose predicate acts per element of width `w` (R63 step 5, R135). -/
def elemForm (s : State) (p : Pred) (w : Nat) (body : Except Stop State) : State :=
  if anyOn (predVal s p) w then runBody s body else s

/-! ### Special registers (R16, R123, R126) -/

/-- Extended-vector allocation of the core's thread sets (R123). -/
def allocOf (s : State) : Nat := s.core.alloc

/-- The special registers below 0x800, as `mfs` and the shortcuts read them (R16, R123). -/
def readSpec (s : State) (num : Nat) : Option W64 :=
  let r := vw s
  match num with
  | 0x000 => some (BitVec.ofNat 64 s.here)
  | 0x001 => some (BitVec.ofNat 64 (myCore s))
  | 0x002 =>
    let k := myClu s
    some (BitVec.ofNat 64 (dieOf k * 2 ^ 25 + k * 2 ^ 16 + rowOf k * 2 ^ 8 + colOf k))
  | 0x003 => some r.unit
  | 0x004 => some r.frame
  | 0x005 => some r.lpb
  | 0x006 => some (BitVec.ofNat 64 (myCtx s + myPart s * 2 ^ 8 + bit (supMode s) * 2 ^ 15))
  | 0x007 => some (BitVec.ofNat 64 (allocOf s))
  | 0x008 => some (r.flags &&& 31)
  | 0x009 => some s.cycle
  | 0x00A => some (getCtx s (myCtx s)).evseq
  | 0x00B => some r.mtol
  | 0x00C => some r.mrmax
  | 0x00D => some r.ivstop
  | 0x00E => some r.mweight
  | 0x00F => some r.rngkey
  | 0x010 => some r.trapvec
  | 0x011 => some r.upvec
  | 0x012 => some r.ffbase
  | 0x013 => some r.faultinfo
  | 0x014 => some r.faultaddr
  | 0x015 => some (BitVec.ofNat 64 s.core.cap)
  | _ => none

/-- FP32 patterns that `mtol` and `ivstop` accept (R123): finite and at least +0; above zero, +Inf allowed. -/
def mtolOk (x : Nat) : Bool := decide (x < inf32)
def ivstopOk (x : Nat) : Bool := decide (0 < x) && decide (x ≤ inf32)
/-- A value that `ffbase` accepts (R123). -/
def ffbaseOk (c : CoreSt) (v : Nat) : Bool := v == 0 || (v % 128 == 0 && inScratch c v 128)

/-- A write of a special register below 0x800 to a register file, with the discards of R123. -/
def writeSpecRf (c : CoreSt) (r : Regs) (num : Nat) (v : W64) : Regs :=
  let lo := fieldOf v 0 32
  match num with
  | 0x004 => { r with frame := v }
  | 0x008 => { r with flags := v &&& 31 }
  | 0x00B => if mtolOk lo then { r with mtol := BitVec.ofNat 64 lo } else r
  | 0x00C => let k := fieldOf v 0 6; if 1 ≤ k ∧ k ≤ 32 then { r with mrmax := BitVec.ofNat 64 k } else r
  | 0x00D => if ivstopOk lo then { r with ivstop := BitVec.ofNat 64 lo } else r
  | 0x00E => let k := fieldOf v 0 4; if 1 ≤ k ∧ k ≤ 8 then { r with mweight := BitVec.ofNat 64 k } else r
  | 0x00F => { r with rngkey := v }
  | 0x010 => { r with trapvec := v }
  | 0x011 => { r with upvec := v }
  | 0x012 => clearHA (if ffbaseOk c v.toNat then { r with ffbase := v } else r)
  | _ => r
/-- The same for the focus thread set. -/
def writeSpec (s : State) (num : Nat) (v : W64) : State := withRf s fun r => writeSpecRf s.core r num v

/-- A scalar position of an OP3, OP4 or I32 form (R56, R104). -/
def readS (s : State) (o : SOp) : W64 := match o with
  | .s r => getS s r
  | .sc k => (readSpec s k.val).getD 0
def writeS (s : State) (o : SOp) (v : W64) : State := match o with
  | .s r => setS s r v
  | .sc k => writeSpec s k.val v

/-! ### Queue registers (R20, R57, R330, R331) -/

/-- The queue register that an activation's class is bound to. -/
def actQueue (c : CoreSt) (a : Act) : Option Nat := (List.range 8).find? fun i =>
  match c.binds.toList[i]? with
  | some b => b.bound && b.cls == a.cls
  | none => false
/-- A place of the queue register is reserved for an activation's current message (R331). -/
def qReserved (c : CoreSt) (here : Thread) (hereT : Nat) (q : Nat) : Bool :=
  (List.range 4).any fun i =>
    let t := if i = hereT then here else slotOf c i
    match t.act with
    | some a => a.cur.isSome && actQueue c a == some q
    | none => false
/-- Entries that a queue register of a core holds, and the number it may hold (R20, R331). -/
def qLen (c : CoreSt) (q : Nat) : Nat := (c.q.toList.getD q []).length
def qCap (c : CoreSt) (here : Thread) (hereT q : Nat) : Nat := if qReserved c here hereT q then 7 else 8
def qSet (c : CoreSt) (q : Nat) (l : List V512) : CoreSt := if h : q < 16 then { c with q := c.q.set q l h } else c
def qOf (c : CoreSt) (q : Nat) : List V512 := c.q.toList.getD q []
/-- Queue register that a vector destination is. -/
def VDst.queueNo (d : VDst) : Option Nat := match d with
  | .queue n => some n.val
  | _ => none
/-- Queue registers that the C loads, and the accesses, of a thread set will push when they take their values: each access has its place
from its issue on (R19, R57). -/
def Thread.loadPushes (t : Thread) : List Nat := t.creqs.filterMap fun r => match r.kind with
  | .vload _ d | .gath _ _ _ d | .conv _ _ d => d.queueNo
  | _ => none
def Thread.pushes (t : Thread) : List Nat :=
  t.loadPushes ++ (t.kreqs.filterMap fun q => q.vec.bind fun v => v.2.queueNo) ++ (t.amsgs.filterMap fun q => q.dst.queueNo) ++
    t.hreqs.filterMap fun q => if q.load && q.vec then q.vdst.queueNo else none
/-- Places of a queue register of the focus core that accesses which have issued hold. -/
def qHeld (s : State) (q : Nat) : Nat := ((List.range 4).map fun i =>
  ((if i = s.here % 4 then s.th else slotOf s.core i).pushes.filter (· == q)).length).sum
/-- Room for an entry whose place is held already, and for one more, in a queue register of the focus core. -/
def qTakes (s : State) (q : Nat) : Bool := decide (qLen s.core q < qCap s.core s.th (s.here % 4) q)
def qRoom (s : State) (q : Nat) : Bool := decide (qLen s.core q + qHeld s q < qCap s.core s.th (s.here % 4) q)

/-- Pop of the head entry (R57); an activation's pop of its class's register makes the entry its current message (R331). -/
def popQ (s : State) (q : Nat) : V512 × State :=
  match qOf s.core q with
  | [] => (0, s)
  | e :: l =>
    let s := withCore s fun c => qSet c q l
    (e, withTh s fun t => match t.act with
      | some a => if actQueue s.core a = some q then { t with act := some { a with cur := some e } } else t
      | none => t)
/-- Push of an entry (R57). -/
def pushQ (s : State) (q : Nat) (e : V512) : State := withCore s fun c => qSet c q (qOf c q ++ [e])

/-! ### Vector positions (R55, R57, R134, R368) -/

/-- Index of a relative operand (R55). -/
def extIndex (s : State) (i : Fin 8) (k : Fin 16) : Int := signedOf 32 (getX s i).toNat + k.val
/-- A vector position passes the check of R55. -/
def vopOk (s : State) (o : VOp) : Bool := match o with
  | .x i k => decide (0 ≤ extIndex s i k) && decide (extIndex s i k < allocOf s)
  | _ => true
/-- Pool block of extended register `i` of thread set `t` (R368). -/
def extBlock (c : CoreSt) (t i : Nat) : Nat := c.alloc * t + i
/-- A destination resolved at issue. -/
def resolveV (s : State) (o : VOp) : VDst := match o with
  | .v n => .base n
  | .q n => .queue n
  | .x i k => .ext (extIndex s i k).toNat

/-- Value of a base or extended register; a queue register reads as its head entry, without the pop. -/
def peekV (s : State) (o : VOp) : V512 := match o with
  | .v n => (vw s).v[n]
  | .q n => (qOf s.core n.val).headD 0
  | .x i k => poolBlock (vwPool s) (extBlock s.core (s.here % 4) (extIndex s i k).toNat)
/-- Reads a vector position; a queue register pops (R57). -/
def readV (s : State) (o : VOp) : V512 × State := match o with
  | .q n => popQ s n.val
  | o => (peekV s o, s)
/-- Value that a destination holds before the instruction, for its inactive elements: a queue entry has zeros there (R136). -/
def oldV (s : State) (o : VDst) : V512 := match o with
  | .base n => s.th.rf.v[n]
  | .ext i => poolBlock s.core.pool (extBlock s.core (s.here % 4) i)
  | .queue _ => 0
/-- Writes a resolved vector destination; a queue register is pushed (R57). -/
def writeVD (s : State) (o : VDst) (v : V512) : State := match o with
  | .base n => withRf s fun r => { r with v := r.v.set n.val v n.isLt }
  | .ext i => withCore s fun c => { c with pool := amSet c.pool (extBlock c (s.here % 4) i) v }
  | .queue n => pushQ s n.val v
def writeV (s : State) (o : VOp) (v : V512) : State := writeVD s (resolveV s o) v

/-- Times that a queue register is named among sources. -/
def popsOf (q : Fin 16) (l : List VOp) : Nat := (l.filter fun o => o == .q q).length
/-- The pops and the push that an instruction needs can be made (R18, R57). -/
def queuesReady (s : State) (srcs : List VOp) (dst : Option VOp) : Bool :=
  (srcs.all fun o => match o with
    | .q n => decide (popsOf n srcs ≤ qLen s.core n.val)
    | _ => true) &&
  (match dst with
    | some (.q n) => decide (qLen s.core n.val + qHeld s n.val + 1 ≤ qCap s.core s.th (s.here % 4) n.val + popsOf n srcs)
    | _ => true)
/-- Readiness of the queue registers, then the bounds of the relative operands, SA, SB, SC, DST (R55, R57, R63 step 6). -/
def vecChecks (s : State) (srcs : List VOp) (dst : Option VOp) : Except Stop Unit := do
  ready (queuesReady s srcs dst)
  require ((srcs ++ dst.toList).all (vopOk s)) cBOUNDS 0

/-- Active elements of width `w` take the new values; the others keep those of the old register (R136). -/
def mergeElems (w : Nat) (pv : W16) (new : Nat → Nat) (old : V512) : V512 :=
  ofElems w ((List.range (512 / w)).map fun n => if elemOn pv w n then new n else elem w old n)

end Machine
end Sys2Proof
end

