-- ==== Sys2Proof/Machine/Flags.lean ====
section
/-!
DEFINITION. Flags: results of elements with their exception conditions, the union of the conditions over the active
elements (R81, R82), and the pairwise trees of R95 and R96 with the conditions of their nodes.
-/
namespace Sys2Proof
namespace Machine

/-- Extension of a `w`-bit result to a scalar register by the type's signedness (R103). -/
def extendTo (t : Ty) (x : Nat) : W64 := if t.isI then sext64 t.w x else zext64 t.w x

/-- Union of conditions. -/
def orAll (l : List Nat) : Nat := l.foldl Nat.lor 0

/-- Result of an element-wise form: the destination's value and the conditions of its active elements (R82, R136). -/
def mapElems (w : Nat) (pv : W16) (f : Nat → Nat × Nat) (old : V512) : V512 × Nat :=
  let l := (List.range (512 / w)).map fun n => if elemOn pv w n then f n else (elem w old n, 0)
  (ofElems w (l.map (·.1)), orAll (l.map (·.2)))

/-- A value of the tree of R95: absent, or a pattern with the conditions of the nodes that made it. -/
abbrev TreeVal := Option (Nat × Nat)
/-- A node of the tree (R95). -/
def treeNode (f : Nat → Nat → Nat × Nat) (a b : TreeVal) : TreeVal :=
  match a, b with
  | none, b => b
  | a, none => a
  | some x, some y => let r := f x.1 y.1; some (r.1, Nat.lor (Nat.lor x.2 y.2) r.2)
/-- One level of the tree. -/
def treeLevel (f : Nat → Nat → Nat × Nat) : List TreeVal → List TreeVal
  | a :: b :: l => treeNode f a b :: treeLevel f l
  | l => l
/-- The root of the tree over 2^n values (R95). -/
def treeRoot (f : Nat → Nat → Nat × Nat) : Nat → List TreeVal → TreeVal
  | 0, l => l.headD none
  | n + 1, l => treeRoot f n (treeLevel f l)
/-- Output `i` of a scan: the root of the tree over elements 0 to `i`, the rest absent (R96). -/
def scanOut (f : Nat → Nat → Nat × Nat) (n : Nat) (l : List TreeVal) (i : Nat) : TreeVal :=
  treeRoot f n ((List.range l.length).map fun j => if j ≤ i then l.getD j none else none)

/-- The operation of a reduction or scan node (R95, R141, R154): pattern and conditions. -/
def nodeOp (t : Ty) (op : AOp) (rnd : Rnd) (a b : Nat) : Nat × Nat :=
  if t.isInt then aopElem t op a b
  else match op with
    | .min => fMinMax false t a b
    | .max => fMinMax true t a b
    | _ => fAdd t rnd false a b

/-- A comparison of two integers (R109). -/
def intCmp (cc : Cc) (a b : Int) : Bool :=
  match cc with
  | .eq => decide (a = b)
  | .ne => decide (a ≠ b)
  | .lt => decide (a < b)
  | .le => decide (a ≤ b)
  | .gt => decide (b < a)
  | .ge => decide (b ≤ a)
  | _ => false

/-- Comparison of two elements of a type: whether it holds, and its conditions (R109, R147). -/
def cmpElem (t : Ty) (cc : Cc) (a b : Nat) : Bool × Nat :=
  if t.isInt then (intCmp cc (intVal t a) (intVal t b), 0) else fCmp t cc a b

end Machine
end Sys2Proof
end

