-- ==== Sys2Proof/Machine/Access.lean ====
section
/-!
DEFINITION. Access: the performance of accesses that have issued. C accesses in program order (R280): loads from the L1, from a
pool or at home by way of routers and miss tables (R250, R255, R283), stores and atomics at home with their acknowledgements
(R250, R260 to R264); K loads (R248).
-/
namespace Sys2Proof
namespace Machine

/-! ### Formats of the converting load (R88, R89, R150) -/

/-- Format, scaling and reading of a tag (R88). -/
def tagFormat (tag : Nat) : Option (Ty × Bool × Rd) := match tag with
  | 1 => some (.e4m3, false, .fin)
  | 2 => some (.e4m3, false, .nan)
  | 3 => some (.e4m3, false, .ieee)
  | 4 => some (.e5m2, false, .fin)
  | 5 => some (.e5m2, false, .nan)
  | 6 => some (.e5m2, false, .ieee)
  | 7 => some (.e4m3, true, .fin)
  | 8 => some (.e4m3, true, .nan)
  | 9 => some (.e4m3, true, .ieee)
  | 10 => some (.e5m2, true, .fin)
  | 11 => some (.e5m2, true, .nan)
  | 12 => some (.e5m2, true, .ieee)
  | 13 => some (.e2m1, true, .fin)
  | 14 => some (.f16, false, .ieee)
  | 15 => some (.bf16, false, .ieee)
  | _ => none
/-- Reading of an explicitly named format (R89). -/
def readingFor (rd : Rd) (src : Ty) (tag : Nat) : Rd :=
  if src.isF then .ieee
  else if rd ≠ .tag then rd
  else match tagFormat tag with
    | some (t, _, r) => if t = src then r else .fin
    | none => .fin
/-- A value times an E8M0 scale (R87, R88). -/
def scaleFV (v : FV) (sc : Nat) : FV :=
  if sc = 255 then .nan false
  else match v with
    | .fin n m e => .fin n m (e + (sc : Int) - 127)
    | v => v
/-- The value of an E2M1 code of a block with a special byte (R86, R87). -/
def e2m1Block (code special : Nat) : FV := if code = 8 then fdec .e4m3 .fin special else fdec .e2m1 .fin code

/-- Block of E2M1 codes that an address names (R150). -/
def e2m1Place (o nb : Nat) : Option Nat := (List.range 14).find? fun b =>
  decide (18 * b ≤ o) && (o - 18 * b) % nb == 0 && decide (o - 18 * b + nb ≤ 16)

/-- How a converting load reads (R150): its bytes, whether its address is aligned, the format and reading of its elements unless
they are raw, whether the sidecar's scale applies, and its E2M1 block. -/
structure ConvPlan where
  nb : Nat
  ok : Bool
  fmt : Option (Ty × Rd)
  scaled : Bool
  block : Option Nat
/-- The plan under the tag that the line carries (R88, R89, R150). -/
def convPlan (o : MemC) (ea : W64) (tag : Nat) : ConvPlan :=
  let nd := 512 / o.t.w
  let packed := fun (t : Ty) (rd : Rd) (scaled : Bool) =>
    ({ nb := nd * t.w / 8, ok := ea.toNat % (nd * t.w / 8) == 0, fmt := some (t, rd), scaled := scaled, block := none } : ConvPlan)
  if o.src ≠ .auto then packed o.src (readingFor o.rd o.src tag) false
  else match tagFormat tag with
    | none => { nb := 64, ok := ea.toNat % 64 == 0, fmt := none, scaled := false, block := none }
    | some (.e2m1, _, _) =>
      let b := e2m1Place (ea.toNat % 256) (nd / 2)
      { nb := nd / 2, ok := b.isSome, fmt := some (.e2m1, .fin), scaled := false, block := b }
    | some (t, scaled, rd) => packed t rd scaled
/-- Address of an E2M1 block's scale, which its special byte follows (R87). -/
def blockScale (pa b : Nat) : Nat := pa / 256 * 256 + 18 * b + 16
/-- Sectors that a plan reads. -/
def planSecs (pa : Nat) (p : ConvPlan) : List Nat :=
  (sectorRange pa p.nb ++ match p.block with
    | some b => sectorRange (blockScale pa b) 2
    | none => []).eraseDups

/-- Element `n` as the load decodes it (R86 to R89, R150): `rd` gives the bytes at an address, `side` the sidecar's scale. -/
def convElem (o : MemC) (p : ConvPlan) (pa : Nat) (rd : (a n : Nat) → Nat) (side : Nat) (n : Nat) : Nat × Nat := match p.fmt with
  | none => (bitsOf (rd pa p.nb) (o.t.w * n) o.t.w, 0)
  | some (t, r) =>
    let code := bitsOf (rd pa p.nb) (t.w * n) t.w
    encFV o.t .ieee .rne false (match p.block with
      | some b => scaleFV (e2m1Block code (rd (blockScale pa b + 1) 1)) (rd (blockScale pa b) 1)
      | none => if p.scaled then scaleFV (fdec t r code) side else fdec t r code)

/-- The active elements are written, with their conditions (R150). -/
def convWrite (o : MemC) (mask : W16) (d : VDst) (f : Nat → Nat × Nat) (s : State) : State :=
  let r := mapElems o.t.w mask f (oldV s d)
  writeVD (orFlags s r.2) d r.1

/-! ### Accesses that issue (R19, R280) -/

/-- A C access joins the thread set's accesses. -/
def issueC (s : State) (q : CReq) : State := withTh s fun t => { t with creqs := t.creqs ++ [q] }
/-- An access of memory as it issues. -/
def memReq (x : Xl) (kind : CKind) (va : W64) (bytes : List (Nat × Byte)) (dst : Nat) : CReq :=
  { kind := kind, pool := false, va := va, pa := x.pa, slot := x.slot, bytes := bytes, noL1 := x.noL1, dst := dst, behind := none,
    stale := false, acq := 0, atHome := false, joined := false, merged := [], performed := false, wts := 0, after := [], reply := 0, flags := 0 }
/-- An access of the pool window as it issues (R242): `off` is its pool offset. -/
def poolReq (off : Nat) (kind : CKind) (va : W64) (bytes : List (Nat × Byte)) (dst : Nat) : CReq :=
  { memReq ⟨off, 0, true, false⟩ kind va bytes dst with pool := true }

/-- The access reads and returns no acknowledgement. -/
def CKind.isRead (k : CKind) : Bool := match k with
  | .load _ | .vload _ _ | .gath _ _ _ _ | .pref | .conv _ _ _ => true
  | .store | .amo _ _ _ | .cas _ _ _ | .cas2 _ _ | .join _ _ => false
/-- Sectors that a read reads. -/
def readSecs (r : CReq) : List Nat := match r.kind with
  | .gath _ _ offs _ => (offs.map fun e => (r.pa + e.2) / 64).eraseDups
  | _ => [r.pa / 64]

/-- A load's entry in the active lanes over the old register (R119). -/
def lanesOver (pv : W16) (data : Nat) (old : V512) : V512 :=
  mergeElems 32 pv (fun l => bitsOf data (32 * l) 32) old
/-- A read of the focus thread set takes its value, with `rd` the bytes at an address and `tag` that of its sector (R118, R119, R150,
R157). -/
def landRead (r : CReq) (tag : Nat) (rd : (a n : Nat) → Nat) (s : State) : State := match r.kind with
  | .load t => withRf s fun f => rfSetS f r.dst (extendTo t (rd r.pa (t.w / 8)))
  | .vload m d => writeVD s d (lanesOver m (rd r.pa 64) (oldV s d))
  | .gath w m offs d => writeVD s d (mergeElems w m (fun n => match amFind offs n with
      | some o => rd (r.pa + o) (w / 8)
      | none => 0) (oldV s d))
  | .conv o m d => convWrite o m d (convElem o (convPlan o r.va tag) r.pa rd 0) s
  | _ => s
/-- The oldest C access of the focus thread set is complete. -/
def endC (s : State) : State := withTh s fun t => { t with creqs := t.creqs.drop 1 }
/-- Bytes among copies. -/
def readCopies (l : AMap L1Copy) (a n : Nat) : Nat := sectorNat (copyAt l (a / 64)) (a % 64) n

/-! ### Reads at home (R250, R255, R283) -/

/-- A copy for a reader that merged into an older read: its lease ends 64 after the later of the write time and its own program
timestamp, and no later than home granted (R283). -/
def mergedCopy (pts rts : Nat) (c : L1Copy) : L1Copy := { c with le := min (max c.wts pts + 64) rts }
/-- The reply reaches the oldest C read of a thread set. -/
def takeReply (s : State) (g : Nat) (cs : AMap L1Copy) : State :=
  let f := focus s g
  match f.th.creqs with
  | [] => s
  | r :: _ =>
    let mine := cs.filter fun e => (readSecs r).contains e.1
    focus (endC (landRead r (copyAt mine (r.pa / 64)).tag (readCopies mine) (raisePts (keepCopies f r.noL1 mine) (copiesWts mine)))) s.here
/-- The oldest C reads of thread sets, each with its thread set. -/
def headReads (s : State) (l : List Nat) : List (Nat × CReq) := l.filterMap fun h => (threadAt s h).creqs.head?.map fun r => (h, r)
/-- Home serves a read and those merged into it: one read, at the time of the older (R283). -/
def serveRead (g : Nat) (r : CReq) (secs : List Nat) (s : State) : State :=
  let c := leaseHome s ((getCore s (coreNo g)).ctx.getD 0) r.slot (threadAt s g).pts secs
  r.merged.foldl (fun s h =>
    takeReply s h (c.1.map fun e => (e.1, mergedCopy (threadAt s h).pts (getLine s (e.1 / 4)).rts e.2))) (takeReply c.2 g c.1)

/-- Sectors that their lines do not hold. -/
def missing (s : State) (secs : List Nat) : List Nat := secs.filter fun sec => !bitOf (getLine s (sec / 4)).valid.toNat (sec % 4)
/-- A missing sector joins its line's entry of a miss table or takes a new one of 64; an entry for another slot is waited for
(R255, R363). -/
def joinMiss (ctx slot : Nat) (m : List Miss) (sec : Nat) : Option (List Miss) :=
  match m.find? (·.line == sec / 4) with
  | some e =>
    if e.ctx = ctx ∧ e.slot = slot then
      some (m.map fun x => if x.line = sec / 4 then { x with secs := (x.secs ++ [sec]).eraseDups } else x)
    else none
  | none => if m.length < 64 then some (m ++ [⟨sec / 4, ctx, slot, [sec]⟩]) else none
/-- Missing sectors of one slice all in its miss table. -/
def joinAll (ctx slot : Nat) (m : List Miss) (secs : List Nat) : Option (List Miss) :=
  secs.foldl (fun m sec => m.bind fun m => joinMiss ctx slot m sec) (some m)
/-- The oldest read of a thread set has left the routers (R283). -/
def arrived (s : State) (g : Nat) : State :=
  onThread s g fun t => { t with creqs := match t.creqs with
    | r :: l => { r with atHome := true } :: l
    | [] => [] }
/-- A read waits in the input buffer of a slice (R255); none when it does already. -/
def waitAt (s : State) (k g : Nat) : Option State :=
  if (getClu s k).inbuf.contains g then none
  else some (onClu (arrived s g) k fun c => { c with inbuf := c.inbuf ++ [g] })
/-- A read leaves the input buffer. -/
def leaveBuf (s : State) (k g : Nat) : State := onClu s k fun c => { c with inbuf := c.inbuf.filter (· != g) }
/-- The oldest C read of a thread set at its home: it is served, its sectors enter the miss table, or it waits in the input buffer,
where reads of the class keep their order (R255; log 70). None when nothing changes. -/
def readAtHome (g : Nat) (r : CReq) (s : State) : Option State :=
  let k := homeOf r.pa
  let buf := (getClu s k).inbuf
  let inTable := r.atHome && !buf.contains g
  if !inTable && !buf.isEmpty && buf.head? != some g then waitAt s k g
  else
    let secs := ((readSecs r) ++ (headReads s r.merged).flatMap fun e => readSecs e.2).eraseDups
    let t := ((secs.map (· / 4)).eraseDups).foldl (fun s l => touchLine s r.slot l) s
    let miss := missing t secs
    if miss.isEmpty then some (serveRead g r secs (leaveBuf t k g))
    else
      let ctx := (getCore s (coreNo g)).ctx.getD 0
      match joinAll ctx r.slot (getClu s k).miss miss with
      | some m =>
        if inTable && m == (getClu s k).miss then none
        else some (onClu (arrived (leaveBuf s k g) g) k fun c => { c with miss := m })
      | none => waitAt s k g

/-! ### Performance of C accesses (R242, R250, R280) -/

/-- A pool-window access of the focus thread set is performed (R242), in its place in the order of the C accesses (R281; log 73). The
pool carries no tag. -/
def poolAccess (r : CReq) (s : State) : State :=
  endC (if r.kind.isRead then landRead r 0 (fun a n => ofBytes (poolBytesAt s.core.pool a n)) (poolLoaded s)
    else withCore (poolStored s) fun c => { c with pool := poolPutAll c.pool r.bytes })
/-- A read of one sector that the L1 serves (R250): the state with its value taken. A gather is one read at home (R158). -/
def readL1 (r : CReq) (s : State) : Option State := match r.kind with
  | .gath _ _ _ _ => none
  | _ => (loadL1 s ⟨r.pa, r.slot, r.noL1, false⟩).map fun v => endC (landRead r v.1.tag (fun a n => sectorNat v.1 (a % 64) n) v.2)
/-- A thread set's translation afresh of an address whose entry a shoot-down has removed (R384). One that fails leaves the access
waiting, for a repair of the table (DESIGN CHOICE, log 76). -/
def xlateAfresh (s : State) (g : Nat) (acc : Acc) (va : W64) : Option (Xl × State) :=
  match xlateCore (focus s g) acc false va.toNat with
  | .ok x t => some (x, focus t s.here)
  | _ => none
/-- The oldest C access of a thread set, whose translation a shoot-down has removed, translates afresh (R384). -/
def freshHead (g : Nat) (s : State) : Option State := match (threadAt s g).creqs with
  | [] => none
  | r :: l => (xlateAfresh s g (if r.kind.isRead then .read else .write) r.va).map fun y =>
    let q := { r with pa := y.1.pa, slot := y.1.slot, noL1 := y.1.noL1, stale := false,
                      bytes := r.bytes.map fun e => (y.1.pa + e.1 - r.pa, e.2) }
    onThread y.2 g fun t => { t with creqs := q :: l }
/-- The oldest C access of a thread set is performed, when it is a read or an access of the pool window (R250, R280), or translates
afresh. -/
def evAccess (g : Nat) (s : State) : Option State :=
  let f := focus s g
  match f.th.creqs with
  | [] => none
  | r :: _ =>
    if r.pool then some (focus (poolAccess r f) s.here)
    else if r.stale then freshHead g s
    else if !r.kind.isRead || r.joined then none
    else match (if r.merged.isEmpty && !r.atHome then readL1 r f else none) with
      | some f => some (focus f s.here)
      | none => readAtHome g r s

/-- A read on its way to home, not merged into another. -/
def enRoute (r : CReq) : Bool := r.kind.isRead && !r.pool && !r.stale && !r.joined && !r.atHome
/-- Two reads are of one line under one key slot. -/
def sameLine (r o : CReq) : Bool := r.slot == o.slot && (readSecs r).all fun x => (readSecs o).all fun y => x / 4 == y / 4
/-- The one C read that the focus thread set has issued takes its value at once. -/
def settleRead (s : State) : State := match s.th.creqs with
  | r :: _ => if r.pool then poolAccess r s else (readL1 r s).getD (serveRead s.here r (readSecs r) s)
  | [] => s

/-- A router merges the oldest C read of a thread set into an older one of the same line, which has not left for home (R283). -/
def evMerge (g older : Nat) (s : State) : Option State :=
  match (threadAt s g).creqs, (threadAt s older).creqs with
  | r :: l, o :: m =>
    if g ≠ older ∧ enRoute r ∧ enRoute o ∧ r.merged.isEmpty ∧ sameLine r o ∧
        (threadAt s g).pts ≤ (threadAt s older).pts + 64 ∧ (readL1 r (focus s g)).isNone then
      let s := onThread s g fun t => { t with creqs := { r with joined := true } :: l }
      some (onThread s older fun t => { t with creqs := { o with merged := o.merged ++ [g] } :: m })
    else none
  | _, _ => none

/-- Bytes that an atomic reads and writes. -/
def CKind.size (k : CKind) : Nat := match k with
  | .amo t _ _ | .cas t _ _ => t.w / 8
  | .cas2 _ _ => 16
  | .join _ _ => 8
  | _ => 0
/-- What a read-modify-write makes of an old value, with its conditions (R262 to R264, R328). -/
def rmwOf (k : CKind) (old : Nat) : Nat × Nat := match k with
  | .amo t op b => aopElem t op old b.toNat
  | .cas t b c => (if old = b.toNat % 2 ^ t.w then c.toNat else old, 0)
  | .cas2 b c => (if old = b.toNat then c.toNat else old, 0)
  | .join b _ => (wrapTo 64 (signedOf 64 old + signedOf 64 b.toNat), 0)
  | _ => (old, 0)
/-- The written sectors as they stand at home. -/
def sectorsAfter (s : State) (slot : Nat) (l : List (Nat × Byte)) : List (Nat × V512) :=
  (sectorsOf l).map fun sec => (sec, sectorAs s (keyOf s slot) sec)
/-- Home performs a write of a thread set's oldest access, with the reply that will reach it (R250). -/
def performWrite (s : State) (g ctx : Nat) (r : CReq) (bytes : List (Nat × Byte)) (old fl : Nat) : State :=
  let w := homeWrite s ctx r.slot .C (threadAt s g).pts bytes
  let r := { r with performed := true, wts := w.1, after := sectorsAfter w.2 r.slot bytes, reply := BitVec.ofNat 128 old,
                    flags := BitVec.ofNat 5 fl }
  onThread w.2 g fun t => { t with creqs := r :: t.creqs.drop 1 }
/-- The matrix command that an access waits for is in the queue of the thread set's core or in the unit (R45, R261). -/
def behindCmd (s : State) (g : Nat) (n : Option Nat) : Bool := match n with
  | some n => (getCore s (coreNo g)).mq.any fun c => c.ts == g % 4 && decide (c.num ≤ n)
  | none => false
/-- Home performs the oldest C access of a thread set, a store or an atomic (R250, R260 to R264, R280). -/
def performC (s : State) (g : Nat) : Option State :=
  match (threadAt s g).creqs with
  | [] => none
  | r :: _ =>
    if r.pool || r.stale || r.performed || r.kind.isRead || behindCmd s g r.behind then none
    else
      let ctx := (getCore s (coreNo g)).ctx.getD 0
      some (match r.kind with
        | .store => performWrite s g ctx r r.bytes 0 0
        | k =>
          let rd := homeRead s ctx r.slot r.pa k.size
          let v := rmwOf k (ofBytes rd.1)
          performWrite rd.2 g ctx r (atAddr r.pa (toBytes k.size v.1)) (ofBytes rd.1) v.2)

/-- A core's copy of a written sector (R250): it takes the sector as home held it right after the write, its write time and lease end
that write's time. A copy of later data stands; one under another slot goes. -/
def updateCopy (slot wts : Nat) (l1 : AMap L1Copy) (e : Nat × V512) : AMap L1Copy := match amFind l1 e.1 with
  | some c =>
    if wts ≤ c.wts then l1
    else if c.slot = slot then amSet l1 e.1 { c with data := e.2, wts := wts, le := wts }
    else amDel l1 e.1
  | none => l1
/-- A value that an atomic returns, extended to a scalar register (R262, R263). -/
def replyOf (t : Ty) (r : CReq) : W64 := if t.isI then sext64 t.w r.reply.toNat else zext64 t.w r.reply.toNat
/-- Registers after the reply of an atomic (R262 to R264, R328). -/
def rfReply (rf : Regs) (r : CReq) : Regs := match r.kind with
  | .amo t _ _ => rfOrFlags (rfSetS rf r.dst (replyOf t r)) r.flags.toNat
  | .cas t _ _ => rfSetS rf r.dst (replyOf t r)
  | .join _ _ => rfSetS rf r.dst (replyOf .i64 r)
  | .cas2 _ _ => rfSetS (rfSetS rf r.dst (zext64 64 r.reply.toNat)) (r.dst + 1) (zext64 64 (r.reply.toNat / 2 ^ 64))
  | _ => rf
/-- The acknowledgement or reply of the performed access reaches its thread set (R250, R260, R262 to R264). -/
def ackC (s : State) (g : Nat) : Option State :=
  match (threadAt s g).creqs with
  | [] => none
  | r :: l =>
    if !r.performed then none
    else
      let s := onThread s g fun t => { t with rf := rfReply t.rf r, creqs := l, pts := max t.pts r.wts }
      some (onCore s (coreNo g) fun c => { c with l1 := r.after.foldl (updateCopy r.slot r.wts) c.l1 })

/-- The acknowledgement of a C write that the focus thread set has waited for in its instruction (R250, R311, R328). -/
def ackNow (slot wts : Nat) (l : List (Nat × Byte)) (s : State) : State :=
  raisePts (withCore s fun c => { c with l1 := (sectorsAfter s slot l).foldl (updateCopy slot wts) c.l1 }) wts

/-- Nothing of a thread set's accesses is merged any more, and no read waits for one of its (R283): it stops. -/
def partReads (s : State) (g : Nat) : State :=
  let free := fun (l : List Nat) (s : State) => l.foldl (fun s h => onThread s h fun t =>
    { t with creqs := t.creqs.map fun r => { r with joined := false } }) s
  let s := match (threadAt s g).creqs with
    | r :: _ => leaveBuf (free r.merged s) (homeOf r.pa) g
    | [] => s
  let apart := fun (t : Thread) => { t with creqs := t.creqs.map fun r => { r with merged := r.merged.filter (· != g) } }
  { s with th := apart s.th, core := { s.core with threads := s.core.threads.map apart },
           cores := s.cores.map fun e => (e.1, { e.2 with threads := e.2.threads.map apart }) }

/-! ### K loads (R121, R247, R248, R284) -/

/-- A K load joins the thread set's K loads. -/
def issueK (s : State) (q : KReq) : State := withTh s fun t => { t with kreqs := t.kreqs ++ [q] }
/-- A K load of the focus thread set takes its value (R121, R247, R248). -/
def landK (s : State) (q : KReq) : State :=
  let d := loadK s ⟨q.pa, q.slot, q.noL1, false⟩
  match q.vec with
  | none => withRf d.2 fun r => rfSetS r q.dst (extendTo q.ty (sectorNat d.1 (q.pa % 64) (q.ty.w / 8)))
  | some (m, v) => writeVD d.2 v (lanesOver m (sectorNat d.1 0 64) (oldV d.2 v))
/-- The one K load that the focus thread set has issued takes its value at once. -/
def settleK (s : State) : State := match s.th.kreqs with
  | q :: _ => landK (withTh s fun t => { t with kreqs := [] }) q
  | [] => s
/-- A K load of a thread set takes its value: the `n`-th that waits, when no earlier one reads its sector (R284). -/
def evKread (g n : Nat) (s : State) : Option State :=
  let f := focus s g
  match f.th.kreqs[n]? with
  | none => none
  | some q =>
    if (f.th.kreqs.take n).any fun e => e.pa / 64 == q.pa / 64 then none
    else some (focus (landK (withTh f fun t => { t with kreqs := t.kreqs.eraseIdx n }) q) s.here)

end Machine
end Sys2Proof
end

