-- ==== Sys2Proof/Machine/Waits.lean ====
section
/-!
DEFINITION. Waits: when the accesses of a path set are performed, what a fence does then, and the release and acquire points
(R285 to R289, R292, R305).
-/
namespace Sys2Proof
namespace Machine

/-- A path set names a path (R52). -/
def names (b : PathSet) (p : Path) : Bool := bitOf b.toNat (pathCode p)
/-- Commands of a thread set that its cluster's copy engine holds. -/
def copiesOf (s : State) (g : Nat) (gather : Bool) : List Copy :=
  (getClu s (cluOf (coreNo g))).cq.filter fun c => c.g == g && c.gather == gather
/-- Unacknowledged P writes of a thread set (R296, R300). -/
def pWritesOf (s : State) (g : Nat) : List Packet := s.packets.filter fun p => p.g == g
/-- The handle of the ray that a slot holds (R191). -/
def handleOf (k n : Nat) (r : Ray) : W64 := BitVec.ofNat 64 (r.gen % 4096 * 2 ^ 20 + bit r.rig.is64 * 2 ^ 19 + k % 512 * 2 ^ 10 + n % 1024)
/-- A live handle's cluster, slot and ray (R191, R192). -/
def rayAt (s : State) (h : W64) : Option (Nat × Nat × Ray) :=
  let k := fieldOf h 10 9
  let n := fieldOf h 0 10
  match amFind (getClu s k).rays n with
  | some r => if r.st ≠ .free ∧ k < numClusters ∧ handleOf k n r = h then some (k, n, r) else none
  | none => none
/-- A ray that has left traversal: DONE, or its slot is no longer that ray's (R287). -/
def rayQuiet (s : State) (h : W64) : Bool := match rayAt s h with
  | some (_, _, r) => r.st ≠ .run
  | none => true
/-- Matrix commands of a thread set that its core's queue or the unit holds. -/
def matrixOf (s : State) (g : Nat) : List MCmd := (getCore s (coreNo g)).mq.filter fun c => c.ts == g % 4

/-- Every earlier access of the focus thread set on the paths of a set is performed (R285, R286). Slot j + 1 of a pair does not wait
at issue for a command of slot j (R45). -/
def quietOn (s : State) (b : PathSet) : Bool :=
  (!names b .C || s.th.creqs.isEmpty) &&
  (!names b .K || s.th.kreqs.isEmpty) &&
  (!names b .X || (copiesOf s s.here false).isEmpty) &&
  (!names b .G || (s.th.amsgs.isEmpty && (copiesOf s s.here true).isEmpty)) &&
  (!names b .U || s.th.ureqs.isEmpty) &&
  (!names b .M || (matrixOf s s.here).all fun c => decide (vwCmds s < c.num)) &&
  (!names b .T || s.th.rays.all (rayQuiet s)) &&
  (!names b .P || (pWritesOf s s.here).isEmpty) &&
  (!names b .H || s.th.hreqs.isEmpty)
/-- Every path. -/
def allPaths : PathSet := 511

/-- Greatest time of an access performed on the paths of a set; path C is left to the program timestamps (R250, R290; log 73). -/
def timeOn (s : State) (b : PathSet) : Nat :=
  [Path.K, .X, .G, .U, .M, .T, .P, .H].foldl (fun m p => if names b p then max m (s.pathTime.toList.getD (pathCode p) 0) else m) 0
/-- Every copy in an L1 serves later K reads only under a lease (R287). -/
def markLeased (c : CoreSt) : CoreSt := { c with l1 := c.l1.map fun e => (e.1, { e.2 with leased := true }) }
/-- Later accesses on the paths of a set other than C and K come at a time or after it (R290; log 73). -/
def fenceOff (s : State) (a : PathSet) (t : Nat) : State :=
  { s with fenced := Vector.ofFn fun i => if 2 ≤ i.val ∧ bitOf a.toNat i.val then max s.fenced[i] t else s.fenced[i] }
/-- A set of a fence names U: the U copies of the cluster merge home (R286, R287). -/
def mergeNamed (s : State) (b a : PathSet) : State := if names b .U || names a .U then mergeAllU s (myClu s) else s
/-- What a fence does once its waits have ended (R286, R287): later accesses on the paths of `a` come after those on the paths of `b`, so
that no lease from before a write on a path of `b` serves a later read, nor shows a later write first (R290; log 73). -/
def fenceEffects (s : State) (b a : PathSet) : State :=
  let s := mergeNamed s b a
  let s := if names a .C || names a .K then raisePts s (timeOn s b) else s
  let s := fenceOff s a (max (if names b .C then s.th.pts else 0) (timeOn s b))
  if names a .K then withCore s markLeased else s

/-- A release point of the focus thread set (R292): the cluster's U copies merge, and acquires come after its accesses (log 73). -/
def release (s : State) : State :=
  let s := mergeAllU s (myClu s)
  { s with released := max s.released (max s.th.pts (timeOn s allPaths)) }
/-- An acquire point of the focus thread set, on every path (R292; log 73). -/
def acquire (s : State) : State := withCore (fenceOff (raisePts s s.released) allPaths s.released) markLeased

/-- A deferred P trap (R305): the latch clears and the instruction traps at itself. -/
def latchTrap (s : State) : Option State :=
  match s.th.platch with
  | some (c, w) => some (takeTrap (withTh s fun t => { t with platch := none }) (trapOf c w))
  | none => none
/-- The waits of a fence with sets `b` and `a` have ended: U named in either set waits for the thread set's reds (R286, R287). -/
def fenceQuiet (s : State) (b a : PathSet) : Bool := quietOn s b && (!names a .U || s.th.ureqs.isEmpty)
/-- Runs `k` after the waits and merges of a fence with sets `b` and `a`, or takes the deferred trap when `b` names P (R286, R287,
R305). -/
def afterWait (s : State) (b a : PathSet) (k : State → Except Stop State) : Except Stop State := do
  ready (fenceQuiet s b a)
  let s := mergeNamed s b a
  match (if names b .P then latchTrap s else none) with
  | some s' => .ok s'
  | none => k s

end Machine
end Sys2Proof
end

