-- ==== Sys2Proof/Machine/Records.lean ====
section
/-!
DEFINITION. Records: the layout of a core's saved record and of a thread-set block (R386, R387), as little-endian numbers.
-/
namespace Sys2Proof
namespace Machine

/-- A field of a record: its byte offset and its value; fields do not overlap. -/
abbrev Part := Nat × Nat
/-- The number whose bytes hold the fields. -/
def layOut (l : List Part) : Nat := l.foldl (fun acc e => acc + e.2 * 2 ^ (8 * e.1)) 0
/-- Equal fields one after another. -/
def layRow (off size : Nat) (l : List Nat) : List Part := (List.range l.length).zipWith (fun i v => (off + size * i, v)) l

/-- State code of R387. -/
def tsCode (t : TsState) : Nat := match t with
  | .idle => 0 | .task => 1 | .activation => 2 | .halted => 3 | .stopped => 4 | .blocked => 5
/-- State word of R387, bytes 8 to 15. -/
def stateWord (t : Thread) : Nat :=
  tsCode t.st + (match t.act with
    | some a => a.resNo % 4 * 2 ^ 8 + a.cls % 16 * 2 ^ 12
    | none => 0) + bit t.solo * 2 ^ 16 + bit t.ptgt.isSome * 2 ^ 17
/-- Fault latches of R387, bytes 56 to 63. -/
def latchWord (t : Thread) : Nat :=
  (match t.mlatch with
    | some m => 1 + m * 2 ^ 8
    | none => 0) +
  (match t.platch with
    | some (c, _) => 2 ^ 16 + c * 2 ^ 24
    | none => 0)
/-- Form and rank of a shape record (R387). -/
def shapeBytes (x : Shape) : Nat := match x with
  | .zero => 0
  | .factor r => 1 + 256 * r
  | .dense => 2
  | .pending r => 1 + 256 * r
/-- Registers of bytes 432 to 543, in the order of R387. -/
def savedSpecs (r : Regs) : List W64 :=
  [r.frame, r.flags, r.mtol, r.mrmax, r.ivstop, r.mweight, r.rngkey, r.trapvec, r.upvec, r.ffbase, r.faultinfo, r.faultaddr,
   r.unit, r.lpb]

/-- A thread-set block (R387). The granule maps are free values, as R387 gives them no layout (log 6). -/
def threadBlock (s : State) (g : Nat) : Nat :=
  let t := threadAt s g
  let ctx := (getCore s (coreNo g)).ctx.getD 0
  layOut ([(0, t.pc.toNat), (8, stateWord t), (16, t.task.toNat), (48, t.busy.toNat), (56, latchWord t),
      (64, match t.platch with
        | some (_, w) => w.toNat
        | none => 0), (72, (t.ptgt.getD 0).toNat)]
    ++ layRow 128 8 ((t.rf.s.toList.map (·.toNat)).set 0 0) ++ layRow 384 2 (0xFFFF :: (t.rf.p.toList.drop 1).map (·.toNat))
    ++ layRow 400 4 (t.rf.x.toList.map (·.toNat)) ++ layRow 432 8 ((savedSpecs t.rf).map (·.toNat))
    ++ layRow 544 8 (t.shadow.toList.map (·.toNat))
    ++ layRow 640 16 ((List.range 8).map fun i =>
        shapeBytes (t.shapes.toList.getD i .zero) + 2 ^ 16 *
          ofBytes ((List.range 14).map fun b => Config.savedRecord ctx g (640 + 16 * i + 2 + b)))
    ++ layRow 1024 64 (t.rf.v.toList.map (·.toNat)))

/-- Cells of a macro, row by row, its exponents and marks (R386). -/
def macroBytes (m : MArr) : List Part := match m with
  | .empty => []
  | .loaded _ cells exps marks _ =>
    layRow 0 1 ((List.range 64).flatMap fun k => cells.map fun c => wrapTo 8 (c.getD k 0)) ++ layRow 4096 2 (exps.map (wrapTo 16)) ++
      [(4224, marks.toNat)]
/-- Macro state byte (R386). -/
def macroCode (t : MTrack) : Nat := match t with
  | .empty => 0 | .single => 1 | .low => 2 | .high => 3

/-- A binding of the binding table (R386). -/
def bindWord (b : Bind) : Nat := b.cls % 16 + 2 ^ 8 * bit b.bound + 2 ^ 9 * bit b.masked

/-- The documented part of a core's 1 MiB record, the pool apart (R386). -/
def coreRecord (s : State) (c : Nat) : Nat :=
  let k := getCore s c
  layOut ([(0, k.pword.toNat)] ++ layRow 8 8 (k.binds.toList.map bindWord) ++ layRow 72 1 (k.q.toList.map (·.length))
    ++ layRow 88 1 (k.mtrack.toList.map macroCode) ++ [(96, k.recprog.toNat % 2 ^ 256)]
    ++ (List.range 4).map (fun t => (4096 + 4096 * t, threadBlock s (4 * c + t)))
    ++ (List.range 16).flatMap (fun q => layRow (20480 + 512 * q) 64 ((qOf k q).map (·.toNat)))
    ++ (List.range 8).flatMap (fun m => (macroBytes (k.macros.toList.getD m .empty)).map fun e => (32768 + 4608 * m + e.1, e.2)))
/-- Byte of a core's record (R386): the layout above, the pool, and free values for the command and instance records and for the
accumulator region, whose placement of granules is not visible (R159, R162; log 6). -/
def recordByte (s : State) (ctx c rec_ off : Nat) : Byte :=
  if 262144 + scrHi (getCore s c) ≤ off then Config.savedRecord ctx c off
  else if 262144 ≤ off then poolByte (getCore s c).pool (off - 262144)
  else if (28672 ≤ off ∧ off < 32768) ∨ (69632 ≤ off ∧ off < 73728) then Config.savedRecord ctx c off
  else BitVec.ofNat 8 (bitsOf rec_ (8 * off) 8)

/-! ### A record loaded (R371, R386, R387) -/

/-- `n` bytes of a record's number from an offset. -/
def recAt (w off n : Nat) : Nat := bitsOf w (8 * off) (8 * n)
/-- The word at an offset. -/
def recWord (w off : Nat) : W64 := BitVec.ofNat 64 (recAt w off 8)
/-- Registers of a thread-set block. -/
def loadRegs (w : Nat) (r : Regs) : Regs :=
  let sp := fun (i : Nat) => recWord w (432 + 8 * i)
  { s := Vector.ofFn fun i => if i.val = 0 then r.s[i] else recWord w (128 + 8 * i.val),
    v := Vector.ofFn fun i => BitVec.ofNat 512 (recAt w (1024 + 64 * i.val) 64),
    p := Vector.ofFn fun i => if i.val = 0 then r.p[i] else BitVec.ofNat 16 (recAt w (384 + 2 * i.val) 2),
    x := Vector.ofFn fun i => BitVec.ofNat 32 (recAt w (400 + 4 * i.val) 4),
    frame := sp 0, flags := sp 1, mtol := sp 2, mrmax := sp 3, ivstop := sp 4, mweight := sp 5, rngkey := sp 6, trapvec := sp 7,
    upvec := sp 8, ffbase := sp 9, faultinfo := sp 10, faultaddr := sp 11, unit := sp 12, lpb := sp 13 }
/-- State of a code of R387; a save writes no other code, and under one the old state stands. -/
def tsOf (code : Nat) (old : TsState) : TsState := match code with
  | 0 => .idle
  | 1 => .task
  | 2 => .activation
  | 3 => .halted
  | 4 => .stopped
  | 5 => .blocked
  | _ => old
/-- Shape of a record of R387. -/
def loadShape (w : Nat) (old : Shape) : Shape := match bitsOf w 0 8, old with
  | 0, _ => .zero
  | 1, .pending _ => .pending (bitsOf w 8 8)
  | 1, _ => .factor (bitsOf w 8 8)
  | 2, _ => .dense
  | _, x => x
/-- A thread set whose block is `w`; what the block's layout does not show stays as it was saved (log 6). -/
def loadThread (w : Nat) (t : Thread) : Thread :=
  let sw := recAt w 8 8
  let latch := recAt w 56 8
  { t with rf := loadRegs w t.rf, pc := recWord w 0, st := tsOf (bitsOf sw 0 3) t.st,
           act := t.act.map fun a => { a with resNo := bitsOf sw 8 2, cls := bitsOf sw 12 4 },
           solo := bitOf sw 16, ptgt := if bitOf sw 17 then some (recWord w 72) else none,
           task := BitVec.ofNat 256 (recAt w 16 32), busy := BitVec.ofNat 32 (recAt w 48 4),
           mlatch := if bitOf latch 0 then some (bitsOf latch 8 3) else none,
           platch := if bitOf latch 16 then some (bitsOf latch 24 8, recWord w 64) else none,
           shadow := Vector.ofFn fun i => recWord w (544 + 8 * i.val),
           shapes := Vector.ofFn fun i => loadShape (recAt w (640 + 16 * i.val) 2) t.shapes[i] }
/-- A macro whose 4,608 bytes are `w`. -/
def loadMacro (w : Nat) (m : MArr) : MArr := match m with
  | .empty => .empty
  | .loaded half _ _ _ bad =>
    let cell := fun (j k : Nat) => if half = 1 then (recAt w (64 * k + j) 1 : Int) else signedOf 8 (recAt w (64 * k + j) 1)
    .loaded half ((List.range 64).map fun j => (List.range 64).map (cell j))
      ((List.range 64).map fun j => signedOf 16 (recAt w (4096 + 2 * j) 2)) (recWord w 4224) bad
/-- Macro state of a code of R386. -/
def trackCode (code : Nat) (old : MTrack) : MTrack := match code with
  | 0 => .empty
  | 1 => .single
  | 2 => .low
  | 3 => .high
  | _ => old
/-- Entries of queue register `q` of a record. -/
def loadQueue (w q : Nat) : List V512 :=
  (List.range (min 8 (recAt w (72 + q) 1))).map fun i => BitVec.ofNat 512 (recAt w (20480 + 512 * q + 64 * i) 64)
/-- Bytes of the pool image that a save takes from the pool map; the accumulator region's contents are the matrix registers'. -/
def loadPool (w : Nat) (c : CoreSt) : AMap V512 :=
  poolPutAll c.pool (atAddr 0 (toBytes (scrHi c) (recAt w 262144 (scrHi c))))
/-- A core whose record is `w` (R371); what the layout does not show stays as it was saved (log 6). -/
def loadCore (w : Nat) (c : CoreSt) : CoreSt :=
  let c := { c with pword := recWord w 0 }
  { c with binds := Vector.ofFn fun i => let b := recAt w (8 + 8 * i.val) 8; ⟨bitsOf b 0 4, bitOf b 8, bitOf b 9⟩,
           q := Vector.ofFn fun i => loadQueue w i.val,
           mtrack := Vector.ofFn fun i => trackCode (recAt w (88 + i.val) 1) c.mtrack[i],
           recprog := BitVec.ofNat 512 (c.recprog.toNat / 2 ^ 256 * 2 ^ 256 + recAt w 96 32),
           macros := Vector.ofFn fun i => loadMacro (recAt w (32768 + 4608 * i.val) 4608) c.macros[i],
           threads := Vector.ofFn fun t => loadThread (recAt w (4096 + 4096 * t.val) 4096) c.threads[t],
           pool := loadPool w c }

/-- Cores bound to a context, ascending (R353, R370). -/
def coresOf (s : State) (ctx : Nat) : List Nat :=
  let mine := if s.core.ctx = some ctx then [myCore s] else []
  let others := s.cores.filterMap fun e => if e.1 ≠ myCore s ∧ e.2.ctx = some ctx then some e.1 else none
  let lower := others.filter fun c => decide (c < myCore s)
  let upper := others.filter fun c => decide (myCore s < c)
  lower ++ mine ++ upper

/-! ### Debug access (R395, R396) -/

/-- Thread set, POOL and OFF that `dsel` selects (R395). -/
def dselTs (c : Context) : Nat := fieldOf c.dsel 0 14
def dselPool (c : Context) : Bool := bitOf c.dsel.toNat 15
def dselOff (c : Context) : Nat := fieldOf c.dsel 16 20
/-- The selected thread set is on a core bound to the context (R395). -/
def dselBound (s : State) (ctx : Nat) : Bool :=
  decide (dselTs (getCtx s ctx) < 4 * numCores) && (getCore s (coreNo (dselTs (getCtx s ctx)))).ctx == some ctx
/-- A halted or stopped thread set (R396). -/
def debuggable (t : Thread) : Bool := t.st == .halted || t.st == .stopped
/-- A pool offset lies in the register or scratchpad region (R396). -/
def debugPoolOk (c : CoreSt) (off : Nat) : Bool := decide (off + 8 ≤ scrHi c)

/-- Read of `ddata` (R396). -/
def readDdata (s : State) (ctx : Nat) : W64 :=
  let c := getCtx s ctx
  let g := dselTs c
  if !dselBound s ctx || !debuggable (threadAt s g) then 0
  else if dselPool c then
    (if debugPoolOk (getCore s (coreNo g)) (dselOff c) then
      BitVec.ofNat 64 (ofBytes (poolBytesAt (getCore s (coreNo g)).pool (dselOff c) 8)) else 0)
  else BitVec.ofNat 64 (bitsOf (threadBlock s g) (8 * dselOff c) 64)
/-- Read of `dcmd` (R395). -/
def readDcmd (s : State) (ctx : Nat) : W64 :=
  if !dselBound s ctx then 0x8000
  else
    let t := threadAt s (dselTs (getCtx s ctx))
    BitVec.ofNat 64 (tsCode t.st + 2 ^ 8 * bit (haBit t.rf))

/-- Numbers of the privileged registers (R353, R395). -/
def privNums : List Nat := [0x800, 0x801, 0x802, 0x803, 0x804, 0x805, 0x806, 0x807, 0x808, 0x809, 0x80A, 0x840, 0x841, 0x842, 0x843, 0x848]
/-- The privileged registers, as `mfs` reads them for the context that `csel` selects (R353, R380, R395). A number that has been used
again in another partition is out of reach (R352): its registers read as 0 there (DESIGN CHOICE, log 76). -/
def readPriv (s : State) (num : Nat) : Option W64 :=
  let ctx := s.th.csel
  let c := getCtx s ctx
  let p := getPart s c.part
  if num ≠ 0x800 ∧ c.part ≠ myPart s then (if privNums.contains num then some 0 else none) else
  match num with
  | 0x800 => some (BitVec.ofNat 64 ctx)
  | 0x801 => some c.hbase
  | 0x802 => some c.hlim
  | 0x803 => some c.hoff
  | 0x804 => some c.ptroot
  | 0x805 => some c.hitbase
  | 0x806 => some c.hitcnt
  | 0x807 => some (BitVec.ofNat 64 c.kvalid.toNat)
  | 0x808 => some (BitVec.ofNat 64 (c.part + p.c0 * 2 ^ 8 + p.c1 * 2 ^ 16 + p.r0 * 2 ^ 24 + p.r1 * 2 ^ 28))
  | 0x809 => some c.savgen
  | 0x80A => some (BitVec.ofNat 64 (coresOf s ctx).length)
  | 0x840 => some c.dbgctl
  | 0x841 => some c.dsel
  | 0x842 => some (readDdata s ctx)
  | 0x843 => some (readDcmd s ctx)
  | 0x848 => some 0
  | _ => none

end Machine
end Sys2Proof
end

