-- ==== Sys2Proof/Machine/System.lean ====
section
/-!
DEFINITION. System: the meanings of the traps, the returns, the special-register moves, the timer and `halt`
(R126 to R131, R133, R393).
-/
namespace Sys2Proof
namespace Machine

/-- A software trap: it restarts at its successor (R128). -/
def softTrap (cause code : Nat) (brk : Bool) : Trap :=
  { cause := cause, addr := 0, acc := 0, code := code, brk := brk, xfer := none, next := true }

/-- The halt of a thread set is complete once its own accesses are (R385 step 2, R393): U copies merge, and the debug event is raised. -/
def haltDone (s : State) : State :=
  let s := release s
  let c := getCtx s (myCtx s)
  let s := if bitOf c.dbgctl.toNat 16 then (raiseEvent s (myCtx s) (some (fieldOf c.dbgctl 8 8))).2 else s
  withTh s fun t => { t with st := .halted, halting := false }
/-- The accesses that a halt waits for, the thread set's own: its commands run on (R393). -/
def haltPaths : PathSet := 0b110010011
/-- Every access that a halt waits for is performed. -/
def haltQuiet (s : State) : Bool := quietOn s haltPaths && s.th.amsgs.isEmpty
/-- A core takes part in a castle that has been chosen (R343 step 1). -/
def castling (s : State) (core : Nat) : Bool := s.parts.any fun e => e.2.chosen.any fun c => c.1 == core || c.2 == core
/-- A halt that was taken can be complete: its accesses are performed, and no chosen castle has its core (R346). -/
def haltReady (s : State) : Bool := haltQuiet s && !castling s (myCore s)
/-- A halt that was taken is complete. -/
def evHaltDone (g : Nat) (s : State) : Option State :=
  let f := focus s g
  if f.th.halting && haltReady f then some (focus (haltDone f) s.here) else none
/-- Entry of debug halt at an instruction address (R393): the thread set issues nothing more, and halts once its accesses are
performed and a castle of its core has ended. -/
def enterHalt (s : State) (pc : W64) (solo : Bool) (pt : Option W64) : State :=
  let s := withTh s fun t => { t with pc := pc, solo := solo, ptgt := pt, res := .trapped, dstep := false, stage := 0, halting := true }
  if haltReady s then haltDone s else s

def execTrap (o : Code) (s : State) : Out := .next
  (bit0Form s o.p (.error (.trap (softTrap cBREAK o.code.toNat false))))
def execSysc (o : Code) (s : State) : Out := .next
  (bit0Form s o.p (.error (.trap (softTrap cSYSCALL o.code.toNat false))))
/-- `brk` (R128): debug halt at itself when the context's BRKEN is set. -/
def execBrk (o : Code) (s : State) : Out := .next
  (bit0Form s o.p (
    if bitOf (getCtx s (myCtx s)).dbgctl.toNat 0 then
      .ok (enterHalt s s.th.ipc s.th.slot1 (if s.th.slot1 then s.th.ptgt else none))
    else .error (.trap (softTrap cBREAK o.code.toNat true))))
/-- `halt` (R114, R133): the thread set halts at the instruction after it. -/
def execHalt (o : Bare) (s : State) : Out := .next
  (bit0Form s o.p (.ok (
    let r := restartOf s.th true
    enterHalt s r.1 r.2.1 r.2.2)))

/-- `tret` (R129). -/
def execTret (o : Bare) (s : State) : Out := .next
  (bit0Form s o.p (do
    require (haBit (vw s)) cILLEGAL 0
    .ok (resumeFrame s (vw s).ffbase.toNat)))
/-- `upret` (R130). Its MISALIGN and BOUNDS traps give the pool offset in S[SA] as `faultaddr`: R130 names none, and R123 only says that
a cause has a data address, a target address or 0 (DESIGN CHOICE, log 72). -/
def execUpret (o : SA1) (s : State) : Out := .next
  (bit0Form s o.p (do
    let off := (getS s o.a).toNat
    require (off % 128 == 0) cMISALIGN (getS s o.a)
    require (inScratch s.core off 128) cBOUNDS (getS s o.a)
    .ok (resumeFrame s off)))

/-- `mfs` (R123, R126, R353): an unassigned number, or a privileged one in user mode, traps ILLEGAL. -/
def execMfs (o : MfsO) (s : State) : Out := .next
  (bit0Form s o.p (
    let v := if o.num.toNat < 0x800 then readSpec s o.num.toNat else if supMode s then readPriv s o.num.toNat else none
    match v with
    | some w => .ok (setS s o.d w)
    | none => trapE cILLEGAL 0))
/-- `mts` (R123, R126): only the registers below 0x800. -/
def execMts (o : MtsO) (s : State) : Out := .next
  (bit0Form s o.p (do
    require (decide (o.num.toNat < 0x16)) cILLEGAL 0
    .ok (writeSpec s o.num.toNat (getS s o.a))))
/-- `rdtime` (R131). -/
def execRdtime (o : SD1) (s : State) : Out := .next
  (bit0Form s o.p (.ok (setS s o.d (s.rtime + (getPart s (myPart s)).timerOff))))

end Machine
end Sys2Proof
end

