-- ==== Sys2Proof/Machine/Control.lean ====
section
/-!
DEFINITION. Control: the meanings of the branches, calls, returns, loops and `yield` (R112 to R116).
-/
namespace Sys2Proof
namespace Machine

/-- Target of a label form (R51). -/
def labelTarget (ipc : W64) (tgt : W32) : W64 :=
  (ipc &&& ~~~(63 : W64)) + BitVec.ofInt 64 (signedOf 29 (tgt.toNat / 8) * 64) + BitVec.ofNat 64 (tgt.toNat % 8)
/-- The link: the instruction that follows the instruction, or its pair (R112). -/
def linkOf (s : State) : W64 := s.th.pc

def execBr (o : BrP) (s : State) : Out := .next
  (bit0Form s o.p (if getP s o.c = 0 then .ok s else transferChecked s (labelTarget s.th.ipc o.tgt)))
def execJmp (o : BrJ) (s : State) : Out := .next
  (bit0Form s o.p (transferChecked s (labelTarget s.th.ipc o.tgt)))
def execCall (o : BrD) (s : State) : Out := .next
  (bit0Form s o.p (do
    let s' ← transferChecked s (labelTarget s.th.ipc o.tgt)
    .ok (setS s' o.d (linkOf s))))
def execRet (o : SA1) (s : State) : Out := .next (bit0Form s o.p (transferChecked s (getS s o.a)))
def execBrx (o : SD2) (s : State) : Out := .next
  (bit0Form s o.p (do
    let s' ← transferChecked s (getS s o.a)
    .ok (setS s' o.d (linkOf s))))
/-- `loop` (R113). -/
def execLoop (o : BrD) (s : State) : Out := .next
  (bit0Form s o.p (
    let c := getS s o.d
    if c = 0 then .ok s
    else if c = 1 then .ok (setS s o.d 0)
    else (transferChecked s (labelTarget s.th.ipc o.tgt)).map fun s' => setS s' o.d (c - 1)))

/-- A thread set that runs work, has taken no halt, and does not wait in a `yield` (R18, R116, R393). -/
def mayIssue (t : Thread) : Bool := (t.st == .task || t.st == .activation) && t.yields.isEmpty && !t.halting
/-- `yield` (R116): waits for the other thread sets of the core that may issue, of which the issue keeps those that are ready, and
advances pts by one. -/
def execYield (o : Bare) (s : State) : Out := .next
  (bit0Form s o.p (.ok (
    let base := 4 * myCore s
    let others := ((List.range 4).map (base + ·)).filter fun g => g != s.here && mayIssue (threadAt s g)
    withTh s fun t => { t with yields := others, pts := t.pts + 1 })))

end Machine
end Sys2Proof
end

