-- ==== Sys2Proof/Machine/Memory.lean ====
section
/-!
DEFINITION. Memory: the meanings of the loads, stores and their path forms, the converting load, and the per-lane gather and
scatter (R117 to R122, R150, R157, R158, R242, R247 to R249).
-/
namespace Sys2Proof
namespace Machine

/-- Effective address (R117 step 3). -/
def effAddr (s : State) (a : Fin 32) (disp : W32) : W64 := getS s a + sext64 32 disp.toNat
/-- MISALIGN check of R117 step 4. -/
def alignCheck (ea : W64) (n : Nat) (acc : W64) : Except Stop Unit :=
  if ea.toNat % n = 0 then .ok () else .error (.trap (trapAcc cMISALIGN ea acc))
/-- The stops of a translation (R117 steps 5 and 6). -/
def pageStop {α : Type} (ea acc : W64) : Except Stop α := .error (.page (trapAcc cPAGE ea acc))
def permStop {α : Type} (ea acc : W64) : Except Stop α := .error (.trap (trapAcc cPERM ea acc))
def boundsStop {α : Type} (ea acc : W64) : Except Stop α := .error (.trap (trapAcc cBOUNDS ea acc))
/-- Steps 5 and 6 of R117 as an exceptional computation. -/
def xlateE (s : State) (acc : Acc) (isH : Bool) (ea accw : W64) : Except Stop (Xl × State) :=
  match xlateCore s acc isH ea.toNat with
  | .ok x s' => .ok (x, s')
  | .page => pageStop ea accw
  | .perm => permStop ea accw

/-- Offset in the pool of a pool-window address (R242). -/
def poolOff (ea : W64) : Nat := ea.toNat - poolWindow
/-- A C read at `ea` of `n` bytes issues: its checks, its translation and the access (R117, R118, R242, R280). -/
def readC (s : State) (ea : W64) (n : Nat) (kind : CKind) (dst : Nat) : Except Stop State := do
  let accw := accWord .C false false n
  if inPoolWindow ea.toNat then
    if poolOk s.core s.th.act (poolOff ea) n then .ok (issueC s (poolReq (poolOff ea) kind ea [] dst)) else boundsStop ea accw
  else
    let r ← xlateE s .read false ea accw
    .ok (issueC r.2 (memReq r.1 kind ea [] dst))
/-- A K load at `ea` of `n` bytes issues (R121, R242, R247): into scalar register `dst`, or the lanes of a vector. -/
def readK (s : State) (ea : W64) (n : Nat) (ty : Ty) (dst : Nat) (vec : Option (W16 × VDst)) : Except Stop State := do
  let accw := accWord .K false false n
  if inPoolWindow ea.toNat then permStop ea accw
  else
    let r ← xlateE s .read false ea accw
    .ok (issueK r.2 { pa := r.1.pa, slot := r.1.slot, noL1 := r.1.noL1, ty := ty, dst := dst, vec := vec })
/-- A store of bytes at `ea` on path C issues: one access of nominal size `n` (R117, R118, R119, R242, R280). `bytes` gives each
stored byte with its distance from `ea`. -/
def storeC (s : State) (ea : W64) (n : Nat) (bytes : List (Nat × Byte)) : Except Stop State := do
  let accw := accWord .C true false n
  if inPoolWindow ea.toNat then
    if bytes.all fun e => poolOk s.core s.th.act (poolOff ea + e.1) 1 then
      .ok (issueC s (poolReq (poolOff ea) .store ea (bytes.map fun e => (poolOff ea + e.1, e.2)) 0))
    else boundsStop ea accw
  else
    let r ← xlateE s .write false ea accw
    .ok (issueC r.2 (memReq r.1 .store ea (bytes.map fun e => (r.1.pa + e.1, e.2)) 0))

/-- Bytes of a vector's active lanes with their distances (R119). -/
def laneBytes (pv : W16) (v : V512) : List (Nat × Byte) :=
  (List.range 16).flatMap fun l => if laneOn pv l then atAddr (4 * l) (toBytes 4 (lane v l)) else []
/-! ### Scalar and vector loads and stores (R118, R119, R121) -/

/-- `ld` and `ldk` (R118, R121). -/
def loadScalar (o : MemS) (k : Bool) (s : State) : State :=
  bit0Form s o.p (do
    let n := o.t.w / 8
    let ea := effAddr s o.a o.disp
    alignCheck ea n (accWord (if k then .K else .C) false false n)
    if k then readK s ea n o.t o.d.val none else readC s ea n (.load o.t) o.d.val)
def execLd (o : MemS) (s : State) : Out := .next (loadScalar o false s)
def execLdk (o : MemS) (s : State) : Out := .next (loadScalar o true s)

/-- `st` (R118). -/
def execSt (o : MemS) (s : State) : Out := .next
  (bit0Form s o.p (do
    let n := o.t.w / 8
    let ea := effAddr s o.a o.disp
    alignCheck ea n (accWord .C true false n)
    storeC s ea n (atAddr 0 (toBytes n (getS s o.d).toNat))))

/-- The operand is a queue register. -/
def toQueue (d : VOp) : Bool := match d with
  | .q _ => true
  | _ => false
/-- The instruction stands in slot j of a pair that issues. -/
def inSlotJ (s : State) : Bool := s.th.inPair && !s.th.slot1
/-- A vector read that has issued. In slot j of a pair, one into a queue register takes its entry at issue, after the thread set's earlier
reads on the path, so that slot j + 1 may pop what slot j pushes (R45, R57; DESIGN CHOICE, log 71). -/
def readInto (s : State) (d : VOp) (k : Bool) (r : Except Stop State) : Except Stop State := do
  let now := toQueue d && inSlotJ s
  ready (!now || (if k then s.th.kreqs.isEmpty else s.th.creqs.isEmpty))
  let s' ← r
  .ok (if !now then s' else if k then settleK s' else settleRead s')
/-- `vld` on path C or K (R119, R247). -/
def loadVector (p : Pred) (d : VOp) (a : Fin 32) (disp : W32) (k : Bool) (s : State) : State :=
  elemForm s p 32 (do
    vecChecks s [] (some d)
    let ea := effAddr s a disp
    alignCheck ea 64 (accWord (if k then .K else .C) false false 64)
    readInto s d k (if k then readK s ea 64 .n32 0 (some (predVal s p, resolveV s d))
      else readC s ea 64 (.vload (predVal s p) (resolveV s d)) 0))
def execVld (o : MemV) (s : State) : Out := .next (loadVector o.p o.d o.a o.disp false s)

/-- `vst` (R119): a queue register is popped for its data. -/
def execVst (o : MemV) (s : State) : Out := .next
  (elemForm s o.p 32 (do
    vecChecks s [o.d] none
    let ea := effAddr s o.a o.disp
    alignCheck ea 64 (accWord .C true false 64)
    let d := readV s o.d
    storeC d.2 ea 64 (laneBytes (predVal s o.p) d.1)))

/-! ### Register blocks (R120) -/

/-- Destination or source `i` of a block whose first register is `d`. -/
def blockReg (s : State) (d : VOp) (i : Nat) : VDst := match d with
  | .v n => .base (Fin.ofNat 32 (n.val + i))
  | .q n => .queue n
  | .x j k => .ext ((extIndex s j k).toNat + i)
/-- Register-range BOUNDS of R120. -/
def blockRange (s : State) (d : VOp) (c : Nat) : Bool := decide (c ≤ 32) && match d with
  | .v n => decide (n.val + c ≤ 32)
  | .q _ => true
  | .x j k => decide (0 ≤ extIndex s j k) && decide (extIndex s j k + c ≤ allocOf s)
/-- A stop in the middle of a block: the earlier registers stand, and XFER records the index (R120). -/
def blockStop (s : State) (x : Stop) (i : Nat) : State :=
  match x with
  | .trap t => takeTrap s { t with xfer := some i }
  | .page t => takePage s { t with xfer := some i }
  | x => onStop s x

/-- Transfers of `vldm` over the listed indices (R120). -/
def vldmLoop (o : MemM) (ea : W64) (s0 : State) : List Nat → State → State
  | [], s => s
  | i :: l, s =>
    match readC s (ea + BitVec.ofNat 64 (64 * i)) 64 (.vload 0xFFFF (blockReg s0 o.d i)) 0 with
    | .ok s' => vldmLoop o ea s0 l s'
    | .error x => blockStop s x i
/-- Transfers of `vstm` over the listed indices (R120). -/
def vstmLoop (o : MemM) (ea : W64) (s0 : State) : List Nat → State → State
  | [], s => s
  | i :: l, s =>
    let v := match blockReg s0 o.d i with
      | .base n => (vw s0).v[n]
      | .ext j => poolBlock (vwPool s0) (extBlock s0.core (s0.here % 4) j)
      | .queue _ => 0
    match storeC s (ea + BitVec.ofNat 64 (64 * i)) 64 (atAddr 0 (toBytes 64 v.toNat)) with
    | .ok s' => vstmLoop o ea s0 l s'
    | .error x => blockStop s x i

/-- Checks and transfers of `vldm` and `vstm` (R55, R117, R120): a restart goes on from XFER. -/
def blockForm (o : MemM) (write : Bool) (loop : W64 → List Nat → State → State) (s : State) : State :=
  if !pred0 s o.p then s
  else
    let c := (getS s o.b).toNat
    if !vopOk s o.d then onStop s (.trap (trapOf cBOUNDS 0))
    else if c = 0 then s
    else if !blockRange s o.d c then onStop s (.trap (trapOf cBOUNDS 0))
    else
      let ea := effAddr s o.a o.disp
      match alignCheck ea 64 (accWord .C write false 64) with
      | .error x => onStop s x
      | .ok _ => loop ea ((List.range c).drop (s.th.xfer.getD 0)) s
def execVldm (o : MemM) (s : State) : Out := .next (blockForm o false (fun ea l s' => vldmLoop o ea s l s') s)
def execVstm (o : MemM) (s : State) : Out := .next (blockForm o true (fun ea l s' => vstmLoop o ea s l s') s)

/-- `pref` (R122): a request for a line that any failure drops, with its walk (R359). -/
def execPref (o : MemA) (s : State) : Out := .next
  (bit0Form s o.p (.ok (
    let ea := effAddr s o.a o.disp
    if inPoolWindow ea.toNat then s
    else match xlateCore s .read false ea.toNat with
      | .ok x s' => issueC s' (memReq x .pref ea [] 0)
      | _ => endWalk s (myCtx s) (myClu s) ea.toNat)))

/-! ### Path forms (R247 to R249) -/

/-- An H access joins the thread set's H accesses in program order (R249). -/
def pushH (s : State) (q : HReq) : State := withTh s fun t => { t with hreqs := t.hreqs ++ [q] }
/-- Checks of an H access (R242, R249). -/
def xlateH (s : State) (acc : Acc) (write : Bool) (ea : W64) (n : Nat) : Except Stop (Xl × State) :=
  let accw := accWord .H write false n
  if inPoolWindow ea.toNat then permStop ea accw else xlateE s acc true ea accw

def execLdPath (o : MemSP) (s : State) : Out := .next
  (if o.path == .K then loadScalar { p := o.p, t := o.t, d := o.d, a := o.a, disp := o.disp } true s
  else bit0Form s o.p (do
    let n := o.t.w / 8
    let ea := effAddr s o.a o.disp
    alignCheck ea n (accWord .H false false n)
    let r ← xlateH s .read false ea n
    .ok (pushH r.2 { pa := r.1.pa, load := true, ty := o.t, vec := false, mask := 0, dst := o.d.val, vdst := .base 0, bytes := [] })))
def execStPath (o : MemSP) (s : State) : Out := .next
  (bit0Form s o.p (do
    let n := o.t.w / 8
    let ea := effAddr s o.a o.disp
    alignCheck ea n (accWord .H true false n)
    let r ← xlateH s .write true ea n
    .ok (pushH r.2 { pa := r.1.pa, load := false, ty := o.t, vec := false, mask := 0, dst := 0, vdst := .base 0,
                     bytes := atAddr r.1.pa (toBytes n (getS s o.d).toNat) })))
def execVldPath (o : MemVP) (s : State) : Out := .next
  (if o.path == .K then loadVector o.p o.d o.a o.disp true s
  else elemForm s o.p 32 (do
    vecChecks s [] (some o.d)
    let ea := effAddr s o.a o.disp
    alignCheck ea 64 (accWord .H false false 64)
    let r ← xlateH s .read false ea 64
    .ok (pushH r.2 { pa := r.1.pa, load := true, ty := .n32, vec := true, mask := predVal s o.p, dst := 0, vdst := resolveV s o.d,
                     bytes := [] })))
def execVstPath (o : MemVP) (s : State) : Out := .next
  (elemForm s o.p 32 (do
    vecChecks s [o.d] none
    let ea := effAddr s o.a o.disp
    alignCheck ea 64 (accWord .H true false 64)
    let d := readV s o.d
    let r ← xlateH d.2 .write true ea 64
    .ok (pushH r.2 { pa := r.1.pa, load := false, ty := .n32, vec := true, mask := 0, dst := 0, vdst := .base 0,
                     bytes := (laneBytes (predVal s o.p) d.1).map fun e => (r.1.pa + e.1, e.2) })))

/-! ### The converting load (R88, R89, R150) -/

/-- Bytes of sectors from an address on. -/
def readSectors (look : Nat → Sector) (a n : Nat) : Nat :=
  ofBytes ((List.range n).map fun i => BitVec.ofNat 8 (sectorNat (look ((a + i) / 64)) ((a + i) % 64) 1))
/-- The one access of a converting load (R150): the L1 serves it when one copy holds all that the plan under its tag reads, else
home does, under the line's tag. -/
def convRead (s : State) (o : MemC) (ea : W64) (x : Xl) : ConvPlan × (Nat → Sector) × State :=
  let sec := x.pa / 64
  let home := fun (_ : Unit) =>
    let t := fillSector (touchLine s x.slot (sec / 4)) (myCtx s) x.slot sec
    let p := convPlan o ea (getLine t (sec / 4)).tag
    let r := loadHome t x (planSecs x.pa p)
    (p, copyAt r.1, r.2)
  match loadL1 s x with
  | some (v, s1) => if planSecs x.pa (convPlan o ea v.tag) = [sec] then (convPlan o ea v.tag, fun _ => v, s1) else home ()
  | none => home ()

/-- Converting `vld` whose source format the tag names (R150). The tag decides its alignment check, so it takes its value at issue, after
the thread set's earlier C accesses (log 71). A translation that fails before the tag is known records 64 bytes in the access word
(DESIGN CHOICE, log 71). The pool carries no tag, and R150 has no row for that: the model reads it as RAW (DESIGN CHOICE, log 71). -/
def convAuto (o : MemC) (s : State) : Except Stop State := do
  ready s.th.creqs.isEmpty
  vecChecks s [] (some o.d)
  let ea := effAddr s o.a o.disp
  let known := accWord .C false false 64
  let mask := predVal s o.p
  let d := resolveV s o.d
  if inPoolWindow ea.toNat then
    let p := convPlan o ea 0
    alignCheck ea p.nb known
    if poolOk s.core s.th.act (poolOff ea) p.nb then
      .ok (convWrite o mask d (convElem o p (poolOff ea) (fun a n => ofBytes (poolBytesAt s.core.pool a n)) 0) (poolLoaded s))
    else boundsStop ea known
  else
    let x ← xlateE s .read false ea known
    let r := convRead x.2 o ea x.1
    let first := r.2.1 (x.1.pa / 64)
    if !r.1.ok then .error (.trap (trapAcc cMISALIGN ea (accWord .C false false r.1.nb)))
    else .ok (convWrite o mask d (convElem o r.1 x.1.pa (readSectors r.2.1)
      (if x.1.pa % 64 < 32 then first.sc0.toNat else first.sc1.toNat)) r.2.2)
/-- Converting `vld` (R150): with a format that the instruction names, one C read like any other (R19, R280). -/
def execVldConverting (o : MemC) (s : State) : Out := .next
  (elemForm s o.p o.t.w (if o.src = .auto then convAuto o s else do
    vecChecks s [] (some o.d)
    let ea := effAddr s o.a o.disp
    let nb := (convPlan o ea 0).nb
    alignCheck ea nb (accWord .C false false nb)
    readInto s o.d false (readC s ea nb (.conv o (predVal s o.p) (resolveV s o.d)) 0)))

/-! ### Per-lane gather and scatter (R157, R158) -/

/-- Address of element `n` of a line-set access (R157). -/
def laneAddr (ea : W64) (w : Nat) (idx : V512) (n : Nat) : Nat := ea.toNat + elem w idx n * (w / 8)
/-- Active elements, ascending. -/
def activeElems (pv : W16) (w : Nat) : List Nat := (List.range (512 / w)).filter (elemOn pv w)
/-- The checks of R157 on the address and the elements. -/
def lineSetChecks (ea : W64) (w : Nat) (idx : V512) (act : List Nat) (acc : W64) : Except Stop Unit := do
  alignCheck ea (w / 8) acc
  match act.find? fun n => decide (ea.toNat / 4096 * 4096 + 4096 ≤ laneAddr ea w idx n) with
  | some n => boundsStop (BitVec.ofNat 64 (laneAddr ea w idx n)) acc
  | none => .ok ()

/-- `vgath` (R157, R158). -/
def vgathForm (o : VGs) (s : State) : State :=
  let w := o.t.w
  elemForm s o.p w (do
    vecChecks s [o.b] (some o.d)
    let ea := effAddr s o.a o.disp
    let accw := accWord .C false false (w / 8)
    let act := activeElems (predVal s o.p) w
    let i := readV s o.b
    lineSetChecks ea w i.1 act accw
    let offs := act.map fun n => (n, laneAddr ea w i.1 n - ea.toNat)
    let kind := CKind.gath w (predVal s o.p) offs (resolveV s o.d)
    if inPoolWindow ea.toNat then
      if offs.all fun e => poolOk s.core s.th.act (poolOff ea + e.2) (w / 8) then
        readInto i.2 o.d false (.ok (issueC i.2 (poolReq (poolOff ea) kind ea [] 0)))
      else boundsStop ea accw
    else
      let r ← xlateE i.2 .read false ea accw
      readInto i.2 o.d false (.ok (issueC r.2 (memReq r.1 kind ea [] 0))))
def execVgath32 (o : VGs) (s : State) : Out := .next (vgathForm o s)
def execVgath64 (o : VGs) (s : State) : Out := .next (vgathForm o s)

/-- `vscat` (R157, R158): among active elements with one address the highest is stored. Where one queue register gives the index and
the data, the index pops first (DESIGN CHOICE: R57 orders SA, SB and SC only; log 72). -/
def vscatForm (o : VGs) (s : State) : State :=
  let w := o.t.w
  elemForm s o.p w (do
    vecChecks s [o.b, o.d] none
    let ea := effAddr s o.a o.disp
    let act := activeElems (predVal s o.p) w
    let i := readV s o.b
    lineSetChecks ea w i.1 act (accWord .C true false (w / 8))
    let d := readV i.2 o.d
    storeC d.2 ea (w / 8) (act.flatMap fun n => atAddr (laneAddr ea w i.1 n - ea.toNat) (toBytes (w / 8) (elem w d.1 n))))
def execVscat32 (o : VGs) (s : State) : Out := .next (vscatForm o s)
def execVscat64 (o : VGs) (s : State) : Out := .next (vscatForm o s)

end Machine
end Sys2Proof
end

