-- ==== Sys2Proof/Machine/Order.lean ====
section
/-!
DEFINITION. Order: fences, the waits of `end`, the atomics, the update-only reductions, active messages, and the events of
home slices, leases and lines (R250 to R268, R280, R285 to R289, R305).
-/
namespace Sys2Proof
namespace Machine

/-! ### Fences (R132, R286, R287) -/

def execFence (o : Fence) (s : State) : Out := .next
  (bit0Form s o.p (afterWait s o.before o.after fun s => .ok (fenceEffects s o.before o.after)))
/-- The earlier writes that `ifence` waits for are performed; loads are not waited for (R132). -/
def writesQuiet (s : State) : Bool :=
  s.th.creqs.all (fun r => r.kind.isRead) && s.th.hreqs.all (·.load) && quietOn s 0b011111100
/-- The effect of `ifence` (R132): it acts as `fence CXGUMTPH, K`, and its later fetches come after every store at home. The model holds
no fetched lines but those of the L1. -/
def ifenceEffects (s : State) : State :=
  withCore (raisePts s (s.pathTime.toList.foldl max 0)) markLeased
/-- `ifence` (R132). -/
def execIfence (o : Bare) (s : State) : Out := .next
  (bit0Form s o.p (do
    ready (writesQuiet s)
    let s := mergeAllU s (myClu s)
    .ok ((latchTrap s).getD (ifenceEffects s))))

/-! ### Atomics (R260 to R264, R289) -/

/-- Checks of R260: alignment, the pool window, translation with write permission. -/
def atomicXlate (s : State) (acc : Acc) (p : Path) (ea : W64) (n : Nat) : Except Stop (Xl × State) := do
  let accw := accWord p true false n
  alignCheck ea n accw
  if inPoolWindow ea.toNat then permStop ea accw else xlateE s acc false ea accw
/-- The oldest C access of the focus thread set, a store or an atomic, is performed and acknowledged. -/
def settleC (s : State) : State := ((performC s s.here).bind fun s => ackC s s.here).getD s
/-- Effective address of an atomic (R52). -/
def atomicAddr (s : State) (a : Fin 32) (disp : BitVec 14) : W64 := getS s a + sext64 14 disp.toNat

/-- The matrix command of its pair's slot j that an atomic with a release set waits for (R45, R261). -/
def behindOf (s : State) (rel : PathSet) : Option Nat :=
  if names rel .M && decide (vwCmds s < s.core.mnum) then some s.core.mnum else none
/-- An atomic with its sets: as `fence L, C` before and `fence C, A` after (R261, R289). With an acquire set it is performed at issue,
after the thread set's earlier C accesses, and after its reds when the set names U (R287), so that no later access comes before it; one
that waits for its pair's command lets no instruction issue until its reply. -/
def atomicForm (s : State) (ea : W64) (n : Nat) (acq rel : PathSet) (kind : CKind) (dst : Nat) : Except Stop State :=
  afterWait s rel 1 fun s => do
    ready (acq == 0 || (s.th.creqs.isEmpty && fenceQuiet s 0 acq))
    let r ← atomicXlate (if rel = 0 then s else fenceEffects s rel 1) .write .C ea n
    let q := { memReq r.1 kind ea [] dst with behind := behindOf s rel, acq := if (behindOf s rel).isNone then 0 else acq }
    let s := issueC r.2 q
    .ok (if acq = 0 ∨ q.behind.isSome then s else fenceEffects (settleC s) 1 acq)

/-- `amo` (R262). -/
def amoForm (o : Amo) (s : State) : State :=
  bit0Form s o.p (atomicForm s (atomicAddr s o.a o.disp) (o.t.w / 8) o.acq o.rel
    (.amo o.t o.op (zext64 o.t.w (getS s o.b).toNat)) o.d.val)
def execAmoI (o : Amo) (s : State) : Out := .next (amoForm o s)
def execAmoF (o : Amo) (s : State) : Out := .next (amoForm o s)
/-- `cas` (R263). -/
def execCas (o : Cas) (s : State) : Out := .next
  (bit0Form s o.p (atomicForm s (atomicAddr s o.a o.disp) (o.t.w / 8) o.acq o.rel (.cas o.t (getS s o.b) (getS s o.c)) o.d.val))
/-- An even register and the next, low first (R264). -/
def pairOf (s : State) (r : Fin 32) : BitVec 128 :=
  BitVec.ofNat 128 ((getS s r).toNat + (getS s (Fin.ofNat 32 (r.val + 1))).toNat * 2 ^ 64)
/-- `cas2` (R264). -/
def execCas2 (o : Cas2) (s : State) : Out := .next
  (bit0Form s o.p (atomicForm s (atomicAddr s o.a o.disp) 16 o.acq o.rel (.cas2 (pairOf s o.b) (pairOf s o.c)) o.d.val))

/-! ### Update-only reductions (R265 to R267) -/

/-- A red folded at home (R266): it recalls no U copy, and another key slot's line leaves first (R363). -/
def homeFold (s : State) (ctx : Nat) (x : Xl) (t : Ty) (op : AOp) (b : Nat) : State :=
  let l := x.pa / 256
  let s := alignSlot s x.slot l
  let n := t.w / 8
  let s := fillSector s ctx x.slot (x.pa / 64)
  let old := ofBytes (homeBytes s x.slot x.pa n)
  (stampLines (putBytes s ctx x.slot (atAddr x.pa (toBytes n (aopElem t op old b).1))) .U 0 [l]).2

/-- A fold into a U copy (R266). -/
def foldU (u : UCopy) (pa b : Nat) : UCopy :=
  let k := pa % 256 / 2
  let old := (amFind u.words k).map (·.toNat) |>.getD (emptyOf u.t u.op)
  { u with words := amSet u.words k (BitVec.ofNat 64 (aopElem u.t u.op old b).1), mask := u.mask ||| ((1 : W64) <<< (pa % 256 / 4)) }

/-- A U copy with every word EMPTY, by the operation and type (R266). -/
def newU (ctx slot : Nat) (op : AOp) (t : Ty) : UCopy := { op := op, t := t, slot := slot, ctx := ctx, mask := 0, words := [] }
/-- Room for a U copy of a line in the slice of a cluster: in a full set of 16 a line leaves, or the copy of another line merges where no
more than one line stands, so that a fill finds one (R1, R266; log 68). -/
def copyRoom (s : State) (k l : Nat) : State :=
  let m := s.lines.filterMap fun e =>
    if e.1 % 2048 == l % 2048 && lineHere e.2 && homeOfLine e.1 == k then some e.1 else none
  let u := setCopies s k l
  if m.length + u.length < 16 then s
  else match u with
    | e :: _ => if 15 ≤ u.length then mergeU s k e.1 e.2 else evictOne s m
    | [] => evictOne s m
/-- A slice asks home for a U grant: it folds into a new copy, or home folds (R266). -/
def grantU (s : State) (ctx k : Nat) (x : Xl) (t : Ty) (op : AOp) (b : Nat) : State :=
  if (holdersU s (x.pa / 256)).length < 4 then
    onClu (copyRoom s k (x.pa / 256)) k fun c =>
      { c with ucopies := amSet c.ucopies (x.pa / 256) (foldU (newU ctx x.slot op t) x.pa b) }
  else homeFold s ctx x t op b
/-- The path of a red (R266). -/
def redFold (s : State) (ctx k : Nat) (x : Xl) (t : Ty) (op : AOp) (b : Nat) : State :=
  let l := x.pa / 256
  if k = homeOf x.pa || !x.ubit then homeFold s ctx x t op b
  else match amFind (getClu s k).ucopies l with
    | some u =>
      if u.op = op ∧ u.t = t ∧ u.slot = x.slot ∧ u.ctx = ctx then
        onClu s k fun c => { c with ucopies := amSet c.ucopies l (foldU u x.pa b) }
      else grantU (mergeU s k l u) ctx k x t op b
    | none => grantU s ctx k x t op b

/-- The acquire set of a thread set's atomic acts at its reply (R289). -/
def acquired (g : Nat) (b a : PathSet) (s : State) : State :=
  if a = 0 then s else focus (fenceEffects (focus s g) b a) s.here
/-- A red of a thread set is folded, the `n`-th that waits: reds of one thread set arrive in any order (R266, R284). -/
def evRed (g n : Nat) (s : State) : Option State :=
  match (threadAt s g).ureqs[n]? with
  | none => none
  | some q =>
    if behindCmd s g q.behind then none
    else (if q.stale then (xlateAfresh s g .red q.va).map fun y => ({ q with pa := y.1.pa, slot := y.1.slot, ubit := y.1.ubit }, y.2)
        else some (q, s)).map fun (q, s) =>
      let ctx := (getCore s (coreNo g)).ctx.getD 0
      let t := onThread s g fun t => { t with ureqs := t.ureqs.eraseIdx n }
      (acquired g 0b000010000 q.acq (redFold t ctx (cluOf (coreNo g)) ⟨q.pa, q.slot, false, q.ubit⟩ q.ty q.op q.b))
/-- Every red of the focus thread set is folded, oldest first. -/
def settleU (s : State) : State :=
  s.th.ureqs.foldl (fun s q => redFold s (myCtx s) (myClu s) ⟨q.pa, q.slot, false, q.ubit⟩ q.ty q.op q.b)
    (withTh s fun t => { t with ureqs := [] })
/-- `red` (R265, R266): its release set acts as `fence L, U` before it, its acquire set as `fence U, A` after it; both name U (R287). -/
def redForm2 (o : Red) (s : State) : State :=
  bit0Form s o.p (
    let ea := atomicAddr s o.a o.disp
    afterWait s o.rel (if o.rel = 0 then 0 else 0b000010000) fun s => do
      let r ← atomicXlate (if o.rel = 0 then s else fenceEffects s o.rel 0b000010000) .red .U ea (o.t.w / 8)
      let q : UReq := { va := ea, stale := false, pa := r.1.pa, slot := r.1.slot, ubit := r.1.ubit, ty := o.t, op := o.op, b := (getS s o.b).toNat % 2 ^ o.t.w,
                        behind := behindOf s o.rel, acq := if (behindOf s o.rel).isNone then 0 else o.acq }
      let s := withTh r.2 fun t => { t with ureqs := t.ureqs ++ [q] }
      .ok (if o.acq = 0 ∨ q.behind.isSome then s else fenceEffects (settleU s) 0b000010000 o.acq))
def execRedI (o : Red) (s : State) : Out := .next (redForm2 o s)
def execRedF (o : Red) (s : State) : Out := .next (redForm2 o s)

/-! ### Active messages (R268) -/

/-- OP of a descriptor. -/
def amsgOp (d : W64) : Nat := fieldOf d 0 4
/-- TYPE of a descriptor, where the table has it. -/
def amsgTy (d : W64) : Option Ty := match fieldOf d 4 4 with
  | 0 => some .i64 | 1 => some .i32 | 4 => some .n64 | 5 => some .n32 | 8 => some .f64 | 9 => some .f32
  | _ => none
/-- The operation of OP 2 to 8. -/
def amsgAop (k : Nat) : AOp := match k with
  | 2 => .add | 3 => .min | 4 => .max | 5 => .and | 6 => .or | 7 => .xor | _ => .swap
/-- A descriptor that the form accepts (R268). TYPE of OP 0, 1 and 9, for which the table gives none, is ignored (DESIGN CHOICE, log 72). -/
def amsgOk (d : W64) : Bool :=
  let k := amsgOp d
  fieldOf d 32 32 == 0 && fieldOf d 8 8 == 0 && decide (k ≤ 9) &&
  (if 2 ≤ k ∧ k ≤ 8 then (match amsgTy d with
    | some t => !(t.isF && (k == 5 || k == 6 || k == 7))
    | none => false) else true)
/-- The 64 bytes after an operation (R268). The conditions of a floating one join no `flags`: neither R82 nor R268 says that they do
(DESIGN CHOICE, log 72). -/
def amsgNew (d : W64) (old data : V512) : V512 :=
  let k := amsgOp d
  let mask := fieldOf d 16 16
  if k = 1 then mergeElems 32 (BitVec.ofNat 16 mask) (lane data) old
  else if 2 ≤ k ∧ k ≤ 8 then
    (match amsgTy d with
    | some t =>
      let per := t.w / 32
      ofElems t.w ((List.range (512 / t.w)).map fun n =>
        if (List.range per).all fun i => bitOf mask (per * n + i) then (aopElem t (amsgAop k) (elem t.w old n) (elem t.w data n)).1
        else elem t.w old n)
    | none => old)
  else old

/-- `amsg` (R268). -/
def execAmsg (o : Amsg) (s : State) : Out := .next
  (bit0Form s o.p (do
    vecChecks s [o.b] (some o.d)
    let desc := getS s o.c
    let ea := effAddr s o.a o.disp
    require (amsgOk desc) cENGINE 0
    let w := amsgOp desc != 0
    let accw := accWord .G w false 64
    alignCheck ea 64 accw
    let r ← (if inPoolWindow ea.toNat then permStop ea accw else xlateE s (if w then .gwrite else .read) false ea accw)
    let v := readV r.2 o.b
    let q : AmsgReq := { pa := r.1.pa, slot := r.1.slot, desc := desc, data := v.1, dst := resolveV s o.d, performed := false,
                         reply := 0 }
    .ok (withTh v.2 fun t => { t with amsgs := t.amsgs ++ [q] })))

/-- The slice agent performs an active message of a thread set: one write in the order of R250, whatever its operation (R268). -/
def amsgAtHome (s : State) (g : Nat) (q : AmsgReq) : V512 × State :=
  let ctx := (getCore s (coreNo g)).ctx.getD 0
  let r := homeRead s ctx q.slot q.pa 64
  let old := BitVec.ofNat 512 (ofBytes r.1)
  let k := amsgOp q.desc
  let l := q.pa / 256
  let s := stampLines (if k = 0 ∨ k = 9 then r.2
    else putBytes r.2 ctx q.slot (atAddr q.pa (toBytes 64 (amsgNew q.desc old q.data).toNat))) .G (threadAt s g).pts [l]
  (old, if k = 9 then dropLine (writeBack s.2 l) l else s.2)

/-- The slice agent performs the n-th active message of a thread set. Messages to one home are performed in issue order (R268). -/
def evAmsgAt (g n : Nat) (s : State) : Option State :=
  let t := threadAt s g
  match t.amsgs[n]? with
  | none => none
  | some q =>
    if q.performed ∨ ((t.amsgs.take n).any fun x => !x.performed && homeOf x.pa == homeOf q.pa) = true then none
    else
      let r := amsgAtHome s g q
      some (onThread r.2 g fun t => { t with amsgs := t.amsgs.set n { q with performed := true, reply := r.1 } })
/-- AMSG_PERFORM: the oldest message that has not been performed. -/
def evAmsgPerform (g : Nat) (s : State) : Option State := evAmsgAt g ((threadAt s g).amsgs.takeWhile (·.performed)).length s
/-- The reply of a thread set's n-th message reaches its register; a queue register must have room (R268). -/
def evAmsgBack (g n : Nat) (s : State) : Option State :=
  match (threadAt s g).amsgs[n]? with
  | none => none
  | some q =>
    if !q.performed then none
    else
      let s1 := focus s g
      let room := match q.dst with
        | .queue n => qTakes s1 n.val
        | _ => true
      if room then some (focus (withTh (writeVD s1 q.dst q.reply) fun t => { t with amsgs := t.amsgs.eraseIdx n }) s.here) else none
/-- AMSG_REPLY: the reply of the oldest message, when it has been performed. -/
def evAmsgReply (g : Nat) (s : State) : Option State := evAmsgBack g 0 s

def execAmsgPerform (g : Nat) (s : State) : Out := .next ((evAmsgPerform g s).getD s)
def execAmsgReply (g : Nat) (s : State) : Out := .next ((evAmsgReply g s).getD s)

/-! ### Events of leases, stores and lines (R250 to R259, R266) -/

/-- HOME_LOAD: a C read of a thread set at home (R250): its oldest access where that reads the virtual address, else the fetch of its
sector ahead of a load (R280), which raises no program timestamp. -/
def evHomeLoad (g addr : Nat) (s : State) : Option State :=
  let f := focus s g
  match f.th.creqs with
  | r :: _ => if r.kind.isRead && !r.pool && r.va == BitVec.ofNat 64 addr then evAccess g s else ahead f
  | [] => ahead f
where
  /-- The fetch ahead. -/
  ahead (f : State) : Option State :=
    if f.core.ctx.isNone || inPoolWindow addr then none
    else match xlateCore f .read false addr with
      | .ok x f =>
        if x.noL1 then none
        else
          let r := leaseHome f (myCtx f) x.slot f.th.pts [x.pa / 64]
          some (focus (keepCopies r.2 false r.1) s.here)
      | _ => none
def execHomeLoad (g addr : Nat) (s : State) : Out := .next ((evHomeLoad g addr s).getD s)

/-- STORE_ACKNOWLEDGE and ATOMIC_REPLY. -/
def evStoreAck (g : Nat) (s : State) : Option State := match (threadAt s g).creqs with
  | r :: _ => if r.kind == .store then ackC s g else none
  | [] => none
def evAtomicReply (g : Nat) (s : State) : Option State := match (threadAt s g).creqs with
  | r :: _ => if r.kind != .store && (!names r.acq .U || (threadAt s g).ureqs.isEmpty) then (ackC s g).map (acquired g 1 r.acq) else none
  | [] => none
def execStoreAcknowledge (g : Nat) (s : State) : Out := .next ((evStoreAck g s).getD s)
def execAtomicReply (g : Nat) (s : State) : Out := .next ((evAtomicReply g s).getD s)

/-- U_COPY_MERGE: a slice evicts a U copy, or home recalls it (R266). -/
def evUCopyMerge (k l : Nat) (s : State) : Option State :=
  (amFind (getClu s k).ucopies l).map fun u => mergeU s k l u
def execUCopyMerge (cluster line : Nat) (s : State) : Out := .next ((evUCopyMerge cluster line s).getD s)

/-- The miss table waits for a sector for a slot (R255). -/
def missWaits (l : List Miss) (ctx slot sec : Nat) : Bool :=
  l.any fun e => e.line == sec / 4 && e.ctx == ctx && e.slot == slot && e.secs.contains sec
/-- A slot of a context may fill a sector of its partition. -/
def mayFill (s : State) (ctx slot sec : Nat) : Bool :=
  slot / 8 == ctx && slotValid s slot && liesIn s (getCtx s ctx).part (sec * 64)
/-- LINE_FILL: a fill lands, for a miss or ahead of one (R254, R255, R259, R362). -/
def evLineFill (ctx slot sec : Nat) (s : State) : Option State :=
  let k := homeOf (sec * 64)
  let ln := getLine s (sec / 4)
  if missWaits (getClu s k).miss ctx slot sec then
    some (landFill (touchLine s slot (sec / 4)) ctx slot sec)
  else if mayFill s ctx slot sec ∧ !bitOf ln.valid.toNat (sec % 4) ∧ (!lineHere ln ∨ ln.slot = slot) then some (fillSector s ctx slot sec)
  else none
def execLineFill (ctx slot sector : Nat) (s : State) : Out := .next ((evLineFill ctx slot sector s).getD s)

/-- WRITE_BACK_DRAIN: an entry of the write-back buffer reaches HBM (R254, R256). -/
def evWriteBack (l : Nat) (s : State) : Option State := if (getLine s l).buffered then some (drainLine s l) else none
def execWriteBackDrain (line : Nat) (s : State) : Out := .next ((evWriteBack line s).getD s)
/-- A line leaves its slice of itself (R254, R256; log 3). -/
def evEvictLine (l : Nat) (s : State) : Option State := if lineHere (getLine s l) then some (evictLine s l) else none
/-- A copy leaves an L1 (log 3). -/
def evEvictL1 (core sec : Nat) (s : State) : Option State :=
  if (amFind (getCore s core).l1 sec).isSome then some (onCore s core fun c => { c with l1 := amDel c.l1 sec }) else none

/-- Change of every thread set that the state lists. -/
def mapThreads (s : State) (f : Thread → Thread) : State :=
  { s with th := f s.th, core := { s.core with threads := s.core.threads.map f },
           cores := s.cores.map fun e => (e.1, { e.2 with threads := e.2.threads.map f }) }
/-- The ticks of 256 cycles that have passed (R37, R251). -/
def ticksDue (s : State) : Nat := s.cycle.toNat / 256
/-- `n` ticks of every thread set's program timestamp, those of cores that no map lists among them (R37, R251). -/
def givePts (s : State) (n : Nat) : State :=
  { mapThreads s (fun t => { t with pts := t.pts + n }) with ticks := s.ticks + n, basePts := s.basePts + n }
/-- The ticks that are due are given (R251). -/
def tick (s : State) : State := givePts s (ticksDue s - s.ticks)
/-- PTS_TICK (R251): a step gives every tick that falls due in it, as this event does. -/
def execPtsTick (s : State) : Out := .next (tick s)

/-- Program timestamps of the thread sets of bound cores. -/
def ptsOfBound (s : State) : List Nat :=
  let one := fun (c : CoreSt) => if c.ctx.isSome then c.threads.toList.map (·.pts) else []
  one (setSlot s.core (s.here % 4) s.th) ++ (s.cores.filter fun e => e.1 != myCore s).flatMap fun e => one e.2
/-- Timestamps of a thread set, and of the copies of an L1, after a rebase by `d` (R250): copies whose lease has ended go. -/
def rebaseTh (d : Nat) (t : Thread) : Thread :=
  { t with pts := t.pts - d, creqs := t.creqs.map fun r => { r with wts := r.wts - d } }
def rebaseL1 (d : Nat) (l1 : AMap L1Copy) : AMap L1Copy :=
  (l1.filter fun e => decide (d ≤ e.2.le)).map fun e => (e.1, { e.2 with wts := e.2.wts - d, le := e.2.le - d })
def rebaseCore (d : Nat) (c : CoreSt) : CoreSt := { c with l1 := rebaseL1 d c.l1, ptime := c.ptime - d }
/-- TIMESTAMP_REBASE (R250): every timestamp falls by the least program timestamp of a bound core. -/
def execTimestampRebase (s : State) : Out := .next
  (let d := match ptsOfBound s with
    | [] => 0
    | a :: l => l.foldl min a
   let s := mapThreads s (rebaseTh d)
   { s with core := rebaseCore d s.core, cores := s.cores.map fun e => (e.1, rebaseCore d e.2),
            pathTime := s.pathTime.map (· - d), released := s.released - d, fenced := s.fenced.map (· - d),
            basePts := s.basePts - d,
            lines := s.lines.map fun e => (e.1, { e.2 with wts := e.2.wts - d, rts := e.2.rts - d }) })

/-- CXL_CACHE_RESPONSE: the host answers the oldest H access of a thread set (R249, R285). -/
def evCxlResponse (g : Nat) (s : State) : Option State :=
  match (threadAt s g).hreqs with
  | [] => none
  | q :: rest =>
    let s1 := withTh (focus s g) fun t => { t with hreqs := rest }
    let n := if q.vec then 64 else q.ty.w / 8
    let data := ofBytes (memRead s.host q.pa n)
    if q.load then
      (if q.vec then
        (match q.dst, q.vdst with
        | _, .queue k => if qTakes s1 k.val then some (focus (writeVD s1 q.vdst (lanesOver q.mask data 0)) s.here) else none
        | _, d => some (focus (writeVD s1 d (lanesOver q.mask data (oldV s1 d))) s.here))
      else some (focus (withRf s1 fun r => rfSetS r q.dst (extendTo q.ty data)) s.here))
    else some { focus s1 s.here with host := memSetAll s.host q.bytes }
def execCxlCacheResponse (g : Nat) (s : State) : Out := .next ((evCxlResponse g s).getD s)

end Machine
end Sys2Proof
end

