-- ==== Sys2Proof/Machine/Copy.lean ====
section
/-!
DEFINITION. Copy: copies, gathers and semaphores (R269 to R279): the forms that start and cancel them, the engine's events,
and what an engine fault makes of a command (R171, R274, R383).
-/
namespace Sys2Proof
namespace Machine

/-! ### Semaphores (R23, R279) -/

/-- A semaphore's value, when the context owns it (R23). -/
def semOf (s : State) (k n ctx : Nat) : Option W32 := match amFind (getClu s k).sems n with
  | some (o, v) => if o = ctx ∧ (getCtx s ctx).created then some v else none
  | none => none
/-- The same for a form of the focus thread set: PERM when the context does not own it. -/
def semE (s : State) (n : BitVec 6) : Except Stop W32 := match semOf s (myClu s) n.toNat (myCtx s) with
  | some v => .ok v
  | none => trapE cPERM 0
def semPut (s : State) (k n ctx : Nat) (v : W32) : State := onClu s k fun c => { c with sems := amSet c.sems n (ctx, v) }
/-- A value clamped to 0 to 2^32 − 1. -/
def clamp32 (i : Int) : W32 := BitVec.ofNat 32 (min i.toNat (2 ^ 32 - 1))

def execSemw (o : Sem) (s : State) : Out := .next
  (bit0Form s o.p (do
    let v ← semE s o.n
    ready (decide (fieldOf (getS s o.a) 0 32 ≤ v.toNat))
    .ok s))
def execSeminc (o : SemI) (s : State) : Out := .next
  (bit0Form s o.p (do
    let v ← semE s o.n
    let new := clamp32 ((v.toNat : Int) + signedOf 32 (getS s o.a).toNat)
    .ok (setS (semPut s (myClu s) o.n.toNat (myCtx s) new) o.d (zext64 32 v.toNat))))
def execSemset (o : Sem) (s : State) : Out := .next
  (bit0Form s o.p (do
    let _ ← semE s o.n
    .ok (semPut s (myClu s) o.n.toNat (myCtx s) (BitVec.ofNat 32 (getS s o.a).toNat))))

/-! ### Shadow copy registers and the shape of a copy (R271, R272, R274) -/

def setShadow (s : State) (i : Nat) (v : W64) : State :=
  withTh s fun t => { t with shadow := if h : i < 9 then t.shadow.set i v h else t.shadow }
def execCset (o : CSet) (s : State) : Out := .next (bit0Form s o.p (.ok (setShadow s o.num.toNat (getS s o.a))))
def execMcset (o : SA2) (s : State) : Out := .next
  (bit0Form s o.p (.ok (setShadow (setShadow s 7 (zext64 24 (getS s o.a).toNat)) 8 (zext64 12 (getS s o.b).toNat))))

/-- Register `i` of a descriptor, and a field of its control word. -/
def dw (d : Vector W64 9) (i : Nat) : W64 := d.toList.getD i 0
def ctlOf (d : Vector W64 9) (lo len : Nat) : Nat := fieldOf (dw d 5) lo len
/-- Element size in bytes. -/
def eszOf (d : Vector W64 9) : Nat := if ctlOf d 0 3 = 4 then 64 else 2 ^ ctlOf d 0 3
/-- Kinds of source and destination; multicast. -/
def srcKind (d : Vector W64 9) : Nat := ctlOf d 4 2
def dstKind (d : Vector W64 9) : Nat := ctlOf d 8 2
def isMC (d : Vector W64 9) : Bool := ctlOf d 14 1 == 1
/-- Bytes per row, rows per plane, planes. -/
def xbOf (d : Vector W64 9) : Nat := fieldOf (dw d 2) 0 24
def ynOf (d : Vector W64 9) : Nat := fieldOf (dw d 2) 24 20
def znOf (d : Vector W64 9) : Nat := fieldOf (dw d 2) 44 20
/-- Row and plane strides of register 3 or 4. -/
def rowStr (d : Vector W64 9) (i : Nat) : Int := signedOf 32 (fieldOf (dw d i) 0 32)
def planeStr (d : Vector W64 9) (i : Nat) : Int := signedOf 32 (fieldOf (dw d i) 32 32)
/-- Start of the source (0) or destination (1): an address, or a pool offset in bits 19:0. -/
def baseOf (d : Vector W64 9) (i kind : Nat) : Nat := if kind = 0 then (dw d i).toNat else fieldOf (dw d i) 0 20
/-- Elements of a row, and of the copy. -/
def rowElems (d : Vector W64 9) : Nat := xbOf d / eszOf d
def totalElems (d : Vector W64 9) : Nat := if xbOf d = 0 then 0 else rowElems d * ynOf d * znOf d
/-- Where row (y, z) lies (R274). -/
def rowAt (d : Vector W64 9) (i kind y z : Nat) : Int :=
  (baseOf d i kind : Int) + y * rowStr d (i + 3) + z * planeStr d (i + 3)
/-- Where element `n`, in ascending z, y, x, lies. -/
def elemAt (d : Vector W64 9) (i kind n : Nat) : Int :=
  let r := n / rowElems d
  rowAt d i kind (r % ynOf d) (r / ynOf d) + (n % rowElems d * eszOf d : Nat)
/-- The rows of a copy, as starts. -/
def rowsOf (d : Vector W64 9) (i kind : Nat) : List Int :=
  if xbOf d = 0 then []
  else (List.range (znOf d)).flatMap fun z => (List.range (ynOf d)).map fun y => rowAt d i kind y z
/-- Clusters of a multicast, ranked (R276). -/
def multiOf (cols rows : Nat) : List Nat := (List.range numClusters).filter fun k => bitOf cols (colOf k) && bitOf rows (rowOf k)
/-- Destination clusters of an RPOOL or a multicast, by rank, and the destination core of an RPOOL (R271). -/
def dstClusters (d : Vector W64 9) : List Nat :=
  if isMC d then multiOf (dw d 7).toNat (dw d 8).toNat else [fieldOf (dw d 1) 40 4 * 24 + fieldOf (dw d 1) 32 5]
def dstCore (d : Vector W64 9) (k : Nat) : Nat := 8 * k + fieldOf (dw d 1) 48 3

/-- Reduction of a copy (R277). -/
def redTy (d : Vector W64 9) : Option Ty := match ctlOf d 42 4 with
  | 0 => some .i64 | 1 => some .i32 | 4 => some .n64 | 5 => some .n32 | 8 => some .f64 | 9 => some .f32
  | _ => none
def redOp (d : Vector W64 9) : Option AOp := match ctlOf d 38 4 with
  | 1 => some .add | 2 => some .min | 3 => some .max | 4 => some .and | 5 => some .or | 6 => some .xor
  | _ => none

/-- Item 1 of R273. -/
def copyDescOk (d : Vector W64 9) : Bool :=
  let esz := eszOf d
  let dk := dstKind d
  let rop := ctlOf d 38 4
  let redOk := match redTy d with
    | some t => dk == 0 && ctlOf d 0 3 == (if t.w = 64 then 3 else 2) && !(t.isF && decide (4 ≤ rop))
    | none => false
  ctlOf d 46 18 == 0 && ctlOf d 6 2 == 0 && ctlOf d 3 1 == 0 && decide (ctlOf d 0 3 ≤ 4) && decide (srcKind d ≤ 1) && decide (rop ≤ 6)
    && xbOf d % esz == 0
    && !(dk == 2 && (esz != 64 || decide (ctlOf d 10 4 < 8) || dw d 1 != 0))
    && !(isMC d && dk != 0 && dk != 3)
    && !(ctlOf d 15 1 == 1 && dk != 3 && !(isMC d && dk == 0))
    && !(dk == 3 && (fieldOf (dw d 1) 20 12 != 0 || fieldOf (dw d 1) 37 3 != 0 || fieldOf (dw d 1) 44 4 != 0
        || fieldOf (dw d 1) 51 13 != 0
        || (!isMC d && (decide (23 < fieldOf (dw d 1) 32 5) || decide (11 < fieldOf (dw d 1) 40 4)))))
    && !(isMC d && ((dstClusters d).isEmpty || decide (32 < (dstClusters d).length)))
    && (rop == 0 || redOk)
/-- Values of item 2 of R273: the first that is not a multiple of the element size. The strides of a queue destination and
the multicast stride of a copy that has none do not count. -/
def copyMisaligned (d : Vector W64 9) : Option Int :=
  let dst := if dstKind d = 2 then [] else [(baseOf d 1 (dstKind d) : Int), rowStr d 4, planeStr d 4]
  let mc := if isMC d && dstKind d == 0 then [signedOf 64 (dw d 6).toNat] else []
  ([(baseOf d 0 (srcKind d) : Int), rowStr d 3, planeStr d 3] ++ dst ++ mc).find? fun v => v % (eszOf d : Int) != 0
/-- Every row of a pool side passes R242 and R244 on a core. -/
def rowsOk (d : Vector W64 9) (i : Nat) (c : CoreSt) (act : Option Act) : Bool :=
  (rowsOf d i 1).all fun r => decide (0 ≤ r) && poolOk c act r.toNat (xbOf d)

/-! ### Acceptance (R269, R273) -/

/-- Commands that a copy engine holds. -/
def engineLen (s : State) (k : Nat) : Nat := (getClu s k).cq.length
/-- Accepts a command: the identifier, and the status register pending (R273). -/
def acceptCopy (s : State) (d dst : Fin 32) (gather : Bool) (desc : Vector W64 9) (gran : Nat) : State × Copy :=
  let k := myClu s
  let n := (getClu s k).cqCount + 1
  let c : Copy := { id := n.toNat, g := s.here, ctx := myCtx s, gather := gather, desc := desc, gran := gran, status := dst.val,
                    started := false, groups := 0, elems := 0, order := [], early := [], stuck := 0, bytes := 0, kidx := [], later := [],
                    denied := 0, deny := none, cause := 0, cancelled := false, finished := false, fault := none }
  let s := onClu s k fun x => { x with cqCount := n, cq := x.cq ++ [c] }
  let s := setS s d (BitVec.ofNat 64 (k * 2 ^ 32 + n.toNat))
  (if dst = 0 then s else withTh s fun t => { t with busy := t.busy ||| ((1 : W32) <<< dst.val) }, c)

/-! ### Gathers (R269) -/

def gathN (d : Vector W64 9) : Nat := fieldOf (dw d 2) 0 32
def gathRB (d : Vector W64 9) : Nat := fieldOf (dw d 2) 32 6 + 1
def gathQD (d : Vector W64 9) : Bool := bitOf (dw d 4).toNat 63
/-- The descriptor has no reserved bit and a queue number from 8 to 15. -/
def gathDescOk (d : Vector W64 9) : Bool :=
  fieldOf (dw d 2) 38 26 == 0 && (if gathQD d then fieldOf (dw d 4) 4 59 == 0 && decide (8 ≤ fieldOf (dw d 4) 0 4)
    else fieldOf (dw d 4) 20 43 == 0) && fieldOf (dw d 5) 6 1 == 0 && fieldOf (dw d 5) 9 7 == 0 && fieldOf (dw d 5) 24 40 == 0
    && dw d 6 == 0 && dw d 7 == 0
/-- The first misaligned value: list, base, stride, offset. -/
def gathMisaligned (d : Vector W64 9) : Option W64 :=
  let off : List (W64 × Nat) := if gathQD d then [] else [(BitVec.ofNat 64 (fieldOf (dw d 4) 0 20), 64)]
  let all : List (W64 × Nat) := (dw d 0, 4) :: (dw d 1, 64) :: (dw d 3, 64) :: off
  (all.find? fun e => e.1.toNat % e.2 != 0).map (·.1)

/-! ### How a command ends (R275, R276) -/

/-- Completion fields: semaphore and event, for a copy and for a gather. -/
def semOfCopy (c : Copy) : Option Nat :=
  if c.gather then (if bitOf (dw c.desc 5).toNat 7 then some (fieldOf (dw c.desc 5) 0 6) else none)
  else if ctlOf c.desc 16 1 = 1 then some (ctlOf c.desc 17 6) else none
def evOfCopy (c : Copy) : Option Nat :=
  if c.gather then (if bitOf (dw c.desc 5).toNat 8 then some (fieldOf (dw c.desc 5) 16 8) else none)
  else if ctlOf c.desc 29 1 = 1 then some (ctlOf c.desc 30 8) else none
/-- Clusters whose semaphore a completion increments (R271, R275). -/
def semClusters (k : Nat) (c : Copy) : List Nat :=
  if !c.gather && ctlOf c.desc 15 1 == 1 then dstClusters c.desc else [k]
/-- One completion increment; a refusal is the command's failure when it has none (R23). -/
def semBump (n : Nat) (r : State × Nat) (k ctx : Nat) : State × Nat := match semOf r.1 k n ctx with
  | some v => (semPut r.1 k n ctx (clamp32 ((v.toNat : Int) + 1)), r.2)
  | none => (r.1, if r.2 = 0 then cPERM else r.2)
/-- The status word of R275. -/
def copyStatus (c : Copy) (cause evseq : Nat) : W64 :=
  let mc := !c.gather && isMC c.desc
  BitVec.ofNat 64 (2 ^ 63 + bit c.cancelled * 2 ^ 62 + bit mc * 2 ^ 61 + cause % 256 * 2 ^ 53 + evseq % 2 ^ 16 * 2 ^ 37
    + (if mc then c.denied.toNat else min c.bytes (2 ^ 32 - 1)))
/-- The status register receives its word (R273, R275). -/
def writeStatus (s : State) (g reg : Nat) (w : W64) : State :=
  if reg = 0 then s
  else onThread s g fun t => { t with rf := rfSetS t.rf reg w, busy := t.busy &&& ~~~((1 : W32) <<< reg) }
/-- A record to the supervisor, for which no answer is expected (R276, R379). -/
def permRecord (s : State) (k : Nat) (c : Copy) : State := match c.deny with
  | none => s
  | some va =>
    let f := newFault s c.ctx 1 c.g k
    let e := raiseEvent f.2 c.ctx none
    sendRecord e.2 c.ctx f.1 va (accWord .X true false (eszOf c.desc)) (BitVec.ofNat 64 (cPERM + 256 + c.denied.toNat * 2 ^ 32)) e.1
/-- A command leaves its engine: semaphore, event, status (R275); a cancelled one writes its status only (R278). The completion's event
is numbered before the fault record of the same cycle (R36). -/
def finishCopy (s : State) (k : Nat) (c : Copy) : State :=
  let s := onClu s k fun x => { x with cq := x.cq.filter fun e => e.id != c.id }
  let s := { s with waiting := s.waiting.filter fun w => some w.fid != c.fault }
  let r := if c.cancelled then (s, c.cause) else match semOfCopy c with
    | some n => (semClusters k c).foldl (fun r x => semBump n r x c.ctx) (s, c.cause)
    | none => (s, c.cause)
  let e := if c.cancelled then (0, r.1) else match evOfCopy c with
    | some b => raiseEvent r.1 c.ctx (some b)
    | none => (0, r.1)
  writeStatus (permRecord e.2 k c) c.g c.status (copyStatus c r.2 e.1)
/-- The command with an id. -/
def copyOf (s : State) (k id : Nat) : Option Copy := (getClu s k).cq.find? fun c => c.id == id
def putCopy (s : State) (k : Nat) (c : Copy) : State :=
  onClu s k fun x => { x with cq := x.cq.map fun e => if e.id = c.id then c else e }

/-! ### The forms (R269, R273, R278) -/

/-- A command that has nothing to move ends at once (R269, R274). -/
def acceptOrEnd (s : State) (r : State × Copy) (empty : Bool) : State := if empty then finishCopy r.1 (myClu s) r.2 else r.1

/-- `gath` (R269). -/
def execGath (o : Gath) (s : State) : Out := .next
  (bit0Form s o.p (do
    require (vopOk s o.b) cBOUNDS 0
    ready (decide (engineLen s (myClu s) < 64))
    let v := peekV s o.b
    let d : Vector W64 9 := #v[lane64 v 0, lane64 v 1, lane64 v 2, lane64 v 3, lane64 v 4, lane64 v 5, lane64 v 6, lane64 v 7, 0]
    require (gathDescOk d) cENGINE 0
    (match gathMisaligned d with
    | some x => trapE cMISALIGN x
    | none => .ok ())
    let n := gathN d * gathRB d * 64
    require (gathQD d || n == 0 || poolOk s.core s.th.act (fieldOf (dw d 4) 0 20) n) cBOUNDS 0
    .ok (acceptOrEnd s (acceptCopy s o.d o.a true d o.gran.toNat) (gathN d == 0))))

/-- `cpygo` (R273). -/
def execCpygo (o : SD2) (s : State) : Out := .next
  (bit0Form s o.p (do
    ready (decide (engineLen s (myClu s) < 64))
    let d := s.th.shadow
    require (copyDescOk d) cENGINE 0
    (match copyMisaligned d with
    | some x => trapE cMISALIGN (BitVec.ofInt 64 x)
    | none => .ok ())
    require ((srcKind d != 1 || rowsOk d 0 s.core s.th.act) && (dstKind d != 1 || rowsOk d 1 s.core s.th.act)) cBOUNDS 0
    .ok (acceptOrEnd s (acceptCopy s o.d o.a false d (ctlOf d 26 3)) (totalElems d == 0))))

/-- `cpycan` (R278). -/
def execCpycan (o : SD2) (s : State) : Out := .next
  (bit0Form s o.p (.ok (
    let w := getS s o.a
    let k := fieldOf w 32 9
    match (if fieldOf w 41 23 = 0 then copyOf s k (fieldOf w 0 32) else none) with
    | some c => if c.ctx = myCtx s then setS (finishCopy s k { c with cancelled := true }) o.d 1 else setS s o.d 0
    | none => setS s o.d 0)))

/-! ### The engine at work (R269, R274 to R277) -/

/-- Bytes that move: data and the state after the read, or why the element faults: address, access word, cause. -/
inductive EngRes (α : Type) where
  | ok (x : α)
  | wait
  | fault (va acc : W64) (cause : Nat)

/-- An engine's read in memory on a path (R285). -/
def engRead (s : State) (ctx k : Nat) (p : Path) (va n : Nat) : EngRes (List Byte × State) :=
  match xlateEngine s ctx k .read va with
  | .ok x s' => let r := homeRead s' ctx x.slot x.pa n; .ok (r.1, homeSeen r.2 p x.pa)
  | .page => .fault (BitVec.ofNat 64 va) (accWord p false false n) cPAGE
  | .perm => .fault (BitVec.ofNat 64 va) (accWord p false false n) cPERM

/-- Source of element `n` of a copy (R274). -/
def copySource (s : State) (k : Nat) (c : Copy) (n : Nat) : EngRes (List Byte × State) :=
  let a := elemAt c.desc 0 (srcKind c.desc) n
  if srcKind c.desc = 1 then .ok (poolBytesAt (getCore s (coreNo c.g)).pool a.toNat (eszOf c.desc), poolRead s (coreNo c.g) .X)
  else engRead s c.ctx k .X (wrapTo 64 a) (eszOf c.desc)

/-- A copy whose bytes remain where an earlier-issued one of its thread set writes them too (R274); combinations do not (R277). -/
def plainCopy (c : Copy) : Bool := !c.gather && (redOp c.desc).isNone
/-- Bytes of an element that no later-issued copy of the thread set has written (R274; log 74). -/
def uncovered (c : Copy) (place : Nat) (l : List (Nat × Byte)) : List (Nat × Byte) :=
  l.filter fun e => !c.later.any fun o => o.1 == place && decide (o.2.1 ≤ e.1) && decide (e.1 < o.2.1 + o.2.2)
/-- Bytes that a copy has written are kept from the earlier-issued copies of its thread set (R274). -/
def coverEarlier (k : Nat) (c : Copy) (place a n : Nat) (s : State) : State :=
  if !plainCopy c then s
  else
    let olds := ((getClu s k).cq.takeWhile fun e => e.id != c.id).map (·.id)
    let mark := fun (e : Copy) =>
      if olds.contains e.id && plainCopy e && e.g == c.g then { e with later := (place, a, n) :: e.later } else e
    onClu s k fun x => { x with cq := x.cq.map mark }
/-- An element written in a pool, but for bytes that a later-issued copy wrote. -/
def copyPool (k : Nat) (c : Copy) (core off : Nat) (data : List Byte) (s : State) : State :=
  coverEarlier k c core off data.length
    (poolWrote (onCore s core fun x => { x with pool := poolPutAll x.pool (uncovered c core (atAddr off data)) }) core .X)
/-- A write or combination of one element at its home (R274, R277). -/
def copyStore (k : Nat) (s : State) (c : Copy) (x : Xl) (data : List Byte) : State := match redTy c.desc, redOp c.desc with
  | some t, some op =>
    let r := homeRead s c.ctx x.slot x.pa data.length
    (homeWrite r.2 c.ctx x.slot .X 0 (atAddr x.pa (toBytes data.length (aopElem t op (ofBytes r.1) (ofBytes data)).1))).2
  | _, _ => coverEarlier k c numCores x.pa data.length
      (homeWrite s c.ctx x.slot .X 0 (uncovered c numCores (atAddr x.pa data))).2
/-- Permission that a copy's write needs (R358). -/
def copyAcc (c : Copy) : Acc := if (redOp c.desc).isSome then .xred else .xwrite

/-- Writes one element to the memory destinations from rank `k0` on. A multicast marks what is denied (R276). -/
def storeMem (cl : Nat) (data : List Byte) : List Nat → Nat → Nat → Copy × State → EngRes (Copy × State)
  | [], _, _, r => .ok r
  | _ :: ds, rank, va0, r =>
    let va := wrapTo 64 ((va0 : Int) + rank * signedOf 64 (dw r.1.desc 6).toNat)
    let acc := accWord .X true false (eszOf r.1.desc)
    match xlateEngine r.2 r.1.ctx cl (copyAcc r.1) va with
    | .page => .fault (BitVec.ofNat 64 va) acc cPAGE
    | .perm =>
      if isMC r.1.desc then
        let c := { r.1 with denied := r.1.denied ||| ((1 : W32) <<< rank), cause := if r.1.cause = 0 then cPERM else r.1.cause,
                            deny := some (r.1.deny.getD (BitVec.ofNat 64 va)) }
        storeMem cl data ds (rank + 1) va0 (c, dropWalks r.2 r.1.ctx cl)
      else .fault (BitVec.ofNat 64 va) acc cPERM
    | .ok x s => storeMem cl data ds (rank + 1) va0 (r.1, copyStore cl s r.1 x data)

/-- Room in a queue register of any core, and a push there (R20, R57). -/
def roomAt (s : State) (core q : Nat) : Bool := qRoom (if core = myCore s then s else focus s (4 * core)) q
def pushAt (s : State) (core q : Nat) (e : V512) : State := onCore s core fun c => qSet c q (qOf c q ++ [e])

/-- Destination of element `n` (R274). -/
def copyDest (s : State) (k : Nat) (c : Copy) (n : Nat) (data : List Byte) : EngRes (Copy × State) :=
  let a := elemAt c.desc 1 (dstKind c.desc) n
  match dstKind c.desc with
  | 0 => storeMem k data (if isMC c.desc then dstClusters c.desc else [0]) 0 (wrapTo 64 a) (c, s)
  | 1 => .ok (c, copyPool k c (coreNo c.g) a.toNat data s)
  | 2 =>
    let q := ctlOf c.desc 10 4
    if roomAt s (coreNo c.g) q then .ok (c, pushAt s (coreNo c.g) q (BitVec.ofNat 512 (ofBytes data))) else .wait
  | _ =>
    let l := dstClusters c.desc
    .ok (c, (List.range l.length).foldl (fun s i =>
      if bitOf c.denied.toNat i then s
      else copyPool k c (dstCore c.desc (l.getD i 0)) a.toNat data s) s)

/-- One element of a copy. -/
def moveCopy (s : State) (k : Nat) (c : Copy) (n : Nat) : EngRes (Copy × State) :=
  match copySource s k c n with
  | .wait => .wait
  | .fault a b d => .fault a b d
  | .ok (data, s1) => match copyDest s1 k c n data with
    | .ok (c', s2) => .ok ({ c' with bytes := c'.bytes + eszOf c.desc }, s2)
    | r => r

/-- Index of a row of a gather, read once (R269, R270). -/
def gatherIndex (s : State) (k : Nat) (c : Copy) (row : Nat) : EngRes (Copy × State) := match amFind c.kidx row with
  | some _ => .ok (c, s)
  | none => match engRead s c.ctx k .G (((dw c.desc 0).toNat + 4 * row) % 2 ^ 64) 4 with
    | .ok (b, s') => .ok ({ c with kidx := amSet c.kidx row (ofBytes b) }, s')
    | .wait => .wait
    | .fault a b d => .fault a b d
/-- One 64-byte chunk of a gather, whose index is known (R269). -/
def moveGather (s : State) (k : Nat) (c : Copy) (n : Nat) : EngRes (Copy × State) :=
  let idx := amGet 0 c.kidx (n / gathRB c.desc)
  let va := ((dw c.desc 1).toNat + idx * (dw c.desc 3).toNat + 64 * (n % gathRB c.desc)) % 2 ^ 64
  match engRead s c.ctx k .G va 64 with
  | .wait => .wait
  | .fault a b d => .fault a b d
  | .ok (data, s2) =>
    let c' := { c with bytes := c.bytes + 64 }
    let q := fieldOf (dw c.desc 4) 0 4
    if gathQD c.desc then
      (if roomAt s2 (coreNo c.g) q then .ok (c', pushAt s2 (coreNo c.g) q (BitVec.ofNat 512 (ofBytes data))) else .wait)
    else .ok (c', poolWrote (onCore s2 (coreNo c.g) fun x =>
      { x with pool := poolPutAll x.pool (atAddr (fieldOf (dw c.desc 4) 0 20 + n * 64) data) }) (coreNo c.g) .G)

/-- Elements of a command, and first element of its group `n` (R269, R274): 2^g chunks, or rows of a gather, make a group. -/
def cmdTotal (c : Copy) : Nat := if c.gather then gathN c.desc * gathRB c.desc else totalElems c.desc
def chunksPerRow (d : Vector W64 9) : Nat := (xbOf d + 4095) / 4096
def groupStart (c : Copy) (n : Nat) : Nat :=
  if n = 0 then 0
  else if c.gran = 7 then cmdTotal c
  else
    let ch := n * 2 ^ c.gran
    min (cmdTotal c) (if c.gather then ch * gathRB c.desc
      else ch / chunksPerRow c.desc * rowElems c.desc + ch % chunksPerRow c.desc * (4096 / eszOf c.desc))
def groupLen (c : Copy) : Nat := groupStart c (c.groups + 1) - groupStart c c.groups
/-- A list names each number below `n` once. -/
def isOrder (n : Nat) (l : List Nat) : Bool := l.length == n && (List.range n).all l.contains

/-- An engine fault of a command (R171, R274, R379): its message goes out, and it waits for its answer. -/
def copyFaults (s : State) (k : Nat) (c : Copy) (va acc : W64) (cause : Nat) : State :=
  let f := newFault s c.ctx (if c.gather then 2 else 1) c.g k
  let e := raiseEvent f.2 c.ctx none
  let s := sendFault e.2 c.ctx f.1 va acc (BitVec.ofNat 64 cause) e.1
  let s := { s with waiting := s.waiting ++ [{ fid := f.1, va := va, acc := acc, cause := cause, g := c.g }] }
  putCopy s k { c with fault := some f.1 }

/-- The command has begun a group and not ended it: it stands off a split point (R269, R274). -/
def midGroup (c : Copy) : Bool := decide (0 < c.elems) || !c.early.isEmpty
/-- Its elements are pushed on a queue register, in ascending order. -/
def intoQueue (c : Copy) : Bool := if c.gather then gathQD c.desc else dstKind c.desc == 2
/-- The queue register that it pushes on. -/
def queueNo (c : Copy) : Nat := if c.gather then fieldOf (dw c.desc 4) 0 4 else ctlOf c.desc 10 4
/-- It pushes on a queue register that is full. -/
def queueWaits (s : State) (c : Copy) : Bool := intoQueue c && !roomAt s (coreNo c.g) (queueNo c)
/-- Element of the group that goes next. -/
def nextElem (c : Copy) : Nat := c.order.getD c.elems c.elems
/-- The engine ends a group: it stands at a split point. -/
def endGroup (c : Copy) : Copy :=
  let n := groupStart c (c.groups + 1) / gathRB c.desc
  { c with groups := c.groups + 1, elems := 0, order := [], early := [],
           kidx := if c.gather then c.kidx.filter fun e => decide (n ≤ e.1) else [] }
/-- One element of a command's group (R269, R274): its movement, or the command as it waits or faults there. -/
def moveElem (k i : Nat) (c : Copy) (s : State) : Except (Copy × State) (Copy × State) :=
  let n := groupStart c c.groups + i
  let stop := fun (c : Copy) (s : State) (r : EngRes (Copy × State)) => match r with
    | .ok x => (.ok x : Except (Copy × State) (Copy × State))
    | .wait => .error (c, putCopy s k c)
    | .fault va acc cause => .error (c, copyFaults s k { c with stuck := i } va acc cause)
  if c.gather then do
    let r ← stop c s (gatherIndex s k c (n / gathRB c.desc))
    stop r.1 r.2 (moveGather r.2 k r.1 n)
  else stop c s (moveCopy s k c n)
/-- Moves the elements of the current group that are left, `fuel` of them: whether the group is done. -/
def moveGroup (k : Nat) : Nat → Copy → State → Bool × State
  | 0, c, s => (true, putCopy s k (endGroup c))
  | fuel + 1, c, s =>
    let i := nextElem c
    if c.early.contains i then moveGroup k fuel { c with elems := c.elems + 1, early := c.early.filter (· != i) } s
    else match moveElem k i c s with
      | .ok r => moveGroup k fuel { r.1 with elems := r.1.elems + 1 } r.2
      | .error r => (false, r.2)

/-- Priority of a command. -/
def prioOf (c : Copy) : Nat := if c.gather then 0 else ctlOf c.desc 23 3
/-- The first of highest priority. -/
def bestOf (l : List Copy) : Option Copy :=
  l.foldl (fun b c => match b with
    | some x => if prioOf x < prioOf c then some c else some x
    | none => some c) none
/-- A command may start: no earlier copy of its thread set waits to start (R274). -/
def mayStart (l : List Copy) (c : Copy) : Bool :=
  !c.started && (c.gather || (l.takeWhile fun e => e.id != c.id).all fun e => e.gather || e.started || e.g != c.g)
/-- Destinations of an RPOOL copy that its start skips, with the first cause (R274). -/
def skipsOf (s : State) (c : Copy) : W32 × Nat :=
  let l := dstClusters c.desc
  let part := getPart s (getCtx s c.ctx).part
  (List.range l.length).foldl (fun r i =>
    let k := l.getD i 0
    let core := dstCore c.desc k
    let x := getCore s core
    let cause := if !inRect part k || x.ctx != some c.ctx then cPERM
      else if rowsOk c.desc 1 x (if core = coreNo c.g then (threadAt s c.g).act else none) then 0 else cBOUNDS
    if cause = 0 then r else (r.1 ||| ((1 : W32) <<< i), if r.2 = 0 then cause else r.2)) (0, 0)
/-- Start of a command. -/
def startCopy (s : State) (k : Nat) (c : Copy) : State :=
  if !c.gather && dstKind c.desc == 3 then
    let r := skipsOf s c
    putCopy s k { c with started := true, denied := r.1, cause := r.2 }
  else putCopy s k { c with started := true }
/-- A single RPOOL destination that was skipped moves nothing. -/
def nothingLeft (c : Copy) : Bool :=
  groupStart c c.groups == cmdTotal c ||
  (!c.gather && dstKind c.desc == 3 && (List.range (dstClusters c.desc).length).all fun i => bitOf c.denied.toNat i)

/-- Engine work of a context goes on unless it drains (R385). -/
def engineRuns (s : State) (ctx : Nat) : Bool := (getCtx s ctx).created && !(getCtx s ctx).draining
/-- A command that has begun a group goes on to its next split point, while its context drains too (R385). -/
def copyRuns (s : State) (c : Copy) : Bool := engineRuns s c.ctx || ((getCtx s c.ctx).created && midGroup c)
/-- A started command that has elements to move and waits for no answer; at a split point it waits for room in its queue. -/
def mayMove (s : State) (c : Copy) : Bool :=
  c.started && c.fault.isNone && !nothingLeft c && (midGroup c || (engineRuns s c.ctx && !queueWaits s c))
/-- The engine serves a command: the one that stands off a split point, or else the first of highest priority (R274). -/
def served (s : State) (k : Nat) (c : Copy) : Bool :=
  let l := (getClu s k).cq.filter (mayMove s)
  (match l.find? midGroup with
    | some m => some m.id
    | none => (bestOf l).map (·.id)) == some c.id

/-- Group by group, while the engine serves this command (R274). -/
def runGroups (k id : Nat) (ord : List Nat) : Nat → State → State
  | 0, s => s
  | fuel + 1, s =>
    match copyOf s k id with
    | none => s
    | some c =>
      if !served s k c then s
      else
        let c := if !midGroup c && !intoQueue c && isOrder (groupLen c) ord then { c with order := ord } else c
        match moveGroup k (groupLen c - c.elems) c s with
        | (true, s') => runGroups k id [] fuel s'
        | (false, s') => s'

/-- The engine moves one element of the group of a command that it serves (R274). -/
def evElement (k id n : Nat) (s : State) : Option State := match copyOf s k id with
  | none => none
  | some c =>
    let done := (List.range c.elems).any fun j => c.order.getD j j == n
    if !served s k c || decide (groupLen c ≤ n) || done || c.early.contains n || (intoQueue c && n != nextElem c) then none
    else match moveElem k n c s with
      | .error r => some r.2
      | .ok r =>
        let c := { r.1 with early := n :: r.1.early }
        some (putCopy r.2 k (if c.elems + c.early.length = groupLen c then endGroup c else c))
/-- A started gather reads the index of a row that it has not reached (R270). -/
def evIndex (k id row : Nat) (s : State) : Option State := match copyOf s k id with
  | none => none
  | some c =>
    if !c.gather || !c.started || c.fault.isSome || !engineRuns s c.ctx || decide (gathN c.desc ≤ row) || (amFind c.kidx row).isSome
        || decide (row < groupStart c c.groups / gathRB c.desc) then none
    else match gatherIndex s k c row with
      | .ok r => some (putCopy r.2 k r.1)
      | _ => none

/-- COPY_START: the engine starts a command, or goes on with it, for some groups, the first in a given element order. -/
def evCopyStart (k id groups : Nat) (ord : List Nat) (s : State) : Option State :=
  match copyOf s k id with
  | none => none
  | some c =>
    let l := (getClu s k).cq
    if !copyRuns s c then none
    else if c.started then (if groups = 0 then none else some (runGroups k id ord groups s))
    else if (bestOf (l.filter fun e => mayStart l e && engineRuns s e.ctx)).map (·.id) = some id then
      some (runGroups k id ord groups (startCopy s k c))
    else none
def execCopyStart (cluster id groups : Nat) (order : List Nat) (s : State) : Out :=
  .next ((evCopyStart cluster id groups order s).getD s)

/-- Groups of a command. -/
def groupsLeft (c : Copy) : Nat := cmdTotal c + 1 - groupStart c c.groups
/-- COPY_COMPLETE: the rest moves, and the command ends when nothing is left (R275). -/
def evCopyComplete (k id : Nat) (s : State) : Option State :=
  match copyOf s k id with
  | none => none
  | some c =>
    if !c.started || !copyRuns s c then none
    else
      let s := runGroups k id [] (groupsLeft c) s
      match copyOf s k id with
      | none => some s
      | some d => if nothingLeft d && d.fault.isNone then some (finishCopy s k d) else if d == c then none else some s
def execCopyComplete (cluster id : Nat) (s : State) : Out := .next ((evCopyComplete cluster id s).getD s)

/-- ENGINE_FAULT: the command goes on and meets a fault, which stops it with its message (R274, R383). -/
def evEngineFault (k id : Nat) (s : State) : Option State :=
  match copyOf s k id with
  | none => none
  | some c =>
    if !copyRuns s c || !served s k c then none
    else
      let s' := (moveGroup k (groupLen c - c.elems) c s).2
      match copyOf s' k id with
      | some d => if d.fault.isSome then some s' else none
      | none => none
def execEngineFault (cluster id : Nat) (s : State) : Out := .next ((evEngineFault cluster id s).getD s)

/-- The answer to a command's engine fault (R380, R383): 0 retry, 1 abort, 2 discard of the write. -/
def copyAnswer (s : State) (k : Nat) (c : Copy) (w : Waiting) (act : Nat) : State :=
  let write := bitOf w.acc.toNat 4
  let c := { c with fault := none }
  if act = 0 then putCopy s k c
  else if act = 2 && write then
    putCopy s k { c with cause := if c.cause = 0 then w.cause else c.cause, early := c.stuck :: c.early }
  else finishCopy s k { c with cause := w.cause }

end Machine
end Sys2Proof
end

