-- ==== Sys2Proof/Machine/MxMath.lean ====
section
/-!
DEFINITION. MxMath: the arithmetic of the matrix unit (R98 to R101, R178 to R189), on values and FP32 patterns: alignment, the
product with a macro, promotion, sums and products of factors, the recurrence program and the reef.
-/
namespace Sys2Proof
namespace Machine

/-! ### FP32 steps on patterns -/

def w32 (n : Nat) : W32 := BitVec.ofNat 32 n
/-- rne32(x × y + c). -/
def fmaW (x y c : W32) : W32 := w32 (fFma .f32 .rne false false false x.toNat y.toNat c.toNat).1
def addW (x y : W32) : W32 := w32 (add32 x.toNat y.toNat)
def subW (x y : W32) : W32 := w32 (sub32 x.toNat y.toNat)
def mulW (x y : W32) : W32 := w32 (mul32 x.toNat y.toNat)
def divW (x y : W32) : W32 := w32 (div32 x.toNat y.toNat)
def negW (x : W32) : W32 := x ^^^ 0x80000000
def sqrtW (x : W32) : W32 := w32 (fSqrt .f32 .rne false x.toNat).1
def ltW (x y : W32) : Bool := lt32 x.toNat y.toNat
def leW (x y : W32) : Bool := le32 x.toNat y.toNat
def nanW : W32 := 0x7FC00000
def oneW : W32 := 0x3F800000
/-- An infinity or a NaN. -/
def wildW (x : W32) : Bool := x.toNat / 2 ^ 23 % 256 == 255
/-- Element `i` of a column or row. -/
def at32 (l : List W32) (i : Nat) : W32 := l.getD i 0
/-- dot of R182: from +0, one fused step per index. -/
def dotW (x y : List W32) : W32 := (x.zip y).foldl (fun acc e => fmaW e.1 e.2 acc) 0
/-- Row `i` of a matrix held by columns, and the columns of one held by rows. -/
def rowAcross (cols : List (List W32)) (i : Nat) : List W32 := cols.map fun c => at32 c i
def transposeW (n : Nat) (m : List (List W32)) : List (List W32) := (List.range n).map (rowAcross m)

/-! ### Alignment and the product (R98 to R101) -/

/-- An infinity or a NaN. -/
def FV.wild (v : FV) : Bool := match v with
  | .fin _ _ _ => false
  | _ => true
/-- ex of a nonzero value: the exponent of its leading bit. -/
def FV.ex (v : FV) : Option Int := match v with
  | .fin _ m e => if m = 0 then none else some (Nat.log2 m + e)
  | _ => none
/-- rint(v × 2^p). -/
def FV.rint (v : FV) (p : Int) : Int := match v with
  | .fin n m e => signInt n (toIntMag .rne n m (e + p)).1
  | _ => 0
/-- The alignment of R98 and R99 to `w` magnitude bits: the shared exponent and the aligned values. -/
def alignVals (w : Nat) (l : List FV) : Int × List Int :=
  let top := l.foldl (fun (b : Option Int) v => match b, v.ex with
    | some x, some y => some (max x y)
    | some x, none => some x
    | none, y => y) none
  let f := top.getD 0
  let a := l.map fun v => v.rint (w - 1 - f)
  if a.any fun x => x.natAbs == 2 ^ w then (f + 1, l.map fun v => v.rint (w - 1 - (f + 1))) else (f, a)

/-- A loaded B tile: columns of cells, exponents, marks and mB. -/
structure BTile where
  cols : List (List Int)
  exps : List Int
  marks : BitVec 64
  mB : Nat
  deriving DecidableEq, Repr

/-- The tile of 64 rows of values (R98, R101). -/
def buildB (t : Ty) (rows : List (List FV)) : BTile :=
  let mB := if t.w = 16 then 15 else 7
  let cols := (List.range 64).map fun j => rows.map fun r => r.getD j (.fin false 0 0)
  let al := cols.map fun c =>
    if t = .i8 then (6, c.map fun v => v.rint 0)
    else if c.any FV.wild then (0, c.map fun _ => 0)
    else alignVals mB c
  { cols := al.map (·.2), exps := al.map (·.1), mB := mB,
    marks := BitVec.ofNat 64 (joinDigits 1 (cols.map fun c => bit (c.any FV.wild))) }

/-- One row of results against a tile (R99 to R101). -/
def mulRow (mA : Nat) (b : BTile) (row : List FV) : List W32 :=
  if row.any FV.wild then List.replicate 64 nanW
  else
    let fa := alignVals mA row
    (List.range 64).map fun j =>
      if bitOf b.marks.toNat j then nanW
      else
        let s : Int := ((fa.2.zip (b.cols.getD j [])).map fun e => e.1 * e.2).foldl (· + ·) 0
        w32 (encFV .f32 .ieee .rne false
          (.fin (decide (s < 0)) s.natAbs (fa.1 - (mA - 1) + (b.exps.getD j 0 - (b.mB - 1))))).1
/-- Rows of results; a macro lost to a parity error gives NaN everywhere (R172). -/
def mulRows (mA : Nat) (b : Option BTile) (rows : List (List FV)) : List (List W32) := match b with
  | some t => rows.map (mulRow mA t)
  | none => rows.map fun _ => List.replicate 64 nanW

/-- The macro's contents, back as a tile: a single, or a pair's two halves (R98). -/
def tileOf (lo hi : MArr) : Option BTile := match lo, hi with
  | .loaded 0 c e m false, _ => some { cols := c, exps := e, marks := m, mB := 7 }
  | .loaded 1 c e m false, .loaded 2 h _ _ false =>
    some { cols := (c.zip h).map fun p => (p.1.zip p.2).map fun x => 256 * x.2 + x.1, exps := e, marks := m, mB := 15 }
  | _, _ => none
/-- The one or two macros that hold a tile (R98, R163). -/
def macrosOf (b : BTile) : MArr × Option MArr :=
  if b.mB = 15 then
    (.loaded 1 (b.cols.map fun c => c.map (· % 256)) b.exps b.marks false,
      some (.loaded 2 (b.cols.map fun c => c.map (· / 256)) b.exps b.marks false))
  else (.loaded 0 b.cols b.exps b.marks false, none)

/-! ### Registers: promotion, sums, products (R178, R181 to R186) -/

/-- Values of an FP32 pattern. -/
def fvW (x : W32) : FV := fdec .f32 .ieee x.toNat
/-- The 64 × 64 values of a register (R159, R182). -/
def denseOf (m : MVal) : List (List W32) := match m with
  | .zero => List.replicate 64 (List.replicate 64 0)
  | .dense r => r
  | .factor u v =>
    let vr := transposeW 64 v
    (transposeW 64 u).map fun x => vr.map fun y => dotW x y
/-- Transposition (R181). -/
def mtrOf (m : MVal) : MVal := match m with
  | .zero => .zero
  | .dense r => .dense (transposeW 64 r)
  | .factor u v => .factor v u
/-- Scaling (R181). -/
def mscaleOf (c : W32) (m : MVal) : MVal := match m with
  | .zero => .zero
  | .dense r => .dense (r.map fun l => l.map fun x => mulW x c)
  | .factor u v => .factor (u.map fun l => l.map fun x => mulW x c) v
/-- Sum of two registers (R183); of an old value and a product (R186). -/
def mlraddOf (a b : MVal) : MVal := match a, b with
  | .zero, b => b
  | a, .zero => a
  | .factor ua va, .factor ub vb => .factor (ua ++ ub) (va ++ vb)
  | a, b => .dense ((denseOf a).zipWith (fun x y => x.zipWith addW y) (denseOf b))
/-- Product of two registers (R184). -/
def mlrmulOf (a b : MVal) : MVal := match a, b with
  | .zero, _ => .zero
  | _, .zero => .zero
  | .factor ua va, .factor ub vb =>
    let m := va.map fun p => ub.map fun q => dotW p q
    if ua.length ≤ ub.length then
      let vr := transposeW 64 vb
      .factor ua (m.map fun row => vr.map fun y => dotW y row)
    else
      let ur := transposeW 64 ua
      .factor ((List.range ub.length).map fun q => ur.map fun x => dotW x (m.map fun row => at32 row q)) vb
  | .dense x, .factor ub vb => .factor (ub.map fun q => x.map fun row => dotW row q) vb
  | .factor ua va, .dense y =>
    let cols := transposeW 64 y
    .factor ua (va.map fun p => cols.map fun c => dotW c p)
  | .dense x, .dense y =>
    let cols := transposeW 64 y
    .dense (x.map fun row => cols.map fun c => dotW row c)
/-- Product of a register or of a location's rows with a tile (R186). -/
def mmulReg (mA : Nat) (b : Option BTile) (a : MVal) : MVal := match a with
  | .zero => .zero
  | .factor u v => .factor u (mulRows mA b (v.map fun c => c.map fvW))
  | .dense r => .dense (mulRows mA b (r.map fun l => l.map fvW))

/-! ### Shapes (R159 to R161, R183 to R189) -/

/-- Granules of a shape; a pending result holds what its rank needs (R159, R189). -/
def occOf (x : Shape) : Nat := match x with
  | .zero => 0
  | .factor r => 2 * r
  | .pending r => 2 * r
  | .dense => 64
/-- The record is not pending. -/
def Shape.known (x : Shape) : Bool := match x with
  | .pending _ => false
  | _ => true
/-- Shape of a sum. -/
def sumShape (a b : Shape) : Shape := match a, b with
  | .zero, b => b
  | a, .zero => a
  | .factor x, .factor y => .factor (x + y)
  | _, _ => .dense
/-- Shape of a product. -/
def prodShape (a b : Shape) : Shape := match a, b with
  | .zero, _ => .zero
  | _, .zero => .zero
  | .factor x, .factor y => .factor (min x y)
  | .factor x, _ => .factor x
  | _, .factor y => .factor y
  | _, _ => .dense
/-- RANKOVF of R183 and R186. -/
def rankOk (a b : Shape) (mrmax : Nat) : Bool := match a, b with
  | .factor x, .factor y => decide (x + y ≤ mrmax)
  | _, _ => true

/-! ### The recurrence program (R187, R188) -/

/-- A well-formed operation word. -/
def recWordOk (w : Nat) : Bool :=
  bitsOf w 20 12 == 0 && bitsOf w 6 2 == 0 && decide (bitsOf w 4 2 ≤ 2) && decide (bitsOf w 0 4 ≤ 9) &&
  decide (bitsOf w 8 4 ≤ 8) && decide (bitsOf w 12 4 ≤ 8) && decide (bitsOf w 16 4 ≤ 8)
/-- The registers of the recurrence: s, t0, t1. -/
structure RecSt where
  s : W32
  t0 : W32
  t1 : W32
  deriving DecidableEq, Repr
/-- FP32 result of an operation on exact values; `select` moves patterns and is not one of them. -/
def recOp (op : Nat) (x y z : FV) : W32 :=
  let nan := x.isNan || y.isNan
  match op with
  | 1 => if nan then nanW else w32 (addFV .f32 .rne false x y).1
  | 2 => if nan then nanW else w32 (addFV .f32 .rne false x y.negate).1
  | 3 => if nan then nanW else (match mulFV x y with
    | some p => w32 (encFV .f32 .ieee .rne false p).1
    | none => nanW)
  | 4 => w32 (fmaFV .f32 .rne false false false x y z).1
  | 5 | 6 =>
    let pick := if x.isNan then y else if y.isNan then x
      else if op = 6 then (if ltFV true x y then y else x) else (if ltFV true y x then y else x)
    w32 (encFV .f32 .ieee .rne false pick).1
  | 7 => w32 (fvExp2 .f32 .rne false x).1
  | 8 => w32 (fvLog2 .f32 .rne false x).1
  | _ => nanW
/-- Pattern of an operand of an operation word; the B value is rounded to FP32 where a pattern is moved (R188). -/
def recPat (prog : V512) (a : W32) (b : FV) (r : RecSt) (code : Nat) : W32 := match code with
  | 0 => r.s
  | 1 => a
  | 2 => w32 (encFV .f32 .ieee .rne false b).1
  | 3 => r.t0
  | 4 => r.t1
  | n => w32 (lane prog (n - 1))
/-- Operand of an operation word; the B value is exact. -/
def recArg (prog : V512) (a : W32) (b : FV) (r : RecSt) (code : Nat) : FV := if code = 2 then b else fvW (recPat prog a b r code)
/-- `select` (R79, R188): the pattern of Y where X is above zero, else of Z. -/
def recSelect (x : FV) (y z : W32) : W32 := if !x.isNan && ltFV false (.fin false 0 0) x then y else z
/-- One operation word. -/
def recStep (prog : V512) (a : W32) (b : FV) (r : RecSt) (n : Nat) : RecSt :=
  let w := lane prog n
  if bitsOf w 0 4 = 0 then r
  else
    let x := bitsOf w 8 4
    let y := bitsOf w 12 4
    let z := bitsOf w 16 4
    let v := if bitsOf w 0 4 = 9 then recSelect (recArg prog a b r x) (recPat prog a b r y) (recPat prog a b r z)
      else recOp (bitsOf w 0 4) (recArg prog a b r x) (recArg prog a b r y) (recArg prog a b r z)
    match bitsOf w 4 2 with
    | 0 => { r with s := v }
    | 1 => { r with t0 := v }
    | _ => { r with t1 := v }
/-- The B value of a cell, read exactly, or NaN in a marked column (R188). -/
def cellFV (b : BTile) (k j : Nat) : FV :=
  if bitOf b.marks.toNat j then .nan false
  else
    let c := (b.cols.getD j []).getD k 0
    .fin (decide (c < 0)) c.natAbs (b.exps.getD j 0 - (b.mB - 1))
/-- The program over one element. -/
def recElem (prog : V512) (b : BTile) (row : List W32) (j : Nat) (s : W32) : W32 :=
  (List.range 64).foldl (fun s k =>
    ((List.range 4).foldl (recStep prog (at32 row k) (cellFV b k j)) { s := s, t0 := 0, t1 := 0 }).s) s
/-- `mrun`: a macro lost to a parity error gives NaN everywhere (R172, R188). -/
def mrunOf (prog : V512) (b : Option BTile) (a d : MVal) : MVal := match b with
  | none => .dense (List.replicate 64 (List.replicate 64 nanW))
  | some t =>
    let ar := denseOf a
    let dr := denseOf d
    .dense ((List.range 64).map fun i => (List.range 64).map fun j => recElem prog t (ar.getD i []) j (at32 (dr.getD i []) j))

/-! ### The reef (R189) -/

/-- rne32(2 × d / vv), rounded once. -/
def twiceOver (d vv : W32) : W32 := match fvW d, fvW vv with
  | .fin a m e, .fin b n k => if m = 0 ∨ n = 0 then divW d vv else w32 (divMag .f32 .rne false (a != b) m (e + 1) n k).1
  | _, _ => divW d vv
/-- reflect(y, j) of R189, with v and vv of the reflection. -/
def reflectW (j : Nat) (v : List W32) (vv : W32) (y : List W32) : List W32 :=
  let f := twiceOver (dotW (v.drop j) (y.drop j)) vv
  y.take j ++ ((v.drop j).zip (y.drop j)).map fun e => w32 (fFma .f32 .rne false true false f.toNat e.1.toNat e.2.toNat).1
/-- State of qr: the columns of X and the reflections so far. -/
structure QrSt where
  x : List (List W32)
  refl : List (Option (List W32 × W32))
  deriving DecidableEq, Repr
/-- One column of qr. -/
def qrStep (q : QrSt) (j : Nat) : QrSt :=
  let col := q.x.getD j []
  let tail := col.drop j
  let nrm := sqrtW (dotW tail tail)
  let alpha := if ltW (at32 col j) 0 then nrm else negW nrm
  let v := List.replicate j 0 ++ (subW (at32 col j) alpha :: col.drop (j + 1))
  let vv := dotW (v.drop j) (v.drop j)
  if eq32 vv.toNat 0 then { q with refl := q.refl ++ [none] }
  else
    let x := (List.range q.x.length).map fun c =>
      let y := q.x.getD c []
      if c = j then y.take j ++ (alpha :: List.replicate (63 - j) 0)
      else if j < c then reflectW j v vv y
      else y
    { x := x, refl := q.refl ++ [some (v, vv)] }
/-- qr(X) for the columns of X: Q by columns and Rm by rows. -/
def qrOf (x : List (List W32)) : List (List W32) × List (List W32) :=
  let r := x.length
  let q := (List.range r).foldl qrStep { x := x, refl := [] }
  let rm := (List.range r).map fun a => (List.range r).map fun b => if a ≤ b then at32 (q.x.getD b []) a else 0
  let id0 := (List.range r).map fun c => (List.range 64).map fun i => if i = c then oneW else 0
  ((List.range r).reverse.foldl (fun cols j => match q.refl.getD j none with
    | some (v, vv) => cols.map (reflectW j v vv)
    | none => cols) id0, rm)
/-- One rotation of columns p and q of K and W. -/
def rotate (p q : Nat) (kw : List (List W32) × List (List W32)) : List (List W32) × List (List W32) :=
  let kp := kw.1.getD p []
  let kq := kw.1.getD q []
  let ga := dotW kp kq
  if eq32 ga.toNat 0 then kw
  else
    let ze := divW (subW (dotW kq kq) (dotW kp kp)) (mulW 0x40000000 ga)
    let sg : W32 := if leW 0 ze then oneW else negW oneW
    let t := divW sg (addW (w32 (abs32 ze.toNat)) (sqrtW (addW oneW (mulW ze ze))))
    let c := divW oneW (sqrtW (addW oneW (mulW t t)))
    let s := mulW c t
    let turn := fun (m : List (List W32)) =>
      let x := m.getD p []
      let y := m.getD q []
      (m.set p ((x.zip y).map fun e => subW (mulW c e.1) (mulW s e.2))).set q
        ((x.zip y).map fun e => addW (mulW s e.1) (mulW c e.2))
    (turn kw.1, turn kw.2)
/-- Six sweeps over the pairs p < q. -/
def sweeps (r : Nat) (kw : List (List W32) × List (List W32)) : List (List W32) × List (List W32) :=
  let pairs := (List.range r).flatMap fun p => ((List.range r).filter (p < ·)).map fun q => (p, q)
  (List.range 6).foldl (fun kw _ => pairs.foldl (fun kw e => rotate e.1 e.2 kw) kw) kw
/-- The rank that the tolerance keeps of the ordered squared singular values. -/
def dropTail (n : List W32) (lim : W32) : Nat → W32 → Nat
  | 0, _ => 0
  | k + 1, d =>
    let d' := addW d (at32 n k)
    if leW d' lim then dropTail n lim k d' else k + 1
/-- The reef of a factor (R189). -/
def reefOf (u v : List (List W32)) (mtol : W32) : MVal :=
  let r := u.length
  if (u ++ v).any fun c => c.any wildW then
    .factor (List.replicate r (List.replicate 64 nanW)) (List.replicate r (List.replicate 64 nanW))
  else
    let qu := qrOf u
    let qv := qrOf v
    let k0 := (List.range r).map fun b => (List.range r).map fun a => dotW (qu.2.getD a []) (qv.2.getD b [])
    let w0 := (List.range r).map fun c => (List.range r).map fun i => if i = c then oneW else 0
    let kw := sweeps r (k0, w0)
    let n := kw.1.map fun c => dotW c c
    let order := sortBy (fun a b => isNan32 (at32 n a).toNat || (!isNan32 (at32 n b).toNat && leW (at32 n b) (at32 n a))) (List.range r)
    let total := n.foldl addW 0
    let lim := mulW (mulW mtol mtol) total
    let k := dropTail (order.map (at32 n)) lim r 0
    if k = 0 then .zero
    else
      let qur := transposeW 64 qu.1
      let qvr := transposeW 64 qv.1
      .factor ((order.take k).map fun o => qur.map fun row => dotW row (kw.1.getD o []))
        ((order.take k).map fun o => qvr.map fun row => dotW row (kw.2.getD o []))

end Machine
end Sys2Proof
end

