-- ==== Sys2Proof/Machine/Remote.lean ====
section
/-!
DEFINITION. Remote: path P (R294 to R307): `rst` and `send`, their packets on the mesh, delivery, acknowledgement and
forwarding, and the naming of residents by their nominal cores (R336, R337, R344, R345).
-/
namespace Sys2Proof
namespace Machine

/-! ### Classes and residents (R329, R330, R335, R336) -/

/-- Class entry of a context; one that was never installed is zero (R329). -/
def classOf (s : State) (ctx cls : Nat) : BitVec 128 := amGet 0 (getCtx s ctx).classes cls
/-- HANDLER and the fields of CTL. -/
def classHandler (e : BitVec 128) : W64 := BitVec.ofNat 64 (bitsOf e.toNat 0 64)
def classCtl (e : BitVec 128) (lo len : Nat) : Nat := bitsOf e.toNat (64 + lo) len
def classFunc (e : BitVec 128) : Nat := classCtl e 0 2
def classPrio (e : BitVec 128) : Nat := classCtl e 2 2

/-- The queue register that a class is bound to on a core, and whether it is masked (R330). -/
def bindOf (c : CoreSt) (cls : Nat) : Option (Nat × Bool) := (List.range 8).findSome? fun i =>
  match c.binds.toList[i]? with
  | some b => if b.bound && b.cls == cls then some (i, b.masked) else none
  | none => none
/-- A class belongs to a resident. -/
def Resident.hasClass (r : Resident) (cls : Nat) : Bool := bitOf r.classes.toNat cls
/-- The instance that a resident is, and an instance's key in the placement maps; a launch entry that is used again has a new
generation. -/
def Resident.id (r : Resident) : Inst := ⟨r.lid, r.gen, r.inst⟩
def instKey (i : Inst) : Nat := (i.gen * 256 + i.lid) * numCores + i.inst
def fwdKey (ctx : Nat) (i : Inst) : Nat := ctx * 2 ^ 64 + instKey i
/-- The 64 bytes at an offset meet a resident's region span. -/
def Resident.spans (r : Resident) (off : Nat) : Bool :=
  decide (0 < r.spanLen) && decide (off < r.spanLo + r.spanLen) && decide (r.spanLo < off + 64)
/-- The placed instance of a context that a write on a class addresses at its nominal core (R336): a `send`, or an `rst` into its named
region; any other `rst` is performed at the core that it names (R307). -/
def instanceAt (s : State) (ctx nominal cls : Nat) (isSend : Bool) (off : Nat) : Option Inst :=
  (coresOf s ctx).findSome? fun c => (getCore s c).resid.findSome? fun r =>
    if r.nominal = nominal ∧ r.hasClass cls ∧ (isSend ∨ r.spans off) then some r.id else none
/-- A core hosts an instance of a context. -/
def hosts (c : CoreSt) (ctx : Nat) (i : Inst) : Bool := c.ctx == some ctx && c.resid.any fun r => r.id == i
/-- Some core of the context hosts an instance. -/
def hosted (s : State) (ctx : Nat) (i : Inst) : Bool := (coresOf s ctx).any fun c => hosts (getCore s c) ctx i
/-- Placement of an instance by a core's placement cache (R336). -/
def cachedPlace (c : CoreSt) (i : Inst) (nominal : Nat) : Nat := amGet nominal c.pcache (instKey i)

/-- The sixteen traffic counters of an instance; one that is not listed is free (R337). -/
def countersOf (l : List (Nat × Nat)) : List (Nat × Nat) := l ++ List.replicate (16 - l.length) (0, 0)
/-- Credit of one P write to a partner, by its key in the placement maps (R337). -/
def creditTo (l : List (Nat × Nat)) (p : Nat) : List (Nat × Nat) :=
  if l.any fun e => e.1 == p && e.2 != 0 then l.map fun e => if e.1 = p ∧ e.2 ≠ 0 then (p, min (e.2 + 64) (2 ^ 32 - 1)) else e
  else
    let all := countersOf l
    let least := all.foldl (fun m e => min m e.2) (2 ^ 32)
    all.set ((all.map (·.2)).idxOf least) (p, 64)
/-- Credit by the running activation, to a partner other than itself. -/
def credit (s : State) (i : Inst) : State := match s.th.act with
  | none => s
  | some a =>
    let one := fun (r : Resident) =>
      if r.lid = a.lid ∧ r.inst = a.inst ∧ r.id ≠ i then { r with traffic := creditTo r.traffic (instKey i) } else r
    withCore s fun c => { c with resid := c.resid.map one }

/-! ### Issue (R299, R300, R303) -/

/-- Cluster, core and offset of a pool address word. -/
def pawCluster (w : W64) : Nat := fieldOf w 40 4 * 24 + fieldOf w 32 5
def pawCore (w : W64) : Nat := fieldOf w 48 3
/-- Reserved bits of a pool address word. -/
def pawReserved (w : W64) : Bool := fieldOf w 51 13 != 0 || fieldOf w 44 4 != 0 || fieldOf w 37 3 != 0 || fieldOf w 20 12 != 0
/-- The coordinates of a word lie on the mesh (R300). -/
def pawOnMesh (w : W64) : Bool := decide (fieldOf w 32 5 ≤ 23) && decide (fieldOf w 40 4 ≤ 11)
/-- The word with another offset and cluster (R305). -/
def pawAt (w : W64) (k off : Nat) : W64 :=
  BitVec.ofNat 64 (pawCore w * 2 ^ 48 + rowOf k * 2 ^ 40 + colOf k * 2 ^ 32 + off % 2 ^ 20)
/-- Unacknowledged P writes of a thread set (R300). -/
def unacked (s : State) (g : Nat) : Nat := (((pWritesOf s g).map (·.write)).eraseDups).length

/-- A destination of a P write on a class: the core named, translated when it is resident-addressed (R336). -/
def aimAt (s : State) (cls off : Nat) (isSend : Bool) (w : W64) (k : Nat) : PDst :=
  let named := 8 * k + pawCore w
  let i := instanceAt s (myCtx s) named cls isSend off
  { named := named, word := pawAt w k off, inst := i, old := false,
    core := match i with
      | some x => cachedPlace s.core x named
      | none => named }
/-- The order of R345 holds a resident-addressed write back. -/
def heldByMove (s : State) (d : PDst) : Bool :=
  d.inst.isSome && (pWritesOf s s.here).any fun p => p.dsts.any fun e => e.inst == d.inst && e.old
/-- The P fault latch takes a failure when it is clear (R305). -/
def latchP (s : State) (g cause : Nat) (w : W64) : State :=
  onThread s g fun t => if t.platch.isNone then { t with platch := some (cause, w) } else t

/-- Sends one packet of a write to the clusters of a list, on one class: a multicast is one packet (R294). -/
def sendAll (s : State) (ks : List Nat) (cls off : Nat) (w : W64) (isSend mc : Bool) (src : VOp) : Except Stop State := do
  let ds := ks.map (aimAt s cls off isSend w)
  ready (!ds.any (heldByMove s))
  let v := readV s src
  let p : Packet := { num := s.pktNum, write := s.pktNum, g := s.here, ctx := myCtx s, cls := cls, isSend := isSend, mc := mc, off := off,
                      data := v.1, dsts := ds, pos := myClu s, turn := s.pktNum, route := [], ended := false, cause := 0 }
  let s := if ds.isEmpty then v.2 else { v.2 with packets := v.2.packets ++ [p], pktNum := v.2.pktNum + 1 }
  .ok ((ds.filterMap (·.inst)).foldl credit s)

/-- `rst` (R299, R300, R302). -/
def execRst (o : Rst) (s : State) : Out := .next
  (bit0Form s o.p (do
    ready (decide (unacked s s.here < 64))
    vecChecks s [o.d] none
    let w := getS s o.a
    require (!pawReserved w) cENGINE 0
    let off : Int := (fieldOf w 0 20 : Int) + signedOf 24 o.disp.toNat
    require (off % 64 == 0) cMISALIGN (BitVec.ofInt 64 off)
    require (decide (0 ≤ off) && decide (off + 64 ≤ 786432)) cBOUNDS 0
    let part := getPart s (myPart s)
    if o.mc then
      let m := getS s o.c
      require (fieldOf w 32 12 == 0 && fieldOf m 36 28 == 0) cENGINE 0
      let ks := multiOf (fieldOf m 0 24) (fieldOf m 24 12)
      require (!ks.isEmpty) cENGINE 0
      let s' ← sendAll s (ks.filter (inRect part)) o.cls.toNat off.toNat w false true o.d
      .ok (match ks.find? fun k => !inRect part k with
        | some k => latchP s' s.here cPERM (pawAt w k off.toNat)
        | none => s')
    else
      require (pawOnMesh w) cENGINE 0
      require (inRect part (pawCluster w)) cPERM 0
      sendAll s [pawCluster w] o.cls.toNat off.toNat w false false o.d))

/-- `send` (R303). -/
def execSend (o : Send) (s : State) : Out := .next
  (bit0Form s o.p (do
    ready (decide (unacked s s.here < 64))
    vecChecks s [o.a] none
    let w := getS s o.b
    require (!pawReserved w) cENGINE 0
    require (fieldOf w 0 20 == 0) cENGINE 0
    require (pawOnMesh w) cENGINE 0
    require (inRect (getPart s (myPart s)) (pawCluster w)) cPERM 0
    sendAll s [pawCluster w] o.cls.toNat 0 w true false o.a))

/-! ### The mesh (R294, R295, R331) -/

/-- Ports of a router: 0 north, 1 east, 2 south, 3 west. The neighbour through a port. -/
def neighbourOf (k port : Nat) : Option Nat := match port with
  | 0 => if rowOf k = 0 then none else some (k - 24)
  | 1 => if colOf k = 23 then none else some (k + 1)
  | 2 => if rowOf k = 11 then none else some (k + 24)
  | 3 => if colOf k = 0 then none else some (k - 1)
  | _ => none
/-- The buffers of the link out of a router through a port, a die-to-die bridge among them: a place beside those of the routers (R295). -/
def linkAt (k port : Nat) : Nat := numClusters + 4 * k + port
/-- Packets that a router's or a link's buffer for a class holds, in the order they came (R295; log 69). -/
def bufferOf (s : State) (k cls : Nat) : List Packet :=
  sortBy (fun a b => decide (a.turn ≤ b.turn)) (s.packets.filter fun p => !p.ended && p.pos == k && p.cls == cls)
/-- Core that a packet of one destination goes to. -/
def Packet.core (p : Packet) : Nat := ((p.dsts.head?).map (·.core)).getD 0
/-- Two `send` packets of one thread set and class to one core, whose order the destination restores (R297). -/
def sameSeq (p q : Packet) : Bool := p.isSend && q.isSend && p.g == q.g && p.cls == q.cls && p.core == q.core
/-- A `send` that waits at its destination for an earlier one of its thread set (R297). -/
def seqHeld (s : State) (p : Packet) : Bool :=
  p.isSend && p.pos == cluOf p.core && s.packets.any fun q => sameSeq p q && !q.ended && decide (q.num < p.num)
/-- Service messages that a router's buffer for a class holds (R295, R377). -/
def servicesAt (s : State) (k cls : Nat) : List Service :=
  if cls = 15 then s.services.filter fun m => cluOf m.core == k else []
/-- The packet that a router's buffer for a class serves: the first, or the one that a first held for its sequence waits for; none while
a service message stands before it (R295, R297, R377). -/
def headOf (s : State) (k cls : Nat) : Option Packet := match bufferOf s k cls with
  | [] => none
  | h :: l => if (servicesAt s k cls).any fun m => decide (m.turn < h.turn) then none
    else if seqHeld s h then l.find? fun q => sameSeq q h && !seqHeld s q else some h

/-- A core takes part in a castle that has been chosen, and the instance is placed on one of its two cores (R343 step 1). -/
def castlesFor (s : State) (core ctx : Nat) (i : Inst) : Bool := s.parts.any fun e => e.2.chosen.any fun c =>
  (c.1 == core || c.2 == core) && (hosts (getCore s c.1) ctx i || hosts (getCore s c.2) ctx i)
/-- A packet is at a core that must send it on: one that does not host its instance, while another does (R344). -/
def mustForward (s : State) (p : Packet) (d : PDst) : Bool := match d.inst with
  | some i => !hosts (getCore s d.core) p.ctx i && hosted s p.ctx i
  | none => false
/-- A packet cannot be delivered at its destination: the core castles for its instance, or the class is masked or the queue register full (R304,
R343). -/
def heldThere (s : State) (p : Packet) (d : PDst) : Bool :=
  d.inst.any (castlesFor s d.core p.ctx) ||
  (p.isSend && !mustForward s p d && (getCore s d.core).ctx == some p.ctx && match bindOf (getCore s d.core) p.cls with
    | some (q, masked) => masked || !roomAt s d.core q
    | none => false)
/-- The destinations of a packet in the cluster where it stands. -/
def localDsts (p : Packet) : List PDst := p.dsts.filter fun d => cluOf d.core == p.pos
/-- The queue register into which a core takes service messages of a context now (R377). -/
def serviceQ (s : State) (m : Service) : Option Nat := match bindOf (getCore s m.core) 15 with
  | some (q, masked) => if (getCore s m.core).ctx != some m.ctx || masked || !roomAt s m.core q then none else some q
  | none => none
/-- A service message is the first of its router's class-15 buffer (R295, R377). -/
def serviceFirst (s : State) (m : Service) : Bool :=
  !(servicesAt s (cluOf m.core) 15).any (fun x => decide (x.turn < m.turn)) &&
  !(bufferOf s (cluOf m.core) 15).any fun p => decide (p.turn < m.turn)
/-- The buffer of a class at a router stands behind a packet, or a service message, that cannot be delivered there. -/
def bufferHeld (s : State) (k cls : Nat) : Bool :=
  (servicesAt s k cls).any (fun m => serviceFirst s m && (serviceQ s m).isNone) || match headOf s k cls with
  | some h => (localDsts h).any (heldThere s h)
  | none => false
/-- A packet waits in a buffer that an earlier packet, which cannot be delivered at its destination, holds on its route (R295;
log 69). -/
def routeHeld (s : State) (p : Packet) : Bool := s.packets.any fun q =>
  !q.ended && q.num != p.num && q.cls == p.cls && (q.route.any fun e => e.1 == p.pos && decide (e.2 < p.turn)) && !(localDsts q).isEmpty
    && bufferHeld s q.pos q.cls

/-- The port into a neighbour's router by which a packet for a cluster goes on, column and row. -/
def colHop (k d : Nat) : Option Nat := if colOf k < colOf d then some 1 else if colOf d < colOf k then some 3 else none
def rowHop (k d : Nat) : Option Nat := if rowOf k < rowOf d then some 2 else if rowOf d < rowOf k then some 0 else none
/-- The output that a router picks for a destination of a packet (R294): port 4 leads to the cluster's cores. West-first routing takes
the output whose link's buffer for the class holds least. -/
def portOf (s : State) (p : Packet) (d : PDst) : Nat :=
  let k := cluOf d.core
  let fn := if p.mc then 0 else classFunc (classOf s p.ctx p.cls)
  match colHop p.pos k, rowHop p.pos k with
  | none, r => r.getD 4
  | some c, none => c
  | some c, some r =>
    if fn = 1 then r
    else if fn = 2 && c != 3 then
      let load := fun port => (bufferOf s (linkAt p.pos port) p.cls).length
      (([0, 1, 2].filter fun x => x == c || x == r).foldl (fun b x => match b with
        | some y => if load x < load y then some x else some y
        | none => some x) none).getD c
    else c
/-- A destination of a packet can go out through a port. -/
def goesBy (s : State) (port : Nat) (p : Packet) (d : PDst) : Bool := portOf s p d == port && !(port == 4 && heldThere s p d)
/-- Heads that go out through a port, class by class. -/
def waitingAt (s : State) (k port : Nat) : List Packet := (List.range 16).filterMap fun c => match headOf s k c with
  | some p => if !routeHeld s p && p.dsts.any (goesBy s port p) then some p else none
  | none => none

/-- A packet replaced by what is left of it, and others that it becomes (R294). -/
def splitTo (s : State) (p : Packet) (ds : List PDst) (parts : List Packet) : State :=
  let rest := p.dsts.filter fun d => !ds.contains d
  { s with packets := (s.packets.flatMap fun q =>
      if q.num = p.num then (if rest.isEmpty then [] else [{ p with dsts := rest }]) else [q]) ++ parts }
/-- Number of the part of a packet that takes destinations: a new one when others stay behind. -/
def partNum (s : State) (p : Packet) (ds : List PDst) : Nat := if p.dsts.all ds.contains then p.num else s.pktNum
/-- A port's counts advance. -/
def countGrant (s : State) (k port cls : Nat) : State := onClu s k fun c =>
  if h : port < 6 then { c with grants := c.grants.set port ((c.grants[port]) + 1) h, rr := c.rr.set port cls h } else c
/-- The destinations of a packet that lie through a port go on to the link there: a router replicates a multicast where its ways part
(R294). -/
def hop (s : State) (k port : Nat) (p : Packet) : State :=
  let ds := p.dsts.filter fun d => portOf s p d == port
  let q := { p with num := partNum s p ds, dsts := ds, pos := linkAt k port, turn := s.pktNum + 1, route := (k, p.turn) :: p.route }
  countGrant { splitTo s p ds [q] with pktNum := s.pktNum + 2 } k port p.cls
/-- The oldest packet of a link's buffer for a class goes on to the next router (R295). -/
def evLink (k port cls : Nat) (s : State) : Option State := match neighbourOf k port, bufferOf s (linkAt k port) cls with
  | some n, p :: _ =>
    if routeHeld s p then none
    else
      let q := { p with pos := n, turn := s.pktNum, route := (linkAt k port, p.turn) :: p.route }
      some { s with packets := s.packets.map fun x => if x.num = p.num then q else x, pktNum := s.pktNum + 1 }
  | _, _ => none
/-- Grants that a port has given. -/
def grantsAt (s : State) (k port : Nat) : Nat := (getClu s k).grants.toList.getD port 0
def rrAt (s : State) (k port : Nat) : Nat := (getClu s k).rr.toList.getD port 0
/-- The head of highest priority; among equals the class after the one granted last (R331). -/
def grantPick (s : State) (k port : Nat) : Option Packet :=
  let last := rrAt s k port
  let dist := fun (p : Packet) => (p.cls + 15 - last) % 16
  let prio := fun (p : Packet) => classPrio (classOf s p.ctx p.cls)
  (waitingAt s k port).foldl (fun b p => match b with
    | some q => if prio q < prio p ∨ (prio q = prio p ∧ dist p < dist q) then some p else some q
    | none => some p) none
/-- The head that has waited longest (R331). -/
def agingPick (s : State) (k port : Nat) : Option Packet :=
  (waitingAt s k port).foldl (fun b p => match b with
    | some q => if p.turn < q.turn then some p else some q
    | none => some p) none

/-- ROUTER_GRANT and ROUTER_AGING_GRANT: every sixteenth grant of a port goes by age. The deliveries are the grants of port 4. -/
def evRouterGrant (k port : Nat) (s : State) : Option State :=
  if grantsAt s k port % 16 = 15 then none else (if port < 4 then grantPick s k port else none).map (hop s k port)
def evRouterAging (k port : Nat) (s : State) : Option State :=
  if grantsAt s k port % 16 = 15 then (if port < 4 then agingPick s k port else none).map (hop s k port) else none
def execRouterGrant (cluster port : Nat) (s : State) : Out := .next ((evRouterGrant cluster port s).getD s)
def execRouterAgingGrant (cluster port : Nat) (s : State) : Out := .next ((evRouterAging cluster port s).getD s)

/-! ### Delivery (R296, R301, R304, R305, R307, R344) -/

def packetAt (s : State) (n : Nat) : Option Packet := s.packets.find? fun p => p.num == n
/-- The next destination of a packet in its cluster, when the router's port to the cores grants it (R331). -/
def arrivedAt (s : State) (p : Packet) : Option PDst :=
  let pick := if grantsAt s p.pos 4 % 16 = 15 then agingPick s p.pos 4 else grantPick s p.pos 4
  if !p.ended && pick.map (·.num) == some p.num then p.dsts.find? (goesBy s 4 p) else none
/-- A destination of a packet is performed, or refused with a cause: its acknowledgement goes back. -/
def endPacket (s : State) (p : Packet) (d : PDst) (cause : Nat) : State :=
  let q := { p with num := partNum s p [d], dsts := [d], ended := true, cause := cause }
  countGrant { splitTo s p [d] [q] with pktNum := s.pktNum + 1 } p.pos 4 p.cls

/-- Cause of a refusal of an `rst` at a core (R301), or 0. -/
def rstCause (c : CoreSt) (ctx cls off : Nat) : Nat :=
  if c.ctx ≠ some ctx then cPERM
  else if !inScratch c off 64 then cBOUNDS
  else if c.resid.any fun r => decide (0 < r.spanLen) && decide (off < r.spanLo + r.spanLen) && decide (r.spanLo < off + 64) &&
      !(r.hasClass cls && (bindOf c cls).isSome) then cBOUNDS
  else 0
/-- RST_DELIVERY. -/
def evRstDelivery (n : Nat) (s : State) : Option State := match packetAt s n with
  | none => none
  | some p => match arrivedAt s p with
    | none => none
    | some d =>
      if p.isSend || mustForward s p d then none
      else
        let cause := rstCause (getCore s d.core) p.ctx p.cls p.off
        let write := fun (c : CoreSt) => { c with pool := poolPutAll c.pool (atAddr p.off (toBytes 64 p.data.toNat)) }
        some (endPacket (if cause = 0 then poolWrote (onCore s d.core write) d.core .P else s) p d cause)
def execRstDelivery (packet : Nat) (s : State) : Out := .next ((evRstDelivery packet s).getD s)

/-- SEND_DELIVERY: refused, or pushed. -/
def evSendDelivery (n : Nat) (s : State) : Option State := match packetAt s n with
  | none => none
  | some p => match arrivedAt s p with
    | none => none
    | some d =>
      if !p.isSend || mustForward s p d then none
      else if (getCore s d.core).ctx ≠ some p.ctx then some (endPacket s p d cPERM)
      else match bindOf (getCore s d.core) p.cls with
        | none => some (endPacket s p d cENGINE)
        | some (q, _) => some (endPacket (pushAt s d.core q p.data) p d 0)
def execSendDelivery (packet : Nat) (s : State) : Out := .next ((evSendDelivery packet s).getD s)

/-- P_ACKNOWLEDGE: the acknowledgement reaches the issuing thread set; a refusal sets its latch (R305). -/
def evPAck (n : Nat) (s : State) : Option State := match packetAt s n with
  | none => none
  | some p =>
    if !p.ended then none
    else
      let s := { s with packets := s.packets.filter fun q => q.num != n }
      some (if p.cause = 0 then s else latchP s p.g p.cause (((p.dsts.head?).map (·.word)).getD 0))
def execPAcknowledge (packet : Nat) (s : State) : Out := .next ((evPAck packet s).getD s)

/-- Placement that a core forwards to (R344): its forwarding entry, until the end of its second epoch (R343), its placement cache, and
where it has neither, because it was released, the context's placement table. -/
def forwardTo (s : State) (ctx core : Nat) (i : Inst) (named : Nat) : Nat :=
  let c := getCore s core
  match (amFind c.fwd (fwdKey ctx i)).filter fun e => e.2 != 0 with
  | some e => e.1
  | none => match (if c.ctx = some ctx then amFind c.pcache (instKey i) else none) with
    | some d => d
    | none => amGet named (getCtx s ctx).placement (instKey i)
/-- PACKET_FORWARD: a core that does not host the instance sends the packet on (R344). -/
def evForward (n : Nat) (s : State) : Option State := match packetAt s n with
  | none => none
  | some p => match arrivedAt s p with
    | none => none
    | some d => match d.inst with
      | none => none
      | some i =>
        let dst := forwardTo s p.ctx d.core i d.named
        if !mustForward s p d || dst = d.core then none
        else
          let q := { p with num := partNum s p [d], dsts := [{ d with core := dst }], turn := s.pktNum + 1, route := [] }
          some (countGrant { splitTo s p [d] [q] with pktNum := s.pktNum + 2 } p.pos 4 p.cls)
def execPacketForward (packet : Nat) (s : State) : Out := .next ((evForward packet s).getD s)

end Machine
end Sys2Proof
end

