-- ==== Sys2Proof/Machine/Tasks.lean ====
section
/-!
DEFINITION. Tasks: memory as the hardware reaches it for a context, task records, rings and overflow chains (R309, R313 to R317),
and the launch block's fields (R319).
-/
namespace Sys2Proof
namespace Machine

/-! ### Accesses that the hardware makes for a context -/

/-- Translation for an access of the hardware in a context, or the cause of its failure (R314, R321, R323). It walks afresh: a failure
raises no event, and leaves no walk behind (R359). -/
def ctxXlate (s : State) (ctx k : Nat) (acc : Acc) (va : Nat) : Except Nat (Xl × State) :=
  match xlateEngine (endWalk s ctx k va) ctx k acc va with
  | .ok x s' => .ok (x, s')
  | .page => .error cPAGE
  | .perm => .error cPERM
/-- Reads bytes, one sector after another; `fuel` bounds the sectors. -/
def ctxLoad (s : State) (ctx k : Nat) : Nat → Nat → Nat → Except Nat (List Byte × State)
  | 0, _, _ => .ok ([], s)
  | fuel + 1, va, n =>
    if n = 0 then .ok ([], s)
    else do
      let m := min n (64 - va % 64)
      let x ← ctxXlate s ctx k .read va
      let r := homeRead x.2 ctx x.1.slot x.1.pa m
      let rest ← ctxLoad r.2 ctx k fuel (va + m) (n - m)
      .ok (r.1 ++ rest.1, rest.2)
def ctxRead (s : State) (ctx k va n : Nat) : Except Nat (Nat × State) :=
  (ctxLoad s ctx k (n / 64 + 2) (va % 2 ^ 64) n).map fun r => (ofBytes r.1, r.2)
/-- Writes bytes that lie in one sector, on path C, or on path T for a log. Every release comes before it, and it is acknowledged before
what the hardware does next, so later acquires follow it (R292, R312, R323; log 73). -/
def ctxWrite (s : State) (ctx k : Nat) (acc : Acc) (va : Nat) (b : List Byte) : Except Nat State := do
  let x ← ctxXlate s ctx k acc (va % 2 ^ 64)
  let w := homeWrite x.2 ctx x.1.slot (if acc = .mtwrite then .T else .C) x.2.released (atAddr x.1.pa b)
  .ok { w.2 with released := max w.2.released w.1 }

/-! ### Records (R309) -/

abbrev Rec := BitVec 256
def recField (r : Rec) (lo len : Nat) : Nat := bitsOf r.toNat lo len
def recCode (r : Rec) : W64 := BitVec.ofNat 64 (recField r 0 64)
def recFrame (r : Rec) : W64 := BitVec.ofNat 64 (recField r 64 64)
def recJoin (r : Rec) : W64 := BitVec.ofNat 64 (recField r 128 64)
def recUnit (r : Rec) : Nat := recField r 192 31
def recLU (r : Rec) : Bool := bitOf r.toNat 223
def recPrio (r : Rec) : Nat := recField r 224 3
def recHit (r : Rec) : Bool := bitOf r.toNat 227
def recNoSteal (r : Rec) : Bool := bitOf r.toNat 229
def recAmode (r : Rec) : Nat := recField r 230 2
def recAidx (r : Rec) : Nat := recField r 232 9
def recLid (r : Rec) : Nat := recField r 248 8
/-- A record from its fields. -/
def mkRec (code frame join : W64) (unit : Nat) (lu : Bool) (prio : Nat) (hit nosteal : Bool) (lid : Nat) : Rec :=
  BitVec.ofNat 256 (code.toNat + frame.toNat * 2 ^ 64 + join.toNat * 2 ^ 128 + unit % 2 ^ 31 * 2 ^ 192 + bit lu * 2 ^ 223
    + prio % 8 * 2 ^ 224 + bit hit * 2 ^ 227 + bit nosteal * 2 ^ 229 + lid % 256 * 2 ^ 248)
/-- The record with LID set, and LU and HIT clear (R311, R318). -/
def recFor (r : Rec) (lid : Nat) : Rec :=
  BitVec.ofNat 256 (recField r 0 223 + recField r 224 3 * 2 ^ 224 + recField r 228 20 * 2 ^ 228 + lid % 256 * 2 ^ 248)

/-! ### Launch entries (R319, R324) -/

def getLaunch (s : State) (ctx lid : Nat) : Launch := amGet Launch.init (getCtx s ctx).launches lid
def onLaunch (s : State) (ctx lid : Nat) (f : Launch → Launch) : State :=
  onCtx s ctx fun c => { c with launches := amSet c.launches lid (f (amGet Launch.init c.launches lid)) }
/-- `n` bytes of a launch block from byte `o`. -/
def lpbF (l : Launch) (o n : Nat) : Nat := bitsOf l.block.toNat (8 * o) (8 * n)
def lpbUnits (l : Launch) : Nat := lpbF l 24 8
def lpbCtl (l : Launch) (lo len : Nat) : Nat := bitsOf (lpbF l 32 4) lo len
def lpbAlloc (l : Launch) : Nat := lpbF l 42 2
def lpbPool (l : Launch) : W64 := BitVec.ofNat 64 (lpbF l 48 8)
/-- Clusters of CLUST, ascending. -/
def lpbClusters (l : Launch) : List Nat := (List.range numClusters).filter (bitOf (lpbF l 160 36))
/-- Cores that CLUST and CORES name, and cores that RTAB names. -/
def lpbCores (l : Launch) : List Nat := (lpbClusters l).flatMap fun k => ((List.range 8).filter (bitOf (lpbF l 40 1))).map (8 * k + ·)
def rtCore (d : BitVec 128) : Nat := bitsOf d.toNat 32 16 * 8 + bitsOf d.toNat 16 8 % 8
def namedCores (l : Launch) : List Nat := (lpbCores l ++ l.rtab.map rtCore).eraseDups
/-- A core bound as a launch asks (R33). -/
def boundFor (s : State) (ctx : Nat) (l : Launch) (core : Nat) : Bool :=
  let c := getCore s core
  c.ctx == some ctx && c.pword == lpbPool l && c.alloc == lpbAlloc l

/-! ### Rings (R313, R314) -/

def ringSetOf (s : State) (k ctx : Nat) : Option RingSet := amFind (getClu s k).rings ctx
def ringOf (r : RingSet) (p : Nat) : List (Nat × Rec) := r.rings.toList.getD p []
def setRing (r : RingSet) (p : Nat) (l : List (Nat × Rec)) : RingSet :=
  if h : p < 8 then { r with rings := r.rings.set p l h } else r
def onRings (s : State) (k ctx : Nat) (f : RingSet → RingSet) : State :=
  onClu s k fun c => match amFind c.rings ctx with
    | some r => { c with rings := amSet c.rings ctx (f r) }
    | none => c
/-- A cluster holds a ring set for a context. -/
def holdsRings (s : State) (k ctx : Nat) : Bool := (ringSetOf s k ctx).isSome

/-- Address of the overflow table's entry; 0 when there is no table (R314, R318). -/
def ovfEntry (s : State) (ctx k p : Nat) : W64 :=
  let t := (getCtx s ctx).ovft
  if t = 0 then 0 else t + BitVec.ofNat 64 (8 * (8 * k + p))
/-- One 8-byte word; 0 where it cannot be read. -/
def word8 (s : State) (ctx k va : Nat) : Nat := match ctxRead s ctx k va 8 with
  | .ok r => r.1
  | .error _ => 0
/-- First segment of a chain, or 0. -/
def chainHead (s : State) (ctx k p : Nat) : Nat := let e := ovfEntry s ctx k p; if e = 0 then 0 else word8 s ctx k e.toNat
def segCap (s : State) (ctx k a : Nat) : Nat := word8 s ctx k a
def segHead (s : State) (ctx k a : Nat) : Nat := word8 s ctx k (a + 8)
def segCnt (s : State) (ctx k a : Nat) : Nat := word8 s ctx k (a + 16)
def segNext (s : State) (ctx k a : Nat) : Nat := word8 s ctx k (a + 24)
/-- The segments of a chain, at most `fuel`. -/
def chainFrom (s : State) (ctx k : Nat) : Nat → Nat → List Nat
  | 0, _ => []
  | fuel + 1, a => if a = 0 then [] else a :: chainFrom s ctx k fuel (segNext s ctx k a)
def chainOf (s : State) (ctx k p : Nat) : List Nat := chainFrom s ctx k (2 ^ 32) (chainHead s ctx k p)
/-- The chain holds a record. -/
def chainHolds (s : State) (ctx k p : Nat) : Bool := (chainOf s ctx k p).any fun a => segCnt s ctx k a != 0
/-- The records of a segment, oldest first. -/
def segRecs (s : State) (ctx k a : Nat) : List Rec :=
  let cap := max 1 (segCap s ctx k a)
  (List.range (segCnt s ctx k a)).map fun i => match ctxRead s ctx k (a + 64 + 32 * ((segHead s ctx k a + i) % cap)) 32 with
    | .ok r => BitVec.ofNat 256 r.1
    | .error _ => 0
/-- A write that the hardware makes in a chain; one that is denied is dropped. -/
def word8Put (s : State) (ctx k va v : Nat) : State := match ctxWrite s ctx k .write va (toBytes 8 v) with
  | .ok s' => s'
  | .error _ => s

/-- The cluster's next push number is taken (R314). -/
def takePushNo (s : State) (k : Nat) : Nat × State :=
  ((getClu s k).pushNo, onClu s k fun c => { c with pushNo := c.pushNo + 1 })
/-- A record at the tail of a ring, with the cluster's next push number. -/
def ringPut (s : State) (k ctx p : Nat) (r : Rec) : State :=
  let n := takePushNo s k
  onRings n.2 k ctx fun x => setRing x p (ringOf x p ++ [(n.1, r)])
/-- Push numbers of a chain's records, oldest first (R314, R316). -/
def ovfOf (r : RingSet) (p : Nat) : List Nat := r.ovf.toList.getD p []
def setOvf (r : RingSet) (p : Nat) (l : List Nat) : RingSet := if h : p < 8 then { r with ovf := r.ovf.set p l h } else r
/-- An overflow record comes to the tail of its ring with the push number that it took at its push (R316, R334). -/
def ringBack (s : State) (k ctx p : Nat) (r : Rec) : State := match (ringSetOf s k ctx).map fun x => ovfOf x p with
  | some (n :: l) => onRings s k ctx fun x => setOvf (setRing x p (ringOf x p ++ [(n, r)])) p l
  | _ => ringPut s k ctx p r
/-- Segments at the head of a chain that hold nothing while another follows are free: the table entry names the next one (R314). -/
def dropSegs (ctx k p : Nat) : Nat → State → State
  | 0, s => s
  | fuel + 1, s =>
    let a := chainHead s ctx k p
    if a ≠ 0 ∧ segCnt s ctx k a = 0 ∧ segNext s ctx k a ≠ 0 then
      dropSegs ctx k p fuel (word8Put s ctx k (ovfEntry s ctx k p).toNat (segNext s ctx k a))
    else s
/-- The oldest overflow record moves to the ring's tail (R314); none when the ring is full or the chain holds nothing. -/
def refillOne (s : State) (k ctx p : Nat) : Option State :=
  match ringSetOf s k ctx with
  | none => none
  | some x =>
    if 256 ≤ (ringOf x p).length then none
    else match (chainOf s ctx k p).find? fun a => segCnt s ctx k a != 0 with
      | none => none
      | some a =>
        let h := segHead s ctx k a
        match ctxRead s ctx k (a + 64 + 32 * h) 32 with
        | .error _ => none
        | .ok r =>
          let cnt := segCnt s ctx k a - 1
          let s := ringBack r.2 k ctx p (BitVec.ofNat 256 r.1)
          let s := word8Put s ctx k (a + 8) ((h + 1) % max 1 (segCap s ctx k a))
          let s := word8Put s ctx k (a + 16) cnt
          some (if cnt = 0 then dropSegs ctx k p (2 ^ 32) s else s)
def refillAll (k ctx p : Nat) : Nat → State → State
  | 0, s => s
  | fuel + 1, s => match refillOne s k ctx p with
    | some s' => refillAll k ctx p fuel s'
    | none => s
/-- A push in a cluster that holds a ring set: none when the chain is full (R314). -/
def pushRec (s : State) (k ctx : Nat) (r : Rec) : Option State :=
  let p := recPrio r
  let s := refillAll k ctx p 256 s
  match ringSetOf s k ctx with
  | none => none
  | some x =>
    if (ringOf x p).length < 256 && !chainHolds s ctx k p then some (ringPut s k ctx p r)
    else match (chainOf s ctx k p).getLast? with
      | none => none
      | some a =>
        let cnt := segCnt s ctx k a
        let cap := segCap s ctx k a
        if cap ≤ cnt then none
        else match ctxWrite s ctx k .write (a + 64 + 32 * ((segHead s ctx k a + cnt) % cap)) (toBytes 32 r.toNat) with
          | .ok s' =>
            let n := takePushNo (word8Put s' ctx k (a + 16) (cnt + 1)) k
            some (onRings n.2 k ctx fun x => setOvf x p (ovfOf x p ++ [n.1]))
          | .error _ => none
/-- The cluster that a record goes to (R309, R314). AMODE 3, which `spawn` refuses, sends a continuation's record to the pusher's cluster
(DESIGN CHOICE, log 72). -/
def pushTarget (s : State) (ctx pusher : Nat) (r : Rec) : Nat :=
  let k := match recAmode r with
    | 1 => recAidx r
    | 2 => match ctxXlate s ctx pusher .read (recFrame r).toNat with
      | .ok x => homeOf x.1.pa
      | .error _ => pusher
    | _ => pusher
  if k < numClusters ∧ holdsRings s k ctx then k else pusher

/-! ### Pops and steals (R315 to R317) -/

/-- Priority of the head that a pop takes: the highest non-empty ring, or the ring of the lowest push number (R316). -/
def popPrio (x : RingSet) (aging : Bool) : Option Nat :=
  if aging then
    ((List.range 8).filterMap fun p => (ringOf x p).head?.map fun e => (e.1, p)).foldl (fun (b : Option (Nat × Nat)) e =>
      match b with
      | some y => if e.1 < y.1 then some e else some y
      | none => some e) none |>.map (·.2)
  else (List.range 8).reverse.find? fun p => !(ringOf x p).isEmpty
/-- The pop itself, and its count; the ring has room then for the oldest record of its chain (R314). -/
def popRec (s : State) (k ctx : Nat) (aging : Bool) : Option (Rec × State) :=
  match ringSetOf s k ctx with
  | none => none
  | some x => match popPrio x aging with
    | none => none
    | some p => match ringOf x p with
      | [] => none
      | e :: l =>
        let s := onRings (onClu s k fun c => { c with popCount := c.popCount + 1 }) k ctx fun y => setRing y p l
        some (e.2, (refillOne s k ctx p).getD s)
/-- The next pop of a cluster is an aging pop (R316). -/
def agingDue (s : State) (k : Nat) : Bool := (getClu s k).popCount % 16 == 15

/-- Records that a cluster's rings and chains hold for a context. -/
def holdsRecords (s : State) (k ctx : Nat) : Bool := match ringSetOf s k ctx with
  | some x => (List.range 8).any fun p => !(ringOf x p).isEmpty || chainHolds s ctx k p
  | none => false
/-- A ring set is opened when a core of the cluster is bound to its context (R313). -/
def openRings (s : State) (k ctx : Nat) : State := onClu s k fun c =>
  if (amFind c.rings ctx).isSome then c else { c with rings := amSet c.rings ctx RingSet.init }
/-- A ring set is freed when no core of its cluster is bound to the context and it holds no record (R313). -/
def settleRings (s : State) (k ctx : Nat) : State :=
  if ((List.range 8).any fun i => (getCore s (8 * k + i)).ctx == some ctx) || holdsRecords s k ctx then s
  else onClu s k fun c => { c with rings := amDel c.rings ctx }

/-- Neighbour by rotation number: 0 north, 1 east, 2 south, 3 west, in the partition. -/
def stealNeighbour (s : State) (ctx k d : Nat) : Option Nat :=
  (neighbourOf k (d % 4)).filter (inRect (getPart s (getCtx s ctx).part))
/-- Stealable records of a ring set, oldest first. -/
def stealable (x : RingSet) : List (Nat × Rec) :=
  sortBy (fun a b => decide (a.1 ≤ b.1)) (((List.range 8).flatMap (ringOf x)).filter fun e => !recNoSteal e.2)
/-- The first neighbour, from the one after the last tried, that holds two stealable records or more. -/
def stealFrom (s : State) (k ctx : Nat) : Option (Nat × Nat) :=
  match ringSetOf s k ctx with
  | none => none
  | some _ => (List.range 4).findSome? fun i =>
    let d := ((getClu s k).stealPos + i) % 4
    match stealNeighbour s ctx k d with
    | some n => match ringSetOf s n ctx with
      | some y => if 2 ≤ (stealable y).length then some (d, n) else none
      | none => none
    | none => none
/-- Moves the stolen records (R317); the rings that they leave have room for overflow records (R314). -/
def stealMove (s : State) (k ctx d n : Nat) : State :=
  match ringSetOf s n ctx with
  | none => s
  | some y =>
    let l := stealable y
    let got := l.take (min 64 (l.length / 2))
    let gone := got.map (·.1)
    let s := onRings s n ctx fun y => (List.range 8).foldl (fun y p =>
      setRing y p ((ringOf y p).filter fun e => !gone.contains e.1)) y
    let s := (List.range 8).foldl (fun s p => refillAll n ctx p 256 s) s
    let s := got.foldl (fun s e => ringPut s k ctx (recPrio e.2) e.2) s
    settleRings (onClu s k fun c => { c with stealPos := (d + 1) % 4 }) n ctx

/-- A thread set holds no work and nothing of its last work is outstanding (R28, R326). -/
def idleSet (s : State) (g : Nat) : Bool :=
  let t := threadAt s g
  t.st == .idle && (pWritesOf s g).isEmpty && t.hreqs.isEmpty && t.amsgs.isEmpty && t.creqs.isEmpty && t.kreqs.isEmpty && t.ureqs.isEmpty
/-- A core's thread sets take work. -/
def takesWork (s : State) (core : Nat) : Option Nat :=
  let c := getCore s core
  match c.ctx with
  | some x => if (getCtx s x).created && !(getCtx s x).draining && !c.gated then some x else none
  | none => none

/-- STEAL and STEAL_RETRY: some thread set of a core of the context is idle there, and the ring set holds nothing (R317). -/
def evSteal (k ctx : Nat) (s : State) : Option State :=
  match ringSetOf s k ctx with
  | none => none
  | some x =>
    let idle := (List.range 8).any fun i => takesWork s (8 * k + i) == some ctx && (List.range 4).any fun t => idleSet s (32 * k + 4 * i + t)
    let empty := (List.range 8).all fun p => (ringOf x p).isEmpty && !chainHolds s ctx k p
    if !idle || !empty then none else (stealFrom s k ctx).map fun e => stealMove s k ctx e.1 e.2
def execSteal (cluster ctx : Nat) (s : State) : Out := .next ((evSteal cluster ctx s).getD s)
def execStealRetry (cluster ctx : Nat) (s : State) : Out := .next ((evSteal cluster ctx s).getD s)
/-- OVERFLOW_REFILL. -/
def execOverflowRefill (cluster ctx prio : Nat) (s : State) : Out := .next ((refillOne s cluster ctx prio).getD s)

end Machine
end Sys2Proof
end

