-- ==== Sys2Proof/Machine/Launches.lean ====
section
/-!
DEFINITION. Launches: checks, admission, binding, dispatch, the reorder window, completion and the levels above the launch
(R31 to R35, R311, R312, R319 to R327, R329, R330).
-/
namespace Sys2Proof
namespace Machine

/-! ### Events of masks (R322, R327) -/

/-- One event that sets a mask of bits. -/
def raiseMask (s : State) (ctx : Nat) (m : BitVec 256) : State :=
  let c := getCtx s ctx
  setCtx s ctx { c with evseq := c.evseq + 1, events := c.events ||| m }
/-- A clear takes no sequence number. -/
def clearMask (s : State) (ctx : Nat) (m : BitVec 256) : State := onCtx s ctx fun c => { c with events := c.events &&& ~~~m }
/-- ERRBIT of a launch, when ERRE is set. -/
def raiseErr (s : State) (ctx : Nat) (l : Launch) : State :=
  if lpbCtl l 24 1 = 1 then (raiseEvent s ctx (some (lpbCtl l 16 8))).2 else s

/-! ### Levels (R324, R325) -/

/-- Keys of the graph, phase and job of a launch. -/
def graphKey (l : Launch) : Nat := 2 ^ 16 + lpbF l 39 1
def phaseKey (l : Launch) : Nat := 2 * 2 ^ 16 + lpbF l 38 1
def jobKey (l : Launch) : Nat := 3 * 2 ^ 16 + l.job
def levelKeys (l : Launch) : List Nat := [graphKey l, phaseKey l, jobKey l]
def getLevel (s : State) (ctx key : Nat) : Level := amGet Level.init (getCtx s ctx).levels key
def onLevel (s : State) (ctx key : Nat) (f : Level → Level) : State :=
  onCtx s ctx fun c => { c with levels := amSet c.levels key (f (amGet Level.init c.levels key)) }
def onLevels (s : State) (ctx : Nat) (l : Launch) (f : Level → Level) : State :=
  (levelKeys l).foldl (fun s k => onLevel s ctx k f) s
/-- A launch names its levels: one that is not live, or has completed, opens anew with zero counters (R324). -/
def openLevels (s : State) (ctx lid : Nat) (l : Launch) : State :=
  let s := onLevels s ctx l fun v =>
    let v := if v.live then v else { Level.init with live := true }
    { v with lids := (v.lids ++ [(lid, l.gen)]).eraseDups }
  let under := fun (s : State) (key up : Nat) => onLevel s ctx key fun v => { v with above := (up :: v.above).eraseDups }
  let s := under (under s (graphKey l) (phaseKey l)) (phaseKey l) (jobKey l)
  let s := if bitOf (lpbF l 47 1) 0 then onLevel s ctx (graphKey l) fun v => { v with event := some (lpbF l 45 1) } else s
  if bitOf (lpbF l 47 1) 1 then onLevel s ctx (phaseKey l) fun v => { v with event := some (lpbF l 46 1) } else s
/-- One of a launch's levels has been cancelled (R326). -/
def aboveCancelled (s : State) (ctx : Nat) (l : Launch) : Bool := (levelKeys l).any fun k => (getLevel s ctx k).cancelled
/-- A cause of a job that is open, when it is its first (R399). -/
def noteJob (s : State) (ctx job cause : Nat) : State := onPart s (getCtx s ctx).part fun p =>
  { p with jobsOpen := p.jobsOpen.map fun e =>
      if e.ctx = ctx ∧ e.job = job ∧ e.ended.isNone ∧ e.cause = 0 then { e with cause := cause } else e }
/-- The open jobs of a job level that has completed, but for one whose blocks are still being issued (R399). -/
def endJobs (s : State) (ctx key n : Nat) : State := onPart s (getCtx s ctx).part fun p =>
  let issued := p.jobsOpen.length - (if p.jobBlk = 0 then 0 else 1)
  let fin := fun (e : JobOpen) =>
    if e.ctx = ctx ∧ 3 * 2 ^ 16 + e.job = key ∧ e.ended.isNone then { e with ended := some (e.cause, n) } else e
  { p with jobsOpen := (p.jobsOpen.take issued).map fin ++ p.jobsOpen.drop issued }
/-- A level with everything beneath it complete completes when it is closed; the hypervisor receives the completion of a phase or job
(R324). -/
def settleLevel (s : State) (ctx key : Nat) : State :=
  let v := getLevel s ctx key
  let kids := (getCtx s ctx).levels.any fun e => e.2.live && e.2.above.contains key
  if v.live && v.closed && v.admitted == 0 && !kids then
    let s := onLevel s ctx key fun v => { v with live := false, complete := true }
    let s := if 2 ≤ key / 2 ^ 16 then onPart s (getCtx s ctx).part fun p => { p with levelsDone := p.levelsDone ++ [(ctx, key)] } else s
    let s := if 3 ≤ key / 2 ^ 16 then endJobs s ctx key v.completed else s
    match v.event with
    | some b => (raiseEvent s ctx (some b)).2
    | none => s
  else s
/-- The levels that a launch's completion may complete, from below: its graph, the phases above it, and the jobs above those (R324). -/
def levelsUp (s : State) (ctx : Nat) (l : Launch) : List Nat :=
  let ups := fun (k : Nat) => (getLevel s ctx k).above
  let phases := (phaseKey l :: ups (graphKey l)).eraseDups
  graphKey l :: phases ++ (jobKey l :: phases.flatMap ups).eraseDups
/-- A launch beneath its levels is complete: the levels it closes, and those that complete with it. -/
def closeLevels (s : State) (ctx : Nat) (l : Launch) (counted : Bool) : State :=
  let s := if counted then onLevels s ctx l fun v => { v with admitted := v.admitted - 1 } else s
  let close := fun (s : State) (e : Nat × Nat) => if lpbCtl l (6 + e.1) 1 = 1 then onLevel s ctx e.2 fun v => { v with closed := true } else s
  let s := [(0, graphKey l), (1, phaseKey l), (2, jobKey l)].foldl close s
  (levelsUp s ctx l).foldl (fun s k => settleLevel s ctx k) s

/-! ### Reports and completion (R35, R212, R323, R326) -/

/-- Status register of a finished cancel. -/
def cancelDone : W64 := 0x8000000000000000
def cancelNone : W64 := 0xC000000000000000
/-- A launch lies beneath the level that an identifier names (R324). -/
def beneath (ident : W64) (lid : Nat) (l : Launch) : Bool := match fieldOf ident 56 2 with
  | 0 => fieldOf ident 0 16 == lid && fieldOf ident 16 32 == l.gen
  | n => (levelKeys l).contains (n * 2 ^ 16 + fieldOf ident 0 16)
/-- Entries of launches that have completed beneath a level since it opened: tasks and records of theirs may be left (R326). -/
def doneBeneath (s : State) (ctx key : Nat) : List Nat := (getLevel s ctx key).lids.filterMap fun e =>
  let l := amGet Launch.init (getCtx s ctx).launches e.1
  if l.gen == e.2 && l.complete && !l.live then some e.1 else none
/-- Units of an admitted launch that have not been reported and have no record waiting in the window. -/
def unreported (l : Launch) : List Nat :=
  if l.complete then []
  else
    let stop := match l.tail with
      | some t => t.1
      | none => lpbUnits l
    ((List.range (stop - l.head)).map (l.head + ·)).filter fun u => !l.recs.any fun r => r.1 == u
/-- Cancels whose units have all been reported, the issuer's own apart, write their status (R326). -/
def settleCancels (s : State) (ctx : Nat) : State :=
  let c := getCtx s ctx
  let ends := fun (q : CancelReq) => c.launches.all fun e =>
    !(beneath q.ident e.1 e.2 && e.2.admitted) || (unreported e.2).all fun u => q.own == some (e.1, u)
  let ended := c.cancels.filter ends
  let s := onCtx s ctx fun c => { c with cancels := c.cancels.filter fun q => !ends q }
  ended.foldl (fun s q => writeStatus s q.g q.dst cancelDone) s

/-- Counters of a launch and its levels for one reported unit (R325). -/
def countUnit (s : State) (ctx lid status n : Nat) : State :=
  let l := getLaunch s ctx lid
  let s := onLaunch s ctx lid fun l => match status with
    | 0 => { l with completed := l.completed + n }
    | 1 => { l with cancelled := l.cancelled + n }
    | _ => { l with stopped := l.stopped + n }
  onLevels s ctx l fun v => match status with
    | 0 => { v with completed := v.completed + n }
    | 1 => { v with cancelledUnits := v.cancelledUnits + n }
    | _ => { v with stopped := v.stopped + n }
/-- The completion-ring store of a report (R323); one that fails is dropped and its cause kept. -/
def ringStore (s : State) (ctx lid i status : Nat) (payload : W64) : State :=
  let l := getLaunch s ctx lid
  let cring := lpbF l 208 8
  if cring = 0 then s
  else
    let b := toBytes 16 (i % 2 ^ 32 + status * 2 ^ 32 + payload.toNat * 2 ^ 64)
    match ctxWrite s ctx ((lpbClusters l).headD 0) .write (cring + 16 * (i % max 1 (lpbF l 216 4))) b with
    | .ok s' => s'
    | .error c => onLaunch s ctx lid fun l => { l with rcause := if l.rcause = 0 then c else l.rcause }
/-- The head unit's report, when it has arrived or a tail status covers it. -/
def reportHead (s : State) (ctx lid : Nat) : Option State :=
  let l := getLaunch s ctx lid
  let found := match l.recs.find? fun r => r.1 == l.head with
    | some r => some (r.2.1, r.2.2)
    | none => match l.tail with
      | some t => if t.1 ≤ l.head then some (t.2, 0) else none
      | none => none
  match found with
  | some (st, pay) =>
    if l.head < lpbUnits l then
      let s := ringStore (countUnit s ctx lid st 1) ctx lid l.head st pay
      some (onLaunch s ctx lid fun x => { x with head := l.head + 1, recs := x.recs.filter fun r => r.1 != l.head })
    else none
  | none => none
def reportAll (ctx lid : Nat) : Nat → State → State
  | 0, s => s
  | fuel + 1, s => match reportHead s ctx lid with
    | some s' => reportAll ctx lid fuel s'
    | none => s

/-- Whether a ray's number fits its unit's area in the log (R212). -/
def areaFits (l : W64 × W64 × W64) (n : Nat) : Bool := decide (64 + (n + 1) * l.2.2.toNat ≤ l.2.1.toNat)
/-- A unit of a launch has a log write that is not performed, or a ray in RUN whose log is still to be written (R212). -/
def logWaits (s : State) (ctx lid unit : Nat) : Bool := s.clusters.any fun e => e.2.rays.any fun r =>
  r.2.st != .free && r.2.ctx == ctx && r.2.lid == lid && r.2.lgen == (getLaunch s ctx lid).gen && r.2.unit == unit &&
    (!r.2.pend.isEmpty || (r.2.st == .run && !r.2.replay && (match r.2.log, r.2.logN with
      | some l, some n => areaFits l n
      | _, _ => false)))
/-- The log header (R212). -/
def logHead (us rs : W64) (committed : Nat) : List Byte := toBytes 64 (committed + us.toNat * 2 ^ 64 + rs.toNat * 2 ^ 128)
/-- The write of a log's committed count meets a fault: an engine fault of the sequencer of the launch's first cluster, whose answer the
count waits for (R212, R383; log 31). -/
def commitFaults (s : State) (ctx lid k cause n : Nat) (va : W64) : State :=
  let f := newFault s ctx 4 (32 * k) k
  let e := raiseEvent f.2 ctx none
  let acc := accWord .T true false 64
  let s := sendFault e.2 ctx f.1 va acc (BitVec.ofNat 64 cause) e.1
  let s := { s with waiting := s.waiting ++ [{ fid := f.1, va := va, acc := acc, cause := cause, g := 32 * k }] }
  onLaunch s ctx lid fun x => { x with logFault := some (f.1, n) }
/-- The committed count follows the window once the units' log writes are performed, and waits while its write has met a fault (R212). -/
def commitLog (s : State) (ctx lid : Nat) : State :=
  let l := getLaunch s ctx lid
  match l.log with
  | some (b, us, rs) =>
    let n := l.committed + (((List.range (l.head - l.committed)).map (l.committed + ·)).takeWhile fun u => !logWaits s ctx lid u).length
    let k := (lpbClusters l).headD 0
    if !l.traced || l.logFault.isSome || n ≤ l.committed then s
    else match ctxWrite s ctx k .mtwrite b.toNat (logHead us rs n) with
      | .ok s' => onLaunch s' ctx lid fun x => { x with committed := n }
      | .error c => commitFaults s ctx lid k c n b
  | none => s
/-- The answer to a fault of a committed count: a retry writes it again, a discard drops the write (R212, R383). -/
def commitAnswer (s : State) (ctx lid : Nat) (discard : Bool) : State :=
  commitLog (onLaunch s ctx lid fun x => match x.logFault with
    | some f => { x with logFault := none, committed := if discard then f.2 else x.committed }
    | none => x) ctx lid

/-- Completion of a launch: SET bits or ERRBIT, and the levels (R35, R312, R322 to R326). -/
def completeLaunch (s : State) (ctx lid : Nat) : State :=
  let l := getLaunch s ctx lid
  let s := onLaunch s ctx lid fun x => { x with live := false, complete := true }
  let s := noteJob s ctx l.job l.cause
  let bad := l.cancelling || l.cause != 0
  let s := if bad then raiseErr s ctx l
    else
      let s := raiseMask s ctx (BitVec.ofNat 256 (lpbF l 128 32))
      if l.rcause = 0 then s else raiseErr s ctx l
  closeLevels s ctx l l.admitted
/-- The window advances: reports, the log's committed count, completion, and the cancels that wait (R35, R326). -/
def advance (s : State) (ctx lid : Nat) : State :=
  let l := getLaunch s ctx lid
  let s := commitLog (reportAll ctx lid (lpbUnits l - l.head) s) ctx lid
  let l := getLaunch s ctx lid
  let s := if l.live && l.admitted && lpbUnits l ≤ l.head then completeLaunch s ctx lid else s
  settleCancels s ctx
/-- A unit's completion record arrives at the window (R35); PAY chooses the payload pointer (R311). -/
def deliver (s : State) (ctx lid unit status : Nat) (payload : W64) : State :=
  let l := getLaunch s ctx lid
  if !l.live || !l.admitted || unit < l.head || l.recs.any fun r => r.1 == unit then s
  else
    let pay := if lpbCtl l 4 1 = 1 then payload else 0
    advance (onLaunch s ctx lid fun l => { l with recs := l.recs ++ [(unit, status, pay)] }) ctx lid

/-! ### Join updates (R310, R311) -/

/-- The rest of R311 for a block that completes: record, continuation, event. -/
def joinComplete (s : State) (ctx k : Nat) (blk : Nat) (payload : W64) : State :=
  let uw := bitsOf blk 128 64
  let evw := bitsOf blk 64 64
  let cont : Rec := BitVec.ofNat 256 (bitsOf blk 256 256)
  let s := if bitOf uw 63 then deliver s ctx (bitsOf uw 32 8) (bitsOf uw 0 31) 0 payload else s
  let ev := if bitOf evw 8 then some (bitsOf evw 0 8) else none
  let raise := fun (s : State) => match ev with
    | some b => (raiseEvent s ctx (some b)).2
    | none => s
  if recCode cont = 0 then raise s
  else
    let r := recFor cont 0
    match pushRec s (pushTarget s ctx k r) ctx r with
    | some s' => raise s'
    | none => onCtx s ctx fun c => { c with conts := c.conts ++ [{ record := r, cluster := k, event := ev }] }
/-- What follows a join update that took COUNT from one value to another: an update that completes the block reads it (R311). -/
def joinAfter (s : State) (ctx k slot pa : Nat) (old new : W64) (payload : W64) : State :=
  if 1 ≤ signedOf 64 old.toNat ∧ signedOf 64 new.toNat ≤ 0 then
    let b := homeRead s ctx slot pa 64
    joinComplete b.2 ctx k (ofBytes b.1) payload
  else s
/-- The decrement by the `end` of the focus thread set, a C-path atomic at the home of COUNT, after the task's accesses (R31, R250, R292,
R311). -/
def joinDecrement (s : State) (ctx k : Nat) (x : Xl) (payload : W64) : State :=
  let r := homeRead s ctx x.slot x.pa 8
  let old := BitVec.ofNat 64 (ofBytes r.1)
  let bytes := atAddr x.pa (toBytes 8 (old - 1).toNat)
  let w := homeWrite r.2 ctx x.slot .C (max s.th.pts s.released) bytes
  joinAfter (ackNow x.slot w.1 bytes w.2) ctx k x.slot x.pa old (old - 1) payload

/-- CONTINUATION_PUSH: the oldest waiting continuation that finds room (R311, R315). -/
def evContPush (ctx : Nat) (s : State) : Option State :=
  let l := (getCtx s ctx).conts
  (List.range l.length).findSome? fun i => match l[i]? with
    | none => none
    | some c =>
      (pushRec s (pushTarget s ctx c.cluster c.record) ctx c.record).map fun s' =>
        let s' := onCtx s' ctx fun x => { x with conts := x.conts.eraseIdx i }
        match c.event with
        | some b => (raiseEvent s' ctx (some b)).2
        | none => s'
def execContinuationPush (ctx : Nat) (s : State) : Out := .next ((evContPush ctx s).getD s)

/-! ### The checks of a launch (R321) -/

/-- Class entries that CVALID marks. -/
def newClasses (l : Launch) (tab : Nat) : AMap (BitVec 128) :=
  ((List.range 16).filter (bitOf (lpbF l 240 2))).map fun i => (i, BitVec.ofNat 128 (bitsOf tab (128 * i) 128))
def classOk (e : Nat × BitVec 128) : Bool :=
  bitsOf e.2.toNat 72 56 == 0 && classFunc e.2 != 3 && (e.1 != 15 || classHandler e.2 == 0)
/-- Bytes of a descriptor that must be zero, and its fields. -/
def rtClasses (d : BitVec 128) : W16 := BitVec.ofNat 16 d.toNat
def rtLo (d : BitVec 128) : Nat := bitsOf d.toNat 64 32
def rtLen (d : BitVec 128) : Nat := bitsOf d.toNat 96 32
def rtCluster (d : BitVec 128) : Nat := bitsOf d.toNat 32 16
/-- A partition word of R240 for an allocation. -/
def poolWordOk (w : W64) (alloc : Nat) : Bool :=
  let r := fieldOf w 0 6
  let c := fieldOf w 8 6
  let a := fieldOf w 16 6
  fieldOf w 6 2 == 0 && fieldOf w 14 2 == 0 && fieldOf w 22 42 == 0 && decide (1 ≤ r ∧ r ≤ 4) && decide (1 ≤ c ∧ c ≤ 47)
    && decide (a ≤ 46) && r + c + a == 48 && decide (4 * alloc * 64 ≤ r * 16384)
/-- Two residents of one core share a class, or their spans meet (R321, R332). -/
def residClash (a b : W16 × Nat × Nat) : Bool :=
  a.1 &&& b.1 != 0 || (a.2.2 != 0 && b.2.2 != 0 && decide (a.2.1 < b.2.1 + b.2.2) && decide (b.2.1 < a.2.1 + a.2.2))
def pairwiseOk : List (W16 × Nat × Nat) → Bool
  | [] => true
  | a :: l => (l.all fun b => !residClash a b) && pairwiseOk l
/-- Item 3 of R321: the launch is valid. A CRING that is not a multiple of 16 fails too, which R321 does not say (DESIGN CHOICE, log 72).
-/
def launchValid (s : State) (ctx : Nat) (l : Launch) : Bool :=
  let alloc := lpbAlloc l
  let pw := lpbPool l
  let reg := fieldOf pw 0 6
  let lo := reg * 16384
  let hi := (reg + fieldOf pw 8 6) * 16384
  let ff := lpbF l 88 4
  let cn := lpbF l 216 4
  let caps := (namedCores l).map fun c => (getCore s c).cap
  let installed := (getCtx s ctx).classes
  let all := l.ctab.foldl (fun m e => amSet m e.1 e.2) installed
  let qregs := all.map fun e => classCtl e.2 4 3
  let cores := (l.rtab.map rtCore).eraseDups
  lpbF l 92 4 == 0 && lpbF l 196 4 == 0 && lpbF l 242 6 == 0 && lpbCtl l 9 7 == 0 && lpbCtl l 25 7 == 0
    && bitsOf (lpbF l 47 1) 2 6 == 0 && bitsOf (lpbF l 160 36) 288 0 == 0
    && decide (1 ≤ lpbF l 44 1 ∧ lpbF l 44 1 ≤ 32) && decide (1 ≤ lpbF l 41 1 ∧ lpbF l 41 1 ≤ 8)
    && decide (32 ≤ alloc ∧ alloc ≤ 256) && alloc % 8 == 0
    && (if lpbF l 208 8 = 0 then cn == 0 || (popcount 32 cn == 1 && decide (cn ≤ 2 ^ 20))
        else lpbF l 208 8 % 16 == 0 && popcount 32 cn == 1 && decide (cn ≤ 2 ^ 20))
    && caps.all (fun c => decide (alloc ≤ c) && (decide (4 ≤ reg) || decide (256 ≤ c)))
    && poolWordOk pw alloc && (ff == 0 || (ff % 128 == 0 && decide (lo ≤ ff) && decide (ff + 128 ≤ hi)))
    && lpbF l 200 8 % 64 == 0 && decide (lpbF l 220 4 ≤ numCores)
    && l.ctab.all (fun e => classOk e && (match amFind installed e.1 with
        | some x => x == e.2
        | none => true))
    && qregs.eraseDups.length == qregs.length
    && l.rtab.all (fun d => bitsOf d.toNat 24 8 == 0 && bitsOf d.toNat 48 16 == 0 && decide (bitsOf d.toNat 16 8 ≤ 7)
        && (rtLen d == 0 || (decide (lo ≤ rtLo d) && decide (rtLo d + rtLen d ≤ hi) && decide (rtLen d ≤ 262144)))
        && (List.range 16).all fun c => !bitOf (rtClasses d).toNat c || (amFind all c).isSome)
    && cores.all (fun c =>
        let placed := (getCore s c).resid.filter fun _ => (getCore s c).ctx == some ctx
        let mine := (l.rtab.filter fun d => rtCore d == c).map fun d => (rtClasses d, rtLo d, rtLen d)
        let both := placed.map (fun r => (r.classes, r.spanLo, r.spanLen)) ++ mine
        decide (both.length ≤ 4) && pairwiseOk both)
/-- Item 4 of R321: the named clusters lie in the partition, and units have somewhere to go. -/
def launchPlaced (s : State) (ctx : Nat) (l : Launch) : Bool :=
  let p := getPart s (getCtx s ctx).part
  (lpbClusters l).all (inRect p) && (l.rtab.all fun d => inRect p (rtCluster d)) && (lpbUnits l == 0 || !(lpbClusters l).isEmpty)
/-- The checks in order: the cause of the failure or 0, and the entry with its tables (R321). -/
def checkLaunch (s : State) (ctx k : Nat) (l : Launch) : Nat × Launch × State :=
  if 2 ^ 31 < lpbUnits l then (cBADCOUNT, l, s)
  else
    let tab := if lpbF l 240 2 = 0 then .ok (0, s) else ctxRead s ctx k (lpbF l 232 8) 256
    match tab with
    | .error c => (c, l, s)
    | .ok (t, s) =>
      let n := lpbF l 220 4
      match (if n = 0 then .ok (0, s) else ctxRead s ctx k (lpbF l 224 8) (16 * n)) with
      | .error c => (c, l, s)
      | .ok (r, s) =>
        let l := { l with ctab := newClasses l t, rtab := (List.range n).map fun i => BitVec.ofNat 128 (bitsOf r (128 * i) 128) }
        if !launchValid s ctx l then (cENGINE, l, s)
        else if !launchPlaced s ctx l then (cPERM, l, s)
        else (0, l, s)

/-- Work of a launch entry is left: a running task or activation, a record in a ring or chain, or a ray that may still push one (R28, R209,
R309). -/
def lidLeft (s : State) (ctx lid : Nat) : Bool :=
  (coresOf s ctx).any (fun c => (List.range 4).any fun t =>
    let th := threadAt s (4 * c + t)
    th.st != .idle && (match th.act with
      | some a => a.lid == lid
      | none => recLid th.task == lid)) ||
  s.clusters.any fun e => e.2.rays.any (fun r => r.2.st == .run && r.2.ctx == ctx && r.2.hlid == lid) || match amFind e.2.rings ctx with
    | some x => (List.range 8).any fun p => (ringOf x p).any (fun r => recLid r.2 == lid) ||
        (chainOf s ctx e.1 p).any fun a => (segRecs s ctx e.1 a).any fun r => recLid r == lid
    | none => false
/-- A free launch entry, lowest first (R321). An entry stays in use until its residents have been released, nothing of its work is left,
and no write of its log's count waits (log 28). -/
def freeLid (s : State) (ctx : Nat) : Option Nat := ((List.range 255).map (· + 1)).find? fun i =>
  let l := getLaunch s ctx i
  !l.live && l.residReleased && l.logFault.isNone && !lidLeft s ctx i
/-- A launch that has not been admitted completes as cancelled: each of its units is reported with status 1 (R323, R326). -/
def cancelUnadmitted (s : State) (ctx lid : Nat) : State :=
  let s := onLaunch s ctx lid fun x => { x with cancelling := true, tail := some (0, 1), residReleased := true }
  completeLaunch (reportAll ctx lid (lpbUnits (getLaunch s ctx lid)) s) ctx lid
/-- Issue of a block (R321, R399): the level identifier of R324. -/
def issueLaunch (s : State) (ctx k lid : Nat) (blk : BitVec 2048) (addr : W64) (job : Nat) : W64 × State :=
  let gen := ((getLaunch s ctx lid).gen + 1) % 2 ^ 32
  let l := { Launch.init with gen := gen, block := blk, addr := addr, job := job }
  let r := checkLaunch s ctx k l
  if r.1 ≠ 0 then
    (BitVec.ofNat 64 (2 ^ 63 + r.1), raiseErr (onLaunch r.2.2 ctx lid fun _ => { l with cause := r.1 }) ctx l)
  else
    let s := openLevels (onLaunch r.2.2 ctx lid fun _ => { r.2.1 with live := true, residReleased := r.2.1.rtab.isEmpty }) ctx lid l
    (BitVec.ofNat 64 (gen * 2 ^ 16 + lid), if aboveCancelled s ctx l then cancelUnadmitted s ctx lid else s)

/-! ### Binding (R33, R163, R240, R313, R322, R330, R335) -/

/-- Binds the classes of a table on a core: each to its QREG with its MASKED bit, unless it is bound there already (R330). -/
def installBinds (c : CoreSt) (cls : AMap (BitVec 128)) : CoreSt :=
  { c with binds := cls.foldl (fun b e =>
      let q := classCtl e.2 4 3
      if b.toList.any fun x => x.bound && x.cls == e.1 then b
      else if h : q < 8 then (if b[q].bound then b else b.set q ⟨e.1, true, classCtl e.2 7 1 == 1⟩ h) else b) c.binds }
/-- The ring set that a binding needs: held, or one of fewer than eight (R313). -/
def ringsFree (s : State) (k ctx : Nat) : Bool := holdsRings s k ctx || decide ((getClu s k).rings.length < 8)
/-- A core as a binding leaves it (R33, R163, R241): its L1 is empty (R363), and its program timestamps (R37), its pool's time and its
forwarding entries (R343) go on. -/
def bindCore (s : State) (core ctx : Nat) (pw : W64) (alloc : Nat) : State :=
  let s := openRings s (cluOf core) ctx
  let place := (getCtx s ctx).placement
  let cls := (getCtx s ctx).classes
  let s := (List.range 4).foldl (fun s t => onThread s (4 * core + t) fun t => { Thread.init with pts := max t.pts s.basePts, csel := ctx }) s
  onCore s core fun c =>
    let b := { CoreSt.init with threads := c.threads, ctx := some ctx, pword := pw, alloc := alloc, cap := c.cap, gated := c.gated, ptime := c.ptime }
    let tlb := c.tlb.filter fun e => e.ctx == ctx
    installBinds { b with tlb := tlb, pcache := place, fwd := c.fwd, lastTs := c.lastTs, castled := c.castled } cls
/-- The lowest resident number that no resident of a core holds (R335). -/
def freeResNo (l : List Resident) : Nat := ((List.range 4).find? fun n => !l.any fun r => r.resNo == n).getD 3
/-- Places the residents that a launch names on a bound core (R322, R335). -/
def placeResidents (s : State) (ctx lid core : Nat) : State :=
  let l := getLaunch s ctx lid
  (List.range l.rtab.length).foldl (fun s i =>
    let d := l.rtab.getD i 0
    if rtCore d ≠ core ∨ (getCore s core).resid.any fun r => r.lid == lid && r.inst == i then s
    else
      let r : Resident := { inst := i, lid := lid, gen := l.gen, resNo := freeResNo (getCore s core).resid, classes := rtClasses d,
                            spanLo := rtLo d, spanLen := rtLen d, nominal := core, pin := false, traffic := [] }
      let s := onCtx s ctx fun c => { c with placement := amSet c.placement (instKey r.id) core }
      onCore s core fun c => { c with resid := c.resid ++ [r], pcache := amSet c.pcache (instKey r.id) core }) s
/-- Places on a core the residents of every launch in progress that has been admitted and is bound as the core is (R322). -/
def placeAll (s : State) (ctx core : Nat) : State := (getCtx s ctx).launches.foldl (fun s e =>
  if e.2.live && e.2.admitted && (namedCores e.2).contains core && boundFor s ctx e.2 core then placeResidents s ctx e.1 core else s) s
/-- A core that a launch names may be bound to it now. -/
def bindable (s : State) (ctx : Nat) (l : Launch) (core : Nat) : Bool :=
  let c := getCore s core
  c.ctx.isNone && decide (32 ≤ c.cap) && !c.gated && ringsFree s (cluOf core) ctx && decide (lpbAlloc l ≤ c.cap)
/-- A launch binds a core that it may bind, and residents are placed there (R33, R322). -/
def bindFor (s : State) (ctx lid core : Nat) : State :=
  let l := getLaunch s ctx lid
  placeAll (if bindable s ctx l core then bindCore s core ctx (lpbPool l) (lpbAlloc l) else s) ctx core

/-- CORE_BIND: a core that an admitted launch names and that has become free (R33). -/
def evCoreBind (core ctx lid : Nat) (s : State) : Option State :=
  let l := getLaunch s ctx lid
  if l.live && l.admitted && (namedCores l).contains core && bindable s ctx l core && !(getCtx s ctx).draining then
    some (bindFor s ctx lid core)
  else none
def execCoreBind (core ctx lid : Nat) (s : State) : Out := .next ((evCoreBind core ctx lid s).getD s)

/-- A core as a release leaves it (R33, R363); a ring set goes when nothing needs it (R313), and forwarding entries stay (R343). -/
def releaseCore (s : State) (core : Nat) : State := match (getCore s core).ctx with
  | none => s
  | some ctx =>
    let s := onCore s core fun c => { c with ctx := none, pword := 0, alloc := 0, q := Vector.replicate 16 [],
                                             binds := Vector.replicate 8 ⟨0, false, false⟩, resid := [], pcache := [], l1 := [] }
    settleRings s (cluOf core) ctx
/-- CORE_RELEASE: no task or resident of the context is left on the core, no admitted launch in progress that can use its binding names it, no
castle has chosen it, and its cluster holds no record that only it could run (R33, R346). -/
def evCoreRelease (core : Nat) (s : State) : Option State :=
  let c := getCore s core
  match c.ctx with
  | none => none
  | some ctx =>
    let idle := (List.range 4).all fun t => idleSet s (4 * core + t)
    let named := (getCtx s ctx).launches.any fun e => e.2.live && e.2.admitted && (namedCores e.2).contains core && boundFor s ctx e.2 core
    let k := cluOf core
    let alone := !(List.range 8).any fun i => 8 * k + i != core && (getCore s (8 * k + i)).ctx == some ctx
    if idle && c.resid.isEmpty && !named && !c.held && !castling s core && !(alone && holdsRecords s k ctx) && c.mq.isEmpty then
      some (releaseCore s core)
    else none
def execCoreRelease (core : Nat) (s : State) : Out := .next ((evCoreRelease core s).getD s)

/-! ### Admission and dispatch (R34, R312, R322) -/

/-- LAUNCH_ADMISSION. -/
def evAdmit (ctx lid : Nat) (s : State) : Option State :=
  let l := getLaunch s ctx lid
  let wait : BitVec 256 := BitVec.ofNat 256 (lpbF l 96 32)
  if !l.live || l.admitted || (getCtx s ctx).draining || (getCtx s ctx).events &&& wait != wait then none
  else
    let s := if lpbCtl l 3 1 = 1 then clearMask s ctx wait else s
    let s := onLaunch s ctx lid fun x => { x with admitted := true }
    let s := onLevels (openLevels s ctx lid l) ctx l fun v => { v with admitted := v.admitted + 1 }
    let ov := lpbF l 248 8
    let s := onCtx s ctx fun c =>
      let cls := l.ctab.foldl (fun m e => amSet m e.1 e.2) c.classes
      { c with classes := cls, ovft := if ov = 0 then c.ovft else BitVec.ofNat 64 ov }
    let s := (coresOf s ctx).foldl (fun s c => onCore s c fun x => installBinds x l.ctab) s
    let s := (namedCores l).foldl (fun s c => bindFor s ctx lid c) s
    some (if lpbUnits l = 0 then completeLaunch s ctx lid else s)
def execLaunchAdmission (ctx lid : Nat) (s : State) : Out := .next ((evAdmit ctx lid s).getD s)

/-- The stores that ready unit `i`'s join block (R312). -/
def readyJoin (s : State) (ctx k lid i : Nat) (l : Launch) : Except Nat State :=
  let uj := lpbF l 200 8
  if uj = 0 then .ok s
  else ctxWrite s ctx k .write (uj + 64 * i) (toBytes 32 (1 + (2 ^ 63 + lid * 2 ^ 32 + i) * 2 ^ 128))
/-- The record of unit `i` (R34, R312). -/
def unitRec (l : Launch) (lid i : Nat) : Rec :=
  let uj := lpbF l 200 8
  mkRec (BitVec.ofNat 64 (lpbF l 0 8)) (BitVec.ofNat 64 (lpbF l 8 8 + i * lpbF l 16 8))
    (BitVec.ofNat 64 (if uj = 0 then 0 else uj + 64 * i)) i true (lpbCtl l 0 3) false (lpbCtl l 5 1 == 1) lid
/-- UNIT_DISPATCH: the next unit goes to its cluster's ring (R34). -/
def evDispatch (ctx lid : Nat) (s : State) : Option State :=
  let l := getLaunch s ctx lid
  let ks := lpbClusters l
  let i := l.next
  if !l.live || !l.admitted || l.tail.isSome || (getCtx s ctx).draining || lpbUnits l ≤ i || l.head + 256 ≤ i then none
  else
    let k := ks.getD (i % max 1 ks.length) 0
    let ready := (lpbCores l).any fun c => cluOf c == k && boundFor s ctx l c
    if !ready then none
    else match readyJoin s ctx k lid i l with
      | .error c => some (advance (onLaunch s ctx lid fun x => { x with cause := c, tail := some (i, 3) }) ctx lid)
      | .ok s' => (pushRec s' k ctx (unitRec l lid i)).map fun s2 => onLaunch s2 ctx lid fun x => { x with next := i + 1 }
def execUnitDispatch (ctx lid : Nat) (s : State) : Out := .next ((evDispatch ctx lid s).getD s)

/-- A resident runs no activation and its bound queue registers are empty (R322). -/
def residIdle (s : State) (core : Nat) (r : Resident) : Bool :=
  let c := getCore s core
  !c.held && ((List.range 4).all fun t => match (threadAt s (4 * core + t)).act with
    | some a => !(a.lid == r.lid && a.inst == r.inst)
    | none => true) &&
  (List.range 16).all fun cls => !r.hasClass cls || (match bindOf c cls with
    | some (q, _) => qLen c q == 0
    | none => true)
/-- RESIDENT_RELEASE: the launch is complete and each instance idle (R322). -/
def evResidRelease (ctx lid : Nat) (s : State) : Option State :=
  let l := getLaunch s ctx lid
  let mine := fun (core : Nat) => (getCore s core).resid.filter fun r => r.lid == lid
  if !l.complete || l.residReleased || !(coresOf s ctx).all fun c => (mine c).all (residIdle s c) then none
  else
    let s := (coresOf s ctx).foldl (fun s c => onCore s c fun x => { x with resid := x.resid.filter fun r => r.lid != lid }) s
    let s := onCtx s ctx fun c => { c with placement := c.placement.filter fun e => e.1 / numCores % 256 != lid }
    some (onLaunch s ctx lid fun x => { x with residReleased := true })
def execResidentRelease (ctx lid : Nat) (s : State) : Out := .next ((evResidRelease ctx lid s).getD s)

end Machine
end Sys2Proof
end

