-- ==== Sys2Proof/Machine/Macros.lean ====
section
/-!
DEFINITION. Macros: the tracking of a core's macros at issue (R163, R164, R177), and commands that leave a core's queue without
running to their end (R326, R391).
-/
namespace Sys2Proof
namespace Machine

/-- The tracking of a macro and its pair becomes empty (R164, R177). -/
def trackFree (v : Vector MTrack 8) (n : Nat) : Vector MTrack 8 :=
  let put := fun (v : Vector MTrack 8) (i : Nat) => if h : i < 8 then v.set i .empty h else v
  match v.toList.getD n .empty with
  | .low => put (put v n) (n + 1)
  | .high => put (put v (n - 1)) n
  | _ => put v n
def trackSet (v : Vector MTrack 8) (n : Nat) (x : MTrack) : Vector MTrack 8 := if h : n < 8 then v.set n x h else v
/-- Tracking after an `mbld` into a macro: what the macro held is released (R177). -/
def trackLoad (v : Vector MTrack 8) (n : Nat) (wide : Bool) : Vector MTrack 8 :=
  if wide then trackSet (trackSet (trackFree (trackFree v n) (n + 1)) n .low) (n + 1) .high else trackSet (trackFree v n) n .single
/-- Tracking after a command: a tile named by address leaves its macros empty (R164, R186). -/
def trackCmd (v : Vector MTrack 8) (op : MOp) : Vector MTrack 8 := match op with
  | .mbld wide _ _ mac _ => trackLoad v mac.val wide
  | .mbrel mac => trackFree v mac.val
  | .mmul _ _ _ _ _ _ (some _) mac => trackFree (trackFree v mac.val) (mac.val + 1)
  | _ => v
/-- Tracking of a macro as it stands. -/
def trackOf (m : MArr) : MTrack := match m with
  | .empty => .empty
  | .loaded 0 _ _ _ _ => .single
  | .loaded 1 _ _ _ _ => .low
  | .loaded _ _ _ _ _ => .high
/-- Tracking of a core from its macros and the commands that its queue holds (R164). After a command that had not begun is gone, an `mbld`
or `mbrel` among them, the tracking is what the macros and the commands that are left give (DESIGN CHOICE, log 37). -/
def retrack (c : CoreSt) : CoreSt :=
  { c with mtrack := c.mq.foldl (fun v m => m.lose.foldl trackFree (trackCmd v m.op)) (c.macros.map trackOf) }

/-- Contents of a macro and its successor; a macro emptied with its pair (R163, R177). -/
def macroAt (c : CoreSt) (n : Nat) : MArr := c.macros.toList.getD n .empty
def macroPut (c : CoreSt) (n : Nat) (x : MArr) : CoreSt := if h : n < 8 then { c with macros := c.macros.set n x h } else c
def macroFree (c : CoreSt) (n : Nat) : CoreSt := match macroAt c n with
  | .loaded 1 .. => macroPut (macroPut c n .empty) (n + 1) .empty
  | .loaded 2 .. => macroPut (macroPut c (n - 1) .empty) n .empty
  | _ => macroPut c n .empty
/-- Macros whose former tiles a command's issue lost (R186). -/
def losses (c : MCmd) : List Nat := c.lose ++ match c.op with
  | .mmul _ _ _ _ _ _ (some _) mac => [mac.val, mac.val + 1]
  | _ => []
/-- What the issue of a command lost is lost although the command is gone: once the commands before it have completed (R186). -/
def passLoss (c : CoreSt) (m : MCmd) : CoreSt := match (c.mq.filter fun e => decide (e.num < m.num)).getLast? with
  | some e => { c with mq := c.mq.map fun x => if x.num = e.num then { x with lose := x.lose ++ losses m } else x }
  | none => (losses m).foldl macroFree c

/-- The head of a queue notes the cycle at which it came there (R169). -/
def noteHead (now : W64) (c : CoreSt) : CoreSt := match c.mq with
  | m :: l => { c with mq := { m with headAt := some (m.headAt.getD now) } :: l }
  | [] => c
/-- A command leaves its queue: a unit that it migrated to is free again (R169). -/
def freeUnit (s : State) (c : MCmd) : State := match c.migrated with
  | some k => onClu s k fun x => { x with migrated := none }
  | none => s
/-- Commands of a core that `gone` names are dropped, with the faults that they wait on; the tracking follows (R164, R169, R326). -/
def dropCmds (s : State) (core : Nat) (gone : MCmd → Bool) : State :=
  let out := (getCore s core).mq.filter gone
  let s := out.foldl freeUnit s
  let s := { s with waiting := s.waiting.filter fun w => !out.any fun c => c.fault == some w.fid }
  onCore s core fun c =>
    if out.isEmpty then c else retrack (noteHead s.cycle (out.foldl passLoss { c with mq := c.mq.filter fun m => !gone m }))

end Machine
end Sys2Proof
end

