-- ==== Sys2Proof/Machine/Sched.lean ====
section
/-!
DEFINITION. Sched: the start and the end of tasks and activations, and the forms of the scheduling chapter
(R28 to R32, R115, R318, R321, R325, R326, R328, R332, R348).
-/
namespace Sys2Proof
namespace Machine

/-! ### Starting work (R30, R43, R123, R292) -/

/-- Per-launch special registers from a block (R123, R319). -/
def launchRegs (r : Regs) (l : Launch) : Regs :=
  { r with mtol := BitVec.ofNat 64 (lpbF l 56 4), mrmax := BitVec.ofNat 64 (lpbF l 44 1), ivstop := BitVec.ofNat 64 (lpbF l 60 4),
           mweight := BitVec.ofNat 64 (lpbF l 41 1), rngkey := BitVec.ofNat 64 (lpbF l 64 8), trapvec := BitVec.ofNat 64 (lpbF l 72 8),
           upvec := BitVec.ofNat 64 (lpbF l 80 8), ffbase := BitVec.ofNat 64 (lpbF l 88 4) }
/-- Registers at a start (R30): the per-launch ones stand. -/
def startRegs (r : Regs) (unit frame lpb : W64) : Regs :=
  { Regs.init with unit := unit, frame := frame, lpb := lpb, mtol := r.mtol, mrmax := r.mrmax, ivstop := r.ivstop,
                   mweight := r.mweight, rngkey := r.rngkey, trapvec := r.trapvec, upvec := r.upvec, ffbase := r.ffbase }
/-- Zeroes the extended vector file of the focus thread set (R30, R368). -/
def clearExt (s : State) : State := withCore s fun c =>
  { c with pool := c.pool.filter fun e => !(decide (extBlock c (s.here % 4) 0 ≤ e.1) && decide (e.1 < extBlock c (s.here % 4) c.alloc)) }
/-- The focus thread set with the work of launch `lid` set up, before the check of its code pointer (R30, R292). The first task of a
launch there loads its registers; a thread set knows the launch of its last task only, so tasks of launches A, B, A load A's again
(DESIGN CHOICE, log 72). -/
def startState (s : State) (st : TsState) (task : Rec) (act : Option Act) (code frame : W64) (unit lid : Nat) (hit : Option (Nat × Nat)) :
    State :=
  let l := getLaunch s (myCtx s) lid
  let first := lid != 0 && s.th.lcur != some (lid, l.gen)
  let s := if first then clearExt s else s
  let rf := startRegs s.th.rf (BitVec.ofNat 64 unit) frame (if lid = 0 then 0 else l.addr)
  let rf := if first then launchRegs rf l else rf
  let lcur := if lid = 0 then s.th.lcur else some (lid, l.gen)
  let s := withTh s fun t =>
    { Thread.init with rf := rf, pc := code, ipc := code, st := st, task := task, act := act, pts := t.pts, lcur := lcur,
                       csel := t.csel, hit := hit }
  acquire s
/-- Work starts where its code pointer passes the check of R43, and otherwise with that check's trap (R30). -/
def startAt (s : State) (code : W64) : State := match checkTarget s code with
  | .ok s' => s'
  | .bad s' => takeTrap s' (trapOf cBADTARGET code)
  | .linepar s' => takeTrap s' (trapOf cLINEPAR code)
  | .page => takePage s (trapAcc cPAGE code (accWord .K false true 64))
  | .perm => takeTrap s (trapAcc cPERM code (accWord .K false true 64))
/-- Work of launch `lid` starts on the focus thread set, at a code pointer that R43 checks. -/
def startWork (s : State) (st : TsState) (task : Rec) (act : Option Act) (code frame : W64) (unit lid : Nat) (hit : Option (Nat × Nat)) :
    State :=
  startAt (startState s st task act code frame unit lid hit) code

/-- The hit-buffer entry of a hit record that is popped: the oldest of its context and priority that no task has (R208). -/
def takeHit (s : State) (k ctx : Nat) (r : Rec) : Option (Nat × Nat) × State :=
  if !recHit r then (none, s)
  else match (getClu s k).hitbuf.find? fun e => e.2.ctx == ctx && e.2.prio == recPrio r && !e.2.taken with
    | some e => (some (k, e.1), onClu s k fun c => { c with hitbuf := amSet c.hitbuf e.1 { e.2 with taken := true } })
    | none => (none, s)
/-- A thread set runs a popped record (R30). -/
def startTask (s : State) (g : Nat) (r : Rec) : State :=
  let s := focus s g
  let h := takeHit s (myClu s) (myCtx s) r
  startWork h.2 .task r none (recCode r) (recFrame r) (recUnit r) (recLid r) h.1

/-- Classes of a resident that wait with a message at their queue's head, in the order of R331. -/
def waitingClass (s : State) (c : CoreSt) (ctx : Nat) (r : Resident) : Option Nat :=
  (List.range 16).foldl (fun b cls =>
    let e := classOf s ctx cls
    let ready := r.hasClass cls && classHandler e != 0 && (match bindOf c cls with
      | some (q, m) => !m && decide (0 < qLen c q)
      | none => false)
    if !ready then b
    else match b with
      | some x => if classPrio (classOf s ctx x) < classPrio e then some cls else some x
      | none => some cls) none
/-- A resident runs no activation on its core (R29). -/
def residFree (s : State) (core : Nat) (r : Resident) : Bool := (List.range 4).all fun t =>
  match (threadAt s (4 * core + t)).act with
  | some a => !(a.lid == r.lid && a.inst == r.inst)
  | none => true
/-- The resident whose activation starts next on a core, and its class (R28, R331). -/
def nextActivation (s : State) (core : Nat) : Option (Resident × Nat) :=
  let c := getCore s core
  match c.ctx with
  | none => none
  | some ctx =>
    if c.held then none
    else (sortBy (fun a b => decide (a.resNo ≤ b.resNo)) c.resid).findSome? fun r =>
      if residFree s core r then (waitingClass s c ctx r).map fun x => (r, x) else none
/-- ACTIVATION_START: the lowest-numbered idle thread set of the core takes the activation (R28 to R30). -/
def evActivation (g : Nat) (s : State) : Option State :=
  let core := coreNo g
  if !idleSet s g || (takesWork s core).isNone || (List.range (g % 4)).any (fun t => idleSet s (4 * core + t)) then none
  else (nextActivation s core).map fun e =>
    let s := focus s g
    let a : Act := { inst := e.1.inst, resNo := e.1.resNo, lid := e.1.lid, cls := e.2, cur := none }
    startWork s .activation 0 (some a) (classHandler (classOf s (myCtx s) e.2)) 0 e.1.inst e.1.lid none
def execActivationStart (g : Nat) (s : State) : Out := .next ((evActivation g s).getD s)
/-- A thread set may pop a record of a context: it is idle and has no activation to take (R28). -/
def mayPop (s : State) (ctx g : Nat) : Bool :=
  idleSet s g && takesWork s (coreNo g) == some ctx && (nextActivation s (coreNo g)).isNone
/-- TASK_POP and AGING_POP: the lowest-numbered thread set of the cluster that may pop takes a record (R28, R315, R316). -/
def evPop (aging : Bool) (g : Nat) (s : State) : Option State :=
  let core := coreNo g
  match takesWork s core with
  | none => none
  | some ctx =>
    if !mayPop s ctx g || agingDue s (cluOf core) != aging || (List.range (g % 32)).any (fun i => mayPop s ctx (g / 32 * 32 + i)) then none
    else (popRec s (cluOf core) ctx aging).map fun e => startTask e.2 g e.1
def execTaskPop (g : Nat) (s : State) : Out := .next ((evPop false g s).getD s)
def execAgingPop (g : Nat) (s : State) : Out := .next ((evPop true g s).getD s)

/-! ### Ending work (R31, R115, R172, R208, R305) -/

/-- Answers that a thread set has posted and that have not arrived (R230). -/
def postsOf (s : State) (g : Nat) : Bool := s.clusters.any fun e => e.2.rays.any fun r => r.2.queue.any fun q => q.2 == g
/-- Every access and command of the thread set is performed (R115, R318, R321, R328). -/
def allDone (s : State) : Bool := quietOn s allPaths && !postsOf s s.here
/-- The matrix fault latch traps CIMPAR at the macro, and clears (R172). -/
def matrixLatch (s : State) : Option State := s.th.mlatch.map fun m =>
  takeTrap (withTh s fun t => { t with mlatch := none }) (trapOf cCIMPAR (BitVec.ofNat 64 m))
/-- A hit task ends: its entry is free and its ray has one task less outstanding (R208). -/
def freeHit (s : State) (h : Nat × Nat) : State :=
  let c := getClu s h.1
  match amFind c.hitbuf h.2 with
  | some e => onClu s h.1 fun c =>
    let ray := amGet Ray.init c.rays e.slot
    { c with hitbuf := amDel c.hitbuf h.2, rays := amSet c.rays e.slot { ray with outstanding := ray.outstanding - 1 } }
  | none => s
/-- The thread set lets its work go: granules free, HA clear, idle (R31, R115). -/
def retireTh (t : Thread) : Thread :=
  { t with rf := clearHA t.rf, st := .idle, task := 0, act := none, shapes := Vector.replicate 8 .zero,
           m := Vector.replicate 8 .zero, rays := [], hit := none, stage := 0, ptgt := none, xfer := none,
           platch := none, mlatch := none }
def retire (s : State) : State := withTh s retireTh
/-- The steps of R31 on the focus thread set, whose waits have ended. -/
def finishWork (s : State) : Except Stop State := do
  let t := s.th
  let ctx := myCtx s
  let frame := t.rf.frame
  match t.hit with
  | some h => .ok (retire (freeHit s h))
  | none =>
    if t.st = .task ∧ recJoin t.task ≠ 0 then
      let ea := recJoin t.task
      let accw := accWord .C true false 8
      alignCheck ea 64 accw
      let x ← (if inPoolWindow ea.toNat then permStop ea accw else xlateE s .write false ea accw)
      .ok (retire (joinDecrement x.2 ctx (myClu s) x.1 frame))
    else if t.st = .task ∧ recLU t.task then .ok (retire (deliver s ctx (recLid t.task) (recUnit t.task) 0 frame))
    else .ok (retire s)
/-- `end` and `defer` after their checks: waits, the release, latches, then `k` (R115, R292, R305, R172). -/
def endForm (s : State) (k : State → Except Stop State) : Except Stop State := do
  ready (allDone s && s.th.busy == 0)
  let s := release s
  match latchTrap s with
  | some s' => .ok s'
  | none => match matrixLatch s with
    | some s' => .ok s'
    | none => k s
def execEnd (o : Bare) (s : State) : Out := .next (bit0Form s o.p (endForm s finishWork))

/-! ### Residents and queue registers (R332, R348) -/

/-- The binding of a class on the focus core; ENGINE when there is none. -/
def boundE (s : State) (cls : Nat) : Except Stop Nat := match bindOf s.core cls with
  | some (q, _) => .ok q
  | none => trapE cENGINE 0
def setBind (c : CoreSt) (q : Nat) (f : Bind → Bind) : CoreSt := if h : q < 8 then { c with binds := c.binds.set q (f c.binds[q]) h } else c
/-- The current message of some activation of the focus core is reserved in a queue register (R331). -/
def reservedIn (s : State) (q : Nat) : Bool := qReserved s.core s.th (s.here % 4) q

def execCmask (o : CMask) (s : State) : Out := .next
  (bit0Form s o.p (do
    let q ← boundE s o.n.toNat
    .ok (withCore s fun c => setBind c q fun b => { b with masked := true })))
def execCunmask (o : CMask) (s : State) : Out := .next
  (bit0Form s o.p (do
    let q ← boundE s o.n.toNat
    .ok (withCore s fun c => setBind c q fun b => { b with masked := false })))
/-- `qbind` (R332). -/
def execQbind (o : QBind) (s : State) : Out := .next
  (bit0Form s o.p (do
    let q := o.d.val
    let other := match bindOf s.core o.n.toNat with
      | some (x, _) => x != q
      | none => false
    require (qLen s.core q == 0 && !reservedIn s q && !other) cENGINE 0
    .ok (withCore s fun c => setBind c q fun _ => if o.un then ⟨0, false, false⟩ else ⟨o.n.toNat, true, false⟩)))
/-- `qlen` (R332). -/
def execQlen (o : QReg) (s : State) : Out := .next
  (bit0Form s o.p (.ok (
    let q := o.a.val
    let n := qLen s.core q + bit (reservedIn s q)
    let b := if h : q < 8 then s.core.binds[q] else ⟨0, false, false⟩
    setS s o.d (BitVec.ofNat 64 (n + b.cls % 16 * 2 ^ 8 + bit b.bound * 2 ^ 12 + bit b.masked * 2 ^ 13)))))
def execQdrop (o : QReg) (s : State) : Out := .next
  (bit0Form s o.p (.ok (setS (withCore s fun c => qSet c o.a.val []) o.d (BitVec.ofNat 64 (qLen s.core o.a.val)))))
/-- `resid` (R332). -/
def execResid (o : SD1) (s : State) : Out := .next
  (bit0Form s o.p (.ok (setS s o.d (match s.th.act with
    | some a => BitVec.ofNat 64 (2 ^ 63 + a.cls % 16 * 2 ^ 16 + a.resNo % 4 * 2 ^ 12 + myCore s)
    | none => 0))))
/-- What `defer` does with the current message and the class of the activation (R332). -/
def deferBack (c : CoreSt) (a : Act) : CoreSt := match actQueue c a with
  | some q =>
    let c := match a.cur with
      | some e => qSet c q (e :: qOf c q)
      | none => c
    setBind c q fun b => { b with masked := true }
  | none => c
/-- `defer` (R332). -/
def execDefer (o : Bare) (s : State) : Out := .next
  (bit0Form s o.p (match s.th.act with
    | none => trapE cENGINE 0
    | some a => endForm s fun s => .ok (retire (withCore s fun c => deferBack c a))))
/-- `castpin` (R348). -/
def execCastpin (o : CastPin) (s : State) : Out := .next
  (bit0Form s o.p (do
    match s.th.act with
    | none => trapE cENGINE 0
    | some a =>
      let mine := fun (r : Resident) => r.lid == a.lid && r.inst == a.inst
      let old := s.core.resid.any fun r => mine r && r.pin
      let new := if o.mode = 0 then false else if o.mode = 1 then true else old
      .ok (setS (withCore s fun c => { c with resid := c.resid.map fun r => if mine r then { r with pin := new } else r }) o.d
        (BitVec.ofNat 64 (bit old)))))

/-! ### Spawning and joining (R318, R328) -/

/-- Launch entry of the focus thread set's work. -/
def myLid (s : State) : Nat := match s.th.act with
  | some a => a.lid
  | none => recLid s.th.task
/-- The checks of `spawn` and `spawnt`, and the push that follows them (R318). -/
def spawnForm (s : State) (a : VOp) (k : Rec → Option State → Nat → State → Except Stop State) : Except Stop State := do
  vecChecks s [a] none
  let r : Rec := BitVec.ofNat 256 (peekV s a).toNat
  require (recField r 241 7 == 0 && recField r 228 1 == 0 && recAmode r != 3 && !recHit r && !recLU r) cENGINE 0
  require (recAmode r != 1 || inRect (getPart s (myPart s)) (recAidx r)) cPERM 0
  ready (allDone s)
  let s := release s
  let r := recFor r (myLid s)
  let t := pushTarget s (myCtx s) (myClu s) r
  k r (pushRec s t (myCtx s) r) t s
def execSpawn (o : Spawn) (s : State) : Out := .next
  (bit0Form s o.p (spawnForm s o.a fun r pushed k s => match pushed with
    | some s' => .ok s'
    | none => .error (.qfull (ovfEntry s (myCtx s) k (recPrio r)))))
def execSpawnt (o : SpawnT) (s : State) : Out := .next
  (bit0Form s o.p (spawnForm s o.a fun _ pushed _ s => .ok (match pushed with
    | some s' => setP s' o.d 0xFFFF
    | none => setP s o.d 0)))

/-- Translation of a join block for `join` and `ejoin`, which issue as C-path accesses of the thread set (R280, R328). -/
def joinXlate (s : State) (ea : W64) : Except Stop (Xl × State) := do
  let accw := accWord .C true false 8
  alignCheck ea 64 accw
  if inPoolWindow ea.toNat then permStop ea accw else xlateE s .write false ea accw
/-- `join` (R311, R328): an atomic on COUNT; the payload of a record that it delivers is `frame` as it is now. -/
def execJoin (o : S3) (s : State) : Out := .next
  (bit0Form s o.p (do
    let ea := getS s o.a
    let x ← joinXlate s ea
    .ok (issueC x.2 (memReq x.1 (.join (getS s o.b) s.th.rf.frame) ea [] o.d.val))))
/-- `ejoin` (R328): a store of EVW. -/
def execEjoin (o : EJoin) (s : State) : Out := .next
  (bit0Form s o.p (do
    let ea := getS s o.a
    let x ← joinXlate s ea
    let at_ : Xl := { x.1 with pa := x.1.pa + 8 }
    .ok (issueC x.2 (memReq at_ .store (ea + 8) (atAddr at_.pa (toBytes 8 (o.n.toNat + 256))) 0))))
/-- HOME_STORE: home performs a thread set's oldest store or atomic (R250); a join update that completes its block goes on with R311. -/
def evHomeStore (g : Nat) (s : State) : Option State := (performC s g).map fun t =>
  match (threadAt t g).creqs with
  | r :: _ => match r.kind with
    | .join b pay =>
      let old : W64 := BitVec.ofNat 64 r.reply.toNat
      joinAfter t ((getCore s (coreNo g)).ctx.getD 0) (cluOf (coreNo g)) r.slot r.pa old (old + b) pay
    | _ => t
  | [] => t
def execHomeStore (g : Nat) (s : State) : Out := .next ((evHomeStore g s).getD s)

/-! ### Events (R327, R328) -/

def execEset (o : Ev) (s : State) : Out := .next
  (bit0Form s o.p (do
    ready (allDone s)
    let s := release s
    let c := getCtx s (myCtx s)
    .ok (if o.clr then setCtx s (myCtx s) { c with evseq := c.evseq + 1, events := c.events &&& ~~~((1 : BitVec 256) <<< o.n.toNat) }
      else (raiseEvent s (myCtx s) (some o.n.toNat)).2)))
/-- `ewait` (R328): an acquire when it completes. -/
def execEwait (o : Ev) (s : State) : Out := .next
  (bit0Form s o.p (do
    ready (bitOf (getCtx s (myCtx s)).events.toNat o.n.toNat)
    let s := if o.clr then clearMask s (myCtx s) ((1 : BitVec 256) <<< o.n.toNat) else s
    .ok (acquire s)))

/-! ### Launches and levels (R321, R324 to R326) -/

/-- Translations of the four sectors of a block (R117, R321). -/
def blockXlate (ea : W64) : Nat → State → Except Stop (List Xl × State)
  | 0, s => .ok ([], s)
  | n + 1, s => do
    let r ← blockXlate ea n s
    let x ← xlateE r.2 .read false (ea + BitVec.ofNat 64 (64 * n)) (accWord .C false false 256)
    .ok (r.1 ++ [x.1], x.2)
/-- One C read at home of one sector per translation, at one time (R250, R321). -/
def readAsOne (s : State) (xs : List Xl) : Nat × State :=
  let now := xs.foldl (fun m x => max m (getLine s (x.pa / 256)).wts) s.th.pts
  xs.reverse.foldl (fun r x =>
    let d := loadHome r.2 x [x.pa / 64]
    ((copyAt d.1 (x.pa / 64)).data.toNat + 2 ^ 512 * r.1, d.2)) (0, raisePts s now)
/-- The 256 bytes of a block, as one C load after the thread set's earlier C accesses (R280, R321; log 71). -/
def loadBlock (ea : W64) (s : State) : Except Stop (Nat × State) :=
  if inPoolWindow ea.toNat then
    if poolOk s.core s.th.act (poolOff ea) 256 then .ok (ofBytes (poolBytesAt s.core.pool (poolOff ea) 256), poolLoaded s)
    else boundsStop ea (accWord .C false false 256)
  else do
    let x ← blockXlate ea 4 s
    .ok (readAsOne x.2 x.1)
/-- Job of the focus thread set's work. -/
def myJob (s : State) : Nat := if myLid s = 0 then 0 else (getLaunch s (myCtx s) (myLid s)).job
def execLaunch (o : SD2) (s : State) : Out := .next
  (bit0Form s o.p (do
    let lid := freeLid s (myCtx s)
    ready (lid.isSome)
    let ea := getS s o.a
    alignCheck ea 64 (accWord .C false false 256)
    ready s.th.creqs.isEmpty
    let b ← loadBlock ea s
    ready (allDone s)
    let r := issueLaunch (release b.2) (myCtx s) (myClu s) (lid.getD 0) (BitVec.ofNat 2048 b.1) ea (myJob s)
    .ok (setS r.2 o.d r.1)))

/-- An identifier has no FAIL and no reserved bit. -/
def identOk (w : W64) : Bool := fieldOf w 58 6 == 0 && fieldOf w 48 8 == 0
/-- `ctrd` (R325). -/
def ctrdOf (s : State) (ctx : Nat) (w : W64) (k : Nat) : W64 :=
  if !identOk w then 0
  else match fieldOf w 56 2 with
    | 0 =>
      let l := getLaunch s ctx (fieldOf w 0 16)
      if fieldOf w 0 16 = 0 ∨ 255 < fieldOf w 0 16 ∨ l.gen ≠ fieldOf w 16 32 ∨ l.gen = 0 then 0
      else match k with
        | 0 => BitVec.ofNat 64 l.completed
        | 1 => BitVec.ofNat 64 l.cancelled
        | 2 => BitVec.ofNat 64 l.stopped
        | _ => BitVec.ofNat 64 (bit l.live + 4 * bit l.complete + 8 * bit l.cancelling
            + 2 ^ 8 * (if l.cause = 0 then l.rcause else l.cause) + 2 ^ 32 * bit (l.live && l.admitted))
    | n =>
      match (if fieldOf w 16 32 = 0 then amFind (getCtx s ctx).levels (n * 2 ^ 16 + fieldOf w 0 16) else none) with
      | none => 0
      | some v => match k with
        | 0 => BitVec.ofNat 64 v.completed
        | 1 => BitVec.ofNat 64 v.cancelledUnits
        | 2 => BitVec.ofNat 64 v.stopped
        | _ => BitVec.ofNat 64 (bit v.live + 2 * bit v.closed + 4 * bit v.complete + 8 * bit v.cancelled + 2 ^ 32 * v.admitted)
def execCtrd (o : Ctrd) (s : State) : Out := .next
  (bit0Form s o.p (.ok (setS s o.d (ctrdOf s (myCtx s) (getS s o.a) o.k.toNat))))

/-- Unit that a task belongs to, when its launch's records tell (R32, R312). -/
def unitOf (l : Launch) (r : Rec) : Option Nat :=
  if recLU r then some (recUnit r)
  else
    let uj := lpbF l 200 8
    let o := (recJoin r).toNat - uj
    if uj ≠ 0 ∧ recJoin r ≠ 0 ∧ uj ≤ (recJoin r).toNat ∧ o % 64 = 0 ∧ o / 64 < lpbUnits l then some (o / 64) else none
/-- Records of a launch that a cancel discards from a ring. -/
def discards (lid : Nat) (hard : Bool) (r : Rec) : Bool := recLid r == lid && (recLU r || hard)
/-- A segment rewritten with the records that stay (R314, R326). -/
def segKeep (ctx k a : Nat) (keep : List Rec) (s : State) : State :=
  let cap := max 1 (segCap s ctx k a)
  let h := segHead s ctx k a
  let s := (List.range keep.length).foldl (fun s i =>
    match ctxWrite s ctx k .write (a + 64 + 32 * ((h + i) % cap)) (toBytes 32 (keep.getD i 0).toNat) with
    | .ok s' => s'
    | .error _ => s) s
  word8Put s ctx k (a + 16) keep.length
/-- Hit-buffer entries whose records are discarded: the n-th waiting record of a priority has the n-th untaken entry. -/
def dropHits (s : State) (k ctx p : Nat) (recs : List Rec) (gone : Rec → Bool) : State :=
  let hits := recs.filter recHit
  let ents := ((getClu s k).hitbuf.filter fun e => e.2.ctx == ctx && e.2.prio == p && !e.2.taken).map (·.1)
  ((hits.zip ents).filter fun e => gone e.1).foldl (fun s e => freeHit s (k, e.2)) s
/-- Discard of a launch's records from one ring and its chain: the records, and the state. The push numbers of chain records go with them
(R316); segments that hold nothing are free, the ring takes overflow records where it has room, and a ring set that nothing needs is freed
(R313, R314). -/
def discardAt (s : State) (ctx lid : Nat) (hard : Bool) (k p : Nat) : List Rec × State :=
  match ringSetOf s k ctx with
  | none => ([], s)
  | some x =>
    let gone := discards lid hard
    let inRing := (ringOf x p).map (·.2)
    let segs := chainOf s ctx k p
    let chains := segs.map fun a => (a, segRecs s ctx k a)
    let chained := chains.flatMap (·.2)
    let s := dropHits s k ctx p (inRing ++ chained) gone
    let nums := ((ovfOf x p).zip chained).filterMap fun e => if gone e.2 then none else some e.1
    let s := onRings s k ctx fun y =>
      setOvf (setRing y p ((ringOf y p).filter fun e => !gone e.2)) p (nums ++ (ovfOf x p).drop chained.length)
    let s := chains.foldl (fun s e => if e.2.any gone then segKeep ctx k e.1 (e.2.filter fun r => !gone r) s else s) s
    let s := if chained.any gone then dropSegs ctx k p (2 ^ 32) s else s
    ((inRing ++ chained).filter gone, settleRings (refillAll k ctx p 256 s) k ctx)
/-- Discard from every ring of the context. -/
def discardAll (s : State) (ctx lid : Nat) (hard : Bool) : List Rec × State :=
  (List.range (numClusters * 8)).foldl (fun r i =>
    let d := discardAt r.2 ctx lid hard (i / 8) (i % 8)
    (r.1 ++ d.1, d.2)) ([], s)
/-- A ray in RUN whose traversal a stopped task had started ends its traversal as it stands, with no hit task that waits; it enters DONE by
RAY_DONE, once its log writes are performed (R193, R212, R326; log 75). A fault of a read goes with the traversal; one of a log write
waits for its answer. -/
def cancelRay (s : State) (h : W64) : State := match rayAt s h with
  | some (k, n, r) =>
    if r.st ≠ .run then s
    else
      let reads := s.waiting.any fun w => some w.fid == r.fault && !bitOf w.acc.toNat 4
      let r' := { r with ended := true, hitWait := none, fault := if reads then none else r.fault }
      let s := if reads then { s with waiting := s.waiting.filter fun w => some w.fid != r.fault } else s
      onClu s k fun c => { c with rays := amSet c.rays n r' }
  | none => s
/-- A task stopped by `cancel.hard`: its commands end as by `cpycan`, and its granules are free; its accesses end by themselves before
the thread set takes work (R28, R306, R326). -/
def stopTask (s : State) (g : Nat) : State :=
  let k := cluOf (coreNo g)
  let s := ((getClu s k).cq.filter fun c => c.g == g).foldl (fun s c => finishCopy s k { c with cancelled := true }) s
  let s := dropCmds s (coreNo g) fun m => m.ts == g % 4
  let s := (threadAt s g).rays.foldl cancelRay s
  let s := { s with waiting := s.waiting.filter fun w => !(w.g == g && fieldOf w.fid 16 3 == 0) }
  let s := onCtx s ((getCore s (coreNo g)).ctx.getD 0) fun c => { c with cancels := c.cancels.filter fun q => q.g != g }
  let s := match (threadAt s g).hit with
    | some h => freeHit s h
    | none => s
  onThread s g fun t => { retireTh t with busy := 0, fault := none, yields := [], halting := false, ending := false, snap := none }
/-- Thread sets, other than `me`, that run a task of a launch on the cores of a context. -/
def tasksOf (s : State) (ctx lid me : Nat) : List Nat := (coresOf s ctx).flatMap fun c => ((List.range 4).map (4 * c + ·)).filter fun g =>
  let t := threadAt s g
  g != me && t.st != .idle && t.act.isNone && recLid t.task == lid
/-- Cancel of one launch (R326). -/
def cancelLaunch (hard : Bool) (own : Option (Nat × Nat)) (ctx : Nat) (s : State) (lid : Nat) : State :=
  let l := getLaunch s ctx lid
  if !l.live then s
  else if !l.admitted then cancelUnadmitted s ctx lid
  else
    let s := onLaunch s ctx lid fun x => { x with cancelling := true, tail := match x.tail with
      | some t => some t
      | none => some (x.next, 1) }
    let d := discardAll s ctx lid hard
    let lus := (d.1.filter recLU).map fun r => (recUnit r, 1, (0 : W64))
    let s := onLaunch d.2 ctx lid fun x => { x with recs := x.recs ++ lus }
    if !hard then advance s ctx lid
    else
      let ts := tasksOf s ctx lid s.here
      let hit := (d.1.filter fun r => !recLU r).filterMap (unitOf l) ++ ts.filterMap fun g => unitOf l (threadAt s g).task
      let s := ts.foldl stopTask s
      let x := getLaunch s ctx lid
      let stops := ((List.range (x.next - x.head)).map (x.head + ·)).filter fun u =>
        !(x.recs.any fun r => r.1 == u) && (own != some (lid, u) || hit.contains u)
      advance (onLaunch s ctx lid fun y => { y with recs := y.recs ++ stops.map fun u => (u, 2, (0 : W64)) }) ctx lid
/-- What is left of a launch that has completed beneath a level that `cancel.hard` cancels: its running tasks stop, and its records are
discarded; its units have all been reported (R326). -/
def cancelLeft (ctx : Nat) (s : State) (lid : Nat) : State :=
  let s := (discardAll s ctx lid true).2
  (tasksOf s ctx lid s.here).foldl stopTask s
/-- `cancel` (R326). -/
def execCancel (o : Cancel) (s : State) : Out := .next
  (bit0Form s o.p (do
    let w := getS s o.a
    let ctx := myCtx s
    let lv := fieldOf w 56 2
    require (!(identOk w && lv == 3 && fieldOf w 0 16 != myJob s)) cPERM 0
    let key := lv * 2 ^ 16 + fieldOf w 0 16
    let lids := if identOk w then ((getCtx s ctx).launches.filter fun e => e.2.live && beneath w e.1 e.2).map (·.1) else []
    let live := if lv = 0 then !lids.isEmpty else identOk w && (getLevel s ctx key).live
    let own := if s.th.act.isSome then none else (unitOf (getLaunch s ctx (myLid s)) s.th.task).map fun u => (myLid s, u)
    if !live then .ok (setS s o.d cancelNone)
    else
      let s := if o.d = 0 then s
        else withTh (onCtx s ctx fun c => { c with cancels := c.cancels ++ [{ g := s.here, dst := o.d.val, ident := w, own := own }] })
          fun t => { t with busy := t.busy ||| ((1 : W32) <<< o.d.val) }
      let s := if lv = 0 then s else onLevel s ctx key fun v => { v with cancelled := true }
      let left := if o.hard && lv != 0 then doneBeneath s ctx key else []
      .ok (settleCancels (left.foldl (cancelLeft ctx) (lids.foldl (cancelLaunch o.hard own ctx) s)) ctx)))

end Machine
end Sys2Proof
end

