-- ==== Sys2Proof/Machine/Matrix.lean ====
section
/-!
DEFINITION. Matrix: the matrix forms (R159 to R189): their checks at issue, the command queue, the unit's grants, migration and
completion, and what a fault or a parity error makes of a command.
-/
namespace Sys2Proof
namespace Machine

/-! ### Queue, shapes and macros at issue (R160 to R165) -/

/-- The record of a register is known, or the form is not ready (R161). -/
def knownE (s : State) (l : List (Fin 8)) : Except Stop Unit := ready (l.all fun m => (s.th.shapes[m]).known)
/-- A matrix-class form: room in the queue, whatever its predicate (R165); the records that it needs (R161); the bounds of its relative
operands, which `pre` checks (R55); the matrix fault latch (R172); then `k`. -/
def matrixForm (s : State) (p : Pred) (need : List (Fin 8)) (pre : Except Stop Unit) (k : Except Stop State) : State :=
  if 16 ≤ s.core.mq.length then stalled s
  else if !pred0 s p then s
  else runBody s (do
    knownE s need
    pre
    match matrixLatch s with
    | some s' => .ok s'
    | none => k)
/-- A command joins the queue (R165), with the weight that its thread set has (R45, R168). -/
def enqueue (s : State) (op : MOp) (gran : BitVec 3) : State :=
  withCore s fun c => noteHead s.cycle
    { c with mnum := c.mnum + 1, mtrack := trackCmd c.mtrack op,
             mq := c.mq ++ [{ num := c.mnum + 1, ts := s.here % 4, op := op, gran := gran.toNat,
                              weight := max 1 (vw s).mweight.toNat, granted := false, headAt := none, migrated := none, got := [],
                              wrote := 0, bad := none, fault := none, prior := none, part := [], lose := [] }] }

def shapeOf (s : State) (m : Fin 8) : Shape := s.th.shapes[m]
/-- Granules of the accumulator region that the thread sets of the focus core hold (R160). -/
def usedGran (s : State) : Nat :=
  ((List.range 4).map fun t =>
    let th := if t = s.here % 4 then s.th else slotOf s.core t
    (th.shapes.toList.map occOf).sum).sum
def freeGran (s : State) : Nat := accGran s.core * 64 - usedGran s
/-- MSPACE, and the new record (R160, R161). -/
def takeForm (s : State) (d : Fin 8) (new : Shape) : Except Stop State := do
  require (decide (usedGran s + occOf new ≤ accGran s.core * 64 + occOf (shapeOf s d))) cMSPACE 0
  .ok (withTh s fun t => { t with shapes := t.shapes.set d new })

/-- ENGINE by R164: a macro named alone must be loaded and no high half. -/
def macroE (s : State) (m : Fin 8) : Except Stop Unit := require (match s.core.mtrack[m] with
  | .single | .low => true
  | _ => false) cENGINE 0

/-! ### Locations (R175, R176) -/

/-- A location's start and stride. -/
def locOf (s : State) (pool : Bool) (disp : BitVec 24) (a stride : Fin 32) : MLocV :=
  { pool := pool, base := getS s a + sext64 24 disp.toNat, stride := getS s stride }
/-- Start of row `k`. -/
def locRow (l : MLocV) (k : Nat) : Int := (l.base.toNat : Int) + k * signedOf 64 l.stride.toNat
/-- Bytes of a row. -/
def rowBytes (t : Ty) : Nat := if t = .e2m1 then 36 else 8 * t.w
/-- The checks of R175. -/
def locE (s : State) (t : Ty) (l : MLocV) : Except Stop Unit := do
  let rows := (List.range 64).map (locRow l)
  require (if t = .e2m1 then rows.all fun r => (List.range 13).any fun b => r % 256 == (18 * b : Nat)
    else decide (l.base.toNat % 64 = 0) && decide (l.stride.toNat % 64 = 0)) cMISALIGN l.base
  require (!l.pool || rows.all fun r => decide (0 ≤ r) && poolOk s.core s.th.act r.toNat (rowBytes t)) cBOUNDS 0
/-- Pieces of a row of a location: two blocks of E2M1, or runs of 64 bytes. -/
def rowSegs (t : Ty) (row : Int) : List (Int × Nat) :=
  if t = .e2m1 then [(row, 18), (row + 18, 18)] else (List.range (t.w / 8)).map fun (i : Nat) => (row + 64 * (i : Int), 64)
/-- Pieces of row `k` of a packed B tile (R175). -/
def tileSegs (t : Ty) (base k : Nat) : List (Int × Nat) :=
  let block := fun (n : Nat) => (((base + 256 * (n / 14) + 18 * (n % 14) : Nat) : Int), 18)
  if t = .e2m1 then [block (2 * k), block (2 * k + 1)] else rowSegs t ((base + k * (8 * t.w) : Nat))
/-- Type of a B tile named by address, from the tag of its first line (R176). -/
def tagType (tag : Nat) : Ty := match tagFormat tag with
  | some (t, _, _) => t
  | none => .i8

/-- A location of a form: `mld` and the like. -/
def mlocOf (s : State) (o : MLoc) : MLocV := locOf s o.pool o.disp o.a o.b

/-! ### The forms (R177 to R189) -/

/-- `mbld` (R177). -/
def mbldForm (o : MBld) (wide : Bool) (s : State) : State :=
  matrixForm s o.p [] (.ok ()) (do
    let l := locOf s o.pool o.disp o.a o.b
    locE s o.t l
    .ok (enqueue s (.mbld wide o.t o.rd o.mac l) o.gran))
def execMbld8 (o : MBld) (s : State) : Out := .next (mbldForm o false s)
def execMbld16 (o : MBld) (s : State) : Out := .next (mbldForm o true s)
def execMbrel (o : MBrel) (s : State) : Out := .next (matrixForm s o.p [] (.ok ()) (.ok (enqueue s (.mbrel o.mac) o.gran)))

/-- `mld` (R178). -/
def mldForm (o : MLoc) (s : State) : State :=
  matrixForm s o.p [o.d] (.ok ()) (do
    let l := mlocOf s o
    locE s o.t l
    let s ← takeForm s o.d .dense
    .ok (enqueue s (.mld o.t o.d l) o.gran))
def execMld32 (o : MLoc) (s : State) : Out := .next (mldForm o s)
def execMld16 (o : MLoc) (s : State) : Out := .next (mldForm o s)
/-- `mst` (R178). -/
def mstForm (o : MLoc) (s : State) : State :=
  matrixForm s o.p [] (.ok ()) (do
    let l := mlocOf s o
    locE s o.t l
    .ok (enqueue s (.mst o.t o.d l) o.gran))
def execMst32 (o : MLoc) (s : State) : Out := .next (mstForm o s)
def execMst16 (o : MLoc) (s : State) : Out := .next (mstForm o s)
/-- `mcvt` (R179): the reading tag means fin. -/
def execMcvt (o : MLoc) (s : State) : Out := .next
  (matrixForm s o.p [] (.ok ()) (do
    let l := mlocOf s o
    locE s o.t l
    .ok (enqueue s (.mcvt o.t (if o.rd = .tag then .fin else o.rd) o.d l) o.gran)))

def execMzero (o : M1) (s : State) : Out := .next
  (matrixForm s o.p [o.d] (.ok ()) (do
    let s ← takeForm s o.d .zero
    .ok (enqueue s (.mzero o.d) o.gran)))

/-- Magnitude width of the A class (R186). -/
def widthA (t : Ty) : Nat := if t = .e2m1 then 4 else if t.w = 16 then 15 else 7
/-- The matrix register that A names. -/
def mmulRegs (o : MMul) : List (Fin 8) := match o.a with
  | .reg m => [m]
  | .loc .. => []
/-- `mmul` and `mmac` (R186). -/
def mmulForm (o : MMul) (acc : Bool) (s : State) : State :=
  matrixForm s o.p (o.d :: mmulRegs o) (.ok ()) (do
    let byAddr := o.b != 0
    let l := match o.a with
      | .reg _ => (⟨false, 0, 0⟩ : MLocV)
      | .loc pool disp base stride => locOf s pool disp base stride
    let areg := (mmulRegs o).head?
    (match o.a with
    | .reg _ => .ok ()
    | .loc .. => locE s o.t l)
    require (!byAddr || decide ((getS s o.b).toNat % 256 = 0)) cMISALIGN (getS s o.b)
    (if byAddr then .ok () else macroE s o.mac)
    let prod := match areg with
      | some m => shapeOf s m
      | none => .dense
    require (!acc || rankOk (shapeOf s o.d) prod (vw s).mrmax.toNat) cRANKOVF 0
    let s ← takeForm s o.d (if acc then sumShape (shapeOf s o.d) prod else prod)
    .ok (enqueue s (.mmul acc o.t o.rd o.d areg l (if byAddr then some (getS s o.b) else none) o.mac) o.gran))
def execMmulE2M1 (o : MMul) (s : State) : Out := .next (mmulForm o false s)
def execMmul8 (o : MMul) (s : State) : Out := .next (mmulForm o false s)
def execMmul16 (o : MMul) (s : State) : Out := .next (mmulForm o false s)
def execMmacE2M1 (o : MMul) (s : State) : Out := .next (mmulForm o true s)
def execMmac8 (o : MMul) (s : State) : Out := .next (mmulForm o true s)
def execMmac16 (o : MMul) (s : State) : Out := .next (mmulForm o true s)

/-- The four registers of a factor's column, or BOUNDS (R55, R180). -/
def colE (s : State) (v : VOp) : Except Stop (List W32) :=
  let regs : Option (List V512) := match v with
    | .v n => if n.val ≤ 28 then some ((List.range 4).map fun i => (vw s).v.toList.getD (n.val + i) 0) else none
    | .x i k =>
      let x := extIndex s i k
      if 0 ≤ x ∧ x + 3 < allocOf s then
        some ((List.range 4).map fun j => poolBlock (vwPool s) (extBlock s.core (s.here % 4) (x.toNat + j)))
      else none
    | .q _ => none
  match regs with
  | some l => .ok (l.flatMap fun r => (List.range 16).map fun i => w32 (lane r i))
  | none => trapE cBOUNDS 0
/-- `mfac` (R180). -/
def execMfac (o : MFac) (s : State) : Out := .next
  (matrixForm s o.p [o.d] (do let _ ← colE s o.a; let _ ← colE s o.b) (do
    let u ← colE s o.a
    let v ← colE s o.b
    let s ← takeForm s o.d (.factor 1)
    .ok (enqueue s (.mfac o.d u v) o.gran)))
/-- `mlradd` (R183): RANKOVF before MSPACE. -/
def execMlradd (o : M3) (s : State) : Out := .next
  (matrixForm s o.p [o.d, o.a, o.b] (.ok ()) (do
    require (rankOk (shapeOf s o.a) (shapeOf s o.b) (vw s).mrmax.toNat) cRANKOVF 0
    let s ← takeForm s o.d (sumShape (shapeOf s o.a) (shapeOf s o.b))
    .ok (enqueue s (.mlradd o.d o.a o.b) o.gran)))
def execMlrmul (o : M3) (s : State) : Out := .next
  (matrixForm s o.p [o.d, o.a, o.b] (.ok ()) (do
    let s ← takeForm s o.d (prodShape (shapeOf s o.a) (shapeOf s o.b))
    .ok (enqueue s (.mlrmul o.d o.a o.b) o.gran)))
/-- `mreef` (R161, R189): the result of a factor is pending. -/
def execMreef (o : M2) (s : State) : Out := .next
  (matrixForm s o.p [o.d, o.a] (.ok ()) (do
    let s ← takeForm s o.d (match shapeOf s o.a with
      | .factor r => .pending r
      | x => x)
    .ok (enqueue s (.mreef o.d o.a (w32 (vw s).mtol.toNat)) o.gran)))
def execMprom (o : M2) (s : State) : Out := .next
  (matrixForm s o.p [o.d] (.ok ()) (do
    let s ← takeForm s o.d .dense
    .ok (enqueue s (.mprom o.d o.a) o.gran)))
def execMtr (o : M2) (s : State) : Out := .next
  (matrixForm s o.p [o.d, o.a] (.ok ()) (do
    let s ← takeForm s o.d (shapeOf s o.a)
    .ok (enqueue s (.mtr o.d o.a) o.gran)))
def execMscale (o : MScale) (s : State) : Out := .next
  (matrixForm s o.p [o.d, o.a] (.ok ()) (do
    let c := w32 (getS s o.b).toNat
    let s ← takeForm s o.d (shapeOf s o.a)
    .ok (enqueue s (.mscale o.d o.a c) o.gran)))
/-- `mrank` and `mfree` (R185): they wait only for a record. -/
def execMrank (o : MRank) (s : State) : Out := .next
  (matrixForm s o.p [o.a] (.ok ()) (
    .ok (setS s o.d (match shapeOf s o.a with
      | .zero => 0
      | .factor r => BitVec.ofNat 64 r
      | _ => 64))))
def execMfree (o : MFree) (s : State) : Out := .next
  (matrixForm s o.p [] (.ok ()) (.ok (setS s o.d (BitVec.ofNat 64 (freeGran s)))))
/-- `mrec` (R187). -/
def execMrec (o : MRec) (s : State) : Out := .next
  (matrixForm s o.p [] (require (vopOk s o.a) cBOUNDS 0) (do
    let v := peekV s o.a
    require ((List.range 4).all fun i => recWordOk (lane v i)) cILLEGAL 0
    .ok (enqueue s (.mrec v) o.gran)))
/-- `mrun` (R164, R188). -/
def execMrun (o : MRun) (s : State) : Out := .next
  (matrixForm s o.p [o.d] (.ok ()) (do
    macroE s o.mac
    let s ← takeForm s o.d .dense
    .ok (enqueue s (.mrun o.d o.a o.mac) o.gran)))
/-- `mwait` (R185). -/
def execMwait (o : MWait) (s : State) : Out := .next
  (if pred0 s o.p && !(matrixOf s s.here).isEmpty then stalled s else matrixForm s o.p [] (.ok ()) (.ok s))

/-! ### A command runs (R166, R171, R175 to R179) -/

/-- A command that stops at a fault: it, the state, and the access. -/
structure MFault where
  cmd : MCmd
  s : State
  va : W64
  acc : W64
  cause : Nat
/-- What a part of a command answers: a value, the command's progress and the state. -/
structure MxOut (α : Type) where
  val : α
  c : MCmd
  s : State

def ctxOfCore (s : State) (core : Nat) : Nat := (getCore s core).ctx.getD 0
/-- Cluster whose unit runs a command (R169). -/
def unitOfCmd (core : Nat) (c : MCmd) : Nat := c.migrated.getD (cluOf core)

/-- One piece of a row, from the pool or on path M (R167, R171, R176). -/
def readPiece (core : Nat) (pool : Bool) (c : MCmd) (s : State) (a : Int) (n : Nat) : Except MFault (MPiece × State) :=
  if pool then
    .ok ({ data := ofBytes (poolBytesAt (getCore s core).pool a.toNat n), len := n, tag := 0, sc0 := 127, sc1 := 127 },
      poolRead s core .M)
  else
    let ctx := ctxOfCore s core
    match engRead s ctx (unitOfCmd core c) .M (wrapTo 64 a) n with
    | .ok (b, s') =>
      let pa := match xlateEngine s ctx (unitOfCmd core c) .read (wrapTo 64 a) with
        | .ok x _ => x.pa
        | _ => 0
      let ln := getLine s' (pa / 256)
      let i := pa % 256 / 32
      .ok ({ data := ofBytes b, len := n, tag := ln.tag, sc0 := BitVec.ofNat 8 (fieldOf ln.scales (8 * i) 8),
             sc1 := BitVec.ofNat 8 (fieldOf ln.scales (8 * (i + 1)) 8) }, s')
    | .fault va _ cause => .error { cmd := c, s := s, va := va, acc := accWord .M false false 64, cause := cause }
    | .wait => .error { cmd := c, s := s, va := 0, acc := 0, cause := cPAGE }
/-- The pieces of a row. -/
def readPieces (core : Nat) (pool : Bool) (c : MCmd) : List (Int × Nat) → State → Except MFault (List MPiece × State)
  | [], s => .ok ([], s)
  | e :: l, s => do
    let p ← readPiece core pool c s e.1 e.2
    let r ← readPieces core pool c l p.2
    .ok (p.1 :: r.1, r.2)
/-- Rows by key: a row that the command has read before a fault stands (R383). -/
def readRows (core : Nat) (pool : Bool) : List (Nat × List (Int × Nat)) → MCmd → State → Except MFault (MxOut (List (List MPiece)))
  | [], c, s => .ok ⟨[], c, s⟩
  | (k, segs) :: l, c, s =>
    match amFind c.got k with
    | some p => do
      let r ← readRows core pool l c s
      .ok ⟨p :: r.val, r.c, r.s⟩
    | none => do
      let p ← readPieces core pool c segs s
      let r ← readRows core pool l { c with got := amSet c.got k p.1 } p.2
      .ok ⟨p.1 :: r.val, r.c, r.s⟩
/-- The 64 rows of a location. -/
def readLoc (core : Nat) (t : Ty) (l : MLocV) (c : MCmd) (s : State) : Except MFault (MxOut (List (List MPiece))) :=
  readRows core l.pool ((List.range 64).map fun k => (k, rowSegs t (locRow l k))) c s

/-- The bits of a row. -/
def rowBits (l : List MPiece) : Nat := l.foldr (fun p acc => p.data + 2 ^ (8 * p.len) * acc) 0
/-- Elements of a piece of 8-bit format (R176): a scaled line of the format multiplies each block of 32. -/
def pieceVals (t : Ty) (rd : Rd) (p : MPiece) : List FV :=
  let v := (List.range p.len).map fun i => fdec t (readingFor rd t p.tag) (bitsOf p.data (8 * i) 8)
  match tagFormat p.tag with
  | some (f, true, _) => if f = t then (List.range p.len).zipWith (fun i x => scaleFV x (if i < 32 then p.sc0 else p.sc1).toNat) v else v
  | _ => v
/-- Elements of an E2M1 block of 18 bytes (R86, R87). -/
def blockVals (p : MPiece) : List FV :=
  (List.range 32).map fun i => scaleFV (e2m1Block (bitsOf p.data (4 * i) 4) (bitsOf p.data 136 8)) (bitsOf p.data 128 8)
/-- The 64 values of a row read as a type (R176). -/
def rowVals (t : Ty) (rd : Rd) (l : List MPiece) : List FV := match t with
  | .e2m1 => l.flatMap blockVals
  | .e4m3 | .e5m2 => l.flatMap (pieceVals t rd)
  | .i8 => (List.range 64).map fun i => let x := signedOf 8 (bitsOf (rowBits l) (8 * i) 8); .fin (decide (x < 0)) x.natAbs 0
  | _ => (List.range 64).map fun i => fdec t .ieee (bitsOf (rowBits l) (t.w * i) t.w)
/-- A row of `mld` as FP32 patterns (R91, R178). -/
def loadVals (t : Ty) (l : List MPiece) : List W32 := (List.range 64).map fun i =>
  let x := bitsOf (rowBits l) (t.w * i) t.w
  if t = .f32 then w32 x else w32 (convertElem .f32 t .rne false .ieee x).1
/-- Type of the B tile that a command has begun to read, by its first line's tag (R176). -/
def stagedType (c : MCmd) : Ty := match amFind c.got 128 with
  | some (p :: _) => tagType p.tag
  | _ => .i8
/-- The rows of a B tile named by address are read, its first line before them (R176, R186). -/
def readTile (core : Nat) (base : W64) (c : MCmd) (s : State) : Except MFault (MxOut Unit) := do
  let first ← readRows core false [(128, [((base.toNat : Int), 64)])] c s
  let t := stagedType first.c
  let rows ← readRows core false ((List.range 64).map fun k => (64 + k, tileSegs t base.toNat k)) first.c first.s
  .ok ⟨(), rows.c, rows.s⟩
/-- The staged tile of a command, unless one of its rows has met a parity error (R172, R186). -/
def stagedTile (c : MCmd) : Option BTile :=
  let t := stagedType c
  if c.bad.isSome then none
  else some (buildB t (((List.range 64).filterMap fun k => amFind c.got (64 + k)).map (rowVals t .tag)))

/-- Translations of the pieces of one row that is written. -/
def rowXlate (core : Nat) (c : MCmd) : List (Int × Nat) → State → Except MFault (List Xl × State)
  | [], s => .ok ([], s)
  | e :: l, s =>
    let va := wrapTo 64 e.1
    let acc := accWord .M true false 64
    match xlateEngine s (ctxOfCore s core) (unitOfCmd core c) .mtwrite va with
    | .ok x s' => do
      let r ← rowXlate core c l s'
      .ok (x :: r.1, r.2)
    | .page => .error { cmd := c, s := s, va := BitVec.ofNat 64 va, acc := acc, cause := cPAGE }
    | .perm => .error { cmd := c, s := s, va := BitVec.ofNat 64 va, acc := acc, cause := cPERM }
/-- A row written whole, or not at all (R383). -/
def writeRow (core : Nat) (pool : Bool) (segs : List (Int × Nat)) (bits : Nat) (c : MCmd) (s : State) : Except MFault State :=
  let data := (segs.foldl (fun (r : List (Int × List Byte) × Nat) e =>
    (r.1 ++ [(e.1, toBytes e.2 (bitsOf bits (8 * r.2) (8 * e.2)))], r.2 + e.2)) ([], 0)).1
  if pool then
    .ok (poolWrote (onCore s core fun x => { x with pool := data.foldl (fun p e => poolPutAll p (atAddr e.1.toNat e.2)) x.pool }) core .M)
  else do
    let xs ← rowXlate core c segs s
    .ok ((xs.1.zip data).foldl (fun s e => (homeWrite s (ctxOfCore s core) e.1.slot .M 0 (atAddr e.1.pa e.2.2)).2) xs.2)
/-- Rows that are still to be written, in ascending order. -/
def writeRows (core : Nat) (pool : Bool) : List (Nat × List (Int × Nat) × Nat) → MCmd → State → Except MFault (MxOut Unit)
  | [], c, s => .ok ⟨(), c, s⟩
  | (k, segs, bits) :: l, c, s =>
    if k < c.wrote then writeRows core pool l c s
    else do
      let s ← writeRow core pool segs bits c s
      writeRows core pool l { c with wrote := k + 1 } s
/-- Pattern that a store writes of an FP32 element: `mst`, or `mcvt` under a reading (R178, R179). -/
def storeConv (t : Ty) (cvt : Option Rd) (x : W32) : Nat := match cvt with
  | some rd => (convertElem t .f32 .rne true rd x.toNat).1
  | none => if t = .f32 then x.toNat else (convertElem t .f32 .rne false .ieee x.toNat).1
/-- The rows of a store with their pieces and bits. -/
def storeRows (t : Ty) (l : MLocV) (conv : W32 → Nat) (rows : List (List W32)) : List (Nat × List (Int × Nat) × Nat) :=
  (List.range 64).map fun k => (k, rowSegs t (locRow l k), joinDigits t.w ((rows.getD k []).map conv))
/-- Stores 64 rows of narrow or wide elements (R178, R179). -/
def storeLoc (core : Nat) (t : Ty) (l : MLocV) (conv : W32 → Nat) (rows : List (List W32)) (c : MCmd) (s : State) : Except MFault (MxOut Unit) :=
  writeRows core l.pool (storeRows t l conv rows) c s

/-- The macros of a tile (R163, R177). -/
def macroLoad (c : CoreSt) (n : Nat) (b : BTile) : CoreSt := match macrosOf b with
  | (x, some y) => macroPut (macroPut (macroFree (macroFree c n) (n + 1)) n x) (n + 1) y
  | (x, none) => macroPut (macroFree c n) n x
/-- The macro of a tile that has a row with a parity error, or is lost already (R172). -/
def badMacro (c : CoreSt) (n : Nat) : Option Nat := match macroAt c n, macroAt c (n + 1) with
  | .loaded 0 _ _ _ b, _ => if b then some n else none
  | .loaded 1 _ _ _ b, .loaded 2 _ _ _ b' => if b then some n else if b' then some (n + 1) else none
  | _, _ => some n
/-- A command that stages its tile in a macro (R186). -/
def stagesIn (c : MCmd) (n : Nat) : Bool := match c.op with
  | .mmul _ _ _ _ _ _ (some _) m => m.val == n || m.val + 1 == n
  | _ => false
/-- A command that names a macro, or stages a tile there. -/
def namesMacro (op : MOp) (n : Nat) : Bool := match op with
  | .mbld w _ _ m _ => m.val == n || (w && m.val + 1 == n)
  | .mbrel m => m.val == n
  | .mmul _ _ _ _ _ _ (some _) m => m.val == n || m.val + 1 == n
  | _ => false
/-- A command is done with its resident macro: one that has gone bad sets the latch and is empty, in the tracking too unless a later
command of the queue loads or frees it (R164, R172). -/
def useMacro (core : Nat) (c : MCmd) (n : Nat) (s : State) : State :=
  let k := getCore s core
  match badMacro k n with
  | none => s
  | some e =>
    let later := (k.mq.filter fun m => decide (c.num < m.num)).any fun m => namesMacro m.op n
    let s := onCore s core fun x =>
      let x := macroFree x n
      if later then x else { x with mtrack := trackFree x.mtrack n }
    onThread s (4 * core + c.ts) fun t => { t with mlatch := some e }

/-- A parity error in the staging macro of a command sets the latch when the command is done with the tile (R172). -/
def latchBad (core : Nat) (c : MCmd) (s : State) : State := match c.bad with
  | some e => onThread s (4 * core + c.ts) fun t => { t with mlatch := some e }
  | none => s

/-- Contents of a register of the command's thread set, and a result (R160). -/
def mvalOf (s : State) (core : Nat) (c : MCmd) (m : Fin 8) : MVal := (threadAt s (4 * core + c.ts)).m[m]
def mvalPut (core : Nat) (c : MCmd) (d : Fin 8) (v : MVal) (s : State) : State :=
  onThread s (4 * core + c.ts) fun t => { t with m := t.m.set d v }
/-- Shape of a reef's result. -/
def shapeOfVal (v : MVal) : Shape := match v with
  | .zero => .zero
  | .factor u _ => .factor u.length
  | .dense _ => .dense

/-! ### Operands, products and split units (R160, R166, R170; log 37) -/

/-- The matrix register that a command writes. -/
def MOp.dest (op : MOp) : Option (Fin 8) := match op with
  | .mld _ d _ | .mzero d | .mmul _ _ _ d _ _ _ _ | .mfac d _ _ | .mlradd d _ _ | .mlrmul d _ _ | .mreef d _ _ | .mprom d _
  | .mtr d _ | .mscale d _ _ | .mrun d _ _ => some d
  | .mbld _ _ _ _ _ | .mbrel _ | .mst _ _ _ | .mcvt _ _ _ _ | .mrec _ => none
/-- A command begins: its destination stands as its operand (R160). -/
def begun (core : Nat) (c : MCmd) (s : State) : MCmd := match c.op.dest with
  | some d => { c with prior := some (c.prior.getD (mvalOf s core c d)) }
  | none => c
/-- An operand of a command that has begun: all are read before any part of the destination is written (R160). -/
def operandOf (s : State) (core : Nat) (c : MCmd) (m : Fin 8) : MVal :=
  if c.op.dest = some m then c.prior.getD (mvalOf s core c m) else mvalOf s core c m
/-- Rows of a location that a command has read, from row 0 on. -/
def rowsRead (c : MCmd) : List (List MPiece) := (List.range 64).filterMap (amFind c.got)
/-- The tile against which a command multiplies now: staged, or resident and whole (R172, R186). -/
def tileNow (s : State) (core : Nat) (c : MCmd) : Option BTile :=
  let resident := fun (n : Nat) =>
    let k := getCore s core
    if (badMacro k n).isSome then none else tileOf (macroAt k n) (macroAt k (n + 1))
  match c.op with
  | .mmul _ _ _ _ _ _ (some _) _ => stagedTile c
  | .mmul _ _ _ _ _ _ none mac => resident mac.val
  | .mrun _ _ mac => resident mac.val
  | _ => none
/-- What a command computes from its operands, as far as it has read them: its result, or the product that `mmac` adds (R178 to R189). -/
def productOf (core : Nat) (c : MCmd) (s : State) : MVal :=
  let val := operandOf s core c
  match c.op with
  | .mld t _ _ => .dense ((rowsRead c).map (loadVals t))
  | .mmul _ t rd _ areg _ _ _ => match areg with
    | some m => mmulReg (widthA t) (tileNow s core c) (val m)
    | none => .dense (mulRows (widthA t) (tileNow s core c) ((rowsRead c).map (rowVals t rd)))
  | .mfac _ u v => .factor [u] [v]
  | .mlradd _ a b => mlraddOf (val a) (val b)
  | .mlrmul _ a b => mlrmulOf (val a) (val b)
  | .mreef _ a mtol => match val a with
    | .factor u w => reefOf u w mtol
    | x => x
  | .mprom _ a => .dense (denseOf (val a))
  | .mtr _ a => mtrOf (val a)
  | .mscale _ a k => mscaleOf k (val a)
  | .mrun d a _ => mrunOf (getCore s core).recprog (tileNow s core c) (val a) (val d)
  | _ => .zero
/-- The result of a command from its product (R186). -/
def resultOf (core : Nat) (c : MCmd) (s : State) (p : MVal) : MVal := match c.op with
  | .mmul true _ _ d _ _ _ _ => mlraddOf (operandOf s core c d) p
  | _ => p
/-- Split units of a value: the rows of a dense one, the pairs of columns of a factor; and a value of the same form from its units. -/
def unitsOf (v : MVal) : List (List W32) := match v with
  | .zero => []
  | .dense r => r
  | .factor u w => u.zipWith (· ++ ·) w
def ofUnits (like : MVal) (l : List (List W32)) : MVal := match like with
  | .zero => .zero
  | .dense _ => .dense l
  | .factor _ _ => .factor (l.map (·.take 64)) (l.map (·.drop 64))
/-- A product with the units that are complete as they were computed (R170, R172). -/
def soFar (c : MCmd) (p : MVal) : MVal := if c.part.isEmpty then p else ofUnits p (c.part ++ (unitsOf p).drop c.part.length)
/-- Columns of a factor of which the first `n` are new. -/
def someCols (n : Nat) (new old : List (List W32)) : List (List W32) :=
  (List.range new.length).map fun i => if i < n then new.getD i [] else old.getD i (List.replicate 64 0)
/-- A destination whose command has completed `k` units of product `p`, which give the result `f` (R170). -/
def midway (k : Nat) (prior p f : MVal) : MVal := match p, f with
  | .dense _, .dense r => .dense (r.take k ++ (denseOf prior).drop k)
  | .factor pu _, .factor u w =>
    let n := u.length - pu.length + k
    let o := match prior with
      | .factor a b => (a, b)
      | _ => ([], [])
    .factor (someCols n u o.1) (someCols n w o.2)
  | _, _ => prior
/-- The command completes the first `n` units of its product: they stand in its destination (R170). -/
def keepUnits (core n : Nat) (c : MCmd) (s : State) : MCmd × State :=
  let p := productOf core c s
  let c := { c with part := c.part ++ ((unitsOf p).take n).drop c.part.length }
  match c.op.dest with
  | some d =>
    if c.part.isEmpty then (c, s)
    else
      let f := resultOf core c s (soFar c p)
      (c, mvalPut core c d (midway c.part.length (operandOf s core c d) p f) s)
  | none => (c, s)
/-- A command reads its staged tile, and the first `n` rows of its location (R166, R178, R186). -/
def readOperands (core n : Nat) (c : MCmd) (s : State) : Except MFault (MxOut Unit) :=
  let rows := fun (t : Ty) (l : MLocV) (c : MCmd) (s : State) =>
    (readRows core l.pool (((List.range 64).take n).map fun k => (k, rowSegs t (locRow l k))) c s).map
      fun r => (⟨(), r.c, r.s⟩ : MxOut Unit)
  match c.op with
  | .mld t _ l => rows t l c s
  | .mmul _ t _ _ areg l baddr _ => do
    let r ← (match baddr with
      | some base => readTile core base c s
      | none => .ok ⟨(), c, s⟩)
    if areg.isSome then .ok r else rows t l r.c r.s
  | _ => .ok ⟨(), c, s⟩
/-- A fault of a command at a row leaves the units before it complete (R383). -/
def keepFault (core : Nat) (f : MFault) : MFault :=
  if (rowsRead f.cmd).isEmpty then f
  else
    let k := keepUnits core 64 f.cmd f.s
    { f with cmd := k.1, s := k.2 }
/-- A command is done with its macros: a staging macro is empty, and a parity error takes its effect where rows streamed (R172, R186). -/
def doneWith (core : Nat) (c : MCmd) (p : MVal) (s : State) : State := match c.op with
  | .mmul _ _ _ _ _ _ (some _) mac =>
    let s := onCore s core fun x => macroFree (macroFree x mac.val) (mac.val + 1)
    if p = .zero then s else latchBad core c s
  | .mmul _ _ _ _ _ _ none mac => if p = .zero then s else useMacro core c mac.val s
  | .mrun _ _ mac => useMacro core c mac.val s
  | _ => s
/-- The result stands in the destination; the shape of a reef is known (R161). -/
def putResult (core : Nat) (c : MCmd) (v : MVal) (s : State) : State := match c.op, c.op.dest with
  | .mreef _ _ _, some d =>
    let known := fun (t : Thread) => if (t.shapes[d]).known then t else { t with shapes := t.shapes.set d (shapeOfVal v) }
    onThread (mvalPut core c d v s) (4 * core + c.ts) known
  | _, some d => mvalPut core c d v s
  | _, none => s
/-- The macros of an `mbld` are released before it reads (R177). -/
def mbldFree (wide : Bool) (mac : Fin 8) (c : CoreSt) : CoreSt :=
  let c := macroFree c mac.val
  if wide then macroFree c (mac.val + 1) else c

/-- The rest of a command: it reads all operands before it writes (R160, R166). -/
def runCmd (core : Nat) (c : MCmd) (s : State) : Except MFault (MxOut Unit) :=
  match c.op with
  | .mbld wide t rd mac l => do
    let r ← readLoc core t l c (onCore s core (mbldFree wide mac))
    .ok ⟨(), r.c, onCore r.s core fun x => macroLoad x mac.val (buildB t (r.val.map (rowVals t rd)))⟩
  | .mbrel mac => .ok ⟨(), c, onCore s core fun x => macroFree x mac.val⟩
  | .mst t d l => storeLoc core t l (storeConv t none) (denseOf (mvalOf s core c d)) c s
  | .mcvt t rd d l => storeLoc core t l (storeConv t (some rd)) (denseOf (mvalOf s core c d)) c s
  | .mrec prog => .ok ⟨(), c, onCore s core fun x => { x with recprog := prog }⟩
  | _ => match readOperands core 64 (begun core c s) s with
    | .error f => .error (keepFault core f)
    | .ok r =>
      let p := soFar r.c (productOf core r.c r.s)
      .ok ⟨(), r.c, putResult core r.c (resultOf core r.c r.s p) (doneWith core r.c p r.s)⟩

/-! ### The unit (R168 to R172) -/

def cmdPut (s : State) (core : Nat) (c : MCmd) : State :=
  onCore s core fun x => { x with mq := x.mq.map fun e => if e.num = c.num then c else e }
/-- A command leaves the queue; a migrated one frees the unit that ran it, and what a later one that is gone had lost is lost (R186). -/
def cmdEnd (s : State) (core : Nat) (c : MCmd) : State :=
  freeUnit (onCore s core fun x =>
    noteHead s.cycle (c.lose.foldl macroFree { x with mq := x.mq.filter fun e => e.num != c.num })) c
/-- An engine fault of a command (R171, R379). -/
def cmdFaults (s : State) (core : Nat) (f : MFault) : State :=
  let ctx := ctxOfCore s core
  let g := 4 * core + f.cmd.ts
  let id := newFault s ctx 3 g (cluOf core)
  let e := raiseEvent id.2 ctx none
  let s := sendFault e.2 ctx id.1 f.va f.acc (BitVec.ofNat 64 f.cause) e.1
  let s := { s with waiting := s.waiting ++ [{ fid := id.1, va := f.va, acc := f.acc, cause := f.cause, g := g }] }
  cmdPut s core { f.cmd with fault := some id.1 }

/-- MATRIX_GRANT: the round of R168 gives one command its grant. -/
def grantAt (k : Nat) : Nat → State → Option State
  | 0, _ => none
  | fuel + 1, s =>
    let x := getClu s k
    let core := 8 * k + x.mxCore
    let next := (getCore s core).mq.find? fun c => !c.granted
    let go := match next with
      | some c => c.fault.isNone && c.migrated.isNone && engineRuns s (ctxOfCore s core) && decide (x.mxGrants < c.weight)
      | none => false
    match next, go with
    | some c, true => some (cmdPut (onClu s k fun y => { y with mxGrants := y.mxGrants + 1 }) core { c with granted := true })
    | _, _ => grantAt k fuel (onClu s k fun y => { y with mxCore := (y.mxCore + 1) % 8, mxGrants := 0 })
def evMatrixGrant (k : Nat) (s : State) : Option State := grantAt k 9 s
def execMatrixGrant (cluster : Nat) (s : State) : Out := .next ((evMatrixGrant cluster s).getD s)

/-- Type of the B tile of a command named by address, where its first line can be read. -/
def baseType (s : State) (core : Nat) (base : W64) : Option Ty :=
  match xlateEngine s (ctxOfCore s core) (cluOf core) .read base.toNat with
  | .ok x s' => some (tagType (getLine (homeRead s' (ctxOfCore s core) x.slot x.pa 64).2 (x.pa / 256)).tag)
  | _ => none
/-- A unit has nothing queued or running and a macro, or a pair, for a tile (R169). -/
def unitIdle (s : State) (k : Nat) (wide : Bool) : Bool :=
  (getClu s k).migrated.isNone && (List.range 8).all (fun i => (getCore s (8 * k + i)).mq.isEmpty) &&
  (List.range 8).any fun i =>
    let m := (getCore s (8 * k + i)).mtrack.toList
    (List.range 8).any fun n => m.getD n .low == .empty && (!wide || (n % 2 == 0 && m.getD (n + 1) .low == .empty))
/-- MATRIX_MIGRATION: the head command of a core migrates (R169). -/
def evMatrixMigration (core : Nat) (s : State) : Option State :=
  match (getCore s core).mq with
  | [] => none
  | c :: _ =>
    match c.op, c.headAt with
    | .mmul _ _ _ _ _ _ (some base) _, some t =>
      if c.granted || c.fault.isSome || !engineRuns s (ctxOfCore s core) || (s.cycle - t).toNat < 4096 then none
      else
        let part := getPart s (getCtx s (ctxOfCore s core)).part
        let wide := match baseType s core base with
          | some ty => ty.w == 16
          | none => false
        (((List.range 4).filterMap fun p => neighbourOf (cluOf core) p).find? fun k => inRect part k && unitIdle s k wide).map fun k =>
          cmdPut (onClu s k fun x => { x with migrated := some core }) core { c with granted := true, migrated := some k }
    | _, _ => none
def execMatrixMigration (core : Nat) (s : State) : Out := .next ((evMatrixMigration core s).getD s)

/-- MATRIX_COMMAND_COMPLETE: the oldest command of a core, granted, runs to its end or to a fault (R165, R166, R171). -/
def evMatrixComplete (core : Nat) (s : State) : Option State :=
  match (getCore s core).mq with
  | [] => none
  | c :: _ =>
    if !c.granted || c.fault.isSome || !engineRuns s (ctxOfCore s core) then none
    else some (match runCmd core c s with
      | .ok r => cmdEnd r.s core r.c
      | .error f => cmdFaults f.s core f)
/-- The units that a command of registers, or of a location's rows, completes by its next split point. -/
def unitStep (core : Nat) (c : MCmd) (s : State) : Except MFault (MxOut Unit) :=
  let n := c.part.length + 2 ^ c.gran
  match readOperands core n c s with
  | .error f => .error (keepFault core f)
  | .ok r =>
    let k := keepUnits core n r.c r.s
    .ok ⟨(), k.1, k.2⟩
/-- A command of registers has units before its end: a sum of factors is done as a whole (R170). -/
def hasUnits (op : MOp) (p : MVal) : Bool := match op, p with
  | .mlradd _ _ _, .dense _ => true
  | .mmul _ _ _ _ _ _ _ _, _ | .mlrmul _ _ _, _ | .mprom _ _, _ | .mtr _ _, _ | .mscale _ _ _, _ | .mrun _ _ _, _ => true
  | _, _ => false
/-- What the next 2^g units of a command make of it, when it has split points before its end and units left (R170). -/
def rowStep (core : Nat) (c : MCmd) (s : State) : Option (Except MFault (MxOut Unit)) :=
  let g := 2 ^ c.gran
  let did := (c.got.filter fun e => decide (e.1 < 64)).length
  let write := fun (t : Ty) (l : MLocV) (cvt : Option Rd) (d : Fin 8) =>
    if 64 ≤ c.wrote then none
    else some (writeRows core l.pool ((storeRows t l (storeConv t cvt) (denseOf (mvalOf s core c d))).take (c.wrote + g)) c s)
  let b := begun core c s
  if 6 ≤ c.gran then none
  else match c.op with
    | .mbld wide t _ mac l =>
      if 64 ≤ did then none
      else some ((readRows core l.pool (((List.range 64).take (did + g)).map fun k => (k, rowSegs t (locRow l k))) c
        (onCore s core (mbldFree wide mac))).map fun r => ⟨(), r.c, r.s⟩)
    | .mst t d l => write t l none d
    | .mcvt t rd d l => write t l (some rd) d
    | .mld _ _ _ | .mmul _ _ _ _ none _ _ _ => if 64 ≤ c.part.length then none else some (unitStep core b s)
    | op =>
      let p := productOf core b s
      if hasUnits op p && decide (c.part.length < (unitsOf p).length) then some (unitStep core b s) else none
/-- The oldest command of a core runs to its next split point (R170). -/
def evMatrixRows (core : Nat) (s : State) : Option State :=
  match (getCore s core).mq with
  | [] => none
  | c :: _ =>
    if !c.granted || c.fault.isSome || !engineRuns s (ctxOfCore s core) then none
    else (rowStep core c s).map fun r => match r with
      | .ok r => cmdPut r.s core r.c
      | .error f => cmdFaults f.s core f
def execMatrixCommandComplete (core : Nat) (s : State) : Out := .next ((evMatrixComplete core s).getD s)

/-- The oldest command of a core, when it runs in a given unit: its own, or one that it migrated to (R169). -/
def runsIn (s : State) (core : Nat) (unit : Option Nat) : Option MCmd :=
  (getCore s core).mq.head?.filter fun c => c.granted && c.migrated == unit
/-- The command that has staged its tile in a macro, with its core: the running command of the macro's core, or one that migrated to the
unit, which uses one of the unit's empty macros (R169, R186). -/
def stagedAt (s : State) (core mac : Nat) : Option (Nat × MCmd) :=
  match (runsIn s core none).filter (stagesIn · mac), macroAt (getCore s core) mac with
  | some c, _ => some (core, c)
  | none, .empty => (getClu s (cluOf core)).migrated.bind fun src => (runsIn s src (some (cluOf core))).map fun c => (src, c)
  | none, .loaded _ _ _ _ _ => none
/-- MACRO_PARITY_ERROR: a row goes bad, of a loaded macro, or of the tile that a running command has staged there (R172). -/
def evMacroParity (core mac : Nat) (s : State) : Option State :=
  match stagedAt s core mac, macroAt (getCore s core) mac with
  | some (k, c), _ => some (cmdPut s k { c with bad := some (c.bad.getD mac) })
  | none, .loaded h c e m _ => some (onCore s core fun x => macroPut x mac (.loaded h c e m true))
  | none, .empty => none
def execMacroParityError (core mac : Nat) (s : State) : Out := .next ((evMacroParity core mac s).getD s)

/-- A migrated command of a core gives its unit back with its results, and goes on in its own (R169, R385): the unit is done with the
tile. -/
def comeHome (core : Nat) (s : State) : State :=
  ((getCore s core).mq.filter fun c => c.migrated.isSome).foldl (fun s c =>
    cmdPut (latchBad core c (freeUnit s c)) core { c with migrated := none, bad := none }) s
/-- The command that waits for a fault's answer, with its core. -/
def faultedCmd (s : State) (w : Waiting) : Option (Nat × MCmd) :=
  let core := coreNo w.g
  ((getCore s core).mq.find? fun c => c.fault == some w.fid).map fun c => (core, c)
/-- A retry, or the discard of a row's write, lets the command go on (R383). -/
def matrixAnswer (s : State) (core : Nat) (c : MCmd) (discard : Bool) : State :=
  cmdPut s core { c with fault := none, wrote := if discard then c.wrote + 1 else c.wrote }

end Machine
end Sys2Proof
end

