-- ==== Sys2Proof/Machine/IvMath.lean ====
section
/-!
DEFINITION. IvMath: the interval list (R215 to R228): what one arrival makes of a ray's list, its frontier and its counters.
-/
namespace Sys2Proof
namespace Machine

/-- A record by fields (R215): FP32 patterns, source word (FORM and PRIM), confidence, flags 171:168, ARR and attribute. -/
structure Iv where
  t0 : Nat
  t1 : Nat
  q : Nat
  e : Nat
  src : Nat
  conf : Nat
  fl : Nat
  arr : Nat
  attr : Nat
  deriving DecidableEq, Repr

def ivOf (a : Answer) : Iv :=
  let x := a.toNat
  { t0 := bitsOf x 0 32, t1 := bitsOf x 32 32, q := bitsOf x 64 32, e := bitsOf x 96 32, src := bitsOf x 128 32,
    conf := bitsOf x 160 8, fl := bitsOf x 168 4, arr := bitsOf x 176 16, attr := bitsOf x 192 64 }
def ivPack (r : Iv) : Answer :=
  BitVec.ofNat 256 (r.t0 + r.t1 * 2 ^ 32 + r.q * 2 ^ 64 + r.e * 2 ^ 96 + r.src * 2 ^ 128 + r.conf * 2 ^ 160 + r.fl * 2 ^ 168
    + r.arr * 2 ^ 176 + r.attr * 2 ^ 192)
/-- An answer of a poster: interval, densities, form, identifier, confidence, attribute. -/
def mkAnswer (t0 t1 q e form prim conf attr : Nat) : Answer :=
  ivPack { t0 := t0, t1 := t1, q := q, e := e, src := prim % 2 ^ 29 + form % 8 * 2 ^ 29, conf := conf % 256, fl := 0, arr := 0,
           attr := attr % 2 ^ 64 }

def ivSplit : Nat := 1
def ivCmb : Nat := 2
def ivMrg : Nat := 4
def ivClip : Nat := 8

def Iv.form (r : Iv) : Nat := r.src / 2 ^ 29
def Iv.withForm (r : Iv) (src form : Nat) : Iv := { r with src := src % 2 ^ 29 + form * 2 ^ 29 }
/-- A surface (R215). -/
def Iv.surf (r : Iv) : Bool := eq32 r.t0 r.t1
def Iv.len (r : Iv) : Nat := sub32 r.t1 r.t0
/-- Depth and emission amount (R215, R224). -/
def Iv.depth (r : Iv) : Nat := if r.surf then r.q else mul32 r.q r.len
def Iv.amount (r : Iv) : Nat := if r.surf then r.e else mul32 r.e r.len
/-- −0 read as +0. -/
def plus32 (x : Nat) : Nat := if x = 0x80000000 then 0 else x
/-- An infinity or a NaN. -/
def wild32 (x : Nat) : Bool := x / 2 ^ 23 % 256 == 255

/-- R219. -/
def ivRejected (a : Iv) : Bool :=
  wild32 a.t0 || wild32 a.t1 || lt32 a.t1 a.t0 || isNan32 a.q || lt32 a.q 0 || (a.q == inf32 && !a.surf) || wild32 a.e
    || decide (5 ≤ a.form)
/-- R220: the answer as clipped, or none when it is late. -/
def ivClipped (a : Iv) (tmin tmax front : Nat) : Option Iv :=
  if a.surf then (if lt32 a.t0 tmin || lt32 tmax a.t0 || le32 front a.t0 then none else some a)
  else
    let s := max32 a.t0 tmin
    let e := min32 (min32 a.t1 tmax) front
    if le32 e s then none
    else some { a with t0 := s, t1 := e, fl := if eq32 s a.t0 && eq32 e a.t1 then a.fl else Nat.lor a.fl ivClip }
/-- R221. -/
def ivDup (l : List Iv) (a : Iv) : Bool := a.surf && l.any fun r => r.surf && eq32 r.t0 a.t0 && r.src == a.src

/-- split() of R222 for one record at one parameter. -/
def ivCut (x : Nat) (r : Iv) : List Iv :=
  if !r.surf && lt32 r.t0 x && lt32 x r.t1 then
    [{ r with t1 := x, fl := Nat.lor r.fl ivSplit }, { r with t0 := x, fl := Nat.lor r.fl ivSplit }]
  else [r]
def ivSplitAll (l : List Iv) (x : Nat) : List Iv := l.flatMap (ivCut x)
/-- A record in its place (R223). -/
def ivPlace (l : List Iv) (a : Iv) : List Iv :=
  let before := fun (r : Iv) => lt32 r.t0 a.t0 || (eq32 r.t0 a.t0 && r.surf)
  l.takeWhile before ++ a :: l.dropWhile before
/-- Combination with a volume of the same interval, or insertion (R222). -/
def ivAdd (l : List Iv) (p : Iv) : List Iv :=
  let same := fun (r : Iv) => !r.surf && eq32 r.t0 p.t0 && eq32 r.t1 p.t1
  if l.any same then
    l.map fun r => if same r then
      let big := if le32 p.q r.q then r else p
      ({ r with q := add32 r.q p.q, e := add32 r.e p.e, conf := min r.conf p.conf, attr := big.attr, arr := big.arr,
                fl := Nat.lor (Nat.lor r.fl p.fl) ivCmb }).withForm big.src 5
      else r
  else ivPlace l p
/-- R222. -/
def ivInsert (l : List Iv) (a : Iv) : List Iv :=
  if a.surf then ivPlace (ivSplitAll l a.t0) a
  else
    let l := ivSplitAll (ivSplitAll l a.t0) a.t1
    let pieces := (l.flatMap fun r => [r.t0, r.t1]).foldl ivSplitAll [a]
    (sortBy (fun x y => le32 x.t0 y.t0) pieces).foldl ivAdd l

/-- Merge of two adjacent records (R224). -/
def ivMerge (a b : Iv) : Iv :=
  let t1 := max32 a.t1 b.t1
  let d := add32 a.depth b.depth
  let m := add32 a.amount b.amount
  let len := sub32 t1 a.t0
  let big := if lt32 a.depth b.depth then b else a
  ({ t0 := a.t0, t1 := t1, q := if eq32 len 0 then d else div32 d len, e := if eq32 len 0 then m else div32 m len, src := 0,
     conf := min a.conf b.conf, fl := Nat.lor (Nat.lor a.fl b.fl) ivMrg, arr := big.arr, attr := big.attr } : Iv).withForm big.src 6
/-- Index of the adjacent pair of least confidence. -/
def ivPair (l : List Iv) : Nat :=
  let sums := (l.zip (l.drop 1)).map fun e => e.1.conf + e.2.conf
  sums.idxOf (sums.foldl min 511)
/-- The overflow merges: the list and their number (R224). -/
def ivOverflow (k : Nat) : Nat → List Iv → Nat → List Iv × Nat
  | 0, l, n => (l, n)
  | fuel + 1, l, n =>
    if l.length ≤ k then (l, n)
    else
      let i := ivPair l
      match l.drop i with
      | a :: b :: rest => ivOverflow k fuel (l.take i ++ ivMerge a b :: rest) (n + 1)
      | _ => (l, n)

/-- The scan of R225: the list as cut, the new frontier when the list turns opaque, and the records cut away. -/
def ivScan (ivstop front : Nat) : Nat → List Iv → List Iv × Option Nat × Nat
  | _, [] => ([], none, 0)
  | acc, r :: l =>
    let acc2 := add32 acc r.depth
    if le32 ivstop acc2 then
      let f := if r.surf then r.t0
        else if r.q = inf32 then r.t0
        else min32 (max32 (add32 r.t0 (div32 (sub32 ivstop acc) r.q)) r.t0) r.t1
      let f := min32 front f
      let r' := if !r.surf && lt32 f r.t1 then
          (if eq32 f r.t0 then { r with t1 := r.t0, q := r.depth, e := r.amount, fl := Nat.lor r.fl ivClip }
          else { r with t1 := f, fl := Nat.lor r.fl ivClip })
        else r
      ([r'], some f, l.length)
    else
      let x := ivScan ivstop front acc2 l
      (r :: x.1, x.2)

/-! ### Descriptor fields (R195) -/

/-- Bits of the second register, and the first register's tmin and tmax. -/
def rayTmin (r : Ray) (fp64 : Bool) : Nat := if fp64 then bitsOf r.d0.toNat 384 32 else lane r.d0 6
def rayTmax (r : Ray) (fp64 : Bool) : Nat := if fp64 then bitsOf r.d0.toNat 416 32 else lane r.d0 7
def rayK (r : Ray) : Nat := 4 * 2 ^ bitsOf (lane r.d1 4) 16 2
/-- Rigging precision of a ray. -/
def Ray.fp64 (r : Ray) : Bool := r.rig.is64

/-! ### An arrival (R218 to R225) -/

/-- One arrival: the ray with its new list, and the entry that a log records (R218). -/
def arrive (r : Ray) (a : Answer) : Ray × Answer :=
  let arr := r.arrCount.toNat % 2 ^ 16
  let entry : Answer := BitVec.ofNat 256 (bitsOf a.toNat 0 168 + arr * 2 ^ 176 + bitsOf a.toNat 192 64 * 2 ^ 192)
  let r := { r with arrCount := r.arrCount + 1, arrivals := min (r.arrivals + 1) 65535 }
  let x := ivOf a
  let x := { x with t0 := plus32 x.t0, t1 := plus32 x.t1, q := plus32 x.q, fl := 0, arr := arr }
  let l := r.recs.map ivOf
  if ivRejected x then ({ r with reject := min (r.reject + 1) 255 }, entry)
  else match ivClipped x (rayTmin r r.fp64) (rayTmax r r.fp64) r.front.toNat with
    | none => ({ r with late := min (r.late + 1) 4095 }, entry)
    | some y =>
      if ivDup l y then ({ r with dup := min (r.dup + 1) 4095 }, entry)
      else
        let l := ivInsert l y
        let m := ivOverflow (rayK r) l.length l 0
        let c := ivScan r.ivstop.toNat r.front.toNat 0 m.1
        ({ r with recs := c.1.map ivPack, merges := min (r.merges + m.2) 1023, late := min (r.late + c.2.2) 4095,
                  front := BitVec.ofNat 32 (c.2.1.getD r.front.toNat), opq := r.opq || c.2.1.isSome }, entry)

end Machine
end Sys2Proof
end

