-- ==== Sys2Proof/Machine/RayMath.lean ====
section
/-!
DEFINITION. RayMath: the intersection arithmetic of the traversal sequencer (R204 to R207): boxes, triangles, splats and bricks,
on exact values and rounded as the manual says.
-/
namespace Sys2Proof
namespace Machine

/-! ### Rounded steps on values -/

/-- A step rounded to a format, as a value again. -/
def vAdd (t : Ty) (rnd : Rnd) (x y : FV) : FV :=
  if x.isNan || y.isNan then .nan false else fdec t .ieee (addFV t rnd false x y).1
def vSub (t : Ty) (rnd : Rnd) (x y : FV) : FV := vAdd t rnd x y.negate
def vMul (t : Ty) (rnd : Rnd) (x y : FV) : FV :=
  if x.isNan || y.isNan then .nan false
  else match mulFV x y with
    | some p => fdec t .ieee (encFV t .ieee rnd false p).1
    | none => .nan false
def vDiv (t : Ty) (rnd : Rnd) (x y : FV) : FV := fdec t .ieee (divFV t rnd false x y).1
/-- A value rounded to FP32: pattern. -/
def pat32 (x : FV) : Nat := (encFV .f32 .ieee .rne false x).1
def zeroFV : FV := .fin false 0 0
def oneFV : FV := .fin false 1 0
/-- Below and above zero; zero. -/
def FV.below (x : FV) : Bool := !x.isNan && ltFV false x zeroFV
def FV.above (x : FV) : Bool := !x.isNan && ltFV false zeroFV x
def FV.isZero (x : FV) : Bool := match x with
  | .fin _ m _ => m == 0
  | _ => false
/-- Less-than with a NaN false. -/
def vLt (x y : FV) : Bool := !x.isNan && !y.isNan && ltFV false x y
/-- Component of a triple. -/
def c3 (l : List FV) (a : Nat) : FV := l.getD a (.nan false)

/-! ### The ray's geometry (R195) -/

/-- Origin (0) or direction (1) of a ray, as values. -/
def rayVec (r : Ray) (which : Nat) : List FV := (List.range 3).map fun a =>
  if r.fp64 then fdec .f64 .ieee (elem 64 r.d0 (3 * which + a)) else fdec .f32 .ieee (lane r.d0 (3 * which + a))
/-- The same rounded to FP32 (R206, R207). -/
def rayVec32 (r : Ray) (which : Nat) : List Nat := (rayVec r which).map pat32
/-- BADRAY of R195. -/
def badRay (r : Ray) : Bool :=
  let tmin := rayTmin r r.fp64
  let tmax := rayTmax r r.fp64
  (rayVec r 0 ++ rayVec r 1).any FV.wild || (rayVec r 1).all FV.isZero || isNan32 tmin || lt32 tmin 0 || isNan32 tmax || lt32 tmax tmin

/-! ### Boxes (R204) -/

/-- Rounding to a 12-bit significand in FP32's exponent range: rdn12 and rup12. -/
def fmt12 : Fmt := ⟨11, 127, 20, 0x7F7FF, some 0x7F800, some 0x7FC00, true⟩
def round12 (rnd : Rnd) (x : FV) : FV := match x with
  | .fin n m e =>
    if m = 0 then x
    else
      let r := roundMag fmt12 rnd n m e false
      if fmt12.maxCode < r.1 then
        (if (rnd == .rup) != n then .inf n else .fin n 4095 116)
      else
        let f : Nat := r.1 / 2 ^ 11
        if f = 0 then .fin n (r.1 % 2 ^ 11) (-137) else .fin n (r.1 % 2 ^ 11 + 2 ^ 11) ((f : Int) - 138)
  | x => x
/-- Product, exact before its directed rounding. -/
def mul12 (rnd : Rnd) (x y : FV) : FV :=
  if x.isNan || y.isNan then .nan false
  else match mulFV x y with
    | some p => round12 rnd p
    | none => .nan false
/-- Maximum and minimum of R141 on values: a NaN takes no part. -/
def vMax (x y : FV) : FV := if x.isNan then y else if y.isNan then x else if ltFV true x y then y else x
def vMin (x y : FV) : FV := if x.isNan then y else if y.isNan then x else if ltFV true y x then y else x

/-- Bounds of a child on one axis: frame origin, exponent and grid value. -/
def boundAt (rnd : Rnd) (o : FV) (ex q : Nat) : FV := vAdd .f32 rnd o (.fin false q ((ex : Int) - 127))
/-- The slab of one axis: none is a miss. A NaN bound and a product of 0 and an infinity take no part in the maximum and the minimum, as
R141's skip a NaN, so that they do not limit the axis (log 45). -/
def slab (o d lo hi : FV) (io : FV × FV) : Option (FV × FV) :=
  if d.isZero then (if vLt o lo || vLt hi o then none else some io)
  else
    let invlo := vDiv .f32 .rdn oneFV d
    let invhi := vDiv .f32 .rup oneFV d
    let l := vSub .f32 .rdn lo o
    let h := vSub .f32 .rup hi o
    let n := if d.above then l else h
    let x := if d.above then h else l
    let enter := mul12 .rdn n (if n.below then invhi else invlo)
    let leave := mul12 .rup x (if x.below then invlo else invhi)
    some (vMax io.1 enter, vMin io.2 leave)
/-- Byte fields of a node. -/
def nodeBits (n : BitVec 1024) (lo len : Nat) : Nat := bitsOf n.toNat lo len
/-- Box test of child `j`: tin and tout, or a miss (R204). -/
def boxChild (r : Ray) (n : BitVec 1024) (j : Nat) : Option (FV × FV) :=
  let e := 256 + 96 * j
  let start := some (fdec .f32 .ieee (rayTmin r r.fp64), fdec .f32 .ieee (rayTmax r r.fp64))
  let x := (List.range 3).foldl (fun (b : Option (FV × FV)) a => b.bind fun io =>
    let fo := fdec .f32 .ieee (nodeBits n (32 * a) 32)
    let ex := nodeBits n (96 + 8 * a) 8
    slab (c3 (rayVec r 0) a) (c3 (rayVec r 1) a) (boundAt .rdn fo ex (nodeBits n (e + 12 * a) 12))
      (boundAt .rup fo ex (nodeBits n (e + 36 + 12 * a) 12)) io) start
  x.bind fun io =>
    if !io.1.isNan && !io.2.isNan && !ltFV false io.2 io.1 && !ltFV false (fdec .f32 .ieee r.front.toNat) io.1 then some io else none
/-- Bytes of a leaf record of a kind under a precision (R204 to R207). -/
def leafBytes (fp64 : Bool) (kind : Nat) : Nat := if kind = 1 && fp64 then 128 else 64
/-- Child `j` as the child list holds it. -/
def childOf (r : Ray) (n : BitVec 1024) (j : Nat) (io : FV × FV) : Child :=
  let e := 256 + 96 * j
  let kind := nodeBits n (e + 72) 2
  let addr := if kind = 0 then nodeBits n 128 64 + 128 * nodeBits n (e + 74) 22
    else nodeBits n 192 64 + leafBytes r.fp64 kind * nodeBits n (e + 78) 18
  { addr := BitVec.ofNat 64 addr, kind := kind, count := if kind = 0 then 1 else nodeBits n (e + 74) 4 + 1,
    tin := BitVec.ofNat 32 (pat32 io.1), tout := BitVec.ofNat 32 (pat32 io.2) }
/-- The child list of a node: tin ascending, then j ascending (R204). -/
def boxTest (r : Ray) (n : BitVec 1024) : List Child :=
  let hit := (List.range 8).filterMap fun j =>
    if bitOf (nodeBits n 120 8) j then (boxChild r n j).map fun io => childOf r n j io else none
  sortBy (fun a b => le32 a.tin.toNat b.tin.toNat) hit

/-! ### Triangles (R205) -/

/-- x·y' − y·x' of the sheared values, each product and the difference rounded; where that is exactly 0 under FP32, the exact
expression rounded to FP64. -/
def edgeFn (t : Ty) (a b c d : FV) : FV :=
  let u := vSub t .rne (vMul t .rne a b) (vMul t .rne c d)
  if t == .f32 && u.isZero then
    (match mulFV a b, mulFV c d with
    | some p, some q => vAdd .f64 .rne p q.negate
    | _, _ => .nan false)
  else u
/-- The edge from P to Q owns a zero. -/
def ownsEdge (p q : FV × FV × FV) : Bool :=
  vLt q.2.1 p.2.1 || (!vLt p.2.1 q.2.1 && !vLt q.2.1 p.2.1 && vLt q.1 p.1)
/-- Axes kx, ky, kz of a direction. -/
def shearAxes (d : List FV) : Nat × Nat × Nat :=
  let mag := fun (a : Nat) => (match c3 d a with
    | .fin _ m e => FV.fin false m e
    | x => x)
  let kz := if vLt (mag 0) (mag 1) then (if vLt (mag 1) (mag 2) then 2 else 1) else (if vLt (mag 0) (mag 2) then 2 else 0)
  let kx := (kz + 1) % 3
  let ky := (kx + 1) % 3
  if (c3 d kz).below then (ky, kx, kz) else (kx, ky, kz)
/-- The test of three vertices: the hit's t as an FP32 pattern (R205). -/
def triTest (t : Ty) (o d : List FV) (v : List (List FV)) (tmin tmax : Nat) : Option Nat :=
  let k := shearAxes d
  let kx := k.1
  let ky := k.2.1
  let kz := k.2.2
  let sx := vDiv t .rne (c3 d kx) (c3 d kz)
  let sy := vDiv t .rne (c3 d ky) (c3 d kz)
  let sz := vDiv t .rne oneFV (c3 d kz)
  let pt := fun (i : Nat) =>
    let p := fun (a : Nat) => vSub t .rne (c3 (v.getD i []) a) (c3 o a)
    (vSub t .rne (p kx) (vMul t .rne sx (p kz)), vSub t .rne (p ky) (vMul t .rne sy (p kz)), vMul t .rne sz (p kz))
  let a := pt 0
  let b := pt 1
  let c := pt 2
  let u := edgeFn t c.1 b.2.1 c.2.1 b.1
  let w' := edgeFn t a.1 c.2.1 a.2.1 c.1
  let w := edgeFn t b.1 a.2.1 b.2.1 a.1
  let es := [u, w', w]
  if es.any FV.isNan || (es.any FV.below && es.any FV.above) then none
  else
    let r := fun (x : FV) => if t == .f32 then fdec .f32 .ieee (pat32 x) else x
    let det := vAdd t .rne (vAdd t .rne (r u) (r w')) (r w)
    if det.isZero then none
    else
      let flip := det.below
      let owns := fun (e : FV) (p q : FV × FV × FV) => !e.isZero || (if flip then ownsEdge q p else ownsEdge p q)
      if !(owns u b c && owns w' c a && owns w a b) then none
      else
        let tt := vAdd t .rne (vAdd t .rne (vMul t .rne u a.2.2) (vMul t .rne w' b.2.2)) (vMul t .rne w c.2.2)
        let x := pat32 (vDiv t .rne tt det)
        if isNan32 x || lt32 x tmin || lt32 tmax x then none else some x
/-- A triangle record: the answer, when it is hit (R205). -/
def triRecord (r : Ray) (rec_ : Nat) : Option Answer :=
  let t : Ty := if r.fp64 then .f64 else .f32
  let v := (List.range 3).map fun i => (List.range 3).map fun a => fdec t .ieee (bitsOf rec_ (t.w * (3 * i + a)) t.w)
  let o := if r.fp64 then 8 * 72 else 8 * 36
  (triTest t (rayVec r 0) (rayVec r 1) v (rayTmin r r.fp64) (rayTmax r r.fp64)).map fun x =>
    mkAnswer x x (bitsOf rec_ (o + 32) 32) (bitsOf rec_ (o + 64) 32) 0 (bitsOf rec_ o 29) (bitsOf rec_ (o + 96) 8)
      (bitsOf rec_ (if r.fp64 then 8 * 88 else 8 * 56) 64)

/-! ### Splats (R206) -/

def sq3 (x : List Nat) : Nat :=
  let m := fun (a : Nat) => mul32 (x.getD a 0) (x.getD a 0)
  add32 (add32 (m 0) (m 1)) (m 2)
def dot3 (x y : List Nat) : Nat :=
  let m := fun (a : Nat) => mul32 (x.getD a 0) (y.getD a 0)
  add32 (add32 (m 0) (m 1)) (m 2)
/-- A splat record: the answer, when it posts one. A volume that only touches tmin or tmax is clipped to nothing, and the manual speaks of
volumes wholly outside: the model drops it too (DESIGN CHOICE, log 72). -/
def splatRecord (r : Ray) (rec_ : Nat) : Option Answer :=
  let f := fun (b : Nat) => bitsOf rec_ (8 * b) 32
  let tmin := rayTmin r r.fp64
  let tmax := rayTmax r r.fp64
  let o := rayVec32 r 0
  let d := rayVec32 r 1
  let w := (List.range 3).map fun a => sub32 (f (4 * a)) (o.getD a 0)
  let dd := sq3 d
  let dw := dot3 d w
  let tc := div32 dw dd
  let p := (List.range 3).map fun a => sub32 (w.getD a 0) (mul32 tc (d.getD a 0))
  let dist2 := sq3 p
  if (w ++ p ++ [dd, dw, tc, dist2]).any isNan32 || lt32 (mul32 (f 12) (f 12)) dist2 then none
  else
    let g := (fExp2 .f32 .rne false (neg32 (mul32 (f 24) dist2))).1
    let hl := div32 (f 16) (fSqrt .f32 .rne false dd).1
    let t0 := sub32 tc hl
    let t1 := add32 tc hl
    let dg := mul32 (f 20) g
    let eg := mul32 (f 28) g
    let ans := fun (a b q e : Nat) => some (mkAnswer a b q e 1 (bitsOf rec_ 256 29) (bitsOf rec_ 288 8) (bitsOf rec_ 320 64))
    if lt32 t0 t1 then
      (if le32 t1 tmin || le32 tmax t0 then none
      else ans (max32 t0 tmin) (min32 t1 tmax) (div32 dg (sub32 t1 t0)) (div32 eg (sub32 t1 t0)))
    else if le32 tmin t0 && le32 t0 tmax then ans t0 t0 dg eg
    else none

/-! ### Bricks (R207) -/

/-- An integer from 0 to 8 as an FP32 pattern. -/
def small32 (k : Nat) : Nat := pat32 (.fin false k 0)
/-- Plane `k` of an axis, and its parameter. -/
def brickPlane (b cs : Nat) (k : Nat) : Nat := add32 b (mul32 (small32 k) cs)
/-- Sorted parameters without repeats. -/
def sortDedup (l : List Nat) : List Nat :=
  (sortBy le32 l).foldl (fun acc x => match acc.getLast? with
    | some y => if eq32 x y then acc else acc ++ [x]
    | none => [x]) []
/-- The answers of a brick whose cells are given as a number of 1,024 bytes. -/
def brickAnswers (r : Ray) (rec_ cells : Nat) : List Answer :=
  let f := fun (b : Nat) => bitsOf rec_ (8 * b) 32
  let tmin := rayTmin r r.fp64
  let tmax := rayTmax r r.fp64
  let o := fun (a : Nat) => (rayVec32 r 0).getD a 0
  let d := fun (a : Nat) => (rayVec32 r 1).getD a 0
  let cs := f 12
  let plane := fun (a k : Nat) => brickPlane (f (4 * a)) cs k
  let t := fun (a k : Nat) => div32 (sub32 (plane a k) (o a)) (d a)
  let live := (List.range 3).filter fun a => !eq32 (d a) 0
  let still := (List.range 3).filter fun a => eq32 (d a) 0
  if still.any fun a => !(le32 (f (4 * a)) (o a) && le32 (o a) (plane a 8)) then []
  else
    let tb0 := live.foldl (fun x a => max32 x (min32 (t a 0) (t a 8))) tmin
    let tb1 := live.foldl (fun x a => min32 x (max32 (t a 0) (t a 8))) tmax
    if le32 tb1 tb0 then []
    else
      let inner := live.flatMap fun a => ((List.range 7).map fun k => t a (k + 1)).filter fun x => lt32 tb0 x && lt32 x tb1
      let s := sortDedup (tb0 :: tb1 :: inner)
      (s.zip (s.drop 1)).filterMap fun e =>
        let n := fun (a : Nat) =>
          let below := ((List.range 7).filter fun k => le32 (t a (k + 1)) e.1).length
          if eq32 (d a) 0 then ((List.range 7).filter fun k => le32 (plane a (k + 1)) (o a)).length
          else if lt32 (d a) 0 then 7 - below
          else below
        let cell := n 0 + 8 * n 1 + 64 * n 2
        let dc := bitsOf cells (16 * cell) 8
        let ec := bitsOf cells (16 * cell + 8) 8
        if dc = 0 ∧ ec = 0 then none
        else
          let v := fun (c : Nat) => pat32 (fdec .e4m3 .fin c)
          some (mkAnswer e.1 e.2 (mul32 (v dc) (f 16)) (mul32 (v ec) (f 20)) 2 (f 32 + cell) (bitsOf rec_ 288 8)
            (bitsOf rec_ 320 64))

end Machine
end Sys2Proof
end

