-- ==== Sys2Proof/Machine/Sha.lean ====
section
/-!
DEFINITION. Sha: SHA-256, the measurement algorithm that R365 and R366 name, on bytes.
-/
namespace Sys2Proof
namespace Machine

/-- The integer part of a `k`-th root below 2^36, bit by bit. -/
def rootOf (k n : Nat) : Nat := (List.range 36).foldr (fun i r => if (r + 2 ^ i) ^ k ≤ n then r + 2 ^ i else r) 0
/-- The first 32 bits of the fraction of the `k`-th root of `p`: SHA-256 takes its constants from the primes so. -/
def rootBits (k p : Nat) : W32 := BitVec.ofNat 32 (rootOf k (p * 2 ^ (32 * k)))
/-- The first 64 primes. -/
def shaPrimes : List Nat :=
  ((List.range 312).drop 2).filter fun n => [2, 3, 5, 7, 11, 13, 17].all fun d => n == d || n % d != 0

/-- The eight working words. -/
structure ShaRegs where
  a : W32
  b : W32
  c : W32
  d : W32
  e : W32
  f : W32
  g : W32
  h : W32
/-- Initial hash value: the square roots of the first eight primes. -/
def shaInit : List W32 := (shaPrimes.take 8).map (rootBits 2)
/-- Exclusive or of the rotations of a word to the right. -/
def rots (x : W32) (l : List Nat) : W32 := l.foldl (fun r n => r ^^^ x.rotateRight n) 0
/-- The schedule with one more word: sixteen and more words, the newest first. -/
def shaNext (l : List W32) : List W32 :=
  let back := fun (n : Nat) => l.getD (n - 1) 0
  (back 16 + back 7 + (rots (back 15) [7, 18] ^^^ back 15 >>> 3) + (rots (back 2) [17, 19] ^^^ back 2 >>> 10)) :: l
/-- One round with a prime's constant and a word of the schedule. -/
def shaRound (v : ShaRegs) (x : Nat × W32) : ShaRegs :=
  let t := v.h + rots v.e [6, 11, 25] + (v.e &&& v.f ||| ~~~v.e &&& v.g) + rootBits 3 x.1 + x.2
  let u := rots v.a [2, 13, 22] + (v.a &&& v.b ||| v.c &&& (v.a ||| v.b))
  { a := t + u, b := v.a, c := v.b, d := v.c, e := v.d + t, f := v.e, g := v.f, h := v.g }
/-- Big-endian words of a block. -/
def shaWord (b : List Byte) (i : Nat) : W32 :=
  BitVec.ofNat 32 (((List.range 4).map fun j => (b.getD (4 * i + j) 0).toNat * 256 ^ (3 - j)).sum)
/-- One block. -/
def shaBlock (h : List W32) (b : List Byte) : List W32 :=
  let first := ((List.range 16).map (shaWord b)).reverse
  let words := ((List.range 48).foldl (fun l _ => shaNext l) first).reverse
  let r := fun i => h.getD i 0
  let v := (shaPrimes.zip words).foldl shaRound ⟨r 0, r 1, r 2, r 3, r 4, r 5, r 6, r 7⟩
  [r 0 + v.a, r 1 + v.b, r 2 + v.c, r 3 + v.d, r 4 + v.e, r 5 + v.f, r 6 + v.g, r 7 + v.h]
/-- The padded message. -/
def shaPad (m : List Byte) : List Byte :=
  let zeros := (119 - m.length % 64) % 64
  m ++ 0x80 :: List.replicate zeros 0 ++ (toBytes 8 (8 * m.length)).reverse
def shaBlocks : Nat → List Byte → List W32 → List W32
  | 0, _, h => h
  | n + 1, m, h => shaBlocks n (m.drop 64) (shaBlock h (m.take 64))
/-- SHA-256, as 32 bytes. -/
def sha256 (m : List Byte) : List Byte :=
  let p := shaPad m
  (shaBlocks (p.length / 64) p shaInit).flatMap fun w => (toBytes 4 w.toNat).reverse

end Machine
end Sys2Proof
end

