-- ==== Sys2Proof/Machine/Rays.lean ====
section
/-!
DEFINITION. Rays: ray slots, logs, replay and the sequencer's microwords (R190 to R214, R226), and the interval and traversal forms
that act on a ray (R194 to R198, R211 to R213, R229 to R233).
-/
namespace Sys2Proof
namespace Machine

/-! ### Slots (R190 to R193) -/

def getRay (s : State) (k n : Nat) : Ray := amGet Ray.init (getClu s k).rays n
def putRay (s : State) (k n : Nat) (r : Ray) : State := onClu s k fun c => { c with rays := amSet c.rays n r }
def onRay (s : State) (k n : Nat) (f : Ray → Ray) : State := putRay s k n (f (getRay s k n))
/-- Status bits of R193. -/
def stDONE : Nat := 0
def stREPLAY : Nat := 1
def stBADRAY : Nat := 2
def stOPAQUE : Nat := 3
def stBVHRANGE : Nat := 4
def stSTACK : Nat := 5
def stLOGOVF : Nat := 6
def stLOGBAD : Nat := 7
def stMLOOP : Nat := 8
def setStat (r : Ray) (b : Nat) : Ray := { r with stat := r.stat ||| ((1 : BitVec 9) <<< b) }
/-- The status word (R193). -/
def statusOf (r : Ray) : W64 := BitVec.ofNat 64 (r.stat.toNat + r.drop % 2 ^ 8 * 2 ^ 16 + r.hits % 2 ^ 16 * 2 ^ 24 + r.nodes % 2 ^ 24 * 2 ^ 40)
/-- Traversal ends, with a status bit (R197). -/
def endTrav (r : Ray) (b : Option Nat) : Ray :=
  let r := { r with ended := true, stack := [], rstack := [], leafDone := 0, ahead := [], cells := [] }
  match b with
  | some i => setStat r i
  | none => r
/-- The descriptor's root and limit, wavelength word and user word (R195). -/
def rayRoot (r : Ray) : Nat := (lane64 r.d1 0).toNat
def rayLimit (r : Ray) : Nat := (lane64 r.d1 1).toNat
/-- The range check of R210. -/
def inRange (r : Ray) (a align n : Nat) : Bool := a % align == 0 && decide (rayRoot r ≤ a) && decide (a + n ≤ rayLimit r)

/-! ### Faults of the sequencer (R171, R196, R379) -/

/-- A ray meets a fault and waits for its answer. -/
def rayFault (s : State) (k n : Nat) (va acc : W64) (cause : Nat) : State :=
  let r := getRay s k n
  let f := newFault s r.ctx 4 r.tracer k
  let e := raiseEvent f.2 r.ctx none
  let s := sendFault e.2 r.ctx f.1 va acc (BitVec.ofNat 64 cause) e.1
  let s := { s with waiting := s.waiting ++ [{ fid := f.1, va := va, acc := acc, cause := cause, g := r.tracer }] }
  onRay s k n fun r => { r with fault := some f.1 }
/-- A read inside one sector on path T: what the microword has read ahead, or what is at home. -/
def sectorRead (s : State) (r : Ray) (k va n : Nat) : EngRes (List Byte × State) := match amFind r.ahead (va / 64) with
  | some b => .ok (((toBytes 64 b.toNat).drop (va % 64)).take n, s)
  | none => engRead s r.ctx k .T va n
/-- A read on path T, sector by sector; what it meets. -/
def travRead (s : State) (r : Ray) (k : Nat) : Nat → Nat → Nat → EngRes (List Byte × State)
  | 0, _, _ => .ok ([], s)
  | fuel + 1, va, n =>
    if n = 0 then .ok ([], s)
    else
      let m := min n (64 - va % 64)
      match sectorRead s r k va m with
      | .ok (b, s') => (match travRead s' r k fuel (va + m) (n - m) with
        | .ok (b', s'') => .ok (b ++ b', s'')
        | r => r)
      | r => r
/-- A read of a ray: the bytes as a number, or the state in which the ray waits. -/
def rayRead (s : State) (k n va len : Nat) : Except State (Nat × State) :=
  match travRead s (getRay s k n) k (len / 64 + 2) va len with
  | .ok (b, s') => .ok (ofBytes b, s')
  | .fault a acc cause => .error (rayFault s k n a acc cause)
  | .wait => .error s

/-! ### The log (R212) -/

/-- Address of a ray's area. -/
def rayArea (r : Ray) (l : W64 × W64 × W64) (n : Nat) : Nat := l.1.toNat + 64 + r.unit * l.2.1.toNat + 64 + n * l.2.2.toNat
/-- The launch of a ray, when it is still that launch's entry. -/
def rayLaunch (s : State) (r : Ray) : Option Launch :=
  let l := getLaunch s r.ctx r.lid
  if r.lid ≠ 0 ∧ l.gen = r.lgen then some l else none
/-- Log writes go out once a ray of the launch has been traced. -/
def logGoes (s : State) (r : Ray) : Bool := r.st != .open_ || (match rayLaunch s r with
  | some l => l.traced
  | none => false)
/-- The header of a ray's area, as it stands when it is written (R212). -/
def rayHeader (r : Ray) (n : Nat) : List Byte :=
  toBytes 32 (r.visits % 2 ^ 32 + r.answers % 2 ^ 32 * 2 ^ 32 + (statusOf (setStat r stDONE)).toNat * 2 ^ 64 + n % 2 ^ 32 * 2 ^ 128)
/-- Address and bytes of a log write; none when its launch is gone. -/
def logItem (s : State) (r : Ray) (x : LogW) : Option (Nat × List Byte) := match x, r.log with
  | .bytes va b, _ => some (va.toNat, b)
  | .begun u, some l => (rayLaunch s r).map fun x => (l.1.toNat + 64 + u * l.2.1.toNat, toBytes 64 (amGet 0 x.begun u))
  | .head, some l => (rayLaunch s r).map fun x => (l.1.toNat, logHead l.2.1 l.2.2 x.committed)
  | .rayHead, some l => r.logN.map fun n => (rayArea r l n, rayHeader r n)
  | _, none => none
/-- Performs a ray's log writes until one meets a fault. -/
def drainLog (k n : Nat) : Nat → State → State
  | 0, s => s
  | fuel + 1, s =>
    let r := getRay s k n
    if r.fault.isSome || !logGoes s r then s
    else match r.pend with
      | [] => s
      | x :: rest =>
        let next := fun (s : State) => drainLog k n fuel (onRay s k n fun r => { r with pend := rest })
        match logItem s r x with
        | none => next s
        | some (va, b) => match ctxXlate s r.ctx k .mtwrite (va % 2 ^ 64) with
          | .ok y => next (homeWrite y.2 r.ctx y.1.slot .T 0 (atAddr y.1.pa b)).2
          | .error c => rayFault s k n (BitVec.ofNat 64 va) (accWord .T true false b.length) c
def drainRay (s : State) (k n : Nat) : State := drainLog k n ((getRay s k n).pend.length + 1) s
/-- A write joins the log, or recording stops because the area would fill. -/
def logEntry (r : Ray) (visit : Bool) (mk : Nat → Nat → Nat × List Byte) : Ray := match r.log, r.logN with
  | some l, some n =>
    if !r.logOn then r
    else if l.2.2.toNat < 32 + 8 * (r.visits + bit visit) + 32 * (r.answers + bit !visit) then setStat { r with logOn := false } stLOGOVF
    else
      let a := rayArea r l n
      let w := mk a (a + l.2.2.toNat)
      { r with pend := r.pend ++ [.bytes (BitVec.ofNat 64 w.1) w.2], visits := r.visits + bit visit, answers := r.answers + bit !visit }
  | _, _ => r
/-- The entry of an arrival, and of a visit (R212). -/
def logAnswer (r : Ray) (e : Answer) : Ray := logEntry r false fun _ top => (top - 32 * (r.answers + 1), toBytes 32 e.toNat)
def visitWord (a hits : Nat) : Nat := a / 128 % 2 ^ 50 + hits % 16 * 2 ^ 56
def logVisit (r : Ray) (a : Nat) : Ray :=
  let r' := logEntry r true fun area _ => (area + 32 + 8 * r.visits, toBytes 8 (visitWord a 0))
  { r' with lastVisit := if r'.visits = r.visits then none else some (BitVec.ofNat 64 a) }
/-- The box test fills the number of hit children into the last visit. -/
def logHits (r : Ray) : Ray := match r.lastVisit, r.log, r.logN with
  | some a, some l, some n =>
    let va := rayArea r l n + 32 + 8 * (r.visits - 1)
    { r with pend := r.pend ++ [.bytes (BitVec.ofNat 64 va) (toBytes 8 (visitWord a.toNat r.children.length))], lastVisit := none }
  | _, _, _ => r

/-! ### Arrivals (R218, R226) -/

/-- One answer arrives; `inWord` tells that a microword is under way, which ends before traversal does. A list that turns opaque in RUN
after traversal has ended otherwise leaves OPAQUE as it is: the manual does not say (DESIGN CHOICE, log 72). -/
def arriveAt (k n : Nat) (inWord : Bool) (s : State) (a : Answer) : State :=
  let r := getRay s k n
  let x := arrive r a
  let r := if r.replay then x.1 else logAnswer x.1 x.2
  let busy := inWord || r.leafDone != 0 || r.hitWait.isSome || (r.fault.isSome && r.pend.isEmpty)
  let r := if r.st == .run && !r.ended && !r.replay && r.opq && !busy then endTrav r (some stOPAQUE) else r
  drainRay (putRay s k n r) k n
/-- The oldest queued answer arrives. -/
def arriveNext (k n : Nat) (s : State) : State := match (getRay s k n).queue with
  | [] => s
  | q :: rest => arriveAt k n false (onRay s k n fun r => { r with queue := rest }) q.1
def arriveSome (k n : Nat) : Nat → State → State
  | 0, s => s
  | c + 1, s => arriveSome k n c (arriveNext k n s)
/-- Every queued answer up to the last one of the focus thread set arrives (R192, R231). -/
def flushMine (s : State) (k n : Nat) : State :=
  let q := (getRay s k n).queue
  arriveSome k n (q.length - (q.reverse.takeWhile fun e => e.2 != s.here).length) s
/-- LIST_ARRIVAL. -/
def evListArrival (k n : Nat) (s : State) : Option State :=
  let r := getRay s k n
  if r.queue.isEmpty || r.fault.isSome || !(r.st == .open_ || r.st == .run) then none else some (arriveNext k n s)
def execListArrival (cluster slot : Nat) (s : State) : Out := .next ((evListArrival cluster slot s).getD s)

/-! ### The forms (R192, R194 to R198) -/

/-- The ray of a handle of the focus context, in a legal state; ENGINE otherwise (R192). -/
def rayE (s : State) (h : W64) (ok : Ray → Bool) : Except Stop (Nat × Nat × State) := match rayAt s h with
  | some (k, n, r) =>
    if r.ctx != myCtx s then trapE cENGINE 0
    else
      let s := flushMine s k n
      if ok (getRay s k n) then .ok (k, n, s) else trapE cENGINE 0
  | none => trapE cENGINE 0
/-- Two consecutive vector registers from a position, or BOUNDS (R55, R194). -/
def pairE (s : State) (v : VOp) : Except Stop (VDst × VDst) := match v with
  | .v n => if h : n.val + 1 < 32 then .ok (.base n, .base ⟨n.val + 1, h⟩) else trapE cBOUNDS 0
  | .x i k =>
    let x := extIndex s i k
    if 0 ≤ x ∧ x + 1 < allocOf s then .ok (.ext x.toNat, .ext (x.toNat + 1)) else trapE cBOUNDS 0
  | .q _ => trapE cBOUNDS 0
/-- Value of a resolved position as an instruction reads it (R45). -/
def readVD (s : State) (d : VDst) : V512 := match d with
  | .base n => (vw s).v[n]
  | .ext i => poolBlock (vwPool s) (extBlock s.core (s.here % 4) i)
  | .queue q => (qOf s.core q.val).headD 0

/-- A ray of a bank's image is not FREE. The manual does not say whether a ray in DONE holds its bank; the model lets it, until its slot
is released (DESIGN CHOICE, log 72). -/
def bankOpen (c : Cluster) (b : Nat × Rig) : Bool := c.rays.any fun e => e.2.st != .free && e.2.ctx == b.1 && e.2.rig == b.2
/-- The banks once the context's image is resident; none when no bank qualifies (R199). -/
def bankFor (c : Cluster) (ctx : Nat) (rig : Rig) : Option (List (Nat × Rig)) := match rig with
  | .std _ => some c.banks
  | .image _ =>
    if c.banks.contains (ctx, rig) then some ((ctx, rig) :: c.banks.filter (· != (ctx, rig)))
    else if c.banks.length < 4 then some ((ctx, rig) :: c.banks)
    else (c.banks.reverse.find? fun b => !bankOpen c b).map fun b => (ctx, rig) :: c.banks.filter (· != b)
/-- Unit of the focus task, when it belongs to a launch (R212). -/
def myUnit (s : State) : Option (Nat × Nat) :=
  if s.th.act.isNone && recLid s.th.task != 0 then some (recLid s.th.task, recUnit s.th.task) else none
/-- The opened ray takes its number in the log, when the launch has one (R212). -/
def numberRay (s : State) (k n : Nat) : State := match myUnit s with
  | none => s
  | some (lid, u) =>
    let l := getLaunch s (myCtx s) lid
    let s := onRay s k n fun r => { r with lid := lid, lgen := l.gen, unit := u }
    match l.log with
    | none => s
    | some b =>
      let num := amGet 0 l.begun u
      let s := onLaunch s (myCtx s) lid fun x => { x with begun := amSet x.begun u (num + 1) }
      let fits := areaFits b num
      drainRay (onRay s k n fun r =>
        let r := { r with log := some b, logN := some num, logOn := fits, pend := [.begun u] }
        if fits then r else setStat r stLOGOVF) k n
/-- `rayopen` (R195). -/
def execRayopen (o : RayOpen) (s : State) : Out := .next
  (bit0Form s o.p (do
    let p ← pairE s o.a
    let d0 := readVD s p.1
    let d1 := readVD s p.2
    let l4 := lane d1 4
    let iv := fieldOf (vw s).ivstop 0 32
    require (bitsOf l4 16 2 != 3 && bitsOf l4 18 14 == 0 && ivstopOk iv) cENGINE 0
    let k := myClu s
    let rig := (getCtx s (myCtx s)).rig
    match (List.range 1024).find? (fun n => (getRay s k n).st == .free), bankFor (getClu s k) (myCtx s) rig with
    | some n, some banks =>
      let gen := (getRay s k n).gen % 4095 + 1
      let r := { Ray.init with gen := gen, st := .open_, ctx := myCtx s, d0 := d0, d1 := d1, rig := rig, ivstop := w32 iv, tracer := s.here }
      let r := if badRay r then setStat r stBADRAY else r
      let s := putRay (onClu s k fun c => { c with banks := banks }) k n r
      .ok (setS (numberRay s k n) o.d (handleOf k n r))
    | _, _ => .ok (setS s o.d 0)))

/-- The first ray of a launch that is traced brings out the log's header and counts (R212). -/
def traceLaunch (s : State) (k n : Nat) : State :=
  let r := getRay s k n
  match rayLaunch s r, r.log with
  | some l, some _ =>
    if l.traced then s
    else
      let s := onLaunch s r.ctx r.lid fun x => { x with traced := true }
      let s := onRay s k n fun r => { r with pend := .head :: (l.begun.map fun e => LogW.begun e.1) ++ r.pend }
      let mine := s.clusters.flatMap fun e => (e.2.rays.filter fun x =>
        x.2.ctx == r.ctx && x.2.lid == r.lid && x.2.lgen == r.lgen && !x.2.pend.isEmpty).map fun x => (e.1, x.1)
      mine.foldl (fun s e => drainRay s e.1 e.2) (drainRay s k n)
  | _, _ => drainRay s k n
/-- The slot enters RUN for the focus thread set (R196, R209). An activation has no task record: the hit tasks of a ray that it traces
take the activation's unit register and its resident's launch (DESIGN CHOICE, log 72). -/
def startRay (s : State) (k n : Nat) (h : W64) : State :=
  let s := onRay s k n fun r => { r with st := .run, tracer := s.here, hlid := myLid s,
                                         hunit := if s.th.act.isNone then recUnit s.th.task else (s.th.rf.unit).toNat }
  withTh s fun t => { t with rays := t.rays ++ [h] }
/-- `raytrace` (R196, R226). -/
def execRaytrace (o : SA1) (s : State) : Out := .next
  (bit0Form s o.p (do
    let r ← rayE s (getS s o.a) fun r => r.st == .open_
    let k := r.1
    let n := r.2.1
    let s := startRay r.2.2 k n (getS s o.a)
    let s := onRay s k n fun r => if r.opq then endTrav r (some stOPAQUE) else if bitOf r.stat.toNat stBADRAY then endTrav r none else r
    .ok (traceLaunch s k n)))
/-- `raywait` (R198). -/
def execRaywait (o : RayWait) (s : State) : Out := .next
  (bit0Form s o.p (do
    let r ← rayE s (getS s o.a) fun _ => true
    let k := r.1
    let n := r.2.1
    let mine := match s.th.hit with
      | some (c, e) => c == k && (match amFind (getClu s k).hitbuf e with
        | some x => x.slot == n
        | none => false)
      | none => false
    require (!mine) cENGINE 0
    let ray := getRay r.2.2 k n
    ready (o.poll || ray.st == .done)
    let s := setS r.2.2 o.d (statusOf ray)
    .ok (if o.rel && ray.st == .done then putRay s k n { Ray.init with gen := ray.gen } else s)))
/-- `hitq` (R211). -/
def execHitq (o : HitQ) (s : State) : Out := .next
  (bit0Form s o.p (do
    let p ← pairE s o.d
    match s.th.hit with
    | some (k, e) => match amFind (getClu s k).hitbuf e with
      | some x => .ok (writeVD (writeVD s p.1 x.d0) p.2 x.d1)
      | none => trapE cENGINE 0
    | none => trapE cENGINE 0))
/-- `logset` (R212). -/
def execLogset (o : SA3) (s : State) : Out := .next
  (bit0Form s o.p (do
    let base := getS s o.a
    let us := getS s o.b
    let rs := getS s o.c
    require (decide (base.toNat % 64 = 0)) cMISALIGN base
    let lid := myLid s
    let l := getLaunch s (myCtx s) lid
    require ((vw s).lpb != 0 && lid != 0) cENGINE 0
    require (decide (us.toNat % 64 = 0 ∧ rs.toNat % 64 = 0 ∧ 64 ≤ rs.toNat ∧ 64 + rs.toNat ≤ us.toNat)) cENGINE 0
    require (l.log.isNone || l.log == some (base, us, rs)) cENGINE 0
    .ok (onLaunch s (myCtx s) lid fun x => { x with log := some (base, us, rs) })))
/-- `replay` (R213). -/
def execReplay (o : SA1) (s : State) : Out := .next
  (bit0Form s o.p (do
    let r ← rayE s (getS s o.a) fun r => r.st == .open_
    let k := r.1
    let n := r.2.1
    let s := arriveSome k n (getRay r.2.2 k n).queue.length r.2.2
    let ray := getRay s k n
    require (ray.log.isSome && ray.logN.isSome && ray.arrivals == 0) cENGINE 0
    .ok (onRay (startRay s k n (getS s o.a)) k n fun r => setStat { r with replay := true, logOn := false, pend := [] } stREPLAY)))

/-! ### Interval forms (R229 to R233) -/

/-- `ivpost` (R230). -/
def execIvpost (o : IvPost) (s : State) : Out := .next
  (bit0Form s o.p (do
    require (vopOk s o.b) cBOUNDS 0
    let a : Answer := BitVec.ofNat 256 (peekV s o.b).toNat
    match rayAt s (getS s o.a) with
    | some (k, n, r) =>
      require (r.ctx == myCtx s && (r.st == .open_ || (r.st == .run && !r.replay))) cENGINE 0
      .ok (onRay s k n fun r => { r with queue := r.queue ++ [(a, s.here)] })
    | none => trapE cENGINE 0))
/-- Record `i` of a list, or an absent record (R231). -/
def recordAt (r : Ray) (i : Nat) : Answer := r.recs.getD i (BitVec.ofNat 256 (0x7FC00000 + 0x7FC00000 * 2 ^ 32))
/-- `ivread` (R231). -/
def execIvread (o : IvRead) (s : State) : Out := .next
  (bit0Form s o.p (do
    require (vopOk s o.d) cBOUNDS 0
    let r ← rayE s (getS s o.a) fun _ => true
    let ray := getRay r.2.2 r.1 r.2.1
    let i := (getS s o.b).toNat
    .ok (writeVD r.2.2 (resolveV s o.d) (BitVec.ofNat 512 ((recordAt ray i).toNat + (recordAt ray (i + 1)).toNat * 2 ^ 256)))))
/-- A list as `rayopen` sets it (R217, R232). -/
def clearList (r : Ray) : Ray :=
  let r := { r with recs := [], front := 0x7F800000, opq := false, arrCount := 0, arrivals := 0, late := 0, dup := 0, reject := 0, merges := 0 }
  match r.log, r.logN with
  | some l, some n =>
    let keep := r.pend.filter fun x => match x with
      | .bytes _ _ => false
      | _ => true
    if areaFits l n then { r with answers := 0, visits := 0, pend := keep, logOn := true, stat := r.stat &&& ~~~((1 : BitVec 9) <<< stLOGOVF) }
    else r
  | _, _ => r
/-- `ivclr` (R232). -/
def execIvclr (o : SA1) (s : State) : Out := .next
  (bit0Form s o.p (do
    let r ← rayE s (getS s o.a) fun r => r.st == .open_
    .ok (onRay r.2.2 r.1 r.2.1 clearList)))
/-- `ivstat` (R233). -/
def execIvstat (o : IvStat) (s : State) : Out := .next
  (bit0Form s o.p (do
    let r ← rayE s (getS s o.a) fun _ => true
    let x := getRay r.2.2 r.1 r.2.1
    let counts := x.dup + x.late * 2 ^ 12 + x.arrivals * 2 ^ 24 + x.reject * 2 ^ 40 + x.merges * 2 ^ 48 + x.recs.length * 2 ^ 58
      + bit x.opq * 2 ^ 63
    .ok (setS r.2.2 o.d (BitVec.ofNat 64 (if o.sel then x.front.toNat + x.ivstop.toNat * 2 ^ 32 else counts)))))

/-! ### Microwords (R201, R202) -/

/-- A microword by fields (R201). -/
structure Mw where
  op : Nat
  cond : Nat
  alt : Nat
  next : Nat
  d : Nat
  a : Nat
  b : Nat
  imm : W64
  deriving DecidableEq, Repr
def mwOf (w : BitVec 128) : Mw :=
  let x := w.toNat
  { op := bitsOf x 122 6, cond := bitsOf x 118 4, alt := bitsOf x 108 10, next := bitsOf x 98 10, d := bitsOf x 92 4, a := bitsOf x 88 4,
    b := bitsOf x 84 4, imm := BitVec.ofNat 64 (bitsOf x 0 64) }
/-- The checks of R202 on microword `i` of an image of `n`. -/
def mwOk (n i : Nat) (w : BitVec 128) : Bool :=
  let x := mwOf w
  (x.op == 0) == (i == 0) && decide (x.op ≤ 24) && decide (x.cond ≤ 11) && decide (x.next < n) && decide (x.alt < n)
    && bitsOf w.toNat 96 2 == 0 && bitsOf w.toNat 64 20 == 0 && (x.op != 22 || x.cond == 1) && (i != 0 || x.imm.toNat / 2 == 0)
/-- Step of a standard rigging (R204; log 13), by phase: 1 pushes the root, 2 pops, 3 compares with the frontier, 4 fetches, 5 tests
the boxes, 6 takes the next leaf, 8 to 10 test its records, 11 pushes the internal children from the last one on, 7 ends. -/
def stdOp (phase : Nat) : Nat := match phase with
  | 1 => 16 | 2 => 17 | 3 => 18 | 4 => 12 | 5 => 14 | 6 => 15 | 8 => 19 | 9 => 20 | 10 => 21 | 11 => 16 | _ => 24
/-- Current microword of a ray: w0 and w1 hold the popped entry of a standard rigging, w2 and w3 its leaf. -/
def curMw (r : Ray) : Mw := match r.rig with
  | .image l => mwOf (l.getD r.upc 0)
  | .std _ =>
    let leaf := decide (8 ≤ r.upc)
    { op := stdOp r.upc, cond := 0, alt := 0, next := 0, d := 0, a := if r.upc = 3 then 1 else if leaf then 2 else 0,
      b := if leaf then 3 else 1, imm := 0 }
/-- Phase that follows in a standard rigging. -/
def stdNext (r : Ray) : Nat := match r.upc with
  | 1 => 2
  | 2 => if r.fe then 7 else 3
  | 3 => if r.ff then 2 else 4
  | 4 => 5
  | 5 => 6
  | 6 => if r.fm then (if r.children.isEmpty then 2 else 11) else 7 + (r.w.toList.getD 3 0).toNat % 4
  | 11 => if r.children.isEmpty then 2 else 11
  | _ => 6
/-- The condition of a microword (R201). -/
def condHolds (r : Ray) (c : Nat) : Bool := match c with
  | 1 => true
  | 2 => r.fz | 3 => !r.fz
  | 4 => r.fn | 5 => !r.fn
  | 6 => r.fm | 7 => !r.fm
  | 8 => r.fe | 9 => !r.fe
  | 10 => r.ff | 11 => !r.ff
  | _ => false
def wOf (r : Ray) (i : Nat) : W64 := r.w.toList.getD i 0
def wPut (r : Ray) (i : Nat) (v : W64) : Ray := { r with w := if h : i < 16 then r.w.set i v h else r.w }
/-- The microword is done: where the ray goes on (R201), and an end by opacity (R202, R226). `dst` overrides for `ret`. -/
def mwDone (m : Mw) (dst : Option Nat) (r : Ray) : Ray :=
  if r.ended then r
  else
    let next := match dst, r.rig with
      | some x, _ => x
      | none, .std _ => stdNext r
      | none, .image _ => if condHolds r m.cond then m.alt else m.next
    let r := { r with upc := next, leafDone := 0, ahead := [], wd := if m.op == 12 || (19 ≤ m.op && m.op ≤ 21) then 0 else r.wd + 1 }
    if r.opq then endTrav r (some stOPAQUE) else r
/-- Push on the node stack; a 97th entry ends traversal (R202). -/
def nodePush (r : Ray) (x : W64 × W64) : Ray := if 96 ≤ r.stack.length then endTrav r (some stSTACK) else { r with stack := x :: r.stack }
/-- A child's words: address, and kind, count − 1 and tin. -/
def childWord (c : Child) : W64 := BitVec.ofNat 64 (c.kind + (c.count - 1) % 16 * 4 + c.tin.toNat * 2 ^ 32)
/-- Takes a child into two ray words; its tin and tout are those of the next leaf microword, in a loaded image too, where the manual
does not name the box: zeros when no child has been taken (DESIGN CHOICE, log 72). -/
def takeChild (r : Ray) (d b : Nat) (c : Child) (rest : List Child) : Ray :=
  let r := wPut (wPut r d c.addr) b (childWord c)
  { r with children := rest, tin := c.tin, tout := c.tout, fm := false }
/-- Field IMM of a ray (R202). -/
def raywField (k n : Nat) (r : Ray) (i : Nat) : W64 := match i with
  | 0 => lane64 r.d1 0
  | 1 => lane64 r.d1 1
  | 2 => zext64 32 (lane r.d1 5)
  | 3 => zext64 32 (rayTmin r r.fp64)
  | 4 => zext64 32 (rayTmax r r.fp64)
  | 5 => zext64 32 r.front.toNat
  | 6 => handleOf k n r
  | _ => 0

/-- A ray that can run its microword now (R196, R197, R202, R214). -/
def rayRuns (s : State) (r : Ray) : Bool :=
  r.st == .run && !r.ended && !r.replay && !r.parked && r.fault.isNone && r.pend.isEmpty && r.hitWait.isNone && engineRuns s r.ctx
/-- Runs the current microword of a ray when it is `op`. Microword 0, the head, is never executed, and a one-word image has no
microword 1: a ray whose control comes there stays in RUN, since the manual gives no further step (DESIGN CHOICE, log 72). -/
def rig (op : Nat) (f : Nat → Nat → Mw → State → State) (k n : Nat) (s : State) : Option State :=
  let r := getRay s k n
  if rayRuns s r && decide (r.wd < 4096) && (curMw r).op == op then some (f k n (curMw r) s) else none
/-- A microword that changes the ray only. -/
def rigPure (f : Mw → Ray → Ray) (k n : Nat) (m : Mw) (s : State) : State := onRay s k n fun r => mwDone m none (f m r)

def rigAlu (f : Mw → W64 → W64 → W64) : Nat → Nat → Mw → State → State := rigPure fun m r => wPut r m.d (f m (wOf r m.a) (wOf r m.b))
def execRigNop (cluster slot : Nat) (s : State) : Out := .next ((rig 1 (rigPure fun _ r => r) cluster slot s).getD s)
def execRigLdi (cluster slot : Nat) (s : State) : Out := .next ((rig 2 (rigAlu fun m _ _ => m.imm) cluster slot s).getD s)
def execRigMov (cluster slot : Nat) (s : State) : Out := .next ((rig 3 (rigAlu fun _ a _ => a) cluster slot s).getD s)
def execRigAdd (cluster slot : Nat) (s : State) : Out := .next ((rig 4 (rigAlu fun _ a b => a + b) cluster slot s).getD s)
def execRigSub (cluster slot : Nat) (s : State) : Out := .next ((rig 5 (rigAlu fun _ a b => a - b) cluster slot s).getD s)
def execRigAnd (cluster slot : Nat) (s : State) : Out := .next ((rig 6 (rigAlu fun _ a b => a &&& b) cluster slot s).getD s)
def execRigOr (cluster slot : Nat) (s : State) : Out := .next ((rig 7 (rigAlu fun _ a b => a ||| b) cluster slot s).getD s)
def execRigShl (cluster slot : Nat) (s : State) : Out := .next ((rig 8 (rigAlu fun m a _ => a <<< (m.imm.toNat % 64)) cluster slot s).getD s)
def execRigShr (cluster slot : Nat) (s : State) : Out := .next ((rig 9 (rigAlu fun m a _ => a >>> (m.imm.toNat % 64)) cluster slot s).getD s)
/-- `cmp` (R202). -/
def rigCmp : Nat → Nat → Mw → State → State := rigPure fun m r => { r with fz := wOf r m.a == wOf r m.b, fn := (wOf r m.a).ult (wOf r m.b) }
def execRigCmp (cluster slot : Nat) (s : State) : Out := .next ((rig 10 rigCmp cluster slot s).getD s)
/-- `rayw` (R202). -/
def rigRayw (k n : Nat) (m : Mw) (s : State) : State :=
  onRay s k n fun r => mwDone m none (wPut r m.d (raywField k n r m.imm.toNat))
def execRigRayw (cluster slot : Nat) (s : State) : Out := .next ((rig 11 rigRayw cluster slot s).getD s)
/-- `fetch` (R202, R210, R212). -/
def rigFetch (k n : Nat) (m : Mw) (s : State) : State :=
  let r := getRay s k n
  let a := (wOf r m.a).toNat
  if !inRange r a 128 128 then putRay s k n (endTrav r (some stBVHRANGE))
  else match rayRead s k n a 128 with
    | .error s' => s'
    | .ok (x, s') =>
      let r := logVisit { r with node := BitVec.ofNat 1024 x, nodes := min (r.nodes + 1) (2 ^ 24 - 1) } a
      drainRay (putRay s' k n (mwDone m none r)) k n
def execRigFetch (cluster slot : Nat) (s : State) : Out := .next ((rig 12 rigFetch cluster slot s).getD s)
def rigNbw : Nat → Nat → Mw → State → State := rigPure fun m r => wPut r m.d (BitVec.ofNat 64 (nodeBits r.node (64 * (m.imm.toNat % 16)) 64))
def execRigNbw (cluster slot : Nat) (s : State) : Out := .next ((rig 13 rigNbw cluster slot s).getD s)
/-- `box` (R202, R204). -/
def rigBox (k n : Nat) (m : Mw) (s : State) : State :=
  let s := onRay s k n fun r =>
    let l := boxTest r r.node
    mwDone m none (logHits { r with children := l, fm := l.isEmpty })
  drainRay s k n
def execRigBox (cluster slot : Nat) (s : State) : Out := .next ((rig 14 rigBox cluster slot s).getD s)
/-- `child` (R202); a standard rigging takes its leaves first (R204). -/
def rigChild : Nat → Nat → Mw → State → State := rigPure fun m r => match r.rig with
  | .image _ => (match r.children with
    | [] => { r with fm := true }
    | c :: rest => takeChild r m.d m.b c rest)
  | .std _ => (match r.children.find? fun c => c.kind != 0 with
    | none => { r with fm := true }
    | some c => takeChild r 2 3 c (r.children.erase c))
def execRigChild (cluster slot : Nat) (s : State) : Out := .next ((rig 15 rigChild cluster slot s).getD s)
/-- `push` (R202); a standard rigging pushes the root first and later its last internal child (R204). -/
def rigPush : Nat → Nat → Mw → State → State := rigPure fun m r => match r.rig with
  | .image _ => nodePush r (wOf r m.a, wOf r m.b)
  | .std _ =>
    if r.upc = 1 then nodePush r (lane64 r.d1 0, BitVec.ofNat 64 (rayTmin r r.fp64 * 2 ^ 32))
    else match r.children.getLast? with
      | some c => nodePush { r with children := r.children.dropLast } (c.addr, childWord c)
      | none => r
def execRigPush (cluster slot : Nat) (s : State) : Out := .next ((rig 16 rigPush cluster slot s).getD s)
/-- `pop` (R202). -/
def rigPop : Nat → Nat → Mw → State → State := rigPure fun m r => match r.stack with
  | [] => { r with fe := true }
  | e :: rest => wPut (wPut { r with fe := false, stack := rest } m.d e.1) m.b e.2
def execRigPop (cluster slot : Nat) (s : State) : Out := .next ((rig 17 rigPop cluster slot s).getD s)
/-- `front` (R202). -/
def rigFront : Nat → Nat → Mw → State → State := rigPure fun m r =>
  { r with ff := r.opq || lt32 r.front.toNat (fieldOf (wOf r m.a) 32 32) }
def execRigFront (cluster slot : Nat) (s : State) : Out := .next ((rig 18 rigFront cluster slot s).getD s)

/-! ### Leaves and hit tasks (R205 to R211) -/

/-- What a record makes of the ray's state. -/
abbrev RecFn := Nat → Nat → Nat → Nat → State → State
/-- A leaf microword ends once its records and cells are tested and nothing of them waits. -/
def leafEnd (count : Nat) (k n : Nat) (m : Mw) (s : State) : State :=
  let r := getRay s k n
  if r.fault.isSome || r.hitWait.isSome || !r.pend.isEmpty || !r.cells.isEmpty || r.leafDone < count then s
  else putRay s k n (mwDone m none r)
/-- One step of a leaf microword, up to the next step boundary (R214): the next answer of a brick arrives, or the next record is read,
after its range check, and tested by `f` on address and bytes. A fault, a hit task that waits and a log write that waits hold the ray.
Where an earlier record has made the list opaque and a later one fails the range check, BVHRANGE alone is set: the manual does not say
whether OPAQUE is too (DESIGN CHOICE, log 72). -/
def testRecs (f : RecFn) (size base count : Nat) (k n : Nat) (m : Mw) (s : State) : State :=
  let r := getRay s k n
  match r.cells with
  | a :: rest => leafEnd count k n m (arriveAt k n true (putRay s k n { r with cells := rest }) a)
  | [] =>
    if count ≤ r.leafDone then leafEnd count k n m s
    else
      let a := base + size * r.leafDone
      if !inRange r a size size then putRay s k n (endTrav r (some stBVHRANGE))
      else match rayRead s k n a size with
        | .error s' => s'
        | .ok (x, s') =>
          let s := f k n a x s'
          let r := getRay s k n
          if r.fault.isSome && r.pend.isEmpty || r.ended then s
          else leafEnd count k n m (onRay s k n fun r => { r with leafDone := r.leafDone + 1, ahead := [] })
/-- The leaf microwords: (wB bits 5:2) + 1 records from wA. -/
def rigLeafs (f : RecFn) (kind : Nat) (k n : Nat) (m : Mw) (s : State) : State :=
  let r := getRay s k n
  testRecs f (leafBytes r.fp64 kind) (wOf r m.a).toNat (fieldOf (wOf r m.b) 2 4 + 1) k n m s
/-- Posts an answer of a test, when there is one. -/
def postTest (k n : Nat) (s : State) (a : Option Answer) : State := match a with
  | some x => arriveAt k n true s x
  | none => s
def triFn : RecFn := fun k n _ x s => postTest k n s (triRecord (getRay s k n) x)
def splatFn : RecFn := fun k n _ x s => postTest k n s (splatRecord (getRay s k n) x)
def execRigTri (cluster slot : Nat) (s : State) : Out := .next ((rig 19 (rigLeafs triFn 1) cluster slot s).getD s)
def execRigSplat (cluster slot : Nat) (s : State) : Out := .next ((rig 20 (rigLeafs splatFn 2) cluster slot s).getD s)

/-- A brick (R207, R210). -/
def brickFn (k n x : Nat) (s : State) : State :=
  let r := getRay s k n
  let a := bitsOf x 192 64
  if !inRange r a 64 1024 then putRay s k n (endTrav r (some stBVHRANGE))
  else match rayRead s k n a 1024 with
    | .error s' => s'
    | .ok (cells, s') => onRay s' k n fun y => { y with cells := brickAnswers r x cells }
/-- A user primitive or a neural field (R208). -/
def hitFn (k n a x : Nat) (s : State) : State :=
  let r := getRay s k n
  let c := getCtx s r.ctx
  let hitbase := transReg s r.ctx k 0x805 c.hitbase
  let hitcnt := transReg s r.ctx k 0x806 c.hitcnt
  let idx := bitsOf x 0 32
  let form := if bitsOf x 504 8 = 1 then 4 else 3
  if hitcnt.toNat ≤ idx then putRay s k n { r with drop := min (r.drop + 1) 255 }
  else
    let va := hitbase.toNat + 32 * idx
    if va % 32 ≠ 0 then putRay s k n (endTrav r (some stBVHRANGE))
    else match rayRead s k n va 32 with
      | .error s' => s'
      | .ok (h, s') =>
        if bitsOf h 0 64 = 0 then
          let t := max32 r.tin.toNat (rayTmin r r.fp64)
          arriveAt k n true s' (mkAnswer t t inf32 0 form (bitsOf x 32 29) 255 0)
        else onRay s' k n fun r => { r with hitWait := some { recAddr := BitVec.ofNat 64 a, leaf := BitVec.ofNat 512 x,
                                                              code := BitVec.ofNat 64 (bitsOf h 0 64),
                                                              frame := BitVec.ofNat 64 (bitsOf h 64 64), prio := bitsOf h 128 3 } }
def leafFn : RecFn := fun k n a x s => match bitsOf x 504 8 with
  | 0 => brickFn k n x s
  | 1 => hitFn k n a x s
  | 2 => hitFn k n a x s
  | _ => onRay s k n fun r => { r with drop := min (r.drop + 1) 255 }
def execRigLeaf (cluster slot : Nat) (s : State) : Out := .next ((rig 21 (rigLeafs leafFn 3) cluster slot s).getD s)

/-- The second register of a hit descriptor (R211). Lane 9 takes the form as an answer names it, 3 or 4, where the record itself has
2 or 1 and the manual does not say which (DESIGN CHOICE, log 72). -/
def hitReg1 (k n : Nat) (r : Ray) (h : HitWait) : V512 :=
  let x := h.leaf.toNat
  let form := if bitsOf x 504 8 = 1 then 4 else 3
  of64 [handleOf k n r, h.recAddr, BitVec.ofNat 64 (lane r.d1 4 + lane r.d1 5 * 2 ^ 32), BitVec.ofNat 64 (r.tin.toNat + r.tout.toNat * 2 ^ 32),
    BitVec.ofNat 64 (bitsOf x 0 32 + (bitsOf x 32 29 + form * 2 ^ 29) * 2 ^ 32), 0, 0, 0]
/-- HIT_TASK_PUSH: the hit task of a ray that waits gets its entry and goes to the ring (R208, R209). -/
def evHitTaskPush (k : Nat) (s : State) : Option State :=
  let c := getClu s k
  if 4096 ≤ c.hitbuf.length then none
  else c.rays.findSome? fun e =>
    match e.2.hitWait with
    | none => none
    | some h =>
      let r := e.2
      if r.fault.isSome || r.parked || !engineRuns s r.ctx then none
      else
        let id := (c.hitbuf.getLast?.map (·.1 + 1)).getD 0
        let x : HitEntry := { slot := e.1, ctx := r.ctx, prio := h.prio, taken := false, d0 := r.d0, d1 := hitReg1 k e.1 r h }
        let s := onClu s k fun c => { c with hitbuf := amSet c.hitbuf id x }
        let s := putRay s k e.1 { r with hitWait := none, outstanding := r.outstanding + 1, hits := min (r.hits + 1) 65535 }
        pushRec s k r.ctx (mkRec h.code h.frame 0 r.hunit false h.prio true true r.hlid)
def execHitTaskPush (cluster : Nat) (s : State) : Out := .next ((evHitTaskPush cluster s).getD s)

/-- `call`, `ret`, `done` (R202). -/
def rigCall (k n : Nat) (m : Mw) (s : State) : State := onRay s k n fun r =>
  if 8 ≤ r.rstack.length then endTrav r (some stMLOOP) else mwDone m none { r with rstack := m.next :: r.rstack }
def execRigCall (cluster slot : Nat) (s : State) : Out := .next ((rig 22 rigCall cluster slot s).getD s)
def rigRet (k n : Nat) (m : Mw) (s : State) : State := onRay s k n fun r => match r.rstack with
  | [] => endTrav r (some stMLOOP)
  | x :: rest => mwDone m (some x) { r with rstack := rest }
def execRigRet (cluster slot : Nat) (s : State) : Out := .next ((rig 23 rigRet cluster slot s).getD s)
def execRigDone (cluster slot : Nat) (s : State) : Out := .next ((rig 24 (rigPure fun _ r => endTrav r none) cluster slot s).getD s)
/-- MICROWORD_WATCHDOG (R202). -/
def evWatchdog (k n : Nat) (s : State) : Option State :=
  let r := getRay s k n
  if rayRuns s r && decide (4096 ≤ r.wd) then some (putRay s k n (endTrav r (some stMLOOP))) else none
def execMicrowordWatchdog (cluster slot : Nat) (s : State) : Out := .next ((evWatchdog cluster slot s).getD s)

/-- Virtual addresses that the current microword of a ray reads, and how many bytes: a node, the next record of a leaf, or the cells of
a brick whose record it has read already (R202, R207, R210). -/
def readSpan (r : Ray) : Option (Nat × Nat × Nat) :=
  let m := curMw r
  let a := (wOf r m.a).toNat
  if m.op = 12 then some (a, 128, 128)
  else if m.op = 19 ∨ m.op = 20 ∨ m.op = 21 then
    let size := leafBytes r.fp64 (m.op - 18)
    let va := a + size * r.leafDone
    match m.op == 21 && size == 64, amFind r.ahead (va / 64) with
    | true, some x => if bitsOf x.toNat 504 8 = 0 then some (bitsOf x.toNat 192 64, 1024, 64) else none
    | _, _ => some (va, size, size)
  else none
/-- One sector of the current microword's read comes early (R210). -/
def evSector (k n sector : Nat) (s : State) : Option State :=
  let r := getRay s k n
  if !rayRuns s r || decide (4096 ≤ r.wd) || !r.cells.isEmpty then none
  else match readSpan r with
    | some (a, len, align) =>
      if !inRange r a align len || decide (64 * sector + 64 ≤ a ∨ a + len ≤ 64 * sector) then none
      else match engRead s r.ctx k .T (64 * sector) 64 with
        | .ok (b, s') => some (putRay s' k n { r with ahead := amSet r.ahead sector (BitVec.ofNat 512 (ofBytes b)) })
        | _ => none
    | none => none

/-! ### The end of a ray (R197, R212, R213) -/

/-- What a replay takes from the log: status word and answers, or absent. -/
def replayRead (s : State) (k n : Nat) : Except State (Option (Nat × List Answer) × State) := do
  let r := getRay s k n
  match r.log, r.logN with
  | some l, some num =>
    let a := rayArea r l num
    let u ← rayRead s k n ((l.1.toNat + 64 + r.unit * l.2.1.toNat) % 2 ^ 64) 4
    let h ← rayRead u.2 k n (a % 2 ^ 64) 32
    let vis := bitsOf h.1 0 32
    let cnt := bitsOf h.1 32 32
    let st := bitsOf h.1 64 64
    if !(areaFits l num && decide (num < u.1) && bitOf st stDONE && !bitOf st stLOGOVF && decide (32 + 8 * vis + 32 * cnt ≤ l.2.2.toNat)) then
      .ok (none, h.2)
    else
      (List.range cnt).foldl (fun acc m => do
        let x ← acc
        let e ← rayRead x.2 k n ((a + l.2.2.toNat - 32 * (m + 1)) % 2 ^ 64) 32
        .ok (x.1.map fun y => (y.1, y.2 ++ [BitVec.ofNat 256 e.1]), e.2)) (.ok (some (st, []), h.2))
  | _, _ => .ok (none, s)
/-- A replaying ray reads its log and enters DONE (R213). -/
def replayDone (s : State) (k n : Nat) : State := match replayRead s k n with
  | .error s' => s'
  | .ok (none, s') => onRay s' k n fun r => { r with st := .done, stat := BitVec.ofNat 9 (2 ^ stLOGBAD + 2 ^ stREPLAY + 1), nodes := 0, hits := 0,
                                                     drop := 0, ended := true }
  | .ok (some (st, l), s') =>
    onRay (l.foldl (arriveAt k n true) s') k n fun r =>
      { r with st := .done, stat := BitVec.ofNat 9 (Nat.lor (bitsOf st 0 9) (2 ^ stREPLAY + 1)), drop := bitsOf st 16 8, hits := bitsOf st 24 16,
               nodes := bitsOf st 40 24, ended := true }
/-- A ray with nothing left to write enters DONE, and the committed count may follow (R197, R212). -/
def finishRay (s : State) (k n : Nat) : State :=
  let r := getRay s k n
  if !r.pend.isEmpty || r.fault.isSome then s
  else
    let s := putRay s k n (setStat { r with st := .done } stDONE)
    if r.lid = 0 then s else commitLog s r.ctx r.lid
/-- A ray enters DONE: its posted answers arrive first, then its header is written, unless its area does not fit or the supervisor has
had the write discarded (R197, R212, R230). The header counts what has arrived when its write is performed (R227). -/
def enterDone (s : State) (k n : Nat) : State :=
  let s := drainRay (arriveSome k n (getRay s k n).queue.length s) k n
  let r := getRay s k n
  if !r.pend.isEmpty || r.fault.isSome then s
  else
    let fits := match r.log, r.logN with
      | some l, some num => areaFits l num
      | _, _ => false
    finishRay (if fits && !r.headed && !r.replay then drainRay (putRay s k n { r with pend := [.rayHead] }) k n else s) k n
/-- RAY_DONE: a ray whose traversal has ended and that has no hit task outstanding enters DONE; a replay reads its log then, unless a
cancel has ended it (R197, R212, R213, R326). -/
def evRayDone (k n : Nat) (s : State) : Option State :=
  let r := getRay s k n
  if r.st != .run || r.parked || r.fault.isSome || !engineRuns s r.ctx then none
  else if r.replay && !r.ended then some (replayDone s k n)
  else if !r.ended || r.outstanding != 0 || r.hitWait.isSome then none
  else some (enterDone s k n)
def execRayDone (cluster slot : Nat) (s : State) : Out := .next ((evRayDone cluster slot s).getD s)

/-! ### The answer to a ray's fault (R383) -/

/-- The ray that waits for a fault's answer. -/
def faultedRay (s : State) (fid : W64) : Option (Nat × Nat) := s.clusters.findSome? fun e =>
  (e.2.rays.find? fun x => x.2.fault == some fid).map fun x => (e.1, x.1)
/-- A retry, or the discard of a log write, lets the ray go on: the write of its header into DONE; the committed count may follow (R212,
R383). -/
def rayAnswer (s : State) (k n : Nat) (discard : Bool) : State :=
  let r := getRay s k n
  let last := r.pend.contains .rayHead && !r.parked
  let r := { r with fault := none, pend := if discard then r.pend.drop 1 else r.pend,
                    headed := r.headed || (discard && r.pend.head? == some .rayHead) }
  let s := drainRay (putRay s k n r) k n
  if last then (if r.queue.isEmpty then finishRay s k n else enterDone s k n)
  else if r.lid = 0 then s else commitLog s r.ctx r.lid

/-! ### Rigging images (R199, R200, R365) -/

/-- The microwords of an image, read on path T (R200). -/
def readImage (base : W64) : Nat → State → Except Stop (List (BitVec 128) × State)
  | 0, s => .ok ([], s)
  | n + 1, s => do
    let r ← readImage base n s
    let ea := base + BitVec.ofNat 64 (16 * n)
    let accw := accWord .T false false 16
    let x ← (if inPoolWindow ea.toNat then permStop ea accw else xlateE r.2 .read false ea accw)
    let b := homeRead x.2 (myCtx s) x.1.slot x.1.pa 16
    .ok (r.1 ++ [BitVec.ofNat 128 (ofBytes b.1)], b.2)
/-- The context's image and its measurement (R365). -/
def setRig (s : State) (ctx : Nat) (rig : Rig) (image : List Byte) : State := onCtx s ctx fun c =>
  { c with rig := rig, rm := BitVec.ofNat 256 (ofBytes (sha256 (toBytes 32 c.rm.toNat ++ sha256 image))) }
/-- `rgload` (R200). -/
def execRgload (o : S4) (s : State) : Out := .next
  (bit0Form s o.p (do
    require (supMode s) cILLEGAL 0
    let t := (getS s o.c).toNat
    require (decide (t ≤ 255)) cENGINE 0
    require (!(getCtx s t).created || (getCtx s t).part == myPart s) cPERM 0
    require (getCtx s t).created cENGINE 0
    let a := getS s o.a
    let cnt := (getS s o.b).toNat
    let bad := fun (i : Nat) => BitVec.ofNat 64 (2 ^ 63 + i)
    if a = 0 then
      if 1 < cnt then .ok (setS s o.d (bad 1024))
      else .ok (setS (setRig s t (.std (cnt == 1)) [BitVec.ofNat 8 cnt]) o.d 0)
    else
      alignCheck a 16 (accWord .T false false 16)
      if cnt = 0 || 1024 < cnt then .ok (setS s o.d (bad 1024))
      else
        let r ← readImage a cnt s
        match (List.range cnt).find? fun i => !mwOk cnt i (r.1.getD i 0) with
        | some i => .ok (setS r.2 o.d (bad i))
        | none => .ok (setS (setRig r.2 t (.image r.1) (r.1.flatMap fun w => toBytes 16 w.toNat)) o.d 0)))

end Machine
end Sys2Proof
end

