-- ==== Sys2Proof/Machine/Recovery.lean ====
section
/-!
DEFINITION. Recovery: array errors and the end of their owners, the drain, the save and the restore of a context, the answers to
fault messages, and debug (R370, R371, R380 to R396).
-/
namespace Sys2Proof
namespace Machine

/-! ### The end of an owner (R389 to R391) -/

/-- The owner of a slice line (R390). -/
inductive Owner where
  | device
  | part (p : Nat)
  | ctx (c : Nat)
  deriving DecidableEq, Repr
/-- A line lies in some partition's ranges. -/
def inSomePart (s : State) (a : Nat) : Bool := s.parts.any fun e => liesIn s e.1 a
def lineOwner (s : State) (l : Nat) : Owner :=
  let ln := getLine s l
  if !inSomePart s (l * 256) then .device else if ln.partLine then .part (ln.owner % 16) else .ctx ln.owner
/-- Owner of a line that is filled for a context through a slot (R390). -/
def fillOwner (s : State) (ctx slot a : Nat) : Owner :=
  if !inSomePart s a then .device else if isAlias s slot then .part (getCtx s ctx).part else .ctx ctx
/-- Lines of an owner leave the slices without write-back (R391). -/
def dropOwned (s : State) (o : Owner) : State :=
  (s.lines.filter fun e => lineOwner s e.1 == o).foldl (fun s e => dropNoWriteBack s e.1) s
/-- A core with nothing bound: its program timestamps, its pool's time and its forwarding entries go on (R33, R343). -/
def unbindCore (s : State) (core : Nat) : State :=
  let s := (List.range 4).foldl (fun s t => onThread s (4 * core + t) fun t => { Thread.init with pts := t.pts }) s
  onCore s core fun c =>
    { CoreSt.init with threads := c.threads, cap := c.cap, gated := c.gated, ptime := c.ptime, lastTs := c.lastTs, castled := c.castled,
                       fwd := c.fwd }
/-- What a cluster keeps when a context ends (R391): its commands, rays, rings, banks, U copies, walks and semaphores go (R23). -/
def endInCluster (ctx : Nat) (c : Cluster) : Cluster :=
  let free := fun (r : Ray) => if r.ctx == ctx && r.st != .free then { Ray.init with gen := r.gen } else r
  { c with cq := c.cq.filter fun x => x.ctx != ctx, miss := c.miss.filter fun m => m.ctx != ctx,
           rays := c.rays.map fun e => (e.1, free e.2), banks := c.banks.filter fun b => b.1 != ctx,
           hitbuf := c.hitbuf.filter fun e => e.2.ctx != ctx, rings := amDel c.rings ctx,
           ucopies := c.ucopies.filter fun e => e.2.ctx != ctx, sems := c.sems.filter fun e => e.2.1 != ctx, walks := c.walks.filter fun w => w.1 != ctx }
/-- The jobs of a partition after one of its contexts has ended: none of the context's is left to complete, and a descriptor whose blocks
were being issued for it is left (R391 step 1; log 62). -/
def endJobsOf (ctx : Nat) (p : Partition) : Partition :=
  let p := if p.jobBlk ≠ 0 ∧ (p.jobsOpen.getLast?.map (·.ctx)) = some ctx then { p with jobHead := p.jobHead + 1, jobBlk := 0 } else p
  { p with jobsOpen := p.jobsOpen.filter fun e => e.ctx != ctx }
/-- The accesses of a core's thread sets that have not been performed go with its context, and no read of another waits for one of
them; its matrix commands are cancelled (R391 steps 1 and 2; log 76). -/
def dropAccesses (s : State) (core : Nat) : State :=
  dropCmds ((List.range 4).foldl (fun s t => partReads s (4 * core + t)) s) core fun _ => true
/-- Steps 1 to 4 of R391: a castle, drain or save in progress is abandoned. -/
def endCtx (s : State) (ctx : Nat) : State :=
  let cores := coresOf s ctx
  let s := cores.foldl dropAccesses s
  let s := { s with clusters := s.clusters.map fun e => (e.1, endInCluster ctx e.2),
                    packets := s.packets.filter fun p => p.ctx != ctx, services := s.services.filter fun x => x.ctx != ctx,
                    waiting := s.waiting.filter fun w => fieldOf w.fid 32 8 != ctx,
                    conns := s.conns.map fun e => (e.1, if e.2.ctx == ctx then { e.2 with live := false } else e.2) }
  let s := dropOwned s (.ctx ctx)
  let s := cores.foldl unbindCore s
  let fwd := fun (c : CoreSt) => { c with fwd := c.fwd.filter fun e => e.1 / 2 ^ 64 != ctx }
  let s := { s with core := fwd s.core, cores := s.cores.map fun e => (e.1, fwd e.2) }
  let s := onPart s (getCtx s ctx).part fun p =>
    endJobsOf ctx { p with chosen := p.chosen.filter fun x => !cores.contains x.1 && !cores.contains x.2 }
  onCtx s ctx fun c =>
    { c with created := false, kvalid := 0, keys := Vector.replicate 8 0, saved := none, launches := [], levels := [], conts := [],
             cancels := [], placement := [], draining := false, answers := [] }
/-- The end of a context, with its message to the supervisor core; the host's interrupt goes with that record, once (R391, R398; log 76). -/
def endContext (s : State) (ctx cluster : Nat) : State :=
  if !(getCtx s ctx).created then s
  else
    let f := newFault s ctx 7 0 cluster
    let e := raiseEvent f.2 ctx none
    let s := endCtx e.2 ctx
    sendRecord s ctx f.1 0 0 (BitVec.ofNat 64 (cECCUNC + 256)) e.1
/-- Created contexts of a partition, ascending (R352). -/
def ctxsOf (s : State) (p : Nat) : List Nat := (s.ctxs.filter fun e => e.2.created && e.2.part == p).map (·.1)
/-- Every context of a partition ends, and its partition lines go (R366, R391). -/
def endContexts (s : State) (p : Nat) : State := dropOwned ((ctxsOf s p).foldl endCtx s) (.part p)
/-- The end of a partition: the hypervisor alone is told (R391, R398). -/
def endPartition (s : State) (p : Nat) : State :=
  let s := endContexts s p
  setPart s p { Partition.init with msix := (getPart s p).msix ++ [2] }
/-- A device reset (R389, R406): HBM and the host's memory keep their bytes, and the management path tells the host. -/
def deviceReset (s : State) : State :=
  let s := s.lines.foldl (fun s e => dropNoWriteBack s e.1) s
  { State.reset with mem := s.mem, memKey := s.memKey, host := s.host, corrected := s.corrected, macsecDrops := s.macsecDrops,
                     retransmits := s.retransmits, hostOut := s.hostOut, mgmtOut := s.mgmtOut ++ [0], agenda := s.agenda,
                     keyNum := s.keyNum, steps := s.steps }
def endOwner (s : State) (cluster : Nat) (o : Owner) : State := match o with
  | .device => deviceReset s
  | .part p => if (getPart s p).created then endPartition s p else s
  | .ctx c => endContext s c cluster

/-- CORRECTABLE_ERROR (R388): corrected and counted. -/
def execCorrectableError (_ : ErrLoc) (s : State) : Out := .next { s with corrected := s.corrected + 1 }
/-- SCRUB (R388, R408): it reads an array and writes it back as it stands. -/
def execScrub (_ : ErrLoc) (s : State) : Out := .next s
/-- UNCORRECTABLE_ERROR (R389). A line that a slice holds has its owner tag; one that is filled takes that of its fill, and a U copy's
line that of its grant (R390). -/
def execUncorrectableError (loc : ErrLoc) (s : State) : Out := .next (match loc with
  | .l1 core addr => onCore s core fun c => { c with l1 := amDel c.l1 (addr / 64) }
  | .slice addr =>
    let l := addr / 256
    if bitOf (getLine s l).dirty.toNat (addr / 64 % 4) then endOwner s (homeOf addr) (lineOwner s l) else s
  | .ucopy k l => (match amFind (getClu s k).ucopies l with
    | some u => endOwner s k (fillOwner s u.ctx u.slot (l * 256))
    | none => s)
  | .hbm ctx slot addr =>
    let ln := getLine s (addr / 256)
    endOwner s (homeOf addr) (if lineHere ln || ln.buffered then lineOwner s (addr / 256) else fillOwner s ctx slot addr)
  | .core core => match (getCore s core).ctx with
    | some c => endContext s c (cluOf core)
    | none => s
  | .command ctx => endContext s ctx 0
  | .rigBank _ _ => s
  | .clusterTlb cluster va => onClu s cluster fun c => { c with tlb := c.tlb.filter fun e => va / 2 ^ e.bits * 2 ^ e.bits != e.va }
  | .device => deviceReset s)

/-! ### The drain (R293, R385) -/

/-- A castle that has been chosen moves a core of the context (R346). -/
def castleOf (s : State) (ctx : Nat) : Bool := (coresOf s ctx).any (castling s)
/-- Step 1 of R385, the return of migrated commands, each at the end of its unit, and the parking of rays (R214). -/
def startDrain (s : State) (ctx : Nat) : State :=
  let s := (coresOf s ctx).foldl (fun s c => comeHome c s) (onCtx s ctx fun c => { c with draining := true })
  let park := fun (r : Ray) => if r.ctx == ctx && r.st == .run then { r with parked := true } else r
  { s with clusters := s.clusters.map fun e => (e.1, { e.2 with rays := e.2.rays.map fun x => (x.1, park x.2) }) }
/-- A copy or gather stands at a split point, or is parked at the element that a fault or a full queue register stops (R383, R385;
log 74). -/
def parkedCopy (s : State) (c : Copy) : Bool := !midGroup c || c.fault.isSome || queueWaits s c
/-- No access of a thread set is outstanding, and an `end` that has issued with its pair waits at most for parked commands (R385). -/
def quietSet (s : State) (g : Nat) : Bool :=
  let f := focus s g
  haltQuiet f && !f.th.halting && !(f.th.ending && allDone f && f.th.busy == 0)
/-- Steps 2 and 3 of R385 have ended: no access of a thread set is outstanding, and engines stand at split points. -/
def drained (s : State) (ctx : Nat) : Bool :=
  (getCtx s ctx).draining && !(s.packets.any fun p => p.ctx == ctx) && !castleOf s ctx &&
  s.clusters.all (fun e => e.2.cq.all fun c => c.ctx != ctx || parkedCopy s c) &&
  (coresOf s ctx).all fun c => (List.range 4).all fun t => quietSet s (4 * c + t)
/-- The drain is complete (R385): U copies merge, and what follows comes after the context's accesses (R293). -/
def finishDrain (s : State) (ctx : Nat) : State :=
  let s := (((coresOf s ctx).map cluOf).eraseDups).foldl mergeAllU s
  let pts := (coresOf s ctx).foldl (fun m c => (List.range 4).foldl (fun m t => max m (threadAt s (4 * c + t)).pts) m) 0
  { s with released := max s.released (max pts (timeOn s allPaths)) }
/-- CONTEXT_DRAIN: the drain of a context begins, once no castle moves its cores (R346, R385). -/
def evContextDrain (ctx : Nat) (s : State) : Option State :=
  let c := getCtx s ctx
  if !c.created || c.draining || castleOf s ctx then none else some (startDrain s ctx)
def execContextDrain (ctx : Nat) (s : State) : Out := .next ((evContextDrain ctx s).getD s)

/-! ### Answers to fault messages (R380, R381, R383) -/

/-- A completion notice to the core of the faulting thread set (R381). -/
def sendNotice (s : State) (w : Waiting) (status : Nat) : State :=
  sendService s (fieldOf w.fid 32 8) (coreNo w.g) (of64 [w.fid, BitVec.ofNat 64 status, w.va])
/-- State of a thread set that runs its work. -/
def workState (t : Thread) : TsState := if t.act.isSome then .activation else .task
/-- The blocked thread set goes on: a halted one stays halted. -/
def unblock (t : Thread) : Thread := { t with fault := none, st := if t.st == .blocked then workState t else t.st }
/-- The original cause as a precise trap of thread set `g` (R381). -/
def abortBlocked (s : State) (w : Waiting) : State :=
  let me := s.here
  let s := withTh (focus s w.g) fun t => { unblock t with ipc := t.pc, slot1 := t.solo, inPair := false }
  focus (takeTrap s { trapAcc w.cause w.va w.acc with xfer := s.th.xfer }) me
/-- The engine that waits with a fault acts on the answer: 0 retry, 1 abort, 2 discard (R383). -/
def engineAnswer (s : State) (w : Waiting) (act : Nat) : State :=
  let discard := act = 2 && bitOf w.acc.toNat 4
  let ctx := fieldOf w.fid 32 8
  match fieldOf w.fid 16 3 with
  | 3 => match faultedCmd s w with
    | some (core, c) => if act = 0 || discard then matrixAnswer s core c discard else endContext s ctx (cluOf core)
    | none => s
  | 4 => match faultedRay s w.fid, (getCtx s ctx).launches.find? fun e => e.2.logFault.any fun f => f.1 == w.fid with
    | some (k, n), _ => if act = 0 || discard then rayAnswer s k n discard else endContext s ctx k
    | none, some e => if act = 0 || discard then commitAnswer s ctx e.1 discard else endContext s ctx (fieldOf w.fid 0 9)
    | none, none => s
  | _ => match (getClu s (fieldOf w.fid 0 9)).cq.find? fun c => c.fault == some w.fid with
    | some c => copyAnswer s (fieldOf w.fid 0 9) c w act
    | none => s
/-- The answer to the fault with an id acts: a thread set's (unit 0) or an engine's. -/
def answer (fid : W64) (act : Nat) (s : State) : Option State := match s.waiting.find? fun w => w.fid == fid with
  | none => none
  | some w =>
    let s := { s with waiting := s.waiting.filter fun x => x.fid != fid }
    let blocked := match (threadAt s w.g).fault with
      | some f => f.fid == fid
      | none => false
    some (if fieldOf fid 16 3 ≠ 0 then engineAnswer s w act
      else if !blocked then sendNotice s w (if act = 0 then 0 else w.cause)
      else if act = 0 then onThread s w.g unblock else abortBlocked s w)
/-- The answer to the fault with an id: while the work's context is drained or saved it waits for the restore (R385). -/
def evFres (fid : W64) (act : Nat) (s : State) : Option State :=
  let ctx := fieldOf fid 32 8
  if (getCtx s ctx).draining then
    (if s.waiting.any (fun w => w.fid == fid) && !(getCtx s ctx).answers.any (fun a => a.1 == fid) then
      some (onCtx s ctx fun c => { c with answers := c.answers ++ [(fid, act)] })
    else none)
  else answer fid act s
def execFresRetry (fid : W64) (s : State) : Out := .next ((evFres fid 0 s).getD s)
def execFresAbort (fid : W64) (s : State) : Out := .next ((evFres fid 1 s).getD s)
def execFresDiscard (fid : W64) (s : State) : Out := .next ((evFres fid 2 s).getD s)
/-- The answers that came while a context was drained or saved take effect (R385). -/
def answerAll (ctx : Nat) (s : State) : State :=
  (getCtx s ctx).answers.foldl (fun s a => (answer a.1 a.2 s).getD s) (onCtx s ctx fun c => { c with answers := [] })

/-! ### Save and restore (R370, R371) -/

/-- Every byte of a physical area lies in the partition. -/
def areaIn (s : State) (part base len : Nat) : Bool :=
  len = 0 || (List.range ((base % 2 ^ 30 + len + (2 ^ 30 - 1)) / 2 ^ 30)).all fun i =>
    liesIn s part (base + i * 2 ^ 30 - (if i = 0 then 0 else base % 2 ^ 30))
/-- Sectors of an area as the device stores them: encrypted at home, and encrypted by the device in host memory too (R370; log 76). -/
def areaWrite (s : State) (ctx base : Nat) (b : List Byte) : State :=
  if base < hostBase then (homeWrite s ctx (8 * ctx) .C 0 (atAddr base b)).2
  else
    let enc := fun (i : Nat) =>
      let sec := base / 64 + i
      (64 * sec, toBytes 64 (Config.xts (keyOf s (8 * ctx)) sec (BitVec.ofNat 512 (ofBytes ((b.drop (64 * i)).take 64)))).toNat)
    { s with host := ((List.range (b.length / 64)).map enc).foldl (fun h e => memSetAll h (atAddr e.1 e.2)) s.host }
/-- Bytes of an area under the context's key slot 0. -/
def areaRead (s : State) (ctx base n : Nat) : Nat × State :=
  if base < hostBase then let r := homeRead s ctx (8 * ctx) base n; (ofBytes r.1, r.2)
  else
    let dec := fun (i : Nat) =>
      let sec := base / 64 + i
      toBytes 64 ((Config.xts (keyOf s (8 * ctx)) sec).symm (BitVec.ofNat 512 (ofBytes (memRead s.host (64 * sec) 64)))).toNat
    (ofBytes ((List.range (n / 64)).flatMap dec), s)
/-- Items 1 and 2 of R370: the context that a register names. One that is not created lies in no partition, and item 3 speaks of it
(log 76). -/
def ctxE (s : State) (v : W64) : Except Stop Nat := do
  require (decide (v.toNat < 256)) cENGINE 0
  require (!(getCtx s v.toNat).created || (getCtx s v.toNat).part == myPart s) cPERM 0
  .ok v.toNat
/-- Header of a save area (R370). -/
def saveHeader (ctx : Nat) (gen : W64) (cores : List Nat) : List Byte :=
  toBytes 8192 (ctx + gen.toNat * 2 ^ 64 + cores.length * 2 ^ 128 + cores.foldr (fun c acc => c % 2 ^ 16 + 2 ^ 16 * acc) 0 * 2 ^ 512)
/-- A record of a save area (R386). -/
def saveRecord (s : State) (ctx core : Nat) : List Byte :=
  let r := coreRecord s core
  (List.range 1048576).map (recordByte s ctx core r)
/-- A core as a save keeps it. -/
def keptCore (s : State) (core : Nat) : Nat × CoreSt :=
  let c := getCore s core
  (core, { c with threads := Vector.ofFn fun t : Fin 4 => threadAt s (4 * core + t.val), l1 := [], tlb := [] })
/-- The area is written under the context's key slot 0, and its cores are unbound; a ring set that holds a record stays (R313, R370). -/
def saveCtx (s : State) (ctx base : Nat) : State :=
  let cores := coresOf s ctx
  let gen := (getCtx s ctx).savgen + 1
  let kept := cores.map (keptCore s)
  let recs := cores.map (saveRecord s ctx)
  let s := areaWrite s ctx base (saveHeader ctx gen cores)
  let s := (List.range recs.length).foldl (fun s i => areaWrite s ctx (base + 8192 + 1048576 * i) (recs.getD i [])) s
  let s := (cores.map cluOf).eraseDups.foldl (fun s k => settleRings s k ctx) (cores.foldl unbindCore s)
  onCtx s ctx fun c => { c with savgen := gen, saved := some kept }
/-- `ctxsv` (R370): the first issue that passes the checks begins the drain. -/
def execCtxsv (o : S4) (s : State) : Out := .next
  (bit0Form s o.p (do
    require (supMode s) cILLEGAL 0
    let ctx ← ctxE s (getS s o.a)
    let base := getS s o.b
    let n := (coresOf s ctx).length
    require (ctx != myCtx s && (getCtx s ctx).created && (getCtx s ctx).saved.isNone) cENGINE 0
    require (base.toNat % 4096 == 0) cMISALIGN base
    require (areaIn s (myPart s) base.toNat (getS s o.c).toNat) cPERM base
    require (decide (8192 + 1048576 * n ≤ (getS s o.c).toNat)) cENGINE 0
    if drained s ctx then .ok (setS (saveCtx (finishDrain s ctx) ctx base.toNat) o.d (BitVec.ofNat 64 n))
    else match evContextDrain ctx s with
      | some s' => .ok (withTh s' fun t => { t with res := .begun })
      | none => .error .stall))

/-- The kept cores are bound again, each with its record loaded, and the context's work goes on after an acquire (R293, R371). -/
def restoreCtx (s : State) (ctx base : Nat) (kept : List (Nat × CoreSt)) : State :=
  let s := (kept.zipIdx).foldl (fun s x =>
    let w := areaRead s ctx (base + 8192 + 1048576 * x.2) 1048576
    let k := loadCore w.1 x.1.2
    let old := (List.range 4).map fun t => (threadAt w.2 (4 * x.1.1 + t)).pts
    let ths := Vector.ofFn fun t : Fin 4 =>
      let th := slotOf k t.val
      { th with pts := max w.2.released (max th.pts (old.getD t.val 0)) }
    onCore (openRings w.2 (cluOf x.1.1) ctx) x.1.1 fun c =>
      { k with threads := ths, cap := c.cap, gated := c.gated, castled := c.castled, fwd := c.fwd, ptime := max c.ptime k.ptime }) s
  let wake := fun (r : Ray) => if r.ctx == ctx then { r with parked := false } else r
  let s := { s with clusters := s.clusters.map fun e => (e.1, { e.2 with rays := e.2.rays.map fun x => (x.1, wake x.2) }) }
  onCtx (fenceOff s allPaths s.released) ctx fun c => { c with saved := none, draining := false }
/-- `ctxrs` (R371); it waits while a cluster has no ring set for the context (R313). -/
def execCtxrs (o : S3) (s : State) : Out := .next
  (bit0Form s o.p (do
    require (supMode s) cILLEGAL 0
    let ctx ← ctxE s (getS s o.a)
    let base := getS s o.b
    let saved := (getCtx s ctx).saved
    let n := (saved.getD []).length
    require (base.toNat % 4096 == 0) cMISALIGN base
    require (areaIn s (myPart s) base.toNat (8192 + 1048576 * n)) cPERM base
    match saved with
    | none => trapE cENGINE 0
    | some kept =>
      let h := areaRead s ctx base.toNat 8192
      let w := h.1
      let same := bitsOf w 0 64 == ctx && bitsOf w 64 64 == (getCtx s ctx).savgen.toNat && bitsOf w 128 64 == n
      let cores := (List.range n).map fun i => bitsOf w (512 + 16 * i) 16
      let free := kept.all fun e => (getCore s e.1).ctx.isNone
      require (same && cores == kept.map (·.1) && free) cENGINE 0
      ready (kept.all fun e => ringsFree s (cluOf e.1) ctx)
      .ok (answerAll ctx (setS (restoreCtx h.2 ctx base.toNat kept) o.d (BitVec.ofNat 64 n)))))

/-! ### Debug (R393 to R396) -/

/-- DCMD_HALT: at an instruction boundary, and not inside a pair (R393); discarded for an idle thread set, and one that is halted or
stopped is so already (R396). -/
def evHalt (g : Nat) (s : State) : Option State :=
  if (threadAt s g).ending || (threadAt s g).halting then none
  else match (threadAt s g).st with
  | .task | .activation | .blocked =>
    let me := s.here
    let s := focus s g
    some (focus (enterHalt s s.th.pc s.th.solo s.th.ptgt) me)
  | _ => none
/-- A halted or stopped thread set goes on at its program counter; one that a fault had blocked blocks again. -/
def resumed (s : State) (t : Thread) (step : Bool) : Thread :=
  let waits := match t.fault with
    | some f => s.waiting.any fun w => w.fid == f.fid
    | none => false
  { t with st := if waits then .blocked else workState t, fault := if waits then t.fault else none, dstep := step, yields := [] }
/-- DCMD_RESUME and DCMD_STEP (R396); the resumption of a halted thread set acts as an acquire (R293). -/
def evResume (step : Bool) (g : Nat) (s : State) : Option State :=
  let t := threadAt s g
  if debuggable t then
    let s' := if t.st == .halted then focus (acquire (focus s g)) s.here else s
    some (onThread s' g fun t => resumed s t step)
  else none
def execDcmdHalt (g : Nat) (s : State) : Out := .next ((evHalt g s).getD s)
def execDcmdResume (g : Nat) (s : State) : Out := .next ((evResume false g s).getD s)
def execDcmdStep (g : Nat) (s : State) : Out := .next ((evResume true g s).getD s)

/-- Lanes of a word over old register fields: `n` fields of `w` bits that begin at field `i`. -/
def debugRow {α : Type} (n w : Nat) (i : Nat) (v : W64) (put : α → Nat → Nat → α) (x : α) : α :=
  (List.range n).foldl (fun x j => put x (i + j) (fieldOf v (w * j) w)) x
def putP (r : Regs) (i x : Nat) : Regs := if h : i < 8 then (if i = 0 then r else { r with p := r.p.set i (BitVec.ofNat 16 x) h }) else r
def putX (r : Regs) (i x : Nat) : Regs := if h : i < 8 then { r with x := r.x.set i (BitVec.ofNat 32 x) h } else r
/-- Eight bytes of a vector register. -/
def putV8 (r : Regs) (i k : Nat) (x : W64) : Regs :=
  if h : i < 32 then
    let v := r.v[i]
    { r with v := r.v.set i (ofElems 64 ((List.range 8).map fun j => if j = k then x.toNat else elem 64 v j)) h }
  else r
/-- Numbers of the RW and W* special registers in the order of R387, bytes 432 to 511. -/
def blockSpecs : List Nat := [0x004, 0x008, 0x00B, 0x00C, 0x00D, 0x00E, 0x00F, 0x010, 0x011, 0x012]
/-- A write at an offset of the thread-set block (R396). -/
def blockWrite (c : CoreSt) (t : Thread) (off : Nat) (v : W64) : Thread :=
  if off = 0 then { t with pc := v }
  else if 136 ≤ off ∧ off < 384 then { t with rf := rfSetS t.rf ((off - 128) / 8) v }
  else if 384 ≤ off ∧ off < 400 then { t with rf := debugRow 4 16 ((off - 384) / 2) v putP t.rf }
  else if 400 ≤ off ∧ off < 432 then { t with rf := debugRow 2 32 ((off - 400) / 4) v putX t.rf }
  else if 432 ≤ off ∧ off < 512 then { t with rf := writeSpecRf c t.rf (blockSpecs.getD ((off - 432) / 8) 0) v }
  else if 1024 ≤ off ∧ off < 3072 then { t with rf := putV8 t.rf ((off - 1024) / 64) ((off - 1024) / 8 % 8) v }
  else t
/-- DDATA_WRITE (R396): discarded unless the thread set is halted or stopped. -/
def evDdata (g : Nat) (pool : Bool) (off : Nat) (v : W64) (s : State) : Option State :=
  let c := getCore s (coreNo g)
  if !debuggable (threadAt s g) || off % 8 != 0 then none
  else if pool then
    (if debugPoolOk c off then some (onCore s (coreNo g) fun c => { c with pool := poolPutAll c.pool (atAddr off (toBytes 8 v.toNat)) })
    else none)
  else some (onThread s g fun t => blockWrite c t off v)
def execDdataWrite (g : Nat) (pool : Bool) (off : Nat) (v : W64) (s : State) : Out := .next ((evDdata g pool off v s).getD s)
/-- FFBASE_WRITE (R123, R124): HA clears even when the value is discarded. -/
def execFfbaseWrite (g : Nat) (v : W64) (s : State) : Out := .next
  (onThread s g fun t => { t with rf := writeSpecRf (getCore s (coreNo g)) t.rf 0x012 v })

end Machine
end Sys2Proof
end

