-- ==== Sys2Proof/Machine/Castle.lean ====
section
/-!
DEFINITION. Castle: swap instants, the exchange of two cores' residents, placements and forwarding (R335 to R346).
-/
namespace Sys2Proof
namespace Machine

/-- Fields of the castling control word (R339). -/
def cwLog (w : W64) : Nat := fieldOf w 0 5
def cwRel (w : W64) : Nat := fieldOf w 8 4
def cwAbs (w : W64) : Nat := fieldOf w 32 32
def cwOn (w : W64) : Bool := bitOf w.toNat 31
/-- CASTLING_CONTROL_WORD_WRITE: it takes effect at the next swap instant. -/
def execCastlingControlWordWrite (part : Nat) (w : W64) (s : State) : Out := .next
  (if fieldOf w 12 19 ≠ 0 || fieldOf w 5 3 ≠ 0 || cwLog w < 16 || 26 < cwLog w || !(getPart s part).created then s
  else onPart s part fun p => { p with cpending := some w })

/-- The core that a core of lower column or row is paired with in a pattern (R340). -/
def partner (e core : Nat) : Option Nat :=
  let k := cluOf core
  let c := colOf k
  let r := rowOf k
  match e % 4 with
  | 0 => if c % 2 = 0 then some (core + 8) else none
  | 1 => if c % 2 = 1 ∧ c ≤ 21 then some (core + 8) else none
  | 2 => if r % 2 = 0 then some (core + 8 * 24) else none
  | _ => if r % 2 = 1 ∧ r ≤ 9 then some (core + 8 * 24) else none
/-- Bytes that a set of spans covers, each once. -/
def spanUnion (l : List (Nat × Nat)) : List (Nat × Nat) :=
  (sortBy (fun a b => decide (a.1 ≤ b.1)) (l.filter fun e => e.1 < e.2)).foldl (fun acc e => match acc with
    | x :: rest => if e.1 ≤ x.2 then (x.1, max x.2 e.2) :: rest else e :: acc
    | [] => [e]) []
def spansOf (l : List Resident) : List (Nat × Nat) := spanUnion (l.map fun r => (r.spanLo, r.spanLo + r.spanLen))
/-- Queue registers of a core that are bound to a class of some resident. -/
def residQueues (c : CoreSt) : List Nat := (List.range 8).filter fun i => match c.binds.toList[i]? with
  | some b => b.bound && c.resid.any fun r => r.hasClass b.cls
  | none => false
/-- A moved class and a non-resident binding that stays would meet in one queue register (R341 item 6). -/
def bindsClash (x y : CoreSt) : Bool := (residQueues x).any fun i => match y.binds.toList[i]? with
  | some b => b.bound && !(y.resid.any fun r => r.hasClass b.cls)
  | none => false
/-- Items 1 to 4 of R341: the residents of such a pair are held while the choice is made. -/
def pairHeld (s : State) (p : Partition) (a b : Nat) : Bool :=
  let x := getCore s a
  let y := getCore s b
  let ctx := x.ctx.getD 0
  let named := fun (r : Resident) (o : Nat) =>
    let l := getLaunch s ctx r.lid
    (namedCores l).contains o && boundFor s ctx l o
  cwOn p.cword && inRect p (cluOf a) && inRect p (cluOf b) && x.ctx.isSome && x.ctx == y.ctx && x.pword == y.pword
    && !(x.resid.isEmpty && y.resid.isEmpty) && x.resid.all (named · b) && y.resid.all (named · a)
    && (x.resid.all fun r => residFree s a r && !r.pin) && (y.resid.all fun r => residFree s b r && !r.pin)
/-- Items 5 to 8 of R341. -/
def pairEligible (s : State) (p : Partition) (a b : Nat) : Bool :=
  let x := getCore s a
  let y := getCore s b
  let halted := fun (c : Nat) => (List.range 4).any fun t => (threadAt s (4 * c + t)).st == .halted || (threadAt s (4 * c + t)).halting
  pairHeld s p a b && decide (((spansOf (x.resid ++ y.resid)).map fun e => e.2 - e.1).sum ≤ 32768)
    && !bindsClash x y && !bindsClash y x && !(getCtx s (x.ctx.getD 0)).draining && !halted a && !halted b
    && !x.castled && !y.castled && !p.guard.any fun g => g.1 == a && g.2.1 == b
/-- The cost of R342 with the cores as they stand, or exchanged. -/
def trafficCost (s : State) (ctx a b : Nat) (swap : Bool) : Nat :=
  let place := (getCtx s ctx).placement
  let at_ := fun (c : Nat) => if swap then (if c = a then b else if c = b then a else c) else c
  let one := fun (c : Nat) (r : Resident) => (r.traffic.map fun e =>
    match amFind place e.1 with
    | some d => e.2 * hopDist (cluOf (at_ c)) (cluOf (at_ d))
    | none => 0).sum
  ((getCore s a).resid.map (one a)).sum + ((getCore s b).resid.map (one b)).sum
/-- A candidate of R342 with its exact difference. -/
def candidate (s : State) (p : Partition) (a b : Nat) : Option Int :=
  let ctx := (getCore s a).ctx.getD 0
  let before := trafficCost s ctx a b false
  let d : Int := (trafficCost s ctx a b true : Int) - (before : Int)
  if pairEligible s p a b && decide (d < -((max (cwAbs p.cword) (before / 2 ^ cwRel p.cword) : Nat) : Int)) then some d else none
/-- Halving of a resident's counters (R338). -/
def halved (r : Resident) : Resident := { r with traffic := r.traffic.map fun e => (e.1, e.2 / 2) }
/-- What a swap instant does to a core of the partition apart from the choice: counters halve, and forwarding entries age. -/
def instantCore (chosen : List (Nat × Nat)) (core : Nat) (c : CoreSt) : CoreSt :=
  let mine := chosen.any fun x => x.1 == core || x.2 == core
  { c with resid := c.resid.map halved, castled := mine, held := mine, fwd := c.fwd.map fun e => (e.1, e.2.1, e.2.2 - 1) }
/-- SWAP_INSTANT: the next epoch boundary that the cycle count has reached (R340 to R342). -/
def evSwap (part : Nat) (s : State) : Option State :=
  let p := getPart s part
  let was := cwLog p.cword
  if !p.created || s.cycle.toNat / 2 ^ was ≤ p.epoch || !p.chosen.isEmpty then none
  else
    let w := p.cpending.getD p.cword
    let e := (p.epoch + 1) * 2 ^ was / 2 ^ cwLog w
    let p := { p with cword := w, cpending := none, epoch := e }
    let cores := (rectClusters p).flatMap fun k => (List.range 8).map (8 * k + ·)
    let pairs := cores.filterMap fun a => (partner e a).map fun b => (a, b)
    let cands := pairs.filterMap fun x => (candidate s p x.1 x.2).map fun d => (d, x)
    let ranked := (sortBy (fun x y => decide (x.1 < y.1) || (x.1 == y.1 && decide (x.2.1 ≤ y.2.1))) cands).map (·.2)
    let chosen := ranked.take ((rectClusters p).length / 2)
    let aged := p.guard.filterMap fun g =>
      if pairs.contains (g.1, g.2.1) then (if g.2.2 ≤ 1 then none else some (g.1, g.2.1, g.2.2 - 1)) else some g
    let s := setPart s part { p with chosen := chosen, guard := aged ++ chosen.map fun x => (x.1, x.2, 3) }
    let core := fun (k : Nat) (c : CoreSt) => if inRect p (cluOf k) then instantCore chosen k c else c
    some { s with core := core (myCore s) s.core, cores := s.cores.map fun e => (e.1, core e.1 e.2) }
def execSwapInstant (part : Nat) (s : State) : Out := .next ((evSwap part s).getD s)

/-- Bytes of spans exchanged between two pools (R343 step 2). -/
def swapBytes (spans : List (Nat × Nat)) (a b : AMap V512) : AMap V512 :=
  spans.foldl (fun a e => poolPutAll a (atAddr e.1 (poolBytesAt b e.1 (e.2 - e.1)))) a
/-- Bindings and entries that a core has after the exchange (R343 step 3). -/
def swapQueues (qs : List Nat) (x y : CoreSt) : CoreSt := qs.foldl (fun c i =>
  if h : i < 8 then { qSet c i (qOf y i) with binds := (qSet c i (qOf y i)).binds.set i y.binds[i] h } else c) x
/-- A core after the exchange: the other's residents come, and its own leave forwarding entries (R343 steps 2 to 4). -/
def swapCore (ctx : Nat) (spans : List (Nat × Nat)) (qs : List Nat) (dst : Nat) (x y : CoreSt) : CoreSt :=
  let gone := x.resid.map fun r => fwdKey ctx r.id
  let come := y.resid.map fun r => fwdKey ctx r.id
  let fwd := gone.foldl (fun m k => amSet m k (dst, 2)) (x.fwd.filter fun e => !come.contains e.1)
  { swapQueues qs x y with pool := swapBytes spans x.pool y.pool, ptime := max x.ptime y.ptime, resid := y.resid, fwd := fwd,
                           held := false }
/-- A core's thread sets after an acquire at a castle (R346; log 73). -/
def castleAcquire (core : Nat) (s : State) : State :=
  onCore ((List.range 4).foldl (fun s t => onThread s (4 * core + t) fun th => { th with pts := max th.pts s.released }) s) core markLeased
/-- CASTLE: the first chosen pair of a partition exchanges its residents (R343, R346). The release of R346 is that of each activation's
`end`; the cores that take the residents acquire. -/
def evCastle (part : Nat) (s : State) : Option State := match (getPart s part).chosen with
  | [] => none
  | (a, b) :: rest =>
    let x := getCore s a
    let y := getCore s b
    let ctx := x.ctx.getD 0
    let spans := spansOf (x.resid ++ y.resid)
    let qs := (residQueues x ++ residQueues y).eraseDups
    let s := setCore (setCore s a (swapCore ctx spans qs b x y)) b (swapCore ctx spans qs a y x)
    let put := fun (m : AMap Nat) (r : Resident) (core : Nat) => amSet m (instKey r.id) core
    let s := onCtx s ctx fun c =>
      { c with placement := y.resid.foldl (fun m r => put m r a) (x.resid.foldl (fun m r => put m r b) c.placement) }
    some (castleAcquire b (castleAcquire a (onPart s part fun p => { p with chosen := rest })))
def execCastle (part : Nat) (s : State) : Out := .next ((evCastle part s).getD s)

/-- PLACEMENT_UPDATE: a core takes the context's placements; writes to a moved instance that are not acknowledged hold the next one
back (R343, R345). -/
def evPlacement (core : Nat) (s : State) : Option State := match (getCore s core).ctx with
  | none => none
  | some ctx =>
    let c := getCore s core
    let place := (getCtx s ctx).placement
    if c.pcache == place then none
    else
      let moved := fun (d : PDst) => match d.inst with
        | some i => cachedPlace c i d.named != amGet d.named place (instKey i)
        | none => false
      let mark := fun (p : Packet) =>
        if coreNo p.g = core then { p with dsts := p.dsts.map fun d => { d with old := d.old || moved d } } else p
      some (onCore { s with packets := s.packets.map mark } core fun c => { c with pcache := place })
def execPlacementUpdate (core : Nat) (s : State) : Out := .next ((evPlacement core s).getD s)
/-- FORWARDING_EXPIRY: entries whose next epoch has ended lapse (R343). -/
def evExpiry (core : Nat) (s : State) : Option State :=
  let c := getCore s core
  if c.fwd.any fun e => e.2.2 == 0 then some (onCore s core fun c => { c with fwd := c.fwd.filter fun e => e.2.2 != 0 }) else none
def execForwardingExpiry (core : Nat) (s : State) : Out := .next ((evExpiry core s).getD s)

end Machine
end Sys2Proof
end

