-- ==== Sys2Proof/Machine/Platform.lean ====
section
/-!
DEFINITION. Platform: boot, the hypervisor's assignments, the host link, scale-out, management, monitors and background work
(R23, R258, R349 to R352, R362, R365, R366, R377, R384, R397 to R408).
-/
namespace Sys2Proof
namespace Machine

/-! ### Boot and management (R365, R366, R392, R404 to R408) -/

/-- What the management path reports when boot has failed. -/
def bootReport : BitVec 512 := 1
/-- Indexes of the measurements that a step of boot takes (R405). -/
def bootIndex (step i : Nat) : Bool := match step with
  | 1 => i == 1
  | 2 => i == 2
  | 4 => i == 3
  | 5 => decide (16 ≤ i ∧ i < 32)
  | _ => false
/-- The step of boot that comes next; none once boot has ended (R405). -/
def bootNext (b : BootStage) : Option Nat := match b with
  | .off => some 1
  | .step n => some (n + 1)
  | _ => none
/-- BOOT (R392, R405): the next step of boot. One that fails stops it, and what the earlier ones measured stays. `meas` gives the step's
measurements by index, and `caps`, for step 3, the cores of which a granule from 0 to 3 failed, with the lowest such granule (log 65).
Index 4 is the configuration's, as it stands when it is asked for (R365). -/
def execBoot (ok : Bool) (caps : List (Nat × Nat)) (meas : List (Nat × BitVec 256)) (s : State) : Out := .next
  (match bootNext s.boot with
  | none => s
  | some n =>
    if !ok then { s with boot := .failed, mgmtOut := s.mgmtOut ++ [bootReport] }
    else
      let s := if n = 3 then caps.foldl (fun s e => onCore s e.1 fun c => { c with cap := if e.2 < 4 then 64 * e.2 else 256 }) s else s
      { s with boot := if n < 5 then .step n else .up,
               meas := (meas.filter fun e => bootIndex n e.1).foldl (fun m e => amSet m e.1 e.2) s.meas })
/-- A configuration read of a virtual function returns Configuration Request Retry Status (R405). -/
def configRetry (s : State) : Bool := s.boot != .up
/-- The hypervisor runs: it creates the partitions in the last step of boot, and later (R405). -/
def hypervisorUp (s : State) : Bool := s.boot == .step 4 || s.boot == .up
/-- THERMAL_TRIP (R406): every partition ends, and the device resets. -/
def execThermalTrip (s : State) : Out := .next
  (deviceReset (((s.parts.filter fun e => e.2.created).map (·.1)).foldl endPartition s))
/-- Digest of the hypervisor's configuration as it stands (R365). -/
def configNow (s : State) : BitVec 256 :=
  let rect := s.parts.flatMap fun e => [e.1, e.2.c0, e.2.c1, e.2.r0, e.2.r1] ++ e.2.prng.toList.map (·.toNat)
  let wins := s.windows.flatMap fun e => e.1 :: e.2.toList.map (·.toNat)
  let sems := s.clusters.flatMap fun e => e.2.sems.flatMap fun x => [e.1, x.1, x.2.1]
  Config.configDigest (rect ++ wins ++ sems)
/-- An interface is locked. -/
def anyLocked (s : State) : Bool := s.parts.any fun e => e.2.locked
/-- The measurement at an SPDM index (R365). While an interface is locked index 4 does not change (R366): it is that of the lock, though
another partition may be assigned anew (DESIGN CHOICE, log 76). -/
def measurement (s : State) (i : Nat) : Option (BitVec 256) :=
  if i = 4 then some (if anyLocked s then amGet 0 s.meas 4 else configNow s)
  else if 32 ≤ i ∧ i < 48 then
    some (BitVec.ofNat 256 (ofBytes (sha256 ((ctxsOf s (i - 32)).flatMap fun c => toBytes 32 (getCtx s c).rm.toNat))))
  else amFind s.meas i
/-- The answer of an SPDM error. -/
def spdmError : BitVec 512 := 2
/-- A signature in words of 512 bits. -/
def sigWords (x : BitVec 3072) : List (BitVec 512) := (List.range 6).map fun i => BitVec.ofNat 512 (bitsOf x.toNat (512 * i) 512)
/-- What the responder answers, or none where there is no such certificate slot or measurement (R366). -/
def spdmAnswer (s : State) (r : Spdm) : Option (List (BitVec 512)) := match r with
  | .certificate slot => if slot = 0 then some Config.certificates else none
  | .challenge nonce => some (sigWords (Config.challengeSig nonce))
  | .measurement i => (measurement s i).map fun m => BitVec.zeroExtend 512 m :: sigWords (Config.signature m i)
  | .keyExchange v => some [Config.keyExchange v s.sessions]
/-- SPDM_REQUEST (R366): the answer, or an error when the requester does not offer the algorithms. A key exchange opens a session. -/
def execSpdmRequest (req : Spdm) (hashOk sigOk : Bool) (s : State) : Out := .next
  (match (if hashOk && sigOk then spdmAnswer s req else none), req with
  | some l, .keyExchange _ => { s with mgmtOut := s.mgmtOut ++ l, sessions := s.sessions + 1 }
  | some l, _ => { s with mgmtOut := s.mgmtOut ++ l }
  | none, _ => { s with mgmtOut := s.mgmtOut ++ [spdmError] })
/-- A telemetry register: the counts of the model, the monitors from 16 up, and others that nothing fixes (log 11). -/
def telemetryValue (s : State) (reg : Nat) : W64 := match reg with
  | 0 => BitVec.ofNat 64 s.corrected
  | 1 => BitVec.ofNat 64 s.macsecDrops
  | 2 => BitVec.ofNat 64 s.retransmits
  | n => (amFind s.monitors (n - 16)).getD (Config.telemetry n)
def execTelemetryRead (reg : Nat) (s : State) : Out := .next
  { s with mgmtOut := s.mgmtOut ++ [BitVec.zeroExtend 512 (telemetryValue s reg)] }
/-- A sample lies on the other side of a threshold than the one before it (R407; log 65). -/
def crosses (old new : W64) (at_ : List W64) : Bool := at_.any fun x => old.ult x != new.ult x
/-- MONITOR_SAMPLE (R407): the hypervisor sets a monitor's thresholds, or a sample is taken, and one that crosses a threshold raises a
notice in the contexts that the hypervisor names, each with its bit. The first sample crosses none (log 65). -/
def execMonitorSample (monitor : Nat) (value : W64) (act : MonAct) (s : State) : Out := .next
  (if 288 ≤ monitor then s
  else match act with
    | .thresholds at_ ctxs => { s with monCfg := amSet s.monCfg monitor (at_, ctxs) }
    | .sample =>
      let t := { s with monitors := amSet s.monitors monitor value }
      match amFind s.monitors monitor, amFind s.monCfg monitor with
      | some old, some c =>
        if crosses old value c.1 then
          c.2.foldl (fun s e => if (getCtx s e.1).created then (raiseEvent s e.1 e.2).2 else s) t
        else t
      | _, _ => t)
/-- HBM_REFRESH and PHY_CALIBRATION (R408): they hold their windows and lanes, and nothing that a program sees. -/
def execHbmRefresh (_ : Nat) (s : State) : Out := .next s
def execPhyCalibration (_ : Nat) (s : State) : Out := .next s
/-- MACSEC_FRAME_DROP (R401). -/
def execMacsecFrameDrop (_ : Nat) (s : State) : Out := .next { s with macsecDrops := s.macsecDrops + 1 }
/-- SYSTEM_IMAGE_TIMER (R327). -/
def execSystemImageTimer (ctx bit : Nat) (s : State) : Out := .next
  (if (getCtx s ctx).created && decide (bit < 256) then (raiseEvent s ctx (some bit)).2 else s)
/-- CORE_POWER_GATING (R384): a core without work is gated, and its TLB and L1 empty. -/
def execCorePowerGating (core : Nat) (on : Bool) (s : State) : Out := .next
  (if !on then onCore s core fun c => { c with gated := false }
  else if (List.range 4).all fun t => (threadAt s (4 * core + t)).st == .idle then
    onCore s core fun c => { c with gated := true, tlb := [], l1 := [] }
  else s)

/-! ### Partitions, contexts and keys (R23, R258, R349 to R352, R362) -/

/-- No context of a partition has a bound core: the hypervisor may assign its resources (R349). -/
def noneBound (s : State) (p : Nat) : Bool := (getPart s p).created && (ctxsOf s p).all fun c => (coresOf s c).isEmpty
/-- The hypervisor may change a partition's ranges, windows and semaphores (R349, R366). -/
def mayAssign (s : State) (p : Nat) : Bool := noneBound s p && !(getPart s p).locked
/-- Two rectangles share a cluster. -/
def rectsMeet (p q : Partition) : Bool :=
  decide (p.c0 ≤ q.c1) && decide (q.c0 ≤ p.c1) && decide (p.r0 ≤ q.r1) && decide (q.r0 ≤ p.r1)
/-- PARTITION_CREATION (R349, R350, R352); its cores have castled at no swap instant of it (R341 item 8). -/
def evPartition (part c0 c1 r0 r1 sup supCore : Nat) (off : W64) (s : State) : Option State :=
  let p := { Partition.init with created := true, c0 := c0, c1 := c1, r0 := r0, r1 := r1, sup := sup, supCore := supCore,
                                 timerOff := off, epoch := s.cycle.toNat / 2 ^ 20, msix := (getPart s part).msix }
  let ok := hypervisorUp s && decide (part < 16) && !(getPart s part).created && decide (c0 ≤ c1 ∧ c1 < 24) && decide (r0 ≤ r1 ∧ r1 < 12)
    && decide (sup < 256) && inRect p (cluOf supCore) && !(getCtx s sup).created && !s.parts.any fun e => e.2.created && rectsMeet e.2 p
  let fresh := fun (k : Nat) (c : CoreSt) => if inRect p (cluOf k) then { c with castled := false } else c
  if ok then
    some { setPart s part p with core := fresh (myCore s) s.core, cores := s.cores.map fun e => (e.1, fresh e.1 e.2) }
  else none
def execPartitionCreation (part c0 c1 r0 r1 sup supCore : Nat) (timerOff : W64) (s : State) : Out :=
  .next ((evPartition part c0 c1 r0 r1 sup supCore timerOff s).getD s)
/-- Granules of a range register (R351). -/
def rangeOf (w : W64) : Nat × Nat := (fieldOf w 0 22, fieldOf w 32 22)
def rangeOn (w : W64) : Bool := bitOf w.toNat 63
/-- PARTITION_RANGE_WRITE (R351). -/
def evRange (part k : Nat) (w : W64) (s : State) : Option State :=
  let v : W64 := w &&& 0x803FFFFF003FFFFF
  let r := rangeOf v
  let empty := !rangeOn v || decide (r.2 ≤ r.1)
  let bad := !empty && decide (r.1 < 0x200000 ∧ 0x240 < r.2)
  let shared := !empty && s.parts.any fun e => e.1 != part && e.2.created && e.2.prng.toList.any fun x =>
    rangeOn x && decide ((rangeOf x).1 < r.2 ∧ r.1 < (rangeOf x).2)
  if h : k < 8 then
    (if mayAssign s part && !bad && !shared then some (onPart s part fun p => { p with prng := p.prng.set k v h }) else none)
  else none
def execPartitionRangeWrite (part k : Nat) (w : W64) (s : State) : Out := .next ((evRange part k w s).getD s)
/-- FORMAT_WINDOW_WRITE (R258, R349, R366): each register keeps its fields. A window that is disabled is no partition's. -/
def evWindow (ctl win reg : Nat) (w : W64) (s : State) : Option State :=
  let i := ctl * 16 + win
  let old := amGet (Vector.replicate 4 0) s.windows i
  let owner := fieldOf (old.toList.getD 0 0) 8 4
  let free := fun (p : Nat) => !(getPart s p).created || mayAssign s p
  let v : W64 := match reg with
    | 0 => w &&& 0xF0F
    | 3 => w &&& 0xFFFFFFFFFFFF8
    | _ => w &&& 0xFFFFFFFFFF000
  if h : reg < 4 then
    (if ctl < 12 && win < 16 && (free owner || fieldOf (old.toList.getD 0 0) 0 4 == 0) && (reg != 0 || free (fieldOf w 8 4)) then
      some { s with windows := amSet s.windows i (old.set reg v h) } else none)
  else none
def execFormatWindowWrite (controller window reg : Nat) (w : W64) (s : State) : Out :=
  .next ((evWindow controller window reg w s).getD s)
/-- SEMAPHORE_ASSIGN (R23): the value is set to 0. -/
def evSemAssign (k n ctx : Nat) (s : State) : Option State :=
  let p := (getCtx s ctx).part
  if (getCtx s ctx).created && mayAssign s p && inRect (getPart s p) k && decide (n < 64) then some (semPut s k n ctx 0) else none
def execSemaphoreAssign (cluster n ctx : Nat) (s : State) : Out := .next ((evSemAssign cluster n ctx s).getD s)
/-- A key slot is filled: a fresh private key, or another slot's key (R362). -/
def fillKey (s : State) (ctx k : Nat) (aliasOf : Option Nat) : State :=
  if h : k < 8 then
    (match aliasOf with
    | some x =>
      if slotValid s x then onCtx s ctx fun c => { c with keys := c.keys.set k (keyOf s x) h, kvalid := c.kvalid ||| ((1 : Byte) <<< k) } else s
    | none =>
      let key := (s.keyNum + 1) * 2048 + 8 * ctx + k
      { onCtx s ctx fun c => { c with keys := c.keys.set k key h, kvalid := c.kvalid ||| ((1 : Byte) <<< k) } with keyNum := s.keyNum + 1 })
  else s
/-- CONTEXT_CREATE (R352, R362): slot 0 gets a private key, and no TLB keeps an entry of the number, nor a
walk for one. -/
def evCtxCreate (ctx part : Nat) (slots : List (Nat × Option Nat)) (s : State) : Option State :=
  if ctx < 256 && !(getCtx s ctx).created && noneBound s part then
    let s := setCtx s ctx { Context.init with created := true, part := part }
    let keep := fun (l : List TlbEntry) => l.filter fun e => e.ctx != ctx
    let s := { s with clusters := s.clusters.map fun e => (e.1, { e.2 with tlb := keep e.2.tlb, walks := e.2.walks.filter fun w => w.1 != ctx }),
                      cores := s.cores.map fun e => (e.1, { e.2 with tlb := keep e.2.tlb }),
                      core := { s.core with tlb := keep s.core.tlb } }
    some ((slots.filter fun e => e.1 != 0).foldl (fun s e => fillKey s ctx e.1 e.2) (fillKey s ctx 0 none))
  else none
def execContextCreate (ctx part : Nat) (slots : List (Nat × Option Nat)) (s : State) : Out := .next ((evCtxCreate ctx part slots s).getD s)
/-- KEY_SLOT_FILL (R352, R362): a slot that holds no key yet. -/
def execKeySlotFill (ctx k : Nat) (aliasOf : Option Nat) (s : State) : Out := .next
  (if (getCtx s ctx).created && !slotValid s (8 * ctx + k) then fillKey s ctx k aliasOf else s)
/-- TDISP_LOCK and TDISP_UNLOCK (R366). -/
def execTdispLock (part : Nat) (s : State) : Out := .next
  (if (getPart s part).created then
    let s := if anyLocked s then s else { s with meas := amSet s.meas 4 (configNow s) }
    onPart s part fun p => { p with locked := true }
  else s)
def execTdispUnlock (part : Nat) (s : State) : Out := .next
  (if (getPart s part).locked then onPart (endContexts s part) part fun p => { p with locked := false } else s)
/-- SERVICE_MESSAGE_DELIVERY (R295, R352, R377): the `k`-th waiting message, when it is the first of its router's class-15 buffer and its
core takes it. -/
def evService (k : Nat) (s : State) : Option State := match s.services[k]? with
  | none => none
  | some m =>
    if !serviceFirst s m then none
    else (serviceQ s m).map fun q => pushAt { s with services := s.services.eraseIdx k } m.core q m.data
def execServiceMessageDelivery (k : Nat) (s : State) : Out := .next ((evService k s).getD s)

/-! ### Host link (R397 to R400) -/

/-- DOORBELL_WRITE (R398): the ring's new tail. -/
def execDoorbellWrite (part tail : Nat) (s : State) : Out := .next
  (if (getPart s part).created then onPart s part fun p => { p with jobTail := tail % 2 ^ 32 } else s)
/-- The physical address of an aperture offset: the partition's ranges follow one another in register order (R398). -/
def aperture (p : Partition) (off : Nat) : Option Nat :=
  (p.prng.toList.foldl (fun acc w =>
    let r := rangeOf w
    let n := (r.2 - r.1) * 2 ^ 30
    if !rangeOn w then acc
    else match acc.1 with
      | some _ => acc
      | none => if off < acc.2 + n then (some (r.1 * 2 ^ 30 + (off - acc.2)), acc.2) else (none, acc.2 + n))
    ((none, 0) : Option Nat × Nat)).1
/-- Words of a byte list, eight bytes each. -/
def wordsOf (b : List Byte) : List W64 := (List.range ((b.length + 7) / 8)).map fun i => BitVec.ofNat 64 (ofBytes ((b.drop (8 * i)).take 8))
/-- A slot that the hypervisor may assign to a partition's aperture: an alias slot of one of its contexts (R362, R398). -/
def apertureSlot (s : State) (part slot : Nat) : Bool :=
  isAlias s slot && slotValid s slot && (getCtx s (slot / 8)).created && (getCtx s (slot / 8)).part == part
/-- HOST_APERTURE_ACCESS (R398): through the alias slot that the hypervisor has assigned to the aperture, which the first access names
(log 76); a read is as long as `data`. -/
def evAperture (part slot off : Nat) (write : Bool) (data : List Byte) (s : State) : Option State :=
  let p := getPart s part
  let at_ := fun (i : Nat) => if off + i < 2 ^ 36 then aperture p (off + i) else none
  if !p.created || !apertureSlot s part slot || (p.apSlot.getD slot) != slot then none
  else
    let s := onPart s part fun p => { p with apSlot := some slot }
    if write then
      some ((List.range data.length).foldl (fun s i => match at_ i with
        | some a =>
          if hostBase ≤ a then { s with host := memSetAll s.host [(a, data.getD i 0)] }
          else (homeWrite s (slot / 8) slot .H 0 [(a, data.getD i 0)]).2
        | none => s) s)
    else
      let r := (List.range data.length).foldl (fun (r : List Byte × State) i => match at_ i with
        | some a => if hostBase ≤ a then (r.1 ++ memRead s.host a 1, r.2) else let b := homeRead r.2 (slot / 8) slot a 1; (r.1 ++ b.1, b.2)
        | none => (r.1 ++ [0xFF], r.2)) ([], s)
      some { r.2 with hostOut := r.2.hostOut ++ wordsOf r.1 }
def execHostApertureAccess (part slot off : Nat) (write : Bool) (data : List Byte) (s : State) : Out :=
  .next ((evAperture part slot off write data s).getD s)

/-- Key of a job level (R324). -/
def jobLevel (job : Nat) : Nat := 3 * 2 ^ 16 + job
/-- The completion entry of a job waits to be written (R399). -/
def completeJob (s : State) (part job cause n : Nat) : State :=
  let e : BitVec 128 := BitVec.ofNat 128 (job + cause * 2 ^ 16 + n % 2 ^ 64 * 2 ^ 64)
  onPart s part fun p => { p with completions := p.completions ++ [e] }
/-- Lines that a system core has brought into a slice for a partition since a state, by a fill or a write, are the partition's (R390). -/
def systemLines (part : Nat) (s t : State) : State :=
  let own := fun (l : Nat) (ln : Line) => if !lineHere (getLine s l) && lineHere ln then { ln with partLine := true, owner := part } else ln
  { t with lines := t.lines.map fun e => (e.1, own e.1 e.2) }
/-- A system core reads and writes the partition's memory through a key slot of one of its contexts, device memory or host memory (R5,
R398, R399; log 61). -/
def ringSlot (s : State) (part slot base len : Nat) : Bool :=
  slotValid s slot && (getCtx s (slot / 8)).created && (getCtx s (slot / 8)).part == part && areaIn s part base len
def ringRead (s : State) (part slot a n : Nat) : Nat × State :=
  if hostBase ≤ a then (ofBytes (memRead s.host a n), s)
  else let h := homeRead s (slot / 8) slot a n; (ofBytes h.1, systemLines part s h.2)
def ringWrite (s : State) (part slot a : Nat) (b : List Byte) : State :=
  if hostBase ≤ a then { s with host := memSetAll s.host (atAddr a b) }
  else systemLines part s (homeWrite s (slot / 8) slot .H 0 (atAddr a b)).2
/-- A block of a job: read at its address in the context, checked and issued (R321, R399). -/
def issueBlock (s : State) (ctx lid addr job : Nat) : Nat × State :=
  let k := cluOf ((coresOf s ctx).headD 0)
  if addr % 64 ≠ 0 then (cMISALIGN, s)
  else match ctxRead s ctx k addr 256 with
    | .error c => (c, s)
    | .ok (b, t) =>
      let s := systemLines (getCtx s ctx).part s t
      let r := issueLaunch s ctx k lid (BitVec.ofNat 2048 b) (BitVec.ofNat 64 addr) job
      (if bitOf r.1.toNat 63 then fieldOf r.1 0 8 else 0, r.2)
/-- The head of a job ring moves on. -/
def nextJob (s : State) (part len : Nat) : State := onPart s part fun p => { p with jobHead := (p.jobHead + 1) % max 1 len, jobBlk := 0 }
/-- A job opens with its first block (R399). -/
def openJob (s : State) (part ctx job : Nat) : State :=
  let s := onLevel s ctx (jobLevel job) fun v => if v.live then v else { Level.init with live := true }
  onPart s part fun q => { q with jobsOpen := q.jobsOpen ++ [{ ctx := ctx, job := job, cause := 0, ended := none }] }
/-- The job closes with its last block, and is complete when its level is (R399, R324). -/
def closeLevel (s : State) (ctx job : Nat) : State :=
  let v := getLevel s ctx (jobLevel job)
  if v.live then settleLevel (onLevel s ctx (jobLevel job) fun v => { v with closed := true }) ctx (jobLevel job)
  else endJobs s ctx (jobLevel job) v.completed
/-- JOB_DESCRIPTOR (R399): the next block of the descriptor at the ring's head; the ring lies in the partition's memory at physical
address `base`, with `len` entries, read through key slot `slot`, and its blocks are the context's. -/
def evJob (part ctx slot base len : Nat) (s : State) : Option State :=
  let p := getPart s part
  let head := p.jobHead % max 1 len
  let mine := p.jobBlk = 0 || (p.jobsOpen.getLast?.map (·.ctx)) == some ctx
  if !p.created || !(getCtx s ctx).created || (getCtx s ctx).part != part || len = 0 || head = p.jobTail % max 1 len || !mine
      || !ringSlot s part slot base (64 * len) then none
  else
    let h := ringRead s part slot (base + 64 * head) 64
    let s := h.2
    let d := h.1
    let addr := bitsOf d 0 64
    let job := bitsOf d 64 16
    let n := bitsOf d 80 16
    if bitsOf d 96 416 ≠ 0 || n = 0 || 4096 < n then some (nextJob (completeJob s part job cENGINE 0) part len)
    else match freeLid s ctx with
      | none => none
      | some lid =>
        let s := if p.jobBlk = 0 then openJob s part ctx job else s
        let r := issueBlock s ctx lid ((addr + 256 * p.jobBlk) % 2 ^ 64) job
        let s := onPart (noteJob r.2 ctx job r.1) part fun q => { q with jobBlk := p.jobBlk + 1 }
        some (if p.jobBlk + 1 < n then s else closeLevel (nextJob s part len) ctx job)
def execJobDescriptor (part ctx slot base len : Nat) (s : State) : Out := .next ((evJob part ctx slot base len s).getD s)
/-- A thread set's work is of a job's launches. -/
def worksFor (s : State) (e : JobOpen) (g : Nat) : Bool :=
  myLid (focus s g) != 0 && (getLaunch s e.ctx (myLid (focus s g))).job == e.job
/-- Every access of a job that has completed is performed (R400): no thread set that is idle or that still runs work of the job has one
outstanding. -/
def jobQuiet (s : State) (e : JobOpen) : Bool := e.ended.isSome && (coresOf s e.ctx).all fun c => (List.range 4).all fun t =>
  let f := focus s (4 * c + t)
  (f.th.st != .idle && !worksFor s e (4 * c + t)) || (quietOn f allPaths && f.th.amsgs.isEmpty)
/-- The open job that completes next (R399, R400), its entry waiting to be written. -/
def closeJob (part : Nat) (s : State) : State := match (getPart s part).jobsOpen.find? (jobQuiet s) with
  | some e =>
    let s' := onPart s part fun q => { q with jobsOpen := q.jobsOpen.erase e }
    completeJob s' part e.job (e.ended.getD (0, 0)).1 (e.ended.getD (0, 0)).2
  | none => s
/-- JOB_COMPLETION (R399, R400): the oldest entry that waits is written to the completion ring, in the partition's memory at physical
address `base` with `len` entries, through key slot `slot`, and MSI-X vector 0 is sent. -/
def evJobDone (part slot base len : Nat) (s : State) : Option State :=
  if !(getPart s part).created || len = 0 || !ringSlot s part slot base (16 * len) then none
  else
    let s := if (getPart s part).completions.isEmpty then closeJob part s else s
    match (getPart s part).completions with
    | [] => none
    | e :: rest =>
      let s := ringWrite s part slot (base + 16 * ((getPart s part).compTail % len)) (toBytes 16 e.toNat)
      some (sendMsix (onPart s part fun p => { p with completions := rest, compTail := p.compTail + 1 }) part 0)
def execJobCompletion (o : CompRing) (s : State) : Out := .next ((evJobDone o.part o.slot o.base o.len s).getD s)

/-! ### Scale-out (R401 to R403) -/

/-- The connection, opened by its first message for a context (R402). -/
def connFor (s : State) (conn ctx : Nat) : Option Conn :=
  if 65536 ≤ conn || !(getCtx s ctx).created then none
  else match amFind s.conns conn with
    | some c => if c.live && c.ctx == ctx then some c else none
    | none => some { Conn.init with ctx := ctx, live := true }
/-- A refused message or a denied write ends the connection (R402). -/
def endConn (s : State) (conn : Nat) (c : Conn) (cause : Nat) (va acc : W64) (cluster : Nat) : State :=
  let s := { s with conns := amSet s.conns conn { c with live := false, cause := cause } }
  let f := newFault s c.ctx 7 0 cluster
  let e := raiseEvent f.2 c.ctx none
  sendFault e.2 c.ctx f.1 va acc (BitVec.ofNat 64 (cause + 256)) e.1
/-- A note comes after the connection's writes: later accesses of the core's thread sets do (R282, R403; log 73). -/
def noteAfter (s : State) (core time : Nat) : State :=
  (List.range 4).foldl (fun s t => onThread s (4 * core + t) fun th => { th with pts := max th.pts time }) s
/-- A byte of a memory write, with the latest write time of its connection, after which acquires come (log 73). -/
def bilathByte (ctx : Nat) (r : Nat × State) (e : Xl × Byte) : Nat × State :=
  let w := homeWrite r.2 ctx e.1.slot .X 0 [(e.1.pa, e.2)]
  (max r.1 w.1, { w.2 with released := max w.2.released w.1 })
/-- The delivery is counted. -/
def countConn (s : State) (conn : Nat) (c : Conn) : State := { s with conns := amSet s.conns conn { c with delivered := c.delivered + 1 } }
/-- Translations of the bytes of a Bilath write, in order: page by page would answer the same. -/
def bilathPlaces (ctx k va : Nat) : Nat → State → Except (Nat × Nat) (List Xl × State)
  | 0, s => .ok ([], s)
  | n + 1, s => do
    let r ← bilathPlaces ctx k va n s
    let a := (va + n) % 2 ^ 64
    match xlateEngine r.2 ctx k .xwrite a with
    | .ok x s' => .ok (r.1 ++ [x], s')
    | .page => .error (cPAGE, a)
    | .perm => .error (cPERM, a)
/-- BILATH_MEMORY_WRITE (R402): nothing is written when a byte's translation is denied. -/
def evBilathWrite (conn ctx va : Nat) (data : List Byte) (s : State) : Option State :=
  match connFor s conn ctx with
  | none => none
  | some c =>
    let k := cluOf ((coresOf s ctx).headD 0)
    if data.isEmpty || 4096 < data.length then none
    else some (match bilathPlaces ctx k va data.length s with
      | .ok (l, s') =>
        let w := (l.zip data).foldl (bilathByte ctx) (c.time, s')
        countConn w.2 conn { c with time := w.1 }
      | .error (cause, a) => endConn s conn c cause (BitVec.ofNat 64 a) (accWord .X true false 1) k)
def execBilathMemoryWrite (conn ctx va : Nat) (data : List Byte) (s : State) : Out := .next ((evBilathWrite conn ctx va data s).getD s)
/-- BILATH_CLASS_MESSAGE (R304, R402): pushed, refused, or not yet; the delivery event has the bit that the system image chose. -/
def evBilathClass (conn ctx core cls : Nat) (ev : Option Nat) (data : V512) (s : State) : Option State :=
  match connFor s conn ctx with
  | none => none
  | some c =>
    let x := getCore s core
    if x.ctx ≠ some ctx then some (endConn s conn c cPERM 0 0 (cluOf core))
    else match bindOf x (cls % 16) with
      | none => some (endConn s conn c cENGINE 0 0 (cluOf core))
      | some (q, masked) =>
        if masked || !roomAt s core q then none
        else some (countConn (raiseEvent (noteAfter (pushAt s core q data) core c.time) ctx ev).2 conn c)
def execBilathClassMessage (conn ctx core cls : Nat) (ev : Option Nat) (data : V512) (s : State) : Out :=
  .next ((evBilathClass conn ctx core cls ev data s).getD s)
/-- BILATH_RETRANSMISSION (R402). -/
def execBilathRetransmission (_ : Nat) (s : State) : Out := .next { s with retransmits := s.retransmits + 1 }

end Machine
end Sys2Proof
end

