-- ==== Sys2Proof/Machine/Privileged.lean ====
section
/-!
DEFINITION. Privileged: `tlbinv` and the writes of privileged registers (R353, R354, R361, R380, R395, R396).
-/
namespace Sys2Proof
namespace Machine

/-- A TLB entry goes with an invalidation: every one of the context, or each whose page holds the address (R361). -/
def invalidated (ctx : Nat) (all : Bool) (va : Nat) (e : TlbEntry) : Bool :=
  e.ctx == ctx && (all || va / 2 ^ e.bits * 2 ^ e.bits == e.va)
/-- An access waits for a matrix command of its pair that waits itself, on a fault's answer (R383). -/
def faultHeld (s : State) (g : Nat) (n : Option Nat) : Bool :=
  behindCmd s g n && (getCore s (coreNo g)).mq.any fun c => c.fault.isSome
/-- The C accesses of a thread set before the first that a faulted command holds, which holds the later ones too (R280). -/
def freeC (s : State) (g : Nat) : Nat := ((threadAt s g).creqs.takeWhile fun q => !faultHeld s g q.behind).length
/-- Accesses of a context that have been translated and neither performed nor abandoned (R361, R384). -/
def translatedPending (s : State) (ctx : Nat) : Bool := (coresOf s ctx).any fun c => (List.range 4).any fun t =>
  let g := 4 * c + t
  let th := threadAt s g
  (th.creqs.take (freeC s g)).any (fun q => !q.pool && !q.performed && !q.stale) || !th.kreqs.isEmpty
    || th.ureqs.any (fun q => !q.stale && !faultHeld s g q.behind) || th.amsgs.any (fun q => !q.performed) || !th.hreqs.isEmpty
/-- The accesses that a faulted command holds are abandoned for retranslation: no shoot-down waits for a handler (R361, R384). -/
def abandonHeld (s : State) (ctx : Nat) : State := ((coresOf s ctx).flatMap fun c => (List.range 4).map (4 * c + ·)).foldl (fun s g =>
  let n := freeC s g
  onThread s g fun t =>
    { t with creqs := t.creqs.take n ++ (t.creqs.drop n).map fun q => { q with stale := !q.pool },
             ureqs := t.ureqs.map fun q => { q with stale := q.stale || faultHeld s g q.behind } }) s
/-- Every earlier C-path and H-path store and atomic of the focus thread set is acknowledged (R361, R380). -/
def storesAcked (s : State) : Bool := (s.th.creqs.all fun q => q.kind.isRead) && s.th.hreqs.all fun q => q.load
/-- The translation units of clusters and of their cores drop the entries and the walks under way (R361, R384). -/
def dropTlb (s : State) (ks : List Nat) (ctx : Nat) (all : Bool) (va : Nat) : State :=
  let keep := fun (l : List TlbEntry) => l.filter fun e => !invalidated ctx all va e
  let core := fun (k : Nat) (c : CoreSt) => if ks.contains (cluOf k) then { c with tlb := keep c.tlb } else c
  let clu := fun (k : Nat) (c : Cluster) =>
    if ks.contains k then { c with tlb := keep c.tlb, walks := c.walks.filter fun w => w.1 != ctx } else c
  { s with core := core (myCore s) s.core, cores := s.cores.map fun e => (e.1, core e.1 e.2),
           clusters := s.clusters.map fun e => (e.1, clu e.1 e.2) }
/-- `tlbinv` (R361): the entries go first, and the form completes once no access that was translated before is left. -/
def execTlbinv (o : TlbInv) (s : State) : Out := .next
  (bit0Form s o.p (do
    require (supMode s) cILLEGAL 0
    let ctx ← ctxE s (getS s o.a)
    require (getCtx s ctx).created cPERM 0
    let ks := rectClusters (getPart s (myPart s))
    if s.th.stage = 1 then do
      ready (!translatedPending s ctx)
      .ok (setS (withTh (abandonHeld s ctx) fun t => { t with stage := 0 }) o.d (BitVec.ofNat 64 ks.length))
    else do
      ready (storesAcked s)
      let s := dropTlb s ks ctx o.all (getS s o.b).toNat
      .ok (if translatedPending s ctx then withTh s fun t => { t with stage := 1, res := .begun }
        else setS (abandonHeld s ctx) o.d (BitVec.ofNat 64 ks.length))))

/-! ### Registers 0x801 to 0x806 (R354) -/

/-- A value lies within the register's rules (R353). -/
def transOk (num : Nat) (v : W64) : Bool := match num with
  | 0x801 | 0x802 | 0x803 => fieldOf v 0 21 == 0
  | 0x804 => fieldOf v 44 19 == 0
  | 0x805 => fieldOf v 0 5 == 0
  | _ => true
def transGet (c : Context) (num : Nat) : W64 := match num with
  | 0x801 => c.hbase
  | 0x802 => c.hlim
  | 0x803 => c.hoff
  | 0x804 => c.ptroot
  | 0x805 => c.hitbase
  | _ => c.hitcnt
def transPut (c : Context) (num : Nat) (v : W64) : Context := match num with
  | 0x801 => { c with hbase := v }
  | 0x802 => { c with hlim := v }
  | 0x803 => { c with hoff := v }
  | 0x804 => { c with ptroot := v }
  | 0x805 => { c with hitbase := v }
  | _ => { c with hitcnt := BitVec.ofNat 64 (fieldOf v 0 32) }
/-- TRANSLATION_REGISTER_WRITE: a cluster takes the new values of a context; a write is complete once every cluster of the partition
has taken it. -/
def evTransWrite (ctx k : Nat) (s : State) : Option State :=
  let c := getCtx s ctx
  let ks := rectClusters (getPart s c.part)
  if c.transOld.isEmpty || !ks.contains k then none
  else
    let more := c.transOld.map fun e => (e.1, e.2.1, if e.2.2.contains k then e.2.2 else e.2.2 ++ [k])
    some (setCtx s ctx { c with transOld := more.filter fun e => !ks.all e.2.2.contains })
def execTranslationRegisterWrite (ctx cluster : Nat) (s : State) : Out := .next ((evTransWrite ctx cluster s).getD s)
/-- `mtsp` to one of them: it begins once no other write of the register is under way, and waits for its completion. -/
def mtspTrans (s : State) (num : Nat) (v : W64) : Except Stop State :=
  let ctx := s.th.csel
  let c := getCtx s ctx
  let busy := (amFind c.transOld num).isSome
  if s.th.stage = 1 then
    (if busy then .error .stall else .ok (withTh s fun t => { t with stage := 0 }))
  else if !transOk num v then .ok s
  else if busy then .error .stall
  else if (rectClusters (getPart s c.part)).isEmpty then .ok (setCtx s ctx (transPut c num v))
  else
    let s := setCtx s ctx { transPut c num v with transOld := amSet c.transOld num (transGet c num, []) }
    .ok (withTh s fun t => { t with stage := 1, res := .begun })

/-! ### `mtsp` (R354, R380, R395) -/

/-- The registers that `mtsp` writes (R353, R395). -/
def mtspWrites (num : Nat) : Bool :=
  [0x800, 0x801, 0x802, 0x803, 0x804, 0x805, 0x806, 0x840, 0x841, 0x842, 0x843, 0x848].contains num
/-- A write of `fres` (R380). -/
def mtspFres (s : State) (v : W64) : Except Stop State :=
  let fid := BitVec.ofNat 64 (fieldOf v 0 40)
  if fieldOf v 40 22 ≠ 0 || fieldOf v 32 8 ≠ s.th.csel || !(s.waiting.any fun w => w.fid == fid) then .ok s
  else do
    ready (storesAcked s)
    .ok ((evFres fid (min 2 (fieldOf v 62 2)) s).getD s)
/-- A halt command (R396): not ready until the thread set is halted. One that halts its own thread set halts at itself. -/
def haltCmd (g : Nat) (s : State) : State :=
  if g = s.here then enterHalt s s.th.ipc s.th.slot1 (if s.th.slot1 then s.th.ptgt else none)
  else match (threadAt s g).st with
    | .task | .activation | .blocked =>
      let s := (evHalt g s).getD s
      if (threadAt s g).st = .halted then s else withTh s fun t => { t with res := .begun }
    | _ => s
/-- A write of `dcmd` (R396): the thread set that `dsel` selects must be on a core of the context. -/
def mtspDcmd (s : State) (v : W64) : State :=
  let ctx := s.th.csel
  let g := dselTs (getCtx s ctx)
  if !dselBound s ctx then s
  else match fieldOf v 0 2 with
    | 1 => haltCmd g s
    | 2 => (evResume false g s).getD s
    | 3 => (evResume true g s).getD s
    | _ => s
/-- `mtsp` (R354). A number that has been used again in another partition is out of reach (R352): a write there is discarded (DESIGN
CHOICE, log 76). -/
def execMtsp (o : MtsO) (s : State) : Out := .next
  (bit0Form s o.p (do
    let num := o.num.toNat
    let v := getS s o.a
    let ctx := s.th.csel
    require (mtspWrites num && supMode s) cILLEGAL 0
    if num ≠ 0x800 ∧ (getCtx s ctx).part ≠ myPart s then .ok s else
    match num with
    | 0x800 =>
      let c := fieldOf v 0 8
      require ((getCtx s c).created && (getCtx s c).part == myPart s) cPERM 0
      .ok (withTh s fun t => { t with csel := c })
    | 0x840 => .ok (onCtx s ctx fun c => { c with dbgctl := v &&& 0x1FF01 })
    | 0x841 => .ok (onCtx s ctx fun c => { c with dsel := v &&& 0xFFFF8BFFF })
    | 0x842 => .ok (if dselBound s ctx then (evDdata (dselTs (getCtx s ctx)) (dselPool (getCtx s ctx)) (dselOff (getCtx s ctx)) v s).getD s else s)
    | 0x843 => .ok (mtspDcmd s v)
    | 0x848 => mtspFres s v
    | _ => mtspTrans s num v))

end Machine
end Sys2Proof
end

