-- ==== Sys2Proof/Machine/Vector.lean ====
section
/-!
DEFINITION. Vector: the meanings of the vector register forms (R134 to R149, R151 to R156).
-/
namespace Sys2Proof
namespace Machine

/-! ### Shared shapes (R135, R136) -/

/-- Reads vector positions in order; queue registers pop (R57). -/
def readVs (s : State) : List VOp → List V512 × State
  | [] => ([], s)
  | o :: l => let r := readV s o; let r2 := readVs r.2 l; (r.1 :: r2.1, r2.2)

/-- Element-wise form with a vector destination: `f` gives each active element and its conditions (R136). -/
def vecForm (p : Pred) (w : Nat) (srcs : List VOp) (d : VOp) (s : State) (f : List V512 → Nat → Nat × Nat) : State :=
  elemForm s p w (do
    vecChecks s srcs (some d)
    let r := readVs s srcs
    let x := mapElems w (predVal s p) (f r.1) (oldV r.2 (resolveV s d))
    .ok (writeV (orFlags r.2 x.2) d x.1))

/-- Element `n` of source `k`. -/
def srcElem (w : Nat) (vs : List V512) (k n : Nat) : Nat := elem w (vs.getD k 0) n

/-- Forms with one, two and three sources of the type's width. -/
def vUn (o : VUn) (s : State) (f : Nat → Nat × Nat) : State :=
  vecForm o.p o.t.w [o.a] o.d s fun vs n => f (srcElem o.t.w vs 0 n)
def vBin (o : VBin) (s : State) (f : Nat → Nat → Nat × Nat) : State :=
  vecForm o.p o.t.w [o.a, o.b] o.d s fun vs n => f (srcElem o.t.w vs 0 n) (srcElem o.t.w vs 1 n)
def vTri (o : VTri) (s : State) (f : Nat → Nat → Nat → Nat × Nat) : State :=
  vecForm o.p o.t.w [o.a, o.b, o.c] o.d s fun vs n =>
    f (srcElem o.t.w vs 0 n) (srcElem o.t.w vs 1 n) (srcElem o.t.w vs 2 n)
/-- Integer form: exact result of the sources' values, reduced (R144). -/
def vIntBin (o : VBin) (s : State) (f : Int → Int → Int) : State :=
  vBin o s fun a b => (reduceTo o.t o.sat (f (intVal o.t a) (intVal o.t b)), 0)
def vIntUn (o : VUn) (s : State) (f : Int → Int) : State := vUn o s fun a => (reduceTo o.t o.sat (f (intVal o.t a)), 0)
/-- Form on the elements' patterns that raises nothing (R145). -/
def vLog (o : VLog) (s : State) (f : Nat → Nat → Nat) : State :=
  vecForm o.p o.t.w [o.a, o.b] o.d s fun vs n => (f (srcElem o.t.w vs 0 n) (srcElem o.t.w vs 1 n), 0)

/-! ### Arithmetic (R138 to R144) -/

def execVaddI (o : VBin) (s : State) : Out := .next (vIntBin o s fun a b => a + b)
def execVsubI (o : VBin) (s : State) : Out := .next (vIntBin o s fun a b => a - b)
def execVmulI (o : VBin) (s : State) : Out := .next (vIntBin o s fun a b => a * b)
def execVaddF (o : VBin) (s : State) : Out := .next (vBin o s (fAdd o.t o.rnd o.sat))
def execVsubF (o : VBin) (s : State) : Out := .next (vBin o s (fSub o.t o.rnd o.sat))
def execVmulF (o : VBin) (s : State) : Out := .next (vBin o s (fMul o.t o.rnd o.sat))
def execVfma (o : VTri) (s : State) : Out := .next (vTri o s (fFma o.t o.rnd o.sat false false))
def execVfms (o : VTri) (s : State) : Out := .next (vTri o s (fFma o.t o.rnd o.sat false true))
def execVfnma (o : VTri) (s : State) : Out := .next (vTri o s (fFma o.t o.rnd o.sat true false))
def execVdiv (o : VBin) (s : State) : Out := .next (vBin o s (fDiv o.t o.rnd o.sat))
def execVsqrt (o : VUn) (s : State) : Out := .next (vUn o s (fSqrt o.t o.rnd o.sat))
def execVrcp (o : VUn) (s : State) : Out := .next (vUn o s (fRcp o.t o.rnd o.sat))
def execVrsqrt (o : VUn) (s : State) : Out := .next (vUn o s (fRsqrt o.t o.rnd o.sat))
def execVexp2 (o : VUn) (s : State) : Out := .next (vUn o s (fExp2 o.t o.rnd o.sat))
def execVlog2 (o : VUn) (s : State) : Out := .next (vUn o s (fLog2 o.t o.rnd o.sat))
def execVminI (o : VBin) (s : State) : Out := .next (vIntBin o s min)
def execVmaxI (o : VBin) (s : State) : Out := .next (vIntBin o s max)
def execVminF (o : VBin) (s : State) : Out := .next (vBin o s (fMinMax false o.t))
def execVmaxF (o : VBin) (s : State) : Out := .next (vBin o s (fMinMax true o.t))
def execVabsI (o : VUn) (s : State) : Out := .next (vIntUn o s fun a => (a.natAbs : Int))
def execVabsF (o : VUn) (s : State) : Out := .next (vUn o s fun a => (a % 2 ^ (o.t.w - 1), 0))
def execVnegI (o : VUn) (s : State) : Out := .next (vIntUn o s fun a => -a)
def execVnegF (o : VUn) (s : State) : Out := .next (vUn o s fun a => (Nat.xor a (2 ^ (o.t.w - 1)), 0))
def execVround (o : VRnd) (s : State) : Out := .next
  (vecForm o.p o.t.w [o.a] o.d s fun vs n => fRound o.t o.rnd (srcElem o.t.w vs 0 n))

/-! ### Bitwise forms, shifts, dot products (R145, R146) -/

def execVand (o : VLog) (s : State) : Out := .next (vLog o s Nat.land)
def execVor (o : VLog) (s : State) : Out := .next (vLog o s Nat.lor)
def execVxor (o : VLog) (s : State) : Out := .next (vLog o s Nat.xor)
/-- Left shift of a pattern by an element's amount (R106, R145). -/
def shlElem (w x n : Nat) : Nat := if w ≤ n then 0 else x * 2 ^ n % 2 ^ w
/-- Right shifts of R106, on elements. -/
def shrElem (w x n : Nat) : Nat := if w ≤ n then 0 else x / 2 ^ n
def sarElem (w x n : Nat) : Nat := wrapTo w (signedOf w x / (2 ^ min n w : Nat))
def execVshl (o : VLog) (s : State) : Out := .next (vLog o s (shlElem o.t.w))
def execVshr (o : VLog) (s : State) : Out := .next (vLog o s (shrElem o.t.w))
def execVsar (o : VLog) (s : State) : Out := .next (vLog o s (sarElem o.t.w))
def execVpopc (o : VUnT) (s : State) : Out := .next
  (vecForm o.p o.t.w [o.a] o.d s fun vs n => (popcount o.t.w (srcElem o.t.w vs 0 n), 0))

/-- Exact sum of a destination lane's products and accumulator, reduced (R97). -/
def dotLane (o : VTri) (lane32 : Bool) (vs : List V512) (n : Nat) : Nat :=
  let wd := if lane32 then 32 else 64
  let k := wd / o.t.w
  let acc : Ty := if lane32 then (if o.t.isI then .i32 else .n32) else (if o.t.isI then .i64 else .n64)
  let sum := (List.range k).foldl (fun (x : Int) i =>
    x + intVal o.t (srcElem o.t.w vs 0 (n * k + i)) * intVal o.t (srcElem o.t.w vs 1 (n * k + i))) (intVal acc (srcElem wd vs 2 n))
  reduceTo acc o.sat sum
/-- `vdot` and `vmac` (R97, R146). -/
def dotForm (o : VTri) (lane32 : Bool) (s : State) : State :=
  vecForm o.p (if lane32 then 32 else 64) [o.a, o.b, o.c] o.d s fun vs n => (dotLane o lane32 vs n, 0)
def execVdot8 (o : VTri) (s : State) : Out := .next (dotForm o true s)
def execVdot16 (o : VTri) (s : State) : Out := .next (dotForm o true s)
def execVmac8 (o : VTri) (s : State) : Out := .next (dotForm o false s)
def execVmac16 (o : VTri) (s : State) : Out := .next (dotForm o false s)

/-! ### Compares, selects and conversions (R147 to R149) -/

/-- `vcmp` (R147): one bit per 32-bit lane; a 64-bit element sets two. -/
def vcmpForm (o : VCmp) (s : State) : State :=
  let w := o.t.w
  let pv := predVal s o.p
  elemForm s o.p w (do
    vecChecks s [o.a, o.b] none
    let r := readVs s [o.a, o.b]
    let res := (List.range (512 / w)).map fun n =>
      if elemOn pv w n then cmpElem o.t o.cc (srcElem w r.1 0 n) (srcElem w r.1 1 n) else (false, 0)
    let bits := joinDigits (w / 32) (res.map fun x => if x.1 then 2 ^ (w / 32) - 1 else 0)
    .ok (setP (orFlags r.2 (orAll (res.map (·.2)))) o.d (BitVec.ofNat 16 bits)))
def execVcmpI (o : VCmp) (s : State) : Out := .next (vcmpForm o s)
def execVcmpF (o : VCmp) (s : State) : Out := .next (vcmpForm o s)

def execVsel (o : VSel) (s : State) : Out := .next
  (vecForm o.p o.t.w [o.a, o.b] o.d s fun vs n =>
    (if elemOn (getP s o.c) o.t.w n then srcElem o.t.w vs 0 n else srcElem o.t.w vs 1 n, 0))

/-- `vcvt` (R149): widening reads one part of the source, narrowing writes one part of the destination. -/
def vcvtForm (o : VCvt) (s : State) : State :=
  let wd := o.t.w
  let ws := o.src.w
  let nc := 512 / max wd ws
  let h := (readS s o.b).toNat % (max wd ws / min wd ws)
  let pv := predVal s o.p
  elemForm s o.p wd (do
    vecChecks s [o.a] (some o.d)
    let r := readV s o.a
    let old := oldV r.2 (resolveV s o.d)
    let res := (List.range (512 / wd)).map fun d =>
      let src := if wd > ws then h * nc + d else if wd < ws then d - h * nc else d
      let named := decide (wd ≥ ws) || (decide (h * nc ≤ d) && decide (d < h * nc + nc))
      if named && elemOn pv wd d then convertElem o.t o.src o.rnd o.sat o.rd (elem ws r.1 src) else (elem wd old d, 0)
    .ok (writeV (orFlags r.2 (orAll (res.map (·.2)))) o.d (ofElems wd (res.map (·.1)))))
def execVcvtII (o : VCvt) (s : State) : Out := .next (vcvtForm o s)
def execVcvtIF (o : VCvt) (s : State) : Out := .next (vcvtForm o s)
def execVcvtFI (o : VCvt) (s : State) : Out := .next (vcvtForm o s)
def execVcvtFF (o : VCvt) (s : State) : Out := .next (vcvtForm o s)

/-! ### Moving elements (R151 to R153) -/

/-- `vperm` (R151). -/
def vpermForm (o : VLog) (s : State) : State :=
  vecForm o.p o.t.w [o.a, o.b] o.d s fun vs n => (srcElem o.t.w vs 0 (srcElem o.t.w vs 1 n % (512 / o.t.w)), 0)
def execVperm32 (o : VLog) (s : State) : Out := .next (vpermForm o s)
def execVperm64 (o : VLog) (s : State) : Out := .next (vpermForm o s)
/-- `vbcast` (R151). -/
def vbcastForm (o : VFromS) (s : State) : State :=
  vecForm o.p o.t.w [] o.d s fun _ _ => ((readS s o.a).toNat % 2 ^ o.t.w, 0)
def execVbcast32 (o : VFromS) (s : State) : Out := .next (vbcastForm o s)
def execVbcast64 (o : VFromS) (s : State) : Out := .next (vbcastForm o s)
def execVlane (o : VFromS) (s : State) : Out := .next
  (vecForm o.p o.t.w [] o.d s fun _ n => (((readS s o.a).toNat + n) % 2 ^ o.t.w, 0))
def execVmov (o : V2) (s : State) : Out := .next (vecForm o.p 32 [o.a] o.d s fun vs n => (srcElem 32 vs 0 n, 0))

/-- `vext` (R152). -/
def execVext (o : VExt) (s : State) : Out := .next
  (bit0Form s o.p (do
    vecChecks s [o.a] none
    let r := readV s o.a
    .ok (writeS r.2 o.d (extendTo o.t (elem o.t.w r.1 ((readS s o.b).toNat % (512 / o.t.w)))))))
/-- `vins` (R152). Where an element is active but element m is not, the relative destination is still checked (DESIGN CHOICE:
R63 step 5 does not say whether something is active then; log 72). -/
def execVins (o : VIns) (s : State) : Out := .next
  (let m := (readS s o.b).toNat % (512 / o.t.w)
   elemForm s o.p o.t.w (do
    vecChecks s [] (some o.d)
    let old := oldV s (resolveV s o.d)
    .ok (if elemOn (predVal s o.p) o.t.w m then
      writeV s o.d (ofElems o.t.w ((elems o.t.w old).set m ((readS s o.a).toNat % 2 ^ o.t.w))) else s)))

/-- `vcompress` (R153): the whole destination is written. -/
def execVcompress (o : VUnT) (s : State) : Out := .next
  (elemForm s o.p o.t.w (do
    vecChecks s [o.a] (some o.d)
    let r := readV s o.a
    .ok (writeV r.2 o.d (ofElems o.t.w
      (((List.range (512 / o.t.w)).filter (elemOn (predVal s o.p) o.t.w)).map (elem o.t.w r.1))))))
/-- `vexpand` (R153). -/
def execVexpand (o : VUnT) (s : State) : Out := .next
  (vecForm o.p o.t.w [o.a] o.d s fun vs n =>
    (srcElem o.t.w vs 0 ((List.range n).filter (elemOn (predVal s o.p) o.t.w)).length, 0))

/-! ### Reductions, scans and the lane generator (R154 to R156) -/

/-- log2 of the number of elements (R95). -/
def treeDepth (w : Nat) : Nat := Nat.log2 (512 / w)
/-- Leaves of the tree: the active elements (R95). -/
def treeLeaves (pv : W16) (w : Nat) (v : V512) : List TreeVal :=
  (List.range (512 / w)).map fun n => if elemOn pv w n then some (elem w v n, 0) else none
/-- A reduction (R154); with no active element it writes EMPTY(op) and nothing else. Its conditions are ORed into `flags` before the
destination is written, which the `flags` shortcut may be (DESIGN CHOICE, log 72). -/
def redForm (o : VRed) (op : AOp) (s : State) : State :=
  let w := o.t.w
  let pv := predVal s o.p
  if !anyOn pv w then writeS s o.d (extendTo o.t (emptyOf o.t op))
  else runBody s (do
    vecChecks s [o.a] none
    let r := readV s o.a
    match treeRoot (nodeOp o.t op o.rnd) (treeDepth w) (treeLeaves pv w r.1) with
    | some x => .ok (writeS (orFlags r.2 x.2) o.d (extendTo o.t x.1))
    | none => .ok (writeS r.2 o.d (extendTo o.t (emptyOf o.t op))))
def execVredaddI (o : VRed) (s : State) : Out := .next (redForm o .add s)
def execVredaddF (o : VRed) (s : State) : Out := .next (redForm o .add s)
def execVredminI (o : VRed) (s : State) : Out := .next (redForm o .min s)
def execVredminF (o : VRed) (s : State) : Out := .next (redForm o .min s)
def execVredmaxI (o : VRed) (s : State) : Out := .next (redForm o .max s)
def execVredmaxF (o : VRed) (s : State) : Out := .next (redForm o .max s)

/-- A scan (R96, R155). -/
def scanForm (o : VScan) (s : State) : State :=
  let w := o.t.w
  let pv := predVal s o.p
  vecForm o.p w [o.a] o.d s fun vs n =>
    (scanOut (nodeOp o.t o.op o.rnd) (treeDepth w) (treeLeaves pv w (vs.getD 0 0)) n).getD (0, 0)
def execVscanI (o : VScan) (s : State) : Out := .next (scanForm o s)
def execVscanF (o : VScan) (s : State) : Out := .next (scanForm o s)

/-- 32-bit left rotation (R156). -/
def rol32 (v n : Nat) : Nat := (v * 2 ^ n + v / 2 ^ (32 - n)) % 2 ^ 32
/-- One round of the lane generator (R156). -/
def rngRound (k0 k1 : Nat) (xy : Nat × Nat) (i : Nat) : Nat × Nat :=
  let x := (xy.1 + xy.2 + k0 + i) % 2 ^ 32
  let y := Nat.xor (rol32 xy.2 11) x
  (rol32 x 19, (y + k1) % 2 ^ 32)
/-- `rng32(key, c, l)` (R156). -/
def rng32 (key : W64) (c l : Nat) : Nat :=
  let k0 := fieldOf key 0 32
  let k1 := fieldOf key 32 32
  let xy := (List.range 8).foldl (rngRound k0 k1) (c % 2 ^ 32, Nat.xor l k1)
  Nat.xor xy.1 xy.2
def execVrng (o : V2) (s : State) : Out := .next
  (vecForm o.p 32 [o.a] o.d s fun vs n => (rng32 (vw s).rngkey (srcElem 32 vs 0 n) n, 0))

end Machine
end Sys2Proof
end

