-- ==== Sys2Proof/Machine/Reservoir.lean ====
section
/-!
DEFINITION. Reservoir: the reservoir forms (R234 to R239).
-/
namespace Sys2Proof
namespace Machine

/-- A reservoir (R234). -/
structure Resv where
  id : Nat
  wsum : Nat
  wsel : Nat
  m : Nat
  deriving DecidableEq, Repr
/-- Reservoir `j` of a register. -/
def resvOf (v : V512) (j : Nat) : Resv := ⟨lane v (4 * j), lane v (4 * j + 1), lane v (4 * j + 2), lane v (4 * j + 3)⟩
/-- Reservoir `j` is active under a predicate (R135, R234). -/
def resvOn (pv : W16) (j : Nat) : Bool := laneOn pv (4 * j)
/-- The 24-bit draw (R236): u is it times 2^−24. -/
def resvDraw (key : W64) (c j : Nat) : Nat := rng32 key c (4 * j + 1) / 2 ^ 8
/-- accept(w, W) of R236; at W = −Inf the product is −Inf, and NaN for u = 0. -/
def resvAccept (u w big : Nat) : Bool :=
  if big = inf32 then w == inf32
  else match fdec .f32 .ieee big with
    | .fin n m e => !isNan32 w && ltFV false (.fin n (u * m) (e - 24)) (fdec .f32 .ieee w)
    | .inf true => u != 0 && !isNan32 w && w != 0xFF800000
    | _ => false
/-- A natural number as FP32 (R92). -/
def nat32 (m : Nat) : Nat × Nat := encFV .f32 .ieee .rne false (.fin false m 0)
/-- NaN, or at most +0. -/
def noWeight (w : Nat) : Bool := isNan32 w || le32 w 0
/-- The cap (R238): the reservoir and the flags of the steps. -/
def resvCap (cap : Nat) (r : Resv) : Resv × Nat :=
  if cap = 0 ∨ r.m ≤ cap then (r, 0)
  else
    let a := nat32 cap
    let b := nat32 r.m
    let f := fDiv .f32 .rne false a.1 b.1
    let w := fMul .f32 .rne false r.wsum f.1
    ({ r with wsum := w.1, m := cap }, orAll [a.2, b.2, f.2, w.2])
def sat32 (m : Nat) : Nat := min m (2 ^ 32 - 1)
/-- A reservoir takes a weight with its identifier and selected weight, or counts it only. -/
def resvTake (u : Nat) (r : Resv) (id w wsel m : Nat) : Resv × Nat :=
  let s := fAdd .f32 .rne false r.wsum w
  let r := if resvAccept u w s.1 then { r with id := id, wsel := wsel } else r
  ({ r with wsum := s.1, m := sat32 (r.m + m) }, s.2)
/-- `rsvupd` on one reservoir (R236). -/
def resvUpd (key : W64) (cap j : Nat) (r c : Resv) : Resv × Nat :=
  let x := if noWeight c.wsum then ({ r with m := sat32 (r.m + 1) }, 0) else resvTake (resvDraw key c.wsel j) r c.id c.wsum c.wsum 1
  let y := resvCap cap x.1
  (y.1, Nat.lor x.2 y.2)
/-- `rsvmrg` on one reservoir (R237). -/
def resvMrg (key : W64) (cap ctr j : Nat) (r c : Resv) : Resv × Nat :=
  if c.m = 0 then (r, 0)
  else if noWeight c.wsum then ({ r with m := sat32 (r.m + c.m) }, 0)
  else
    let x := resvTake (resvDraw key ctr j) r c.id c.wsum c.wsel c.m
    let y := resvCap cap x.1
    (y.1, Nat.lor x.2 y.2)
/-- `rsvget` on one reservoir (R239). -/
def resvGet (r : Resv) : Resv × Nat :=
  if r.m = 0 || noWeight r.wsel then ({ r with wsum := 0 }, 0)
  else
    let a := nat32 r.m
    let b := fMul .f32 .rne false a.1 r.wsel
    let c := fDiv .f32 .rne false r.wsum b.1
    ({ r with wsum := c.1 }, orAll [a.2, b.2, c.2])
/-- The register with the active reservoirs replaced (R234), and the flags. -/
def resvAll (pv : W16) (old : V512) (f : Nat → Resv × Nat) : V512 × Nat :=
  let l := (List.range 4).map fun j => if resvOn pv j then f j else (resvOf old j, 0)
  (ofElems 32 (l.flatMap fun x => [x.1.id, x.1.wsum, x.1.wsel, x.1.m]), orAll (l.map (·.2)))
/-- A reservoir form: nothing happens when no reservoir is active (R63). -/
def resvForm (s : State) (p : Pred) (d a : VOp) (f : V512 → V512 → Nat → Resv × Nat) : State :=
  let pv := predVal s p
  if !(List.range 4).any (resvOn pv) then s
  else runBody s (do
    vecChecks s [a] (some d)
    let r := readV s a
    let old := oldV r.2 (resolveV s d)
    let x := resvAll pv old (f old r.1)
    .ok (writeV (orFlags r.2 x.2) d x.1))
def execRsvupd (o : V2S) (s : State) : Out := .next
  (let b := readS s o.b
   resvForm s o.p o.d o.a fun old a j => resvUpd (vw s).rngkey (fieldOf b 0 32) j (resvOf old j) (resvOf a j))
def execRsvmrg (o : V2S) (s : State) : Out := .next
  (let b := readS s o.b
   resvForm s o.p o.d o.a fun old a j => resvMrg (vw s).rngkey (fieldOf b 0 32) (fieldOf b 32 32) j (resvOf old j) (resvOf a j))
def execRsvget (o : V2) (s : State) : Out := .next (resvForm s o.p o.d o.a fun _ a j => resvGet (resvOf a j))

end Machine
end Sys2Proof
end

