-- ==== Sys2Proof/Machine/Scalar.lean ====
section
/-!
DEFINITION. Scalar: the meanings of the scalar, predicate and index forms (R102 to R111).
-/
namespace Sys2Proof
namespace Machine

/-! ### Shared shapes (R103, R105) -/

/-- Integer form with two sources: `f` gives the exact result, `wr` reduces, extends and writes it (R103). -/
def aluForm (o : SAlu) (s : State) (f : Int → Int → Int) : State :=
  bit0Form s o.p (.ok (writeS s o.d (extendTo o.t (reduceTo o.t o.sat
    (f (intVal o.t (readS s o.a).toNat) (intVal o.t (readS s o.b).toNat))))))
/-- Form on the w-bit patterns of two sources (R105). -/
def patForm (o : SAlu) (s : State) (f : Nat → Nat → Nat) : State :=
  bit0Form s o.p (.ok (writeS s o.d (extendTo o.t (f ((readS s o.a).toNat % 2 ^ o.t.w) ((readS s o.b).toNat % 2 ^ o.t.w)))))
/-- Shift form: the w-bit pattern of a and the whole 64-bit amount (R106). -/
def shiftForm (o : SAlu) (s : State) (f : Nat → Nat → Nat) : State :=
  bit0Form s o.p (.ok (writeS s o.d (extendTo o.t (f ((readS s o.a).toNat % 2 ^ o.t.w) (readS s o.b).toNat))))
/-- Form with one source, on its w-bit pattern (R105). -/
def unForm (o : SUn) (s : State) (f : Nat → Nat) : State :=
  bit0Form s o.p (.ok (writeS s o.d (extendTo o.t (f ((readS s o.a).toNat % 2 ^ o.t.w)))))

/-- Quotient and remainder of R76. -/
def quotOf (t : Ty) (a b : Int) : Int := if b = 0 then (if t.isI then -1 else (2 ^ t.w : Nat) - 1) else a.tdiv b
def remOf (a b : Int) : Int := if b = 0 then a else a.tmod b

/-- Right shifts and rotations of a w-bit pattern (R106). -/
def shrPat (w x n : Nat) : Nat := if w ≤ n then 0 else x / 2 ^ n
def sarPat (w x n : Nat) : Nat := wrapTo w (signedOf w x / (2 ^ min n w : Nat))
def rolPat (w x n : Nat) : Nat := (x * 2 ^ (n % w) + x / 2 ^ (w - n % w)) % 2 ^ w
def rorPat (w x n : Nat) : Nat := rolPat w x (w - n % w)
/-- `a × 2^n`; an amount past every width acts as 128 (R106). -/
def shlInt (a : Int) (n : Nat) : Int := a * (2 ^ min n 128 : Nat)

/-- Leading and trailing zeros of a w-bit pattern (R105). -/
def clzPat (w x : Nat) : Nat := match highestBit w x with
  | some i => w - 1 - i
  | none => w
def ctzPat (w x : Nat) : Nat := lowestBit w x

/-! ### Arithmetic and logic (R105) -/

def execAdd (o : SAlu) (s : State) : Out := .next (aluForm o s fun a b => a + b)
def execSub (o : SAlu) (s : State) : Out := .next (aluForm o s fun a b => a - b)
def execAddi (o : SImm) (s : State) : Out := .next
  (bit0Form s o.p (.ok (writeS s o.d (extendTo o.t (reduceTo o.t o.sat
    (intVal o.t (readS s o.a).toNat + signedOf 32 o.imm.toNat))))))
def execMul (o : SAlu) (s : State) : Out := .next (aluForm o s fun a b => a * b)
def execMulh (o : SAlu) (s : State) : Out := .next (aluForm o s fun a b => a * b / (2 ^ o.t.w : Nat))
def execMulhn (o : SAlu) (s : State) : Out := .next (aluForm o s fun a b => a * b / (2 ^ o.t.w : Nat))
def execDiv (o : SAlu) (s : State) : Out := .next (aluForm o s (quotOf o.t))
def execDivn (o : SAlu) (s : State) : Out := .next (aluForm o s (quotOf o.t))
def execRem (o : SAlu) (s : State) : Out := .next (aluForm o s remOf)
def execRemn (o : SAlu) (s : State) : Out := .next (aluForm o s remOf)
def execAnd (o : SAlu) (s : State) : Out := .next (patForm o s Nat.land)
def execOr (o : SAlu) (s : State) : Out := .next (patForm o s Nat.lor)
def execXor (o : SAlu) (s : State) : Out := .next (patForm o s Nat.xor)
def execAndn (o : SAlu) (s : State) : Out := .next (patForm o s fun a b => Nat.land a (2 ^ o.t.w - 1 - b))
def execOrn (o : SAlu) (s : State) : Out := .next (patForm o s fun a b => Nat.lor a (2 ^ o.t.w - 1 - b))
def execShl (o : SAlu) (s : State) : Out := .next
  (bit0Form s o.p (.ok (writeS s o.d (extendTo o.t (reduceTo o.t o.sat
    (shlInt (intVal o.t (readS s o.a).toNat) (readS s o.b).toNat))))))
def execShr (o : SAlu) (s : State) : Out := .next (shiftForm o s (shrPat o.t.w))
def execSar (o : SAlu) (s : State) : Out := .next (shiftForm o s (sarPat o.t.w))
def execRol (o : SAlu) (s : State) : Out := .next (shiftForm o s (rolPat o.t.w))
def execRor (o : SAlu) (s : State) : Out := .next (shiftForm o s (rorPat o.t.w))
def execClz (o : SUn) (s : State) : Out := .next (unForm o s (clzPat o.t.w))
def execCtz (o : SUn) (s : State) : Out := .next (unForm o s (ctzPat o.t.w))
def execPopc (o : SUn) (s : State) : Out := .next (unForm o s (popcount o.t.w))
def execMin (o : SAlu) (s : State) : Out := .next (aluForm o s min)
def execMax (o : SAlu) (s : State) : Out := .next (aluForm o s max)
def execMinn (o : SAlu) (s : State) : Out := .next (aluForm o s min)
def execMaxn (o : SAlu) (s : State) : Out := .next (aluForm o s max)
def execSext (o : SUn) (s : State) : Out := .next (unForm o s id)
def execZext (o : SUn) (s : State) : Out := .next (unForm o s id)

/-! ### Bit fields and moves (R107, R108) -/

/-- Effective length of a field (R107). -/
def fieldLen (l p : Nat) : Nat := min l (64 - p)
/-- `bfx` (R107). -/
def bfxVal (t : Ty) (a : W64) (p l : Nat) : W64 :=
  if l = 0 ∨ 64 ≤ p then 0
  else if t == .i64 then sext64 (fieldLen l p) (fieldOf a p (fieldLen l p)) else zext64 (fieldLen l p) (fieldOf a p (fieldLen l p))
/-- `bfi` (R107). -/
def bfiVal (d a : W64) (p l : Nat) : W64 :=
  if l = 0 ∨ 64 ≤ p then d
  else
    let k := fieldLen l p
    BitVec.ofNat 64 (d.toNat - fieldOf d p k * 2 ^ p + a.toNat % 2 ^ k * 2 ^ p)

def execBfx (o : SBf) (s : State) : Out := .next
  (bit0Form s o.p (.ok (writeS s o.d (bfxVal o.t (readS s o.a) (readS s o.b).toNat (readS s o.c).toNat))))
def execBfi (o : SBf) (s : State) : Out := .next
  (bit0Form s o.p (.ok (writeS s o.d (bfiVal (readS s o.d) (readS s o.a) (readS s o.b).toNat (readS s o.c).toNat))))
def execSel (o : SSel) (s : State) : Out := .next
  (bit0Form s o.p (.ok (writeS s o.d (if bitOf (getP s o.c).toNat 0 then readS s o.a else readS s o.b))))
def execLi (o : SLi) (s : State) : Out := .next (bit0Form s o.p (.ok (setS s o.d (sext64 48 o.imm.toNat))))
def execAddip (o : SIp) (s : State) : Out := .next
  (bit0Form s o.p (.ok (writeS s o.d ((s.th.ipc &&& ~~~(63 : W64)) + sext64 32 o.imm.toNat))))
def execLea (o : SLea) (s : State) : Out := .next
  (bit0Form s o.p (.ok (setS s o.d (getS s o.a + sext64 32 o.disp.toNat))))
def execMov (o : SMov) (s : State) : Out := .next (bit0Form s o.p (.ok (writeS s o.d (readS s o.a))))

/-! ### Compares, predicates and index registers (R109 to R111) -/

/-- Scalar compare: all 16 bits of the predicate, and the conditions (R109). -/
def cmpForm (o : SCmp) (s : State) : State :=
  let r := cmpElem o.t o.cc ((readS s o.a).toNat % 2 ^ o.t.w) ((readS s o.b).toNat % 2 ^ o.t.w)
  bit0Form s o.p (.ok (setP (orFlags s r.2) o.d (if r.1 then 0xFFFF else 0)))
def execCmpI (o : SCmp) (s : State) : Out := .next (cmpForm o s)
def execCmpF (o : SCmp) (s : State) : Out := .next (cmpForm o s)

/-- Predicate form with two sources (R110). -/
def predForm (o : P3) (s : State) (f : W16 → W16 → W16) : State :=
  bit0Form s o.p (.ok (setP s o.d (f (getP s o.a) (getP s o.b))))
def execPand (o : P3) (s : State) : Out := .next (predForm o s fun a b => a &&& b)
def execPor (o : P3) (s : State) : Out := .next (predForm o s fun a b => a ||| b)
def execPxor (o : P3) (s : State) : Out := .next (predForm o s fun a b => a ^^^ b)
def execPnot (o : P2) (s : State) : Out := .next (bit0Form s o.p (.ok (setP s o.d (~~~(getP s o.a)))))
/-- `pmov` (R110). -/
def pmovVal (s : State) (o : PSOp) : Nat := match o with
  | .p r => (getP s r).toNat
  | .s r => (readS s r).toNat
def execPmov (o : PMov) (s : State) : Out := .next
  (bit0Form s o.p (.ok (match o.d with
    | .p r => setP s r (BitVec.ofNat 16 (pmovVal s o.a))
    | .s r => writeS s r (zext64 16 (pmovVal s o.a)))))
def execPcnt (o : PCnt) (s : State) : Out := .next
  (bit0Form s o.p (.ok (writeS s o.d (BitVec.ofNat 64 (popcount 16 (getP s o.a).toNat)))))

def execXset (o : XSet) (s : State) : Out := .next (bit0Form s o.p (.ok (setX s o.d o.imm)))
/-- `xadd` (R111). -/
def xaddVal (x : W32) (a m : W16) : W32 :=
  let y := signedOf 32 x.toNat + signedOf 16 a.toNat
  if m = 0 then BitVec.ofInt 32 y else BitVec.ofInt 32 (y - m.toNat * (y / (m.toNat : Int)))
def execXadd (o : XAdd) (s : State) : Out := .next (bit0Form s o.p (.ok (setX s o.d (xaddVal (getX s o.a) o.add o.m))))
def execXmov (o : XMov) (s : State) : Out := .next
  (bit0Form s o.p (.ok (setX s o.d (match o.a with
    | .x r => getX s r
    | .s r => BitVec.ofNat 32 (readS s r).toNat))))
def execXget (o : PCnt) (s : State) : Out := .next (bit0Form s o.p (.ok (writeS s o.d (sext64 32 (getX s o.a).toNat))))

end Machine
end Sys2Proof
end

