-- ==== Sys2Proof/Machine/Dispatch.lean ====
section
/-!
DEFINITION. Dispatch: one arm for each instruction, operation and event of the opcode table.
-/
namespace Sys2Proof
namespace Machine

def exec (i : Instr) (s : State) : Host.Outcome State Fault Refusal :=
  match i with
  | .add o => Sys2Proof.Machine.execAdd o s
  | .sub o => Sys2Proof.Machine.execSub o s
  | .addi o => Sys2Proof.Machine.execAddi o s
  | .mul o => Sys2Proof.Machine.execMul o s
  | .mulh o => Sys2Proof.Machine.execMulh o s
  | .mulhn o => Sys2Proof.Machine.execMulhn o s
  | .div o => Sys2Proof.Machine.execDiv o s
  | .divn o => Sys2Proof.Machine.execDivn o s
  | .rem o => Sys2Proof.Machine.execRem o s
  | .remn o => Sys2Proof.Machine.execRemn o s
  | .and o => Sys2Proof.Machine.execAnd o s
  | .or o => Sys2Proof.Machine.execOr o s
  | .xor o => Sys2Proof.Machine.execXor o s
  | .andn o => Sys2Proof.Machine.execAndn o s
  | .orn o => Sys2Proof.Machine.execOrn o s
  | .shl o => Sys2Proof.Machine.execShl o s
  | .shr o => Sys2Proof.Machine.execShr o s
  | .sar o => Sys2Proof.Machine.execSar o s
  | .rol o => Sys2Proof.Machine.execRol o s
  | .ror o => Sys2Proof.Machine.execRor o s
  | .clz o => Sys2Proof.Machine.execClz o s
  | .ctz o => Sys2Proof.Machine.execCtz o s
  | .popc o => Sys2Proof.Machine.execPopc o s
  | .min o => Sys2Proof.Machine.execMin o s
  | .max o => Sys2Proof.Machine.execMax o s
  | .minn o => Sys2Proof.Machine.execMinn o s
  | .maxn o => Sys2Proof.Machine.execMaxn o s
  | .sext o => Sys2Proof.Machine.execSext o s
  | .zext o => Sys2Proof.Machine.execZext o s
  | .bfx o => Sys2Proof.Machine.execBfx o s
  | .bfi o => Sys2Proof.Machine.execBfi o s
  | .sel o => Sys2Proof.Machine.execSel o s
  | .li o => Sys2Proof.Machine.execLi o s
  | .addip o => Sys2Proof.Machine.execAddip o s
  | .lea o => Sys2Proof.Machine.execLea o s
  | .mov o => Sys2Proof.Machine.execMov o s
  | .cmpI o => Sys2Proof.Machine.execCmpI o s
  | .cmpF o => Sys2Proof.Machine.execCmpF o s
  | .pand o => Sys2Proof.Machine.execPand o s
  | .por o => Sys2Proof.Machine.execPor o s
  | .pxor o => Sys2Proof.Machine.execPxor o s
  | .pnot o => Sys2Proof.Machine.execPnot o s
  | .pmov o => Sys2Proof.Machine.execPmov o s
  | .pcnt o => Sys2Proof.Machine.execPcnt o s
  | .xset o => Sys2Proof.Machine.execXset o s
  | .xadd o => Sys2Proof.Machine.execXadd o s
  | .xmov o => Sys2Proof.Machine.execXmov o s
  | .xget o => Sys2Proof.Machine.execXget o s
  | .br o => Sys2Proof.Machine.execBr o s
  | .jmp o => Sys2Proof.Machine.execJmp o s
  | .call o => Sys2Proof.Machine.execCall o s
  | .ret o => Sys2Proof.Machine.execRet o s
  | .loop o => Sys2Proof.Machine.execLoop o s
  | .brx o => Sys2Proof.Machine.execBrx o s
  | .end_ o => Sys2Proof.Machine.execEnd o s
  | .yield_ o => Sys2Proof.Machine.execYield o s
  | .ld o => Sys2Proof.Machine.execLd o s
  | .st o => Sys2Proof.Machine.execSt o s
  | .vld o => Sys2Proof.Machine.execVld o s
  | .vldConverting o => Sys2Proof.Machine.execVldConverting o s
  | .vst o => Sys2Proof.Machine.execVst o s
  | .vldm o => Sys2Proof.Machine.execVldm o s
  | .vstm o => Sys2Proof.Machine.execVstm o s
  | .ldk o => Sys2Proof.Machine.execLdk o s
  | .pref o => Sys2Proof.Machine.execPref o s
  | .vgath32 o => Sys2Proof.Machine.execVgath32 o s
  | .vgath64 o => Sys2Proof.Machine.execVgath64 o s
  | .vscat32 o => Sys2Proof.Machine.execVscat32 o s
  | .vscat64 o => Sys2Proof.Machine.execVscat64 o s
  | .trap o => Sys2Proof.Machine.execTrap o s
  | .tret o => Sys2Proof.Machine.execTret o s
  | .upret o => Sys2Proof.Machine.execUpret o s
  | .mfs o => Sys2Proof.Machine.execMfs o s
  | .mts o => Sys2Proof.Machine.execMts o s
  | .sysc o => Sys2Proof.Machine.execSysc o s
  | .brk o => Sys2Proof.Machine.execBrk o s
  | .rdtime o => Sys2Proof.Machine.execRdtime o s
  | .ifence o => Sys2Proof.Machine.execIfence o s
  | .halt o => Sys2Proof.Machine.execHalt o s
  | .vaddI o => Sys2Proof.Machine.execVaddI o s
  | .vaddF o => Sys2Proof.Machine.execVaddF o s
  | .vsubI o => Sys2Proof.Machine.execVsubI o s
  | .vsubF o => Sys2Proof.Machine.execVsubF o s
  | .vmulI o => Sys2Proof.Machine.execVmulI o s
  | .vmulF o => Sys2Proof.Machine.execVmulF o s
  | .vfma o => Sys2Proof.Machine.execVfma o s
  | .vfms o => Sys2Proof.Machine.execVfms o s
  | .vfnma o => Sys2Proof.Machine.execVfnma o s
  | .vdiv o => Sys2Proof.Machine.execVdiv o s
  | .vsqrt o => Sys2Proof.Machine.execVsqrt o s
  | .vrcp o => Sys2Proof.Machine.execVrcp o s
  | .vrsqrt o => Sys2Proof.Machine.execVrsqrt o s
  | .vexp2 o => Sys2Proof.Machine.execVexp2 o s
  | .vlog2 o => Sys2Proof.Machine.execVlog2 o s
  | .vminI o => Sys2Proof.Machine.execVminI o s
  | .vminF o => Sys2Proof.Machine.execVminF o s
  | .vmaxI o => Sys2Proof.Machine.execVmaxI o s
  | .vmaxF o => Sys2Proof.Machine.execVmaxF o s
  | .vabsI o => Sys2Proof.Machine.execVabsI o s
  | .vabsF o => Sys2Proof.Machine.execVabsF o s
  | .vnegI o => Sys2Proof.Machine.execVnegI o s
  | .vnegF o => Sys2Proof.Machine.execVnegF o s
  | .vcmpI o => Sys2Proof.Machine.execVcmpI o s
  | .vcmpF o => Sys2Proof.Machine.execVcmpF o s
  | .vsel o => Sys2Proof.Machine.execVsel o s
  | .vcvtII o => Sys2Proof.Machine.execVcvtII o s
  | .vcvtIF o => Sys2Proof.Machine.execVcvtIF o s
  | .vcvtFI o => Sys2Proof.Machine.execVcvtFI o s
  | .vcvtFF o => Sys2Proof.Machine.execVcvtFF o s
  | .vround o => Sys2Proof.Machine.execVround o s
  | .vand o => Sys2Proof.Machine.execVand o s
  | .vor o => Sys2Proof.Machine.execVor o s
  | .vxor o => Sys2Proof.Machine.execVxor o s
  | .vshl o => Sys2Proof.Machine.execVshl o s
  | .vshr o => Sys2Proof.Machine.execVshr o s
  | .vsar o => Sys2Proof.Machine.execVsar o s
  | .vperm32 o => Sys2Proof.Machine.execVperm32 o s
  | .vperm64 o => Sys2Proof.Machine.execVperm64 o s
  | .vbcast32 o => Sys2Proof.Machine.execVbcast32 o s
  | .vbcast64 o => Sys2Proof.Machine.execVbcast64 o s
  | .vext o => Sys2Proof.Machine.execVext o s
  | .vins o => Sys2Proof.Machine.execVins o s
  | .vredaddI o => Sys2Proof.Machine.execVredaddI o s
  | .vredaddF o => Sys2Proof.Machine.execVredaddF o s
  | .vredminI o => Sys2Proof.Machine.execVredminI o s
  | .vredminF o => Sys2Proof.Machine.execVredminF o s
  | .vredmaxI o => Sys2Proof.Machine.execVredmaxI o s
  | .vredmaxF o => Sys2Proof.Machine.execVredmaxF o s
  | .vscanI o => Sys2Proof.Machine.execVscanI o s
  | .vscanF o => Sys2Proof.Machine.execVscanF o s
  | .vdot8 o => Sys2Proof.Machine.execVdot8 o s
  | .vdot16 o => Sys2Proof.Machine.execVdot16 o s
  | .vmac8 o => Sys2Proof.Machine.execVmac8 o s
  | .vmac16 o => Sys2Proof.Machine.execVmac16 o s
  | .vrng o => Sys2Proof.Machine.execVrng o s
  | .vcompress o => Sys2Proof.Machine.execVcompress o s
  | .vexpand o => Sys2Proof.Machine.execVexpand o s
  | .vpopc o => Sys2Proof.Machine.execVpopc o s
  | .vlane o => Sys2Proof.Machine.execVlane o s
  | .vmov o => Sys2Proof.Machine.execVmov o s
  | .mbld8 o => Sys2Proof.Machine.execMbld8 o s
  | .mbld16 o => Sys2Proof.Machine.execMbld16 o s
  | .mbrel o => Sys2Proof.Machine.execMbrel o s
  | .mld32 o => Sys2Proof.Machine.execMld32 o s
  | .mld16 o => Sys2Proof.Machine.execMld16 o s
  | .mst32 o => Sys2Proof.Machine.execMst32 o s
  | .mst16 o => Sys2Proof.Machine.execMst16 o s
  | .mzero o => Sys2Proof.Machine.execMzero o s
  | .mmulE2M1 o => Sys2Proof.Machine.execMmulE2M1 o s
  | .mmul8 o => Sys2Proof.Machine.execMmul8 o s
  | .mmul16 o => Sys2Proof.Machine.execMmul16 o s
  | .mmacE2M1 o => Sys2Proof.Machine.execMmacE2M1 o s
  | .mmac8 o => Sys2Proof.Machine.execMmac8 o s
  | .mmac16 o => Sys2Proof.Machine.execMmac16 o s
  | .mfac o => Sys2Proof.Machine.execMfac o s
  | .mlradd o => Sys2Proof.Machine.execMlradd o s
  | .mlrmul o => Sys2Proof.Machine.execMlrmul o s
  | .mreef o => Sys2Proof.Machine.execMreef o s
  | .mprom o => Sys2Proof.Machine.execMprom o s
  | .mrank o => Sys2Proof.Machine.execMrank o s
  | .mcvt o => Sys2Proof.Machine.execMcvt o s
  | .mtr o => Sys2Proof.Machine.execMtr o s
  | .mscale o => Sys2Proof.Machine.execMscale o s
  | .mrec o => Sys2Proof.Machine.execMrec o s
  | .mrun o => Sys2Proof.Machine.execMrun o s
  | .mwait o => Sys2Proof.Machine.execMwait o s
  | .mfree o => Sys2Proof.Machine.execMfree o s
  | .rayopen o => Sys2Proof.Machine.execRayopen o s
  | .raytrace o => Sys2Proof.Machine.execRaytrace o s
  | .raywait o => Sys2Proof.Machine.execRaywait o s
  | .ivpost o => Sys2Proof.Machine.execIvpost o s
  | .ivread o => Sys2Proof.Machine.execIvread o s
  | .ivclr o => Sys2Proof.Machine.execIvclr o s
  | .ivstat o => Sys2Proof.Machine.execIvstat o s
  | .hitq o => Sys2Proof.Machine.execHitq o s
  | .rsvupd o => Sys2Proof.Machine.execRsvupd o s
  | .rsvmrg o => Sys2Proof.Machine.execRsvmrg o s
  | .rsvget o => Sys2Proof.Machine.execRsvget o s
  | .logset o => Sys2Proof.Machine.execLogset o s
  | .replay o => Sys2Proof.Machine.execReplay o s
  | .amoI o => Sys2Proof.Machine.execAmoI o s
  | .amoF o => Sys2Proof.Machine.execAmoF o s
  | .cas o => Sys2Proof.Machine.execCas o s
  | .cas2 o => Sys2Proof.Machine.execCas2 o s
  | .redI o => Sys2Proof.Machine.execRedI o s
  | .redF o => Sys2Proof.Machine.execRedF o s
  | .amsg o => Sys2Proof.Machine.execAmsg o s
  | .gath o => Sys2Proof.Machine.execGath o s
  | .fence o => Sys2Proof.Machine.execFence o s
  | .ldPath o => Sys2Proof.Machine.execLdPath o s
  | .stPath o => Sys2Proof.Machine.execStPath o s
  | .vldPath o => Sys2Proof.Machine.execVldPath o s
  | .vstPath o => Sys2Proof.Machine.execVstPath o s
  | .cset o => Sys2Proof.Machine.execCset o s
  | .cpygo o => Sys2Proof.Machine.execCpygo o s
  | .cpycan o => Sys2Proof.Machine.execCpycan o s
  | .semw o => Sys2Proof.Machine.execSemw o s
  | .seminc o => Sys2Proof.Machine.execSeminc o s
  | .semset o => Sys2Proof.Machine.execSemset o s
  | .mcset o => Sys2Proof.Machine.execMcset o s
  | .rst o => Sys2Proof.Machine.execRst o s
  | .send o => Sys2Proof.Machine.execSend o s
  | .cmask o => Sys2Proof.Machine.execCmask o s
  | .cunmask o => Sys2Proof.Machine.execCunmask o s
  | .qbind o => Sys2Proof.Machine.execQbind o s
  | .qlen o => Sys2Proof.Machine.execQlen o s
  | .qdrop o => Sys2Proof.Machine.execQdrop o s
  | .spawn o => Sys2Proof.Machine.execSpawn o s
  | .spawnt o => Sys2Proof.Machine.execSpawnt o s
  | .join o => Sys2Proof.Machine.execJoin o s
  | .ejoin o => Sys2Proof.Machine.execEjoin o s
  | .ewait o => Sys2Proof.Machine.execEwait o s
  | .eset o => Sys2Proof.Machine.execEset o s
  | .launch o => Sys2Proof.Machine.execLaunch o s
  | .cancel o => Sys2Proof.Machine.execCancel o s
  | .ctrd o => Sys2Proof.Machine.execCtrd o s
  | .resid o => Sys2Proof.Machine.execResid o s
  | .defer_ o => Sys2Proof.Machine.execDefer o s
  | .castpin o => Sys2Proof.Machine.execCastpin o s
  | .tlbinv o => Sys2Proof.Machine.execTlbinv o s
  | .ctxsv o => Sys2Proof.Machine.execCtxsv o s
  | .ctxrs o => Sys2Proof.Machine.execCtxrs o s
  | .rgload o => Sys2Proof.Machine.execRgload o s
  | .mtsp o => Sys2Proof.Machine.execMtsp o s
  | .translationRegisterWrite ctx cluster => Sys2Proof.Machine.execTranslationRegisterWrite ctx cluster s
  | .ffbaseWrite g v => Sys2Proof.Machine.execFfbaseWrite g v s
  | .fresRetry fid => Sys2Proof.Machine.execFresRetry fid s
  | .fresAbort fid => Sys2Proof.Machine.execFresAbort fid s
  | .fresDiscard fid => Sys2Proof.Machine.execFresDiscard fid s
  | .dcmdHalt g => Sys2Proof.Machine.execDcmdHalt g s
  | .dcmdResume g => Sys2Proof.Machine.execDcmdResume g s
  | .dcmdStep g => Sys2Proof.Machine.execDcmdStep g s
  | .ddataWrite g pool off v => Sys2Proof.Machine.execDdataWrite g pool off v s
  | .rigNop cluster slot => Sys2Proof.Machine.execRigNop cluster slot s
  | .rigLdi cluster slot => Sys2Proof.Machine.execRigLdi cluster slot s
  | .rigMov cluster slot => Sys2Proof.Machine.execRigMov cluster slot s
  | .rigAdd cluster slot => Sys2Proof.Machine.execRigAdd cluster slot s
  | .rigSub cluster slot => Sys2Proof.Machine.execRigSub cluster slot s
  | .rigAnd cluster slot => Sys2Proof.Machine.execRigAnd cluster slot s
  | .rigOr cluster slot => Sys2Proof.Machine.execRigOr cluster slot s
  | .rigShl cluster slot => Sys2Proof.Machine.execRigShl cluster slot s
  | .rigShr cluster slot => Sys2Proof.Machine.execRigShr cluster slot s
  | .rigCmp cluster slot => Sys2Proof.Machine.execRigCmp cluster slot s
  | .rigRayw cluster slot => Sys2Proof.Machine.execRigRayw cluster slot s
  | .rigFetch cluster slot => Sys2Proof.Machine.execRigFetch cluster slot s
  | .rigNbw cluster slot => Sys2Proof.Machine.execRigNbw cluster slot s
  | .rigBox cluster slot => Sys2Proof.Machine.execRigBox cluster slot s
  | .rigChild cluster slot => Sys2Proof.Machine.execRigChild cluster slot s
  | .rigPush cluster slot => Sys2Proof.Machine.execRigPush cluster slot s
  | .rigPop cluster slot => Sys2Proof.Machine.execRigPop cluster slot s
  | .rigFront cluster slot => Sys2Proof.Machine.execRigFront cluster slot s
  | .rigTri cluster slot => Sys2Proof.Machine.execRigTri cluster slot s
  | .rigSplat cluster slot => Sys2Proof.Machine.execRigSplat cluster slot s
  | .rigLeaf cluster slot => Sys2Proof.Machine.execRigLeaf cluster slot s
  | .rigCall cluster slot => Sys2Proof.Machine.execRigCall cluster slot s
  | .rigRet cluster slot => Sys2Proof.Machine.execRigRet cluster slot s
  | .rigDone cluster slot => Sys2Proof.Machine.execRigDone cluster slot s
  | .microwordWatchdog cluster slot => Sys2Proof.Machine.execMicrowordWatchdog cluster slot s
  | .hitTaskPush cluster => Sys2Proof.Machine.execHitTaskPush cluster s
  | .listArrival cluster slot => Sys2Proof.Machine.execListArrival cluster slot s
  | .rayDone cluster slot => Sys2Proof.Machine.execRayDone cluster slot s
  | .taskPop g => Sys2Proof.Machine.execTaskPop g s
  | .agingPop g => Sys2Proof.Machine.execAgingPop g s
  | .activationStart g => Sys2Proof.Machine.execActivationStart g s
  | .steal cluster ctx => Sys2Proof.Machine.execSteal cluster ctx s
  | .stealRetry cluster ctx => Sys2Proof.Machine.execStealRetry cluster ctx s
  | .overflowRefill cluster ctx prio => Sys2Proof.Machine.execOverflowRefill cluster ctx prio s
  | .continuationPush ctx => Sys2Proof.Machine.execContinuationPush ctx s
  | .coreBind core ctx lid => Sys2Proof.Machine.execCoreBind core ctx lid s
  | .coreRelease core => Sys2Proof.Machine.execCoreRelease core s
  | .launchAdmission ctx lid => Sys2Proof.Machine.execLaunchAdmission ctx lid s
  | .unitDispatch ctx lid => Sys2Proof.Machine.execUnitDispatch ctx lid s
  | .residentRelease ctx lid => Sys2Proof.Machine.execResidentRelease ctx lid s
  | .engineFault cluster id => Sys2Proof.Machine.execEngineFault cluster id s
  | .macroParityError core mac => Sys2Proof.Machine.execMacroParityError core mac s
  | .matrixGrant cluster => Sys2Proof.Machine.execMatrixGrant cluster s
  | .matrixMigration core => Sys2Proof.Machine.execMatrixMigration core s
  | .matrixCommandComplete core => Sys2Proof.Machine.execMatrixCommandComplete core s
  | .copyStart cluster id groups order => Sys2Proof.Machine.execCopyStart cluster id groups order s
  | .copyComplete cluster id => Sys2Proof.Machine.execCopyComplete cluster id s
  | .homeLoad g addr => Sys2Proof.Machine.execHomeLoad g addr s
  | .homeStore g => Sys2Proof.Machine.execHomeStore g s
  | .storeAcknowledge g => Sys2Proof.Machine.execStoreAcknowledge g s
  | .atomicReply g => Sys2Proof.Machine.execAtomicReply g s
  | .uCopyMerge cluster line => Sys2Proof.Machine.execUCopyMerge cluster line s
  | .amsgPerform g => Sys2Proof.Machine.execAmsgPerform g s
  | .amsgReply g => Sys2Proof.Machine.execAmsgReply g s
  | .lineFill ctx slot sector => Sys2Proof.Machine.execLineFill ctx slot sector s
  | .writeBackDrain line => Sys2Proof.Machine.execWriteBackDrain line s
  | .ptsTick => Sys2Proof.Machine.execPtsTick s
  | .timestampRebase => Sys2Proof.Machine.execTimestampRebase s
  | .routerGrant cluster port => Sys2Proof.Machine.execRouterGrant cluster port s
  | .routerAgingGrant cluster port => Sys2Proof.Machine.execRouterAgingGrant cluster port s
  | .rstDelivery packet => Sys2Proof.Machine.execRstDelivery packet s
  | .sendDelivery packet => Sys2Proof.Machine.execSendDelivery packet s
  | .pAcknowledge packet => Sys2Proof.Machine.execPAcknowledge packet s
  | .packetForward packet => Sys2Proof.Machine.execPacketForward packet s
  | .swapInstant part => Sys2Proof.Machine.execSwapInstant part s
  | .castle part => Sys2Proof.Machine.execCastle part s
  | .placementUpdate core => Sys2Proof.Machine.execPlacementUpdate core s
  | .forwardingExpiry core => Sys2Proof.Machine.execForwardingExpiry core s
  | .contextDrain ctx => Sys2Proof.Machine.execContextDrain ctx s
  | .correctableError loc => Sys2Proof.Machine.execCorrectableError loc s
  | .uncorrectableError loc => Sys2Proof.Machine.execUncorrectableError loc s
  | .scrub loc => Sys2Proof.Machine.execScrub loc s
  | .doorbellWrite part tail => Sys2Proof.Machine.execDoorbellWrite part tail s
  | .jobDescriptor part ctx slot base len => Sys2Proof.Machine.execJobDescriptor part ctx slot base len s
  | .jobCompletion ring => Sys2Proof.Machine.execJobCompletion ring s
  | .hostApertureAccess part slot off write data => Sys2Proof.Machine.execHostApertureAccess part slot off write data s
  | .bilathMemoryWrite conn ctx va data => Sys2Proof.Machine.execBilathMemoryWrite conn ctx va data s
  | .bilathClassMessage conn ctx core cls ev data => Sys2Proof.Machine.execBilathClassMessage conn ctx core cls ev data s
  | .macsecFrameDrop port => Sys2Proof.Machine.execMacsecFrameDrop port s
  | .spdmRequest req hashOk sigOk => Sys2Proof.Machine.execSpdmRequest req hashOk sigOk s
  | .tdispLock part => Sys2Proof.Machine.execTdispLock part s
  | .tdispUnlock part => Sys2Proof.Machine.execTdispUnlock part s
  | .contextCreate ctx part slots => Sys2Proof.Machine.execContextCreate ctx part slots s
  | .semaphoreAssign cluster n ctx => Sys2Proof.Machine.execSemaphoreAssign cluster n ctx s
  | .castlingControlWordWrite part w => Sys2Proof.Machine.execCastlingControlWordWrite part w s
  | .partitionRangeWrite part k w => Sys2Proof.Machine.execPartitionRangeWrite part k w s
  | .telemetryRead reg => Sys2Proof.Machine.execTelemetryRead reg s
  | .boot ok caps meas => Sys2Proof.Machine.execBoot ok caps meas s
  | .thermalTrip => Sys2Proof.Machine.execThermalTrip s
  | .monitorSample monitor value act => Sys2Proof.Machine.execMonitorSample monitor value act s
  | .hbmRefresh controller => Sys2Proof.Machine.execHbmRefresh controller s
  | .phyCalibration link => Sys2Proof.Machine.execPhyCalibration link s
  | .serviceMessageDelivery k => Sys2Proof.Machine.execServiceMessageDelivery k s
  | .cxlCacheResponse g => Sys2Proof.Machine.execCxlCacheResponse g s
  | .formatWindowWrite controller window reg w => Sys2Proof.Machine.execFormatWindowWrite controller window reg w s
  | .partitionCreation part c0 c1 r0 r1 sup supCore timerOff => Sys2Proof.Machine.execPartitionCreation part c0 c1 r0 r1 sup supCore timerOff s
  | .keySlotFill ctx k aliasOf => Sys2Proof.Machine.execKeySlotFill ctx k aliasOf s
  | .systemImageTimer ctx bit => Sys2Proof.Machine.execSystemImageTimer ctx bit s
  | .bilathRetransmission conn => Sys2Proof.Machine.execBilathRetransmission conn s
  | .corePowerGating core on => Sys2Proof.Machine.execCorePowerGating core on s

end Machine
end Sys2Proof
end

