-- ==== Sys2Proof/Machine/Issue.lean ====
section
/-!
DEFINITION. Issue: the issue of one instruction or pair by the thread set in focus (R18, R42 to R47, R62, R63, R114, R375).
-/
namespace Sys2Proof
namespace Machine

/-- Issue classes of R62: 0 scalar, 1 control, 2 memory, 3 vector, 4 matrix, 5 solo. -/
def issueClass (opc : Nat) : Nat :=
  if (0x01 ≤ opc ∧ opc ≤ 0x22) ∨ (0x24 ≤ opc ∧ opc ≤ 0x30) ∨ opc = 0x49 ∨ opc = 0x4A ∨ opc = 0x4D then 0
  else if (0x31 ≤ opc ∧ opc ≤ 0x38) ∨ (0x46 ≤ opc ∧ opc ≤ 0x48) ∨ opc = 0x4B ∨ opc = 0x4C ∨ opc = 0x4F then 1
  else if opc = 0x23 ∨ (0x39 ≤ opc ∧ opc ≤ 0x45) ∨ (0xB5 ≤ opc ∧ opc ≤ 0xBC) ∨ (0xBE ≤ opc ∧ opc ≤ 0xC1) ∨ opc = 0xC9
    ∨ opc = 0xCA then 2
  else if (0x50 ≤ opc ∧ opc ≤ 0x8C) ∨ (0xB0 ≤ opc ∧ opc ≤ 0xB2) then 3
  else if 0x8D ≤ opc ∧ opc ≤ 0xA7 then 4
  else 5

/-- Opcodes whose DST field is read, or names nothing that is written: stores and branches, `mst`, `rst` and `qbind`. -/
def dstNotWritten (opc : Nat) : Bool :=
  [0x31, 0x3A, 0x3D, 0x3F, 0x44, 0x45, 0x92, 0x93, 0xBF, 0xC1, 0xC9, 0xCD].contains opc

/-- The vector registers from an operand on, `n` of them, by the numbers that R44 and the scoreboard compare: operand codes, and
extended registers from 0x2000 up. Those that do not exist are none (R55). -/
def vecRun (s : State) (b n : Nat) : List Nat :=
  if 0x20 ≤ b ∧ b < 0x40 then ((List.range n).map (b + ·)).filter (· < 0x40)
  else if 0x80 ≤ b then
    let i := extIndex s (Fin.ofNat 8 (b / 16 % 8)) (Fin.ofNat 16 b)
    (List.range n).filterMap fun (k : Nat) => if 0 ≤ i + k ∧ i + k < allocOf s then some (0x2000 + (i + k).toNat) else none
  else []
/-- Registers that the vector operand of a field names: DST, SA, SB and SC are fields 0 to 3 (R120, R180, R195, R211). -/
def runLen (s : State) (r : Raw) (field : Nat) : Nat :=
  let opc := r.opc.toNat
  if (opc = 0x3E ∨ opc = 0x3F) ∧ field = 0 then min 33 (getS s (Fin.ofNat 32 r.sb.toNat)).toNat
  else if opc = 0x9B ∧ (field = 1 ∨ field = 2) then 4
  else if (opc = 0xA8 ∧ field = 1) ∨ (opc = 0xAF ∧ field = 0) then 2
  else 1
/-- A written register by the number that R44 compares; none for s0, p0 and queue registers. -/
def regId (s : State) (b n : Nat) : List Nat :=
  if b = 0 ∨ b = 0x60 ∨ (0x48 ≤ b ∧ b < 0x60) then []
  else if (0x20 ≤ b ∧ b < 0x40) ∨ 0x80 ≤ b then vecRun s b n
  else if 0x70 ≤ b then [0x1000 + (b - 0x70)]
  else [b]
/-- Registers that an instruction writes when its predicate is true (R44). -/
def writesOf (s : State) (r : Raw) : List Nat :=
  let opc := r.opc.toNat
  let d := r.dst.toNat
  if dstNotWritten opc then []
  else if opc = 0x4A then [0x1000 + r.imm.toNat % 4096]
  else if opc = 0xB8 then regId s d 1 ++ [d + 1]
  else regId s d (runLen s r 0)
/-- A pair is legal (R44). -/
def pairLegal (s : State) (line : V512) (j : Nat) (a b : Raw) : Bool :=
  let ca := issueClass a.opc.toNat
  let cb := issueClass b.opc.toNat
  let plain := fun c => c == 0 || c == 2 || c == 3 || c == 4
  !(j != 0 && pairBit line (j - 1)) && !(j < 3 && pairBit line (j + 1)) &&
  ((plain ca && plain cb && ca != cb) || (cb == 1 && ca != 1) || (ca == 1 && plain cb)) &&
  (writesOf s a).all fun x => !(writesOf s b).contains x

/-- Operand codes that an instruction names; `cas2` names the odd registers too (R264). -/
def operandCodes (r : Raw) : List Nat :=
  let l := [r.dst.toNat, r.sa.toNat, r.sb.toNat, r.sc.toNat]
  if r.opc = 0xB8 then l ++ [r.dst.toNat + 1, r.sb.toNat + 1, r.sc.toNat + 1] else l
/-- Vector registers that an instruction names, by the numbers of `vecRun`. -/
def vectorCodes (s : State) (r : Raw) : List Nat :=
  ([r.dst.toNat, r.sa.toNat, r.sb.toNat, r.sc.toNat].zipIdx).flatMap fun e => vecRun s e.1 (runLen s r e.2)
/-- The number of a vector destination in that numbering. -/
def vdstCode (d : VDst) : List Nat := match d with
  | .base n => [0x20 + n.val]
  | .ext i => [0x2000 + i]
  | .queue _ => []
/-- Scalar and vector registers that a C access will write. -/
def creqS (q : CReq) : List Nat := match q.kind with
  | .load _ | .amo _ _ _ | .cas _ _ _ | .join _ _ => [q.dst]
  | .cas2 _ _ => [q.dst, q.dst + 1]
  | _ => []
def creqV (q : CReq) : List Nat := match q.kind with
  | .vload _ d | .gath _ _ _ d | .conv _ _ d => vdstCode d
  | _ => []
/-- Scalar registers whose value has not arrived: pending status registers and results of loads and atomics (R19, R260, R273). -/
def awaitedS (t : Thread) : List Nat :=
  ((List.range 32).filter (bitOf t.busy.toNat)) ++ t.creqs.flatMap creqS ++
  (t.kreqs.filterMap fun q => if q.vec.isNone then some q.dst else none) ++
  (t.hreqs.filterMap fun q => if q.load && !q.vec then some q.dst else none)
/-- Vector registers whose value has not arrived: results of loads and active messages (R19, R249, R268). -/
def awaitedV (t : Thread) : List Nat :=
  t.creqs.flatMap creqV ++ (t.kreqs.flatMap fun q => match q.vec with
    | some (_, d) => vdstCode d
    | none => []) ++
  (t.hreqs.flatMap fun q => if q.load && q.vec then vdstCode q.vdst else []) ++ t.amsgs.flatMap fun q => vdstCode q.dst
/-- An instruction that reads or writes `flags`: by its shortcut, or by number in `mfs` and `mts` (R56, R82, R123). -/
def touchesFlags (r : Raw) : Bool :=
  (operandCodes r).contains 0x78 || (r.opc.toNat == 0x49 || r.opc.toNat == 0x4A) && r.imm.toNat % 4096 == 8
/-- A floating atomic or a converting load whose exception conditions have not arrived (R82, R153, R262). -/
def awaitsFlags (t : Thread) : Bool := t.creqs.any fun q => match q.kind with
  | .amo ty _ _ => !ty.isInt
  | .conv _ _ _ => true
  | _ => false
/-- An atomic whose acquire set has not acted yet (R261). -/
def awaitsAcquire (t : Thread) : Bool := t.creqs.any (·.acq != 0) || t.ureqs.any (·.acq != 0)
/-- An instruction that resumes from a frame. -/
def isReturn (i : Instr) : Bool := match i with
  | .tret _ => true
  | .upret _ => true
  | _ => false
/-- A load on path C, whose values arrive in program order (R280). -/
def isLoadC (i : Instr) : Bool := match i with
  | .vld _ | .vgath32 _ | .vgath64 _ => true
  | .vldConverting o => o.src != .auto
  | _ => false
/-- Queue register of a vector operand's code (R53). -/
def queueCode (b : Byte) : Option Nat := if 0x50 ≤ b.toNat ∧ b.toNat < 0x60 then some (b.toNat - 0x50) else none
/-- Queue registers that an instruction pops, and pushes (R57). -/
def queuePops (r : Raw) : List Nat :=
  (r.sa :: r.sb :: r.sc :: if dstNotWritten r.opc.toNat then [r.dst] else []).filterMap queueCode
def queuePushes (r : Raw) : List Nat := if dstNotWritten r.opc.toNat then [] else [r.dst].filterMap queueCode
/-- A push comes after those of the thread set's earlier loads on the same queue register: an instruction waits for them, but a C load
only for loads of other paths (R57; log 71). -/
def awaitsPush (t : Thread) (r : Raw) (i : Instr) : Bool := (queuePushes r).any fun q =>
  t.pushes.contains q && !(isLoadC i && (t.pushes.filter (· == q)).length == (t.loadPushes.filter (· == q)).length)
/-- A frame in the pool is read after the thread set's earlier stores there (R129, R130). -/
def awaitsFrame (t : Thread) (i : Instr) : Bool := isReturn i && t.creqs.any fun q => q.pool && !q.kind.isRead
/-- The scoreboard holds an instruction back (R18, R82, R273). A predicate that leaves nothing active does not matter here. -/
def scoreboard (s : State) (r : Raw) (i : Instr) : Bool :=
  awaitsAcquire s.th || touchesFlags r && awaitsFlags s.th || awaitsPush s.th r i || awaitsFrame s.th i ||
  (operandCodes r).any (fun b => b != 0 && b < 0x20 && (awaitedS s.th).contains b) ||
  (vectorCodes s r).any fun v => (awaitedV s.th).contains v

/-- `end`, whose waits follow its issue (R115). -/
def isEnd (i : Instr) : Bool := match i with
  | .end_ _ => true
  | _ => false

/-- The thread set as an instruction finds it: `ipc` its address, `pc` where sequential flow goes. -/
def atInstr (s : State) (ipc pc : W64) (slot1 inPair : Bool) : State :=
  withTh s fun t => { t with ipc := ipc, pc := pc, slot1 := slot1, inPair := inPair, solo := false, res := .issued }
/-- What follows an instruction that issued: the pending target of R114 and R375, and the transferred prefix ends. -/
def afterInstr (i : Instr) (ptgt : Option W64) (seq : W64) (s : State) : State :=
  withTh s fun t =>
    let t := { t with snap := none, slot1 := false, inPair := false, ending := false }
    if t.res = .issued then
      (if isReturn i then t
      else
        let t := { t with xfer := none }
        match ptgt with
        | some p => if t.pc = seq then { t with pc := p, ptgt := none } else { t with ptgt := none }
        | none => { t with ptgt := none })
    else t

/-- An instruction that is not ready and has begun what it waits for issues again, with its pair (R354, R370). -/
def holdAt (s s1 : State) : State :=
  withTh s1 fun t => { t with pc := s.th.pc, solo := s.th.solo, ptgt := s.th.ptgt, xfer := s.th.xfer, slot1 := false, inPair := false }
/-- The meaning of an instruction finds it not ready (R18). -/
def waits (x : Out) : Bool := match x with
  | .next t => t.th.res == .stalled || t.th.res == .begun
  | _ => false
/-- Issue of one instruction alone (R63 steps 5 to 7, R375). -/
def issueOne (s : State) (pc : W64) (r : Raw) (i : Instr) : Out :=
  if scoreboard s r i then .next (stalled s)
  else
    let seq := nextAddr pc
    match exec i (atInstr s pc seq s.th.solo false) with
    | .next s' => .next (match s'.th.res with
      | .stalled => stalled s
      | .begun => holdAt s s'
      | _ => afterInstr i s.th.ptgt seq s')
    | .fault f => .fault f
    | .refused f => .refused f

/-- The queue registers with the pops and pushes of slot j counted, where slot j + 1 is judged (R45). -/
def countedQ (s : State) (r : Raw) : State := withCore s fun c =>
  (queuePushes r).foldl (fun c q => qSet c q (qOf c q ++ [0])) ((queuePops r).foldl (fun c q => qSet c q ((qOf c q).drop 1)) c)
/-- Issue of a pair (R44, R45, R114): when slot j traps or halts, slot j + 1 is judged ready on the state before the pair, with slot j's
pops and pushes counted. An `end` in slot j + 1 waits for slot j's command too (R115). -/
def issuePair (s : State) (pc : W64) (ra rb : Raw) (a b : Instr) : Out :=
  if scoreboard s ra a || scoreboard s rb b then .next (stalled s)
  else
    let pc1 := pc + 1
    let seq := nextAddr pc1
    let s0 := withTh (atInstr s pc seq false true) fun t => { t with ptgt := none }
    match exec a s0 with
    | .fault f => .fault f
    | .refused f => .refused f
    | .next s1 =>
      match s1.th.res with
      | .stalled => .next (stalled s)
      | .begun => .next (holdAt s s1)
      | .trapped => .next (if !isEnd b && waits (exec b (atInstr (countedQ s ra) pc1 seq true true)) then stalled s else afterInstr a none seq s1)
      | .issued =>
        -- slot j + 1 reads the registers and the pool as they stood before the pair
        let after := if isReturn a then some s1.th.pc else s1.th.ptgt
        let s2 := withTh (atInstr s1 pc1 seq true true) fun t =>
          { t with snap := some (s.th.rf, s.core.pool, if isEnd b then s1.core.mnum else s.core.mnum), ptgt := after, xfer := none }
        match exec b s2 with
        | .fault f => .fault f
        | .refused f => .refused f
        | .next s3 =>
          if s3.th.res = .stalled then
            (match isEnd b, exec b (atInstr s pc1 seq true true) with
            | true, .next s4 => if s4.th.res = .stalled then .next (stalled s)
              else .next (withTh s1 fun t => { t with pc := pc1, solo := true, inPair := false, ending := true })
            | _, _ => .next (stalled s))
          else
            let s4 := afterInstr b after seq s3
            .next (if s3.th.res = .issued && isReturn a then
              withTh s4 fun t => { t with solo := s1.th.solo, xfer := s1.th.xfer, ptgt := s1.th.ptgt } else s4)

/-- A trap raised before execution, at slot j (R63 steps 1 to 4); the prefix that a resumption goes on from stays (R375). -/
def issueTrap (s : State) (pc : W64) (t : Trap) : State :=
  takeTrap (atInstr s pc (nextAddr pc) s.th.solo false) { t with xfer := s.th.xfer }

/-- The slots that issue: the slot number, and whether its pair partner issues with it (R44, R45, R375). -/
def slotOfPc (pc : W64) : Nat := min (fieldOf pc 0 3) 4
def pairsAt (s : State) (line : V512) (k : Nat) : Bool := !s.th.solo && decide (k < 4) && pairBit line k

/-- Checks of R63 steps 2 to 4 on a fetched line, then the issue. -/
def issueLine (s : State) (pc : W64) (line : V512) : Out :=
  let k := slotOfPc pc
  if bitsOf (lineWord line) 9 17 ≠ 0 then .next (issueTrap s pc (trapOf cILLEGAL 0))
  else
    let ra := Raw.ofWord (slotWord line k)
    match decodeRaw ra with
    | .error _ => .next (issueTrap s pc (trapOf cILLEGAL 0))
    | .ok a =>
      if pairsAt s line k then
        let rb := Raw.ofWord (slotWord line (k + 1))
        match decodeRaw rb with
        | .error _ => .next (issueTrap s pc (trapOf cILLEGAL 0))
        | .ok b =>
          if pairLegal s line k ra rb then issuePair s pc ra rb a b
          else .next (issueTrap s pc (trapOf cILLPAIR 0))
      else issueOne s pc ra a

/-- A 64-bit value of the form of R42: bits 5:3 zero and a slot of the line. -/
def instrForm (pc : W64) : Bool := fieldOf pc 3 3 == 0 && decide (fieldOf pc 0 3 ≤ 4)
/-- Fetch and issue of the thread set in focus (R46, R48, R63). A restart address that a handler or a debugger rewrote and that
is no instruction address traps BADTARGET (log 8). -/
def tryIssue (s : State) : Out :=
  let pc := s.th.pc
  let k := slotOfPc pc
  let good := fun line => lparOk line && sparOk line k && (!pairsAt s line k || sparOk line (k + 1))
  let at_ := atInstr s pc (nextAddr pc) s.th.solo false
  if !instrForm pc then .next (issueTrap s pc (trapOf cBADTARGET pc)) else
  match checkedLine s pc.toNat good with
  | (true, .ok line s') => issueLine s' pc line
  | (false, .ok _ s') => .next (issueTrap s' pc (trapOf cLINEPAR 0))
  | (_, .page) => .next (takePage at_ { trapAcc cPAGE pc (accWord .K false true 64) with xfer := s.th.xfer })
  | (_, .perm) => .next (issueTrap s pc (trapAcc cPERM pc (accWord .K false true 64)))

/-- A thread set that has issued holds no `yield` of its core any more (R116). -/
def releaseYields (s : State) : State :=
  let g := s.here
  (List.range 4).foldl (fun s i =>
    let h := 4 * myCore s + i
    let t := threadAt s h
    if h ≠ g ∧ t.yields.contains g then setThread s h { t with yields := t.yields.filter (· != g) } else s) s

/-- End of a single step (R396): the thread set halts again, after both slots of a pair; one that has ended, stopped or blocked stays
so. -/
def endStep (s : State) : State :=
  if s.th.dstep && !s.th.ending && (s.th.res == .issued || s.th.res == .trapped) then
    (match s.th.st with
    | .task | .activation => enterHalt s s.th.pc s.th.solo s.th.ptgt
    | .blocked => s
    | _ => withTh s fun t => { t with dstep := false })
  else s

/-- The context of a core drains: its thread sets do not issue (R385). -/
def drainingCore (s : State) : Bool := match s.core.ctx with
  | some c => (getCtx s c).draining
  | none => true

/-- The thread set in focus may issue: it runs work, its context does not drain but for an `end` that has issued, and its core has
power (R18, R385). -/
def canIssue (s : State) : Bool := mayIssue s.th && (!drainingCore s || s.th.ending) && !s.core.gated
/-- A thread set is ready (R18): its next instruction would issue. -/
def isReady (s : State) (g : Nat) : Bool :=
  let f := focus s g
  canIssue f && !waits (tryIssue f)
/-- One turn of thread set `g`: it becomes the focus and issues when it is ready (R18); a `yield` waits for those that were ready
(R116). -/
def turn (s : State) (g : Nat) : Out :=
  let s := focus s g
  if canIssue s then
    match tryIssue s with
    | .next s' =>
      .next (endStep (if s'.th.res = .issued ∨ s'.th.res = .trapped then
        releaseYields (withTh (withCore s' fun c => { c with lastTs := g % 4 }) fun t => { t with yields := t.yields.filter (isReady s) })
      else s'))
    | .fault f => .fault f
    | .refused f => .refused f
  else .next (stalled s)

end Machine
end Sys2Proof
end

