-- ==== Sys2Proof/Machine/Auto.lean ====
section
/-!
DEFINITION. Auto: what a step does when the agenda names nothing (log 3), the passage of time (log 4), and the placing of a
word where the thread set in focus fetches.
-/
namespace Sys2Proof
namespace Machine

/-- The passage of time of one step (R37, R131, R409; log 4): each tick of 256 cycles is given as it falls due (R251). -/
def passTime (s : State) : State :=
  tick { s with steps := s.steps + 1, cycle := s.cycle + 1 + BitVec.ofNat 64 (Config.stepCycles s.steps),
                rtime := s.rtime + BitVec.ofNat 64 (Config.stepNanos s.steps) }

/-- Cores of which the state holds anything, in rising order, whichever is in focus. -/
def heldCores (s : State) : List Nat := (amSet s.cores (myCore s) s.core).map (·.1)
/-- Thread sets of a core in the rotating order of R18. -/
def coreOrder (s : State) (c : Nat) : List Nat := (List.range 4).map fun i => 4 * c + ((getCore s c).lastTs + 1 + i) % 4
/-- Thread sets of the cores that hold work, each core's in its order. The core that comes first changes every second step, so that
the alternation of `autoStep` passes over none. -/
def candidates (s : State) : List Nat :=
  let cores := heldCores s
  let k := s.steps / 2 % cores.length
  (cores.drop k ++ cores.take k).flatMap (coreOrder s)

/-- The first thread set of a list that issues, or none, with the state after the turns that did not issue. -/
def firstToIssue : List Nat → State → Option Out × State
  | [], s => (none, s)
  | g :: l, s =>
    if mayIssue (threadAt s g) then
      match turn s g with
      | .next s' => if s'.th.res = .stalled then firstToIssue l s' else (some (.next s'), s')
      | x => (some x, s)
    else firstToIssue l s

/-- What a search for an issue answers: the issue, or the state when no thread set issues. -/
def issuedOr (r : Option Out × State) : Out := r.1.getD (.next r.2)
/-- A turn of a core's issue port (R18). -/
def issueCore (s : State) (c : Nat) : Out := issuedOr (firstToIssue (coreOrder s c) s)

/-- A thread set that has ceased to be ready releases those that wait for it in a `yield` (R116). -/
def judgeYields (s : State) : State :=
  let waiting := ((heldCores s).flatMap (coreOrder s)).filter fun g => !(threadAt s g).yields.isEmpty
  waiting.foldl (fun t g => onThread t g fun th => { th with yields := th.yields.filter (isReady s) }) s

/-! ### Events of themselves -/

/-- An event that may happen: `none` when it may not. -/
abbrev Ev0 := State → Option State
/-- Operations and functions of the microwords (R202). -/
def microwords : List (Nat × (Nat → Nat → Mw → State → State)) :=
  [(1, rigPure fun _ r => r), (2, rigAlu fun m _ _ => m.imm), (3, rigAlu fun _ a _ => a), (4, rigAlu fun _ a b => a + b),
   (5, rigAlu fun _ a b => a - b), (6, rigAlu fun _ a b => a &&& b), (7, rigAlu fun _ a b => a ||| b),
   (8, rigAlu fun m a _ => a <<< (m.imm.toNat % 64)), (9, rigAlu fun m a _ => a >>> (m.imm.toNat % 64)), (10, rigCmp),
   (11, rigRayw), (12, rigFetch), (13, rigNbw), (14, rigBox), (15, rigChild), (16, rigPush), (17, rigPop), (18, rigFront),
   (19, rigLeafs triFn 1), (20, rigLeafs splatFn 2), (21, rigLeafs leafFn 3), (22, rigCall), (23, rigRet),
   (24, rigPure fun _ r => endTrav r none)]
/-- What a ray slot may do next. -/
def rayEvents (k n : Nat) : List Ev0 :=
  (microwords.map fun e => rig e.1 e.2 k n) ++ [evWatchdog k n, evListArrival k n, evRayDone k n]
/-- What a cluster's engines may do next. -/
def clusterEvents (s : State) (k : Nat) : List Ev0 :=
  let c := getClu s k
  (c.miss.flatMap fun e => e.secs.map (evLineFill e.ctx e.slot)) ++ c.wbuf.map evWriteBack
    ++ (c.cq.flatMap fun x => [evCopyStart k x.id 0 [], evCopyComplete k x.id]) ++ (c.rays.flatMap fun e => rayEvents k e.1)
    ++ [evHitTaskPush k, evMatrixGrant k] ++ (c.rings.flatMap fun e =>
      (List.range 8).map (fun p => fun (s : State) => refillOne s k e.1 p) ++ [evSteal k e.1])
/-- What a core, its thread sets' accesses and its command queue may do next. -/
def coreEvents (c : Nat) : List Ev0 :=
  ((List.range 4).flatMap fun t =>
    let g := 4 * c + t
    [evAccess g, evHomeStore g, evStoreAck g, evAtomicReply g, evKread g 0] ++
    ((List.range 4).map fun n => evRed g n) ++
    [evAmsgPerform g, evAmsgReply g, evCxlResponse g, evHaltDone g, evActivation g, evPop true g, evPop false g])
    ++ [evMatrixComplete c, evMatrixMigration c, evPlacement c, evExpiry c, evCoreRelease c]
/-- What a context's launches, continuations and register writes may do next. -/
def ctxEvents (s : State) (ctx : Nat) : List Ev0 :=
  let c := getCtx s ctx
  (c.launches.flatMap fun e => [evAdmit ctx e.1, evDispatch ctx e.1, evResidRelease ctx e.1]
    ++ if e.2.live then (namedCores e.2).map fun x => evCoreBind x ctx e.1 else [])
    ++ [evContPush ctx] ++ if c.transOld.isEmpty then [] else (rectClusters (getPart s c.part)).map fun k => evTransWrite ctx k
/-- What the mesh, its links and the class-15 buffers may do next. -/
def meshEvents (s : State) : List Ev0 :=
  (s.packets.flatMap fun p => [evRstDelivery p.num, evSendDelivery p.num, evPAck p.num, evForward p.num]
    ++ if p.pos < numClusters then (List.range 4).flatMap fun port => [evRouterGrant p.pos port, evRouterAging p.pos port]
      else [evLink ((p.pos - numClusters) / 4) ((p.pos - numClusters) % 4) p.cls])
    ++ (List.range s.services.length).map fun i => evService i
/-- Every event that may come of itself (log 3). -/
def selfEvents (s : State) : List Ev0 :=
  (heldCores s).flatMap coreEvents ++ (s.clusters.map (·.1)).flatMap (clusterEvents s)
    ++ (s.ctxs.map (·.1)).flatMap (ctxEvents s) ++ meshEvents s
    ++ (s.parts.map (·.1)).flatMap fun p => [evCastle p, evSwap p]
/-- The first event that happens, from a place that rotates with the steps. -/
def someEvent (s : State) : Option State :=
  let l := selfEvents s
  let k := s.steps / 2 % max 1 l.length
  (l.drop k ++ l.take k).findSome? fun e => e s
/-- An issue, and the state when no thread set issues. -/
def someIssue (s : State) : Option Out × State := firstToIssue (candidates s) s
/-- A step without an agenda (log 3): an event and an issue take turns at the first place; where neither happens, time passes. -/
def autoStep (s : State) : Out :=
  if s.steps % 2 = 0 then
    match someIssue s with
    | (some x, _) => x
    | (none, s') => .next ((someEvent s').getD s')
  else
    match someEvent s with
    | some s' => .next s'
    | none => issuedOr (someIssue s)

/-- A fetch line that holds one word in slot 0, a legal target, with the parity of R41. -/
def lineFor (w : W96) : V512 :=
  let low := 1
  let lw := low + bit (parity 26 low) * 2 ^ 31 + bit (parity 96 w.toNat) * 2 ^ 26
  BitVec.ofNat 512 (w.toNat + lw * 2 ^ 480)

/-- The machine of `withFetchWord`: the core is bound, the context and its partition exist, and the page of the fetch line is in
the core's TLB; what stands already is kept. -/
def placeWord (s : State) (w : W96) : State :=
  let ctx := myCtx s
  let c := getCtx s ctx
  let p := getPart s c.part
  let va := s.th.pc.toNat / 64 * 64
  let key := if slotValid s (8 * ctx) then keyOf s (8 * ctx) else (s.keyNum + 1) * 2048 + 8 * ctx
  let c := { c with created := true, draining := false, kvalid := c.kvalid ||| 1, keys := c.keys.set 0 key,
                    ptroot := c.ptroot ||| 0x8000000000000000,
                    hlim := if c.hbase.toNat ≤ va ∧ va < c.hlim.toNat then 0 else c.hlim, transOld := [] }
  let p := if p.created then p
    else { p with created := true, c1 := 23, r1 := 11, prng := p.prng.set 0 0x8000024000000000, sup := ctx, supCore := myCore s }
  let pa := va % 2 ^ 30
  let e : TlbEntry := { ctx := ctx, va := va / 4096 * 4096, bits := 12, pa := pa / 4096 * 4096, pte := 0x03800000000000DF }
  let s := { setPart (setCtx s ctx c) c.part p with boot := .up, keyNum := s.keyNum + 1, agenda := [.issue (myCore s)] }
  let s := withCore s fun k =>
    { k with ctx := some ctx, gated := false, alloc := if k.alloc = 0 then 32 else k.alloc,
             pword := if k.pword = 0 then 0x2C04 else k.pword, lastTs := (s.here + 3) % 4, tlb := e :: k.tlb, l1 := amDel k.l1 (pa / 64) }
  let s := withTh s fun t =>
    { t with pc := BitVec.ofNat 64 va, solo := false, ptgt := none, xfer := none, yields := [], halting := false,
             st := if t.st == .task || t.st == .activation then t.st else .task }
  { s with mem := memSetAll s.mem (atAddr pa (toBytes 64 (lineFor w).toNat)), memKey := amSet s.memKey (pa / 64) key }

end Machine
end Sys2Proof
end

