-- ==== Sys2Proof/Machine/Step.lean ====
section
/-!
DEFINITION. Step: one step of the device, and the placing of an instruction where it is fetched next.
-/
namespace Sys2Proof
namespace Machine

/-- Events that the management controller and the security processor answer while the device is down (R404). -/
def fromStandby (i : Instr) : Bool := match i with
  | .telemetryRead _ => true
  | .spdmRequest _ _ _ => true
  | _ => false
/-- An event of the agenda; an instruction of R60 issues only where it is fetched. -/
def eventStep (i : Instr) (s : State) : Out := if i.isInstruction then .next s else exec i s
/-- What an event of the agenda answers, where it may happen. -/
def orStay (s : State) (x : Option State) : Out := .next (x.getD s)
/-- What the agenda names (log 3). -/
def turnStep (x : Turn) (s : State) : Out := match x with
  | .issue c => issueCore s c
  | .event i => eventStep i s
  | .access g => orStay s (evAccess g s)
  | .kread g n => orStay s (evKread g n s)
  | .red g n => orStay s (evRed g n s)
  | .amsg g n => orStay s (evAmsgAt g n s)
  | .amsgReply g n => orStay s (evAmsgBack g n s)
  | .merge g older => orStay s (evMerge g older s)
  | .walk k ctx va => orStay s (evWalk k ctx va s)
  | .index k id row => orStay s (evIndex k id row s)
  | .element k id n => orStay s (evElement k id n s)
  | .rows c => orStay s (evMatrixRows c s)
  | .sector k n sec => orStay s (evSector k n sec s)
  | .evictL1 c sec => orStay s (evEvictL1 c sec s)
  | .evictLine l => orStay s (evEvictLine l s)
  | .link k port cls => orStay s (evLink k port cls s)
/-- One step (log 3): the agenda's head, or what comes next of itself; time passes with it. A device whose boot has failed stays in reset,
and answers only what its standby power serves. -/
def step (s : State) : Host.Outcome State Fault Refusal :=
  match s.boot, s.agenda with
  | .failed, .event i :: rest => if fromStandby i then exec i { s with agenda := rest, steps := s.steps + 1 } else .fault .bootFailed
  | .failed, _ => .fault .bootFailed
  | _, x :: rest => turnStep x (judgeYields (passTime { s with agenda := rest }))
  | _, [] => autoStep (judgeYields (passTime s))

/-- The state with the instruction of `w` where `step` fetches next. -/
def State.withFetchWord (s : State) (nbits w : Nat) : State := placeWord s (BitVec.ofNat 96 (w % 2 ^ nbits))

end Machine
end Sys2Proof
end

