-- ==== Sys2Proof/Safety.lean ====
section
/-!
DEFINITION. Safety: the terms that claims about the machine use: what an instruction leaves unchanged (its frame), what a write of a
register is, and the canonical form of memory.
-/
namespace Sys2Proof
namespace Machine

/-! ### Frames: everything but the named part is as it was -/

/-- Only the registers of the thread set in focus may differ. -/
def OnlyRf (s t : State) : Prop := t = withRf s fun _ => t.th.rf
/-- Only the thread set in focus may differ. -/
def OnlyTh (s t : State) : Prop := t = { s with th := t.th }
/-- Only the thread set in focus and its core may differ. -/
def OnlyCore (s t : State) : Prop := t = { s with th := t.th, core := t.core }
/-- Only the scalar registers of a register file differ. -/
def SameButS (r q : Regs) : Prop := q = { r with s := q.s }
/-- Only the vector registers of a register file differ. -/
def SameButV (r q : Regs) : Prop := q = { r with v := q.v }
/-- Every byte of memory reads as before, in HBM and in host memory. -/
def SameMemory (s t : State) : Prop := (∀ a, memGet t.mem a = memGet s.mem a) ∧ ∀ a, memGet t.host a = memGet s.host a

/-- No slice of any cluster holds a U copy (R266): then no access merges one home. -/
def State.NoUCopies (s : State) : Prop := ∀ e ∈ s.clusters, e.2.ucopies = []
/-- Only the home side of memory may differ: the slice lines, the write-back buffers, the miss tables, the U copies, HBM with its keys, and
the times by path. -/
def HomeOnly (s t : State) : Prop :=
  t = { s with clusters := t.clusters, lines := t.lines, older := t.older, mem := t.mem, memKey := t.memKey, pathTime := t.pathTime } ∧
    ∀ k, getClu t k = { getClu s k with ucopies := (getClu t k).ucopies, wbuf := (getClu t k).wbuf, miss := (getClu t k).miss }
/-- What a read on path C or K may change beside its result: the home side of memory, the TLBs and walks, the L1 and the pool's time of
the core in focus and the program timestamp of its thread set. While no U copy stands, every byte of memory reads as before. -/
def AccessOnly (s t : State) : Prop :=
  t = { s with th := { s.th with pts := t.th.pts }, core := { s.core with tlb := t.core.tlb, l1 := t.core.l1, ptime := t.core.ptime },
               clusters := t.clusters, lines := t.lines, older := t.older, mem := t.mem, memKey := t.memKey, pathTime := t.pathTime } ∧
    (∀ k, getClu t k = { getClu s k with tlb := (getClu t k).tlb, walks := (getClu t k).walks, ucopies := (getClu t k).ucopies,
                                         wbuf := (getClu t k).wbuf, miss := (getClu t k).miss }) ∧
    (s.NoUCopies → t.NoUCopies ∧ t.mem = s.mem ∧ t.memKey = s.memKey)
/-- What a translation may change: as a read, but neither the L1 nor a timestamp. -/
def XlateOnly (s t : State) : Prop := AccessOnly s t ∧ t.th = s.th ∧ t.core.l1 = s.core.l1 ∧ t.core.ptime = s.core.ptime

/-! ### Register writes (R17, R104) -/

/-- `t` is `s` with `v` in scalar register `d` and nothing else changed; s0 discards the write. -/
def WroteS (s t : State) (d : Fin 32) (v : W64) : Prop :=
  OnlyRf s t ∧ SameButS s.th.rf t.th.rf ∧ (∀ n : Fin 32, n ≠ d → t.th.rf.s[n] = s.th.rf.s[n]) ∧
    (if d = 0 then t = s else t.th.rf.s[d] = v)
/-- `t` is `s` with `v` in predicate register `d` and nothing else changed; p0 discards the write. -/
def WroteP (s t : State) (d : Fin 8) (v : W16) : Prop :=
  OnlyRf s t ∧ t.th.rf = { s.th.rf with p := t.th.rf.p } ∧ (∀ n : Fin 8, n ≠ d → t.th.rf.p[n] = s.th.rf.p[n]) ∧
    (if d = 0 then t = s else t.th.rf.p[d] = v)
/-- `t` is `s` with `v` in index register `d` and nothing else changed. -/
def WroteX (s t : State) (d : Fin 8) (v : W32) : Prop :=
  OnlyRf s t ∧ t.th.rf = { s.th.rf with x := t.th.rf.x } ∧ (∀ n : Fin 8, n ≠ d → t.th.rf.x[n] = s.th.rf.x[n]) ∧ t.th.rf.x[d] = v
/-- A write of a scalar position: a scalar register, or the special register that a shortcut names (R56, R104). -/
def WroteSOp (s t : State) (d : SOp) (v : W64) : Prop := match d with
  | .s r => WroteS s t r v
  | .sc k => OnlyRf s t ∧ t.th.rf = writeSpecRf s.core s.th.rf k.val v
/-- A write of a resolved vector destination: a base register, an extended register of the pool, or the tail of a queue register
(R17, R57, R368). -/
def WroteVD (s t : State) (d : VDst) (v : V512) : Prop := match d with
  | .base n => OnlyRf s t ∧ SameButV s.th.rf t.th.rf ∧ (∀ m : Fin 32, m ≠ n → t.th.rf.v[m] = s.th.rf.v[m]) ∧ t.th.rf.v[n] = v
  | .ext i => t = { s with core := { s.core with pool := t.core.pool } } ∧ poolBlock t.core.pool (extBlock s.core (s.here % 4) i) = v ∧
      ∀ b, b ≠ extBlock s.core (s.here % 4) i → poolBlock t.core.pool b = poolBlock s.core.pool b
  | .queue n => t = { s with core := { s.core with q := t.core.q } } ∧ qOf t.core n.val = qOf s.core n.val ++ [v] ∧
      ∀ m : Fin 16, m ≠ n → t.core.q[m] = s.core.q[m]

/-! ### What an instruction does -/

/-- Under its predicate the instruction writes one scalar position; without it, nothing happens (R63, R103). -/
def ScalarResult (i : Instr) (p : Pred) (d : SOp) (v : State → W64) : Prop :=
  ∀ s, (pred0 s p = true → ∃ t, exec i s = .next t ∧ WroteSOp s t d (v s) ∧ SameMemory s t) ∧
    (pred0 s p = false → exec i s = .next s)
/-- The same for a scalar register. -/
def RegisterResult (i : Instr) (p : Pred) (d : Fin 32) (v : State → W64) : Prop :=
  ∀ s, (pred0 s p = true → ∃ t, exec i s = .next t ∧ WroteS s t d (v s) ∧ SameMemory s t) ∧
    (pred0 s p = false → exec i s = .next s)
/-- The same for a predicate register. -/
def PredicateResult (i : Instr) (p : Pred) (d : Fin 8) (v : State → W16) : Prop :=
  ∀ s, (pred0 s p = true → ∃ t, exec i s = .next t ∧ WroteP s t d (v s) ∧ SameMemory s t) ∧
    (pred0 s p = false → exec i s = .next s)
/-- The same for an index register. -/
def IndexResult (i : Instr) (p : Pred) (d : Fin 8) (v : State → W32) : Prop :=
  ∀ s, (pred0 s p = true → ∃ t, exec i s = .next t ∧ WroteX s t d (v s) ∧ SameMemory s t) ∧
    (pred0 s p = false → exec i s = .next s)

/-- With bit 0 of its predicate clear, the instruction does nothing (R63 step 5). -/
def Skips (i : Instr) (p : Pred) : Prop := ∀ s, pred0 s p = false → exec i s = .next s
/-- With no active element of its width, the instruction does nothing (R63 step 5). -/
def SkipsElems (i : Instr) (p : Pred) (w : Nat) : Prop := ∀ s, anyOn (predVal s p) w = false → exec i s = .next s
/-- The instruction's next state is the one that this computation answers, or the one that its stop leaves. -/
def Runs (i : Instr) (s : State) (r : Except Stop State) : Prop :=
  (∀ t, r = .ok t → exec i s = .next t) ∧ (∀ x, r = .error x → exec i s = .next (onStop s x))
/-- The active 32-bit lanes of `v` are those of the 64 bytes `data`, the others those of `old` (R119). -/
def LanesFrom (pv : W16) (data : Nat) (old v : V512) : Prop :=
  ∀ l < 16, lane v l = if laneOn pv l then data / 2 ^ (32 * l) % 2 ^ 32 else lane old l
/-- A C read of the thread set in focus has taken its value, with `rd` the bytes at an address and `tag` that of its sector, and is no
more: `l` is what is left of its accesses. Only what a read may touch, and the destination, differ (R118, R119, R150, R157, R242, R250). -/
def TookValue (s t : State) (r : CReq) (l : List CReq) (tag : Nat) (rd : (a n : Nat) → Nat) : Prop :=
  ∃ u, AccessOnly s u ∧
    let v := { u with th := { u.th with creqs := l } }
    match r.kind with
    | .load ty => ∀ h : r.dst < 32, WroteS v t ⟨r.dst, h⟩ (extendTo ty (rd r.pa (ty.w / 8)))
    | .vload m d => ∃ x, WroteVD v t d x ∧ LanesFrom m (rd r.pa 64) (oldV v d) x
    | .gath w m offs d => ∃ x, WroteVD v t d x ∧ ∀ e < 512 / w, elem w x e =
        if elemOn m w e then (match amFind offs e with
          | some o => rd (r.pa + o) (w / 8) % 2 ^ w
          | none => 0) else elem w (oldV v d) e
    | .conv o m d => t = convWrite o m d (convElem o (convPlan o r.va tag) r.pa rd 0) v
    | _ => t = v
/-- A read whose pieces each lie in one sector, as the alignment rules leave it (R117, R157). -/
def ReadFits (r : CReq) : Prop := match r.kind with
  | .load ty => r.pa % 64 + ty.w / 8 ≤ 64
  | .vload _ _ => r.pa % 64 = 0
  | .gath w _ offs _ => ∀ e ∈ offs, (r.pa + e.2) % 64 + w / 8 ≤ 64
  | .conv o _ _ => o.src ≠ .auto ∧ r.pa % 64 + 512 / o.t.w * o.src.w / 8 ≤ 64
  | _ => True
/-- The lines of a read's sectors stand in their slices with the sectors, under the read's key slot (R254, R363). -/
def ReadHits (s : State) (r : CReq) : Prop := ∀ sec ∈ readSecs r,
  let ln := getLine s (sec / 4)
  ln.buffered = false ∧ ln.slot = r.slot ∧ bitOf ln.valid.toNat (sec % 4) = true
/-- The thread set in focus has one C access more, its newest, and nothing else differs (R280). -/
def IssuedC (s t : State) (q : CReq) : Prop := t = { s with th := { s.th with creqs := s.th.creqs ++ [q] } }
/-- The pool holds the given bytes at their offsets, the later of two for one offset, and every other byte as before; nothing else
changed. -/
def PoolStored (s t : State) (l : List (Nat × Byte)) : Prop :=
  t = { s with core := { s.core with pool := t.core.pool } } ∧
    (∀ o, (∀ e ∈ l, e.1 ≠ o) → poolByte t.core.pool o = poolByte s.core.pool o) ∧
    (∀ k e m, l = k ++ e :: m → (∀ x ∈ m, x.1 ≠ e.1) → poolByte t.core.pool e.1 = e.2)
/-- Control went to `tgt`: at once, or, from slot j of a pair, after slot j + 1 (R112, R114). -/
def WentTo (s t : State) (tgt : W64) : Prop :=
  t = { s with th := if s.th.inPair && !s.th.slot1 then { s.th with ptgt := some tgt } else { s.th with pc := tgt, ptgt := none } }
/-- The instruction takes this trap: its next state is the one that the entry of R127 leaves. -/
def Traps (i : Instr) (s : State) (t : Trap) : Prop := exec i s = .next (takeTrap s t)

/-- A form that computes its destination element by element (R57, R63 step 5, R82, R134 to R136): without an active element nothing
happens; a queue register that lacks an entry or room makes it not ready; a relative operand out of range traps BOUNDS; else the sources
are read in order, each active element of the destination (a base or extended register, or a new entry of a queue register) is the value
that `f` gives, every other one is the old, the conditions of the active elements join `flags`, and nothing else changes. -/
def ElemResult (i : Instr) (p : Pred) (w : Nat) (srcs : List VOp) (d : VOp) (f : State → List V512 → Nat → Nat × Nat) : Prop :=
  ∀ s, (anyOn (predVal s p) w = false → exec i s = .next s) ∧
    (anyOn (predVal s p) w = true →
      (queuesReady s srcs (some d) = false → exec i s = .next (stalled s)) ∧
      (queuesReady s srcs (some d) = true → (srcs ++ [d]).all (vopOk s) = false → Traps i s (trapOf cBOUNDS 0)) ∧
      (queuesReady s srcs (some d) = true → (srcs ++ [d]).all (vopOk s) = true →
        let r := readVs s srcs
        let on := elemOn (predVal s p) w
        let conds := orAll ((List.range (512 / w)).map fun n => if on n then (f s r.1 n).2 else 0)
        ∃ t x, exec i s = .next t ∧ WroteVD (withRf r.2 fun q => rfOrFlags q conds) t (resolveV s d) x ∧
          ∀ n < 512 / w, elem w x n = if on n then (f s r.1 n).1 % 2 ^ w else elem w (oldV r.2 (resolveV s d)) n))
/-- `t` is `s` with one command more at the tail of its core's queue; only the head's arrival cycle may be new, and the
tracking follows the command (R164, R165, R169). -/
def Queued (s t : State) (op : MOp) (gran : BitVec 3) : Prop :=
  let plain := fun (c : MCmd) => { c with headAt := none }
  let cmd : MCmd := { num := s.core.mnum + 1, ts := s.here % 4, op := op, gran := gran.toNat, weight := max 1 (vw s).mweight.toNat,
                      granted := false, headAt := none, migrated := none, got := [], wrote := 0, bad := none, fault := none,
                      prior := none, part := [], lose := [] }
  t = { s with core := { s.core with mnum := s.core.mnum + 1, mq := t.core.mq, mtrack := trackCmd s.core.mtrack op } } ∧
    t.core.mq.map plain = (s.core.mq ++ [cmd]).map plain
/-- The operands of R160 and R161: the form waits while the record of a register is pending, traps MSPACE when the accumulator region
has no room for the new shape, and else gives the register its new shape and joins the core's command queue (R165). -/
def Admits (i : Instr) (s : State) (regs : List (Fin 8)) (d : Fin 8) (new : Shape) (op : MOp) (gran : BitVec 3) : Prop :=
  ((∃ m ∈ regs, s.th.shapes[m].known = false) → exec i s = .next (stalled s)) ∧
  ((∀ m ∈ regs, s.th.shapes[m].known = true) →
    (accGran s.core * 64 + occOf s.th.shapes[d] < usedGran s + occOf new → Traps i s (trapOf cMSPACE 0)) ∧
    (usedGran s + occOf new ≤ accGran s.core * 64 + occOf s.th.shapes[d] → ∃ t, exec i s = .next t ∧
      Queued { s with th := { s.th with shapes := s.th.shapes.set d.val new d.isLt } } t op gran))

/-- The thread set resumed as the frame at a pool offset says, with HA clear, and nothing else changed (R129, R374, R375). -/
def ResumedFrom (s t : State) (off : Nat) : Prop :=
  let w := fun i => ofBytes (poolBytesAt s.core.pool (off + 8 * i) 8)
  t = { s with th := { s.th with
    rf := { s.th.rf with faultinfo := s.th.rf.faultinfo &&& ~~~(0x8000 : W64) }
    pc := BitVec.ofNat 64 (w 0)
    ptgt := if bitOf (w 5) 0 then some (BitVec.ofNat 64 (w 1)) else none
    solo := bitOf (w 5) 1
    xfer := if bitOf (w 5) 2 then some (w 2 / 256 % 32) else none } }

/-! ### The tree of R95 and the scan of R96 -/

/-- T[h][i] of R95, over leaves given by number. -/
def treeAt (f : Nat → Nat → Nat × Nat) (leaf : Nat → TreeVal) : Nat → Nat → TreeVal
  | 0, i => leaf i
  | h + 1, i => treeNode f (treeAt f leaf h (2 * i)) (treeAt f leaf h (2 * i + 1))
/-- `acc` of R96 for output i, after the levels below h. -/
def scanAcc (f : Nat → Nat → Nat × Nat) (leaf : Nat → TreeVal) (i : Nat) : Nat → TreeVal
  | 0 => none
  | h + 1 =>
    if bitOf (i + 1) h then treeNode f (treeAt f leaf h (((i + 1) - (i + 1) % 2 ^ (h + 1)) / 2 ^ h)) (scanAcc f leaf i h)
    else scanAcc f leaf i h

/-! ### Exact values and their one rounding (R77 to R80, R92, R98, R99) -/

/-- The real number that a finite value is. -/
def FV.Is (v : FV) (x : ℝ) : Prop := match v with
  | .fin neg m e => x = (if neg then -(m : ℝ) else m) * (2 : ℝ) ^ e
  | _ => False
/-- `n` is the integer that `x` rounds to in a mode, with ties to the even one in rne (R78). -/
def RoundsToInt (rnd : Rnd) (x : ℝ) (n : Int) : Prop := match rnd with
  | .rne => |x - n| ≤ 1 / 2 ∧ (|x - n| = 1 / 2 → n % 2 = 0)
  | .rtz => (0 ≤ x → n ≤ x ∧ x < n + 1) ∧ (x < 0 → x ≤ n ∧ n - 1 < x)
  | .rdn => n ≤ x ∧ x < n + 1
  | .rup => x ≤ n ∧ n - 1 < x
/-- `r` is the pattern, with its flags, that the exact nonzero value `x` gives when it is rounded once to a format under a reading
(R78, R81, R92). With 2^k the binade of `x`, it is rounded to the format's precision, or on its subnormal grid, to `y`. Where `y` is no
larger than the largest finite value, it is the result with the sign of `x`; NX says that it is not exact, and UF beside it that `x`, rounded
with an unbounded exponent range, is below the least normal value. Else OF and NX are raised, and the result is the largest finite value, or
the infinity, or the NaN of a format that has none, as R92's table says. -/
def RoundsOnce (t : Ty) (rd : Rd) (rnd : Rnd) (sat : Bool) (x : ℝ) (r : Nat × Nat) : Prop :=
  let f := fmtOf t rd
  let least : Int := 1 - f.bias
  ∃ (k n u : Int) (neg : Bool) (top : ℝ),
    (2 : ℝ) ^ k ≤ |x| ∧ |x| < (2 : ℝ) ^ (k + 1) ∧ (neg = true ↔ x < 0) ∧ (fdec t rd f.maxCode).Is top ∧
    RoundsToInt rnd (x / (2 : ℝ) ^ (max k least - f.mb)) n ∧ RoundsToInt rnd (x / (2 : ℝ) ^ (k - f.mb)) u ∧
    let y := n * (2 : ℝ) ^ (max k least - f.mb)
    let tiny := |u * (2 : ℝ) ^ (k - f.mb)| < (2 : ℝ) ^ least
    let toInf := (rnd = .rne ∨ (rnd = .rdn ∧ neg = true) ∨ (rnd = .rup ∧ neg = false)) ∧ sat = false
    let largest := (fdec t rd r.1).Is (if neg then -top else top)
    r.1 < 2 ^ f.w ∧
    (|y| ≤ top → (∃ m e, fdec t rd r.1 = .fin (neg && !(t == .e2m1 && m == 0)) m e) ∧ (fdec t rd r.1).Is y ∧ (t = .e2m1 → n = 0 → r.1 = 0) ∧
      (y = x → r.2 = 0) ∧ (y ≠ x → tiny → r.2 = flagUF ||| flagNX) ∧ (y ≠ x → ¬ tiny → r.2 = flagNX)) ∧
    (top < |y| → r.2 = flagOF ||| flagNX ∧ (¬ toInf → largest) ∧
      (toInf → (f.infCode.isSome = true → fdec t rd r.1 = .inf neg) ∧
        (f.infCode = none → ∀ q, f.nanCode = some q → r.1 = q) ∧ (f.infCode = none → f.nanCode = none → largest)))
/-- The integers `a`, in order, are the values rounded to nearest even after scaling by 2^p. -/
def ScaledInts (p : Int) (xs : List ℝ) (a : List Int) : Prop := List.Forall₂ (fun x n => RoundsToInt .rne (x * (2 : ℝ) ^ p) n) xs a
/-- The shared exponent `f` and the aligned integers `a` of a list of values with `w` magnitude bits (R98, R99). -/
def Aligned (w : Nat) (xs : List ℝ) (f : Int) (a : List Int) : Prop :=
  ∃ (g : Int) (b : List Int),
    (((∀ x ∈ xs, x = 0) ∧ g = 0) ∨ ((∃ x ∈ xs, (2 : ℝ) ^ g ≤ |x|) ∧ ∀ x ∈ xs, |x| < (2 : ℝ) ^ (g + 1))) ∧
    ScaledInts (w - 1 - g) xs b ∧
    if ∃ n ∈ b, n.natAbs = 2 ^ w then f = g + 1 ∧ ScaledInts (w - 1 - f) xs a else f = g ∧ a = b

/-! ### Memory -/

/-- The memories of the device and of its host are in canonical form. -/
def State.MemoryCanonical (s : State) : Prop := Memory.wf s.mem ∧ Memory.wf s.host

end Machine
end Sys2Proof
end

