-- ==== Sys2Proof/Certificates/Slice0/Obligations.lean ====
section
/-!
DEFINITION. Statements about the machine, for the provers. Each formalises rules of the specification, which its docstring names.
-/
open Sys2Proof hiding getS getP getX
open Sys2Proof.Machine

/-- The target that a control form goes to, when it goes anywhere (R112, R113). -/
def targetOf (i : Instr) (s : State) : Option W64 := match i with
  | .br o => if pred0 s o.p ∧ Machine.getP s o.c ≠ 0 then some (labelTarget s.th.ipc o.tgt) else none
  | .jmp o => if pred0 s o.p then some (labelTarget s.th.ipc o.tgt) else none
  | .call o => if pred0 s o.p then some (labelTarget s.th.ipc o.tgt) else none
  | .ret o => if pred0 s o.p then some (Machine.getS s o.a) else none
  | .brx o => if pred0 s o.p then some (Machine.getS s o.a) else none
  | .loop o => if pred0 s o.p ∧ 1 < (Machine.getS s o.d).toNat then some (labelTarget s.th.ipc o.tgt) else none
  | _ => none

/-- The predicate of a matrix-class instruction (R62). -/
def matrixPred (i : Instr) : Option Pred := match i with
  | .mbld8 o => some o.p
  | .mbld16 o => some o.p
  | .mbrel o => some o.p
  | .mld32 o => some o.p
  | .mld16 o => some o.p
  | .mst32 o => some o.p
  | .mst16 o => some o.p
  | .mcvt o => some o.p
  | .mzero o => some o.p
  | .mmulE2M1 o => some o.p
  | .mmul8 o => some o.p
  | .mmul16 o => some o.p
  | .mmacE2M1 o => some o.p
  | .mmac8 o => some o.p
  | .mmac16 o => some o.p
  | .mfac o => some o.p
  | .mlradd o => some o.p
  | .mlrmul o => some o.p
  | .mreef o => some o.p
  | .mprom o => some o.p
  | .mtr o => some o.p
  | .mscale o => some o.p
  | .mrank o => some o.p
  | .mfree o => some o.p
  | .mrec o => some o.p
  | .mrun o => some o.p
  | .mwait o => some o.p
  | _ => none
/-- The matrix registers whose records a form needs (R161). -/
def matrixNeeds (i : Instr) : List (Fin 8) := match i with
  | .mld32 o => [o.d]
  | .mld16 o => [o.d]
  | .mzero o => [o.d]
  | .mmulE2M1 o => o.d :: mmulRegs o
  | .mmul8 o => o.d :: mmulRegs o
  | .mmul16 o => o.d :: mmulRegs o
  | .mmacE2M1 o => o.d :: mmulRegs o
  | .mmac8 o => o.d :: mmulRegs o
  | .mmac16 o => o.d :: mmulRegs o
  | .mfac o => [o.d]
  | .mlradd o => [o.d, o.a, o.b]
  | .mlrmul o => [o.d, o.a, o.b]
  | .mreef o => [o.d, o.a]
  | .mprom o => [o.d]
  | .mtr o => [o.d, o.a]
  | .mscale o => [o.d, o.a]
  | .mrank o => [o.a]
  | .mrun o => [o.d]
  | _ => []
/-- The relative operands of a matrix form are in range (R55). -/
def matrixInRange (i : Instr) (s : State) : Prop := match i with
  | .mfac o => (∃ u, colE s o.a = .ok u) ∧ ∃ v, colE s o.b = .ok v
  | .mrec o => vopOk s o.a = true
  | _ => True

/-- For every instruction of R60 that is well-formed, with every operand and modifier at every value that its form accepts: decoding its word gives it back. For every word that decodes: the instruction it gives is an instruction of R60, is well-formed, and has that word as its encoding, so no bit of a word is dropped. A word with opcode 0 or 0xE1 to 0xFF, a format field that differs from the opcode's, or the predicate field 0b1000 decodes to nothing. (R49, R50, R53, R54, R58, R59, R60, R61) -/
def Obligations.DecodeReadsBackEveryWellFormedWord : Prop :=
  (∀ i : Instr, i.isInstruction = true → i.wf = true → decodeWord (encode i) = .ok i) ∧
  (∀ (w : W96) (i : Instr), decodeWord w = .ok i → i.isInstruction = true ∧ i.wf = true ∧ encode i = w) ∧
  (∀ w : W96, let opc := w.toNat % 256
    (opc = 0 ∨ 0xE1 ≤ opc ∨ w.toNat / 256 % 16 = 8 ∨ 8 ≤ w.toNat / 4096 % 16) → ∀ i, decodeWord w ≠ .ok i)

/-- Words written out field by field from the tables of R49 to R60 decode to the instruction that they stand for: add.i64 s3, s4, s5 under p1; addi.i32.sat s3, s4, -1; li s9, -2; vfma.f32.rup v1, v2, q3, v[x2+5] under not p3; ld.n16 s1, [s2-8]; amo.max.i32 at die scope with acquire C, M and release C, P; rayopen s4, v8; rsvupd v4, v5, s6; end. A vector position that names a matrix register, an li of format OP3, and a reserved SEL value decode to nothing. (R49, R50, R52, R53, R55, R59, R60) -/
def Obligations.WordsOfTheEncodingTablesDecode : Prop :=
  decodeTableWord 96 0x0504030101 = some (.add ⟨⟨1, false⟩, .i64, false, .s 3, .s 4, .s 5⟩) ∧
  decodeTableWord 96 0xFFFFFFFF0401000004032003 = some (.addi ⟨⟨0, false⟩, .i32, true, .s 3, .s 4, 0xFFFFFFFF⟩) ∧
  decodeTableWord 96 0xFFFFFFFFFFFE000000093021 = some (.li ⟨⟨0, false⟩, 9, 0xFFFFFFFFFFFE⟩) ∧
  decodeTableWord 96 0x00000309A55322211B56 = some (.vfma ⟨⟨3, true⟩, .f32, .rup, false, .v 1, .v 2, .q 3, .x 2 5⟩) ∧
  decodeTableWord 96 0xFFFFFFF80006000002014039 = some (.ld ⟨⟨0, false⟩, .n16, 1, 2, 0xFFFFFFF8⟩) ∧
  decodeTableWord 96 0x40887FFC05010003020140B5 =
    some (.amoI ⟨⟨0, false⟩, .i32, .max, .die, 0x21, 0x81, 1, 2, 3, 0x3FFC⟩) ∧
  decodeTableWord 96 0x280460A8 = some (.rayopen ⟨⟨0, false⟩, 4, .v 8⟩) ∧
  decodeTableWord 96 0x06252400B0 = some (.rsvupd ⟨⟨0, false⟩, .v 4, .v 5, .s 6⟩) ∧
  decodeTableWord 96 0x7037 = some (.end_ ⟨⟨0, false⟩⟩) ∧
  decodeTableWord 96 0x0009002240210051 = none ∧ decodeTableWord 96 0xFFFFFFFFFFFE000000090021 = none ∧
  decodeTableWord 96 0x40887FFC07810003020140B5 = none

/-- In every state whose agenda names a core, the thread sets of that core are taken in the order of R18, from the one after the last that issued. Where none issues before thread set g, and g runs work on a core that is neither gated nor draining, its pc has the form of an instruction address outside the pool window and translates for a fetch, and its line passes its parity and has no reserved bit set (while the L1 holds no copy of the line and no U copy stands, the line is the 64 bytes at home): when the slot decodes to an instruction that issues alone, and the scoreboard does not hold it back, the turn of g is exec of it at that state, with pc already at the next instruction; a stall leaves the thread set where it was, a begun instruction stands again at its address, and one that issues or traps is the step, which ends its pending target, counts as the last issue of its core, and holds no yield any more. When the slots of a legal pair decode and the first, which is no return from a frame, issues, the second one runs after it, on the registers, the pool and (but for end, which waits for the first one's command too) the count of commands as they stood before the pair; a stall of the first, or of a second one that is not end, leaves the whole pair. (R18, R42, R44, R45, R46, R48, R63, R114, R116) -/
def Obligations.StepRunsTheDecodedInstruction : Prop :=
  ∀ (s : State) (core n g : Nat) (rest : List Turn) (c v : State) (x : Xl), s.boot ≠ .failed → s.agenda = .issue core :: rest →
    let d := judgeYields (passTime { s with agenda := rest })
    (coreOrder d core)[n]? = some g → firstToIssue ((coreOrder d core).take n) d = (none, c) →
    let u := focus c g
    let pc := u.th.pc
    let k := fieldOf pc 0 3
    let r := loadK v x
    let line := r.1.data
    let w := r.2
    let seq := nextAddr pc
    let ends := fun (t : State) => endStep (releaseYields (withTh (withCore t fun c => { c with lastTs := g % 4 }) fun h =>
      { h with yields := h.yields.filter (isReady u) }))
    mayIssue u.th = true → drainingCore u = false → u.core.gated = false → instrForm pc = true → inPoolWindow pc.toNat = false →
    xlateCore u .fetch false (pc.toNat / 64 * 64) = .ok x v → lparOk line = true → sparOk line k = true → line.toNat / 2 ^ 489 % 2 ^ 17 = 0 →
    (v.NoUCopies → amFind v.core.l1 (x.pa / 64) = none → line.toNat = ofBytes (homeBytes v x.slot (x.pa / 64 * 64) 64)) ∧
    (∀ i, pairsAt u line k = false → decodeWord (slotWord line k) = .ok i → scoreboard w (Raw.ofWord (slotWord line k)) i = false →
      (∀ f, exec i (atInstr w pc seq w.th.solo false) = .fault f → step s = .fault f) ∧
      ∀ t, exec i (atInstr w pc seq w.th.solo false) = .next t →
        (t.th.res = .stalled → turn c g = .next (stalled w)) ∧
        (t.th.res = .begun → step s = .next (withTh t fun h =>
          { h with pc := pc, solo := w.th.solo, ptgt := w.th.ptgt, xfer := w.th.xfer, slot1 := false, inPair := false })) ∧
        (t.th.res = .issued ∨ t.th.res = .trapped → step s = .next (ends (afterInstr i w.th.ptgt seq t)))) ∧
    (∀ a b, pairsAt u line k = true → sparOk line (k + 1) = true → decodeWord (slotWord line k) = .ok a → decodeWord (slotWord line (k + 1)) = .ok b →
      pairLegal w line k (Raw.ofWord (slotWord line k)) (Raw.ofWord (slotWord line (k + 1))) = true →
      scoreboard w (Raw.ofWord (slotWord line k)) a = false → scoreboard w (Raw.ofWord (slotWord line (k + 1))) b = false →
      ∀ t, exec a (withTh (atInstr w pc (nextAddr (pc + 1)) false true) fun h => { h with ptgt := none }) = .next t →
        (t.th.res = .stalled → turn c g = .next (stalled w)) ∧
        (isReturn a = false → t.th.res = .issued →
          ∀ z, exec b (withTh (atInstr t (pc + 1) (nextAddr (pc + 1)) true true) fun h =>
              { h with snap := some (w.th.rf, w.core.pool, if isEnd b then t.core.mnum else w.core.mnum), ptgt := t.th.ptgt, xfer := none }) = .next z →
            (z.th.res = .stalled → isEnd b = false → turn c g = .next (stalled w)) ∧
            (z.th.res = .issued → step s = .next (ends (afterInstr b t.th.ptgt (nextAddr (pc + 1)) z)))))

/-- In every state whose agenda names a core, for the thread set of that core that R18 takes first, when it runs work on a core that is neither gated nor draining and its fetch passes the parity of the line and of the slots that are about to issue: when the line word has any of bits 25:9 set, whichever slot the pc names and whether or not it is slot j of a pair, the step takes the precise trap ILLEGAL at that slot, and nothing of the slot is executed. (R47) -/
def Obligations.AReservedLineWordBitTrapsIllegal : Prop :=
  ∀ (s : State) (core n g : Nat) (rest : List Turn) (c v : State) (x : Xl), s.boot ≠ .failed → s.agenda = .issue core :: rest →
    let d := judgeYields (passTime { s with agenda := rest })
    (coreOrder d core)[n]? = some g → firstToIssue ((coreOrder d core).take n) d = (none, c) →
    let u := focus c g
    let pc := u.th.pc
    let k := fieldOf pc 0 3
    let r := loadK v x
    let line := r.1.data
    mayIssue u.th = true → drainingCore u = false → u.core.gated = false → instrForm pc = true → inPoolWindow pc.toNat = false →
    xlateCore u .fetch false (pc.toNat / 64 * 64) = .ok x v → lparOk line = true → sparOk line k = true →
    (pairsAt u line k = true → sparOk line (k + 1) = true) → (∃ i, 9 ≤ i ∧ i ≤ 25 ∧ bitOf (lineWord line) i = true) →
      let a := r.2
      let t := takeTrap { a with th := { a.th with
        ipc := pc, pc := nextAddr pc, slot1 := a.th.solo, inPair := false, solo := false, res := .issued } }
        { trapOf cILLEGAL 0 with xfer := u.th.xfer }
      step s = .next (endStep (releaseYields (withTh (withCore t fun c => { c with lastTs := g % 4 }) fun h =>
        { h with yields := h.yields.filter (isReady u) })))

/-- In State.reset: boot has not run; cycle and rtime are 0; no partition or context is created; every thread set is idle with flags, faultinfo and the shadow copy registers 0 and no access outstanding; every core is unbound with an empty binding table and empty queue registers; every key slot is empty, and the translation and debug registers are 0; every partition's castling word has THABS 4,096, EN 1, THREL 3 and LOGLEN 20; no packet, message or fault waits; memory lists nothing, in its canonical form. That HBM and host memory list nothing, so that every byte reads 0, is the model's choice (log 2). Where the specification gives no reset value the model's choice stands, which this statement does not name (log 1). (R36, R81, R124, R271, R339, R353, R405) -/
def Obligations.ResetLeavesTheStatedValues : Prop :=
  let s := State.reset
  s.boot = .off ∧ s.cycle = 0 ∧ s.rtime = 0 ∧ s.packets = [] ∧ s.services = [] ∧ s.waiting = [] ∧ s.conns = [] ∧ s.agenda = [] ∧
  s.mem = [] ∧ s.host = [] ∧ s.lines = [] ∧ s.MemoryCanonical ∧ (∀ a, memGet s.mem a = 0) ∧
  (∀ g, let t := threadAt s g
    t.st = .idle ∧ t.rf.flags = 0 ∧ t.rf.faultinfo = 0 ∧ (∀ i : Fin 9, t.shadow[i] = 0) ∧ t.creqs = [] ∧ t.kreqs = [] ∧ t.ureqs = [] ∧ t.hreqs = [] ∧
      t.amsgs = [] ∧ t.rays = []) ∧
  (∀ c, (getCore s c).ctx = none ∧ (getCore s c).resid = [] ∧ (∀ i : Fin 16, qOf (getCore s c) i = []) ∧
    (∀ i : Fin 8, (getCore s c).binds[i].bound = false) ∧ (getCore s c).mq = []) ∧
  (∀ c, let x := getCtx s c
    x.created = false ∧ x.kvalid = 0 ∧ x.hbase = 0 ∧ x.hlim = 0 ∧ x.hoff = 0 ∧ x.ptroot = 0 ∧ x.dbgctl = 0 ∧ x.dsel = 0 ∧ x.rm = 0) ∧
  (∀ p, (getPart s p).created = false ∧ (getPart s p).locked = false ∧ (getPart s p).completions = [] ∧ cwAbs (getPart s p).cword = 4096 ∧ cwOn (getPart s p).cword = true ∧ cwRel (getPart s p).cword = 3 ∧
    cwLog (getPart s p).cword = 20) ∧
  (∀ k, let c := getClu s k
    c.cq = [] ∧ c.ucopies = [] ∧ c.miss = [] ∧ c.wbuf = [] ∧ c.rings = [] ∧ ∀ n, (getRay s k n).st = .free)

/-- In every state whose HBM and host memory are in canonical form (addresses strictly rising, and no byte listed that an unlisted address reads as): whenever an instruction or an event, a turn that the agenda names, or a step answers a next state, both memories are in canonical form there. The form is the model's own (log 2). (R24, R249, R253) -/
def Obligations.MemoryKeepsItsCanonicalForm : Prop :=
  (∀ (i : Instr) (s t : State), s.MemoryCanonical → exec i s = .next t → t.MemoryCanonical) ∧
  (∀ (x : Turn) (s t : State), s.MemoryCanonical → turnStep x s = .next t → t.MemoryCanonical) ∧
  (∀ s t : State, s.MemoryCanonical → step s = .next t → t.MemoryCanonical)

/-- In every state whose boot has failed, a step answers a next state only when the agenda names a telemetry read or an attestation request, which the management controller and the security processor answer; the next state has failed too, and every thread set, core, cluster, context, partition and byte of memory in it is as before; that the cycle count is too, since no time passes, is the model's choice (log 3). With another event, any other turn, or an empty agenda, the step is the fault bootFailed, which is the model's form of a device that stays in reset (log 3). (R404, R405) -/
def Obligations.AFailedBootStaysFailed : Prop :=
  ∀ s : State, s.boot = .failed →
    (∀ t, step s = .next t → t.boot = .failed ∧ t.th = s.th ∧ t.core = s.core ∧ t.cores = s.cores ∧ t.clusters = s.clusters ∧
      t.ctxs = s.ctxs ∧ t.parts = s.parts ∧ t.mem = s.mem ∧ t.host = s.host ∧ t.lines = s.lines ∧ t.packets = s.packets ∧
      t.cycle = s.cycle) ∧
    (∀ reg rest, s.agenda = .event (.telemetryRead reg) :: rest → ∃ t, step s = .next t) ∧
    (∀ q a b rest, s.agenda = .event (.spdmRequest q a b) :: rest → ∃ t, step s = .next t) ∧
    (∀ x rest, s.agenda = x :: rest → (∀ reg, x ≠ .event (.telemetryRead reg)) → (∀ q a b, x ≠ .event (.spdmRequest q a b)) →
      step s = .fault .bootFailed) ∧
    (s.agenda = [] → step s = .fault .bootFailed)

/-- For add, sub, addi, mul, mulh, mulhn, div, divn, rem, remn, min, minn, max and maxn, in every state: when bit 0 of the predicate is set, exec answers the next state in which the destination position holds the exact integer result of the two sources, reduced to the type (saturated where .sat is set) and sign- or zero-extended; a quotient by zero is all ones and a remainder by zero is the dividend; s0 discards; every other register, all of memory and the rest of the state are unchanged. When bit 0 is clear, nothing changes. For and, or, xor, andn, orn, shl, shr, sar, rol, ror, clz, ctz, popc, sext and zext, in every state: when bit 0 of the predicate is set, exec answers the next state in which the destination position holds the stated function of the w-bit source patterns (shl of the integer value, by the whole 64-bit amount; a right shift by w or more gives zeros, or the sign), extended by the type; s0 discards; everything else is unchanged. When bit 0 is clear, nothing changes. (R75, R76, R103, R104, R105, R106) -/
def Obligations.ScalarIntegerFormsWriteTheirResult : Prop :=
  (
  (∀ o : SAlu,
    let A := fun s => intVal o.t (readS s o.a).toNat
    let B := fun s => intVal o.t (readS s o.b).toNat
    let R := fun (f : Int → Int → Int) s => extendTo o.t (reduceTo o.t o.sat (f (A s) (B s)))
    ScalarResult (.add o) o.p o.d (R fun a b => a + b) ∧
    ScalarResult (.sub o) o.p o.d (R fun a b => a - b) ∧
    ScalarResult (.mul o) o.p o.d (R fun a b => a * b) ∧
    ScalarResult (.mulh o) o.p o.d (R fun a b => (a * b) / (2 ^ o.t.w : Nat)) ∧
    ScalarResult (.mulhn o) o.p o.d (R fun a b => (a * b) / (2 ^ o.t.w : Nat)) ∧
    ScalarResult (.div o) o.p o.d (R fun a b => if b = 0 then (if o.t.isI then -1 else (2 ^ o.t.w : Nat) - 1) else a.tdiv b) ∧
    ScalarResult (.divn o) o.p o.d (R fun a b => if b = 0 then (if o.t.isI then -1 else (2 ^ o.t.w : Nat) - 1) else a.tdiv b) ∧
    ScalarResult (.rem o) o.p o.d (R fun a b => if b = 0 then a else a.tmod b) ∧
    ScalarResult (.remn o) o.p o.d (R fun a b => if b = 0 then a else a.tmod b) ∧
    ScalarResult (.min o) o.p o.d (R min) ∧ ScalarResult (.minn o) o.p o.d (R min) ∧
    ScalarResult (.max o) o.p o.d (R max) ∧ ScalarResult (.maxn o) o.p o.d (R max)) ∧
  (∀ o : SImm, ScalarResult (.addi o) o.p o.d fun s =>
    extendTo o.t (reduceTo o.t o.sat (intVal o.t (readS s o.a).toNat + o.imm.toInt)))) ∧
  (
  (∀ o : SAlu,
    let W := fun (x : W64) => x.toNat % 2 ^ o.t.w
    let A := fun s => W (readS s o.a)
    let B := fun s => W (readS s o.b)
    let N := fun s => (readS s o.b).toNat
    ScalarResult (.and o) o.p o.d (fun s => extendTo o.t (A s &&& B s)) ∧
    ScalarResult (.or o) o.p o.d (fun s => extendTo o.t (A s ||| B s)) ∧
    ScalarResult (.xor o) o.p o.d (fun s => extendTo o.t (A s ^^^ B s)) ∧
    ScalarResult (.andn o) o.p o.d (fun s => extendTo o.t (A s &&& (2 ^ o.t.w - 1 - B s))) ∧
    ScalarResult (.orn o) o.p o.d (fun s => extendTo o.t (A s ||| (2 ^ o.t.w - 1 - B s))) ∧
    ScalarResult (.shl o) o.p o.d (fun s => extendTo o.t (reduceTo o.t o.sat
      (intVal o.t (readS s o.a).toNat * (2 ^ min (N s) 128 : Nat)))) ∧
    ScalarResult (.shr o) o.p o.d (fun s => extendTo o.t (if o.t.w ≤ N s then 0 else A s / 2 ^ N s)) ∧
    ScalarResult (.sar o) o.p o.d (fun s => extendTo o.t (wrapTo o.t.w (signedOf o.t.w (A s) / (2 ^ min (N s) o.t.w : Nat)))) ∧
    ScalarResult (.rol o) o.p o.d (fun s => extendTo o.t (rolPat o.t.w (A s) (N s))) ∧
    ScalarResult (.ror o) o.p o.d (fun s => extendTo o.t (rolPat o.t.w (A s) (o.t.w - N s % o.t.w)))) ∧
  (∀ o : SUn,
    let A := fun s => (readS s o.a).toNat % 2 ^ o.t.w
    ScalarResult (.clz o) o.p o.d (fun s => extendTo o.t (clzPat o.t.w (A s))) ∧
    ScalarResult (.ctz o) o.p o.d (fun s => extendTo o.t (lowestBit o.t.w (A s))) ∧
    ScalarResult (.popc o) o.p o.d (fun s => extendTo o.t (popcount o.t.w (A s))) ∧
    ScalarResult (.sext o) o.p o.d (fun s => extendTo o.t (A s)) ∧
    ScalarResult (.zext o) o.p o.d (fun s => extendTo o.t (A s))))

/-- For mov, sel, li, lea, addip, bfx and bfi, in every state: when bit 0 of the predicate is set, exec answers the next state in which the destination holds the value the rules give (li the sign-extended 48-bit immediate, lea base plus sign-extended displacement, addip the fetch line address plus the sign-extended immediate, sel the first source when bit 0 of the selecting predicate is set and the second otherwise); everything else is unchanged. When bit 0 is clear, nothing changes. For xset, xmov, xget and xadd, in every state: when bit 0 of the predicate is set, exec answers the next state in which the destination holds the immediate, the source, the sign-extended index register, or the sum of index register and immediate, which is reduced into the range 0 to modulus minus 1 when the modulus is not zero; everything else is unchanged. When bit 0 is clear, nothing changes. For cmp (integer), cmp (floating), pand, por, pxor, pnot, pmov into a predicate, pmov from a predicate and pcnt, in every state: when bit 0 of the predicate is set, exec answers the next state in which the destination holds the stated value: a compare writes all ones when the condition holds and zero when not, and a floating compare ORs its exception conditions into flags; p0 discards; everything else is unchanged. When bit 0 is clear, nothing changes. (R17, R69, R82, R104, R107, R108, R109, R110, R111) -/
def Obligations.MovesFieldsComparesAndIndexFormsWriteTheirValue : Prop :=
  (
  (
  (∀ o : SMov, ScalarResult (.mov o) o.p o.d fun s => readS s o.a) ∧
  (∀ o : SSel, ScalarResult (.sel o) o.p o.d fun s =>
    if bitOf (Machine.getP s o.c).toNat 0 then readS s o.a else readS s o.b) ∧
  (∀ o : SLi, RegisterResult (.li o) o.p o.d fun _ => BitVec.ofInt 64 o.imm.toInt) ∧
  (∀ o : SLea, RegisterResult (.lea o) o.p o.d fun s => Machine.getS s o.a + BitVec.ofInt 64 o.disp.toInt) ∧
  (∀ o : SIp, ScalarResult (.addip o) o.p o.d fun s =>
    BitVec.ofNat 64 (s.th.ipc.toNat / 64 * 64) + BitVec.ofInt 64 o.imm.toInt) ∧
  (∀ o : SBf, ScalarResult (.bfx o) o.p o.d (fun s =>
      bfxVal o.t (readS s o.a) (readS s o.b).toNat (readS s o.c).toNat) ∧
    ScalarResult (.bfi o) o.p o.d (fun s =>
      bfiVal (readS s o.d) (readS s o.a) (readS s o.b).toNat (readS s o.c).toNat))) ∧
  (
  (∀ o : XSet, IndexResult (.xset o) o.p o.d fun _ => o.imm) ∧
  (∀ o : XMov, IndexResult (.xmov o) o.p o.d fun s => match o.a with
    | .x r => Machine.getX s r
    | .s r => BitVec.ofNat 32 (readS s r).toNat) ∧
  (∀ o : PCnt, ScalarResult (.xget o) o.p o.d fun s => BitVec.ofInt 64 (Machine.getX s o.a).toInt) ∧
  (∀ o : XAdd, IndexResult (.xadd o) o.p o.d fun s =>
    let y := (Machine.getX s o.a).toInt + o.add.toInt
    if o.m = 0 then BitVec.ofInt 32 y else BitVec.ofInt 32 (y % (o.m.toNat : Int))))) ∧
  (
  (∀ (o : SCmp) (i : Instr), i = .cmpI o ∨ i = .cmpF o → ∀ s,
    let r := cmpElem o.t o.cc ((readS s o.a).toNat % 2 ^ o.t.w) ((readS s o.b).toNat % 2 ^ o.t.w)
    (pred0 s o.p = true → ∃ t, exec i s = .next t ∧ OnlyRf s t ∧ SameMemory s t ∧
      t.th.rf = { s.th.rf with p := t.th.rf.p, flags := s.th.rf.flags ||| BitVec.ofNat 64 (r.2 % 32) } ∧
      (∀ n : Fin 8, n ≠ o.d → t.th.rf.p[n] = s.th.rf.p[n]) ∧
      (if o.d = 0 then t.th.rf.p = s.th.rf.p else t.th.rf.p[o.d] = if r.1 then 0xFFFF else 0)) ∧
    (pred0 s o.p = false → exec i s = .next s)) ∧
  (∀ o : P3,
    PredicateResult (.pand o) o.p o.d (fun s => Machine.getP s o.a &&& Machine.getP s o.b) ∧
    PredicateResult (.por o) o.p o.d (fun s => Machine.getP s o.a ||| Machine.getP s o.b) ∧
    PredicateResult (.pxor o) o.p o.d (fun s => Machine.getP s o.a ^^^ Machine.getP s o.b)) ∧
  (∀ o : P2, PredicateResult (.pnot o) o.p o.d (fun s => ~~~(Machine.getP s o.a))) ∧
  (∀ (p : Pred) (d : Fin 8) (a : PSOp),
    PredicateResult (.pmov { p := p, d := .p d, a := a }) p d (fun s => match a with
      | .p r => Machine.getP s r
      | .s r => BitVec.ofNat 16 (readS s r).toNat)) ∧
  (∀ (p : Pred) (d : SOp) (a : Fin 8),
    ScalarResult (.pmov { p := p, d := .s d, a := .p a }) p d (fun s => BitVec.ofNat 64 (Machine.getP s a).toNat)) ∧
  (∀ o : PCnt, ScalarResult (.pcnt o) o.p o.d (fun s => BitVec.ofNat 64 (popcount 16 (Machine.getP s o.a).toNat))))

/-- For every well-formed div, divn, rem and remn with bit 0 of its predicate set, in every state, exec answers the next state in which the destination position alone is new. For a nonzero divisor the quotient is the integer toward zero, so that the remainder, dividend minus quotient times divisor, has the sign of the dividend and a magnitude below the divisor's. By zero the quotient has all w bits set, which reads as -1 or as 2^w - 1, and the remainder is the dividend. The signed lowest value by -1 gives the lowest value and the remainder 0. (R76) -/
def Obligations.IntegerDivisionTruncatesTowardZero : Prop :=
  ∀ (o : SAlu) (i j : Instr) (s : State), (i = .div o ∧ j = .rem o) ∨ (i = .divn o ∧ j = .remn o) → i.fieldsOk = true → pred0 s o.p = true →
    let t := o.t
    let a := intVal t (readS s o.a).toNat
    let b := intVal t (readS s o.b).toNat
    ∃ (q r : Int) (u v : State),
      exec i s = .next u ∧ WroteSOp s u o.d (extendTo t (wrapTo t.w q)) ∧ SameMemory s u ∧
      exec j s = .next v ∧ WroteSOp s v o.d (extendTo t (wrapTo t.w r)) ∧ SameMemory s v ∧
      (b ≠ 0 → r = a - q * b ∧ |r| < |b| ∧ (r = 0 ∨ (0 < r ↔ 0 < a)) ∧ |q * b| ≤ |a|) ∧
      (b = 0 → wrapTo t.w q = 2 ^ t.w - 1 ∧ intVal t (wrapTo t.w q) = (if t.isI then -1 else 2 ^ t.w - 1) ∧ r = a) ∧
      (t.isI = true → a = intLo t → b = -1 → intVal t (wrapTo t.w q) = intLo t ∧ r = 0)

/-- For br, jmp, call, ret, brx and loop, in every state with bit 0 of the predicate set: when the check of the target of R43 passes, exec answers the next state in which control goes to the target (from slot j of a pair, after slot j + 1), call and brx write the address that follows the instruction or its pair into DST (s0 discards it), loop writes the counter less one; beside that only what the fetch of the target line touches may differ. A br whose predicate register is zero, and a loop whose counter is 0, fall through with nothing changed; a loop whose counter is 1 writes 0 and falls through. When bit 0 is clear, nothing changes. The check of a target refuses an address whose bits 5:3 are not zero or whose slot is above 4, and one whose TGT bit is clear in a line that passes its parity check; it accepts one whose TGT bit is set in such a line; a line whose second copy fails its parity too gives LINEPAR. In every state in which br, jmp, call, ret, brx or loop goes to a target: a refused one takes the trap BADTARGET with the target as its address, and one whose line has a bad parity the trap LINEPAR, both from the state that the reads of the line leave; one that does not translate takes the PAGE fault or the trap PERM of a fetch. (R42, R43, R46, R48, R112, R113, R114) -/
def Obligations.BranchesGoToTheirCheckedTarget : Prop :=
  (
  (∀ (o : BrP) (s : State), pred0 s o.p = true → Machine.getP s o.c ≠ 0 → ∀ u, checkTarget s (labelTarget s.th.ipc o.tgt) = .ok u →
    ∃ t, exec (.br o) s = .next t ∧ AccessOnly s u ∧ WentTo u t (labelTarget s.th.ipc o.tgt)) ∧
  (∀ (o : BrP) (s : State), Machine.getP s o.c = 0 → exec (.br o) s = .next s) ∧
  (∀ (o : BrJ) (s : State), pred0 s o.p = true → ∀ u, checkTarget s (labelTarget s.th.ipc o.tgt) = .ok u →
    ∃ t, exec (.jmp o) s = .next t ∧ AccessOnly s u ∧ WentTo u t (labelTarget s.th.ipc o.tgt)) ∧
  (∀ (o : SA1) (s : State), pred0 s o.p = true → ∀ u, checkTarget s (Machine.getS s o.a) = .ok u →
    ∃ t, exec (.ret o) s = .next t ∧ AccessOnly s u ∧ WentTo u t (Machine.getS s o.a)) ∧
  (∀ (o : BrD) (s : State), pred0 s o.p = true → ∀ u, checkTarget s (labelTarget s.th.ipc o.tgt) = .ok u →
    ∃ v t, exec (.call o) s = .next t ∧ AccessOnly s u ∧ WentTo u v (labelTarget s.th.ipc o.tgt) ∧ WroteS v t o.d s.th.pc) ∧
  (∀ (o : SD2) (s : State), pred0 s o.p = true → ∀ u, checkTarget s (Machine.getS s o.a) = .ok u →
    ∃ v t, exec (.brx o) s = .next t ∧ AccessOnly s u ∧ WentTo u v (Machine.getS s o.a) ∧ WroteS v t o.d s.th.pc) ∧
  (∀ (o : BrD) (s : State), pred0 s o.p = true →
    (Machine.getS s o.d = 0 → exec (.loop o) s = .next s) ∧
    (Machine.getS s o.d = 1 → ∃ t, exec (.loop o) s = .next t ∧ WroteS s t o.d 0) ∧
    (1 < (Machine.getS s o.d).toNat → ∀ u, checkTarget s (labelTarget s.th.ipc o.tgt) = .ok u →
      ∃ v t, exec (.loop o) s = .next t ∧ AccessOnly s u ∧ WentTo u v (labelTarget s.th.ipc o.tgt) ∧
        WroteS v t o.d (Machine.getS s o.d - 1))) ∧
  (∀ o : BrP, Skips (.br o) o.p) ∧ (∀ o : BrJ, Skips (.jmp o) o.p) ∧ (∀ o : SA1, Skips (.ret o) o.p) ∧
  (∀ o : BrD, Skips (.call o) o.p ∧ Skips (.loop o) o.p) ∧ (∀ o : SD2, Skips (.brx o) o.p)) ∧
  (
  (∀ (s : State) (va : W64), fieldOf va 3 3 ≠ 0 ∨ 4 < fieldOf va 0 3 → checkTarget s va = .bad s) ∧
  (∀ (s u : State) (va : W64) (l : V512), fieldOf va 3 3 = 0 → fieldOf va 0 3 ≤ 4 → fetchLine s va.toNat = .ok l u → lparOk l = true →
    checkTarget s va = if tgtBit l (fieldOf va 0 3) then .ok u else .bad u) ∧
  (∀ (s u v : State) (va : W64) (l m : V512), fieldOf va 3 3 = 0 → fieldOf va 0 3 ≤ 4 → fetchLine s va.toNat = .ok l u → lparOk l = false →
    refetchLine u va.toNat = .ok m v →
    checkTarget s va = if lparOk m then (if tgtBit m (fieldOf va 0 3) then .ok v else .bad v) else .linepar v) ∧
  (∀ (i : Instr) (s : State) (tgt : W64), targetOf i s = some tgt →
    (∀ u, checkTarget s tgt = .bad u → AccessOnly s u ∧ exec i s = .next (takeTrap u (trapOf cBADTARGET tgt))) ∧
    (∀ u, checkTarget s tgt = .linepar u → AccessOnly s u ∧ exec i s = .next (takeTrap u (trapOf cLINEPAR tgt))) ∧
    (checkTarget s tgt = .page → exec i s = .next (takePage s (trapAcc cPAGE tgt (accWord .K false true 64)))) ∧
    (checkTarget s tgt = .perm → Traps i s (trapAcc cPERM tgt (accWord .K false true 64)))))

/-- For every state with HA clear and ffbase not zero, and every trap: the state that the entry prepares holds, at ffbase in the core's pool, restart address, pending target, faultinfo, faultaddr and the other words of the frame, and every pool byte outside the 128 bytes as before; its registers are the old ones with faultinfo (cause, transferred prefix, SLOT1, BRK, HA set, code) and faultaddr written; beside that only the event sequence number of the context changed. When trapvec passes the target check there, taking the trap leaves that state, with what the fetch touched, at trapvec; when its check ends in BADTARGET or LINEPAR, the trap is a double trap, from what the reads of the line leave; that one whose translation fails with PAGE or PERM is a double trap too is the model's choice (log 17). In every state in which HA is set or ffbase is zero, every precise trap stops the thread set at the trapping instruction, with its registers, its pool and memory as they were, records the fault, and sends the supervisor core one service message that carries the fault id, the address, the access word and the cause plus 256; every partition, and so what its interface has sent, is as before. (R124, R127, R373, R374, R376, R379) -/
def Obligations.TrapEntrySavesTheFrameOrStopsTheThreadSet : Prop :=
  (
  ∀ (s : State) (t : Trap), haBit s.th.rf = false → s.th.rf.ffbase ≠ 0 →
    let f := saveFrame s t 0 false
    let r := restartOf s.th t.next
    let info := BitVec.ofNat 64 (t.cause + 256 * t.xfer.getD 0 + 0x2000 * bit s.th.slot1 + 0x4000 * bit t.brk + 0x8000 + 2 ^ 24 * t.code)
    let at_ := fun i => ofBytes (poolBytesAt f.core.pool (s.th.rf.ffbase.toNat + 8 * i) 8)
    at_ 0 = r.1.toNat ∧ at_ 1 = (r.2.2.getD 0).toNat ∧ at_ 2 = info.toNat ∧ at_ 3 = t.addr.toNat ∧ at_ 4 = 0 ∧
    at_ 5 = bit r.2.2.isSome + 2 * bit r.2.1 + 4 * bit t.xfer.isSome ∧ at_ 8 = t.acc.toNat ∧
    (∀ o, o < s.th.rf.ffbase.toNat ∨ s.th.rf.ffbase.toNat + 128 ≤ o → poolByte f.core.pool o = poolByte s.core.pool o) ∧
    f = { s with th := { s.th with rf := { s.th.rf with faultinfo := info, faultaddr := t.addr } },
                 core := { s.core with pool := f.core.pool }, ctxs := f.ctxs } ∧
    (∀ c, getCtx f c = if c = myCtx s then { getCtx s c with evseq := (getCtx s c).evseq + 1 } else getCtx s c) ∧
    (∀ u, checkTarget f s.th.rf.trapvec = .ok u → AccessOnly f u ∧
      takeTrap s t = { u with th := { u.th with pc := s.th.rf.trapvec, solo := false, ptgt := none, xfer := none, res := .trapped } }) ∧
    (∀ u, checkTarget f s.th.rf.trapvec = .bad u ∨ checkTarget f s.th.rf.trapvec = .linepar u → AccessOnly f u ∧ takeTrap s t = doubleTrap u t) ∧
    (checkTarget f s.th.rf.trapvec = .page ∨ checkTarget f s.th.rf.trapvec = .perm → takeTrap s t = doubleTrap f t)) ∧
  (
  ∀ (s : State) (t : Trap), haBit s.th.rf = true ∨ s.th.rf.ffbase = 0 →
    let u := takeTrap s t
    u.th.st = .stopped ∧ u.th.pc = s.th.ipc ∧ u.th.rf = s.th.rf ∧ u.core = s.core ∧ u.cores = s.cores ∧ u.mem = s.mem ∧ u.host = s.host ∧
    u.packets = s.packets ∧ u.lines = s.lines ∧
    (∀ q, getPart u q = getPart s q) ∧
    ∃ (fid : W64) (seq : Nat) (m : Service), u.services = s.services ++ [m] ∧ u.th.fault = some ⟨t.cause, t.addr, t.acc, fid⟩ ∧
      m = { ctx := (getPart s (getCtx s (myCtx s)).part).sup, core := (getPart s (getCtx s (myCtx s)).part).supCore,
            data := of64 [fid, t.addr, t.acc, BitVec.ofNat 64 (t.cause + 256), BitVec.ofNat 64 seq], turn := s.pktNum })

/-- In every state with bit 0 of the predicate set: trap takes the precise trap BREAK with its code, sysc the precise trap SYSCALL, and brk the precise trap BREAK with BRK set, each restarting at its successor; where HA is clear, ffbase not zero and trapvec passes its check, the next state stands at trapvec with that faultinfo. With the breakpoint halts of the context enabled, brk enters debug halt at itself instead: at once where the thread set's accesses are performed and its core is in no chosen castle, and else it issues nothing more until that is so. When bit 0 is clear, nothing changes. In every state with bit 0 of the predicate set (in slot j + 1, on HA and ffbase as they stood before the pair): tret with HA set, and upret with an offset that is a multiple of 128 and lies in the scratchpad, answer the next state in which HA is clear, the pc, SOLO, the transferred prefix and the pending target are those of the frame at ffbase or at the offset, and nothing else differs. tret with HA clear traps ILLEGAL; upret traps MISALIGN and BOUNDS, with its offset as the address, which is the model's choice (log 72). A tret that finds the pool and ffbase as a trap left them resumes at that trap's restart address. (R128, R129, R130, R346, R374, R375, R393) -/
def Obligations.TrapInstructionsTrapAndReturnsResume : Prop :=
  (
  (∀ (o : Code) (s : State), pred0 s o.p = true → ∀ (i : Instr) (c : Nat) (b : Bool),
    (i = .trap o ∧ c = 0x50 ∧ b = false) ∨ (i = .sysc o ∧ c = 0x51 ∧ b = false) ∨
      (i = .brk o ∧ c = 0x50 ∧ b = true ∧ bitOf (getCtx s (myCtx s)).dbgctl.toNat 0 = false) →
    let t : Trap := { cause := c, addr := 0, acc := 0, code := o.code.toNat, brk := b, xfer := none, next := true }
    exec i s = .next (takeTrap s t) ∧
    (haBit s.th.rf = false → s.th.rf.ffbase ≠ 0 → ∀ u, checkTarget (saveFrame s t 0 false) s.th.rf.trapvec = .ok u →
      ∃ v, exec i s = .next v ∧ v.th.pc = s.th.rf.trapvec ∧ v.th.rf.faultaddr = 0 ∧
        v.th.rf.faultinfo = BitVec.ofNat 64 (c + 0x2000 * bit s.th.slot1 + 0x4000 * bit b + 0x8000 + 2 ^ 24 * o.code.toNat))) ∧
  (∀ (o : Code) (s : State), pred0 s o.p = true → bitOf (getCtx s (myCtx s)).dbgctl.toNat 0 = true →
    ∃ t, exec (.brk o) s = .next t ∧ t.th.pc = s.th.ipc ∧ (haltReady s = true → t.th.st = .halted) ∧
      (haltReady s = false → t.th.st = s.th.st ∧ t.th.halting = true)) ∧
  (∀ o : Code, Skips (.trap o) o.p ∧ Skips (.sysc o) o.p ∧ Skips (.brk o) o.p)) ∧
  (
  (∀ (o : Bare) (s : State), pred0 s o.p = true → haBit (vw s) = true →
    ∃ t, exec (.tret o) s = .next t ∧ ResumedFrom s t (vw s).ffbase.toNat) ∧
  (∀ (o : Bare) (s : State), pred0 s o.p = true → haBit (vw s) = false → Traps (.tret o) s (trapOf cILLEGAL 0)) ∧
  (∀ (o : SA1) (s : State), pred0 s o.p = true →
    let off := (Machine.getS s o.a).toNat
    (off % 128 = 0 → inScratch s.core off 128 = true → ∃ t, exec (.upret o) s = .next t ∧ ResumedFrom s t off) ∧
    (off % 128 ≠ 0 → Traps (.upret o) s (trapOf cMISALIGN (Machine.getS s o.a))) ∧
    (off % 128 = 0 → inScratch s.core off 128 = false → Traps (.upret o) s (trapOf cBOUNDS (Machine.getS s o.a)))) ∧
  (∀ o : Bare, Skips (.tret o) o.p) ∧ (∀ o : SA1, Skips (.upret o) o.p) ∧
  (∀ (s h : State) (t : Trap) (o : Bare), t.cause < 256 → (∀ k, t.xfer = some k → k < 32) → haBit s.th.rf = false → s.th.rf.ffbase ≠ 0 →
    pred0 h o.p = true → (vw h).ffbase = s.th.rf.ffbase → (vw h).faultinfo = (saveFrame s t 0 false).th.rf.faultinfo →
    h.core.pool = (saveFrame s t 0 false).core.pool →
    ∃ r, exec (.tret o) h = .next r ∧ haBit r.th.rf = false ∧ r.th.pc = (restartOf s.th t.next).1 ∧
      r.th.solo = (restartOf s.th t.next).2.1 ∧ r.th.ptgt = (restartOf s.th t.next).2.2))

/-- In every state with bit 0 of the predicate set: mfs of a number below 0x16 writes the value that R123 gives that register into DST; in supervisor mode mfs of an assigned privileged number writes that register's value (0 for a selected context whose number now belongs to another partition, which is the model's choice, log 76); any other number, and a privileged one in user mode, traps ILLEGAL. mts of a number below 0x16 writes frame, flags, mtol, mrmax, ivstop, mweight, rngkey, trapvec, upvec or ffbase as R123 says (a value out of range is discarded, −0 for mtol among them by the model's deduction, log 14; any write of ffbase clears HA, a read-only register ignores it), and any other number traps ILLEGAL. Nothing else changes. When bit 0 is clear, nothing changes. (R123, R126, R131, R353) -/
def Obligations.SpecialRegisterMovesFollowTheTable : Prop :=
  (∀ (o : MfsO) (s : State), pred0 s o.p = true → o.num.toNat < 0x16 → ∃ t v, exec (.mfs o) s = .next t ∧ WroteS s t o.d v ∧
    (o.num = 0x000 → v = BitVec.ofNat 64 s.here) ∧ (o.num = 0x001 → v = BitVec.ofNat 64 (s.here / 4)) ∧
    (o.num = 0x002 → v = BitVec.ofNat 64 ((let k := s.here / 32; (k % 24 / 8 + 3 * (k / 24 / 6)) * 2 ^ 25 + k * 2 ^ 16 + k / 24 * 2 ^ 8 + k % 24))) ∧
    (o.num = 0x003 → v = (vw s).unit) ∧ (o.num = 0x004 → v = (vw s).frame) ∧ (o.num = 0x005 → v = (vw s).lpb) ∧
    (o.num = 0x006 → v = BitVec.ofNat 64 (myCtx s + myPart s * 2 ^ 8 + bit (supMode s) * 2 ^ 15)) ∧
    (o.num = 0x007 → v = BitVec.ofNat 64 s.core.alloc) ∧ (o.num = 0x008 → v = (vw s).flags &&& 31) ∧ (o.num = 0x009 → v = s.cycle) ∧
    (o.num = 0x00A → v = (getCtx s (myCtx s)).evseq) ∧ (o.num = 0x00B → v = (vw s).mtol) ∧ (o.num = 0x00C → v = (vw s).mrmax) ∧
    (o.num = 0x00D → v = (vw s).ivstop) ∧ (o.num = 0x00E → v = (vw s).mweight) ∧ (o.num = 0x00F → v = (vw s).rngkey) ∧
    (o.num = 0x010 → v = (vw s).trapvec) ∧ (o.num = 0x011 → v = (vw s).upvec) ∧ (o.num = 0x012 → v = (vw s).ffbase) ∧
    (o.num = 0x013 → v = (vw s).faultinfo) ∧ (o.num = 0x014 → v = (vw s).faultaddr) ∧ (o.num = 0x015 → v = BitVec.ofNat 64 s.core.cap)) ∧
  (∀ (o : MfsO) (s : State), pred0 s o.p = true → supMode s = true →
    let c := getCtx s s.th.csel
    let p := getPart s c.part
    let reads := fun v => ∃ t, exec (.mfs o) s = .next t ∧ WroteS s t o.d (if o.num = 0x800 ∨ c.part = myPart s then v else 0)
    (o.num = 0x800 → reads (BitVec.ofNat 64 s.th.csel)) ∧ (o.num = 0x801 → reads c.hbase) ∧ (o.num = 0x802 → reads c.hlim) ∧
    (o.num = 0x803 → reads c.hoff) ∧ (o.num = 0x804 → reads c.ptroot) ∧ (o.num = 0x805 → reads c.hitbase) ∧
    (o.num = 0x806 → reads c.hitcnt) ∧ (o.num = 0x807 → reads (BitVec.ofNat 64 c.kvalid.toNat)) ∧
    (o.num = 0x808 → reads (BitVec.ofNat 64 (c.part + p.c0 * 2 ^ 8 + p.c1 * 2 ^ 16 + p.r0 * 2 ^ 24 + p.r1 * 2 ^ 28))) ∧
    (o.num = 0x809 → reads c.savgen) ∧ (o.num = 0x80A → reads (BitVec.ofNat 64 (coresOf s s.th.csel).length)) ∧
    (o.num = 0x840 → reads c.dbgctl) ∧ (o.num = 0x841 → reads c.dsel) ∧ (o.num = 0x842 → reads (readDdata s s.th.csel)) ∧
    (o.num = 0x843 → reads (readDcmd s s.th.csel)) ∧ (o.num = 0x848 → reads 0) ∧
    (0x800 ≤ o.num.toNat → privNums.contains o.num.toNat = false → Traps (.mfs o) s (trapOf cILLEGAL 0))) ∧
  (∀ (o : MfsO) (s : State), pred0 s o.p = true → (0x16 ≤ o.num.toNat ∧ o.num.toNat < 0x800) ∨ (0x800 ≤ o.num.toNat ∧ supMode s = false) →
    Traps (.mfs o) s (trapOf cILLEGAL 0)) ∧
  (∀ (o : MtsO) (s : State), pred0 s o.p = true → o.num.toNat < 0x16 → ∃ t, exec (.mts o) s = .next t ∧ OnlyRf s t ∧
    (let v := Machine.getS s o.a
     let x := v.toNat % 2 ^ 32
     t.th.rf = { s.th.rf with
       frame := if o.num = 0x004 then v else s.th.rf.frame
       flags := if o.num = 0x008 then v &&& 31 else s.th.rf.flags
       mtol := if o.num = 0x00B ∧ x < 0x7F800000 then BitVec.ofNat 64 x else s.th.rf.mtol
       mrmax := if o.num = 0x00C ∧ 1 ≤ v.toNat % 64 ∧ v.toNat % 64 ≤ 32 then BitVec.ofNat 64 (v.toNat % 64) else s.th.rf.mrmax
       ivstop := if o.num = 0x00D ∧ 0 < x ∧ x ≤ 0x7F800000 then BitVec.ofNat 64 x else s.th.rf.ivstop
       mweight := if o.num = 0x00E ∧ 1 ≤ v.toNat % 16 ∧ v.toNat % 16 ≤ 8 then BitVec.ofNat 64 (v.toNat % 16) else s.th.rf.mweight
       rngkey := if o.num = 0x00F then v else s.th.rf.rngkey
       trapvec := if o.num = 0x010 then v else s.th.rf.trapvec
       upvec := if o.num = 0x011 then v else s.th.rf.upvec
       ffbase := if o.num = 0x012 ∧ ffbaseOk s.core v.toNat then v else s.th.rf.ffbase
       faultinfo := if o.num = 0x012 then s.th.rf.faultinfo &&& ~~~(0x8000 : W64) else s.th.rf.faultinfo })) ∧
  (∀ (o : MtsO) (s : State), pred0 s o.p = true → 0x16 ≤ o.num.toNat → Traps (.mts o) s (trapOf cILLEGAL 0)) ∧
  (∀ o : SD1, RegisterResult (.rdtime o) o.p o.d fun s => s.rtime + (getPart s (myPart s)).timerOff) ∧
  (∀ o : MfsO, Skips (.mfs o) o.p) ∧ (∀ o : MtsO, Skips (.mts o) o.p)

/-- A C read of n bytes at an address of the pool window whose bytes lie in the scratchpad and in no closed span issues: the thread set has one C access more, its newest, for that pool offset, and nothing else differs; when they do not, it stops with BOUNDS; a K load there stops with PERM. At an address outside the window, a canonical address whose translation permits the read issues one C access, or one K load, for the translated address; beside it only TLBs, walks and the home side differ, with every byte of memory as before while no U copy stands; a failing translation stops with PAGE or PERM. An address that is not canonical stops with PAGE. That a K load aimed at the pool window stops with PERM is the model's choice (log 10). In every state with bit 0 of the predicate set: pref in the pool window changes nothing; where the translation fails, it is dropped, with what its walk had reached; where the translation permits the read, it issues one C access that reads the sector and writes no register, and beside it only what a translation may touch differs. When bit 0 is clear, nothing changes. (R19, R117, R122, R242, R250, R280, R355, R359) -/
def Obligations.LoadsLookInThePoolOrAtTheirTranslation : Prop :=
  (
  (∀ (s : State) (ea : W64) (n : Nat) (kind : CKind) (dst : Nat), inPoolWindow ea.toNat = true →
    (poolOk s.core s.th.act (poolOff ea) n = true → ∃ t q, readC s ea n kind dst = .ok t ∧ IssuedC s t q ∧ q.kind = kind ∧ q.pool = true ∧
      q.pa = poolOff ea ∧ q.dst = dst ∧ q.joined = false ∧ q.stale = false) ∧
    (poolOk s.core s.th.act (poolOff ea) n = false →
      readC s ea n kind dst = .error (.trap (trapAcc cBOUNDS ea (accWord .C false false n))))) ∧
  (∀ (s : State) (ea : W64) (n : Nat) (kind : CKind) (dst : Nat), inPoolWindow ea.toNat = false →
    (∀ x u, xlateCore s .read false ea.toNat = .ok x u → XlateOnly s u ∧ ∃ t q, readC s ea n kind dst = .ok t ∧ IssuedC u t q ∧ q.kind = kind ∧
      q.pool = false ∧ q.va = ea ∧ q.pa = x.pa ∧ q.slot = x.slot ∧ q.noL1 = x.noL1 ∧ q.dst = dst ∧ q.joined = false ∧ q.merged = [] ∧
      q.atHome = false ∧ q.stale = false) ∧
    (xlateCore s .read false ea.toNat = .page → readC s ea n kind dst = .error (.page (trapAcc cPAGE ea (accWord .C false false n)))) ∧
    (xlateCore s .read false ea.toNat = .perm → readC s ea n kind dst = .error (.trap (trapAcc cPERM ea (accWord .C false false n))))) ∧
  (∀ (s : State) (ea : W64) (n : Nat) (ty : Ty) (dst : Nat) (vec : Option (W16 × VDst)),
    (inPoolWindow ea.toNat = true → readK s ea n ty dst vec = .error (.trap (trapAcc cPERM ea (accWord .K false false n)))) ∧
    (inPoolWindow ea.toNat = false →
      (∀ x u, xlateCore s .read false ea.toNat = .ok x u → XlateOnly s u ∧ readK s ea n ty dst vec =
        .ok { u with th := { u.th with kreqs := u.th.kreqs ++ [⟨x.pa, x.slot, x.noL1, ty, dst, vec⟩] } }) ∧
      (xlateCore s .read false ea.toNat = .page → readK s ea n ty dst vec = .error (.page (trapAcc cPAGE ea (accWord .K false false n)))) ∧
      (xlateCore s .read false ea.toNat = .perm → readK s ea n ty dst vec = .error (.trap (trapAcc cPERM ea (accWord .K false false n)))))) ∧
  (∀ (s : State) (acc : Acc) (h : Bool) (va : Nat), bitsOf va 57 7 ≠ (if bitOf va 56 then 127 else 0) → xlateCore s acc h va = .page)) ∧
  (
  (∀ (o : MemA) (s : State), pred0 s o.p = true →
    let ea := Machine.getS s o.a + BitVec.ofInt 64 o.disp.toInt
    (inPoolWindow ea.toNat = true → exec (.pref o) s = .next s) ∧
    (inPoolWindow ea.toNat = false → xlateCore s .read false ea.toNat = .page ∨ xlateCore s .read false ea.toNat = .perm →
      ∃ t, exec (.pref o) s = .next t ∧ XlateOnly s t ∧ SameMemory s t ∧
        ∀ w ∈ (getClu t (myClu s)).walks, ¬(w.1 = myCtx s ∧ w.2.1 = ea.toNat / 4096)) ∧
    (inPoolWindow ea.toNat = false → ∀ x u, xlateCore s .read false ea.toNat = .ok x u → XlateOnly s u ∧
      ∃ t q, exec (.pref o) s = .next t ∧ IssuedC u t q ∧ q.kind = .pref ∧ q.pool = false ∧ q.pa = x.pa ∧ q.slot = x.slot)) ∧
  (∀ o : MemA, Skips (.pref o) o.p))

/-- The oldest C access of a thread set in focus, when it is a read that no invalidation has made stale: in the pool window it takes the bytes of the pool; where an L1 copy serves it, and it has neither left for home nor taken others with it, it takes the bytes of the copy; where none does and it is merged with no other, with no U copy standing, an empty input buffer and its lines in their slices under its slot, it takes the bytes at home as a reader under its key sees them. When the sector of a read of one sector is missing there, its line gets an entry in the slice's miss table, if that has room and none for the line, and the read waits at home. A C load at home returns the 64 bytes of the sector, raises the program timestamp to at least the line's write time, and puts a copy leased until 64 after into the L1 unless the page keeps its lines out. In every case only what a read may touch differs beside the destination, and every byte of memory stays. (R24, R242, R250, R254, R255, R280, R358) -/
def Obligations.ALoadMissReturnsTheBytesAtHome : Prop :=
  (∀ (s : State) (x : Xl), s.NoUCopies → amFind s.core.l1 (x.pa / 64) = none →
    let r := loadC s x
    r.1.data.toNat = ofBytes (homeBytes s x.slot (x.pa / 64 * 64) 64) ∧ r.2.mem = s.mem ∧ r.2.memKey = s.memKey ∧
    s.th.pts ≤ r.2.th.pts ∧ (getLine r.2 (x.pa / 256)).wts ≤ r.2.th.pts ∧
    (if x.noL1 then amFind r.2.core.l1 (x.pa / 64) = none
     else ∃ c, amFind r.2.core.l1 (x.pa / 64) = some c ∧ c.data = r.1.data ∧ c.slot = x.slot ∧ c.le = max c.wts s.th.pts + 64)) ∧
  (∀ (s : State) (r : CReq) (l : List CReq), s.th.creqs = r :: l → r.kind.isRead = true →
    (r.pool = true → ∃ t, evAccess s.here s = some t ∧ TookValue s t r l 0 (fun a n => ofBytes (poolBytesAt s.core.pool a n)) ∧ SameMemory s t) ∧
    (r.pool = false → r.stale = false → r.joined = false → r.merged = [] → r.atHome = false →
      (∀ v u, loadL1 s ⟨r.pa, r.slot, r.noL1, false⟩ = some (v, u) → (∀ w m o d, r.kind ≠ .gath w m o d) →
        ∃ t, evAccess s.here s = some t ∧ TookValue s t r l v.tag (fun a n => sectorNat v (a % 64) n) ∧ SameMemory s t) ∧
      (readL1 r s = none → s.NoUCopies → (getClu s (homeOf r.pa)).inbuf = [] →
        (ReadHits s r → ReadFits r → ∃ t, evAccess s.here s = some t ∧ TookValue s t r l (getLine s (r.pa / 256)).tag (fun a n => ofBytes (homeBytes s r.slot a n)) ∧
          SameMemory s t) ∧
        (readSecs r = [r.pa / 64] → bitOf (getLine s (r.pa / 256)).valid.toNat (r.pa / 64 % 4) = false →
          let m := (getClu s (homeOf r.pa)).miss
          m.length < 64 → (∀ e ∈ m, e.line ≠ r.pa / 256) →
          ∃ t, evAccess s.here s = some t ∧ SameMemory s t ∧ t.th = { s.th with creqs := { r with atHome := true } :: l } ∧
            (getClu t (homeOf r.pa)).miss = m ++ [⟨r.pa / 256, myCtx s, r.slot, [r.pa / 64]⟩]))))

/-- In every state with bit 0 of the predicate set: ld, at an address that is a multiple of the size, issues a C read of its size and type for DST; ldk and the path form of ld on K issue a K load; at an address that is no multiple of the size they trap MISALIGN; a load that stops is the instruction's stop. A K load of a thread set in focus that waits behind none of its sector takes its value from the L1 or from home, sign- or zero-extended by its type, into its scalar register (s0 discards it), or the active 32-bit lanes of its vector destination, and nothing differs from the state that the load leaves but that it is no more. When bit 0 is clear, nothing changes. (R117, R118, R121, R247, R248, R284) -/
def Obligations.ScalarLoadsExtendWhatTheyRead : Prop :=
  (∀ (p : Pred) (ty : Ty) (d a : Fin 32) (disp : W32) (s : State) (i : Instr) (k : Bool),
    (i = .ld ⟨p, ty, d, a, disp⟩ ∧ k = false) ∨ (i = .ldk ⟨p, ty, d, a, disp⟩ ∧ k = true) ∨ (∃ sc, i = .ldPath ⟨p, ty, .K, sc, d, a, disp⟩ ∧ k = true) →
    let ea := Machine.getS s a + BitVec.ofInt 64 disp.toInt
    let n := ty.w / 8
    (pred0 s p = false → exec i s = .next s) ∧
    (pred0 s p = true → ea.toNat % n ≠ 0 → Traps i s (trapAcc cMISALIGN ea (accWord (if k then .K else .C) false false n))) ∧
    (pred0 s p = true → ea.toNat % n = 0 → Runs i s (if k then readK s ea n ty d.val none else readC s ea n (.load ty) d.val))) ∧
  (∀ (s : State) (n : Nat) (q : KReq), s.th.kreqs[n]? = some q → (∀ e ∈ s.th.kreqs.take n, e.pa / 64 ≠ q.pa / 64) →
    let u := { s with th := { s.th with kreqs := s.th.kreqs.eraseIdx n } }
    let r := loadK u ⟨q.pa, q.slot, q.noL1, false⟩
    AccessOnly u r.2 ∧
    (∀ h : q.dst < 32, q.vec = none → ∃ t, evKread s.here n s = some t ∧
      WroteS r.2 t ⟨q.dst, h⟩ (extendTo q.ty (r.1.data.toNat / 2 ^ (8 * (q.pa % 64)) % 2 ^ (8 * (q.ty.w / 8))))) ∧
    (∀ m d, q.vec = some (m, d) → ∃ t x, evKread s.here n s = some t ∧ WroteVD r.2 t d x ∧ LanesFrom m r.1.data.toNat (oldV r.2 d) x))

/-- In every state with an active lane: vld and the path form of vld on K, whose queue register has room, whose relative operand is in range, and whose address is a multiple of 64, issue a C read, or a K load, of 64 bytes for the active 32-bit lanes of the destination. The entry of a queue register gets the loaded lanes where the predicate is active and zeros elsewhere; in slot j of a pair it is taken at issue, after the earlier reads of its path, which is the model's choice (log 71). A misaligned address traps MISALIGN, an operand out of range BOUNDS, and an instruction whose queue has no room is not ready. vldm issues one read for each register, from consecutive 64-byte blocks, beginning at XFER; a range that leaves the file traps BOUNDS, as does a relative operand out of range whatever the count, and else a count of zero does nothing; a read that stops stops the block, with its index in XFER. Without an active lane nothing changes. (R55, R57, R117, R119, R120, R247) -/
def Obligations.VectorLoadsFillTheirActiveLanes : Prop :=
  (∀ (p : Pred) (d : VOp) (a : Fin 32) (disp : W32) (s : State) (i : Instr) (k : Bool),
    (i = .vld ⟨p, d, a, disp⟩ ∧ k = false) ∨ (∃ sc, i = .vldPath ⟨p, .K, sc, d, a, disp⟩ ∧ k = true) →
    let ea := Machine.getS s a + BitVec.ofInt 64 disp.toInt
    let r := if k then readK s ea 64 .n32 0 (some (predVal s p, resolveV s d)) else readC s ea 64 (.vload (predVal s p) (resolveV s d)) 0
    let busy := if k then s.th.kreqs ≠ [] else s.th.creqs ≠ []
    (anyOn (predVal s p) 32 = false → exec i s = .next s) ∧
    (anyOn (predVal s p) 32 = true →
      (queuesReady s [] (some d) = false → exec i s = .next (stalled s)) ∧
      (queuesReady s [] (some d) = true → vopOk s d = false → Traps i s (trapOf cBOUNDS 0)) ∧
      (queuesReady s [] (some d) = true → vopOk s d = true →
        (ea.toNat % 64 ≠ 0 → Traps i s (trapAcc cMISALIGN ea (accWord (if k then .K else .C) false false 64))) ∧
        (ea.toNat % 64 = 0 → (∀ q, d ≠ .q q) ∨ inSlotJ s = false → Runs i s r) ∧
        (ea.toNat % 64 = 0 → inSlotJ s = true → ∀ q, d = .q q → (busy → exec i s = .next (stalled s)) ∧
          (¬busy → (∀ x, r = .error x → exec i s = .next (onStop s x)) ∧
            ∀ u, r = .ok u → exec i s = .next (if k then settleK u else settleRead u)))))) ∧
  (∀ (s : State) (r : CReq) (l : List CReq), s.th.creqs = r :: l → r.kind.isRead = true →
    (r.pool = true → TookValue s (settleRead s) r l 0 (fun a n => ofBytes (poolBytesAt s.core.pool a n))) ∧
    (r.pool = false → r.merged = [] → ReadFits r → readL1 r s = none → s.NoUCopies →
      TookValue s (settleRead s) r l (getLine (settleRead s) (r.pa / 256)).tag (fun a n => ofBytes (homeBytes s r.slot a n)))) ∧
  (∀ (o : MemM) (s : State), pred0 s o.p = true →
    let ea := Machine.getS s o.a + BitVec.ofInt 64 o.disp.toInt
    let c := (Machine.getS s o.b).toNat
    let x := s.th.xfer.getD 0
    let one := fun (f : Nat → State) (j : Nat) => readC (f j) (ea + BitVec.ofNat 64 (64 * j)) 64 (.vload 0xFFFF (blockReg s o.d j)) 0
    (vopOk s o.d = false → Traps (.vldm o) s (trapOf cBOUNDS 0)) ∧
    (vopOk s o.d = true → c = 0 → exec (.vldm o) s = .next s) ∧
    (vopOk s o.d = true → c ≠ 0 → blockRange s o.d c = false → Traps (.vldm o) s (trapOf cBOUNDS 0)) ∧
    (vopOk s o.d = true → c ≠ 0 → blockRange s o.d c = true → ea.toNat % 64 ≠ 0 →
      Traps (.vldm o) s (trapAcc cMISALIGN ea (accWord .C false false 64))) ∧
    (vopOk s o.d = true → x < c → blockRange s o.d c = true → ea.toNat % 64 = 0 → ∀ f : Nat → State, f x = s →
      (∀ j, x ≤ j → j < c → one f j = .ok (f (j + 1))) → exec (.vldm o) s = .next (f c)) ∧
    (vopOk s o.d = true → x < c → blockRange s o.d c = true → ea.toNat % 64 = 0 → ∀ (f : Nat → State) (n : Nat), f x = s → x ≤ n → n < c →
      (∀ j, x ≤ j → j < n → one f j = .ok (f (j + 1))) →
      (∀ y, one f n = .error (.page y) → exec (.vldm o) s = .next (takePage (f n) { y with xfer := some n })) ∧
      (∀ y, one f n = .error (.trap y) → exec (.vldm o) s = .next (takeTrap (f n) { y with xfer := some n })))) ∧
  (∀ o : MemM, Skips (.vldm o) o.p)

/-- In every state in which they are ready and pass their checks: st stores the bytes of its register, vst the active lanes and vscat the active elements (the highest of those with one address), at the addresses the rules give. Each issues one store, the newest of the C accesses of the thread set, whose bytes are exactly these at the pool offset, or at the translated address, where only TLBs, walks and the home side of reads differ beside; memory is unchanged until it is performed. When a store of the pool window is performed, the bytes of the scratchpad become those, every other byte of the pool stays, and beside them only the timestamps that order the pool's accesses differ (log 73). vstm stores register after register, and a store that stops stops the block with its index in XFER. Misalignment, bounds and translation stops are taken as R117 says. Without an active lane or predicate bit nothing changes. (R117, R118, R119, R120, R157, R242, R280) -/
def Obligations.StoresReachThePoolOrWaitForTheirHome : Prop :=
  (∀ (s : State) (ea : W64) (n : Nat) (l : List (Nat × Byte)), inPoolWindow ea.toNat = true →
    ((l.all fun e => poolOk s.core s.th.act (poolOff ea + e.1) 1) = true →
      ∃ t q, storeC s ea n l = .ok t ∧ IssuedC s t q ∧ q.kind = .store ∧ q.pool = true ∧ q.bytes = l.map fun e => (poolOff ea + e.1, e.2)) ∧
    ((l.all fun e => poolOk s.core s.th.act (poolOff ea + e.1) 1) = false →
      storeC s ea n l = .error (.trap (trapAcc cBOUNDS ea (accWord .C true false n))))) ∧
  (∀ (s : State) (r : CReq) (l : List CReq), s.th.creqs = r :: l → r.kind = .store → r.pool = true →
    ∃ t, evAccess s.here s = some t ∧ PoolStored (poolStored { s with th := { s.th with creqs := l } }) t r.bytes) ∧
  (∀ (s : State) (ea : W64) (n : Nat) (l : List (Nat × Byte)), inPoolWindow ea.toNat = false →
    (∀ x u, xlateCore s .write false ea.toNat = .ok x u → XlateOnly s u ∧ ∃ t q, storeC s ea n l = .ok t ∧ IssuedC u t q ∧
      (s.NoUCopies → SameMemory s t) ∧ q.kind = .store ∧ q.pool = false ∧ q.va = ea ∧ q.pa = x.pa ∧
      q.slot = x.slot ∧ q.performed = false ∧ q.bytes = l.map fun e => (x.pa + e.1, e.2)) ∧
    (xlateCore s .write false ea.toNat = .page → storeC s ea n l = .error (.page (trapAcc cPAGE ea (accWord .C true false n)))) ∧
    (xlateCore s .write false ea.toNat = .perm → storeC s ea n l = .error (.trap (trapAcc cPERM ea (accWord .C true false n))))) ∧
  (∀ (o : MemS) (s : State), pred0 s o.p = true →
    let ea := Machine.getS s o.a + BitVec.ofInt 64 o.disp.toInt
    let n := o.t.w / 8
    (ea.toNat % n ≠ 0 → Traps (.st o) s (trapAcc cMISALIGN ea (accWord .C true false n))) ∧
    (ea.toNat % n = 0 →
      Runs (.st o) s (storeC s ea n (atAddr 0 (toBytes n (Machine.getS s o.d).toNat))))) ∧
  (∀ (o : MemV) (s : State), anyOn (predVal s o.p) 32 = true → queuesReady s [o.d] none = true → vopOk s o.d = true →
    let ea := Machine.getS s o.a + BitVec.ofInt 64 o.disp.toInt
    let d := readV s o.d
    (ea.toNat % 64 ≠ 0 → Traps (.vst o) s (trapAcc cMISALIGN ea (accWord .C true false 64))) ∧
    (ea.toNat % 64 = 0 → ∃ l, (∀ a b, (a, b) ∈ l ↔ a < 64 ∧ laneOn (predVal s o.p) (a / 4) = true ∧ b = BitVec.ofNat 8 (elem 8 d.1 a)) ∧
      Runs (.vst o) s (storeC d.2 ea 64 l))) ∧
  (∀ (o : VGs) (s : State) (i : Instr), i = .vscat32 o ∨ i = .vscat64 o → anyOn (predVal s o.p) o.t.w = true →
    queuesReady s [o.b, o.d] none = true → vopOk s o.b = true → vopOk s o.d = true →
    let ea := Machine.getS s o.a + BitVec.ofInt 64 o.disp.toInt
    let n := o.t.w / 8
    let x := readV s o.b
    let d := readV x.2 o.d
    ea.toNat % n = 0 →
    (∀ e < 512 / o.t.w, elemOn (predVal s o.p) o.t.w e = true → ea.toNat + elem o.t.w x.1 e * n < ea.toNat / 4096 * 4096 + 4096) →
      Runs i s (storeC d.2 ea n (((List.range (512 / o.t.w)).filter fun e => elemOn (predVal s o.p) o.t.w e).flatMap
        fun e => atAddr (elem o.t.w x.1 e * n) (toBytes n (elem o.t.w d.1 e))))) ∧
  (∀ (o : MemM) (s : State), pred0 s o.p = true →
    let ea := Machine.getS s o.a + BitVec.ofInt 64 o.disp.toInt
    let c := (Machine.getS s o.b).toNat
    let x := s.th.xfer.getD 0
    let one := fun (f : Nat → State) (j : Nat) => storeC (f j) (ea + BitVec.ofNat 64 (64 * j)) 64 (atAddr 0 (toBytes 64 (match blockReg s o.d j with
      | .base n => (vw s).v[n]
      | .ext k => poolBlock (vwPool s) (extBlock s.core (s.here % 4) k)
      | .queue _ => 0).toNat))
    (vopOk s o.d = false → Traps (.vstm o) s (trapOf cBOUNDS 0)) ∧
    (vopOk s o.d = true → c = 0 → exec (.vstm o) s = .next s) ∧
    (vopOk s o.d = true → c ≠ 0 → blockRange s o.d c = false → Traps (.vstm o) s (trapOf cBOUNDS 0)) ∧
    (vopOk s o.d = true → c ≠ 0 → blockRange s o.d c = true → ea.toNat % 64 ≠ 0 →
      Traps (.vstm o) s (trapAcc cMISALIGN ea (accWord .C true false 64))) ∧
    (vopOk s o.d = true → x < c → blockRange s o.d c = true → ea.toNat % 64 = 0 → ∀ f : Nat → State, f x = s →
      (∀ j, x ≤ j → j < c → one f j = .ok (f (j + 1))) → exec (.vstm o) s = .next (f c)) ∧
    (vopOk s o.d = true → x < c → blockRange s o.d c = true → ea.toNat % 64 = 0 → ∀ (f : Nat → State) (n : Nat), f x = s → x ≤ n → n < c →
      (∀ j, x ≤ j → j < n → one f j = .ok (f (j + 1))) →
      (∀ y, one f n = .error (.page y) → exec (.vstm o) s = .next (takePage (f n) { y with xfer := some n })) ∧
      (∀ y, one f n = .error (.trap y) → exec (.vstm o) s = .next (takeTrap (f n) { y with xfer := some n })))) ∧
  (∀ o : MemS, Skips (.st o) o.p) ∧ (∀ o : MemV, SkipsElems (.vst o) o.p 32) ∧ (∀ o : MemM, Skips (.vstm o) o.p) ∧
  (∀ o : VGs, SkipsElems (.vscat32 o) o.p o.t.w ∧ SkipsElems (.vscat64 o) o.p o.t.w)

/-- In every state with an active element of the width, 32 or 64, in which its queue registers are ready and its relative operands are in range: an address that is no multiple of the element size traps MISALIGN; when an active element would lie beyond the page of the address, the lowest such traps BOUNDS with its address; else vgath issues one C read that names each active element with its distance, its unsigned index times the size, from the address. In the pool window its bytes must lie in the scratchpad; outside, it is the translated address. A queue register as destination in slot j of a pair takes its entry at issue, after the earlier C accesses (log 71). How the read takes its value, element by element, is the statement on C reads. Without an active element nothing changes. That ACC gives the element size as the size is the model's choice (log 12). (R157, R158, R242, R280) -/
def Obligations.GathersReadEachActiveElement : Prop :=
  (∀ (o : VGs) (s : State) (i : Instr), i = .vgath32 o ∨ i = .vgath64 o → o.t.w = 32 ∨ o.t.w = 64 →
    anyOn (predVal s o.p) o.t.w = true → queuesReady s [o.b] (some o.d) = true → vopOk s o.b = true → vopOk s o.d = true →
    let ea := Machine.getS s o.a + BitVec.ofInt 64 o.disp.toInt
    let n := o.t.w / 8
    let x := readV s o.b
    let on := elemOn (predVal s o.p) o.t.w
    let off := fun e => elem o.t.w x.1 e * n
    let beyond := fun e => ea.toNat / 4096 * 4096 + 4096 ≤ ea.toNat + off e
    let offs := ((List.range (512 / o.t.w)).filter on).map fun e => (e, off e)
    let done := fun (u : State) (q : CReq) =>
      q.kind = .gath o.t.w (predVal s o.p) offs (resolveV s o.d) ∧ q.joined = false ∧ q.merged = [] ∧ q.atHome = false ∧ q.stale = false ∧
      ((∀ k, o.d ≠ .q k) ∨ inSlotJ s = false → exec i s = .next { u with th := { u.th with creqs := u.th.creqs ++ [q] } }) ∧
      (∀ k, o.d = .q k → inSlotJ s = true → (s.th.creqs ≠ [] → exec i s = .next (stalled s)) ∧
        (s.th.creqs = [] → exec i s = .next (settleRead { u with th := { u.th with creqs := u.th.creqs ++ [q] } })))
    (ea.toNat % n ≠ 0 → Traps i s (trapAcc cMISALIGN ea (accWord .C false false n))) ∧
    (∀ e < 512 / o.t.w, ea.toNat % n = 0 → on e = true → beyond e → (∀ f < e, on f = true → ¬beyond f) →
      Traps i s (trapAcc cBOUNDS (BitVec.ofNat 64 (ea.toNat + off e)) (accWord .C false false n))) ∧
    (ea.toNat % n = 0 → (∀ e < 512 / o.t.w, on e = true → ¬beyond e) →
      (inPoolWindow ea.toNat = true → (∀ e < 512 / o.t.w, on e = true → poolOk s.core s.th.act (poolOff ea + off e) n = true) →
        ∃ q, q.pool = true ∧ q.pa = poolOff ea ∧ done x.2 q) ∧
      (inPoolWindow ea.toNat = true → (∃ e < 512 / o.t.w, on e = true ∧ poolOk s.core s.th.act (poolOff ea + off e) n = false) →
        Traps i s (trapAcc cBOUNDS ea (accWord .C false false n))) ∧
      (inPoolWindow ea.toNat = false →
        (∀ y u, xlateCore x.2 .read false ea.toNat = .ok y u → XlateOnly x.2 u ∧ ∃ q, q.pool = false ∧ q.pa = y.pa ∧ q.slot = y.slot ∧ done u q) ∧
        (xlateCore x.2 .read false ea.toNat = .page → exec i s = .next (takePage s (trapAcc cPAGE ea (accWord .C false false n)))) ∧
        (xlateCore x.2 .read false ea.toNat = .perm → Traps i s (trapAcc cPERM ea (accWord .C false false n)))))) ∧
  (∀ o : VGs, SkipsElems (.vgath32 o) o.p o.t.w ∧ SkipsElems (.vgath64 o) o.p o.t.w)

/-- In every state with an active element in which the converting vld has its queue room and its relative operand in range: with a named source format it issues one C read of that format for the destination, like vld. With AUTO it waits for the thread set's C accesses and takes its value at issue, which is the model's choice (log 71), by the plan of its line's tag, from an L1 copy or from home: where no U copy stands and the L1 holds no copy of the sector, the bytes of the planned sectors are those at home under the key. A misaligned address traps MISALIGN. Each active element n of the destination becomes: the raw element; or code n in the plan's format and reading, times the block's scale byte where the tag says so; or, under E2M1, code n of the block with its scale and special byte; rounded to nearest even in the destination type. In the pool window AUTO reads RAW (the model's choice, log 71). Inactive elements keep the old register, and the conversions' conditions are ORed into flags. Without an active element nothing changes. (R86, R87, R88, R89, R150) -/
def Obligations.ConvertingLoadsConvertEachActiveElement : Prop :=
  (∀ (o : MemC) (s : State), 0 < o.t.w → 512 % o.t.w = 0 → anyOn (predVal s o.p) o.t.w = true →
    let ea := Machine.getS s o.a + BitVec.ofInt 64 o.disp.toInt
    let nd := 512 / o.t.w
    let on := elemOn (predVal s o.p) o.t.w
    let acc := fun n => accWord .C false false n
    -- the result of a load that left the state `u`, with element `n` given as value and conditions
    let res := fun (u t : State) (f : Nat → Nat × Nat) => ∃ v,
      WroteVD (orFlags u (orAll ((List.range nd).map fun n => if on n then (f n).2 else 0))) t (resolveV s o.d) v ∧
      ∀ n < nd, elem o.t.w v n = if on n then (f n).1 % 2 ^ o.t.w else elem o.t.w (oldV u (resolveV s o.d)) n
    -- element `n` under a plan, with the bytes at an address and the sidecar's scale
    let el := fun (p : ConvPlan) (pa : Nat) (rd : Nat → Nat → Nat) (side n : Nat) => match p.fmt with
      | none => (rd pa p.nb / 2 ^ (o.t.w * n) % 2 ^ o.t.w, 0)
      | some (ty, r) =>
        let code := rd pa p.nb / 2 ^ (ty.w * n) % 2 ^ ty.w
        encFV o.t .ieee .rne false (match p.block with
          | some b => scaleFV (e2m1Block code (rd (pa / 256 * 256 + 18 * b + 17) 1)) (rd (pa / 256 * 256 + 18 * b + 16) 1)
          | none => if p.scaled then scaleFV (fdec ty r code) side else fdec ty r code)
    (o.src = .auto → s.th.creqs ≠ [] → exec (.vldConverting o) s = .next (stalled s)) ∧
    ((o.src = .auto → s.th.creqs = []) → queuesReady s [] (some o.d) = false → exec (.vldConverting o) s = .next (stalled s)) ∧
    ((o.src = .auto → s.th.creqs = []) → queuesReady s [] (some o.d) = true → vopOk s o.d = false →
      Traps (.vldConverting o) s (trapOf cBOUNDS 0)) ∧
    (o.src ≠ .auto → queuesReady s [] (some o.d) = true → vopOk s o.d = true →
      let nb := nd * o.src.w / 8
      (ea.toNat % nb ≠ 0 → Traps (.vldConverting o) s (trapAcc cMISALIGN ea (acc nb))) ∧
      (ea.toNat % nb = 0 → (∀ q, o.d ≠ .q q) ∨ inSlotJ s = false →
        Runs (.vldConverting o) s (readC s ea nb (.conv o (predVal s o.p) (resolveV s o.d)) 0)) ∧
      (ea.toNat % nb = 0 → inSlotJ s = true → ∀ q, o.d = .q q → s.th.creqs = [] →
        ∀ u, readC s ea nb (.conv o (predVal s o.p) (resolveV s o.d)) 0 = .ok u → exec (.vldConverting o) s = .next (settleRead u))) ∧
    (∀ (u : State) (p : ConvPlan) (pa side : Nat) (rd : Nat → Nat → Nat),
      res u (convWrite o (predVal s o.p) (resolveV s o.d) (convElem o p pa rd side) u) (el p pa rd side)) ∧
    (o.src = .auto → s.th.creqs = [] → queuesReady s [] (some o.d) = true → vopOk s o.d = true →
      (inPoolWindow ea.toNat = true →
        let p := convPlan o ea 0
        p.ok = true → poolOk s.core s.th.act (poolOff ea) p.nb = true → ∃ t, exec (.vldConverting o) s = .next t ∧
          res (poolLoaded s) t (el p (poolOff ea) (fun a n => ofBytes (poolBytesAt s.core.pool a n)) 0)) ∧
      (inPoolWindow ea.toNat = false → ∀ x u, xlateCore s .read false ea.toNat = .ok x u →
          let r := convRead u o ea x
          let first := r.2.1 (x.pa / 64)
          AccessOnly u r.2.2 ∧ (∃ tag, r.1 = convPlan o ea tag) ∧
          (u.NoUCopies → amFind u.core.l1 (x.pa / 64) = none → ∀ a n, 0 < n → (∀ i < n, (a + i) / 64 ∈ planSecs x.pa r.1) →
            readSectors r.2.1 a n = ofBytes (homeBytes u x.slot a n)) ∧
          (r.1.ok = false → Traps (.vldConverting o) s (trapAcc cMISALIGN ea (acc r.1.nb))) ∧
          (r.1.ok = true → ∃ t, exec (.vldConverting o) s = .next t ∧
            res r.2.2 t (el r.1 x.pa (readSectors r.2.1) (if x.pa % 64 < 32 then first.sc0.toNat else first.sc1.toNat)))))) ∧
  (∀ (o : MemC) (ea : W64) (tag : Nat),
    let nd := 512 / o.t.w
    let p := convPlan o ea tag
    (o.src ≠ .auto → p.nb = nd * o.src.w / 8 ∧ p.fmt = some (o.src, readingFor o.rd o.src tag) ∧ p.block = none ∧ p.scaled = false) ∧
    (o.src = .auto → tagFormat tag = none → p.nb = 64 ∧ p.fmt = none ∧ (p.ok = true ↔ ea.toNat % 64 = 0)) ∧
    (∀ ty sc rd, o.src = .auto → tagFormat tag = some (ty, sc, rd) → ty ≠ .e2m1 →
      p.nb = nd * ty.w / 8 ∧ p.fmt = some (ty, rd) ∧ p.block = none ∧ p.scaled = sc ∧ (p.ok = true ↔ ea.toNat % p.nb = 0)) ∧
    (∀ sc rd, o.src = .auto → tagFormat tag = some (.e2m1, sc, rd) →
      p.nb = nd / 2 ∧ p.fmt = some (.e2m1, .fin) ∧ p.block = e2m1Place (ea.toNat % 256) (nd / 2) ∧ (p.ok = true ↔ p.block ≠ none))) ∧
  (∀ o : MemC, SkipsElems (.vldConverting o) o.p o.t.w)

/-- In every state in which they pass their checks, ld, st, vld and vst on path H add one access at the end of the thread set's list of H accesses, with the translated address and the bytes to store, and only what a translation may touch (and a popped queue register) differs beside. The event CXL_CACHE_RESPONSE answers the oldest access of a thread set in focus: a load writes the bytes of host memory, extended or in the active lanes, into its destination; a store, while the memories are in canonical form, makes the bytes of host memory those, and every other byte of host memory and all of HBM stay. (R247, R249, R285) -/
def Obligations.HostAccessesQueueAndAreAnsweredInOrder : Prop :=
  (∀ (p : Pred) (ty : Ty) (sc : Scope) (d a : Fin 32) (disp : W32) (path : Path) (s : State), path ≠ .K → pred0 s p = true →
    let ea := Machine.getS s a + BitVec.ofInt 64 disp.toInt
    let n := ty.w / 8
    ea.toNat % n = 0 → inPoolWindow ea.toNat = false →
    (∀ x u, xlateCore s .read true ea.toNat = .ok x u → XlateOnly s u ∧ ∃ q, q.pa = x.pa ∧ q.load = true ∧ q.vec = false ∧ q.dst = d.val ∧ q.ty = ty ∧
      exec (.ldPath ⟨p, ty, path, sc, d, a, disp⟩) s = .next { u with th := { u.th with hreqs := u.th.hreqs ++ [q] } }) ∧
    (∀ x u, xlateCore s .write true ea.toNat = .ok x u → XlateOnly s u ∧ ∃ q, q.load = false ∧
      q.bytes = atAddr x.pa (toBytes n (Machine.getS s d).toNat) ∧
      exec (.stPath ⟨p, ty, path, sc, d, a, disp⟩) s = .next { u with th := { u.th with hreqs := u.th.hreqs ++ [q] } })) ∧
  (∀ (p : Pred) (sc : Scope) (d : VOp) (a : Fin 32) (disp : W32) (path : Path) (s : State), path ≠ .K → anyOn (predVal s p) 32 = true →
    let ea := Machine.getS s a + BitVec.ofInt 64 disp.toInt
    ea.toNat % 64 = 0 → inPoolWindow ea.toNat = false → vopOk s d = true →
    (queuesReady s [] (some d) = true → ∀ x u, xlateCore s .read true ea.toNat = .ok x u → XlateOnly s u ∧
      ∃ q, q.pa = x.pa ∧ q.load = true ∧ q.vec = true ∧ q.mask = predVal s p ∧ q.vdst = resolveV s d ∧
        exec (.vldPath ⟨p, path, sc, d, a, disp⟩) s = .next { u with th := { u.th with hreqs := u.th.hreqs ++ [q] } }) ∧
    (queuesReady s [d] none = true → ∀ x u, xlateCore (readV s d).2 .write true ea.toNat = .ok x u → XlateOnly (readV s d).2 u ∧
      ∃ q, q.load = false ∧ q.bytes = (laneBytes (predVal s p) (readV s d).1).map (fun e => (x.pa + e.1, e.2)) ∧
        exec (.vstPath ⟨p, path, sc, d, a, disp⟩) s = .next { u with th := { u.th with hreqs := u.th.hreqs ++ [q] } })) ∧
  (∀ (s : State) (q : HReq) (rest : List HReq), s.th.hreqs = q :: rest →
    let u := { s with th := { s.th with hreqs := rest } }
    (q.load = true → q.vec = false → ∀ h : q.dst < 32, ∃ t, exec (.cxlCacheResponse s.here) s = .next t ∧
      WroteS u t ⟨q.dst, h⟩ (extendTo q.ty (ofBytes (memRead s.host q.pa (q.ty.w / 8))))) ∧
    (q.load = true → q.vec = true → (∀ k, q.vdst = .queue k → qTakes u k.val = true) → ∃ t v, exec (.cxlCacheResponse s.here) s = .next t ∧
      WroteVD u t q.vdst v ∧ LanesFrom q.mask (ofBytes (memRead s.host q.pa 64)) (oldV u q.vdst) v) ∧
    (q.load = false → s.MemoryCanonical → ∃ t, exec (.cxlCacheResponse s.here) s = .next t ∧ t = { u with host := t.host } ∧
      (∀ a, (∀ e ∈ q.bytes, e.1 ≠ a) → memGet t.host a = memGet s.host a) ∧
      (∀ k e m, q.bytes = k ++ e :: m → (∀ x ∈ m, x.1 ≠ e.1) → memGet t.host e.1 = e.2)))

/-- In every state with canonical memory in which no U copy stands, a write at home of a list of bytes under a slot makes each listed address read, under that slot's key, the last byte listed for it; every other address reads as before under that key, and every address of a sector that holds none of them reads as before under every key. Its write time is at least the writer's timestamp and the time that a fence has put before the path, later than the read time of each line it writes, and is the new write and read time of those lines; the greatest time of its path rises to it. Memory stays canonical, and only the home side differs. The times by path and by fence are the model's choice (log 73). (R24, R250, R254, R362) -/
def Obligations.HomeWritesStoreExactlyTheirBytes : Prop :=
  ∀ (s : State) (ctx slot pts : Nat) (p : Path) (l : List (Nat × Byte)), s.NoUCopies → s.MemoryCanonical →
    let r := homeWrite s ctx slot p pts l
    let key := keyOf s slot
    (∀ a, (∀ e ∈ l, e.1 ≠ a) → homeByte r.2 key a = homeByte s key a) ∧
    (∀ k e m, l = k ++ e :: m → (∀ x ∈ m, x.1 ≠ e.1) → homeByte r.2 key e.1 = e.2) ∧
    (∀ any a, (∀ e ∈ l, e.1 / 64 ≠ a / 64) → homeByte r.2 any a = homeByte s any a) ∧
    pts ≤ r.1 ∧ floorOf s p ≤ r.1 ∧ (∀ e ∈ l, (getLine s (e.1 / 256)).rts < r.1 ∧ (getLine r.2 (e.1 / 256)).wts = r.1 ∧ (getLine r.2 (e.1 / 256)).rts = r.1) ∧
    (∀ i : Fin 9, r.2.pathTime[i] = if i.val = pathCode p then max s.pathTime[i] r.1 else s.pathTime[i]) ∧
    HomeOnly s r.2 ∧ r.2.MemoryCanonical

/-- In every state in which the oldest C access of a thread set is a store or an atomic of memory that home has not performed, that no invalidation has made stale and that waits for no matrix command of its pair, HOME_STORE performs it: a store writes its bytes at home, an atomic writes the operation of the old value and its operand, a compare-and-swap its new value when the old one equals the compared one and the old one otherwise; the access then carries the old value, the write time and the written sectors as they stand at home, and its thread set is otherwise as before. While its command of its pair stands in the queue, nothing happens. In every state with a performed one, STORE_ACKNOWLEDGE (of a store) and ATOMIC_REPLY (of an atomic) end it: the thread set's program timestamp rises to the write time, the core's copies of the written sectors that are older take the sector as it stood at home, with that time, an atomic's destination takes the old value, extended by the type, and flags its conditions; an acquire set that waited for the reply then acts, the thread set's reds waited for where it names U. (The update of a join stands in its own statement.) (R250, R260, R261, R262, R263, R264, R280) -/
def Obligations.PendingAccessesArePerformedAndAcknowledged : Prop :=
  (∀ (s : State) (g : Nat) (r : CReq) (l : List CReq), (threadAt s g).creqs = r :: l → r.pool = false → r.kind.isRead = false → r.performed = false → r.stale = false →
    let ctx := (getCore s (coreNo g)).ctx.getD 0
    let pts := (threadAt s g).pts
    -- the access as performed: the state of the write, the old value and the conditions
    let done := fun (w : Nat × State) (bytes : List (Nat × Byte)) (old fl : Nat) =>
      let q := { r with performed := true, wts := w.1, after := (sectorsOf bytes).map fun sec => (sec, sectorAs w.2 (keyOf w.2 r.slot) sec),
                        reply := BitVec.ofNat 128 old, flags := BitVec.ofNat 5 fl }
      let t := setThread w.2 g { threadAt w.2 g with creqs := q :: l }
      exec (.homeStore g) s = .next t ∧ threadAt t g = { threadAt s g with creqs := q :: l } ∧ t.mem = w.2.mem ∧ t.host = s.host
    (behindCmd s g r.behind = true → exec (.homeStore g) s = .next s) ∧
    (behindCmd s g r.behind = false →
      (r.kind = .store → done (homeWrite s ctx r.slot .C pts r.bytes) r.bytes 0 0) ∧
      (∀ ty op b, r.kind = .amo ty op b →
        let h := homeRead s ctx r.slot r.pa (ty.w / 8)
        let v := aopElem ty op (ofBytes h.1) b.toNat
        let bytes := atAddr r.pa (toBytes (ty.w / 8) v.1)
        done (homeWrite h.2 ctx r.slot .C pts bytes) bytes (ofBytes h.1) v.2) ∧
      (∀ ty b c, r.kind = .cas ty b c →
        let h := homeRead s ctx r.slot r.pa (ty.w / 8)
        let bytes := atAddr r.pa (toBytes (ty.w / 8) (if ofBytes h.1 = b.toNat % 2 ^ ty.w then c.toNat else ofBytes h.1))
        done (homeWrite h.2 ctx r.slot .C pts bytes) bytes (ofBytes h.1) 0) ∧
      (∀ b c, r.kind = .cas2 b c →
        let h := homeRead s ctx r.slot r.pa 16
        let bytes := atAddr r.pa (toBytes 16 (if ofBytes h.1 = b.toNat then c.toNat else ofBytes h.1))
        done (homeWrite h.2 ctx r.slot .C pts bytes) bytes (ofBytes h.1) 0))) ∧
  (∀ (s : State) (g : Nat) (r : CReq) (l : List CReq), (threadAt s g).creqs = r :: l → r.performed = true → (r.kind ≠ .store → names r.acq .U = true → (threadAt s g).ureqs = []) →
    let i := if r.kind = .store then Instr.storeAcknowledge g else Instr.atomicReply g
    let ext := fun (ty : Ty) => extendTo ty r.reply.toNat
    ∃ t, exec i s = .next (if r.kind = .store ∨ r.acq = 0 then t else focus (fenceEffects (focus t g) 1 r.acq) t.here) ∧
      t.mem = s.mem ∧ t.host = s.host ∧ t.lines = s.lines ∧ t.here = s.here ∧
      (threadAt t g).creqs = l ∧ (threadAt t g).pts = max (threadAt s g).pts r.wts ∧ (threadAt t g).pc = (threadAt s g).pc ∧
      (getCore t (coreNo g)).l1 = r.after.foldl (updateCopy r.slot r.wts) (getCore s (coreNo g)).l1 ∧
      (r.kind = .store → (threadAt t g).rf = (threadAt s g).rf) ∧
      (∀ ty op b, r.kind = .amo ty op b → (threadAt t g).rf = rfOrFlags (rfSetS (threadAt s g).rf r.dst (ext ty)) r.flags.toNat) ∧
      (∀ ty b c, r.kind = .cas ty b c → (threadAt t g).rf = rfSetS (threadAt s g).rf r.dst (ext ty)) ∧
      (∀ b pay, r.kind = .join b pay → (threadAt t g).rf = rfSetS (threadAt s g).rf r.dst (ext .i64)) ∧
      (∀ b c, r.kind = .cas2 b c → (threadAt t g).rf = rfSetS (rfSetS (threadAt s g).rf r.dst (BitVec.ofNat 64 r.reply.toNat)) (r.dst + 1)
        (BitVec.ofNat 64 (r.reply.toNat / 2 ^ 64)))) ∧
  (∀ (slot wts sec : Nat) (d : V512) (l1 : AMap L1Copy) (c : L1Copy), amFind l1 sec = some c → c.slot = slot →
    amFind (updateCopy slot wts l1 (sec, d)) sec = some (if wts ≤ c.wts then c else { c with data := d, wts := wts, le := wts }))

/-- In every state with bit 0 of the predicate set: amo, cas and cas2 whose release set names an access that is not performed are not ready; else the U copies of the cluster merge when the set names U, and a deferred P trap is taken when it names P. With an acquire set they are not ready while an earlier C access is not complete, or, when it names U, a red of the thread set. Then, with the effects of a fence from the release set to C, at an aligned address outside the pool window whose translation permits the write, the thread set has one C access more, its newest: the atomic with the operation, its operands and its destination at the translated address; a release set that names M, in slot j + 1, makes it wait for the commands of its pair. With an acquire set and no such wait the atomic is performed and acknowledged at once, and the effects of a fence from C to the acquire set follow. Misalignment, the pool window and a failing translation stop as R117 says. When bit 0 is clear, nothing changes. (R45, R260, R261, R262, R263, R264, R287, R289, R305) -/
def Obligations.AtomicsLeaveAPendingReadModifyWrite : Prop :=
  (∀ (s : State) (i : Instr) (p : Pred) (ea : W64) (n : Nat) (acq rel : PathSet) (kind : CKind) (dst : Nat),
    (∃ o : Amo, (i = .amoI o ∨ i = .amoF o) ∧ p = o.p ∧ ea = Machine.getS s o.a + BitVec.ofInt 64 o.disp.toInt ∧ n = o.t.w / 8 ∧ acq = o.acq ∧
      rel = o.rel ∧ kind = .amo o.t o.op (BitVec.ofNat 64 ((Machine.getS s o.b).toNat % 2 ^ o.t.w)) ∧ dst = o.d.val) ∨
    (∃ o : Cas, i = .cas o ∧ p = o.p ∧ ea = Machine.getS s o.a + BitVec.ofInt 64 o.disp.toInt ∧ n = o.t.w / 8 ∧ acq = o.acq ∧
      rel = o.rel ∧ kind = .cas o.t (Machine.getS s o.b) (Machine.getS s o.c) ∧ dst = o.d.val) ∨
    (∃ o : Cas2, i = .cas2 o ∧ p = o.p ∧ ea = Machine.getS s o.a + BitVec.ofInt 64 o.disp.toInt ∧ n = 16 ∧ acq = o.acq ∧ rel = o.rel ∧
      kind = .cas2 (pairOf s o.b) (pairOf s o.c) ∧ dst = o.d.val) →
    (pred0 s p = false → exec i s = .next s) ∧
    (pred0 s p = true →
      let s0 := if names rel .U then mergeAllU s (myClu s) else s
      (quietOn s rel = false → exec i s = .next (stalled s)) ∧
      (quietOn s rel = true → names rel .P = true → ∀ c w, s.th.platch = some (c, w) →
        exec i s = .next (takeTrap { s0 with th := { s0.th with platch := none } } (trapOf c w))) ∧
      (quietOn s rel = true → (names rel .P = true → s.th.platch = none) →
        let s1 := if rel = 0 then s0 else fenceEffects s0 rel 1
        let behind := if names rel .M = true ∧ vwCmds s < s.core.mnum then some s.core.mnum else none
        (acq ≠ 0 → s.th.creqs ≠ [] ∨ (names acq .U = true ∧ s.th.ureqs ≠ []) → exec i s = .next (stalled s)) ∧
        (acq = 0 ∨ (s.th.creqs = [] ∧ (names acq .U = true → s.th.ureqs = [])) →
          (ea.toNat % n ≠ 0 → Traps i s (trapAcc cMISALIGN ea (accWord .C true false n))) ∧
          (ea.toNat % n = 0 → inPoolWindow ea.toNat = true → Traps i s (trapAcc cPERM ea (accWord .C true false n))) ∧
          (ea.toNat % n = 0 → inPoolWindow ea.toNat = false →
            (xlateCore s1 .write false ea.toNat = .page → exec i s = .next (takePage s (trapAcc cPAGE ea (accWord .C true false n)))) ∧
            (xlateCore s1 .write false ea.toNat = .perm → Traps i s (trapAcc cPERM ea (accWord .C true false n))) ∧
            ∀ x u, xlateCore s1 .write false ea.toNat = .ok x u → XlateOnly s1 u ∧
              ∃ q w, q.kind = kind ∧ q.pool = false ∧ q.pa = x.pa ∧ q.slot = x.slot ∧ q.dst = dst ∧ q.performed = false ∧ q.stale = false ∧ q.behind = behind ∧
                q.acq = (if behind = none then 0 else acq) ∧ IssuedC u w q ∧
                exec i s = .next (if acq = 0 ∨ behind ≠ none then w else fenceEffects (settleC w) 1 acq))))))

/-- In every state with bit 0 of the predicate set in which the accesses that the release set names are performed, and with any release set the thread set's earlier reds, and no deferred P trap that it names waits: the cluster's U copies merge when there is a release set, and red at an aligned address outside the pool window whose translation permits the reduction issues one reduction, the newest of the thread set's, with its type, operation and operand at the translated address; with an acquire set and no command of its pair to wait for, every reduction of the thread set is then folded, oldest first, and the effects of a fence from U to the acquire set follow. The reductions of a thread set are folded in any order, each at once: when its cluster is the home of the line, or the page does not permit U copies, no U copy stands and memory is canonical, the element at home becomes the operation of its old value and the operand, every byte outside it reads as before under that key, and nothing is written into a register. When the cluster holds a matching U copy, or none stands in any cluster, the operand is folded into the cluster's U copy (an absent word counts as the operation's empty value) and memory is unchanged, where a full set of the slice may lose a line for the copy (log 68). When bit 0 is clear, nothing changes. (R95, R265, R266, R284, R287, R289, R305) -/
def Obligations.ReductionsFoldAtHomeOrIntoAUCopy : Prop :=
  (∀ (o : Red) (i : Instr) (s : State), i = .redI o ∨ i = .redF o →
    (pred0 s o.p = false → exec i s = .next s) ∧
    (pred0 s o.p = true →
      let s0 := if o.rel = 0 then s else mergeAllU s (myClu s)
      let s1 := if o.rel = 0 then s0 else fenceEffects s0 o.rel 0b000010000
      let quiet := quietOn s o.rel = true ∧ (o.rel ≠ 0 → s.th.ureqs = [])
      let ea := Machine.getS s o.a + BitVec.ofInt 64 o.disp.toInt
      let n := o.t.w / 8
      let b := (Machine.getS s o.b).toNat % 2 ^ o.t.w
      let behind := if names o.rel .M = true ∧ vwCmds s < s.core.mnum then some s.core.mnum else none
      (¬quiet → exec i s = .next (stalled s)) ∧
      (quiet → names o.rel .P = true → ∀ c w, s.th.platch = some (c, w) →
        exec i s = .next (takeTrap { s0 with th := { s0.th with platch := none } } (trapOf c w))) ∧
      (quiet → (names o.rel .P = true → s.th.platch = none) →
        (ea.toNat % n ≠ 0 → Traps i s (trapAcc cMISALIGN ea (accWord .U true false n))) ∧
        (ea.toNat % n = 0 → inPoolWindow ea.toNat = true → Traps i s (trapAcc cPERM ea (accWord .U true false n))) ∧
        (ea.toNat % n = 0 → inPoolWindow ea.toNat = false →
          (xlateCore s1 .red false ea.toNat = .page → exec i s = .next (takePage s (trapAcc cPAGE ea (accWord .U true false n)))) ∧
          (xlateCore s1 .red false ea.toNat = .perm → Traps i s (trapAcc cPERM ea (accWord .U true false n))) ∧
          ∀ x u, xlateCore s1 .red false ea.toNat = .ok x u → XlateOnly s1 u ∧
            let q : UReq := { va := ea, stale := false, pa := x.pa, slot := x.slot, ubit := x.ubit, ty := o.t, op := o.op, b := b,
                              behind := behind, acq := if behind = none then 0 else o.acq }
            let w := { u with th := { u.th with ureqs := u.th.ureqs ++ [q] } }
            exec i s = .next (if o.acq = 0 ∨ behind ≠ none then w else fenceEffects (settleU w) 0b000010000 o.acq))))) ∧
  (∀ (s : State) (n : Nat) (q : UReq), s.th.ureqs[n]? = some q → q.behind = none → q.acq = 0 → q.stale = false →
    let u := { s with th := { s.th with ureqs := s.th.ureqs.eraseIdx n } }
    let m := q.ty.w / 8
    (myClu s = homeOf q.pa ∨ q.ubit = false → s.NoUCopies → s.MemoryCanonical →
      ∃ t, evRed s.here n s = some t ∧ HomeOnly u t ∧
        homeBytes t q.slot q.pa m = toBytes m (aopElem q.ty q.op (ofBytes (homeBytes s q.slot q.pa m)) q.b).1 ∧
        ∀ a, a < q.pa ∨ q.pa + m ≤ a → homeByte t (keyOf s q.slot) a = homeByte s (keyOf s q.slot) a) ∧
    (myClu s ≠ homeOf q.pa → q.ubit = true → ∀ old, (∃ c, amFind (getClu s (myClu s)).ucopies (q.pa / 256) = some c ∧ c.op = q.op ∧ c.t = q.ty ∧
        c.slot = q.slot ∧ c.ctx = myCtx s ∧ old = c) ∨ (s.NoUCopies ∧ old = newU (myCtx s) q.slot q.op q.ty) →
      ∃ t c, evRed s.here n s = some t ∧ HomeOnly u t ∧ t.mem = s.mem ∧ t.host = s.host ∧ amFind (getClu t (myClu s)).ucopies (q.pa / 256) = some c ∧
        (amFind c.words (q.pa % 256 / 2)) = some (BitVec.ofNat 64 (aopElem q.ty q.op
          (match amFind old.words (q.pa % 256 / 2) with
            | some w => w.toNat
            | none => emptyOf q.ty q.op) q.b).1) ∧
        ∀ k, k ≠ q.pa % 256 / 2 → amFind c.words k = amFind old.words k))

/-- In every state with bit 0 of the predicate set: fence is not ready while an access that the before set names is not performed, or, with U in either set, a red; ifence while a store, an atomic, a red, a copy, a message, a matrix command, a ray or a P write of the thread set is not, loads not waited for. When all are: the U copies of the cluster merge home for U in either set; with P there (as in ifence) and a deferred P trap waiting, the instruction takes that trap at itself and the latch clears. Otherwise it answers the next state in which, for C or K in the after set, the program timestamp is at least every time that home has given on the paths of the before set, so that no lease from before those writes serves later accesses; for each other path of the after set, its later accesses come at those times, and the program timestamp for C, or after; and for K in the after set every L1 copy of the core serves K reads only under its lease. Nothing else differs. ifence acts with every path before and K after. When bit 0 is clear, nothing changes. (That the timestamps stand for the order after the fence is the model's reading, log 73.) (R132, R286, R287, R290, R305) -/
def Obligations.FencesWaitForTheirBeforeSet : Prop :=
  (∀ (s : State) (o : Fence),
    let b := o.before
    let a := o.after
    (pred0 s o.p = false → exec (.fence o) s = .next s) ∧
    let quiet := quietOn s b = true ∧ (names a .U = true → s.th.ureqs = [])
    (pred0 s o.p = true → ¬quiet → exec (.fence o) s = .next (stalled s)) ∧
    (pred0 s o.p = true → quiet → names b .P = true → ∀ c w, s.th.platch = some (c, w) →
      ∃ u, HomeOnly s u ∧ (names b .U = false → names a .U = false → u = s) ∧
        exec (.fence o) s = .next (takeTrap { u with th := { u.th with platch := none } } (trapOf c w))) ∧
    (pred0 s o.p = true → quiet → (names b .P = true → s.th.platch = none) →
      ∃ u, HomeOnly s u ∧ (names b .U = false → names a .U = false → u = s) ∧
        (names b .U = true ∨ names a .U = true → (getClu u (myClu s)).ucopies = []) ∧
        exec (.fence o) s = .next { u with
          th := { u.th with pts := if names a .C ∨ names a .K then max u.th.pts (timeOn u b) else u.th.pts }
          fenced := Vector.ofFn fun i => if 2 ≤ i.val ∧ bitOf a.toNat i.val then
            max u.fenced[i] (max (if names b .C then u.th.pts else 0) (timeOn u b)) else u.fenced[i]
          core := if names a .K then { u.core with l1 := u.core.l1.map fun e => (e.1, { e.2 with leased := true }) } else u.core })) ∧
  (∀ (s : State) (b : PathSet) (p : Path), names b p = true → p ≠ .C → s.pathTime.toList.getD (pathCode p) 0 ≤ timeOn s b) ∧
  (∀ (s : State) (o : Bare),
    let quiet := (∀ r ∈ s.th.creqs, r.kind.isRead = true) ∧ (∀ q ∈ s.th.hreqs, q.load = true) ∧ quietOn s 0b011111100 = true
    (pred0 s o.p = false → exec (.ifence o) s = .next s) ∧
    (pred0 s o.p = true → ¬quiet → exec (.ifence o) s = .next (stalled s)) ∧
    (pred0 s o.p = true → quiet → ∃ u, HomeOnly s u ∧ (getClu u (myClu s)).ucopies = [] ∧
      (∀ c w, s.th.platch = some (c, w) → exec (.ifence o) s = .next (takeTrap { u with th := { u.th with platch := none } } (trapOf c w))) ∧
      (s.th.platch = none → ∃ t, exec (.ifence o) s = .next t ∧ (∀ i : Fin 9, u.pathTime[i] ≤ t.th.pts) ∧ u.th.pts ≤ t.th.pts ∧
        t = { u with th := { u.th with pts := t.th.pts }
                     core := { u.core with l1 := u.core.l1.map fun e => (e.1, { e.2 with leased := true }) } })))

/-- In every state with bit 0 of the predicate set in which amsg is ready, its descriptor is one that the form accepts, its address is a multiple of 64 outside the pool window, and the translation permits it, the message with its descriptor, data and destination joins the thread set's messages; a refused descriptor traps ENGINE and a misaligned address MISALIGN. AMSG_PERFORM makes the oldest unperformed message read the 64 bytes at home as its reply and write what the operation makes of them (nothing for a read, and for a flush the line leaves the slice after write-back), as one write in the line's timestamp order whatever its operation; while no U copy stands and memory is canonical the 64 bytes at home are then those. A turn performs a later message before an earlier one to another home and never before an earlier one to the same home. AMSG_REPLY gives the oldest message's reply to its destination register and ends it. When bit 0 is clear, nothing changes. (R268) -/
def Obligations.ActiveMessagesArePerformedAtHome : Prop :=
  (∀ (o : Amsg) (s : State), pred0 s o.p = true → queuesReady s [o.b] (some o.d) = true → vopOk s o.b = true → vopOk s o.d = true →
    let ea := Machine.getS s o.a + BitVec.ofInt 64 o.disp.toInt
    let desc := Machine.getS s o.c
    let w := decide (desc.toNat % 16 ≠ 0)
    (amsgOk desc = false → Traps (.amsg o) s (trapOf cENGINE 0)) ∧
    (amsgOk desc = true → ea.toNat % 64 ≠ 0 → Traps (.amsg o) s (trapAcc cMISALIGN ea (accWord .G w false 64))) ∧
    (amsgOk desc = true → ea.toNat % 64 = 0 → inPoolWindow ea.toNat = false →
      ∀ x u, xlateCore s (if w then .gwrite else .read) false ea.toNat = .ok x u → XlateOnly s u ∧
        ∃ q, q.pa = x.pa ∧ q.slot = x.slot ∧ q.desc = desc ∧ q.data = (readV u o.b).1 ∧ q.dst = resolveV s o.d ∧ q.performed = false ∧
          let v := (readV u o.b).2
          exec (.amsg o) s = .next { v with th := { v.th with amsgs := v.th.amsgs ++ [q] } })) ∧
  (∀ o : Amsg, Skips (.amsg o) o.p) ∧
  (∀ (s : State) (k : List AmsgReq) (q : AmsgReq) (m : List AmsgReq), s.th.amsgs = k ++ q :: m → (∀ x ∈ k, x.performed = true) → q.performed = false →
    let ctx := s.core.ctx.getD 0
    let h := homeRead s ctx q.slot q.pa 64
    let old : V512 := BitVec.ofNat 512 (ofBytes h.1)
    let op := q.desc.toNat % 16
    let l := q.pa / 256
    let new := if op = 0 ∨ op = 9 then old else amsgNew q.desc old q.data
    let w := stampLines (if op = 0 ∨ op = 9 then h.2 else putBytes h.2 ctx q.slot (atAddr q.pa (toBytes 64 new.toNat))) .G s.th.pts [l]
    let u := if op = 9 then dropLine (writeBack w.2 l) l else w.2
    HomeOnly s u ∧ s.th.pts ≤ w.1 ∧ floorOf s .G ≤ w.1 ∧ (getLine h.2 l).rts < w.1 ∧ (getLine u l).wts = w.1 ∧ (getLine u l).rts = w.1 ∧
      (s.NoUCopies → s.MemoryCanonical → ofBytes (homeBytes u q.slot q.pa 64) = new.toNat) ∧
      exec (.amsgPerform s.here) s = .next { u with th := { s.th with amsgs := k ++ { q with performed := true, reply := old } :: m } }) ∧
  (∀ (s : State) (k : List AmsgReq) (q : AmsgReq) (m : List AmsgReq), s.th.amsgs = k ++ q :: m → q.performed = false →
    let waits := ∃ x ∈ k, x.performed = false ∧ homeOf x.pa = homeOf q.pa
    (waits → turnStep (.amsg s.here k.length) s = .next s) ∧
    (¬waits → ∃ t, turnStep (.amsg s.here k.length) s = .next t ∧
      t.th.amsgs = k ++ { q with performed := true, reply := (amsgAtHome s s.here q).1 } :: m)) ∧
  (∀ (s : State) (q : AmsgReq) (m : List AmsgReq), s.th.amsgs = q :: m → q.performed = true → (∀ n, q.dst = .queue n → qTakes s n.val = true) →
    ∃ u, WroteVD s u q.dst q.reply ∧ exec (.amsgReply s.here) s = .next { u with th := { u.th with amsgs := m } })

/-- HOME_LOAD by a thread set of a bound core serves its oldest C access where that reads the address, and else leases the sector at a translated address into the core's L1. LINE_FILL makes a sector of the slice valid, and lets its miss-table entry go where one waits for it. A line that leaves its slice goes to the write-back buffer when it is dirty; WRITE_BACK_DRAIN writes a buffered line back and drops it. None of them changes a byte at home while no U copy stands. A copy that leaves an L1 changes nothing else. U_COPY_MERGE merges one U copy home and removes it. PTS_TICK gives every thread set the ticks of 256 cycles that are due, and after the time of a step none is due; TIMESTAMP_REBASE lowers every timestamp by the least program timestamp of a bound core; neither changes a register or a byte of memory. (R37, R250, R251, R254, R255, R256, R259, R266) -/
def Obligations.LineAndTimeEventsKeepTheBytesOfMemory : Prop :=
  (∀ (s u : State) (va : Nat) (x : Xl), s.core.ctx.isSome = true → inPoolWindow va = false → xlateCore s .read false va = .ok x u → x.noL1 = false →
    (∀ r, s.th.creqs.head? = some r → r.va ≠ BitVec.ofNat 64 va) →
    ∃ t c, exec (.homeLoad s.here va) s = .next t ∧ AccessOnly s t ∧ amFind t.core.l1 (x.pa / 64) = some c ∧ c.slot = x.slot ∧
      (s.NoUCopies → c.data.toNat = ofBytes (homeBytes s x.slot (x.pa / 64 * 64) 64))) ∧
  (∀ (s : State) (va : Nat) (r : CReq) (l : List CReq), s.th.creqs = r :: l → r.kind.isRead = true → r.pool = false → r.va = BitVec.ofNat 64 va →
    exec (.homeLoad s.here va) s = .next ((evAccess s.here s).getD s)) ∧
  (∀ (s : State) (ctx slot sec : Nat),
    let k := homeOf (sec * 64)
    let ln := getLine s (sec / 4)
    let waits := missWaits (getClu s k).miss ctx slot sec
    waits = true ∨ (slot / 8 = ctx ∧ slotValid s slot = true ∧ liesIn s (getCtx s ctx).part (sec * 64) = true ∧
      bitOf ln.valid.toNat (sec % 4) = false ∧ (lineHere ln = false ∨ ln.slot = slot)) →
    ∃ t, exec (.lineFill ctx slot sec) s = .next t ∧ bitOf (getLine t (sec / 4)).valid.toNat (sec % 4) = true ∧
      t.th = s.th ∧ t.core = s.core ∧ t.cores = s.cores ∧ t.host = s.host ∧ (s.NoUCopies → t.mem = s.mem ∧ t.memKey = s.memKey) ∧
      (s.NoUCopies → lineHere ln = true → ln.slot = slot → (getLine t (sec / 4)).dirty = ln.dirty) ∧
      (waits = true → (getClu t k).miss = dropMiss (getClu s k).miss sec) ∧ (waits = false → HomeOnly s t)) ∧
  (∀ (s : State) (l : Nat), lineHere (getLine s l) = true → ∃ t, turnStep (.evictLine l) s = .next t ∧ HomeOnly s t ∧ t.mem = s.mem ∧
    t.memKey = s.memKey ∧ lineHere (getLine t l) = false ∧ ((getLine s l).dirty ≠ 0 → (getLine t l).buffered = true ∧ (getLine t l).dirty = (getLine s l).dirty)) ∧
  (∀ (s : State) (l : Nat), (getLine s l).buffered = true →
    ∃ t, exec (.writeBackDrain l) s = .next t ∧ HomeOnly s t ∧ t.mem = s.mem ∧ t.memKey = s.memKey ∧ (getLine t l).buffered = false ∧
      (getLine t l).valid = 0 ∧ (getLine t l).dirty = 0 ∧ (getClu t (homeOfLine l)).wbuf = (getClu s (homeOfLine l)).wbuf.filter (· != l) ∧
      ∀ i < 4, bitOf (getLine s l).dirty.toNat i = true → amFind t.older (l * 4 + i) = none) ∧
  (∀ (s : State) (sec : Nat) (c : L1Copy), amFind s.core.l1 sec = some c → ∃ t, turnStep (.evictL1 (myCore s) sec) s = .next t ∧
    t = { s with core := { s.core with l1 := t.core.l1 } } ∧ amFind t.core.l1 sec = none) ∧
  (∀ (s : State) (k l : Nat) (u : UCopy), amFind (getClu s k).ucopies l = some u →
    ∃ t, exec (.uCopyMerge k l) s = .next t ∧ HomeOnly s t ∧ amFind (getClu t k).ucopies l = none) ∧
  (∀ (s : State), let n := s.cycle.toNat / 256 - s.ticks
    ∃ t, exec .ptsTick s = .next t ∧ t.th = { s.th with pts := s.th.pts + n } ∧ t.ticks = s.ticks + n ∧ t.basePts = s.basePts + n ∧ t.mem = s.mem ∧ t.lines = s.lines ∧
    t.core.l1 = s.core.l1 ∧ ∀ g, g ≠ s.here → coreNo g = coreNo s.here → threadAt t g = { threadAt s g with pts := (threadAt s g).pts + n }) ∧
  (∀ s : State, (passTime s).cycle.toNat / 256 ≤ (passTime s).ticks) ∧
  (∀ (s : State), s.core.ctx.isSome = true → s.cores = [] → (∀ i < 4, i ≠ s.here % 4 → s.th.pts ≤ (slotOf s.core i).pts) →
    ∃ t, exec .timestampRebase s = .next t ∧ t.mem = s.mem ∧ t.memKey = s.memKey ∧ t.released = s.released - s.th.pts ∧ t.basePts = s.basePts - s.th.pts ∧
    (∀ i : Fin 9, t.fenced[i] = s.fenced[i] - s.th.pts) ∧
    t.th = { s.th with pts := 0, creqs := s.th.creqs.map fun r => { r with wts := r.wts - s.th.pts } } ∧
    (∀ i : Fin 9, t.pathTime[i] = s.pathTime[i] - s.th.pts) ∧
    ∀ l, (getLine t l).rts = (getLine s l).rts - s.th.pts ∧ (getLine t l).wts = (getLine s l).wts - s.th.pts)

/-- In every state with bit 0 of the predicate set in which the context owns the cluster's semaphore: semw with a value at or above the bound changes nothing, and below it is not ready; seminc writes the old value into DST and stores the sum, clamped into 0 to 2^32 minus 1; semset stores the low 32 bits of its source; every other semaphore and everything else stays. Without ownership each traps PERM. SEMAPHORE_ASSIGN gives a semaphore to a created context with value 0. When bit 0 is clear, nothing changes. (R23, R279) -/
def Obligations.SemaphoreFormsActOnTheirClustersSemaphore : Prop :=
  (∀ (s : State) (p : Pred) (n : BitVec 6) (v : W32), pred0 s p = true → semOf s (myClu s) n.toNat (myCtx s) = some v →
    let stored := fun (t : State) (x : W32) => t = { s with th := t.th, clusters := t.clusters } ∧
      amFind (getClu t (myClu s)).sems n.toNat = some (myCtx s, x) ∧
      (∀ k m, k ≠ myClu s ∨ m ≠ n.toNat → amFind (getClu t k).sems m = amFind (getClu s k).sems m) ∧
      ∀ k, getClu t k = { getClu s k with sems := (getClu t k).sems }
    (∀ a, exec (.semw ⟨p, a, n⟩) s = .next (if (Machine.getS s a).toNat % 2 ^ 32 ≤ v.toNat then s else stalled s)) ∧
    (∀ d a, ∃ t u, exec (.seminc ⟨p, d, a, n⟩) s = .next t ∧ u.th = s.th ∧
      stored u (BitVec.ofNat 32 (min ((v.toNat : Int) + signedOf 32 (Machine.getS s a).toNat).toNat (2 ^ 32 - 1))) ∧
      WroteS u t d (BitVec.ofNat 64 v.toNat)) ∧
    (∀ a, ∃ t, exec (.semset ⟨p, a, n⟩) s = .next t ∧ t.th = s.th ∧ stored t (BitVec.ofNat 32 (Machine.getS s a).toNat))) ∧
  (∀ (s : State) (p : Pred) (n : BitVec 6), pred0 s p = true → semOf s (myClu s) n.toNat (myCtx s) = none →
    (∀ a, Traps (.semw ⟨p, a, n⟩) s (trapOf cPERM 0)) ∧ (∀ d a, Traps (.seminc ⟨p, d, a, n⟩) s (trapOf cPERM 0)) ∧
    (∀ a, Traps (.semset ⟨p, a, n⟩) s (trapOf cPERM 0))) ∧
  (∀ (o : Sem), Skips (.semw o) o.p ∧ Skips (.semset o) o.p) ∧ (∀ o : SemI, Skips (.seminc o) o.p) ∧
  (∀ (s : State) (k n ctx : Nat), (getCtx s ctx).created = true → mayAssign s (getCtx s ctx).part = true →
    inRect (getPart s (getCtx s ctx).part) k = true → n < 64 → ∃ t, exec (.semaphoreAssign k n ctx) s = .next t ∧
      t = { s with clusters := t.clusters } ∧ amFind (getClu t k).sems n = some (ctx, 0) ∧
      ∀ j m, j ≠ k ∨ m ≠ n → amFind (getClu t j).sems m = amFind (getClu s j).sems m)

/-- In every state with bit 0 of the predicate set: cset writes the shadow copy register it names and mcset registers 7 and 8. With room in the cluster's copy engine, cpygo takes the shadow registers and gath the eight words of its vector as the descriptor: one that the rules accept, whose values are aligned, whose pool rows are allowed and which has something to move, joins the engine's commands with an identifier that is the cluster's count plus 1 (the model's choice, log 15), its identifier is written into the destination, and the status register is pending; one with a reserved or inconsistent field traps ENGINE, a misaligned one MISALIGN, one outside the scratchpad BOUNDS; a full engine makes the form not ready. cpycan of a command of its context ends that command with the cancelled status and writes 1, and of anything else writes 0. When bit 0 is clear, nothing changes. (R269, R271, R272, R273, R278) -/
def Obligations.CopyFormsSetShadowsAndAcceptCommands : Prop :=
  (∀ (o : CSet) (s : State), pred0 s o.p = true → ∃ t, exec (.cset o) s = .next t ∧ t = { s with th := { s.th with shadow := t.th.shadow } } ∧
    ∀ i : Fin 9, t.th.shadow[i] = if i.val = o.num.toNat then Machine.getS s o.a else s.th.shadow[i]) ∧
  (∀ (o : SA2) (s : State), pred0 s o.p = true → ∃ t, exec (.mcset o) s = .next t ∧ t = { s with th := { s.th with shadow := t.th.shadow } } ∧
    ∀ i : Fin 9, t.th.shadow[i] = if i = 7 then BitVec.ofNat 64 ((Machine.getS s o.a).toNat % 2 ^ 24)
      else if i = 8 then BitVec.ofNat 64 ((Machine.getS s o.b).toNat % 2 ^ 12) else s.th.shadow[i]) ∧
  (∀ (s : State) (i : Instr) (p : Pred) (d a : Fin 32) (gather : Bool) (desc : Vector W64 9) (gran : Nat),
    (∃ o : SD2, i = .cpygo o ∧ p = o.p ∧ d = o.d ∧ a = o.a ∧ gather = false ∧ desc = s.th.shadow ∧ gran = fieldOf desc[5] 26 3) ∨
    (∃ o : Gath, i = .gath o ∧ vopOk s o.b = true ∧ p = o.p ∧ d = o.d ∧ a = o.a ∧ gather = true ∧ gran = o.gran.toNat ∧
      desc = #v[lane64 (peekV s o.b) 0, lane64 (peekV s o.b) 1, lane64 (peekV s o.b) 2, lane64 (peekV s o.b) 3, lane64 (peekV s o.b) 4,
        lane64 (peekV s o.b) 5, lane64 (peekV s o.b) 6, lane64 (peekV s o.b) 7, 0]) →
    pred0 s p = true →
    let held := (getClu s (myClu s)).cq
    let good := if gather then gathDescOk desc else copyDescOk desc
    let aligned := if gather then gathMisaligned desc = none else copyMisaligned desc = none
    let room := if gather then gathQD desc = true ∨ gathN desc * gathRB desc * 64 = 0 ∨
        poolOk s.core s.th.act (fieldOf desc[4] 0 20) (gathN desc * gathRB desc * 64) = true
      else (srcKind desc ≠ 1 ∨ rowsOk desc 0 s.core s.th.act = true) ∧ (dstKind desc ≠ 1 ∨ rowsOk desc 1 s.core s.th.act = true)
    (64 ≤ held.length → exec i s = .next (stalled s)) ∧
    (held.length < 64 → good = false → Traps i s (trapOf cENGINE 0)) ∧
    (held.length < 64 → good = true → gather = false → ∀ x, copyMisaligned desc = some x → Traps i s (trapOf cMISALIGN (BitVec.ofInt 64 x))) ∧
    (held.length < 64 → good = true → gather = true → ∀ x, gathMisaligned desc = some x → Traps i s (trapOf cMISALIGN x)) ∧
    (held.length < 64 → good = true → aligned → ¬ room → Traps i s (trapOf cBOUNDS 0)) ∧
    (held.length < 64 → good = true → aligned → room → (if gather then gathN desc else totalElems desc) ≠ 0 →
      let n := (getClu s (myClu s)).cqCount + 1
      ∃ c u t, exec i s = .next t ∧ c.id = n.toNat ∧ c.g = s.here ∧ c.ctx = myCtx s ∧ c.gather = gather ∧ c.desc = desc ∧ c.gran = gran ∧
        c.status = a.val ∧ c.started = false ∧
        u = { s with clusters := u.clusters } ∧ getClu u (myClu s) = { getClu s (myClu s) with cqCount := n, cq := held ++ [c] } ∧
        (∀ k, k ≠ myClu s → getClu u k = getClu s k) ∧
        ∃ v, WroteS u v d (BitVec.ofNat 64 (myClu s * 2 ^ 32 + n.toNat)) ∧
          t = (if a = 0 then v else { v with th := { v.th with busy := v.th.busy ||| (1#32 <<< a.val) } }))) ∧
  (∀ (o : SD2) (s : State), pred0 s o.p = true →
    let w := Machine.getS s o.a
    let k := fieldOf w 32 9
    (∀ c, fieldOf w 41 23 = 0 → copyOf s k (fieldOf w 0 32) = some c → c.ctx = myCtx s →
      ∃ u t, exec (.cpycan o) s = .next t ∧ u = finishCopy s k { c with cancelled := true } ∧ (∀ e ∈ (getClu u k).cq, e.id ≠ c.id) ∧
        WroteS u t o.d 1) ∧
    ((fieldOf w 41 23 ≠ 0 ∨ copyOf s k (fieldOf w 0 32) = none ∨ ∃ c, copyOf s k (fieldOf w 0 32) = some c ∧ c.ctx ≠ myCtx s) →
      ∃ t, exec (.cpycan o) s = .next t ∧ WroteS s t o.d 0)) ∧
  (∀ o : CSet, Skips (.cset o) o.p) ∧ (∀ o : SA2, Skips (.mcset o) o.p) ∧ (∀ o : SD2, Skips (.cpygo o) o.p ∧ Skips (.cpycan o) o.p) ∧
  (∀ o : Gath, Skips (.gath o) o.p)

/-- In every state: COPY_START with no groups starts the first command of highest priority among those that may start. Moving one element of a copy from memory to memory, without a reduction, with canonical memory and no U copy, makes the destination bytes at home those of the source, and one from the pool to memory those of the pool, but for bytes that a later-issued copy of the thread set has written; the bytes are then kept from its earlier-issued ones (how the engine keeps that order is the model's choice, log 74). A move whose translation fails changes no memory and reports the failing address. COPY_COMPLETE of a started command with nothing left and no fault removes it from the engine, increments its semaphore when it names one, sets its event when it names one with the next sequence number of its context, and writes the status word, with DONE, the bytes moved and that number, into its pending status register. The times by path are the model's choice (log 73). (R269, R274, R275, R285) -/
def Obligations.TheCopyEngineMovesAndCompletesCommands : Prop :=
  (∀ (s : State) (k id : Nat) (c : Copy) (ord : List Nat), copyOf s k id = some c → c.started = false → engineRuns s c.ctx = true →
    (let l := (getClu s k).cq
     (bestOf (l.filter fun e => mayStart l e && engineRuns s e.ctx)).map (·.id) = some id) → (c.gather = true ∨ dstKind c.desc ≠ 3) →
    ∃ t, exec (.copyStart k id 0 ord) s = .next t ∧ t = { s with clusters := t.clusters } ∧ copyOf t k id = some { c with started := true }) ∧
  (∀ (s u : State) (k n : Nat) (c : Copy) (x : Xl) (data : List Byte), dstKind c.desc = 0 → isMC c.desc = false → redOp c.desc = none →
    data.length = eszOf c.desc → u.NoUCopies → u.MemoryCanonical →
    (srcKind c.desc = 1 → data = poolBytesAt (getCore s (coreNo c.g)).pool (elemAt c.desc 0 1 n).toNat (eszOf c.desc) ∧
      xlateEngine (poolRead s (coreNo c.g) .X) c.ctx k .xwrite (wrapTo 64 (elemAt c.desc 1 0 n)) = .ok x u) →
    (srcKind c.desc ≠ 1 → ∃ y v, xlateEngine s c.ctx k .read (wrapTo 64 (elemAt c.desc 0 0 n)) = .ok y v ∧ srcKind c.desc = 0 ∧
      data = (homeRead v c.ctx y.slot y.pa (eszOf c.desc)).1 ∧
      xlateEngine (homeSeen (homeRead v c.ctx y.slot y.pa (eszOf c.desc)).2 .X y.pa) c.ctx k .xwrite (wrapTo 64 (elemAt c.desc 1 0 n)) = .ok x u) →
    let put := uncovered c numCores (atAddr x.pa data)
    ∃ v, moveCopy s k c n = .ok ({ c with bytes := c.bytes + eszOf c.desc }, coverEarlier k c numCores x.pa (eszOf c.desc) v) ∧ HomeOnly u v ∧
      (∀ e ∈ put, homeByte v (keyOf u x.slot) e.1 = e.2) ∧
      ∀ a, (∀ e ∈ put, e.1 ≠ a) → homeByte v (keyOf u x.slot) a = homeByte u (keyOf u x.slot) a) ∧
  (∀ (c : Copy) (place : Nat) (l : List (Nat × Byte)), c.later = [] → uncovered c place l = l) ∧
  (∀ (s : State) (k place a n : Nat) (c : Copy), let t := coverEarlier k c place a n s
    t = { s with clusters := t.clusters } ∧ (getClu t k).cq.map (·.id) = (getClu s k).cq.map (·.id) ∧
    ∀ (e : Copy) (l m : List Copy), plainCopy c = true → plainCopy e = true → e.g = c.g → (getClu s k).cq = l ++ e :: m → (∀ x ∈ l, x.id ≠ c.id) →
      e.id ≠ c.id → ∃ l' m', (getClu t k).cq = l' ++ { e with later := (place, a, n) :: e.later } :: m' ∧ l'.length = l.length) ∧
  (∀ (s : State) (k n : Nat) (c : Copy), srcKind c.desc = 0 → xlateEngine s c.ctx k .read (wrapTo 64 (elemAt c.desc 0 0 n)) = .page →
    moveCopy s k c n = .fault (BitVec.ofNat 64 (wrapTo 64 (elemAt c.desc 0 0 n))) (accWord .X false false (eszOf c.desc)) cPAGE) ∧
  (∀ (s : State) (k id : Nat) (c : Copy), copyOf s k id = some c → c.started = true → engineRuns s c.ctx = true → c.fault = none →
    (∀ e ∈ (getClu s k).cq, e.id = id → e = c) → groupStart c c.groups = cmdTotal c → c.cancelled = false → c.deny = none → semOfCopy c = none → evOfCopy c = none →
    ∃ t, exec (.copyComplete k id) s = .next t ∧ (∀ e ∈ (getClu t k).cq, e.id ≠ id) ∧ t.mem = s.mem ∧
      (∀ h : 0 < c.status ∧ c.status < 32, (threadAt t c.g).rf.s[c.status]'h.2 = BitVec.ofNat 64 (2 ^ 63 +
          bit (!c.gather && isMC c.desc) * 2 ^ 61 + c.cause % 256 * 2 ^ 53 +
          (if !c.gather && isMC c.desc then c.denied.toNat else min c.bytes (2 ^ 32 - 1))) ∧
        bitOf (threadAt t c.g).busy.toNat c.status = false)) ∧
  (∀ (s : State) (k id : Nat) (c : Copy) (n : Nat) (v : W32), copyOf s k id = some c → c.started = true → engineRuns s c.ctx = true → c.fault = none →
    (∀ e ∈ (getClu s k).cq, e.id = id → e = c) → groupStart c c.groups = cmdTotal c → c.cancelled = false → c.deny = none → c.gather = false → semOfCopy c = some n → ctlOf c.desc 15 1 = 0 →
    semOf s k n c.ctx = some v → v.toNat + 1 < 2 ^ 32 → evOfCopy c = none →
    ∃ t, exec (.copyComplete k id) s = .next t ∧ semOf t k n c.ctx = some (v + 1)) ∧
  (∀ (s : State) (k id : Nat) (c : Copy) (b : Nat), copyOf s k id = some c → c.started = true → engineRuns s c.ctx = true → c.fault = none →
    (∀ e ∈ (getClu s k).cq, e.id = id → e = c) → groupStart c c.groups = cmdTotal c → c.cancelled = false → c.deny = none → semOfCopy c = none →
    evOfCopy c = some b →
    let seq := (getCtx s c.ctx).evseq + 1
    ∃ t, exec (.copyComplete k id) s = .next t ∧ (∀ e ∈ (getClu t k).cq, e.id ≠ id) ∧ (getCtx t c.ctx).evseq = seq ∧
      (∀ i, (getCtx t c.ctx).events.getLsbD i = (decide (i = b) || (getCtx s c.ctx).events.getLsbD i)) ∧
      ∀ h : 0 < c.status ∧ c.status < 32, fieldOf ((threadAt t c.g).rf.s[c.status]'h.2) 37 16 = seq.toNat % 2 ^ 16)

/-- In every state with bit 0 of the predicate set in which the thread set has fewer than 64 unacknowledged P writes and the operands are ready and in range: rst to a cluster of the partition, with an aligned offset in the pool, and send, put one packet with the data, the offset, the class and the destination into the mesh at the thread set's own cluster, unless an earlier write to a place the instance has left holds it back, when it is not ready; a multicast rst puts one packet with a destination in each cluster of the two masks that lies in the partition, and a cluster outside it sets a clear P fault latch to PERM with its word. Reserved bits, coordinates off the mesh or an offset in a send trap ENGINE, a misaligned offset MISALIGN, one outside the pool BOUNDS, a single cluster outside the partition PERM. Registers but a popped queue, and memory, stay. When bit 0 is clear, nothing changes. (R294, R299, R300, R302, R303, R305, R336, R345) -/
def Obligations.PWritesAreCheckedAndSent : Prop :=
  (∀ (s : State) (i : Instr) (p : Pred) (src : VOp) (w : W64) (off : Int) (cls : Nat) (isSend : Bool),
    (∃ o : Rst, i = .rst o ∧ o.mc = false ∧ p = o.p ∧ src = o.d ∧ w = Machine.getS s o.a ∧ cls = o.cls.toNat ∧ isSend = false ∧
      off = (fieldOf w 0 20 : Int) + signedOf 24 o.disp.toNat) ∨
    (∃ o : Send, i = .send o ∧ p = o.p ∧ src = o.a ∧ w = Machine.getS s o.b ∧ cls = o.cls.toNat ∧ isSend = true ∧ off = (fieldOf w 0 20 : Int)) →
    pred0 s p = true →
    let aim := aimAt s cls off.toNat isSend w (pawCluster w)
    (64 ≤ unacked s s.here ∨ queuesReady s [src] none = false → exec i s = .next (stalled s)) ∧
    (unacked s s.here < 64 → queuesReady s [src] none = true → vopOk s src = false → Traps i s (trapOf cBOUNDS 0)) ∧
    (unacked s s.here < 64 → queuesReady s [src] none = true → vopOk s src = true →
      (pawReserved w = true → Traps i s (trapOf cENGINE 0)) ∧
      (pawReserved w = false → isSend = true → off ≠ 0 → Traps i s (trapOf cENGINE 0)) ∧
      (pawReserved w = false → isSend = false → off % 64 ≠ 0 → Traps i s (trapOf cMISALIGN (BitVec.ofInt 64 off))) ∧
      (pawReserved w = false → isSend = false → off % 64 = 0 → off < 0 ∨ 786432 < off + 64 → Traps i s (trapOf cBOUNDS 0)) ∧
      (pawReserved w = false → (if isSend then off = 0 else off % 64 = 0 ∧ 0 ≤ off ∧ off + 64 ≤ 786432) →
        (pawOnMesh w = false → Traps i s (trapOf cENGINE 0)) ∧
        (pawOnMesh w = true → inRect (getPart s (myPart s)) (pawCluster w) = false → Traps i s (trapOf cPERM 0)) ∧
        (pawOnMesh w = true → inRect (getPart s (myPart s)) (pawCluster w) = true →
          (heldByMove s aim = true → exec i s = .next (stalled s)) ∧
          (heldByMove s aim = false → ∃ t q, exec i s = .next t ∧ t.packets = s.packets ++ [q] ∧ t.mem = s.mem ∧ t.host = s.host ∧
            t.th = s.th ∧ q.isSend = isSend ∧ q.mc = false ∧ q.cls = cls ∧ q.off = off.toNat ∧ q.data = (readV s src).1 ∧
            q.dsts = [aim] ∧ q.g = s.here ∧ q.ctx = myCtx s ∧ q.pos = myClu s ∧ q.ended = false))))) ∧
  (∀ (o : Rst) (s : State), o.mc = true → pred0 s o.p = true → unacked s s.here < 64 → queuesReady s [o.d] none = true → vopOk s o.d = true →
    let w := Machine.getS s o.a
    let m := Machine.getS s o.c
    let off := (fieldOf w 0 20 : Int) + signedOf 24 o.disp.toNat
    let ks := multiOf (fieldOf m 0 24) (fieldOf m 24 12)
    let inside := inRect (getPart s (myPart s))
    let ds := (ks.filter inside).map (aimAt s o.cls.toNat off.toNat false w)
    pawReserved w = false → off % 64 = 0 → 0 ≤ off → off + 64 ≤ 786432 →
    (fieldOf w 32 12 ≠ 0 ∨ fieldOf m 36 28 ≠ 0 ∨ ks = [] → Traps (.rst o) s (trapOf cENGINE 0)) ∧
    (fieldOf w 32 12 = 0 → fieldOf m 36 28 = 0 → ks ≠ [] →
      ((∃ d ∈ ds, heldByMove s d = true) → exec (.rst o) s = .next (stalled s)) ∧
      ((∀ d ∈ ds, heldByMove s d = false) → ∃ t, exec (.rst o) s = .next t ∧ t.mem = s.mem ∧ t.host = s.host ∧
        (ds = [] → t.packets = s.packets) ∧
        (ds ≠ [] → ∃ q, t.packets = s.packets ++ [q] ∧ q.dsts = ds ∧ q.mc = true ∧ q.isSend = false ∧ q.off = off.toNat ∧
          q.data = (readV s o.d).1 ∧ q.cls = o.cls.toNat ∧ q.pos = myClu s ∧ q.ended = false) ∧
        t.th = { s.th with platch := match s.th.platch, ks.find? (fun k => !inside k) with
          | none, some k => some (cPERM, pawAt w k off.toNat)
          | x, _ => x }))) ∧
  (∀ o : Rst, Skips (.rst o) o.p) ∧ (∀ o : Send, Skips (.send o) o.p)

/-- In every state: ROUTER_GRANT moves the head of highest priority that goes out through a port, and every sixteenth time ROUTER_AGING_GRANT the one that waited longest, to the link's buffer of its class through that port, with the destinations that lie that way; the others stay behind; a turn of the link moves its oldest packet of the class to the neighbour, unless a held packet before it on its route stops it. A packet that the port to the cores grants next at a core that need not send it on: RST_DELIVERY stores its 64 bytes at its offset when the core is bound to its context and the offset is allowed, and otherwise refuses it with PERM or BOUNDS; SEND_DELIVERY pushes it into the queue register that its class is bound to, and refuses it with PERM or ENGINE when the core is not bound to its context or the class not bound; while that register is masked or full, or the core takes part in a chosen castle of its instance, it is not granted. P_ACKNOWLEDGE removes an ended packet and puts a refusal's cause and word into a clear P fault latch of the sender. PACKET_FORWARD sends a packet on from a core that does not host its instance. (R294, R295, R296, R301, R304, R305, R307, R331, R344) -/
def Obligations.PacketsHopAreDeliveredAndAcknowledged : Prop :=
  (∀ (s : State) (k port : Nat) (p : Packet) (n : Nat), port < 4 → neighbourOf k port = some n →
    let ds := p.dsts.filter fun d => portOf s p d == port
    let rest := p.dsts.filter fun d => portOf s p d != port
    let moved := fun (i : Instr) => ∃ t, exec i s = .next t ∧
      t.packets = (s.packets.flatMap fun x => if x.num = p.num then (if rest = [] then [] else [{ p with dsts := rest }]) else [x]) ++
        [{ p with num := if rest = [] then p.num else s.pktNum, dsts := ds, pos := linkAt k port, turn := s.pktNum + 1, route := (k, p.turn) :: p.route }] ∧
      grantsAt t k port = grantsAt s k port + 1 ∧ rrAt t k port = p.cls ∧ t.mem = s.mem ∧ t.th = s.th ∧ t.core = s.core
    (grantsAt s k port % 16 ≠ 15 → grantPick s k port = some p → moved (.routerGrant k port)) ∧
    (grantsAt s k port % 16 = 15 → agingPick s k port = some p → moved (.routerAgingGrant k port)) ∧
    ∀ cls l, bufferOf s (linkAt k port) cls = p :: l →
      (routeHeld s p = true → turnStep (.link k port cls) s = .next s) ∧
      (routeHeld s p = false → ∃ t, turnStep (.link k port cls) s = .next t ∧ t = { s with packets := t.packets, pktNum := s.pktNum + 1 } ∧
        t.packets = s.packets.map fun x => if x.num = p.num
          then { p with pos := n, turn := s.pktNum, route := (linkAt k port, p.turn) :: p.route } else x)) ∧
  (∀ (s : State) (p : Packet) (d : PDst), heldThere s p d = true → arrivedAt s p ≠ some d) ∧
  (∀ (s : State) (n : Nat) (p : Packet) (d : PDst), packetAt s n = some p → arrivedAt s p = some d → mustForward s p d = false →
    let c := getCore s d.core
    let ends := fun (t : State) (cause : Nat) => (∃ q ∈ t.packets, q.ended = true ∧ q.cause = cause ∧ q.dsts = [d] ∧ q.write = p.write ∧ q.g = p.g) ∧
      t.mem = s.mem ∧ t.th.rf = s.th.rf
    let refused := fun (i : Instr) (cause : Nat) => ∃ t, exec i s = .next t ∧ ends t cause ∧ t.core = s.core ∧ t.cores = s.cores
    (p.isSend = false → (c.ctx ≠ some p.ctx → refused (.rstDelivery n) cPERM) ∧
      (c.ctx = some p.ctx → inScratch c p.off 64 = false → refused (.rstDelivery n) cBOUNDS) ∧
      (c.ctx = some p.ctx → inScratch c p.off 64 = true →
        (∃ r ∈ c.resid, r.spans p.off = true ∧ (r.hasClass p.cls = false ∨ bindOf c p.cls = none)) → refused (.rstDelivery n) cBOUNDS) ∧
      (c.ctx = some p.ctx → inScratch c p.off 64 = true →
        (∀ r ∈ c.resid, r.spans p.off = true → r.hasClass p.cls = true ∧ bindOf c p.cls ≠ none) →
        ∃ t, exec (.rstDelivery n) s = .next t ∧ ends t 0 ∧
        (∀ a, poolByte (getCore t d.core).pool a = if p.off ≤ a ∧ a < p.off + 64 then BitVec.ofNat 8 (elem 8 p.data (a - p.off))
          else poolByte c.pool a) ∧
        ∀ e, e ≠ d.core → getCore t e = getCore s e)) ∧
    (p.isSend = true → (c.ctx ≠ some p.ctx → refused (.sendDelivery n) cPERM) ∧
      (c.ctx = some p.ctx → bindOf c p.cls = none → refused (.sendDelivery n) cENGINE) ∧
      (c.ctx = some p.ctx → ∀ q m, bindOf c p.cls = some (q, m) →
        ∃ t, exec (.sendDelivery n) s = .next t ∧ ends t 0 ∧ qOf (getCore t d.core) q = qOf c q ++ [p.data] ∧
          (∀ m, m ≠ q → qOf (getCore t d.core) m = qOf c m) ∧ ∀ e, e ≠ d.core → getCore t e = getCore s e))) ∧
  (∀ (s : State) (n : Nat) (p : Packet), packetAt s n = some p → p.ended = true → ∃ t, exec (.pAcknowledge n) s = .next t ∧
    t.packets = s.packets.filter (fun q => q.num != n) ∧ t.mem = s.mem ∧
    (p.cause = 0 → (threadAt t p.g).platch = (threadAt s p.g).platch) ∧
    (p.cause ≠ 0 → ∀ d, p.dsts.head? = some d → (threadAt t p.g).platch = match (threadAt s p.g).platch with
      | none => some (p.cause, d.word)
      | x => x)) ∧
  (∀ (s : State) (n : Nat) (p : Packet) (i : Inst) (d : PDst), packetAt s n = some p → arrivedAt s p = some d → p.dsts = [d] → d.inst = some i →
    mustForward s p d = true → ∀ e, forwardTo s p.ctx d.core i d.named = e → e ≠ d.core →
    ∃ t, exec (.packetForward n) s = .next t ∧ t.core = s.core ∧ t.cores = s.cores ∧ t.mem = s.mem ∧
      t.packets = s.packets.filter (fun q => q.num != p.num) ++ [{ p with dsts := [{ d with core := e }], turn := s.pktNum + 1, route := [] }]) ∧
  (∀ (s : State) (ctx core named : Nat) (i : Inst), let c := getCore s core
    (∀ e x, amFind c.fwd (fwdKey ctx i) = some (e, x) → x ≠ 0 → forwardTo s ctx core i named = e) ∧
    (∀ e, amFind c.fwd (fwdKey ctx i) = none → c.ctx = some ctx → amFind c.pcache (instKey i) = some e → forwardTo s ctx core i named = e))

/-- In every state with bit 0 of the predicate set: cmask and cunmask set and clear the masked bit of the queue register that the class is bound to, and trap ENGINE for a class that is not bound; qbind binds or unbinds an empty queue register, and traps ENGINE when it holds an entry or the class is bound to another; qlen writes the length with the class, bound and masked bits; qdrop empties the queue register and writes how many entries it dropped; resid describes the running activation, or writes 0; castpin reads and sets the pin of the activation's resident, and traps ENGINE outside an activation. Nothing else changes. When bit 0 is clear, nothing changes. (R332, R348, R330, R331) -/
def Obligations.QueueRegisterAndResidentFormsFollowTheBinding : Prop :=
  (∀ (o : CMask) (s : State), pred0 s o.p = true →
    (bindOf s.core o.n.toNat = none → Traps (.cmask o) s (trapOf cENGINE 0) ∧ Traps (.cunmask o) s (trapOf cENGINE 0)) ∧
    (∀ (q : Fin 8) (m : Bool), bindOf s.core o.n.toNat = some (q.val, m) →
      exec (.cmask o) s = .next { s with core := { s.core with binds := s.core.binds.set q.val { s.core.binds[q] with masked := true } q.isLt } } ∧
      exec (.cunmask o) s = .next { s with core := { s.core with binds := s.core.binds.set q.val { s.core.binds[q] with masked := false } q.isLt } })) ∧
  (∀ (o : QBind) (s : State), pred0 s o.p = true →
    let other := ∃ x m, bindOf s.core o.n.toNat = some (x, m) ∧ x ≠ o.d.val
    (qLen s.core o.d.val ≠ 0 ∨ reservedIn s o.d.val = true ∨ other → Traps (.qbind o) s (trapOf cENGINE 0)) ∧
    (qLen s.core o.d.val = 0 → reservedIn s o.d.val = false → ¬ other →
      let new : Bind := if o.un then ⟨0, false, false⟩ else ⟨o.n.toNat, true, false⟩
      exec (.qbind o) s = .next { s with core := { s.core with binds := s.core.binds.set o.d.val new o.d.isLt } })) ∧
  (∀ o : QReg, RegisterResult (.qlen o) o.p o.d fun s =>
    let b : Bind := if h : o.a.val < 8 then s.core.binds[o.a.val] else ⟨0, false, false⟩
    BitVec.ofNat 64 ((s.core.q[o.a]).length + bit (reservedIn s o.a.val) + b.cls % 16 * 2 ^ 8 + bit b.bound * 2 ^ 12 + bit b.masked * 2 ^ 13)) ∧
  (∀ (o : QReg) (s : State), pred0 s o.p = true → ∃ t,
    exec (.qdrop o) s = .next t ∧ WroteS { s with core := { s.core with q := s.core.q.set o.a.val [] o.a.isLt } } t o.d (BitVec.ofNat 64 (s.core.q[o.a]).length)) ∧
  (∀ o : SD1, RegisterResult (.resid o) o.p o.d fun s => match s.th.act with
    | some a => BitVec.ofNat 64 (2 ^ 63 + a.cls % 16 * 2 ^ 16 + a.resNo % 4 * 2 ^ 12 + s.here / 4)
    | none => 0) ∧
  (∀ (o : CastPin) (s : State), pred0 s o.p = true → (s.th.act = none → Traps (.castpin o) s (trapOf cENGINE 0)) ∧
    (∀ a, s.th.act = some a →
      let mine := fun (r : Resident) => r.lid == a.lid && r.inst == a.inst
      let old := s.core.resid.any fun r => mine r && r.pin
      let new := if o.mode = 0 then false else if o.mode = 1 then true else old
      ∃ t, exec (.castpin o) s = .next t ∧
        WroteS { s with core := { s.core with resid := s.core.resid.map fun r => if mine r then { r with pin := new } else r } } t o.d
          (BitVec.ofNat 64 (bit old)))) ∧
  (∀ o : CMask, Skips (.cmask o) o.p ∧ Skips (.cunmask o) o.p) ∧ (∀ o : QBind, Skips (.qbind o) o.p) ∧ (∀ o : QReg, Skips (.qdrop o) o.p) ∧
  (∀ o : CastPin, Skips (.castpin o) o.p)

/-- In every state with bit 0 of the predicate set: end and, in an activation, defer are not ready until every access and command of the thread set is performed and no status register is pending. Then a waiting P trap, or a matrix fault latch (CIMPAR at the macro), is taken and its latch clears. It is a release first: the cluster's U copies merge (how a release reaches later acquires is the model's mechanism, log 73). Otherwise: a hit task frees its hit-buffer entry; a task with a join block subtracts one from its count at home, after every release so far, and completes it when the count goes from 1 to 0; a unit task without one reports its unit as completed with its frame; then the thread set is idle with no work, no granules, and HA clear. defer puts the current message back at the head of its queue register and masks its class; outside an activation it traps ENGINE. yield waits for the other thread sets of the core that may issue and advances the program timestamp by one; halt enters debug halt at the instruction that follows: at once where the accesses that it waits for are performed and its core is in no chosen castle, and else the thread set issues nothing until that is so. When bit 0 is clear, nothing changes. (R31, R115, R116, R133, R172, R292, R305, R311, R332, R346) -/
def Obligations.EndWaitsAndLetsTheWorkGo : Prop :=
  (∀ (o : Bare) (s : State) (i : Instr), i = .end_ o ∨ (i = .defer_ o ∧ s.th.act ≠ none) → pred0 s o.p = true →
    (allDone s = false ∨ s.th.busy ≠ 0 → exec i s = .next (stalled s)) ∧
    (allDone s = true → s.th.busy = 0 →
      let u := release s
      (∀ c w, s.th.platch = some (c, w) → exec i s = .next (takeTrap { u with th := { u.th with platch := none } } (trapOf c w))) ∧
      (∀ m, s.th.platch = none → s.th.mlatch = some m →
        exec i s = .next (takeTrap { u with th := { u.th with mlatch := none } } (trapOf cCIMPAR (BitVec.ofNat 64 m)))))) ∧
  (∀ (o : Bare) (s : State), pred0 s o.p = true → allDone s = true → s.th.busy = 0 → s.th.platch = none → s.th.mlatch = none →
    let u := release s
    let gone := fun (w t : State) => t = { w with th := t.th } ∧ t.th.st = .idle ∧ t.th.act = none ∧ t.th.task = 0 ∧ t.th.hit = none ∧
      haBit t.th.rf = false ∧ t.th.rf.s = w.th.rf.s ∧ t.th.rf.v = w.th.rf.v ∧ t.th.pts = w.th.pts
    (∀ h, s.th.hit = some h → ∃ t, exec (.end_ o) s = .next t ∧ gone (freeHit u h) t) ∧
    (s.th.hit = none → s.th.st = .task → recJoin s.th.task ≠ 0 → (recJoin s.th.task).toNat % 64 = 0 →
      inPoolWindow (recJoin s.th.task).toNat = false → ∀ x v, xlateCore u .write false (recJoin s.th.task).toNat = .ok x v →
      ∃ t, exec (.end_ o) s = .next t ∧ gone (joinDecrement v (myCtx u) (myClu u) x u.th.rf.frame) t) ∧
    (s.th.hit = none → s.th.st = .task → recJoin s.th.task = 0 → recLU s.th.task = true →
      ∃ t, exec (.end_ o) s = .next t ∧ gone (deliver u (myCtx u) (recLid s.th.task) (recUnit s.th.task) 0 u.th.rf.frame) t) ∧
    (s.th.hit = none → s.th.st = .activation ∨ (recJoin s.th.task = 0 ∧ recLU s.th.task = false) → ∃ t, exec (.end_ o) s = .next t ∧ gone u t) ∧
    (∀ a, s.th.act = some a → actQueue s.core a = none → ∃ t, exec (.defer_ o) s = .next t ∧ gone u t) ∧
    (∀ a (q : Fin 8), s.th.act = some a → actQueue s.core a = some q.val → ∃ w t, exec (.defer_ o) s = .next t ∧ gone w t ∧
      w = { u with core := { u.core with q := w.core.q, binds := u.core.binds.set q.val { u.core.binds[q] with masked := true } q.isLt } } ∧
      (∀ m : Fin 16, w.core.q[m] = if m.val = q.val then a.cur.toList ++ u.core.q[m] else u.core.q[m]))) ∧
  (∀ (s : State) (ctx k : Nat) (x : Xl) (pay : W64),
    let r := homeRead s ctx x.slot x.pa 8
    let bytes := atAddr x.pa (toBytes 8 (BitVec.ofNat 64 (ofBytes r.1) - 1).toNat)
    let w := homeWrite r.2 ctx x.slot .C (max s.th.pts s.released) bytes
    let u := ackNow x.slot w.1 bytes w.2
    let b := homeRead u ctx x.slot x.pa 64
    joinDecrement s ctx k x pay = if ofBytes r.1 = 1 then joinComplete b.2 ctx k (ofBytes b.1) pay else u) ∧
  (∀ (o : Bare) (s : State), pred0 s o.p = true → s.th.act = none → Traps (.defer_ o) s (trapOf cENGINE 0)) ∧
  (∀ (o : Bare) (s : State), pred0 s o.p = true → ∃ l, exec (.yield_ o) s = .next { s with th := { s.th with pts := s.th.pts + 1, yields := l } } ∧
    ∀ g, g ∈ l ↔ g / 4 = s.here / 4 ∧ g ≠ s.here ∧ mayIssue (threadAt s g) = true) ∧
  (∀ (o : Bare) (s : State), pred0 s o.p = true → ∃ t, exec (.halt o) s = .next t ∧ t.th.pc = (restartOf s.th true).1 ∧
    t.th.solo = (restartOf s.th true).2.1 ∧ t.th.ptgt = (restartOf s.th true).2.2 ∧ (haltReady s = true → t.th.st = .halted) ∧
    (haltReady s = false → t.th.st = s.th.st ∧ t.th.halting = true)) ∧
  (∀ o : Bare, Skips (.end_ o) o.p ∧ Skips (.defer_ o) o.p ∧ Skips (.yield_ o) o.p ∧ Skips (.halt o) o.p)

/-- In every state with bit 0 of the predicate set in which the operand is readable and the record has no reserved or forbidden bit: spawn, once every earlier access of the thread set is performed, pushes the record with the launch of its work and no unit mark into its target cluster, and raises QFULL with the overflow entry when there is no room; spawnt does the same and writes all ones into its predicate, or zero when there is no room. A forbidden bit traps ENGINE, a named cluster outside the partition PERM. With a ring set held, room in the ring and no overflow table, the record is appended to the ring of its priority with the cluster's next push number. join and ejoin at an address that is no multiple of 64 trap MISALIGN, and in the pool window PERM; where the translation permits the write, each issues one C access, the newest of the thread set: join an addition of its operand to the count of the block whose old value it writes, ejoin a store of its event word at byte 8. Home performs a join's addition like an atomic, and one that takes the count from 1 or more to 0 or less completes the block as its words say. When bit 0 is clear, nothing changes. (R309, R311, R314, R318, R328, R382) -/
def Obligations.SpawnsPushTheirRecordAndJoinsCount : Prop :=
  (∀ (s : State) (i : Instr) (p : Pred) (a : VOp), (i = .spawn ⟨p, a⟩ ∨ ∃ d, i = .spawnt ⟨p, d, a⟩) → pred0 s p = true →
    queuesReady s [a] none = true → vopOk s a = true →
    let r : Rec := BitVec.ofNat 256 (peekV s a).toNat
    let fine := recField r 241 7 = 0 ∧ recField r 228 1 = 0 ∧ recAmode r ≠ 3 ∧ recHit r = false ∧ recLU r = false
    let placed := recAmode r ≠ 1 ∨ inRect (getPart s (myPart s)) (recAidx r) = true
    let u := release s
    let rec_ := recFor r (myLid s)
    let k := pushTarget u (myCtx s) (myClu s) rec_
    (¬ fine → Traps i s (trapOf cENGINE 0)) ∧ (fine → ¬ placed → Traps i s (trapOf cPERM 0)) ∧
    (fine → placed → allDone s = false → exec i s = .next (stalled s)) ∧
    (fine → placed → allDone s = true →
      (∀ t, pushRec u k (myCtx s) rec_ = some t → (i = .spawn ⟨p, a⟩ → exec i s = .next t) ∧
        ∀ d, i = .spawnt ⟨p, d, a⟩ → ∃ v, exec i s = .next v ∧ WroteP t v d 0xFFFF) ∧
      (pushRec u k (myCtx s) rec_ = none → (i = .spawn ⟨p, a⟩ → exec i s = .next (takeQfull s (ovfEntry u (myCtx u) k (recPrio rec_)))) ∧
        ∀ d, i = .spawnt ⟨p, d, a⟩ → ∃ v, exec i s = .next v ∧ WroteP u v d 0))) ∧
  (∀ (s : State) (k ctx : Nat) (r : Rec) (x : RingSet), ringSetOf s k ctx = some x → (getCtx s ctx).ovft = 0 → recPrio r < 8 →
    ((ringOf x (recPrio r)).length < 256 → ∃ t y, pushRec s k ctx r = some t ∧ t = { s with clusters := t.clusters } ∧
      ringSetOf t k ctx = some y ∧ (getClu t k).pushNo = (getClu s k).pushNo + 1 ∧
      (∀ p < 8, ringOf y p = if p = recPrio r then ringOf x p ++ [((getClu s k).pushNo, r)] else ringOf x p)) ∧
    (256 ≤ (ringOf x (recPrio r)).length → pushRec s k ctx r = none)) ∧
  (∀ (s : State) (i : Instr) (p : Pred) (ea : W64), (∃ o : S3, i = .join o ∧ p = o.p ∧ ea = Machine.getS s o.a) ∨
      (∃ o : EJoin, i = .ejoin o ∧ p = o.p ∧ ea = Machine.getS s o.a) → pred0 s p = true →
    (ea.toNat % 64 ≠ 0 → Traps i s (trapAcc cMISALIGN ea (accWord .C true false 8))) ∧
    (ea.toNat % 64 = 0 → inPoolWindow ea.toNat = true → Traps i s (trapAcc cPERM ea (accWord .C true false 8))) ∧
    (ea.toNat % 64 = 0 → inPoolWindow ea.toNat = false →
      (xlateCore s .write false ea.toNat = .page → exec i s = .next (takePage s (trapAcc cPAGE ea (accWord .C true false 8)))) ∧
      (xlateCore s .write false ea.toNat = .perm → Traps i s (trapAcc cPERM ea (accWord .C true false 8))) ∧
      ∀ x u, xlateCore s .write false ea.toNat = .ok x u → XlateOnly s u ∧
        ∃ t q, exec i s = .next t ∧ IssuedC u t q ∧ q.pool = false ∧ q.stale = false ∧ q.performed = false ∧ q.behind = none ∧ q.acq = 0 ∧
          q.slot = x.slot ∧
          (∀ o, i = .join o → q.kind = .join (Machine.getS s o.b) s.th.rf.frame ∧ q.pa = x.pa ∧ q.dst = o.d.val) ∧
          ∀ o, i = .ejoin o → q.kind = .store ∧ q.pa = x.pa + 8 ∧ q.bytes = atAddr (x.pa + 8) (toBytes 8 (o.n.toNat + 256)))) ∧
  (∀ (s : State) (g : Nat) (r : CReq) (l : List CReq) (b pay : W64), (threadAt s g).creqs = r :: l → r.kind = .join b pay → r.pool = false →
    r.stale = false → r.performed = false → r.behind = none →
    let ctx := (getCore s (coreNo g)).ctx.getD 0
    let h := homeRead s ctx r.slot r.pa 8
    let old := signedOf 64 (ofBytes h.1)
    let sum := wrapTo 64 (old + signedOf 64 b.toNat)
    let bytes := atAddr r.pa (toBytes 8 sum)
    let w := homeWrite h.2 ctx r.slot .C (threadAt s g).pts bytes
    let q := { r with performed := true, wts := w.1, after := (sectorsOf bytes).map fun sec => (sec, sectorAs w.2 (keyOf w.2 r.slot) sec),
                      reply := BitVec.ofNat 128 (ofBytes h.1), flags := 0 }
    let t := setThread w.2 g { threadAt w.2 g with creqs := q :: l }
    let u := homeRead t ctx r.slot r.pa 64
    exec (.homeStore g) s = .next (if 1 ≤ old ∧ signedOf 64 sum ≤ 0 then joinComplete u.2 ctx (cluOf (coreNo g)) (ofBytes u.1) pay else t)) ∧
  (∀ (slot wts : Nat) (l : List (Nat × Byte)) (s : State), let t := ackNow slot wts l s
    t = { s with th := { s.th with pts := t.th.pts }, core := { s.core with l1 := t.core.l1 } } ∧ t.th.pts = max s.th.pts wts) ∧
  (∀ o : Spawn, Skips (.spawn o) o.p) ∧ (∀ o : SpawnT, Skips (.spawnt o) o.p) ∧ (∀ o : S3, Skips (.join o) o.p) ∧ (∀ o : EJoin, Skips (.ejoin o) o.p)

/-- In every state with bit 0 of the predicate set: eset, once every earlier access is performed, sets or clears one event bit of the context and takes the next sequence number; ewait waits for the bit, clears it when asked, and is an acquire (its mechanism is the model's, log 73). launch waits for a free entry and for the accesses, reads its 256-byte block at issue (the model's choice, log 71), advances the entry's generation by 1 (the model's choice, log 28), and writes the identifier of the new launch, or the failure with its cause; a misaligned block traps MISALIGN. cancel of a level that names nothing live writes NONE; of a launch that is not admitted it counts its units as cancelled and completes it. ctrd writes the counter or the state of the level that its source names, and 0 when it names none. When bit 0 is clear, nothing changes. (R36, R321, R324, R325, R326, R327, R328) -/
def Obligations.EventAndLaunchFormsReportAndCancel : Prop :=
  (∀ (o : Ev) (s : State), pred0 s o.p = true →
    (allDone s = false → exec (.eset o) s = .next (stalled s)) ∧
    (allDone s = true → ∃ t, exec (.eset o) s = .next t ∧ t = { release s with ctxs := t.ctxs } ∧
      ∀ c, let old := getCtx s c
        let new := if o.clr then old.events &&& ~~~(1#256 <<< o.n.toNat) else old.events ||| (1#256 <<< o.n.toNat)
        getCtx t c = if c = myCtx s then { old with evseq := old.evseq + 1, events := new } else old) ∧
    (bitOf (getCtx s (myCtx s)).events.toNat o.n.toNat = false → exec (.ewait o) s = .next (stalled s)) ∧
    (bitOf (getCtx s (myCtx s)).events.toNat o.n.toNat = true → ∃ u, u = { s with ctxs := u.ctxs } ∧
      (∀ c, getCtx u c = if c = myCtx s ∧ o.clr = true then { getCtx s c with events := (getCtx s c).events &&& ~~~(1#256 <<< o.n.toNat) } else getCtx s c) ∧
      exec (.ewait o) s = .next (acquire u))) ∧
  (∀ s : State, let t := acquire s
    t.th = { s.th with pts := max s.th.pts s.released } ∧ t = { s with th := t.th, fenced := t.fenced, core := { s.core with l1 := t.core.l1 } } ∧
    (∀ i : Fin 9, t.fenced[i] = if 2 ≤ i.val then max s.fenced[i] s.released else s.fenced[i]) ∧
    t.core.l1.map (·.1) = s.core.l1.map (·.1) ∧ ∀ e ∈ t.core.l1, e.2.leased = true) ∧
  (∀ s : State, (release s).th = s.th ∧ (release s).core = s.core ∧ s.th.pts ≤ (release s).released ∧ s.released ≤ (release s).released) ∧
  (∀ (o : SD2) (s : State), pred0 s o.p = true →
    let ea := Machine.getS s o.a
    (freeLid s (myCtx s) = none → exec (.launch o) s = .next (stalled s)) ∧
    (∀ lid, freeLid s (myCtx s) = some lid → (ea.toNat % 64 ≠ 0 → Traps (.launch o) s (trapAcc cMISALIGN ea (accWord .C false false 256))) ∧
      (ea.toNat % 64 = 0 → s.th.creqs ≠ [] → exec (.launch o) s = .next (stalled s)) ∧
      (ea.toNat % 64 = 0 → s.th.creqs = [] → ∀ x, loadBlock ea s = .error x → exec (.launch o) s = .next (onStop s x)) ∧
      (ea.toNat % 64 = 0 → s.th.creqs = [] → ∀ b u, loadBlock ea s = .ok (b, u) → allDone s = false → exec (.launch o) s = .next (stalled s)) ∧
      (ea.toNat % 64 = 0 → ∀ b u, loadBlock ea s = .ok (b, u) → allDone s = true →
        let r := issueLaunch (release u) (myCtx s) (myClu s) lid (BitVec.ofNat 2048 b) ea (myJob s)
        ∃ t, exec (.launch o) s = .next t ∧ WroteS r.2 t o.d r.1))) ∧
  (∀ (s : State) (ctx k lid : Nat) (blk : BitVec 2048) (addr : W64) (job : Nat),
    let gen := ((getLaunch s ctx lid).gen + 1) % 2 ^ 32
    let l : Launch := { Launch.init with gen := gen, block := blk, addr := addr, job := job }
    let c := checkLaunch s ctx k l
    let r := issueLaunch s ctx k lid blk addr job
    (c.1 ≠ 0 → r.1 = BitVec.ofNat 64 (2 ^ 63 + c.1) ∧ (getLaunch r.2 ctx lid).live = false ∧ (getLaunch r.2 ctx lid).cause = c.1) ∧
    (c.1 = 0 → aboveCancelled (openLevels (onLaunch c.2.2 ctx lid fun _ => { c.2.1 with live := true, residReleased := c.2.1.rtab.isEmpty }) ctx lid l) ctx l
        = false → r.1 = BitVec.ofNat 64 (gen * 2 ^ 16 + lid) ∧
      getLaunch r.2 ctx lid = { c.2.1 with live := true, residReleased := c.2.1.rtab.isEmpty })) ∧
  (∀ (o : Cancel) (s : State), pred0 s o.p = true →
    let w := Machine.getS s o.a
    (identOk w = false ∨ (fieldOf w 56 2 = 0 ∧ ∀ e ∈ (getCtx s (myCtx s)).launches, e.2.live = true → beneath w e.1 e.2 = false) →
      ∃ t, exec (.cancel o) s = .next t ∧ WroteS s t o.d 0xC000000000000000) ∧
    (identOk w = true → fieldOf w 56 2 = 3 → fieldOf w 0 16 ≠ myJob s → Traps (.cancel o) s (trapOf cPERM 0)) ∧
    (identOk w = true → fieldOf w 56 2 = 0 → o.d = 0 → ∀ lid l, (getCtx s (myCtx s)).launches = [(lid, l)] → l.live = true → l.admitted = false →
      l.head = 0 → l.recs = [] → beneath w lid l = true → ∃ t, exec (.cancel o) s = .next t ∧ (getLaunch t (myCtx s) lid).complete = true ∧
        (getLaunch t (myCtx s) lid).live = false ∧ (getLaunch t (myCtx s) lid).cancelled = l.cancelled + lpbUnits l)) ∧
  (∀ o : Ctrd, RegisterResult (.ctrd o) o.p o.d fun s =>
    let w := Machine.getS s o.a
    let n := fieldOf w 56 2
    let l := getLaunch s (myCtx s) (fieldOf w 0 16)
    let known := fieldOf w 0 16 ≠ 0 ∧ fieldOf w 0 16 ≤ 255 ∧ l.gen = fieldOf w 16 32 ∧ l.gen ≠ 0
    if identOk w = false then 0
    else if n = 0 then (if known then (match o.k.toNat with
        | 0 => BitVec.ofNat 64 l.completed
        | 1 => BitVec.ofNat 64 l.cancelled
        | 2 => BitVec.ofNat 64 l.stopped
        | _ => BitVec.ofNat 64 (bit l.live + 4 * bit l.complete + 8 * bit l.cancelling + 2 ^ 8 * (if l.cause = 0 then l.rcause else l.cause) +
            2 ^ 32 * bit (l.live && l.admitted))) else 0)
    else match (if fieldOf w 16 32 = 0 then amFind (getCtx s (myCtx s)).levels (n * 2 ^ 16 + fieldOf w 0 16) else none) with
      | none => 0
      | some v => match o.k.toNat with
        | 0 => BitVec.ofNat 64 v.completed
        | 1 => BitVec.ofNat 64 v.cancelledUnits
        | 2 => BitVec.ofNat 64 v.stopped
        | _ => BitVec.ofNat 64 (bit v.live + 2 * bit v.closed + 4 * bit v.complete + 8 * bit v.cancelled + 2 ^ 32 * v.admitted)) ∧
  (∀ o : Ev, Skips (.eset o) o.p ∧ Skips (.ewait o) o.p) ∧ (∀ o : SD2, Skips (.launch o) o.p) ∧ (∀ o : Cancel, Skips (.cancel o) o.p)

/-- The record that a pop takes is the head of the highest non-empty ring, or for an aging pop the head with the lowest push number, and it leaves its ring, which then has room for the oldest record of its chain. In every state: TASK_POP, and AGING_POP when every sixteenth pop is due, by the lowest-numbered thread set of its cluster that is idle on a core that takes work and has no activation to start, starts the popped record; ACTIVATION_START, by the lowest-numbered idle thread set of its core, starts the handler of the waiting class of the next resident. Work starts with scalar, vector and predicate registers zero, its unit, frame and launch block, the per-launch registers of its launch on the first start, an empty scoreboard and no latch, and a program timestamp at or after every release (log 73; that the first start after another launch's task loads the registers again is the model's choice, log 72); where the code pointer passes its check the thread set stands there, and otherwise it takes that check's trap, from what the reads of the line leave. (R28, R30, R43, R46, R123, R315, R316, R331) -/
def Obligations.WorkStartsFromPopsAndMessages : Prop :=
  (∀ (s : State) (k ctx : Nat) (aging : Bool) (x : RingSet) (p : Nat) (e : Nat × Rec) (l : List (Nat × Rec)), ringSetOf s k ctx = some x →
    p < 8 → ringOf x p = e :: l → (aging = false → ∀ q < 8, p < q → ringOf x q = []) →
    (aging = true → ∀ q < 8, q ≠ p → ∀ y ∈ (ringOf x q).head?, e.1 < y.1) →
    ∃ t y, popRec s k ctx aging = some (e.2, (refillOne t k ctx p).getD t) ∧ t = { s with clusters := t.clusters } ∧ ringSetOf t k ctx = some y ∧
      (getClu t k).popCount = (getClu s k).popCount + 1 ∧ ∀ q < 8, ringOf y q = if q = p then l else ringOf x q) ∧
  (∀ (s : State) (aging : Bool) (ctx : Nat) (r : Rec) (u : State), takesWork s (coreNo s.here) = some ctx → idleSet s s.here = true →
    nextActivation s (coreNo s.here) = none → (∀ g, g / 32 = s.here / 32 → g < s.here → mayPop s ctx g = false) → agingDue s (cluOf (coreNo s.here)) = aging → popRec s (cluOf (coreNo s.here)) ctx aging = some (r, u) →
    recHit r = false →
    exec (if aging then .agingPop s.here else .taskPop s.here) s =
      .next (startAt (startState u .task r none (recCode r) (recFrame r) (recUnit r) (recLid r) none) (recCode r))) ∧
  (∀ (s : State) (r : Resident) (cls : Nat), idleSet s s.here = true → takesWork s (coreNo s.here) ≠ none →
    (∀ g, g / 4 = s.here / 4 → g < s.here → idleSet s g = false) → nextActivation s (coreNo s.here) = some (r, cls) →
    let code := classHandler (classOf s (myCtx s) cls)
    exec (.activationStart s.here) s = .next (startAt (startState s .activation 0
      (some { inst := r.inst, resNo := r.resNo, lid := r.lid, cls := cls, cur := none }) code 0 r.inst r.lid none) code)) ∧
  (∀ (s : State) (st : TsState) (task : Rec) (act : Option Act) (code frame : W64) (unit lid : Nat) (hit : Option (Nat × Nat)),
    let w := startState s st task act code frame unit lid hit
    let l := getLaunch s (myCtx s) lid
    let first := lid ≠ 0 ∧ s.th.lcur ≠ some (lid, l.gen)
    w.th.rf.s = Vector.replicate 32 0 ∧ w.th.rf.v = Vector.replicate 32 0 ∧ w.th.rf.p = Vector.replicate 8 0 ∧ w.th.rf.x = Vector.replicate 8 0 ∧
    w.th.rf.unit = BitVec.ofNat 64 unit ∧ w.th.rf.frame = frame ∧ w.th.rf.lpb = (if lid = 0 then 0 else l.addr) ∧ w.th.rf.flags = 0 ∧
    w.th.rf.faultinfo = 0 ∧ w.th.rf.faultaddr = 0 ∧ w.th.pc = code ∧ w.th.st = st ∧ w.th.task = task ∧ w.th.act = act ∧ w.th.hit = hit ∧
    w.th.busy = 0 ∧ w.th.mlatch = none ∧ w.th.platch = none ∧ w.th.pts = max s.th.pts s.released ∧
    (first → w.th.rf.trapvec = BitVec.ofNat 64 (lpbF l 72 8) ∧ w.th.rf.upvec = BitVec.ofNat 64 (lpbF l 80 8) ∧
      w.th.rf.ffbase = BitVec.ofNat 64 (lpbF l 88 4) ∧ w.th.rf.rngkey = BitVec.ofNat 64 (lpbF l 64 8)) ∧
    (¬ first → w.th.rf.trapvec = s.th.rf.trapvec ∧ w.th.rf.upvec = s.th.rf.upvec ∧ w.th.rf.ffbase = s.th.rf.ffbase ∧ w.th.rf.rngkey = s.th.rf.rngkey) ∧
    (∀ u, checkTarget w code = .ok u → startAt w code = u ∧ AccessOnly w u) ∧
    (∀ u, checkTarget w code = .bad u → AccessOnly w u ∧ startAt w code = takeTrap u (trapOf cBADTARGET code)) ∧
    (∀ u, checkTarget w code = .linepar u → AccessOnly w u ∧ startAt w code = takeTrap u (trapOf cLINEPAR code)))

/-- In every state: OVERFLOW_REFILL moves the oldest record of a chain to the tail of a ring with room, with the push number that it took at its push. CONTINUATION_PUSH pushes a waiting continuation that finds room, removes it from the context's list and raises its event. STEAL and STEAL_RETRY, in a cluster with an idle thread set and empty rings, take the oldest half, at most 64, of the stealable records of the first neighbour in rotation that holds two or more, into the cluster's rings by priority, and the rotation goes on after that neighbour; the rings that they leave then take records of their chains. (R311, R314, R315, R317) -/
def Obligations.RingsRefillContinueAndAreStolenFrom : Prop :=
  (∀ (s : State) (k ctx p : Nat) (x : RingSet) (a : Nat) (r : Nat × State), p < 8 → ringSetOf s k ctx = some x → (ringOf x p).length < 256 →
    (chainOf s ctx k p).find? (fun a => segCnt s ctx k a != 0) = some a → ctxRead s ctx k (a + 64 + 32 * segHead s ctx k a) 32 = .ok r →
    ∃ t y n, exec (.overflowRefill k ctx p) s = .next t ∧ n = (ovfOf x p).headD (getClu s k).pushNo ∧ ringSetOf t k ctx = some y ∧ ringOf y p = ringOf x p ++ [(n, BitVec.ofNat 256 r.1)] ∧
      ∀ q < 8, q ≠ p → ringOf y q = ringOf x q) ∧
  (∀ (s u : State) (ctx : Nat) (c : ContPush) (l : List ContPush), (getCtx s ctx).conts = c :: l →
    pushRec s (pushTarget s ctx c.cluster c.record) ctx c.record = some u → ∃ t, exec (.continuationPush ctx) s = .next t ∧
      t.clusters = u.clusters ∧ t.mem = u.mem ∧ t.th = u.th ∧ (getCtx t ctx).conts = (getCtx u ctx).conts.eraseIdx 0 ∧
      (∀ b, c.event = some b → (getCtx t ctx).events = (getCtx u ctx).events ||| (1#256 <<< b)) ∧
      (c.event = none → (getCtx t ctx).events = (getCtx u ctx).events)) ∧
  (∀ (s : State) (k ctx d n : Nat) (x y : RingSet) (i : Instr), i = .steal k ctx ∨ i = .stealRetry k ctx → ringSetOf s k ctx = some x →
    (∃ c < 8, ∃ t < 4, takesWork s (8 * k + c) = some ctx ∧ idleSet s (32 * k + 4 * c + t) = true) →
    (∀ p < 8, ringOf x p = [] ∧ chainHolds s ctx k p = false) → stealFrom s k ctx = some (d, n) → n ≠ k → ringSetOf s n ctx = some y →
    let got := (stealable y).take (min 64 ((stealable y).length / 2))
    ∃ t x', exec i s = .next t ∧ ((getCtx s ctx).ovft = 0 → t = { s with clusters := t.clusters }) ∧ ringSetOf t k ctx = some x' ∧
      (getClu t k).stealPos = (d + 1) % 4 ∧
      (∀ p < 8, (ringOf x' p).map (·.2) = (got.filter fun e => recPrio e.2 == p).map (·.2)) ∧
      (ringSetOf t n ctx = none → ∀ p < 8, ∀ e ∈ ringOf y p, e.1 ∈ got.map (·.1)) ∧
      ∀ y', ringSetOf t n ctx = some y' → ∀ p < 8, ∃ more, ringOf y' p = ((ringOf y p).filter fun e => !(got.map (·.1)).contains e.1) ++ more ∧
        ((getCtx s ctx).ovft = 0 → more = []))

/-- In every state: LAUNCH_ADMISSION of a live launch whose wait mask is set marks it admitted, clears the waited bits when asked and counts it in its levels, opening anew those that are not live (when a level opens, and that a context has its own, is the model's choice, log 29). CORE_BIND of a free core that an admitted launch names binds it: context, partition word and allocation of the launch, pool and queue registers empty, thread sets idle with zero registers and the program timestamps that time has given, a ring set held in its cluster. CORE_RELEASE of an idle core that nothing needs unbinds it (its conditions are the model's choice, log 30). UNIT_DISPATCH of the next unit in the window, with a bound core in its cluster and room, pushes its record and advances; RESIDENT_RELEASE of a complete launch whose instances are idle removes its residents. In every state the window of a launch reports its head unit exactly when a record for it has arrived or a tail status covers it: the head then advances by one, the launch's counter of that status grows by one, and the record leaves the window. However many reports it makes, the head stands still or advances, and every unit that it passed had a record or was covered by the tail status. (R33, R34, R35, R312, R313, R322, R325, R326, R330, R335) -/
def Obligations.LaunchesAreAdmittedBoundDispatchedAndReportedInOrder : Prop :=
  (
  (∀ (s : State) (ctx lid : Nat), let l := getLaunch s ctx lid
    let wait : BitVec 256 := BitVec.ofNat 256 (lpbF l 96 32)
    l.live = true → l.admitted = false → (getCtx s ctx).draining = false → (getCtx s ctx).events &&& wait = wait → lpbUnits l ≠ 0 →
    ∃ t, exec (.launchAdmission ctx lid) s = .next t ∧ (getLaunch t ctx lid).admitted = true ∧ (getLaunch t ctx lid).live = true ∧
      (getLaunch t ctx lid).head = l.head ∧ (getLaunch t ctx lid).next = l.next ∧ t.mem = s.mem ∧
      (∀ k ∈ levelKeys l, (getLevel t ctx k).live = true ∧
        (getLevel t ctx k).admitted = (if (getLevel s ctx k).live then (getLevel s ctx k).admitted else 0) + 1) ∧
      (getCtx t ctx).events = (if lpbCtl l 3 1 = 1 then (getCtx s ctx).events &&& ~~~wait else (getCtx s ctx).events)) ∧
  (∀ (s : State) (core ctx lid : Nat), let l := getLaunch s ctx lid
    l.live = true → l.admitted = true → core ∈ namedCores l → bindable s ctx l core = true → (getCtx s ctx).draining = false →
    ∃ t, exec (.coreBind core ctx lid) s = .next t ∧ (getCore t core).ctx = some ctx ∧ (getCore t core).pword = lpbPool l ∧
      (getCore t core).alloc = lpbAlloc l ∧ (getCore t core).pool = [] ∧ (getCore t core).l1 = [] ∧ (getCore t core).q = Vector.replicate 16 [] ∧
      holdsRings t (cluOf core) ctx = true ∧ t.mem = s.mem ∧
      ∀ i < 4, threadAt t (4 * core + i) = { Thread.init with pts := max (threadAt s (4 * core + i)).pts s.basePts, csel := ctx }) ∧
  (∀ (s : State) (core ctx : Nat), (getCore s core).ctx = some ctx → (∀ i < 4, idleSet s (4 * core + i) = true) → (getCore s core).resid = [] →
    (∀ e ∈ (getCtx s ctx).launches, e.2.live = true → e.2.admitted = true → core ∈ namedCores e.2 → boundFor s ctx e.2 core = false) →
    (getCore s core).held = false → castling s core = false → (getCore s core).mq = [] →
    (holdsRecords s (cluOf core) ctx = false ∨ ∃ i < 8, 8 * cluOf core + i ≠ core ∧ (getCore s (8 * cluOf core + i)).ctx = some ctx) →
    ∃ t, exec (.coreRelease core) s = .next t ∧ (getCore t core).ctx = none ∧ (getCore t core).pword = 0 ∧
      (getCore t core).l1 = [] ∧ (getCore t core).binds = Vector.replicate 8 ⟨0, false, false⟩ ∧ t.mem = s.mem) ∧
  (∀ (s u v : State) (ctx lid : Nat), let l := getLaunch s ctx lid
    let k := (lpbClusters l).getD (l.next % max 1 (lpbClusters l).length) 0
    l.live = true → l.admitted = true → l.tail = none → (getCtx s ctx).draining = false → l.next < lpbUnits l → l.next < l.head + 256 →
    (∃ c ∈ lpbCores l, cluOf c = k ∧ boundFor s ctx l c = true) → readyJoin s ctx k lid l.next l = .ok u →
    pushRec u k ctx (unitRec l lid l.next) = some v →
    ∃ t, exec (.unitDispatch ctx lid) s = .next t ∧ (getLaunch t ctx lid).next = l.next + 1 ∧ t = { v with ctxs := t.ctxs } ∧
      recUnit (unitRec l lid l.next) = l.next % 2 ^ 31 ∧ recLU (unitRec l lid l.next) = true ∧ recCode (unitRec l lid l.next) = BitVec.ofNat 64 (lpbF l 0 8)) ∧
  (∀ (s : State) (ctx lid : Nat), (getLaunch s ctx lid).complete = true → (getLaunch s ctx lid).residReleased = false →
    (∀ c ∈ coresOf s ctx, ∀ r ∈ (getCore s c).resid, r.lid = lid → residIdle s c r = true) →
    ∃ t, exec (.residentRelease ctx lid) s = .next t ∧ (getLaunch t ctx lid).residReleased = true ∧
      ∀ c ∈ coresOf s ctx, (getCore t c).resid = (getCore s c).resid.filter fun r => r.lid != lid)) ∧
  (
  (∀ (s : State) (ctx lid st : Nat) (pay : W64), let l := getLaunch s ctx lid
    l.recs.find? (fun r => r.1 == l.head) = some (l.head, st, pay) → l.head < lpbUnits l →
    ∃ t, reportHead s ctx lid = some t ∧ (getLaunch t ctx lid).head = l.head + 1 ∧
      (getLaunch t ctx lid).recs = l.recs.filter (fun r => r.1 != l.head) ∧
      (getLaunch t ctx lid).completed = l.completed + bit (decide (st = 0)) ∧ (getLaunch t ctx lid).cancelled = l.cancelled + bit (decide (st = 1)) ∧
      (getLaunch t ctx lid).stopped = l.stopped + bit (decide (2 ≤ st))) ∧
  (∀ (s : State) (ctx lid st : Nat) (x : Nat), let l := getLaunch s ctx lid
    l.recs.find? (fun r => r.1 == l.head) = none → l.tail = some (x, st) → l.head < lpbUnits l →
    (l.head < x → reportHead s ctx lid = none) ∧
    (x ≤ l.head → ∃ t, reportHead s ctx lid = some t ∧ (getLaunch t ctx lid).head = l.head + 1 ∧ (getLaunch t ctx lid).tail = l.tail ∧
      (getLaunch t ctx lid).completed = l.completed + bit (decide (st = 0)) ∧ (getLaunch t ctx lid).cancelled = l.cancelled + bit (decide (st = 1)) ∧
      (getLaunch t ctx lid).stopped = l.stopped + bit (decide (2 ≤ st)))) ∧
  (∀ (s : State) (ctx lid : Nat), let l := getLaunch s ctx lid
    l.tail = none → l.recs.find? (fun r => r.1 == l.head) = none → reportHead s ctx lid = none) ∧
  (∀ (n : Nat) (s : State) (ctx lid : Nat), let l := getLaunch s ctx lid
    let t := reportAll ctx lid n s
    l.head ≤ (getLaunch t ctx lid).head ∧
      ∀ u, l.head ≤ u → u < (getLaunch t ctx lid).head → (∃ r ∈ l.recs, r.1 = u) ∨ ∃ x, l.tail = some x ∧ x.1 ≤ u))

/-- For vadd, vsub, vmul, vmin, vmax, vabs and vneg of integer types: each active element is the exact integer result of the source elements, reduced to the type (saturated with .sat). vand, vor, vxor, vshl, vshr, vsar and vpopc act on the element patterns, a shift by the width or more giving zeros or the sign. vdot and vmac add the exact products of the elements of a 32- or 64-bit lane to its accumulator and reduce once. Inactive elements keep their value (zero in a queue entry), flags do not change, all readiness and bounds checks come first, and nothing else changes. (R75, R82, R97, R134, R135, R136, R144, R145, R146) -/
def Obligations.VectorIntegerFormsActPerElement : Prop :=
  (∀ o : VUn,
    let one := fun (f : Int → Int) (_ : State) (vs : List V512) n => (reduceTo o.t o.sat (f (intVal o.t (elem o.t.w (vs.getD 0 0) n))), 0)
    ElemResult (.vabsI o) o.p o.t.w [o.a] o.d (one fun a => if a < 0 then -a else a) ∧
    ElemResult (.vnegI o) o.p o.t.w [o.a] o.d (one fun a => -a)) ∧
  (∀ o : VBin,
    let two := fun (f : Int → Int → Int) (_ : State) (vs : List V512) n =>
      (reduceTo o.t o.sat (f (intVal o.t (elem o.t.w (vs.getD 0 0) n)) (intVal o.t (elem o.t.w (vs.getD 1 0) n))), 0)
    ElemResult (.vaddI o) o.p o.t.w [o.a, o.b] o.d (two fun a b => a + b) ∧
    ElemResult (.vsubI o) o.p o.t.w [o.a, o.b] o.d (two fun a b => a - b) ∧
    ElemResult (.vmulI o) o.p o.t.w [o.a, o.b] o.d (two fun a b => a * b) ∧
    ElemResult (.vminI o) o.p o.t.w [o.a, o.b] o.d (two fun a b => if b < a then b else a) ∧
    ElemResult (.vmaxI o) o.p o.t.w [o.a, o.b] o.d (two fun a b => if a < b then b else a)) ∧
  (∀ o : VLog,
    let w := o.t.w
    let pat := fun (f : Nat → Nat → Nat) (_ : State) (vs : List V512) n => (f (elem w (vs.getD 0 0) n) (elem w (vs.getD 1 0) n), 0)
    ElemResult (.vand o) o.p w [o.a, o.b] o.d (pat fun a b => a &&& b) ∧
    ElemResult (.vor o) o.p w [o.a, o.b] o.d (pat fun a b => a ||| b) ∧
    ElemResult (.vxor o) o.p w [o.a, o.b] o.d (pat fun a b => a ^^^ b) ∧
    ElemResult (.vshl o) o.p w [o.a, o.b] o.d (pat fun a n => if w ≤ n then 0 else a * 2 ^ n % 2 ^ w) ∧
    ElemResult (.vshr o) o.p w [o.a, o.b] o.d (pat fun a n => if w ≤ n then 0 else a / 2 ^ n) ∧
    ElemResult (.vsar o) o.p w [o.a, o.b] o.d (pat fun a n =>
      if bitOf a (w - 1) then (if w ≤ n then 2 ^ w - 1 else 2 ^ w - 1 - (2 ^ w - 1 - a) / 2 ^ n) else if w ≤ n then 0 else a / 2 ^ n)) ∧
  (∀ o : VUnT, ElemResult (.vpopc o) o.p o.t.w [o.a] o.d fun _ vs n =>
    (((List.range o.t.w).filter fun b => bitOf (elem o.t.w (vs.getD 0 0) n) b).length, 0)) ∧
  (∀ o : VTri,
    let w := o.t.w
    let dot := fun (wd : Nat) (acc : Ty) (_ : State) (vs : List V512) n =>
      let prod := fun i => intVal o.t (elem w (vs.getD 0 0) (n * (wd / w) + i)) * intVal o.t (elem w (vs.getD 1 0) (n * (wd / w) + i))
      (reduceTo acc o.sat (intVal acc (elem wd (vs.getD 2 0) n) + ((List.range (wd / w)).map prod).sum), 0)
    let acc32 := if o.t.isI then Ty.i32 else Ty.n32
    let acc64 := if o.t.isI then Ty.i64 else Ty.n64
    ElemResult (.vdot8 o) o.p 32 [o.a, o.b, o.c] o.d (dot 32 acc32) ∧ ElemResult (.vdot16 o) o.p 32 [o.a, o.b, o.c] o.d (dot 32 acc32) ∧
    ElemResult (.vmac8 o) o.p 64 [o.a, o.b, o.c] o.d (dot 64 acc64) ∧ ElemResult (.vmac16 o) o.p 64 [o.a, o.b, o.c] o.d (dot 64 acc64))

/-- For the floating forms vadd, vsub, vmul, vfma, vfms, vfnma, vdiv, vsqrt, vrcp, vrsqrt, vexp2, vlog2, vmin, vmax, vabs, vneg and vround: each active element is what the function of its operation gives of the source elements (FloatingOperationsRoundTheExactValueOnce says that each such function rounds the exact value once), inactive elements keep their value, and the conditions of the active elements join flags. A NaN operand gives the canonical NaN, with NV for a signalling one; a finite nonzero by zero gives the signed infinity with DZ, 0/0 and inf/inf the NaN with NV; the square root below zero NaN with NV. vabs and vneg only change the sign bit. min and max choose the other operand of a NaN. (R79, R82, R135, R136, R138, R140, R141, R142, R143) -/
def Obligations.VectorFloatingFormsRoundOncePerElement : Prop :=
  (∀ o : VBin,
    let two := fun (f : Nat → Nat → Nat × Nat) (_ : State) (vs : List V512) n => f (elem o.t.w (vs.getD 0 0) n) (elem o.t.w (vs.getD 1 0) n)
    ElemResult (.vaddF o) o.p o.t.w [o.a, o.b] o.d (two (fAdd o.t o.rnd o.sat)) ∧
    ElemResult (.vsubF o) o.p o.t.w [o.a, o.b] o.d (two (fSub o.t o.rnd o.sat)) ∧
    ElemResult (.vmulF o) o.p o.t.w [o.a, o.b] o.d (two (fMul o.t o.rnd o.sat)) ∧
    ElemResult (.vdiv o) o.p o.t.w [o.a, o.b] o.d (two (fDiv o.t o.rnd o.sat)) ∧
    ElemResult (.vminF o) o.p o.t.w [o.a, o.b] o.d (two (fMinMax false o.t)) ∧
    ElemResult (.vmaxF o) o.p o.t.w [o.a, o.b] o.d (two (fMinMax true o.t))) ∧
  (∀ o : VTri,
    let three := fun (f : Nat → Nat → Nat → Nat × Nat) (_ : State) (vs : List V512) n =>
      f (elem o.t.w (vs.getD 0 0) n) (elem o.t.w (vs.getD 1 0) n) (elem o.t.w (vs.getD 2 0) n)
    ElemResult (.vfma o) o.p o.t.w [o.a, o.b, o.c] o.d (three (fFma o.t o.rnd o.sat false false)) ∧
    ElemResult (.vfms o) o.p o.t.w [o.a, o.b, o.c] o.d (three (fFma o.t o.rnd o.sat false true)) ∧
    ElemResult (.vfnma o) o.p o.t.w [o.a, o.b, o.c] o.d (three (fFma o.t o.rnd o.sat true false))) ∧
  (∀ o : VUn,
    let one := fun (f : Nat → Nat × Nat) (_ : State) (vs : List V512) n => f (elem o.t.w (vs.getD 0 0) n)
    ElemResult (.vsqrt o) o.p o.t.w [o.a] o.d (one (fSqrt o.t o.rnd o.sat)) ∧
    ElemResult (.vrcp o) o.p o.t.w [o.a] o.d (one (fRcp o.t o.rnd o.sat)) ∧
    ElemResult (.vrsqrt o) o.p o.t.w [o.a] o.d (one (fRsqrt o.t o.rnd o.sat)) ∧
    ElemResult (.vexp2 o) o.p o.t.w [o.a] o.d (one (fExp2 o.t o.rnd o.sat)) ∧
    ElemResult (.vlog2 o) o.p o.t.w [o.a] o.d (one (fLog2 o.t o.rnd o.sat)) ∧
    ElemResult (.vabsF o) o.p o.t.w [o.a] o.d (one fun a => (a % 2 ^ (o.t.w - 1), 0)) ∧
    ElemResult (.vnegF o) o.p o.t.w [o.a] o.d (one fun a => (a ^^^ 2 ^ (o.t.w - 1), 0))) ∧
  (∀ o : VRnd, ElemResult (.vround o) o.p o.t.w [o.a] o.d fun _ vs n => fRound o.t o.rnd (elem o.t.w (vs.getD 0 0) n)) ∧
  (∀ (t : Ty) (rnd : Rnd) (sat : Bool) (a b c : Nat),
    let v := fdec t .ieee
    let qnan := ((fmtOf t .ieee).nanCode).getD 0
    let inf := fun neg => (encInf t .ieee false neg).1
    let sig := fun (l : List Nat) => if l.any (fun x => (v x).isSig) then flagNV else 0
    ((v a).isNan = true ∨ (v b).isNan = true → ∀ f ∈ [fAdd t rnd sat a b, fSub t rnd sat a b, fMul t rnd sat a b], f = (qnan, sig [a, b])) ∧
    ((v a).isNan = true → ∀ f ∈ [fSqrt t rnd sat a, fRcp t rnd sat a, fRsqrt t rnd sat a, fExp2 t rnd sat a, fLog2 t rnd sat a, fRound t rnd a],
      f = (qnan, sig [a])) ∧
    ((v a).isNan = true → (v b).isNan = false → fMinMax false t a b = (b, sig [a, b]) ∧ fMinMax true t a b = (b, sig [a, b])) ∧
    (∀ n m e, v a = .fin n m e → m ≠ 0 → ∀ u x, v b = .fin u 0 x →
      fDiv t rnd sat a b = (inf (n != u), flagDZ) ∧ fDiv t rnd sat b b = (qnan, flagNV) ∧ fRcp t rnd sat b = (inf u, flagDZ) ∧
      fRsqrt t rnd sat b = (inf u, flagDZ) ∧ fLog2 t rnd sat b = (inf true, flagDZ)) ∧
    (∀ m e, v a = .fin true m e → m ≠ 0 → fSqrt t rnd sat a = (qnan, flagNV) ∧ fRsqrt t rnd sat a = (qnan, flagNV) ∧
      fLog2 t rnd sat a = (qnan, flagNV)) ∧
    (∀ n u x, v a = .inf n → v b = .fin u 0 x → fMul t rnd sat a b = (qnan, flagNV) ∧
      ((v c).isNan = true → fFma t rnd sat false false a b c = (qnan, flagNV))))

/-- For every form: vcmp writes all 16 bits of its predicate (p0 discards): bit l is set exactly when the element of lane l is active and the condition holds, and the conditions of active elements join flags. vsel takes the element of SA where its selecting predicate is set and of SB elsewhere. vcvt converts the elements of the part that SB names, modulo the ratio of the widths, between source and destination (ConversionsRoundOnceIntoTheirDestination says what a conversion gives); other destination elements keep their value. Sources pop and destinations push as their positions say, the checks come first, and nothing else changes. (R82, R93, R94, R109, R147, R148, R149) -/
def Obligations.ComparesSelectsAndConversionsActPerElement : Prop :=
  (∀ (o : VCmp) (i : Instr) (s : State), i = .vcmpI o ∨ i = .vcmpF o → o.t.w = 32 ∨ o.t.w = 64 →
    let w := o.t.w
    let on := elemOn (predVal s o.p) w
    (anyOn (predVal s o.p) w = false → exec i s = .next s) ∧
    (anyOn (predVal s o.p) w = true → queuesReady s [o.a, o.b] none = false → exec i s = .next (stalled s)) ∧
    (anyOn (predVal s o.p) w = true → queuesReady s [o.a, o.b] none = true → (vopOk s o.a && vopOk s o.b) = false →
      Traps i s (trapOf cBOUNDS 0)) ∧
    (anyOn (predVal s o.p) w = true → queuesReady s [o.a, o.b] none = true → (vopOk s o.a && vopOk s o.b) = true →
      let r := readVs s [o.a, o.b]
      let res := fun n => cmpElem o.t o.cc (elem w (r.1.getD 0 0) n) (elem w (r.1.getD 1 0) n)
      let conds := orAll ((List.range (512 / w)).map fun n => if on n then (res n).2 else 0)
      ∃ t v, exec i s = .next t ∧ WroteP (withRf r.2 fun q => rfOrFlags q conds) t o.d v ∧
        ∀ l < 16, bitOf v.toNat l = (on (32 * l / w) && (res (32 * l / w)).1))) ∧
  (∀ o : VSel, ElemResult (.vsel o) o.p o.t.w [o.a, o.b] o.d fun s vs n =>
    (elem o.t.w (vs.getD (if elemOn (Machine.getP s o.c) o.t.w n then 0 else 1) 0) n, 0)) ∧
  (∀ (o : VCvt) (i : Instr), i = .vcvtII o ∨ i = .vcvtIF o ∨ i = .vcvtFI o ∨ i = .vcvtFF o →
    let wd := o.t.w
    let ws := o.src.w
    let nc := 512 / max wd ws
    ElemResult i o.p wd [o.a] o.d fun s vs d =>
      let h := (readS s o.b).toNat % (max wd ws / min wd ws)
      let conv := fun n => convertElem o.t o.src o.rnd o.sat o.rd (elem ws (vs.getD 0 0) n)
      if ws < wd then conv (h * nc + d)
      else if wd < ws then
        (if h * nc ≤ d ∧ d < h * nc + nc then conv (d - h * nc) else (elem wd (oldV (readVs s [o.a]).2 (resolveV s o.d)) d, 0))
      else conv d)

/-- vperm takes the element that the index element names modulo N; vbcast the low bits of a scalar; vlane the scalar plus the element number; vmov the source lane; vrng the generator of R156 over rngkey, the source lane and the lane number. vext writes one element, extended, into a scalar position under predicate bit 0; vins writes one active element of its destination; the choice that a destination out of range traps BOUNDS although element m is inactive is the model's (log 72). vcompress writes the active elements in ascending order from element 0 and zeros after them; vexpand gives the j-th active element the j-th source element. Inactive elements keep their value otherwise; nothing else changes. (R134, R135, R136, R151, R152, R153, R156) -/
def Obligations.ElementMovesPlaceTheirElements : Prop :=
  (∀ (o : VLog) (i : Instr), i = .vperm32 o ∨ i = .vperm64 o → ElemResult i o.p o.t.w [o.a, o.b] o.d fun _ vs n =>
    (elem o.t.w (vs.getD 0 0) (elem o.t.w (vs.getD 1 0) n % (512 / o.t.w)), 0)) ∧
  (∀ (o : VFromS) (i : Instr), i = .vbcast32 o ∨ i = .vbcast64 o → ElemResult i o.p o.t.w [] o.d fun s _ _ => ((readS s o.a).toNat, 0)) ∧
  (∀ o : VFromS, ElemResult (.vlane o) o.p o.t.w [] o.d fun s _ n => ((readS s o.a).toNat + n, 0)) ∧
  (∀ o : V2, ElemResult (.vmov o) o.p 32 [o.a] o.d fun _ vs n => (lane (vs.getD 0 0) n, 0)) ∧
  (∀ o : V2, ElemResult (.vrng o) o.p 32 [o.a] o.d fun s vs n => (rng32 (vw s).rngkey (lane (vs.getD 0 0) n) n, 0)) ∧
  (∀ (o : VExt) (s : State),
    (pred0 s o.p = false → exec (.vext o) s = .next s) ∧
    (pred0 s o.p = true → queuesReady s [o.a] none = false → exec (.vext o) s = .next (stalled s)) ∧
    (pred0 s o.p = true → queuesReady s [o.a] none = true → vopOk s o.a = false → Traps (.vext o) s (trapOf cBOUNDS 0)) ∧
    (pred0 s o.p = true → queuesReady s [o.a] none = true → vopOk s o.a = true → ∃ t, exec (.vext o) s = .next t ∧
      WroteSOp (readV s o.a).2 t o.d (extendTo o.t (elem o.t.w (readV s o.a).1 ((readS s o.b).toNat % (512 / o.t.w)))))) ∧
  (∀ (o : VIns) (s : State), let w := o.t.w
    let m := (readS s o.b).toNat % (512 / w)
    (anyOn (predVal s o.p) w = false → exec (.vins o) s = .next s) ∧
    (anyOn (predVal s o.p) w = true → queuesReady s [] (some o.d) = true → vopOk s o.d = false → Traps (.vins o) s (trapOf cBOUNDS 0)) ∧
    (anyOn (predVal s o.p) w = true → queuesReady s [] (some o.d) = true → vopOk s o.d = true →
      (elemOn (predVal s o.p) w m = false → exec (.vins o) s = .next s) ∧
      (elemOn (predVal s o.p) w m = true → ∃ t x, exec (.vins o) s = .next t ∧ WroteVD s t (resolveV s o.d) x ∧
        ∀ n < 512 / w, elem w x n = if n = m then (readS s o.a).toNat % 2 ^ w else elem w (oldV s (resolveV s o.d)) n))) ∧
  (∀ (o : VUnT) (s : State), let w := o.t.w
    let act := (List.range (512 / w)).filter (elemOn (predVal s o.p) w)
    (anyOn (predVal s o.p) w = false → exec (.vcompress o) s = .next s) ∧
    (anyOn (predVal s o.p) w = true → queuesReady s [o.a] (some o.d) = false → exec (.vcompress o) s = .next (stalled s)) ∧
    (anyOn (predVal s o.p) w = true → queuesReady s [o.a] (some o.d) = true → (vopOk s o.a && vopOk s o.d) = false →
      Traps (.vcompress o) s (trapOf cBOUNDS 0)) ∧
    (anyOn (predVal s o.p) w = true → queuesReady s [o.a] (some o.d) = true → (vopOk s o.a && vopOk s o.d) = true →
      ∃ t x, exec (.vcompress o) s = .next t ∧ WroteVD (readV s o.a).2 t (resolveV s o.d) x ∧
        ∀ n < 512 / w, elem w x n = match act[n]? with
          | some m => elem w (readV s o.a).1 m
          | none => 0)) ∧
  (∀ o : VUnT, ElemResult (.vexpand o) o.p o.t.w [o.a] o.d fun s vs n =>
    (elem o.t.w (vs.getD 0 0) ((List.range n).filter (elemOn (predVal s o.p) o.t.w)).length, 0))

/-- For vredadd, vredmin and vredmax, in every state with an active element, a readable source and a relative operand in range: the result is the root T[L][0] of the tree of R95 over the active elements, the inactive ones absent (each node rounded in the named mode for a floating type, wrapped for an integer type, and passing its one input through unrounded), extended into the scalar position, and the conditions of every node join flags; the nodes of an integer type are the sum reduced to the type, the lesser and greater value, and the AND, OR and XOR of the patterns. That a destination of flags receives the result after the conditions joined is the model's choice (log 72). Without an active element it is EMPTY of the operation, and the source is not read. vscan gives every active element i the value that the loop of R96 gives out[i], with its nodes' conditions. (R63, R95, R96, R154, R155) -/
def Obligations.ReductionsAndScansFollowTheFixedTree : Prop :=
  (∀ (o : VRed) (op : AOp) (i : Instr), ((i = .vredaddI o ∨ i = .vredaddF o) ∧ op = .add) ∨ ((i = .vredminI o ∨ i = .vredminF o) ∧ op = .min) ∨
      ((i = .vredmaxI o ∨ i = .vredmaxF o) ∧ op = .max) → ∀ s,
    let w := o.t.w
    let pv := predVal s o.p
    (anyOn pv w = false → ∃ t, exec i s = .next t ∧ WroteSOp s t o.d (extendTo o.t (emptyOf o.t op))) ∧
    (anyOn pv w = true → queuesReady s [o.a] none = false → exec i s = .next (stalled s)) ∧
    (anyOn pv w = true → queuesReady s [o.a] none = true → vopOk s o.a = false → Traps i s (trapOf cBOUNDS 0)) ∧
    (anyOn pv w = true → queuesReady s [o.a] none = true → vopOk s o.a = true →
      let r := readV s o.a
      let leaf := fun n => if elemOn pv w n then some (elem w r.1 n, 0) else none
      ∃ t x, exec i s = .next t ∧ treeAt (nodeOp o.t op o.rnd) leaf (Nat.log2 (512 / w)) 0 = some x ∧
        WroteSOp (withRf r.2 fun q => rfOrFlags q x.2) t o.d (extendTo o.t x.1))) ∧
  (∀ (t : Ty) (a b : Nat) (rnd : Rnd), (t.isInt = true → nodeOp t .add rnd a b = (reduceTo t false (intVal t a + intVal t b), 0) ∧
      nodeOp t .min rnd a b = (reduceTo t false (if intVal t b < intVal t a then intVal t b else intVal t a), 0) ∧
      nodeOp t .max rnd a b = (reduceTo t false (if intVal t a < intVal t b then intVal t b else intVal t a), 0) ∧
      (∀ k < t.w, bitOf (nodeOp t .and rnd a b).1 k = (bitOf a k && bitOf b k) ∧ bitOf (nodeOp t .or rnd a b).1 k = (bitOf a k || bitOf b k) ∧
        bitOf (nodeOp t .xor rnd a b).1 k = (bitOf a k != bitOf b k)) ∧
      ∀ op ∈ [AOp.and, .or, .xor], (nodeOp t op rnd a b).1 < 2 ^ t.w ∧ (nodeOp t op rnd a b).2 = 0) ∧
    (t.isInt = false → nodeOp t .add rnd a b = fAdd t rnd false a b ∧ nodeOp t .min rnd a b = fMinMax false t a b ∧
      nodeOp t .max rnd a b = fMinMax true t a b) ∧
    emptyOf t .add = 0 ∧ emptyOf t .or = 0 ∧ emptyOf t .xor = 0 ∧ emptyOf t .and = 2 ^ t.w - 1 ∧
    emptyOf t .min = (if t.isInt then reduceTo t false (intHi t) else (encInf t .ieee false false).1) ∧
    emptyOf t .max = (if t.isInt then reduceTo t false (intLo t) else (encInf t .ieee false true).1)) ∧
  (∀ (o : VScan) (i : Instr), i = .vscanI o ∨ i = .vscanF o → ElemResult i o.p o.t.w [o.a] o.d fun s vs n =>
    let leaf := fun j => if elemOn (predVal s o.p) o.t.w j then some (elem o.t.w (vs.getD 0 0) j, 0) else none
    (scanAcc (nodeOp o.t o.op o.rnd) leaf n (Nat.log2 (512 / o.t.w) + 1)).getD (0, 0))

/-- In every state with an active reservoir, queue registers ready and relative operands in range: rsvupd, rsvmrg and rsvget write the four lanes of each active reservoir and leave the others, OR the conditions of the active reservoirs' rounding steps into flags, and change nothing else. An update without weight only counts its candidate; one with weight adds it and takes the candidate where the draw accepts it; the counts saturate and the cap scales the weight sum. A merge of an empty reservoir changes nothing; rsvget writes the contribution weight. (R234, R236, R237, R238, R239) -/
def Obligations.ReservoirsUpdateMergeAndAnswer : Prop :=
  (∀ (p : Pred) (d a : VOp) (b : SOp) (s : State) (i : Instr) (f : V512 → V512 → Nat → Resv × Nat),
    (i = .rsvupd ⟨p, d, a, b⟩ ∧ f = fun old c j =>
      resvUpd (vw s).rngkey ((readS s b).toNat % 2 ^ 32) j (resvOf old j) (resvOf c j)) ∨
    (i = .rsvmrg ⟨p, d, a, b⟩ ∧ f = fun old c j =>
      resvMrg (vw s).rngkey ((readS s b).toNat % 2 ^ 32) ((readS s b).toNat / 2 ^ 32) j (resvOf old j) (resvOf c j)) ∨
    (i = .rsvget ⟨p, d, a⟩ ∧ f = fun _ c j => resvGet (resvOf c j)) →
    let on := fun j => laneOn (predVal s p) (4 * j)
    ((∀ j < 4, on j = false) → exec i s = .next s) ∧
    ((∃ j < 4, on j = true) → queuesReady s [a] (some d) = false → exec i s = .next (stalled s)) ∧
    ((∃ j < 4, on j = true) → queuesReady s [a] (some d) = true → (vopOk s a && vopOk s d) = false → Traps i s (trapOf cBOUNDS 0)) ∧
    ((∃ j < 4, on j = true) → queuesReady s [a] (some d) = true → (vopOk s a && vopOk s d) = true →
      let r := readV s a
      let old := oldV r.2 (resolveV s d)
      let conds := orAll ((List.range 4).map fun j => if on j then (f old r.1 j).2 else 0)
      ∃ t x, exec i s = .next t ∧ WroteVD (withRf r.2 fun q => rfOrFlags q conds) t (resolveV s d) x ∧
        ∀ j < 4, resvOf x j = if on j then
          let n := (f old r.1 j).1
          ⟨n.id % 2 ^ 32, n.wsum % 2 ^ 32, n.wsel % 2 ^ 32, n.m % 2 ^ 32⟩
        else resvOf old j)) ∧
  (∀ (key : W64) (cap j : Nat) (r c : Resv),
    let x := (resvUpd key cap j r c).1
    let sum := (fAdd .f32 .rne false r.wsum c.wsum).1
    let m := min (r.m + 1) (2 ^ 32 - 1)
    let took := noWeight c.wsum = false ∧ resvAccept (rng32 key c.wsel (4 * j + 1) / 256) c.wsum sum = true
    x.id = (if took then c.id else r.id) ∧ x.wsel = (if took then c.wsum else r.wsel) ∧ x.m = (if cap = 0 then m else min m cap) ∧
    (cap = 0 ∨ m ≤ cap → x.wsum = if noWeight c.wsum then r.wsum else sum) ∧
    (cap ≠ 0 → cap < m → x.wsum = mul32 (if noWeight c.wsum then r.wsum else sum) (div32 (nat32 cap).1 (nat32 m).1))) ∧
  (∀ (key : W64) (cap ctr j : Nat) (r c : Resv),
    let x := (resvMrg key cap ctr j r c).1
    let sum := (fAdd .f32 .rne false r.wsum c.wsum).1
    let m := min (r.m + c.m) (2 ^ 32 - 1)
    let took := resvAccept (rng32 key ctr (4 * j + 1) / 256) c.wsum sum = true
    (c.m = 0 → x = r) ∧
    (c.m ≠ 0 → noWeight c.wsum = true → x = { r with m := m }) ∧
    (c.m ≠ 0 → noWeight c.wsum = false → x.id = (if took then c.id else r.id) ∧ x.wsel = (if took then c.wsel else r.wsel) ∧
      x.m = (if cap = 0 then m else min m cap) ∧ (cap = 0 ∨ m ≤ cap → x.wsum = sum) ∧
      (cap ≠ 0 → cap < m → x.wsum = mul32 sum (div32 (nat32 cap).1 (nat32 m).1)))) ∧
  (∀ r : Resv, let x := (resvGet r).1
    x.id = r.id ∧ x.wsel = r.wsel ∧ x.m = r.m ∧
    x.wsum = if r.m = 0 ∨ noWeight r.wsel = true then 0 else div32 r.wsum (mul32 (nat32 r.m).1 r.wsel))

/-- For f64, f32, f16 and bf16 and every mode: of finite operands, a sum, a difference, a product, a fused form, a quotient, a square root, a reciprocal and a reciprocal square root that are not zero are the exact real value rounded once (RoundsOnce: pattern, sign and flags). An exact zero sum has the sign of R78: that of both terms where they agree, else minus in rdn alone; a zero product or quotient has the exclusive or of the signs. vexp2 of an integer and vlog2 of a power of two round the exact power and logarithm once (other arguments: log 7). vround gives the integer that the mode names, with the sign kept, and NX when the value changes. min and max choose the lesser and the greater of two values, with minus zero below plus zero and the infinities at the ends. (R77, R78, R80, R81, R138, R140, R141, R143) -/
def Obligations.FloatingOperationsRoundTheExactValueOnce : Prop :=
  ∀ t ∈ [Ty.f64, .f32, .f16, .bf16], ∀ (rnd : Rnd) (sat : Bool) (a b : Nat) (x y : ℝ),
    let v := fdec t .ieee
    let once := RoundsOnce t .ieee rnd sat
    let minus := fun n => bitOf n (t.w - 1)
    let zero := fun (neg : Bool) => (if neg then 2 ^ (t.w - 1) else 0, 0)
    let sumSign := fun (m n : Bool) => if m = n then m else rnd == .rdn
    (v a).Is x →
    ((v b).Is y →
      (x + y ≠ 0 → once (x + y) (fAdd t rnd sat a b)) ∧ (x + y = 0 → fAdd t rnd sat a b = zero (sumSign (minus a) (minus b))) ∧
      (x - y ≠ 0 → once (x - y) (fSub t rnd sat a b)) ∧ (x - y = 0 → fSub t rnd sat a b = zero (sumSign (minus a) (!minus b))) ∧
      (x * y ≠ 0 → once (x * y) (fMul t rnd sat a b)) ∧ (x * y = 0 → fMul t rnd sat a b = zero (minus a != minus b)) ∧
      (∀ (c : Nat) (z : ℝ) (negP negC : Bool), (v c).Is z →
        let e := (if negP then -(x * y) else x * y) + (if negC then -z else z)
        (e ≠ 0 → once e (fFma t rnd sat negP negC a b c)) ∧
        (e = 0 → fFma t rnd sat negP negC a b c = zero (sumSign ((minus a != minus b) != negP) (minus c != negC)))) ∧
      (x ≠ 0 → y ≠ 0 → once (x / y) (fDiv t rnd sat a b)) ∧ (x = 0 → y ≠ 0 → fDiv t rnd sat a b = zero (minus a != minus b)) ∧
      (x < y → fMinMax false t a b = (a, 0) ∧ fMinMax true t a b = (b, 0)) ∧
      (y < x → fMinMax false t a b = (b, 0) ∧ fMinMax true t a b = (a, 0)) ∧
      (x = 0 → y = 0 → minus a = true → minus b = false → fMinMax false t a b = (a, 0) ∧ fMinMax true t a b = (b, 0) ∧
        fMinMax false t b a = (a, 0) ∧ fMinMax true t b a = (b, 0))) ∧
    (∀ neg, v b = .inf neg → fMinMax neg t a b = (a, 0) ∧ fMinMax neg t b a = (a, 0) ∧ fMinMax (!neg) t a b = (b, 0) ∧
      fMinMax (!neg) t b a = (b, 0)) ∧
    (0 < x → once (Real.sqrt x) (fSqrt t rnd sat a) ∧ once (1 / Real.sqrt x) (fRsqrt t rnd sat a)) ∧
    (x = 0 → fSqrt t rnd sat a = zero (minus a)) ∧
    (x ≠ 0 → once (1 / x) (fRcp t rnd sat a)) ∧
    (∀ n : Int, x = n → n.natAbs ≤ 8192 → once ((2 : ℝ) ^ n) (fExp2 t rnd sat a)) ∧
    (∀ n : Int, x = (2 : ℝ) ^ n → (n ≠ 0 → once n (fLog2 t rnd sat a)) ∧ (n = 0 → fLog2 t rnd sat a = (0, 0))) ∧
    (∃ n : Int, RoundsToInt rnd x n ∧ (x = n → fRound t rnd a = (a, 0)) ∧
      (x ≠ n → (fRound t rnd a).2 = flagNX ∧ (v (fRound t rnd a).1).Is n ∧ minus (fRound t rnd a).1 = minus a ∧ (fRound t rnd a).1 < 2 ^ t.w))

/-- For every source element: into a floating format, a nonzero finite value is rounded once in the mode, with the overflow column of R92 and its flags (RoundsOnce); a zero keeps its sign (always plus for E2M1, and of an E2M1 source); an infinity and a NaN give the entries of R92's table. From a floating value to an integer type, the value is first rounded to an integer: in range it is the result, with NX when it changed; out of range it is saturated or wrapped, with NV alone; infinities and NaNs give the ends or 0 with NV. Between integer types the exact value is wrapped or saturated. That an E2M1 element 0b1000 converts to E2M1 as plus zero is the model's choice (log 72). (R74, R75, R78, R79, R83, R84, R85, R86, R92, R93, R94, R149) -/
def Obligations.ConversionsRoundOnceIntoTheirDestination : Prop :=
  ∀ (dt src : Ty) (rnd : Rnd) (sat : Bool) (rd : Rd) (a : Nat), a < 2 ^ src.w →
    let r := convertElem dt src rnd sat rd a
    let v := fdec src (if src.isF then .ieee else rd) a
    let f := fmtOf dt rd
    let isFloat := fun (t : Ty) => t.isF = true ∨ t.isNarrow = true
    let minus := src.isInt = false ∧ src ≠ .e2m1 ∧ bitOf a (src.w - 1) = true
    let zero := (minus → r = (2 ^ (dt.w - 1), 0)) ∧ (¬ minus → r = (0, 0))
    (isFloat dt → src.isInt = true →
      (intVal src a ≠ 0 → RoundsOnce dt rd rnd sat (intVal src a) r) ∧ (intVal src a = 0 → r = (0, 0))) ∧
    (isFloat dt → isFloat src →
      (∀ x, v.Is x → (x ≠ 0 → RoundsOnce dt rd rnd sat x r) ∧ (x = 0 → (dt = .e2m1 → r = (0, 0)) ∧ (dt ≠ .e2m1 → zero))) ∧
      (∀ neg, v = .inf neg →
        let largest := ∀ top, (fdec dt rd f.maxCode).Is top → r.2 = 0 ∧ r.1 < 2 ^ dt.w ∧ (fdec dt rd r.1).Is (if neg then -top else top)
        (f.infCode.isSome = true → r.2 = 0 ∧ r.1 < 2 ^ dt.w ∧ fdec dt rd r.1 = .inf neg) ∧
        (f.infCode = none → (∀ q, f.nanCode = some q → (sat = true → largest) ∧ (sat = false → r = (q, flagNV))) ∧
          (f.nanCode = none → largest))) ∧
      (∀ sig, v = .nan sig → (∀ q, f.nanCode = some q → r = (q, if sig then flagNV else 0)) ∧ (f.nanCode = none → r = (0, flagNV)))) ∧
    (dt.isInt = true → src.isInt = true → r = (reduceTo dt sat (intVal src a), 0)) ∧
    (dt.isInt = true → isFloat src →
      (∀ x, v.Is x → ∃ n : Int, RoundsToInt rnd x n ∧
        (intLo dt ≤ n → n ≤ intHi dt → r.1 = wrapTo dt.w n ∧ (x = n → r.2 = 0) ∧ (x ≠ n → r.2 = flagNX)) ∧
        (n < intLo dt → r = (wrapTo dt.w (if sat then intLo dt else n), flagNV)) ∧
        (intHi dt < n → r = (wrapTo dt.w (if sat then intHi dt else n), flagNV))) ∧
      (∀ neg, v = .inf neg → r = (if sat then wrapTo dt.w (if neg then intLo dt else intHi dt) else 0, flagNV)) ∧
      ∀ sig, v = .nan sig → r = (0, flagNV))

/-- In every state: while the core's queue holds 16 commands no matrix form is ready, whatever its predicate; with room and bit 0 of the predicate clear nothing changes. With bit 0 set: a form that names a register with a pending record is not ready; a relative operand of mfac or mrec out of range traps BOUNDS; then a set matrix fault latch traps CIMPAR with the macro and clears; mwait waits until the thread set has no command. This order of full queue, pending record, BOUNDS and latch, with mwait waiting before the latch, is the model's choice (log 34). Otherwise the location forms check their location (MISALIGN, BOUNDS), the forms that multiply by a macro that is empty or half of a pair trap ENGINE, a sum whose rank passes mrmax traps RANKOVF, one without room traps MSPACE, and each accepted form gives its register the shape the rules state and adds exactly its command at the tail of the queue. mrank and mfree write the rank and the free granules. (R160, R161, R164, R165, R171, R172, R175, R177, R183, R185, R186, R188) -/
def Obligations.MatrixFormsJoinTheQueueOrTrap : Prop :=
  (∀ (i : Instr) (p : Pred) (s : State), matrixPred i = some p →
    (16 ≤ s.core.mq.length → exec i s = .next (stalled s)) ∧
    (s.core.mq.length < 16 → pred0 s p = false → exec i s = .next s) ∧
    (pred0 s p = true → (∃ m ∈ matrixNeeds i, s.th.shapes[m].known = false) → exec i s = .next (stalled s)) ∧
    (∀ m, pred0 s p = true → s.core.mq.length < 16 → (∀ r ∈ matrixNeeds i, s.th.shapes[r].known = true) → matrixInRange i s →
      s.th.mlatch = some m → (∀ o, i = .mwait o → matrixOf s s.here = []) → exec i s = .next (takeTrap { s with th := { s.th with mlatch := none } } (trapOf cCIMPAR (BitVec.ofNat 64 m))))) ∧
  (∀ (o : MWait) (s : State), pred0 s o.p = true → (matrixOf s s.here ≠ [] → exec (.mwait o) s = .next (stalled s)) ∧
    (matrixOf s s.here = [] → s.core.mq.length < 16 → s.th.mlatch = none → exec (.mwait o) s = .next s)) ∧
  (∀ s : State, s.core.mq.length < 16 → s.th.mlatch = none →
    (∀ o : MLoc, pred0 s o.p = true → let l := mlocOf s o
      (∀ i, i ∈ [Instr.mld32 o, .mld16 o, .mst32 o, .mst16 o, .mcvt o] → ∀ x, locE s o.t l = .error x → exec i s = .next (onStop s x)) ∧
      (locE s o.t l = .ok () →
        Admits (.mld32 o) s [o.d] o.d .dense (.mld o.t o.d l) o.gran ∧ Admits (.mld16 o) s [o.d] o.d .dense (.mld o.t o.d l) o.gran ∧
        (∃ t, exec (.mst32 o) s = .next t ∧ Queued s t (.mst o.t o.d l) o.gran) ∧
        (∃ t, exec (.mst16 o) s = .next t ∧ Queued s t (.mst o.t o.d l) o.gran) ∧
        (∃ t, exec (.mcvt o) s = .next t ∧ Queued s t (.mcvt o.t (if o.rd = .tag then .fin else o.rd) o.d l) o.gran))) ∧
    (∀ o : MBld, pred0 s o.p = true → let l := locOf s o.pool o.disp o.a o.b
      (∀ x, locE s o.t l = .error x → exec (.mbld8 o) s = .next (onStop s x) ∧ exec (.mbld16 o) s = .next (onStop s x)) ∧
      (locE s o.t l = .ok () →
        (∃ t, exec (.mbld8 o) s = .next t ∧ t.core.mtrack[o.mac] = .single ∧ Queued s t (.mbld false o.t o.rd o.mac l) o.gran) ∧
        (∀ h : o.mac.val + 1 < 8, ∃ t, exec (.mbld16 o) s = .next t ∧ t.core.mtrack[o.mac] = .low ∧ t.core.mtrack[o.mac.val + 1] = .high ∧
          Queued s t (.mbld true o.t o.rd o.mac l) o.gran))) ∧
    (∀ o : MBrel, pred0 s o.p = true → ∃ t, exec (.mbrel o) s = .next t ∧ t.core.mtrack[o.mac] = .empty ∧ Queued s t (.mbrel o.mac) o.gran) ∧
    (∀ o : M1, pred0 s o.p = true → Admits (.mzero o) s [o.d] o.d .zero (.mzero o.d) o.gran) ∧
    (∀ o : M2, pred0 s o.p = true →
      Admits (.mprom o) s [o.d] o.d .dense (.mprom o.d o.a) o.gran ∧ Admits (.mtr o) s [o.d, o.a] o.d s.th.shapes[o.a] (.mtr o.d o.a) o.gran ∧
      (∀ r, s.th.shapes[o.a] = .factor r → Admits (.mreef o) s [o.d, o.a] o.d (.pending r) (.mreef o.d o.a (w32 (vw s).mtol.toNat)) o.gran) ∧
      ((∀ r, s.th.shapes[o.a] ≠ .factor r) →
        Admits (.mreef o) s [o.d, o.a] o.d s.th.shapes[o.a] (.mreef o.d o.a (w32 (vw s).mtol.toNat)) o.gran)) ∧
    (∀ o : M3, pred0 s o.p = true → let a := s.th.shapes[o.a]
      let b := s.th.shapes[o.b]
      Admits (.mlrmul o) s [o.d, o.a, o.b] o.d (prodShape a b) (.mlrmul o.d o.a o.b) o.gran ∧
      (rankOk a b (vw s).mrmax.toNat = true → Admits (.mlradd o) s [o.d, o.a, o.b] o.d (sumShape a b) (.mlradd o.d o.a o.b) o.gran) ∧
      (s.th.shapes[o.d].known = true → a.known = true → b.known = true → rankOk a b (vw s).mrmax.toNat = false → Traps (.mlradd o) s (trapOf cRANKOVF 0))) ∧
    (∀ o : MScale, pred0 s o.p = true →
      Admits (.mscale o) s [o.d, o.a] o.d s.th.shapes[o.a] (.mscale o.d o.a (w32 (Machine.getS s o.b).toNat)) o.gran) ∧
    (∀ o : MFac, pred0 s o.p = true → s.th.shapes[o.d].known = true →
      ((∃ x, colE s o.a = .error x) ∨ ∃ x, colE s o.b = .error x) → Traps (.mfac o) s (trapOf cBOUNDS 0)) ∧
    (∀ (o : MFac) (u v : List W32), pred0 s o.p = true → colE s o.a = .ok u → colE s o.b = .ok v →
      Admits (.mfac o) s [o.d] o.d (.factor 1) (.mfac o.d u v) o.gran) ∧
    (∀ o : MRun, pred0 s o.p = true →
      (s.th.shapes[o.d].known = true → s.core.mtrack[o.mac] = .empty ∨ s.core.mtrack[o.mac] = .high → Traps (.mrun o) s (trapOf cENGINE 0)) ∧
      (s.core.mtrack[o.mac] = .single ∨ s.core.mtrack[o.mac] = .low →
        Admits (.mrun o) s [o.d] o.d .dense (.mrun o.d o.a o.mac) o.gran)) ∧
    (∀ o : MRec, pred0 s o.p = true → (vopOk s o.a = false → Traps (.mrec o) s (trapOf cBOUNDS 0)) ∧
      (vopOk s o.a = true → (∃ i < 4, recWordOk (lane (peekV s o.a) i) = false) → Traps (.mrec o) s (trapOf cILLEGAL 0)) ∧
      (vopOk s o.a = true → (∀ i < 4, recWordOk (lane (peekV s o.a) i) = true) →
        ∃ t, exec (.mrec o) s = .next t ∧ Queued s t (.mrec (peekV s o.a)) o.gran)) ∧
    (∀ o : MRank, pred0 s o.p = true → (s.th.shapes[o.a].known = false → exec (.mrank o) s = .next (stalled s)) ∧
      (∀ v, (s.th.shapes[o.a] = .zero ∧ v = 0) ∨ (s.th.shapes[o.a] = .dense ∧ v = 64) ∨ (s.th.shapes[o.a] = .factor v) →
        ∃ t, exec (.mrank o) s = .next t ∧ WroteS s t o.d (BitVec.ofNat 64 v))) ∧
    (∀ o : MFree, pred0 s o.p = true → ∃ t, exec (.mfree o) s = .next t ∧
      WroteS s t o.d (BitVec.ofNat 64 (accGran s.core * 64 - usedGran s))) ∧
    (∀ (o : MMul) (i : Instr) (acc : Bool), pred0 s o.p = true → (acc = false ∧ i ∈ [Instr.mmulE2M1 o, .mmul8 o, .mmul16 o]) ∨
        (acc = true ∧ i ∈ [Instr.mmacE2M1 o, .mmac8 o, .mmac16 o]) →
      let areg : Option (Fin 8) := match o.a with
        | .reg m => some m
        | .loc .. => none
      let l : MLocV := match o.a with
        | .reg _ => ⟨false, 0, 0⟩
        | .loc pool disp x y => locOf s pool disp x y
      let prod := match areg with
        | some m => s.th.shapes[m]
        | none => .dense
      let old := s.th.shapes[o.d]
      let new := if acc then sumShape old prod else prod
      let locOk := areg = none → locE s o.t l = .ok ()
      let aligned := (Machine.getS s o.b).toNat % 256 = 0
      let loaded := s.core.mtrack[o.mac] = .single ∨ s.core.mtrack[o.mac] = .low
      let known := old.known = true ∧ prod.known = true
      let ranked := acc = true → rankOk old prod (vw s).mrmax.toNat = true
      let fine := locOk ∧ (o.b ≠ 0 → aligned) ∧ (o.b = 0 → loaded)
      (¬ known → exec i s = .next (stalled s)) ∧
      (known → (areg = none → ∀ x, locE s o.t l = .error x → exec i s = .next (onStop s x)) ∧
        (locOk → o.b ≠ 0 → ¬ aligned → Traps i s (trapOf cMISALIGN (Machine.getS s o.b))) ∧
        (locOk → o.b = 0 → ¬ loaded → Traps i s (trapOf cENGINE 0)) ∧
        (fine → ¬ ranked → Traps i s (trapOf cRANKOVF 0)) ∧
        (fine → ranked → accGran s.core * 64 + occOf old < usedGran s + occOf new → Traps i s (trapOf cMSPACE 0)) ∧
        (fine → ranked → usedGran s + occOf new ≤ accGran s.core * 64 + occOf old → ∃ t, exec i s = .next t ∧
          (o.b = 0 → t.core.mtrack = s.core.mtrack) ∧ (o.b ≠ 0 → t.core.mtrack[o.mac] = .empty) ∧
          Queued { s with th := { s.th with shapes := s.th.shapes.set o.d.val new o.d.isLt } } t
            (.mmul acc o.t o.rd o.d areg l (if o.b = 0 then none else some (Machine.getS s o.b)) o.mac) o.gran)))) ∧
  (∀ (s : State) (t : Ty) (l : MLocV), t ≠ .e2m1 →
    (l.base.toNat % 64 ≠ 0 ∨ l.stride.toNat % 64 ≠ 0 → locE s t l = .error (.trap (trapOf cMISALIGN l.base))) ∧
    (l.base.toNat % 64 = 0 → l.stride.toNat % 64 = 0 → l.pool = false → locE s t l = .ok ()))

/-- In every state: MATRIX_GRANT grants the next command of the core it stands at while that core has had fewer grants than the command's weight. MATRIX_COMMAND_COMPLETE runs the oldest command of a core when it is granted: it leaves the queue, and its register holds the result the rules state for mzero, mfac, mlradd, mlrmul, mprom, mtr, mscale, and a product of a register with a resident macro (MatrixProductsRoundTheExactSumOnce says how these round), from operands read before any of it is written; every other register and memory stay. Before that, a promotion that reaches its split point keeps its completed rows in the destination; mbrel empties its macro and mrec sets the program. A command that meets a translation fault keeps its place, its rows read and written, and a fault waits for the supervisor. MATRIX_MIGRATION grants a waiting product by address in an idle neighbour. MACRO_PARITY_ERROR marks the tile that the granted oldest command stages in the macro, or else a loaded macro, bad, or else the tile that a command migrated to the unit uses there; a product that uses a bad macro gives NaN everywhere, empties it and sets the latch. (R164, R166, R168, R169, R170, R171, R172, R181, R183, R184, R186, R187) -/
def Obligations.TheMatrixUnitGrantsRunsAndMigrates : Prop :=
  (∀ (s : State) (k : Nat) (c : MCmd), let x := getClu s k
    let core := 8 * k + x.mxCore
    (getCore s core).mq.find? (fun e => !e.granted) = some c → c.fault = none → c.migrated = none → engineRuns s (ctxOfCore s core) = true →
    x.mxGrants < c.weight → ∃ t, exec (.matrixGrant k) s = .next t ∧ (getClu t k).mxGrants = x.mxGrants + 1 ∧ (getClu t k).mxCore = x.mxCore ∧
      (getCore t core).mq = (getCore s core).mq.map (fun e => if e.num = c.num then { c with granted := true } else e) ∧ t.mem = s.mem) ∧
  (∀ (s : State) (core : Nat) (c : MCmd) (l : List MCmd), (getCore s core).mq = c :: l → c.granted = true → c.fault = none →
    engineRuns s (ctxOfCore s core) = true → (∀ e ∈ l, e.num ≠ c.num) → c.migrated = none → c.ts < 4 → c.prior = none → c.part = [] →
    let reg := fun (s : State) (m : Fin 8) => (threadAt s (4 * core + c.ts)).m[m]
    let ends := fun (t : State) => exec (.matrixCommandComplete core) s = .next t ∧ (getCore t core).mq.map (·.num) = l.map (·.num) ∧ t.mem = s.mem
    let writes := fun (d : Fin 8) (v : MVal) => ∃ t, ends t ∧ reg t d = v ∧ ∀ m : Fin 8, m ≠ d → reg t m = reg s m
    (∀ d, c.op = .mzero d → writes d .zero) ∧
    (∀ d u v, c.op = .mfac d u v → writes d (.factor [u] [v])) ∧
    (∀ d a b, c.op = .mlradd d a b → writes d (mlraddOf (reg s a) (reg s b))) ∧
    (∀ d a b, c.op = .mlrmul d a b → writes d (mlrmulOf (reg s a) (reg s b))) ∧
    (∀ d a, c.op = .mprom d a → writes d (.dense (denseOf (reg s a)))) ∧
    (∀ d a, c.op = .mtr d a → writes d (mtrOf (reg s a))) ∧
    (∀ d a k, c.op = .mscale d a k → writes d (mscaleOf k (reg s a))) ∧
    (∀ acc t rd d a x mac, c.op = .mmul acc t rd d (some a) x none mac → badMacro (getCore s core) mac.val = none →
      let p := mmulReg (widthA t) (tileOf (macroAt (getCore s core) mac.val) (macroAt (getCore s core) (mac.val + 1))) (reg s a)
      writes d (if acc then mlraddOf (reg s d) p else p)) ∧
    (∀ acc t rd d a x mac e, c.op = .mmul acc t rd d (some a) x none mac → badMacro (getCore s core) mac.val = some e → reg s a ≠ .zero →
      ∃ t, ends t ∧ (threadAt t (4 * core + c.ts)).mlatch = some e ∧ macroAt (getCore t core) mac.val = .empty ∧
        (acc = false → ∀ r, reg s a = .dense r → reg t d = .dense (r.map fun _ => List.replicate 64 0x7FC00000))) ∧
    (∀ d a, c.op = .mprom d a → c.gran < 6 → (denseOf (reg s a)).length = 64 → let n := 2 ^ c.gran
      ∃ t, evMatrixRows core s = some t ∧ reg t d = .dense ((denseOf (reg s a)).take n ++ (denseOf (reg s d)).drop n) ∧
        (∀ m : Fin 8, m ≠ d → reg t m = reg s m) ∧ (getCore t core).mq.map (·.num) = (getCore s core).mq.map (·.num) ∧ t.mem = s.mem) ∧
    (∀ mac, c.op = .mbrel mac → ∃ t, ends t ∧ macroAt (getCore t core) mac.val = .empty) ∧
    (∀ v, c.op = .mrec v → ∃ t, ends t ∧ (getCore t core).recprog = v) ∧
    (∀ f, runCmd core c s = .error f → ∃ t id, exec (.matrixCommandComplete core) s = .next t ∧ t.mem = f.s.mem ∧
      (getCore t core).mq = (getCore f.s core).mq.map (fun e => if e.num = f.cmd.num then { f.cmd with fault := some id } else e) ∧
      t.waiting = f.s.waiting ++ [{ fid := id, va := f.va, acc := f.acc, cause := f.cause, g := 4 * core + f.cmd.ts }])) ∧
  (∀ (s : State) (core k : Nat) (c : MCmd) (l : List MCmd) acc t rd d a x base mac, (getCore s core).mq = c :: l →
    c.op = .mmul acc t rd d a x (some base) mac → c.granted = false → c.fault = none → engineRuns s (ctxOfCore s core) = true →
    (∃ t0, c.headAt = some t0 ∧ 4096 ≤ (s.cycle - t0).toNat) →
    (∀ ty, baseType s core base = some ty → (∃ p < 4, neighbourOf (cluOf core) p = some k ∧
      inRect (getPart s (getCtx s (ctxOfCore s core)).part) k = true ∧ unitIdle s k (ty.w == 16) = true ∧
      ∀ q < p, ∀ j, neighbourOf (cluOf core) q = some j → inRect (getPart s (getCtx s (ctxOfCore s core)).part) j = false) →
      ∃ t, exec (.matrixMigration core) s = .next t ∧ (getClu t k).migrated = some core ∧ t.mem = s.mem ∧
        (getCore t core).mq = (getCore s core).mq.map (fun e => if e.num = c.num then { c with granted := true, migrated := some k } else e))) ∧
  (∀ (s : State) (core : Nat) (mac : Fin 8),
    let staged := fun (c : MCmd) => (∃ l, (getCore s core).mq = c :: l) ∧ c.granted = true ∧
      c.migrated = none ∧ stagesIn c mac.val = true
    (∀ c, staged c → ∃ t, exec (.macroParityError core mac.val) s = .next t ∧ t.mem = s.mem ∧
      (getCore t core).mq = (getCore s core).mq.map (fun e => if e.num = c.num then { c with bad := some (c.bad.getD mac.val) } else e)) ∧
    (∀ h c e m b, (∀ d, ¬ staged d) → (getCore s core).macros[mac] = .loaded h c e m b → ∃ t, exec (.macroParityError core mac.val) s = .next t ∧
      (getCore t core).macros[mac] = .loaded h c e m true ∧ t.mem = s.mem) ∧
    ∀ src c l, (∀ d, ¬ staged d) → (getCore s core).macros[mac] = .empty → (getClu s (cluOf core)).migrated = some src →
      (getCore s src).mq = c :: l → c.granted = true → c.migrated = some (cluOf core) → ∃ t, exec (.macroParityError core mac.val) s = .next t ∧
        t.mem = s.mem ∧ (getCore t src).mq = (getCore s src).mq.map fun e => if e.num = c.num then { c with bad := some (c.bad.getD mac.val) } else e)

/-- For every tile and row of finite values: a column of B is aligned to the shared exponent and integers of R98 (an i8 tile is kept, with exponent 6), a row of A to those of R99, and each element of the product is the exact integer sum, scaled by both exponents, rounded once to FP32 in rne; a zero sum is +0. A column with an infinity or a NaN is marked and gives the canonical NaN against every row, and so does a row that holds one. A DENSE register and a FACTOR's V stream their rows so. The sum of two DENSE tiles, a scaled tile, a promotion and the product of two DENSE tiles are, element by element, chains of single FP32 additions, products or fused steps in the order of R182, each of which FloatingOperationsRoundTheExactValueOnce ties to its exact value. (R98, R99, R100, R101, R181, R182, R183, R184, R186) -/
def Obligations.MatrixProductsRoundTheExactSumOnce : Prop :=
  (∀ (t : Ty) (rows : List (List FV)) (j : Nat), rows.length = 64 → j < 64 →
    let b := buildB t rows
    let col := rows.map fun r => r.getD j (.fin false 0 0)
    b.mB = (if t.w = 16 then 15 else 7) ∧
    (∀ xs : List ℝ, List.Forall₂ FV.Is col xs → bitOf b.marks.toNat j = false ∧
      (t ≠ .i8 → Aligned b.mB xs (b.exps.getD j 0) (b.cols.getD j [])) ∧
      (∀ ns : List Int, t = .i8 → xs = ns.map (fun (n : Int) => (n : ℝ)) → b.exps.getD j 0 = 6 ∧ b.cols.getD j [] = ns)) ∧
    ((∃ v ∈ col, v.wild = true) → t ≠ .i8 → bitOf b.marks.toNat j = true)) ∧
  (∀ (mA : Nat) (b : BTile) (row : List FV) (j : Nat), j < 64 →
    let p := (mulRow mA b row).getD j 0
    ((∃ v ∈ row, v.wild = true) → p = 0x7FC00000) ∧ (bitOf b.marks.toNat j = true → p = 0x7FC00000) ∧
    (∀ xs : List ℝ, List.Forall₂ FV.Is row xs → bitOf b.marks.toNat j = false → ∃ (f : Int) (a : List Int), Aligned mA xs f a ∧
      let s : Int := (a.zipWith (fun (m n : Int) => m * n) (b.cols.getD j [])).sum
      (s = 0 → p = 0) ∧
      (s ≠ 0 → ∃ flags, RoundsOnce .f32 .ieee .rne false
        ((s : ℝ) * (2 : ℝ) ^ (f - ((mA : Int) - 1)) * (2 : ℝ) ^ (b.exps.getD j 0 - ((b.mB : Int) - 1))) (p.toNat, flags)))) ∧
  (∀ (mA : Nat) (b : BTile) (r u v : List (List W32)), let stream := fun (l : List W32) => mulRow mA b (l.map fun x => fdec .f32 .ieee x.toNat)
    mmulReg mA (some b) (.dense r) = .dense (r.map stream) ∧ mmulReg mA (some b) (.factor u v) = .factor u (v.map stream) ∧
    mmulReg mA (some b) .zero = .zero) ∧
  (∀ x y z : W32, (addW x y).toNat = (fAdd .f32 .rne false x.toNat y.toNat).1 ∧ (mulW x y).toNat = (fMul .f32 .rne false x.toNat y.toNat).1 ∧
    (fmaW x y z).toNat = (fFma .f32 .rne false false false x.toNat y.toNat z.toNat).1) ∧
  (∀ (x y : List W32) (a b : W32), x.length = y.length → dotW [] [] = 0 ∧ dotW (x ++ [a]) (y ++ [b]) = fmaW a b (dotW x y)) ∧
  (∀ (p q : List (List W32)) (i j : Nat), i < 64 → j < 64 → p.length = 64 → q.length = 64 → (∀ l ∈ p ++ q, l.length = 64) →
    let at2 := fun (m : MVal) => ((denseOf m).getD i []).getD j 0
    let old := fun (m : List (List W32)) => (m.getD i []).getD j 0
    at2 (mlraddOf (.dense p) (.dense q)) = addW (old p) (old q) ∧
    (∀ c, at2 (mscaleOf c (.dense p)) = mulW (old p) c) ∧
    at2 (mlrmulOf (.dense p) (.dense q)) = dotW (p.getD i []) (q.map fun l => l.getD j 0)) ∧
  (∀ (u v : List (List W32)) (i j : Nat), i < 64 → j < 64 →
    ((denseOf (.factor u v)).getD i []).getD j 0 = dotW (u.map fun c => c.getD i 0) (v.map fun c => c.getD j 0))

/-- In every state with bit 0 of the predicate set: rayopen of a well-formed descriptor takes the lowest FREE slot of the cluster's sequencer with its generation advanced, an empty list and the descriptor, and writes its handle, or writes 0 when no slot is free or no bank qualifies. A form whose handle is not live or belongs to another context, or whose ray is in another state than the form needs, traps ENGINE. raytrace and replay put an OPEN ray into RUN, where an opaque list, or BADRAY, ends traversal at once, and replay sets REPLAY; raywait waits for DONE unless it polls, writes the status word and releases the slot when asked; ivpost queues its answer; ivread, ivclr and ivstat read and clear the list after the thread set's own answers have arrived; hitq copies the hit descriptor; logset binds the log. When bit 0 is clear, nothing changes. (R191, R192, R195, R196, R198, R211, R212, R213, R217, R230, R231, R233) -/
def Obligations.RayFormsOpenTraceWaitAndRead : Prop :=
  (∀ (o : RayOpen) (s : State), pred0 s o.p = true → (∀ x, pairE s o.a = .error x → exec (.rayopen o) s = .next (onStop s x)) ∧
    ∀ p, pairE s o.a = .ok p →
    let d1 := readVD s p.2
    let iv := (vw s).ivstop.toNat % 2 ^ 32
    let k := myClu s
    let rig := (getCtx s (myCtx s)).rig
    let fine := lane d1 4 / 2 ^ 16 % 4 ≠ 3 ∧ lane d1 4 / 2 ^ 18 = 0 ∧ 0 < iv ∧ iv ≤ 0x7F800000
    (¬ fine → Traps (.rayopen o) s (trapOf cENGINE 0)) ∧
    (fine → (∀ n < 1024, (getRay s k n).st ≠ .free) ∨ bankFor (getClu s k) (myCtx s) rig = none →
      ∃ t, exec (.rayopen o) s = .next t ∧ WroteS s t o.d 0) ∧
    (fine → ∀ n < 1024, (getRay s k n).st = .free → (∀ m < n, (getRay s k m).st ≠ .free) → bankFor (getClu s k) (myCtx s) rig ≠ none →
      ∃ t, exec (.rayopen o) s = .next t ∧ let r := getRay t k n
        r.st = .open_ ∧ r.gen = (getRay s k n).gen % 4095 + 1 ∧ r.ctx = myCtx s ∧ r.d0 = readVD s p.1 ∧ r.d1 = d1 ∧ r.rig = rig ∧
        r.ivstop.toNat = iv ∧ r.recs = [] ∧ r.front = 0x7F800000 ∧ r.opq = false ∧ r.arrivals = 0 ∧ bitOf r.stat.toNat 2 = badRay r ∧
        (o.d ≠ 0 → t.th.rf.s[o.d] = handleOf k n r) ∧ SameButS s.th.rf t.th.rf ∧ ∀ m : Fin 32, m ≠ o.d → t.th.rf.s[m] = s.th.rf.s[m])) ∧
  (∀ (s : State) (h : W64), (∀ k n r, rayAt s h = some (k, n, r) → r.ctx ≠ myCtx s) →
    (∀ o : SA1, pred0 s o.p = true → Machine.getS s o.a = h → Traps (.raytrace o) s (trapOf cENGINE 0) ∧ Traps (.replay o) s (trapOf cENGINE 0) ∧
      Traps (.ivclr o) s (trapOf cENGINE 0)) ∧
    (∀ o : RayWait, pred0 s o.p = true → Machine.getS s o.a = h → Traps (.raywait o) s (trapOf cENGINE 0)) ∧
    (∀ o : IvStat, pred0 s o.p = true → Machine.getS s o.a = h → Traps (.ivstat o) s (trapOf cENGINE 0)) ∧
    (∀ o : IvRead, pred0 s o.p = true → vopOk s o.d = true → Machine.getS s o.a = h → Traps (.ivread o) s (trapOf cENGINE 0)) ∧
    (∀ o : IvPost, pred0 s o.p = true → vopOk s o.b = true → Machine.getS s o.a = h → Traps (.ivpost o) s (trapOf cENGINE 0))) ∧
  (∀ (s : State) (h : W64) (k n : Nat) (r : Ray), rayAt s h = some (k, n, r) → r.ctx = myCtx s →
    let u := flushMine s k n
    let x := getRay u k n
    (∀ o : SA1, pred0 s o.p = true → Machine.getS s o.a = h →
      (x.st ≠ .open_ → Traps (.raytrace o) s (trapOf cENGINE 0) ∧ Traps (.replay o) s (trapOf cENGINE 0) ∧ Traps (.ivclr o) s (trapOf cENGINE 0)) ∧
      (x.st = .open_ →
        (∃ t, exec (.raytrace o) s = .next t ∧ t.th.rays = s.th.rays ++ [h] ∧ let y := getRay t k n
          y.st = .run ∧ y.tracer = s.here ∧ y.recs = x.recs ∧
          (x.opq = true → y.ended = true ∧ y.stat = x.stat ||| 8#9) ∧
          (x.opq = false → bitOf x.stat.toNat 2 = true → y.ended = true ∧ y.stat = x.stat) ∧
          (bitOf x.stat.toNat 2 = false → x.opq = false → y.ended = x.ended ∧ y.stat = x.stat)) ∧
        (∃ t, exec (.ivclr o) s = .next t ∧ let y := getRay t k n
          y.st = .open_ ∧ y.recs = [] ∧ y.front = 0x7F800000 ∧ y.opq = false ∧ y.arrCount = 0 ∧ y.arrivals = 0 ∧ y.late = 0 ∧ y.dup = 0 ∧
          y.reject = 0 ∧ y.merges = 0 ∧ y.ivstop = x.ivstop ∧ t.th = s.th) ∧
        (x.queue = [] → x.log ≠ none → x.logN ≠ none → x.arrivals = 0 → ∃ t, exec (.replay o) s = .next t ∧
          (getRay t k n).st = .run ∧ (getRay t k n).replay = true ∧ (getRay t k n).stat = x.stat ||| 2#9 ∧
          t.th.rays = s.th.rays ++ [h]) ∧
        (x.queue = [] → x.log = none ∨ x.logN = none ∨ x.arrivals ≠ 0 → Traps (.replay o) s (trapOf cENGINE 0)))) ∧
    (∀ o : RayWait, pred0 s o.p = true → Machine.getS s o.a = h →
      let own := ∃ e y, s.th.hit = some (k, e) ∧ amFind (getClu s k).hitbuf e = some y ∧ y.slot = n
      (own → Traps (.raywait o) s (trapOf cENGINE 0)) ∧
      (¬ own → o.poll = false → x.st ≠ .done → exec (.raywait o) s = .next (stalled s)) ∧
      (¬ own → o.poll = true ∨ x.st = .done → ∃ t v, exec (.raywait o) s = .next t ∧ WroteS u v o.d (statusOf x) ∧
        (o.rel = true → x.st = .done → t = putRay v k n { Ray.init with gen := x.gen } ∧ (getRay t k n).st = .free) ∧
        (o.rel = false ∨ x.st ≠ .done → t = v))) ∧
    (∀ o : IvPost, pred0 s o.p = true → Machine.getS s o.a = h → vopOk s o.b = true →
      (r.st = .open_ ∨ (r.st = .run ∧ r.replay = false) → exec (.ivpost o) s =
        .next (putRay s k n { getRay s k n with queue := (getRay s k n).queue ++ [(BitVec.ofNat 256 (peekV s o.b).toNat, s.here)] })) ∧
      (r.st = .done ∨ (r.st = .run ∧ r.replay = true) → Traps (.ivpost o) s (trapOf cENGINE 0))) ∧
    (∀ o : IvRead, pred0 s o.p = true → Machine.getS s o.a = h → vopOk s o.d = true → ∃ t v, exec (.ivread o) s = .next t ∧
      WroteVD u t (resolveV s o.d) v ∧
      let rec_ := fun (i : Nat) => match x.recs[i]? with
        | some a => a.toNat
        | none => 0x7FC00000 * (2 ^ 32 + 1)
      v.toNat = rec_ (Machine.getS s o.b).toNat + 2 ^ 256 * rec_ ((Machine.getS s o.b).toNat + 1)) ∧
    (∀ o : IvStat, pred0 s o.p = true → Machine.getS s o.a = h → ∃ t, exec (.ivstat o) s = .next t ∧ WroteS u t o.d
      (BitVec.ofNat 64 (if o.sel then x.front.toNat + x.ivstop.toNat * 2 ^ 32
        else x.dup + x.late * 2 ^ 12 + x.arrivals * 2 ^ 24 + x.reject * 2 ^ 40 + x.merges * 2 ^ 48 + x.recs.length * 2 ^ 58 + bit x.opq * 2 ^ 63)))) ∧
  (∀ (o : HitQ) (s : State) (p : VDst × VDst), pred0 s o.p = true → pairE s o.d = .ok p →
    (∀ k e x, s.th.hit = some (k, e) → amFind (getClu s k).hitbuf e = some x →
      ∃ u t, exec (.hitq o) s = .next t ∧ WroteVD s u p.1 x.d0 ∧ WroteVD u t p.2 x.d1) ∧
    (s.th.hit = none → Traps (.hitq o) s (trapOf cENGINE 0))) ∧
  (∀ (o : SA3) (s : State), pred0 s o.p = true →
    let base := Machine.getS s o.a
    let us := (Machine.getS s o.b).toNat
    let rs := (Machine.getS s o.c).toNat
    let bound := (vw s).lpb ≠ 0 ∧ myLid s ≠ 0
    let sizes := us % 64 = 0 ∧ rs % 64 = 0 ∧ 64 ≤ rs ∧ 64 + rs ≤ us
    let log := (getLaunch s (myCtx s) (myLid s)).log
    let same := log = none ∨ log = some (base, Machine.getS s o.b, Machine.getS s o.c)
    (base.toNat % 64 ≠ 0 → Traps (.logset o) s (trapOf cMISALIGN base)) ∧
    (base.toNat % 64 = 0 → ¬ (bound ∧ sizes ∧ same) → Traps (.logset o) s (trapOf cENGINE 0)) ∧
    (base.toNat % 64 = 0 → bound → sizes → same → ∃ t, exec (.logset o) s = .next t ∧ t = { s with ctxs := t.ctxs } ∧
      (getLaunch t (myCtx s) (myLid s)).log = some (base, Machine.getS s o.b, Machine.getS s o.c))) ∧
  (∀ o : SA1, Skips (.raytrace o) o.p ∧ Skips (.replay o) o.p ∧ Skips (.ivclr o) o.p) ∧ (∀ o : RayOpen, Skips (.rayopen o) o.p) ∧
  (∀ o : RayWait, Skips (.raywait o) o.p) ∧ (∀ o : HitQ, Skips (.hitq o) o.p) ∧ (∀ o : SA3, Skips (.logset o) o.p) ∧
  (∀ o : IvPost, Skips (.ivpost o) o.p) ∧ (∀ o : IvRead, Skips (.ivread o) o.p) ∧ (∀ o : IvStat, Skips (.ivstat o) o.p)

/-- In every state in which a ray runs and its current microword has the operation: the register microwords write their result into word D, cmp sets Z and N, rayw and nbw read the ray and the node, front compares with the frontier, push, pop and child act on the node stack and the child list, call and ret on the return stack, done ends traversal; fetch reads a node of 128 bytes in range and counts it, and ends traversal out of range; box makes the child list of the node; the leaf microwords test their records, one in each turn, whose answers arrive, and end traversal out of range. A ray of an image then continues at ALT where the condition holds and at NEXT where not, and ends when its list is opaque. 4,096 microwords without a fetch or test end traversal by the watchdog. (R197, R201, R202, R205, R206, R208, R210, R214, R226) -/
def Obligations.MicrowordsActOnTheRayWords : Prop :=
  (∀ (s : State) (k n : Nat), let r := getRay s k n
    let m := curMw r
    let A := wOf r m.a
    let B := wOf r m.b
    rayRuns s r = true → r.wd < 4096 →
    let goes := fun (i : Instr) (op : Nat) (q : Ray) => m.op = op → exec i s = .next (putRay s k n (mwDone m none q))
    goes (.rigNop k n) 1 r ∧ goes (.rigLdi k n) 2 (wPut r m.d m.imm) ∧ goes (.rigMov k n) 3 (wPut r m.d A) ∧
    goes (.rigAdd k n) 4 (wPut r m.d (A + B)) ∧ goes (.rigSub k n) 5 (wPut r m.d (A - B)) ∧ goes (.rigAnd k n) 6 (wPut r m.d (A &&& B)) ∧
    goes (.rigOr k n) 7 (wPut r m.d (A ||| B)) ∧ goes (.rigShl k n) 8 (wPut r m.d (A <<< (m.imm.toNat % 64))) ∧
    goes (.rigShr k n) 9 (wPut r m.d (A >>> (m.imm.toNat % 64))) ∧
    goes (.rigCmp k n) 10 { r with fz := decide (A = B), fn := decide (A.toNat < B.toNat) } ∧
    goes (.rigRayw k n) 11 (wPut r m.d (raywField k n r m.imm.toNat)) ∧
    goes (.rigNbw k n) 13 (wPut r m.d (BitVec.ofNat 64 (r.node.toNat / 2 ^ (64 * (m.imm.toNat % 16))))) ∧
    goes (.rigFront k n) 18 { r with ff := r.opq || lt32 r.front.toNat (A.toNat / 2 ^ 32) } ∧
    (∀ l, r.rig = .image l →
      goes (.rigPush k n) 16 (if r.stack.length < 96 then { r with stack := (A, B) :: r.stack } else endTrav r (some 5)) ∧
      (r.children = [] → goes (.rigChild k n) 15 { r with fm := true }) ∧
      (∀ c rest, r.children = c :: rest → goes (.rigChild k n) 15 { wPut (wPut r m.d c.addr) m.b (childWord c) with
        children := rest, tin := c.tin, tout := c.tout, fm := false })) ∧
    (r.stack = [] → goes (.rigPop k n) 17 { r with fe := true }) ∧
    (∀ e rest, r.stack = e :: rest → goes (.rigPop k n) 17 (wPut (wPut { r with fe := false, stack := rest } m.d e.1) m.b e.2)) ∧
    (m.op = 22 → exec (.rigCall k n) s = .next (putRay s k n
      (if r.rstack.length < 8 then mwDone m none { r with rstack := m.next :: r.rstack } else endTrav r (some 8)))) ∧
    (m.op = 23 → exec (.rigRet k n) s = .next (putRay s k n (match r.rstack with
      | [] => endTrav r (some 8)
      | x :: rest => mwDone m (some x) { r with rstack := rest }))) ∧
    (m.op = 24 → ∃ t, exec (.rigDone k n) s = .next t ∧ (getRay t k n).ended = true ∧ (getRay t k n).stat = r.stat) ∧
    (m.op = 14 → ∃ t, exec (.rigBox k n) s = .next t ∧ (getRay t k n).children = boxTest r r.node ∧
      (getRay t k n).fm = (boxTest r r.node).isEmpty) ∧
    (m.op = 12 → (inRange r A.toNat 128 128 = false → ∃ t, exec (.rigFetch k n) s = .next t ∧ (getRay t k n).ended = true ∧
        bitOf (getRay t k n).stat.toNat 4 = true ∧ t.mem = s.mem) ∧
      (inRange r A.toNat 128 128 = true → (∀ x u, rayRead s k n A.toNat 128 = .ok (x, u) → ∃ t, exec (.rigFetch k n) s = .next t ∧
          (getRay t k n).node = BitVec.ofNat 1024 x ∧ (getRay t k n).nodes = min (r.nodes + 1) (2 ^ 24 - 1)) ∧
        (∀ u, rayRead s k n A.toNat 128 = .error u → exec (.rigFetch k n) s = .next u))) ∧
    (∀ (i : Instr) (f : Nat → Option Answer) (size : Nat),
      (m.op = 19 ∧ i = .rigTri k n ∧ f = triRecord r ∧ size = leafBytes r.fp64 1) ∨
      (m.op = 20 ∧ i = .rigSplat k n ∧ f = splatRecord r ∧ size = leafBytes r.fp64 2) →
      (r.leafDone = 0 → r.cells = [] → inRange r A.toNat size size = false → ∃ t, exec i s = .next t ∧ (getRay t k n).ended = true ∧
        bitOf (getRay t k n).stat.toNat 4 = true) ∧
      (r.leafDone = 0 → r.cells = [] → B.toNat / 4 % 16 = 0 → inRange r A.toNat size size = true → ∀ x u, rayRead s k n A.toNat size = .ok (x, u) →
        ∃ t, exec i s = .next t ∧ (f x = none → (getRay t k n).recs = r.recs ∧ (getRay t k n).arrivals = r.arrivals) ∧
          (∀ a, f x = some a → (getRay t k n).recs = (arrive r a).1.recs ∧ (getRay t k n).arrivals = (arrive r a).1.arrivals)) ∧
      (r.cells = [] → r.leafDone < B.toNat / 4 % 16 → inRange r (A.toNat + size * r.leafDone) size size = true →
        ∀ x u, rayRead s k n (A.toNat + size * r.leafDone) size = .ok (x, u) →
        ∃ t, exec i s = .next t ∧ (getRay t k n).leafDone = r.leafDone + 1 ∧ (f x = none → (getRay t k n).recs = r.recs) ∧
          ∀ a, f x = some a → (getRay t k n).recs = (arrive r a).1.recs)) ∧
    (m.op = 21 → r.leafDone = 0 → r.cells = [] → B.toNat / 4 % 16 = 0 → ∀ x u, inRange r A.toNat 64 64 = true → rayRead s k n A.toNat 64 = .ok (x, u) →
      ∃ t, exec (.rigLeaf k n) s = .next t ∧ (3 ≤ x / 2 ^ 504 % 256 → (getRay t k n).drop = min (r.drop + 1) 255) ∧
        (x / 2 ^ 504 % 256 = 1 ∨ x / 2 ^ 504 % 256 = 2 → (transReg u r.ctx k 0x806 (getCtx s r.ctx).hitcnt).toNat ≤ x % 2 ^ 32 →
          (getRay t k n).drop = min (r.drop + 1) 255))) ∧
  (∀ (m : Mw) (r : Ray) (l : List (BitVec 128)), r.ended = false → r.rig = .image l →
    let holds := m.cond = 1 ∨ (m.cond = 2 ∧ r.fz = true) ∨ (m.cond = 3 ∧ r.fz = false) ∨ (m.cond = 4 ∧ r.fn = true) ∨
      (m.cond = 5 ∧ r.fn = false) ∨ (m.cond = 6 ∧ r.fm = true) ∨ (m.cond = 7 ∧ r.fm = false) ∨ (m.cond = 8 ∧ r.fe = true) ∨
      (m.cond = 9 ∧ r.fe = false) ∨ (m.cond = 10 ∧ r.ff = true) ∨ (m.cond = 11 ∧ r.ff = false)
    (holds → (mwDone m none r).upc = m.alt) ∧ (¬ holds → (mwDone m none r).upc = m.next) ∧
    (r.opq = true → (mwDone m none r).ended = true ∧ (mwDone m none r).stat = r.stat ||| 8#9) ∧
    (r.opq = false → (mwDone m none r).ended = false)) ∧
  (∀ (s : State) (k n : Nat), rayRuns s (getRay s k n) = true → 4096 ≤ (getRay s k n).wd → ∃ t, exec (.microwordWatchdog k n) s = .next t ∧
    (getRay t k n).ended = true ∧ (getRay t k n).stat = (getRay s k n).stat ||| 256#9)

/-- For every ray and answer: an arrival advances the arrival count and ARRIVALS, saturating; a list of at most K records keeps at most K; an opaque list stays opaque; the frontier never moves later; a rejected answer, and a late one by R220, is counted and leaves the records, the frontier and OPAQUE as they are, and so does a duplicate. In every state: LIST_ARRIVAL takes the oldest queued answer of an OPEN or RUN ray; HIT_TASK_PUSH pushes the record of the waiting hit task with its priority, code and frame and counts it; RAY_DONE of a ray without log whose traversal has ended and that has no hit task outstanding lets its queued answers arrive, and puts the slot into DONE with the bit set. (R197, R208, R209, R218, R219, R220, R221, R224, R225, R230) -/
def Obligations.ListsKeepTheirContract : Prop :=
  (∀ (r : Ray) (a : Answer), let x := (arrive r a).1
    x.arrivals = min (r.arrivals + 1) 65535 ∧ x.arrCount = r.arrCount + 1 ∧
    (r.recs.length ≤ rayK r → x.recs.length ≤ rayK r) ∧ (r.opq = true → x.opq = true) ∧
    (isNan32 r.front.toNat = false → lt32 r.front.toNat x.front.toNat = false) ∧
    (x.reject ≠ r.reject ∨ x.dup ≠ r.dup → x.recs = r.recs ∧ x.front = r.front ∧ x.opq = r.opq) ∧
    let y : Iv := { ivOf a with t0 := plus32 (ivOf a).t0, t1 := plus32 (ivOf a).t1, q := plus32 (ivOf a).q }
    let late := if y.surf then lt32 y.t0 (rayTmin r r.fp64) || lt32 (rayTmax r r.fp64) y.t0 || le32 r.front.toNat y.t0
      else le32 (min32 (min32 y.t1 (rayTmax r r.fp64)) r.front.toNat) (max32 y.t0 (rayTmin r r.fp64))
    (ivRejected y = true → x.reject = min (r.reject + 1) 255 ∧ x.late = r.late ∧ x.dup = r.dup ∧ x.recs = r.recs ∧ x.front = r.front ∧ x.opq = r.opq) ∧
    (ivRejected y = false → late = true → x.late = min (r.late + 1) 4095 ∧ x.reject = r.reject ∧ x.dup = r.dup ∧ x.recs = r.recs ∧
      x.front = r.front ∧ x.opq = r.opq)) ∧
  (∀ (s : State) (k n : Nat) (a : Answer) (g : Nat) (rest : List (Answer × Nat)), let r := getRay s k n
    r.queue = (a, g) :: rest → r.fault = none → r.st = .open_ ∨ r.st = .run → ∃ t, exec (.listArrival k n) s = .next t ∧
      (getRay t k n).queue = rest ∧ (getRay t k n).recs = (arrive { r with queue := rest } a).1.recs ∧
      (getRay t k n).front = (arrive { r with queue := rest } a).1.front ∧ (getRay t k n).opq = (arrive { r with queue := rest } a).1.opq ∧
      (getRay t k n).arrivals = min (r.arrivals + 1) 65535) ∧
  (∀ (s : State) (k n : Nat) (r : Ray) (h : HitWait) (l : List (Nat × Ray)), (getClu s k).rays = (n, r) :: l → r.hitWait = some h → r.fault = none →
    r.parked = false → engineRuns s r.ctx = true → (getClu s k).hitbuf = [] → ∃ e u, u = { s with clusters := u.clusters } ∧
      amFind (getClu u k).hitbuf 0 = some e ∧ e.slot = n ∧ e.ctx = r.ctx ∧ e.d0 = r.d0 ∧ lane64 e.d1 0 = handleOf k n r ∧
      lane64 e.d1 1 = h.recAddr ∧ (getRay u k n).outstanding = r.outstanding + 1 ∧ (getRay u k n).hits = min (r.hits + 1) 65535 ∧
      (getRay u k n).hitWait = none ∧
      ∀ t, pushRec u k r.ctx (mkRec h.code h.frame 0 r.hunit false h.prio true true r.hlid) = some t → exec (.hitTaskPush k) s = .next t) ∧
  (∀ (s : State) (k n : Nat), let r := getRay s k n
    r.st = .run → r.parked = false → r.fault = none → engineRuns s r.ctx = true → r.replay = false → r.ended = true → r.outstanding = 0 →
    r.hitWait = none → r.log = none → r.pend = [] → r.lid = 0 ∨ (getLaunch s r.ctx r.lid).log = none → ∃ t, exec (.rayDone k n) s = .next t ∧ (getRay t k n).st = .done ∧
      bitOf (getRay t k n).stat.toNat 0 = true ∧ (getRay t k n).queue = [] ∧ t.mem = s.mem ∧
      (r.queue = [] → (getRay t k n).recs = r.recs ∧ (getRay t k n).stat = r.stat ||| 1#9))

/-- In every state with bit 0 of the predicate set: in user mode each of them traps ILLEGAL. In supervisor mode a context number above 255 traps ENGINE and one of another partition PERM; tlbinv, once the thread set's own stores are acknowledged, removes the entries of the context (or of the page) and its walks from every TLB of the partition, and once no access that was translated before is left, but those that a faulted matrix command holds, which are abandoned for retranslation, it writes the number of clusters; ctxsv of an area that passes its checks begins the drain, and once the context is drained writes the number of cores saved, unbinds them and advances SAVGEN; ctxrs of the matching area binds the kept cores again once each cluster has a ring set for them, each with the record that the area holds, and lets the answers that came meanwhile take effect; rgload selects a standard rigging or installs a valid image with its measurement, or writes the failing index; mtsp writes the register it names, or nothing when the value breaks the register's rules; a write of fres gives its answer. A cluster takes new translation registers by its event, and an ffbase write clears HA. When bit 0 is clear, nothing changes. PERM of tlbinv for a number that no context has and the discard of mtsp for a context of another partition are the model's choices (log 76), and so are the reserved bits of dbgctl and dsel that a write leaves 0 (log 54). (R123, R124, R200, R313, R353, R354, R361, R365, R370, R371, R384, R385) -/
def Obligations.PrivilegedFormsCheckTheModeAndAct : Prop :=
  (∀ s : State, supMode s = false →
    (∀ o : TlbInv, pred0 s o.p = true → Traps (.tlbinv o) s (trapOf cILLEGAL 0)) ∧
    (∀ o : S4, pred0 s o.p = true → Traps (.ctxsv o) s (trapOf cILLEGAL 0) ∧ Traps (.rgload o) s (trapOf cILLEGAL 0)) ∧
    (∀ o : S3, pred0 s o.p = true → Traps (.ctxrs o) s (trapOf cILLEGAL 0)) ∧
    (∀ o : MtsO, pred0 s o.p = true → Traps (.mtsp o) s (trapOf cILLEGAL 0))) ∧
  (∀ (o : TlbInv) (s : State), pred0 s o.p = true → supMode s = true →
    let ctx := (Machine.getS s o.a).toNat
    let mine := (getCtx s ctx).created = true ∧ (getCtx s ctx).part = myPart s
    let ks := rectClusters (getPart s (myPart s))
    let u := dropTlb s ks ctx o.all (Machine.getS s o.b).toNat
    let count := BitVec.ofNat 64 ks.length
    (256 ≤ ctx → Traps (.tlbinv o) s (trapOf cENGINE 0)) ∧ (ctx < 256 → ¬ mine → Traps (.tlbinv o) s (trapOf cPERM 0)) ∧
    (ctx < 256 → mine → s.th.stage ≠ 1 →
      (storesAcked s = false → exec (.tlbinv o) s = .next (stalled s)) ∧
      (storesAcked s = true → translatedPending u ctx = true → exec (.tlbinv o) s = .next { u with th := { u.th with stage := 1, res := .begun } }) ∧
      (storesAcked s = true → translatedPending u ctx = false → ∃ t, exec (.tlbinv o) s = .next t ∧ WroteS (abandonHeld u ctx) t o.d count)) ∧
    (ctx < 256 → mine → s.th.stage = 1 →
      (translatedPending s ctx = true → exec (.tlbinv o) s = .next (stalled s)) ∧
      (translatedPending s ctx = false → ∃ t, exec (.tlbinv o) s = .next t ∧ let v := abandonHeld s ctx
        WroteS { v with th := { v.th with stage := 0 } } t o.d count))) ∧
  (∀ (s : State) (ctx g : Nat), let u := abandonHeld s ctx
    u = { s with th := u.th, core := u.core, cores := u.cores } ∧
    (coreNo g ∉ coresOf s ctx → threadAt u g = threadAt s g) ∧
    (coreNo g ∈ coresOf s ctx → let n := freeC s g
      threadAt u g = { threadAt s g with
        creqs := (threadAt s g).creqs.take n ++ ((threadAt s g).creqs.drop n).map (fun q => { q with stale := !q.pool }),
        ureqs := (threadAt s g).ureqs.map fun q => { q with stale := q.stale || faultHeld s g q.behind } })) ∧
  (∀ (s : State) (ks : List Nat) (ctx : Nat) (all : Bool) (va : Nat), let u := dropTlb s ks ctx all va
    let keep := fun (e : TlbEntry) => !invalidated ctx all va e
    u = { s with core := u.core, cores := u.cores, clusters := u.clusters } ∧
    (∀ k, getClu u k = { getClu s k with tlb := if k ∈ ks then (getClu s k).tlb.filter keep else (getClu s k).tlb,
                                         walks := if k ∈ ks then (getClu s k).walks.filter (fun w => w.1 != ctx) else (getClu s k).walks }) ∧
    ∀ c, getCore u c = { getCore s c with tlb := if cluOf c ∈ ks then (getCore s c).tlb.filter keep else (getCore s c).tlb }) ∧
  (∀ (o : S4) (s : State), pred0 s o.p = true → supMode s = true →
    let ctx := (Machine.getS s o.a).toNat
    let base := Machine.getS s o.b
    let n := (coresOf s ctx).length
    (256 ≤ ctx → Traps (.ctxsv o) s (trapOf cENGINE 0)) ∧
    (ctx < 256 → (getCtx s ctx).created = true → (getCtx s ctx).part ≠ myPart s → Traps (.ctxsv o) s (trapOf cPERM 0)) ∧
    (ctx < 256 → (getCtx s ctx).created = true → (getCtx s ctx).part = myPart s → ctx = myCtx s ∨ (getCtx s ctx).saved ≠ none →
      Traps (.ctxsv o) s (trapOf cENGINE 0)) ∧
    (ctx < 256 → (getCtx s ctx).created = false → Traps (.ctxsv o) s (trapOf cENGINE 0)) ∧
    (ctx < 256 → (getCtx s ctx).created = true → (getCtx s ctx).part = myPart s → ctx ≠ myCtx s → (getCtx s ctx).saved = none →
    (base.toNat % 4096 ≠ 0 → Traps (.ctxsv o) s (trapOf cMISALIGN base)) ∧
    (base.toNat % 4096 = 0 → areaIn s (myPart s) base.toNat (Machine.getS s o.c).toNat = false → Traps (.ctxsv o) s (trapOf cPERM base)) ∧
    (base.toNat % 4096 = 0 → areaIn s (myPart s) base.toNat (Machine.getS s o.c).toNat = true →
      ((Machine.getS s o.c).toNat < 8192 + 1048576 * n → Traps (.ctxsv o) s (trapOf cENGINE 0)) ∧
      (8192 + 1048576 * n ≤ (Machine.getS s o.c).toNat → drained s ctx = false → (getCtx s ctx).draining = false → castleOf s ctx = false →
        ∃ t, exec (.ctxsv o) s = .next t ∧ (getCtx t ctx).draining = true ∧ t.th.res = .begun) ∧
      (8192 + 1048576 * n ≤ (Machine.getS s o.c).toNat → drained s ctx = true → ∃ t v, exec (.ctxsv o) s = .next t ∧
        WroteS v t o.d (BitVec.ofNat 64 n) ∧ (getCtx v ctx).savgen = (getCtx s ctx).savgen + 1 ∧
        (getCtx v ctx).saved = some ((coresOf s ctx).map (keptCore s)) ∧ ∀ c ∈ coresOf s ctx, (getCore v c).ctx = none)))) ∧
  (∀ (o : S3) (s : State) (kept : List (Nat × CoreSt)), pred0 s o.p = true → supMode s = true →
    let ctx := (Machine.getS s o.a).toNat
    let base := (Machine.getS s o.b).toNat
    let w := (areaRead s ctx base 8192).1
    ctx < 256 → (getCtx s ctx).created = true → (getCtx s ctx).part = myPart s → (getCtx s ctx).saved = some kept → base % 4096 = 0 →
    areaIn s (myPart s) base (8192 + 1048576 * kept.length) = true →
    let good := w % 2 ^ 64 = ctx ∧ w / 2 ^ 64 % 2 ^ 64 = (getCtx s ctx).savgen.toNat ∧ w / 2 ^ 128 % 2 ^ 64 = kept.length ∧
      (List.range kept.length).map (fun i => w / 2 ^ (512 + 16 * i) % 2 ^ 16) = kept.map (·.1) ∧ ∀ e ∈ kept, (getCore s e.1).ctx = none
    (¬ good → Traps (.ctxrs o) s (trapOf cENGINE 0)) ∧
    (good → (∃ e ∈ kept, ringsFree s (cluOf e.1) ctx = false) → exec (.ctxrs o) s = .next (stalled s)) ∧
    (good → (∀ e ∈ kept, ringsFree s (cluOf e.1) ctx = true) → ∃ t v, exec (.ctxrs o) s = .next (answerAll ctx t) ∧ WroteS v t o.d (BitVec.ofNat 64 kept.length) ∧ (getCtx v ctx).saved = none ∧
      (getCtx v ctx).draining = false ∧ ((kept.map (·.1)).Nodup → ∀ e ∈ kept, (getCore v e.1).ctx = e.2.ctx ∧
        ∃ x, (getCore v e.1).pool = (loadCore x e.2).pool ∧ (getCore v e.1).q = (loadCore x e.2).q ∧
          ∀ i : Fin 4, (threadAt v (4 * e.1 + i)).rf = ((loadCore x e.2).threads[i]).rf))) ∧
  (∀ (s : State) (ctx : Nat), (getCtx s ctx).answers = [] → (∀ c, getCtx (answerAll ctx s) c = getCtx s c) ∧
    (answerAll ctx s).th = s.th ∧ (answerAll ctx s).core = s.core ∧ (answerAll ctx s).cores = s.cores) ∧
  (∀ (o : S4) (s : State), pred0 s o.p = true → supMode s = true →
    let ctx := (Machine.getS s o.c).toNat
    let a := Machine.getS s o.a
    let n := (Machine.getS s o.b).toNat
    let measured := fun (rig : Rig) (bytes : List Byte) (u : State) => (getCtx u ctx).rig = rig ∧
      (getCtx u ctx).rm = BitVec.ofNat 256 (ofBytes (sha256 (toBytes 32 (getCtx s ctx).rm.toNat ++ sha256 bytes)))
    (256 ≤ ctx → Traps (.rgload o) s (trapOf cENGINE 0)) ∧
    (ctx < 256 → (getCtx s ctx).created = true → (getCtx s ctx).part ≠ myPart s → Traps (.rgload o) s (trapOf cPERM 0)) ∧
    (ctx < 256 → (getCtx s ctx).created = false → Traps (.rgload o) s (trapOf cENGINE 0)) ∧
    (ctx < 256 → (getCtx s ctx).created = true → (getCtx s ctx).part = myPart s →
      (a = 0 → n ≤ 1 → ∃ t u, exec (.rgload o) s = .next t ∧ u = { s with ctxs := u.ctxs } ∧
        measured (.std (n == 1)) [BitVec.ofNat 8 n] u ∧ WroteS u t o.d 0) ∧
      ((a = 0 ∧ 1 < n) ∨ (a ≠ 0 ∧ a.toNat % 16 = 0 ∧ (n = 0 ∨ 1024 < n)) →
        ∃ t, exec (.rgload o) s = .next t ∧ WroteS s t o.d (BitVec.ofNat 64 (2 ^ 63 + 1024))) ∧
      (a ≠ 0 → a.toNat % 16 ≠ 0 → Traps (.rgload o) s (trapAcc cMISALIGN a (accWord .T false false 16))) ∧
      (a ≠ 0 → a.toNat % 16 = 0 → 0 < n → n ≤ 1024 → ∀ l v, readImage a n s = .ok (l, v) →
        (∀ i < n, mwOk n i (l.getD i 0) = false → (∀ j < i, mwOk n j (l.getD j 0) = true) →
          ∃ t, exec (.rgload o) s = .next t ∧ WroteS v t o.d (BitVec.ofNat 64 (2 ^ 63 + i))) ∧
        ((∀ i < n, mwOk n i (l.getD i 0) = true) → ∃ t u, exec (.rgload o) s = .next t ∧ u = { v with ctxs := u.ctxs } ∧
          (getCtx u ctx).rig = .image l ∧ WroteS u t o.d 0)))) ∧
  (∀ (o : MtsO) (s : State), pred0 s o.p = true → supMode s = true →
    let v := Machine.getS s o.a
    let ctx := s.th.csel
    let mine := (getCtx s ctx).part = myPart s
    let goes := fun (c : Context) => ∃ t, exec (.mtsp o) s = .next t ∧ t = { s with ctxs := t.ctxs } ∧ getCtx t ctx = c
    (mtspWrites o.num.toNat = false → Traps (.mtsp o) s (trapOf cILLEGAL 0)) ∧
    (o.num = 0x800 → (let c := v.toNat % 256
      ((getCtx s c).created = true ∧ (getCtx s c).part = myPart s → exec (.mtsp o) s = .next { s with th := { s.th with csel := c } }) ∧
      (¬ ((getCtx s c).created = true ∧ (getCtx s c).part = myPart s) → Traps (.mtsp o) s (trapOf cPERM 0)))) ∧
    (mtspWrites o.num.toNat = true → o.num ≠ 0x800 → ¬ mine → exec (.mtsp o) s = .next s) ∧
    (mine → o.num = 0x840 → goes { getCtx s ctx with dbgctl := v &&& 0x1FF01 }) ∧
    (mine → o.num = 0x841 → goes { getCtx s ctx with dsel := v &&& 0xFFFF8BFFF }) ∧
    (mine → o.num = 0x848 → let fid := BitVec.ofNat 64 (fieldOf v 0 40)
      let names := fieldOf v 40 22 = 0 ∧ fieldOf v 32 8 = ctx ∧ ∃ w ∈ s.waiting, w.fid = fid
      (¬ names → exec (.mtsp o) s = .next s) ∧ (names → storesAcked s = false → exec (.mtsp o) s = .next (stalled s)) ∧
      (names → storesAcked s = true → exec (.mtsp o) s = exec (if fieldOf v 62 2 = 0 then .fresRetry fid
        else if fieldOf v 62 2 = 1 then .fresAbort fid else .fresDiscard fid) s)) ∧
    (mine → 0x801 ≤ o.num.toNat → o.num.toNat ≤ 0x806 → s.th.stage ≠ 1 →
      (transOk o.num.toNat v = false → exec (.mtsp o) s = .next s) ∧
      (transOk o.num.toNat v = true → amFind (getCtx s ctx).transOld o.num.toNat ≠ none → exec (.mtsp o) s = .next (stalled s)) ∧
      (transOk o.num.toNat v = true → amFind (getCtx s ctx).transOld o.num.toNat = none →
        rectClusters (getPart s (getCtx s ctx).part) ≠ [] → ∃ t, exec (.mtsp o) s = .next t ∧ t.th.stage = 1 ∧ t.th.res = .begun ∧
          getCtx t ctx = { transPut (getCtx s ctx) o.num.toNat v with
            transOld := amSet (getCtx s ctx).transOld o.num.toNat (transGet (getCtx s ctx) o.num.toNat, []) })) ∧
    (mine → 0x801 ≤ o.num.toNat → o.num.toNat ≤ 0x806 → s.th.stage = 1 → amFind (getCtx s ctx).transOld o.num.toNat = none →
      exec (.mtsp o) s = .next { s with th := { s.th with stage := 0 } })) ∧
  (∀ (s : State) (ctx k num : Nat) (old : W64) (done : List Nat), k ∈ rectClusters (getPart s (getCtx s ctx).part) →
    (getCtx s ctx).transOld = [(num, old, done)] → k ∉ done → ∃ t, exec (.translationRegisterWrite ctx k) s = .next t ∧
      t = { s with ctxs := t.ctxs } ∧ (getCtx t ctx).transOld =
        if (rectClusters (getPart s (getCtx s ctx).part)).all (done ++ [k]).contains then [] else [(num, old, done ++ [k])]) ∧
  (∀ (s : State) (v : W64), ∃ t, exec (.ffbaseWrite s.here v) s = .next t ∧ OnlyRf s t ∧ haBit t.th.rf = false ∧
    t.th.rf.ffbase = (if ffbaseOk s.core v.toNat then v else s.th.rf.ffbase)) ∧
  (∀ o : TlbInv, Skips (.tlbinv o) o.p) ∧ (∀ o : S4, Skips (.ctxsv o) o.p ∧ Skips (.rgload o) o.p) ∧ (∀ o : S3, Skips (.ctxrs o) o.p) ∧
  (∀ o : MtsO, Skips (.mtsp o) o.p)

/-- In every state: a retry of a waiting fault of a blocked thread set lets it run again, and an abort or discard takes the original cause as a trap there; for a thread set that no longer waits, a notice goes to its core; a retry of a matrix command or a ray clears its fault; while the context is drained or saved an answer waits for the restore. DCMD_HALT halts a running or blocked thread set at its next instruction, once its own accesses are performed and no chosen castle has its core, DCMD_RESUME and DCMD_STEP let a halted or stopped one run, a halted one after an acquire, and DDATA_WRITE writes the field of its block at the offset. CONTEXT_DRAIN begins a drain. ENGINE_FAULT records the fault that a started command meets. A correctable error only counts, a scrub changes nothing, and an uncorrectable error drops the L1 line or TLB entry, or ends the owner: a context that ends is no longer created, its cores are unbound, its keys are gone, and its supervisor is told; an error of a clean slice sector changes nothing. What a halt waits for is log 54, what a context's end drops log 55, that a device reset keeps the memories log 56, and that MSI-X 1 goes with the record of an end log 76: these are the model's choices. (R293, R380, R381, R383, R385, R388, R389, R390, R391, R393, R396, R408) -/
def Obligations.FaultAnswersDebugAndErrors : Prop :=
  (∀ (s : State) (w : Waiting), s.waiting.find? (fun x => x.fid == w.fid) = some w →
    let u := { s with waiting := s.waiting.filter fun x => x.fid != w.fid }
    (getCtx s (fieldOf w.fid 32 8)).draining = false →
    (fieldOf w.fid 16 3 = 0 → ∀ f, (threadAt s w.g).fault = some f →
      (f.fid = w.fid → (threadAt s w.g).st = .blocked → ∃ t, exec (.fresRetry w.fid) s = .next t ∧
        threadAt t w.g = { threadAt s w.g with fault := none, st := workState (threadAt s w.g) } ∧ t.waiting = u.waiting ∧ t.mem = s.mem) ∧
      (f.fid = w.fid → w.g = s.here → ∀ i, i = .fresAbort w.fid ∨ i = .fresDiscard w.fid →
        exec i s = .next (takeTrap { u with th := { unblock s.th with ipc := s.th.pc, slot1 := s.th.solo, inPair := false } }
          { trapAcc w.cause w.va w.acc with xfer := s.th.xfer })) ∧
      (f.fid ≠ w.fid → exec (.fresRetry w.fid) s = .next (sendNotice u w 0) ∧ exec (.fresAbort w.fid) s = .next (sendNotice u w w.cause) ∧
        exec (.fresDiscard w.fid) s = .next (sendNotice u w w.cause))) ∧
    (fieldOf w.fid 16 3 = 0 → (threadAt s w.g).fault = none → exec (.fresRetry w.fid) s = .next (sendNotice u w 0)) ∧
    (fieldOf w.fid 16 3 = 3 → ∀ core c, faultedCmd u w = some (core, c) → ∃ t, exec (.fresRetry w.fid) s = .next t ∧
      (getCore t core).mq = (getCore s core).mq.map fun e => if e.num = c.num then { c with fault := none } else e) ∧
    (fieldOf w.fid 16 3 = 4 → ∀ k n, faultedRay u w.fid = some (k, n) → (getRay s k n).pend = [] → (getRay s k n).lid = 0 →
      exec (.fresRetry w.fid) s = .next (putRay u k n { getRay s k n with fault := none }))) ∧
  (∀ (s : State) (w : Waiting) (i : Instr) (act : Nat), w ∈ s.waiting →
    (i = .fresRetry w.fid ∧ act = 0) ∨ (i = .fresAbort w.fid ∧ act = 1) ∨ (i = .fresDiscard w.fid ∧ act = 2) →
    let ctx := fieldOf w.fid 32 8
    (getCtx s ctx).draining = true → (∀ a ∈ (getCtx s ctx).answers, a.1 ≠ w.fid) →
    exec i s = .next (setCtx s ctx { getCtx s ctx with answers := (getCtx s ctx).answers ++ [(w.fid, act)] })) ∧
  (∀ (s : State) (g : Nat), let st := (threadAt s g).st
    (st = .task ∨ st = .activation ∨ st = .blocked → (threadAt s g).ending = false → (threadAt s g).halting = false →
      ∃ t, exec (.dcmdHalt g) s = .next t ∧ (haltReady (focus s g) = true → (threadAt t g).st = .halted) ∧
      (haltReady (focus s g) = false → (threadAt t g).halting = true ∧ (threadAt t g).st = st) ∧ (threadAt t g).pc = (threadAt s g).pc ∧ t.here = s.here) ∧
    (st = .halted ∨ st = .stopped → (threadAt s g).fault = none → ∃ t u, exec (.dcmdResume g) s = .next t ∧ exec (.dcmdStep g) s = .next u ∧
      (threadAt t g).st = workState (threadAt s g) ∧ (threadAt t g).dstep = false ∧
      (threadAt u g).st = workState (threadAt s g) ∧ (threadAt u g).dstep = true ∧ (threadAt t g).pc = (threadAt s g).pc ∧
      (st = .halted → s.released ≤ (threadAt t g).pts ∧ s.released ≤ (threadAt u g).pts))) ∧
  (∀ (s : State) (v : W64), debuggable s.th = true →
    exec (.ddataWrite s.here false 0 v) s = .next { s with th := { s.th with pc := v } } ∧
    (∀ n : Fin 32, n ≠ 0 → ∃ t, exec (.ddataWrite s.here false (128 + 8 * n.val) v) s = .next t ∧ WroteS s t n v) ∧
    (∀ (n : Fin 32) (k : Fin 8), ∃ t, exec (.ddataWrite s.here false (1024 + 64 * n.val + 8 * k.val) v) s = .next t ∧ OnlyRf s t ∧
      SameButV s.th.rf t.th.rf ∧ (∀ m : Fin 32, m ≠ n → t.th.rf.v[m] = s.th.rf.v[m]) ∧
      ∀ j < 8, lane64 t.th.rf.v[n] j = if j = k.val then v else lane64 s.th.rf.v[n] j) ∧
    (∀ off, off % 8 = 0 → debugPoolOk s.core off = true → ∃ t, exec (.ddataWrite s.here true off v) s = .next t ∧
      PoolStored s t (atAddr off (toBytes 8 v.toNat)))) ∧
  (∀ (s : State) (ctx : Nat), (getCtx s ctx).created = true → (getCtx s ctx).draining = false → castleOf s ctx = false →
    ∃ t, exec (.contextDrain ctx) s = .next t ∧ (getCtx t ctx).draining = true) ∧
  (∀ (s : State) (k id : Nat) (c d : Copy), copyOf s k id = some c → copyRuns s c = true → served s k c = true →
    let u := (moveGroup k (groupLen c - c.elems) c s).2
    copyOf u k id = some d → d.fault ≠ none → exec (.engineFault k id) s = .next u) ∧
  (∀ (s : State) (loc : ErrLoc), exec (.correctableError loc) s = .next { s with corrected := s.corrected + 1 } ∧
    exec (.scrub loc) s = .next s) ∧
  (∀ (s : State) (core addr : Nat), ∃ t, exec (.uncorrectableError (.l1 core addr)) s = .next t ∧
    (getCore t core).l1 = amDel (getCore s core).l1 (addr / 64) ∧ t.mem = s.mem) ∧
  (∀ (s : State) (addr : Nat), bitOf (getLine s (addr / 256)).dirty.toNat (addr / 64 % 4) = false →
    exec (.uncorrectableError (.slice addr)) s = .next s) ∧
  (∀ (s : State) (k va : Nat), ∃ t, exec (.uncorrectableError (.clusterTlb k va)) s = .next t ∧
    (getClu t k).tlb = (getClu s k).tlb.filter fun e => va / 2 ^ e.bits * 2 ^ e.bits != e.va) ∧
  (∀ (s : State) (ctx : Nat), (getCtx s ctx).created = true → ∃ t, exec (.uncorrectableError (.command ctx)) s = .next t ∧
    (getCtx t ctx).created = false ∧ (getCtx t ctx).kvalid = 0 ∧ (getCtx t ctx).launches = [] ∧
    (∀ p ∈ t.packets, p.ctx ≠ ctx) ∧ (∀ w ∈ t.waiting, fieldOf w.fid 32 8 ≠ ctx) ∧
    (getPart t (getCtx s ctx).part).msix = (getPart s (getCtx s ctx).part).msix ++ [1] ∧
    (∀ c ∈ coresOf s ctx, (getCore t c).ctx = none)) ∧
  (∀ s : State, exec (.uncorrectableError .device) s = .next (deviceReset s) ∧ (deviceReset s).host = s.host ∧
    (deviceReset s).boot = State.reset.boot ∧ (deviceReset s).ctxs = [] ∧ (deviceReset s).parts = [])

/-- In every state: a castling control word with a reserved bit, or a LOGLEN outside 16 to 26, is discarded, and another waits for the next swap instant. SWAP_INSTANT of a partition whose next epoch has begun, with no chosen pair left, takes the waiting word, chooses pairs that are partners of the new epoch's pattern, eligible, and lower in cost by more than the threshold, at most an eighth of the partition's cores in all, leaves no such candidate out unless that bound is reached, starts the guard of the chosen pairs, and halves the counters of every resident; else nothing changes. CASTLE of a chosen pair of two cores exchanges their residents, the bytes of the residents' spans and their bound queue registers with their entries, keeps every other pool byte and queue register, records the placements, leaves forwarding entries, and acts as an acquire on both cores. PLACEMENT_UPDATE gives a core the placements and marks its unacknowledged writes to moved instances. FORWARDING_EXPIRY removes the lapsed entries only. That the new word counts before that instant's choice, and the arithmetic of the epoch, are log 57, and the life of a forwarding entry log 58: the model's choices. (R335, R338, R339, R340, R341, R342, R343, R345, R346) -/
def Obligations.CastlesExchangeResidentsOfChosenPairs : Prop :=
  (∀ (s : State) (part : Nat) (w : W64), (getPart s part).created = true →
    ((∃ i, (12 ≤ i ∧ i ≤ 30 ∨ 5 ≤ i ∧ i ≤ 7) ∧ bitOf w.toNat i = true) ∨ cwLog w < 16 ∨ 26 < cwLog w →
      exec (.castlingControlWordWrite part w) s = .next s) ∧
    ((∀ i, (12 ≤ i ∧ i ≤ 30 ∨ 5 ≤ i ∧ i ≤ 7) → bitOf w.toNat i = false) → 16 ≤ cwLog w → cwLog w ≤ 26 →
      exec (.castlingControlWordWrite part w) s = .next (setPart s part { getPart s part with cpending := some w }))) ∧
  (∀ (s : State) (part : Nat),
    let p := getPart s part
    (p.created = true → p.epoch < s.cycle.toNat / 2 ^ cwLog p.cword → p.chosen = [] → ∃ t q, exec (.swapInstant part) s = .next t ∧
      q = getPart t part ∧ t = { s with parts := t.parts, cores := t.cores, core := t.core } ∧ q.cword = p.cpending.getD p.cword ∧
      q.cpending = none ∧ q.epoch = (p.epoch + 1) * 2 ^ cwLog p.cword / 2 ^ cwLog q.cword ∧
      2 * q.chosen.length ≤ (rectClusters p).length ∧
      (let now := { p with cword := q.cword, cpending := none, epoch := q.epoch }
       (∀ x ∈ q.chosen, partner q.epoch x.1 = some x.2 ∧ pairEligible s now x.1 x.2 = true ∧ (x.1, x.2, 3) ∈ q.guard ∧
        (let cost := trafficCost s ((getCore s x.1).ctx.getD 0) x.1 x.2
         cost true + max (cwAbs q.cword) (cost false / 2 ^ cwRel q.cword) < cost false)) ∧
       (∀ a b, cluOf a ∈ rectClusters p → partner q.epoch a = some b → (candidate s now a b).isSome →
        (a, b) ∈ q.chosen ∨ q.chosen.length = (rectClusters p).length / 2)) ∧
      (∀ c, cluOf c ∈ rectClusters p → (getCore t c).resid = (getCore s c).resid.map halved ∧
        (getCore t c).castled = q.chosen.any (fun x => x.1 == c || x.2 == c) ∧ (getCore t c).pool = (getCore s c).pool) ∧
      ∀ c, cluOf c ∉ rectClusters p → getCore t c = getCore s c) ∧
    (p.created = false ∨ s.cycle.toNat / 2 ^ cwLog p.cword ≤ p.epoch ∨ p.chosen ≠ [] → exec (.swapInstant part) s = .next s)) ∧
  (∀ (s : State) (part a b : Nat) (rest : List (Nat × Nat)), (getPart s part).chosen = (a, b) :: rest → a ≠ b →
    ∃ t, exec (.castle part) s = .next t ∧ (getPart t part).chosen = rest ∧ t.mem = s.mem ∧ (∀ c, c ≠ a → c ≠ b → getCore t c = getCore s c) ∧
      (let x := getCore s a
       let y := getCore s b
       let x' := getCore t a
       let y' := getCore t b
       let moved := fun (o : Nat) => ∃ r ∈ x.resid ++ y.resid, r.spanLo ≤ o ∧ o < r.spanLo + r.spanLen
       let qs := residQueues x ++ residQueues y
       let place := (getCtx t (x.ctx.getD 0)).placement
       let key := fun (r : Resident) => instKey r.id
       let fkey := fun (r : Resident) => fwdKey (x.ctx.getD 0) r.id
       x'.resid = y.resid ∧ y'.resid = x.resid ∧
       (∀ o, (moved o → poolByte x'.pool o = poolByte y.pool o ∧ poolByte y'.pool o = poolByte x.pool o) ∧
        (¬ moved o → poolByte x'.pool o = poolByte x.pool o ∧ poolByte y'.pool o = poolByte y.pool o)) ∧
       (∀ i : Fin 8, (i.val ∈ qs → x'.binds[i] = y.binds[i] ∧ y'.binds[i] = x.binds[i] ∧ qOf x' i = qOf y i ∧ qOf y' i = qOf x i) ∧
        (i.val ∉ qs → x'.binds[i] = x.binds[i] ∧ y'.binds[i] = y.binds[i] ∧ qOf x' i = qOf x i ∧ qOf y' i = qOf y i)) ∧
       (∀ r ∈ y.resid, amFind place (key r) = some a ∧ amFind y'.fwd (fkey r) = some (a, 2)) ∧
       (∀ r ∈ x.resid, (∀ z ∈ y.resid, key z ≠ key r) → amFind place (key r) = some b ∧ amFind x'.fwd (fkey r) = some (b, 2)) ∧
       x'.macros = x.macros ∧ y'.macros = y.macros ∧ x'.held = false ∧ y'.held = false ∧
       ∀ i < 4, s.released ≤ (threadAt t (4 * a + i)).pts ∧ s.released ≤ (threadAt t (4 * b + i)).pts)) ∧
  (∀ (s : State) (core ctx : Nat), (getCore s core).ctx = some ctx →
    let place := (getCtx s ctx).placement
    let c := getCore s core
    ((getCore s core).pcache = place → exec (.placementUpdate core) s = .next s) ∧
    (c.pcache ≠ place → ∃ t, exec (.placementUpdate core) s = .next t ∧ getCore t core = { c with pcache := place } ∧
      t.packets.length = s.packets.length ∧ ∀ (i : Nat) (p : Packet), s.packets[i]? = some p → ∃ q : Packet, t.packets[i]? = some q ∧ q = { p with dsts := q.dsts } ∧
        q.dsts.length = p.dsts.length ∧ ∀ (j : Nat) (d : PDst), p.dsts[j]? = some d → ∃ e, q.dsts[j]? = some e ∧ e = { d with old := e.old } ∧
        (e.old = true ↔ d.old = true ∨ ∃ n, d.inst = some n ∧ coreNo p.g = core ∧ cachedPlace c n d.named ≠ amGet d.named place (instKey n)))) ∧
  (∀ (s : State) (core : Nat), ∃ t, exec (.forwardingExpiry core) s = .next t ∧
    t = { s with cores := t.cores, core := t.core } ∧
    getCore t core = { getCore s core with fwd := (getCore s core).fwd.filter fun e => e.2.2 != 0 })

/-- In every state: boot takes its five steps in order, each with its measurements; the third takes the capacity that failed granules leave, the last brings the device up, and one that fails leaves it failed and reports. A partition is created only over free clusters inside the grid, with a supervisor context that is not created yet. A range register takes its fields when the partition may be assigned and the granules lie on one side of the device's map and in no other partition. A format window register keeps its fields when its partition, and the one that it comes to, are not locked and have no bound core. Contexts are created only then too. A created context has a fresh private key in slot 0, and no TLB holds an entry of its number; a key slot that is not valid takes a fresh key or a valid slot's. A lock stands until the unlock, which ends every context of the partition. The service message that comes first in its router's class-15 buffer is pushed when class 15 is bound, unmasked and has room, and else stays. The system image's timer raises its event bit. Power gating takes an idle core and empties its TLB and L1. A thermal trip resets the device. Which assignments are refused and which reserved bits ignored is log 59, gating an idle core only log 64, the capacity and measurements that a boot event brings log 65, and what a reset keeps log 56: the model's choices. (R295, R258, R349, R350, R351, R352, R362, R366, R377, R384, R389, R405) -/
def Obligations.AssignmentsOfTheHypervisorAndTheEndOfBoot : Prop :=
  (∀ (s : State) (ok : Bool) (caps : List (Nat × Nat)) (meas : List (Nat × BitVec 256)), let i := Instr.boot ok caps meas
    (bootNext s.boot = none → exec i s = .next s) ∧
    (∀ n, bootNext s.boot = some n →
      (ok = false → exec i s = .next { s with boot := .failed, mgmtOut := s.mgmtOut ++ [1] }) ∧
      (ok = true → ∃ t, exec i s = .next t ∧ t.boot = (if n < 5 then .step n else .up) ∧ t.parts = s.parts ∧
        (∀ c g, (∀ e ∈ caps, e.1 = c → e = (c, g)) → (getCore t c).cap =
          if n = 3 ∧ (c, g) ∈ caps then (if g < 4 then 64 * g else 256) else (getCore s c).cap) ∧
        (∀ j m, (∀ e ∈ meas, e.1 = j → e = (j, m)) → (j, m) ∈ meas → amFind t.meas j = if bootIndex n j then some m else amFind s.meas j) ∧
        ∀ j, (∀ e ∈ meas, e.1 ≠ j) → amFind t.meas j = amFind s.meas j))) ∧
  (bootNext .off = some 1 ∧ (∀ n, bootNext (.step n) = some (n + 1)) ∧ bootNext .up = none ∧ bootNext .failed = none ∧
    (∀ n j, bootIndex n j = true ↔ (n = 1 ∧ j = 1) ∨ (n = 2 ∧ j = 2) ∨ (n = 4 ∧ j = 3) ∨ (n = 5 ∧ 16 ≤ j ∧ j < 32)) ∧
    ∀ s : State, configRetry s = true ↔ s.boot ≠ .up) ∧
  (∀ (s : State) (part c0 c1 r0 r1 sup supCore : Nat) (off : W64),
    let p := { Partition.init with created := true, c0 := c0, c1 := c1, r0 := r0, r1 := r1, sup := sup, supCore := supCore, timerOff := off,
                                   epoch := s.cycle.toNat / 2 ^ 20, msix := (getPart s part).msix }
    let may := (s.boot = .step 4 ∨ s.boot = .up) ∧ part < 16 ∧ (getPart s part).created = false ∧ c0 ≤ c1 ∧ c1 < 24 ∧ r0 ≤ r1 ∧ r1 < 12 ∧ sup < 256 ∧
      supCore < numCores ∧ c0 ≤ colOf (cluOf supCore) ∧ colOf (cluOf supCore) ≤ c1 ∧ r0 ≤ rowOf (cluOf supCore) ∧
      rowOf (cluOf supCore) ≤ r1 ∧ (getCtx s sup).created = false ∧
      ∀ e ∈ s.parts, e.2.created = true → ¬ (e.2.c0 ≤ c1 ∧ c0 ≤ e.2.c1 ∧ e.2.r0 ≤ r1 ∧ r0 ≤ e.2.r1)
    (may → ∃ t, exec (.partitionCreation part c0 c1 r0 r1 sup supCore off) s = .next t ∧
      t = { setPart s part p with core := t.core, cores := t.cores } ∧
      ∀ c, getCore t c = { getCore s c with castled := !inRect p (cluOf c) && (getCore s c).castled }) ∧
    (¬ may → exec (.partitionCreation part c0 c1 r0 r1 sup supCore off) s = .next s)) ∧
  (∀ (s : State) (part : Nat) (k : Fin 8) (w : W64),
    let v : W64 := w &&& 0x803FFFFF003FFFFF
    let lo := fieldOf w 0 22
    let hi := fieldOf w 32 22
    let none_ := bitOf w.toNat 63 = false ∨ hi ≤ lo
    let sound := none_ ∨ ((hi ≤ 0x240 ∨ 0x200000 ≤ lo) ∧ ∀ e ∈ s.parts, e.1 ≠ part → e.2.created = true → ∀ x ∈ e.2.prng.toList,
      bitOf x.toNat 63 = true → hi ≤ fieldOf x 0 22 ∨ fieldOf x 32 22 ≤ lo)
    let may := (getPart s part).created = true ∧ (getPart s part).locked = false ∧ ∀ c ∈ ctxsOf s part, coresOf s c = []
    (may → sound → exec (.partitionRangeWrite part k.val w) s =
      .next (setPart s part { getPart s part with prng := (getPart s part).prng.set k.val v k.isLt })) ∧
    (¬ may ∨ ¬ sound → exec (.partitionRangeWrite part k.val w) s = .next s)) ∧
  (∀ (s : State) (ctl win : Nat) (reg : Fin 4) (w : W64), ctl < 12 → win < 16 →
    let old := amGet (Vector.replicate 4 0) s.windows (ctl * 16 + win)
    let free := fun (p : Nat) => (getPart s p).created = true → (getPart s p).locked = false ∧ ∀ c ∈ ctxsOf s p, coresOf s c = []
    let may := (free (fieldOf old[0] 8 4) ∨ fieldOf old[0] 0 4 = 0) ∧ (reg = 0 → free (fieldOf w 8 4))
    let v : W64 := if reg = 0 then w &&& 0xF0F else if reg = 3 then w &&& 0xFFFFFFFFFFFF8 else w &&& 0xFFFFFFFFFF000
    (¬ may → exec (.formatWindowWrite ctl win reg.val w) s = .next s) ∧
    (may → exec (.formatWindowWrite ctl win reg.val w) s =
      .next { s with windows := amSet s.windows (ctl * 16 + win) (old.set reg.val v reg.isLt) })) ∧
  (∀ (s : State) (ctx part : Nat) (slots : List (Nat × Option Nat)),
    (ctx < 256 → (getCtx s ctx).created = false → noneBound s part = true →
      ∃ t, exec (.contextCreate ctx part slots) s = .next t ∧ (getCtx t ctx).created = true ∧ (getCtx t ctx).part = part ∧
        slotValid t (8 * ctx) = true ∧ keyOf t (8 * ctx) = (s.keyNum + 1) * 2048 + 8 * ctx ∧ t.mem = s.mem ∧
        (∀ k, ((getClu t k).tlb = (getClu s k).tlb.filter fun e => e.ctx != ctx) ∧
          (getClu t k).walks = (getClu s k).walks.filter fun w => w.1 != ctx) ∧
        (∀ c, (getCore t c).tlb = (getCore s c).tlb.filter fun e => e.ctx != ctx) ∧ ∀ c, c ≠ ctx → getCtx t c = getCtx s c) ∧
    (noneBound s part = true ↔ (getPart s part).created = true ∧ ∀ c ∈ ctxsOf s part, coresOf s c = []) ∧
    (256 ≤ ctx ∨ (getCtx s ctx).created = true ∨ noneBound s part = false → exec (.contextCreate ctx part slots) s = .next s)) ∧
  (∀ (s : State) (ctx : Nat) (k : Fin 8), (getCtx s ctx).created = true →
    (slotValid s (8 * ctx + k.val) = true → ∀ x, exec (.keySlotFill ctx k.val x) s = .next s) ∧
    (slotValid s (8 * ctx + k.val) = false →
      (∃ t, exec (.keySlotFill ctx k.val none) s = .next t ∧ slotValid t (8 * ctx + k.val) = true ∧
        keyOf t (8 * ctx + k.val) = (s.keyNum + 1) * 2048 + (8 * ctx + k.val) ∧ t.keyNum = s.keyNum + 1) ∧
      (∀ x, slotValid s x = true → ∃ t, exec (.keySlotFill ctx k.val (some x)) s = .next t ∧ slotValid t (8 * ctx + k.val) = true ∧
        keyOf t (8 * ctx + k.val) = keyOf s x) ∧
      (∀ x, slotValid s x = false → exec (.keySlotFill ctx k.val (some x)) s = .next s))) ∧
  (∀ (s : State) (part : Nat),
    ((getPart s part).created = true → ∃ t, exec (.tdispLock part) s = .next t ∧ measurement t 4 = measurement s 4 ∧
      t = { setPart s part { getPart s part with locked := true } with meas := t.meas } ∧ ∀ i, i ≠ 4 → amFind t.meas i = amFind s.meas i) ∧
    ((getPart s part).locked = true → ∃ t, exec (.tdispUnlock part) s = .next t ∧ (getPart t part).locked = false ∧
      ∀ c, (getCtx s c).created = true → (getCtx s c).part = part → (getCtx t c).created = false)) ∧
  (∀ (s : State) (k : Nat) (m : Service), s.services[k]? = some m →
    let c := getCore s m.core
    let first := (∀ x ∈ s.services, cluOf x.core = cluOf m.core → m.turn ≤ x.turn) ∧
      ∀ p ∈ s.packets, p.ended = false → p.pos = cluOf m.core → p.cls = 15 → m.turn ≤ p.turn
    (∀ q, bindOf c 15 = some (q, false) → first → c.ctx = some m.ctx → roomAt s m.core q = true →
      ∃ t, exec (.serviceMessageDelivery k) s = .next t ∧ t.services = s.services.eraseIdx k ∧
        qOf (getCore t m.core) q = qOf c q ++ [m.data] ∧ ∀ j, j ≠ q → qOf (getCore t m.core) j = qOf c j) ∧
    ((∀ q, bindOf c 15 = some (q, false) → ¬ (first ∧ c.ctx = some m.ctx ∧ roomAt s m.core q = true)) →
      exec (.serviceMessageDelivery k) s = .next s)) ∧
  (∀ (s : State) (ctx bit : Nat), (getCtx s ctx).created = true → bit < 256 → exec (.systemImageTimer ctx bit) s =
    .next (setCtx s ctx { getCtx s ctx with evseq := (getCtx s ctx).evseq + 1,
                                            events := (getCtx s ctx).events ||| ((1 : BitVec 256) <<< bit) })) ∧
  (∀ (s : State) (core : Nat),
    exec (.corePowerGating core false) s = .next (setCore s core { getCore s core with gated := false }) ∧
    ((∀ t < 4, (threadAt s (4 * core + t)).st = .idle) →
      exec (.corePowerGating core true) s = .next (setCore s core { getCore s core with gated := true, tlb := [], l1 := [] })) ∧
    ((∃ t < 4, (threadAt s (4 * core + t)).st ≠ .idle) → exec (.corePowerGating core true) s = .next s)) ∧
  (∀ s : State, ∃ t, exec .thermalTrip s = .next t ∧ t.boot = State.reset.boot ∧ t.parts = [] ∧ t.ctxs = [] ∧ t.lines = [] ∧ t.cores = [])

/-- In every state: a doorbell write moves the tail of a created partition's job ring. At the head of a ring in the partition's memory a malformed descriptor completes with ENGINE, the head moving on; a well-formed one, while a launch entry is free, opens its job with its first block and takes its blocks one by one, the head moving on after the last. JOB_COMPLETION writes the oldest waiting completion entry, or that of the first open job that is complete and quiet, with its cause and counter, to a completion ring in the partition's memory and sends MSI-X 0. Where the rings lie and through which slot is log 61, what lies outside the ranges log 62, how a connection opens and ends log 63: the model's choices. An aperture access reads and writes the physical bytes of the partition's ranges through its alias slot (which the first access names: the model's choice, log 76); outside them it reads ones and writes nothing. A Bilath memory write whose bytes all translate is written and counted; a denied one writes nothing and ends the connection; a class message is pushed and counted, refused, or not yet delivered. Frame drops and retransmissions are counted. A telemetry read answers its register; an attestation request answers its certificates, its signed challenge or measurement, or its key exchange, or an error (their bytes are free values, log 5). A sample is kept, and one that crosses a threshold of the hypervisor raises the bits that it names. Refreshes and calibrations change nothing. (R5, R304, R365, R366, R398, R399, R400, R401, R402, R403, R404, R407) -/
def Obligations.HostLinkScaleOutAndManagement : Prop :=
  (∀ (s : State) (part tail : Nat), (getPart s part).created = true →
    exec (.doorbellWrite part tail) s = .next (setPart s part { getPart s part with jobTail := tail % 2 ^ 32 })) ∧
  (∀ (s : State) (part ctx slot base len : Nat), (getPart s part).created = true → (getCtx s ctx).created = true →
    (getCtx s ctx).part = part → 0 < len → let p := getPart s part
    let i := Instr.jobDescriptor part ctx slot base len
    let h := ringRead s part slot (base + 64 * (p.jobHead % len)) 64
    let n := bitsOf h.1 80 16
    let job := bitsOf h.1 64 16
    let bad := bitsOf h.1 96 416 ≠ 0 ∨ n = 0 ∨ 4096 < n
    let next := p.jobHead % len ≠ p.jobTail % len ∧ ringSlot s part slot base (64 * len) = true ∧
      (p.jobBlk = 0 ∨ p.jobsOpen.getLast?.map (·.ctx) = some ctx)
    (¬ next → exec i s = .next s) ∧
    (next → bad → ∃ t, exec i s = .next t ∧
      getPart t part = { p with completions := p.completions ++ [BitVec.ofNat 128 (job + cENGINE * 2 ^ 16)],
                                jobHead := (p.jobHead + 1) % len, jobBlk := 0 }) ∧
    (next → ¬ bad → freeLid h.2 ctx = none → exec i s = .next s) ∧
    (next → ¬ bad → freeLid h.2 ctx ≠ none → ∃ t, exec i s = .next t ∧
      (getPart t part).jobHead = (if p.jobBlk + 1 < n then p.jobHead else (p.jobHead + 1) % len) ∧
      (getPart t part).jobBlk = (if p.jobBlk + 1 < n then p.jobBlk + 1 else 0) ∧
      (p.jobBlk = 0 → ∃ e ∈ (getPart t part).jobsOpen, e.ctx = ctx ∧ e.job = job))) ∧
  (∀ (s : State) (part slot base len : Nat), let p := getPart s part
    let i := Instr.jobCompletion ⟨part, slot, base, len⟩
    let a := base + 16 * (p.compTail % len)
    let wrote := fun (open_ : List JobOpen) (l : List (BitVec 128)) (e : BitVec 128) => ∃ t, exec i s = .next t ∧
      getPart t part = { p with jobsOpen := open_, completions := l, compTail := p.compTail + 1, msix := p.msix ++ [0] } ∧
      (s.MemoryCanonical → (hostBase ≤ a → memRead t.host a 16 = toBytes 16 e.toNat) ∧
        (a < hostBase → s.NoUCopies → homeBytes t slot a 16 = toBytes 16 e.toNat))
    (p.created = false ∨ len = 0 ∨ ringSlot s part slot base (16 * len) = false → exec i s = .next s) ∧
    (p.created = true → 0 < len → ringSlot s part slot base (16 * len) = true →
      (∀ e l, p.completions = e :: l → wrote p.jobsOpen l e) ∧
      (p.completions = [] → p.jobsOpen.find? (jobQuiet s) = none → exec i s = .next s) ∧
      (∀ e cause count, p.completions = [] → p.jobsOpen.find? (jobQuiet s) = some e → e.ended = some (cause, count) →
        wrote (p.jobsOpen.erase e) [] (BitVec.ofNat 128 (e.job + cause * 2 ^ 16 + count % 2 ^ 64 * 2 ^ 64))))) ∧
  (∀ (s : State) (part slot off : Nat) (data : List Byte), let p := getPart s part
    let mine := p.created = true ∧ apertureSlot s part slot = true ∧ (p.apSlot = none ∨ p.apSlot = some slot)
    let u := setPart s part { p with apSlot := some slot }
    let out := fun (l : List Byte) => ∃ t, exec (.hostApertureAccess part slot off false data) s = .next t ∧ t.hostOut = s.hostOut ++ wordsOf l
    (¬ mine → ∀ write, exec (.hostApertureAccess part slot off write data) s = .next s) ∧
    (mine → ∀ b : Byte, data = [b] →
      (2 ^ 36 ≤ off ∨ aperture p off = none → exec (.hostApertureAccess part slot off true data) s = .next u ∧ out [0xFF]) ∧
      (∀ a, off < 2 ^ 36 → aperture p off = some a →
        (a < hostBase → exec (.hostApertureAccess part slot off true data) s = .next (homeWrite u (slot / 8) slot .H 0 [(a, b)]).2 ∧
          out (homeRead u (slot / 8) slot a 1).1) ∧
        (hostBase ≤ a → exec (.hostApertureAccess part slot off true data) s = .next { u with host := memSetAll u.host [(a, b)] } ∧
          out (memRead s.host a 1))))) ∧
  (∀ (p : Partition) (off : Nat), let w := p.prng[0]
    bitOf w.toNat 63 = true → off < (fieldOf w 32 22 - fieldOf w 0 22) * 2 ^ 30 →
      aperture p off = some (fieldOf w 0 22 * 2 ^ 30 + off)) ∧
  (∀ (s : State) (conn ctx va : Nat) (data : List Byte), let k := cluOf ((coresOf s ctx).headD 0)
    (connFor s conn ctx = none → exec (.bilathMemoryWrite conn ctx va data) s = .next s) ∧
    (∀ c, connFor s conn ctx = some c → 1 ≤ data.length → data.length ≤ 4096 →
      (∀ l u, bilathPlaces ctx k va data.length s = .ok (l, u) → ∃ t, exec (.bilathMemoryWrite conn ctx va data) s = .next t ∧
        (∃ x, c.time ≤ x ∧ amFind t.conns conn = some { c with delivered := c.delivered + 1, time := x })) ∧
      (∀ cause a, bilathPlaces ctx k va data.length s = .error (cause, a) → ∃ t, exec (.bilathMemoryWrite conn ctx va data) s = .next t ∧
        amFind t.conns conn = some { c with live := false, cause := cause } ∧ t.mem = s.mem ∧ t.lines = s.lines ∧
        t.services.length = s.services.length + 1)) ∧
    (∀ c x u (b : Byte), connFor s conn ctx = some c → xlateEngine s ctx k .xwrite (va % 2 ^ 64) = .ok x u →
      let w := homeWrite u ctx x.slot .X 0 [(x.pa, b)]
      exec (.bilathMemoryWrite conn ctx va [b]) s =
        .next (countConn { w.2 with released := max w.2.released w.1 } conn { c with time := max c.time w.1 }))) ∧
  (∀ (s : State) (conn ctx core cls : Nat) (ev : Option Nat) (data : V512) (c : Conn), connFor s conn ctx = some c →
    let x := getCore s core
    let ended := fun (cause : Nat) => ∃ t, exec (.bilathClassMessage conn ctx core cls ev data) s = .next t ∧
      amFind t.conns conn = some { c with live := false, cause := cause } ∧ (getCore t core).q = x.q
    (x.ctx ≠ some ctx → ended cPERM) ∧ (x.ctx = some ctx → bindOf x (cls % 16) = none → ended cENGINE) ∧
    (∀ q, x.ctx = some ctx → bindOf x (cls % 16) = some (q, true) → exec (.bilathClassMessage conn ctx core cls ev data) s = .next s) ∧
    (∀ q, x.ctx = some ctx → bindOf x (cls % 16) = some (q, false) →
      (roomAt s core q = false → exec (.bilathClassMessage conn ctx core cls ev data) s = .next s) ∧
      (roomAt s core q = true → ∃ t, exec (.bilathClassMessage conn ctx core cls ev data) s = .next t ∧
        qOf (getCore t core) q = qOf x q ++ [data] ∧ amFind t.conns conn = some { c with delivered := c.delivered + 1 } ∧
        (∀ i < 4, c.time ≤ (threadAt t (4 * core + i)).pts) ∧ (∀ i, ev = some i → (getCtx t ctx).events = (getCtx s ctx).events ||| ((1 : BitVec 256) <<< i))))) ∧
  (∀ (s : State) (port conn : Nat), exec (.macsecFrameDrop port) s = .next { s with macsecDrops := s.macsecDrops + 1 } ∧
    exec (.bilathRetransmission conn) s = .next { s with retransmits := s.retransmits + 1 } ∧
    exec (.hbmRefresh port) s = .next s ∧ exec (.phyCalibration port) s = .next s) ∧
  (∀ (s : State) (reg : Nat), ∃ v : W64, exec (.telemetryRead reg) s = .next { s with mgmtOut := s.mgmtOut ++ [BitVec.zeroExtend 512 v] } ∧
    (reg = 0 → v = BitVec.ofNat 64 s.corrected) ∧ (reg = 1 → v = BitVec.ofNat 64 s.macsecDrops) ∧
    (reg = 2 → v = BitVec.ofNat 64 s.retransmits) ∧ (16 ≤ reg → ∀ x, amFind s.monitors (reg - 16) = some x → v = x)) ∧
  (∀ (s : State) (r : Spdm) (hashOk sigOk : Bool),
    let refused := exec (.spdmRequest r hashOk sigOk) s = .next { s with mgmtOut := s.mgmtOut ++ [spdmError] }
    let answers := fun (l : List (BitVec 512)) (n : Nat) => hashOk = true → sigOk = true →
      exec (.spdmRequest r hashOk sigOk) s = .next { s with mgmtOut := s.mgmtOut ++ l, sessions := s.sessions + n }
    (hashOk = false ∨ sigOk = false → refused) ∧
    (∀ i, r = .measurement i → (∀ m, measurement s i = some m → answers (BitVec.zeroExtend 512 m :: sigWords (Config.signature m i)) 0) ∧
      (measurement s i = none → refused)) ∧
    (∀ n, r = .certificate n → (n = 0 → answers Config.certificates 0) ∧ (n ≠ 0 → refused)) ∧
    (∀ x, r = .challenge x → answers (sigWords (Config.challengeSig x)) 0) ∧
    (∀ v, r = .keyExchange v → answers [Config.keyExchange v s.sessions] 1)) ∧
  (∀ (s : State) (i : Nat), i ≠ 4 → i < 32 ∨ 48 ≤ i → measurement s i = amFind s.meas i) ∧
  (∀ (s : State) (m : Nat) (v : W64),
    let kept := { s with monitors := amSet s.monitors m v }
    (288 ≤ m → ∀ act, exec (.monitorSample m v act) s = .next s) ∧
    (m < 288 → (∀ at_ l, exec (.monitorSample m v (.thresholds at_ l)) s = .next { s with monCfg := amSet s.monCfg m (at_, l) }) ∧
      (amFind s.monitors m = none ∨ amFind s.monCfg m = none → exec (.monitorSample m v .sample) s = .next kept) ∧
      ∀ old at_ l, amFind s.monitors m = some old → amFind s.monCfg m = some (at_, l) →
        ((∀ x ∈ at_, old.toNat < x.toNat ↔ v.toNat < x.toNat) → exec (.monitorSample m v .sample) s = .next kept) ∧
        (∀ x ∈ at_, ¬ (old.toNat < x.toNat ↔ v.toNat < x.toNat) → ∀ ctx i, l = [(ctx, some i)] → (getCtx s ctx).created = true →
          ∃ t, exec (.monitorSample m v .sample) s = .next t ∧ amFind t.monitors m = some v ∧
            (getCtx t ctx).events = (getCtx s ctx).events ||| ((1 : BitVec 256) <<< i))))
end

