-- ==== Sys2Proof/Laws/Memory.lean ====
section
/-!
SUPPORT. Laws of association maps and of memory: what a write leaves at its own address and at every other, and the canonical
form that every memory operation keeps.
-/
namespace Sys2Proof
namespace Machine

/-! ### Association maps -/

variable {α : Type}

@[simp] theorem amGet_amSet_same (d : α) (m : AMap α) (k : Nat) (v : α) : amGet d (amSet m k v) k = v := by
  induction m with
  | nil => simp [amSet, amGet]
  | cons e m ih =>
    obtain ⟨j, x⟩ := e
    simp only [amSet]
    split
    · simp [amGet]
    · split
      · simp [amGet]
      · rename_i h1 h2
        simp [amGet, h1, h2, ih]
theorem amGet_amSet_other (d : α) (m : AMap α) {k k' : Nat} (v : α) (h : k' ≠ k) : amGet d (amSet m k v) k' = amGet d m k' := by
  induction m with
  | nil =>
    simp only [amSet, amGet]
    split
    · omega
    · split <;> rfl
  | cons e m ih =>
    obtain ⟨j, x⟩ := e
    simp only [amSet]
    split
    · subst_vars
      simp only [amGet]
      split
      · omega
      · rfl
    · split
      · simp only [amGet]
        split
        · omega
        · split
          · split
            · omega
            · split <;> first | rfl | omega
          · rfl
      · simp only [amGet, ih]
@[simp] theorem amFind_amSet_same (m : AMap α) (k : Nat) (v : α) : amFind (amSet m k v) k = some v := by
  induction m with
  | nil => simp [amSet, amFind]
  | cons e m ih =>
    obtain ⟨j, x⟩ := e
    simp only [amSet]
    split
    · simp [amFind]
    · split
      · simp [amFind]
      · rename_i h1 h2
        simp [amFind, h1, h2, ih]
theorem amFind_amSet_other (m : AMap α) {k k' : Nat} (v : α) (h : k' ≠ k) : amFind (amSet m k v) k' = amFind m k' := by
  induction m with
  | nil =>
    simp only [amSet, amFind]
    split
    · omega
    · split <;> rfl
  | cons e m ih =>
    obtain ⟨j, x⟩ := e
    simp only [amSet]
    split
    · subst_vars
      simp only [amFind]
      split
      · omega
      · rfl
    · split
      · simp only [amFind]
        split
        · omega
        · split
          · split
            · omega
            · split <;> first | rfl | omega
          · rfl
      · simp only [amFind, ih]

/-! ### Memory -/

/-- Every address of a canonical list lies above its bound. -/
theorem memGet_below {m : Mem} {lo k : Nat} (h : Memory.wfFrom (some lo) m = true) (hk : k ≤ lo) : memGet m k = 0 := by
  cases m with
  | nil => rfl
  | cons e m =>
    obtain ⟨j, x⟩ := e
    simp only [Memory.wfFrom, Bool.and_eq_true, decide_eq_true_eq] at h
    simp only [memGet]
    split
    · omega
    · split
      · rfl
      · omega
theorem wfFrom_weaken {m : Mem} {lo lo' : Nat} (h : Memory.wfFrom (some lo) m = true) (hl : lo' ≤ lo) :
    Memory.wfFrom (some lo') m = true := by
  cases m with
  | nil => rfl
  | cons e m =>
    obtain ⟨j, x⟩ := e
    simp only [Memory.wfFrom, Bool.and_eq_true, decide_eq_true_eq] at h ⊢
    exact ⟨⟨by omega, h.1.2⟩, h.2⟩
theorem wfFrom_none {m : Mem} {lo : Nat} (h : Memory.wfFrom (some lo) m = true) : Memory.wfFrom none m = true := by
  cases m with
  | nil => rfl
  | cons e m =>
    obtain ⟨j, x⟩ := e
    simp only [Memory.wfFrom, Bool.and_eq_true] at h ⊢
    exact ⟨⟨trivial, h.1.2⟩, h.2⟩
theorem memSet_wfFrom {m : Mem} {lo k : Nat} {b : Byte} (h : Memory.wfFrom (some lo) m = true) (hk : lo < k) :
    Memory.wfFrom (some lo) (memSet m k b) = true := by
  induction m generalizing lo with
  | nil =>
    simp only [memSet]
    split
    · rfl
    · rename_i hb
      simp [Memory.wfFrom, hk]
      exact hb
  | cons e m ih =>
    obtain ⟨j, x⟩ := e
    simp only [Memory.wfFrom, Bool.and_eq_true, decide_eq_true_eq] at h
    obtain ⟨⟨hj, hx⟩, hm⟩ := h
    simp only [memSet]
    split
    · split
      · exact wfFrom_weaken hm (by omega)
      · rename_i h1 hb
        subst h1
        simp [Memory.wfFrom, hk, hm]
        exact hb
    · split
      · split
        · simp only [Memory.wfFrom, Bool.and_eq_true, decide_eq_true_eq]
          exact ⟨⟨hj, hx⟩, hm⟩
        · rename_i hb
          simp only [Memory.wfFrom, Bool.and_eq_true, decide_eq_true_eq]
          exact ⟨⟨hk, by simpa using hb⟩, ⟨⟨by assumption, hx⟩, hm⟩⟩
      · simp only [Memory.wfFrom, Bool.and_eq_true, decide_eq_true_eq]
        exact ⟨⟨hj, hx⟩, ih hm (by omega)⟩
/-- A write of one byte keeps the canonical form. -/
theorem memSet_wf {m : Mem} {k : Nat} {b : Byte} (h : Memory.wf m = true) : Memory.wf (memSet m k b) = true := by
  unfold Memory.wf at *
  cases m with
  | nil =>
    simp only [memSet]
    split
    · rfl
    · rename_i hb
      simp [Memory.wfFrom]
      exact hb
  | cons e m =>
    obtain ⟨j, x⟩ := e
    simp only [Memory.wfFrom, Bool.and_eq_true] at h
    obtain ⟨⟨-, hx⟩, hm⟩ := h
    simp only [memSet]
    split
    · split
      · exact wfFrom_none hm
      · rename_i h1 hb
        subst h1
        simp [Memory.wfFrom, hm]
        exact hb
    · split
      · split
        · simp only [Memory.wfFrom, Bool.and_eq_true]
          exact ⟨⟨trivial, hx⟩, hm⟩
        · rename_i hb
          simp only [Memory.wfFrom, Bool.and_eq_true, decide_eq_true_eq]
          exact ⟨⟨trivial, by simpa using hb⟩, ⟨⟨by assumption, hx⟩, hm⟩⟩
      · simp only [Memory.wfFrom, Bool.and_eq_true]
        exact ⟨⟨trivial, hx⟩, memSet_wfFrom hm (by omega)⟩
theorem memSetAll_wf {m : Mem} {l : List (Nat × Byte)} (h : Memory.wf m = true) : Memory.wf (memSetAll m l) = true := by
  unfold memSetAll
  induction l generalizing m with
  | nil => exact h
  | cons e l ih => exact ih (memSet_wf h)

theorem memGet_memSet_from {m : Mem} {lo : Nat} (k k' : Nat) (b : Byte) (h : Memory.wfFrom (some lo) m = true) :
    memGet (memSet m k b) k' = if k' = k then b else memGet m k' := by
  induction m generalizing lo with
  | nil =>
    simp only [memSet]
    split
    · subst_vars
      simp [memGet]
    · simp only [memGet]
      split
      · subst_vars
        simp
      · rename_i hk
        rw [if_neg (Ne.symm hk)]
        split <;> rfl
  | cons e m ih =>
    obtain ⟨j, x⟩ := e
    simp only [Memory.wfFrom, Bool.and_eq_true, decide_eq_true_eq] at h
    obtain ⟨⟨hj, hx⟩, hm⟩ := h
    simp only [memSet]
    split
    · rename_i h1
      subst h1
      split
      · rename_i hb
        subst hb
        by_cases hk : k' ≤ j
        · rw [memGet_below hm hk]
          simp only [memGet]
          split
          · rfl
          · split
            · omega
            · split <;> first | rfl | omega
        · simp only [memGet]
          rw [if_neg (by omega), if_neg (by omega), if_neg (by omega)]
      · simp only [memGet]
        by_cases hk : k' = j
        · simp [hk]
        · rw [if_neg hk, if_neg (Ne.symm hk), if_neg (Ne.symm hk)]
    · split
      · split
        · rename_i hb
          subst hb
          by_cases hk : k' = k
          · subst hk
            simp only [memGet, if_true]
            rw [if_neg (by omega), if_pos (by assumption)]
          · rw [if_neg hk]
        · by_cases hk : k' = k
          · subst hk
            simp [memGet]
          · rw [if_neg hk]
            simp only [memGet]
            rw [if_neg (Ne.symm hk)]
            split
            · rw [if_neg (by omega), if_pos (by omega)]
            · rfl
      · simp only [memGet]
        by_cases hk : k' = k
        · subst hk
          rw [if_neg (by omega), if_neg (by omega), ih hm, if_pos rfl, if_pos rfl]
        · rw [if_neg hk, ih hm, if_neg hk]
/-- What a byte reads after a write: the byte written at its own address, and the old byte at every other. -/
theorem memGet_memSet {m : Mem} (h : Memory.wf m = true) (k k' : Nat) (b : Byte) :
    memGet (memSet m k b) k' = if k' = k then b else memGet m k' := by
  cases m with
  | nil => exact memGet_memSet_from (lo := 0) k k' b rfl
  | cons e m =>
    obtain ⟨j, x⟩ := e
    unfold Memory.wf at h
    simp only [Memory.wfFrom, Bool.and_eq_true] at h
    obtain ⟨⟨-, hx⟩, hm⟩ := h
    cases j with
    | zero =>
      simp only [memSet]
      split
      · rename_i h1
        subst h1
        split
        · rename_i hb
          subst hb
          by_cases hk : k' = 0
          · subst hk
            simp [memGet_below hm (Nat.le_refl 0)]
          · simp only [memGet]
            rw [if_neg hk, if_neg (Ne.symm hk), if_neg (by omega)]
        · simp only [memGet]
          by_cases hk : k' = 0
          · simp [hk]
          · rw [if_neg hk, if_neg (Ne.symm hk), if_neg (by omega), if_neg (Ne.symm hk)]
      · rename_i h1
        rw [if_neg (by omega)]
        simp only [memGet]
        rw [memGet_memSet_from k k' b hm]
        by_cases hk : k' = k
        · subst hk
          rw [if_neg (by omega), if_neg (by omega), if_pos rfl]
          rw [if_pos rfl]
        · rw [if_neg hk, if_neg hk]
    | succ j =>
      exact memGet_memSet_from (lo := 0) k k' b (by
        simp only [Memory.wfFrom, Bool.and_eq_true, decide_eq_true_eq]
        exact ⟨⟨by omega, hx⟩, hm⟩)
/-- Writes of several bytes leave every other address as it was. -/
theorem memGet_memSetAll_other {m : Mem} (h : Memory.wf m = true) {l : List (Nat × Byte)} {a : Nat} (ha : ∀ e ∈ l, e.1 ≠ a) :
    memGet (memSetAll m l) a = memGet m a := by
  unfold memSetAll
  induction l generalizing m with
  | nil => rfl
  | cons e l ih =>
    have h1 := ih (memSet_wf (k := e.1) (b := e.2) h) (fun x hx => ha x (List.mem_cons_of_mem _ hx))
    simp only [List.foldl_cons]
    rw [h1, memGet_memSet h, if_neg (Ne.symm (ha e (List.mem_cons_self ..)))]

end Machine
end Sys2Proof
end

