-- ==== Sys2Proof/Laws/State.lean ====
section
/-!
SUPPORT. Laws of State: what each named update changes and what it leaves, field by field, true by unfolding.
-/
namespace Sys2Proof
namespace Machine

/-! ### Updates of the thread set in focus -/

@[simp] theorem withTh_here (s : State) (f : Thread → Thread) : (withTh s f).here = s.here := rfl
@[simp] theorem withTh_th (s : State) (f : Thread → Thread) : (withTh s f).th = f s.th := rfl
@[simp] theorem withTh_core (s : State) (f : Thread → Thread) : (withTh s f).core = s.core := rfl
@[simp] theorem withTh_cores (s : State) (f : Thread → Thread) : (withTh s f).cores = s.cores := rfl
@[simp] theorem withTh_clusters (s : State) (f : Thread → Thread) : (withTh s f).clusters = s.clusters := rfl
@[simp] theorem withTh_ctxs (s : State) (f : Thread → Thread) : (withTh s f).ctxs = s.ctxs := rfl
@[simp] theorem withTh_parts (s : State) (f : Thread → Thread) : (withTh s f).parts = s.parts := rfl
@[simp] theorem withTh_mem (s : State) (f : Thread → Thread) : (withTh s f).mem = s.mem := rfl
@[simp] theorem withTh_memKey (s : State) (f : Thread → Thread) : (withTh s f).memKey = s.memKey := rfl
@[simp] theorem withTh_older (s : State) (f : Thread → Thread) : (withTh s f).older = s.older := rfl
@[simp] theorem withTh_lines (s : State) (f : Thread → Thread) : (withTh s f).lines = s.lines := rfl
@[simp] theorem withTh_pathTime (s : State) (f : Thread → Thread) : (withTh s f).pathTime = s.pathTime := rfl
@[simp] theorem withTh_released (s : State) (f : Thread → Thread) : (withTh s f).released = s.released := rfl
@[simp] theorem withTh_fenced (s : State) (f : Thread → Thread) : (withTh s f).fenced = s.fenced := rfl
@[simp] theorem withTh_basePts (s : State) (f : Thread → Thread) : (withTh s f).basePts = s.basePts := rfl
@[simp] theorem withTh_host (s : State) (f : Thread → Thread) : (withTh s f).host = s.host := rfl
@[simp] theorem withTh_windows (s : State) (f : Thread → Thread) : (withTh s f).windows = s.windows := rfl
@[simp] theorem withTh_packets (s : State) (f : Thread → Thread) : (withTh s f).packets = s.packets := rfl
@[simp] theorem withTh_pktNum (s : State) (f : Thread → Thread) : (withTh s f).pktNum = s.pktNum := rfl
@[simp] theorem withTh_services (s : State) (f : Thread → Thread) : (withTh s f).services = s.services := rfl
@[simp] theorem withTh_waiting (s : State) (f : Thread → Thread) : (withTh s f).waiting = s.waiting := rfl
@[simp] theorem withTh_conns (s : State) (f : Thread → Thread) : (withTh s f).conns = s.conns := rfl
@[simp] theorem withTh_boot (s : State) (f : Thread → Thread) : (withTh s f).boot = s.boot := rfl
@[simp] theorem withTh_keyNum (s : State) (f : Thread → Thread) : (withTh s f).keyNum = s.keyNum := rfl
@[simp] theorem withTh_monitors (s : State) (f : Thread → Thread) : (withTh s f).monitors = s.monitors := rfl
@[simp] theorem withTh_monCfg (s : State) (f : Thread → Thread) : (withTh s f).monCfg = s.monCfg := rfl
@[simp] theorem withTh_meas (s : State) (f : Thread → Thread) : (withTh s f).meas = s.meas := rfl
@[simp] theorem withTh_cycle (s : State) (f : Thread → Thread) : (withTh s f).cycle = s.cycle := rfl
@[simp] theorem withTh_ticks (s : State) (f : Thread → Thread) : (withTh s f).ticks = s.ticks := rfl
@[simp] theorem withTh_rtime (s : State) (f : Thread → Thread) : (withTh s f).rtime = s.rtime := rfl
@[simp] theorem withTh_corrected (s : State) (f : Thread → Thread) : (withTh s f).corrected = s.corrected := rfl
@[simp] theorem withTh_macsecDrops (s : State) (f : Thread → Thread) : (withTh s f).macsecDrops = s.macsecDrops := rfl
@[simp] theorem withTh_retransmits (s : State) (f : Thread → Thread) : (withTh s f).retransmits = s.retransmits := rfl
@[simp] theorem withTh_hostOut (s : State) (f : Thread → Thread) : (withTh s f).hostOut = s.hostOut := rfl
@[simp] theorem withTh_mgmtOut (s : State) (f : Thread → Thread) : (withTh s f).mgmtOut = s.mgmtOut := rfl
@[simp] theorem withTh_sessions (s : State) (f : Thread → Thread) : (withTh s f).sessions = s.sessions := rfl
@[simp] theorem withTh_agenda (s : State) (f : Thread → Thread) : (withTh s f).agenda = s.agenda := rfl
@[simp] theorem withTh_steps (s : State) (f : Thread → Thread) : (withTh s f).steps = s.steps := rfl
@[simp] theorem withRf_here (s : State) (f : Regs → Regs) : (withRf s f).here = s.here := rfl
@[simp] theorem withRf_core (s : State) (f : Regs → Regs) : (withRf s f).core = s.core := rfl
@[simp] theorem withRf_cores (s : State) (f : Regs → Regs) : (withRf s f).cores = s.cores := rfl
@[simp] theorem withRf_clusters (s : State) (f : Regs → Regs) : (withRf s f).clusters = s.clusters := rfl
@[simp] theorem withRf_ctxs (s : State) (f : Regs → Regs) : (withRf s f).ctxs = s.ctxs := rfl
@[simp] theorem withRf_parts (s : State) (f : Regs → Regs) : (withRf s f).parts = s.parts := rfl
@[simp] theorem withRf_mem (s : State) (f : Regs → Regs) : (withRf s f).mem = s.mem := rfl
@[simp] theorem withRf_memKey (s : State) (f : Regs → Regs) : (withRf s f).memKey = s.memKey := rfl
@[simp] theorem withRf_older (s : State) (f : Regs → Regs) : (withRf s f).older = s.older := rfl
@[simp] theorem withRf_lines (s : State) (f : Regs → Regs) : (withRf s f).lines = s.lines := rfl
@[simp] theorem withRf_pathTime (s : State) (f : Regs → Regs) : (withRf s f).pathTime = s.pathTime := rfl
@[simp] theorem withRf_released (s : State) (f : Regs → Regs) : (withRf s f).released = s.released := rfl
@[simp] theorem withRf_fenced (s : State) (f : Regs → Regs) : (withRf s f).fenced = s.fenced := rfl
@[simp] theorem withRf_basePts (s : State) (f : Regs → Regs) : (withRf s f).basePts = s.basePts := rfl
@[simp] theorem withRf_host (s : State) (f : Regs → Regs) : (withRf s f).host = s.host := rfl
@[simp] theorem withRf_windows (s : State) (f : Regs → Regs) : (withRf s f).windows = s.windows := rfl
@[simp] theorem withRf_packets (s : State) (f : Regs → Regs) : (withRf s f).packets = s.packets := rfl
@[simp] theorem withRf_pktNum (s : State) (f : Regs → Regs) : (withRf s f).pktNum = s.pktNum := rfl
@[simp] theorem withRf_services (s : State) (f : Regs → Regs) : (withRf s f).services = s.services := rfl
@[simp] theorem withRf_waiting (s : State) (f : Regs → Regs) : (withRf s f).waiting = s.waiting := rfl
@[simp] theorem withRf_conns (s : State) (f : Regs → Regs) : (withRf s f).conns = s.conns := rfl
@[simp] theorem withRf_boot (s : State) (f : Regs → Regs) : (withRf s f).boot = s.boot := rfl
@[simp] theorem withRf_keyNum (s : State) (f : Regs → Regs) : (withRf s f).keyNum = s.keyNum := rfl
@[simp] theorem withRf_monitors (s : State) (f : Regs → Regs) : (withRf s f).monitors = s.monitors := rfl
@[simp] theorem withRf_monCfg (s : State) (f : Regs → Regs) : (withRf s f).monCfg = s.monCfg := rfl
@[simp] theorem withRf_meas (s : State) (f : Regs → Regs) : (withRf s f).meas = s.meas := rfl
@[simp] theorem withRf_cycle (s : State) (f : Regs → Regs) : (withRf s f).cycle = s.cycle := rfl
@[simp] theorem withRf_ticks (s : State) (f : Regs → Regs) : (withRf s f).ticks = s.ticks := rfl
@[simp] theorem withRf_rtime (s : State) (f : Regs → Regs) : (withRf s f).rtime = s.rtime := rfl
@[simp] theorem withRf_corrected (s : State) (f : Regs → Regs) : (withRf s f).corrected = s.corrected := rfl
@[simp] theorem withRf_macsecDrops (s : State) (f : Regs → Regs) : (withRf s f).macsecDrops = s.macsecDrops := rfl
@[simp] theorem withRf_retransmits (s : State) (f : Regs → Regs) : (withRf s f).retransmits = s.retransmits := rfl
@[simp] theorem withRf_hostOut (s : State) (f : Regs → Regs) : (withRf s f).hostOut = s.hostOut := rfl
@[simp] theorem withRf_mgmtOut (s : State) (f : Regs → Regs) : (withRf s f).mgmtOut = s.mgmtOut := rfl
@[simp] theorem withRf_sessions (s : State) (f : Regs → Regs) : (withRf s f).sessions = s.sessions := rfl
@[simp] theorem withRf_agenda (s : State) (f : Regs → Regs) : (withRf s f).agenda = s.agenda := rfl
@[simp] theorem withRf_steps (s : State) (f : Regs → Regs) : (withRf s f).steps = s.steps := rfl
@[simp] theorem withRf_rf (s : State) (f : Regs → Regs) : (withRf s f).th.rf = f s.th.rf := rfl
@[simp] theorem withRf_th_snap (s : State) (f : Regs → Regs) : (withRf s f).th.snap = s.th.snap := rfl
@[simp] theorem withRf_th_pc (s : State) (f : Regs → Regs) : (withRf s f).th.pc = s.th.pc := rfl
@[simp] theorem withRf_th_ipc (s : State) (f : Regs → Regs) : (withRf s f).th.ipc = s.th.ipc := rfl
@[simp] theorem withRf_th_slot1 (s : State) (f : Regs → Regs) : (withRf s f).th.slot1 = s.th.slot1 := rfl
@[simp] theorem withRf_th_inPair (s : State) (f : Regs → Regs) : (withRf s f).th.inPair = s.th.inPair := rfl
@[simp] theorem withRf_th_res (s : State) (f : Regs → Regs) : (withRf s f).th.res = s.th.res := rfl
@[simp] theorem withRf_th_st (s : State) (f : Regs → Regs) : (withRf s f).th.st = s.th.st := rfl
@[simp] theorem withRf_th_task (s : State) (f : Regs → Regs) : (withRf s f).th.task = s.th.task := rfl
@[simp] theorem withRf_th_act (s : State) (f : Regs → Regs) : (withRf s f).th.act = s.th.act := rfl
@[simp] theorem withRf_th_busy (s : State) (f : Regs → Regs) : (withRf s f).th.busy = s.th.busy := rfl
@[simp] theorem withRf_th_shapes (s : State) (f : Regs → Regs) : (withRf s f).th.shapes = s.th.shapes := rfl
@[simp] theorem withRf_th_m (s : State) (f : Regs → Regs) : (withRf s f).th.m = s.th.m := rfl
@[simp] theorem withRf_th_mlatch (s : State) (f : Regs → Regs) : (withRf s f).th.mlatch = s.th.mlatch := rfl
@[simp] theorem withRf_th_platch (s : State) (f : Regs → Regs) : (withRf s f).th.platch = s.th.platch := rfl
@[simp] theorem withRf_th_ptgt (s : State) (f : Regs → Regs) : (withRf s f).th.ptgt = s.th.ptgt := rfl
@[simp] theorem withRf_th_solo (s : State) (f : Regs → Regs) : (withRf s f).th.solo = s.th.solo := rfl
@[simp] theorem withRf_th_xfer (s : State) (f : Regs → Regs) : (withRf s f).th.xfer = s.th.xfer := rfl
@[simp] theorem withRf_th_shadow (s : State) (f : Regs → Regs) : (withRf s f).th.shadow = s.th.shadow := rfl
@[simp] theorem withRf_th_pts (s : State) (f : Regs → Regs) : (withRf s f).th.pts = s.th.pts := rfl
@[simp] theorem withRf_th_creqs (s : State) (f : Regs → Regs) : (withRf s f).th.creqs = s.th.creqs := rfl
@[simp] theorem withRf_th_kreqs (s : State) (f : Regs → Regs) : (withRf s f).th.kreqs = s.th.kreqs := rfl
@[simp] theorem withRf_th_ureqs (s : State) (f : Regs → Regs) : (withRf s f).th.ureqs = s.th.ureqs := rfl
@[simp] theorem withRf_th_amsgs (s : State) (f : Regs → Regs) : (withRf s f).th.amsgs = s.th.amsgs := rfl
@[simp] theorem withRf_th_hreqs (s : State) (f : Regs → Regs) : (withRf s f).th.hreqs = s.th.hreqs := rfl
@[simp] theorem withRf_th_rays (s : State) (f : Regs → Regs) : (withRf s f).th.rays = s.th.rays := rfl
@[simp] theorem withRf_th_lcur (s : State) (f : Regs → Regs) : (withRf s f).th.lcur = s.th.lcur := rfl
@[simp] theorem withRf_th_csel (s : State) (f : Regs → Regs) : (withRf s f).th.csel = s.th.csel := rfl
@[simp] theorem withRf_th_hit (s : State) (f : Regs → Regs) : (withRf s f).th.hit = s.th.hit := rfl
@[simp] theorem withRf_th_fault (s : State) (f : Regs → Regs) : (withRf s f).th.fault = s.th.fault := rfl
@[simp] theorem withRf_th_yields (s : State) (f : Regs → Regs) : (withRf s f).th.yields = s.th.yields := rfl
@[simp] theorem withRf_th_dstep (s : State) (f : Regs → Regs) : (withRf s f).th.dstep = s.th.dstep := rfl
@[simp] theorem withRf_th_halting (s : State) (f : Regs → Regs) : (withRf s f).th.halting = s.th.halting := rfl
@[simp] theorem withRf_th_ending (s : State) (f : Regs → Regs) : (withRf s f).th.ending = s.th.ending := rfl
@[simp] theorem withRf_th_stage (s : State) (f : Regs → Regs) : (withRf s f).th.stage = s.th.stage := rfl
/-! ### Updates of the core in focus -/

@[simp] theorem withCore_here (s : State) (f : CoreSt → CoreSt) : (withCore s f).here = s.here := rfl
@[simp] theorem withCore_th (s : State) (f : CoreSt → CoreSt) : (withCore s f).th = s.th := rfl
@[simp] theorem withCore_core (s : State) (f : CoreSt → CoreSt) : (withCore s f).core = f s.core := rfl
@[simp] theorem withCore_cores (s : State) (f : CoreSt → CoreSt) : (withCore s f).cores = s.cores := rfl
@[simp] theorem withCore_clusters (s : State) (f : CoreSt → CoreSt) : (withCore s f).clusters = s.clusters := rfl
@[simp] theorem withCore_ctxs (s : State) (f : CoreSt → CoreSt) : (withCore s f).ctxs = s.ctxs := rfl
@[simp] theorem withCore_parts (s : State) (f : CoreSt → CoreSt) : (withCore s f).parts = s.parts := rfl
@[simp] theorem withCore_mem (s : State) (f : CoreSt → CoreSt) : (withCore s f).mem = s.mem := rfl
@[simp] theorem withCore_memKey (s : State) (f : CoreSt → CoreSt) : (withCore s f).memKey = s.memKey := rfl
@[simp] theorem withCore_older (s : State) (f : CoreSt → CoreSt) : (withCore s f).older = s.older := rfl
@[simp] theorem withCore_lines (s : State) (f : CoreSt → CoreSt) : (withCore s f).lines = s.lines := rfl
@[simp] theorem withCore_pathTime (s : State) (f : CoreSt → CoreSt) : (withCore s f).pathTime = s.pathTime := rfl
@[simp] theorem withCore_released (s : State) (f : CoreSt → CoreSt) : (withCore s f).released = s.released := rfl
@[simp] theorem withCore_fenced (s : State) (f : CoreSt → CoreSt) : (withCore s f).fenced = s.fenced := rfl
@[simp] theorem withCore_basePts (s : State) (f : CoreSt → CoreSt) : (withCore s f).basePts = s.basePts := rfl
@[simp] theorem withCore_host (s : State) (f : CoreSt → CoreSt) : (withCore s f).host = s.host := rfl
@[simp] theorem withCore_windows (s : State) (f : CoreSt → CoreSt) : (withCore s f).windows = s.windows := rfl
@[simp] theorem withCore_packets (s : State) (f : CoreSt → CoreSt) : (withCore s f).packets = s.packets := rfl
@[simp] theorem withCore_pktNum (s : State) (f : CoreSt → CoreSt) : (withCore s f).pktNum = s.pktNum := rfl
@[simp] theorem withCore_services (s : State) (f : CoreSt → CoreSt) : (withCore s f).services = s.services := rfl
@[simp] theorem withCore_waiting (s : State) (f : CoreSt → CoreSt) : (withCore s f).waiting = s.waiting := rfl
@[simp] theorem withCore_conns (s : State) (f : CoreSt → CoreSt) : (withCore s f).conns = s.conns := rfl
@[simp] theorem withCore_boot (s : State) (f : CoreSt → CoreSt) : (withCore s f).boot = s.boot := rfl
@[simp] theorem withCore_keyNum (s : State) (f : CoreSt → CoreSt) : (withCore s f).keyNum = s.keyNum := rfl
@[simp] theorem withCore_monitors (s : State) (f : CoreSt → CoreSt) : (withCore s f).monitors = s.monitors := rfl
@[simp] theorem withCore_monCfg (s : State) (f : CoreSt → CoreSt) : (withCore s f).monCfg = s.monCfg := rfl
@[simp] theorem withCore_meas (s : State) (f : CoreSt → CoreSt) : (withCore s f).meas = s.meas := rfl
@[simp] theorem withCore_cycle (s : State) (f : CoreSt → CoreSt) : (withCore s f).cycle = s.cycle := rfl
@[simp] theorem withCore_ticks (s : State) (f : CoreSt → CoreSt) : (withCore s f).ticks = s.ticks := rfl
@[simp] theorem withCore_rtime (s : State) (f : CoreSt → CoreSt) : (withCore s f).rtime = s.rtime := rfl
@[simp] theorem withCore_corrected (s : State) (f : CoreSt → CoreSt) : (withCore s f).corrected = s.corrected := rfl
@[simp] theorem withCore_macsecDrops (s : State) (f : CoreSt → CoreSt) : (withCore s f).macsecDrops = s.macsecDrops := rfl
@[simp] theorem withCore_retransmits (s : State) (f : CoreSt → CoreSt) : (withCore s f).retransmits = s.retransmits := rfl
@[simp] theorem withCore_hostOut (s : State) (f : CoreSt → CoreSt) : (withCore s f).hostOut = s.hostOut := rfl
@[simp] theorem withCore_mgmtOut (s : State) (f : CoreSt → CoreSt) : (withCore s f).mgmtOut = s.mgmtOut := rfl
@[simp] theorem withCore_sessions (s : State) (f : CoreSt → CoreSt) : (withCore s f).sessions = s.sessions := rfl
@[simp] theorem withCore_agenda (s : State) (f : CoreSt → CoreSt) : (withCore s f).agenda = s.agenda := rfl
@[simp] theorem withCore_steps (s : State) (f : CoreSt → CoreSt) : (withCore s f).steps = s.steps := rfl
/-! ### Updates of `ctxs` -/

@[simp] theorem setCtx_here (s : State) (c : Nat) (x : Context) : (setCtx s c x).here = s.here := rfl
@[simp] theorem setCtx_th (s : State) (c : Nat) (x : Context) : (setCtx s c x).th = s.th := rfl
@[simp] theorem setCtx_core (s : State) (c : Nat) (x : Context) : (setCtx s c x).core = s.core := rfl
@[simp] theorem setCtx_cores (s : State) (c : Nat) (x : Context) : (setCtx s c x).cores = s.cores := rfl
@[simp] theorem setCtx_clusters (s : State) (c : Nat) (x : Context) : (setCtx s c x).clusters = s.clusters := rfl
@[simp] theorem setCtx_ctxs (s : State) (c : Nat) (x : Context) : (setCtx s c x).ctxs = amSet s.ctxs c x := rfl
@[simp] theorem setCtx_parts (s : State) (c : Nat) (x : Context) : (setCtx s c x).parts = s.parts := rfl
@[simp] theorem setCtx_mem (s : State) (c : Nat) (x : Context) : (setCtx s c x).mem = s.mem := rfl
@[simp] theorem setCtx_memKey (s : State) (c : Nat) (x : Context) : (setCtx s c x).memKey = s.memKey := rfl
@[simp] theorem setCtx_older (s : State) (c : Nat) (x : Context) : (setCtx s c x).older = s.older := rfl
@[simp] theorem setCtx_lines (s : State) (c : Nat) (x : Context) : (setCtx s c x).lines = s.lines := rfl
@[simp] theorem setCtx_pathTime (s : State) (c : Nat) (x : Context) : (setCtx s c x).pathTime = s.pathTime := rfl
@[simp] theorem setCtx_released (s : State) (c : Nat) (x : Context) : (setCtx s c x).released = s.released := rfl
@[simp] theorem setCtx_fenced (s : State) (c : Nat) (x : Context) : (setCtx s c x).fenced = s.fenced := rfl
@[simp] theorem setCtx_basePts (s : State) (c : Nat) (x : Context) : (setCtx s c x).basePts = s.basePts := rfl
@[simp] theorem setCtx_host (s : State) (c : Nat) (x : Context) : (setCtx s c x).host = s.host := rfl
@[simp] theorem setCtx_windows (s : State) (c : Nat) (x : Context) : (setCtx s c x).windows = s.windows := rfl
@[simp] theorem setCtx_packets (s : State) (c : Nat) (x : Context) : (setCtx s c x).packets = s.packets := rfl
@[simp] theorem setCtx_pktNum (s : State) (c : Nat) (x : Context) : (setCtx s c x).pktNum = s.pktNum := rfl
@[simp] theorem setCtx_services (s : State) (c : Nat) (x : Context) : (setCtx s c x).services = s.services := rfl
@[simp] theorem setCtx_waiting (s : State) (c : Nat) (x : Context) : (setCtx s c x).waiting = s.waiting := rfl
@[simp] theorem setCtx_conns (s : State) (c : Nat) (x : Context) : (setCtx s c x).conns = s.conns := rfl
@[simp] theorem setCtx_boot (s : State) (c : Nat) (x : Context) : (setCtx s c x).boot = s.boot := rfl
@[simp] theorem setCtx_keyNum (s : State) (c : Nat) (x : Context) : (setCtx s c x).keyNum = s.keyNum := rfl
@[simp] theorem setCtx_monitors (s : State) (c : Nat) (x : Context) : (setCtx s c x).monitors = s.monitors := rfl
@[simp] theorem setCtx_monCfg (s : State) (c : Nat) (x : Context) : (setCtx s c x).monCfg = s.monCfg := rfl
@[simp] theorem setCtx_meas (s : State) (c : Nat) (x : Context) : (setCtx s c x).meas = s.meas := rfl
@[simp] theorem setCtx_cycle (s : State) (c : Nat) (x : Context) : (setCtx s c x).cycle = s.cycle := rfl
@[simp] theorem setCtx_ticks (s : State) (c : Nat) (x : Context) : (setCtx s c x).ticks = s.ticks := rfl
@[simp] theorem setCtx_rtime (s : State) (c : Nat) (x : Context) : (setCtx s c x).rtime = s.rtime := rfl
@[simp] theorem setCtx_corrected (s : State) (c : Nat) (x : Context) : (setCtx s c x).corrected = s.corrected := rfl
@[simp] theorem setCtx_macsecDrops (s : State) (c : Nat) (x : Context) : (setCtx s c x).macsecDrops = s.macsecDrops := rfl
@[simp] theorem setCtx_retransmits (s : State) (c : Nat) (x : Context) : (setCtx s c x).retransmits = s.retransmits := rfl
@[simp] theorem setCtx_hostOut (s : State) (c : Nat) (x : Context) : (setCtx s c x).hostOut = s.hostOut := rfl
@[simp] theorem setCtx_mgmtOut (s : State) (c : Nat) (x : Context) : (setCtx s c x).mgmtOut = s.mgmtOut := rfl
@[simp] theorem setCtx_sessions (s : State) (c : Nat) (x : Context) : (setCtx s c x).sessions = s.sessions := rfl
@[simp] theorem setCtx_agenda (s : State) (c : Nat) (x : Context) : (setCtx s c x).agenda = s.agenda := rfl
@[simp] theorem setCtx_steps (s : State) (c : Nat) (x : Context) : (setCtx s c x).steps = s.steps := rfl
/-! ### Updates of `parts` -/

@[simp] theorem setPart_here (s : State) (p : Nat) (x : Partition) : (setPart s p x).here = s.here := rfl
@[simp] theorem setPart_th (s : State) (p : Nat) (x : Partition) : (setPart s p x).th = s.th := rfl
@[simp] theorem setPart_core (s : State) (p : Nat) (x : Partition) : (setPart s p x).core = s.core := rfl
@[simp] theorem setPart_cores (s : State) (p : Nat) (x : Partition) : (setPart s p x).cores = s.cores := rfl
@[simp] theorem setPart_clusters (s : State) (p : Nat) (x : Partition) : (setPart s p x).clusters = s.clusters := rfl
@[simp] theorem setPart_ctxs (s : State) (p : Nat) (x : Partition) : (setPart s p x).ctxs = s.ctxs := rfl
@[simp] theorem setPart_parts (s : State) (p : Nat) (x : Partition) : (setPart s p x).parts = amSet s.parts p x := rfl
@[simp] theorem setPart_mem (s : State) (p : Nat) (x : Partition) : (setPart s p x).mem = s.mem := rfl
@[simp] theorem setPart_memKey (s : State) (p : Nat) (x : Partition) : (setPart s p x).memKey = s.memKey := rfl
@[simp] theorem setPart_older (s : State) (p : Nat) (x : Partition) : (setPart s p x).older = s.older := rfl
@[simp] theorem setPart_lines (s : State) (p : Nat) (x : Partition) : (setPart s p x).lines = s.lines := rfl
@[simp] theorem setPart_pathTime (s : State) (p : Nat) (x : Partition) : (setPart s p x).pathTime = s.pathTime := rfl
@[simp] theorem setPart_released (s : State) (p : Nat) (x : Partition) : (setPart s p x).released = s.released := rfl
@[simp] theorem setPart_fenced (s : State) (p : Nat) (x : Partition) : (setPart s p x).fenced = s.fenced := rfl
@[simp] theorem setPart_basePts (s : State) (p : Nat) (x : Partition) : (setPart s p x).basePts = s.basePts := rfl
@[simp] theorem setPart_host (s : State) (p : Nat) (x : Partition) : (setPart s p x).host = s.host := rfl
@[simp] theorem setPart_windows (s : State) (p : Nat) (x : Partition) : (setPart s p x).windows = s.windows := rfl
@[simp] theorem setPart_packets (s : State) (p : Nat) (x : Partition) : (setPart s p x).packets = s.packets := rfl
@[simp] theorem setPart_pktNum (s : State) (p : Nat) (x : Partition) : (setPart s p x).pktNum = s.pktNum := rfl
@[simp] theorem setPart_services (s : State) (p : Nat) (x : Partition) : (setPart s p x).services = s.services := rfl
@[simp] theorem setPart_waiting (s : State) (p : Nat) (x : Partition) : (setPart s p x).waiting = s.waiting := rfl
@[simp] theorem setPart_conns (s : State) (p : Nat) (x : Partition) : (setPart s p x).conns = s.conns := rfl
@[simp] theorem setPart_boot (s : State) (p : Nat) (x : Partition) : (setPart s p x).boot = s.boot := rfl
@[simp] theorem setPart_keyNum (s : State) (p : Nat) (x : Partition) : (setPart s p x).keyNum = s.keyNum := rfl
@[simp] theorem setPart_monitors (s : State) (p : Nat) (x : Partition) : (setPart s p x).monitors = s.monitors := rfl
@[simp] theorem setPart_monCfg (s : State) (p : Nat) (x : Partition) : (setPart s p x).monCfg = s.monCfg := rfl
@[simp] theorem setPart_meas (s : State) (p : Nat) (x : Partition) : (setPart s p x).meas = s.meas := rfl
@[simp] theorem setPart_cycle (s : State) (p : Nat) (x : Partition) : (setPart s p x).cycle = s.cycle := rfl
@[simp] theorem setPart_ticks (s : State) (p : Nat) (x : Partition) : (setPart s p x).ticks = s.ticks := rfl
@[simp] theorem setPart_rtime (s : State) (p : Nat) (x : Partition) : (setPart s p x).rtime = s.rtime := rfl
@[simp] theorem setPart_corrected (s : State) (p : Nat) (x : Partition) : (setPart s p x).corrected = s.corrected := rfl
@[simp] theorem setPart_macsecDrops (s : State) (p : Nat) (x : Partition) : (setPart s p x).macsecDrops = s.macsecDrops := rfl
@[simp] theorem setPart_retransmits (s : State) (p : Nat) (x : Partition) : (setPart s p x).retransmits = s.retransmits := rfl
@[simp] theorem setPart_hostOut (s : State) (p : Nat) (x : Partition) : (setPart s p x).hostOut = s.hostOut := rfl
@[simp] theorem setPart_mgmtOut (s : State) (p : Nat) (x : Partition) : (setPart s p x).mgmtOut = s.mgmtOut := rfl
@[simp] theorem setPart_sessions (s : State) (p : Nat) (x : Partition) : (setPart s p x).sessions = s.sessions := rfl
@[simp] theorem setPart_agenda (s : State) (p : Nat) (x : Partition) : (setPart s p x).agenda = s.agenda := rfl
@[simp] theorem setPart_steps (s : State) (p : Nat) (x : Partition) : (setPart s p x).steps = s.steps := rfl
/-! ### Updates of `clusters` -/

@[simp] theorem setClu_here (s : State) (k : Nat) (x : Cluster) : (setClu s k x).here = s.here := rfl
@[simp] theorem setClu_th (s : State) (k : Nat) (x : Cluster) : (setClu s k x).th = s.th := rfl
@[simp] theorem setClu_core (s : State) (k : Nat) (x : Cluster) : (setClu s k x).core = s.core := rfl
@[simp] theorem setClu_cores (s : State) (k : Nat) (x : Cluster) : (setClu s k x).cores = s.cores := rfl
@[simp] theorem setClu_clusters (s : State) (k : Nat) (x : Cluster) : (setClu s k x).clusters = amSet s.clusters k x := rfl
@[simp] theorem setClu_ctxs (s : State) (k : Nat) (x : Cluster) : (setClu s k x).ctxs = s.ctxs := rfl
@[simp] theorem setClu_parts (s : State) (k : Nat) (x : Cluster) : (setClu s k x).parts = s.parts := rfl
@[simp] theorem setClu_mem (s : State) (k : Nat) (x : Cluster) : (setClu s k x).mem = s.mem := rfl
@[simp] theorem setClu_memKey (s : State) (k : Nat) (x : Cluster) : (setClu s k x).memKey = s.memKey := rfl
@[simp] theorem setClu_older (s : State) (k : Nat) (x : Cluster) : (setClu s k x).older = s.older := rfl
@[simp] theorem setClu_lines (s : State) (k : Nat) (x : Cluster) : (setClu s k x).lines = s.lines := rfl
@[simp] theorem setClu_pathTime (s : State) (k : Nat) (x : Cluster) : (setClu s k x).pathTime = s.pathTime := rfl
@[simp] theorem setClu_released (s : State) (k : Nat) (x : Cluster) : (setClu s k x).released = s.released := rfl
@[simp] theorem setClu_fenced (s : State) (k : Nat) (x : Cluster) : (setClu s k x).fenced = s.fenced := rfl
@[simp] theorem setClu_basePts (s : State) (k : Nat) (x : Cluster) : (setClu s k x).basePts = s.basePts := rfl
@[simp] theorem setClu_host (s : State) (k : Nat) (x : Cluster) : (setClu s k x).host = s.host := rfl
@[simp] theorem setClu_windows (s : State) (k : Nat) (x : Cluster) : (setClu s k x).windows = s.windows := rfl
@[simp] theorem setClu_packets (s : State) (k : Nat) (x : Cluster) : (setClu s k x).packets = s.packets := rfl
@[simp] theorem setClu_pktNum (s : State) (k : Nat) (x : Cluster) : (setClu s k x).pktNum = s.pktNum := rfl
@[simp] theorem setClu_services (s : State) (k : Nat) (x : Cluster) : (setClu s k x).services = s.services := rfl
@[simp] theorem setClu_waiting (s : State) (k : Nat) (x : Cluster) : (setClu s k x).waiting = s.waiting := rfl
@[simp] theorem setClu_conns (s : State) (k : Nat) (x : Cluster) : (setClu s k x).conns = s.conns := rfl
@[simp] theorem setClu_boot (s : State) (k : Nat) (x : Cluster) : (setClu s k x).boot = s.boot := rfl
@[simp] theorem setClu_keyNum (s : State) (k : Nat) (x : Cluster) : (setClu s k x).keyNum = s.keyNum := rfl
@[simp] theorem setClu_monitors (s : State) (k : Nat) (x : Cluster) : (setClu s k x).monitors = s.monitors := rfl
@[simp] theorem setClu_monCfg (s : State) (k : Nat) (x : Cluster) : (setClu s k x).monCfg = s.monCfg := rfl
@[simp] theorem setClu_meas (s : State) (k : Nat) (x : Cluster) : (setClu s k x).meas = s.meas := rfl
@[simp] theorem setClu_cycle (s : State) (k : Nat) (x : Cluster) : (setClu s k x).cycle = s.cycle := rfl
@[simp] theorem setClu_ticks (s : State) (k : Nat) (x : Cluster) : (setClu s k x).ticks = s.ticks := rfl
@[simp] theorem setClu_rtime (s : State) (k : Nat) (x : Cluster) : (setClu s k x).rtime = s.rtime := rfl
@[simp] theorem setClu_corrected (s : State) (k : Nat) (x : Cluster) : (setClu s k x).corrected = s.corrected := rfl
@[simp] theorem setClu_macsecDrops (s : State) (k : Nat) (x : Cluster) : (setClu s k x).macsecDrops = s.macsecDrops := rfl
@[simp] theorem setClu_retransmits (s : State) (k : Nat) (x : Cluster) : (setClu s k x).retransmits = s.retransmits := rfl
@[simp] theorem setClu_hostOut (s : State) (k : Nat) (x : Cluster) : (setClu s k x).hostOut = s.hostOut := rfl
@[simp] theorem setClu_mgmtOut (s : State) (k : Nat) (x : Cluster) : (setClu s k x).mgmtOut = s.mgmtOut := rfl
@[simp] theorem setClu_sessions (s : State) (k : Nat) (x : Cluster) : (setClu s k x).sessions = s.sessions := rfl
@[simp] theorem setClu_agenda (s : State) (k : Nat) (x : Cluster) : (setClu s k x).agenda = s.agenda := rfl
@[simp] theorem setClu_steps (s : State) (k : Nat) (x : Cluster) : (setClu s k x).steps = s.steps := rfl
/-! ### Updates of `lines` -/

@[simp] theorem setLine_here (s : State) (l : Nat) (x : Line) : (setLine s l x).here = s.here := rfl
@[simp] theorem setLine_th (s : State) (l : Nat) (x : Line) : (setLine s l x).th = s.th := rfl
@[simp] theorem setLine_core (s : State) (l : Nat) (x : Line) : (setLine s l x).core = s.core := rfl
@[simp] theorem setLine_cores (s : State) (l : Nat) (x : Line) : (setLine s l x).cores = s.cores := rfl
@[simp] theorem setLine_clusters (s : State) (l : Nat) (x : Line) : (setLine s l x).clusters = s.clusters := rfl
@[simp] theorem setLine_ctxs (s : State) (l : Nat) (x : Line) : (setLine s l x).ctxs = s.ctxs := rfl
@[simp] theorem setLine_parts (s : State) (l : Nat) (x : Line) : (setLine s l x).parts = s.parts := rfl
@[simp] theorem setLine_mem (s : State) (l : Nat) (x : Line) : (setLine s l x).mem = s.mem := rfl
@[simp] theorem setLine_memKey (s : State) (l : Nat) (x : Line) : (setLine s l x).memKey = s.memKey := rfl
@[simp] theorem setLine_older (s : State) (l : Nat) (x : Line) : (setLine s l x).older = s.older := rfl
@[simp] theorem setLine_lines (s : State) (l : Nat) (x : Line) : (setLine s l x).lines = amSet s.lines l x := rfl
@[simp] theorem setLine_pathTime (s : State) (l : Nat) (x : Line) : (setLine s l x).pathTime = s.pathTime := rfl
@[simp] theorem setLine_released (s : State) (l : Nat) (x : Line) : (setLine s l x).released = s.released := rfl
@[simp] theorem setLine_fenced (s : State) (l : Nat) (x : Line) : (setLine s l x).fenced = s.fenced := rfl
@[simp] theorem setLine_basePts (s : State) (l : Nat) (x : Line) : (setLine s l x).basePts = s.basePts := rfl
@[simp] theorem setLine_host (s : State) (l : Nat) (x : Line) : (setLine s l x).host = s.host := rfl
@[simp] theorem setLine_windows (s : State) (l : Nat) (x : Line) : (setLine s l x).windows = s.windows := rfl
@[simp] theorem setLine_packets (s : State) (l : Nat) (x : Line) : (setLine s l x).packets = s.packets := rfl
@[simp] theorem setLine_pktNum (s : State) (l : Nat) (x : Line) : (setLine s l x).pktNum = s.pktNum := rfl
@[simp] theorem setLine_services (s : State) (l : Nat) (x : Line) : (setLine s l x).services = s.services := rfl
@[simp] theorem setLine_waiting (s : State) (l : Nat) (x : Line) : (setLine s l x).waiting = s.waiting := rfl
@[simp] theorem setLine_conns (s : State) (l : Nat) (x : Line) : (setLine s l x).conns = s.conns := rfl
@[simp] theorem setLine_boot (s : State) (l : Nat) (x : Line) : (setLine s l x).boot = s.boot := rfl
@[simp] theorem setLine_keyNum (s : State) (l : Nat) (x : Line) : (setLine s l x).keyNum = s.keyNum := rfl
@[simp] theorem setLine_monitors (s : State) (l : Nat) (x : Line) : (setLine s l x).monitors = s.monitors := rfl
@[simp] theorem setLine_monCfg (s : State) (l : Nat) (x : Line) : (setLine s l x).monCfg = s.monCfg := rfl
@[simp] theorem setLine_meas (s : State) (l : Nat) (x : Line) : (setLine s l x).meas = s.meas := rfl
@[simp] theorem setLine_cycle (s : State) (l : Nat) (x : Line) : (setLine s l x).cycle = s.cycle := rfl
@[simp] theorem setLine_ticks (s : State) (l : Nat) (x : Line) : (setLine s l x).ticks = s.ticks := rfl
@[simp] theorem setLine_rtime (s : State) (l : Nat) (x : Line) : (setLine s l x).rtime = s.rtime := rfl
@[simp] theorem setLine_corrected (s : State) (l : Nat) (x : Line) : (setLine s l x).corrected = s.corrected := rfl
@[simp] theorem setLine_macsecDrops (s : State) (l : Nat) (x : Line) : (setLine s l x).macsecDrops = s.macsecDrops := rfl
@[simp] theorem setLine_retransmits (s : State) (l : Nat) (x : Line) : (setLine s l x).retransmits = s.retransmits := rfl
@[simp] theorem setLine_hostOut (s : State) (l : Nat) (x : Line) : (setLine s l x).hostOut = s.hostOut := rfl
@[simp] theorem setLine_mgmtOut (s : State) (l : Nat) (x : Line) : (setLine s l x).mgmtOut = s.mgmtOut := rfl
@[simp] theorem setLine_sessions (s : State) (l : Nat) (x : Line) : (setLine s l x).sessions = s.sessions := rfl
@[simp] theorem setLine_agenda (s : State) (l : Nat) (x : Line) : (setLine s l x).agenda = s.agenda := rfl
@[simp] theorem setLine_steps (s : State) (l : Nat) (x : Line) : (setLine s l x).steps = s.steps := rfl

end Machine
end Sys2Proof
end

