-- ==== Sys2Proof/Laws/Operands.lean ====
section
/-!
SUPPORT. Laws of the operand forms: what a write of each position does and leaves, and what a predicated form answers.
-/
namespace Sys2Proof
namespace Machine

theorem SameMemory.refl (s : State) : SameMemory s s := ⟨fun _ => rfl, fun _ => rfl⟩
theorem sameMemory_of {s t : State} (h : t.mem = s.mem) (h' : t.host = s.host) : SameMemory s t :=
  ⟨fun a => by rw [h], fun a => by rw [h']⟩
theorem OnlyRf.memory {s t : State} (h : OnlyRf s t) : SameMemory s t := sameMemory_of (by rw [h]; rfl) (by rw [h]; rfl)

/-! ### Register writes -/

/-- Everything a write of a scalar register does. -/
theorem setS_wrote (s : State) (d : Fin 32) (v : W64) : WroteS s (setS s d v) d v := by
  by_cases hd : d = 0
  · refine ⟨rfl, ?_, ?_, ?_⟩
    · simp [setS, hd, SameButS]
    · intro n _
      simp [setS, hd]
    · simp [setS, hd, withRf]
  · refine ⟨rfl, ?_, ?_, ?_⟩
    · simp [setS, hd, SameButS]
    · intro n hn
      have : d.val ≠ n.val := fun h => hn (Fin.ext h.symm)
      simp [setS, hd, Vector.getElem_set_ne, this]
    · simp [setS, hd]
/-- Everything a write of a predicate register does. -/
theorem setP_wrote (s : State) (d : Fin 8) (v : W16) : WroteP s (setP s d v) d v := by
  by_cases hd : d = 0
  · refine ⟨rfl, ?_, ?_, ?_⟩
    · simp [setP, hd]
    · intro n _
      simp [setP, hd]
    · simp [setP, hd, withRf]
  · refine ⟨rfl, ?_, ?_, ?_⟩
    · simp [setP, hd]
    · intro n hn
      have : d.val ≠ n.val := fun h => hn (Fin.ext h.symm)
      simp [setP, hd, Vector.getElem_set_ne, this]
    · simp [setP, hd]
/-- Everything a write of an index register does. -/
theorem setX_wrote (s : State) (d : Fin 8) (v : W32) : WroteX s (setX s d v) d v := by
  refine ⟨rfl, rfl, ?_, ?_⟩
  · intro n hn
    have : d.val ≠ n.val := fun h => hn (Fin.ext h.symm)
    simp [setX, Vector.getElem_set_ne, this]
  · simp [setX]
/-- Everything a write of a scalar position does. -/
theorem writeS_wrote (s : State) (d : SOp) (v : W64) : WroteSOp s (writeS s d v) d v := by
  cases d with
  | s r => exact setS_wrote s r v
  | sc k => exact ⟨rfl, rfl⟩
theorem WroteS.memory {s t : State} {d : Fin 32} {v : W64} (h : WroteS s t d v) : SameMemory s t := h.1.memory
theorem WroteSOp.memory {s t : State} {d : SOp} {v : W64} (h : WroteSOp s t d v) : SameMemory s t := by
  cases d with
  | s r => exact h.1.memory
  | sc k => exact h.1.memory
theorem WroteP.memory {s t : State} {d : Fin 8} {v : W16} (h : WroteP s t d v) : SameMemory s t := h.1.memory
theorem WroteX.memory {s t : State} {d : Fin 8} {v : W32} (h : WroteX s t d v) : SameMemory s t := h.1.memory

/-! ### Vector destinations -/

theorem poolBlock_amSet_same (p : AMap V512) (b : Nat) (v : V512) : poolBlock (amSet p b v) b = v := amGet_amSet_same ..
theorem poolBlock_amSet_other (p : AMap V512) {b c : Nat} (v : V512) (h : c ≠ b) : poolBlock (amSet p b v) c = poolBlock p c :=
  amGet_amSet_other _ _ _ h
/-- Everything a write of a vector destination does. -/
theorem writeVD_wrote (s : State) (d : VDst) (v : V512) : WroteVD s (writeVD s d v) d v := by
  cases d with
  | base n =>
    refine ⟨rfl, rfl, ?_, ?_⟩
    · intro m hm
      have : n.val ≠ m.val := fun h => hm (Fin.ext h.symm)
      simp [writeVD, Vector.getElem_set_ne, this]
    · simp [writeVD]
  | ext i => exact ⟨rfl, poolBlock_amSet_same .., fun b hb => poolBlock_amSet_other _ _ hb⟩
  | queue n =>
    have h : n.val < 16 := n.isLt
    refine ⟨?_, ?_, ?_⟩
    · simp only [writeVD, pushQ, withCore, qSet, h, dif_pos]
    · simp [writeVD, pushQ, withCore, qSet, qOf, h]
    · intro m hm
      have : n.val ≠ m.val := fun e => hm (Fin.ext e.symm)
      simp [writeVD, pushQ, withCore, qSet, Vector.getElem_set_ne, this]

/-! ### Predicated forms -/

@[simp] theorem runBody_ok (s t : State) : runBody s (.ok t) = t := rfl
@[simp] theorem runBody_error (s : State) (x : Stop) : runBody s (.error x) = onStop s x := rfl
theorem bit0Form_true {s : State} {p : Pred} (b : Except Stop State) (h : pred0 s p = true) : bit0Form s p b = runBody s b := by
  simp [bit0Form, h]
theorem bit0Form_false {s : State} {p : Pred} (b : Except Stop State) (h : pred0 s p = false) : bit0Form s p b = s := by
  simp [bit0Form, h]

theorem scalarResult_of {i : Instr} {p : Pred} {d : SOp} {v : State → W64}
    (h : ∀ s, exec i s = .next (bit0Form s p (.ok (writeS s d (v s))))) : ScalarResult i p d v := fun s =>
  ⟨fun hp => ⟨_, by rw [h, bit0Form_true _ hp, runBody_ok], writeS_wrote s d (v s), (writeS_wrote s d (v s)).memory⟩,
   fun hp => by rw [h, bit0Form_false _ hp]⟩
theorem registerResult_of {i : Instr} {p : Pred} {d : Fin 32} {v : State → W64}
    (h : ∀ s, exec i s = .next (bit0Form s p (.ok (setS s d (v s))))) : RegisterResult i p d v := fun s =>
  ⟨fun hp => ⟨_, by rw [h, bit0Form_true _ hp, runBody_ok], setS_wrote s d (v s), (setS_wrote s d (v s)).memory⟩,
   fun hp => by rw [h, bit0Form_false _ hp]⟩
theorem predicateResult_of {i : Instr} {p : Pred} {d : Fin 8} {v : State → W16}
    (h : ∀ s, exec i s = .next (bit0Form s p (.ok (setP s d (v s))))) : PredicateResult i p d v := fun s =>
  ⟨fun hp => ⟨_, by rw [h, bit0Form_true _ hp, runBody_ok], setP_wrote s d (v s), (setP_wrote s d (v s)).memory⟩,
   fun hp => by rw [h, bit0Form_false _ hp]⟩
theorem indexResult_of {i : Instr} {p : Pred} {d : Fin 8} {v : State → W32}
    (h : ∀ s, exec i s = .next (bit0Form s p (.ok (setX s d (v s))))) : IndexResult i p d v := fun s =>
  ⟨fun hp => ⟨_, by rw [h, bit0Form_true _ hp, runBody_ok], setX_wrote s d (v s), (setX_wrote s d (v s)).memory⟩,
   fun hp => by rw [h, bit0Form_false _ hp]⟩

end Machine
end Sys2Proof
end

