-- ==== Sys2Proof/Laws/Home.lean ====
section
/-!
SUPPORT. Laws of the home side of memory: what each operation of a slice may change, and that it keeps the canonical form.
-/
namespace Sys2Proof
namespace Machine

theorem HomeOnly.refl (s : State) : HomeOnly s s := ⟨rfl, fun _ => rfl⟩
theorem HomeOnly.trans {s t u : State} (h : HomeOnly s t) (k : HomeOnly t u) : HomeOnly s u := by
  refine ⟨by rw [k.1, h.1], fun c => ?_⟩
  have h2 := k.2 c
  rw [h.2 c] at h2
  exact h2
/-- A step of the home side that keeps canonical memory. -/
def HomeStep (s t : State) : Prop := HomeOnly s t ∧ (s.MemoryCanonical → t.MemoryCanonical)
theorem HomeStep.refl (s : State) : HomeStep s s := ⟨.refl s, id⟩
theorem HomeStep.trans {s t u : State} (h : HomeStep s t) (k : HomeStep t u) : HomeStep s u :=
  ⟨h.1.trans k.1, fun c => k.2 (h.2 c)⟩
theorem HomeStep.foldl {α : Type} {f : State → α → State} (h : ∀ s x, HomeStep s (f s x)) (l : List α) (s : State) :
    HomeStep s (l.foldl f s) := by
  induction l generalizing s with
  | nil => exact .refl s
  | cons x l ih => exact (h s x).trans (ih _)
theorem HomeStep.foldl_pair {α β : Type} {f : β × State → α → β × State} (h : ∀ r x, HomeStep r.2 (f r x).2) (l : List α)
    (r : β × State) : HomeStep r.2 (l.foldl f r).2 := by
  induction l generalizing r with
  | nil => exact .refl r.2
  | cons x l ih => exact (h r x).trans (ih _)
/-- Lines, clusters and the older contents may change freely. -/
theorem HomeStep.free {s t : State} (h : HomeOnly s t) (hm : t.mem = s.mem) : HomeStep s t := by
  refine ⟨h, fun c => ?_⟩
  have hh : t.host = s.host := by rw [h.1]
  simpa [State.MemoryCanonical, hm, hh] using c
theorem setLine_step (s : State) (l : Nat) (x : Line) : HomeStep s (setLine s l x) := .free ⟨rfl, fun _ => rfl⟩ rfl
theorem getClu_setClu (s : State) (k j : Nat) (c : Cluster) : getClu (setClu s k c) j = if j = k then c else getClu s j := by
  by_cases h : j = k
  · subst h; simp [getClu, setClu]
  · simp [getClu, setClu, h, amGet_amSet_other]
/-- A cluster's U copies, write-back buffer and miss table may change freely. -/
theorem onClu_step (s : State) (k : Nat) (u : Cluster → AMap UCopy) (w : Cluster → List Nat) (m : Cluster → List Miss) :
    HomeStep s (onClu s k fun c => { c with ucopies := u c, wbuf := w c, miss := m c }) := by
  refine .free ⟨rfl, fun j => ?_⟩ rfl
  by_cases h : j = k
  · subst h; simp [onClu, getClu_setClu]
  · simp [onClu, getClu_setClu, h]
theorem dropU_step (s : State) (k : Nat) (f : AMap UCopy → AMap UCopy) :
    HomeStep s (onClu s k fun c => { c with ucopies := f c.ucopies }) := onClu_step s k (fun c => f c.ucopies) (·.wbuf) (·.miss)
theorem wbuf_step (s : State) (k : Nat) (f : List Nat → List Nat) :
    HomeStep s (onClu s k fun c => { c with wbuf := f c.wbuf }) := onClu_step s k (·.ucopies) (fun c => f c.wbuf) (·.miss)
theorem miss_step (s : State) (k : Nat) (f : List Miss → List Miss) :
    HomeStep s (onClu s k fun c => { c with miss := f c.miss }) := onClu_step s k (·.ucopies) (·.wbuf) (fun c => f c.miss)
theorem storeBytes_step (s : State) (l : List (Nat × Byte)) : HomeStep s (storeBytes s l) :=
  ⟨⟨rfl, fun _ => rfl⟩, fun c => ⟨memSetAll_wf c.1, c.2⟩⟩
theorem HomeStep.bytes (s : State) (l : List (Nat × Byte)) (o : AMap (V512 × Option Nat)) (k : AMap Nat) :
    HomeStep s { s with mem := memSetAll s.mem l, older := o, memKey := k } :=
  ⟨⟨rfl, fun _ => rfl⟩, fun c => ⟨memSetAll_wf c.1, c.2⟩⟩
theorem markWord_step (s : State) (w : Nat) : HomeStep s (markWord s w) := setLine_step _ _ _

theorem keepOlder_step (s : State) (sec : Nat) : HomeStep s (keepOlder s sec) := by
  unfold keepOlder
  split
  · exact .refl s
  · exact .free ⟨rfl, fun _ => rfl⟩ rfl
theorem rekeySector_step (s : State) (key sec : Nat) : HomeStep s (rekeySector s key sec) := by
  unfold rekeySector
  split
  · exact .refl s
  · exact .bytes s _ _ _
theorem writeBack_step (s : State) (l : Nat) : HomeStep s (writeBack s l) := .free ⟨rfl, fun _ => rfl⟩ rfl
theorem dropLine_step (s : State) (l : Nat) : HomeStep s (dropLine s l) := by
  unfold dropLine
  simp only []
  split
  · exact (wbuf_step s _ _).trans (setLine_step _ _ _)
  · exact setLine_step _ _ _
theorem drainLine_step (s : State) (l : Nat) : HomeStep s (drainLine s l) := (writeBack_step s l).trans (dropLine_step _ l)
/-- Everything an eviction may change. -/
theorem evictLine_step (s : State) (l : Nat) : HomeStep s (evictLine s l) := by
  unfold evictLine
  simp only []
  split
  · exact .refl s
  · split
    · exact dropLine_step s l
    · refine HomeStep.trans ?_ (HomeStep.trans (setLine_step _ l _) (wbuf_step _ _ (· ++ [l])))
      split
      · split
        · exact .refl s
        · exact drainLine_step s _
      · exact .refl s
theorem lineRoom_step (s : State) (l : Nat) : HomeStep s (lineRoom s l) := by
  have h : HomeStep s (if (getLine s l).buffered then drainLine s l else s) := by
    split
    · exact drainLine_step s l
    · exact .refl s
  unfold lineRoom
  simp only []
  refine h.trans ?_
  generalize (if (getLine s l).buffered then drainLine s l else s) = t
  split
  · exact .refl _
  · split
    · exact .refl _
    · exact evictLine_step _ _
theorem alignSlot_step (s : State) (slot l : Nat) : HomeStep s (alignSlot s slot l) := by
  unfold alignSlot
  simp only []
  split
  · exact drainLine_step s l
  · exact .refl s
theorem prepSector_step (s : State) (ctx slot sec : Nat) : HomeStep s (prepSector s ctx slot sec) :=
  (((lineRoom_step s _).trans (keepOlder_step _ sec)).trans (rekeySector_step _ _ _)).trans (setLine_step _ _ _)
theorem putBytes_step (s : State) (ctx slot : Nat) (l : List (Nat × Byte)) : HomeStep s (putBytes s ctx slot l) := by
  have h := HomeStep.foldl (f := fun s sec => prepSector s ctx slot sec) (fun s x => prepSector_step s ctx slot x) (sectorsOf l) s
  exact (h.trans (storeBytes_step _ l)).trans (HomeStep.foldl markWord_step _ _)
theorem mergeWord_step (l : Nat) (u : UCopy) (s : State) (e : Nat × W64) : HomeStep s (mergeWord l u s e) := putBytes_step _ _ _ _
theorem notePath_step (s : State) (p : Path) (w : Nat) : HomeStep s (notePath s p w) := .free ⟨rfl, fun _ => rfl⟩ rfl
theorem stampLines_step (s : State) (p : Path) (pts : Nat) (ls : List Nat) : HomeStep s (stampLines s p pts ls).2 :=
  (HomeStep.foldl (fun s x => setLine_step s x _) ls s).trans (notePath_step _ _ _)
theorem mergeU_step (s : State) (k l : Nat) (u : UCopy) : HomeStep s (mergeU s k l u) := by
  have h := dropU_step s k fun m => amDel m l
  rw [mergeU]
  split
  · exact h
  · exact (h.trans ((alignSlot_step _ _ _).trans (HomeStep.foldl (mergeWord_step l u) u.words _))).trans (stampLines_step _ _ _ _)
theorem recallU_step (s : State) (l : Nat) : HomeStep s (recallU s l) := HomeStep.foldl (fun s _ => mergeU_step s _ l _) _ _
theorem mergeAllU_step (s : State) (k : Nat) : HomeStep s (mergeAllU s k) := HomeStep.foldl (fun s _ => mergeU_step s k _ _) _ _
theorem restoreSector_step (s : State) (sec : Nat) : HomeStep s (restoreSector s sec) := by
  unfold restoreSector
  split
  · exact .bytes s _ _ _
  · exact .refl s
theorem dropNoWriteBack_step (s : State) (l : Nat) : HomeStep s (dropNoWriteBack s l) := by
  unfold dropNoWriteBack
  refine HomeStep.trans (HomeStep.foldl (fun s i => ?_) _ s) (dropLine_step _ _)
  split
  · exact restoreSector_step _ _
  · exact .refl _
theorem touchLine_step (s : State) (slot l : Nat) : HomeStep s (touchLine s slot l) := (recallU_step s l).trans (alignSlot_step _ slot l)
theorem landFill_step (s : State) (ctx slot sec : Nat) : HomeStep s (landFill s ctx slot sec) := by
  unfold landFill
  simp only []
  refine (lineRoom_step s (sec / 4)).trans (HomeStep.trans ?_ ((setLine_step _ _ _).trans (miss_step _ _ fun l => dropMiss l sec)))
  split
  · exact touchLine_step _ _ _
  · exact .refl _
theorem missRoom_step (s : State) (sec : Nat) : HomeStep s (missRoom s sec) := by
  unfold missRoom
  simp only []
  split
  · refine HomeStep.foldl (fun s x => ?_) _ s
    split
    · exact .refl _
    · exact (touchLine_step _ _ _).trans (landFill_step _ _ _ _)
  · exact .refl _
/-- Everything a fill may change. -/
theorem fillSector_step (s : State) (ctx slot sec : Nat) : HomeStep s (fillSector s ctx slot sec) := by
  unfold fillSector
  split
  · exact .refl _
  · exact (missRoom_step s sec).trans (landFill_step _ _ _ _)
/-- Everything a read at home may change. -/
theorem homeRead_step (s : State) (ctx slot pa n : Nat) : HomeStep s (homeRead s ctx slot pa n).2 :=
  HomeStep.foldl (fun _ _ => (touchLine_step _ _ _).trans (fillSector_step _ _ _ _)) _ _
/-- Everything a write at home may change. -/
theorem homeWrite_step (s : State) (ctx slot : Nat) (p : Path) (pts : Nat) (l : List (Nat × Byte)) :
    HomeStep s (homeWrite s ctx slot p pts l).2 := by
  unfold homeWrite
  simp only []
  exact ((HomeStep.foldl (fun s x => touchLine_step s slot x) _ s).trans (putBytes_step _ _ _ _)).trans (stampLines_step _ _ _ _)
/-- Everything the performance of an active message at home may change. -/
theorem amsgAtHome_step (s : State) (g : Nat) (q : AmsgReq) : HomeStep s (amsgAtHome s g q).2 := by
  have put : HomeStep s (homeRead s ((getCore s (coreNo g)).ctx.getD 0) q.slot q.pa 64).2 := homeRead_step _ _ _ _ _
  unfold amsgAtHome
  simp only []
  split <;> split
  · exact ((put.trans (stampLines_step _ _ _ _)).trans (writeBack_step _ _)).trans (dropLine_step _ _)
  · exact ((put.trans (putBytes_step _ _ _ _)).trans (stampLines_step _ _ _ _)).trans ((writeBack_step _ _).trans (dropLine_step _ _))
  · exact put.trans (stampLines_step _ _ _ _)
  · exact (put.trans (putBytes_step _ _ _ _)).trans (stampLines_step _ _ _ _)
theorem leaseHome_step (s : State) (ctx slot pts : Nat) (secs : List Nat) : HomeStep s (leaseHome s ctx slot pts secs).2 := by
  unfold leaseHome
  simp only []
  exact (HomeStep.foldl (fun _ _ => (touchLine_step _ _ _).trans (fillSector_step _ _ _ _)) secs s).trans
    (HomeStep.foldl (fun _ _ => setLine_step _ _ _) _ _)

/-- A step of the home side that, while no U copy stands, leaves every byte of HBM and its keys, and lets no U copy come to stand. -/
def HomeQuiet (s t : State) : Prop :=
  HomeStep s t ∧ (s.NoUCopies → t.NoUCopies ∧ t.mem = s.mem ∧ t.memKey = s.memKey)
theorem HomeQuiet.refl (s : State) : HomeQuiet s s := ⟨.refl s, fun n => ⟨n, rfl, rfl⟩⟩
theorem HomeQuiet.trans {s t u : State} (h : HomeQuiet s t) (k : HomeQuiet t u) : HomeQuiet s u := by
  refine ⟨h.1.trans k.1, fun n => ?_⟩
  obtain ⟨a, b, c⟩ := h.2 n
  obtain ⟨d, e, f⟩ := k.2 a
  exact ⟨d, e.trans b, f.trans c⟩
theorem HomeQuiet.foldl {α : Type} {f : State → α → State} (h : ∀ s x, HomeQuiet s (f s x)) (l : List α) (s : State) :
    HomeQuiet s (l.foldl f s) := by
  induction l generalizing s with
  | nil => exact .refl s
  | cons x l ih => exact (h s x).trans (ih _)
theorem setLine_quiet (s : State) (l : Nat) (x : Line) : HomeQuiet s (setLine s l x) := ⟨setLine_step s l x, fun n => ⟨n, rfl, rfl⟩⟩
theorem mem_amSet {α : Type} {m : AMap α} {k : Nat} {v : α} {e : Nat × α} (h : e ∈ amSet m k v) : e ∈ m ∨ e = (k, v) := by
  induction m with
  | nil => simp [amSet] at h; exact .inr h
  | cons a m ih =>
    obtain ⟨j, w⟩ := a
    simp only [amSet] at h
    split at h
    · rcases List.mem_cons.mp h with h | h
      · exact .inr h
      · exact .inl (List.mem_cons_of_mem _ h)
    · split at h
      · rcases List.mem_cons.mp h with h | h
        · exact .inr h
        · exact .inl h
      · rcases List.mem_cons.mp h with h | h
        · exact .inl (h ▸ List.mem_cons_self)
        · rcases ih h with h | h
          · exact .inl (List.mem_cons_of_mem _ h)
          · exact .inr h
theorem amGet_mem {α : Type} {d : α} {m : AMap α} {k : Nat} : amGet d m k = d ∨ (k, amGet d m k) ∈ m := by
  induction m with
  | nil => exact .inl rfl
  | cons a m ih =>
    obtain ⟨j, w⟩ := a
    simp only [amGet]
    split
    · next h => subst h; exact .inr (List.mem_cons_self)
    · split
      · exact .inl rfl
      · rcases ih with h | h
        · exact .inl h
        · exact .inr (List.mem_cons_of_mem _ h)
theorem NoUCopies_getClu {s : State} (n : s.NoUCopies) (k : Nat) : (getClu s k).ucopies = [] := by
  rcases amGet_mem (d := Cluster.init) (m := s.clusters) (k := k) with h | h
  · rw [getClu, h]; rfl
  · exact n _ h
/-- A change of a cluster that leaves its U copies lets none come to stand. -/
theorem onClu_noU {s : State} (n : s.NoUCopies) (k : Nat) (f : Cluster → Cluster) (h : ∀ c, (f c).ucopies = c.ucopies) :
    (onClu s k f).NoUCopies := by
  intro e he
  rcases mem_amSet he with h' | rfl
  · exact n e h'
  · exact (h _).trans (NoUCopies_getClu n k)
theorem wbuf_quiet (s : State) (k : Nat) (f : List Nat → List Nat) : HomeQuiet s (onClu s k fun c => { c with wbuf := f c.wbuf }) :=
  ⟨wbuf_step s k f, fun n => ⟨onClu_noU n k _ fun _ => rfl, rfl, rfl⟩⟩
theorem miss_quiet (s : State) (k : Nat) (f : List Miss → List Miss) : HomeQuiet s (onClu s k fun c => { c with miss := f c.miss }) :=
  ⟨miss_step s k f, fun n => ⟨onClu_noU n k _ fun _ => rfl, rfl, rfl⟩⟩
theorem writeBack_quiet (s : State) (l : Nat) : HomeQuiet s (writeBack s l) := ⟨writeBack_step s l, fun n => ⟨n, rfl, rfl⟩⟩
theorem dropLine_quiet (s : State) (l : Nat) : HomeQuiet s (dropLine s l) := by
  unfold dropLine
  simp only []
  split
  · exact (wbuf_quiet s _ _).trans (setLine_quiet _ _ _)
  · exact setLine_quiet _ _ _
theorem drainLine_quiet (s : State) (l : Nat) : HomeQuiet s (drainLine s l) := (writeBack_quiet s l).trans (dropLine_quiet _ l)
theorem evictLine_quiet (s : State) (l : Nat) : HomeQuiet s (evictLine s l) := by
  unfold evictLine
  simp only []
  split
  · exact .refl s
  · split
    · exact dropLine_quiet s l
    · refine HomeQuiet.trans ?_ (HomeQuiet.trans (setLine_quiet _ l _) (wbuf_quiet _ _ (· ++ [l])))
      split
      · split
        · exact .refl s
        · exact drainLine_quiet s _
      · exact .refl s
theorem lineRoom_quiet (s : State) (l : Nat) : HomeQuiet s (lineRoom s l) := by
  have h : HomeQuiet s (if (getLine s l).buffered then drainLine s l else s) := by
    split
    · exact drainLine_quiet s l
    · exact .refl s
  unfold lineRoom
  simp only []
  refine h.trans ?_
  generalize (if (getLine s l).buffered then drainLine s l else s) = t
  split
  · exact .refl _
  · split
    · exact .refl _
    · exact evictLine_quiet _ _
/-- Without U copies there is nothing to recall. -/
theorem recallU_none {s : State} (n : s.NoUCopies) (l : Nat) : recallU s l = s := by
  have h : holdersU s l = [] := by
    unfold holdersU
    rw [List.filterMap_eq_nil_iff]
    intro e he
    rw [n e he]
    rfl
  rw [recallU, h]
  rfl
theorem recallU_quiet (s : State) (l : Nat) : HomeQuiet s (recallU s l) :=
  ⟨recallU_step s l, fun n => by rw [recallU_none n]; exact ⟨n, rfl, rfl⟩⟩
theorem alignSlot_quiet (s : State) (slot l : Nat) : HomeQuiet s (alignSlot s slot l) := by
  unfold alignSlot
  simp only []
  split
  · exact drainLine_quiet s l
  · exact .refl s
theorem touchLine_quiet (s : State) (slot l : Nat) : HomeQuiet s (touchLine s slot l) :=
  (recallU_quiet s l).trans (alignSlot_quiet _ slot l)
theorem landFill_quiet (s : State) (ctx slot sec : Nat) : HomeQuiet s (landFill s ctx slot sec) := by
  unfold landFill
  simp only []
  refine (lineRoom_quiet s (sec / 4)).trans (HomeQuiet.trans ?_ ((setLine_quiet _ _ _).trans (miss_quiet _ _ fun l => dropMiss l sec)))
  split
  · exact touchLine_quiet _ _ _
  · exact .refl _
theorem missRoom_quiet (s : State) (sec : Nat) : HomeQuiet s (missRoom s sec) := by
  unfold missRoom
  simp only []
  split
  · refine HomeQuiet.foldl (fun s x => ?_) _ s
    split
    · exact .refl _
    · exact (touchLine_quiet _ _ _).trans (landFill_quiet _ _ _ _)
  · exact .refl _
theorem fillSector_quiet (s : State) (ctx slot sec : Nat) : HomeQuiet s (fillSector s ctx slot sec) := by
  unfold fillSector
  split
  · exact .refl _
  · exact (missRoom_quiet s sec).trans (landFill_quiet _ _ _ _)
theorem homeRead_quiet (s : State) (ctx slot pa n : Nat) : HomeQuiet s (homeRead s ctx slot pa n).2 :=
  HomeQuiet.foldl (fun _ _ => (touchLine_quiet _ _ _).trans (fillSector_quiet _ _ _ _)) _ _
theorem leaseHome_quiet (s : State) (ctx slot pts : Nat) (secs : List Nat) : HomeQuiet s (leaseHome s ctx slot pts secs).2 := by
  unfold leaseHome
  simp only []
  exact (HomeQuiet.foldl (fun _ _ => (touchLine_quiet _ _ _).trans (fillSector_quiet _ _ _ _)) secs s).trans
    (HomeQuiet.foldl (fun _ _ => setLine_quiet _ _ _) _ _)

end Machine
end Sys2Proof
end

