-- ==== Sys2Proof/Laws/Access.lean ====
section
/-!
SUPPORT. Laws of the shared accesses of a core: what a translation, a load on path C or K, a fetch and the check of a target may
change.
-/
namespace Sys2Proof
namespace Machine

theorem AccessOnly.refl (s : State) : AccessOnly s s := ⟨rfl, fun _ => rfl, fun n => ⟨n, rfl, rfl⟩⟩
theorem AccessOnly.trans {s t u : State} (h : AccessOnly s t) (k : AccessOnly t u) : AccessOnly s u := by
  refine ⟨?_, fun c => ?_, fun n => ?_⟩
  · rw [k.1, h.1]
  · have h2 := k.2.1 c
    rw [h.2.1 c] at h2
    exact h2
  · obtain ⟨n1, m1, k1⟩ := h.2.2 n
    obtain ⟨n2, m2, k2⟩ := k.2.2 n1
    exact ⟨n2, m2.trans m1, k2.trans k1⟩
theorem AccessOnly.here {s t : State} (h : AccessOnly s t) : t.here = s.here := by rw [h.1]
theorem XlateOnly.refl (s : State) : XlateOnly s s := ⟨.refl s, rfl, rfl, rfl⟩
theorem XlateOnly.trans {s t u : State} (h : XlateOnly s t) (k : XlateOnly t u) : XlateOnly s u :=
  ⟨h.1.trans k.1, k.2.1.trans h.2.1, k.2.2.1.trans h.2.2.1, k.2.2.2.trans h.2.2.2⟩
theorem HomeQuiet.xlate {s t : State} (h : HomeQuiet s t) : XlateOnly s t := by
  have e := h.1.1.1
  refine ⟨⟨by rw [e], fun k => by rw [h.1.1.2 k], h.2⟩, by rw [e], by rw [e], by rw [e]⟩
theorem HomeQuiet.access {s t : State} (h : HomeQuiet s t) : AccessOnly s t := h.xlate.1

theorem getCore_mine (s : State) : getCore s (myCore s) = s.core := by simp [getCore, myCore]
theorem onCore_mine (s : State) (f : CoreSt → CoreSt) : onCore s (myCore s) f = { s with core := f s.core } := by
  simp [onCore, setCore, getCore, myCore]
/-- A cluster's TLB and walks may change freely. -/
theorem cluXlate_only (s : State) (k : Nat) (f : Cluster → List TlbEntry) (g : Cluster → List (Nat × Nat × Nat × Nat × W64)) :
    XlateOnly s (onClu s k fun c => { c with tlb := f c, walks := g c }) := by
  refine ⟨⟨rfl, fun j => ?_, fun n => ⟨onClu_noU n k _ fun _ => rfl, rfl, rfl⟩⟩, rfl, rfl, rfl⟩
  by_cases h : j = k
  · subst h; simp [onClu, getClu_setClu]
  · simp [onClu, getClu_setClu, h]
theorem endWalk_only (s : State) (ctx k va : Nat) : XlateOnly s (endWalk s ctx k va) :=
  cluXlate_only s k (·.tlb) fun c => c.walks.filter fun w => !(w.1 == ctx && w.2.1 == va / 4096)
theorem takeTlb_only (s : State) (k : Nat) (e : TlbEntry) : XlateOnly s (takeTlb s (some (myCore s)) k e) := by
  rw [takeTlb]
  simp only [onCore_mine]
  exact XlateOnly.trans (t := { s with core := { s.core with tlb := withEntry 64 e s.core.tlb } })
    ⟨⟨rfl, fun _ => rfl, fun n => ⟨n, rfl, rfl⟩⟩, rfl, rfl, rfl⟩ (cluXlate_only _ k (fun c => withEntry 2048 e c.tlb) (·.walks))
theorem keyCheck_ok {s s' : State} {x y : Xl} (h : keyCheck s x = .ok y s') : s' = s := by
  unfold keyCheck at h
  split at h
  · cases h; rfl
  · cases h
/-- Everything a walk may change: its entries are read at home. -/
theorem walk_quiet (ctx : Nat) (acc : Acc) (user : Bool) (va : Nat) (n a : Nat) (s : State) :
    HomeQuiet s (walk ctx acc user va n a s).2 := by
  induction n generalizing a s with
  | zero => exact .refl s
  | succ n ih =>
    have r := homeRead_quiet s ctx (8 * ctx) (pteAddr va n a) 8
    unfold walk
    simp only []
    split
    · exact .refl s
    · split
      · exact r
      · split
        · exact r
        · exact r.trans (ih _ _)
        · repeat (first | exact r | split)
theorem leafFor_only (s : State) (ctx k : Nat) (core : Option Nat) (acc : Acc) (user : Bool) (va root : Nat) :
    XlateOnly s (leafFor s ctx k core acc user va root).2 := by
  unfold leafFor
  simp only []
  split
  · exact .refl s
  · exact (endWalk_only s ctx k va).trans (walk_quiet _ _ _ _ _ _ _).xlate
/-- Everything a translation for the core in focus may change. -/
theorem xlate_only {s s' : State} {ctx clu : Nat} {acc : Acc} {va : Nat} {x : Xl}
    (h : xlate s ctx clu (some (myCore s)) acc va = .ok x s') : XlateOnly s s' := by
  unfold xlate at h
  simp only [] at h
  split at h
  · split at h
    · cases h
    · rw [keyCheck_ok h]; exact .refl s
  · split at h
    · cases h
    · split at h
      · cases h
      · cases h
      · next t hf =>
        have w := leafFor_only s ctx clu (some (myCore s)) acc (!isSup s ctx) va
          (fieldOf (transReg s ctx clu 0x804 (getCtx s ctx).ptroot) 0 44)
        rw [hf] at w
        have m : myCore s = myCore t := by rw [myCore, myCore, w.1.here]
        rw [keyCheck_ok h, m]
        exact w.trans (takeTlb_only t clu _)
theorem xlateCore_only {s s' : State} {acc : Acc} {hb : Bool} {va : Nat} {x : Xl}
    (h : xlateCore s acc hb va = .ok x s') : XlateOnly s s' := by
  unfold xlateCore at h
  split at h
  · cases h
  · split at h
    next x2 s2 he =>
      split at h
      · cases h; exact xlate_only he
      · cases h
    next hn => exact absurd h (hn _ _)
/-- The program timestamp and the L1 may change freely. -/
theorem ptsL1_access (s : State) (p : Nat) (f : AMap L1Copy → AMap L1Copy) :
    AccessOnly s (withTh (withCore s fun k => { k with l1 := f k.l1 }) fun t => { t with pts := p }) :=
  ⟨rfl, fun _ => rfl, fun n => ⟨n, rfl, rfl⟩⟩
/-- Everything that the time of a pool load may change (R281). -/
theorem poolLoaded_access (s : State) : AccessOnly s (poolLoaded s) := ⟨rfl, fun _ => rfl, fun n => ⟨n, rfl, rfl⟩⟩
/-- Everything that the time of a pool store may change (R281). -/
theorem poolStored_access (s : State) : AccessOnly s (poolStored s) := ⟨rfl, fun _ => rfl, fun n => ⟨n, rfl, rfl⟩⟩
/-- The times by path may change freely. -/
theorem notePath_access (s : State) (p : Path) (w : Nat) : AccessOnly s (notePath s p w) := ⟨rfl, fun _ => rfl, fun n => ⟨n, rfl, rfl⟩⟩
theorem raisePts_access (s : State) (n : Nat) : AccessOnly s (raisePts s n) := ⟨rfl, fun _ => rfl, fun n => ⟨n, rfl, rfl⟩⟩
theorem keepCopies_access (s : State) (b : Bool) (l : AMap L1Copy) : AccessOnly s (keepCopies s b l) :=
  ⟨rfl, fun _ => rfl, fun n => ⟨n, rfl, rfl⟩⟩
theorem loadL1_access {s s' : State} {x : Xl} {v : Sector} (h : loadL1 s x = some (v, s')) : AccessOnly s s' := by
  unfold loadL1 at h
  split at h
  · split at h
    · cases h; exact raisePts_access _ _
    · cases h
  · cases h
theorem loadHome_access (s : State) (x : Xl) (secs : List Nat) : AccessOnly s (loadHome s x secs).2 := by
  unfold loadHome
  exact ((leaseHome_quiet s (myCtx s) x.slot s.th.pts secs).access.trans (keepCopies_access _ _ _)).trans (raisePts_access _ _)
/-- Everything a load on path C may change. -/
theorem loadC_access (s : State) (x : Xl) : AccessOnly s (loadC s x).2 := by
  unfold loadC
  split
  next r h => obtain ⟨v, t⟩ := r; exact loadL1_access h
  · exact loadHome_access s x _
theorem loadK_access (s : State) (x : Xl) : AccessOnly s (loadK s x).2 := by
  unfold loadK
  split
  · split
    · exact notePath_access _ _ _
    · exact loadC_access s x
  · exact loadC_access s x
theorem fetchLine_access {s s' : State} {va : Nat} {l : V512} (h : fetchLine s va = .ok l s') : AccessOnly s s' := by
  unfold fetchLine at h
  split at h
  · cases h
  · split at h
    · next he => cases h; exact (xlateCore_only he).1.trans (loadK_access _ _)
    · cases h
    · cases h
theorem dropCopy_access (s : State) (sec : Nat) : AccessOnly s (withCore s fun c => { c with l1 := amDel c.l1 sec }) :=
  ⟨rfl, fun _ => rfl, fun n => ⟨n, rfl, rfl⟩⟩
theorem refetchLine_access {s s' : State} {va : Nat} {l : V512} (h : refetchLine s va = .ok l s') : AccessOnly s s' := by
  unfold refetchLine at h
  split at h
  · next he =>
    cases h
    exact ((xlateCore_only he).1.trans (dropCopy_access _ _)).trans (loadHome_access _ _ _)
  · cases h
  · cases h
/-- Everything a checked fetch may change. -/
theorem checkedLine_access {s s' : State} {va : Nat} {g : V512 → Bool} {b : Bool} {l : V512}
    (h : checkedLine s va g = (b, .ok l s')) : AccessOnly s s' := by
  unfold checkedLine at h
  split at h
  · next he =>
    split at h
    · obtain ⟨-, h⟩ := Prod.mk.inj h
      rw [h] at he
      exact fetchLine_access he
    · split at h
      · next he2 =>
        obtain ⟨-, h⟩ := Prod.mk.inj h
        rw [h] at he2
        exact (fetchLine_access he).trans (refetchLine_access he2)
      · next hn => exact absurd (Prod.mk.inj h).2 (hn _ _)
  · next hn => exact absurd (Prod.mk.inj h).2 (hn _ _)
/-- Everything the check of a target may change. -/
theorem checkTarget_access {s s' : State} {va : W64} (h : checkTarget s va = .ok s') : AccessOnly s s' := by
  unfold checkTarget at h
  split at h
  · cases h
  · split at h
    · cases h
    · split at h
      · next he _ => cases h; exact checkedLine_access he
      · cases h
    · cases h
    · cases h
/-- The same for a target whose line failed its parity check twice. -/
theorem checkTarget_linepar {s s' : State} {va : W64} (h : checkTarget s va = .linepar s') : AccessOnly s s' := by
  unfold checkTarget at h
  split at h
  · cases h
  · split at h
    · next he => cases h; exact checkedLine_access he
    · split at h <;> cases h
    · cases h
    · cases h

end Machine
end Sys2Proof
end

