-- ==== Sys2Proof/Laws/Decode.lean ====
section
/-!
SUPPORT. Laws of the decoder: every operand byte, field and form that `encode` writes is read back, and an instruction word has
one meaning (R49 to R60).
-/
namespace Sys2Proof
namespace Laws

/-! ### Operand bytes (R53, R56) -/

@[simp] theorem getS_code (r : Fin 32) : getS (sCode r) = some r := by revert r; decide
@[simp] theorem getM_code (r : Fin 8) : getM (mCode r) = some r := by revert r; decide
@[simp] theorem getM_sCode (r : Fin 32) : getM (sCode r) = none := by revert r; decide
@[simp] theorem getQ_code (r : Fin 16) : getQ (qCode r) = some r := by revert r; decide
@[simp] theorem getQ8_code (r : Fin 8) : getQ8 (q8Code r) = some r := by revert r; decide
@[simp] theorem getP_code (r : Fin 8) : getP (pCode r) = some r := by revert r; decide
@[simp] theorem getX_code (r : Fin 8) : getX (xCode r) = some r := by revert r; decide
theorem getSOp_s (r : Fin 32) : getSOp (SOp.code (.s r)) = some (.s r) := by revert r; decide
theorem getSOp_sc (k : Fin 16) : getSOp (SOp.code (.sc k)) = some (.sc k) := by revert k; decide
@[simp] theorem getSOp_code (o : SOp) : getSOp o.code = some o := by
  cases o
  · exact getSOp_s _
  · exact getSOp_sc _
theorem getVOp_v (r : Fin 32) : getVOp (VOp.code (.v r)) = some (.v r) := by revert r; decide
theorem getVOp_q (r : Fin 16) : getVOp (VOp.code (.q r)) = some (.q r) := by revert r; decide
theorem getVOp_x (i : Fin 8) (k : Fin 16) : getVOp (VOp.code (.x i k)) = some (.x i k) := by revert i k; decide
@[simp] theorem getVOp_code (o : VOp) : getVOp o.code = some o := by
  cases o
  · exact getVOp_v _
  · exact getVOp_q _
  · exact getVOp_x _ _
theorem getP_sop_s (r : Fin 32) : getP (SOp.code (.s r)) = none := by revert r; decide
theorem getP_sop_sc (k : Fin 16) : getP (SOp.code (.sc k)) = none := by revert k; decide
theorem getX_sop_s (r : Fin 32) : getX (SOp.code (.s r)) = none := by revert r; decide
theorem getX_sop_sc (k : Fin 16) : getX (SOp.code (.sc k)) = none := by revert k; decide
@[simp] theorem getP_sop (o : SOp) : getP o.code = none := by
  cases o
  · exact getP_sop_s _
  · exact getP_sop_sc _
@[simp] theorem getX_sop (o : SOp) : getX o.code = none := by
  cases o
  · exact getX_sop_s _
  · exact getX_sop_sc _
@[simp] theorem getPSOp_code (o : PSOp) : getPSOp o.code = some o := by cases o <;> simp [getPSOp, PSOp.code]
@[simp] theorem getXSOp_code (o : XSOp) : getXSOp o.code = some o := by cases o <;> simp [getXSOp, XSOp.code]
@[simp] theorem getPred_code (p : Pred) : getPred p.code = p := by
  obtain ⟨i, n⟩ := p
  revert i n
  decide

/-! ### Codes of the modifiers (R59) -/

@[simp] theorem ty_ofCode (t : Ty) : Ty.ofCode t.code = some t := by cases t <;> rfl
@[simp] theorem rnd_ofCode (t : Rnd) : Rnd.ofCode t.code = some t := by cases t <;> rfl
@[simp] theorem rd_ofCode (t : Rd) : Rd.ofCode t.code = some t := by cases t <;> rfl
@[simp] theorem cc_ofCode (t : Cc) : Cc.ofCode t.code = some t := by cases t <;> rfl
@[simp] theorem aop_ofCode (t : AOp) : AOp.ofCode t.code = some t := by cases t <;> rfl
@[simp] theorem scope_ofCode (t : Scope) : Scope.ofCode t.code = some t := by cases t <;> rfl
@[simp] theorem path_ofCode (t : Path) : Path.ofCode t.code = some t := by cases t <;> rfl
@[simp] theorem ty_lt (t : Ty) : t.code < 16 := by cases t <;> decide
@[simp] theorem rnd_lt (t : Rnd) : t.code < 4 := by cases t <;> decide
@[simp] theorem rd_lt (t : Rd) : t.code < 4 := by cases t <;> decide
@[simp] theorem cc_lt (t : Cc) : t.code < 8 := by cases t <;> decide
@[simp] theorem aop_lt (t : AOp) : t.code < 8 := by cases t <;> decide
@[simp] theorem scope_lt (t : Scope) : t.code < 4 := by cases t <;> decide
@[simp] theorem path_lt (t : Path) : t.code < 16 := by cases t <;> decide
@[simp] theorem bool_lt (b : Bool) : b.toNat < 2 := by cases b <;> decide
@[simp] theorem bool_le (b : Bool) : b.toNat ≤ 1 := by cases b <;> decide
@[simp] theorem bool_one (b : Bool) : (b.toNat == 1) = b := by cases b <;> rfl
@[simp] theorem gran_lt (g : BitVec 3) : g.toNat < 8 := g.isLt

/-! ### The FN fields (R58) -/

@[simp] theorem fld_fn3_rd {rd sel flag rnd ty2 ty : Nat} (hrd : rd < 4) (hsel : sel < 8) (hflag : flag < 2) (hrnd : rnd < 4) (hty2 : ty2 < 16) (hty : ty < 16) :
    fld (fn3 rd sel flag rnd ty2 ty) 14 2 = rd := by simp only [fld, fn3, BitVec.toNat_ofNat]; omega
@[simp] theorem fld_fn3_sel {rd sel flag rnd ty2 ty : Nat} (hsel : sel < 8) (hflag : flag < 2) (hrnd : rnd < 4) (hty2 : ty2 < 16) (hty : ty < 16) :
    fld (fn3 rd sel flag rnd ty2 ty) 11 3 = sel := by simp only [fld, fn3, BitVec.toNat_ofNat]; omega
@[simp] theorem fld_fn3_flag {rd sel flag rnd ty2 ty : Nat} (hflag : flag < 2) (hrnd : rnd < 4) (hty2 : ty2 < 16) (hty : ty < 16) :
    fld (fn3 rd sel flag rnd ty2 ty) 10 1 = flag := by simp only [fld, fn3, BitVec.toNat_ofNat]; omega
@[simp] theorem fld_fn3_rnd {rd sel flag rnd ty2 ty : Nat} (hrnd : rnd < 4) (hty2 : ty2 < 16) (hty : ty < 16) :
    fld (fn3 rd sel flag rnd ty2 ty) 8 2 = rnd := by simp only [fld, fn3, BitVec.toNat_ofNat]; omega
@[simp] theorem fld_fn3_ty2 {rd sel flag rnd ty2 ty : Nat} (hty2 : ty2 < 16) (hty : ty < 16) :
    fld (fn3 rd sel flag rnd ty2 ty) 4 4 = ty2 := by simp only [fld, fn3, BitVec.toNat_ofNat]; omega
@[simp] theorem fld_fn3_ty {rd sel flag rnd ty2 ty : Nat} (hty : ty < 16) :
    fld (fn3 rd sel flag rnd ty2 ty) 0 4 = ty := by simp only [fld, fn3, BitVec.toNat_ofNat]; omega
@[simp] theorem fld_fnM_path {path scope sel flag rd ty : Nat} (hpath : path < 16) (hscope : scope < 4) (hsel : sel < 8) (hflag : flag < 2) (hrd : rd < 4) (hty : ty < 16) :
    fld (fnM path scope sel flag rd ty) 12 4 = path := by simp only [fld, fnM, BitVec.toNat_ofNat]; omega
@[simp] theorem fld_fnM_scope {path scope sel flag rd ty : Nat} (hscope : scope < 4) (hsel : sel < 8) (hflag : flag < 2) (hrd : rd < 4) (hty : ty < 16) :
    fld (fnM path scope sel flag rd ty) 10 2 = scope := by simp only [fld, fnM, BitVec.toNat_ofNat]; omega
@[simp] theorem fld_fnM_sel {path scope sel flag rd ty : Nat} (hsel : sel < 8) (hflag : flag < 2) (hrd : rd < 4) (hty : ty < 16) :
    fld (fnM path scope sel flag rd ty) 7 3 = sel := by simp only [fld, fnM, BitVec.toNat_ofNat]; omega
@[simp] theorem fld_fnM_flag {path scope sel flag rd ty : Nat} (hflag : flag < 2) (hrd : rd < 4) (hty : ty < 16) :
    fld (fnM path scope sel flag rd ty) 6 1 = flag := by simp only [fld, fnM, BitVec.toNat_ofNat]; omega
@[simp] theorem fld_fnM_rd {path scope sel flag rd ty : Nat} (hrd : rd < 4) (hty : ty < 16) :
    fld (fnM path scope sel flag rd ty) 4 2 = rd := by simp only [fld, fnM, BitVec.toNat_ofNat]; omega
@[simp] theorem fld_fnM_ty {path scope sel flag rd ty : Nat} (hty : ty < 16) :
    fld (fnM path scope sel flag rd ty) 0 4 = ty := by simp only [fld, fnM, BitVec.toNat_ofNat]; omega
@[simp] theorem fld_fnE_gran {gran rd ty2 ty : Nat} (hgran : gran < 8) (hrd : rd < 4) (hty2 : ty2 < 16) (hty : ty < 16) :
    fld (fnE gran rd ty2 ty) 13 3 = gran := by simp only [fld, fnE, BitVec.toNat_ofNat]; omega
@[simp] theorem fld_fnE_rd {gran rd ty2 ty : Nat} (hrd : rd < 4) (hty2 : ty2 < 16) (hty : ty < 16) :
    fld (fnE gran rd ty2 ty) 11 2 = rd := by simp only [fld, fnE, BitVec.toNat_ofNat]; omega
@[simp] theorem fld_fnE_ty2 {gran rd ty2 ty : Nat} (hty2 : ty2 < 16) (hty : ty < 16) :
    fld (fnE gran rd ty2 ty) 4 4 = ty2 := by simp only [fld, fnE, BitVec.toNat_ofNat]; omega
@[simp] theorem fld_fnE_ty {gran rd ty2 ty : Nat} (hty : ty < 16) :
    fld (fnE gran rd ty2 ty) 0 4 = ty := by simp only [fld, fnE, BitVec.toNat_ofNat]; omega
@[simp] theorem fld_fnS_scope {scope flag : Nat} (hscope : scope < 4) (hflag : flag < 2) :
    fld (fnS scope flag) 6 2 = scope := by simp only [fld, fnS, BitVec.toNat_ofNat]; omega
@[simp] theorem fld_fnS_flag {scope flag : Nat} (hflag : flag < 2) :
    fld (fnS scope flag) 5 1 = flag := by simp only [fld, fnS, BitVec.toNat_ofNat]; omega

/-! ### Packed immediates (R51, R52, R175, R294, R333) -/

@[simp] theorem bv1_lt (x : BitVec 1) : x.toNat < 2 := x.isLt
@[simp] theorem bv2_lt (x : BitVec 2) : x.toNat < 4 := x.isLt
@[simp] theorem bv4_lt (x : BitVec 4) : x.toNat < 16 := x.isLt
@[simp] theorem bv6_lt (x : BitVec 6) : x.toNat < 64 := x.isLt
@[simp] theorem bv8_lt (x : BitVec 8) : x.toNat < 256 := x.isLt
@[simp] theorem bv9_lt (x : BitVec 9) : x.toNat < 512 := x.isLt
@[simp] theorem bv12_lt (x : BitVec 12) : x.toNat < 4096 := x.isLt
@[simp] theorem bv14_lt (x : BitVec 14) : x.toNat < 16384 := x.isLt
@[simp] theorem bv16_lt (x : BitVec 16) : x.toNat < 65536 := x.isLt
@[simp] theorem bv24_lt (x : BitVec 24) : x.toNat < 16777216 := x.isLt
@[simp] theorem fin8_lt (x : Fin 8) : x.val < 8 := x.isLt
@[simp] theorem imm_xadd_a {a m : Nat} (ha : a < 65536) :
    fld (BitVec.ofNat 32 (a + m * 65536)) 0 16 = a := by simp only [fld, BitVec.toNat_ofNat]; omega
@[simp] theorem imm_xadd_m {a m : Nat} (ha : a < 65536) (hm : m < 65536) :
    fld (BitVec.ofNat 32 (a + m * 65536)) 16 16 = m := by simp only [fld, BitVec.toNat_ofNat]; omega
@[simp] theorem imm_loc_x {x b : Nat} (hx : x < 16777216) :
    fld (BitVec.ofNat 32 (x + b * 16777216)) 0 24 = x := by simp only [fld, BitVec.toNat_ofNat]; omega
@[simp] theorem imm_loc_b {x b : Nat} (hx : x < 16777216) (hb : b < 2) :
    fld (BitVec.ofNat 32 (x + b * 16777216)) 24 1 = b := by simp only [fld, BitVec.toNat_ofNat]; omega
@[simp] theorem imm_locm_x {x b m : Nat} (hx : x < 16777216) :
    fld (BitVec.ofNat 32 (x + b * 16777216 + m * 33554432)) 0 24 = x := by simp only [fld, BitVec.toNat_ofNat]; omega
@[simp] theorem imm_locm_b {x b m : Nat} (hx : x < 16777216) (hb : b < 2) :
    fld (BitVec.ofNat 32 (x + b * 16777216 + m * 33554432)) 24 1 = b := by simp only [fld, BitVec.toNat_ofNat]; omega
@[simp] theorem imm_locm_m {x b m : Nat} (hx : x < 16777216) (hb : b < 2) (hm : m < 8) :
    fld (BitVec.ofNat 32 (x + b * 16777216 + m * 33554432)) 25 3 = m := by simp only [fld, BitVec.toNat_ofNat]; omega
@[simp] theorem imm_mac_m {m : Nat} (hm : m < 8) :
    fld (BitVec.ofNat 32 (m * 33554432)) 25 3 = m := by simp only [fld, BitVec.toNat_ofNat]; omega
@[simp] theorem imm_w2_a {a b : Nat} (ha : a < 2) :
    fld (BitVec.ofNat 32 (a + b * 2)) 0 1 = a := by simp only [fld, BitVec.toNat_ofNat]; omega
@[simp] theorem imm_w2_b {a b : Nat} (ha : a < 2) (hb : b < 2) :
    fld (BitVec.ofNat 32 (a + b * 2)) 1 1 = b := by simp only [fld, BitVec.toNat_ofNat]; omega
@[simp] theorem imm_atom_x {x a r : Nat} (hx : x < 16384) :
    fld (BitVec.ofNat 32 (x + a * 16384 + r * 8388608)) 0 14 = x := by simp only [fld, BitVec.toNat_ofNat]; omega
@[simp] theorem imm_atom_a {x a r : Nat} (hx : x < 16384) (ha : a < 512) :
    fld (BitVec.ofNat 32 (x + a * 16384 + r * 8388608)) 14 9 = a := by simp only [fld, BitVec.toNat_ofNat]; omega
@[simp] theorem imm_atom_r {x a r : Nat} (hx : x < 16384) (ha : a < 512) (hr : r < 512) :
    fld (BitVec.ofNat 32 (x + a * 16384 + r * 8388608)) 23 9 = r := by simp only [fld, BitVec.toNat_ofNat]; omega
@[simp] theorem imm_fence_a {a b : Nat} (ha : a < 512) :
    fld (BitVec.ofNat 32 (a + b * 512)) 0 9 = a := by simp only [fld, BitVec.toNat_ofNat]; omega
@[simp] theorem imm_fence_b {a b : Nat} (ha : a < 512) (hb : b < 512) :
    fld (BitVec.ofNat 32 (a + b * 512)) 9 9 = b := by simp only [fld, BitVec.toNat_ofNat]; omega
@[simp] theorem imm_rst_c {c m x : Nat} (hc : c < 16) :
    fld (BitVec.ofNat 32 (c + m * 16 + x * 256)) 0 4 = c := by simp only [fld, BitVec.toNat_ofNat]; omega
@[simp] theorem imm_rst_m {c m x : Nat} (hc : c < 16) (hm : m < 2) :
    fld (BitVec.ofNat 32 (c + m * 16 + x * 256)) 4 1 = m := by simp only [fld, BitVec.toNat_ofNat]; omega
@[simp] theorem imm_rst_x {c m x : Nat} (hc : c < 16) (hm : m < 2) (hx : x < 16777216) :
    fld (BitVec.ofNat 32 (c + m * 16 + x * 256)) 8 24 = x := by simp only [fld, BitVec.toNat_ofNat]; omega
@[simp] theorem imm_qb_a {a b : Nat} (ha : a < 16) :
    fld (BitVec.ofNat 32 (a + b * 16)) 0 4 = a := by simp only [fld, BitVec.toNat_ofNat]; omega
@[simp] theorem imm_qb_b {a b : Nat} (ha : a < 16) (hb : b < 2) :
    fld (BitVec.ofNat 32 (a + b * 16)) 4 1 = b := by simp only [fld, BitVec.toNat_ofNat]; omega
@[simp] theorem imm_ev_a {a b : Nat} (ha : a < 256) :
    fld (BitVec.ofNat 32 (a + b * 256)) 0 8 = a := by simp only [fld, BitVec.toNat_ofNat]; omega
@[simp] theorem imm_ev_b {a b : Nat} (ha : a < 256) (hb : b < 2) :
    fld (BitVec.ofNat 32 (a + b * 256)) 8 1 = b := by simp only [fld, BitVec.toNat_ofNat]; omega
@[simp] theorem imm_low1 {a : Nat} (h : a < 2) : fld (BitVec.ofNat 32 a) 0 1 = a := by
  simp only [fld, BitVec.toNat_ofNat]; omega
@[simp] theorem imm_low2 {a : Nat} (h : a < 4) : fld (BitVec.ofNat 32 a) 0 2 = a := by
  simp only [fld, BitVec.toNat_ofNat]; omega
@[simp] theorem imm_low4 {a : Nat} (h : a < 16) : fld (BitVec.ofNat 32 a) 0 4 = a := by
  simp only [fld, BitVec.toNat_ofNat]; omega
@[simp] theorem imm_low6 {a : Nat} (h : a < 64) : fld (BitVec.ofNat 32 a) 0 6 = a := by
  simp only [fld, BitVec.toNat_ofNat]; omega
@[simp] theorem imm_low8 {a : Nat} (h : a < 256) : fld (BitVec.ofNat 32 a) 0 8 = a := by
  simp only [fld, BitVec.toNat_ofNat]; omega
@[simp] theorem imm_low12 {a : Nat} (h : a < 4096) : fld (BitVec.ofNat 32 a) 0 12 = a := by
  simp only [fld, BitVec.toNat_ofNat]; omega
@[simp] theorem imm_low24 {a : Nat} (h : a < 16777216) : fld (BitVec.ofNat 32 a) 0 24 = a := by
  simp only [fld, BitVec.toNat_ofNat]; omega
@[simp] theorem imm_set2 (x : BitVec 2) : fld (BitVec.setWidth 32 x) 0 2 = x.toNat := by
  have := x.isLt
  simp only [fld, BitVec.toNat_setWidth]; omega
@[simp] theorem imm_set4 (x : BitVec 4) : fld (BitVec.setWidth 32 x) 0 4 = x.toNat := by
  have := x.isLt
  simp only [fld, BitVec.toNat_setWidth]; omega
@[simp] theorem imm_set6 (x : BitVec 6) : fld (BitVec.setWidth 32 x) 0 6 = x.toNat := by
  have := x.isLt
  simp only [fld, BitVec.toNat_setWidth]; omega
@[simp] theorem imm_set8 (x : BitVec 8) : fld (BitVec.setWidth 32 x) 0 8 = x.toNat := by
  have := x.isLt
  simp only [fld, BitVec.toNat_setWidth]; omega
@[simp] theorem imm_set12 (x : BitVec 12) : fld (BitVec.setWidth 32 x) 0 12 = x.toNat := by
  have := x.isLt
  simp only [fld, BitVec.toNat_setWidth]; omega
@[simp] theorem imm_set24 (x : BitVec 24) : fld (BitVec.setWidth 32 x) 0 24 = x.toNat := by
  have := x.isLt
  simp only [fld, BitVec.toNat_setWidth]; omega
@[simp] theorem li_parts (x : BitVec 48) : x.extractLsb' 16 32 ++ x.extractLsb' 0 16 = x := by
  rw [BitVec.extractLsb'_append_extractLsb'_eq_extractLsb' (by decide)]
  simp

/-! ### The forms (R49 to R59) -/

@[simp] theorem getBare_enc (opc fmt : Nat) (o : Bare) : getBare (encBare opc fmt o) = some o := by
  cases o; simp [getBare, encBare, raw]
@[simp] theorem getSAlu_enc (opc fmt : Nat) (o : SAlu) : getSAlu (encSAlu opc fmt o) = some o := by
  cases o; simp [getSAlu, encSAlu, raw]
@[simp] theorem getSUn_enc (opc fmt : Nat) (o : SUn) : getSUn (encSUn opc fmt o) = some o := by
  cases o; simp [getSUn, encSUn, raw]
@[simp] theorem getSImm_enc (opc fmt : Nat) (o : SImm) : getSImm (encSImm opc fmt o) = some o := by
  cases o; simp [getSImm, encSImm, raw]
@[simp] theorem getSBf_enc (opc fmt : Nat) (o : SBf) : getSBf (encSBf opc fmt o) = some o := by
  cases o; simp [getSBf, encSBf, raw]
@[simp] theorem getSSel_enc (opc fmt : Nat) (o : SSel) : getSSel (encSSel opc fmt o) = some o := by
  cases o; simp [getSSel, encSSel, raw]
@[simp] theorem getSLi_enc (opc fmt : Nat) (o : SLi) : getSLi (encSLi opc fmt o) = some o := by
  cases o; simp [getSLi, encSLi, raw]
@[simp] theorem getSIp_enc (opc fmt : Nat) (o : SIp) : getSIp (encSIp opc fmt o) = some o := by
  cases o; simp [getSIp, encSIp, raw]
@[simp] theorem getSLea_enc (opc fmt : Nat) (o : SLea) : getSLea (encSLea opc fmt o) = some o := by
  cases o; simp [getSLea, encSLea, raw]
@[simp] theorem getSMov_enc (opc fmt : Nat) (o : SMov) : getSMov (encSMov opc fmt o) = some o := by
  cases o; simp [getSMov, encSMov, raw]
@[simp] theorem getSCmp_enc (opc fmt : Nat) (o : SCmp) : getSCmp (encSCmp opc fmt o) = some o := by
  cases o; simp [getSCmp, encSCmp, raw]
@[simp] theorem getP3_enc (opc fmt : Nat) (o : P3) : getP3 (encP3 opc fmt o) = some o := by
  cases o; simp [getP3, encP3, raw]
@[simp] theorem getP2_enc (opc fmt : Nat) (o : P2) : getP2 (encP2 opc fmt o) = some o := by
  cases o; simp [getP2, encP2, raw]
@[simp] theorem getPMov_enc (opc fmt : Nat) (o : PMov) : getPMov (encPMov opc fmt o) = some o := by
  cases o; simp [getPMov, encPMov, raw]
@[simp] theorem getPCntP_enc (opc fmt : Nat) (o : PCnt) : getPCntP (encPCntP opc fmt o) = some o := by
  cases o; simp [getPCntP, encPCntP, raw]
@[simp] theorem getPCntX_enc (opc fmt : Nat) (o : PCnt) : getPCntX (encPCntX opc fmt o) = some o := by
  cases o; simp [getPCntX, encPCntX, raw]
@[simp] theorem getXSet_enc (opc fmt : Nat) (o : XSet) : getXSet (encXSet opc fmt o) = some o := by
  cases o; simp [getXSet, encXSet, raw]
@[simp] theorem getXAdd_enc (opc fmt : Nat) (o : XAdd) : getXAdd (encXAdd opc fmt o) = some o := by
  cases o; simp [getXAdd, encXAdd, raw]
@[simp] theorem getXMov_enc (opc fmt : Nat) (o : XMov) : getXMov (encXMov opc fmt o) = some o := by
  cases o; simp [getXMov, encXMov, raw]
@[simp] theorem getBrP_enc (opc fmt : Nat) (o : BrP) : getBrP (encBrP opc fmt o) = some o := by
  cases o; simp [getBrP, encBrP, raw]
@[simp] theorem getBrJ_enc (opc fmt : Nat) (o : BrJ) : getBrJ (encBrJ opc fmt o) = some o := by
  cases o; simp [getBrJ, encBrJ, raw]
@[simp] theorem getBrD_enc (opc fmt : Nat) (o : BrD) : getBrD (encBrD opc fmt o) = some o := by
  cases o; simp [getBrD, encBrD, raw]
@[simp] theorem getSA1_enc (opc fmt : Nat) (o : SA1) : getSA1 (encSA1 opc fmt o) = some o := by
  cases o; simp [getSA1, encSA1, raw]
@[simp] theorem getSD1_enc (opc fmt : Nat) (o : SD1) : getSD1 (encSD1 opc fmt o) = some o := by
  cases o; simp [getSD1, encSD1, raw]
@[simp] theorem getSD2_enc (opc fmt : Nat) (o : SD2) : getSD2 (encSD2 opc fmt o) = some o := by
  cases o; simp [getSD2, encSD2, raw]
@[simp] theorem getSA2_enc (opc fmt : Nat) (o : SA2) : getSA2 (encSA2 opc fmt o) = some o := by
  cases o; simp [getSA2, encSA2, raw]
@[simp] theorem getS3_enc (opc fmt : Nat) (o : S3) : getS3 (encS3 opc fmt o) = some o := by
  cases o; simp [getS3, encS3, raw]
@[simp] theorem getS4_enc (opc fmt : Nat) (o : S4) : getS4 (encS4 opc fmt o) = some o := by
  cases o; simp [getS4, encS4, raw]
@[simp] theorem getSA3_enc (opc fmt : Nat) (o : SA3) : getSA3 (encSA3 opc fmt o) = some o := by
  cases o; simp [getSA3, encSA3, raw]
@[simp] theorem getMemS_enc (opc fmt : Nat) (o : MemS) : getMemS (encMemS opc fmt o) = some o := by
  cases o; simp [getMemS, encMemS, raw]
@[simp] theorem getMemV_enc (opc fmt : Nat) (o : MemV) : getMemV (encMemV opc fmt o) = some o := by
  cases o; simp [getMemV, encMemV, raw]
@[simp] theorem getMemC_enc (opc fmt : Nat) (o : MemC) : getMemC (encMemC opc fmt o) = some o := by
  cases o; simp [getMemC, encMemC, raw]
@[simp] theorem getMemM_enc (opc fmt : Nat) (o : MemM) : getMemM (encMemM opc fmt o) = some o := by
  cases o; simp [getMemM, encMemM, raw]
@[simp] theorem getMemA_enc (opc fmt : Nat) (o : MemA) : getMemA (encMemA opc fmt o) = some o := by
  cases o; simp [getMemA, encMemA, raw]
@[simp] theorem getVGs_enc (opc fmt : Nat) (o : VGs) : getVGs (encVGs opc fmt o) = some o := by
  cases o; simp [getVGs, encVGs, raw]
@[simp] theorem getCode_enc (opc fmt : Nat) (o : Code) : getCode (encCode opc fmt o) = some o := by
  cases o; simp [getCode, encCode, raw]
@[simp] theorem getMfsO_enc (opc fmt : Nat) (o : MfsO) : getMfsO (encMfsO opc fmt o) = some o := by
  cases o; simp [getMfsO, encMfsO, raw]
@[simp] theorem getMtsO_enc (opc fmt : Nat) (o : MtsO) : getMtsO (encMtsO opc fmt o) = some o := by
  cases o; simp [getMtsO, encMtsO, raw]
@[simp] theorem getVBin_enc (opc fmt : Nat) (o : VBin) : getVBin (encVBin opc fmt o) = some o := by
  cases o; simp [getVBin, encVBin, raw]
@[simp] theorem getVUn_enc (opc fmt : Nat) (o : VUn) : getVUn (encVUn opc fmt o) = some o := by
  cases o; simp [getVUn, encVUn, raw]
@[simp] theorem getVTri_enc (opc fmt : Nat) (o : VTri) : getVTri (encVTri opc fmt o) = some o := by
  cases o; simp [getVTri, encVTri, raw]
@[simp] theorem getVCmp_enc (opc fmt : Nat) (o : VCmp) : getVCmp (encVCmp opc fmt o) = some o := by
  cases o; simp [getVCmp, encVCmp, raw]
@[simp] theorem getVSel_enc (opc fmt : Nat) (o : VSel) : getVSel (encVSel opc fmt o) = some o := by
  cases o; simp [getVSel, encVSel, raw]
@[simp] theorem getVCvt_enc (opc fmt : Nat) (o : VCvt) : getVCvt (encVCvt opc fmt o) = some o := by
  cases o; simp [getVCvt, encVCvt, raw]
@[simp] theorem getVRnd_enc (opc fmt : Nat) (o : VRnd) : getVRnd (encVRnd opc fmt o) = some o := by
  cases o; simp [getVRnd, encVRnd, raw]
@[simp] theorem getVLog_enc (opc fmt : Nat) (o : VLog) : getVLog (encVLog opc fmt o) = some o := by
  cases o; simp [getVLog, encVLog, raw]
@[simp] theorem getVUnT_enc (opc fmt : Nat) (o : VUnT) : getVUnT (encVUnT opc fmt o) = some o := by
  cases o; simp [getVUnT, encVUnT, raw]
@[simp] theorem getVFromS_enc (opc fmt : Nat) (o : VFromS) : getVFromS (encVFromS opc fmt o) = some o := by
  cases o; simp [getVFromS, encVFromS, raw]
@[simp] theorem getVExt_enc (opc fmt : Nat) (o : VExt) : getVExt (encVExt opc fmt o) = some o := by
  cases o; simp [getVExt, encVExt, raw]
@[simp] theorem getVIns_enc (opc fmt : Nat) (o : VIns) : getVIns (encVIns opc fmt o) = some o := by
  cases o; simp [getVIns, encVIns, raw]
@[simp] theorem getVRed_enc (opc fmt : Nat) (o : VRed) : getVRed (encVRed opc fmt o) = some o := by
  cases o; simp [getVRed, encVRed, raw]
@[simp] theorem getVScan_enc (opc fmt : Nat) (o : VScan) : getVScan (encVScan opc fmt o) = some o := by
  cases o; simp [getVScan, encVScan, raw]
@[simp] theorem getV2_enc (opc fmt : Nat) (o : V2) : getV2 (encV2 opc fmt o) = some o := by
  cases o; simp [getV2, encV2, raw]
@[simp] theorem getV2S_enc (opc fmt : Nat) (o : V2S) : getV2S (encV2S opc fmt o) = some o := by
  cases o; simp [getV2S, encV2S, raw]
@[simp] theorem getMBld_enc (opc fmt : Nat) (o : MBld) : getMBld (encMBld opc fmt o) = some o := by
  cases o; simp [getMBld, encMBld, raw]
@[simp] theorem getMBrel_enc (opc fmt : Nat) (o : MBrel) : getMBrel (encMBrel opc fmt o) = some o := by
  cases o; simp [getMBrel, encMBrel, raw]
@[simp] theorem getMLoc_enc (opc fmt : Nat) (o : MLoc) : getMLoc (encMLoc opc fmt o) = some o := by
  cases o; simp [getMLoc, encMLoc, raw]
@[simp] theorem getM1_enc (opc fmt : Nat) (o : M1) : getM1 (encM1 opc fmt o) = some o := by
  cases o; simp [getM1, encM1, raw]
@[simp] theorem getM2_enc (opc fmt : Nat) (o : M2) : getM2 (encM2 opc fmt o) = some o := by
  cases o; simp [getM2, encM2, raw]
@[simp] theorem getM3_enc (opc fmt : Nat) (o : M3) : getM3 (encM3 opc fmt o) = some o := by
  cases o; simp [getM3, encM3, raw]
@[simp] theorem getMMul_enc (opc fmt : Nat) (o : MMul) : getMMul (encMMul opc fmt o) = some o := by
  obtain ⟨p, t, rd, gran, d, a, b, m⟩ := o
  cases a <;> simp [getMMul, encMMul, getMSrc, raw]
@[simp] theorem getMFac_enc (opc fmt : Nat) (o : MFac) : getMFac (encMFac opc fmt o) = some o := by
  cases o; simp [getMFac, encMFac, raw]
@[simp] theorem getMScale_enc (opc fmt : Nat) (o : MScale) : getMScale (encMScale opc fmt o) = some o := by
  cases o; simp [getMScale, encMScale, raw]
@[simp] theorem getMRank_enc (opc fmt : Nat) (o : MRank) : getMRank (encMRank opc fmt o) = some o := by
  cases o; simp [getMRank, encMRank, raw]
@[simp] theorem getMRec_enc (opc fmt : Nat) (o : MRec) : getMRec (encMRec opc fmt o) = some o := by
  cases o; simp [getMRec, encMRec, raw]
@[simp] theorem getMRun_enc (opc fmt : Nat) (o : MRun) : getMRun (encMRun opc fmt o) = some o := by
  cases o; simp [getMRun, encMRun, raw]
@[simp] theorem getMWait_enc (opc fmt : Nat) (o : MWait) : getMWait (encMWait opc fmt o) = some o := by
  cases o; simp [getMWait, encMWait, raw]
@[simp] theorem getMFree_enc (opc fmt : Nat) (o : MFree) : getMFree (encMFree opc fmt o) = some o := by
  cases o; simp [getMFree, encMFree, raw]
@[simp] theorem getRayOpen_enc (opc fmt : Nat) (o : RayOpen) : getRayOpen (encRayOpen opc fmt o) = some o := by
  cases o; simp [getRayOpen, encRayOpen, raw]
@[simp] theorem getRayWait_enc (opc fmt : Nat) (o : RayWait) : getRayWait (encRayWait opc fmt o) = some o := by
  cases o; simp [getRayWait, encRayWait, raw]
@[simp] theorem getHitQ_enc (opc fmt : Nat) (o : HitQ) : getHitQ (encHitQ opc fmt o) = some o := by
  cases o; simp [getHitQ, encHitQ, raw]
@[simp] theorem getIvPost_enc (opc fmt : Nat) (o : IvPost) : getIvPost (encIvPost opc fmt o) = some o := by
  cases o; simp [getIvPost, encIvPost, raw]
@[simp] theorem getIvRead_enc (opc fmt : Nat) (o : IvRead) : getIvRead (encIvRead opc fmt o) = some o := by
  cases o; simp [getIvRead, encIvRead, raw]
@[simp] theorem getIvStat_enc (opc fmt : Nat) (o : IvStat) : getIvStat (encIvStat opc fmt o) = some o := by
  cases o; simp [getIvStat, encIvStat, raw]
@[simp] theorem getAmo_enc (opc fmt : Nat) (o : Amo) : getAmo (encAmo opc fmt o) = some o := by
  cases o; simp [getAmo, encAmo, raw]
@[simp] theorem getCas_enc (opc fmt : Nat) (o : Cas) : getCas (encCas opc fmt o) = some o := by
  cases o; simp [getCas, encCas, raw]
@[simp] theorem getCas2_enc (opc fmt : Nat) (o : Cas2) : getCas2 (encCas2 opc fmt o) = some o := by
  cases o; simp [getCas2, encCas2, raw]
@[simp] theorem getRed_enc (opc fmt : Nat) (o : Red) : getRed (encRed opc fmt o) = some o := by
  cases o; simp [getRed, encRed, raw]
@[simp] theorem getAmsg_enc (opc fmt : Nat) (o : Amsg) : getAmsg (encAmsg opc fmt o) = some o := by
  cases o; simp [getAmsg, encAmsg, raw]
@[simp] theorem getGath_enc (opc fmt : Nat) (o : Gath) : getGath (encGath opc fmt o) = some o := by
  cases o; simp [getGath, encGath, raw]
@[simp] theorem getFence_enc (opc fmt : Nat) (o : Fence) : getFence (encFence opc fmt o) = some o := by
  cases o; simp [getFence, encFence, raw]
@[simp] theorem getMemSP_enc (opc fmt : Nat) (o : MemSP) : getMemSP (encMemSP opc fmt o) = some o := by
  cases o; simp [getMemSP, encMemSP, raw]
@[simp] theorem getMemVP_enc (opc fmt : Nat) (o : MemVP) : getMemVP (encMemVP opc fmt o) = some o := by
  cases o; simp [getMemVP, encMemVP, raw]
@[simp] theorem getCSet_enc (opc fmt : Nat) (o : CSet) : getCSet (encCSet opc fmt o) = some o := by
  cases o; simp [getCSet, encCSet, raw]
@[simp] theorem getSem_enc (opc fmt : Nat) (o : Sem) : getSem (encSem opc fmt o) = some o := by
  cases o; simp [getSem, encSem, raw]
@[simp] theorem getSemI_enc (opc fmt : Nat) (o : SemI) : getSemI (encSemI opc fmt o) = some o := by
  cases o; simp [getSemI, encSemI, raw]
@[simp] theorem getRst_enc (opc fmt : Nat) (o : Rst) : getRst (encRst opc fmt o) = some o := by
  cases o; simp [getRst, encRst, raw]
@[simp] theorem getSend_enc (opc fmt : Nat) (o : Send) : getSend (encSend opc fmt o) = some o := by
  cases o; simp [getSend, encSend, raw]
@[simp] theorem getCMask_enc (opc fmt : Nat) (o : CMask) : getCMask (encCMask opc fmt o) = some o := by
  cases o; simp [getCMask, encCMask, raw]
@[simp] theorem getQBind_enc (opc fmt : Nat) (o : QBind) : getQBind (encQBind opc fmt o) = some o := by
  cases o; simp [getQBind, encQBind, raw]
@[simp] theorem getQReg_enc (opc fmt : Nat) (o : QReg) : getQReg (encQReg opc fmt o) = some o := by
  cases o; simp [getQReg, encQReg, raw]
@[simp] theorem getSpawn_enc (opc fmt : Nat) (o : Spawn) : getSpawn (encSpawn opc fmt o) = some o := by
  cases o; simp [getSpawn, encSpawn, raw]
@[simp] theorem getSpawnT_enc (opc fmt : Nat) (o : SpawnT) : getSpawnT (encSpawnT opc fmt o) = some o := by
  cases o; simp [getSpawnT, encSpawnT, raw]
@[simp] theorem getEJoin_enc (opc fmt : Nat) (o : EJoin) : getEJoin (encEJoin opc fmt o) = some o := by
  cases o; simp [getEJoin, encEJoin, raw]
@[simp] theorem getEv_enc (opc fmt : Nat) (o : Ev) : getEv (encEv opc fmt o) = some o := by
  cases o; simp [getEv, encEv, raw]
@[simp] theorem getCancel_enc (opc fmt : Nat) (o : Cancel) : getCancel (encCancel opc fmt o) = some o := by
  cases o; simp [getCancel, encCancel, raw]
@[simp] theorem getCtrd_enc (opc fmt : Nat) (o : Ctrd) : getCtrd (encCtrd opc fmt o) = some o := by
  cases o; simp [getCtrd, encCtrd, raw]
@[simp] theorem getCastPin_enc (opc fmt : Nat) (o : CastPin) : getCastPin (encCastPin opc fmt o) = some o := by
  cases o; simp [getCastPin, encCastPin, raw]
@[simp] theorem getTlbInv_enc (opc fmt : Nat) (o : TlbInv) : getTlbInv (encTlbInv opc fmt o) = some o := by
  cases o; simp [getTlbInv, encTlbInv, raw]

/-! ### The word and its fields (R49) -/

theorem toWord_opc (r : Raw) : r.toWord.extractLsb' 0 8 = r.opc := by
  apply BitVec.eq_of_getLsbD_eq
  intro i hi
  simp only [Raw.toWord, BitVec.getLsbD_extractLsb', BitVec.getLsbD_append, hi, decide_true, Bool.true_and]
  repeat' first | rw [if_neg (by omega)] | rw [if_pos (by omega)]
  congr 1
  omega
theorem toWord_pred (r : Raw) : r.toWord.extractLsb' 8 4 = r.pred := by
  apply BitVec.eq_of_getLsbD_eq
  intro i hi
  simp only [Raw.toWord, BitVec.getLsbD_extractLsb', BitVec.getLsbD_append, hi, decide_true, Bool.true_and]
  repeat' first | rw [if_neg (by omega)] | rw [if_pos (by omega)]
  congr 1
  omega
theorem toWord_fmt (r : Raw) : r.toWord.extractLsb' 12 4 = r.fmt := by
  apply BitVec.eq_of_getLsbD_eq
  intro i hi
  simp only [Raw.toWord, BitVec.getLsbD_extractLsb', BitVec.getLsbD_append, hi, decide_true, Bool.true_and]
  repeat' first | rw [if_neg (by omega)] | rw [if_pos (by omega)]
  congr 1
  omega
theorem toWord_dst (r : Raw) : r.toWord.extractLsb' 16 8 = r.dst := by
  apply BitVec.eq_of_getLsbD_eq
  intro i hi
  simp only [Raw.toWord, BitVec.getLsbD_extractLsb', BitVec.getLsbD_append, hi, decide_true, Bool.true_and]
  repeat' first | rw [if_neg (by omega)] | rw [if_pos (by omega)]
  congr 1
  omega
theorem toWord_sa (r : Raw) : r.toWord.extractLsb' 24 8 = r.sa := by
  apply BitVec.eq_of_getLsbD_eq
  intro i hi
  simp only [Raw.toWord, BitVec.getLsbD_extractLsb', BitVec.getLsbD_append, hi, decide_true, Bool.true_and]
  repeat' first | rw [if_neg (by omega)] | rw [if_pos (by omega)]
  congr 1
  omega
theorem toWord_sb (r : Raw) : r.toWord.extractLsb' 32 8 = r.sb := by
  apply BitVec.eq_of_getLsbD_eq
  intro i hi
  simp only [Raw.toWord, BitVec.getLsbD_extractLsb', BitVec.getLsbD_append, hi, decide_true, Bool.true_and]
  repeat' first | rw [if_neg (by omega)] | rw [if_pos (by omega)]
  congr 1
  omega
theorem toWord_sc (r : Raw) : r.toWord.extractLsb' 40 8 = r.sc := by
  apply BitVec.eq_of_getLsbD_eq
  intro i hi
  simp only [Raw.toWord, BitVec.getLsbD_extractLsb', BitVec.getLsbD_append, hi, decide_true, Bool.true_and]
  repeat' first | rw [if_neg (by omega)] | rw [if_pos (by omega)]
  congr 1
  omega
theorem toWord_fn (r : Raw) : r.toWord.extractLsb' 48 16 = r.fn := by
  apply BitVec.eq_of_getLsbD_eq
  intro i hi
  simp only [Raw.toWord, BitVec.getLsbD_extractLsb', BitVec.getLsbD_append, hi, decide_true, Bool.true_and]
  repeat' first | rw [if_neg (by omega)] | rw [if_pos (by omega)]
  congr 1
  omega
theorem toWord_imm (r : Raw) : r.toWord.extractLsb' 64 32 = r.imm := by
  apply BitVec.eq_of_getLsbD_eq
  intro i hi
  simp only [Raw.toWord, BitVec.getLsbD_extractLsb', BitVec.getLsbD_append, hi, decide_true, Bool.true_and]
  repeat' rw [if_neg (by omega)]
  congr 1
  omega
theorem ofWord_toWord (r : Raw) : Raw.ofWord r.toWord = r := by
  simp only [Raw.ofWord, toWord_opc, toWord_pred, toWord_fmt, toWord_dst, toWord_sa, toWord_sb, toWord_sc, toWord_fn, toWord_imm]
theorem toWord_ofWord (w : W96) : (Raw.ofWord w).toWord = w := by
  simp only [Raw.ofWord, Raw.toWord]
  repeat rw [BitVec.extractLsb'_append_extractLsb'_eq_extractLsb' (by decide)]
  simp

theorem pred_code_ne (p : Pred) (h : p.wf = true) : p.code ≠ 8 := by
  obtain ⟨i, n⟩ := p
  revert i n
  decide

/-- What the decoder answers on the fields of a well-formed instruction of a form: the instruction. -/
theorem decode_form {α : Type} (get : Raw → Option α) (enc : Nat → Nat → α → Raw) (c : α → Instr) (p : α → Pred)
    (opc fmt : Nat) (henc : ∀ o, encRaw (c o) = enc opc fmt o) (hget : ∀ o, get (enc opc fmt o) = some o)
    (hopc : ∀ o, (enc opc fmt o).opc = BitVec.ofNat 8 opc) (hfmt : ∀ o, (enc opc fmt o).fmt = BitVec.ofNat 4 fmt)
    (hpred : ∀ o, (enc opc fmt o).pred = (p o).code) (hcp : ∀ o, (c o).pred = p o)
    (hrow : rows[opc - 1]? = some ⟨fmt, fun r => (get r).map c⟩) (h0 : opc ≠ 0 ∧ opc < 256) (h1 : fmt < 16)
    (o : α) (hw : (c o).wf = true) : decodeWord (encode (c o)) = .ok (c o) := by
  have hp : (p o).wf = true := by
    simp only [Instr.wf, Bool.and_eq_true] at hw
    exact hcp o ▸ hw.1
  have ho : (BitVec.ofNat 8 opc).toNat = opc := by simp; omega
  have hz : ¬ (BitVec.ofNat 8 opc = 0#8) := fun h => h0.1 (by rw [h] at ho; simpa using ho.symm)
  have hf : (BitVec.ofNat 4 fmt).toNat = fmt := by simp; omega
  have hn : ¬ ((p o).code = 8#4) := pred_code_ne (p o) hp
  simp [decodeWord, encode, ofWord_toWord, decodeRaw, henc, hopc, hfmt, hpred, hget, ho, hf, hz, hn, hrow, hw]

/-- A word has one meaning: what decodes to an instruction is that instruction's word. -/
theorem encode_of_decodeWord {w : W96} {i : Instr} (h : decodeWord w = .ok i) : encode i = w := by
  have key : ∀ r, decodeRaw r = .ok i → encRaw i = r := by
    intro r hr
    unfold decodeRaw at hr
    split at hr
    · cases hr
    split at hr
    · cases hr
    split at hr
    · cases hr
    split at hr
    · cases hr
    split at hr
    · cases hr
    rename_i j hj
    split at hr
    · cases hr
    rename_i he
    split at hr
    · cases hr
      simpa using he
    · cases hr
  rw [encode, key _ h, toWord_ofWord]

end Laws
end Sys2Proof
end

