-- ==== Sys2Proof/Laws/PerInstr.lean ====
section
/-!
SUPPORT. The family Encoding: the word of every well-formed instruction decodes to it, and an event of the opcode table has no
word (R49 to R61). One lemma for each constructor of Instr.
-/
namespace Sys2Proof
namespace Laws
namespace Encoding

/-- A well-formed instruction is read back from its word; an event's word is that of no instruction. -/
def Statement (i : Instr) : Prop := match i.isInstruction with
  | true => i.wf = true → decodeWord (encode i) = .ok i
  | false => decodeWord (encode i) = .error .unassigned

/-- An event's word has opcode zero. -/
theorem of_zero {i : Instr} (h : encRaw i = zeroRaw) (hi : i.isInstruction = false) : Statement i := by
  rw [Statement, hi]
  show decodeWord (encode i) = .error .unassigned
  rw [decodeWord, encode, ofWord_toWord, h, decodeRaw, if_pos (by decide)]


theorem add (o : SAlu) : Statement (.add o) := decode_form getSAlu encSAlu .add SAlu.p 1 0 (fun _ => rfl)
  (getSAlu_enc 1 0) (fun _ => rfl) (fun _ => rfl) (fun _ => rfl) (fun _ => rfl) rfl (by decide) (by decide) o
theorem sub (o : SAlu) : Statement (.sub o) := decode_form getSAlu encSAlu .sub SAlu.p 2 0 (fun _ => rfl)
  (getSAlu_enc 2 0) (fun _ => rfl) (fun _ => rfl) (fun _ => rfl) (fun _ => rfl) rfl (by decide) (by decide) o
theorem addi (o : SImm) : Statement (.addi o) := decode_form getSImm encSImm .addi SImm.p 3 2 (fun _ => rfl)
  (getSImm_enc 3 2) (fun _ => rfl) (fun _ => rfl) (fun _ => rfl) (fun _ => rfl) rfl (by decide) (by decide) o
theorem mul (o : SAlu) : Statement (.mul o) := decode_form getSAlu encSAlu .mul SAlu.p 4 0 (fun _ => rfl)
  (getSAlu_enc 4 0) (fun _ => rfl) (fun _ => rfl) (fun _ => rfl) (fun _ => rfl) rfl (by decide) (by decide) o
theorem mulh (o : SAlu) : Statement (.mulh o) := decode_form getSAlu encSAlu .mulh SAlu.p 5 0 (fun _ => rfl)
  (getSAlu_enc 5 0) (fun _ => rfl) (fun _ => rfl) (fun _ => rfl) (fun _ => rfl) rfl (by decide) (by decide) o
theorem mulhn (o : SAlu) : Statement (.mulhn o) := decode_form getSAlu encSAlu .mulhn SAlu.p 6 0 (fun _ => rfl)
  (getSAlu_enc 6 0) (fun _ => rfl) (fun _ => rfl) (fun _ => rfl) (fun _ => rfl) rfl (by decide) (by decide) o
theorem div (o : SAlu) : Statement (.div o) := decode_form getSAlu encSAlu .div SAlu.p 7 0 (fun _ => rfl)
  (getSAlu_enc 7 0) (fun _ => rfl) (fun _ => rfl) (fun _ => rfl) (fun _ => rfl) rfl (by decide) (by decide) o
theorem divn (o : SAlu) : Statement (.divn o) := decode_form getSAlu encSAlu .divn SAlu.p 8 0 (fun _ => rfl)
  (getSAlu_enc 8 0) (fun _ => rfl) (fun _ => rfl) (fun _ => rfl) (fun _ => rfl) rfl (by decide) (by decide) o
theorem rem (o : SAlu) : Statement (.rem o) := decode_form getSAlu encSAlu .rem SAlu.p 9 0 (fun _ => rfl)
  (getSAlu_enc 9 0) (fun _ => rfl) (fun _ => rfl) (fun _ => rfl) (fun _ => rfl) rfl (by decide) (by decide) o
theorem remn (o : SAlu) : Statement (.remn o) := decode_form getSAlu encSAlu .remn SAlu.p 10 0 (fun _ => rfl)
  (getSAlu_enc 10 0) (fun _ => rfl) (fun _ => rfl) (fun _ => rfl) (fun _ => rfl) rfl (by decide) (by decide) o
theorem and (o : SAlu) : Statement (.and o) := decode_form getSAlu encSAlu .and SAlu.p 11 0 (fun _ => rfl)
  (getSAlu_enc 11 0) (fun _ => rfl) (fun _ => rfl) (fun _ => rfl) (fun _ => rfl) rfl (by decide) (by decide) o
theorem or (o : SAlu) : Statement (.or o) := decode_form getSAlu encSAlu .or SAlu.p 12 0 (fun _ => rfl)
  (getSAlu_enc 12 0) (fun _ => rfl) (fun _ => rfl) (fun _ => rfl) (fun _ => rfl) rfl (by decide) (by decide) o
theorem xor (o : SAlu) : Statement (.xor o) := decode_form getSAlu encSAlu .xor SAlu.p 13 0 (fun _ => rfl)
  (getSAlu_enc 13 0) (fun _ => rfl) (fun _ => rfl) (fun _ => rfl) (fun _ => rfl) rfl (by decide) (by decide) o
theorem andn (o : SAlu) : Statement (.andn o) := decode_form getSAlu encSAlu .andn SAlu.p 14 0 (fun _ => rfl)
  (getSAlu_enc 14 0) (fun _ => rfl) (fun _ => rfl) (fun _ => rfl) (fun _ => rfl) rfl (by decide) (by decide) o
theorem orn (o : SAlu) : Statement (.orn o) := decode_form getSAlu encSAlu .orn SAlu.p 15 0 (fun _ => rfl)
  (getSAlu_enc 15 0) (fun _ => rfl) (fun _ => rfl) (fun _ => rfl) (fun _ => rfl) rfl (by decide) (by decide) o
theorem shl (o : SAlu) : Statement (.shl o) := decode_form getSAlu encSAlu .shl SAlu.p 16 0 (fun _ => rfl)
  (getSAlu_enc 16 0) (fun _ => rfl) (fun _ => rfl) (fun _ => rfl) (fun _ => rfl) rfl (by decide) (by decide) o
theorem shr (o : SAlu) : Statement (.shr o) := decode_form getSAlu encSAlu .shr SAlu.p 17 0 (fun _ => rfl)
  (getSAlu_enc 17 0) (fun _ => rfl) (fun _ => rfl) (fun _ => rfl) (fun _ => rfl) rfl (by decide) (by decide) o
theorem sar (o : SAlu) : Statement (.sar o) := decode_form getSAlu encSAlu .sar SAlu.p 18 0 (fun _ => rfl)
  (getSAlu_enc 18 0) (fun _ => rfl) (fun _ => rfl) (fun _ => rfl) (fun _ => rfl) rfl (by decide) (by decide) o
theorem rol (o : SAlu) : Statement (.rol o) := decode_form getSAlu encSAlu .rol SAlu.p 19 0 (fun _ => rfl)
  (getSAlu_enc 19 0) (fun _ => rfl) (fun _ => rfl) (fun _ => rfl) (fun _ => rfl) rfl (by decide) (by decide) o
theorem ror (o : SAlu) : Statement (.ror o) := decode_form getSAlu encSAlu .ror SAlu.p 20 0 (fun _ => rfl)
  (getSAlu_enc 20 0) (fun _ => rfl) (fun _ => rfl) (fun _ => rfl) (fun _ => rfl) rfl (by decide) (by decide) o
theorem clz (o : SUn) : Statement (.clz o) := decode_form getSUn encSUn .clz SUn.p 21 0 (fun _ => rfl)
  (getSUn_enc 21 0) (fun _ => rfl) (fun _ => rfl) (fun _ => rfl) (fun _ => rfl) rfl (by decide) (by decide) o
theorem ctz (o : SUn) : Statement (.ctz o) := decode_form getSUn encSUn .ctz SUn.p 22 0 (fun _ => rfl)
  (getSUn_enc 22 0) (fun _ => rfl) (fun _ => rfl) (fun _ => rfl) (fun _ => rfl) rfl (by decide) (by decide) o
theorem popc (o : SUn) : Statement (.popc o) := decode_form getSUn encSUn .popc SUn.p 23 0 (fun _ => rfl)
  (getSUn_enc 23 0) (fun _ => rfl) (fun _ => rfl) (fun _ => rfl) (fun _ => rfl) rfl (by decide) (by decide) o
theorem min (o : SAlu) : Statement (.min o) := decode_form getSAlu encSAlu .min SAlu.p 24 0 (fun _ => rfl)
  (getSAlu_enc 24 0) (fun _ => rfl) (fun _ => rfl) (fun _ => rfl) (fun _ => rfl) rfl (by decide) (by decide) o
theorem max (o : SAlu) : Statement (.max o) := decode_form getSAlu encSAlu .max SAlu.p 25 0 (fun _ => rfl)
  (getSAlu_enc 25 0) (fun _ => rfl) (fun _ => rfl) (fun _ => rfl) (fun _ => rfl) rfl (by decide) (by decide) o
theorem minn (o : SAlu) : Statement (.minn o) := decode_form getSAlu encSAlu .minn SAlu.p 26 0 (fun _ => rfl)
  (getSAlu_enc 26 0) (fun _ => rfl) (fun _ => rfl) (fun _ => rfl) (fun _ => rfl) rfl (by decide) (by decide) o
theorem maxn (o : SAlu) : Statement (.maxn o) := decode_form getSAlu encSAlu .maxn SAlu.p 27 0 (fun _ => rfl)
  (getSAlu_enc 27 0) (fun _ => rfl) (fun _ => rfl) (fun _ => rfl) (fun _ => rfl) rfl (by decide) (by decide) o
theorem sext (o : SUn) : Statement (.sext o) := decode_form getSUn encSUn .sext SUn.p 28 0 (fun _ => rfl)
  (getSUn_enc 28 0) (fun _ => rfl) (fun _ => rfl) (fun _ => rfl) (fun _ => rfl) rfl (by decide) (by decide) o
theorem zext (o : SUn) : Statement (.zext o) := decode_form getSUn encSUn .zext SUn.p 29 0 (fun _ => rfl)
  (getSUn_enc 29 0) (fun _ => rfl) (fun _ => rfl) (fun _ => rfl) (fun _ => rfl) rfl (by decide) (by decide) o
theorem bfx (o : SBf) : Statement (.bfx o) := decode_form getSBf encSBf .bfx SBf.p 30 1 (fun _ => rfl)
  (getSBf_enc 30 1) (fun _ => rfl) (fun _ => rfl) (fun _ => rfl) (fun _ => rfl) rfl (by decide) (by decide) o
theorem bfi (o : SBf) : Statement (.bfi o) := decode_form getSBf encSBf .bfi SBf.p 31 1 (fun _ => rfl)
  (getSBf_enc 31 1) (fun _ => rfl) (fun _ => rfl) (fun _ => rfl) (fun _ => rfl) rfl (by decide) (by decide) o
theorem sel (o : SSel) : Statement (.sel o) := decode_form getSSel encSSel .sel SSel.p 32 1 (fun _ => rfl)
  (getSSel_enc 32 1) (fun _ => rfl) (fun _ => rfl) (fun _ => rfl) (fun _ => rfl) rfl (by decide) (by decide) o
theorem li (o : SLi) : Statement (.li o) := decode_form getSLi encSLi .li SLi.p 33 3 (fun _ => rfl)
  (getSLi_enc 33 3) (fun _ => rfl) (fun _ => rfl) (fun _ => rfl) (fun _ => rfl) rfl (by decide) (by decide) o
theorem addip (o : SIp) : Statement (.addip o) := decode_form getSIp encSIp .addip SIp.p 34 2 (fun _ => rfl)
  (getSIp_enc 34 2) (fun _ => rfl) (fun _ => rfl) (fun _ => rfl) (fun _ => rfl) rfl (by decide) (by decide) o
theorem lea (o : SLea) : Statement (.lea o) := decode_form getSLea encSLea .lea SLea.p 35 4 (fun _ => rfl)
  (getSLea_enc 35 4) (fun _ => rfl) (fun _ => rfl) (fun _ => rfl) (fun _ => rfl) rfl (by decide) (by decide) o
theorem mov (o : SMov) : Statement (.mov o) := decode_form getSMov encSMov .mov SMov.p 36 0 (fun _ => rfl)
  (getSMov_enc 36 0) (fun _ => rfl) (fun _ => rfl) (fun _ => rfl) (fun _ => rfl) rfl (by decide) (by decide) o
theorem cmpI (o : SCmp) : Statement (.cmpI o) := decode_form getSCmp encSCmp .cmpI SCmp.p 37 0 (fun _ => rfl)
  (getSCmp_enc 37 0) (fun _ => rfl) (fun _ => rfl) (fun _ => rfl) (fun _ => rfl) rfl (by decide) (by decide) o
theorem cmpF (o : SCmp) : Statement (.cmpF o) := decode_form getSCmp encSCmp .cmpF SCmp.p 38 0 (fun _ => rfl)
  (getSCmp_enc 38 0) (fun _ => rfl) (fun _ => rfl) (fun _ => rfl) (fun _ => rfl) rfl (by decide) (by decide) o
theorem pand (o : P3) : Statement (.pand o) := decode_form getP3 encP3 .pand P3.p 39 0 (fun _ => rfl)
  (getP3_enc 39 0) (fun _ => rfl) (fun _ => rfl) (fun _ => rfl) (fun _ => rfl) rfl (by decide) (by decide) o
theorem por (o : P3) : Statement (.por o) := decode_form getP3 encP3 .por P3.p 40 0 (fun _ => rfl)
  (getP3_enc 40 0) (fun _ => rfl) (fun _ => rfl) (fun _ => rfl) (fun _ => rfl) rfl (by decide) (by decide) o
theorem pxor (o : P3) : Statement (.pxor o) := decode_form getP3 encP3 .pxor P3.p 41 0 (fun _ => rfl)
  (getP3_enc 41 0) (fun _ => rfl) (fun _ => rfl) (fun _ => rfl) (fun _ => rfl) rfl (by decide) (by decide) o
theorem pnot (o : P2) : Statement (.pnot o) := decode_form getP2 encP2 .pnot P2.p 42 0 (fun _ => rfl)
  (getP2_enc 42 0) (fun _ => rfl) (fun _ => rfl) (fun _ => rfl) (fun _ => rfl) rfl (by decide) (by decide) o
theorem pmov (o : PMov) : Statement (.pmov o) := decode_form getPMov encPMov .pmov PMov.p 43 0 (fun _ => rfl)
  (getPMov_enc 43 0) (fun _ => rfl) (fun _ => rfl) (fun _ => rfl) (fun _ => rfl) rfl (by decide) (by decide) o
theorem pcnt (o : PCnt) : Statement (.pcnt o) := decode_form getPCntP encPCntP .pcnt PCnt.p 44 0 (fun _ => rfl)
  (getPCntP_enc 44 0) (fun _ => rfl) (fun _ => rfl) (fun _ => rfl) (fun _ => rfl) rfl (by decide) (by decide) o
theorem xset (o : XSet) : Statement (.xset o) := decode_form getXSet encXSet .xset XSet.p 45 2 (fun _ => rfl)
  (getXSet_enc 45 2) (fun _ => rfl) (fun _ => rfl) (fun _ => rfl) (fun _ => rfl) rfl (by decide) (by decide) o
theorem xadd (o : XAdd) : Statement (.xadd o) := decode_form getXAdd encXAdd .xadd XAdd.p 46 2 (fun _ => rfl)
  (getXAdd_enc 46 2) (fun _ => rfl) (fun _ => rfl) (fun _ => rfl) (fun _ => rfl) rfl (by decide) (by decide) o
theorem xmov (o : XMov) : Statement (.xmov o) := decode_form getXMov encXMov .xmov XMov.p 47 0 (fun _ => rfl)
  (getXMov_enc 47 0) (fun _ => rfl) (fun _ => rfl) (fun _ => rfl) (fun _ => rfl) rfl (by decide) (by decide) o
theorem xget (o : PCnt) : Statement (.xget o) := decode_form getPCntX encPCntX .xget PCnt.p 48 0 (fun _ => rfl)
  (getPCntX_enc 48 0) (fun _ => rfl) (fun _ => rfl) (fun _ => rfl) (fun _ => rfl) rfl (by decide) (by decide) o
theorem br (o : BrP) : Statement (.br o) := decode_form getBrP encBrP .br BrP.p 49 5 (fun _ => rfl)
  (getBrP_enc 49 5) (fun _ => rfl) (fun _ => rfl) (fun _ => rfl) (fun _ => rfl) rfl (by decide) (by decide) o
theorem jmp (o : BrJ) : Statement (.jmp o) := decode_form getBrJ encBrJ .jmp BrJ.p 50 5 (fun _ => rfl)
  (getBrJ_enc 50 5) (fun _ => rfl) (fun _ => rfl) (fun _ => rfl) (fun _ => rfl) rfl (by decide) (by decide) o
theorem call (o : BrD) : Statement (.call o) := decode_form getBrD encBrD .call BrD.p 51 5 (fun _ => rfl)
  (getBrD_enc 51 5) (fun _ => rfl) (fun _ => rfl) (fun _ => rfl) (fun _ => rfl) rfl (by decide) (by decide) o
theorem ret (o : SA1) : Statement (.ret o) := decode_form getSA1 encSA1 .ret SA1.p 52 5 (fun _ => rfl)
  (getSA1_enc 52 5) (fun _ => rfl) (fun _ => rfl) (fun _ => rfl) (fun _ => rfl) rfl (by decide) (by decide) o
theorem loop (o : BrD) : Statement (.loop o) := decode_form getBrD encBrD .loop BrD.p 53 5 (fun _ => rfl)
  (getBrD_enc 53 5) (fun _ => rfl) (fun _ => rfl) (fun _ => rfl) (fun _ => rfl) rfl (by decide) (by decide) o
theorem brx (o : SD2) : Statement (.brx o) := decode_form getSD2 encSD2 .brx SD2.p 54 5 (fun _ => rfl)
  (getSD2_enc 54 5) (fun _ => rfl) (fun _ => rfl) (fun _ => rfl) (fun _ => rfl) rfl (by decide) (by decide) o
theorem end_ (o : Bare) : Statement (.end_ o) := decode_form getBare encBare .end_ Bare.p 55 7 (fun _ => rfl)
  (getBare_enc 55 7) (fun _ => rfl) (fun _ => rfl) (fun _ => rfl) (fun _ => rfl) rfl (by decide) (by decide) o
theorem yield_ (o : Bare) : Statement (.yield_ o) := decode_form getBare encBare .yield_ Bare.p 56 7 (fun _ => rfl)
  (getBare_enc 56 7) (fun _ => rfl) (fun _ => rfl) (fun _ => rfl) (fun _ => rfl) rfl (by decide) (by decide) o
theorem ld (o : MemS) : Statement (.ld o) := decode_form getMemS encMemS .ld MemS.p 57 4 (fun _ => rfl)
  (getMemS_enc 57 4) (fun _ => rfl) (fun _ => rfl) (fun _ => rfl) (fun _ => rfl) rfl (by decide) (by decide) o
theorem st (o : MemS) : Statement (.st o) := decode_form getMemS encMemS .st MemS.p 58 4 (fun _ => rfl)
  (getMemS_enc 58 4) (fun _ => rfl) (fun _ => rfl) (fun _ => rfl) (fun _ => rfl) rfl (by decide) (by decide) o
theorem vld (o : MemV) : Statement (.vld o) := decode_form getMemV encMemV .vld MemV.p 59 4 (fun _ => rfl)
  (getMemV_enc 59 4) (fun _ => rfl) (fun _ => rfl) (fun _ => rfl) (fun _ => rfl) rfl (by decide) (by decide) o
theorem vldConverting (o : MemC) : Statement (.vldConverting o) := decode_form getMemC encMemC .vldConverting MemC.p 60 4 (fun _ => rfl)
  (getMemC_enc 60 4) (fun _ => rfl) (fun _ => rfl) (fun _ => rfl) (fun _ => rfl) rfl (by decide) (by decide) o
theorem vst (o : MemV) : Statement (.vst o) := decode_form getMemV encMemV .vst MemV.p 61 4 (fun _ => rfl)
  (getMemV_enc 61 4) (fun _ => rfl) (fun _ => rfl) (fun _ => rfl) (fun _ => rfl) rfl (by decide) (by decide) o
theorem vldm (o : MemM) : Statement (.vldm o) := decode_form getMemM encMemM .vldm MemM.p 62 4 (fun _ => rfl)
  (getMemM_enc 62 4) (fun _ => rfl) (fun _ => rfl) (fun _ => rfl) (fun _ => rfl) rfl (by decide) (by decide) o
theorem vstm (o : MemM) : Statement (.vstm o) := decode_form getMemM encMemM .vstm MemM.p 63 4 (fun _ => rfl)
  (getMemM_enc 63 4) (fun _ => rfl) (fun _ => rfl) (fun _ => rfl) (fun _ => rfl) rfl (by decide) (by decide) o
theorem ldk (o : MemS) : Statement (.ldk o) := decode_form getMemS encMemS .ldk MemS.p 64 4 (fun _ => rfl)
  (getMemS_enc 64 4) (fun _ => rfl) (fun _ => rfl) (fun _ => rfl) (fun _ => rfl) rfl (by decide) (by decide) o
theorem pref (o : MemA) : Statement (.pref o) := decode_form getMemA encMemA .pref MemA.p 65 4 (fun _ => rfl)
  (getMemA_enc 65 4) (fun _ => rfl) (fun _ => rfl) (fun _ => rfl) (fun _ => rfl) rfl (by decide) (by decide) o
theorem vgath32 (o : VGs) : Statement (.vgath32 o) := decode_form getVGs encVGs .vgath32 VGs.p 66 4 (fun _ => rfl)
  (getVGs_enc 66 4) (fun _ => rfl) (fun _ => rfl) (fun _ => rfl) (fun _ => rfl) rfl (by decide) (by decide) o
theorem vgath64 (o : VGs) : Statement (.vgath64 o) := decode_form getVGs encVGs .vgath64 VGs.p 67 4 (fun _ => rfl)
  (getVGs_enc 67 4) (fun _ => rfl) (fun _ => rfl) (fun _ => rfl) (fun _ => rfl) rfl (by decide) (by decide) o
theorem vscat32 (o : VGs) : Statement (.vscat32 o) := decode_form getVGs encVGs .vscat32 VGs.p 68 4 (fun _ => rfl)
  (getVGs_enc 68 4) (fun _ => rfl) (fun _ => rfl) (fun _ => rfl) (fun _ => rfl) rfl (by decide) (by decide) o
theorem vscat64 (o : VGs) : Statement (.vscat64 o) := decode_form getVGs encVGs .vscat64 VGs.p 69 4 (fun _ => rfl)
  (getVGs_enc 69 4) (fun _ => rfl) (fun _ => rfl) (fun _ => rfl) (fun _ => rfl) rfl (by decide) (by decide) o
theorem trap (o : Code) : Statement (.trap o) := decode_form getCode encCode .trap Code.p 70 7 (fun _ => rfl)
  (getCode_enc 70 7) (fun _ => rfl) (fun _ => rfl) (fun _ => rfl) (fun _ => rfl) rfl (by decide) (by decide) o
theorem tret (o : Bare) : Statement (.tret o) := decode_form getBare encBare .tret Bare.p 71 7 (fun _ => rfl)
  (getBare_enc 71 7) (fun _ => rfl) (fun _ => rfl) (fun _ => rfl) (fun _ => rfl) rfl (by decide) (by decide) o
theorem upret (o : SA1) : Statement (.upret o) := decode_form getSA1 encSA1 .upret SA1.p 72 7 (fun _ => rfl)
  (getSA1_enc 72 7) (fun _ => rfl) (fun _ => rfl) (fun _ => rfl) (fun _ => rfl) rfl (by decide) (by decide) o
theorem mfs (o : MfsO) : Statement (.mfs o) := decode_form getMfsO encMfsO .mfs MfsO.p 73 7 (fun _ => rfl)
  (getMfsO_enc 73 7) (fun _ => rfl) (fun _ => rfl) (fun _ => rfl) (fun _ => rfl) rfl (by decide) (by decide) o
theorem mts (o : MtsO) : Statement (.mts o) := decode_form getMtsO encMtsO .mts MtsO.p 74 7 (fun _ => rfl)
  (getMtsO_enc 74 7) (fun _ => rfl) (fun _ => rfl) (fun _ => rfl) (fun _ => rfl) rfl (by decide) (by decide) o
theorem sysc (o : Code) : Statement (.sysc o) := decode_form getCode encCode .sysc Code.p 75 7 (fun _ => rfl)
  (getCode_enc 75 7) (fun _ => rfl) (fun _ => rfl) (fun _ => rfl) (fun _ => rfl) rfl (by decide) (by decide) o
theorem brk (o : Code) : Statement (.brk o) := decode_form getCode encCode .brk Code.p 76 7 (fun _ => rfl)
  (getCode_enc 76 7) (fun _ => rfl) (fun _ => rfl) (fun _ => rfl) (fun _ => rfl) rfl (by decide) (by decide) o
theorem rdtime (o : SD1) : Statement (.rdtime o) := decode_form getSD1 encSD1 .rdtime SD1.p 77 7 (fun _ => rfl)
  (getSD1_enc 77 7) (fun _ => rfl) (fun _ => rfl) (fun _ => rfl) (fun _ => rfl) rfl (by decide) (by decide) o
theorem ifence (o : Bare) : Statement (.ifence o) := decode_form getBare encBare .ifence Bare.p 78 7 (fun _ => rfl)
  (getBare_enc 78 7) (fun _ => rfl) (fun _ => rfl) (fun _ => rfl) (fun _ => rfl) rfl (by decide) (by decide) o
theorem halt (o : Bare) : Statement (.halt o) := decode_form getBare encBare .halt Bare.p 79 7 (fun _ => rfl)
  (getBare_enc 79 7) (fun _ => rfl) (fun _ => rfl) (fun _ => rfl) (fun _ => rfl) rfl (by decide) (by decide) o
theorem vaddI (o : VBin) : Statement (.vaddI o) := decode_form getVBin encVBin .vaddI VBin.p 80 0 (fun _ => rfl)
  (getVBin_enc 80 0) (fun _ => rfl) (fun _ => rfl) (fun _ => rfl) (fun _ => rfl) rfl (by decide) (by decide) o
theorem vaddF (o : VBin) : Statement (.vaddF o) := decode_form getVBin encVBin .vaddF VBin.p 81 0 (fun _ => rfl)
  (getVBin_enc 81 0) (fun _ => rfl) (fun _ => rfl) (fun _ => rfl) (fun _ => rfl) rfl (by decide) (by decide) o
theorem vsubI (o : VBin) : Statement (.vsubI o) := decode_form getVBin encVBin .vsubI VBin.p 82 0 (fun _ => rfl)
  (getVBin_enc 82 0) (fun _ => rfl) (fun _ => rfl) (fun _ => rfl) (fun _ => rfl) rfl (by decide) (by decide) o
theorem vsubF (o : VBin) : Statement (.vsubF o) := decode_form getVBin encVBin .vsubF VBin.p 83 0 (fun _ => rfl)
  (getVBin_enc 83 0) (fun _ => rfl) (fun _ => rfl) (fun _ => rfl) (fun _ => rfl) rfl (by decide) (by decide) o
theorem vmulI (o : VBin) : Statement (.vmulI o) := decode_form getVBin encVBin .vmulI VBin.p 84 0 (fun _ => rfl)
  (getVBin_enc 84 0) (fun _ => rfl) (fun _ => rfl) (fun _ => rfl) (fun _ => rfl) rfl (by decide) (by decide) o
theorem vmulF (o : VBin) : Statement (.vmulF o) := decode_form getVBin encVBin .vmulF VBin.p 85 0 (fun _ => rfl)
  (getVBin_enc 85 0) (fun _ => rfl) (fun _ => rfl) (fun _ => rfl) (fun _ => rfl) rfl (by decide) (by decide) o
theorem vfma (o : VTri) : Statement (.vfma o) := decode_form getVTri encVTri .vfma VTri.p 86 1 (fun _ => rfl)
  (getVTri_enc 86 1) (fun _ => rfl) (fun _ => rfl) (fun _ => rfl) (fun _ => rfl) rfl (by decide) (by decide) o
theorem vfms (o : VTri) : Statement (.vfms o) := decode_form getVTri encVTri .vfms VTri.p 87 1 (fun _ => rfl)
  (getVTri_enc 87 1) (fun _ => rfl) (fun _ => rfl) (fun _ => rfl) (fun _ => rfl) rfl (by decide) (by decide) o
theorem vfnma (o : VTri) : Statement (.vfnma o) := decode_form getVTri encVTri .vfnma VTri.p 88 1 (fun _ => rfl)
  (getVTri_enc 88 1) (fun _ => rfl) (fun _ => rfl) (fun _ => rfl) (fun _ => rfl) rfl (by decide) (by decide) o
theorem vdiv (o : VBin) : Statement (.vdiv o) := decode_form getVBin encVBin .vdiv VBin.p 89 0 (fun _ => rfl)
  (getVBin_enc 89 0) (fun _ => rfl) (fun _ => rfl) (fun _ => rfl) (fun _ => rfl) rfl (by decide) (by decide) o
theorem vsqrt (o : VUn) : Statement (.vsqrt o) := decode_form getVUn encVUn .vsqrt VUn.p 90 0 (fun _ => rfl)
  (getVUn_enc 90 0) (fun _ => rfl) (fun _ => rfl) (fun _ => rfl) (fun _ => rfl) rfl (by decide) (by decide) o
theorem vrcp (o : VUn) : Statement (.vrcp o) := decode_form getVUn encVUn .vrcp VUn.p 91 0 (fun _ => rfl)
  (getVUn_enc 91 0) (fun _ => rfl) (fun _ => rfl) (fun _ => rfl) (fun _ => rfl) rfl (by decide) (by decide) o
theorem vrsqrt (o : VUn) : Statement (.vrsqrt o) := decode_form getVUn encVUn .vrsqrt VUn.p 92 0 (fun _ => rfl)
  (getVUn_enc 92 0) (fun _ => rfl) (fun _ => rfl) (fun _ => rfl) (fun _ => rfl) rfl (by decide) (by decide) o
theorem vexp2 (o : VUn) : Statement (.vexp2 o) := decode_form getVUn encVUn .vexp2 VUn.p 93 0 (fun _ => rfl)
  (getVUn_enc 93 0) (fun _ => rfl) (fun _ => rfl) (fun _ => rfl) (fun _ => rfl) rfl (by decide) (by decide) o
theorem vlog2 (o : VUn) : Statement (.vlog2 o) := decode_form getVUn encVUn .vlog2 VUn.p 94 0 (fun _ => rfl)
  (getVUn_enc 94 0) (fun _ => rfl) (fun _ => rfl) (fun _ => rfl) (fun _ => rfl) rfl (by decide) (by decide) o
theorem vminI (o : VBin) : Statement (.vminI o) := decode_form getVBin encVBin .vminI VBin.p 95 0 (fun _ => rfl)
  (getVBin_enc 95 0) (fun _ => rfl) (fun _ => rfl) (fun _ => rfl) (fun _ => rfl) rfl (by decide) (by decide) o
theorem vminF (o : VBin) : Statement (.vminF o) := decode_form getVBin encVBin .vminF VBin.p 96 0 (fun _ => rfl)
  (getVBin_enc 96 0) (fun _ => rfl) (fun _ => rfl) (fun _ => rfl) (fun _ => rfl) rfl (by decide) (by decide) o
theorem vmaxI (o : VBin) : Statement (.vmaxI o) := decode_form getVBin encVBin .vmaxI VBin.p 97 0 (fun _ => rfl)
  (getVBin_enc 97 0) (fun _ => rfl) (fun _ => rfl) (fun _ => rfl) (fun _ => rfl) rfl (by decide) (by decide) o
theorem vmaxF (o : VBin) : Statement (.vmaxF o) := decode_form getVBin encVBin .vmaxF VBin.p 98 0 (fun _ => rfl)
  (getVBin_enc 98 0) (fun _ => rfl) (fun _ => rfl) (fun _ => rfl) (fun _ => rfl) rfl (by decide) (by decide) o
theorem vabsI (o : VUn) : Statement (.vabsI o) := decode_form getVUn encVUn .vabsI VUn.p 99 0 (fun _ => rfl)
  (getVUn_enc 99 0) (fun _ => rfl) (fun _ => rfl) (fun _ => rfl) (fun _ => rfl) rfl (by decide) (by decide) o
theorem vabsF (o : VUn) : Statement (.vabsF o) := decode_form getVUn encVUn .vabsF VUn.p 100 0 (fun _ => rfl)
  (getVUn_enc 100 0) (fun _ => rfl) (fun _ => rfl) (fun _ => rfl) (fun _ => rfl) rfl (by decide) (by decide) o
theorem vnegI (o : VUn) : Statement (.vnegI o) := decode_form getVUn encVUn .vnegI VUn.p 101 0 (fun _ => rfl)
  (getVUn_enc 101 0) (fun _ => rfl) (fun _ => rfl) (fun _ => rfl) (fun _ => rfl) rfl (by decide) (by decide) o
theorem vnegF (o : VUn) : Statement (.vnegF o) := decode_form getVUn encVUn .vnegF VUn.p 102 0 (fun _ => rfl)
  (getVUn_enc 102 0) (fun _ => rfl) (fun _ => rfl) (fun _ => rfl) (fun _ => rfl) rfl (by decide) (by decide) o
theorem vcmpI (o : VCmp) : Statement (.vcmpI o) := decode_form getVCmp encVCmp .vcmpI VCmp.p 103 0 (fun _ => rfl)
  (getVCmp_enc 103 0) (fun _ => rfl) (fun _ => rfl) (fun _ => rfl) (fun _ => rfl) rfl (by decide) (by decide) o
theorem vcmpF (o : VCmp) : Statement (.vcmpF o) := decode_form getVCmp encVCmp .vcmpF VCmp.p 104 0 (fun _ => rfl)
  (getVCmp_enc 104 0) (fun _ => rfl) (fun _ => rfl) (fun _ => rfl) (fun _ => rfl) rfl (by decide) (by decide) o
theorem vsel (o : VSel) : Statement (.vsel o) := decode_form getVSel encVSel .vsel VSel.p 105 1 (fun _ => rfl)
  (getVSel_enc 105 1) (fun _ => rfl) (fun _ => rfl) (fun _ => rfl) (fun _ => rfl) rfl (by decide) (by decide) o
theorem vcvtII (o : VCvt) : Statement (.vcvtII o) := decode_form getVCvt encVCvt .vcvtII VCvt.p 106 0 (fun _ => rfl)
  (getVCvt_enc 106 0) (fun _ => rfl) (fun _ => rfl) (fun _ => rfl) (fun _ => rfl) rfl (by decide) (by decide) o
theorem vcvtIF (o : VCvt) : Statement (.vcvtIF o) := decode_form getVCvt encVCvt .vcvtIF VCvt.p 107 0 (fun _ => rfl)
  (getVCvt_enc 107 0) (fun _ => rfl) (fun _ => rfl) (fun _ => rfl) (fun _ => rfl) rfl (by decide) (by decide) o
theorem vcvtFI (o : VCvt) : Statement (.vcvtFI o) := decode_form getVCvt encVCvt .vcvtFI VCvt.p 108 0 (fun _ => rfl)
  (getVCvt_enc 108 0) (fun _ => rfl) (fun _ => rfl) (fun _ => rfl) (fun _ => rfl) rfl (by decide) (by decide) o
theorem vcvtFF (o : VCvt) : Statement (.vcvtFF o) := decode_form getVCvt encVCvt .vcvtFF VCvt.p 109 0 (fun _ => rfl)
  (getVCvt_enc 109 0) (fun _ => rfl) (fun _ => rfl) (fun _ => rfl) (fun _ => rfl) rfl (by decide) (by decide) o
theorem vround (o : VRnd) : Statement (.vround o) := decode_form getVRnd encVRnd .vround VRnd.p 110 0 (fun _ => rfl)
  (getVRnd_enc 110 0) (fun _ => rfl) (fun _ => rfl) (fun _ => rfl) (fun _ => rfl) rfl (by decide) (by decide) o
theorem vand (o : VLog) : Statement (.vand o) := decode_form getVLog encVLog .vand VLog.p 111 0 (fun _ => rfl)
  (getVLog_enc 111 0) (fun _ => rfl) (fun _ => rfl) (fun _ => rfl) (fun _ => rfl) rfl (by decide) (by decide) o
theorem vor (o : VLog) : Statement (.vor o) := decode_form getVLog encVLog .vor VLog.p 112 0 (fun _ => rfl)
  (getVLog_enc 112 0) (fun _ => rfl) (fun _ => rfl) (fun _ => rfl) (fun _ => rfl) rfl (by decide) (by decide) o
theorem vxor (o : VLog) : Statement (.vxor o) := decode_form getVLog encVLog .vxor VLog.p 113 0 (fun _ => rfl)
  (getVLog_enc 113 0) (fun _ => rfl) (fun _ => rfl) (fun _ => rfl) (fun _ => rfl) rfl (by decide) (by decide) o
theorem vshl (o : VLog) : Statement (.vshl o) := decode_form getVLog encVLog .vshl VLog.p 114 0 (fun _ => rfl)
  (getVLog_enc 114 0) (fun _ => rfl) (fun _ => rfl) (fun _ => rfl) (fun _ => rfl) rfl (by decide) (by decide) o
theorem vshr (o : VLog) : Statement (.vshr o) := decode_form getVLog encVLog .vshr VLog.p 115 0 (fun _ => rfl)
  (getVLog_enc 115 0) (fun _ => rfl) (fun _ => rfl) (fun _ => rfl) (fun _ => rfl) rfl (by decide) (by decide) o
theorem vsar (o : VLog) : Statement (.vsar o) := decode_form getVLog encVLog .vsar VLog.p 116 0 (fun _ => rfl)
  (getVLog_enc 116 0) (fun _ => rfl) (fun _ => rfl) (fun _ => rfl) (fun _ => rfl) rfl (by decide) (by decide) o
theorem vperm32 (o : VLog) : Statement (.vperm32 o) := decode_form getVLog encVLog .vperm32 VLog.p 117 0 (fun _ => rfl)
  (getVLog_enc 117 0) (fun _ => rfl) (fun _ => rfl) (fun _ => rfl) (fun _ => rfl) rfl (by decide) (by decide) o
theorem vperm64 (o : VLog) : Statement (.vperm64 o) := decode_form getVLog encVLog .vperm64 VLog.p 118 0 (fun _ => rfl)
  (getVLog_enc 118 0) (fun _ => rfl) (fun _ => rfl) (fun _ => rfl) (fun _ => rfl) rfl (by decide) (by decide) o
theorem vbcast32 (o : VFromS) : Statement (.vbcast32 o) := decode_form getVFromS encVFromS .vbcast32 VFromS.p 119 0 (fun _ => rfl)
  (getVFromS_enc 119 0) (fun _ => rfl) (fun _ => rfl) (fun _ => rfl) (fun _ => rfl) rfl (by decide) (by decide) o
theorem vbcast64 (o : VFromS) : Statement (.vbcast64 o) := decode_form getVFromS encVFromS .vbcast64 VFromS.p 120 0 (fun _ => rfl)
  (getVFromS_enc 120 0) (fun _ => rfl) (fun _ => rfl) (fun _ => rfl) (fun _ => rfl) rfl (by decide) (by decide) o
theorem vext (o : VExt) : Statement (.vext o) := decode_form getVExt encVExt .vext VExt.p 121 0 (fun _ => rfl)
  (getVExt_enc 121 0) (fun _ => rfl) (fun _ => rfl) (fun _ => rfl) (fun _ => rfl) rfl (by decide) (by decide) o
theorem vins (o : VIns) : Statement (.vins o) := decode_form getVIns encVIns .vins VIns.p 122 0 (fun _ => rfl)
  (getVIns_enc 122 0) (fun _ => rfl) (fun _ => rfl) (fun _ => rfl) (fun _ => rfl) rfl (by decide) (by decide) o
theorem vredaddI (o : VRed) : Statement (.vredaddI o) := decode_form getVRed encVRed .vredaddI VRed.p 123 0 (fun _ => rfl)
  (getVRed_enc 123 0) (fun _ => rfl) (fun _ => rfl) (fun _ => rfl) (fun _ => rfl) rfl (by decide) (by decide) o
theorem vredaddF (o : VRed) : Statement (.vredaddF o) := decode_form getVRed encVRed .vredaddF VRed.p 124 0 (fun _ => rfl)
  (getVRed_enc 124 0) (fun _ => rfl) (fun _ => rfl) (fun _ => rfl) (fun _ => rfl) rfl (by decide) (by decide) o
theorem vredminI (o : VRed) : Statement (.vredminI o) := decode_form getVRed encVRed .vredminI VRed.p 125 0 (fun _ => rfl)
  (getVRed_enc 125 0) (fun _ => rfl) (fun _ => rfl) (fun _ => rfl) (fun _ => rfl) rfl (by decide) (by decide) o
theorem vredminF (o : VRed) : Statement (.vredminF o) := decode_form getVRed encVRed .vredminF VRed.p 126 0 (fun _ => rfl)
  (getVRed_enc 126 0) (fun _ => rfl) (fun _ => rfl) (fun _ => rfl) (fun _ => rfl) rfl (by decide) (by decide) o
theorem vredmaxI (o : VRed) : Statement (.vredmaxI o) := decode_form getVRed encVRed .vredmaxI VRed.p 127 0 (fun _ => rfl)
  (getVRed_enc 127 0) (fun _ => rfl) (fun _ => rfl) (fun _ => rfl) (fun _ => rfl) rfl (by decide) (by decide) o
theorem vredmaxF (o : VRed) : Statement (.vredmaxF o) := decode_form getVRed encVRed .vredmaxF VRed.p 128 0 (fun _ => rfl)
  (getVRed_enc 128 0) (fun _ => rfl) (fun _ => rfl) (fun _ => rfl) (fun _ => rfl) rfl (by decide) (by decide) o
theorem vscanI (o : VScan) : Statement (.vscanI o) := decode_form getVScan encVScan .vscanI VScan.p 129 0 (fun _ => rfl)
  (getVScan_enc 129 0) (fun _ => rfl) (fun _ => rfl) (fun _ => rfl) (fun _ => rfl) rfl (by decide) (by decide) o
theorem vscanF (o : VScan) : Statement (.vscanF o) := decode_form getVScan encVScan .vscanF VScan.p 130 0 (fun _ => rfl)
  (getVScan_enc 130 0) (fun _ => rfl) (fun _ => rfl) (fun _ => rfl) (fun _ => rfl) rfl (by decide) (by decide) o
theorem vdot8 (o : VTri) : Statement (.vdot8 o) := decode_form getVTri encVTri .vdot8 VTri.p 131 1 (fun _ => rfl)
  (getVTri_enc 131 1) (fun _ => rfl) (fun _ => rfl) (fun _ => rfl) (fun _ => rfl) rfl (by decide) (by decide) o
theorem vdot16 (o : VTri) : Statement (.vdot16 o) := decode_form getVTri encVTri .vdot16 VTri.p 132 1 (fun _ => rfl)
  (getVTri_enc 132 1) (fun _ => rfl) (fun _ => rfl) (fun _ => rfl) (fun _ => rfl) rfl (by decide) (by decide) o
theorem vmac8 (o : VTri) : Statement (.vmac8 o) := decode_form getVTri encVTri .vmac8 VTri.p 133 1 (fun _ => rfl)
  (getVTri_enc 133 1) (fun _ => rfl) (fun _ => rfl) (fun _ => rfl) (fun _ => rfl) rfl (by decide) (by decide) o
theorem vmac16 (o : VTri) : Statement (.vmac16 o) := decode_form getVTri encVTri .vmac16 VTri.p 134 1 (fun _ => rfl)
  (getVTri_enc 134 1) (fun _ => rfl) (fun _ => rfl) (fun _ => rfl) (fun _ => rfl) rfl (by decide) (by decide) o
theorem vrng (o : V2) : Statement (.vrng o) := decode_form getV2 encV2 .vrng V2.p 135 0 (fun _ => rfl)
  (getV2_enc 135 0) (fun _ => rfl) (fun _ => rfl) (fun _ => rfl) (fun _ => rfl) rfl (by decide) (by decide) o
theorem vcompress (o : VUnT) : Statement (.vcompress o) := decode_form getVUnT encVUnT .vcompress VUnT.p 136 0 (fun _ => rfl)
  (getVUnT_enc 136 0) (fun _ => rfl) (fun _ => rfl) (fun _ => rfl) (fun _ => rfl) rfl (by decide) (by decide) o
theorem vexpand (o : VUnT) : Statement (.vexpand o) := decode_form getVUnT encVUnT .vexpand VUnT.p 137 0 (fun _ => rfl)
  (getVUnT_enc 137 0) (fun _ => rfl) (fun _ => rfl) (fun _ => rfl) (fun _ => rfl) rfl (by decide) (by decide) o
theorem vpopc (o : VUnT) : Statement (.vpopc o) := decode_form getVUnT encVUnT .vpopc VUnT.p 138 0 (fun _ => rfl)
  (getVUnT_enc 138 0) (fun _ => rfl) (fun _ => rfl) (fun _ => rfl) (fun _ => rfl) rfl (by decide) (by decide) o
theorem vlane (o : VFromS) : Statement (.vlane o) := decode_form getVFromS encVFromS .vlane VFromS.p 139 0 (fun _ => rfl)
  (getVFromS_enc 139 0) (fun _ => rfl) (fun _ => rfl) (fun _ => rfl) (fun _ => rfl) rfl (by decide) (by decide) o
theorem vmov (o : V2) : Statement (.vmov o) := decode_form getV2 encV2 .vmov V2.p 140 0 (fun _ => rfl)
  (getV2_enc 140 0) (fun _ => rfl) (fun _ => rfl) (fun _ => rfl) (fun _ => rfl) rfl (by decide) (by decide) o
theorem mbld8 (o : MBld) : Statement (.mbld8 o) := decode_form getMBld encMBld .mbld8 MBld.p 141 6 (fun _ => rfl)
  (getMBld_enc 141 6) (fun _ => rfl) (fun _ => rfl) (fun _ => rfl) (fun _ => rfl) rfl (by decide) (by decide) o
theorem mbld16 (o : MBld) : Statement (.mbld16 o) := decode_form getMBld encMBld .mbld16 MBld.p 142 6 (fun _ => rfl)
  (getMBld_enc 142 6) (fun _ => rfl) (fun _ => rfl) (fun _ => rfl) (fun _ => rfl) rfl (by decide) (by decide) o
theorem mbrel (o : MBrel) : Statement (.mbrel o) := decode_form getMBrel encMBrel .mbrel MBrel.p 143 6 (fun _ => rfl)
  (getMBrel_enc 143 6) (fun _ => rfl) (fun _ => rfl) (fun _ => rfl) (fun _ => rfl) rfl (by decide) (by decide) o
theorem mld32 (o : MLoc) : Statement (.mld32 o) := decode_form getMLoc encMLoc .mld32 MLoc.p 144 6 (fun _ => rfl)
  (getMLoc_enc 144 6) (fun _ => rfl) (fun _ => rfl) (fun _ => rfl) (fun _ => rfl) rfl (by decide) (by decide) o
theorem mld16 (o : MLoc) : Statement (.mld16 o) := decode_form getMLoc encMLoc .mld16 MLoc.p 145 6 (fun _ => rfl)
  (getMLoc_enc 145 6) (fun _ => rfl) (fun _ => rfl) (fun _ => rfl) (fun _ => rfl) rfl (by decide) (by decide) o
theorem mst32 (o : MLoc) : Statement (.mst32 o) := decode_form getMLoc encMLoc .mst32 MLoc.p 146 6 (fun _ => rfl)
  (getMLoc_enc 146 6) (fun _ => rfl) (fun _ => rfl) (fun _ => rfl) (fun _ => rfl) rfl (by decide) (by decide) o
theorem mst16 (o : MLoc) : Statement (.mst16 o) := decode_form getMLoc encMLoc .mst16 MLoc.p 147 6 (fun _ => rfl)
  (getMLoc_enc 147 6) (fun _ => rfl) (fun _ => rfl) (fun _ => rfl) (fun _ => rfl) rfl (by decide) (by decide) o
theorem mzero (o : M1) : Statement (.mzero o) := decode_form getM1 encM1 .mzero M1.p 148 6 (fun _ => rfl)
  (getM1_enc 148 6) (fun _ => rfl) (fun _ => rfl) (fun _ => rfl) (fun _ => rfl) rfl (by decide) (by decide) o
theorem mmulE2M1 (o : MMul) : Statement (.mmulE2M1 o) := decode_form getMMul encMMul .mmulE2M1 MMul.p 149 6 (fun _ => rfl)
  (getMMul_enc 149 6) (fun o => by cases o with | mk p t rd gran d a b m => cases a <;> rfl) (fun o => by cases o with | mk p t rd gran d a b m => cases a <;> rfl)
  (fun o => by cases o with | mk p t rd gran d a b m => cases a <;> rfl) (fun _ => rfl) rfl (by decide) (by decide) o
theorem mmul8 (o : MMul) : Statement (.mmul8 o) := decode_form getMMul encMMul .mmul8 MMul.p 150 6 (fun _ => rfl)
  (getMMul_enc 150 6) (fun o => by cases o with | mk p t rd gran d a b m => cases a <;> rfl) (fun o => by cases o with | mk p t rd gran d a b m => cases a <;> rfl)
  (fun o => by cases o with | mk p t rd gran d a b m => cases a <;> rfl) (fun _ => rfl) rfl (by decide) (by decide) o
theorem mmul16 (o : MMul) : Statement (.mmul16 o) := decode_form getMMul encMMul .mmul16 MMul.p 151 6 (fun _ => rfl)
  (getMMul_enc 151 6) (fun o => by cases o with | mk p t rd gran d a b m => cases a <;> rfl) (fun o => by cases o with | mk p t rd gran d a b m => cases a <;> rfl)
  (fun o => by cases o with | mk p t rd gran d a b m => cases a <;> rfl) (fun _ => rfl) rfl (by decide) (by decide) o
theorem mmacE2M1 (o : MMul) : Statement (.mmacE2M1 o) := decode_form getMMul encMMul .mmacE2M1 MMul.p 152 6 (fun _ => rfl)
  (getMMul_enc 152 6) (fun o => by cases o with | mk p t rd gran d a b m => cases a <;> rfl) (fun o => by cases o with | mk p t rd gran d a b m => cases a <;> rfl)
  (fun o => by cases o with | mk p t rd gran d a b m => cases a <;> rfl) (fun _ => rfl) rfl (by decide) (by decide) o
theorem mmac8 (o : MMul) : Statement (.mmac8 o) := decode_form getMMul encMMul .mmac8 MMul.p 153 6 (fun _ => rfl)
  (getMMul_enc 153 6) (fun o => by cases o with | mk p t rd gran d a b m => cases a <;> rfl) (fun o => by cases o with | mk p t rd gran d a b m => cases a <;> rfl)
  (fun o => by cases o with | mk p t rd gran d a b m => cases a <;> rfl) (fun _ => rfl) rfl (by decide) (by decide) o
theorem mmac16 (o : MMul) : Statement (.mmac16 o) := decode_form getMMul encMMul .mmac16 MMul.p 154 6 (fun _ => rfl)
  (getMMul_enc 154 6) (fun o => by cases o with | mk p t rd gran d a b m => cases a <;> rfl) (fun o => by cases o with | mk p t rd gran d a b m => cases a <;> rfl)
  (fun o => by cases o with | mk p t rd gran d a b m => cases a <;> rfl) (fun _ => rfl) rfl (by decide) (by decide) o
theorem mfac (o : MFac) : Statement (.mfac o) := decode_form getMFac encMFac .mfac MFac.p 155 6 (fun _ => rfl)
  (getMFac_enc 155 6) (fun _ => rfl) (fun _ => rfl) (fun _ => rfl) (fun _ => rfl) rfl (by decide) (by decide) o
theorem mlradd (o : M3) : Statement (.mlradd o) := decode_form getM3 encM3 .mlradd M3.p 156 6 (fun _ => rfl)
  (getM3_enc 156 6) (fun _ => rfl) (fun _ => rfl) (fun _ => rfl) (fun _ => rfl) rfl (by decide) (by decide) o
theorem mlrmul (o : M3) : Statement (.mlrmul o) := decode_form getM3 encM3 .mlrmul M3.p 157 6 (fun _ => rfl)
  (getM3_enc 157 6) (fun _ => rfl) (fun _ => rfl) (fun _ => rfl) (fun _ => rfl) rfl (by decide) (by decide) o
theorem mreef (o : M2) : Statement (.mreef o) := decode_form getM2 encM2 .mreef M2.p 158 6 (fun _ => rfl)
  (getM2_enc 158 6) (fun _ => rfl) (fun _ => rfl) (fun _ => rfl) (fun _ => rfl) rfl (by decide) (by decide) o
theorem mprom (o : M2) : Statement (.mprom o) := decode_form getM2 encM2 .mprom M2.p 159 6 (fun _ => rfl)
  (getM2_enc 159 6) (fun _ => rfl) (fun _ => rfl) (fun _ => rfl) (fun _ => rfl) rfl (by decide) (by decide) o
theorem mrank (o : MRank) : Statement (.mrank o) := decode_form getMRank encMRank .mrank MRank.p 160 6 (fun _ => rfl)
  (getMRank_enc 160 6) (fun _ => rfl) (fun _ => rfl) (fun _ => rfl) (fun _ => rfl) rfl (by decide) (by decide) o
theorem mcvt (o : MLoc) : Statement (.mcvt o) := decode_form getMLoc encMLoc .mcvt MLoc.p 161 6 (fun _ => rfl)
  (getMLoc_enc 161 6) (fun _ => rfl) (fun _ => rfl) (fun _ => rfl) (fun _ => rfl) rfl (by decide) (by decide) o
theorem mtr (o : M2) : Statement (.mtr o) := decode_form getM2 encM2 .mtr M2.p 162 6 (fun _ => rfl)
  (getM2_enc 162 6) (fun _ => rfl) (fun _ => rfl) (fun _ => rfl) (fun _ => rfl) rfl (by decide) (by decide) o
theorem mscale (o : MScale) : Statement (.mscale o) := decode_form getMScale encMScale .mscale MScale.p 163 6 (fun _ => rfl)
  (getMScale_enc 163 6) (fun _ => rfl) (fun _ => rfl) (fun _ => rfl) (fun _ => rfl) rfl (by decide) (by decide) o
theorem mrec (o : MRec) : Statement (.mrec o) := decode_form getMRec encMRec .mrec MRec.p 164 6 (fun _ => rfl)
  (getMRec_enc 164 6) (fun _ => rfl) (fun _ => rfl) (fun _ => rfl) (fun _ => rfl) rfl (by decide) (by decide) o
theorem mrun (o : MRun) : Statement (.mrun o) := decode_form getMRun encMRun .mrun MRun.p 165 6 (fun _ => rfl)
  (getMRun_enc 165 6) (fun _ => rfl) (fun _ => rfl) (fun _ => rfl) (fun _ => rfl) rfl (by decide) (by decide) o
theorem mwait (o : MWait) : Statement (.mwait o) := decode_form getMWait encMWait .mwait MWait.p 166 6 (fun _ => rfl)
  (getMWait_enc 166 6) (fun _ => rfl) (fun _ => rfl) (fun _ => rfl) (fun _ => rfl) rfl (by decide) (by decide) o
theorem mfree (o : MFree) : Statement (.mfree o) := decode_form getMFree encMFree .mfree MFree.p 167 6 (fun _ => rfl)
  (getMFree_enc 167 6) (fun _ => rfl) (fun _ => rfl) (fun _ => rfl) (fun _ => rfl) rfl (by decide) (by decide) o
theorem rayopen (o : RayOpen) : Statement (.rayopen o) := decode_form getRayOpen encRayOpen .rayopen RayOpen.p 168 6 (fun _ => rfl)
  (getRayOpen_enc 168 6) (fun _ => rfl) (fun _ => rfl) (fun _ => rfl) (fun _ => rfl) rfl (by decide) (by decide) o
theorem raytrace (o : SA1) : Statement (.raytrace o) := decode_form getSA1 encSA1 .raytrace SA1.p 169 6 (fun _ => rfl)
  (getSA1_enc 169 6) (fun _ => rfl) (fun _ => rfl) (fun _ => rfl) (fun _ => rfl) rfl (by decide) (by decide) o
theorem raywait (o : RayWait) : Statement (.raywait o) := decode_form getRayWait encRayWait .raywait RayWait.p 170 6 (fun _ => rfl)
  (getRayWait_enc 170 6) (fun _ => rfl) (fun _ => rfl) (fun _ => rfl) (fun _ => rfl) rfl (by decide) (by decide) o
theorem ivpost (o : IvPost) : Statement (.ivpost o) := decode_form getIvPost encIvPost .ivpost IvPost.p 171 6 (fun _ => rfl)
  (getIvPost_enc 171 6) (fun _ => rfl) (fun _ => rfl) (fun _ => rfl) (fun _ => rfl) rfl (by decide) (by decide) o
theorem ivread (o : IvRead) : Statement (.ivread o) := decode_form getIvRead encIvRead .ivread IvRead.p 172 6 (fun _ => rfl)
  (getIvRead_enc 172 6) (fun _ => rfl) (fun _ => rfl) (fun _ => rfl) (fun _ => rfl) rfl (by decide) (by decide) o
theorem ivclr (o : SA1) : Statement (.ivclr o) := decode_form getSA1 encSA1 .ivclr SA1.p 173 6 (fun _ => rfl)
  (getSA1_enc 173 6) (fun _ => rfl) (fun _ => rfl) (fun _ => rfl) (fun _ => rfl) rfl (by decide) (by decide) o
theorem ivstat (o : IvStat) : Statement (.ivstat o) := decode_form getIvStat encIvStat .ivstat IvStat.p 174 6 (fun _ => rfl)
  (getIvStat_enc 174 6) (fun _ => rfl) (fun _ => rfl) (fun _ => rfl) (fun _ => rfl) rfl (by decide) (by decide) o
theorem hitq (o : HitQ) : Statement (.hitq o) := decode_form getHitQ encHitQ .hitq HitQ.p 175 6 (fun _ => rfl)
  (getHitQ_enc 175 6) (fun _ => rfl) (fun _ => rfl) (fun _ => rfl) (fun _ => rfl) rfl (by decide) (by decide) o
theorem rsvupd (o : V2S) : Statement (.rsvupd o) := decode_form getV2S encV2S .rsvupd V2S.p 176 0 (fun _ => rfl)
  (getV2S_enc 176 0) (fun _ => rfl) (fun _ => rfl) (fun _ => rfl) (fun _ => rfl) rfl (by decide) (by decide) o
theorem rsvmrg (o : V2S) : Statement (.rsvmrg o) := decode_form getV2S encV2S .rsvmrg V2S.p 177 0 (fun _ => rfl)
  (getV2S_enc 177 0) (fun _ => rfl) (fun _ => rfl) (fun _ => rfl) (fun _ => rfl) rfl (by decide) (by decide) o
theorem rsvget (o : V2) : Statement (.rsvget o) := decode_form getV2 encV2 .rsvget V2.p 178 0 (fun _ => rfl)
  (getV2_enc 178 0) (fun _ => rfl) (fun _ => rfl) (fun _ => rfl) (fun _ => rfl) rfl (by decide) (by decide) o
theorem logset (o : SA3) : Statement (.logset o) := decode_form getSA3 encSA3 .logset SA3.p 179 6 (fun _ => rfl)
  (getSA3_enc 179 6) (fun _ => rfl) (fun _ => rfl) (fun _ => rfl) (fun _ => rfl) rfl (by decide) (by decide) o
theorem replay (o : SA1) : Statement (.replay o) := decode_form getSA1 encSA1 .replay SA1.p 180 6 (fun _ => rfl)
  (getSA1_enc 180 6) (fun _ => rfl) (fun _ => rfl) (fun _ => rfl) (fun _ => rfl) rfl (by decide) (by decide) o
theorem amoI (o : Amo) : Statement (.amoI o) := decode_form getAmo encAmo .amoI Amo.p 181 4 (fun _ => rfl)
  (getAmo_enc 181 4) (fun _ => rfl) (fun _ => rfl) (fun _ => rfl) (fun _ => rfl) rfl (by decide) (by decide) o
theorem amoF (o : Amo) : Statement (.amoF o) := decode_form getAmo encAmo .amoF Amo.p 182 4 (fun _ => rfl)
  (getAmo_enc 182 4) (fun _ => rfl) (fun _ => rfl) (fun _ => rfl) (fun _ => rfl) rfl (by decide) (by decide) o
theorem cas (o : Cas) : Statement (.cas o) := decode_form getCas encCas .cas Cas.p 183 4 (fun _ => rfl)
  (getCas_enc 183 4) (fun _ => rfl) (fun _ => rfl) (fun _ => rfl) (fun _ => rfl) rfl (by decide) (by decide) o
theorem cas2 (o : Cas2) : Statement (.cas2 o) := decode_form getCas2 encCas2 .cas2 Cas2.p 184 4 (fun _ => rfl)
  (getCas2_enc 184 4) (fun _ => rfl) (fun _ => rfl) (fun _ => rfl) (fun _ => rfl) rfl (by decide) (by decide) o
theorem redI (o : Red) : Statement (.redI o) := decode_form getRed encRed .redI Red.p 185 4 (fun _ => rfl)
  (getRed_enc 185 4) (fun _ => rfl) (fun _ => rfl) (fun _ => rfl) (fun _ => rfl) rfl (by decide) (by decide) o
theorem redF (o : Red) : Statement (.redF o) := decode_form getRed encRed .redF Red.p 186 4 (fun _ => rfl)
  (getRed_enc 186 4) (fun _ => rfl) (fun _ => rfl) (fun _ => rfl) (fun _ => rfl) rfl (by decide) (by decide) o
theorem amsg (o : Amsg) : Statement (.amsg o) := decode_form getAmsg encAmsg .amsg Amsg.p 187 4 (fun _ => rfl)
  (getAmsg_enc 187 4) (fun _ => rfl) (fun _ => rfl) (fun _ => rfl) (fun _ => rfl) rfl (by decide) (by decide) o
theorem gath (o : Gath) : Statement (.gath o) := decode_form getGath encGath .gath Gath.p 188 6 (fun _ => rfl)
  (getGath_enc 188 6) (fun _ => rfl) (fun _ => rfl) (fun _ => rfl) (fun _ => rfl) rfl (by decide) (by decide) o
theorem fence (o : Fence) : Statement (.fence o) := decode_form getFence encFence .fence Fence.p 189 7 (fun _ => rfl)
  (getFence_enc 189 7) (fun _ => rfl) (fun _ => rfl) (fun _ => rfl) (fun _ => rfl) rfl (by decide) (by decide) o
theorem ldPath (o : MemSP) : Statement (.ldPath o) := decode_form getMemSP encMemSP .ldPath MemSP.p 190 4 (fun _ => rfl)
  (getMemSP_enc 190 4) (fun _ => rfl) (fun _ => rfl) (fun _ => rfl) (fun _ => rfl) rfl (by decide) (by decide) o
theorem stPath (o : MemSP) : Statement (.stPath o) := decode_form getMemSP encMemSP .stPath MemSP.p 191 4 (fun _ => rfl)
  (getMemSP_enc 191 4) (fun _ => rfl) (fun _ => rfl) (fun _ => rfl) (fun _ => rfl) rfl (by decide) (by decide) o
theorem vldPath (o : MemVP) : Statement (.vldPath o) := decode_form getMemVP encMemVP .vldPath MemVP.p 192 4 (fun _ => rfl)
  (getMemVP_enc 192 4) (fun _ => rfl) (fun _ => rfl) (fun _ => rfl) (fun _ => rfl) rfl (by decide) (by decide) o
theorem vstPath (o : MemVP) : Statement (.vstPath o) := decode_form getMemVP encMemVP .vstPath MemVP.p 193 4 (fun _ => rfl)
  (getMemVP_enc 193 4) (fun _ => rfl) (fun _ => rfl) (fun _ => rfl) (fun _ => rfl) rfl (by decide) (by decide) o
theorem cset (o : CSet) : Statement (.cset o) := decode_form getCSet encCSet .cset CSet.p 194 6 (fun _ => rfl)
  (getCSet_enc 194 6) (fun _ => rfl) (fun _ => rfl) (fun _ => rfl) (fun _ => rfl) rfl (by decide) (by decide) o
theorem cpygo (o : SD2) : Statement (.cpygo o) := decode_form getSD2 encSD2 .cpygo SD2.p 195 6 (fun _ => rfl)
  (getSD2_enc 195 6) (fun _ => rfl) (fun _ => rfl) (fun _ => rfl) (fun _ => rfl) rfl (by decide) (by decide) o
theorem cpycan (o : SD2) : Statement (.cpycan o) := decode_form getSD2 encSD2 .cpycan SD2.p 196 6 (fun _ => rfl)
  (getSD2_enc 196 6) (fun _ => rfl) (fun _ => rfl) (fun _ => rfl) (fun _ => rfl) rfl (by decide) (by decide) o
theorem semw (o : Sem) : Statement (.semw o) := decode_form getSem encSem .semw Sem.p 197 7 (fun _ => rfl)
  (getSem_enc 197 7) (fun _ => rfl) (fun _ => rfl) (fun _ => rfl) (fun _ => rfl) rfl (by decide) (by decide) o
theorem seminc (o : SemI) : Statement (.seminc o) := decode_form getSemI encSemI .seminc SemI.p 198 7 (fun _ => rfl)
  (getSemI_enc 198 7) (fun _ => rfl) (fun _ => rfl) (fun _ => rfl) (fun _ => rfl) rfl (by decide) (by decide) o
theorem semset (o : Sem) : Statement (.semset o) := decode_form getSem encSem .semset Sem.p 199 7 (fun _ => rfl)
  (getSem_enc 199 7) (fun _ => rfl) (fun _ => rfl) (fun _ => rfl) (fun _ => rfl) rfl (by decide) (by decide) o
theorem mcset (o : SA2) : Statement (.mcset o) := decode_form getSA2 encSA2 .mcset SA2.p 200 6 (fun _ => rfl)
  (getSA2_enc 200 6) (fun _ => rfl) (fun _ => rfl) (fun _ => rfl) (fun _ => rfl) rfl (by decide) (by decide) o
theorem rst (o : Rst) : Statement (.rst o) := decode_form getRst encRst .rst Rst.p 201 4 (fun _ => rfl)
  (getRst_enc 201 4) (fun _ => rfl) (fun _ => rfl) (fun _ => rfl) (fun _ => rfl) rfl (by decide) (by decide) o
theorem send (o : Send) : Statement (.send o) := decode_form getSend encSend .send Send.p 202 6 (fun _ => rfl)
  (getSend_enc 202 6) (fun _ => rfl) (fun _ => rfl) (fun _ => rfl) (fun _ => rfl) rfl (by decide) (by decide) o
theorem cmask (o : CMask) : Statement (.cmask o) := decode_form getCMask encCMask .cmask CMask.p 203 7 (fun _ => rfl)
  (getCMask_enc 203 7) (fun _ => rfl) (fun _ => rfl) (fun _ => rfl) (fun _ => rfl) rfl (by decide) (by decide) o
theorem cunmask (o : CMask) : Statement (.cunmask o) := decode_form getCMask encCMask .cunmask CMask.p 204 7 (fun _ => rfl)
  (getCMask_enc 204 7) (fun _ => rfl) (fun _ => rfl) (fun _ => rfl) (fun _ => rfl) rfl (by decide) (by decide) o
theorem qbind (o : QBind) : Statement (.qbind o) := decode_form getQBind encQBind .qbind QBind.p 205 7 (fun _ => rfl)
  (getQBind_enc 205 7) (fun _ => rfl) (fun _ => rfl) (fun _ => rfl) (fun _ => rfl) rfl (by decide) (by decide) o
theorem qlen (o : QReg) : Statement (.qlen o) := decode_form getQReg encQReg .qlen QReg.p 206 7 (fun _ => rfl)
  (getQReg_enc 206 7) (fun _ => rfl) (fun _ => rfl) (fun _ => rfl) (fun _ => rfl) rfl (by decide) (by decide) o
theorem qdrop (o : QReg) : Statement (.qdrop o) := decode_form getQReg encQReg .qdrop QReg.p 207 7 (fun _ => rfl)
  (getQReg_enc 207 7) (fun _ => rfl) (fun _ => rfl) (fun _ => rfl) (fun _ => rfl) rfl (by decide) (by decide) o
theorem spawn (o : Spawn) : Statement (.spawn o) := decode_form getSpawn encSpawn .spawn Spawn.p 208 6 (fun _ => rfl)
  (getSpawn_enc 208 6) (fun _ => rfl) (fun _ => rfl) (fun _ => rfl) (fun _ => rfl) rfl (by decide) (by decide) o
theorem spawnt (o : SpawnT) : Statement (.spawnt o) := decode_form getSpawnT encSpawnT .spawnt SpawnT.p 209 6 (fun _ => rfl)
  (getSpawnT_enc 209 6) (fun _ => rfl) (fun _ => rfl) (fun _ => rfl) (fun _ => rfl) rfl (by decide) (by decide) o
theorem join (o : S3) : Statement (.join o) := decode_form getS3 encS3 .join S3.p 210 7 (fun _ => rfl)
  (getS3_enc 210 7) (fun _ => rfl) (fun _ => rfl) (fun _ => rfl) (fun _ => rfl) rfl (by decide) (by decide) o
theorem ejoin (o : EJoin) : Statement (.ejoin o) := decode_form getEJoin encEJoin .ejoin EJoin.p 211 7 (fun _ => rfl)
  (getEJoin_enc 211 7) (fun _ => rfl) (fun _ => rfl) (fun _ => rfl) (fun _ => rfl) rfl (by decide) (by decide) o
theorem ewait (o : Ev) : Statement (.ewait o) := decode_form getEv encEv .ewait Ev.p 212 7 (fun _ => rfl)
  (getEv_enc 212 7) (fun _ => rfl) (fun _ => rfl) (fun _ => rfl) (fun _ => rfl) rfl (by decide) (by decide) o
theorem eset (o : Ev) : Statement (.eset o) := decode_form getEv encEv .eset Ev.p 213 7 (fun _ => rfl)
  (getEv_enc 213 7) (fun _ => rfl) (fun _ => rfl) (fun _ => rfl) (fun _ => rfl) rfl (by decide) (by decide) o
theorem launch (o : SD2) : Statement (.launch o) := decode_form getSD2 encSD2 .launch SD2.p 214 6 (fun _ => rfl)
  (getSD2_enc 214 6) (fun _ => rfl) (fun _ => rfl) (fun _ => rfl) (fun _ => rfl) rfl (by decide) (by decide) o
theorem cancel (o : Cancel) : Statement (.cancel o) := decode_form getCancel encCancel .cancel Cancel.p 215 7 (fun _ => rfl)
  (getCancel_enc 215 7) (fun _ => rfl) (fun _ => rfl) (fun _ => rfl) (fun _ => rfl) rfl (by decide) (by decide) o
theorem ctrd (o : Ctrd) : Statement (.ctrd o) := decode_form getCtrd encCtrd .ctrd Ctrd.p 216 7 (fun _ => rfl)
  (getCtrd_enc 216 7) (fun _ => rfl) (fun _ => rfl) (fun _ => rfl) (fun _ => rfl) rfl (by decide) (by decide) o
theorem resid (o : SD1) : Statement (.resid o) := decode_form getSD1 encSD1 .resid SD1.p 217 7 (fun _ => rfl)
  (getSD1_enc 217 7) (fun _ => rfl) (fun _ => rfl) (fun _ => rfl) (fun _ => rfl) rfl (by decide) (by decide) o
theorem defer_ (o : Bare) : Statement (.defer_ o) := decode_form getBare encBare .defer_ Bare.p 218 7 (fun _ => rfl)
  (getBare_enc 218 7) (fun _ => rfl) (fun _ => rfl) (fun _ => rfl) (fun _ => rfl) rfl (by decide) (by decide) o
theorem castpin (o : CastPin) : Statement (.castpin o) := decode_form getCastPin encCastPin .castpin CastPin.p 219 7 (fun _ => rfl)
  (getCastPin_enc 219 7) (fun _ => rfl) (fun _ => rfl) (fun _ => rfl) (fun _ => rfl) rfl (by decide) (by decide) o
theorem tlbinv (o : TlbInv) : Statement (.tlbinv o) := decode_form getTlbInv encTlbInv .tlbinv TlbInv.p 220 7 (fun _ => rfl)
  (getTlbInv_enc 220 7) (fun _ => rfl) (fun _ => rfl) (fun _ => rfl) (fun _ => rfl) rfl (by decide) (by decide) o
theorem ctxsv (o : S4) : Statement (.ctxsv o) := decode_form getS4 encS4 .ctxsv S4.p 221 7 (fun _ => rfl)
  (getS4_enc 221 7) (fun _ => rfl) (fun _ => rfl) (fun _ => rfl) (fun _ => rfl) rfl (by decide) (by decide) o
theorem ctxrs (o : S3) : Statement (.ctxrs o) := decode_form getS3 encS3 .ctxrs S3.p 222 7 (fun _ => rfl)
  (getS3_enc 222 7) (fun _ => rfl) (fun _ => rfl) (fun _ => rfl) (fun _ => rfl) rfl (by decide) (by decide) o
theorem rgload (o : S4) : Statement (.rgload o) := decode_form getS4 encS4 .rgload S4.p 223 6 (fun _ => rfl)
  (getS4_enc 223 6) (fun _ => rfl) (fun _ => rfl) (fun _ => rfl) (fun _ => rfl) rfl (by decide) (by decide) o
theorem mtsp (o : MtsO) : Statement (.mtsp o) := decode_form getMtsO encMtsO .mtsp MtsO.p 224 7 (fun _ => rfl)
  (getMtsO_enc 224 7) (fun _ => rfl) (fun _ => rfl) (fun _ => rfl) (fun _ => rfl) rfl (by decide) (by decide) o
theorem translationRegisterWrite (ctx cluster : Nat) : Statement (.translationRegisterWrite ctx cluster) := of_zero rfl rfl
theorem ffbaseWrite (g : Nat) (v : W64) : Statement (.ffbaseWrite g v) := of_zero rfl rfl
theorem fresRetry (fid : W64) : Statement (.fresRetry fid) := of_zero rfl rfl
theorem fresAbort (fid : W64) : Statement (.fresAbort fid) := of_zero rfl rfl
theorem fresDiscard (fid : W64) : Statement (.fresDiscard fid) := of_zero rfl rfl
theorem dcmdHalt (g : Nat) : Statement (.dcmdHalt g) := of_zero rfl rfl
theorem dcmdResume (g : Nat) : Statement (.dcmdResume g) := of_zero rfl rfl
theorem dcmdStep (g : Nat) : Statement (.dcmdStep g) := of_zero rfl rfl
theorem ddataWrite (g : Nat) (pool : Bool) (off : Nat) (v : W64) : Statement (.ddataWrite g pool off v) := of_zero rfl rfl
theorem rigNop (cluster slot : Nat) : Statement (.rigNop cluster slot) := of_zero rfl rfl
theorem rigLdi (cluster slot : Nat) : Statement (.rigLdi cluster slot) := of_zero rfl rfl
theorem rigMov (cluster slot : Nat) : Statement (.rigMov cluster slot) := of_zero rfl rfl
theorem rigAdd (cluster slot : Nat) : Statement (.rigAdd cluster slot) := of_zero rfl rfl
theorem rigSub (cluster slot : Nat) : Statement (.rigSub cluster slot) := of_zero rfl rfl
theorem rigAnd (cluster slot : Nat) : Statement (.rigAnd cluster slot) := of_zero rfl rfl
theorem rigOr (cluster slot : Nat) : Statement (.rigOr cluster slot) := of_zero rfl rfl
theorem rigShl (cluster slot : Nat) : Statement (.rigShl cluster slot) := of_zero rfl rfl
theorem rigShr (cluster slot : Nat) : Statement (.rigShr cluster slot) := of_zero rfl rfl
theorem rigCmp (cluster slot : Nat) : Statement (.rigCmp cluster slot) := of_zero rfl rfl
theorem rigRayw (cluster slot : Nat) : Statement (.rigRayw cluster slot) := of_zero rfl rfl
theorem rigFetch (cluster slot : Nat) : Statement (.rigFetch cluster slot) := of_zero rfl rfl
theorem rigNbw (cluster slot : Nat) : Statement (.rigNbw cluster slot) := of_zero rfl rfl
theorem rigBox (cluster slot : Nat) : Statement (.rigBox cluster slot) := of_zero rfl rfl
theorem rigChild (cluster slot : Nat) : Statement (.rigChild cluster slot) := of_zero rfl rfl
theorem rigPush (cluster slot : Nat) : Statement (.rigPush cluster slot) := of_zero rfl rfl
theorem rigPop (cluster slot : Nat) : Statement (.rigPop cluster slot) := of_zero rfl rfl
theorem rigFront (cluster slot : Nat) : Statement (.rigFront cluster slot) := of_zero rfl rfl
theorem rigTri (cluster slot : Nat) : Statement (.rigTri cluster slot) := of_zero rfl rfl
theorem rigSplat (cluster slot : Nat) : Statement (.rigSplat cluster slot) := of_zero rfl rfl
theorem rigLeaf (cluster slot : Nat) : Statement (.rigLeaf cluster slot) := of_zero rfl rfl
theorem rigCall (cluster slot : Nat) : Statement (.rigCall cluster slot) := of_zero rfl rfl
theorem rigRet (cluster slot : Nat) : Statement (.rigRet cluster slot) := of_zero rfl rfl
theorem rigDone (cluster slot : Nat) : Statement (.rigDone cluster slot) := of_zero rfl rfl
theorem microwordWatchdog (cluster slot : Nat) : Statement (.microwordWatchdog cluster slot) := of_zero rfl rfl
theorem hitTaskPush (cluster : Nat) : Statement (.hitTaskPush cluster) := of_zero rfl rfl
theorem listArrival (cluster slot : Nat) : Statement (.listArrival cluster slot) := of_zero rfl rfl
theorem rayDone (cluster slot : Nat) : Statement (.rayDone cluster slot) := of_zero rfl rfl
theorem taskPop (g : Nat) : Statement (.taskPop g) := of_zero rfl rfl
theorem agingPop (g : Nat) : Statement (.agingPop g) := of_zero rfl rfl
theorem activationStart (g : Nat) : Statement (.activationStart g) := of_zero rfl rfl
theorem steal (cluster ctx : Nat) : Statement (.steal cluster ctx) := of_zero rfl rfl
theorem stealRetry (cluster ctx : Nat) : Statement (.stealRetry cluster ctx) := of_zero rfl rfl
theorem overflowRefill (cluster ctx prio : Nat) : Statement (.overflowRefill cluster ctx prio) := of_zero rfl rfl
theorem continuationPush (ctx : Nat) : Statement (.continuationPush ctx) := of_zero rfl rfl
theorem coreBind (core ctx lid : Nat) : Statement (.coreBind core ctx lid) := of_zero rfl rfl
theorem coreRelease (core : Nat) : Statement (.coreRelease core) := of_zero rfl rfl
theorem launchAdmission (ctx lid : Nat) : Statement (.launchAdmission ctx lid) := of_zero rfl rfl
theorem unitDispatch (ctx lid : Nat) : Statement (.unitDispatch ctx lid) := of_zero rfl rfl
theorem residentRelease (ctx lid : Nat) : Statement (.residentRelease ctx lid) := of_zero rfl rfl
theorem engineFault (cluster id : Nat) : Statement (.engineFault cluster id) := of_zero rfl rfl
theorem macroParityError (core mac : Nat) : Statement (.macroParityError core mac) := of_zero rfl rfl
theorem matrixGrant (cluster : Nat) : Statement (.matrixGrant cluster) := of_zero rfl rfl
theorem matrixMigration (core : Nat) : Statement (.matrixMigration core) := of_zero rfl rfl
theorem matrixCommandComplete (core : Nat) : Statement (.matrixCommandComplete core) := of_zero rfl rfl
theorem copyStart (cluster id groups : Nat) (order : List Nat) : Statement (.copyStart cluster id groups order) := of_zero rfl rfl
theorem copyComplete (cluster id : Nat) : Statement (.copyComplete cluster id) := of_zero rfl rfl
theorem homeLoad (g addr : Nat) : Statement (.homeLoad g addr) := of_zero rfl rfl
theorem homeStore (g : Nat) : Statement (.homeStore g) := of_zero rfl rfl
theorem storeAcknowledge (g : Nat) : Statement (.storeAcknowledge g) := of_zero rfl rfl
theorem atomicReply (g : Nat) : Statement (.atomicReply g) := of_zero rfl rfl
theorem uCopyMerge (cluster line : Nat) : Statement (.uCopyMerge cluster line) := of_zero rfl rfl
theorem amsgPerform (g : Nat) : Statement (.amsgPerform g) := of_zero rfl rfl
theorem amsgReply (g : Nat) : Statement (.amsgReply g) := of_zero rfl rfl
theorem lineFill (ctx slot sector : Nat) : Statement (.lineFill ctx slot sector) := of_zero rfl rfl
theorem writeBackDrain (line : Nat) : Statement (.writeBackDrain line) := of_zero rfl rfl
theorem ptsTick : Statement .ptsTick := of_zero rfl rfl
theorem timestampRebase : Statement .timestampRebase := of_zero rfl rfl
theorem routerGrant (cluster port : Nat) : Statement (.routerGrant cluster port) := of_zero rfl rfl
theorem routerAgingGrant (cluster port : Nat) : Statement (.routerAgingGrant cluster port) := of_zero rfl rfl
theorem rstDelivery (packet : Nat) : Statement (.rstDelivery packet) := of_zero rfl rfl
theorem sendDelivery (packet : Nat) : Statement (.sendDelivery packet) := of_zero rfl rfl
theorem pAcknowledge (packet : Nat) : Statement (.pAcknowledge packet) := of_zero rfl rfl
theorem packetForward (packet : Nat) : Statement (.packetForward packet) := of_zero rfl rfl
theorem swapInstant (part : Nat) : Statement (.swapInstant part) := of_zero rfl rfl
theorem castle (part : Nat) : Statement (.castle part) := of_zero rfl rfl
theorem placementUpdate (core : Nat) : Statement (.placementUpdate core) := of_zero rfl rfl
theorem forwardingExpiry (core : Nat) : Statement (.forwardingExpiry core) := of_zero rfl rfl
theorem contextDrain (ctx : Nat) : Statement (.contextDrain ctx) := of_zero rfl rfl
theorem correctableError (loc : ErrLoc) : Statement (.correctableError loc) := of_zero rfl rfl
theorem uncorrectableError (loc : ErrLoc) : Statement (.uncorrectableError loc) := of_zero rfl rfl
theorem scrub (loc : ErrLoc) : Statement (.scrub loc) := of_zero rfl rfl
theorem doorbellWrite (part tail : Nat) : Statement (.doorbellWrite part tail) := of_zero rfl rfl
theorem jobDescriptor (part ctx slot base len : Nat) : Statement (.jobDescriptor part ctx slot base len) := of_zero rfl rfl
theorem jobCompletion (ring : CompRing) : Statement (.jobCompletion ring) := of_zero rfl rfl
theorem hostApertureAccess (part slot off : Nat) (write : Bool) (data : List Byte) : Statement (.hostApertureAccess part slot off write data) := of_zero rfl rfl
theorem bilathMemoryWrite (conn ctx va : Nat) (data : List Byte) : Statement (.bilathMemoryWrite conn ctx va data) := of_zero rfl rfl
theorem bilathClassMessage (conn ctx core cls : Nat) (ev : Option Nat) (data : V512) : Statement (.bilathClassMessage conn ctx core cls ev data) := of_zero rfl rfl
theorem macsecFrameDrop (port : Nat) : Statement (.macsecFrameDrop port) := of_zero rfl rfl
theorem spdmRequest (req : Spdm) (hashOk sigOk : Bool) : Statement (.spdmRequest req hashOk sigOk) := of_zero rfl rfl
theorem tdispLock (part : Nat) : Statement (.tdispLock part) := of_zero rfl rfl
theorem tdispUnlock (part : Nat) : Statement (.tdispUnlock part) := of_zero rfl rfl
theorem contextCreate (ctx part : Nat) (slots : List (Nat × Option Nat)) : Statement (.contextCreate ctx part slots) := of_zero rfl rfl
theorem semaphoreAssign (cluster n ctx : Nat) : Statement (.semaphoreAssign cluster n ctx) := of_zero rfl rfl
theorem castlingControlWordWrite (part : Nat) (w : W64) : Statement (.castlingControlWordWrite part w) := of_zero rfl rfl
theorem partitionRangeWrite (part k : Nat) (w : W64) : Statement (.partitionRangeWrite part k w) := of_zero rfl rfl
theorem telemetryRead (reg : Nat) : Statement (.telemetryRead reg) := of_zero rfl rfl
theorem boot (ok : Bool) (caps : List (Nat × Nat)) (meas : List (Nat × BitVec 256)) : Statement (.boot ok caps meas) := of_zero rfl rfl
theorem thermalTrip : Statement .thermalTrip := of_zero rfl rfl
theorem monitorSample (monitor : Nat) (value : W64) (act : MonAct) : Statement (.monitorSample monitor value act) := of_zero rfl rfl
theorem hbmRefresh (controller : Nat) : Statement (.hbmRefresh controller) := of_zero rfl rfl
theorem phyCalibration (link : Nat) : Statement (.phyCalibration link) := of_zero rfl rfl
theorem serviceMessageDelivery (k : Nat) : Statement (.serviceMessageDelivery k) := of_zero rfl rfl
theorem cxlCacheResponse (g : Nat) : Statement (.cxlCacheResponse g) := of_zero rfl rfl
theorem formatWindowWrite (controller window reg : Nat) (w : W64) : Statement (.formatWindowWrite controller window reg w) := of_zero rfl rfl
theorem partitionCreation (part c0 c1 r0 r1 sup supCore : Nat) (timerOff : W64) : Statement (.partitionCreation part c0 c1 r0 r1 sup supCore timerOff) := of_zero rfl rfl
theorem keySlotFill (ctx k : Nat) (aliasOf : Option Nat) : Statement (.keySlotFill ctx k aliasOf) := of_zero rfl rfl
theorem systemImageTimer (ctx bit : Nat) : Statement (.systemImageTimer ctx bit) := of_zero rfl rfl
theorem bilathRetransmission (conn : Nat) : Statement (.bilathRetransmission conn) := of_zero rfl rfl
theorem corePowerGating (core : Nat) (on : Bool) : Statement (.corePowerGating core on) := of_zero rfl rfl

end Encoding
end Laws
end Sys2Proof
end

