-- ==== Sys2Proof/Laws/Pool.lean ====
section
/-!
SUPPORT. Laws of the pool: reading a byte after a write, and the words of a saved frame.
-/
namespace Sys2Proof
namespace Machine

theorem byte_getLsbD (v : V512) (j k : Nat) (hk : k < 8) :
    (BitVec.ofNat 8 (elem 8 v j)).getLsbD k = v.getLsbD (8 * j + k) := by
  rw [BitVec.getLsbD_ofNat, elem, bitsOf, Nat.testBit_mod_two_pow, Nat.testBit_div_two_pow, BitVec.getLsbD, Nat.add_comm]
  simp [hk]
theorem mask255_getLsbD (j : Nat) : (255 : V512).getLsbD j = decide (j < 8) := by
  have e0 : (255 : V512).getLsbD j = (decide (j < 512) && (255 : Nat).testBit j) := BitVec.getLsbD_ofNat ..
  rw [e0]
  by_cases h : j < 8
  · have : j = 0 ∨ j = 1 ∨ j = 2 ∨ j = 3 ∨ j = 4 ∨ j = 5 ∨ j = 6 ∨ j = 7 := by omega
    rcases this with rfl | rfl | rfl | rfl | rfl | rfl | rfl | rfl <;> decide
  · have e : (255 : Nat).testBit j = false :=
      Nat.testBit_lt_two_pow (Nat.lt_of_lt_of_le (by decide : 255 < 2 ^ 8) (Nat.pow_le_pow_right (by decide) (by omega)))
    rw [e]
    simp [h]
/-- One byte of a block after another was put there. -/
theorem byte_put (v : V512) (b : Byte) {i j : Nat} (hi : i < 64) (hj : j < 64) :
    BitVec.ofNat 8 (elem 8 ((v &&& ~~~((255 : V512) <<< (8 * i))) ||| (BitVec.zeroExtend 512 b <<< (8 * i))) j) =
      if j = i then b else BitVec.ofNat 8 (elem 8 v j) := by
  apply BitVec.eq_of_getLsbD_eq
  intro k hk
  rw [byte_getLsbD _ _ _ hk]
  simp only [BitVec.getLsbD_or, BitVec.getLsbD_and, BitVec.getLsbD_not, BitVec.getLsbD_shiftLeft, mask255_getLsbD]
  have h512 : 8 * j + k < 512 := by omega
  by_cases h : j = i
  · subst h
    have h1 : ¬ 8 * j + k < 8 * j := by omega
    have h2 : k < 512 := by omega
    simp [h512, hk, h1, h2]
  · rw [if_neg h, byte_getLsbD _ _ _ hk]
    by_cases hlt : 8 * j + k < 8 * i
    · simp [h512, hlt]
    · have : ¬ (8 * j + k - 8 * i < 8) := by omega
      have h2 : b.getLsbD (8 * j + k - 8 * i) = false := BitVec.getLsbD_of_ge _ _ (by omega)
      simp [h512, this, h2, BitVec.getLsbD_setWidth]
/-- A byte of the pool after a write of one byte. -/
theorem poolByte_poolPut (p : AMap V512) (o a : Nat) (b : Byte) : poolByte (poolPut p o b) a = if a = o then b else poolByte p a := by
  unfold poolPut poolByte
  by_cases h : a / 64 = o / 64
  · rw [h, poolBlock_amSet_same]
    rw [byte_put _ _ (Nat.mod_lt _ (by decide)) (Nat.mod_lt _ (by decide))]
    by_cases h2 : a = o
    · subst h2; simp
    · rw [if_neg h2, if_neg (by omega)]
  · rw [poolBlock_amSet_other _ _ h, if_neg (by intro e; exact h (by rw [e]))]
theorem poolByte_poolPutAll_other {l : List (Nat × Byte)} (p : AMap V512) {a : Nat} (h : ∀ e ∈ l, e.1 ≠ a) :
    poolByte (poolPutAll p l) a = poolByte p a := by
  unfold poolPutAll
  induction l generalizing p with
  | nil => rfl
  | cons e l ih =>
    rw [List.foldl_cons, ih _ fun x hx => h x (List.mem_cons_of_mem _ hx), poolByte_poolPut,
      if_neg fun c => h e List.mem_cons_self c.symm]
theorem atAddr_cons (o : Nat) (b : Byte) (l : List Byte) : atAddr o (b :: l) = (o, b) :: atAddr (o + 1) l := by
  unfold atAddr
  rw [List.length_cons, List.range_succ_eq_map, List.zipWith_cons_cons, List.zipWith_map_left]
  have h : (fun (i : Nat) (c : Byte) => (o + i.succ, c)) = fun i c => (o + 1 + i, c) := by
    funext i c
    rw [Nat.succ_eq_add_one, Nat.add_right_comm, Nat.add_assoc]
  rw [h]
  rfl
theorem atAddr_ge {l : List Byte} {o : Nat} {e : Nat × Byte} (h : e ∈ atAddr o l) : o ≤ e.1 ∧ e.1 < o + l.length := by
  induction l generalizing o with
  | nil => simp [atAddr] at h
  | cons b l ih =>
    rw [atAddr_cons] at h
    rcases List.mem_cons.mp h with rfl | h
    · simp
    · have := ih h
      simp only [List.length_cons]
      omega
/-- The bytes of a run of addresses as written there. -/
theorem poolByte_atAddr (l : List Byte) (p : AMap V512) (o i : Nat) (h : i < l.length) :
    poolByte (poolPutAll p (atAddr o l)) (o + i) = l[i] := by
  induction l generalizing p o i with
  | nil => exact absurd h (Nat.not_lt_zero _)
  | cons b l ih =>
    rw [atAddr_cons]
    cases i with
    | zero =>
      show poolByte (poolPutAll (poolPut p o b) (atAddr (o + 1) l)) (o + 0) = b
      rw [poolByte_poolPutAll_other _ fun e he => by have := (atAddr_ge he).1; omega, poolByte_poolPut, if_pos (Nat.add_zero o)]
    | succ i =>
      show poolByte (poolPutAll (poolPut p o b) (atAddr (o + 1) l)) (o + (i + 1)) = l[i]'_
      rw [show o + (i + 1) = o + 1 + i by omega]
      exact ih _ _ _ _
theorem joinDigits_lt (w : Nat) (l : List Nat) : joinDigits w l < 2 ^ (w * l.length) := by
  induction l with
  | nil => simp [joinDigits]
  | cons x l ih =>
    show x % 2 ^ w + 2 ^ w * joinDigits w l < _
    rw [List.length_cons, Nat.mul_add, Nat.mul_one, Nat.add_comm (w * l.length), Nat.pow_add]
    have h1 : x % 2 ^ w < 2 ^ w := Nat.mod_lt _ (Nat.two_pow_pos w)
    calc x % 2 ^ w + 2 ^ w * joinDigits w l < 2 ^ w + 2 ^ w * joinDigits w l := by omega
      _ = 2 ^ w * (joinDigits w l + 1) := by rw [Nat.mul_add]; omega
      _ ≤ _ := Nat.mul_le_mul_left _ ih
/-- The number of the bytes of a number. -/
theorem ofBytes_toBytes (n x : Nat) : ofBytes (toBytes n x) = x % 2 ^ (8 * n) := by
  unfold ofBytes toBytes
  induction n generalizing x with
  | zero => simp [joinDigits, Nat.mod_one]
  | succ n ih =>
    rw [List.range_succ_eq_map, List.map_cons, List.map_cons, List.map_map, List.map_map]
    have hx : (List.range n).map (((fun b : Byte => b.toNat) ∘ fun i => BitVec.ofNat 8 (bitsOf x (8 * i) 8)) ∘ Nat.succ) =
        ((List.range n).map fun i => (BitVec.ofNat 8 (bitsOf (x / 256) (8 * i) 8) : Byte)).map (·.toNat) := by
      rw [List.map_map]
      refine List.map_congr_left fun i _ => ?_
      simp only [Function.comp, bitsOf]
      rw [Nat.div_div_eq_div_mul, show (256 : Nat) = 2 ^ 8 from rfl, ← Nat.pow_add, Nat.succ_eq_add_one,
        show 8 * (i + 1) = 8 + 8 * i by omega]
    rw [hx]
    show (BitVec.ofNat 8 (bitsOf x (8 * 0) 8)).toNat % 2 ^ 8 + 2 ^ 8 * joinDigits 8 _ = _
    rw [ih]
    simp only [bitsOf, BitVec.toNat_ofNat, Nat.mul_zero, Nat.pow_zero, Nat.div_one, Nat.mod_mod]
    rw [show 8 * (n + 1) = 8 + 8 * n by omega, Nat.pow_add, Nat.mod_mul]

theorem toBytes_length (n x : Nat) : (toBytes n x).length = n := by simp [toBytes]
theorem flatMap_length8 (l : List W64) : (l.flatMap fun w => toBytes 8 w.toNat).length = 8 * l.length := by
  induction l with
  | nil => rfl
  | cons w l ih => rw [List.flatMap_cons, List.length_append, ih, toBytes_length, List.length_cons]; omega
theorem poolPutAll_append (p : AMap V512) (l m : List (Nat × Byte)) : poolPutAll p (l ++ m) = poolPutAll (poolPutAll p l) m := by
  simp [poolPutAll, List.foldl_append]
theorem atAddr_append (o : Nat) (l m : List Byte) : atAddr o (l ++ m) = atAddr o l ++ atAddr (o + l.length) m := by
  induction l generalizing o with
  | nil => simp [atAddr]
  | cons b l ih =>
    rw [List.cons_append, atAddr_cons, ih, atAddr_cons, List.cons_append, List.length_cons, show o + 1 + l.length = o + (l.length + 1) by omega]
/-- The bytes of a range after a write of exactly that range. -/
theorem poolBytes_same (p : AMap V512) (o n x : Nat) : poolBytesAt (poolPutAll p (atAddr o (toBytes n x))) o n = toBytes n x := by
  apply List.ext_getElem
  · simp [poolBytesAt, toBytes]
  · intro i h1 h2
    have hi : i < n := by simpa [poolBytesAt] using h1
    have h3 : i < (toBytes n x).length := by rw [toBytes_length]; exact hi
    simp only [poolBytesAt, List.getElem_map, List.getElem_range]
    exact poolByte_atAddr _ _ _ _ h3
theorem poolBytes_other {p : AMap V512} {l : List (Nat × Byte)} {o n : Nat} (h : ∀ e ∈ l, e.1 < o ∨ o + n ≤ e.1) :
    poolBytesAt (poolPutAll p l) o n = poolBytesAt p o n := by
  unfold poolBytesAt
  refine List.map_congr_left fun i hi => poolByte_poolPutAll_other _ fun e he => ?_
  have hi := List.mem_range.mp hi
  have := h e he
  omega
/-- The words of a saved frame, read back. -/
theorem frame_word (l : List W64) (p : AMap V512) (o i : Nat) (h : i < l.length) :
    ofBytes (poolBytesAt (poolPutAll p (atAddr o (l.flatMap fun w => toBytes 8 w.toNat))) (o + 8 * i) 8) = l[i].toNat := by
  induction l generalizing p o i with
  | nil => exact absurd h (Nat.not_lt_zero _)
  | cons w l ih =>
    rw [List.flatMap_cons, atAddr_append, poolPutAll_append, toBytes_length]
    cases i with
    | zero =>
      rw [poolBytes_other (fun e he => by have := (atAddr_ge he).1; omega), Nat.mul_zero, Nat.add_zero, poolBytes_same, ofBytes_toBytes]
      exact Nat.mod_eq_of_lt w.isLt
    | succ i =>
      rw [show o + 8 * (i + 1) = o + 8 + 8 * i by omega]
      exact ih _ _ _ _

end Machine
end Sys2Proof
end

