-- ==== Sys2Proof/Laws/Vector.lean ====
section
/-!
SUPPORT. Laws of vector registers: the elements of a register made of elements, and of a merge under a predicate.
-/
namespace Sys2Proof
namespace Machine

theorem joinDigits_digit (w : Nat) (l : List Nat) (n : Nat) (h : n < l.length) :
    joinDigits w l / 2 ^ (w * n) % 2 ^ w = l[n] % 2 ^ w := by
  induction l generalizing n with
  | nil => exact absurd h (Nat.not_lt_zero _)
  | cons x l ih =>
    have e : joinDigits w (x :: l) = x % 2 ^ w + 2 ^ w * joinDigits w l := rfl
    rw [e]
    cases n with
    | zero => simp
    | succ n =>
      rw [Nat.mul_add, Nat.mul_one, Nat.add_comm (w * n), Nat.pow_add, ← Nat.div_div_eq_div_mul,
        Nat.add_mul_div_left _ _ (Nat.two_pow_pos w), Nat.div_eq_of_lt (Nat.mod_lt _ (Nat.two_pow_pos w)), Nat.zero_add]
      exact ih _ _
/-- Element `n` of a register made of elements. -/
theorem elem_ofElems (w : Nat) (l : List Nat) (n : Nat) (h : n < l.length) (hw : w * n + w ≤ 512) :
    elem w (ofElems w l) n = l[n] % 2 ^ w := by
  rw [elem, bitsOf, ofElems, BitVec.toNat_ofNat, ← joinDigits_digit w l n h]
  obtain ⟨k, hk⟩ : ∃ k, 512 = w * n + w + k := ⟨512 - (w * n + w), by omega⟩
  rw [hk, Nat.add_assoc, Nat.pow_add, Nat.mod_mul_right_div_self, Nat.pow_add, Nat.mod_mul_right_mod]
theorem elem_lt (w : Nat) (v : V512) (n : Nat) : elem w v n < 2 ^ w := Nat.mod_lt _ (Nat.two_pow_pos w)
theorem elem_fits {w n : Nat} (h : n < 512 / w) : w * n + w ≤ 512 := by
  have : w * (n + 1) ≤ w * (512 / w) := Nat.mul_le_mul_left _ h
  have h2 := Nat.mul_div_le 512 w
  rw [Nat.mul_add, Nat.mul_one] at this
  omega
/-- An element of a merge: the new one where the predicate is active, the old one elsewhere (R136). -/
theorem elem_merge (w : Nat) (pv : W16) (new : Nat → Nat) (old : V512) (n : Nat) (h : n < 512 / w) :
    elem w (mergeElems w pv new old) n = if elemOn pv w n then new n % 2 ^ w else elem w old n := by
  rw [mergeElems, elem_ofElems _ _ _ (by simpa using h) (elem_fits h), List.getElem_map, List.getElem_range]
  split
  · rfl
  · exact Nat.mod_eq_of_lt (elem_lt _ _ _)
/-- An element of an element-wise result. -/
theorem elem_mapElems (w : Nat) (pv : W16) (f : Nat → Nat × Nat) (old : V512) (n : Nat) (h : n < 512 / w) :
    elem w (mapElems w pv f old).1 n = if elemOn pv w n then (f n).1 % 2 ^ w else elem w old n := by
  rw [mapElems, elem_ofElems _ _ _ (by simpa using h) (elem_fits h)]
  simp only [List.getElem_map, List.getElem_range]
  split
  · rfl
  · exact Nat.mod_eq_of_lt (elem_lt _ _ _)
/-- The conditions of an element-wise result are those of its active elements (R82). -/
theorem flags_mapElems (w : Nat) (pv : W16) (f : Nat → Nat × Nat) (old : V512) :
    (mapElems w pv f old).2 = orAll ((List.range (512 / w)).map fun n => if elemOn pv w n then (f n).2 else 0) := by
  rw [mapElems]
  simp only [List.map_map]
  congr 1
  refine List.map_congr_left fun n _ => ?_
  simp only [Function.comp]
  split <;> rfl

end Machine
end Sys2Proof
end

