-- ==== Sys2Proof/Tests/Slice0.lean ====
section
/-!
SUPPORT. Tests of the model. The expected results come from the specification's tables and worked examples, or from a calculation by
hand from its rules. A theorem named witness_<statement> shows states and operands that meet the hypotheses of a statement.
-/
set_option Elab.async false
open Sys2Proof hiding getS getP getX
open Sys2Proof.Machine

/-! ### Decoding: words written out from the tables of R49 to R60 and the entries of the forms -/

/-- Every word decodes to the instruction beside it. -/
def reads (l : List (Nat × Instr)) : Bool := l.all fun e => decodeTableWord 96 e.1 == some e.2

theorem test_decode_scalar0 : reads [
    (0x401007904030101, .add ⟨⟨1, false⟩, .i32, true, .s 3, .s 4, .sc 9⟩),
    (0x406000504030102, .sub ⟨⟨1, false⟩, .n16, true, .s 3, .s 4, .s 5⟩),
    (0x400000504030104, .mul ⟨⟨1, false⟩, .i64, true, .s 3, .s 4, .s 5⟩),
    (0x2007904030105, .mulh ⟨⟨1, false⟩, .i16, false, .s 3, .s 4, .sc 9⟩),
    (0x6000504030106, .mulhn ⟨⟨1, false⟩, .n16, false, .s 3, .s 4, .s 5⟩),
    (0x504030107, .div ⟨⟨1, false⟩, .i64, false, .s 3, .s 4, .s 5⟩),
    (0x4007904030108, .divn ⟨⟨1, false⟩, .n64, false, .s 3, .s 4, .sc 9⟩),
    (0x1000504030109, .rem ⟨⟨1, false⟩, .i32, false, .s 3, .s 4, .s 5⟩),
    (0x500050403010A, .remn ⟨⟨1, false⟩, .n32, false, .s 3, .s 4, .s 5⟩),
    (0x600790403010B, .and ⟨⟨1, false⟩, .n16, false, .s 3, .s 4, .sc 9⟩),
    (0x50403010C, .or ⟨⟨1, false⟩, .i64, false, .s 3, .s 4, .s 5⟩),
    (0x700050403010D, .xor ⟨⟨1, false⟩, .n8, false, .s 3, .s 4, .s 5⟩)] = true := by decide +kernel
theorem test_decode_scalar1 : reads [
    (0x100790403010E, .andn ⟨⟨1, false⟩, .i32, false, .s 3, .s 4, .sc 9⟩),
    (0x600050403010F, .orn ⟨⟨1, false⟩, .n16, false, .s 3, .s 4, .s 5⟩),
    (0x400000504030110, .shl ⟨⟨1, false⟩, .i64, true, .s 3, .s 4, .s 5⟩),
    (0x7007904030111, .shr ⟨⟨1, false⟩, .n8, false, .s 3, .s 4, .sc 9⟩),
    (0x1000504030112, .sar ⟨⟨1, false⟩, .i32, false, .s 3, .s 4, .s 5⟩),
    (0x6000504030113, .rol ⟨⟨1, false⟩, .n16, false, .s 3, .s 4, .s 5⟩),
    (0x7904030114, .ror ⟨⟨1, false⟩, .i64, false, .s 3, .s 4, .sc 9⟩),
    (0x3000504030118, .min ⟨⟨1, false⟩, .i8, false, .s 3, .s 4, .s 5⟩),
    (0x504030119, .max ⟨⟨1, false⟩, .i64, false, .s 3, .s 4, .s 5⟩),
    (0x700790403011A, .minn ⟨⟨1, false⟩, .n8, false, .s 3, .s 4, .sc 9⟩),
    (0x400050403011B, .maxn ⟨⟨1, false⟩, .n64, false, .s 3, .s 4, .s 5⟩),
    (0xFFFFFFFE0007000004032003, .addi ⟨⟨0, false⟩, .n8, false, .s 3, .s 4, 0xFFFFFFFE⟩)] = true := by decide +kernel
theorem test_decode_scalar2 : reads [
    (0x2000006780015, .clz ⟨⟨0, false⟩, .i16, .sc 8, .s 6⟩),
    (0x5000006780016, .ctz ⟨⟨0, false⟩, .n32, .sc 8, .s 6⟩),
    (0x6780017, .popc ⟨⟨0, false⟩, .i64, .sc 8, .s 6⟩),
    (0x300000678001C, .sext ⟨⟨0, false⟩, .i8, .sc 8, .s 6⟩),
    (0x600000678001D, .zext ⟨⟨0, false⟩, .n16, .sc 8, .s 6⟩),
    (0x404030201101E, .bfx ⟨⟨0, false⟩, .n64, .s 1, .s 2, .s 3, .s 4⟩),
    (0x404030201101F, .bfi ⟨⟨0, false⟩, .n64, .s 1, .s 2, .s 3, .s 4⟩),
    (0x650302011020, .sel ⟨⟨0, false⟩, .s 1, .s 2, .s 3, 5⟩),
    (0x800000000001000000093021, .li ⟨⟨0, false⟩, 9, 0x800000000001⟩),
    (0x12340000000000072022, .addip ⟨⟨0, false⟩, .s 7, 0x1234⟩),
    (0xFFFFFFF00000000008074023, .lea ⟨⟨0, false⟩, 7, 8, 0xFFFFFFF0⟩),
    (0x70070024, .mov ⟨⟨0, false⟩, .s 7, .sc 0⟩)] = true := by decide +kernel
theorem test_decode_scalar3 : reads [
    (0x1805000301620025, .cmpI ⟨⟨0, false⟩, .n32, .le, 2, .s 1, .s 3⟩),
    (0x3809000302610026, .cmpF ⟨⟨0, false⟩, .f32, .uno, 1, .s 2, .s 3⟩),
    (0x6362610B27, .pand ⟨⟨3, true⟩, 1, 2, 3⟩),
    (0x6362610B28, .por ⟨⟨3, true⟩, 1, 2, 3⟩),
    (0x6362610B29, .pxor ⟨⟨3, true⟩, 1, 2, 3⟩),
    (0x6261002A, .pnot ⟨⟨0, false⟩, 1, 2⟩),
    (0x261002B, .pmov ⟨⟨0, false⟩, .p 1, .s (.s 2)⟩),
    (0x6102002B, .pmov ⟨⟨0, false⟩, .s (.s 2), .p 1⟩),
    (0x6104002C, .pcnt ⟨⟨0, false⟩, .s 4, 1⟩),
    (0xFFFFFFF900000000006B202D, .xset ⟨⟨0, false⟩, 3, 0xFFFFFFF9⟩),
    (0x8FFFF000000006A69202E, .xadd ⟨⟨0, false⟩, 1, 2, 0xFFFF, 8⟩),
    (0x6A69002F, .xmov ⟨⟨0, false⟩, 1, .x 2⟩)] = true := by decide +kernel
theorem test_decode_scalar4 : reads [
    (0x269002F, .xmov ⟨⟨0, false⟩, 1, .s (.s 2)⟩),
    (0x6F020030, .xget ⟨⟨0, false⟩, .s 2, 7⟩)] = true := by decide +kernel
theorem test_decode_control0 : reads [
    (0x2C0000000000625031, .br ⟨⟨0, false⟩, 2, 0x2C⟩),
    (0xFFFFFFFA0000000000005032, .jmp ⟨⟨0, false⟩, 0xFFFFFFFA⟩),
    (0x800000000001F5033, .call ⟨⟨0, false⟩, 31, 8⟩),
    (0x1F005034, .ret ⟨⟨0, false⟩, 31⟩),
    (0xFFFFFFFA0000000000045035, .loop ⟨⟨0, false⟩, 4, 0xFFFFFFFA⟩),
    (0x6055036, .brx ⟨⟨0, false⟩, 5, 6⟩),
    (0x7137, .end_ ⟨⟨1, false⟩⟩),
    (0x7138, .yield_ ⟨⟨1, false⟩⟩),
    (0x7147, .tret ⟨⟨1, false⟩⟩),
    (0x714E, .ifence ⟨⟨1, false⟩⟩),
    (0x714F, .halt ⟨⟨1, false⟩⟩),
    (0xABCDEF0000000000007046, .trap ⟨⟨0, false⟩, 0xABCDEF⟩)] = true := by decide +kernel
theorem test_decode_control1 : reads [
    (0x7000000000000704B, .sysc ⟨⟨0, false⟩, 7⟩),
    (0x8000000000000704C, .brk ⟨⟨0, false⟩, 8⟩),
    (0x9007048, .upret ⟨⟨0, false⟩, 9⟩),
    (0x90000000000037049, .mfs ⟨⟨0, false⟩, 3, 9⟩),
    (0x12000000000300704A, .mts ⟨⟨0, false⟩, 3, 0x12⟩),
    (0x3704D, .rdtime ⟨⟨0, false⟩, 3⟩)] = true := by decide +kernel
theorem test_decode_memory0 : reads [
    (0xFFFFFFF80003000002014039, .ld ⟨⟨0, false⟩, .i8, 1, 2, 0xFFFFFFF8⟩),
    (0xFFFFFFF8000500000201403A, .st ⟨⟨0, false⟩, .n32, 1, 2, 0xFFFFFFF8⟩),
    (0xFFFFFFF80004000002014040, .ldk ⟨⟨0, false⟩, .n64, 1, 2, 0xFFFFFFF8⟩),
    (0x40000000000254403B, .vld ⟨⟨0, false⟩, .q 4, 2, 64⟩),
    (0x400000000002EF403D, .vst ⟨⟨0, false⟩, .x 6 15, 2, 64⟩),
    (0x40C01A00000221403C, .vldConverting ⟨⟨0, false⟩, .f16, .e4m3, .nan, .v 1, 2, 64⟩),
    (0x40000000030221403E, .vldm ⟨⟨0, false⟩, .v 1, 2, 3, 64⟩),
    (0x40000000030221403F, .vstm ⟨⟨0, false⟩, .v 1, 2, 3, 64⟩),
    (0xFFFFFFFF0000000002004041, .pref ⟨⟨0, false⟩, 2, 0xFFFFFFFF⟩),
    (0x40009002302214042, .vgath32 ⟨⟨0, false⟩, .f32, .v 1, 2, .v 3, 4⟩),
    (0x40004002302214043, .vgath64 ⟨⟨0, false⟩, .n64, .v 1, 2, .v 3, 4⟩),
    (0x40001002302214044, .vscat32 ⟨⟨0, false⟩, .i32, .v 1, 2, .v 3, 4⟩)] = true := by decide +kernel
theorem test_decode_memory1 : reads [
    (0x40008002302214045, .vscat64 ⟨⟨0, false⟩, .f64, .v 1, 2, .v 3, 4⟩),
    (0x48C010000020140BE, .ldPath ⟨⟨0, false⟩, .i32, .H, .sys, 1, 2, 4⟩),
    (0x48C070000020140BF, .stPath ⟨⟨0, false⟩, .n8, .H, .sys, 1, 2, 4⟩),
    (0x4018000000022140C0, .vldPath ⟨⟨0, false⟩, .K, .dev, .v 1, 2, 64⟩),
    (0x408C000000022140C1, .vstPath ⟨⟨0, false⟩, .H, .sys, .v 1, 2, 64⟩),
    (0x80007FFF0F040003020140B5, .amoI ⟨⟨0, false⟩, .n64, .swap, .sys, 1, 0x100, 1, 2, 3, 0x3FFF⟩),
    (0xC090003020140B6, .amoF ⟨⟨0, false⟩, .f32, .add, .sys, 0, 0, 1, 2, 3, 0⟩),
    (0x200800808050403020140B7, .cas ⟨⟨0, false⟩, .n32, .dev, 2, 4, 1, 2, 3, 4, 8⟩),
    (0x20000000C000806050240B8, .cas2 ⟨⟨0, false⟩, .sys, 0, 4, 2, 5, 6, 8, 0⟩),
    (0xC090006050040BA, .redF ⟨⟨0, false⟩, .f32, .add, .sys, 0, 0, 5, 6, 0⟩),
    (0x2850003020040B9, .redI ⟨⟨0, false⟩, .n32, .xor, .clu, 0, 0, 2, 3, 0⟩),
    (0x400C000423022140BB, .amsg ⟨⟨0, false⟩, .sys, .v 1, 2, .v 3, 4, 64⟩)] = true := by decide +kernel
theorem test_decode_memory2 : reads [
    (0x20400800000000070BD, .fence ⟨⟨0, false⟩, .dev, 4, 1⟩)] = true := by decide +kernel
theorem test_decode_engines0 : reads [
    (0x60000024090860BC, .gath ⟨⟨0, false⟩, 3, 8, 9, .v 4⟩),
    (0x600000000040060C2, .cset ⟨⟨0, false⟩, 6, 4⟩),
    (0x50460C3, .cpygo ⟨⟨0, false⟩, 4, 5⟩),
    (0x50460C4, .cpycan ⟨⟨0, false⟩, 4, 5⟩),
    (0x5040060C8, .mcset ⟨⟨0, false⟩, 4, 5⟩),
    (0x3F00000000040070C5, .semw ⟨⟨0, false⟩, 4, 63⟩),
    (0x500000000040370C6, .seminc ⟨⟨0, false⟩, 3, 4, 5⟩),
    (0x600000000040070C7, .semset ⟨⟨0, false⟩, 4, 6⟩),
    (0xFFFFC01900000300022140C9, .rst ⟨⟨0, false⟩, .v 1, 2, true, 3, 9, 0xFFFFC0⟩),
    (0x400000009250060CA, .send ⟨⟨0, false⟩, .v 5, 9, 4⟩)] = true := by decide +kernel
theorem test_decode_scheduling0 : reads [
    (0x200000000000070CC, .cunmask ⟨⟨0, false⟩, 2⟩),
    (0xF00000000000070CB, .cmask ⟨⟨0, false⟩, 15⟩),
    (0x1500000000005370CD, .qbind ⟨⟨0, false⟩, 3, 5, true⟩),
    (0x5C0370CE, .qlen ⟨⟨0, false⟩, 3, 12⟩),
    (0x510370CF, .qdrop ⟨⟨0, false⟩, 3, 1⟩),
    (0x210060D0, .spawn ⟨⟨0, false⟩, .v 1⟩),
    (0xA16360D1, .spawnt ⟨⟨0, false⟩, 3, .x 2 1⟩),
    (0x3020170D2, .join ⟨⟨0, false⟩, 1, 2, 3⟩),
    (0xC800000000020070D3, .ejoin ⟨⟨0, false⟩, 2, 200⟩),
    (0x10500000000000070D4, .ewait ⟨⟨0, false⟩, 5, true⟩),
    (0x500000000000070D5, .eset ⟨⟨0, false⟩, 5, false⟩),
    (0x60560D6, .launch ⟨⟨0, false⟩, 5, 6⟩)] = true := by decide +kernel
theorem test_decode_scheduling1 : reads [
    (0x200000040370D7, .cancel ⟨⟨0, false⟩, true, 3, 4⟩),
    (0x300000000020170D8, .ctrd ⟨⟨0, false⟩, 1, 2, 3⟩),
    (0x170D9, .resid ⟨⟨0, false⟩, 1⟩),
    (0x70DA, .defer_ ⟨⟨0, false⟩⟩),
    (0x100000000000370DB, .castpin ⟨⟨0, false⟩, 3, 1⟩),
    (0x100000000020170DC, .tlbinv ⟨⟨0, false⟩, 1, 2, 0, true⟩),
    (0x605040370DD, .ctxsv ⟨⟨0, false⟩, 3, 4, 5, 6⟩),
    (0x3020170DE, .ctxrs ⟨⟨0, false⟩, 1, 2, 3⟩),
    (0x80400000000040070E0, .mtsp ⟨⟨0, false⟩, 4, 0x804⟩),
    (0x403020160DF, .rgload ⟨⟨0, false⟩, 1, 2, 3, 4⟩)] = true := by decide +kernel
theorem test_decode_vector0 : reads [
    (0x208002322210051, .vaddF ⟨⟨0, false⟩, .f64, .rdn, false, .v 1, .v 2, .v 3⟩),
    (0x209002322210053, .vsubF ⟨⟨0, false⟩, .f32, .rdn, false, .v 1, .v 2, .v 3⟩),
    (0x20A002322210055, .vmulF ⟨⟨0, false⟩, .f16, .rdn, false, .v 1, .v 2, .v 3⟩),
    (0x20B002322210059, .vdiv ⟨⟨0, false⟩, .bf16, .rdn, false, .v 1, .v 2, .v 3⟩),
    (0x402005925A10C50, .vaddI ⟨⟨4, true⟩, .i16, .rne, true, .x 2 1, .v 5, .q 9⟩),
    (0x7002322210052, .vsubI ⟨⟨0, false⟩, .n8, .rne, false, .v 1, .v 2, .v 3⟩),
    (0x2322210054, .vmulI ⟨⟨0, false⟩, .i64, .rne, false, .v 1, .v 2, .v 3⟩),
    (0x600232221005F, .vminI ⟨⟨0, false⟩, .n16, .rne, false, .v 1, .v 2, .v 3⟩),
    (0x1002322210061, .vmaxI ⟨⟨0, false⟩, .i32, .rne, false, .v 1, .v 2, .v 3⟩),
    (0x9002322210060, .vminF ⟨⟨0, false⟩, .f32, .rne, false, .v 1, .v 2, .v 3⟩),
    (0x8002322210062, .vmaxF ⟨⟨0, false⟩, .f64, .rne, false, .v 1, .v 2, .v 3⟩),
    (0x509242322211056, .vfma ⟨⟨0, false⟩, .f32, .rtz, true, .v 1, .v 2, .v 3, .v 4⟩)] = true := by decide +kernel
theorem test_decode_vector1 : reads [
    (0x509242322211057, .vfms ⟨⟨0, false⟩, .f32, .rtz, true, .v 1, .v 2, .v 3, .v 4⟩),
    (0x509242322211058, .vfnma ⟨⟨0, false⟩, .f32, .rtz, true, .v 1, .v 2, .v 3, .v 4⟩),
    (0x30900002221005A, .vsqrt ⟨⟨0, false⟩, .f32, .rup, false, .v 1, .v 2⟩),
    (0x30900002221005B, .vrcp ⟨⟨0, false⟩, .f32, .rup, false, .v 1, .v 2⟩),
    (0x30900002221005C, .vrsqrt ⟨⟨0, false⟩, .f32, .rup, false, .v 1, .v 2⟩),
    (0x30900002221005D, .vexp2 ⟨⟨0, false⟩, .f32, .rup, false, .v 1, .v 2⟩),
    (0x30900002221005E, .vlog2 ⟨⟨0, false⟩, .f32, .rup, false, .v 1, .v 2⟩),
    (0x3000022210063, .vabsI ⟨⟨0, false⟩, .i8, .rne, false, .v 1, .v 2⟩),
    (0xA000022210064, .vabsF ⟨⟨0, false⟩, .f16, .rne, false, .v 1, .v 2⟩),
    (0x6000022210065, .vnegI ⟨⟨0, false⟩, .n16, .rne, false, .v 1, .v 2⟩),
    (0x8000022210066, .vnegF ⟨⟨0, false⟩, .f64, .rne, false, .v 1, .v 2⟩),
    (0x2804002322610067, .vcmpI ⟨⟨0, false⟩, .n64, .ge, 1, .v 2, .v 3⟩)] = true := by decide +kernel
theorem test_decode_vector2 : reads [
    (0x2009002221610068, .vcmpF ⟨⟨0, false⟩, .f32, .gt, 1, .v 1, .v 2⟩),
    (0xE642322211069, .vsel ⟨⟨0, false⟩, .e2m1, .v 1, .v 2, .v 3, 4⟩),
    (0x55300062125006A, .vcvtII ⟨⟨0, false⟩, .i8, .n32, .rtz, true, .fin, .v 5, .v 1, .s 6⟩),
    (0x51A00062125006B, .vcvtIF ⟨⟨0, false⟩, .f16, .i32, .rtz, true, .fin, .v 5, .v 1, .s 6⟩),
    (0x59700062125006C, .vcvtFI ⟨⟨0, false⟩, .n8, .f32, .rtz, true, .fin, .v 5, .v 1, .s 6⟩),
    (0x459C00062125006D, .vcvtFF ⟨⟨0, false⟩, .e4m3, .f32, .rtz, true, .nan, .v 5, .v 1, .s 6⟩),
    (0x10B00002221006E, .vround ⟨⟨0, false⟩, .bf16, .rtz, .v 1, .v 2⟩),
    (0x900232221006F, .vand ⟨⟨0, false⟩, .f32, .v 1, .v 2, .v 3⟩),
    (0x9002322210070, .vor ⟨⟨0, false⟩, .f32, .v 1, .v 2, .v 3⟩),
    (0x9002322210071, .vxor ⟨⟨0, false⟩, .f32, .v 1, .v 2, .v 3⟩),
    (0x6002322210072, .vshl ⟨⟨0, false⟩, .n16, .v 1, .v 2, .v 3⟩),
    (0x6002322210073, .vshr ⟨⟨0, false⟩, .n16, .v 1, .v 2, .v 3⟩)] = true := by decide +kernel
theorem test_decode_vector3 : reads [
    (0x6002322210074, .vsar ⟨⟨0, false⟩, .n16, .v 1, .v 2, .v 3⟩),
    (0x5002322210075, .vperm32 ⟨⟨0, false⟩, .n32, .v 1, .v 2, .v 3⟩),
    (0x8002322210076, .vperm64 ⟨⟨0, false⟩, .f64, .v 1, .v 2, .v 3⟩),
    (0x9000002210077, .vbcast32 ⟨⟨0, false⟩, .f32, .v 1, .s 2⟩),
    (0x2210078, .vbcast64 ⟨⟨0, false⟩, .i64, .v 1, .s 2⟩),
    (0x700000221008B, .vlane ⟨⟨0, false⟩, .n8, .v 1, .s 2⟩),
    (0xB000322010079, .vext ⟨⟨0, false⟩, .bf16, .s 1, .v 2, .s 3⟩),
    (0x300030221007A, .vins ⟨⟨0, false⟩, .i8, .v 1, .s 2, .s 3⟩),
    (0x300002103007B, .vredaddI ⟨⟨0, false⟩, .i8, .rne, .s 3, .v 1⟩),
    (0x400002103007D, .vredminI ⟨⟨0, false⟩, .n64, .rne, .s 3, .v 1⟩),
    (0x200002103007F, .vredmaxI ⟨⟨0, false⟩, .i16, .rne, .s 3, .v 1⟩),
    (0x900002103017C, .vredaddF ⟨⟨1, false⟩, .f32, .rne, .s 3, .v 1⟩)] = true := by decide +kernel
theorem test_decode_vector4 : reads [
    (0x800002103007E, .vredminF ⟨⟨0, false⟩, .f64, .rne, .s 3, .v 1⟩),
    (0xA000021030080, .vredmaxF ⟨⟨0, false⟩, .f16, .rne, .s 3, .v 1⟩),
    (0x2807000022210081, .vscanI ⟨⟨0, false⟩, .n8, .xor, .rne, .v 1, .v 2⟩),
    (0x9000021230182, .vscanF ⟨⟨1, false⟩, .f32, .add, .rne, .v 3, .v 1⟩),
    (0x403242322211083, .vdot8 ⟨⟨0, false⟩, .i8, .rne, true, .v 1, .v 2, .v 3, .v 4⟩),
    (0x406242322211084, .vdot16 ⟨⟨0, false⟩, .n16, .rne, true, .v 1, .v 2, .v 3, .v 4⟩),
    (0x407242322211085, .vmac8 ⟨⟨0, false⟩, .n8, .rne, true, .v 1, .v 2, .v 3, .v 4⟩),
    (0x402242322211086, .vmac16 ⟨⟨0, false⟩, .i16, .rne, true, .v 1, .v 2, .v 3, .v 4⟩),
    (0x29280087, .vrng ⟨⟨0, false⟩, .v 8, .v 9⟩),
    (0xD000022210088, .vcompress ⟨⟨0, false⟩, .e5m2, .v 1, .v 2⟩),
    (0x8000022210089, .vexpand ⟨⟨0, false⟩, .f64, .v 1, .v 2⟩),
    (0x100002221008A, .vpopc ⟨⟨0, false⟩, .i32, .v 1, .v 2⟩)] = true := by decide +kernel
theorem test_decode_vector5 : reads [
    (0x2221008C, .vmov ⟨⟨0, false⟩, .v 1, .v 2⟩),
    (0x6252400B0, .rsvupd ⟨⟨0, false⟩, .v 4, .v 5, .s 6⟩),
    (0x6252400B1, .rsvmrg ⟨⟨0, false⟩, .v 4, .v 5, .s 6⟩),
    (0x252400B2, .rsvget ⟨⟨0, false⟩, .v 4, .v 5⟩)] = true := by decide +kernel
theorem test_decode_matrix0 : reads [
    (0x780300040200608D, .mbld8 ⟨⟨0, false⟩, .i8, .tag, 3, 0, false, 0, 2, 4⟩),
    (0xDFFFFC0300B00040200608E, .mbld16 ⟨⟨0, false⟩, .bf16, .ieee, 1, 6, true, 0xFFFFC0, 2, 4⟩),
    (0xA000000000000000000608F, .mbrel ⟨⟨0, false⟩, 0, 5⟩),
    (0x1000040E009000302416090, .mld32 ⟨⟨0, false⟩, .f32, .fin, 7, 1, true, 64, 2, 3⟩),
    (0x1000040E00A000302416091, .mld16 ⟨⟨0, false⟩, .f16, .fin, 7, 1, true, 64, 2, 3⟩),
    (0x1000040E009000302416092, .mst32 ⟨⟨0, false⟩, .f32, .fin, 7, 1, true, 64, 2, 3⟩),
    (0x1000040E00B000302416093, .mst16 ⟨⟨0, false⟩, .bf16, .fin, 7, 1, true, 64, 2, 3⟩),
    (0x1000040E80C0003024160A1, .mcvt ⟨⟨0, false⟩, .e4m3, .nan, 7, 1, true, 64, 2, 3⟩),
    (0x4000000000436094, .mzero ⟨⟨0, false⟩, 2, 3⟩),
    (0x7803000041426096, .mmul8 ⟨⟨0, false⟩, .i8, .tag, 3, 2, .reg 1, 0, 0⟩),
    (0x9000048000E030002416095, .mmulE2M1 ⟨⟨0, false⟩, .e2m1, .fin, 0, 1, .loc true 72 2 3, 0, 4⟩),
    (0xA000942416097, .mmul16 ⟨⟨0, false⟩, .f16, .fin, 0, 1, .reg 2, 9, 0⟩)] = true := by decide +kernel
theorem test_decode_matrix1 : reads [
    (0x4000012000E030002416098, .mmacE2M1 ⟨⟨0, false⟩, .e2m1, .fin, 0, 1, .loc false 18 2 3, 0, 2⟩),
    (0xE000000100D000042416099, .mmac8 ⟨⟨0, false⟩, .e5m2, .ieee, 0, 1, .reg 2, 0, 7⟩),
    (0x4000000000B00004241609A, .mmac16 ⟨⟨0, false⟩, .bf16, .fin, 0, 1, .reg 2, 0, 2⟩),
    (0x232241609B, .mfac ⟨⟨0, false⟩, 0, 1, .v 2, .v 3⟩),
    (0x600000434141609C, .mlradd ⟨⟨0, false⟩, 3, 1, 1, 3⟩),
    (0x434241609D, .mlrmul ⟨⟨0, false⟩, 0, 1, 2, 3⟩),
    (0x4241609E, .mreef ⟨⟨0, false⟩, 0, 1, 2⟩),
    (0x4241609F, .mprom ⟨⟨0, false⟩, 0, 1, 2⟩),
    (0x424160A2, .mtr ⟨⟨0, false⟩, 0, 1, 2⟩),
    (0x420160A0, .mrank ⟨⟨0, false⟩, 0, 1, 2⟩),
    (0x3424160A3, .mscale ⟨⟨0, false⟩, 0, 1, 2, 3⟩),
    (0x220060A4, .mrec ⟨⟨0, false⟩, 0, .v 2⟩)] = true := by decide +kernel
theorem test_decode_matrix2 : reads [
    (0x600000000000000424160A5, .mrun ⟨⟨0, false⟩, 0, 1, 2, 3⟩),
    (0x60000000000060A6, .mwait ⟨⟨0, false⟩, 3⟩),
    (0x160A7, .mfree ⟨⟨0, false⟩, 0, 1⟩)] = true := by decide +kernel
theorem test_decode_rays0 : reads [
    (0x280460A8, .rayopen ⟨⟨0, false⟩, 4, .v 8⟩),
    (0x20060A9, .raytrace ⟨⟨0, false⟩, 2⟩),
    (0x100000000020360AA, .raywait ⟨⟨0, false⟩, 3, 2, true, false⟩),
    (0x200000000020360AA, .raywait ⟨⟨0, false⟩, 3, 2, false, true⟩),
    (0x23020060AB, .ivpost ⟨⟨0, false⟩, 2, .v 3⟩),
    (0x3022160AC, .ivread ⟨⟨0, false⟩, .v 1, 2, 3⟩),
    (0x20060AD, .ivclr ⟨⟨0, false⟩, 2⟩),
    (0x100000000020160AE, .ivstat ⟨⟨0, false⟩, 1, 2, true⟩),
    (0x9260AF, .hitq ⟨⟨0, false⟩, .x 1 2⟩),
    (0x403020060B3, .logset ⟨⟨0, false⟩, 2, 3, 4⟩),
    (0x20060B4, .replay ⟨⟨0, false⟩, 2⟩)] = true := by decide +kernel

/-! ### Well-formedness: for each check a term that it refuses, beside a word of the same form that it accepts above -/

/-- The plain predicate p0. -/
def pp : Pred := ⟨0, false⟩

theorem test_wf_predicate : (Instr.halt ⟨⟨0, true⟩⟩).wf = false ∧ (Instr.halt ⟨⟨1, true⟩⟩).wf = true := by decide +kernel

theorem test_wf_scalar : ([
    .add ⟨pp, .f32, false, .s 1, .s 2, .s 3⟩, .mulh ⟨pp, .n32, false, .s 1, .s 2, .s 3⟩, .div ⟨pp, .i32, true, .s 1, .s 2, .s 3⟩,
    .remn ⟨pp, .i8, false, .s 1, .s 2, .s 3⟩, .maxn ⟨pp, .n8, true, .s 1, .s 2, .s 3⟩, .and ⟨pp, .f64, false, .s 1, .s 2, .s 3⟩,
    .ror ⟨pp, .i8, true, .s 1, .s 2, .s 3⟩, .addi ⟨pp, .auto, false, .s 1, .s 2, 0⟩, .clz ⟨pp, .f16, .s 1, .s 2⟩, .sext ⟨pp, .n8, .s 1, .s 2⟩,
    .zext ⟨pp, .i8, .s 1, .s 2⟩, .bfx ⟨pp, .i32, .s 1, .s 2, .s 3, .s 4⟩, .bfi ⟨pp, .i64, .s 1, .s 2, .s 3, .s 4⟩,
    .cmpI ⟨pp, .f32, .eq, 1, .s 2, .s 3⟩, .cmpI ⟨pp, .i32, .ord, 1, .s 2, .s 3⟩, .cmpF ⟨pp, .e4m3, .eq, 1, .s 2, .s 3⟩,
    .pmov ⟨pp, .s (.s 1), .s (.s 2)⟩, .br ⟨pp, 1, 5⟩, .jmp ⟨pp, 6⟩, .call ⟨pp, 1, 7⟩, .loop ⟨pp, 1, 5⟩] : List Instr).all
      (fun i => !i.wf) = true := by decide +kernel

theorem test_wf_memory : ([
    .ld ⟨pp, .f32, 1, 2, 0⟩, .st ⟨pp, .bf16, 1, 2, 0⟩, .ldk ⟨pp, .e2m1, 1, 2, 0⟩, .vldConverting ⟨pp, .i32, .f16, .tag, .v 1, 2, 0⟩,
    .vldConverting ⟨pp, .f32, .i8, .tag, .v 1, 2, 0⟩, .vldm ⟨pp, .q 1, 2, 3, 0⟩, .vstm ⟨pp, .q 1, 2, 3, 0⟩,
    .vgath32 ⟨pp, .i64, .v 1, 2, .v 3, 0⟩, .vscat64 ⟨pp, .f32, .v 1, 2, .v 3, 0⟩, .amoI ⟨pp, .i8, .add, .clu, 0, 0, 1, 2, 3, 0⟩,
    .amoF ⟨pp, .f16, .add, .clu, 0, 0, 1, 2, 3, 0⟩, .amoF ⟨pp, .f32, .xor, .clu, 0, 0, 1, 2, 3, 0⟩, .cas ⟨pp, .f32, .clu, 0, 0, 1, 2, 3, 4, 0⟩,
    .cas2 ⟨pp, .clu, 0, 0, 1, 2, 4, 6, 0⟩, .cas2 ⟨pp, .clu, 0, 0, 2, 2, 5, 6, 0⟩, .cas2 ⟨pp, .clu, 0, 0, 2, 2, 4, 7, 0⟩,
    .redI ⟨pp, .i16, .add, .clu, 0, 0, 2, 3, 0⟩, .redI ⟨pp, .i32, .swap, .clu, 0, 0, 2, 3, 0⟩, .redF ⟨pp, .f64, .add, .clu, 0, 0, 2, 3, 0⟩,
    .redF ⟨pp, .f32, .and, .clu, 0, 0, 2, 3, 0⟩, .gath ⟨pp, 0, 1, 2, .q 3⟩, .gath ⟨pp, 0, 1, 1, .v 3⟩, .fence ⟨pp, .sys, 0, 1⟩,
    .fence ⟨pp, .sys, 1, 0⟩, .fence ⟨pp, .dev, 0x100, 1⟩, .fence ⟨pp, .clu, 1, 0x100⟩, .ldPath ⟨pp, .f32, .K, .clu, 1, 2, 0⟩,
    .ldPath ⟨pp, .i32, .X, .clu, 1, 2, 0⟩, .ldPath ⟨pp, .i32, .H, .dev, 1, 2, 0⟩, .stPath ⟨pp, .f32, .H, .sys, 1, 2, 0⟩,
    .stPath ⟨pp, .i32, .K, .clu, 1, 2, 0⟩, .vldPath ⟨pp, .C, .clu, .v 1, 2, 0⟩, .vstPath ⟨pp, .H, .die, .v 1, 2, 0⟩,
    .cset ⟨pp, 7, 2⟩, .cpygo ⟨pp, 1, 1⟩, .rst ⟨pp, .v 1, 2, false, 3, 0, 0⟩] : List Instr).all (fun i => !i.wf) = true := by decide +kernel

theorem test_wf_vector : ([
    .vaddI ⟨pp, .f32, .rne, false, .v 1, .v 2, .v 3⟩, .vmaxI ⟨pp, .i32, .rtz, false, .v 1, .v 2, .v 3⟩,
    .vaddF ⟨pp, .e4m3, .rne, false, .v 1, .v 2, .v 3⟩, .vabsI ⟨pp, .f16, .rne, false, .v 1, .v 2⟩, .vnegI ⟨pp, .i8, .rup, false, .v 1, .v 2⟩,
    .vsqrt ⟨pp, .i32, .rne, false, .v 1, .v 2⟩, .vfma ⟨pp, .n32, .rne, false, .v 1, .v 2, .v 3, .v 4⟩, .vcmpI ⟨pp, .i16, .eq, 1, .v 2, .v 3⟩,
    .vcmpI ⟨pp, .i32, .uno, 1, .v 2, .v 3⟩, .vcmpF ⟨pp, .f16, .eq, 1, .v 2, .v 3⟩, .vsel ⟨pp, .auto, .v 1, .v 2, .v 3, 1⟩,
    .vcvtII ⟨pp, .i8, .f32, .rne, false, .fin, .v 1, .v 2, .s 3⟩, .vcvtIF ⟨pp, .i8, .i8, .rne, false, .fin, .v 1, .v 2, .s 3⟩,
    .vcvtFI ⟨pp, .i8, .i32, .rne, false, .fin, .v 1, .v 2, .s 3⟩, .vcvtFF ⟨pp, .f32, .e4m3, .rne, false, .tag, .v 1, .v 2, .s 3⟩,
    .vcvtFF ⟨pp, .auto, .f32, .rne, false, .fin, .v 1, .v 2, .s 3⟩, .vround ⟨pp, .e5m2, .rne, .v 1, .v 2⟩, .vand ⟨pp, .auto, .v 1, .v 2, .v 3⟩,
    .vshl ⟨pp, .f32, .v 1, .v 2, .v 3⟩, .vperm32 ⟨pp, .f64, .v 1, .v 2, .v 3⟩, .vperm64 ⟨pp, .i16, .v 1, .v 2, .v 3⟩,
    .vbcast32 ⟨pp, .n8, .v 1, .s 2⟩, .vbcast64 ⟨pp, .f32, .v 1, .s 2⟩, .vext ⟨pp, .e4m3, .s 1, .v 2, .s 3⟩, .vins ⟨pp, .e2m1, .v 1, .s 2, .s 3⟩,
    .vins ⟨pp, .i8, .q 1, .s 2, .s 3⟩, .vredaddI ⟨pp, .f32, .rne, .s 1, .v 2⟩, .vredmaxI ⟨pp, .i32, .rdn, .s 1, .v 2⟩,
    .vredaddF ⟨pp, .i32, .rne, .s 1, .v 2⟩, .vscanI ⟨pp, .i32, .swap, .rne, .v 1, .v 2⟩, .vscanI ⟨pp, .f32, .add, .rne, .v 1, .v 2⟩,
    .vscanF ⟨pp, .f32, .xor, .rne, .v 1, .v 2⟩, .vdot8 ⟨pp, .i16, .rne, false, .v 1, .v 2, .v 3, .v 4⟩,
    .vmac16 ⟨pp, .i16, .rtz, false, .v 1, .v 2, .v 3, .v 4⟩, .vcompress ⟨pp, .auto, .v 1, .v 2⟩, .vpopc ⟨pp, .f32, .v 1, .v 2⟩,
    .vlane ⟨pp, .bf16, .v 1, .s 2⟩] : List Instr).all (fun i => !i.wf) = true := by decide +kernel

theorem test_wf_engines : ([
    .mbld8 ⟨pp, .f16, .fin, 0, 0, false, 0, 1, 2⟩, .mbld16 ⟨pp, .i8, .fin, 0, 0, false, 0, 1, 2⟩, .mbld16 ⟨pp, .f16, .fin, 0, 1, false, 0, 1, 2⟩,
    .mld32 ⟨pp, .f16, .fin, 0, 0, false, 0, 1, 2⟩, .mst16 ⟨pp, .f32, .fin, 0, 0, false, 0, 1, 2⟩, .mcvt ⟨pp, .f16, .fin, 0, 0, false, 0, 1, 2⟩,
    .mmulE2M1 ⟨pp, .i8, .fin, 0, 0, .reg 1, 0, 0⟩, .mmul8 ⟨pp, .e2m1, .fin, 0, 0, .reg 1, 0, 0⟩, .mmul8 ⟨pp, .i8, .fin, 0, 0, .reg 1, 2, 1⟩,
    .mmac16 ⟨pp, .i8, .fin, 0, 0, .reg 1, 0, 0⟩, .mfac ⟨pp, 0, 1, .q 1, .v 2⟩, .mfac ⟨pp, 0, 1, .v 1, .q 2⟩, .mrec ⟨pp, 0, .q 1⟩,
    .rayopen ⟨pp, 1, .q 2⟩, .hitq ⟨pp, .q 2⟩, .ivpost ⟨pp, 1, .q 2⟩, .ivread ⟨pp, .q 1, 2, 3⟩, .spawn ⟨pp, .q 1⟩, .spawnt ⟨pp, 1, .q 1⟩,
    .cancel ⟨pp, false, 1, 1⟩, .castpin ⟨pp, 1, 3⟩, .tlbinv ⟨pp, 1, 2, 3, true⟩] : List Instr).all (fun i => !i.wf) = true := by decide +kernel

/-! ### States for the tests: the first thread set runs a task of context 0, which the placing of a word sets up -/

/-- A task runs, its fetch line stands at address 0, and nothing else is set. -/
def base : State := placeWord State.reset 0x7038
/-- The same with scalar registers set. -/
def withS (l : List (Fin 32 × W64)) (s : State) : State := l.foldl (fun s e => Machine.setS s e.1 e.2) s
/-- The same with a vector register set from 32-bit lanes. -/
def withV (n : Fin 32) (l : List Nat) (s : State) : State :=
  withRf s fun r => { r with v := r.v.set n (BitVec.ofNat 512 (joinDigits 32 l)) }
/-- The state after a step that completes, or the state of reset. -/
def after (o : Out) : State := match o with
  | .next s => s
  | _ => State.reset
/-- A step answers a next state. -/
def stepsOn (s : State) : Bool := match step s with
  | .next _ => true
  | _ => false
/-- The check of a transfer's target passes. -/
def okTarget (s : State) (va : W64) : Bool := match checkTarget s va with
  | .ok _ => true
  | _ => false

theorem witness_BranchesGoToTheirCheckedTarget : okTarget base 0 = true ∧ labelTarget base.th.ipc 0 = 0 ∧ pred0 base pp = true ∧
    Machine.getP base 0 ≠ 0 ∧ Machine.getP base 1 = 0 ∧ Machine.getS base 3 = 0 ∧ Machine.getS (withS [(3, 1)] base) 3 = 1 ∧
    1 < (Machine.getS (withS [(3, 2)] base) 3).toNat ∧ okTarget (withS [(3, 2)] base) 0 = true ∧ pred0 base ⟨1, false⟩ = false := by
  decide +kernel

/-- A fetch line from its slots and the low bits of its line word, with the parity of R41. -/
def lineOf (slots : List Nat) (low : Nat) : V512 :=
  let at_ := fun i => slots.getD i 0x1F
  let sp := ((List.range 5).map fun i => bit (parity 96 (at_ i)) * 2 ^ (26 + i)).sum
  BitVec.ofNat 512 (joinDigits 96 ((List.range 5).map at_) + (low + sp + bit (parity 26 low) * 2 ^ 31) * 2 ^ 480)
/-- The same state with this line at address 0. -/
def withLine (l : V512) (s : State) : State := { s with mem := memSetAll [] (atAddr 0 (toBytes 64 l.toNat)) }
/-- The line that the thread set in focus fetches, the state after the fetch, and whether it passes the parity of a slot. -/
def fetched (s : State) (k : Nat) : Option (V512 × State × Bool) := match xlateCore s .fetch false (s.th.pc.toNat / 64 * 64) with
  | .ok x v => let r := loadK v x; some (r.1.data, r.2, lparOk r.1.data && sparOk r.1.data k)
  | _ => none
/-- The fetch passes its checks and the thread set may issue. -/
def mayFetch (s : State) : Bool := s.boot != .failed && s.agenda == [.issue 0] &&
  (let d := judgeYields (passTime { s with agenda := [] })
   let u := focus d 0
   (coreOrder d 0).head? == some 0 && mayIssue u.th && !drainingCore u && !u.core.gated && instrForm u.th.pc && !inPoolWindow u.th.pc.toNat)

/-- `add.i64 s1, s2, s3` and `vmov v1, v2` make a legal pair. -/
def pairLine : V512 := lineOf [0x0302010001, 0x2221008C] 0x21

theorem witness_StepRunsTheDecodedInstruction : mayFetch base = true ∧ mayFetch (withLine pairLine base) = true ∧
    ((fetched base 0).any fun r => r.2.2 && r.1.toNat / 2 ^ 489 % 2 ^ 17 == 0 && decodeTableWord 96 (slotWord r.1 0).toNat == some (.yield_ ⟨pp⟩)
      && !pairsAt base r.1 0 && !scoreboard r.2.1 (Raw.ofWord (slotWord r.1 0)) (.yield_ ⟨pp⟩)) = true ∧
    ((fetched (withLine pairLine base) 0).any fun r => r.2.2 && sparOk r.1 1 && pairsAt r.2.1 r.1 0
      && pairLegal r.2.1 r.1 0 (Raw.ofWord (slotWord r.1 0)) (Raw.ofWord (slotWord r.1 1))
      && (decodeTableWord 96 (slotWord r.1 0).toNat).isSome && (decodeTableWord 96 (slotWord r.1 1).toNat).isSome) = true ∧
    base.NoUCopies ∧ amFind base.core.l1 0 = none := by
  refine ⟨by decide +kernel, by decide +kernel, by decide +kernel, by decide +kernel, ?_, by decide +kernel⟩
  unfold State.NoUCopies; decide +kernel

theorem witness_AReservedLineWordBitTrapsIllegal : mayFetch (withLine (lineOf [] 0x201) base) = true ∧
    ((fetched (withLine (lineOf [] 0x201) base) 0).any fun r => r.2.2 && bitOf (lineWord r.1) 9) = true ∧
    ((fetched (withLine (lineOf [] 0x2000021) base) 0).any fun r => r.2.2 && sparOk r.1 1 && pairsAt base r.1 0 && bitOf (lineWord r.1) 25) = true := by
  decide +kernel

theorem witness_MemoryKeepsItsCanonicalForm : base.MemoryCanonical ∧ (∃ t, exec (.homeStore 0) base = .next t) ∧
    (∃ t, turnStep (.evictLine 0) base = .next t) ∧
    stepsOn base = true := ⟨by unfold State.MemoryCanonical; decide +kernel, ⟨_, rfl⟩, ⟨_, rfl⟩, by decide +kernel⟩

theorem witness_AFailedBootStaysFailed : let s := { State.reset with boot := .failed, agenda := [.event (.telemetryRead 0)] }
    s.boot = .failed ∧ ∃ t, step s = .next t := ⟨rfl, _, rfl⟩

theorem witness_ScalarIntegerFormsWriteTheirResult : pred0 base pp = true ∧ pred0 base ⟨1, false⟩ = false := by decide +kernel

/-- R76: division by zero, and of the lowest value by −1; R103: the high half of a signed product. -/
theorem test_division_corners : let s := withS [(2, 0x8000000000000000), (3, 0xFFFFFFFFFFFFFFFF), (4, 7)] base
    let r := fun i => Machine.getS (after (exec i s)) 1
    r (.div ⟨pp, .i64, false, .s 1, .s 4, .s 0⟩) = 0xFFFFFFFFFFFFFFFF ∧ r (.rem ⟨pp, .i64, false, .s 1, .s 4, .s 0⟩) = 7 ∧
    r (.div ⟨pp, .i64, false, .s 1, .s 2, .s 3⟩) = 0x8000000000000000 ∧ r (.rem ⟨pp, .i64, false, .s 1, .s 2, .s 3⟩) = 0 ∧
    r (.mulh ⟨pp, .i64, false, .s 1, .s 3, .s 4⟩) = 0xFFFFFFFFFFFFFFFF := by decide +kernel

theorem witness_MovesFieldsComparesAndIndexFormsWriteTheirValue : pred0 base pp = true ∧ pred0 base ⟨1, true⟩ = true ∧
    pred0 (withRf base fun r => { r with p := r.p.set 1 0xFFFE }) ⟨1, false⟩ = false ∧ pred0 base ⟨1, false⟩ = false ∧
    (cmpElem .i64 .lt 5 7).1 = true ∧ (cmpElem .i64 .lt 7 5).1 = false := by decide +kernel

theorem witness_IntegerDivisionTruncatesTowardZero : let s := withS [(2, 0x8000000000000000), (3, 0xFFFFFFFFFFFFFFFF)] base
    let o : SAlu := ⟨pp, .i64, false, .s 1, .s 2, .s 3⟩
    (Instr.div o).fieldsOk = true ∧ (Instr.divn { o with t := .n64 }).fieldsOk = true ∧ pred0 s pp = true ∧
    intVal .i64 (readS s o.a).toNat = intLo .i64 ∧ intVal .i64 (readS s o.b).toNat = -1 ∧ intVal .i64 (readS base o.b).toNat = 0 := by decide +kernel

theorem witness_BranchesGoToTheirCheckedTarget_refused :
    let bad := withLine (lineOf [] 0x1 ^^^ BitVec.ofNat 512 (2 ^ 511)) base
    let ln := fun s => match fetchLine s 0 with
      | .ok l _ => lparOk l
      | _ => true
    fieldOf (8 : W64) 3 3 ≠ 0 ∧ 4 < fieldOf (5 : W64) 0 3 ∧ okTarget base 0 = true ∧ okTarget base 1 = false ∧ ln base = true ∧ ln bad = false ∧
    (match checkTarget bad 0 with
      | .linepar _ => true
      | _ => false) = true ∧
    (match checkTarget base 1 with
      | .bad _ => true
      | _ => false) = true := by
  decide +kernel

/-- The same with a frame address. -/
def withFf (n : W64) (s : State) : State := withRf s fun r => { r with ffbase := n }

theorem witness_TrapEntrySavesTheFrameOrStopsTheThreadSet : haBit (withFf 0x10000 base).th.rf = false ∧ (withFf 0x10000 base).th.rf.ffbase ≠ 0 ∧
    okTarget (saveFrame (withFf 0x10000 base) (trapOf cILLEGAL 0) 0 false) 0 = true ∧
    (let s := withRf (withFf 0x10000 base) fun r => { r with trapvec := 8 }
     okTarget (saveFrame s (trapOf cILLEGAL 0) 0 false) s.th.rf.trapvec = false) ∧
    haBit (withRf base fun r => { r with faultinfo := 0x8000 }).th.rf = true ∧ base.th.rf.ffbase = 0 := by decide +kernel

theorem witness_TrapInstructionsTrapAndReturnsResume : pred0 base pp = true ∧ haltReady base = true ∧
    haltReady (withTh base fun t => { t with amsgs := [⟨0, 0, 0, 0, .base 1, false, 0⟩] }) = false ∧ bitOf (getCtx base (myCtx base)).dbgctl.toNat 0 = false ∧
    bitOf (getCtx (onCtx base 0 fun c => { c with dbgctl := 1 }) 0).dbgctl.toNat 0 = true ∧
    (let t : Trap := { cause := 0x51, addr := 0, acc := 0, code := 7, brk := false, xfer := none, next := true }
     okTarget (saveFrame (withFf 0x10000 base) t 0 false) 0) = true := by decide +kernel

theorem witness_TrapInstructionsTrapAndReturnsResume_returns : base.th.snap = none ∧ haBit base.th.rf = false ∧
    (let t := after (exec (.sysc ⟨pp, 7⟩) (withFf 0x10000 base))
     haBit t.th.rf = true ∧ t.th.snap = none ∧ t.core.pool = (saveFrame (withFf 0x10000 base) { cause := 0x51, addr := 0, acc := 0, code := 7, brk := false, xfer := none, next := true } 0 false).core.pool) ∧
    inScratch base.core 0x10000 128 = true ∧ inScratch base.core 0xFFFF80 128 = false ∧ (130 : Nat) % 128 ≠ 0 := by decide +kernel

theorem witness_SpecialRegisterMovesFollowTheTable : pred0 base pp = true ∧ supMode base = true ∧
    supMode (onPart base 0 fun p => { p with sup := 5 }) = false := by decide +kernel

/-- Whether a translation answers, is a page fault or is refused. -/
def xlKind (r : XRes) : Nat := match r with
  | .ok _ _ => 0
  | .page => 1
  | .perm => 2

/-- A computation answers. -/
def okE {ε α : Type} (r : Except ε α) : Bool := match r with
  | .ok _ => true
  | .error _ => false
/-- It stops with a page fault. -/
def pageE {α : Type} (r : Except Stop α) : Bool := match r with
  | .error (.page _) => true
  | _ => false
/-- A C read at 0x40, and the state in which it is the oldest C access of the thread set. -/
def creq (k : CKind) (pool : Bool) : CReq :=
  { kind := k, pool := pool, va := 0x40, pa := 0x40, slot := 0, stale := false, bytes := [], noL1 := false, dst := 3, behind := none, acq := 0, atHome := false,
    joined := false, merged := [], performed := false, wts := 0, after := [], reply := 0, flags := 0 }
def withC (q : CReq) (s : State) : State := withTh s fun t => { t with creqs := [q] }
/-- The sector of address 0x40 stands in its slice. -/
def filled (s : State) : State := setLine s 0 { getLine s 0 with valid := 2, slot := 0 }

theorem witness_ALoadMissReturnsTheBytesAtHome : base.NoUCopies ∧ amFind base.core.l1 1 = none ∧
    (let q := creq (.load .i32) false
     let s := withC q base
     q.kind.isRead = true ∧ (readL1 q s).isNone = true ∧ (getClu s (homeOf q.pa)).inbuf = [] ∧ q.joined = false ∧ q.merged = [] ∧ q.atHome = false ∧
     readSecs q = [1] ∧ bitOf (getLine s 0).valid.toNat 1 = false ∧ (getClu s (homeOf q.pa)).miss = [] ∧
     (loadL1 (loadC base ⟨0x40, 0, false, false⟩).2 ⟨0x40, 0, false, false⟩).isSome = true ∧ (creq (.load .i32) true).pool = true) ∧
    ReadHits (filled base) (creq (.load .i32) false) ∧ ReadFits (creq (.load .i32) false) := by
  refine ⟨by unfold State.NoUCopies; decide +kernel, by decide +kernel, by decide +kernel, ?_, by unfold ReadFits creq; decide +kernel⟩
  unfold ReadHits; decide +kernel

theorem witness_ScalarLoadsExtendWhatTheyRead : pred0 base pp = true ∧ (0x41 : W64).toNat % 4 ≠ 0 ∧
    okE (readC base 0x40 4 (.load .i32) 3) = true ∧ okE (readK base 0x40 4 .i32 3 none) = true ∧
    pageE (readC base 0x40000000 4 (.load .i32) 3) = true ∧ pred0 base ⟨1, false⟩ = false ∧
    (let q : KReq := ⟨0x40, 0, false, .i32, 3, none⟩
     (after (exec (.ldk ⟨pp, .i32, 3, 0, 0x40⟩) base)).th.kreqs = [q] ∧
     (after (exec (.vldPath ⟨pp, .K, .sys, .v 1, 0, 0x40⟩) base)).th.kreqs.map (·.vec) = [some (0xFFFF, .base 1)]) := by decide +kernel

/-- R118: a load of a signed 16-bit value extends its sign, once it has been performed. -/
theorem test_ld_extends : let s := { base with mem := memSetAll base.mem (atAddr 0x40 [0xFE, 0xFF]) }
    Machine.getS ((evAccess 0 (filled (after (exec (.ld ⟨pp, .i16, 3, 0, 0x40⟩) s)))).getD base) 3 = 0xFFFFFFFFFFFFFFFE := by decide +kernel

theorem witness_LoadsLookInThePoolOrAtTheirTranslation : inPoolWindow 0xFFFFFF0000010080 = true ∧
    poolOk base.core base.th.act 0x10080 8 = true ∧ poolOk base.core base.th.act 0xFFFFF8 8 = false ∧ inPoolWindow 0x40 = false ∧
    xlKind (xlateCore base .read false 0x40) = 0 ∧ xlKind (xlateCore base .read false 0x40000000) = 1 ∧
    bitsOf 0x0200000000000000 57 7 ≠ (if bitOf 0x0200000000000000 56 then 127 else 0) := by decide +kernel
/-- The same with eight entries in a queue register of the core. -/
def fullQ (q : Nat) (s : State) : State := withCore s fun c => qSet c q (List.replicate 8 0)
/-- The same with an index register set. -/
def withX (n : Fin 8) (v : W32) (s : State) : State := withRf s fun r => { r with x := r.x.set n v }
/-- Every controller's first format window gives a tag to the first pages, with scale bytes at 0x2000. -/
def withTag (t : W64) (s : State) : State := { s with windows := (List.range 12).map fun i => (i * 16, #v[t, 0, 0x1000, 0x2000]) }
/-- A converting load of f32 with the tag's format. -/
def autoLoad : MemC := ⟨pp, .f32, .auto, .tag, .v 1, 0, 0x40⟩
/-- The plan that a converting load finds at an address, and whether it is aligned. -/
def planAt (s : State) (o : MemC) (ea : W64) : Option (Option (Ty × Rd) × Bool × Nat × Bool) := match xlateCore s .read false ea.toNat with
  | .ok x u => let r := (convRead u o ea x).1; some (r.fmt, r.scaled, r.nb, r.ok)
  | _ => none

theorem witness_VectorLoadsFillTheirActiveLanes : anyOn (predVal base pp) 32 = true ∧ anyOn (predVal base ⟨1, false⟩) 32 = false ∧
    queuesReady base [] (some (.q 4)) = true ∧ queuesReady (fullQ 4 base) [] (some (.q 4)) = false ∧ vopOk base (.x 0 0) = true ∧
    vopOk (withX 0 300 base) (.x 0 0) = false ∧ base.th.creqs = [] ∧ base.th.kreqs = [] ∧ okE (readC base 0x40 64 (.vload 0xFFFF (.base 1)) 0) = true ∧
    okE (readC base 0x40000000 64 (.vload 0xFFFF (.base 1)) 0) = false ∧ blockRange base (.v 30) 2 = true ∧ blockRange base (.v 30) 3 = false ∧
    (let q := creq (.vload 0xFFFF (.base 1)) false
     q.kind.isRead = true ∧ (readL1 q (withC q base)).isNone = true) ∧
    (match readC base 0x80 64 (.vload 0xFFFF (blockReg base (.v 1) 0)) 0 with
      | .ok u => okE (readC u 0xC0 64 (.vload 0xFFFF (blockReg base (.v 1) 1)) 0)
      | _ => false) = true ∧
    (match readC base 0xFC0 64 (.vload 0xFFFF (.base 1)) 0 with
      | .ok u => pageE (readC u 0x1000 64 (.vload 0xFFFF (.base 2)) 0)
      | _ => false) = true := by decide +kernel

theorem witness_StoresReachThePoolOrWaitForTheirHome : inPoolWindow 0xFFFFFF0000010000 = true ∧
    (([(0, 1), (7, 2)] : List (Nat × Byte)).all fun e => poolOk base.core base.th.act (poolOff 0xFFFFFF0000010000 + e.1) 1) = true ∧
    (([(0, 1)] : List (Nat × Byte)).all fun e => poolOk base.core base.th.act (poolOff 0xFFFFFF0000000000 + e.1) 1) = false ∧
    xlKind (xlateCore base .write false 0x40) = 0 ∧ xlKind (xlateCore base .write false 0x40000000) = 1 ∧
    queuesReady base [.v 1, .v 2] none = true ∧ queuesReady base [.q 3] none = false ∧ vopOk base (.v 1) = true ∧
    (withC (creq .store true) base).th.creqs = [creq .store true] ∧
    okE (storeC (withS [(2, 0x80)] base) 0x80 64 (atAddr 0 (toBytes 64 0))) = true ∧ pageE (storeC base 0x1000 64 []) = true ∧
    (∀ e < 16, elemOn (predVal base pp) 32 e = true → 0x40 + elem 32 base.th.rf.v[(3 : Fin 32)] e * 4 < 4096) := by decide +kernel

theorem witness_GathersReadEachActiveElement : xlKind (xlateCore base .read false 0x40) = 0 ∧ xlKind (xlateCore base .read false 0x40000000) = 1 ∧
    queuesReady base [.v 2] (some (.v 1)) = true ∧ vopOk base (.v 1) = true ∧ anyOn (predVal base pp) 32 = true ∧ base.th.creqs = [] ∧
    (∀ e < 16, elemOn (predVal base pp) 32 e = true → poolOk base.core base.th.act (poolOff 0xFFFFFF0000010000 + elem 32 0 e * 4) 4 = true) ∧
    poolOk base.core base.th.act (poolOff 0xFFFFFF0000000000) 4 = false ∧ elem 32 (withV 2 [0x400] base).th.rf.v[(2 : Fin 32)] 0 * 4 = 4096 := by
  decide +kernel

theorem witness_ConvertingLoadsConvertEachActiveElement : base.th.creqs = [] ∧ base.NoUCopies ∧ amFind base.core.l1 1 = none ∧
    planAt base autoLoad 0x40 = some (none, false, 64, true) ∧ planAt (withTag 1 base) autoLoad 0x40 = some (some (.e4m3, .fin), false, 16, true) ∧
    planAt (withTag 7 base) autoLoad 0x41 = some (some (.e4m3, .fin), true, 16, false) ∧
    planAt (withTag 13 base) autoLoad 0x48 = some (some (.e2m1, .fin), false, 8, true) ∧ e2m1Place 0x48 8 = some 4 ∧
    (convPlan { autoLoad with src := .f16 } 0x40 0).nb = 32 ∧ poolOk base.core base.th.act 0x10080 64 = true := by
  refine ⟨by decide +kernel, by unfold State.NoUCopies; decide +kernel, by decide +kernel, by decide +kernel, by decide +kernel, by decide +kernel,
    by decide +kernel, by decide +kernel, by decide +kernel, by decide +kernel⟩

theorem witness_LoadsLookInThePoolOrAtTheirTranslation_prefetch : xlKind (xlateCore base .read false 0x40) = 0 ∧
    xlKind (xlateCore base .read false 0x40000000) = 1 ∧ inPoolWindow 0xFFFFFF0000000000 = true := by decide +kernel

/-- The same after an access to host memory has been queued. -/
def hostPage (s : State) : State :=
  onPart (withCore s fun c => { c with tlb := [{ ctx := 0, va := 0, bits := 12, pa := 2 ^ 51, pte := 0x03800000000000DF }] }) 0 fun p =>
    { p with prng := p.prng.set 1 0x8020000100200000 }

/-- The thread set stands in slot j of a pair that issues. -/
def inPair (s : State) : State := withTh s fun t => { t with inPair := true, slot1 := false }

theorem witness_VectorLoadsFillTheirActiveLanes_slotJ : inSlotJ base = false ∧ inSlotJ (inPair base) = true ∧ (inPair base).th.creqs = [] ∧
    (withC (creq .store false) (inPair base)).th.creqs ≠ [] ∧ (inPair base).th.kreqs = [] ∧ queuesReady (inPair base) [] (some (.q 4)) = true ∧
    vopOk (inPair base) (.q 4) = true ∧ okE (readC (inPair base) 0x40 64 (.vload 0xFFFF (.queue 4)) 0) = true ∧
    okE (readK (inPair base) 0x40 64 .n32 0 (some (0xFFFF, .queue 4))) = true ∧
    okE (readC (inPair base) 0x40 32 (.conv { autoLoad with src := .f16, d := .q 4 } 0xFFFF (.queue 4)) 0) = true ∧
    (let q := creq (.vload 0xFFFF (.base 1)) false
     q.merged = [] ∧ q.pa % 64 = 0 ∧ (readL1 q (withC q base)).isNone = true) ∧
    (evAccess base.here (withC { creq .store true with bytes := [(0x10000, 7)] } base)).isSome = true := by decide +kernel

theorem witness_HostAccessesQueueAndAreAnsweredInOrder : xlKind (xlateCore (hostPage base) .read true 0x40) = 0 ∧
    xlKind (xlateCore (hostPage base) .write true 0x40) = 0 ∧
    ((after (exec (.ldPath ⟨pp, .i32, .H, .sys, 3, 0, 0x40⟩) (hostPage base))).th.hreqs.map fun q => (q.load, q.vec)) = [(true, false)] ∧
    ((after (exec (.stPath ⟨pp, .i32, .H, .sys, 3, 0, 0x40⟩) (hostPage base))).th.hreqs.map (·.load)) = [false] ∧
    ((after (exec (.vldPath ⟨pp, .H, .sys, .q 9, 0, 0x40⟩) (hostPage base))).th.hreqs.map fun q => (q.load, q.vec, q.vdst)) =
      [(true, true, .queue 9)] ∧ qRoom base 9 = true ∧
    qTakes base 9 = true ∧ base.mem.isEmpty = false := by decide +kernel

theorem witness_HomeWritesStoreExactlyTheirBytes : base.NoUCopies ∧ (∀ e ∈ ([(64, 5)] : List (Nat × Byte)), e.1 / 64 ≠ 128 / 64) ∧
    base.MemoryCanonical := by unfold State.NoUCopies State.MemoryCanonical; decide +kernel

/-- The oldest C access of the thread set in focus. -/
def pendKind (s : State) : Option (CKind × Bool) := s.th.creqs.head?.map fun q => (q.kind, q.performed)
/-- A command of the first thread set, and the core with it queued. -/
def command (op : MOp) (granted : Bool) : MCmd := ⟨1, 0, op, 0, 4, granted, some 0, none, [], 0, none, none, none, [], []⟩

theorem witness_PendingAccessesArePerformedAndAcknowledged :
    let st := after (exec (.st ⟨pp, .i32, 3, 0, 0x40⟩) base)
    let amo := after (exec (.amoI ⟨pp, .i32, .add, .sys, 0, 0, 3, 0, 0, 0x40⟩) base)
    let cas := after (exec (.cas ⟨pp, .i32, .sys, 0, 0, 3, 0, 0, 0, 0x40⟩) base)
    let cas2 := after (exec (.cas2 ⟨pp, .sys, 0, 0, 4, 0, 0, 0, 0x40⟩) base)
    pendKind st = some (.store, false) ∧ pendKind (after (exec (.homeStore 0) st)) = some (.store, true) ∧
    pendKind amo = some (.amo .i32 .add 0, false) ∧ pendKind (after (exec (.homeStore 0) amo)) = some (.amo .i32 .add 0, true) ∧
    pendKind cas = some (.cas .i32 0 0, false) ∧ pendKind (after (exec (.homeStore 0) cas)) = some (.cas .i32 0 0, true) ∧
    pendKind cas2 = some (.cas2 0 0, false) ∧ pendKind (after (exec (.homeStore 0) cas2)) = some (.cas2 0 0, true) ∧
    (CKind.store).isRead = false ∧ behindCmd base 0 none = false ∧
    (names 0x10 .U = true ∧ base.th.ureqs = []) ∧ names 1 .U = false ∧
    behindCmd (withCore base fun c => { c with mq := [command (.mzero 1) false] }) 0 (some 1) = true ∧
    (let c : L1Copy := ⟨0, 0, 64, 0, 0, 0, 0, 0, false⟩
     amFind [(1, c)] 1 = some c ∧ c.slot = 0) := by decide +kernel

/-- R261: an atomic leaves the sum at home and answers the old value. -/
theorem test_amo_answers_the_old_value : let s := withS [(4, 7)] { base with mem := memSetAll base.mem (atAddr 0x40 (toBytes 4 5)) }
    let t := after (exec (.atomicReply 0) (after (exec (.homeStore 0) (after (exec (.amoI ⟨pp, .i32, .add, .sys, 0, 0, 3, 0, 4, 0x40⟩) s)))))
    Machine.getS t 3 = 5 ∧ ofBytes (homeRead t 0 0 0x40 4).1 = 12 := by decide +kernel

theorem witness_AtomicsLeaveAPendingReadModifyWrite : quietOn base 0x1FF = true ∧
    quietOn (after (exec (.amsg ⟨pp, .sys, .v 1, 0, .v 2, 0, 0x40⟩) base)) 8 = false ∧ base.th.platch = none ∧ base.th.creqs = [] ∧
    (withTh base fun t => { t with platch := some (7, 1) }).th.platch = some (7, 1) ∧ names 0x80 .P = true ∧
    xlKind (xlateCore (mergeAllU base (myClu base)) .write false 0x40) = 0 ∧ inPoolWindow 0x40 = false ∧ inPoolWindow 0xFFFFFF0000000000 = true ∧
    xlKind (xlateCore (fenceEffects base 1 1) .write false 0x40000000) = 1 ∧ vwCmds base = base.core.mnum ∧
    names 0x10 .U = true ∧ names 1 .U = false ∧ base.th.ureqs = [] ∧
    (after (exec (.redI ⟨pp, .i32, .add, .sys, 0, 0, 0, 0, 0x40⟩) base)).th.ureqs ≠ [] ∧ (withC (creq .store false) base).th.creqs ≠ [] ∧
    (let s := withTh (withCore base fun c => { c with mnum := 1 }) fun t => { t with snap := some (base.th.rf, base.core.pool, 0) }
     vwCmds s < s.core.mnum) := by
  decide +kernel

/-- The same with the page of address 0 at another granule, whose home is another cluster. -/
def farPage (s : State) : State :=
  withCore s fun c => { c with tlb := [{ ctx := 0, va := 0, bits := 12, pa := 0x1000000, pte := 0x03800000000000DF }] }

theorem witness_ReductionsFoldAtHomeOrIntoAUCopy :
    (match xlateCore base .red false 0x40 with
      | .ok x u => myClu base == homeOf x.pa && u.clusters.all fun e => e.2.ucopies.isEmpty
      | _ => false) = true ∧
    (match xlateCore (farPage base) .red false 0x40 with
      | .ok x u => myClu base != homeOf x.pa && x.ubit && u.clusters.all fun e => e.2.ucopies.isEmpty
      | _ => false) = true ∧
    (let t := after (exec (.redI ⟨pp, .i32, .add, .sys, 0, 0, 0, 0, 0x40⟩) (farPage base))
     t.th.ureqs = [⟨0x40, false, 0x1000040, 0, true, .i32, .add, 0, none, 0⟩] ∧
     (let u := (evRed 0 0 t).getD base
      (getClu u (myClu u)).ucopies.map (fun e => (e.1, e.2.op, e.2.t)) = [(0x1000040 / 256, .add, .i32)])) := by decide +kernel

theorem witness_ReductionsFoldAtHomeOrIntoAUCopy_home : base.MemoryCanonical ∧ base.NoUCopies ∧ quietOn base 0x1FF = true ∧ base.th.ureqs = [] ∧ base.th.platch = none ∧
    (let q : UReq := ⟨0x40, false, 0x40, 0, true, .i32, .add, 0, none, 0⟩
     q.behind = none ∧ q.acq = 0 ∧ q.stale = false ∧ myClu base = homeOf q.pa ∧ myClu base ≠ homeOf 0x1000040) := by
  unfold State.NoUCopies State.MemoryCanonical; decide +kernel

theorem witness_FencesWaitForTheirBeforeSet : quietOn base 0x1FF = true ∧ base.th.ureqs = [] ∧
    (after (exec (.redI ⟨pp, .i32, .add, .sys, 0, 0, 0, 0, 0x40⟩) base)).th.ureqs ≠ [] ∧
    (let s := withTh base fun t => { t with platch := some (7, 1) }
     s.th.platch = some (7, 1) ∧ quietOn s 0x1FF = true ∧ names 0x80 .P = true) ∧
    quietOn (after (exec (.amsg ⟨pp, .sys, .v 1, 0, .v 2, 0, 0x40⟩) base)) 8 = false ∧ names 0x80 .U = false ∧ names 0x10 .U = true ∧
    base.th.creqs = [] ∧ base.th.hreqs = [] ∧ quietOn base 0b011111100 = true ∧ (creq .store false).kind.isRead = false ∧ Path.X ≠ Path.C := by
  decide +kernel

/-- R290: after a fence from X to C the thread set's timestamp is at or above the time of the X write. -/
theorem test_fence_raises_pts : let s := (homeWrite base 0 0 .X 900 [(0x40, 7)]).2
    let t := after (exec (.fence ⟨pp, .sys, 0x004, 0x001⟩) s)
    timeOn s 0x004 = 900 ∧ t.th.pts = 900 := by decide +kernel

theorem witness_ActiveMessagesArePerformedAtHome :
    let s := withS [(4, 0xFFFF0012)] base
    let t := after (exec (.amsg ⟨pp, .sys, .v 1, 0, .v 2, 4, 0x40⟩) s)
    amsgOk (Machine.getS s 4) = true ∧ amsgOk 0x100 = false ∧ xlKind (xlateCore s .gwrite false 0x40) = 0 ∧
    t.th.amsgs.map (fun q => (q.performed, q.dst)) = [(false, .base 1)] ∧
    (after (exec (.amsgPerform 0) t)).th.amsgs.map (·.performed) = [true] ∧
    (let u := withTh t fun x => { x with amsgs := x.amsgs ++ x.amsgs.map (fun q => { q with pa := 0x140000 }) ++ x.amsgs }
     homeOf 0x140000 ≠ homeOf 0x40 ∧ (after (turnStep (.amsg 0 1) u)).th.amsgs.map (·.performed) = [false, true, false] ∧
     (after (turnStep (.amsg 0 2) u)).th.amsgs.map (·.performed) = [false, false, false]) := by decide +kernel

theorem witness_LineAndTimeEventsKeepTheBytesOfMemory : base.core.ctx.isSome = true ∧ inPoolWindow 0x40 = false ∧
    (match xlateCore base .read false 0x40 with
      | .ok x _ => !x.noL1
      | _ => false) = true ∧ base.th.creqs = [] ∧ (withC (creq (.load .i32) false) base).th.creqs.map (·.va) = [0x40] ∧
    slotValid base 0 = true ∧ liesIn base (getCtx base 0).part 64 = true ∧ bitOf (getLine base 0).valid.toNat 1 = false ∧ lineHere (getLine base 0) = false ∧
    (let s := (evAccess 0 (withC (creq (.load .i32) false) base)).getD base
     missWaits (getClu s (homeOf 64)).miss 0 0 1 = true) ∧ lineHere (getLine (filled base) 0) = true ∧
    (getLine (setLine base 0 { getLine base 0 with buffered := true, dirty := 2 }) 0).buffered = true ∧
    amFind (loadC base ⟨0x40, 0, false, false⟩).2.core.l1 1 ≠ none ∧
    (let t := (evRed 0 0 (after (exec (.redI ⟨pp, .i32, .add, .sys, 0, 0, 0, 0, 0x40⟩) (farPage base)))).getD base
     (amFind (getClu t 0).ucopies (0x1000040 / 256)).isSome = true) ∧ base.cores = [] ∧
    (∀ i < 4, i ≠ base.here % 4 → base.th.pts ≤ (slotOf base.core i).pts) := by decide +kernel

/-- The same with a semaphore of cluster 0 assigned to context 0. -/
def withSem (n : Nat) (v : W32) (s : State) : State := semPut s 0 n 0 v

theorem witness_SemaphoreFormsActOnTheirClustersSemaphore : semOf (withSem 5 9 base) (myClu base) 5 (myCtx base) = some 9 ∧
    semOf base (myClu base) 5 (myCtx base) = none ∧
    (let s := withCore base fun c => { c with ctx := none }
     (getCtx s 0).created = true ∧ mayAssign s (getCtx s 0).part = true ∧ inRect (getPart s (getCtx s 0).part) 0 = true) := by decide +kernel

/-- R279: the sum is clamped to 0 to 2^32 − 1, and the old value is read. -/
theorem test_seminc_clamps : let t := after (exec (.seminc ⟨pp, 3, 4, 5⟩) (withS [(4, 0xFFFFFFF0)] (withSem 5 9 base)))
    Machine.getS t 3 = 9 ∧ semOf t 0 5 0 = some 0 := by decide +kernel


/-- The same with the descriptor registers of copies set. -/
def withShadow (l : List (Fin 9 × W64)) (s : State) : State :=
  withTh s fun t => { t with shadow := l.foldl (fun d e => d.set e.1 e.2) t.shadow }
/-- A copy of four 32-bit elements from 0x40 to 0x80 in memory, in one row of one plane. -/
def memCopy : State := withShadow [(0, 0x40), (1, 0x80), (2, BitVec.ofNat 64 (16 + 2 ^ 24 + 2 ^ 44)), (5, 2)] base
/-- The same after the command has been accepted with status register 1, and after the engine has started it. -/
def accepted : State := after (exec (.cpygo ⟨pp, 2, 1⟩) memCopy)
def started : State := (evCopyStart 0 1 0 [] accepted).getD accepted
/-- The first command of the engine of cluster 0. -/
def cmd0 (s : State) : Copy := (copyOf s 0 1).getD
  { id := 0, g := 0, ctx := 0, gather := false, desc := Vector.replicate 9 0, gran := 0, status := 0, started := false, groups := 0, elems := 0,
    order := [], early := [], stuck := 0, bytes := 0, kidx := [], later := [], denied := 0, deny := none, cause := 0, cancelled := false,
    finished := false, fault := none }

theorem witness_CopyFormsSetShadowsAndAcceptCommands :
    copyDescOk memCopy.th.shadow = true ∧ copyMisaligned memCopy.th.shadow = none ∧ totalElems memCopy.th.shadow = 4 ∧
    srcKind memCopy.th.shadow = 0 ∧ dstKind memCopy.th.shadow = 0 ∧ (getClu memCopy 0).cq = [] ∧ copyDescOk base.th.shadow = true ∧
    (copyOf accepted 0 1).isSome = true ∧ bitOf accepted.th.busy.toNat 1 = true ∧ copyOf base 0 1 = none ∧
    gathDescOk (Vector.replicate 9 0) = true ∧ gathN (Vector.replicate 9 0) = 0 := by decide +kernel

/-- The same with the page of address 0 in the translations of cluster 0's engine. -/
def engPage (s : State) : State :=
  onClu s 0 fun c => { c with tlb := [{ ctx := 0, va := 0, bits := 12, pa := 0, pte := 0x03800000000000DF }] }
/-- Sixteen bytes stand at 0x40. -/
def source (s : State) : State := { s with mem := memSetAll s.mem (atAddr 0x40 (toBytes 16 0x00000004000000030000000200000001)) }

theorem witness_TheCopyEngineMovesAndCompletesCommands : (copyOf accepted 0 1).isSome = true ∧ engineRuns accepted 0 = true ∧
    (bestOf ((getClu accepted 0).cq.filter fun e => mayStart (getClu accepted 0).cq e && engineRuns accepted e.ctx)).map (·.id) = some 1 ∧
    (cmd0 accepted).started = false ∧ dstKind (cmd0 accepted).desc = 0 ∧ (cmd0 started).started = true ∧ isMC (cmd0 started).desc = false ∧
    redOp (cmd0 started).desc = none ∧ eszOf (cmd0 started).desc = 4 ∧ plainCopy (cmd0 started) = true ∧ (cmd0 started).later = [] ∧
    xlKind (xlateEngine (engPage started) 0 0 .read 0x40) = 0 ∧ xlKind (xlateEngine (engPage started) 0 0 .xwrite 0x80) = 0 ∧
    xlKind (xlateEngine started 0 0 .read 0x40000000) = 1 ∧
    (let s := withSem 5 9 started
     let c := { cmd0 started with groups := 4 }
     groupStart c c.groups = cmdTotal c ∧ semOfCopy c = none ∧ evOfCopy c = none ∧ semOf s 0 5 0 = some 9 ∧
     semOfCopy { c with desc := c.desc.set 5 0xB0000 } = some 5 ∧ ctlOf (c.desc.set 5 0xB0000) 15 1 = 0 ∧
     evOfCopy { c with desc := c.desc.set 5 (BitVec.ofNat 64 (2 ^ 29 + 7 * 2 ^ 30)) } = some 7) := by decide +kernel

theorem witness_TheCopyEngineMovesAndCompletesCommands_memory : (engPage started).MemoryCanonical ∧ (engPage started).NoUCopies ∧
    (match xlateEngine (engPage started) 0 0 .read 0x40 with
      | .ok y v => xlKind (xlateEngine (homeSeen (homeRead v 0 y.slot y.pa 4).2 .X y.pa) 0 0 .xwrite 0x80) == 0
      | _ => false) = true ∧
    xlKind (xlateEngine (poolRead (engPage started) 0 .X) 0 0 .xwrite 0x80) = 0 := by
  unfold State.NoUCopies State.MemoryCanonical; decide +kernel

/-- R274: the four words of the row stand at the destination, and R275: the status word has DONE and 16 bytes. -/
theorem test_copy_moves_its_row : (let t := (evCopyComplete 0 1 (engPage (source started))).getD base
    (List.range 4).map (fun i => ofBytes (homeRead t 0 0 (0x80 + 4 * i) 4).1) = [1, 2, 3, 4] ∧ Machine.getS t 1 = 0x8000000000000010) := by
  decide +kernel

/-- The same with R300's address word for core 1 of the cluster of column 1, row 0, and a write to the pool of core 0 of cluster 0. -/
def toCore : State := withS [(2, 0x0001000100010080)] base
def pdst : PDst := ⟨0, 0, 7, none, false⟩
def packet (isSend : Bool) : Packet := ⟨1, 1, 0, 0, 3, isSend, false, 0x10080, 7, [pdst], 0, 1, [], false, 0⟩
def withPacket (p : Packet) (s : State) : State := { s with packets := [p], pktNum := 2 }

theorem witness_PWritesAreCheckedAndSent : pawReserved (Machine.getS toCore 2) = false ∧ pawOnMesh (Machine.getS toCore 2) = true ∧
    inRect (getPart toCore (myPart toCore)) (pawCluster (Machine.getS toCore 2)) = true ∧ unacked toCore toCore.here = 0 ∧
    heldByMove toCore (aimAt toCore 3 0x10080 false (Machine.getS toCore 2) 1) = false ∧ pawReserved 0x8000000000000000 = true ∧
    pawOnMesh 0x0000001F00000000 = false ∧ multiOf 3 3 ≠ [] ∧
    (∀ k ∈ multiOf 3 3, inRect (getPart base 0) k = true ∧ heldByMove base (aimAt base 3 0x80 false 0x80 k) = false) ∧
    inRect (getPart (onPart base 0 fun p => { p with c1 := 0 }) 0) 1 = false ∧ fieldOf (0x80 : W64) 0 20 % 64 = 0 ∧
    (let i : Inst := ⟨1, 1, 5⟩
     let d : PDst := ⟨0, 0, 7, some i, true⟩
     heldByMove (withPacket { packet false with dsts := [d] } base) { d with old := false } = true) := by decide +kernel

/-- An instance that core 0 does not host any more; core 8 does. -/
def gone : Inst := ⟨1, 1, 5⟩
def movedTo8 (s : State) : State :=
  setCore s 8 { s.core with resid := [⟨5, 1, 1, 0, 8, 0x10000, 0x4000, 0, false, []⟩] }

theorem witness_PacketsHopAreDeliveredAndAcknowledged :
    let s := after (exec (.rst ⟨pp, .v 1, 2, false, 0, 3, 0⟩) toCore)
    let q := fun sd => withPacket (packet sd) base
    let onLink := { packet false with pos := linkAt 0 1, dsts := [{ pdst with core := 9 }] }
    bufferOf (withPacket onLink base) (linkAt 0 1) 3 = [onLink] ∧ routeHeld (withPacket onLink base) onLink = false ∧
    neighbourOf 0 1 = some 1 ∧ s.packets.length = 1 ∧ (grantPick s 0 1).map (·.core) = some 9 ∧ grantsAt s 0 1 = 0 ∧
    (agingPick s 0 1).map (·.core) = some 9 ∧ packetAt (q false) 1 = some (packet false) ∧ arrivedAt (q false) (packet false) = some pdst ∧
    mustForward (q false) (packet false) pdst = false ∧ base.core.ctx = some 0 ∧ inScratch base.core 0x10080 64 = true ∧ base.core.resid = [] ∧
    arrivedAt (q true) (packet true) = some pdst ∧ bindOf base.core 3 = none ∧
    (let t := after (exec (.qbind ⟨pp, 2, 3, false⟩) (q true))
     bindOf t.core 3 = some (2, false) ∧ roomAt t 0 2 = true ∧ arrivedAt t (packet true) = some pdst ∧
     heldThere (after (exec (.cmask ⟨pp, 3⟩) t)) (packet true) pdst = true) ∧
    (let d := { pdst with inst := some gone }
     let r := { packet true with dsts := [d] }
     let u := movedTo8 (withPacket r (withCore base fun c => { c with fwd := [(fwdKey 0 gone, 8, 2)] }))
     arrivedAt u r = some d ∧ mustForward u r d = true ∧ forwardTo u 0 0 gone 0 = 8 ∧
     forwardTo (withCore base fun c => { c with pcache := [(instKey gone, 9)] }) 0 0 gone 0 = 9) := by decide +kernel

/-- A resident of class 3 whose activation may run in the first core. -/
def resident : Resident := ⟨5, 1, 1, 0, 8, 0x10000, 0x4000, 0, false, []⟩
/-- The first thread set runs the activation of the resident for a message of class 3, or is idle with that message waiting. -/
def activation : State :=
  withTh (withCore base fun c => { c with resid := [resident], binds := c.binds.set 2 ⟨3, true, false⟩ }) fun t =>
    { t with st := .activation, act := some ⟨5, 0, 1, 3, some 7⟩ }
def waitingMsg : State := withTh (withCore activation fun c => qSet c 2 [7]) fun t => { t with st := .idle, act := none }

theorem witness_QueueRegisterAndResidentFormsFollowTheBinding : bindOf base.core 3 = none ∧ bindOf activation.core 3 = some (2, false) ∧
    qLen base.core 1 = 0 ∧ qLen (fullQ 1 base).core 1 = 8 ∧ reservedIn base 1 = false ∧ activation.th.act.isSome = true ∧
    (activation.core.resid.any fun r => r.lid == 1 && r.inst == 5) = true ∧ base.th.act = none := by decide +kernel

theorem witness_EndWaitsAndLetsTheWorkGo : allDone base = true ∧ base.th.busy = 0 ∧ base.th.platch = none ∧ base.th.mlatch = none ∧
    base.th.hit = none ∧ base.th.st = .task ∧ recJoin base.th.task = 0 ∧ recLU base.th.task = false ∧ allDone (withPacket (packet false) base) = false ∧
    (withTh base fun t => { t with hit := some (0, 3) }).th.hit.isSome = true ∧
    recJoin (mkRec 0 0 0x40 0 false 0 false false 0) = 0x40 ∧ recLU (mkRec 0 0 0 9 true 0 false false 1) = true ∧
    xlKind (xlateCore (release base) .write false 0x40) = 0 ∧ haltReady base = true ∧
    haltReady (withC (creq .store false) base) = false ∧ actQueue activation.core ⟨5, 0, 1, 3, some 7⟩ = some 2 ∧
    activation.th.act = some ⟨5, 0, 1, 3, some 7⟩ ∧ actQueue (withCore activation fun c => { c with binds := base.core.binds }).core ⟨5, 0, 1, 3, some 7⟩ = none := by
  decide +kernel

/-- The first cluster holds an empty ring set for context 0. -/
def noRings : RingSet := ⟨Vector.replicate 8 [], Vector.replicate 8 []⟩
def withRings (k : Nat) (x : RingSet) (s : State) : State := onClu s k fun c => { c with rings := [(0, x)] }
/-- A record with priority `p` at code address 0. -/
def recP (p : Nat) : Rec := mkRec 0 0 0 0 false p false false 0

theorem witness_SpawnsPushTheirRecordAndJoinsCount :
    let s := withV 1 ((List.range 8).map fun i => (recP 3).toNat / 2 ^ (32 * i) % 2 ^ 32) (withRings 0 noRings base)
    BitVec.ofNat 256 (peekV s (.v 1)).toNat = recP 3 ∧ recField (recP 3) 241 7 = 0 ∧ recField (recP 3) 228 1 = 0 ∧ recAmode (recP 3) ≠ 3 ∧
    recHit (recP 3) = false ∧ recLU (recP 3) = false ∧ recAmode (recP 3) ≠ 1 ∧ allDone s = true ∧
    (pushRec (release s) (pushTarget (release s) 0 0 (recFor (recP 3) (myLid s))) 0 (recFor (recP 3) (myLid s))).isSome = true ∧
    ringSetOf s 0 0 = some noRings ∧ (getCtx s 0).ovft = 0 ∧ (ringOf noRings 3).length < 256 ∧
    256 ≤ (ringOf (setRing noRings 3 (List.replicate 256 (0, 0))) 3).length ∧ xlKind (xlateCore s .write false 0x40) = 0 ∧ s.th.creqs = [] := by
  decide +kernel

theorem witness_SpawnsPushTheirRecordAndJoinsCount_join :
    let t := after (exec (.join ⟨pp, 3, 2, 4⟩) (withS [(2, 0x40), (4, 0xFFFFFFFFFFFFFFFF)] base))
    t.th.creqs.map (fun q => (q.kind, q.pool, q.stale, q.performed, q.behind)) = [(.join 0xFFFFFFFFFFFFFFFF 0, false, false, false, none)] ∧
    (withS [(2, 0x41)] base).th.rf.s[(2 : Fin 32)].toNat % 64 ≠ 0 ∧ xlKind (xlateCore base .write false 0x40) = 0 ∧
    xlKind (xlateCore base .write false 0x40000000) = 1 := by decide +kernel

/-- A launch block of `n` units with code address 0, CORES 1 and CLUST 1. -/
def blockOf (n : Nat) : BitVec 2048 := BitVec.ofNat 2048 (n * 2 ^ (8 * 24) + 2 ^ (8 * 40) + 2 ^ (8 * 41) + 32 * 2 ^ (8 * 42) + 2 ^ (8 * 44) + 0x2C04 * 2 ^ (8 * 48) + 2 ^ (8 * 160))
/-- A live launch of four units. -/
def live4 : Launch := { Launch.init with live := true, gen := 1, block := blockOf 4 }
def withLaunch (l : Launch) (s : State) : State := onCtx s 0 fun c => { c with launches := [(1, l)] }

theorem witness_EventAndLaunchFormsReportAndCancel : allDone base = true ∧ bitOf (getCtx base 0).events.toNat 7 = false ∧
    bitOf (getCtx (onCtx base 0 fun c => { c with events := 0x80 }) 0).events.toNat 7 = true ∧ freeLid base 0 = some 1 ∧
    okE (loadBlock 0x40 base) = true ∧ okE (loadBlock 0x40000000 base) = false ∧
    aboveCancelled (openLevels base 0 1 live4) 0 live4 = false ∧ base.th.creqs = [] ∧ (checkLaunch base 0 0 { Launch.init with gen := 1, block := 0 }).1 ≠ 0 ∧
    (checkLaunch base 0 0 { Launch.init with gen := 1, block := blockOf 4 }).1 = 0 ∧
    identOk 0xFFFFFFFFFFFFFFFF = false ∧ identOk 0x10001 = true ∧ fieldOf (0x0300000000000007 : W64) 56 2 = 3 ∧
    identOk 0x0300000000000007 = true ∧ fieldOf (0x0300000000000007 : W64) 0 16 ≠ myJob base ∧ beneath 0x10001 1 live4 = true := by decide +kernel

/-- The first thread set of the first core is idle, the core's cluster holds a ring with one record of priority 3, pushed first. -/
def oneTask : State :=
  withRings 0 (setRing noRings 3 [(0, recP 3)]) (withTh base fun t => { t with st := .idle })

theorem witness_WorkStartsFromPopsAndMessages : (ringSetOf oneTask 0 0).isSome = true ∧ ringOf (setRing noRings 3 [(0, recP 3)]) 3 = [(0, recP 3)] ∧
    takesWork oneTask 0 = some 0 ∧ idleSet oneTask 0 = true ∧ nextActivation oneTask 0 = none ∧ mayPop oneTask 0 0 = true ∧ agingDue oneTask 0 = false ∧
    ((popRec oneTask 0 0 false).map (·.1)) = some (recP 3) ∧ recHit (recP 3) = false ∧
    (let s := onCtx waitingMsg 0 fun c => { c with classes := [(3, 0x8000000000000000)] }
     idleSet s 0 = true ∧ takesWork s 0 ≠ none ∧ classHandler (classOf s 0 3) = 0x8000000000000000 ∧ nextActivation s 0 = some (resident, 3)) := by
  decide +kernel

/-- Twenty records of priority 3 stand in the ring of a neighbour. -/
def twenty : RingSet := setRing noRings 3 ((List.range 20).map fun i => (i, recP 3))
def poor : State := withRings 1 twenty (withRings 0 noRings (withTh base fun t => { t with st := .idle }))

theorem witness_RingsRefillContinueAndAreStolenFrom : ringSetOf poor 0 0 = some noRings ∧ takesWork poor 0 = some 0 ∧ idleSet poor 0 = true ∧
    (∀ p < 8, ringOf noRings p = [] ∧ chainHolds poor 0 0 p = false) ∧ stealFrom poor 0 0 = some (1, 1) ∧ ringSetOf poor 1 0 = some twenty ∧
    (let s := withRings 0 noRings (onCtx base 0 fun c => { c with conts := [⟨recP 3, 0, some 7⟩] })
     (getCtx s 0).conts = [⟨recP 3, 0, some 7⟩] ∧ (pushRec s (pushTarget s 0 0 (recP 3)) 0 (recP 3)).isSome = true) := by decide +kernel

/-- An overflow table at 0x800 whose chain of priority 3 has one segment at 0x400 with one record. -/
theorem witness_RingsRefillContinueAndAreStolenFrom_chain :
    let s := withRings 0 noRings (onCtx (engPage base) 0 fun c => { c with ovft := 0x800 })
    let s := { s with mem := memSetAll s.mem (atAddr 0x818 (toBytes 8 0x400) ++ atAddr 0x400 (toBytes 8 1) ++ atAddr 0x410 (toBytes 8 1) ++
      atAddr 0x440 (toBytes 32 (recP 3).toNat)) }
    (ringOf noRings 3).length < 256 ∧ ringSetOf s 0 0 = some noRings ∧
    (chainOf s 0 0 3).find? (fun a => segCnt s 0 0 a != 0) = some 0x400 ∧
    ((match ctxRead s 0 0 (0x400 + 64 + 32 * segHead s 0 0 0x400) 32 with
      | .ok r => r.1
      | .error _ => 0) = (recP 3).toNat) := by decide +kernel

theorem witness_LaunchesAreAdmittedBoundDispatchedAndReportedInOrder :
    let s := withLaunch live4 base
    let a := withLaunch { live4 with admitted := true } (withRings 0 noRings base)
    let free := withLaunch { live4 with admitted := true } (withTh (withCore base fun c => { c with ctx := none }) fun t => { t with st := .idle })
    let r := withLaunch { live4 with admitted := true, recs := [(0, 0, 5)], next := 1 } base
    (getLaunch s 0 1).live = true ∧ (getCtx s 0).draining = false ∧ lpbUnits live4 = 4 ∧ lpbF live4 96 32 = 0 ∧
    boundFor a 0 (getLaunch a 0 1) 5 = false ∧ base.core.held = false ∧ castling base 0 = false ∧ (getLaunch s 0 1).tail = none ∧
    0 ∈ namedCores live4 ∧ bindable free 0 (getLaunch free 0 1) 0 = true ∧ boundFor a 0 (getLaunch a 0 1) 0 = true ∧ lpbClusters live4 = [0] ∧
    0 ∈ lpbCores live4 ∧ (pushRec a 0 0 (unitRec live4 1 0)).isSome = true ∧ okE (readyJoin a 0 0 1 0 (getLaunch a 0 1)) = true ∧
    (getLaunch r 0 1).recs.find? (fun x => x.1 == (getLaunch r 0 1).head) = some ((getLaunch r 0 1).head, 0, 5) ∧
    (let u := withTh base fun t => { t with st := .idle }
     (∀ i < 4, idleSet u i = true) ∧ u.core.resid = [] ∧ u.core.mq = [] ∧ holdsRecords u 0 0 = false) ∧
    (getLaunch (withLaunch { live4 with complete := true, residReleased := false, rtab := [0] } base) 0 1).complete = true := by decide +kernel

theorem witness_VectorIntegerFormsActPerElement : anyOn (predVal base pp) 8 = true ∧ anyOn (predVal base ⟨1, false⟩) 8 = false ∧
    queuesReady base [.v 1, .v 2] (some (.v 3)) = true ∧ queuesReady base [.q 2] (some (.v 3)) = false ∧ vopOk base (.v 1) = true ∧
    vopOk (withX 0 300 base) (.x 0 0) = false := by decide +kernel

/-- R75 and R137: the absolute value of −128 wraps, and saturates to 127; the negation of an unsigned value saturates to 0. -/
theorem test_vabs_vneg_wrap_and_saturate : let s := withV 2 [0x80] base
    let run := fun i => (after (exec i s)).th.rf.v[(1 : Fin 32)].toNat % 2 ^ 16
    run (.vabsI ⟨pp, .i8, .rne, false, .v 1, .v 2⟩) = 0x80 ∧ run (.vabsI ⟨pp, .i8, .rne, true, .v 1, .v 2⟩) = 0x7F ∧
    run (.vnegI ⟨pp, .n16, .rne, true, .v 1, .v 2⟩) = 0 ∧ run (.vnegI ⟨pp, .i16, .rne, false, .v 1, .v 2⟩) = 0xFF80 := by decide +kernel

/-- R112: an index wraps below its modulus, and without one goes below zero. -/
theorem test_xadd_wraps : let s := withX 1 7 base
    ((after (exec (.xadd ⟨pp, 1, 1, 1, 8⟩) s)).th.rf.x[(1 : Fin 8)] = 0) ∧
    ((after (exec (.xadd ⟨pp, 1, 2, 0xFFFF, 0⟩) s)).th.rf.x[(1 : Fin 8)] = 0xFFFFFFFF) := by decide +kernel

theorem witness_VectorFloatingFormsRoundOncePerElement : (fdec .f32 .ieee 0x7FC00000).isNan = true ∧ (fdec .f32 .ieee 0x3F800000).isNan = false ∧
    fdec .f32 .ieee 0x3F800000 = .fin false (2 ^ 23) (-23) ∧ fdec .f32 .ieee 0xBF800000 = .fin true (2 ^ 23) (-23) ∧
    (∃ e, fdec .f32 .ieee 0 = .fin false 0 e) ∧ fdec .f32 .ieee 0x7F800000 = .inf false ∧ vopOk base (.v 1) = true := by
  refine ⟨by decide +kernel, by decide +kernel, by decide +kernel, by decide +kernel, ⟨_, rfl⟩, by decide +kernel, by decide +kernel⟩

/-- R138: (1 + 2^−23)(1 − 2^−23) − 1 = −2^−46, which no rounding of the product alone would leave. -/
theorem test_vfma_rounds_once : let s := withV 4 [0xBF800000] (withV 3 [0x3F7FFFFE] (withV 2 [0x3F800001] base))
    (after (exec (.vfma ⟨pp, .f32, .rne, false, .v 1, .v 2, .v 3, .v 4⟩) s)).th.rf.v[(1 : Fin 32)].toNat % 2 ^ 32 = 0xA8800000 := by decide +kernel

theorem witness_ComparesSelectsAndConversionsActPerElement : anyOn (predVal base pp) 32 = true ∧ queuesReady base [.v 1, .v 2] none = true ∧
    queuesReady base [.q 1, .v 2] none = false ∧ (vopOk base (.v 1) && vopOk base (.v 2)) = true ∧ (vopOk (withX 0 300 base) (.x 0 0) && true) = false := by
  decide +kernel

/-- The table of 470.0 to E4M3 (R93): code and conditions of each reading and rounding, OF as bit 2 and NX as bit 4. -/
theorem test_convert_470_to_e4m3 : let c := fun rnd sat rd => convertElem .e4m3 .f32 rnd sat rd 0x43EB0000
    c .rne false .fin = (0x7F, flagNX) ∧ c .rne false .nan = (0x7F, flagOF + flagNX) ∧ c .rne true .nan = (0x7E, flagOF + flagNX) ∧
    c .rne false .ieee = (0x78, flagOF + flagNX) ∧ c .rne true .ieee = (0x77, flagOF + flagNX) ∧ c .rtz false .fin = (0x7E, flagNX) ∧
    c .rtz false .ieee = (0x77, flagOF + flagNX) := by decide +kernel

theorem witness_ElementMovesPlaceTheirElements : pred0 base pp = true ∧ anyOn (predVal base pp) 64 = true ∧
    elemOn (predVal base pp) 32 3 = true ∧ elemOn (predVal (withRf base fun r => { r with p := r.p.set 1 1 }) ⟨1, false⟩) 32 3 = false ∧
    anyOn (predVal (withRf base fun r => { r with p := r.p.set 1 1 }) ⟨1, false⟩) 32 = true ∧ queuesReady base [.v 1] (some (.v 2)) = true := by decide +kernel

/-- The sixteen values of the program possum, and its predicate 0x5AAD. -/
def possum : State := withRf (withV 1 [0x3FC00000, 0xC0000000, 0x3E800000, 0x40400000, 0xBF800000, 0x3F000000, 0, 0x40800000, 0xBF000000, 0x40000000,
    0xC0400000, 0x3F800000, 0x3F400000, 0xC0800000, 0x41000000, 0xBE800000] base) fun r => { r with p := r.p.set 1 0x5AAD }

/-- Lines 11 to 13 of possum: the comparison, the tree of R95 over the positive lanes, and the scan of R96. -/
theorem test_possum_compares_reduces_and_scans :
    (after (exec (.vcmpF ⟨pp, .f32, .gt, 1, .v 1, .v 2⟩) possum)).th.rf.p[(1 : Fin 8)] = 0x5AAD ∧
    Machine.getS (after (exec (.vredaddF ⟨⟨1, false⟩, .f32, .rne, .s 3, .v 1⟩) possum)) 3 = 0x41A80000 ∧
    (let v := (after (exec (.vscanF ⟨⟨1, false⟩, .f32, .add, .rne, .v 3, .v 1⟩) possum)).th.rf.v[(3 : Fin 32)]
     [0, 2, 3, 5, 7, 9, 11, 12, 14].map (elem 32 v) = [0x3FC00000, 0x3FE00000, 0x40980000, 0x40A80000, 0x41140000, 0x41340000, 0x41440000, 0x41500000,
       0x41A80000] ∧ [1, 4, 6, 8, 10, 13, 15].map (elem 32 v) = [0, 0, 0, 0, 0, 0, 0]) := by decide +kernel

/-- The example of R95: three addends of 2^−24 give 1 + 2^−23 by the tree. -/
theorem test_pairwise_sum : let s := withV 1 [0x3F800000, 0x33800000, 0x33800000, 0x33800000] base
    Machine.getS (after (exec (.vredaddF ⟨pp, .f32, .rne, .s 3, .v 1⟩) s)) 3 = 0x3F800001 := by decide +kernel

theorem witness_ReductionsAndScansFollowTheFixedTree : anyOn (predVal possum ⟨1, false⟩) 32 = true ∧ anyOn (predVal base ⟨1, false⟩) 32 = false ∧
    queuesReady possum [.v 1] none = true ∧ vopOk possum (.v 1) = true ∧ (Ty.f32).isInt = false ∧ (Ty.n32).isInt = true := by decide +kernel

theorem witness_ReservoirsUpdateMergeAndAnswer : laneOn (predVal base pp) 0 = true ∧ laneOn (predVal base ⟨1, false⟩) 0 = false ∧
    queuesReady base [.v 1] (some (.v 2)) = true ∧ noWeight 0x3F800000 = false ∧ noWeight 0 = true := by decide +kernel

/-- The example of R238: WSUM 10.0 and M 19, a candidate of weight 0 and cap 16 give WSUM 8.0 and M 16. -/
theorem test_rsvupd_caps : let s := withS [(6, 16)] (withV 5 [9, 0] (withV 4 [3, 0x41200000, 0x40000000, 19] base))
    let v := (after (exec (.rsvupd ⟨pp, .v 4, .v 5, .s 6⟩) s)).th.rf.v[(4 : Fin 32)]
    (List.range 4).map (elem 32 v) = [3, 0x41000000, 0x40000000, 16] := by decide +kernel

/-- The row and column of the example of R98 to R100: E4M3 codes 0x44, 0x19 by 0x3C, 0x52, added to 1.0. -/
theorem test_matrix_row_meets_column :
    let dec := fun c => fdec .e4m3 .fin c
    let tile := buildB .e4m3 (([0x3C, 0x52] ++ List.replicate 62 0).map fun c => List.replicate 64 (dec c))
    ((mulRow 7 tile (([0x44, 0x19] ++ List.replicate 62 0).map dec)).getD 0 0) = 0x40A40000 ∧ addW 0x3F800000 0x40A40000 = 0x40C40000 := by
  decide +kernel

/-- The triangles of the shared edge (R205): T1 is hit at t = 1, T2 is missed. -/
theorem test_shared_edge_is_hit_once :
    let p := fun (x y z : Int) => [x, y, z].map fun k => FV.fin (decide (k < 0)) k.natAbs 0
    triTest .f32 (p 0 0 (-1)) (p 0 0 1) [p 0 (-1) 0, p 0 1 0, p (-1) 0 0] 0 0x42C80000 = some 0x3F800000 ∧
    triTest .f32 (p 0 0 (-1)) (p 0 0 1) [p 0 1 0, p 0 (-1) 0, p 1 0 0] 0 0x42C80000 = none := by decide +kernel

/-- The six answers of the program fiveans, on a list with K = 4 and ivstop 2.0. -/
def fiveAnswers : List Answer := [mkAnswer 0x40000000 0x40C00000 0x3E800000 0 1 11 204 0, mkAnswer 0x40800000 0x40800000 0x3F000000 0 0 22 255 0,
  mkAnswer 0x40E00000 0x40E00000 0x3E800000 0x3F000000 4 33 230 0, mkAnswer 0x41000000 0x41100000 0x3ECCCCCD 0x3E800000 3 44 51 0,
  mkAnswer 0x41200000 0x41300000 0x3F000000 0 3 45 128 0, mkAnswer 0x40800000 0x40800000 0x3F000000 0 0 22 255 0]
def fiveRay : Ray := fiveAnswers.foldl (fun r a => (arrive r a).1)
  { Ray.init with ivstop := 0x40000000, d0 := BitVec.ofNat 512 (joinDigits 32 [0, 0, 0, 0, 0, 0x3F800000, 0, 0x42C80000]) }

theorem test_five_answers : fiveRay.front = 0x41089D8A ∧ fiveRay.opq = true ∧ fiveRay.merges = 1 ∧ fiveRay.late = 1 ∧ fiveRay.dup = 1 ∧
    fiveRay.arrivals = 6 ∧ fiveRay.recs.map (fun a => (List.range 6).map fun i => a.toNat / 2 ^ (32 * i) % 2 ^ 32) =
    [[0x40000000, 0x40800000, 0x3E800000, 0, 0x2000000B, 0x1CC], [0x40800000, 0x40800000, 0x3F000000, 0, 0x16, 0x100FF],
     [0x40800000, 0x40C00000, 0x3E800000, 0, 0x2000000B, 0x1CC], [0x40E00000, 0x41089D8A, 0x3EA66666, 0x3EC00000, 0xC000002C, 0x30C33]] := by
  decide +kernel

/-- 1.5 and −2 in FP32 are the reals they say, and neither their sum nor their product is 0. -/
theorem witness_FloatingOperationsRoundTheExactValueOnce : (fdec .f32 .ieee 0x3FC00000).Is (3 / 2) ∧ (fdec .f32 .ieee 0xC0000000).Is (-2) ∧
    (fdec .f32 .ieee 0).Is 0 ∧ fdec .f32 .ieee 0x7F800000 = .inf false ∧ (3 / 2 : ℝ) + -2 ≠ 0 ∧ (3 / 2 : ℝ) * -2 ≠ 0 ∧
    (-2 : ℝ) = ((-2 : Int) : ℝ) ∧ (-2 : Int).natAbs ≤ 8192 := by
  have h1 : fdec .f32 .ieee 0x3FC00000 = .fin false 12582912 (-23) := by decide +kernel
  have h2 : fdec .f32 .ieee 0xC0000000 = .fin true 8388608 (-22) := by decide +kernel
  have h3 : fdec .f32 .ieee 0 = .fin false 0 (-149) := by decide +kernel
  rw [h1, h2, h3]
  refine ⟨?_, ?_, ?_, by decide +kernel, by norm_num, by norm_num, by norm_num, by decide⟩ <;> norm_num [FV.Is, zpow_neg]

theorem witness_ConversionsRoundOnceIntoTheirDestination : (fdec .e4m3 .fin 0x40).Is 2 ∧ (0x40 : Nat) < 2 ^ Ty.e4m3.w ∧ Ty.f32.isF = true ∧
    Ty.e4m3.isNarrow = true ∧ intVal .i8 0xFF = -1 ∧ Ty.i8.isInt = true ∧ fdec .f32 .ieee 0xFF800000 = .inf true ∧
    fdec .f32 .ieee 0x7F800001 = .nan true ∧ (fmtOf .e2m1 .fin).nanCode = none ∧ (fmtOf .e4m3 .fin).infCode = none ∧
    (fmtOf .e5m2 .ieee).infCode.isSome = true := by
  have h : fdec .e4m3 .fin 0x40 = .fin false 8 (-2) := by decide +kernel
  rw [h]
  refine ⟨by norm_num [FV.Is, zpow_neg], ?_⟩
  decide +kernel

/-- A row of 64 codes of the value 2 in E4M3 is finite, and a tile of them has no marked column. -/
theorem witness_MatrixProductsRoundTheExactSumOnce : ∃ xs : List ℝ,
    List.Forall₂ FV.Is ((List.replicate 64 (0x40 : Nat)).map (fdec .e4m3 .fin)) xs ∧ (List.replicate 64 ([] : List FV)).length = 64 ∧
    (FV.inf false).wild = true ∧ bitOf (buildB .e4m3 (List.replicate 64 (List.replicate 64 (.fin false 8 (-2))))).marks.toNat 3 = false := by
  have h : fdec .e4m3 .fin 0x40 = .fin false 8 (-2) := by decide +kernel
  refine ⟨List.replicate 64 2, ?_, by decide, by decide, by decide +kernel⟩
  rw [List.map_replicate, h]
  have one : FV.Is (.fin false 8 (-2)) 2 := by norm_num [FV.Is, zpow_neg]
  generalize 64 = n
  induction n with
  | zero => exact .nil
  | succ k ih => rw [List.replicate_succ, List.replicate_succ]; exact .cons one ih

theorem witness_MatrixFormsJoinTheQueueOrTrap : pred0 base pp = true ∧ base.core.mq = [] ∧ base.th.mlatch = none ∧ matrixOf base base.here = [] ∧
    okE (locE base .f32 ⟨false, 0x40, 0x100⟩) = true ∧ okE (locE base .f32 ⟨false, 0x41, 0x100⟩) = false ∧ base.th.shapes[(1 : Fin 8)] = .zero ∧
    base.core.mtrack[(1 : Fin 8)] = .empty ∧ rankOk (.factor 40) (.factor 40) 64 = false ∧ rankOk .zero (.factor 1) 64 = true ∧
    vopOk base (.v 1) = true ∧ okE (colE base (.v 4)) = true ∧ accGran base.core = 0 ∧
    (let s := after (exec (.mfac ⟨pp, 0, 1, .v 4, .v 8⟩) (withCore base fun c => { c with pword := 0x011B04 }))
     s.core.mq.length = 1 ∧ s.th.shapes[(1 : Fin 8)] = .factor 1 ∧ matrixOf s s.here ≠ []) ∧
    (let s := after (exec (.mbld8 ⟨pp, .e4m3, .fin, 0, 2, false, 0, 0, 0⟩) base)
     s.core.mtrack[(2 : Fin 8)] = .single) ∧ (recWordOk 0 = false ∨ recWordOk 0 = true) := by decide +kernel

/-- The first core's queue holds a command that does `op`. -/
def withCmd (op : MOp) (granted : Bool) (s : State) : State := withCore s fun c => { c with mq := [command op granted] }

theorem witness_TheMatrixUnitGrantsRunsAndMigrates :
    let g := withCmd (.mzero 1) false base
    ((getCore g 0).mq.find? (fun e => !e.granted)).isSome = true ∧ (getClu g 0).mxCore = 0 ∧ (getClu g 0).mxGrants < 4 ∧
    engineRuns g (ctxOfCore g 0) = true ∧
    ((getCore (withCmd (.mzero 1) true base) 0).mq.map (·.granted)) = [true] ∧
    badMacro base.core 2 = some 2 ∧
    badMacro (withCore base fun c => { c with macros := c.macros.set 2 (.loaded 0 [] [] 7 false) }).core 2 = none ∧
    (4096 : Nat) ≤ ((5000 : W64) - 0).toNat ∧ neighbourOf 0 1 = some 1 ∧
    inRect (getPart base (getCtx base (ctxOfCore base 0)).part) 1 = true ∧ unitIdle base 1 false = true ∧ neighbourOf 0 0 = none ∧
    (command (.mprom 1 2) true).gran < 6 ∧ (denseOf .zero).length = 64 ∧ (command (.mprom 1 2) true).prior = none ∧
    (command (.mprom 1 2) true).part = [] ∧ (command (.mprom 1 2) true).ts < 4 ∧
    (let g := onClu (withCore base fun c => { c with mq := [{ command (.mmul false .e4m3 .fin 0 (some 1) ⟨false, 0, 0⟩ (some 0x100) 2) true with migrated := some 0 }] })
       0 fun c => { c with migrated := some 0 }
     (getCore g 0).macros[(2 : Fin 8)] = .empty ∧ (getClu g (cluOf 0)).migrated = some 0 ∧
       (getCore g 0).mq.map (fun e => (e.granted, e.migrated)) = [(true, some 0)]) ∧
    stagesIn (command (.mmul false .e4m3 .fin 0 (some 1) ⟨false, 0, 0⟩ (some 0x100) 2) true) 2 = true := by
  decide +kernel

/-- A ray slot of cluster 0 with an open ray of context 0, and its handle. -/
def openRay : Ray := { Ray.init with gen := 1, st := .open_, ivstop := 0x3F800000, d0 := fiveRay.d0 }
def withRay (r : Ray) (s : State) : State := onClu s 0 fun c => { c with rays := [(3, r)] }
def rayHandle (r : Ray) : W64 := handleOf 0 3 r

theorem witness_RayFormsOpenTraceWaitAndRead :
    let s := withRay openRay base
    let d := withRay { openRay with st := .done } base
    okE (pairE base (.v 8)) = true ∧ okE (pairE base (.v 31)) = false ∧ (getRay base 0 0).st = .free ∧ bankFor (getClu base 0) 0 (getCtx base 0).rig ≠ none ∧
    (rayAt s (rayHandle openRay)).isSome = true ∧ rayAt base 0 = none ∧ (getRay s 0 3).st = .open_ ∧ openRay.ctx = myCtx base ∧
    (rayAt d (rayHandle openRay)).isSome = true ∧ (getRay d 0 3).st = .done ∧ vopOk base (.v 1) = true ∧ base.th.hit = none ∧
    { openRay with log := some (0, 0, 0), logN := some 1 }.queue = [] ∧
    (let h := withTh (onClu s 0 fun c => { c with hitbuf := [(0, ⟨3, 0, 0, true, 0, 0⟩)] }) fun t => { t with hit := some (0, 0) }
     h.th.hit = some (0, 0) ∧ ((amFind (getClu h 0).hitbuf 0).map (·.slot)) = some 3) ∧
    (let l := withLaunch live4 (withRf base fun r => { r with lpb := 0x40 })
     (vw l).lpb ≠ 0 ∧ myLid (withTh l fun t => { t with task := mkRec 0 0 0 0 true 0 false false 1 }) = 1) := by decide +kernel

/-- An image of one microword, and a ray that runs it at microword 0. -/
def imageRay (m : BitVec 128) : Ray := { openRay with st := .run, rig := .image [m], upc := 0, ctx := 0 }

theorem witness_MicrowordsActOnTheRayWords :
    let s := withRay (imageRay 1) base
    rayRuns s (getRay s 0 3) = true ∧ (getRay s 0 3).wd < 4096 ∧ (∀ op < 25, (curMw (imageRay (BitVec.ofNat 128 (op * 2 ^ 122)))).op = op) ∧
    (getRay s 0 3).stack = [] ∧ (getRay s 0 3).children = [] ∧ (getRay s 0 3).rstack = [] ∧ (getRay s 0 3).leafDone = 0 ∧
    (getRay (withRay { imageRay 1 with wd := 4096 } base) 0 3).wd = 4096 ∧
    (let t := engPage (withRay { imageRay 1 with d1 := BitVec.ofNat 512 (0x100 * 2 ^ 64) } base)
     inRange (getRay t 0 3) 0x40000 128 128 = false ∧ inRange (getRay t 0 3) 0 128 128 = true ∧ okE (rayRead t 0 3 0 128) = true) ∧
    (let r := { imageRay (BitVec.ofNat 128 (19 * 2 ^ 122)) with w := Vector.replicate 16 12 }
     r.cells = [] ∧ r.leafDone < (wOf r (curMw r).b).toNat / 4 % 16 ∧ (12 : W64).toNat / 4 % 16 ≠ 0 ∧ (0 : W64).toNat / 4 % 16 = 0 ∧
     inRange { r with d1 := BitVec.ofNat 512 (0x100 * 2 ^ 64) } (0 + leafBytes false 1 * 0) (leafBytes false 1) (leafBytes false 1) = true) := by decide +kernel

theorem witness_ListsKeepTheirContract : fiveRay.recs.length ≤ rayK fiveRay ∧ fiveRay.opq = true ∧ isNan32 fiveRay.front.toNat = false ∧
    (let q := { openRay with queue := [(fiveAnswers.getD 0 0, 0)] }
     q.queue = [(fiveAnswers.getD 0 0, 0)] ∧ q.fault = none ∧ q.st = .open_) ∧
    ivRejected (ivOf (mkAnswer 0x7FC00000 0x40000000 0 0 0 1 0 0)) = true ∧
    (let y := ivOf (mkAnswer 0x43000000 0x43000000 0 0 0 1 0 0)
     ivRejected y = false ∧ lt32 (rayTmax openRay openRay.fp64) y.t0 = true ∧
       le32 (min32 (min32 y.t1 (rayTmax openRay openRay.fp64)) openRay.front.toNat) (max32 y.t0 (rayTmin openRay openRay.fp64)) = true) ∧
    (let e := withRay { openRay with st := .run, ended := true } base
     (getRay e 0 3).st = .run ∧ (getRay e 0 3).parked = false ∧ engineRuns e (getRay e 0 3).ctx = true ∧ (getRay e 0 3).outstanding = 0 ∧
     (getRay e 0 3).replay = false ∧ (getRay e 0 3).lid = 0 ∧ (getRay e 0 3).queue = [] ∧
     (getRay e 0 3).hitWait = none ∧ (getRay e 0 3).log = none ∧ (getRay e 0 3).pend = [] ∧ (getClu e 0).hitbuf = []) := by decide +kernel

/-- R218 counts an arrival that is rejected too: an answer with a NaN start leaves an empty list empty. -/
theorem test_a_nan_answer_is_rejected : let r := (arrive openRay (mkAnswer 0x7FC00000 0x40000000 0 0 0 1 0 0)).1
    r.recs = [] ∧ r.arrivals = 1 ∧ r.reject = 1 := by decide +kernel

/-- A second context of partition 0, with no core bound, drained or saved. -/
def other (f : Context → Context) (s : State) : State := onCtx s 7 fun c => f { c with created := true, part := 0 }

theorem witness_PrivilegedFormsCheckTheModeAndAct :
    let user := onPart base 0 fun p => { p with sup := 5 }
    let s := other (fun c => c) base
    supMode user = false ∧ supMode base = true ∧ (getCtx s 7).created = true ∧ (getCtx s 7).part = myPart s ∧ (getCtx s 9).created = false ∧
    (getCtx (onCtx s 9 fun c => { c with created := true, part := 3 }) 9).part ≠ myPart s ∧ translatedPending s 7 = false ∧ s.th.hreqs = [] ∧
    (getCtx s 7).saved = none ∧ areaIn s 0 0x100000 8192 = true ∧ coresOf s 7 = [] ∧ drained s 7 = false ∧ castleOf s 7 = false ∧
    drained (other (fun c => { c with draining := true }) base) 7 = true ∧
    (getCtx (other (fun c => { c with saved := some [] }) base) 7).saved = some [] ∧
    (match readImage 0x40 1 base with
      | .ok (l, _) => mwOk 1 0 (l.getD 0 0)
      | _ => false) = true ∧
    (coreNo 3 ∈ coresOf base 0) ∧ (coreNo 9 ∉ coresOf base 0) ∧ storesAcked base = true ∧ storesAcked (withC (creq .store false) base) = false ∧
    translatedPending (withC (creq .store false) base) 0 = true ∧ ringsFree base 0 7 = true ∧
    ringsFree (onClu base 0 fun c => { c with rings := (List.range 8).map fun i => (i + 20, noRings) }) 0 7 = false ∧
    noneBound base 0 = false ∧ (0 ∈ rectClusters (getPart base (getCtx base 0).part)) ∧ (getCtx base 0).answers = [] ∧
    mtspWrites 0x7FF = false ∧ mtspWrites 0x840 = true ∧ transOk 0x801 1 = false ∧ transOk 0x801 0 = true ∧
    amFind (getCtx base base.th.csel).transOld 0x801 = none ∧ rectClusters (getPart base 0) ≠ [] ∧
    (getCtx (after (exec (.mtsp ⟨pp, 0, 0x801⟩) base)) 0).transOld = [(0x801, 0, [])] := by decide +kernel

/-- The first thread set waits for the answer to its fault, the first of the machine. -/
def faulted (s : State) : State := after (exec (.ld ⟨pp, .i32, 3, 0, 0x400000⟩) s)

theorem witness_FaultAnswersDebugAndErrors :
    (faulted base).th.st = .blocked ∧ ((faulted base).waiting.map fun w => ((faulted base).th.fault.map (·.fid)) == some w.fid) = [true] ∧ (threadAt base 0).st = .task ∧ (threadAt (withTh base fun t => { t with st := .halted }) 0).fault = none ∧
    haltReady (focus base 0) = true ∧ haltReady (focus (withC (creq .store false) base) 0) = false ∧ (threadAt base 0).ending = false ∧
    (threadAt base 0).halting = false ∧ (withTh base fun t => { t with st := .halted }).th.fault = none ∧
    bitOf (getLine base 0).dirty.toNat 0 = false ∧ copyRuns started (cmd0 started) = true ∧
    ((onCtx (faulted base) 0 fun c => { c with draining := true }).waiting.map fun w => fieldOf w.fid 32 8) = [0] ∧
    ((faulted base).waiting.map fun w => fieldOf w.fid 16 3) = [0] ∧
    (let w : Waiting := ⟨3, 0, 0, 0, 0⟩
     (faultedCmd (withCore base fun c => { c with mq := [{ command (.mzero 1) true with fault := some 3 }] }) w).isSome = true ∧
     faultedRay (withRay { openRay with fault := some 3 } base) 3 = some (0, 3)) ∧
    debuggable (withTh base fun t => { t with st := .halted }).th = true ∧ debugPoolOk base.core 0x10000 = true ∧
    (getCtx base 0).created = true ∧ (getCtx base 0).draining = false ∧ castleOf base 0 = false ∧
    mayMove started (cmd0 started) = true ∧ served started 0 (cmd0 started) = true ∧
    ((copyOf (moveGroup 0 (groupLen (cmd0 started)) (cmd0 started) started).2 0 1).map (·.fault.isSome)) = some true := by decide +kernel

/-- Cores 0 and 8 are bound alike for a launch that names both; the first holds a resident, and castling is on. -/
def twoCores : State :=
  let s := withTh (withCore base fun c => { c with resid := [resident] }) fun t => { t with st := .idle }
  let s := withLaunch { live4 with block := live4.block + BitVec.ofNat 2048 (2 * 2 ^ (8 * 160)) } (setCore s 8 { s.core with resid := [] })
  onPart { s with cycle := 0x200000 } 0 fun p => { p with cword := 0x80000014, epoch := 0 }

theorem witness_CastlesExchangeResidentsOfChosenPairs : (getPart base 0).created = true ∧ bitOf (0x1000 : W64).toNat 12 = true ∧
    (∀ i < 32, (12 ≤ i ∧ i ≤ 30 ∨ 5 ≤ i ∧ i ≤ 7) → bitOf (20 : W64).toNat i = false) ∧ cwLog 20 = 20 ∧ cwLog 3 < 16 ∧
    (getPart twoCores 0).epoch < twoCores.cycle.toNat / 2 ^ cwLog (getPart twoCores 0).cword ∧ (getPart twoCores 0).chosen = [] ∧
    partner 0 0 = some 8 ∧ pairEligible twoCores (getPart twoCores 0) 0 8 = true ∧
    (getPart (onPart twoCores 0 fun p => { p with chosen := [(0, 8)] }) 0).chosen = [(0, 8)] ∧ twoCores.core.pcache = [] := by decide +kernel

theorem witness_AssignmentsOfTheHypervisorAndTheEndOfBoot :
    let up := { State.reset with boot := .up }
    let lock := onPart base 0 fun p => { p with locked := true }
    State.reset.boot = .off ∧ bootNext .off = some 1 ∧ bootNext (.step 4) = some 5 ∧ bootNext .up = none ∧ noneBound up 0 = false ∧
    noneBound (onPart up 0 fun p => { p with created := true }) 0 = true ∧ up.boot = .up ∧ (getPart up 1).created = false ∧ (getCtx up 3).created = false ∧ up.parts = [] ∧
    (getPart lock 0).locked = true ∧ slotValid base 0 = true ∧ slotValid base 1 = false ∧ (getCtx base 0).created = true ∧
    (getPart base 0).created = true ∧ ctxsOf base 0 = [0] ∧ coresOf base 0 = [0] ∧ (getPart base 1).created = false ∧
    (let m := { base with services := [⟨0, 0, 5, 0⟩] }
     m.services[0]? = some ⟨0, 0, 5, 0⟩ ∧ bindOf m.core 15 = none ∧
     bindOf (withCore m fun c => { c with binds := c.binds.set 2 ⟨15, true, false⟩ }).core 15 = some (2, false) ∧ roomAt m 0 2 = true ∧ m.core.ctx = some 0 ∧ m.packets = [] ∧
     (∀ x ∈ m.services, cluOf x.core = cluOf 0 → 0 ≤ x.turn) ∧ ¬ (∀ x ∈ [(⟨0, 0, 5, 0⟩ : Service)], 1 ≤ x.turn)) ∧
    (∀ t < 4, (threadAt base (4 * 1 + t)).st = .idle) ∧ (threadAt base 0).st ≠ .idle := by decide +kernel

/-- Job ring of partition 0 at address 0x4000 with one descriptor: one block, job 5. -/
def withJob (s : State) : State :=
  onPart { s with mem := memSetAll s.mem (atAddr 0x4000 (toBytes 16 (0x40 + 5 * 2 ^ 64 + 2 ^ 80))) } 0 fun p => { p with jobTail := 1 }

theorem witness_HostLinkScaleOutAndManagement :
    let d := ofBytes (homeRead (withJob base) 0 0 0x4000 64).1
    let c : Conn := ⟨0, true, 0, 0, 0⟩
    let s := { base with conns := [(1, c)] }
    (getPart base 0).created = true ∧ (getPart (withJob base) 0).jobHead ≠ (getPart (withJob base) 0).jobTail % 64 ∧ bitsOf d 96 416 = 0 ∧
    bitsOf d 80 16 = 1 ∧ bitsOf d 64 16 = 5 ∧ freeLid base 0 = some 1 ∧ slotValid base 0 = true ∧ slotValid base 1 = false ∧
    ringSlot base 0 0 0x4000 64 = true ∧ ringSlot base 0 1 0x4000 64 = false ∧ ringSlot base 0 0 0x4000 16 = true ∧ base.MemoryCanonical ∧
    base.NoUCopies ∧ (getPart base 0).apSlot = none ∧ apertureSlot base 0 0 = false ∧
    apertureSlot (after (exec (.keySlotFill 0 1 (some 0)) base)) 0 1 = true ∧
    (let e : JobOpen := ⟨0, 5, 0, some (0, 1)⟩
     let idle := withTh base fun t => { t with st := .idle }
     [e].find? (jobQuiet idle) = some e ∧ [e].find? (jobQuiet (withC (creq .store false) idle)) = none) ∧
    (let m := { base with monitors := [(3, (5 : W64))], monCfg := [(3, ([7], [(0, some 9)]))] }
     amFind m.monitors 3 = some 5 ∧ amFind m.monCfg 3 = some ([7], [(0, some 9)]) ∧ ((5 : W64).toNat < 7 ↔ (6 : W64).toNat < 7) ∧
     ¬ ((5 : W64).toNat < 7 ↔ (8 : W64).toNat < 7)) ∧
    aperture (getPart base 0) 0x40 = some 0x40 ∧ connFor s 1 0 = some c ∧ okE (bilathPlaces 0 0 0x40 4 (engPage s)) = true ∧
    okE (bilathPlaces 0 0 0x400000 4 s) = false ∧ connFor s 1 3 = none ∧ bindOf base.core 3 = none ∧
    measurement { base with meas := [(0, 9)] } 0 = some 9 ∧ measurement base 0 = none := by
  unfold State.NoUCopies State.MemoryCanonical; decide +kernel

theorem witness_DecodeReadsBackEveryWellFormedWord : (Instr.yield_ ⟨pp⟩).isInstruction = true ∧ (Instr.yield_ ⟨pp⟩).wf = true := by decide +kernel

/-- FIPS 180-4's digest of the three bytes of abc. -/
theorem test_sha256_abc : ofBytes (sha256 [0x61, 0x62, 0x63]).reverse = 0xBA7816BF8F01CFEA414140DE5DAE2223B00361A396177A9CB410FF61F20015AD := by
  decide +kernel
end

/-!
PROOFS. What the host link, scale-out and management do (O60): first the laws that their operations need, of partitions, of cores and
their thread sets, of a write at home read back, of an engine's translation and of the jobs that a launch's issue keeps.
-/

section
/-! ### One core, partition or context after a change -/

namespace Sys2Proof
namespace Machine

@[simp] theorem getPart_setPart (s : State) (p : Nat) (x : Partition) : getPart (setPart s p x) p = x := amGet_amSet_same _ _ _ _
theorem getPart_setPart_other (s : State) {p q : Nat} (x : Partition) (h : q ≠ p) : getPart (setPart s p x) q = getPart s q :=
  amGet_amSet_other _ _ _ h
@[simp] theorem getPart_onPart (s : State) (p : Nat) (f : Partition → Partition) : getPart (onPart s p f) p = f (getPart s p) :=
  getPart_setPart _ _ _
@[simp] theorem getCtx_setCtx (s : State) (c : Nat) (x : Context) : getCtx (setCtx s c x) c = x := amGet_amSet_same _ _ _ _
theorem getPart_congr {s t : State} (h : t.parts = s.parts) (p : Nat) : getPart t p = getPart s p := by rw [getPart, h]; rfl
theorem getCtx_congr {s t : State} (h : t.ctxs = s.ctxs) (c : Nat) : getCtx t c = getCtx s c := by rw [getCtx, h]; rfl
theorem keyOf_congr {s t : State} (h : t.ctxs = s.ctxs) (slot : Nat) : keyOf t slot = keyOf s slot := by rw [keyOf, getCtx_congr h]; rfl

theorem getCore_setCore (s : State) (c d : Nat) (x : CoreSt) : getCore (setCore s c x) d = if d = c then x else getCore s d := by
  unfold setCore getCore
  by_cases hc : c = coreNo s.here
  · by_cases hd : d = c
    · simp [hc, hd]
    · simp [hc, hc ▸ hd]
  · by_cases hd : d = c
    · simp [hc, hd]
    · simp [hc, hd, amGet_amSet_other]
@[simp] theorem setCore_here (s : State) (c : Nat) (x : CoreSt) : (setCore s c x).here = s.here := by unfold setCore; split <;> rfl
@[simp] theorem setCore_th (s : State) (c : Nat) (x : CoreSt) : (setCore s c x).th = s.th := by unfold setCore; split <;> rfl
@[simp] theorem setCore_ctxs (s : State) (c : Nat) (x : CoreSt) : (setCore s c x).ctxs = s.ctxs := by unfold setCore; split <;> rfl

@[simp] theorem setSlot_q (c : CoreSt) (t : Nat) (x : Thread) : (setSlot c t x).q = c.q := by unfold setSlot; split <;> rfl
theorem slotOf_setSlot (c : CoreSt) {t u : Nat} (x : Thread) (ht : t < 4) (hu : u < 4) :
    slotOf (setSlot c t x) u = if u = t then x else slotOf c u := by
  unfold slotOf setSlot
  rw [dif_pos ht]
  by_cases h : u = t
  · subst h; simp [hu]
  · simp [h, Ne.symm h, List.getD]
/-- A thread set reads as it was set, and every other one as before. -/
theorem threadAt_setThread (s : State) (g k : Nat) (x : Thread) : threadAt (setThread s g x) k = if k = g then x else threadAt s k := by
  unfold setThread
  by_cases hg : g = s.here
  · by_cases hk : k = g
    · simp [threadAt, hg, hk]
    · simp [threadAt, hg, hg ▸ hk, getCore]
  · rw [if_neg hg]
    by_cases hh : k = s.here
    · have : k ≠ g := fun e => hg (e ▸ hh)
      simp [threadAt, hh, Ne.symm hg]
    · simp only [threadAt, setCore_here, hh, if_false, getCore_setCore]
      by_cases hc : coreNo k = coreNo g
      · rw [if_pos hc, slotOf_setSlot _ _ (Nat.mod_lt _ (by decide)) (Nat.mod_lt _ (by decide)), hc]
        have e : k % 4 = g % 4 ↔ k = g := by unfold coreNo at hc; omega
        simp only [e]
      · have : k ≠ g := fun e => hc (by rw [e])
        simp [hc, this]
@[simp] theorem setThread_ctxs (s : State) (g : Nat) (x : Thread) : (setThread s g x).ctxs = s.ctxs := by
  unfold setThread; split
  · rfl
  · exact setCore_ctxs _ _ _
/-- A change of a thread set leaves the queue registers of every core. -/
@[simp] theorem setThread_q (s : State) (g c : Nat) (x : Thread) : (getCore (setThread s g x) c).q = (getCore s c).q := by
  unfold setThread
  split
  · rfl
  · rw [getCore_setCore]
    split
    · next h => rw [setSlot_q, h]
    · rfl

/-- What every step of a fold leaves, the fold leaves. -/
theorem foldl_keeps {α β γ : Type} (π : β → γ) {f : β → α → β} (h : ∀ b a, π (f b a) = π b) (l : List α) (b : β) :
    π (l.foldl f b) = π b := by
  induction l generalizing b with
  | nil => rfl
  | cons a l ih => rw [List.foldl_cons, ih, h]

end Machine
end Sys2Proof
end

section
/-! ### Bytes written at home or in host memory, read back -/

namespace Sys2Proof
namespace Machine

theorem HomeOnly.parts {s t : State} (h : HomeOnly s t) : t.parts = s.parts := by rw [h.1]
theorem HomeOnly.ctxs {s t : State} (h : HomeOnly s t) : t.ctxs = s.ctxs := by rw [h.1]
theorem HomeOnly.hostOut {s t : State} (h : HomeOnly s t) : t.hostOut = s.hostOut := by rw [h.1]

/-- The bytes of a run of addresses in a canonical memory, as written there. -/
theorem memGet_memSetAll_atAddr (l : List Byte) {m : Mem} (h : Memory.wf m = true) (a i : Nat) (hi : i < l.length) :
    memGet (memSetAll m (atAddr a l)) (a + i) = l[i] := by
  induction l generalizing m a i with
  | nil => exact absurd hi (Nat.not_lt_zero _)
  | cons b l ih =>
    have hw : Memory.wf (memSet m a b) = true := memSet_wf h
    rw [atAddr_cons]
    change memGet (memSetAll (memSet m a b) (atAddr (a + 1) l)) (a + i) = _
    cases i with
    | zero => rw [memGet_memSetAll_other hw fun e he => by have := (atAddr_ge he).1; omega, memGet_memSet h]; simp
    | succ i => rw [show a + (i + 1) = a + 1 + i by omega]; exact ih hw _ _ (Nat.lt_of_succ_lt_succ hi)
theorem memRead_memSetAll_atAddr {m : Mem} (h : Memory.wf m = true) (a : Nat) (l : List Byte) :
    memRead (memSetAll m (atAddr a l)) a l.length = l := by
  refine List.ext_getElem (by simp [memRead]) fun i hi hl => ?_
  simpa [memRead] using memGet_memSetAll_atAddr l h a i hl

theorem mem_atAddr (a : Nat) (l : List Byte) {i : Nat} (h : i < l.length) : (a + i, l[i]) ∈ atAddr a l :=
  List.mem_iff_getElem.mpr ⟨i, by simpa [atAddr] using h, by simp [atAddr]⟩

/-- A sector that is made ready for a write stands under the slot's key; the others keep theirs. -/
theorem prepSector_memKey {s : State} (n : s.NoUCopies) (ctx slot sec : Nat) :
    (prepSector s ctx slot sec).NoUCopies ∧ amFind (prepSector s ctx slot sec).memKey sec = some (keyOf s slot) ∧
      ∀ x, x ≠ sec → amFind (prepSector s ctx slot sec).memKey x = amFind s.memKey x := by
  obtain ⟨n', -, hk⟩ := (lineRoom_quiet s (sec / 4)).2 n
  have key : keyOf (lineRoom s (sec / 4)) slot = keyOf s slot := keyOf_congr (lineRoom_step s _).1.ctxs _
  have older : ∀ u : State, (keepOlder u sec).memKey = u.memKey ∧ (keepOlder u sec).clusters = u.clusters := fun u => by
    unfold keepOlder; split <;> exact ⟨rfl, rfl⟩
  have rekey : ∀ (u : State) (k : Nat), (rekeySector u k sec).clusters = u.clusters ∧ amFind (rekeySector u k sec).memKey sec = some k ∧
      ∀ x, x ≠ sec → amFind (rekeySector u k sec).memKey x = amFind u.memKey x := fun u k => by
    unfold rekeySector
    split
    · next h => exact ⟨rfl, h, fun _ _ => rfl⟩
    · exact ⟨rfl, amFind_amSet_same _ _ _, fun x h => amFind_amSet_other _ _ h⟩
  obtain ⟨hc, hs, ho⟩ := rekey (keepOlder (lineRoom s (sec / 4)) sec) (keyOf (lineRoom s (sec / 4)) slot)
  refine ⟨?_, hs.trans (congrArg some key), fun x hx => (ho x hx).trans ?_⟩
  · intro e he
    exact n' e (by rw [← (older _).2, ← hc]; exact he)
  · rw [(older _).1, hk]
theorem foldl_prepSector_memKey (ctx slot : Nat) (secs : List Nat) {s : State} (n : s.NoUCopies) {x : Nat}
    (h : x ∈ secs ∨ amFind s.memKey x = some (keyOf s slot)) :
    amFind (secs.foldl (fun s sec => prepSector s ctx slot sec) s).memKey x = some (keyOf s slot) := by
  induction secs generalizing s with
  | nil => simpa using h
  | cons sec secs ih =>
    obtain ⟨n', here, others⟩ := prepSector_memKey n ctx slot sec
    have key : keyOf (prepSector s ctx slot sec) slot = keyOf s slot := keyOf_congr (prepSector_step s ctx slot sec).1.ctxs _
    rw [List.foldl_cons, ← key]
    refine ih n' ?_
    by_cases hx : x = sec
    · right; rw [hx, here, key]
    · rcases h with h | h
      · exact .inl (by simpa [hx] using h)
      · right; rw [others x hx, key, h]

/-- What a write at home leaves in HBM: the listed bytes over a canonical memory, and the touched sectors under the slot's key. -/
theorem homeWrite_bytes {s : State} (n : s.NoUCopies) (c : s.MemoryCanonical) (ctx slot : Nat) (p : Path) (pts : Nat)
    (l : List (Nat × Byte)) :
    (∃ m, Memory.wf m = true ∧ (homeWrite s ctx slot p pts l).2.mem = memSetAll m l) ∧
      ∀ e ∈ l, amFind (homeWrite s ctx slot p pts l).2.memKey (e.1 / 64) = some (keyOf s slot) := by
  let s1 := ((l.map fun e => e.1 / 256).eraseDups).foldl (fun s x => touchLine s slot x) s
  have q1 : HomeQuiet s s1 := HomeQuiet.foldl (fun s x => touchLine_quiet s slot x) _ s
  have key : keyOf s1 slot = keyOf s slot := keyOf_congr q1.1.1.ctxs _
  let s2 := (sectorsOf l).foldl (fun s sec => prepSector s ctx slot sec) s1
  have c2 : s2.MemoryCanonical := (HomeStep.foldl (fun s x => prepSector_step s ctx slot x) _ s1).2 (q1.1.2 c)
  have bytes : ∀ {γ : Type} (π : State → γ), (∀ u w x, π (setLine u w x) = π u) → (∀ u p w, π (notePath u p w) = π u) →
      π (homeWrite s ctx slot p pts l).2 = π (storeBytes s2 l) := fun π hl hp => by
    change π (notePath _ _ _) = _
    rw [hp, foldl_keeps π fun b a => hl _ _ _]
    exact foldl_keeps π (fun b a => hl _ _ _) _ _
  refine ⟨⟨s2.mem, c2.1, bytes (·.mem) (fun _ _ _ => rfl) fun _ _ _ => rfl⟩, fun e he => ?_⟩
  rw [bytes (·.memKey) (fun _ _ _ => rfl) fun _ _ _ => rfl, ← key]
  refine foldl_prepSector_memKey ctx slot _ (q1.2 n).1 (.inl ?_)
  exact List.mem_eraseDups.mpr (List.mem_map.mpr ⟨e, he, rfl⟩)
/-- A run of bytes written at home reads back under its slot. -/
theorem homeBytes_homeWrite {s : State} (n : s.NoUCopies) (c : s.MemoryCanonical) (ctx slot : Nat) (p : Path) (pts a : Nat)
    (b : List Byte) : homeBytes (homeWrite s ctx slot p pts (atAddr a b)).2 slot a b.length = b := by
  obtain ⟨⟨m, hm, mem⟩, keys⟩ := homeWrite_bytes n c ctx slot p pts (atAddr a b)
  have key : keyOf (homeWrite s ctx slot p pts (atAddr a b)).2 slot = keyOf s slot := keyOf_congr (homeWrite_step s ctx slot p pts _).1.ctxs _
  refine List.ext_getElem (by simp [homeBytes]) fun i hi hl => ?_
  have hk := keys _ (mem_atAddr a b hl)
  simp only [homeBytes, List.getElem_map, List.getElem_range, homeByte, key, hk, if_true, mem]
  exact memGet_memSetAll_atAddr b hm a i hl

end Machine
end Sys2Proof
end

section
/-! ### Translation and accesses of the hardware for a context -/

namespace Sys2Proof
namespace Machine

theorem XlateOnly.parts {s t : State} (h : XlateOnly s t) : t.parts = s.parts := by rw [h.1.1]

/-- Everything an engine's translation may change: no core's TLB serves it. -/
theorem xlateEngine_only {s s' : State} {ctx clu : Nat} {acc : Acc} {va : Nat} {x : Xl}
    (h : xlateEngine s ctx clu acc va = .ok x s') : XlateOnly s s' := by
  have tables : ∀ {y : Xl} {t : State}, xlate s ctx clu none acc va = .ok y t → XlateOnly s t := fun {y t} h => by
    unfold xlate at h
    simp only [] at h
    split at h
    · split at h
      · cases h
      · rw [keyCheck_ok h]; exact .refl s
    · split at h
      · cases h
      · split at h
        · cases h
        · cases h
        · next e u hf =>
          have w := leafFor_only s ctx clu none acc (!isSup s ctx) va (fieldOf (transReg s ctx clu 0x804 (getCtx s ctx).ptroot) 0 44)
          rw [hf] at w
          rw [keyCheck_ok h]
          exact w.trans (cluXlate_only u clu (fun c => withEntry 2048 e c.tlb) (·.walks))
  unfold xlateEngine at h
  split at h
  · cases h
  · split at h
    · cases h
    · split at h
      · next he =>
        split at h
        · cases h
        · cases h; exact tables he
      · next hn => exact absurd h (hn _ _)

theorem ctxXlate_parts {s : State} {ctx k : Nat} {acc : Acc} {va : Nat} {r : Xl × State} (h : ctxXlate s ctx k acc va = .ok r) :
    r.2.parts = s.parts := by
  unfold ctxXlate at h
  split at h
  · next he => cases h; exact (xlateEngine_only he).parts
  · cases h
  · cases h
theorem ctxLoad_parts {ctx k fuel : Nat} {s : State} {va n : Nat} {r : List Byte × State} (h : ctxLoad s ctx k fuel va n = .ok r) :
    r.2.parts = s.parts := by
  induction fuel generalizing s va n r with
  | zero => cases h; rfl
  | succ fuel ih =>
    unfold ctxLoad at h
    split at h
    · cases h; rfl
    · cases hx : ctxXlate s ctx k .read va with
      | error c => rw [hx] at h; cases h
      | ok x =>
        rw [hx] at h
        simp only [bind, Except.bind] at h
        split at h
        · cases h
        · next rest hr =>
          cases h
          exact (ih hr).trans ((homeRead_step _ _ _ _ _).1.parts.trans (ctxXlate_parts hx))
theorem ctxRead_parts {s : State} {ctx k va n : Nat} {r : Nat × State} (h : ctxRead s ctx k va n = .ok r) : r.2.parts = s.parts := by
  unfold ctxRead at h
  cases hl : ctxLoad s ctx k (n / 64 + 2) (va % 2 ^ 64) n with
  | error c => rw [hl] at h; cases h
  | ok l => rw [hl] at h; cases h; exact ctxLoad_parts hl
theorem ctxWrite_parts {s t : State} {ctx k : Nat} {acc : Acc} {va : Nat} {b : List Byte} (h : ctxWrite s ctx k acc va b = .ok t) :
    t.parts = s.parts := by
  unfold ctxWrite at h
  cases hx : ctxXlate s ctx k acc (va % 2 ^ 64) with
  | error c => rw [hx] at h; cases h
  | ok x => rw [hx] at h; cases h; exact (homeWrite_step _ _ _ _ _ _).1.parts.trans (ctxXlate_parts hx)

end Machine
end Sys2Proof
end

section
/-! ### What the issue of a launch leaves of the job rings (R399) -/

namespace Sys2Proof
namespace Machine

/-- The context and number of an open job. -/
def JobOpen.name (e : JobOpen) : Nat × Nat := (e.ctx, e.job)
/-- Every partition's job ring stands where it stood, and the same jobs are open. -/
def KeepsJobs (s t : State) : Prop := ∀ p,
  (getPart t p).jobHead = (getPart s p).jobHead ∧ (getPart t p).jobBlk = (getPart s p).jobBlk ∧
    (getPart t p).jobsOpen.map JobOpen.name = (getPart s p).jobsOpen.map JobOpen.name
theorem KeepsJobs.refl (s : State) : KeepsJobs s s := fun _ => ⟨rfl, rfl, rfl⟩
theorem KeepsJobs.trans {s t u : State} (h : KeepsJobs s t) (k : KeepsJobs t u) : KeepsJobs s u := fun p => by
  obtain ⟨h1, h2, h3⟩ := h p
  obtain ⟨k1, k2, k3⟩ := k p
  exact ⟨k1.trans h1, k2.trans h2, k3.trans h3⟩
theorem KeepsJobs.of_parts {s t : State} (h : t.parts = s.parts) : KeepsJobs s t := fun p => by rw [getPart_congr h]; exact ⟨rfl, rfl, rfl⟩
theorem KeepsJobs.foldl {α : Type} {f : State → α → State} (h : ∀ s x, KeepsJobs s (f s x)) (l : List α) (s : State) :
    KeepsJobs s (l.foldl f s) := by
  induction l generalizing s with
  | nil => exact .refl s
  | cons x l ih => exact (h s x).trans (ih _)
/-- A change of one partition that keeps its ring and the names of its jobs. -/
theorem KeepsJobs.onPart {s : State} {part : Nat} {f : Partition → Partition}
    (h : ∀ p, (f p).jobHead = p.jobHead ∧ (f p).jobBlk = p.jobBlk ∧ (f p).jobsOpen.map JobOpen.name = p.jobsOpen.map JobOpen.name) :
    KeepsJobs s (onPart s part f) := fun q => by
  by_cases hq : q = part
  · subst hq; rw [getPart_onPart]; exact h _
  · rw [Machine.onPart, getPart_setPart_other _ _ hq]; exact ⟨rfl, rfl, rfl⟩
theorem map_name_congr {f : JobOpen → JobOpen} (h : ∀ e, (f e).name = e.name) (l : List JobOpen) :
    (l.map f).map JobOpen.name = l.map JobOpen.name := by
  rw [List.map_map]; exact List.map_congr_left fun e _ => h e

@[simp] theorem onLaunch_parts (s : State) (ctx lid : Nat) (f : Launch → Launch) : (onLaunch s ctx lid f).parts = s.parts := rfl
@[simp] theorem onLevel_parts (s : State) (ctx key : Nat) (f : Level → Level) : (onLevel s ctx key f).parts = s.parts := rfl
@[simp] theorem raiseMask_parts (s : State) (ctx : Nat) (m : BitVec 256) : (raiseMask s ctx m).parts = s.parts := rfl
@[simp] theorem raiseErr_parts (s : State) (ctx : Nat) (l : Launch) : (raiseErr s ctx l).parts = s.parts := by unfold raiseErr; split <;> rfl
@[simp] theorem onLevels_parts (s : State) (ctx : Nat) (l : Launch) (f : Level → Level) : (onLevels s ctx l f).parts = s.parts :=
  foldl_keeps State.parts (fun s k => onLevel_parts s ctx k f) _ _
@[simp] theorem openLevels_parts (s : State) (ctx lid : Nat) (l : Launch) : (openLevels s ctx lid l).parts = s.parts := by
  unfold openLevels
  simp only [apply_ite State.parts, onLevel_parts, onLevels_parts, ite_self]
theorem noteJob_keepsJobs (s : State) (ctx job cause : Nat) : KeepsJobs s (noteJob s ctx job cause) :=
  .onPart fun _ => ⟨rfl, rfl, map_name_congr (fun e => by split <;> rfl) _⟩
theorem endJobs_keepsJobs (s : State) (ctx key n : Nat) : KeepsJobs s (endJobs s ctx key n) :=
  .onPart fun p => ⟨rfl, rfl, by
    dsimp only
    rw [List.map_append, map_name_congr fun e => by split <;> rfl, ← List.map_append, List.take_append_drop]⟩
theorem settleLevel_keepsJobs (s : State) (ctx key : Nat) : KeepsJobs s (settleLevel s ctx key) := by
  unfold settleLevel
  simp only []
  split
  · let s1 := onLevel s ctx key fun v => { v with live := false, complete := true }
    let s2 := if 2 ≤ key / 2 ^ 16 then onPart s1 (getCtx s1 ctx).part fun p => { p with levelsDone := p.levelsDone ++ [(ctx, key)] } else s1
    let s3 := if 3 ≤ key / 2 ^ 16 then endJobs s2 ctx key (getLevel s ctx key).completed else s2
    have k1 : KeepsJobs s s1 := .of_parts rfl
    have k2 : KeepsJobs s1 s2 := by
      dsimp only [s2]; split
      · exact .onPart fun _ => ⟨rfl, rfl, rfl⟩
      · exact .refl _
    have k3 : KeepsJobs s2 s3 := by
      dsimp only [s3]; split
      · exact endJobs_keepsJobs _ _ _ _
      · exact .refl _
    refine ((k1.trans k2).trans k3).trans ?_
    change KeepsJobs s3 (match (getLevel s ctx key).event with | some b => (raiseEvent s3 ctx (some b)).2 | none => s3)
    split
    · exact .of_parts rfl
    · exact .refl _
  · exact .refl s
theorem closeLevels_keepsJobs (s : State) (ctx : Nat) (l : Launch) (counted : Bool) : KeepsJobs s (closeLevels s ctx l counted) := by
  unfold closeLevels
  refine KeepsJobs.trans (.of_parts ?_) (KeepsJobs.foldl (fun s k => settleLevel_keepsJobs s ctx k) _ _)
  refine (foldl_keeps State.parts (fun b a => ?_) _ _).trans ?_
  · split <;> rfl
  · split
    · exact onLevels_parts _ _ _ _
    · rfl
theorem completeLaunch_keepsJobs (s : State) (ctx lid : Nat) : KeepsJobs s (completeLaunch s ctx lid) := by
  unfold completeLaunch
  simp only []
  generalize hl : getLaunch s ctx lid = l
  have live : KeepsJobs s (onLaunch s ctx lid fun x => { x with live := false, complete := true }) := .of_parts rfl
  refine KeepsJobs.trans ((live.trans (noteJob_keepsJobs _ ctx l.job l.cause)).trans (.of_parts ?_)) (closeLevels_keepsJobs _ ctx l l.admitted)
  simp only [apply_ite State.parts, raiseErr_parts, raiseMask_parts, ite_self]

theorem ringStore_parts (s : State) (ctx lid i status : Nat) (payload : W64) : (ringStore s ctx lid i status payload).parts = s.parts := by
  unfold ringStore
  simp only []
  split
  · rfl
  · split
    · next h => exact ctxWrite_parts h
    · rfl
theorem countUnit_parts (s : State) (ctx lid status n : Nat) : (countUnit s ctx lid status n).parts = s.parts := by
  unfold countUnit
  simp only [onLevels_parts, onLaunch_parts]
theorem reportHead_parts {s t : State} {ctx lid : Nat} (h : reportHead s ctx lid = some t) : t.parts = s.parts := by
  unfold reportHead at h
  simp only [] at h
  split at h
  · split at h
    · cases h; rw [onLaunch_parts, ringStore_parts, countUnit_parts]
    · cases h
  · cases h
theorem reportAll_parts (ctx lid fuel : Nat) (s : State) : (reportAll ctx lid fuel s).parts = s.parts := by
  induction fuel generalizing s with
  | zero => rfl
  | succ fuel ih =>
    unfold reportAll
    split
    · next h => exact (ih _).trans (reportHead_parts h)
    · rfl
theorem cancelUnadmitted_keepsJobs (s : State) (ctx lid : Nat) : KeepsJobs s (cancelUnadmitted s ctx lid) := by
  unfold cancelUnadmitted
  simp only []
  refine KeepsJobs.trans (.of_parts ?_) (completeLaunch_keepsJobs _ ctx lid)
  rw [reportAll_parts, onLaunch_parts]
theorem checkLaunch_parts (s : State) (ctx k : Nat) (l : Launch) : (checkLaunch s ctx k l).2.2.parts = s.parts := by
  have tables : ∀ {c : Prop} [Decidable c] {u : State} {va n : Nat} {r : Nat × State},
      (if c then Except.ok (0, u) else ctxRead u ctx k va n) = .ok r → r.2.parts = u.parts := by
    intro c _ u va n r h
    split at h
    · cases h; rfl
    · exact ctxRead_parts h
  unfold checkLaunch
  simp only []
  split
  · rfl
  · split
    · rfl
    · next h1 =>
      have p1 := tables h1
      split
      · exact p1
      · next h2 =>
        have p2 := (tables h2).trans p1
        split
        · exact p2
        · split <;> exact p2
/-- The issue of a block keeps every job ring and the names of the open jobs. -/
theorem issueLaunch_keepsJobs (s : State) (ctx k lid : Nat) (blk : BitVec 2048) (addr : W64) (job : Nat) :
    KeepsJobs s (issueLaunch s ctx k lid blk addr job).2 := by
  unfold issueLaunch
  simp only []
  split
  · exact .of_parts (by rw [raiseErr_parts, onLaunch_parts, checkLaunch_parts])
  · have opened : ∀ (l : Launch) (f : Launch → Launch) (r : Nat × Launch × State), r.2.2.parts = s.parts →
        KeepsJobs s (openLevels (onLaunch r.2.2 ctx lid f) ctx lid l) := fun l f r h =>
      .of_parts (by rw [openLevels_parts, onLaunch_parts, h])
    split
    · exact (opened _ _ _ (checkLaunch_parts _ _ _ _)).trans (cancelUnadmitted_keepsJobs _ _ _)
    · exact opened _ _ _ (checkLaunch_parts _ _ _ _)

end Machine
end Sys2Proof
end

section
/-! ### The job and completion rings (R398 to R400) -/

namespace Sys2Proof
namespace Machine

/-- An event that does not happen leaves the state. -/
theorem next_of_none {s : State} {o : Option State} (h : o = none) : (.next (o.getD s) : Out) = .next s := by rw [h]; rfl
theorem next_of_some {s t : State} {o : Option State} (h : o = some t) : (.next (o.getD s) : Out) = .next t := by rw [h]; rfl

theorem ringRead_parts (s : State) (part slot a n : Nat) : (ringRead s part slot a n).2.parts = s.parts := by
  unfold ringRead
  split
  · rfl
  · exact (homeRead_step s (slot / 8) slot a n).1.parts
theorem ringWrite_parts (s : State) (part slot a : Nat) (b : List Byte) : (ringWrite s part slot a b).parts = s.parts := by
  unfold ringWrite
  split
  · rfl
  · exact (homeWrite_step s (slot / 8) slot .H 0 (atAddr a b)).1.parts
/-- Bytes written to a ring in host memory stand there. -/
theorem memRead_ringWrite {s : State} (c : s.MemoryCanonical) (part slot : Nat) {a : Nat} (h : hostBase ≤ a) (b : List Byte) :
    memRead (ringWrite s part slot a b).host a b.length = b := by
  rw [ringWrite, if_pos h]
  exact memRead_memSetAll_atAddr c.2 a b
/-- Bytes written to a ring in device memory read back under the ring's slot. -/
theorem homeBytes_ringWrite {s : State} (n : s.NoUCopies) (c : s.MemoryCanonical) (part slot : Nat) {a : Nat} (h : a < hostBase)
    (b : List Byte) : homeBytes (ringWrite s part slot a b) slot a b.length = b := by
  rw [ringWrite, if_neg (Nat.not_le.mpr h)]
  exact homeBytes_homeWrite n c (slot / 8) slot .H 0 a b

/-- The head of a job ring is a descriptor of the context's, whose blocks are to be taken (R399). -/
def JobNext (s : State) (part ctx slot base len : Nat) : Prop :=
  let p := getPart s part
  p.jobHead % len ≠ p.jobTail % len ∧ ringSlot s part slot base (64 * len) = true ∧
    (p.jobBlk = 0 ∨ p.jobsOpen.getLast?.map (·.ctx) = some ctx)
/-- The descriptor at the head, and the state after its read. -/
def jobHeadRead (s : State) (part slot base len : Nat) : Nat × State :=
  ringRead s part slot (base + 64 * ((getPart s part).jobHead % len)) 64
theorem jobHeadRead_parts (s : State) (part slot base len : Nat) : (jobHeadRead s part slot base len).2.parts = s.parts :=
  ringRead_parts _ _ _ _ _
/-- A descriptor that R399 refuses. -/
def jobBad (d : Nat) : Bool := bitsOf d 96 416 ≠ 0 || bitsOf d 80 16 = 0 || 4096 < bitsOf d 80 16
/-- The state after the job's next block, number `blk` of `n`, has been issued to a launch entry (R399). -/
def takeBlock (s : State) (part ctx len d blk lid : Nat) : State :=
  let job := bitsOf d 64 16
  let opened := if blk = 0 then openJob s part ctx job else s
  let r := issueBlock opened ctx lid ((bitsOf d 0 64 + 256 * blk) % 2 ^ 64) job
  let counted := onPart (noteJob r.2 ctx job r.1) part fun q => { q with jobBlk := blk + 1 }
  if blk + 1 < bitsOf d 80 16 then counted else closeLevel (nextJob counted part len) ctx job

section
variable {s : State} {part ctx slot base len : Nat} (hp : (getPart s part).created = true) (hc : (getCtx s ctx).created = true)
  (hcp : (getCtx s ctx).part = part) (hl : 0 < len)
include hp hc hcp hl

/-- The conditions of the event hold at the head that is the context's next (R399). -/
theorem jobNext_iff : JobNext s part ctx slot base len ↔
    ¬ (!(getPart s part).created || !(getCtx s ctx).created || (getCtx s ctx).part != part || len = 0
      || (getPart s part).jobHead % max 1 len = (getPart s part).jobTail % max 1 len
      || !((getPart s part).jobBlk = 0 || (getPart s part).jobsOpen.getLast?.map (·.ctx) == some ctx)
      || !ringSlot s part slot base (64 * len)) = true := by
  simp [JobNext, hp, hc, hcp, hl.ne', Nat.max_eq_right hl]
  tauto
theorem evJob_of_not_next (h : ¬ JobNext s part ctx slot base len) : evJob part ctx slot base len s = none := by
  rw [jobNext_iff hp hc hcp hl, not_not] at h
  exact if_pos h
theorem evJob_of_next (h : JobNext s part ctx slot base len) : evJob part ctx slot base len s =
    if jobBad (jobHeadRead s part slot base len).1 then
      some (nextJob (completeJob (jobHeadRead s part slot base len).2 part (bitsOf (jobHeadRead s part slot base len).1 64 16) cENGINE 0)
        part len)
    else (freeLid (jobHeadRead s part slot base len).2 ctx).map
      (takeBlock (jobHeadRead s part slot base len).2 part ctx len (jobHeadRead s part slot base len).1 (getPart s part).jobBlk) := by
  unfold evJob
  simp only []
  rw [if_neg ((jobNext_iff hp hc hcp hl).mp h), Nat.max_eq_right hl]
  change (if jobBad (jobHeadRead s part slot base len).1 then _ else _) = _
  split
  · rfl
  · change (match freeLid (jobHeadRead s part slot base len).2 ctx with | none => none | some lid => some _) = _
    cases freeLid (jobHeadRead s part slot base len).2 ctx <;> rfl

end

theorem issueBlock_keepsJobs (s : State) (ctx lid addr job : Nat) : KeepsJobs s (issueBlock s ctx lid addr job).2 := by
  unfold issueBlock
  simp only []
  split
  · exact .refl s
  · split
    · exact .refl s
    · next hr =>
      refine KeepsJobs.trans (.of_parts ?_) (issueLaunch_keepsJobs _ _ _ _ _ _ _)
      exact ctxRead_parts hr
theorem closeLevel_keepsJobs (s : State) (ctx job : Nat) : KeepsJobs s (closeLevel s ctx job) := by
  unfold closeLevel
  simp only []
  split
  · refine KeepsJobs.trans (.of_parts ?_) (settleLevel_keepsJobs _ ctx _)
    rfl
  · exact endJobs_keepsJobs _ _ _ _
/-- A job that opens stands last in its partition's list. -/
theorem getPart_openJob (s : State) (part ctx job : Nat) : getPart (openJob s part ctx job) part =
    { getPart s part with jobsOpen := (getPart s part).jobsOpen ++ [{ ctx := ctx, job := job, cause := 0, ended := none }] } := by
  rw [openJob, getPart_onPart, getPart_congr (onLevel_parts _ _ _ _)]
theorem getPart_nextJob (s : State) (part : Nat) {len : Nat} (hl : 0 < len) : getPart (nextJob s part len) part =
    { getPart s part with jobHead := ((getPart s part).jobHead + 1) % len, jobBlk := 0 } := by
  rw [nextJob, getPart_onPart, Nat.max_eq_right hl]
/-- Where the job ring stands once a block is taken; the job of a first block is open. -/
theorem takeBlock_ring (s : State) (part ctx d blk lid : Nat) {len : Nat} (hl : 0 < len) :
    let q := getPart (takeBlock s part ctx len d blk lid) part
    q.jobHead = (if blk + 1 < bitsOf d 80 16 then (getPart s part).jobHead else ((getPart s part).jobHead + 1) % len) ∧
      q.jobBlk = (if blk + 1 < bitsOf d 80 16 then blk + 1 else 0) ∧
      (blk = 0 → (ctx, bitsOf d 64 16) ∈ q.jobsOpen.map JobOpen.name) := by
  let job := bitsOf d 64 16
  let opened := if blk = 0 then openJob s part ctx job else s
  let r := issueBlock opened ctx lid ((bitsOf d 0 64 + 256 * blk) % 2 ^ 64) job
  let counted := onPart (noteJob r.2 ctx job r.1) part fun q => { q with jobBlk := blk + 1 }
  have ho : (getPart opened part).jobHead = (getPart s part).jobHead ∧
      (blk = 0 → (ctx, job) ∈ (getPart opened part).jobsOpen.map JobOpen.name) := by
    by_cases hb : blk = 0
    · simp [opened, hb, getPart_openJob, JobOpen.name]
    · simp [opened, hb]
  obtain ⟨kh, -, kn⟩ := ((issueBlock_keepsJobs opened ctx lid _ job).trans (noteJob_keepsJobs r.2 ctx job r.1)) part
  have hc : getPart counted part = { getPart (noteJob r.2 ctx job r.1) part with jobBlk := blk + 1 } := getPart_onPart _ _ _
  rw [ho.1] at kh
  have ht : takeBlock s part ctx len d blk lid =
      if blk + 1 < bitsOf d 80 16 then counted else closeLevel (nextJob counted part len) ctx job := rfl
  by_cases hn : blk + 1 < bitsOf d 80 16
  · simp only [ht, if_pos hn, hc]
    exact ⟨kh, trivial, fun hb => kn ▸ ho.2 hb⟩
  · obtain ⟨ch, cb, cn⟩ := closeLevel_keepsJobs (nextJob counted part len) ctx job part
    simp only [ht, if_neg hn, ch, cb, cn, getPart_nextJob _ _ hl, hc]
    exact ⟨by rw [kh], trivial, fun hb => kn ▸ ho.2 hb⟩

theorem jobBad_iff (d : Nat) : jobBad d = true ↔ bitsOf d 96 416 ≠ 0 ∨ bitsOf d 80 16 = 0 ∨ 4096 < bitsOf d 80 16 := by
  simp [jobBad, or_assoc]

section
variable {s : State} {part ctx slot base len : Nat} (hp : (getPart s part).created = true) (hc : (getCtx s ctx).created = true)
  (hcp : (getCtx s ctx).part = part) (hl : 0 < len) (h : JobNext s part ctx slot base len)
include hp hc hcp hl h

/-- A malformed descriptor completes with ENGINE, and the head moves on (R399). -/
theorem jobDescriptor_malformed (hb : jobBad (jobHeadRead s part slot base len).1 = true) :
    let p := getPart s part
    ∃ t, exec (.jobDescriptor part ctx slot base len) s = .next t ∧ getPart t part =
      { p with completions := p.completions ++
                 [BitVec.ofNat 128 (bitsOf (jobHeadRead s part slot base len).1 64 16 + cENGINE * 2 ^ 16)],
               jobHead := (p.jobHead + 1) % len, jobBlk := 0 } := by
  refine ⟨_, next_of_some (by rw [evJob_of_next hp hc hcp hl h, if_pos hb]), ?_⟩
  rw [getPart_nextJob _ _ hl, completeJob, getPart_onPart, getPart_congr (jobHeadRead_parts s part slot base len)]
  rfl
/-- A well-formed descriptor waits for a free launch entry (R399). -/
theorem jobDescriptor_waits (hb : ¬ jobBad (jobHeadRead s part slot base len).1 = true)
    (hf : freeLid (jobHeadRead s part slot base len).2 ctx = none) : exec (.jobDescriptor part ctx slot base len) s = .next s :=
  next_of_none (by rw [evJob_of_next hp hc hcp hl h, if_neg hb, hf]; rfl)
/-- The next block of a well-formed descriptor takes a free launch entry; the job of a first block is open (R399). -/
theorem jobDescriptor_takes (hb : ¬ jobBad (jobHeadRead s part slot base len).1 = true)
    (hf : freeLid (jobHeadRead s part slot base len).2 ctx ≠ none) :
    let p := getPart s part
    let n := bitsOf (jobHeadRead s part slot base len).1 80 16
    ∃ t, exec (.jobDescriptor part ctx slot base len) s = .next t ∧
      (getPart t part).jobHead = (if p.jobBlk + 1 < n then p.jobHead else (p.jobHead + 1) % len) ∧
      (getPart t part).jobBlk = (if p.jobBlk + 1 < n then p.jobBlk + 1 else 0) ∧
      (p.jobBlk = 0 → ∃ e ∈ (getPart t part).jobsOpen, e.ctx = ctx ∧ e.job = bitsOf (jobHeadRead s part slot base len).1 64 16) := by
  obtain ⟨lid, hlid⟩ := Option.ne_none_iff_exists'.mp hf
  obtain ⟨hhead, hblk, hopen⟩ := takeBlock_ring (jobHeadRead s part slot base len).2 part ctx (jobHeadRead s part slot base len).1
    (getPart s part).jobBlk lid hl
  rw [getPart_congr (jobHeadRead_parts s part slot base len)] at hhead
  refine ⟨_, next_of_some (by rw [evJob_of_next hp hc hcp hl h, if_neg hb, hlid]; rfl), hhead, hblk, fun h0 => ?_⟩
  obtain ⟨e, he, hn⟩ := List.mem_map.mp (hopen h0)
  exact ⟨e, he, congrArg Prod.fst hn, congrArg Prod.snd hn⟩
end

/-! ### The completion ring (R399, R400) -/

/-- The entry of a job that completes (R399). -/
def jobEntry (e : JobOpen) (cause count : Nat) : BitVec 128 := BitVec.ofNat 128 (e.job + cause * 2 ^ 16 + count % 2 ^ 64 * 2 ^ 64)
/-- The state once an entry stands in the completion ring, with `rest` still to be written: MSI-X vector 0 is sent. -/
def writeEntry (s : State) (part slot base len : Nat) (e : BitVec 128) (rest : List (BitVec 128)) : State :=
  sendMsix (onPart (ringWrite s part slot (base + 16 * ((getPart s part).compTail % len)) (toBytes 16 e.toNat)) part
    fun p => { p with completions := rest, compTail := p.compTail + 1 }) part 0

theorem getPart_writeEntry (s : State) (part slot base len : Nat) (e : BitVec 128) (rest : List (BitVec 128)) :
    getPart (writeEntry s part slot base len e rest) part =
      { getPart s part with completions := rest, compTail := (getPart s part).compTail + 1, msix := (getPart s part).msix ++ [0] } := by
  rw [writeEntry, sendMsix, getPart_onPart, getPart_onPart, getPart_congr (ringWrite_parts _ _ _ _ _)]
/-- The entry stands in the ring's memory, in host memory or at home under the ring's slot. -/
theorem writeEntry_bytes {s : State} (c : s.MemoryCanonical) (part slot base len : Nat) (e : BitVec 128) (rest : List (BitVec 128)) :
    let a := base + 16 * ((getPart s part).compTail % len)
    let t := writeEntry s part slot base len e rest
    (hostBase ≤ a → memRead t.host a 16 = toBytes 16 e.toNat) ∧
      (a < hostBase → s.NoUCopies → homeBytes t slot a 16 = toBytes 16 e.toNat) := by
  have hlen := toBytes_length 16 e.toNat
  refine ⟨fun h => ?_, fun h n => ?_⟩
  · have r := memRead_ringWrite c part slot h (toBytes 16 e.toNat)
    rwa [hlen] at r
  · have r := homeBytes_ringWrite n c part slot h (toBytes 16 e.toNat)
    rwa [hlen] at r

/-- The partition once the next open job has completed. -/
theorem getPart_closeJob {s : State} {part : Nat} {e : JobOpen} {cause count : Nat}
    (hf : (getPart s part).jobsOpen.find? (jobQuiet s) = some e) (he : e.ended = some (cause, count)) :
    getPart (closeJob part s) part = { getPart s part with
      jobsOpen := (getPart s part).jobsOpen.erase e, completions := (getPart s part).completions ++ [jobEntry e cause count] } := by
  unfold closeJob
  rw [hf]
  simp only [he, completeJob, getPart_onPart]
  rfl
theorem closeJob_of_none {s : State} {part : Nat} (hf : (getPart s part).jobsOpen.find? (jobQuiet s) = none) : closeJob part s = s := by
  unfold closeJob
  rw [hf]
/-- Only the partitions change when a job completes. -/
theorem closeJob_only (part : Nat) (s : State) : closeJob part s = { s with parts := (closeJob part s).parts } := by
  unfold closeJob
  split <;> rfl

theorem evJobDone_of_refused {s : State} {part slot base len : Nat}
    (h : (getPart s part).created = false ∨ len = 0 ∨ ringSlot s part slot base (16 * len) = false) :
    evJobDone part slot base len s = none := by
  unfold evJobDone
  rw [if_pos]
  rcases h with h | h | h <;> simp [h]

section
variable {s : State} {part slot base len : Nat} (hp : (getPart s part).created = true) (hl : 0 < len)
  (hr : ringSlot s part slot base (16 * len) = true)
include hp hl hr

/-- JOB_COMPLETION writes the oldest entry of the state in which the next job has completed, when no entry waits. -/
theorem evJobDone_of_entry {u : State} {e : BitVec 128} {l : List (BitVec 128)}
    (hu : (if (getPart s part).completions.isEmpty then closeJob part s else s) = u) (h : (getPart u part).completions = e :: l) :
    evJobDone part slot base len s = some (writeEntry u part slot base len e l) := by
  unfold evJobDone
  rw [if_neg (by simp [hp, hr, hl.ne'])]
  simp only [hu, h]
  rfl
theorem evJobDone_of_waiting {e : BitVec 128} {l : List (BitVec 128)} (h : (getPart s part).completions = e :: l) :
    evJobDone part slot base len s = some (writeEntry s part slot base len e l) :=
  evJobDone_of_entry hp hl hr (by rw [h]; rfl) h
theorem evJobDone_of_idle (h : (getPart s part).completions = []) (hf : (getPart s part).jobsOpen.find? (jobQuiet s) = none) :
    evJobDone part slot base len s = none := by
  unfold evJobDone
  rw [if_neg (by simp [hp, hr, hl.ne'])]
  simp only [closeJob_of_none hf, ite_self, h]
theorem evJobDone_of_quiet {e : JobOpen} {cause count : Nat} (h : (getPart s part).completions = [])
    (hf : (getPart s part).jobsOpen.find? (jobQuiet s) = some e) (he : e.ended = some (cause, count)) :
    evJobDone part slot base len s = some (writeEntry (closeJob part s) part slot base len (jobEntry e cause count) []) :=
  evJobDone_of_entry hp hl hr (by rw [h]; rfl) (by rw [getPart_closeJob hf he, h]; rfl)

/-- The entry of the first open job that is complete and quiet is written, and the job is open no more (R399, R400). -/
theorem jobCompletion_quiet {e : JobOpen} {cause count : Nat} (h : (getPart s part).completions = [])
    (hf : (getPart s part).jobsOpen.find? (jobQuiet s) = some e) (he : e.ended = some (cause, count)) :
    let p := getPart s part
    let a := base + 16 * (p.compTail % len)
    ∃ t, exec (.jobCompletion ⟨part, slot, base, len⟩) s = .next t ∧
      getPart t part = { p with jobsOpen := p.jobsOpen.erase e, completions := [], compTail := p.compTail + 1, msix := p.msix ++ [0] } ∧
      (s.MemoryCanonical → (hostBase ≤ a → memRead t.host a 16 = toBytes 16 (jobEntry e cause count).toNat) ∧
        (a < hostBase → s.NoUCopies → homeBytes t slot a 16 = toBytes 16 (jobEntry e cause count).toNat)) := by
  have closed := getPart_closeJob hf he
  have only := closeJob_only part s
  refine ⟨_, next_of_some (evJobDone_of_quiet hp hl hr h hf he), by rw [getPart_writeEntry, closed], fun c => ?_⟩
  have c' : (closeJob part s).MemoryCanonical := by rw [only]; exact c
  obtain ⟨host, home⟩ := writeEntry_bytes c' part slot base len (jobEntry e cause count) []
  rw [closed] at host home
  exact ⟨host, fun ha n => home ha (by rw [only]; exact n)⟩
end

end Machine
end Sys2Proof
end

section
/-! ### The host's aperture (R398) -/

namespace Sys2Proof
namespace Machine

/-- One range register's part in the search for an aperture offset: the address, if found, and the bytes of the ranges before. -/
def apertureStep (off : Nat) (acc : Option Nat × Nat) (w : W64) : Option Nat × Nat :=
  let r := rangeOf w
  let n := (r.2 - r.1) * 2 ^ 30
  if !rangeOn w then acc
  else match acc.1 with
    | some _ => acc
    | none => if off < acc.2 + n then (some (r.1 * 2 ^ 30 + (off - acc.2)), acc.2) else (none, acc.2 + n)
theorem aperture_eq (p : Partition) (off : Nat) : aperture p off = (p.prng.toList.foldl (apertureStep off) (none, 0)).1 := rfl
/-- An address once found stands. -/
theorem apertureStep_found (off a n : Nat) (w : W64) : apertureStep off (some a, n) w = (some a, n) := by
  unfold apertureStep
  simp only [ite_self]
/-- An offset within the first range register's range lies there. -/
theorem aperture_first (p : Partition) {off : Nat} (hon : bitOf p.prng[0].toNat 63 = true)
    (ho : off < (fieldOf p.prng[0] 32 22 - fieldOf p.prng[0] 0 22) * 2 ^ 30) :
    aperture p off = some (fieldOf p.prng[0] 0 22 * 2 ^ 30 + off) := by
  cases hl : p.prng.toList with
  | nil => simpa [hl] using p.prng.length_toList
  | cons w l =>
    have hw : p.prng[0] = w := by simp [← Vector.getElem_toList, hl]
    rw [hw] at hon ho ⊢
    have hs : apertureStep off (none, 0) w = (some (fieldOf w 0 22 * 2 ^ 30 + off), 0) := by
      unfold apertureStep rangeOn
      simp only [hon, Bool.not_true, Bool.false_eq_true, if_false]
      exact if_pos (ho.trans_eq (Nat.zero_add _).symm)
    rw [aperture_eq, hl, List.foldl_cons, hs, List.foldl_fixed' (apertureStep_found off _ 0)]

/-- The physical address of an offset of the aperture's 2^36 bytes, where a range has it (R398). -/
def aperturePlace (p : Partition) (off : Nat) : Option Nat := if off < 2 ^ 36 then aperture p off else none
theorem aperturePlace_of_outside {p : Partition} {off : Nat} (h : 2 ^ 36 ≤ off ∨ aperture p off = none) : aperturePlace p off = none := by
  rcases h with h | h
  · exact if_neg (Nat.not_lt.mpr h)
  · rw [aperturePlace, h, ite_self]
/-- The state once a partition's aperture has a slot. -/
def nameSlot (s : State) (part slot : Nat) : State := setPart s part { getPart s part with apSlot := some slot }
/-- Who may pass the aperture: through an alias slot of the partition, the one that the first access has named (log 76). -/
def ApertureOpen (s : State) (part slot : Nat) : Prop := (getPart s part).created = true ∧ apertureSlot s part slot = true ∧
  ((getPart s part).apSlot = none ∨ (getPart s part).apSlot = some slot)
theorem apertureOpen_iff (s : State) (part slot : Nat) : ApertureOpen s part slot ↔
    ¬ (!(getPart s part).created || !apertureSlot s part slot || (getPart s part).apSlot.getD slot != slot) = true := by
  unfold ApertureOpen
  cases (getPart s part).apSlot <;> simp [and_assoc]
theorem evAperture_of_shut {s : State} {part slot : Nat} (off : Nat) (write : Bool) (data : List Byte)
    (h : ¬ ApertureOpen s part slot) : evAperture part slot off write data s = none := by
  rw [apertureOpen_iff, not_not] at h
  exact if_pos h

section
variable {s : State} {part slot : Nat} (off : Nat) (b : Byte) (ho : ApertureOpen s part slot)
include ho

/-- A one-byte write names the slot, and stores the byte where the aperture has its offset. -/
theorem evAperture_write : evAperture part slot off true [b] s =
    some ((aperturePlace (getPart s part) off).elim (nameSlot s part slot) fun a =>
      if hostBase ≤ a then { nameSlot s part slot with host := memSetAll s.host [(a, b)] }
      else (homeWrite (nameSlot s part slot) (slot / 8) slot .H 0 [(a, b)]).2) := by
  unfold evAperture
  simp only []
  rw [if_neg ((apertureOpen_iff s part slot).mp ho)]
  simp only [if_true, List.length_singleton, List.range_one, List.foldl_cons, List.foldl_nil, Nat.add_zero]
  rw [← aperturePlace]
  cases aperturePlace (getPart s part) off <;> rfl
/-- A one-byte read answers the byte there, or ones. -/
theorem evAperture_read : ∃ t, evAperture part slot off false [b] s = some t ∧ t.hostOut = s.hostOut ++
    wordsOf ((aperturePlace (getPart s part) off).elim [0xFF] fun a =>
      if hostBase ≤ a then memRead s.host a 1 else (homeRead (nameSlot s part slot) (slot / 8) slot a 1).1) := by
  unfold evAperture
  simp only []
  rw [if_neg ((apertureOpen_iff s part slot).mp ho)]
  simp only [Bool.false_eq_true, if_false, List.length_singleton, List.range_one, List.foldl_cons, List.foldl_nil, Nat.add_zero]
  rw [← aperturePlace]
  refine ⟨_, rfl, ?_⟩
  cases aperturePlace (getPart s part) off with
  | none => rfl
  | some a =>
    by_cases h : hostBase ≤ a
    · simp only [Option.elim_some, if_pos h]; rfl
    · simp only [Option.elim_some, if_neg h, (homeRead_step _ _ _ _ _).1.hostOut]; rfl

theorem hostAperture_outside (h : aperturePlace (getPart s part) off = none) :
    exec (.hostApertureAccess part slot off true [b]) s = .next (nameSlot s part slot) ∧
      ∃ t, exec (.hostApertureAccess part slot off false [b]) s = .next t ∧ t.hostOut = s.hostOut ++ wordsOf [0xFF] := by
  obtain ⟨t, ht, hout⟩ := evAperture_read off b ho
  rw [h] at hout
  exact ⟨next_of_some (by rw [evAperture_write off b ho, h]; rfl), t, next_of_some ht, hout⟩
theorem hostAperture_home {a : Nat} (h : aperturePlace (getPart s part) off = some a) (ha : a < hostBase) :
    exec (.hostApertureAccess part slot off true [b]) s = .next (homeWrite (nameSlot s part slot) (slot / 8) slot .H 0 [(a, b)]).2 ∧
      ∃ t, exec (.hostApertureAccess part slot off false [b]) s = .next t ∧
        t.hostOut = s.hostOut ++ wordsOf (homeRead (nameSlot s part slot) (slot / 8) slot a 1).1 := by
  obtain ⟨t, ht, hout⟩ := evAperture_read off b ho
  rw [h, Option.elim_some, if_neg (Nat.not_le.mpr ha)] at hout
  exact ⟨next_of_some (by rw [evAperture_write off b ho, h, Option.elim_some, if_neg (Nat.not_le.mpr ha)]), t, next_of_some ht, hout⟩
theorem hostAperture_host {a : Nat} (h : aperturePlace (getPart s part) off = some a) (ha : hostBase ≤ a) :
    exec (.hostApertureAccess part slot off true [b]) s = .next { nameSlot s part slot with host := memSetAll s.host [(a, b)] } ∧
      ∃ t, exec (.hostApertureAccess part slot off false [b]) s = .next t ∧ t.hostOut = s.hostOut ++ wordsOf (memRead s.host a 1) := by
  obtain ⟨t, ht, hout⟩ := evAperture_read off b ho
  rw [h, Option.elim_some, if_pos ha] at hout
  exact ⟨next_of_some (by rw [evAperture_write off b ho, h, Option.elim_some, if_pos ha]), t, next_of_some ht, hout⟩
end

end Machine
end Sys2Proof
end

section
/-! ### Connections (R304, R401 to R403) -/

namespace Sys2Proof
namespace Machine

/-- What the end of a connection leaves: its cause stands, a service message waits, and memory and queues are as before (R402). -/
theorem endConn_effect (s : State) (conn : Nat) (c : Conn) (cause : Nat) (va acc : W64) (k : Nat) :
    let t := endConn s conn c cause va acc k
    amFind t.conns conn = some { c with live := false, cause := cause } ∧ t.mem = s.mem ∧ t.lines = s.lines ∧
      t.services.length = s.services.length + 1 ∧ ∀ core, getCore t core = getCore s core :=
  ⟨amFind_amSet_same _ _ _, rfl, rfl, List.length_append, fun _ => rfl⟩
@[simp] theorem countConn_conn (s : State) (conn : Nat) (c : Conn) :
    amFind (countConn s conn c).conns conn = some { c with delivered := c.delivered + 1 } := amFind_amSet_same _ _ _

/-- The write time of a connection's bytes is no earlier than the one before. -/
theorem bilathBytes_time (ctx : Nat) (l : List (Xl × Byte)) (r : Nat × State) : r.1 ≤ (l.foldl (bilathByte ctx) r).1 := by
  induction l generalizing r with
  | nil => exact Nat.le_refl _
  | cons e l ih =>
    have here : r.1 ≤ (bilathByte ctx r e).1 := Nat.le_max_left _ _
    exact here.trans (ih _)

/-- A length that a memory write may have (R402). -/
theorem bilathLength {data : List Byte} (h1 : 1 ≤ data.length) (h2 : data.length ≤ 4096) :
    (data.isEmpty || decide (4096 < data.length)) = false := by
  cases data
  · exact absurd h1 (by decide)
  · simpa using h2
theorem evBilathWrite_of_closed {s : State} {conn ctx : Nat} (va : Nat) (data : List Byte) (h : connFor s conn ctx = none) :
    evBilathWrite conn ctx va data s = none := by unfold evBilathWrite; rw [h]

section
variable {s : State} {conn ctx va : Nat} {data : List Byte} {c : Conn} (hc : connFor s conn ctx = some c) (h1 : 1 ≤ data.length)
  (h2 : data.length ≤ 4096)
include hc h1 h2

theorem evBilathWrite_of_places {l : List Xl} {u : State}
    (h : bilathPlaces ctx (cluOf ((coresOf s ctx).headD 0)) va data.length s = .ok (l, u)) :
    evBilathWrite conn ctx va data s = some (countConn ((l.zip data).foldl (bilathByte ctx) (c.time, u)).2 conn
      { c with time := ((l.zip data).foldl (bilathByte ctx) (c.time, u)).1 }) := by
  unfold evBilathWrite
  simp only [hc, bilathLength h1 h2, h, Bool.false_eq_true, if_false]
theorem evBilathWrite_of_denied {cause a : Nat}
    (h : bilathPlaces ctx (cluOf ((coresOf s ctx).headD 0)) va data.length s = .error (cause, a)) :
    evBilathWrite conn ctx va data s = some (endConn s conn c cause (BitVec.ofNat 64 a) (accWord .X true false 1)
      (cluOf ((coresOf s ctx).headD 0))) := by
  unfold evBilathWrite
  simp only [hc, bilathLength h1 h2, h, Bool.false_eq_true, if_false]
end

theorem bilathPlaces_one {s u : State} {ctx k va : Nat} {x : Xl} (h : xlateEngine s ctx k .xwrite (va % 2 ^ 64) = .ok x u) :
    bilathPlaces ctx k va 1 s = .ok ([x], u) := by
  simp only [bilathPlaces, bind, Except.bind, Nat.add_zero, h, List.nil_append]

theorem bindOf_lt {c : CoreSt} {cls q : Nat} {m : Bool} (h : bindOf c cls = some (q, m)) : q < 16 := by
  unfold bindOf at h
  obtain ⟨i, hi, hb⟩ := List.exists_of_findSome?_eq_some h
  have hlt := List.mem_range.mp hi
  split at hb
  · split at hb
    · cases hb; omega
    · cases hb
  · cases hb
/-- An entry pushed at a core stands last in its queue register. -/
theorem qOf_pushAt (s : State) (core : Nat) {q : Nat} (hq : q < 16) (d : V512) :
    qOf (getCore (pushAt s core q d) core) q = qOf (getCore s core) q ++ [d] := by
  rw [pushAt, onCore, getCore_setCore, if_pos rfl, qSet, dif_pos hq]
  simp [qOf, hq]

theorem noteAfter_q (s : State) (core time c : Nat) : (getCore (noteAfter s core time) c).q = (getCore s c).q :=
  foldl_keeps (fun s => (getCore s c).q) (fun s _ => setThread_q s _ c _) _ _
theorem noteAfter_ctxs (s : State) (core time : Nat) : (noteAfter s core time).ctxs = s.ctxs :=
  foldl_keeps State.ctxs (fun s _ => setThread_ctxs s _ _) _ _
/-- Every thread set of the core comes after a time that it has been given, once the fold has reached it. -/
theorem foldl_raise_pts (core time : Nat) (l : List Nat) (s : State) {i : Nat}
    (h : i ∈ l ∨ time ≤ (threadAt s (4 * core + i)).pts) :
    time ≤ (threadAt (l.foldl (fun s t => onThread s (4 * core + t) fun th => { th with pts := max th.pts time }) s) (4 * core + i)).pts := by
  induction l generalizing s with
  | nil => simpa using h
  | cons j l ih =>
    refine ih _ ?_
    simp only [onThread, threadAt_setThread]
    by_cases hj : i = j
    · right; rw [hj, if_pos rfl]; exact Nat.le_max_right _ _
    · rw [if_neg (by omega)]
      rcases h with h | h
      · exact .inl ((List.mem_cons.mp h).resolve_left hj)
      · exact .inr h
theorem noteAfter_pts (s : State) (core time : Nat) {i : Nat} (h : i < 4) : time ≤ (threadAt (noteAfter s core time) (4 * core + i)).pts :=
  foldl_raise_pts core time _ s (.inl (List.mem_range.mpr h))

/-- A delivered class message: pushed, after the connection's writes, with its event, and counted (R304, R402, R403). -/
def bilathDeliver (s : State) (conn ctx core q : Nat) (ev : Option Nat) (data : V512) (c : Conn) : State :=
  countConn (raiseEvent (noteAfter (pushAt s core q data) core c.time) ctx ev).2 conn c
/-- An event and a count leave every core and thread set. -/
theorem countEvent_effect (u : State) (conn ctx : Nat) (ev : Option Nat) (c : Conn) :
    let t := countConn (raiseEvent u ctx ev).2 conn c
    (∀ core, getCore t core = getCore u core) ∧ (∀ g, threadAt t g = threadAt u g) ∧
      ∀ i, ev = some i → (getCtx t ctx).events = (getCtx u ctx).events ||| ((1 : BitVec 256) <<< i) := by
  refine ⟨fun _ => rfl, fun _ => rfl, fun i hi => ?_⟩
  subst hi
  change (getCtx (raiseEvent u ctx (some i)).2 ctx).events = _
  rw [raiseEvent, getCtx_setCtx]
theorem bilathDeliver_effect (s : State) (conn ctx core : Nat) {q : Nat} (hq : q < 16) (ev : Option Nat) (data : V512) (c : Conn) :
    let t := bilathDeliver s conn ctx core q ev data c
    qOf (getCore t core) q = qOf (getCore s core) q ++ [data] ∧ amFind t.conns conn = some { c with delivered := c.delivered + 1 } ∧
      (∀ i < 4, c.time ≤ (threadAt t (4 * core + i)).pts) ∧
      (∀ i, ev = some i → (getCtx t ctx).events = (getCtx s ctx).events ||| ((1 : BitVec 256) <<< i)) := by
  have hctxs : (noteAfter (pushAt s core q data) core c.time).ctxs = s.ctxs := (noteAfter_ctxs _ _ _).trans (setCore_ctxs _ _ _)
  have hqs : qOf (getCore (noteAfter (pushAt s core q data) core c.time) core) q = qOf (getCore s core) q ++ [data] := by
    rw [qOf, noteAfter_q, ← qOf, qOf_pushAt _ _ hq]
  have hpts := fun (i : Nat) (hi : i < 4) => noteAfter_pts (pushAt s core q data) core c.time hi
  unfold bilathDeliver
  generalize noteAfter (pushAt s core q data) core c.time = u at hctxs hqs hpts ⊢
  obtain ⟨hcore, hthread, hevents⟩ := countEvent_effect u conn ctx ev c
  simp only [hcore, hthread, countConn_conn]
  exact ⟨hqs, trivial, hpts, fun i hi => by rw [hevents i hi, getCtx_congr hctxs]⟩

/-- A refused class message ends its connection, and leaves the core's queue registers (R402). -/
theorem bilathClassMessage_ended {s : State} {conn ctx core cls : Nat} {ev : Option Nat} {data : V512} {c : Conn} {cause : Nat}
    (h : evBilathClass conn ctx core cls ev data s = some (endConn s conn c cause 0 0 (cluOf core))) :
    ∃ t, exec (.bilathClassMessage conn ctx core cls ev data) s = .next t ∧
      amFind t.conns conn = some { c with live := false, cause := cause } ∧ (getCore t core).q = (getCore s core).q :=
  ⟨_, next_of_some h, (endConn_effect s conn c cause 0 0 (cluOf core)).1, rfl⟩

section
variable {s : State} {conn ctx core : Nat} (cls : Nat) (ev : Option Nat) (data : V512) {c : Conn} (hc : connFor s conn ctx = some c)
include hc

theorem evBilathClass_of_other (h : (getCore s core).ctx ≠ some ctx) :
    evBilathClass conn ctx core cls ev data s = some (endConn s conn c cPERM 0 0 (cluOf core)) := by
  unfold evBilathClass
  simp only [hc, if_pos h]
theorem evBilathClass_of_unbound (h : (getCore s core).ctx = some ctx) (hb : bindOf (getCore s core) (cls % 16) = none) :
    evBilathClass conn ctx core cls ev data s = some (endConn s conn c cENGINE 0 0 (cluOf core)) := by
  unfold evBilathClass
  simp only [hc, h, ne_eq, not_true_eq_false, if_false, hb]
theorem evBilathClass_of_bound (h : (getCore s core).ctx = some ctx) {q : Nat} {m : Bool}
    (hb : bindOf (getCore s core) (cls % 16) = some (q, m)) : evBilathClass conn ctx core cls ev data s =
      if m || !roomAt s core q then none else some (bilathDeliver s conn ctx core q ev data c) := by
  unfold evBilathClass
  simp only [hc, h, ne_eq, not_true_eq_false, if_false, hb]
  rfl
end

end Machine
end Sys2Proof
end

section
/-! ### Management (R365, R366, R404, R407) -/

namespace Sys2Proof
namespace Machine

theorem crosses_of_mem {old new x : W64} {l : List W64} (hx : x ∈ l) (h : ¬ (old.toNat < x.toNat ↔ new.toNat < x.toNat)) :
    crosses old new l = true := List.any_eq_true.mpr ⟨x, hx, by simpa [BitVec.ult] using h⟩
theorem crosses_eq_false {old new : W64} {l : List W64} (h : ∀ x ∈ l, old.toNat < x.toNat ↔ new.toNat < x.toNat) :
    crosses old new l = false := List.any_eq_false.mpr fun x hx => by simp [BitVec.ult, h x hx]

section
variable {s : State} {m : Nat} (h : m < 288)
include h

/-- A monitor's first sample, or one without thresholds, is kept (log 65). -/
theorem execMonitorSample_first (v : W64) (hn : amFind s.monitors m = none ∨ amFind s.monCfg m = none) :
    execMonitorSample m v .sample s = .next { s with monitors := amSet s.monitors m v } := by
  rw [execMonitorSample, if_neg (Nat.not_le.mpr h)]
  rcases hn with hn | hn
  · simp only [hn]
  · cases amFind s.monitors m <;> simp only [hn]

variable {v old : W64} {at_ : List W64} (ho : amFind s.monitors m = some old)
include ho

theorem execMonitorSample_within {l : List (Nat × Option Nat)} (hl : amFind s.monCfg m = some (at_, l)) (hc : crosses old v at_ = false) :
    execMonitorSample m v .sample s = .next { s with monitors := amSet s.monitors m v } := by
  rw [execMonitorSample, if_neg (Nat.not_le.mpr h)]
  simp only [ho, hl, hc, Bool.false_eq_true, if_false]
theorem execMonitorSample_crosses {ctx : Nat} {b : Option Nat} (hl : amFind s.monCfg m = some (at_, [(ctx, b)]))
    (hc : crosses old v at_ = true) (hx : (getCtx s ctx).created = true) :
    execMonitorSample m v .sample s = .next (raiseEvent { s with monitors := amSet s.monitors m v } ctx b).2 := by
  rw [execMonitorSample, if_neg (Nat.not_le.mpr h)]
  simp only [ho, hl, hc, if_true, List.foldl_cons, List.foldl_nil]
  exact congrArg Host.Outcome.next (if_pos hx)
/-- A sample that crosses a threshold whose notice is one context's is kept, and raises the bit there. -/
theorem monitorSample_raises {ctx i : Nat} (hl : amFind s.monCfg m = some (at_, [(ctx, some i)])) (hc : crosses old v at_ = true)
    (hx : (getCtx s ctx).created = true) : ∃ t, exec (.monitorSample m v .sample) s = .next t ∧ amFind t.monitors m = some v ∧
      (getCtx t ctx).events = (getCtx s ctx).events ||| ((1 : BitVec 256) <<< i) := by
  refine ⟨_, execMonitorSample_crosses h ho hl hc hx, amFind_amSet_same _ _ _, ?_⟩
  rw [raiseEvent, getCtx_setCtx]
  rfl
end

/-- A telemetry register reads the count or the sample that it holds (R404; log 11). -/
theorem telemetryValue_eq (s : State) (reg : Nat) : (reg = 0 → telemetryValue s reg = BitVec.ofNat 64 s.corrected) ∧
    (reg = 1 → telemetryValue s reg = BitVec.ofNat 64 s.macsecDrops) ∧ (reg = 2 → telemetryValue s reg = BitVec.ofNat 64 s.retransmits) ∧
    (16 ≤ reg → ∀ x, amFind s.monitors (reg - 16) = some x → telemetryValue s reg = x) := by
  refine ⟨?_, ?_, ?_, fun h x hx => ?_⟩
  · rintro rfl; rfl
  · rintro rfl; rfl
  · rintro rfl; rfl
  · match reg, h with
    | n + 16, _ => change (amFind s.monitors (n + 16 - 16)).getD _ = x; rw [hx]; rfl

/-- A request that offers other algorithms, or asks for what there is not, is answered by an error (R366; log 60). -/
theorem execSpdmRequest_of_none {s : State} {r : Spdm} {hashOk sigOk : Bool}
    (h : hashOk = false ∨ sigOk = false ∨ spdmAnswer s r = none) :
    execSpdmRequest r hashOk sigOk s = .next { s with mgmtOut := s.mgmtOut ++ [spdmError] } := by
  have hn : (if hashOk && sigOk then spdmAnswer s r else none) = none := by
    rcases h with h | h | h <;> simp [h]
  unfold execSpdmRequest
  rw [hn]
/-- Sessions that an answered request opens (R366). -/
def spdmOpens (r : Spdm) : Nat := match r with
  | .keyExchange _ => 1
  | _ => 0
theorem execSpdmRequest_of_some {s : State} {r : Spdm} {hashOk sigOk : Bool} {l : List (BitVec 512)} (h : spdmAnswer s r = some l)
    (hh : hashOk = true) (hs : sigOk = true) : execSpdmRequest r hashOk sigOk s =
      .next { s with mgmtOut := s.mgmtOut ++ l, sessions := s.sessions + spdmOpens r } := by
  unfold execSpdmRequest
  simp only [hh, hs, Bool.and_self, if_true, h]
  cases r <;> rfl

end Machine
end Sys2Proof
end

section
/-! ### The statement, event by event -/

namespace Sys2Proof
namespace Machine

/-- Settles O60, event by event: each event's own lemmas say what it answers in the cases of its rules. -/
theorem hostLinkScaleOutAndManagement : Obligations.HostLinkScaleOutAndManagement := by
  unfold Obligations.HostLinkScaleOutAndManagement
  refine ⟨?doorbell, ?job, ?completion, ?aperture, ?ranges, ?write, ?message, ?counts, ?telemetry, ?spdm, ?measured, ?sample⟩
  case doorbell => exact fun s part tail hp => congrArg Host.Outcome.next (if_pos hp)
  case job =>
    refine fun s part ctx slot base len hp hc hcp hl => ⟨fun hn => ?_, fun hn hb => ?_, fun hn hb => ?_, fun hn hb => ?_⟩
    · exact next_of_none (evJob_of_not_next hp hc hcp hl hn)
    · exact jobDescriptor_malformed hp hc hcp hl hn ((jobBad_iff _).mpr hb)
    · exact jobDescriptor_waits hp hc hcp hl hn fun h => hb ((jobBad_iff _).mp h)
    · exact jobDescriptor_takes hp hc hcp hl hn fun h => hb ((jobBad_iff _).mp h)
  case completion =>
    refine fun s part slot base len => ⟨fun h => ?_, fun hp hl hr => ⟨fun e l h => ?_, fun h hf => ?_, fun e cause count => ?_⟩⟩
    · exact next_of_none (evJobDone_of_refused h)
    · exact ⟨_, next_of_some (evJobDone_of_waiting hp hl hr h), getPart_writeEntry s part slot base len e l,
        fun c => writeEntry_bytes c part slot base len e l⟩
    · exact next_of_none (evJobDone_of_idle hp hl hr h hf)
    · exact jobCompletion_quiet hp hl hr
  case aperture =>
    refine fun s part slot off data => ⟨fun h write => next_of_none (evAperture_of_shut off write data h), fun ho b hd => ?_⟩
    subst hd
    refine ⟨fun h => hostAperture_outside off b ho (aperturePlace_of_outside h), fun a h36 ha => ?_⟩
    have place : aperturePlace (getPart s part) off = some a := (if_pos h36).trans ha
    exact ⟨hostAperture_home off b ho place, hostAperture_host off b ho place⟩
  case ranges => exact fun p off hon ho => aperture_first p hon ho
  case write =>
    refine fun s conn ctx va data => ⟨fun h => ?_, fun c hc h1 h2 => ⟨fun l u h => ?_, fun cause a h => ?_⟩, fun c x u b hc hx => ?_⟩
    · exact next_of_none (evBilathWrite_of_closed va data h)
    · exact ⟨_, next_of_some (evBilathWrite_of_places hc h1 h2 h), _, bilathBytes_time ctx (l.zip data) (c.time, u), countConn_conn _ _ _⟩
    · obtain ⟨hconn, hmem, hlines, hserv, -⟩ := endConn_effect s conn c cause (BitVec.ofNat 64 a) (accWord .X true false 1)
        (cluOf ((coresOf s ctx).headD 0))
      exact ⟨_, next_of_some (evBilathWrite_of_denied hc h1 h2 h), hconn, hmem, hlines, hserv⟩
    · exact next_of_some (evBilathWrite_of_places (data := [b]) hc (by simp) (by simp) (bilathPlaces_one hx))
  case message =>
    refine fun s conn ctx core cls ev data c hc => ⟨fun h => ?_, fun h hb => ?_, fun q h hb => ?_, fun q h hb => ⟨fun hr => ?_, fun hr => ?_⟩⟩
    · exact bilathClassMessage_ended (evBilathClass_of_other cls ev data hc h)
    · exact bilathClassMessage_ended (evBilathClass_of_unbound cls ev data hc h hb)
    · exact next_of_none (evBilathClass_of_bound cls ev data hc h hb)
    · exact next_of_none (by rw [evBilathClass_of_bound cls ev data hc h hb, hr]; rfl)
    · exact ⟨_, next_of_some (by rw [evBilathClass_of_bound cls ev data hc h hb, hr]; rfl),
        bilathDeliver_effect s conn ctx core (bindOf_lt hb) ev data c⟩
  case counts => exact fun s port conn => ⟨rfl, rfl, rfl, rfl⟩
  case telemetry => exact fun s reg => ⟨telemetryValue s reg, rfl, telemetryValue_eq s reg⟩
  case spdm =>
    refine fun s r hashOk sigOk => ⟨fun h => execSpdmRequest_of_none (h.imp_right .inl), ?_, ?_, ?_, ?_⟩
    · rintro i rfl
      exact ⟨fun m hm => execSpdmRequest_of_some (by rw [spdmAnswer, hm]; rfl),
        fun hm => execSpdmRequest_of_none (.inr (.inr (by rw [spdmAnswer, hm]; rfl)))⟩
    · rintro n rfl
      exact ⟨fun hn => execSpdmRequest_of_some (if_pos hn), fun hn => execSpdmRequest_of_none (.inr (.inr (if_neg hn)))⟩
    · rintro x rfl
      exact execSpdmRequest_of_some rfl
    · rintro v rfl
      exact execSpdmRequest_of_some rfl
  case measured =>
    intro s i h4 hi
    rw [measurement, if_neg h4, if_neg (by omega)]
  case sample =>
    refine fun s m v => ⟨fun h act => ?_, fun h => ⟨fun at_ l => ?_, fun hn => ?_, fun old at_ l ho hl => ⟨fun same => ?_, ?_⟩⟩⟩
    · exact congrArg Host.Outcome.next (if_pos h)
    · exact congrArg Host.Outcome.next (if_neg (Nat.not_le.mpr h))
    · exact execMonitorSample_first h v hn
    · exact execMonitorSample_within h ho hl (crosses_eq_false same)
    · rintro x hx hcross ctx i rfl hcreated
      exact monitorSample_raises h ho hl (crosses_of_mem hx hcross) hcreated

end Machine
end Sys2Proof
end

section
/-!
### O6: the canonical form of the two memories

`Keeps s t` says that canonical memory in `s` makes canonical memory in `t`; the predicates after it say the same of each shape of
answer that the model's functions have. Then one lemma `f_keeps` per function `f` of the model, in the model's order.
-/
namespace Sys2Proof
namespace Machine

/-- Canonical memory in `s` makes canonical memory in `t`. -/
def Keeps (s t : State) : Prop := s.MemoryCanonical → t.MemoryCanonical

section
variable {s t u : State} {α β ε : Type}

theorem Keeps.refl (s : State) : Keeps s s := id
theorem Keeps.trans (h : Keeps s t) (k : Keeps t u) : Keeps s u := k ∘ h
/-- An update of everything but the two memories: one lemma for every `{ t with … }` of the model that leaves them. -/
theorem Keeps.update {here released basePts pktNum keyNum ticks corrected macsecDrops retransmits sessions steps : Nat} {th : Thread}
    {core : CoreSt} {cores : AMap CoreSt} {clusters : AMap Cluster} {ctxs : AMap Context} {parts : AMap Partition} {memKey : AMap Nat}
    {older : AMap (V512 × Option Nat)} {lines : AMap Line} {pathTime fenced : Vector Nat 9} {windows : AMap (Vector W64 4)}
    {packets : List Packet} {services : List Service} {waiting : List Waiting} {conns : AMap Conn} {boot : BootStage}
    {monitors : AMap W64} {monCfg : AMap (List W64 × List (Nat × Option Nat))} {meas : AMap (BitVec 256)} {cycle rtime : W64}
    {hostOut : List W64} {mgmtOut : List (BitVec 512)} {agenda : List Turn}
    (k : Keeps s t) : Keeps s { t with
      here, th, core, cores, clusters, ctxs, parts, memKey, older, lines, pathTime, released, fenced, basePts, windows, packets,
      pktNum, services, waiting, conns, boot, keyNum, monitors, monCfg, meas, cycle, ticks, rtime, corrected, macsecDrops, retransmits,
      hostOut, mgmtOut, sessions, agenda, steps } := k
/-- Bytes written in host memory. -/
theorem Keeps.hostBytes {l : List (Nat × Byte)} (k : Keeps s t) : Keeps s { t with host := memSetAll t.host l } :=
  fun c => ⟨(k c).1, memSetAll_wf (k c).2⟩
theorem Keeps.pair {r : α × State} {a : α} (k : Keeps s r.2) (h : r = (a, t)) : Keeps s t := by rw [h] at k; exact k
theorem HomeStep.keeps (h : HomeStep s t) : Keeps s t := h.2
theorem HomeQuiet.keeps (h : HomeQuiet s t) : Keeps s t := h.1.2
theorem Keeps.foldl {f : State → α → State} (h : ∀ s x, Keeps s (f s x)) {l : List α} {s : State} : Keeps s (l.foldl f s) := by
  induction l generalizing s with
  | nil => exact .refl s
  | cons x l ih => exact (h s x).trans ih
theorem Keeps.foldl_pair {f : β × State → α → β × State} (h : ∀ r x, Keeps r.2 (f r x).2) {l : List α} {r : β × State} :
    Keeps r.2 (l.foldl f r).2 := by
  induction l generalizing r with
  | nil => exact .refl r.2
  | cons x l ih => exact (h r x).trans ih
theorem Keeps.ite {c : Prop} [Decidable c] (h : Keeps s t) (k : Keeps s u) : Keeps s (if c then t else u) := by
  split
  · exact h
  · exact k

/-- The same of the state that an answer holds, where there is an answer. -/
def KeepsOpt (π : α → State) (s : State) (o : Option α) : Prop := ∀ a, o = some a → Keeps s (π a)
theorem KeepsOpt.none {π : α → State} : KeepsOpt π s none := fun _ h => nomatch h
theorem KeepsOpt.some {π : α → State} {a : α} (h : Keeps s (π a)) : KeepsOpt π s (some a) := fun _ e => Option.some.inj e ▸ h
theorem KeepsOpt.ite {π : α → State} {c : Prop} [Decidable c] {a b : Option α} (h : KeepsOpt π s a) (k : KeepsOpt π s b) :
    KeepsOpt π s (if c then a else b) := by
  split
  · exact h
  · exact k
theorem KeepsOpt.snd {r : Option (α × State)} {a : α} (k : KeepsOpt Prod.snd s r) (h : r = Option.some (a, t)) : Keeps s t := k _ h
theorem KeepsOpt.after {π : α → State} {o : Option α} (h : Keeps s t) (k : KeepsOpt π t o) : KeepsOpt π s o :=
  fun a e => h.trans (k a e)
theorem KeepsOpt.getD {o : Option State} (h : KeepsOpt (fun t => t) s o) (k : Keeps s t) : Keeps s (o.getD t) := by
  cases o with
  | none => exact k
  | some a => exact h a rfl
theorem KeepsOpt.map {π : α → State} {ρ : β → State} {f : α → β} {o : Option α} (h : KeepsOpt π s o)
    (k : ∀ a, Keeps (π a) (ρ (f a))) : KeepsOpt ρ s (o.map f) := by
  cases o with
  | none => exact .none
  | some a => exact .some ((h a rfl).trans (k a))
theorem KeepsOpt.mapOf {ρ : β → State} {f : α → β} {o : Option α} (k : ∀ a, Keeps s (ρ (f a))) : KeepsOpt ρ s (o.map f) := by
  cases o with
  | none => exact .none
  | some a => exact .some (k a)
theorem KeepsOpt.bind {π : α → State} {ρ : β → State} {f : α → Option β} {o : Option α} (h : KeepsOpt π s o)
    (k : ∀ a, KeepsOpt ρ (π a) (f a)) : KeepsOpt ρ s (o.bind f) := by
  cases o with
  | none => exact .none
  | some a => exact .after (h a rfl) (k a)
theorem KeepsOpt.findSome {ρ : β → State} {f : α → Option β} {l : List α} (k : ∀ a, KeepsOpt ρ s (f a)) :
    KeepsOpt ρ s (l.findSome? f) :=
  
  fun b h => by
    obtain ⟨a, -, ha⟩ := List.exists_of_findSome?_eq_some h
    exact k a b ha
/-- The same of a computation that may fail with an answer that holds no state. -/
def KeepsExc (π : α → State) (s : State) (r : Except ε α) : Prop := ∀ a, r = .ok a → Keeps s (π a)
theorem KeepsExc.error {π : α → State} {e : ε} : KeepsExc π s (.error e) := fun _ h => nomatch h
theorem KeepsExc.ok {π : α → State} {a : α} (h : Keeps s (π a)) : KeepsExc (ε := ε) π s (.ok a) := fun _ e => Except.ok.inj e ▸ h
theorem KeepsExc.ite {π : α → State} {c : Prop} [Decidable c] {a b : Except ε α} (h : KeepsExc π s a) (k : KeepsExc π s b) :
    KeepsExc π s (if c then a else b) := by
  split
  · exact h
  · exact k
theorem KeepsExc.snd {r : Except ε (α × State)} {a : α} (k : KeepsExc Prod.snd s r) (h : r = .ok (a, t)) : Keeps s t := k _ h
theorem KeepsExc.after {π : α → State} {o : Except ε α} (h : Keeps s t) (k : KeepsExc π t o) : KeepsExc π s o :=
  fun a e => h.trans (k a e)
theorem KeepsExc.bind {π : α → State} {ρ : β → State} {x : Except ε α} {f : α → Except ε β} (h : KeepsExc π s x)
    (k : ∀ a, KeepsExc ρ (π a) (f a)) : KeepsExc ρ s (x >>= f) := by
  cases x with
  | ok a => exact .after (h a rfl) (k a)
  | error e => exact .error
theorem KeepsExc.map {π : α → State} {ρ : β → State} {x : Except ε α} {f : α → β} (h : KeepsExc π s x)
    (k : ∀ a, Keeps (π a) (ρ (f a))) : KeepsExc ρ s (x.map f) := by
  cases x with
  | ok a => exact .ok ((h a rfl).trans (k a))
  | error e => exact .error
/-- The same of an instruction's body, and of the reads that stand where it stops. -/
def KeepsBody (π : α → State) (s : State) (r : Except Stop α) : Prop :=
  (∀ a, r = .ok a → Keeps s (π a)) ∧ ∀ u t, r = .error (.after u t) → Keeps s u
theorem KeepsBody.ok {π : α → State} {a : α} (h : Keeps s (π a)) : KeepsBody π s (.ok a) :=
  ⟨fun _ e => Except.ok.inj e ▸ h, fun _ _ e => nomatch e⟩
theorem KeepsBody.stall {π : α → State} : KeepsBody π s (.error .stall) := ⟨fun _ e => (nomatch e), fun _ _ e => nomatch e⟩
theorem KeepsBody.trap {π : α → State} {t : Trap} : KeepsBody π s (.error (.trap t)) := ⟨fun _ e => (nomatch e), fun _ _ e => nomatch e⟩
theorem KeepsBody.page {π : α → State} {t : Trap} : KeepsBody π s (.error (.page t)) := ⟨fun _ e => (nomatch e), fun _ _ e => nomatch e⟩
theorem KeepsBody.qfull {π : α → State} {a : W64} : KeepsBody π s (.error (.qfull a)) :=
  ⟨fun _ e => (nomatch e), fun _ _ e => nomatch e⟩
theorem KeepsBody.stop {π : α → State} {t : Trap} (h : Keeps s u) : KeepsBody π s (.error (.after u t)) :=
  ⟨fun _ e => (nomatch e), fun _ _ e => by cases e; exact h⟩
theorem KeepsBody.ite {π : α → State} {c : Prop} [Decidable c] {a b : Except Stop α} (h : KeepsBody π s a) (k : KeepsBody π s b) :
    KeepsBody π s (if c then a else b) := by
  split
  · exact h
  · exact k
theorem KeepsBody.after {π : α → State} {o : Except Stop α} (h : Keeps s t) (k : KeepsBody π t o) : KeepsBody π s o :=
  ⟨fun a e => h.trans (k.1 a e), fun u x e => h.trans (k.2 u x e)⟩
theorem KeepsBody.bind {π : α → State} {ρ : β → State} {x : Except Stop α} {f : α → Except Stop β} (h : KeepsBody π s x)
    (k : ∀ a, KeepsBody ρ (π a) (f a)) : KeepsBody ρ s (x >>= f) := by
  cases x with
  | ok a => exact .after (h.1 a rfl) (k a)
  | error e => exact ⟨fun _ e => (nomatch e), fun u t e => h.2 u t (by cases e; rfl)⟩
theorem KeepsBody.map {π : α → State} {ρ : β → State} {x : Except Stop α} {f : α → β} (h : KeepsBody π s x)
    (k : ∀ a, Keeps (π a) (ρ (f a))) : KeepsBody ρ s (x.map f) := by
  cases x with
  | ok a => exact .ok ((h.1 a rfl).trans (k a))
  | error e => exact ⟨fun _ e => (nomatch e), fun u t e => h.2 u t (by cases e; rfl)⟩
/-- The same of a computation whose failure holds a state too. -/
def KeepsBoth (π : ε → State) (ρ : α → State) (s : State) (r : Except ε α) : Prop :=
  (∀ e, r = .error e → Keeps s (π e)) ∧ ∀ a, r = .ok a → Keeps s (ρ a)
theorem KeepsBoth.ok {π : ε → State} {ρ : α → State} {a : α} (h : Keeps s (ρ a)) : KeepsBoth π ρ s (.ok a) :=
  ⟨fun _ e => (nomatch e), fun _ e => Except.ok.inj e ▸ h⟩
theorem KeepsBoth.error {π : ε → State} {ρ : α → State} {a : ε} (h : Keeps s (π a)) : KeepsBoth π ρ s (.error a) :=
  ⟨fun _ e => Except.error.inj e ▸ h, fun _ e => nomatch e⟩
theorem KeepsBoth.after {π : ε → State} {ρ : α → State} {r : Except ε α} (h : Keeps s t) (k : KeepsBoth π ρ t r) : KeepsBoth π ρ s r :=
  ⟨fun a e => h.trans (k.1 a e), fun a e => h.trans (k.2 a e)⟩
theorem KeepsBoth.bind {π : ε → State} {ρ : α → State} {σ : β → State} {x : Except ε α} {f : α → Except ε β}
    (h : KeepsBoth π ρ s x) (k : ∀ a, KeepsBoth π σ (ρ a) (f a)) : KeepsBoth π σ s (x >>= f) := by
  cases x with
  | ok a => exact .after (h.2 a rfl) (k a)
  | error e => exact .error (h.1 e rfl)
theorem KeepsBoth.map {π : ε → State} {ρ : α → State} {σ : β → State} {x : Except ε α} {f : α → β} (h : KeepsBoth π ρ s x)
    (k : ∀ a, Keeps (ρ a) (σ (f a))) : KeepsBoth π σ s (x.map f) := by
  cases x with
  | ok a => exact .ok ((h.2 a rfl).trans (k a))
  | error e => exact .error (h.1 e rfl)
/-- The same of what a step or a meaning answers. -/
def KeepsOut (s : State) (o : Out) : Prop := ∀ t, o = .next t → Keeps s t
theorem KeepsOut.next (h : Keeps s t) : KeepsOut s (.next t) := fun _ e => by cases e; exact h
theorem KeepsOut.fault {f : Fault} : KeepsOut s (.fault f) := fun _ e => nomatch e
theorem KeepsOut.after {o : Out} (h : Keeps s t) (k : KeepsOut t o) : KeepsOut s o := fun a e => h.trans (k a e)
/-- The same of a translation, of a fetched line, of the check of a target and of an engine's access. -/
def KeepsX (s : State) (r : XRes) : Prop := ∀ x t, r = .ok x t → Keeps s t
theorem KeepsX.ok {x : Xl} (h : Keeps s t) : KeepsX s (.ok x t) := fun _ _ e => by cases e; exact h
theorem KeepsX.page : KeepsX s .page := fun _ _ e => nomatch e
theorem KeepsX.perm : KeepsX s .perm := fun _ _ e => nomatch e
theorem KeepsX.after {r : XRes} (h : Keeps s t) (k : KeepsX t r) : KeepsX s r := fun a x e => h.trans (k a x e)
def KeepsLine (s : State) (r : LineRes) : Prop := ∀ l t, r = .ok l t → Keeps s t
theorem KeepsLine.ok {l : V512} (h : Keeps s t) : KeepsLine s (.ok l t) := fun _ _ e => by cases e; exact h
theorem KeepsLine.page : KeepsLine s .page := fun _ _ e => nomatch e
theorem KeepsLine.perm : KeepsLine s .perm := fun _ _ e => nomatch e
theorem KeepsLine.after {r : LineRes} (h : Keeps s t) (k : KeepsLine t r) : KeepsLine s r := fun a x e => h.trans (k a x e)
def KeepsTgt (s : State) (r : TgtRes) : Prop := ∀ t, r = .ok t ∨ r = .bad t ∨ r = .linepar t → Keeps s t
theorem KeepsTgt.ok (h : Keeps s t) : KeepsTgt s (.ok t) := fun _ e => by rcases e with e | e | e <;> cases e; exact h
theorem KeepsTgt.bad (h : Keeps s t) : KeepsTgt s (.bad t) := fun _ e => by rcases e with e | e | e <;> cases e; exact h
theorem KeepsTgt.linepar (h : Keeps s t) : KeepsTgt s (.linepar t) := fun _ e => by rcases e with e | e | e <;> cases e; exact h
theorem KeepsTgt.page : KeepsTgt s .page := fun _ e => by rcases e with e | e | e <;> cases e
theorem KeepsTgt.perm : KeepsTgt s .perm := fun _ e => by rcases e with e | e | e <;> cases e
def KeepsEng (π : α → State) (s : State) (r : EngRes α) : Prop := ∀ a, r = .ok a → Keeps s (π a)
theorem KeepsEng.ok {π : α → State} {a : α} (h : Keeps s (π a)) : KeepsEng π s (.ok a) := fun _ e => by cases e; exact h
theorem KeepsEng.wait {π : α → State} : KeepsEng π s .wait := fun _ e => nomatch e
theorem KeepsEng.fault {π : α → State} {a b : W64} {c : Nat} : KeepsEng π s (.fault a b c) := fun _ e => nomatch e
theorem KeepsEng.snd {r : EngRes (α × State)} {a : α} (k : KeepsEng Prod.snd s r) (h : r = .ok (a, t)) : Keeps s t := k _ h
theorem KeepsEng.after {π : α → State} {r : EngRes α} (h : Keeps s t) (k : KeepsEng π t r) : KeepsEng π s r :=
  fun a e => h.trans (k a e)
end

/-! #### Ops -/

theorem setCore_keeps {s : State} {c : Nat} {x : CoreSt} : Keeps s (setCore s c x) := by
  unfold setCore
  split
  · exact Keeps.update (.refl _)
  · exact Keeps.update (.refl _)

theorem setThread_keeps {s : State} {g : Nat} {e : Thread} : Keeps s (setThread s g e) := by
  unfold setThread
  split
  · exact Keeps.update (.refl _)
  · exact setCore_keeps

theorem withTh_keeps {s : State} {f : Thread → Thread} : Keeps s (withTh s f) := Keeps.update (.refl _)
theorem withRf_keeps {s : State} {f : Regs → Regs} : Keeps s (withRf s f) := Keeps.update (.refl _)
theorem withCore_keeps {s : State} {f : CoreSt → CoreSt} : Keeps s (withCore s f) := Keeps.update (.refl _)
theorem onCore_keeps {s : State} {c : Nat} {f : CoreSt → CoreSt} : Keeps s (onCore s c f) := setCore_keeps
theorem onThread_keeps {s : State} {g : Nat} {f : Thread → Thread} : Keeps s (onThread s g f) := setThread_keeps

theorem focus_keeps {s : State} {g : Nat} : Keeps s (focus s g) := by
  unfold focus
  split
  · exact .refl _
  · exact Keeps.update (.refl _)

theorem setCtx_keeps {s : State} {c : Nat} {x : Context} : Keeps s (setCtx s c x) := Keeps.update (.refl _)
theorem onCtx_keeps {s : State} {c : Nat} {f : Context → Context} : Keeps s (onCtx s c f) := setCtx_keeps
theorem setPart_keeps {s : State} {p : Nat} {x : Partition} : Keeps s (setPart s p x) := Keeps.update (.refl _)
theorem onPart_keeps {s : State} {p : Nat} {f : Partition → Partition} : Keeps s (onPart s p f) := setPart_keeps
theorem setClu_keeps {s : State} {k : Nat} {x : Cluster} : Keeps s (setClu s k x) := Keeps.update (.refl _)
theorem onClu_keeps {s : State} {k : Nat} {f : Cluster → Cluster} : Keeps s (onClu s k f) := setClu_keeps
theorem raiseEvent_keeps {s : State} {ctx : Nat} {b : Option Nat} : Keeps s (raiseEvent s ctx b).2 := setCtx_keeps
theorem sendMsix_keeps {s : State} {part v : Nat} : Keeps s (sendMsix s part v) := onPart_keeps
theorem sendService_keeps {s : State} {ctx core : Nat} {d : V512} : Keeps s (sendService s ctx core d) := Keeps.update (.refl _)
theorem newFault_keeps {s : State} {ctx unit ts cluster : Nat} : Keeps s (newFault s ctx unit ts cluster).2 := setClu_keeps

theorem sendFault_keeps {s : State} {ctx : Nat} {fid va acc cw : W64} {evs : Nat} : Keeps s (sendFault s ctx fid va acc cw evs) :=
  sendService_keeps

theorem sendRecord_keeps {s : State} {ctx : Nat} {fid va acc cw : W64} {evs : Nat} : Keeps s (sendRecord s ctx fid va acc cw evs) :=
  sendMsix_keeps.trans sendFault_keeps

theorem dropNoWriteBack_keeps {s : State} {l : Nat} : Keeps s (dropNoWriteBack s l) := (dropNoWriteBack_step _ _).keeps
theorem drainLine_keeps {s : State} {l : Nat} : Keeps s (drainLine s l) := (drainLine_step _ _).keeps
theorem evictLine_keeps {s : State} {l : Nat} : Keeps s (evictLine s l) := (evictLine_step _ _).keeps
theorem evictOne_keeps {s : State} {m : List Nat} : Keeps s (evictOne s m) := evictLine_keeps

theorem putBytes_keeps {s : State} {ctx slot : Nat} {l : List (Nat × Byte)} : Keeps s (putBytes s ctx slot l) :=
  (putBytes_step _ _ _ _).keeps

theorem notePath_keeps {s : State} {p : Path} {w : Nat} : Keeps s (notePath s p w) := (notePath_step _ _ _).keeps

theorem stampLines_keeps {s : State} {p : Path} {pts : Nat} {ls : List Nat} : Keeps s (stampLines s p pts ls).2 :=
  (stampLines_step _ _ _ _).keeps

theorem alignSlot_keeps {s : State} {slot l : Nat} : Keeps s (alignSlot s slot l) := (alignSlot_step _ _ _).keeps
theorem mergeU_keeps {s : State} {k l : Nat} {v : UCopy} : Keeps s (mergeU s k l v) := (mergeU_step _ _ _ _).keeps
theorem mergeAllU_keeps {s : State} {k : Nat} : Keeps s (mergeAllU s k) := (mergeAllU_step _ _).keeps
theorem touchLine_keeps {s : State} {slot l : Nat} : Keeps s (touchLine s slot l) := (touchLine_step _ _ _).keeps
theorem landFill_keeps {s : State} {ctx slot sec : Nat} : Keeps s (landFill s ctx slot sec) := (landFill_step _ _ _ _).keeps
theorem fillSector_keeps {s : State} {ctx slot sec : Nat} : Keeps s (fillSector s ctx slot sec) := (fillSector_step _ _ _ _).keeps
theorem homeRead_keeps {s : State} {ctx slot pa n : Nat} : Keeps s (homeRead s ctx slot pa n).2 := (homeRead_step _ _ _ _ _).keeps

theorem homeWrite_keeps {s : State} {ctx slot : Nat} {p : Path} {pts : Nat} {l : List (Nat × Byte)} :
    Keeps s (homeWrite s ctx slot p pts l).2 :=
  (homeWrite_step _ _ _ _ _ _).keeps

theorem walk_keeps {ctx : Nat} {acc : Acc} {user : Bool} {va n a : Nat} {s : State} : Keeps s (walk ctx acc user va n a s).2 :=
  (walk_quiet _ _ _ _ _ _ _).keeps

theorem takeTlb_keeps {s : State} {core : Option Nat} {cluster : Nat} {e : TlbEntry} : Keeps s (takeTlb s core cluster e) := by
  unfold takeTlb
  refine Keeps.trans ?_ onClu_keeps
  split
  · exact onCore_keeps
  · exact .refl _

theorem keyCheck_keeps {s : State} {x : Xl} : KeepsX s (keyCheck s x) := by
  unfold keyCheck
  split
  · exact .ok (.refl _)
  · exact .perm

theorem dropWalks_keeps {s : State} {ctx cluster : Nat} : Keeps s (dropWalks s ctx cluster) := onClu_keeps
theorem endWalk_keeps {s : State} {ctx cluster va : Nat} : Keeps s (endWalk s ctx cluster va) := onClu_keeps

theorem leafFor_keeps {s : State} {ctx cluster : Nat} {core : Option Nat} {acc : Acc} {user : Bool} {va root : Nat} :
    Keeps s (leafFor s ctx cluster core acc user va root).2 := by
  unfold leafFor
  dsimp only
  split
  · exact .refl _
  · exact endWalk_keeps.trans walk_keeps

theorem xlate_keeps {s : State} {ctx cluster : Nat} {core : Option Nat} {acc : Acc} {va : Nat} :
    KeepsX s (xlate s ctx cluster core acc va) := by
  unfold xlate
  dsimp only
  split
  · split
    · exact .perm
    · exact keyCheck_keeps
  · split
    · exact .page
    · split
      · exact .page
      · exact .perm
      · next h2 => exact .after ((leafFor_keeps.pair h2).trans takeTlb_keeps) keyCheck_keeps

theorem xlateCore_keeps {s : State} {acc : Acc} {isH : Bool} {va : Nat} : KeepsX s (xlateCore s acc isH va) := by
  unfold xlateCore
  split
  · exact .page
  · split
    · next h1 =>
        split
        · exact .ok (xlate_keeps _ _ h1)
        · exact .perm
    · exact xlate_keeps

theorem xlateEngine_keeps {s : State} {ctx cluster : Nat} {acc : Acc} {va : Nat} : KeepsX s (xlateEngine s ctx cluster acc va) := by
  unfold xlateEngine
  split
  · exact .perm
  · split
    · exact .page
    · split
      · next h2 =>
          split
          · exact .perm
          · exact .ok (xlate_keeps _ _ h2)
      · exact xlate_keeps

theorem evWalk_keeps {k ctx va : Nat} {s : State} : KeepsOpt (fun t => t) s (evWalk k ctx va s) := by
  unfold evWalk
  dsimp only
  split
  · exact .none
  · split
    · exact .none
    · split
      · exact .some (homeRead_keeps.trans (endWalk_keeps.trans onClu_keeps))
      · exact .none

theorem poolLoaded_keeps {s : State} : Keeps s (poolLoaded s) := withTh_keeps.trans withCore_keeps
theorem poolStored_keeps {s : State} : Keeps s (poolStored s) := withTh_keeps.trans withCore_keeps
theorem poolWrote_keeps {s : State} {core : Nat} {p : Path} : Keeps s (poolWrote s core p) := onCore_keeps.trans notePath_keeps
theorem poolRead_keeps {s : State} {core : Nat} {p : Path} : Keeps s (poolRead s core p) := notePath_keeps
theorem homeSeen_keeps {s : State} {p : Path} {pa : Nat} : Keeps s (homeSeen s p pa) := notePath_keeps

theorem leaseHome_keeps {s : State} {ctx slot pts : Nat} {secs : List Nat} : Keeps s (leaseHome s ctx slot pts secs).2 :=
  (leaseHome_step _ _ _ _ _).keeps

theorem keepCopies_keeps {s : State} {noL1 : Bool} {l : AMap L1Copy} : Keeps s (keepCopies s noL1 l) := withCore_keeps
theorem raisePts_keeps {s : State} {n : Nat} : Keeps s (raisePts s n) := withTh_keeps

theorem loadL1_keeps {s : State} {x : Xl} : KeepsOpt Prod.snd s (loadL1 s x) := by
  unfold loadL1
  split
  · split
    · exact .some raisePts_keeps
    · exact .none
  · exact .none

theorem loadHome_keeps {s : State} {x : Xl} {secs : List Nat} : Keeps s (loadHome s x secs).2 :=
  leaseHome_keeps.trans (keepCopies_keeps.trans raisePts_keeps)

theorem loadC_keeps {s : State} {x : Xl} : Keeps s (loadC s x).2 := by
  unfold loadC
  split
  · next h => exact loadL1_keeps _ h
  · exact loadHome_keeps

theorem loadK_keeps {s : State} {x : Xl} : Keeps s (loadK s x).2 := by
  unfold loadK
  split
  · split
    · exact notePath_keeps
    · exact loadC_keeps
  · exact loadC_keeps

theorem fetchLine_keeps {s : State} {va : Nat} : KeepsLine s (fetchLine s va) := by
  unfold fetchLine
  split
  · exact .perm
  · split
    · next h1 => exact .ok ((xlateCore_keeps _ _ h1).trans loadK_keeps)
    · exact .page
    · exact .perm

theorem refetchLine_keeps {s : State} {va : Nat} : KeepsLine s (refetchLine s va) := by
  unfold refetchLine
  split
  · next h => exact .ok ((xlateCore_keeps _ _ h).trans (withCore_keeps.trans loadHome_keeps))
  · exact .page
  · exact .perm

theorem checkedLine_keeps {s : State} {va : Nat} {good : V512 → Bool} : KeepsLine s (checkedLine s va good).2 := by
  unfold checkedLine
  split
  · next h =>
    split
    · exact .ok (fetchLine_keeps _ _ h)
    · split
      · next h2 => exact .ok ((fetchLine_keeps _ _ h).trans (refetchLine_keeps _ _ h2))
      · next r hr => exact .after (fetchLine_keeps _ _ h) refetchLine_keeps
  · exact fetchLine_keeps

theorem checkTarget_keeps {s : State} {va : W64} : KeepsTgt s (checkTarget s va) := by
  have line : ∀ {b l t}, checkedLine s va.toNat lparOk = (b, .ok l t) → Keeps s t := fun h =>
    checkedLine_keeps _ _ (congrArg Prod.snd h)
  unfold checkTarget
  split
  · exact .bad (.refl s)
  · split
    · next h => exact .linepar (line h)
    · next h =>
      split
      · exact .ok (line h)
      · exact .bad (line h)
    · exact .page
    · exact .perm

theorem doubleTrap_keeps {s : State} {e : Trap} : Keeps s (doubleTrap s e) :=
  newFault_keeps.trans (raiseEvent_keeps.trans (withTh_keeps.trans sendFault_keeps))

theorem saveFrame_keeps {s : State} {e : Trap} {fid : W64} {up : Bool} : Keeps s (saveFrame s e fid up) :=
  raiseEvent_keeps.trans (withCore_keeps.trans withRf_keeps)

theorem enterAt_keeps {s : State} {e : Trap} {vec fid : W64} {up : Bool} : Keeps s (enterAt s e vec fid up) := by
  unfold enterAt
  dsimp only
  split
  · next h => exact saveFrame_keeps.trans ((checkTarget_keeps _ (.inl h)).trans withTh_keeps)
  · next h => exact saveFrame_keeps.trans ((checkTarget_keeps _ (.inr (.inl h))).trans doubleTrap_keeps)
  · next h => exact saveFrame_keeps.trans ((checkTarget_keeps _ (.inr (.inr h))).trans doubleTrap_keeps)
  · exact saveFrame_keeps.trans doubleTrap_keeps
  · exact saveFrame_keeps.trans doubleTrap_keeps

theorem takeTrap_keeps {s : State} {e : Trap} : Keeps s (takeTrap s e) := by
  unfold takeTrap
  split
  · exact doubleTrap_keeps
  · exact enterAt_keeps

theorem takePage_keeps {s : State} {e : Trap} : Keeps s (takePage s e) := by
  unfold takePage
  dsimp only
  split
  · exact doubleTrap_keeps
  · split
    · exact Keeps.update (newFault_keeps.trans (enterAt_keeps.trans sendFault_keeps))
    · exact Keeps.update (newFault_keeps.trans (raiseEvent_keeps.trans (withTh_keeps.trans sendFault_keeps)))

theorem takeQfull_keeps {s : State} {addr : W64} : Keeps s (takeQfull s addr) := by
  unfold takeQfull
  dsimp only
  split
  · exact doubleTrap_keeps
  · split
    · exact enterAt_keeps
    · exact enterAt_keeps

theorem stalled_keeps {s : State} : Keeps s (stalled s) := withTh_keeps

theorem onStop_keeps {s : State} {x : Stop} (h : ∀ u t, x = .after u t → Keeps s u) : Keeps s (onStop s x) := by
  cases x with
  | stall => exact stalled_keeps
  | trap t => exact takeTrap_keeps
  | page t => exact takePage_keeps
  | qfull a => exact takeQfull_keeps
  | after u t => exact (h u t rfl).trans takeTrap_keeps

theorem KeepsBody.onStop {α : Type} {π : α → State} {s : State} {r : Except Stop α} {x : Stop} (k : KeepsBody π s r)
    (h : r = .error x) :
    Keeps s (onStop s x) := onStop_keeps fun u t e => k.2 u t (h.trans (congrArg _ e))

theorem runBody_keeps {s : State} {r : Except Stop State} (h : KeepsBody (fun t => t) s r) : Keeps s (runBody s r) := by
  cases r with
  | ok t => exact h.1 t rfl
  | error x => exact h.onStop rfl

theorem trapE_keeps {α : Type} {cause : Nat} {addr : W64} {π : α → State} {u : State} : KeepsBody π u (trapE cause addr) := .trap

theorem require_keeps {ok : Bool} {cause : Nat} {addr : W64} {u : State} : KeepsBody (fun _ => u) u (require ok cause addr) := by
  unfold require
  split
  · exact .ok (.refl _)
  · exact trapE_keeps

theorem ready_keeps {ok : Bool} {u : State} : KeepsBody (fun _ => u) u (ready ok) := by
  unfold ready
  split
  · exact .ok (.refl _)
  · exact .stall

theorem transfer_keeps {s : State} {tgt : W64} : Keeps s (transfer s tgt) := withTh_keeps

theorem transferChecked_keeps {s : State} {tgt : W64} : KeepsBody (fun t => t) s (transferChecked s tgt) := by
  unfold transferChecked
  split
  · next h => exact .ok ((checkTarget_keeps _ (.inl h)).trans transfer_keeps)
  · next h => exact .stop (checkTarget_keeps _ (.inr (.inl h)))
  · next h => exact .stop (checkTarget_keeps _ (.inr (.inr h)))
  · exact .page
  · exact .trap

theorem resumeFrame_keeps {s : State} {off : Nat} : Keeps s (resumeFrame s off) := withRf_keeps.trans withTh_keeps

/-! #### Operands -/

theorem setS_keeps {s : State} {n : Fin 32} {v : W64} : Keeps s (setS s n v) := withRf_keeps
theorem setP_keeps {s : State} {n : Fin 8} {v : W16} : Keeps s (setP s n v) := withRf_keeps
theorem setX_keeps {s : State} {n : Fin 8} {v : W32} : Keeps s (setX s n v) := withRf_keeps
theorem orFlags_keeps {s : State} {f : Nat} : Keeps s (orFlags s f) := withRf_keeps

theorem bit0Form_keeps {s : State} {p : Pred} {r : Except Stop State} (h : KeepsBody (fun t => t) s r) : Keeps s (bit0Form s p r) := by
  unfold bit0Form
  split
  · exact runBody_keeps h
  · exact .refl s

theorem elemForm_keeps {s : State} {p : Pred} {w : Nat} {r : Except Stop State} (h : KeepsBody (fun t => t) s r) :
    Keeps s (elemForm s p w r) := by
  unfold elemForm
  split
  · exact runBody_keeps h
  · exact .refl s

theorem writeSpec_keeps {s : State} {num : Nat} {v : W64} : Keeps s (writeSpec s num v) := withRf_keeps

theorem writeS_keeps {s : State} {o : SOp} {v : W64} : Keeps s (writeS s o v) := by
  unfold writeS
  split
  · exact setS_keeps
  · exact writeSpec_keeps

theorem popQ_keeps {s : State} {q : Nat} : Keeps s (popQ s q).2 := by
  unfold popQ
  split
  · exact .refl _
  · exact withCore_keeps.trans withTh_keeps

theorem pushQ_keeps {s : State} {q : Nat} {e : V512} : Keeps s (pushQ s q e) := withCore_keeps

theorem readV_keeps {s : State} {o : VOp} : Keeps s (readV s o).2 := by
  unfold readV
  split
  · exact popQ_keeps
  · exact .refl _

theorem writeVD_keeps {s : State} {o : VDst} {v : V512} : Keeps s (writeVD s o v) := by
  unfold writeVD
  split
  · exact withRf_keeps
  · exact withCore_keeps
  · exact pushQ_keeps

theorem writeV_keeps {s : State} {o : VOp} {v : V512} : Keeps s (writeV s o v) := writeVD_keeps

theorem vecChecks_keeps {s : State} {srcs : List VOp} {dst : Option VOp} {u : State} :
    KeepsBody (fun _ => u) u (vecChecks s srcs dst) :=
  .bind ready_keeps fun _ => require_keeps

/-! #### Access -/

theorem convWrite_keeps {o : MemC} {mask : W16} {d : VDst} {f : Nat → Nat × Nat} {s : State} : Keeps s (convWrite o mask d f s) :=
  orFlags_keeps.trans writeVD_keeps

theorem issueC_keeps {s : State} {q : CReq} : Keeps s (issueC s q) := withTh_keeps

theorem landRead_keeps {r : CReq} {tag : Nat} {rd : Nat → Nat → Nat} {s : State} : Keeps s (landRead r tag rd s) := by
  unfold landRead
  split
  · exact withRf_keeps
  · exact writeVD_keeps
  · exact writeVD_keeps
  · exact convWrite_keeps
  · exact .refl _

theorem endC_keeps {s : State} : Keeps s (endC s) := withTh_keeps

theorem takeReply_keeps {s : State} {g : Nat} {cs : AMap L1Copy} : Keeps s (takeReply s g cs) := by
  unfold takeReply
  dsimp only
  split
  · exact .refl _
  · exact focus_keeps.trans (keepCopies_keeps.trans (raisePts_keeps.trans (landRead_keeps.trans (endC_keeps.trans focus_keeps))))

theorem serveRead_keeps {g : Nat} {r : CReq} {secs : List Nat} {s : State} : Keeps s (serveRead g r secs s) :=
  leaseHome_keeps.trans (takeReply_keeps.trans (Keeps.foldl fun _ _ => takeReply_keeps))

theorem arrived_keeps {s : State} {g : Nat} : Keeps s (arrived s g) := onThread_keeps

theorem waitAt_keeps {s : State} {k g : Nat} : KeepsOpt (fun t => t) s (waitAt s k g) := by
  unfold waitAt
  split
  · exact .none
  · exact .some (arrived_keeps.trans onClu_keeps)

theorem leaveBuf_keeps {s : State} {k g : Nat} : Keeps s (leaveBuf s k g) := onClu_keeps

theorem readAtHome_keeps {g : Nat} {r : CReq} {s : State} : KeepsOpt (fun t => t) s (readAtHome g r s) := by
  unfold readAtHome
  dsimp only
  split
  · exact waitAt_keeps
  · split
    · exact .some ((Keeps.foldl fun _ _ => touchLine_keeps).trans (leaveBuf_keeps.trans serveRead_keeps))
    · split
      · split
        · exact .none
        · exact .some (leaveBuf_keeps.trans (arrived_keeps.trans onClu_keeps))
      · exact waitAt_keeps

theorem poolAccess_keeps {r : CReq} {s : State} : Keeps s (poolAccess r s) := by
  unfold poolAccess
  refine Keeps.trans ?_ endC_keeps
  split
  · exact poolLoaded_keeps.trans landRead_keeps
  · exact poolStored_keeps.trans withCore_keeps

theorem readL1_keeps {r : CReq} {s : State} : KeepsOpt (fun t => t) s (readL1 r s) := by
  unfold readL1
  split
  · exact .none
  · exact .map loadL1_keeps fun _ => landRead_keeps.trans endC_keeps

theorem xlateAfresh_keeps {s : State} {g : Nat} {acc : Acc} {va : W64} : KeepsOpt Prod.snd s (xlateAfresh s g acc va) := by
  unfold xlateAfresh
  split
  · next h => exact .some (focus_keeps.trans ((xlateCore_keeps _ _ h).trans focus_keeps))
  · exact .none

theorem freshHead_keeps {g : Nat} {s : State} : KeepsOpt (fun t => t) s (freshHead g s) := by
  unfold freshHead
  split
  · exact .none
  · exact .map xlateAfresh_keeps fun _ => onThread_keeps

theorem evAccess_keeps {g : Nat} {s : State} : KeepsOpt (fun t => t) s (evAccess g s) := by
  unfold evAccess
  dsimp only
  split
  · exact .none
  · split
    · exact .some (focus_keeps.trans (poolAccess_keeps.trans focus_keeps))
    · split
      · exact freshHead_keeps
      · split
        · exact .none
        · split
          · next h4 => exact .some ((KeepsOpt.ite (.after focus_keeps readL1_keeps) .none _ h4).trans focus_keeps)
          · exact readAtHome_keeps

theorem settleRead_keeps {s : State} : Keeps s (settleRead s) := by
  unfold settleRead
  split
  · split
    · exact poolAccess_keeps
    · exact KeepsOpt.getD readL1_keeps serveRead_keeps
  · exact .refl _

theorem evMerge_keeps {g older : Nat} {s : State} : KeepsOpt (fun t => t) s (evMerge g older s) := by
  unfold evMerge
  split
  · split
    · exact .some (onThread_keeps.trans onThread_keeps)
    · exact .none
  · exact .none

theorem performWrite_keeps {s : State} {g ctx : Nat} {r : CReq} {bytes : List (Nat × Byte)} {old fl : Nat} :
    Keeps s (performWrite s g ctx r bytes old fl) :=
  homeWrite_keeps.trans onThread_keeps

theorem performC_keeps {s : State} {g : Nat} : KeepsOpt (fun t => t) s (performC s g) := by
  unfold performC
  split
  · exact .none
  · split
    · exact .none
    · refine .some ?_
      split
      · exact performWrite_keeps
      · exact homeRead_keeps.trans performWrite_keeps

theorem ackC_keeps {s : State} {g : Nat} : KeepsOpt (fun t => t) s (ackC s g) := by
  unfold ackC
  split
  · exact .none
  · split
    · exact .none
    · exact .some (onThread_keeps.trans onCore_keeps)

theorem ackNow_keeps {slot wts : Nat} {l : List (Nat × Byte)} {s : State} : Keeps s (ackNow slot wts l s) :=
  withCore_keeps.trans raisePts_keeps

theorem partReads_keeps {s : State} {g : Nat} : Keeps s (partReads s g) := by
  have free : ∀ (l : List Nat) (s : State), Keeps s (l.foldl (fun s h => onThread s h fun t =>
      { t with creqs := t.creqs.map fun r => { r with joined := false } }) s) := fun _ _ => .foldl fun _ _ => onThread_keeps
  unfold partReads
  refine Keeps.update (Keeps.update ?_)
  split
  · exact (free _ _).trans leaveBuf_keeps
  · exact .refl s

theorem issueK_keeps {s : State} {q : KReq} : Keeps s (issueK s q) := withTh_keeps

theorem landK_keeps {s : State} {q : KReq} : Keeps s (landK s q) := by
  unfold landK
  dsimp only
  split
  · exact loadK_keeps.trans withRf_keeps
  · exact loadK_keeps.trans writeVD_keeps

theorem settleK_keeps {s : State} : Keeps s (settleK s) := by
  unfold settleK
  split
  · exact withTh_keeps.trans landK_keeps
  · exact .refl _

theorem evKread_keeps {g n : Nat} {s : State} : KeepsOpt (fun t => t) s (evKread g n s) := by
  unfold evKread
  dsimp only
  split
  · exact .none
  · split
    · exact .none
    · exact .some (focus_keeps.trans (withTh_keeps.trans (landK_keeps.trans focus_keeps)))

/-! #### Waits -/

theorem fenceOff_keeps {s : State} {a : PathSet} {e : Nat} : Keeps s (fenceOff s a e) := Keeps.update (.refl _)

theorem mergeNamed_keeps {s : State} {b a : PathSet} : Keeps s (mergeNamed s b a) := by
  unfold mergeNamed
  split
  · exact mergeAllU_keeps
  · exact .refl _

theorem fenceEffects_keeps {s : State} {b a : PathSet} : Keeps s (fenceEffects s b a) := by
  unfold fenceEffects
  dsimp only
  split
  · refine Keeps.trans ?_ (fenceOff_keeps.trans withCore_keeps)
    split
    · exact mergeNamed_keeps.trans raisePts_keeps
    · exact mergeNamed_keeps
  · refine Keeps.trans ?_ fenceOff_keeps
    split
    · exact mergeNamed_keeps.trans raisePts_keeps
    · exact mergeNamed_keeps

theorem release_keeps {s : State} : Keeps s (release s) := Keeps.update mergeAllU_keeps
theorem acquire_keeps {s : State} : Keeps s (acquire s) := raisePts_keeps.trans (fenceOff_keeps.trans withCore_keeps)

theorem latchTrap_keeps {s : State} : KeepsOpt (fun t => t) s (latchTrap s) := by
  unfold latchTrap
  split
  · exact .some (withTh_keeps.trans takeTrap_keeps)
  · exact .none

theorem afterWait_keeps {s : State} {b a : PathSet} {k : State → Except Stop State} (h : ∀ s, KeepsBody (fun t => t) s (k s)) :
    KeepsBody (fun t => t) s (afterWait s b a k) := by
  have latch : KeepsOpt (fun t => t) (mergeNamed s b a) (if names b .P then latchTrap (mergeNamed s b a) else none) :=
    .ite latchTrap_keeps .none
  unfold afterWait
  refine .bind ready_keeps fun _ => .after (t := mergeNamed s b a) mergeNamed_keeps ?_
  dsimp only
  generalize (if names b .P then latchTrap (mergeNamed s b a) else none) = r at latch
  cases r with
  | none => exact h _
  | some t => exact .ok (latch t rfl)

/-! #### System -/

theorem haltDone_keeps {s : State} : Keeps s (haltDone s) := by
  unfold haltDone
  refine Keeps.trans ?_ withTh_keeps
  split
  · exact release_keeps.trans raiseEvent_keeps
  · exact release_keeps

theorem evHaltDone_keeps {g : Nat} {s : State} : KeepsOpt (fun t => t) s (evHaltDone g s) := by
  unfold evHaltDone
  dsimp only
  split
  · exact .some (focus_keeps.trans (haltDone_keeps.trans focus_keeps))
  · exact .none

theorem enterHalt_keeps {s : State} {pc : W64} {solo : Bool} {pt : Option W64} : Keeps s (enterHalt s pc solo pt) := by
  unfold enterHalt
  dsimp only
  split
  · exact withTh_keeps.trans haltDone_keeps
  · exact withTh_keeps

theorem execTrap_keeps {o : Code} {s : State} : KeepsOut s (execTrap o s) := .next (bit0Form_keeps .trap)
theorem execSysc_keeps {o : Code} {s : State} : KeepsOut s (execSysc o s) := .next (bit0Form_keeps .trap)

theorem execBrk_keeps {o : Code} {s : State} : KeepsOut s (execBrk o s) := by
  unfold execBrk
  refine .next (bit0Form_keeps ?_)
  split
  · exact .ok enterHalt_keeps
  · exact .trap

theorem execHalt_keeps {o : Bare} {s : State} : KeepsOut s (execHalt o s) := .next (bit0Form_keeps (.ok enterHalt_keeps))

theorem execTret_keeps {o : Bare} {s : State} : KeepsOut s (execTret o s) :=
  .next (bit0Form_keeps (.bind require_keeps fun _ => .ok resumeFrame_keeps))

theorem execUpret_keeps {o : SA1} {s : State} : KeepsOut s (execUpret o s) :=
  .next (bit0Form_keeps (.bind require_keeps fun _ => .bind require_keeps fun _ => .ok resumeFrame_keeps))

theorem execMfs_keeps {o : MfsO} {s : State} : KeepsOut s (execMfs o s) := by
  unfold execMfs
  refine .next (bit0Form_keeps ?_)
  dsimp only
  split
  · exact .ok setS_keeps
  · exact trapE_keeps

theorem execMts_keeps {o : MtsO} {s : State} : KeepsOut s (execMts o s) :=
  .next (bit0Form_keeps (.bind require_keeps fun _ => .ok writeSpec_keeps))

theorem execRdtime_keeps {o : SD1} {s : State} : KeepsOut s (execRdtime o s) := .next (bit0Form_keeps (.ok setS_keeps))

/-! #### Control -/

theorem execBr_keeps {o : BrP} {s : State} : KeepsOut s (execBr o s) := by
  unfold execBr
  refine .next (bit0Form_keeps ?_)
  split
  · exact .ok (.refl _)
  · exact transferChecked_keeps

theorem execJmp_keeps {o : BrJ} {s : State} : KeepsOut s (execJmp o s) := .next (bit0Form_keeps transferChecked_keeps)

theorem execCall_keeps {o : BrD} {s : State} : KeepsOut s (execCall o s) :=
  .next (bit0Form_keeps (.bind transferChecked_keeps fun _ => .ok setS_keeps))

theorem execRet_keeps {o : SA1} {s : State} : KeepsOut s (execRet o s) := .next (bit0Form_keeps transferChecked_keeps)

theorem execBrx_keeps {o : SD2} {s : State} : KeepsOut s (execBrx o s) :=
  .next (bit0Form_keeps (.bind transferChecked_keeps fun _ => .ok setS_keeps))

theorem execLoop_keeps {o : BrD} {s : State} : KeepsOut s (execLoop o s) := by
  unfold execLoop
  refine .next (bit0Form_keeps ?_)
  dsimp only
  split
  · exact .ok (.refl _)
  · split
    · exact .ok setS_keeps
    · exact .map transferChecked_keeps fun _ => setS_keeps

theorem execYield_keeps {o : Bare} {s : State} : KeepsOut s (execYield o s) := .next (bit0Form_keeps (.ok withTh_keeps))

/-! #### Memory -/

theorem alignCheck_keeps {ea : W64} {n : Nat} {acc : W64} {u : State} : KeepsBody (fun _ => u) u (alignCheck ea n acc) := by
  unfold alignCheck
  split
  · exact .ok (.refl _)
  · exact .trap

theorem pageStop_keeps {α : Type} {ea acc : W64} {π : α → State} {u : State} : KeepsBody π u (pageStop ea acc) := .page
theorem permStop_keeps {α : Type} {ea acc : W64} {π : α → State} {u : State} : KeepsBody π u (permStop ea acc) := .trap
theorem boundsStop_keeps {α : Type} {ea acc : W64} {π : α → State} {u : State} : KeepsBody π u (boundsStop ea acc) := .trap

theorem xlateE_keeps {s : State} {acc : Acc} {isH : Bool} {ea accw : W64} : KeepsBody Prod.snd s (xlateE s acc isH ea accw) := by
  unfold xlateE
  split
  · next h => exact .ok (xlateCore_keeps _ _ h)
  · exact pageStop_keeps
  · exact permStop_keeps

theorem readC_keeps {s : State} {ea : W64} {n : Nat} {kind : CKind} {dst : Nat} : KeepsBody (fun t => t) s (readC s ea n kind dst) := by
  unfold readC
  dsimp only
  split
  · split
    · exact .ok issueC_keeps
    · exact boundsStop_keeps
  · exact .bind xlateE_keeps fun _ => .ok issueC_keeps

theorem readK_keeps {s : State} {ea : W64} {n : Nat} {ty : Ty} {dst : Nat} {vec : Option (W16 × VDst)} :
    KeepsBody (fun t => t) s (readK s ea n ty dst vec) := by
  unfold readK
  dsimp only
  split
  · exact permStop_keeps
  · exact .bind xlateE_keeps fun _ => .ok issueK_keeps

theorem storeC_keeps {s : State} {ea : W64} {n : Nat} {bytes : List (Nat × Byte)} : KeepsBody (fun t => t) s (storeC s ea n bytes) := by
  unfold storeC
  dsimp only
  split
  · split
    · exact .ok issueC_keeps
    · exact boundsStop_keeps
  · exact .bind xlateE_keeps fun _ => .ok issueC_keeps

theorem loadScalar_keeps {o : MemS} {k : Bool} {s : State} : Keeps s (loadScalar o k s) := by
  unfold loadScalar
  refine bit0Form_keeps (.bind alignCheck_keeps fun _ => ?_)
  split
  · exact readK_keeps
  · exact readC_keeps

theorem execLd_keeps {o : MemS} {s : State} : KeepsOut s (execLd o s) := .next loadScalar_keeps
theorem execLdk_keeps {o : MemS} {s : State} : KeepsOut s (execLdk o s) := .next loadScalar_keeps

theorem execSt_keeps {o : MemS} {s : State} : KeepsOut s (execSt o s) :=
  .next (bit0Form_keeps (.bind alignCheck_keeps fun _ => storeC_keeps))

theorem readInto_keeps {s u : State} {d : VOp} {k : Bool} {r : Except Stop State} (h : KeepsBody (fun t => t) u r) :
    KeepsBody (fun t => t) u (readInto s d k r) := by
  unfold readInto
  refine .bind ready_keeps fun _ => .bind h fun _ => .ok ?_
  split
  · exact .refl _
  · split
    · exact settleK_keeps
    · exact settleRead_keeps

theorem loadVector_keeps {p : Pred} {d : VOp} {a : Fin 32} {disp : W32} {k : Bool} {s : State} : Keeps s (loadVector p d a disp k s) :=
  elemForm_keeps (.bind vecChecks_keeps fun _ => .bind alignCheck_keeps fun _ => readInto_keeps (.ite readK_keeps readC_keeps))

theorem execVld_keeps {o : MemV} {s : State} : KeepsOut s (execVld o s) := .next loadVector_keeps

theorem execVst_keeps {o : MemV} {s : State} : KeepsOut s (execVst o s) :=
  .next (elemForm_keeps (.bind vecChecks_keeps fun _ => .bind alignCheck_keeps fun _ => .after readV_keeps storeC_keeps))

theorem blockStop_keeps {s : State} {x : Stop} {i : Nat} (h : ∀ u t, x = .after u t → Keeps s u) : Keeps s (blockStop s x i) := by
  unfold blockStop
  split
  · exact takeTrap_keeps
  · exact takePage_keeps
  · exact onStop_keeps h

theorem vldmLoop_keeps {o : MemM} {ea : W64} {s0 : State} {l : List Nat} {s : State} : Keeps s (vldmLoop o ea s0 l s) := by
  induction l generalizing s with
  | nil => exact .refl s
  | cons i l ih =>
    unfold vldmLoop
    split
    · next h => exact (readC_keeps.1 _ h).trans ih
    · next h => exact blockStop_keeps fun u t e => readC_keeps.2 u t (h.trans (congrArg _ e))

theorem vstmLoop_keeps {o : MemM} {ea : W64} {s0 : State} {l : List Nat} {s : State} : Keeps s (vstmLoop o ea s0 l s) := by
  induction l generalizing s with
  | nil => exact .refl s
  | cons i l ih =>
    unfold vstmLoop
    extract_lets v
    split
    · next h => exact (storeC_keeps.1 _ h).trans ih
    · next h => exact blockStop_keeps fun u t e => storeC_keeps.2 u t (h.trans (congrArg _ e))

theorem blockForm_keeps {o : MemM} {write : Bool} {loop : W64 → List Nat → State → State} {s : State}
    (h : ∀ ea l s, Keeps s (loop ea l s)) : Keeps s (blockForm o write loop s) := by
  unfold blockForm
  split
  · exact .refl s
  · dsimp only
    split
    · exact takeTrap_keeps
    · split
      · exact .refl s
      · split
        · exact takeTrap_keeps
        · split
          · next h => exact (alignCheck_keeps (u := s)).onStop h
          · exact h _ _ _

theorem execVldm_keeps {o : MemM} {s : State} : KeepsOut s (execVldm o s) := .next (blockForm_keeps fun _ _ _ => vldmLoop_keeps)
theorem execVstm_keeps {o : MemM} {s : State} : KeepsOut s (execVstm o s) := .next (blockForm_keeps fun _ _ _ => vstmLoop_keeps)

theorem execPref_keeps {o : MemA} {s : State} : KeepsOut s (execPref o s) := by
  unfold execPref
  refine .next (bit0Form_keeps (.ok ?_))
  dsimp only
  split
  · exact .refl _
  · split
    · next h1 => exact (xlateCore_keeps _ _ h1).trans issueC_keeps
    · exact endWalk_keeps

theorem pushH_keeps {s : State} {q : HReq} : Keeps s (pushH s q) := withTh_keeps

theorem xlateH_keeps {s : State} {acc : Acc} {write : Bool} {ea : W64} {n : Nat} : KeepsBody Prod.snd s (xlateH s acc write ea n) := by
  unfold xlateH
  dsimp only
  split
  · exact permStop_keeps
  · exact xlateE_keeps

theorem execLdPath_keeps {o : MemSP} {s : State} : KeepsOut s (execLdPath o s) := by
  unfold execLdPath
  refine .next ?_
  split
  · exact loadScalar_keeps
  · exact bit0Form_keeps (.bind alignCheck_keeps fun _ => .bind xlateH_keeps fun _ => .ok pushH_keeps)

theorem execStPath_keeps {o : MemSP} {s : State} : KeepsOut s (execStPath o s) :=
  .next (bit0Form_keeps (.bind alignCheck_keeps fun _ => .bind xlateH_keeps fun _ => .ok pushH_keeps))

theorem execVldPath_keeps {o : MemVP} {s : State} : KeepsOut s (execVldPath o s) := by
  unfold execVldPath
  refine .next ?_
  split
  · exact loadVector_keeps
  · exact elemForm_keeps (.bind vecChecks_keeps fun _ => .bind alignCheck_keeps fun _ => .bind xlateH_keeps fun _ => .ok pushH_keeps)

theorem execVstPath_keeps {o : MemVP} {s : State} : KeepsOut s (execVstPath o s) :=
  .next (elemForm_keeps (.bind vecChecks_keeps fun _ => .bind alignCheck_keeps fun _ =>
    .bind (KeepsBody.after readV_keeps xlateH_keeps) fun _ => .ok pushH_keeps))

theorem convRead_keeps {s : State} {o : MemC} {ea : W64} {x : Xl} : Keeps s (convRead s o ea x).2.2 := by
  unfold convRead
  dsimp only
  split
  · next h =>
      split
      · exact loadL1_keeps.snd h
      · exact touchLine_keeps.trans (fillSector_keeps.trans loadHome_keeps)
  · exact touchLine_keeps.trans (fillSector_keeps.trans loadHome_keeps)

theorem convAuto_keeps {o : MemC} {s : State} : KeepsBody (fun t => t) s (convAuto o s) := by
  unfold convAuto
  refine .bind ready_keeps fun _ => .bind vecChecks_keeps fun _ => ?_
  dsimp only
  split
  · refine .bind alignCheck_keeps fun _ => ?_
    split
    · exact .ok (poolLoaded_keeps.trans convWrite_keeps)
    · exact boundsStop_keeps
  · refine .bind xlateE_keeps fun _ => ?_
    split
    · exact .trap
    · exact .ok (convRead_keeps.trans convWrite_keeps)

theorem execVldConverting_keeps {o : MemC} {s : State} : KeepsOut s (execVldConverting o s) := by
  unfold execVldConverting
  refine .next (elemForm_keeps ?_)
  split
  · exact convAuto_keeps
  · exact .bind vecChecks_keeps fun _ => .bind alignCheck_keeps fun _ => readInto_keeps readC_keeps

theorem lineSetChecks_keeps {ea : W64} {w : Nat} {idx : V512} {act : List Nat} {acc : W64} {u : State} :
    KeepsBody (fun _ => u) u (lineSetChecks ea w idx act acc) := by
  unfold lineSetChecks
  refine .bind alignCheck_keeps fun _ => ?_
  split
  · exact boundsStop_keeps
  · exact .ok (.refl _)

theorem vgathForm_keeps {o : VGs} {s : State} : Keeps s (vgathForm o s) := by
  unfold vgathForm
  refine elemForm_keeps (.bind vecChecks_keeps fun _ => .bind lineSetChecks_keeps fun _ => ?_)
  dsimp only
  split
  · split
    · exact readInto_keeps (.ok (readV_keeps.trans issueC_keeps))
    · exact boundsStop_keeps
  · exact .bind (KeepsBody.after readV_keeps xlateE_keeps) fun _ => readInto_keeps (.ok issueC_keeps)

theorem execVgath32_keeps {o : VGs} {s : State} : KeepsOut s (execVgath32 o s) := .next vgathForm_keeps
theorem execVgath64_keeps {o : VGs} {s : State} : KeepsOut s (execVgath64 o s) := .next vgathForm_keeps

theorem vscatForm_keeps {o : VGs} {s : State} : Keeps s (vscatForm o s) :=
  elemForm_keeps (.bind vecChecks_keeps fun _ => .bind lineSetChecks_keeps fun _ => .after (readV_keeps.trans readV_keeps) storeC_keeps)

theorem execVscat32_keeps {o : VGs} {s : State} : KeepsOut s (execVscat32 o s) := .next vscatForm_keeps
theorem execVscat64_keeps {o : VGs} {s : State} : KeepsOut s (execVscat64 o s) := .next vscatForm_keeps

/-! #### Order -/

theorem execFence_keeps {o : Fence} {s : State} : KeepsOut s (execFence o s) :=
  .next (bit0Form_keeps (afterWait_keeps fun _ => .ok fenceEffects_keeps))

theorem ifenceEffects_keeps {s : State} : Keeps s (ifenceEffects s) := raisePts_keeps.trans withCore_keeps

theorem execIfence_keeps {o : Bare} {s : State} : KeepsOut s (execIfence o s) :=
  .next (bit0Form_keeps (.bind ready_keeps fun _ =>
    .ok (KeepsOpt.getD (.after mergeAllU_keeps latchTrap_keeps) (mergeAllU_keeps.trans ifenceEffects_keeps))))

theorem atomicXlate_keeps {s : State} {acc : Acc} {p : Path} {ea : W64} {n : Nat} :
    KeepsBody Prod.snd s (atomicXlate s acc p ea n) := by
  unfold atomicXlate
  refine .bind alignCheck_keeps fun _ => ?_
  split
  · exact permStop_keeps
  · exact xlateE_keeps

theorem settleC_keeps {s : State} : Keeps s (settleC s) := KeepsOpt.getD (.bind performC_keeps fun _ => ackC_keeps) (.refl _)

theorem atomicForm_keeps {s : State} {ea : W64} {n : Nat} {acq rel : PathSet} {kind : CKind} {dst : Nat} :
    KeepsBody (fun t => t) s (atomicForm s ea n acq rel kind dst) := by
  unfold atomicForm
  refine afterWait_keeps fun _ => .bind ready_keeps fun _ => .bind (KeepsBody.after ?_ atomicXlate_keeps) fun _ => .ok ?_
  · split
    · exact .refl _
    · exact fenceEffects_keeps
  · refine Keeps.ite ?_ ?_
    · exact issueC_keeps
    · exact issueC_keeps.trans (settleC_keeps.trans fenceEffects_keeps)

theorem amoForm_keeps {o : Amo} {s : State} : Keeps s (amoForm o s) := bit0Form_keeps atomicForm_keeps
theorem execAmoI_keeps {o : Amo} {s : State} : KeepsOut s (execAmoI o s) := .next amoForm_keeps
theorem execAmoF_keeps {o : Amo} {s : State} : KeepsOut s (execAmoF o s) := .next amoForm_keeps
theorem execCas_keeps {o : Cas} {s : State} : KeepsOut s (execCas o s) := .next (bit0Form_keeps atomicForm_keeps)
theorem execCas2_keeps {o : Cas2} {s : State} : KeepsOut s (execCas2 o s) := .next (bit0Form_keeps atomicForm_keeps)

theorem homeFold_keeps {s : State} {ctx : Nat} {x : Xl} {e : Ty} {op : AOp} {b : Nat} : Keeps s (homeFold s ctx x e op b) :=
  alignSlot_keeps.trans (fillSector_keeps.trans (putBytes_keeps.trans stampLines_keeps))

theorem copyRoom_keeps {s : State} {k l : Nat} : Keeps s (copyRoom s k l) := by
  unfold copyRoom
  dsimp only
  refine Keeps.ite ?_ ?_
  · exact .refl _
  · split
    · split
      · exact mergeU_keeps
      · exact evictOne_keeps
    · exact evictOne_keeps

theorem grantU_keeps {s : State} {ctx k : Nat} {x : Xl} {e : Ty} {op : AOp} {b : Nat} : Keeps s (grantU s ctx k x e op b) := by
  unfold grantU
  split
  · exact copyRoom_keeps.trans onClu_keeps
  · exact homeFold_keeps

theorem redFold_keeps {s : State} {ctx k : Nat} {x : Xl} {e : Ty} {op : AOp} {b : Nat} : Keeps s (redFold s ctx k x e op b) := by
  unfold redFold
  dsimp only
  split
  · exact homeFold_keeps
  · split
    · split
      · exact onClu_keeps
      · exact mergeU_keeps.trans grantU_keeps
    · exact grantU_keeps

theorem acquired_keeps {g : Nat} {b a : PathSet} {s : State} : Keeps s (acquired g b a s) := by
  unfold acquired
  split
  · exact .refl _
  · exact focus_keeps.trans (fenceEffects_keeps.trans focus_keeps)

theorem evRed_keeps {g n : Nat} {s : State} : KeepsOpt (fun t => t) s (evRed g n s) := by
  unfold evRed
  split
  · exact .none
  · split
    · exact .none
    · refine .map ?_ fun _ => onThread_keeps.trans (redFold_keeps.trans acquired_keeps)
      split
      · exact .map xlateAfresh_keeps fun _ => Keeps.refl _
      · exact .some (.refl _)

theorem settleU_keeps {s : State} : Keeps s (settleU s) := withTh_keeps.trans (Keeps.foldl fun _ _ => redFold_keeps)

theorem redForm2_keeps {o : Red} {s : State} : Keeps s (redForm2 o s) := by
  unfold redForm2
  refine bit0Form_keeps (afterWait_keeps fun _ => .bind (KeepsBody.after ?_ atomicXlate_keeps) fun _ => .ok ?_)
  · split
    · exact .refl _
    · exact fenceEffects_keeps
  · refine Keeps.ite ?_ ?_
    · exact withTh_keeps
    · exact withTh_keeps.trans (settleU_keeps.trans fenceEffects_keeps)

theorem execRedI_keeps {o : Red} {s : State} : KeepsOut s (execRedI o s) := .next redForm2_keeps
theorem execRedF_keeps {o : Red} {s : State} : KeepsOut s (execRedF o s) := .next redForm2_keeps

theorem execAmsg_keeps {o : Amsg} {s : State} : KeepsOut s (execAmsg o s) := by
  unfold execAmsg
  refine .next (bit0Form_keeps (.bind vecChecks_keeps fun _ => .bind require_keeps fun _ => .bind alignCheck_keeps fun _ =>
    .bind ?_ fun _ => .ok (readV_keeps.trans withTh_keeps)))
  split
  · exact permStop_keeps
  · exact xlateE_keeps

theorem amsgAtHome_keeps {s : State} {g : Nat} {q : AmsgReq} : Keeps s (amsgAtHome s g q).2 := (amsgAtHome_step _ _ _).keeps

theorem evAmsgAt_keeps {g n : Nat} {s : State} : KeepsOpt (fun t => t) s (evAmsgAt g n s) := by
  unfold evAmsgAt
  dsimp only
  split
  · exact .none
  · split
    · exact .none
    · exact .some (amsgAtHome_keeps.trans onThread_keeps)

theorem evAmsgPerform_keeps {g : Nat} {s : State} : KeepsOpt (fun t => t) s (evAmsgPerform g s) := evAmsgAt_keeps

theorem evAmsgBack_keeps {g n : Nat} {s : State} : KeepsOpt (fun t => t) s (evAmsgBack g n s) := by
  unfold evAmsgBack
  split
  · exact .none
  · split
    · exact .none
    · dsimp only
      split
      · split
        · exact .some (focus_keeps.trans (writeVD_keeps.trans (withTh_keeps.trans focus_keeps)))
        · exact .none
      · split
        · exact .some (focus_keeps.trans (writeVD_keeps.trans (withTh_keeps.trans focus_keeps)))
        · exact .none

theorem evAmsgReply_keeps {g : Nat} {s : State} : KeepsOpt (fun t => t) s (evAmsgReply g s) := evAmsgBack_keeps
theorem execAmsgPerform_keeps {g : Nat} {s : State} : KeepsOut s (execAmsgPerform g s) := .next (evAmsgPerform_keeps.getD (.refl _))
theorem execAmsgReply_keeps {g : Nat} {s : State} : KeepsOut s (execAmsgReply g s) := .next (evAmsgReply_keeps.getD (.refl _))

theorem evHomeLoad.ahead_keeps {addr : Nat} {s f : State} : KeepsOpt (fun t => t) f (evHomeLoad.ahead addr s f) := by
  unfold evHomeLoad.ahead
  split
  · exact .none
  · split
    · next h =>
      split
      · exact .none
      · exact .some ((xlateCore_keeps _ _ h).trans (leaseHome_keeps.trans (keepCopies_keeps.trans focus_keeps)))
    · exact .none

theorem evHomeLoad_keeps {g addr : Nat} {s : State} : KeepsOpt (fun t => t) s (evHomeLoad g addr s) := by
  unfold evHomeLoad
  dsimp only
  split
  · split
    · exact evAccess_keeps
    · exact .after focus_keeps evHomeLoad.ahead_keeps
  · exact .after focus_keeps evHomeLoad.ahead_keeps

theorem execHomeLoad_keeps {g addr : Nat} {s : State} : KeepsOut s (execHomeLoad g addr s) := .next (evHomeLoad_keeps.getD (.refl _))

theorem evStoreAck_keeps {g : Nat} {s : State} : KeepsOpt (fun t => t) s (evStoreAck g s) := by
  unfold evStoreAck
  split
  · split
    · exact ackC_keeps
    · exact .none
  · exact .none

theorem evAtomicReply_keeps {g : Nat} {s : State} : KeepsOpt (fun t => t) s (evAtomicReply g s) := by
  unfold evAtomicReply
  split
  · split
    · exact .map ackC_keeps fun _ => acquired_keeps
    · exact .none
  · exact .none

theorem execStoreAcknowledge_keeps {g : Nat} {s : State} : KeepsOut s (execStoreAcknowledge g s) :=
  .next (evStoreAck_keeps.getD (.refl _))

theorem execAtomicReply_keeps {g : Nat} {s : State} : KeepsOut s (execAtomicReply g s) := .next (evAtomicReply_keeps.getD (.refl _))
theorem evUCopyMerge_keeps {k l : Nat} {s : State} : KeepsOpt (fun t => t) s (evUCopyMerge k l s) := .mapOf fun _ => mergeU_keeps

theorem execUCopyMerge_keeps {cluster line : Nat} {s : State} : KeepsOut s (execUCopyMerge cluster line s) :=
  .next (evUCopyMerge_keeps.getD (.refl _))

theorem evLineFill_keeps {ctx slot sec : Nat} {s : State} : KeepsOpt (fun t => t) s (evLineFill ctx slot sec s) := by
  unfold evLineFill
  dsimp only
  split
  · exact .some (touchLine_keeps.trans landFill_keeps)
  · split
    · exact .some fillSector_keeps
    · exact .none

theorem execLineFill_keeps {ctx slot sector : Nat} {s : State} : KeepsOut s (execLineFill ctx slot sector s) :=
  .next (evLineFill_keeps.getD (.refl _))

theorem evWriteBack_keeps {l : Nat} {s : State} : KeepsOpt (fun t => t) s (evWriteBack l s) := by
  unfold evWriteBack
  split
  · exact .some drainLine_keeps
  · exact .none

theorem execWriteBackDrain_keeps {line : Nat} {s : State} : KeepsOut s (execWriteBackDrain line s) :=
  .next (evWriteBack_keeps.getD (.refl _))

theorem evEvictLine_keeps {l : Nat} {s : State} : KeepsOpt (fun t => t) s (evEvictLine l s) := by
  unfold evEvictLine
  split
  · exact .some evictLine_keeps
  · exact .none

theorem evEvictL1_keeps {core sec : Nat} {s : State} : KeepsOpt (fun t => t) s (evEvictL1 core sec s) := by
  unfold evEvictL1
  split
  · exact .some onCore_keeps
  · exact .none

theorem mapThreads_keeps {s : State} {f : Thread → Thread} : Keeps s (mapThreads s f) := Keeps.update (.refl _)
theorem givePts_keeps {s : State} {n : Nat} : Keeps s (givePts s n) := Keeps.update mapThreads_keeps
theorem tick_keeps {s : State} : Keeps s (tick s) := givePts_keeps
theorem execPtsTick_keeps {s : State} : KeepsOut s (execPtsTick s) := .next tick_keeps
theorem execTimestampRebase_keeps {s : State} : KeepsOut s (execTimestampRebase s) := .next (Keeps.update mapThreads_keeps)

theorem evCxlResponse_keeps {g : Nat} {s : State} : KeepsOpt (fun t => t) s (evCxlResponse g s) := by
  unfold evCxlResponse
  split
  · exact .none
  · have h : ∀ l, Keeps s (withTh (focus s g) fun t => { t with hreqs := l }) := fun _ => focus_keeps.trans withTh_keeps
    dsimp only
    split
    · split
      · split
        · split
          · exact .some ((h _).trans (writeVD_keeps.trans focus_keeps))
          · exact .none
        · exact .some ((h _).trans (writeVD_keeps.trans focus_keeps))
      · exact .some ((h _).trans (withRf_keeps.trans focus_keeps))
    · exact .some fun c => ⟨((h _).trans (focus_keeps (g := s.here)) c).1, memSetAll_wf c.2⟩

theorem execCxlCacheResponse_keeps {g : Nat} {s : State} : KeepsOut s (execCxlCacheResponse g s) :=
  .next (evCxlResponse_keeps.getD (.refl _))

/-! #### Copy -/

theorem semE_keeps {s : State} {n : BitVec 6} {u : State} : KeepsBody (fun _ => u) u (semE s n) := by
  unfold semE
  split
  · exact .ok (.refl _)
  · exact trapE_keeps

theorem semPut_keeps {s : State} {k n ctx : Nat} {v : W32} : Keeps s (semPut s k n ctx v) := onClu_keeps

theorem execSemw_keeps {o : Sem} {s : State} : KeepsOut s (execSemw o s) :=
  .next (bit0Form_keeps (.bind semE_keeps fun _ => .bind ready_keeps fun _ => .ok (.refl _)))

theorem execSeminc_keeps {o : SemI} {s : State} : KeepsOut s (execSeminc o s) :=
  .next (bit0Form_keeps (.bind semE_keeps fun _ => .ok (semPut_keeps.trans setS_keeps)))

theorem execSemset_keeps {o : Sem} {s : State} : KeepsOut s (execSemset o s) :=
  .next (bit0Form_keeps (.bind semE_keeps fun _ => .ok semPut_keeps))

theorem setShadow_keeps {s : State} {i : Nat} {v : W64} : Keeps s (setShadow s i v) := withTh_keeps
theorem execCset_keeps {o : CSet} {s : State} : KeepsOut s (execCset o s) := .next (bit0Form_keeps (.ok setShadow_keeps))

theorem execMcset_keeps {o : SA2} {s : State} : KeepsOut s (execMcset o s) :=
  .next (bit0Form_keeps (.ok (setShadow_keeps.trans setShadow_keeps)))

theorem acceptCopy_keeps {s : State} {d dst : Fin 32} {gather : Bool} {desc : Vector W64 9} {gran : Nat} :
    Keeps s (acceptCopy s d dst gather desc gran).1 := by
  unfold acceptCopy
  dsimp only
  split
  · exact onClu_keeps.trans setS_keeps
  · exact onClu_keeps.trans (setS_keeps.trans withTh_keeps)

theorem semBump_keeps {n : Nat} {r : State × Nat} {k ctx : Nat} : Keeps r.1 (semBump n r k ctx).1 := by
  unfold semBump
  split
  · exact semPut_keeps
  · exact .refl _

theorem writeStatus_keeps {s : State} {g reg : Nat} {w : W64} : Keeps s (writeStatus s g reg w) := by
  unfold writeStatus
  split
  · exact .refl _
  · exact onThread_keeps

theorem permRecord_keeps {s : State} {k : Nat} {c : Copy} : Keeps s (permRecord s k c) := by
  unfold permRecord
  split
  · exact .refl _
  · exact newFault_keeps.trans (raiseEvent_keeps.trans sendRecord_keeps)

theorem semBumps_keeps {n ctx : Nat} {l : List Nat} {r : State × Nat} : Keeps r.1 (l.foldl (fun r x => semBump n r x ctx) r).1 := by
  induction l generalizing r with
  | nil => exact .refl _
  | cons x l ih => exact semBump_keeps.trans ih

theorem finishCopy_keeps {s : State} {k : Nat} {c : Copy} : Keeps s (finishCopy s k c) := by
  unfold finishCopy
  extract_lets s1 s2 r e
  have h2 : Keeps s s2 := .update onClu_keeps
  have hr : Keeps s2 r.1 := by
    unfold r
    split
    · exact .refl s2
    · split
      · exact semBumps_keeps (r := (_, _))
      · exact .refl s2
  have he : Keeps r.1 e.2 := by
    unfold e
    split
    · exact .refl r.1
    · split
      · exact raiseEvent_keeps
      · exact .refl r.1
  exact (h2.trans hr).trans ((he.trans permRecord_keeps).trans writeStatus_keeps)

theorem putCopy_keeps {s : State} {k : Nat} {c : Copy} : Keeps s (putCopy s k c) := onClu_keeps

theorem acceptOrEnd_keeps {s u : State} {r : State × Copy} {empty : Bool} (h : Keeps s r.1) : Keeps s (acceptOrEnd u r empty) := by
  unfold acceptOrEnd
  split
  · exact h.trans finishCopy_keeps
  · exact h

theorem execGath_keeps {o : Gath} {s : State} : KeepsOut s (execGath o s) := by
  refine .next (bit0Form_keeps (.bind require_keeps fun _ => .bind ready_keeps fun _ => .bind require_keeps fun _ =>
    .bind (π := fun _ => s) ?_ fun _ => .bind require_keeps fun _ => .ok (acceptOrEnd_keeps acceptCopy_keeps)))
  split
  · exact trapE_keeps
  · exact .ok (.refl s)

theorem execCpygo_keeps {o : SD2} {s : State} : KeepsOut s (execCpygo o s) := by
  refine .next (bit0Form_keeps (.bind ready_keeps fun _ => .bind require_keeps fun _ =>
    .bind (π := fun _ => s) ?_ fun _ => .bind require_keeps fun _ => .ok (acceptOrEnd_keeps acceptCopy_keeps)))
  split
  · exact trapE_keeps
  · exact .ok (.refl s)

theorem execCpycan_keeps {o : SD2} {s : State} : KeepsOut s (execCpycan o s) := by
  unfold execCpycan
  refine .next (bit0Form_keeps (.ok ?_))
  dsimp only
  split
  · split
    · exact finishCopy_keeps.trans setS_keeps
    · exact setS_keeps
  · exact setS_keeps

theorem engRead_keeps {s : State} {ctx k : Nat} {p : Path} {va n : Nat} : KeepsEng Prod.snd s (engRead s ctx k p va n) := by
  unfold engRead
  split
  · next h => exact .ok ((xlateEngine_keeps _ _ h).trans (homeRead_keeps.trans homeSeen_keeps))
  · exact .fault
  · exact .fault

theorem copySource_keeps {s : State} {k : Nat} {c : Copy} {n : Nat} : KeepsEng Prod.snd s (copySource s k c n) := by
  unfold copySource
  dsimp only
  split
  · exact .ok poolRead_keeps
  · exact engRead_keeps

theorem coverEarlier_keeps {k : Nat} {c : Copy} {place a n : Nat} {s : State} : Keeps s (coverEarlier k c place a n s) := by
  unfold coverEarlier
  split
  · exact .refl _
  · exact onClu_keeps

theorem copyPool_keeps {k : Nat} {c : Copy} {core off : Nat} {data : List Byte} {s : State} : Keeps s (copyPool k c core off data s) :=
  onCore_keeps.trans (poolWrote_keeps.trans coverEarlier_keeps)

theorem copyStore_keeps {k : Nat} {s : State} {c : Copy} {x : Xl} {data : List Byte} : Keeps s (copyStore k s c x data) := by
  unfold copyStore
  split
  · exact homeRead_keeps.trans homeWrite_keeps
  · exact homeWrite_keeps.trans coverEarlier_keeps

theorem storeMem_keeps {cl : Nat} {data : List Byte} {x : List Nat} {z w : Nat} {v : Copy × State} :
    KeepsEng Prod.snd v.2 (storeMem cl data x z w v) := by
  induction x generalizing cl data z w v with
  | nil =>
    simp only [storeMem]
    exact .ok (.refl _)
  | cons y ys ih =>
    simp only [storeMem]
    split
    · exact .fault
    · split
      · exact .after dropWalks_keeps ih
      · exact .fault
    · next h => exact .after ((xlateEngine_keeps _ _ h).trans copyStore_keeps) ih

theorem pushAt_keeps {s : State} {core q : Nat} {e : V512} : Keeps s (pushAt s core q e) := onCore_keeps

theorem copyDest_keeps {s : State} {k : Nat} {c : Copy} {n : Nat} {data : List Byte} : KeepsEng Prod.snd s (copyDest s k c n data) := by
  unfold copyDest
  dsimp only
  split
  · exact storeMem_keeps
  · exact .ok copyPool_keeps
  · split
    · exact .ok pushAt_keeps
    · exact .wait
  · refine .ok (Keeps.foldl fun _ _ => ?_)
    split
    · exact .refl _
    · exact copyPool_keeps

theorem moveCopy_keeps {s : State} {k : Nat} {c : Copy} {n : Nat} : KeepsEng Prod.snd s (moveCopy s k c n) := by
  unfold moveCopy
  split
  · exact .wait
  · exact .fault
  · next h =>
      split
      · next h1 => exact .ok ((copySource_keeps.snd h).trans (copyDest_keeps.snd h1))
      · exact .after (copySource_keeps.snd h) copyDest_keeps

theorem gatherIndex_keeps {s : State} {k : Nat} {c : Copy} {row : Nat} : KeepsEng Prod.snd s (gatherIndex s k c row) := by
  unfold gatherIndex
  split
  · exact .ok (.refl _)
  · split
    · next h1 => exact .ok (engRead_keeps.snd h1)
    · exact .wait
    · exact .fault

theorem moveGather_keeps {s : State} {k : Nat} {c : Copy} {n : Nat} : KeepsEng Prod.snd s (moveGather s k c n) := by
  unfold moveGather
  dsimp only
  split
  · exact .wait
  · exact .fault
  · next h =>
      split
      · split
        · exact .ok ((engRead_keeps.snd h).trans pushAt_keeps)
        · exact .wait
      · exact .ok ((engRead_keeps.snd h).trans (onCore_keeps.trans poolWrote_keeps))

theorem copyFaults_keeps {s : State} {k : Nat} {c : Copy} {va acc : W64} {cause : Nat} : Keeps s (copyFaults s k c va acc cause) :=
  (Keeps.update (newFault_keeps.trans (raiseEvent_keeps.trans sendFault_keeps))).trans putCopy_keeps

theorem moveElem_keeps {k i : Nat} {c : Copy} {s : State} : KeepsBoth Prod.snd Prod.snd s (moveElem k i c s) := by
  have stop : ∀ (c : Copy) (s : State) (r : EngRes (Copy × State)), KeepsEng Prod.snd s r → KeepsBoth Prod.snd Prod.snd s (match r with
      | .ok x => (.ok x : Except (Copy × State) (Copy × State))
      | .wait => .error (c, putCopy s k c)
      | .fault va acc cause => .error (c, copyFaults s k { c with stuck := i } va acc cause)) := fun c s r h => by
    cases r with
    | ok x => exact .ok (h x rfl)
    | wait => exact .error putCopy_keeps
    | fault va acc cause => exact .error copyFaults_keeps
  unfold moveElem
  dsimp only
  split
  · exact .bind (stop _ _ _ gatherIndex_keeps) fun _ => stop _ _ _ moveGather_keeps
  · exact stop _ _ _ moveCopy_keeps

theorem moveGroup_keeps {k x : Nat} {y : Copy} {s : State} : Keeps s (moveGroup k x y s).2 := by
  induction x generalizing k y s with
  | zero =>
    simp only [moveGroup]
    exact putCopy_keeps
  | succ n ih =>
    simp only [moveGroup]
    split
    · exact ih
    · split
      · next h1 => exact (moveElem_keeps.2 _ h1).trans ih
      · next h1 => exact moveElem_keeps.1 _ h1

theorem startCopy_keeps {s : State} {k : Nat} {c : Copy} : Keeps s (startCopy s k c) := by
  unfold startCopy
  split
  · exact putCopy_keeps
  · exact putCopy_keeps

theorem runGroups_keeps {k id : Nat} {ord : List Nat} {x : Nat} {s : State} : Keeps s (runGroups k id ord x s) := by
  induction x generalizing k id ord s with
  | zero =>
    simp only [runGroups]
    exact .refl _
  | succ n ih =>
    simp only [runGroups]
    split
    · exact .refl _
    · split
      · exact .refl _
      · split
        · next h2 => exact (moveGroup_keeps.pair h2).trans ih
        · next h2 => exact moveGroup_keeps.pair h2

theorem evElement_keeps {k id n : Nat} {s : State} : KeepsOpt (fun t => t) s (evElement k id n s) := by
  unfold evElement
  split
  · exact .none
  · dsimp only
    split
    · exact .none
    · split
      · next h2 => exact .some (moveElem_keeps.1 _ h2)
      · next h2 => exact .some ((moveElem_keeps.2 _ h2).trans putCopy_keeps)

theorem evIndex_keeps {k id row : Nat} {s : State} : KeepsOpt (fun t => t) s (evIndex k id row s) := by
  unfold evIndex
  split
  · exact .none
  · split
    · exact .none
    · split
      · next h2 => exact .some ((gatherIndex_keeps _ h2).trans putCopy_keeps)
      · exact .none

theorem evCopyStart_keeps {k id groups : Nat} {ord : List Nat} {s : State} :
    KeepsOpt (fun t => t) s (evCopyStart k id groups ord s) := by
  unfold evCopyStart
  split
  · exact .none
  · dsimp only
    split
    · exact .none
    · split
      · split
        · exact .none
        · exact .some runGroups_keeps
      · split
        · exact .some (startCopy_keeps.trans runGroups_keeps)
        · exact .none

theorem execCopyStart_keeps {cluster id groups : Nat} {order : List Nat} {s : State} :
    KeepsOut s (execCopyStart cluster id groups order s) :=
  .next (evCopyStart_keeps.getD (.refl _))

theorem evCopyComplete_keeps {k id : Nat} {s : State} : KeepsOpt (fun t => t) s (evCopyComplete k id s) := by
  unfold evCopyComplete
  split
  · exact .none
  · split
    · exact .none
    · dsimp only
      split
      · exact .some runGroups_keeps
      · split
        · exact .some (runGroups_keeps.trans finishCopy_keeps)
        · split
          · exact .none
          · exact .some runGroups_keeps

theorem execCopyComplete_keeps {cluster id : Nat} {s : State} : KeepsOut s (execCopyComplete cluster id s) :=
  .next (evCopyComplete_keeps.getD (.refl _))

theorem evEngineFault_keeps {k id : Nat} {s : State} : KeepsOpt (fun t => t) s (evEngineFault k id s) := by
  unfold evEngineFault
  split
  · exact .none
  · split
    · exact .none
    · dsimp only
      split
      · split
        · exact .some moveGroup_keeps
        · exact .none
      · exact .none

theorem execEngineFault_keeps {cluster id : Nat} {s : State} : KeepsOut s (execEngineFault cluster id s) :=
  .next (evEngineFault_keeps.getD (.refl _))

theorem copyAnswer_keeps {s : State} {k : Nat} {c : Copy} {w : Waiting} {act : Nat} : Keeps s (copyAnswer s k c w act) := by
  unfold copyAnswer
  dsimp only
  split
  · exact putCopy_keeps
  · split
    · exact putCopy_keeps
    · exact finishCopy_keeps

/-! #### Remote -/

theorem credit_keeps {s : State} {i : Inst} : Keeps s (credit s i) := by
  unfold credit
  split
  · exact .refl _
  · exact withCore_keeps

theorem latchP_keeps {s : State} {g cause : Nat} {w : W64} : Keeps s (latchP s g cause w) := onThread_keeps

theorem sendAll_keeps {s : State} {ks : List Nat} {cls off : Nat} {w : W64} {isSend mc : Bool} {src : VOp} :
    KeepsBody (fun t => t) s (sendAll s ks cls off w isSend mc src) := by
  unfold sendAll
  refine .bind ready_keeps fun _ => .ok (Keeps.trans ?_ (Keeps.foldl fun _ _ => credit_keeps))
  split
  · exact readV_keeps
  · exact Keeps.update readV_keeps

theorem execRst_keeps {o : Rst} {s : State} : KeepsOut s (execRst o s) := by
  unfold execRst
  refine .next (bit0Form_keeps (.bind ready_keeps fun _ => .bind vecChecks_keeps fun _ => .bind require_keeps fun _ =>
    .bind require_keeps fun _ => .bind require_keeps fun _ => ?_))
  dsimp only
  split
  · refine .bind require_keeps fun _ => .bind require_keeps fun _ => .bind sendAll_keeps fun _ => .ok ?_
    split
    · exact latchP_keeps
    · exact .refl _
  · exact .bind require_keeps fun _ => .bind require_keeps fun _ => sendAll_keeps

theorem execSend_keeps {o : Send} {s : State} : KeepsOut s (execSend o s) :=
  .next (bit0Form_keeps (.bind ready_keeps fun _ => .bind vecChecks_keeps fun _ => .bind require_keeps fun _ =>
    .bind require_keeps fun _ => .bind require_keeps fun _ => .bind require_keeps fun _ => sendAll_keeps))

theorem splitTo_keeps {s : State} {p : Packet} {ds : List PDst} {parts : List Packet} : Keeps s (splitTo s p ds parts) :=
  Keeps.update (.refl _)

theorem countGrant_keeps {s : State} {k port cls : Nat} : Keeps s (countGrant s k port cls) := onClu_keeps

theorem hop_keeps {s : State} {k port : Nat} {p : Packet} : Keeps s (hop s k port p) :=
  (Keeps.update splitTo_keeps).trans countGrant_keeps

theorem evLink_keeps {k port cls : Nat} {s : State} : KeepsOpt (fun t => t) s (evLink k port cls s) := by
  unfold evLink
  split
  · split
    · exact .none
    · exact .some (Keeps.update (.refl _))
  · exact .none

theorem evRouterGrant_keeps {k port : Nat} {s : State} : KeepsOpt (fun t => t) s (evRouterGrant k port s) := by
  unfold evRouterGrant
  split
  · exact .none
  · exact .mapOf fun _ => hop_keeps

theorem evRouterAging_keeps {k port : Nat} {s : State} : KeepsOpt (fun t => t) s (evRouterAging k port s) := by
  unfold evRouterAging
  split
  · exact .mapOf fun _ => hop_keeps
  · exact .none

theorem execRouterGrant_keeps {cluster port : Nat} {s : State} : KeepsOut s (execRouterGrant cluster port s) :=
  .next (evRouterGrant_keeps.getD (.refl _))

theorem execRouterAgingGrant_keeps {cluster port : Nat} {s : State} : KeepsOut s (execRouterAgingGrant cluster port s) :=
  .next (evRouterAging_keeps.getD (.refl _))

theorem endPacket_keeps {s : State} {p : Packet} {d : PDst} {cause : Nat} : Keeps s (endPacket s p d cause) :=
  (Keeps.update splitTo_keeps).trans countGrant_keeps

theorem evRstDelivery_keeps {n : Nat} {s : State} : KeepsOpt (fun t => t) s (evRstDelivery n s) := by
  unfold evRstDelivery
  split
  · exact .none
  · split
    · exact .none
    · split
      · exact .none
      · refine .some (Keeps.trans ?_ endPacket_keeps)
        split
        · exact onCore_keeps.trans poolWrote_keeps
        · exact .refl _

theorem execRstDelivery_keeps {packet : Nat} {s : State} : KeepsOut s (execRstDelivery packet s) :=
  .next (evRstDelivery_keeps.getD (.refl _))

theorem evSendDelivery_keeps {n : Nat} {s : State} : KeepsOpt (fun t => t) s (evSendDelivery n s) := by
  unfold evSendDelivery
  split
  · exact .none
  · split
    · exact .none
    · split
      · exact .none
      · split
        · exact .some endPacket_keeps
        · split
          · exact .some endPacket_keeps
          · exact .some (pushAt_keeps.trans endPacket_keeps)

theorem execSendDelivery_keeps {packet : Nat} {s : State} : KeepsOut s (execSendDelivery packet s) :=
  .next (evSendDelivery_keeps.getD (.refl _))

theorem evPAck_keeps {n : Nat} {s : State} : KeepsOpt (fun t => t) s (evPAck n s) := by
  unfold evPAck
  split
  · exact .none
  · split
    · exact .none
    · refine .some ?_
      split
      · exact Keeps.update (.refl _)
      · exact (Keeps.update (.refl _)).trans latchP_keeps

theorem execPAcknowledge_keeps {packet : Nat} {s : State} : KeepsOut s (execPAcknowledge packet s) :=
  .next (evPAck_keeps.getD (.refl _))

theorem evForward_keeps {n : Nat} {s : State} : KeepsOpt (fun t => t) s (evForward n s) := by
  unfold evForward
  split
  · exact .none
  · split
    · exact .none
    · split
      · exact .none
      · dsimp only
        split
        · exact .none
        · exact .some ((Keeps.update splitTo_keeps).trans countGrant_keeps)

theorem execPacketForward_keeps {packet : Nat} {s : State} : KeepsOut s (execPacketForward packet s) :=
  .next (evForward_keeps.getD (.refl _))

/-! #### Tasks -/

theorem ctxXlate_keeps {s : State} {ctx k : Nat} {acc : Acc} {va : Nat} : KeepsExc Prod.snd s (ctxXlate s ctx k acc va) := by
  unfold ctxXlate
  split
  · next h => exact .ok (endWalk_keeps.trans (xlateEngine_keeps _ _ h))
  · exact .error
  · exact .error

theorem ctxLoad_keeps {s : State} {ctx k x y z : Nat} : KeepsExc Prod.snd s (ctxLoad s ctx k x y z) := by
  induction x generalizing s ctx k y z with
  | zero =>
    simp only [ctxLoad]
    exact .ok (.refl _)
  | succ n ih =>
    simp only [ctxLoad]
    split
    · exact .ok (.refl _)
    · exact .bind ctxXlate_keeps fun _ => .bind (.after homeRead_keeps ih) fun _ => .ok (.refl _)

theorem ctxRead_keeps {s : State} {ctx k va n : Nat} : KeepsExc Prod.snd s (ctxRead s ctx k va n) :=
  .map ctxLoad_keeps fun _ => Keeps.refl _

theorem ctxWrite_keeps {s : State} {ctx k : Nat} {acc : Acc} {va : Nat} {b : List Byte} :
    KeepsExc (fun t => t) s (ctxWrite s ctx k acc va b) :=
  .bind ctxXlate_keeps fun _ => .ok (Keeps.update homeWrite_keeps)

theorem onLaunch_keeps {s : State} {ctx lid : Nat} {f : Launch → Launch} : Keeps s (onLaunch s ctx lid f) := onCtx_keeps
theorem onRings_keeps {s : State} {k ctx : Nat} {f : RingSet → RingSet} : Keeps s (onRings s k ctx f) := onClu_keeps

theorem word8Put_keeps {s : State} {ctx k va v : Nat} : Keeps s (word8Put s ctx k va v) := by
  unfold word8Put
  split
  · next h => exact ctxWrite_keeps _ h
  · exact .refl _

theorem takePushNo_keeps {s : State} {k : Nat} : Keeps s (takePushNo s k).2 := onClu_keeps
theorem ringPut_keeps {s : State} {k ctx p : Nat} {r : Rec} : Keeps s (ringPut s k ctx p r) := takePushNo_keeps.trans onRings_keeps

theorem ringBack_keeps {s : State} {k ctx p : Nat} {r : Rec} : Keeps s (ringBack s k ctx p r) := by
  unfold ringBack
  split
  · exact onRings_keeps
  · exact ringPut_keeps

theorem dropSegs_keeps {ctx k p x : Nat} {s : State} : Keeps s (dropSegs ctx k p x s) := by
  induction x generalizing ctx k p s with
  | zero =>
    simp only [dropSegs]
    exact .refl _
  | succ n ih =>
    simp only [dropSegs]
    split
    · exact word8Put_keeps.trans ih
    · exact .refl _

theorem refillOne_keeps {s : State} {k ctx p : Nat} : KeepsOpt (fun t => t) s (refillOne s k ctx p) := by
  unfold refillOne
  split
  · exact .none
  · split
    · exact .none
    · split
      · exact .none
      · dsimp only
        split
        · exact .none
        · next h3 =>
            refine .some ?_
            split
            · exact (ctxRead_keeps _ h3).trans (ringBack_keeps.trans (word8Put_keeps.trans (word8Put_keeps.trans dropSegs_keeps)))
            · exact (ctxRead_keeps _ h3).trans (ringBack_keeps.trans (word8Put_keeps.trans word8Put_keeps))

theorem refillAll_keeps {k ctx p x : Nat} {s : State} : Keeps s (refillAll k ctx p x s) := by
  induction x generalizing k ctx p s with
  | zero =>
    simp only [refillAll]
    exact .refl _
  | succ n ih =>
    simp only [refillAll]
    split
    · next h => exact (refillOne_keeps _ h).trans ih
    · exact .refl _

theorem pushRec_keeps {s : State} {k ctx : Nat} {r : Rec} : KeepsOpt (fun t => t) s (pushRec s k ctx r) := by
  unfold pushRec
  dsimp only
  split
  · exact .none
  · split
    · exact .some (refillAll_keeps.trans ringPut_keeps)
    · split
      · exact .none
      · split
        · exact .none
        · split
          · next h4 =>
              exact .some (refillAll_keeps.trans ((ctxWrite_keeps _ h4).trans (word8Put_keeps.trans (takePushNo_keeps.trans
                onRings_keeps))))
          · exact .none

theorem popRec_keeps {s : State} {k ctx : Nat} {aging : Bool} : KeepsOpt Prod.snd s (popRec s k ctx aging) := by
  unfold popRec
  split
  · exact .none
  · split
    · exact .none
    · split
      · exact .none
      · exact .some (KeepsOpt.getD (.after (onClu_keeps.trans onRings_keeps) refillOne_keeps) (onClu_keeps.trans onRings_keeps))

theorem openRings_keeps {s : State} {k ctx : Nat} : Keeps s (openRings s k ctx) := onClu_keeps

theorem settleRings_keeps {s : State} {k ctx : Nat} : Keeps s (settleRings s k ctx) := by
  unfold settleRings
  split
  · exact .refl _
  · exact onClu_keeps

theorem stealMove_keeps {s : State} {k ctx d n : Nat} : Keeps s (stealMove s k ctx d n) := by
  unfold stealMove
  split
  · exact .refl _
  · exact onRings_keeps.trans ((Keeps.foldl fun _ _ => refillAll_keeps).trans ((Keeps.foldl fun _ _ =>
      ringPut_keeps).trans (onClu_keeps.trans settleRings_keeps)))

theorem evSteal_keeps {k ctx : Nat} {s : State} : KeepsOpt (fun t => t) s (evSteal k ctx s) := by
  unfold evSteal
  split
  · exact .none
  · dsimp only
    split
    · exact .none
    · exact .mapOf fun _ => stealMove_keeps

theorem execSteal_keeps {cluster ctx : Nat} {s : State} : KeepsOut s (execSteal cluster ctx s) := .next (evSteal_keeps.getD (.refl _))

theorem execStealRetry_keeps {cluster ctx : Nat} {s : State} : KeepsOut s (execStealRetry cluster ctx s) :=
  .next (evSteal_keeps.getD (.refl _))

theorem execOverflowRefill_keeps {cluster ctx prio : Nat} {s : State} : KeepsOut s (execOverflowRefill cluster ctx prio s) :=
  .next (refillOne_keeps.getD (.refl _))

/-! #### Launches -/

theorem raiseMask_keeps {s : State} {ctx : Nat} {m : BitVec 256} : Keeps s (raiseMask s ctx m) := setCtx_keeps
theorem clearMask_keeps {s : State} {ctx : Nat} {m : BitVec 256} : Keeps s (clearMask s ctx m) := onCtx_keeps

theorem raiseErr_keeps {s : State} {ctx : Nat} {l : Launch} : Keeps s (raiseErr s ctx l) := by
  unfold raiseErr
  split
  · exact raiseEvent_keeps
  · exact .refl _

theorem onLevel_keeps {s : State} {ctx key : Nat} {f : Level → Level} : Keeps s (onLevel s ctx key f) := onCtx_keeps

theorem onLevels_keeps {s : State} {ctx : Nat} {l : Launch} {f : Level → Level} : Keeps s (onLevels s ctx l f) :=
  Keeps.foldl fun _ _ => onLevel_keeps

theorem openLevels_keeps {s : State} {ctx lid : Nat} {l : Launch} : Keeps s (openLevels s ctx lid l) := by
  unfold openLevels
  dsimp only
  split
  · refine Keeps.trans ?_ onLevel_keeps
    split
    · exact onLevels_keeps.trans (onLevel_keeps.trans (onLevel_keeps.trans onLevel_keeps))
    · exact onLevels_keeps.trans (onLevel_keeps.trans onLevel_keeps)
  · split
    · exact onLevels_keeps.trans (onLevel_keeps.trans (onLevel_keeps.trans onLevel_keeps))
    · exact onLevels_keeps.trans (onLevel_keeps.trans onLevel_keeps)

theorem noteJob_keeps {s : State} {ctx job cause : Nat} : Keeps s (noteJob s ctx job cause) := onPart_keeps
theorem endJobs_keeps {s : State} {ctx key n : Nat} : Keeps s (endJobs s ctx key n) := onPart_keeps

theorem settleLevel_keeps {s : State} {ctx key : Nat} : Keeps s (settleLevel s ctx key) := by
  unfold settleLevel
  dsimp only
  split
  · split
    · refine Keeps.trans ?_ raiseEvent_keeps
      split
      · refine Keeps.trans ?_ endJobs_keeps
        split
        · exact onLevel_keeps.trans onPart_keeps
        · exact onLevel_keeps
      · split
        · exact onLevel_keeps.trans onPart_keeps
        · exact onLevel_keeps
    · split
      · refine Keeps.trans ?_ endJobs_keeps
        split
        · exact onLevel_keeps.trans onPart_keeps
        · exact onLevel_keeps
      · split
        · exact onLevel_keeps.trans onPart_keeps
        · exact onLevel_keeps
  · exact .refl _

theorem closeLevels_keeps {s : State} {ctx : Nat} {l : Launch} {counted : Bool} : Keeps s (closeLevels s ctx l counted) := by
  unfold closeLevels
  refine Keeps.trans ?_ ((Keeps.foldl fun _ _ => ?_).trans (Keeps.foldl fun _ _ => settleLevel_keeps))
  · split
    · exact onLevels_keeps
    · exact .refl _
  · split
    · exact onLevel_keeps
    · exact .refl _

theorem settleCancels_keeps {s : State} {ctx : Nat} : Keeps s (settleCancels s ctx) :=
  onCtx_keeps.trans (Keeps.foldl fun _ _ => writeStatus_keeps)

theorem countUnit_keeps {s : State} {ctx lid status n : Nat} : Keeps s (countUnit s ctx lid status n) :=
  onLaunch_keeps.trans onLevels_keeps

theorem ringStore_keeps {s : State} {ctx lid i status : Nat} {payload : W64} : Keeps s (ringStore s ctx lid i status payload) := by
  unfold ringStore
  dsimp only
  split
  · exact .refl _
  · split
    · next h1 => exact ctxWrite_keeps _ h1
    · exact onLaunch_keeps

theorem reportHead_keeps {s : State} {ctx lid : Nat} : KeepsOpt (fun t => t) s (reportHead s ctx lid) := by
  unfold reportHead
  dsimp only
  split
  · split
    · exact .some (countUnit_keeps.trans (ringStore_keeps.trans onLaunch_keeps))
    · exact .none
  · exact .none

theorem reportAll_keeps {ctx lid x : Nat} {s : State} : Keeps s (reportAll ctx lid x s) := by
  induction x generalizing ctx lid s with
  | zero =>
    simp only [reportAll]
    exact .refl _
  | succ n ih =>
    simp only [reportAll]
    split
    · next h => exact (reportHead_keeps _ h).trans ih
    · exact .refl _

theorem commitFaults_keeps {s : State} {ctx lid k cause n : Nat} {va : W64} : Keeps s (commitFaults s ctx lid k cause n va) :=
  (Keeps.update (newFault_keeps.trans (raiseEvent_keeps.trans sendFault_keeps))).trans onLaunch_keeps

theorem commitLog_keeps {s : State} {ctx lid : Nat} : Keeps s (commitLog s ctx lid) := by
  unfold commitLog
  dsimp only
  split
  · split
    · exact .refl _
    · split
      · next h2 => exact (ctxWrite_keeps _ h2).trans onLaunch_keeps
      · exact commitFaults_keeps
  · exact .refl _

theorem commitAnswer_keeps {s : State} {ctx lid : Nat} {discard : Bool} : Keeps s (commitAnswer s ctx lid discard) :=
  onLaunch_keeps.trans commitLog_keeps

theorem completeLaunch_keeps {s : State} {ctx lid : Nat} : Keeps s (completeLaunch s ctx lid) := by
  unfold completeLaunch
  refine Keeps.trans ?_ closeLevels_keeps
  split
  · exact onLaunch_keeps.trans (noteJob_keeps.trans raiseErr_keeps)
  · dsimp only
    split
    · exact onLaunch_keeps.trans (noteJob_keeps.trans raiseMask_keeps)
    · exact onLaunch_keeps.trans (noteJob_keeps.trans (raiseMask_keeps.trans raiseErr_keeps))

theorem advance_keeps {s : State} {ctx lid : Nat} : Keeps s (advance s ctx lid) := by
  unfold advance
  refine Keeps.trans ?_ settleCancels_keeps
  split
  · exact reportAll_keeps.trans (commitLog_keeps.trans completeLaunch_keeps)
  · exact reportAll_keeps.trans commitLog_keeps

theorem deliver_keeps {s : State} {ctx lid unit status : Nat} {payload : W64} : Keeps s (deliver s ctx lid unit status payload) := by
  unfold deliver
  dsimp only
  split
  · exact .refl _
  · exact onLaunch_keeps.trans advance_keeps

theorem joinComplete_keeps {s : State} {ctx k blk : Nat} {payload : W64} : Keeps s (joinComplete s ctx k blk payload) := by
  unfold joinComplete
  dsimp only
  split
  · split
    · refine Keeps.trans ?_ raiseEvent_keeps
      split
      · exact deliver_keeps
      · exact .refl _
    · split
      · exact deliver_keeps
      · exact .refl _
  · split
    · next h1 =>
        split
        · refine Keeps.trans ?_ ((pushRec_keeps _ h1).trans raiseEvent_keeps)
          split
          · exact deliver_keeps
          · exact .refl _
        · refine Keeps.trans ?_ (pushRec_keeps _ h1)
          split
          · exact deliver_keeps
          · exact .refl _
    · refine Keeps.trans ?_ onCtx_keeps
      split
      · exact deliver_keeps
      · exact .refl _

theorem joinAfter_keeps {s : State} {ctx k slot pa : Nat} {old new payload : W64} :
    Keeps s (joinAfter s ctx k slot pa old new payload) := by
  unfold joinAfter
  split
  · exact homeRead_keeps.trans joinComplete_keeps
  · exact .refl _

theorem joinDecrement_keeps {s : State} {ctx k : Nat} {x : Xl} {payload : W64} : Keeps s (joinDecrement s ctx k x payload) :=
  homeRead_keeps.trans (homeWrite_keeps.trans (ackNow_keeps.trans joinAfter_keeps))

theorem evContPush_keeps {ctx : Nat} {s : State} : KeepsOpt (fun t => t) s (evContPush ctx s) := by
  unfold evContPush
  refine .findSome fun _ => ?_
  split
  · exact .none
  · refine .map pushRec_keeps fun _ => ?_
    dsimp only
    split
    · exact onCtx_keeps.trans raiseEvent_keeps
    · exact onCtx_keeps

theorem execContinuationPush_keeps {ctx : Nat} {s : State} : KeepsOut s (execContinuationPush ctx s) :=
  .next (evContPush_keeps.getD (.refl _))

theorem checkLaunch_keeps {s : State} {ctx k : Nat} {l : Launch} : Keeps s (checkLaunch s ctx k l).2.2 := by
  unfold checkLaunch
  split
  · exact .refl _
  · dsimp only
    split
    · exact .refl _
    · next h1 =>
        split
        · exact (KeepsExc.ite (.ok (.refl _)) ctxRead_keeps).snd h1
        · next h2 =>
            split
            · exact (KeepsExc.ite (.ok ((KeepsExc.ite (.ok (.refl _)) ctxRead_keeps).snd h1)) (.after ((KeepsExc.ite (.ok (.refl _))
                ctxRead_keeps).snd h1) ctxRead_keeps)).snd h2
            · split
              · exact (KeepsExc.ite (.ok ((KeepsExc.ite (.ok (.refl _)) ctxRead_keeps).snd h1)) (.after ((KeepsExc.ite (.ok (.refl _))
                  ctxRead_keeps).snd h1) ctxRead_keeps)).snd h2
              · exact (KeepsExc.ite (.ok ((KeepsExc.ite (.ok (.refl _)) ctxRead_keeps).snd h1)) (.after ((KeepsExc.ite (.ok (.refl _))
                  ctxRead_keeps).snd h1) ctxRead_keeps)).snd h2

theorem cancelUnadmitted_keeps {s : State} {ctx lid : Nat} : Keeps s (cancelUnadmitted s ctx lid) :=
  onLaunch_keeps.trans (reportAll_keeps.trans completeLaunch_keeps)

theorem issueLaunch_keeps {s : State} {ctx k lid : Nat} {blk : BitVec 2048} {addr : W64} {job : Nat} :
    Keeps s (issueLaunch s ctx k lid blk addr job).2 := by
  unfold issueLaunch
  dsimp only
  split
  · exact checkLaunch_keeps.trans (onLaunch_keeps.trans raiseErr_keeps)
  · split
    · exact checkLaunch_keeps.trans (onLaunch_keeps.trans (openLevels_keeps.trans cancelUnadmitted_keeps))
    · exact checkLaunch_keeps.trans (onLaunch_keeps.trans openLevels_keeps)

theorem bindCore_keeps {s : State} {core ctx : Nat} {pw : W64} {alloc : Nat} : Keeps s (bindCore s core ctx pw alloc) :=
  openRings_keeps.trans ((Keeps.foldl fun _ _ => onThread_keeps).trans onCore_keeps)

theorem placeResidents_keeps {s : State} {ctx lid core : Nat} : Keeps s (placeResidents s ctx lid core) := by
  unfold placeResidents
  refine Keeps.foldl fun _ _ => ?_
  dsimp only
  split
  · exact .refl _
  · exact onCtx_keeps.trans onCore_keeps

theorem placeAll_keeps {s : State} {ctx core : Nat} : Keeps s (placeAll s ctx core) := by
  unfold placeAll
  refine Keeps.foldl fun _ _ => ?_
  split
  · exact placeResidents_keeps
  · exact .refl _

theorem bindFor_keeps {s : State} {ctx lid core : Nat} : Keeps s (bindFor s ctx lid core) := by
  unfold bindFor
  refine Keeps.trans ?_ placeAll_keeps
  split
  · exact bindCore_keeps
  · exact .refl _

theorem evCoreBind_keeps {core ctx lid : Nat} {s : State} : KeepsOpt (fun t => t) s (evCoreBind core ctx lid s) := by
  unfold evCoreBind
  dsimp only
  split
  · exact .some bindFor_keeps
  · exact .none

theorem execCoreBind_keeps {core ctx lid : Nat} {s : State} : KeepsOut s (execCoreBind core ctx lid s) :=
  .next (evCoreBind_keeps.getD (.refl _))

theorem releaseCore_keeps {s : State} {core : Nat} : Keeps s (releaseCore s core) := by
  unfold releaseCore
  split
  · exact .refl _
  · exact onCore_keeps.trans settleRings_keeps

theorem evCoreRelease_keeps {core : Nat} {s : State} : KeepsOpt (fun t => t) s (evCoreRelease core s) := by
  unfold evCoreRelease
  dsimp only
  split
  · exact .none
  · split
    · exact .some releaseCore_keeps
    · exact .none

theorem execCoreRelease_keeps {core : Nat} {s : State} : KeepsOut s (execCoreRelease core s) :=
  .next (evCoreRelease_keeps.getD (.refl _))

theorem evAdmit_keeps {ctx lid : Nat} {s : State} : KeepsOpt (fun t => t) s (evAdmit ctx lid s) := by
  unfold evAdmit
  dsimp only
  split
  · exact .none
  · refine .some ?_
    split
    · refine Keeps.trans ?_ (onLaunch_keeps.trans (openLevels_keeps.trans (onLevels_keeps.trans (onCtx_keeps.trans ((Keeps.foldl fun _
        _ => onCore_keeps).trans ((Keeps.foldl fun _ _ => bindFor_keeps).trans completeLaunch_keeps))))))
      split
      · exact clearMask_keeps
      · exact .refl _
    · refine Keeps.trans ?_ (onLaunch_keeps.trans (openLevels_keeps.trans (onLevels_keeps.trans (onCtx_keeps.trans ((Keeps.foldl fun _
        _ => onCore_keeps).trans (Keeps.foldl fun _ _ => bindFor_keeps))))))
      split
      · exact clearMask_keeps
      · exact .refl _

theorem execLaunchAdmission_keeps {ctx lid : Nat} {s : State} : KeepsOut s (execLaunchAdmission ctx lid s) :=
  .next (evAdmit_keeps.getD (.refl _))

theorem readyJoin_keeps {s : State} {ctx k lid i : Nat} {l : Launch} : KeepsExc (fun t => t) s (readyJoin s ctx k lid i l) := by
  unfold readyJoin
  dsimp only
  split
  · exact .ok (.refl _)
  · exact ctxWrite_keeps

theorem evDispatch_keeps {ctx lid : Nat} {s : State} : KeepsOpt (fun t => t) s (evDispatch ctx lid s) := by
  unfold evDispatch
  dsimp only
  split
  · exact .none
  · split
    · exact .none
    · split
      · exact .some (onLaunch_keeps.trans advance_keeps)
      · next h2 => exact .map (.after (readyJoin_keeps _ h2) pushRec_keeps) fun _ => onLaunch_keeps

theorem execUnitDispatch_keeps {ctx lid : Nat} {s : State} : KeepsOut s (execUnitDispatch ctx lid s) :=
  .next (evDispatch_keeps.getD (.refl _))

theorem evResidRelease_keeps {ctx lid : Nat} {s : State} : KeepsOpt (fun t => t) s (evResidRelease ctx lid s) := by
  unfold evResidRelease
  dsimp only
  split
  · exact .none
  · exact .some ((Keeps.foldl fun _ _ => onCore_keeps).trans (onCtx_keeps.trans onLaunch_keeps))

theorem execResidentRelease_keeps {ctx lid : Nat} {s : State} : KeepsOut s (execResidentRelease ctx lid s) :=
  .next (evResidRelease_keeps.getD (.refl _))

/-! #### Macros -/

theorem freeUnit_keeps {s : State} {c : MCmd} : Keeps s (freeUnit s c) := by
  unfold freeUnit
  split
  · exact onClu_keeps
  · exact .refl _

theorem dropCmds_keeps {s : State} {core : Nat} {gone : MCmd → Bool} : Keeps s (dropCmds s core gone) :=
  (Keeps.update (Keeps.foldl fun _ _ => freeUnit_keeps)).trans onCore_keeps

/-! #### Sched -/

theorem clearExt_keeps {s : State} : Keeps s (clearExt s) := withCore_keeps

theorem startState_keeps {s : State} {st : TsState} {task : Rec} {act : Option Act} {code frame : W64} {unit lid : Nat}
    {hit : Option (Nat × Nat)} : Keeps s (startState s st task act code frame unit lid hit) := by
  unfold startState
  refine Keeps.trans ?_ (withTh_keeps.trans acquire_keeps)
  split
  · exact clearExt_keeps
  · exact .refl _

theorem startAt_keeps {s : State} {code : W64} : Keeps s (startAt s code) := by
  unfold startAt
  split
  · next h => exact checkTarget_keeps _ (.inl h)
  · next h => exact (checkTarget_keeps _ (.inr (.inl h))).trans takeTrap_keeps
  · next h => exact (checkTarget_keeps _ (.inr (.inr h))).trans takeTrap_keeps
  · exact takePage_keeps
  · exact takeTrap_keeps

theorem startWork_keeps {s : State} {st : TsState} {task : Rec} {act : Option Act} {code frame : W64} {unit lid : Nat}
    {hit : Option (Nat × Nat)} : Keeps s (startWork s st task act code frame unit lid hit) :=
  startState_keeps.trans startAt_keeps

theorem takeHit_keeps {s : State} {k ctx : Nat} {r : Rec} : Keeps s (takeHit s k ctx r).2 := by
  unfold takeHit
  split
  · exact .refl _
  · split
    · exact onClu_keeps
    · exact .refl _

theorem startTask_keeps {s : State} {g : Nat} {r : Rec} : Keeps s (startTask s g r) :=
  focus_keeps.trans (takeHit_keeps.trans startWork_keeps)

theorem evActivation_keeps {g : Nat} {s : State} : KeepsOpt (fun t => t) s (evActivation g s) := by
  unfold evActivation
  dsimp only
  split
  · exact .none
  · exact .mapOf fun _ => focus_keeps.trans startWork_keeps

theorem execActivationStart_keeps {g : Nat} {s : State} : KeepsOut s (execActivationStart g s) :=
  .next (evActivation_keeps.getD (.refl _))

theorem evPop_keeps {aging : Bool} {g : Nat} {s : State} : KeepsOpt (fun t => t) s (evPop aging g s) := by
  unfold evPop
  dsimp only
  split
  · exact .none
  · split
    · exact .none
    · exact .map popRec_keeps fun _ => startTask_keeps

theorem execTaskPop_keeps {g : Nat} {s : State} : KeepsOut s (execTaskPop g s) := .next (evPop_keeps.getD (.refl _))
theorem execAgingPop_keeps {g : Nat} {s : State} : KeepsOut s (execAgingPop g s) := .next (evPop_keeps.getD (.refl _))
theorem matrixLatch_keeps {s : State} : KeepsOpt (fun t => t) s (matrixLatch s) := .mapOf fun _ => withTh_keeps.trans takeTrap_keeps

theorem freeHit_keeps {s : State} {h : Nat × Nat} : Keeps s (freeHit s h) := by
  unfold freeHit
  dsimp only
  split
  · exact onClu_keeps
  · exact .refl _

theorem retire_keeps {s : State} : Keeps s (retire s) := withTh_keeps

theorem finishWork_keeps {s : State} : KeepsBody (fun t => t) s (finishWork s) := by
  unfold finishWork
  dsimp only
  split
  · exact .ok (freeHit_keeps.trans retire_keeps)
  · split
    · refine .bind alignCheck_keeps fun _ => .bind ?_ fun _ => .ok (joinDecrement_keeps.trans retire_keeps)
      split
      · exact permStop_keeps
      · exact xlateE_keeps
    · split
      · exact .ok (deliver_keeps.trans retire_keeps)
      · exact .ok retire_keeps

theorem endForm_keeps {s : State} {k : State → Except Stop State} (h : ∀ s, KeepsBody (fun t => t) s (k s)) :
    KeepsBody (fun t => t) s (endForm s k) := by
  unfold endForm
  refine .bind ready_keeps fun _ => .after release_keeps ?_
  dsimp only
  split
  · next h => exact .ok (latchTrap_keeps _ h)
  · split
    · next h => exact .ok (matrixLatch_keeps _ h)
    · exact h _

theorem execEnd_keeps {o : Bare} {s : State} : KeepsOut s (execEnd o s) :=
  .next (bit0Form_keeps (endForm_keeps fun _ => finishWork_keeps))

theorem boundE_keeps {s : State} {cls : Nat} {u : State} : KeepsBody (fun _ => u) u (boundE s cls) := by
  unfold boundE
  split
  · exact .ok (.refl _)
  · exact trapE_keeps

theorem execCmask_keeps {o : CMask} {s : State} : KeepsOut s (execCmask o s) :=
  .next (bit0Form_keeps (.bind boundE_keeps fun _ => .ok withCore_keeps))

theorem execCunmask_keeps {o : CMask} {s : State} : KeepsOut s (execCunmask o s) :=
  .next (bit0Form_keeps (.bind boundE_keeps fun _ => .ok withCore_keeps))

theorem execQbind_keeps {o : QBind} {s : State} : KeepsOut s (execQbind o s) :=
  .next (bit0Form_keeps (.bind require_keeps fun _ => .ok withCore_keeps))

theorem execQlen_keeps {o : QReg} {s : State} : KeepsOut s (execQlen o s) := .next (bit0Form_keeps (.ok setS_keeps))

theorem execQdrop_keeps {o : QReg} {s : State} : KeepsOut s (execQdrop o s) :=
  .next (bit0Form_keeps (.ok (withCore_keeps.trans setS_keeps)))

theorem execResid_keeps {o : SD1} {s : State} : KeepsOut s (execResid o s) := .next (bit0Form_keeps (.ok setS_keeps))

theorem execDefer_keeps {o : Bare} {s : State} : KeepsOut s (execDefer o s) := by
  unfold execDefer
  refine .next (bit0Form_keeps ?_)
  split
  · exact trapE_keeps
  · exact endForm_keeps fun _ => .ok (withCore_keeps.trans retire_keeps)

theorem execCastpin_keeps {o : CastPin} {s : State} : KeepsOut s (execCastpin o s) := by
  unfold execCastpin
  refine .next (bit0Form_keeps ?_)
  split
  · exact trapE_keeps
  · exact .ok (withCore_keeps.trans setS_keeps)

theorem spawnForm_keeps {s : State} {a : VOp} {k : Rec → Option State → Nat → State → Except Stop State}
    (h : ∀ r o n s, KeepsOpt (fun t => t) s o → KeepsBody (fun t => t) s (k r o n s)) : KeepsBody (fun t => t) s (spawnForm s a k) :=
  .bind vecChecks_keeps fun _ => .bind require_keeps fun _ => .bind require_keeps fun _ => .bind ready_keeps fun _ =>
    .after release_keeps (h _ _ _ _ pushRec_keeps)

theorem execSpawn_keeps {o : Spawn} {s : State} : KeepsOut s (execSpawn o s) := by
  refine .next (bit0Form_keeps (spawnForm_keeps fun _ _ _ _ pushed => ?_))
  split
  · exact .ok (pushed _ rfl)
  · exact .qfull

theorem execSpawnt_keeps {o : SpawnT} {s : State} : KeepsOut s (execSpawnt o s) := by
  refine .next (bit0Form_keeps (spawnForm_keeps fun _ _ _ _ pushed => .ok ?_))
  split
  · exact (pushed _ rfl).trans setP_keeps
  · exact setP_keeps

theorem joinXlate_keeps {s : State} {ea : W64} : KeepsBody Prod.snd s (joinXlate s ea) := by
  unfold joinXlate
  refine .bind alignCheck_keeps fun _ => ?_
  split
  · exact permStop_keeps
  · exact xlateE_keeps

theorem execJoin_keeps {o : S3} {s : State} : KeepsOut s (execJoin o s) :=
  .next (bit0Form_keeps (.bind joinXlate_keeps fun _ => .ok issueC_keeps))

theorem execEjoin_keeps {o : EJoin} {s : State} : KeepsOut s (execEjoin o s) :=
  .next (bit0Form_keeps (.bind joinXlate_keeps fun _ => .ok issueC_keeps))

theorem evHomeStore_keeps {g : Nat} {s : State} : KeepsOpt (fun t => t) s (evHomeStore g s) := by
  unfold evHomeStore
  refine .map performC_keeps fun _ => ?_
  split
  · split
    · exact joinAfter_keeps
    · exact .refl _
  · exact .refl _

theorem execHomeStore_keeps {g : Nat} {s : State} : KeepsOut s (execHomeStore g s) := .next (evHomeStore_keeps.getD (.refl _))

theorem execEset_keeps {o : Ev} {s : State} : KeepsOut s (execEset o s) := by
  unfold execEset
  refine .next (bit0Form_keeps (.bind ready_keeps fun _ => .ok ?_))
  split
  · exact release_keeps.trans setCtx_keeps
  · exact release_keeps.trans raiseEvent_keeps

theorem execEwait_keeps {o : Ev} {s : State} : KeepsOut s (execEwait o s) := by
  unfold execEwait
  refine .next (bit0Form_keeps (.bind ready_keeps fun _ => .ok (Keeps.trans ?_ acquire_keeps)))
  split
  · exact clearMask_keeps
  · exact .refl _

theorem blockXlate_keeps {ea : W64} {x : Nat} {s : State} : KeepsBody Prod.snd s (blockXlate ea x s) := by
  induction x generalizing ea s with
  | zero =>
    simp only [blockXlate]
    exact .ok (.refl _)
  | succ n ih =>
    simp only [blockXlate]
    exact .bind ih fun _ => .bind xlateE_keeps fun _ => .ok (.refl _)

theorem readAsOne_keeps {s : State} {xs : List Xl} : Keeps s (readAsOne s xs).2 := by
  unfold readAsOne
  extract_lets now
  refine (raisePts_keeps (n := now)).trans (.foldl_pair (r := (0, raisePts s now)) ?_)
  intro r x
  dsimp only
  exact loadHome_keeps

theorem loadBlock_keeps {ea : W64} {s : State} : KeepsBody Prod.snd s (loadBlock ea s) := by
  unfold loadBlock
  split
  · split
    · exact .ok poolLoaded_keeps
    · exact boundsStop_keeps
  · exact .bind blockXlate_keeps fun _ => .ok readAsOne_keeps

theorem execLaunch_keeps {o : SD2} {s : State} : KeepsOut s (execLaunch o s) :=
  .next (bit0Form_keeps (.bind ready_keeps fun _ => .bind alignCheck_keeps fun _ => .bind ready_keeps fun _ =>
    .bind loadBlock_keeps fun _ => .bind ready_keeps fun _ => .ok (release_keeps.trans (issueLaunch_keeps.trans setS_keeps))))

theorem execCtrd_keeps {o : Ctrd} {s : State} : KeepsOut s (execCtrd o s) := .next (bit0Form_keeps (.ok setS_keeps))

theorem segKeep_keeps {ctx k a : Nat} {keep : List Rec} {s : State} : Keeps s (segKeep ctx k a keep s) := by
  unfold segKeep
  refine (Keeps.foldl fun _ _ => ?_).trans word8Put_keeps
  split
  · next h => exact ctxWrite_keeps _ h
  · exact .refl _

theorem dropHits_keeps {s : State} {k ctx p : Nat} {recs : List Rec} {gone : Rec → Bool} : Keeps s (dropHits s k ctx p recs gone) :=
  Keeps.foldl fun _ _ => freeHit_keeps

theorem discardAt_keeps {s : State} {ctx lid : Nat} {hard : Bool} {k p : Nat} : Keeps s (discardAt s ctx lid hard k p).2 := by
  unfold discardAt
  split
  · exact .refl _
  · refine Keeps.trans ?_ (refillAll_keeps.trans settleRings_keeps)
    split
    · refine dropHits_keeps.trans (onRings_keeps.trans ((Keeps.foldl fun _ _ => ?_).trans dropSegs_keeps))
      split
      · exact segKeep_keeps
      · exact .refl _
    · refine dropHits_keeps.trans (onRings_keeps.trans (Keeps.foldl fun _ _ => ?_))
      split
      · exact segKeep_keeps
      · exact .refl _

theorem discardAll_keeps {s : State} {ctx lid : Nat} {hard : Bool} : Keeps s (discardAll s ctx lid hard).2 := by
  unfold discardAll
  refine Keeps.foldl_pair (r := ([], s)) ?_
  exact fun _ _ => discardAt_keeps

theorem cancelRay_keeps {s : State} {h : W64} : Keeps s (cancelRay s h) := by
  unfold cancelRay
  split
  · split
    · exact .refl _
    · refine Keeps.trans ?_ onClu_keeps
      split
      · exact Keeps.update (.refl _)
      · exact .refl _
  · exact .refl _

theorem stopTask_keeps {s : State} {g : Nat} : Keeps s (stopTask s g) := by
  unfold stopTask
  refine Keeps.trans ?_ onThread_keeps
  split
  · exact (Keeps.update ((Keeps.foldl fun _ _ => finishCopy_keeps).trans (dropCmds_keeps.trans (Keeps.foldl fun _ _ =>
      cancelRay_keeps)))).trans (onCtx_keeps.trans freeHit_keeps)
  · exact (Keeps.update ((Keeps.foldl fun _ _ => finishCopy_keeps).trans (dropCmds_keeps.trans (Keeps.foldl fun _ _ =>
      cancelRay_keeps)))).trans onCtx_keeps

theorem cancelLaunch_keeps {hard : Bool} {own : Option (Nat × Nat)} {ctx : Nat} {s : State} {lid : Nat} :
    Keeps s (cancelLaunch hard own ctx s lid) := by
  unfold cancelLaunch
  dsimp only
  split
  · exact .refl _
  · split
    · exact cancelUnadmitted_keeps
    · split
      · exact onLaunch_keeps.trans (discardAll_keeps.trans (onLaunch_keeps.trans advance_keeps))
      · exact onLaunch_keeps.trans (discardAll_keeps.trans (onLaunch_keeps.trans ((Keeps.foldl fun _ _ =>
          stopTask_keeps).trans (onLaunch_keeps.trans advance_keeps))))

theorem cancelLeft_keeps {ctx : Nat} {s : State} {lid : Nat} : Keeps s (cancelLeft ctx s lid) :=
  discardAll_keeps.trans (Keeps.foldl fun _ _ => stopTask_keeps)

theorem execCancel_keeps {o : Cancel} {s : State} : KeepsOut s (execCancel o s) := by
  unfold execCancel
  refine .next (bit0Form_keeps (.bind require_keeps fun _ => ?_))
  dsimp only
  split
  · split
    · split
      · exact .ok setS_keeps
      · refine .ok (Keeps.trans ?_ ((Keeps.foldl fun _ _ => cancelLaunch_keeps).trans ((Keeps.foldl fun _ _ =>
          cancelLeft_keeps).trans settleCancels_keeps)))
        split
        · exact .refl _
        · exact onCtx_keeps.trans withTh_keeps
    · split
      · exact .ok setS_keeps
      · refine .ok (Keeps.trans ?_ ((Keeps.foldl fun _ _ => cancelLaunch_keeps).trans ((Keeps.foldl fun _ _ =>
          cancelLeft_keeps).trans settleCancels_keeps)))
        split
        · exact .refl _
        · exact onCtx_keeps.trans withTh_keeps
  · split
    · exact .ok setS_keeps
    · refine .ok (Keeps.trans ?_ (onLevel_keeps.trans ((Keeps.foldl fun _ _ => cancelLaunch_keeps).trans ((Keeps.foldl fun _ _ =>
        cancelLeft_keeps).trans settleCancels_keeps))))
      split
      · exact .refl _
      · exact onCtx_keeps.trans withTh_keeps

/-! #### Matrix -/

theorem knownE_keeps {s : State} {l : List (Fin 8)} {u : State} : KeepsBody (fun _ => u) u (knownE s l) := ready_keeps

theorem matrixForm_keeps {s : State} {p : Pred} {need : List (Fin 8)} {pre : Except Stop Unit} {k : Except Stop State}
    (hp : KeepsBody (fun _ => s) s pre) (hk : KeepsBody (fun t => t) s k) : Keeps s (matrixForm s p need pre k) := by
  unfold matrixForm
  split
  · exact stalled_keeps
  · split
    · exact .refl s
    · refine runBody_keeps (.bind knownE_keeps fun _ => .bind hp fun _ => ?_)
      split
      · next h => exact .ok (matrixLatch_keeps _ h)
      · exact hk

theorem enqueue_keeps {s : State} {op : MOp} {gran : BitVec 3} : Keeps s (enqueue s op gran) := withCore_keeps

theorem takeForm_keeps {s : State} {d : Fin 8} {new : Shape} : KeepsBody (fun t => t) s (takeForm s d new) :=
  .bind require_keeps fun _ => .ok withTh_keeps

theorem macroE_keeps {s : State} {m : Fin 8} {u : State} : KeepsBody (fun _ => u) u (macroE s m) := require_keeps

theorem locE_keeps {s : State} {e : Ty} {l : MLocV} {u : State} : KeepsBody (fun _ => u) u (locE s e l) :=
  .bind require_keeps fun _ => require_keeps

theorem mbldForm_keeps {o : MBld} {wide : Bool} {s : State} : Keeps s (mbldForm o wide s) :=
  matrixForm_keeps (.ok (.refl _)) (.bind locE_keeps fun _ => .ok enqueue_keeps)

theorem execMbld8_keeps {o : MBld} {s : State} : KeepsOut s (execMbld8 o s) := .next mbldForm_keeps
theorem execMbld16_keeps {o : MBld} {s : State} : KeepsOut s (execMbld16 o s) := .next mbldForm_keeps

theorem execMbrel_keeps {o : MBrel} {s : State} : KeepsOut s (execMbrel o s) :=
  .next (matrixForm_keeps (.ok (.refl _)) (.ok enqueue_keeps))

theorem mldForm_keeps {o : MLoc} {s : State} : Keeps s (mldForm o s) :=
  matrixForm_keeps (.ok (.refl _)) (.bind locE_keeps fun _ => .bind takeForm_keeps fun _ => .ok enqueue_keeps)

theorem execMld32_keeps {o : MLoc} {s : State} : KeepsOut s (execMld32 o s) := .next mldForm_keeps
theorem execMld16_keeps {o : MLoc} {s : State} : KeepsOut s (execMld16 o s) := .next mldForm_keeps

theorem mstForm_keeps {o : MLoc} {s : State} : Keeps s (mstForm o s) :=
  matrixForm_keeps (.ok (.refl _)) (.bind locE_keeps fun _ => .ok enqueue_keeps)

theorem execMst32_keeps {o : MLoc} {s : State} : KeepsOut s (execMst32 o s) := .next mstForm_keeps
theorem execMst16_keeps {o : MLoc} {s : State} : KeepsOut s (execMst16 o s) := .next mstForm_keeps

theorem execMcvt_keeps {o : MLoc} {s : State} : KeepsOut s (execMcvt o s) :=
  .next (matrixForm_keeps (.ok (.refl _)) (.bind locE_keeps fun _ => .ok enqueue_keeps))

theorem execMzero_keeps {o : M1} {s : State} : KeepsOut s (execMzero o s) :=
  .next (matrixForm_keeps (.ok (.refl _)) (.bind takeForm_keeps fun _ => .ok enqueue_keeps))

theorem mmulForm_keeps {o : MMul} {acc : Bool} {s : State} : Keeps s (mmulForm o acc s) := by
  refine matrixForm_keeps (.ok (.refl _)) (.bind (π := fun _ => s) ?_ fun _ => .bind (require_keeps (u := s)) fun _ =>
    .bind (π := fun _ => s) ?_ fun _ => .bind require_keeps fun _ => .bind takeForm_keeps fun _ => .ok enqueue_keeps)
  · split
    · exact .ok (.refl s)
    · exact locE_keeps
  · split
    · exact .ok (.refl s)
    · exact macroE_keeps

theorem execMmulE2M1_keeps {o : MMul} {s : State} : KeepsOut s (execMmulE2M1 o s) := .next mmulForm_keeps
theorem execMmul8_keeps {o : MMul} {s : State} : KeepsOut s (execMmul8 o s) := .next mmulForm_keeps
theorem execMmul16_keeps {o : MMul} {s : State} : KeepsOut s (execMmul16 o s) := .next mmulForm_keeps
theorem execMmacE2M1_keeps {o : MMul} {s : State} : KeepsOut s (execMmacE2M1 o s) := .next mmulForm_keeps
theorem execMmac8_keeps {o : MMul} {s : State} : KeepsOut s (execMmac8 o s) := .next mmulForm_keeps
theorem execMmac16_keeps {o : MMul} {s : State} : KeepsOut s (execMmac16 o s) := .next mmulForm_keeps

theorem colE_keeps {s : State} {v : VOp} {u : State} : KeepsBody (fun _ => u) u (colE s v) := by
  unfold colE
  dsimp only
  split
  · exact .ok (.refl _)
  · exact trapE_keeps

theorem execMfac_keeps {o : MFac} {s : State} : KeepsOut s (execMfac o s) :=
  .next (matrixForm_keeps (.bind colE_keeps fun _ => .bind colE_keeps fun _ => .ok (.refl _)) (.bind colE_keeps fun _ =>
    .bind colE_keeps fun _ => .bind takeForm_keeps fun _ => .ok enqueue_keeps))

theorem execMlradd_keeps {o : M3} {s : State} : KeepsOut s (execMlradd o s) :=
  .next (matrixForm_keeps (.ok (.refl _)) (.bind require_keeps fun _ => .bind takeForm_keeps fun _ => .ok enqueue_keeps))

theorem execMlrmul_keeps {o : M3} {s : State} : KeepsOut s (execMlrmul o s) :=
  .next (matrixForm_keeps (.ok (.refl _)) (.bind takeForm_keeps fun _ => .ok enqueue_keeps))

theorem execMreef_keeps {o : M2} {s : State} : KeepsOut s (execMreef o s) :=
  .next (matrixForm_keeps (.ok (.refl _)) (.bind takeForm_keeps fun _ => .ok enqueue_keeps))

theorem execMprom_keeps {o : M2} {s : State} : KeepsOut s (execMprom o s) :=
  .next (matrixForm_keeps (.ok (.refl _)) (.bind takeForm_keeps fun _ => .ok enqueue_keeps))

theorem execMtr_keeps {o : M2} {s : State} : KeepsOut s (execMtr o s) :=
  .next (matrixForm_keeps (.ok (.refl _)) (.bind takeForm_keeps fun _ => .ok enqueue_keeps))

theorem execMscale_keeps {o : MScale} {s : State} : KeepsOut s (execMscale o s) :=
  .next (matrixForm_keeps (.ok (.refl _)) (.bind takeForm_keeps fun _ => .ok enqueue_keeps))

theorem execMrank_keeps {o : MRank} {s : State} : KeepsOut s (execMrank o s) :=
  .next (matrixForm_keeps (.ok (.refl _)) (.ok setS_keeps))

theorem execMfree_keeps {o : MFree} {s : State} : KeepsOut s (execMfree o s) :=
  .next (matrixForm_keeps (.ok (.refl _)) (.ok setS_keeps))

theorem execMrec_keeps {o : MRec} {s : State} : KeepsOut s (execMrec o s) :=
  .next (matrixForm_keeps require_keeps (.bind require_keeps fun _ => .ok enqueue_keeps))

theorem execMrun_keeps {o : MRun} {s : State} : KeepsOut s (execMrun o s) :=
  .next (matrixForm_keeps (.ok (.refl _)) (.bind macroE_keeps fun _ => .bind takeForm_keeps fun _ => .ok enqueue_keeps))

theorem execMwait_keeps {o : MWait} {s : State} : KeepsOut s (execMwait o s) := by
  unfold execMwait
  refine .next ?_
  split
  · exact stalled_keeps
  · exact matrixForm_keeps (.ok (.refl _)) (.ok (.refl _))

theorem readPiece_keeps {core : Nat} {pool : Bool} {c : MCmd} {s : State} {a : Int} {n : Nat} :
    KeepsBoth MFault.s Prod.snd s (readPiece core pool c s a n) := by
  unfold readPiece
  split
  · exact .ok poolRead_keeps
  · dsimp only
    split
    · next h1 => exact .ok (engRead_keeps.snd h1)
    · exact .error (.refl _)
    · exact .error (.refl _)

theorem readPieces_keeps {core : Nat} {pool : Bool} {c : MCmd} {x : List (Int × Nat)} {s : State} :
    KeepsBoth MFault.s Prod.snd s (readPieces core pool c x s) := by
  induction x generalizing core pool c s with
  | nil =>
    simp only [readPieces]
    exact .ok (.refl _)
  | cons y ys ih =>
    simp only [readPieces]
    exact .bind readPiece_keeps fun _ => .bind ih fun _ => .ok (.refl _)

theorem readRows_keeps {core : Nat} {pool : Bool} {x : List (Nat × List (Int × Nat))} {z : MCmd} {s : State} :
    KeepsBoth MFault.s MxOut.s s (readRows core pool x z s) := by
  induction x generalizing core pool z s with
  | nil =>
    simp only [readRows]
    exact .ok (.refl _)
  | cons y ys ih =>
    simp only [readRows]
    split
    · exact .bind ih fun _ => .ok (.refl _)
    · exact .bind readPieces_keeps fun _ => .bind ih fun _ => .ok (.refl _)

theorem readLoc_keeps {core : Nat} {e : Ty} {l : MLocV} {c : MCmd} {s : State} : KeepsBoth MFault.s MxOut.s s (readLoc core e l c s) :=
  readRows_keeps

theorem readTile_keeps {core : Nat} {base : W64} {c : MCmd} {s : State} : KeepsBoth MFault.s MxOut.s s (readTile core base c s) :=
  .bind readRows_keeps fun _ => .bind readRows_keeps fun _ => .ok (.refl _)

theorem rowXlate_keeps {core : Nat} {c : MCmd} {x : List (Int × Nat)} {s : State} :
    KeepsBoth MFault.s Prod.snd s (rowXlate core c x s) := by
  induction x generalizing core c s with
  | nil =>
    simp only [rowXlate]
    exact .ok (.refl _)
  | cons y ys ih =>
    simp only [rowXlate]
    split
    · next h => exact .bind (.after (xlateEngine_keeps _ _ h) ih) fun _ => .ok (.refl _)
    · exact .error (.refl _)
    · exact .error (.refl _)

theorem writeRow_keeps {core : Nat} {pool : Bool} {segs : List (Int × Nat)} {bits : Nat} {c : MCmd} {s : State} :
    KeepsBoth MFault.s (fun t => t) s (writeRow core pool segs bits c s) := by
  unfold writeRow
  dsimp only
  split
  · exact .ok (onCore_keeps.trans poolWrote_keeps)
  · exact .bind rowXlate_keeps fun _ => .ok (Keeps.foldl fun _ _ => homeWrite_keeps)

theorem writeRows_keeps {core : Nat} {pool : Bool} {x : List (Nat × List (Int × Nat) × Nat)} {z : MCmd} {s : State} :
    KeepsBoth MFault.s MxOut.s s (writeRows core pool x z s) := by
  induction x generalizing core pool z s with
  | nil =>
    simp only [writeRows]
    exact .ok (.refl _)
  | cons y ys ih =>
    simp only [writeRows]
    split
    · exact ih
    · exact .bind writeRow_keeps fun _ => ih

theorem storeLoc_keeps {core : Nat} {e : Ty} {l : MLocV} {conv : W32 → Nat} {rows : List (List W32)} {c : MCmd} {s : State} :
    KeepsBoth MFault.s MxOut.s s (storeLoc core e l conv rows c s) :=
  writeRows_keeps

theorem useMacro_keeps {core : Nat} {c : MCmd} {n : Nat} {s : State} : Keeps s (useMacro core c n s) := by
  unfold useMacro
  dsimp only
  split
  · exact .refl _
  · exact onCore_keeps.trans onThread_keeps

theorem latchBad_keeps {core : Nat} {c : MCmd} {s : State} : Keeps s (latchBad core c s) := by
  unfold latchBad
  split
  · exact onThread_keeps
  · exact .refl _

theorem mvalPut_keeps {core : Nat} {c : MCmd} {d : Fin 8} {v : MVal} {s : State} : Keeps s (mvalPut core c d v s) := onThread_keeps

theorem keepUnits_keeps {core n : Nat} {c : MCmd} {s : State} : Keeps s (keepUnits core n c s).2 := by
  unfold keepUnits
  dsimp only
  split
  · split
    · exact .refl _
    · exact mvalPut_keeps
  · exact .refl _

theorem readOperands_keeps {core n : Nat} {c : MCmd} {s : State} : KeepsBoth MFault.s MxOut.s s (readOperands core n c s) := by
  unfold readOperands
  split
  · exact .map readRows_keeps fun r => .refl r.s
  · refine .bind (ρ := MxOut.s) ?_ fun r => ?_
    · split
      · exact readTile_keeps
      · exact .ok (.refl s)
    · split
      · exact .ok (.refl r.s)
      · exact .map readRows_keeps fun q => .refl q.s
  · exact .ok (.refl s)

theorem keepFault_keeps {core : Nat} {f : MFault} : Keeps f.s (keepFault core f).s := by
  unfold keepFault
  split
  · exact .refl f.s
  · exact keepUnits_keeps

theorem doneWith_keeps {core : Nat} {c : MCmd} {p : MVal} {s : State} : Keeps s (doneWith core c p s) := by
  unfold doneWith
  split
  · dsimp only
    split
    · exact onCore_keeps
    · exact onCore_keeps.trans latchBad_keeps
  · split
    · exact .refl _
    · exact useMacro_keeps
  · exact useMacro_keeps
  · exact .refl _

theorem putResult_keeps {core : Nat} {c : MCmd} {v : MVal} {s : State} : Keeps s (putResult core c v s) := by
  unfold putResult
  split
  · exact mvalPut_keeps.trans onThread_keeps
  · exact mvalPut_keeps
  · exact .refl _

theorem runCmd_keeps {core : Nat} {c : MCmd} {s : State} : KeepsBoth MFault.s MxOut.s s (runCmd core c s) := by
  unfold runCmd
  split
  · exact .after onCore_keeps (.bind readLoc_keeps fun _ => .ok onCore_keeps)
  · exact .ok onCore_keeps
  · exact storeLoc_keeps
  · exact storeLoc_keeps
  · exact .ok onCore_keeps
  · have reads := readOperands_keeps (core := core) (n := 64) (c := begun core c s) (s := s)
    split
    · next f e => exact .error ((reads.1 f e).trans keepFault_keeps)
    · next r e => exact .ok ((reads.2 r e).trans (doneWith_keeps.trans putResult_keeps))

theorem cmdPut_keeps {s : State} {core : Nat} {c : MCmd} : Keeps s (cmdPut s core c) := onCore_keeps
theorem cmdEnd_keeps {s : State} {core : Nat} {c : MCmd} : Keeps s (cmdEnd s core c) := onCore_keeps.trans freeUnit_keeps

theorem cmdFaults_keeps {s : State} {core : Nat} {f : MFault} : Keeps s (cmdFaults s core f) :=
  (newFault_keeps.trans (raiseEvent_keeps.trans (sendFault_keeps.trans (.update (.refl _))))).trans cmdPut_keeps

theorem grantAt_keeps {k x : Nat} {s : State} : KeepsOpt (fun t => t) s (grantAt k x s) := by
  induction x generalizing k s with
  | zero =>
    simp only [grantAt]
    exact .none
  | succ n ih =>
    simp only [grantAt]
    split
    · exact .some (onClu_keeps.trans cmdPut_keeps)
    · exact .after onClu_keeps ih

theorem evMatrixGrant_keeps {k : Nat} {s : State} : KeepsOpt (fun t => t) s (evMatrixGrant k s) := grantAt_keeps

theorem execMatrixGrant_keeps {cluster : Nat} {s : State} : KeepsOut s (execMatrixGrant cluster s) :=
  .next (evMatrixGrant_keeps.getD (.refl _))

theorem evMatrixMigration_keeps {core : Nat} {s : State} : KeepsOpt (fun t => t) s (evMatrixMigration core s) := by
  unfold evMatrixMigration
  split
  · exact .none
  · split
    · split
      · exact .none
      · exact .mapOf fun _ => onClu_keeps.trans cmdPut_keeps
    · exact .none

theorem execMatrixMigration_keeps {core : Nat} {s : State} : KeepsOut s (execMatrixMigration core s) :=
  .next (evMatrixMigration_keeps.getD (.refl _))

theorem evMatrixComplete_keeps {core : Nat} {s : State} : KeepsOpt (fun t => t) s (evMatrixComplete core s) := by
  unfold evMatrixComplete
  split
  · exact .none
  · next c _ _ =>
    have runs := runCmd_keeps (core := core) (c := c) (s := s)
    split
    · exact .none
    · refine .some ?_
      split
      · next r e => exact (runs.2 r e).trans cmdEnd_keeps
      · next f e => exact (runs.1 f e).trans cmdFaults_keeps

theorem unitStep_keeps {core : Nat} {c : MCmd} {s : State} : KeepsBoth MFault.s MxOut.s s (unitStep core c s) := by
  unfold unitStep
  have reads := readOperands_keeps (core := core) (n := c.part.length + 2 ^ c.gran) (c := c) (s := s)
  dsimp only
  split
  · next f e => exact .error ((reads.1 f e).trans keepFault_keeps)
  · next r e => exact .ok ((reads.2 r e).trans keepUnits_keeps)

theorem rowStep_keeps {core : Nat} {c : MCmd} {s : State} : ∀ r, rowStep core c s = some r → KeepsBoth MFault.s MxOut.s s r := by
  have write {t : Ty} {l : MLocV} {cvt : Option Rd} {d : Fin 8} : ∀ r, (if 64 ≤ c.wrote then none else some (writeRows core l.pool
      ((storeRows t l (storeConv t cvt) (denseOf (mvalOf s core c d))).take (c.wrote + 2 ^ c.gran)) c s)) = some r →
      KeepsBoth MFault.s MxOut.s s r := by
    intro r e
    split at e
    · cases e
    · cases e
      exact writeRows_keeps
  intro r e
  unfold rowStep at e
  dsimp only at e
  split at e
  · cases e
  · split at e
    · split at e
      · cases e
      · cases e
        exact .after onCore_keeps (.map readRows_keeps fun q => .refl q.s)
    · exact write r e
    · exact write r e
    · split at e
      · cases e
      · cases e
        exact unitStep_keeps
    · split at e
      · cases e
      · cases e
        exact unitStep_keeps
    · split at e
      · cases e
        exact unitStep_keeps
      · cases e

theorem evMatrixRows_keeps {core : Nat} {s : State} : KeepsOpt (fun t => t) s (evMatrixRows core s) := by
  unfold evMatrixRows
  split
  · exact .none
  · split
    · exact .none
    · intro t e
      obtain ⟨r, er, rfl⟩ := Option.map_eq_some_iff.mp e
      have runs := rowStep_keeps r er
      split
      · exact (runs.2 _ rfl).trans cmdPut_keeps
      · exact (runs.1 _ rfl).trans cmdFaults_keeps

theorem execMatrixCommandComplete_keeps {core : Nat} {s : State} : KeepsOut s (execMatrixCommandComplete core s) :=
  .next (evMatrixComplete_keeps.getD (.refl _))

theorem evMacroParity_keeps {core mac : Nat} {s : State} : KeepsOpt (fun t => t) s (evMacroParity core mac s) := by
  unfold evMacroParity
  split
  · exact .some cmdPut_keeps
  · exact .some onCore_keeps
  · exact .none

theorem execMacroParityError_keeps {core mac : Nat} {s : State} : KeepsOut s (execMacroParityError core mac s) :=
  .next (evMacroParity_keeps.getD (.refl _))

theorem comeHome_keeps {core : Nat} {s : State} : Keeps s (comeHome core s) :=
  Keeps.foldl fun _ _ => freeUnit_keeps.trans (latchBad_keeps.trans cmdPut_keeps)

theorem matrixAnswer_keeps {s : State} {core : Nat} {c : MCmd} {discard : Bool} : Keeps s (matrixAnswer s core c discard) :=
  cmdPut_keeps

/-! #### Rays -/

theorem putRay_keeps {s : State} {k n : Nat} {r : Ray} : Keeps s (putRay s k n r) := onClu_keeps
theorem onRay_keeps {s : State} {k n : Nat} {f : Ray → Ray} : Keeps s (onRay s k n f) := putRay_keeps

theorem rayFault_keeps {s : State} {k n : Nat} {va acc : W64} {cause : Nat} : Keeps s (rayFault s k n va acc cause) :=
  (Keeps.update (newFault_keeps.trans (raiseEvent_keeps.trans sendFault_keeps))).trans onRay_keeps

theorem sectorRead_keeps {s : State} {r : Ray} {k va n : Nat} : KeepsEng Prod.snd s (sectorRead s r k va n) := by
  unfold sectorRead
  split
  · exact .ok (.refl _)
  · exact engRead_keeps

theorem travRead_keeps {s : State} {r : Ray} {k x y z : Nat} : KeepsEng Prod.snd s (travRead s r k x y z) := by
  induction x generalizing s r k y z with
  | zero =>
    simp only [travRead]
    exact .ok (.refl _)
  | succ n ih =>
    simp only [travRead]
    split
    · exact .ok (.refl _)
    · split
      · next h1 =>
          split
          · next h2 => exact .ok ((sectorRead_keeps.snd h1).trans (ih.snd h2))
          · exact .after (sectorRead_keeps.snd h1) ih
      · exact sectorRead_keeps

theorem rayRead_keeps {s : State} {k n va len : Nat} : KeepsBoth (fun t => t) Prod.snd s (rayRead s k n va len) := by
  unfold rayRead
  split
  · next h => exact .ok (travRead_keeps.snd h)
  · exact .error rayFault_keeps
  · exact .error (.refl _)

theorem drainLog_keeps {k n x : Nat} {s : State} : Keeps s (drainLog k n x s) := by
  induction x generalizing k n s with
  | zero =>
    simp only [drainLog]
    exact .refl _
  | succ n' ih =>
    simp only [drainLog]
    split
    · exact .refl _
    · split
      · exact .refl _
      · split
        · exact onRay_keeps.trans ih
        · split
          · next h3 => exact (ctxXlate_keeps _ h3).trans (homeWrite_keeps.trans (onRay_keeps.trans ih))
          · exact rayFault_keeps

theorem drainRay_keeps {s : State} {k n : Nat} : Keeps s (drainRay s k n) := drainLog_keeps

theorem arriveAt_keeps {k n : Nat} {inWord : Bool} {s : State} {a : Answer} : Keeps s (arriveAt k n inWord s a) :=
  putRay_keeps.trans drainRay_keeps

theorem arriveNext_keeps {k n : Nat} {s : State} : Keeps s (arriveNext k n s) := by
  unfold arriveNext
  split
  · exact .refl _
  · exact onRay_keeps.trans arriveAt_keeps

theorem arriveSome_keeps {k n x : Nat} {s : State} : Keeps s (arriveSome k n x s) := by
  induction x generalizing k n s with
  | zero =>
    simp only [arriveSome]
    exact .refl _
  | succ n' ih =>
    simp only [arriveSome]
    exact arriveNext_keeps.trans ih

theorem flushMine_keeps {s : State} {k n : Nat} : Keeps s (flushMine s k n) := arriveSome_keeps

theorem evListArrival_keeps {k n : Nat} {s : State} : KeepsOpt (fun t => t) s (evListArrival k n s) := by
  unfold evListArrival
  dsimp only
  split
  · exact .none
  · exact .some arriveNext_keeps

theorem execListArrival_keeps {cluster slot : Nat} {s : State} : KeepsOut s (execListArrival cluster slot s) :=
  .next (evListArrival_keeps.getD (.refl _))

theorem rayE_keeps {s : State} {h : W64} {ok : Ray → Bool} : KeepsBody (·.2.2) s (rayE s h ok) := by
  unfold rayE
  split
  · split
    · exact trapE_keeps
    · dsimp only
      split
      · exact .ok flushMine_keeps
      · exact trapE_keeps
  · exact trapE_keeps

theorem pairE_keeps {s : State} {v : VOp} {u : State} : KeepsBody (fun _ => u) u (pairE s v) := by
  unfold pairE
  split
  · split
    · exact .ok (.refl _)
    · exact trapE_keeps
  · dsimp only
    split
    · exact .ok (.refl _)
    · exact trapE_keeps
  · exact trapE_keeps

theorem numberRay_keeps {s : State} {k n : Nat} : Keeps s (numberRay s k n) := by
  unfold numberRay
  split
  · exact .refl _
  · dsimp only
    split
    · exact onRay_keeps
    · exact onRay_keeps.trans (onLaunch_keeps.trans (onRay_keeps.trans drainRay_keeps))

theorem execRayopen_keeps {o : RayOpen} {s : State} : KeepsOut s (execRayopen o s) := by
  refine .next (bit0Form_keeps (.bind pairE_keeps fun _ => .bind (require_keeps (u := s)) fun _ => ?_))
  dsimp only
  split
  · exact .ok ((onClu_keeps.trans putRay_keeps).trans (numberRay_keeps.trans setS_keeps))
  · exact .ok setS_keeps

theorem traceLaunch_keeps {s : State} {k n : Nat} : Keeps s (traceLaunch s k n) := by
  unfold traceLaunch
  dsimp only
  split
  · split
    · exact .refl _
    · exact onLaunch_keeps.trans (onRay_keeps.trans (drainRay_keeps.trans (Keeps.foldl fun _ _ => drainRay_keeps)))
  · exact drainRay_keeps

theorem startRay_keeps {s : State} {k n : Nat} {h : W64} : Keeps s (startRay s k n h) := onRay_keeps.trans withTh_keeps

theorem execRaytrace_keeps {o : SA1} {s : State} : KeepsOut s (execRaytrace o s) :=
  .next (bit0Form_keeps (.bind rayE_keeps fun _ => .ok (startRay_keeps.trans (onRay_keeps.trans traceLaunch_keeps))))

theorem execRaywait_keeps {o : RayWait} {s : State} : KeepsOut s (execRaywait o s) := by
  unfold execRaywait
  refine .next (bit0Form_keeps (.bind rayE_keeps fun _ => .bind require_keeps fun _ => .bind ready_keeps fun _ => .ok ?_))
  split
  · exact setS_keeps.trans putRay_keeps
  · exact setS_keeps

theorem execHitq_keeps {o : HitQ} {s : State} : KeepsOut s (execHitq o s) := by
  unfold execHitq
  refine .next (bit0Form_keeps (.bind pairE_keeps fun _ => ?_))
  split
  · split
    · exact .ok (writeVD_keeps.trans writeVD_keeps)
    · exact trapE_keeps
  · exact trapE_keeps

theorem execLogset_keeps {o : SA3} {s : State} : KeepsOut s (execLogset o s) :=
  .next (bit0Form_keeps (.bind require_keeps fun _ => .bind require_keeps fun _ => .bind require_keeps fun _ =>
    .bind require_keeps fun _ => .ok onLaunch_keeps))

theorem execReplay_keeps {o : SA1} {s : State} : KeepsOut s (execReplay o s) :=
  .next (bit0Form_keeps (.bind rayE_keeps fun _ => .bind require_keeps fun _ =>
    .ok (arriveSome_keeps.trans (startRay_keeps.trans onRay_keeps))))

theorem execIvpost_keeps {o : IvPost} {s : State} : KeepsOut s (execIvpost o s) := by
  unfold execIvpost
  refine .next (bit0Form_keeps (.bind require_keeps fun _ => ?_))
  dsimp only
  split
  · exact .bind require_keeps fun _ => .ok onRay_keeps
  · exact trapE_keeps

theorem execIvread_keeps {o : IvRead} {s : State} : KeepsOut s (execIvread o s) :=
  .next (bit0Form_keeps (.bind require_keeps fun _ => .bind rayE_keeps fun _ => .ok writeVD_keeps))

theorem execIvclr_keeps {o : SA1} {s : State} : KeepsOut s (execIvclr o s) :=
  .next (bit0Form_keeps (.bind rayE_keeps fun _ => .ok onRay_keeps))

theorem execIvstat_keeps {o : IvStat} {s : State} : KeepsOut s (execIvstat o s) :=
  .next (bit0Form_keeps (.bind rayE_keeps fun _ => .ok setS_keeps))

/-- A microword's function keeps the canonical form. -/
def RigKeeps (f : Nat → Nat → Mw → State → State) : Prop := ∀ k n m s, Keeps s (f k n m s)

theorem rig_keeps {op k n : Nat} {f : Nat → Nat → Mw → State → State} {s : State} (h : RigKeeps f) :
    KeepsOpt (fun t => t) s (rig op f k n s) := by
  unfold rig
  dsimp only
  split
  · exact .some (h k n _ s)
  · exact .none

theorem execRig_keeps {op k n : Nat} {f : Nat → Nat → Mw → State → State} {s : State} (h : RigKeeps f) :
    KeepsOut s (.next ((rig op f k n s).getD s)) := .next ((rig_keeps h).getD (.refl s))

theorem rigPure_keeps {f : Mw → Ray → Ray} {k n : Nat} {m : Mw} {s : State} : Keeps s (rigPure f k n m s) := onRay_keeps
theorem RigKeeps.pure {f : Mw → Ray → Ray} : RigKeeps (rigPure f) := fun _ _ _ _ => rigPure_keeps
theorem execRigNop_keeps {cluster slot : Nat} {s : State} : KeepsOut s (execRigNop cluster slot s) := execRig_keeps .pure
theorem execRigLdi_keeps {cluster slot : Nat} {s : State} : KeepsOut s (execRigLdi cluster slot s) := execRig_keeps .pure
theorem execRigMov_keeps {cluster slot : Nat} {s : State} : KeepsOut s (execRigMov cluster slot s) := execRig_keeps .pure
theorem execRigAdd_keeps {cluster slot : Nat} {s : State} : KeepsOut s (execRigAdd cluster slot s) := execRig_keeps .pure
theorem execRigSub_keeps {cluster slot : Nat} {s : State} : KeepsOut s (execRigSub cluster slot s) := execRig_keeps .pure
theorem execRigAnd_keeps {cluster slot : Nat} {s : State} : KeepsOut s (execRigAnd cluster slot s) := execRig_keeps .pure
theorem execRigOr_keeps {cluster slot : Nat} {s : State} : KeepsOut s (execRigOr cluster slot s) := execRig_keeps .pure
theorem execRigShl_keeps {cluster slot : Nat} {s : State} : KeepsOut s (execRigShl cluster slot s) := execRig_keeps .pure
theorem execRigShr_keeps {cluster slot : Nat} {s : State} : KeepsOut s (execRigShr cluster slot s) := execRig_keeps .pure
theorem execRigCmp_keeps {cluster slot : Nat} {s : State} : KeepsOut s (execRigCmp cluster slot s) := execRig_keeps .pure
theorem rigRayw_keeps {k n : Nat} {m : Mw} {s : State} : Keeps s (rigRayw k n m s) := onRay_keeps

theorem execRigRayw_keeps {cluster slot : Nat} {s : State} : KeepsOut s (execRigRayw cluster slot s) :=
  execRig_keeps fun _ _ _ _ => rigRayw_keeps

theorem rigFetch_keeps {k n : Nat} {m : Mw} {s : State} : Keeps s (rigFetch k n m s) := by
  unfold rigFetch
  dsimp only
  split
  · exact putRay_keeps
  · split
    · next h1 => exact rayRead_keeps.1 _ h1
    · next h1 => exact (rayRead_keeps.2 _ h1).trans (putRay_keeps.trans drainRay_keeps)

theorem execRigFetch_keeps {cluster slot : Nat} {s : State} : KeepsOut s (execRigFetch cluster slot s) :=
  execRig_keeps fun _ _ _ _ => rigFetch_keeps

theorem execRigNbw_keeps {cluster slot : Nat} {s : State} : KeepsOut s (execRigNbw cluster slot s) := execRig_keeps .pure
theorem rigBox_keeps {k n : Nat} {m : Mw} {s : State} : Keeps s (rigBox k n m s) := onRay_keeps.trans drainRay_keeps

theorem execRigBox_keeps {cluster slot : Nat} {s : State} : KeepsOut s (execRigBox cluster slot s) :=
  execRig_keeps fun _ _ _ _ => rigBox_keeps

theorem execRigChild_keeps {cluster slot : Nat} {s : State} : KeepsOut s (execRigChild cluster slot s) := execRig_keeps .pure
theorem execRigPush_keeps {cluster slot : Nat} {s : State} : KeepsOut s (execRigPush cluster slot s) := execRig_keeps .pure
theorem execRigPop_keeps {cluster slot : Nat} {s : State} : KeepsOut s (execRigPop cluster slot s) := execRig_keeps .pure
theorem execRigFront_keeps {cluster slot : Nat} {s : State} : KeepsOut s (execRigFront cluster slot s) := execRig_keeps .pure

theorem leafEnd_keeps {count k n : Nat} {m : Mw} {s : State} : Keeps s (leafEnd count k n m s) := by
  unfold leafEnd
  dsimp only
  split
  · exact .refl _
  · exact putRay_keeps

/-- A record's function keeps the canonical form. -/
def RecKeeps (f : RecFn) : Prop := ∀ k n a x s, Keeps s (f k n a x s)

theorem testRecs_keeps {f : RecFn} {size base count k n : Nat} {m : Mw} {s : State} (h : RecKeeps f) :
    Keeps s (testRecs f size base count k n m s) := by
  unfold testRecs
  dsimp only
  split
  · exact putRay_keeps.trans (arriveAt_keeps.trans leafEnd_keeps)
  · split
    · exact leafEnd_keeps
    · split
      · exact putRay_keeps
      · split
        · next t e => exact rayRead_keeps.1 t e
        · next x t e =>
          have tested (a : Nat) : Keeps s (f k n a x t) := (rayRead_keeps.2 (x, t) e).trans (h k n a x t)
          split
          · exact tested _
          · exact (tested _).trans (onRay_keeps.trans leafEnd_keeps)

theorem RigKeeps.leafs {f : RecFn} {kind : Nat} (h : RecKeeps f) : RigKeeps (rigLeafs f kind) := fun _ _ _ _ => testRecs_keeps h

theorem postTest_keeps {k n : Nat} {s : State} {a : Option Answer} : Keeps s (postTest k n s a) := by
  unfold postTest
  split
  · exact arriveAt_keeps
  · exact .refl _

theorem triFn_keeps {x y z w : Nat} {s : State} : Keeps s (triFn x y z w s) := postTest_keeps
theorem splatFn_keeps {x y z w : Nat} {s : State} : Keeps s (splatFn x y z w s) := postTest_keeps

theorem execRigTri_keeps {cluster slot : Nat} {s : State} : KeepsOut s (execRigTri cluster slot s) :=
  execRig_keeps (.leafs fun _ _ _ _ _ => triFn_keeps)

theorem execRigSplat_keeps {cluster slot : Nat} {s : State} : KeepsOut s (execRigSplat cluster slot s) :=
  execRig_keeps (.leafs fun _ _ _ _ _ => splatFn_keeps)

theorem brickFn_keeps {k n x : Nat} {s : State} : Keeps s (brickFn k n x s) := by
  unfold brickFn
  dsimp only
  split
  · exact putRay_keeps
  · split
    · next h1 => exact rayRead_keeps.1 _ h1
    · next h1 => exact (rayRead_keeps.2 _ h1).trans onRay_keeps

theorem hitFn_keeps {k n a x : Nat} {s : State} : Keeps s (hitFn k n a x s) := by
  unfold hitFn
  dsimp only
  split
  · exact putRay_keeps
  · split
    · exact putRay_keeps
    · split
      · next h2 => exact rayRead_keeps.1 _ h2
      · next h2 =>
          split
          · exact (rayRead_keeps.2 _ h2).trans arriveAt_keeps
          · exact (rayRead_keeps.2 _ h2).trans onRay_keeps

theorem leafFn_keeps {x y z w : Nat} {s : State} : Keeps s (leafFn x y z w s) := by
  unfold leafFn
  split
  · exact brickFn_keeps
  · exact hitFn_keeps
  · exact hitFn_keeps
  · exact onRay_keeps

theorem execRigLeaf_keeps {cluster slot : Nat} {s : State} : KeepsOut s (execRigLeaf cluster slot s) :=
  execRig_keeps (.leafs fun _ _ _ _ _ => leafFn_keeps)

theorem evHitTaskPush_keeps {k : Nat} {s : State} : KeepsOpt (fun t => t) s (evHitTaskPush k s) := by
  unfold evHitTaskPush
  dsimp only
  split
  · exact .none
  · refine .findSome fun e => ?_
    split
    · exact .none
    · split
      · exact .none
      · exact .after (onClu_keeps.trans putRay_keeps) pushRec_keeps

theorem execHitTaskPush_keeps {cluster : Nat} {s : State} : KeepsOut s (execHitTaskPush cluster s) :=
  .next (evHitTaskPush_keeps.getD (.refl _))

theorem rigCall_keeps {k n : Nat} {m : Mw} {s : State} : Keeps s (rigCall k n m s) := onRay_keeps

theorem execRigCall_keeps {cluster slot : Nat} {s : State} : KeepsOut s (execRigCall cluster slot s) :=
  execRig_keeps fun _ _ _ _ => rigCall_keeps

theorem rigRet_keeps {k n : Nat} {m : Mw} {s : State} : Keeps s (rigRet k n m s) := onRay_keeps

theorem execRigRet_keeps {cluster slot : Nat} {s : State} : KeepsOut s (execRigRet cluster slot s) :=
  execRig_keeps fun _ _ _ _ => rigRet_keeps

theorem execRigDone_keeps {cluster slot : Nat} {s : State} : KeepsOut s (execRigDone cluster slot s) := execRig_keeps .pure

theorem evWatchdog_keeps {k n : Nat} {s : State} : KeepsOpt (fun t => t) s (evWatchdog k n s) := by
  unfold evWatchdog
  dsimp only
  split
  · exact .some putRay_keeps
  · exact .none

theorem execMicrowordWatchdog_keeps {cluster slot : Nat} {s : State} : KeepsOut s (execMicrowordWatchdog cluster slot s) :=
  .next (evWatchdog_keeps.getD (.refl _))

theorem evSector_keeps {k n sector : Nat} {s : State} : KeepsOpt (fun t => t) s (evSector k n sector s) := by
  unfold evSector
  dsimp only
  split
  · exact .none
  · split
    · split
      · exact .none
      · split
        · next h3 => exact .some ((engRead_keeps.snd h3).trans putRay_keeps)
        · exact .none
    · exact .none

theorem KeepsBoth.foldl {ε α β : Type} {π : ε → State} {ρ : α → State} {s : State} {f : α → β → Except ε α}
    (h : ∀ a x, KeepsBoth π ρ (ρ a) (f a x)) (l : List β) {r : Except ε α} (hr : KeepsBoth π ρ s r) :
    KeepsBoth π ρ s (l.foldl (fun acc x => acc >>= (f · x)) r) := by
  induction l generalizing r with
  | nil => exact hr
  | cons x l ih => exact ih (.bind hr fun a => h a x)

theorem replayRead_keeps {s : State} {k n : Nat} : KeepsBoth (fun t => t) Prod.snd s (replayRead s k n) := by
  unfold replayRead
  dsimp only
  split
  · refine .bind rayRead_keeps fun u => .bind rayRead_keeps fun h => ?_
    split
    · exact .ok (.refl h.2)
    · refine KeepsBoth.foldl (ρ := Prod.snd) (f := fun x m => rayRead x.2 k n _ 32 >>= fun e => .ok _) ?_ _ (.ok (.refl h.2))
      exact fun a m => .bind rayRead_keeps fun e => .ok (.refl e.2)
  · exact .ok (.refl s)

theorem replayDone_keeps {s : State} {k n : Nat} : Keeps s (replayDone s k n) := by
  unfold replayDone
  split
  · next h => exact replayRead_keeps.1 _ h
  · next h => exact (replayRead_keeps.2 _ h).trans onRay_keeps
  · next h => exact (replayRead_keeps.2 _ h).trans ((Keeps.foldl fun _ _ => arriveAt_keeps).trans onRay_keeps)

theorem finishRay_keeps {s : State} {k n : Nat} : Keeps s (finishRay s k n) := by
  unfold finishRay
  dsimp only
  split
  · exact .refl _
  · split
    · exact putRay_keeps
    · exact putRay_keeps.trans commitLog_keeps

theorem enterDone_keeps {s : State} {k n : Nat} : Keeps s (enterDone s k n) := by
  unfold enterDone
  dsimp only
  split
  · exact arriveSome_keeps.trans drainRay_keeps
  · refine Keeps.trans ?_ finishRay_keeps
    refine Keeps.ite ?_ ?_
    · exact arriveSome_keeps.trans (drainRay_keeps.trans (putRay_keeps.trans drainRay_keeps))
    · exact arriveSome_keeps.trans drainRay_keeps

theorem evRayDone_keeps {k n : Nat} {s : State} : KeepsOpt (fun t => t) s (evRayDone k n s) := by
  unfold evRayDone
  dsimp only
  split
  · exact .none
  · split
    · exact .some replayDone_keeps
    · split
      · exact .none
      · exact .some enterDone_keeps

theorem execRayDone_keeps {cluster slot : Nat} {s : State} : KeepsOut s (execRayDone cluster slot s) :=
  .next (evRayDone_keeps.getD (.refl _))

theorem rayAnswer_keeps {s : State} {k n : Nat} {discard : Bool} : Keeps s (rayAnswer s k n discard) := by
  unfold rayAnswer
  dsimp only
  split
  · split
    · exact putRay_keeps.trans (drainRay_keeps.trans finishRay_keeps)
    · exact putRay_keeps.trans (drainRay_keeps.trans enterDone_keeps)
  · split
    · exact putRay_keeps.trans drainRay_keeps
    · exact putRay_keeps.trans (drainRay_keeps.trans commitLog_keeps)

theorem readImage_keeps {base : W64} {x : Nat} {s : State} : KeepsBody Prod.snd s (readImage base x s) := by
  induction x generalizing base s with
  | zero =>
    simp only [readImage]
    exact .ok (.refl _)
  | succ n ih =>
    simp only [readImage]
    refine .bind ih fun _ => .bind ?_ fun _ => .ok homeRead_keeps
    split
    · exact permStop_keeps
    · exact xlateE_keeps

theorem setRig_keeps {s : State} {ctx : Nat} {rig : Rig} {image : List Byte} : Keeps s (setRig s ctx rig image) := onCtx_keeps

theorem execRgload_keeps {o : S4} {s : State} : KeepsOut s (execRgload o s) := by
  unfold execRgload
  refine .next (bit0Form_keeps (.bind require_keeps fun _ => .bind require_keeps fun _ => .bind require_keeps fun _ =>
    .bind require_keeps fun _ => ?_))
  dsimp only
  split
  · split
    · exact .ok setS_keeps
    · exact .ok (setRig_keeps.trans setS_keeps)
  · refine .bind alignCheck_keeps fun _ => ?_
    split
    · exact .ok setS_keeps
    · refine .bind readImage_keeps fun _ => ?_
      split
      · exact .ok setS_keeps
      · exact .ok (setRig_keeps.trans setS_keeps)

/-! #### Recovery -/

theorem dropOwned_keeps {s : State} {o : Owner} : Keeps s (dropOwned s o) := Keeps.foldl fun _ _ => dropNoWriteBack_keeps

theorem unbindCore_keeps {s : State} {core : Nat} : Keeps s (unbindCore s core) :=
  (Keeps.foldl fun _ _ => onThread_keeps).trans onCore_keeps

theorem dropAccesses_keeps {s : State} {core : Nat} : Keeps s (dropAccesses s core) :=
  (Keeps.foldl fun _ _ => partReads_keeps).trans dropCmds_keeps

theorem endCtx_keeps {s : State} {ctx : Nat} : Keeps s (endCtx s ctx) :=
  (Keeps.update ((Keeps.update (Keeps.foldl fun _ _ => dropAccesses_keeps)).trans (dropOwned_keeps.trans (Keeps.foldl fun _ _ =>
    unbindCore_keeps)))).trans (onPart_keeps.trans onCtx_keeps)

theorem endContext_keeps {s : State} {ctx cluster : Nat} : Keeps s (endContext s ctx cluster) := by
  unfold endContext
  split
  · exact .refl _
  · exact newFault_keeps.trans (raiseEvent_keeps.trans (endCtx_keeps.trans sendRecord_keeps))

theorem endContexts_keeps {s : State} {p : Nat} : Keeps s (endContexts s p) :=
  (Keeps.foldl fun _ _ => endCtx_keeps).trans dropOwned_keeps

theorem endPartition_keeps {s : State} {p : Nat} : Keeps s (endPartition s p) := endContexts_keeps.trans setPart_keeps
theorem deviceReset_keeps {s : State} : Keeps s (deviceReset s) := Keeps.update (Keeps.foldl fun _ _ => dropNoWriteBack_keeps)

theorem endOwner_keeps {s : State} {cluster : Nat} {o : Owner} : Keeps s (endOwner s cluster o) := by
  unfold endOwner
  split
  · exact deviceReset_keeps
  · split
    · exact endPartition_keeps
    · exact .refl _
  · exact endContext_keeps

theorem execCorrectableError_keeps {x : ErrLoc} {s : State} : KeepsOut s (execCorrectableError x s) := .next (Keeps.update (.refl _))
theorem execScrub_keeps {x : ErrLoc} {s : State} : KeepsOut s (execScrub x s) := .next (.refl _)

theorem execUncorrectableError_keeps {loc : ErrLoc} {s : State} : KeepsOut s (execUncorrectableError loc s) := by
  unfold execUncorrectableError
  refine .next ?_
  split
  · exact onCore_keeps
  · dsimp only
    split
    · exact endOwner_keeps
    · exact .refl _
  · split
    · exact endOwner_keeps
    · exact .refl _
  · exact endOwner_keeps
  · split
    · exact endContext_keeps
    · exact .refl _
  · exact endContext_keeps
  · exact .refl _
  · exact onClu_keeps
  · exact deviceReset_keeps

theorem startDrain_keeps {s : State} {ctx : Nat} : Keeps s (startDrain s ctx) :=
  Keeps.update (onCtx_keeps.trans (Keeps.foldl fun _ _ => comeHome_keeps))

theorem finishDrain_keeps {s : State} {ctx : Nat} : Keeps s (finishDrain s ctx) := Keeps.update (Keeps.foldl fun _ _ => mergeAllU_keeps)

theorem evContextDrain_keeps {ctx : Nat} {s : State} : KeepsOpt (fun t => t) s (evContextDrain ctx s) := by
  unfold evContextDrain
  dsimp only
  split
  · exact .none
  · exact .some startDrain_keeps

theorem execContextDrain_keeps {ctx : Nat} {s : State} : KeepsOut s (execContextDrain ctx s) :=
  .next (evContextDrain_keeps.getD (.refl _))

theorem sendNotice_keeps {s : State} {w : Waiting} {status : Nat} : Keeps s (sendNotice s w status) := sendService_keeps

theorem abortBlocked_keeps {s : State} {w : Waiting} : Keeps s (abortBlocked s w) :=
  focus_keeps.trans (withTh_keeps.trans (takeTrap_keeps.trans focus_keeps))

theorem engineAnswer_keeps {s : State} {w : Waiting} {act : Nat} : Keeps s (engineAnswer s w act) := by
  unfold engineAnswer
  dsimp only
  split
  · split
    · split
      · exact matrixAnswer_keeps
      · exact endContext_keeps
    · exact .refl _
  · split
    · split
      · exact rayAnswer_keeps
      · exact endContext_keeps
    · split
      · exact commitAnswer_keeps
      · exact endContext_keeps
    · exact .refl _
  · split
    · exact copyAnswer_keeps
    · exact .refl _

theorem answer_keeps {fid : W64} {act : Nat} {s : State} : KeepsOpt (fun t => t) s (answer fid act s) := by
  unfold answer
  split
  · exact .none
  · refine .some ?_
    split
    · exact (Keeps.update (.refl _)).trans engineAnswer_keeps
    · refine Keeps.ite ?_ ?_
      · exact (Keeps.update (.refl _)).trans sendNotice_keeps
      · split
        · exact (Keeps.update (.refl _)).trans onThread_keeps
        · exact (Keeps.update (.refl _)).trans abortBlocked_keeps

theorem evFres_keeps {fid : W64} {act : Nat} {s : State} : KeepsOpt (fun t => t) s (evFres fid act s) := by
  unfold evFres
  dsimp only
  split
  · split
    · exact .some onCtx_keeps
    · exact .none
  · exact answer_keeps

theorem execFresRetry_keeps {fid : W64} {s : State} : KeepsOut s (execFresRetry fid s) := .next (evFres_keeps.getD (.refl _))
theorem execFresAbort_keeps {fid : W64} {s : State} : KeepsOut s (execFresAbort fid s) := .next (evFres_keeps.getD (.refl _))
theorem execFresDiscard_keeps {fid : W64} {s : State} : KeepsOut s (execFresDiscard fid s) := .next (evFres_keeps.getD (.refl _))

theorem answerAll_keeps {ctx : Nat} {s : State} : Keeps s (answerAll ctx s) :=
  onCtx_keeps.trans (Keeps.foldl fun _ _ => answer_keeps.getD (.refl _))

theorem memSetAll_foldl_wf {l : List (Nat × List Byte)} {m : Mem} (h : Memory.wf m) :
    Memory.wf (l.foldl (fun h e => memSetAll h (atAddr e.1 e.2)) m) := by
  induction l generalizing m with
  | nil => exact h
  | cons e l ih => exact ih (memSetAll_wf h)

theorem areaWrite_keeps {s : State} {ctx base : Nat} {b : List Byte} : Keeps s (areaWrite s ctx base b) := by
  unfold areaWrite
  split
  · exact homeWrite_keeps
  · exact fun c => ⟨c.1, memSetAll_foldl_wf c.2⟩

theorem areaRead_keeps {s : State} {ctx base n : Nat} : Keeps s (areaRead s ctx base n).2 := by
  unfold areaRead
  split
  · exact homeRead_keeps
  · exact .refl _

theorem ctxE_keeps {s : State} {v : W64} {u : State} : KeepsBody (fun _ => u) u (ctxE s v) :=
  .bind require_keeps fun _ => .bind require_keeps fun _ => .ok (.refl _)

theorem saveCtx_keeps {s : State} {ctx base : Nat} : Keeps s (saveCtx s ctx base) :=
  areaWrite_keeps.trans ((Keeps.foldl fun _ _ => areaWrite_keeps).trans ((Keeps.foldl fun _ _ =>
    unbindCore_keeps).trans ((Keeps.foldl fun _ _ => settleRings_keeps).trans onCtx_keeps)))

theorem execCtxsv_keeps {o : S4} {s : State} : KeepsOut s (execCtxsv o s) := by
  unfold execCtxsv
  refine .next (bit0Form_keeps (.bind require_keeps fun _ => .bind ctxE_keeps fun _ => .bind require_keeps fun _ =>
    .bind require_keeps fun _ => .bind require_keeps fun _ => .bind require_keeps fun _ => ?_))
  split
  · exact .ok (finishDrain_keeps.trans (saveCtx_keeps.trans setS_keeps))
  · split
    · next h1 => exact .ok ((evContextDrain_keeps _ h1).trans withTh_keeps)
    · exact .stall

theorem restoreCtx_keeps {s : State} {ctx base : Nat} {kept : List (Nat × CoreSt)} : Keeps s (restoreCtx s ctx base kept) :=
  (Keeps.update (Keeps.foldl fun _ _ => areaRead_keeps.trans (openRings_keeps.trans onCore_keeps))).trans (fenceOff_keeps.trans
    onCtx_keeps)

theorem execCtxrs_keeps {o : S3} {s : State} : KeepsOut s (execCtxrs o s) := by
  unfold execCtxrs
  refine .next (bit0Form_keeps (.bind require_keeps fun _ => .bind ctxE_keeps fun _ => .bind require_keeps fun _ =>
    .bind require_keeps fun _ => ?_))
  split
  · exact trapE_keeps
  · exact .bind require_keeps fun _ => .bind ready_keeps fun _ =>
      .ok (areaRead_keeps.trans (restoreCtx_keeps.trans (setS_keeps.trans answerAll_keeps)))

theorem evHalt_keeps {g : Nat} {s : State} : KeepsOpt (fun t => t) s (evHalt g s) := by
  unfold evHalt
  split
  · exact .none
  · split
    · exact .some (focus_keeps.trans (enterHalt_keeps.trans focus_keeps))
    · exact .some (focus_keeps.trans (enterHalt_keeps.trans focus_keeps))
    · exact .some (focus_keeps.trans (enterHalt_keeps.trans focus_keeps))
    · exact .none

theorem evResume_keeps {step : Bool} {g : Nat} {s : State} : KeepsOpt (fun t => t) s (evResume step g s) := by
  unfold evResume
  dsimp only
  split
  · refine .some (Keeps.trans ?_ onThread_keeps)
    split
    · exact focus_keeps.trans (acquire_keeps.trans focus_keeps)
    · exact .refl _
  · exact .none

theorem execDcmdHalt_keeps {g : Nat} {s : State} : KeepsOut s (execDcmdHalt g s) := .next (evHalt_keeps.getD (.refl _))
theorem execDcmdResume_keeps {g : Nat} {s : State} : KeepsOut s (execDcmdResume g s) := .next (evResume_keeps.getD (.refl _))
theorem execDcmdStep_keeps {g : Nat} {s : State} : KeepsOut s (execDcmdStep g s) := .next (evResume_keeps.getD (.refl _))

theorem evDdata_keeps {g : Nat} {pool : Bool} {off : Nat} {v : W64} {s : State} : KeepsOpt (fun t => t) s (evDdata g pool off v s) := by
  unfold evDdata
  dsimp only
  split
  · exact .none
  · split
    · split
      · exact .some onCore_keeps
      · exact .none
    · exact .some onThread_keeps

theorem execDdataWrite_keeps {g : Nat} {pool : Bool} {off : Nat} {v : W64} {s : State} : KeepsOut s (execDdataWrite g pool off v s) :=
  .next (evDdata_keeps.getD (.refl _))

theorem execFfbaseWrite_keeps {g : Nat} {v : W64} {s : State} : KeepsOut s (execFfbaseWrite g v s) := .next onThread_keeps

/-! #### Castle -/

theorem execCastlingControlWordWrite_keeps {part : Nat} {w : W64} {s : State} : KeepsOut s (execCastlingControlWordWrite part w s) := by
  unfold execCastlingControlWordWrite
  refine .next ?_
  split
  · exact .refl _
  · exact onPart_keeps

theorem evSwap_keeps {part : Nat} {s : State} : KeepsOpt (fun t => t) s (evSwap part s) := by
  unfold evSwap
  dsimp only
  split
  · exact .none
  · exact .some (Keeps.update setPart_keeps)

theorem execSwapInstant_keeps {part : Nat} {s : State} : KeepsOut s (execSwapInstant part s) := .next (evSwap_keeps.getD (.refl _))

theorem castleAcquire_keeps {core : Nat} {s : State} : Keeps s (castleAcquire core s) :=
  (Keeps.foldl fun _ _ => onThread_keeps).trans onCore_keeps

theorem evCastle_keeps {part : Nat} {s : State} : KeepsOpt (fun t => t) s (evCastle part s) := by
  unfold evCastle
  split
  · exact .none
  · exact .some (setCore_keeps.trans (setCore_keeps.trans (onCtx_keeps.trans (onPart_keeps.trans (castleAcquire_keeps.trans
      castleAcquire_keeps)))))

theorem execCastle_keeps {part : Nat} {s : State} : KeepsOut s (execCastle part s) := .next (evCastle_keeps.getD (.refl _))

theorem evPlacement_keeps {core : Nat} {s : State} : KeepsOpt (fun t => t) s (evPlacement core s) := by
  unfold evPlacement
  split
  · exact .none
  · dsimp only
    split
    · exact .none
    · exact .some ((Keeps.update (.refl _)).trans onCore_keeps)

theorem execPlacementUpdate_keeps {core : Nat} {s : State} : KeepsOut s (execPlacementUpdate core s) :=
  .next (evPlacement_keeps.getD (.refl _))

theorem evExpiry_keeps {core : Nat} {s : State} : KeepsOpt (fun t => t) s (evExpiry core s) := by
  unfold evExpiry
  dsimp only
  split
  · exact .some onCore_keeps
  · exact .none

theorem execForwardingExpiry_keeps {core : Nat} {s : State} : KeepsOut s (execForwardingExpiry core s) :=
  .next (evExpiry_keeps.getD (.refl _))

/-! #### Platform -/

theorem execBoot_keeps {ok : Bool} {caps : List (Nat × Nat)} {meas : List (Nat × BitVec 256)} {s : State} :
    KeepsOut s (execBoot ok caps meas s) := by
  refine .next ?_
  split
  · exact .refl s
  · split
    · exact .update (.refl s)
    · refine .update ?_
      split
      · exact .foldl fun _ _ => onCore_keeps
      · exact .refl s

theorem execThermalTrip_keeps {s : State} : KeepsOut s (execThermalTrip s) :=
  .next ((Keeps.foldl fun _ _ => endPartition_keeps).trans deviceReset_keeps)

theorem execSpdmRequest_keeps {req : Spdm} {hashOk sigOk : Bool} {s : State} : KeepsOut s (execSpdmRequest req hashOk sigOk s) := by
  unfold execSpdmRequest
  refine .next ?_
  split
  · exact Keeps.update (.refl _)
  · exact Keeps.update (.refl _)
  · exact Keeps.update (.refl _)

theorem execTelemetryRead_keeps {reg : Nat} {s : State} : KeepsOut s (execTelemetryRead reg s) := .next (Keeps.update (.refl _))

theorem execMonitorSample_keeps {monitor : Nat} {value : W64} {act : MonAct} {s : State} :
    KeepsOut s (execMonitorSample monitor value act s) := by
  unfold execMonitorSample
  refine .next ?_
  split
  · exact .refl _
  · split
    · exact Keeps.update (.refl _)
    · dsimp only
      split
      · split
        · refine (Keeps.update (.refl _)).trans (Keeps.foldl fun _ _ => ?_)
          split
          · exact raiseEvent_keeps
          · exact .refl _
        · exact Keeps.update (.refl _)
      · exact Keeps.update (.refl _)

theorem execHbmRefresh_keeps {x : Nat} {s : State} : KeepsOut s (execHbmRefresh x s) := .next (.refl _)
theorem execPhyCalibration_keeps {x : Nat} {s : State} : KeepsOut s (execPhyCalibration x s) := .next (.refl _)
theorem execMacsecFrameDrop_keeps {x : Nat} {s : State} : KeepsOut s (execMacsecFrameDrop x s) := .next (Keeps.update (.refl _))

theorem execSystemImageTimer_keeps {ctx bit : Nat} {s : State} : KeepsOut s (execSystemImageTimer ctx bit s) := by
  unfold execSystemImageTimer
  refine .next ?_
  split
  · exact raiseEvent_keeps
  · exact .refl _

theorem execCorePowerGating_keeps {core : Nat} {on : Bool} {s : State} : KeepsOut s (execCorePowerGating core on s) := by
  unfold execCorePowerGating
  refine .next ?_
  split
  · exact onCore_keeps
  · split
    · exact onCore_keeps
    · exact .refl _

theorem evPartition_keeps {part c0 c1 r0 r1 sup supCore : Nat} {off : W64} {s : State} :
    KeepsOpt (fun t => t) s (evPartition part c0 c1 r0 r1 sup supCore off s) := by
  unfold evPartition
  dsimp only
  split
  · exact .some (Keeps.update setPart_keeps)
  · exact .none

theorem execPartitionCreation_keeps {part c0 c1 r0 r1 sup supCore : Nat} {timerOff : W64} {s : State} :
    KeepsOut s (execPartitionCreation part c0 c1 r0 r1 sup supCore timerOff s) :=
  .next (evPartition_keeps.getD (.refl _))

theorem evRange_keeps {part k : Nat} {w : W64} {s : State} : KeepsOpt (fun t => t) s (evRange part k w s) := by
  unfold evRange
  dsimp only
  split
  · split
    · exact .some onPart_keeps
    · exact .none
  · exact .none

theorem execPartitionRangeWrite_keeps {part k : Nat} {w : W64} {s : State} : KeepsOut s (execPartitionRangeWrite part k w s) :=
  .next (evRange_keeps.getD (.refl _))

theorem evWindow_keeps {ctl win reg : Nat} {w : W64} {s : State} : KeepsOpt (fun t => t) s (evWindow ctl win reg w s) := by
  unfold evWindow
  dsimp only
  split
  · split
    · exact .some (Keeps.update (.refl _))
    · exact .none
  · exact .none

theorem execFormatWindowWrite_keeps {controller window reg : Nat} {w : W64} {s : State} :
    KeepsOut s (execFormatWindowWrite controller window reg w s) :=
  .next (evWindow_keeps.getD (.refl _))

theorem evSemAssign_keeps {k n ctx : Nat} {s : State} : KeepsOpt (fun t => t) s (evSemAssign k n ctx s) := by
  unfold evSemAssign
  dsimp only
  split
  · exact .some semPut_keeps
  · exact .none

theorem execSemaphoreAssign_keeps {cluster n ctx : Nat} {s : State} : KeepsOut s (execSemaphoreAssign cluster n ctx s) :=
  .next (evSemAssign_keeps.getD (.refl _))

theorem fillKey_keeps {s : State} {ctx k : Nat} {aliasOf : Option Nat} : Keeps s (fillKey s ctx k aliasOf) := by
  unfold fillKey
  split
  · split
    · split
      · exact onCtx_keeps
      · exact .refl _
    · exact Keeps.update onCtx_keeps
  · exact .refl _

theorem evCtxCreate_keeps {ctx part : Nat} {slots : List (Nat × Option Nat)} {s : State} :
    KeepsOpt (fun t => t) s (evCtxCreate ctx part slots s) := by
  unfold evCtxCreate
  split
  · exact .some ((Keeps.update setCtx_keeps).trans (fillKey_keeps.trans (Keeps.foldl fun _ _ => fillKey_keeps)))
  · exact .none

theorem execContextCreate_keeps {ctx part : Nat} {slots : List (Nat × Option Nat)} {s : State} :
    KeepsOut s (execContextCreate ctx part slots s) :=
  .next (evCtxCreate_keeps.getD (.refl _))

theorem execKeySlotFill_keeps {ctx k : Nat} {aliasOf : Option Nat} {s : State} : KeepsOut s (execKeySlotFill ctx k aliasOf s) := by
  unfold execKeySlotFill
  refine .next ?_
  split
  · exact fillKey_keeps
  · exact .refl _

theorem execTdispLock_keeps {part : Nat} {s : State} : KeepsOut s (execTdispLock part s) := by
  unfold execTdispLock
  refine .next ?_
  split
  · refine Keeps.trans ?_ onPart_keeps
    split
    · exact .refl _
    · exact Keeps.update (.refl _)
  · exact .refl _

theorem execTdispUnlock_keeps {part : Nat} {s : State} : KeepsOut s (execTdispUnlock part s) := by
  unfold execTdispUnlock
  refine .next ?_
  split
  · exact endContexts_keeps.trans onPart_keeps
  · exact .refl _

theorem evService_keeps {k : Nat} {s : State} : KeepsOpt (fun t => t) s (evService k s) := by
  unfold evService
  split
  · exact .none
  · split
    · exact .none
    · exact .mapOf fun _ => (Keeps.update (.refl _)).trans pushAt_keeps

theorem execServiceMessageDelivery_keeps {k : Nat} {s : State} : KeepsOut s (execServiceMessageDelivery k s) :=
  .next (evService_keeps.getD (.refl _))

theorem execDoorbellWrite_keeps {part tail : Nat} {s : State} : KeepsOut s (execDoorbellWrite part tail s) := by
  unfold execDoorbellWrite
  refine .next ?_
  split
  · exact onPart_keeps
  · exact .refl _

theorem evAperture_keeps {part slot off : Nat} {write : Bool} {data : List Byte} {s : State} :
    KeepsOpt (fun t => t) s (evAperture part slot off write data s) := by
  unfold evAperture
  dsimp only
  split
  · exact .none
  · split
    · refine .some (onPart_keeps.trans (.foldl fun t i => ?_))
      split
      · split
        · exact .hostBytes (.refl t)
        · exact homeWrite_keeps
      · exact .refl t
    · have assigned : Keeps s (onPart s part fun p => { p with apSlot := some slot }) := onPart_keeps
      refine .some (.update (assigned.trans ?_))
      refine Keeps.foldl_pair (r := ([], _)) ?_
      intro r i
      split
      · split
        · exact .refl r.2
        · exact homeRead_keeps
      · exact .refl r.2

theorem execHostApertureAccess_keeps {part slot off : Nat} {write : Bool} {data : List Byte} {s : State} :
    KeepsOut s (execHostApertureAccess part slot off write data s) :=
  .next (evAperture_keeps.getD (.refl _))

theorem completeJob_keeps {s : State} {part job cause n : Nat} : Keeps s (completeJob s part job cause n) := onPart_keeps
theorem systemLines_keeps {part : Nat} {s t : State} : Keeps t (systemLines part s t) := .update (.refl t)

theorem ringRead_keeps {s : State} {part slot a n : Nat} : Keeps s (ringRead s part slot a n).2 := by
  unfold ringRead
  split
  · exact .refl s
  · exact homeRead_keeps.trans systemLines_keeps

theorem ringWrite_keeps {s : State} {part slot a : Nat} {b : List Byte} : Keeps s (ringWrite s part slot a b) := by
  unfold ringWrite
  split
  · exact .hostBytes (.refl s)
  · exact homeWrite_keeps.trans systemLines_keeps

theorem issueBlock_keeps {s : State} {ctx lid addr job : Nat} : Keeps s (issueBlock s ctx lid addr job).2 := by
  unfold issueBlock
  dsimp only
  split
  · exact .refl s
  · split
    · exact .refl s
    · next h => exact (KeepsExc.snd ctxRead_keeps h).trans (systemLines_keeps.trans issueLaunch_keeps)

theorem nextJob_keeps {s : State} {part len : Nat} : Keeps s (nextJob s part len) := onPart_keeps
theorem openJob_keeps {s : State} {part ctx job : Nat} : Keeps s (openJob s part ctx job) := onLevel_keeps.trans onPart_keeps

theorem closeLevel_keeps {s : State} {ctx job : Nat} : Keeps s (closeLevel s ctx job) := by
  unfold closeLevel
  dsimp only
  split
  · exact onLevel_keeps.trans settleLevel_keeps
  · exact endJobs_keeps

theorem evJob_keeps {part ctx slot base len : Nat} {s : State} : KeepsOpt (fun t => t) s (evJob part ctx slot base len s) := by
  unfold evJob
  dsimp only
  split
  · exact .none
  · split
    · exact .some (ringRead_keeps.trans (completeJob_keeps.trans nextJob_keeps))
    · split
      · exact .none
      · refine .some ?_
        split
        · refine Keeps.trans ?_ (issueBlock_keeps.trans (noteJob_keeps.trans onPart_keeps))
          split
          · exact ringRead_keeps.trans openJob_keeps
          · exact ringRead_keeps
        · refine Keeps.trans ?_ (issueBlock_keeps.trans (noteJob_keeps.trans (onPart_keeps.trans (nextJob_keeps.trans
            closeLevel_keeps))))
          split
          · exact ringRead_keeps.trans openJob_keeps
          · exact ringRead_keeps

theorem execJobDescriptor_keeps {part ctx slot base len : Nat} {s : State} : KeepsOut s (execJobDescriptor part ctx slot base len s) :=
  .next (evJob_keeps.getD (.refl _))

theorem closeJob_keeps {part : Nat} {s : State} : Keeps s (closeJob part s) := by
  unfold closeJob
  split
  · exact onPart_keeps.trans completeJob_keeps
  · exact .refl _

theorem evJobDone_keeps {part slot base len : Nat} {s : State} : KeepsOpt (fun t => t) s (evJobDone part slot base len s) := by
  unfold evJobDone
  split
  · exact .none
  · dsimp only
    split
    · exact .none
    · refine .some (Keeps.trans ?_ (ringWrite_keeps.trans (onPart_keeps.trans sendMsix_keeps)))
      split
      · exact closeJob_keeps
      · exact .refl _

theorem execJobCompletion_keeps {o : CompRing} {s : State} : KeepsOut s (execJobCompletion o s) :=
  .next (evJobDone_keeps.getD (.refl _))

theorem endConn_keeps {s : State} {conn : Nat} {c : Conn} {cause : Nat} {va acc : W64} {cluster : Nat} :
    Keeps s (endConn s conn c cause va acc cluster) :=
  (Keeps.update (.refl _)).trans (newFault_keeps.trans (raiseEvent_keeps.trans sendFault_keeps))

theorem noteAfter_keeps {s : State} {core time : Nat} : Keeps s (noteAfter s core time) := Keeps.foldl fun _ _ => onThread_keeps

theorem bilathByte_keeps {ctx : Nat} {r : Nat × State} {e : Xl × Byte} : Keeps r.2 (bilathByte ctx r e).2 :=
  Keeps.update homeWrite_keeps

theorem countConn_keeps {s : State} {conn : Nat} {c : Conn} : Keeps s (countConn s conn c) := Keeps.update (.refl _)

theorem bilathPlaces_keeps {ctx k va x : Nat} {s : State} : KeepsExc Prod.snd s (bilathPlaces ctx k va x s) := by
  induction x generalizing ctx k va s with
  | zero =>
    simp only [bilathPlaces]
    exact .ok (.refl _)
  | succ n ih =>
    simp only [bilathPlaces]
    refine .bind ih fun _ => ?_
    split
    · next h => exact .ok (xlateEngine_keeps _ _ h)
    · exact .error
    · exact .error

theorem evBilathWrite_keeps {conn ctx va : Nat} {data : List Byte} {s : State} :
    KeepsOpt (fun t => t) s (evBilathWrite conn ctx va data s) := by
  unfold evBilathWrite
  split
  · exact .none
  · dsimp only
    split
    · exact .none
    · refine .some ?_
      split
      · next h =>
        refine (KeepsExc.snd bilathPlaces_keeps h).trans (.trans ?_ countConn_keeps)
        exact Keeps.foldl_pair (fun _ _ => bilathByte_keeps) (r := (_, _))
      · exact endConn_keeps

theorem execBilathMemoryWrite_keeps {conn ctx va : Nat} {data : List Byte} {s : State} :
    KeepsOut s (execBilathMemoryWrite conn ctx va data s) :=
  .next (evBilathWrite_keeps.getD (.refl _))

theorem evBilathClass_keeps {conn ctx core cls : Nat} {ev : Option Nat} {data : V512} {s : State} :
    KeepsOpt (fun t => t) s (evBilathClass conn ctx core cls ev data s) := by
  unfold evBilathClass
  split
  · exact .none
  · dsimp only
    split
    · exact .some endConn_keeps
    · split
      · exact .some endConn_keeps
      · split
        · exact .none
        · exact .some (pushAt_keeps.trans (noteAfter_keeps.trans (raiseEvent_keeps.trans countConn_keeps)))

theorem execBilathClassMessage_keeps {conn ctx core cls : Nat} {ev : Option Nat} {data : V512} {s : State} :
    KeepsOut s (execBilathClassMessage conn ctx core cls ev data s) :=
  .next (evBilathClass_keeps.getD (.refl _))

theorem execBilathRetransmission_keeps {x : Nat} {s : State} : KeepsOut s (execBilathRetransmission x s) :=
  .next (Keeps.update (.refl _))

/-! #### Privileged -/

theorem abandonHeld_keeps {s : State} {ctx : Nat} : Keeps s (abandonHeld s ctx) := Keeps.foldl fun _ _ => onThread_keeps

theorem dropTlb_keeps {s : State} {ks : List Nat} {ctx : Nat} {all : Bool} {va : Nat} : Keeps s (dropTlb s ks ctx all va) :=
  Keeps.update (.refl _)

theorem execTlbinv_keeps {o : TlbInv} {s : State} : KeepsOut s (execTlbinv o s) := by
  unfold execTlbinv
  refine .next (bit0Form_keeps (.bind require_keeps fun _ => .bind ctxE_keeps fun _ => .bind require_keeps fun _ => ?_))
  dsimp only
  split
  · exact .bind ready_keeps fun _ => .ok (abandonHeld_keeps.trans (withTh_keeps.trans setS_keeps))
  · refine .bind ready_keeps fun _ => .ok ?_
    split
    · exact dropTlb_keeps.trans withTh_keeps
    · exact dropTlb_keeps.trans (abandonHeld_keeps.trans setS_keeps)

theorem evTransWrite_keeps {ctx k : Nat} {s : State} : KeepsOpt (fun t => t) s (evTransWrite ctx k s) := by
  unfold evTransWrite
  dsimp only
  split
  · exact .none
  · exact .some setCtx_keeps

theorem execTranslationRegisterWrite_keeps {ctx cluster : Nat} {s : State} : KeepsOut s (execTranslationRegisterWrite ctx cluster s) :=
  .next (evTransWrite_keeps.getD (.refl _))

theorem mtspTrans_keeps {s : State} {num : Nat} {v : W64} : KeepsBody (fun t => t) s (mtspTrans s num v) := by
  unfold mtspTrans
  dsimp only
  split
  · split
    · exact .stall
    · exact .ok withTh_keeps
  · split
    · exact .ok (.refl _)
    · split
      · exact .stall
      · split
        · exact .ok setCtx_keeps
        · exact .ok (setCtx_keeps.trans withTh_keeps)

theorem mtspFres_keeps {s : State} {v : W64} : KeepsBody (fun t => t) s (mtspFres s v) := by
  unfold mtspFres
  dsimp only
  split
  · exact .ok (.refl _)
  · exact .bind ready_keeps fun _ => .ok (evFres_keeps.getD (.refl _))

theorem haltCmd_keeps {g : Nat} {s : State} : Keeps s (haltCmd g s) := by
  unfold haltCmd
  split
  · exact enterHalt_keeps
  · split
    · dsimp only
      split
      · exact evHalt_keeps.getD (.refl _)
      · exact (evHalt_keeps.getD (.refl _)).trans withTh_keeps
    · dsimp only
      split
      · exact evHalt_keeps.getD (.refl _)
      · exact (evHalt_keeps.getD (.refl _)).trans withTh_keeps
    · dsimp only
      split
      · exact evHalt_keeps.getD (.refl _)
      · exact (evHalt_keeps.getD (.refl _)).trans withTh_keeps
    · exact .refl _

theorem mtspDcmd_keeps {s : State} {v : W64} : Keeps s (mtspDcmd s v) := by
  unfold mtspDcmd
  dsimp only
  split
  · exact .refl _
  · split
    · exact haltCmd_keeps
    · exact evResume_keeps.getD (.refl _)
    · exact evResume_keeps.getD (.refl _)
    · exact .refl _

theorem execMtsp_keeps {o : MtsO} {s : State} : KeepsOut s (execMtsp o s) := by
  unfold execMtsp
  refine .next (bit0Form_keeps (.bind require_keeps fun _ => ?_))
  split
  · exact .ok (.refl _)
  · split
    · exact .bind require_keeps fun _ => .ok withTh_keeps
    · exact .ok onCtx_keeps
    · exact .ok onCtx_keeps
    · refine .ok ?_
      split
      · exact evDdata_keeps.getD (.refl _)
      · exact .refl _
    · exact .ok mtspDcmd_keeps
    · exact mtspFres_keeps
    · exact mtspTrans_keeps

/-! #### Vector -/

theorem readVs_keeps {s : State} {x : List VOp} : Keeps s (readVs s x).2 := by
  induction x generalizing s with
  | nil =>
    simp only [readVs]
    exact .refl _
  | cons y ys ih =>
    simp only [readVs]
    exact readV_keeps.trans ih

theorem vecForm_keeps {p : Pred} {w : Nat} {srcs : List VOp} {d : VOp} {s : State} {f : List V512 → Nat → Nat × Nat} :
    Keeps s (vecForm p w srcs d s f) :=
  elemForm_keeps (.bind vecChecks_keeps fun _ => .ok (readVs_keeps.trans (orFlags_keeps.trans writeV_keeps)))

theorem vUn_keeps {o : VUn} {s : State} {f : Nat → Nat × Nat} : Keeps s (vUn o s f) := vecForm_keeps
theorem vBin_keeps {o : VBin} {s : State} {f : Nat → Nat → Nat × Nat} : Keeps s (vBin o s f) := vecForm_keeps
theorem vTri_keeps {o : VTri} {s : State} {f : Nat → Nat → Nat → Nat × Nat} : Keeps s (vTri o s f) := vecForm_keeps
theorem vIntBin_keeps {o : VBin} {s : State} {f : Int → Int → Int} : Keeps s (vIntBin o s f) := vBin_keeps
theorem vIntUn_keeps {o : VUn} {s : State} {f : Int → Int} : Keeps s (vIntUn o s f) := vUn_keeps
theorem vLog_keeps {o : VLog} {s : State} {f : Nat → Nat → Nat} : Keeps s (vLog o s f) := vecForm_keeps
theorem execVaddI_keeps {o : VBin} {s : State} : KeepsOut s (execVaddI o s) := .next vIntBin_keeps
theorem execVsubI_keeps {o : VBin} {s : State} : KeepsOut s (execVsubI o s) := .next vIntBin_keeps
theorem execVmulI_keeps {o : VBin} {s : State} : KeepsOut s (execVmulI o s) := .next vIntBin_keeps
theorem execVaddF_keeps {o : VBin} {s : State} : KeepsOut s (execVaddF o s) := .next vBin_keeps
theorem execVsubF_keeps {o : VBin} {s : State} : KeepsOut s (execVsubF o s) := .next vBin_keeps
theorem execVmulF_keeps {o : VBin} {s : State} : KeepsOut s (execVmulF o s) := .next vBin_keeps
theorem execVfma_keeps {o : VTri} {s : State} : KeepsOut s (execVfma o s) := .next vTri_keeps
theorem execVfms_keeps {o : VTri} {s : State} : KeepsOut s (execVfms o s) := .next vTri_keeps
theorem execVfnma_keeps {o : VTri} {s : State} : KeepsOut s (execVfnma o s) := .next vTri_keeps
theorem execVdiv_keeps {o : VBin} {s : State} : KeepsOut s (execVdiv o s) := .next vBin_keeps
theorem execVsqrt_keeps {o : VUn} {s : State} : KeepsOut s (execVsqrt o s) := .next vUn_keeps
theorem execVrcp_keeps {o : VUn} {s : State} : KeepsOut s (execVrcp o s) := .next vUn_keeps
theorem execVrsqrt_keeps {o : VUn} {s : State} : KeepsOut s (execVrsqrt o s) := .next vUn_keeps
theorem execVexp2_keeps {o : VUn} {s : State} : KeepsOut s (execVexp2 o s) := .next vUn_keeps
theorem execVlog2_keeps {o : VUn} {s : State} : KeepsOut s (execVlog2 o s) := .next vUn_keeps
theorem execVminI_keeps {o : VBin} {s : State} : KeepsOut s (execVminI o s) := .next vIntBin_keeps
theorem execVmaxI_keeps {o : VBin} {s : State} : KeepsOut s (execVmaxI o s) := .next vIntBin_keeps
theorem execVminF_keeps {o : VBin} {s : State} : KeepsOut s (execVminF o s) := .next vBin_keeps
theorem execVmaxF_keeps {o : VBin} {s : State} : KeepsOut s (execVmaxF o s) := .next vBin_keeps
theorem execVabsI_keeps {o : VUn} {s : State} : KeepsOut s (execVabsI o s) := .next vIntUn_keeps
theorem execVabsF_keeps {o : VUn} {s : State} : KeepsOut s (execVabsF o s) := .next vUn_keeps
theorem execVnegI_keeps {o : VUn} {s : State} : KeepsOut s (execVnegI o s) := .next vIntUn_keeps
theorem execVnegF_keeps {o : VUn} {s : State} : KeepsOut s (execVnegF o s) := .next vUn_keeps
theorem execVround_keeps {o : VRnd} {s : State} : KeepsOut s (execVround o s) := .next vecForm_keeps
theorem execVand_keeps {o : VLog} {s : State} : KeepsOut s (execVand o s) := .next vLog_keeps
theorem execVor_keeps {o : VLog} {s : State} : KeepsOut s (execVor o s) := .next vLog_keeps
theorem execVxor_keeps {o : VLog} {s : State} : KeepsOut s (execVxor o s) := .next vLog_keeps
theorem execVshl_keeps {o : VLog} {s : State} : KeepsOut s (execVshl o s) := .next vLog_keeps
theorem execVshr_keeps {o : VLog} {s : State} : KeepsOut s (execVshr o s) := .next vLog_keeps
theorem execVsar_keeps {o : VLog} {s : State} : KeepsOut s (execVsar o s) := .next vLog_keeps
theorem execVpopc_keeps {o : VUnT} {s : State} : KeepsOut s (execVpopc o s) := .next vecForm_keeps
theorem dotForm_keeps {o : VTri} {lane32 : Bool} {s : State} : Keeps s (dotForm o lane32 s) := vecForm_keeps
theorem execVdot8_keeps {o : VTri} {s : State} : KeepsOut s (execVdot8 o s) := .next dotForm_keeps
theorem execVdot16_keeps {o : VTri} {s : State} : KeepsOut s (execVdot16 o s) := .next dotForm_keeps
theorem execVmac8_keeps {o : VTri} {s : State} : KeepsOut s (execVmac8 o s) := .next dotForm_keeps
theorem execVmac16_keeps {o : VTri} {s : State} : KeepsOut s (execVmac16 o s) := .next dotForm_keeps

theorem vcmpForm_keeps {o : VCmp} {s : State} : Keeps s (vcmpForm o s) :=
  elemForm_keeps (.bind vecChecks_keeps fun _ => .ok (readVs_keeps.trans (orFlags_keeps.trans setP_keeps)))

theorem execVcmpI_keeps {o : VCmp} {s : State} : KeepsOut s (execVcmpI o s) := .next vcmpForm_keeps
theorem execVcmpF_keeps {o : VCmp} {s : State} : KeepsOut s (execVcmpF o s) := .next vcmpForm_keeps
theorem execVsel_keeps {o : VSel} {s : State} : KeepsOut s (execVsel o s) := .next vecForm_keeps

theorem vcvtForm_keeps {o : VCvt} {s : State} : Keeps s (vcvtForm o s) :=
  elemForm_keeps (.bind vecChecks_keeps fun _ => .ok (readV_keeps.trans (orFlags_keeps.trans writeV_keeps)))

theorem execVcvtII_keeps {o : VCvt} {s : State} : KeepsOut s (execVcvtII o s) := .next vcvtForm_keeps
theorem execVcvtIF_keeps {o : VCvt} {s : State} : KeepsOut s (execVcvtIF o s) := .next vcvtForm_keeps
theorem execVcvtFI_keeps {o : VCvt} {s : State} : KeepsOut s (execVcvtFI o s) := .next vcvtForm_keeps
theorem execVcvtFF_keeps {o : VCvt} {s : State} : KeepsOut s (execVcvtFF o s) := .next vcvtForm_keeps
theorem vpermForm_keeps {o : VLog} {s : State} : Keeps s (vpermForm o s) := vecForm_keeps
theorem execVperm32_keeps {o : VLog} {s : State} : KeepsOut s (execVperm32 o s) := .next vpermForm_keeps
theorem execVperm64_keeps {o : VLog} {s : State} : KeepsOut s (execVperm64 o s) := .next vpermForm_keeps
theorem vbcastForm_keeps {o : VFromS} {s : State} : Keeps s (vbcastForm o s) := vecForm_keeps
theorem execVbcast32_keeps {o : VFromS} {s : State} : KeepsOut s (execVbcast32 o s) := .next vbcastForm_keeps
theorem execVbcast64_keeps {o : VFromS} {s : State} : KeepsOut s (execVbcast64 o s) := .next vbcastForm_keeps
theorem execVlane_keeps {o : VFromS} {s : State} : KeepsOut s (execVlane o s) := .next vecForm_keeps
theorem execVmov_keeps {o : V2} {s : State} : KeepsOut s (execVmov o s) := .next vecForm_keeps

theorem execVext_keeps {o : VExt} {s : State} : KeepsOut s (execVext o s) :=
  .next (bit0Form_keeps (.bind vecChecks_keeps fun _ => .ok (readV_keeps.trans writeS_keeps)))

theorem execVins_keeps {o : VIns} {s : State} : KeepsOut s (execVins o s) := by
  unfold execVins
  refine .next (elemForm_keeps (.bind vecChecks_keeps fun _ => .ok ?_))
  split
  · exact writeV_keeps
  · exact .refl _

theorem execVcompress_keeps {o : VUnT} {s : State} : KeepsOut s (execVcompress o s) :=
  .next (elemForm_keeps (.bind vecChecks_keeps fun _ => .ok (readV_keeps.trans writeV_keeps)))

theorem execVexpand_keeps {o : VUnT} {s : State} : KeepsOut s (execVexpand o s) := .next vecForm_keeps

theorem redForm_keeps {o : VRed} {op : AOp} {s : State} : Keeps s (redForm o op s) := by
  unfold redForm
  dsimp only
  split
  · exact writeS_keeps
  · refine runBody_keeps (.bind vecChecks_keeps fun _ => ?_)
    split
    · exact .ok (readV_keeps.trans (orFlags_keeps.trans writeS_keeps))
    · exact .ok (readV_keeps.trans writeS_keeps)

theorem execVredaddI_keeps {o : VRed} {s : State} : KeepsOut s (execVredaddI o s) := .next redForm_keeps
theorem execVredaddF_keeps {o : VRed} {s : State} : KeepsOut s (execVredaddF o s) := .next redForm_keeps
theorem execVredminI_keeps {o : VRed} {s : State} : KeepsOut s (execVredminI o s) := .next redForm_keeps
theorem execVredminF_keeps {o : VRed} {s : State} : KeepsOut s (execVredminF o s) := .next redForm_keeps
theorem execVredmaxI_keeps {o : VRed} {s : State} : KeepsOut s (execVredmaxI o s) := .next redForm_keeps
theorem execVredmaxF_keeps {o : VRed} {s : State} : KeepsOut s (execVredmaxF o s) := .next redForm_keeps

theorem scanForm_keeps {o : VScan} {s : State} : Keeps s (scanForm o s) := by
  unfold scanForm
  exact vecForm_keeps

theorem execVscanI_keeps {o : VScan} {s : State} : KeepsOut s (execVscanI o s) := .next scanForm_keeps
theorem execVscanF_keeps {o : VScan} {s : State} : KeepsOut s (execVscanF o s) := .next scanForm_keeps
theorem execVrng_keeps {o : V2} {s : State} : KeepsOut s (execVrng o s) := .next vecForm_keeps

/-! #### Reservoir -/

theorem resvForm_keeps {s : State} {p : Pred} {d a : VOp} {f : V512 → V512 → Nat → Resv × Nat} : Keeps s (resvForm s p d a f) := by
  unfold resvForm
  dsimp only
  split
  · exact .refl _
  · exact runBody_keeps (.bind vecChecks_keeps fun _ => .ok (readV_keeps.trans (orFlags_keeps.trans writeV_keeps)))

theorem execRsvupd_keeps {o : V2S} {s : State} : KeepsOut s (execRsvupd o s) := .next resvForm_keeps
theorem execRsvmrg_keeps {o : V2S} {s : State} : KeepsOut s (execRsvmrg o s) := .next resvForm_keeps
theorem execRsvget_keeps {o : V2} {s : State} : KeepsOut s (execRsvget o s) := .next resvForm_keeps

/-! #### Scalar -/

theorem aluForm_keeps {o : SAlu} {s : State} {f : Int → Int → Int} : Keeps s (aluForm o s f) := bit0Form_keeps (.ok writeS_keeps)
theorem patForm_keeps {o : SAlu} {s : State} {f : Nat → Nat → Nat} : Keeps s (patForm o s f) := bit0Form_keeps (.ok writeS_keeps)
theorem shiftForm_keeps {o : SAlu} {s : State} {f : Nat → Nat → Nat} : Keeps s (shiftForm o s f) := bit0Form_keeps (.ok writeS_keeps)
theorem unForm_keeps {o : SUn} {s : State} {f : Nat → Nat} : Keeps s (unForm o s f) := bit0Form_keeps (.ok writeS_keeps)
theorem execAdd_keeps {o : SAlu} {s : State} : KeepsOut s (execAdd o s) := .next aluForm_keeps
theorem execSub_keeps {o : SAlu} {s : State} : KeepsOut s (execSub o s) := .next aluForm_keeps
theorem execAddi_keeps {o : SImm} {s : State} : KeepsOut s (execAddi o s) := .next (bit0Form_keeps (.ok writeS_keeps))
theorem execMul_keeps {o : SAlu} {s : State} : KeepsOut s (execMul o s) := .next aluForm_keeps
theorem execMulh_keeps {o : SAlu} {s : State} : KeepsOut s (execMulh o s) := .next aluForm_keeps
theorem execMulhn_keeps {o : SAlu} {s : State} : KeepsOut s (execMulhn o s) := .next aluForm_keeps
theorem execDiv_keeps {o : SAlu} {s : State} : KeepsOut s (execDiv o s) := .next aluForm_keeps
theorem execDivn_keeps {o : SAlu} {s : State} : KeepsOut s (execDivn o s) := .next aluForm_keeps
theorem execRem_keeps {o : SAlu} {s : State} : KeepsOut s (execRem o s) := .next aluForm_keeps
theorem execRemn_keeps {o : SAlu} {s : State} : KeepsOut s (execRemn o s) := .next aluForm_keeps
theorem execAnd_keeps {o : SAlu} {s : State} : KeepsOut s (execAnd o s) := .next patForm_keeps
theorem execOr_keeps {o : SAlu} {s : State} : KeepsOut s (execOr o s) := .next patForm_keeps
theorem execXor_keeps {o : SAlu} {s : State} : KeepsOut s (execXor o s) := .next patForm_keeps
theorem execAndn_keeps {o : SAlu} {s : State} : KeepsOut s (execAndn o s) := .next patForm_keeps
theorem execOrn_keeps {o : SAlu} {s : State} : KeepsOut s (execOrn o s) := .next patForm_keeps
theorem execShl_keeps {o : SAlu} {s : State} : KeepsOut s (execShl o s) := .next (bit0Form_keeps (.ok writeS_keeps))
theorem execShr_keeps {o : SAlu} {s : State} : KeepsOut s (execShr o s) := .next shiftForm_keeps
theorem execSar_keeps {o : SAlu} {s : State} : KeepsOut s (execSar o s) := .next shiftForm_keeps
theorem execRol_keeps {o : SAlu} {s : State} : KeepsOut s (execRol o s) := .next shiftForm_keeps
theorem execRor_keeps {o : SAlu} {s : State} : KeepsOut s (execRor o s) := .next shiftForm_keeps
theorem execClz_keeps {o : SUn} {s : State} : KeepsOut s (execClz o s) := .next unForm_keeps
theorem execCtz_keeps {o : SUn} {s : State} : KeepsOut s (execCtz o s) := .next unForm_keeps
theorem execPopc_keeps {o : SUn} {s : State} : KeepsOut s (execPopc o s) := .next unForm_keeps
theorem execMin_keeps {o : SAlu} {s : State} : KeepsOut s (execMin o s) := .next aluForm_keeps
theorem execMax_keeps {o : SAlu} {s : State} : KeepsOut s (execMax o s) := .next aluForm_keeps
theorem execMinn_keeps {o : SAlu} {s : State} : KeepsOut s (execMinn o s) := .next aluForm_keeps
theorem execMaxn_keeps {o : SAlu} {s : State} : KeepsOut s (execMaxn o s) := .next aluForm_keeps
theorem execSext_keeps {o : SUn} {s : State} : KeepsOut s (execSext o s) := .next unForm_keeps
theorem execZext_keeps {o : SUn} {s : State} : KeepsOut s (execZext o s) := .next unForm_keeps
theorem execBfx_keeps {o : SBf} {s : State} : KeepsOut s (execBfx o s) := .next (bit0Form_keeps (.ok writeS_keeps))
theorem execBfi_keeps {o : SBf} {s : State} : KeepsOut s (execBfi o s) := .next (bit0Form_keeps (.ok writeS_keeps))
theorem execSel_keeps {o : SSel} {s : State} : KeepsOut s (execSel o s) := .next (bit0Form_keeps (.ok writeS_keeps))
theorem execLi_keeps {o : SLi} {s : State} : KeepsOut s (execLi o s) := .next (bit0Form_keeps (.ok setS_keeps))
theorem execAddip_keeps {o : SIp} {s : State} : KeepsOut s (execAddip o s) := .next (bit0Form_keeps (.ok writeS_keeps))
theorem execLea_keeps {o : SLea} {s : State} : KeepsOut s (execLea o s) := .next (bit0Form_keeps (.ok setS_keeps))
theorem execMov_keeps {o : SMov} {s : State} : KeepsOut s (execMov o s) := .next (bit0Form_keeps (.ok writeS_keeps))
theorem cmpForm_keeps {o : SCmp} {s : State} : Keeps s (cmpForm o s) := bit0Form_keeps (.ok (orFlags_keeps.trans setP_keeps))
theorem execCmpI_keeps {o : SCmp} {s : State} : KeepsOut s (execCmpI o s) := .next cmpForm_keeps
theorem execCmpF_keeps {o : SCmp} {s : State} : KeepsOut s (execCmpF o s) := .next cmpForm_keeps
theorem predForm_keeps {o : P3} {s : State} {f : W16 → W16 → W16} : Keeps s (predForm o s f) := bit0Form_keeps (.ok setP_keeps)
theorem execPand_keeps {o : P3} {s : State} : KeepsOut s (execPand o s) := .next predForm_keeps
theorem execPor_keeps {o : P3} {s : State} : KeepsOut s (execPor o s) := .next predForm_keeps
theorem execPxor_keeps {o : P3} {s : State} : KeepsOut s (execPxor o s) := .next predForm_keeps
theorem execPnot_keeps {o : P2} {s : State} : KeepsOut s (execPnot o s) := .next (bit0Form_keeps (.ok setP_keeps))

theorem execPmov_keeps {o : PMov} {s : State} : KeepsOut s (execPmov o s) := by
  unfold execPmov
  refine .next (bit0Form_keeps (.ok ?_))
  split
  · exact setP_keeps
  · exact writeS_keeps

theorem execPcnt_keeps {o : PCnt} {s : State} : KeepsOut s (execPcnt o s) := .next (bit0Form_keeps (.ok writeS_keeps))
theorem execXset_keeps {o : XSet} {s : State} : KeepsOut s (execXset o s) := .next (bit0Form_keeps (.ok setX_keeps))
theorem execXadd_keeps {o : XAdd} {s : State} : KeepsOut s (execXadd o s) := .next (bit0Form_keeps (.ok setX_keeps))
theorem execXmov_keeps {o : XMov} {s : State} : KeepsOut s (execXmov o s) := .next (bit0Form_keeps (.ok setX_keeps))
theorem execXget_keeps {o : PCnt} {s : State} : KeepsOut s (execXget o s) := .next (bit0Form_keeps (.ok writeS_keeps))

/-! #### Dispatch -/

theorem exec_keeps {i : Instr} {s : State} : KeepsOut s (exec i s) := by
  unfold exec
  split
  · exact execAdd_keeps
  · exact execSub_keeps
  · exact execAddi_keeps
  · exact execMul_keeps
  · exact execMulh_keeps
  · exact execMulhn_keeps
  · exact execDiv_keeps
  · exact execDivn_keeps
  · exact execRem_keeps
  · exact execRemn_keeps
  · exact execAnd_keeps
  · exact execOr_keeps
  · exact execXor_keeps
  · exact execAndn_keeps
  · exact execOrn_keeps
  · exact execShl_keeps
  · exact execShr_keeps
  · exact execSar_keeps
  · exact execRol_keeps
  · exact execRor_keeps
  · exact execClz_keeps
  · exact execCtz_keeps
  · exact execPopc_keeps
  · exact execMin_keeps
  · exact execMax_keeps
  · exact execMinn_keeps
  · exact execMaxn_keeps
  · exact execSext_keeps
  · exact execZext_keeps
  · exact execBfx_keeps
  · exact execBfi_keeps
  · exact execSel_keeps
  · exact execLi_keeps
  · exact execAddip_keeps
  · exact execLea_keeps
  · exact execMov_keeps
  · exact execCmpI_keeps
  · exact execCmpF_keeps
  · exact execPand_keeps
  · exact execPor_keeps
  · exact execPxor_keeps
  · exact execPnot_keeps
  · exact execPmov_keeps
  · exact execPcnt_keeps
  · exact execXset_keeps
  · exact execXadd_keeps
  · exact execXmov_keeps
  · exact execXget_keeps
  · exact execBr_keeps
  · exact execJmp_keeps
  · exact execCall_keeps
  · exact execRet_keeps
  · exact execLoop_keeps
  · exact execBrx_keeps
  · exact execEnd_keeps
  · exact execYield_keeps
  · exact execLd_keeps
  · exact execSt_keeps
  · exact execVld_keeps
  · exact execVldConverting_keeps
  · exact execVst_keeps
  · exact execVldm_keeps
  · exact execVstm_keeps
  · exact execLdk_keeps
  · exact execPref_keeps
  · exact execVgath32_keeps
  · exact execVgath64_keeps
  · exact execVscat32_keeps
  · exact execVscat64_keeps
  · exact execTrap_keeps
  · exact execTret_keeps
  · exact execUpret_keeps
  · exact execMfs_keeps
  · exact execMts_keeps
  · exact execSysc_keeps
  · exact execBrk_keeps
  · exact execRdtime_keeps
  · exact execIfence_keeps
  · exact execHalt_keeps
  · exact execVaddI_keeps
  · exact execVaddF_keeps
  · exact execVsubI_keeps
  · exact execVsubF_keeps
  · exact execVmulI_keeps
  · exact execVmulF_keeps
  · exact execVfma_keeps
  · exact execVfms_keeps
  · exact execVfnma_keeps
  · exact execVdiv_keeps
  · exact execVsqrt_keeps
  · exact execVrcp_keeps
  · exact execVrsqrt_keeps
  · exact execVexp2_keeps
  · exact execVlog2_keeps
  · exact execVminI_keeps
  · exact execVminF_keeps
  · exact execVmaxI_keeps
  · exact execVmaxF_keeps
  · exact execVabsI_keeps
  · exact execVabsF_keeps
  · exact execVnegI_keeps
  · exact execVnegF_keeps
  · exact execVcmpI_keeps
  · exact execVcmpF_keeps
  · exact execVsel_keeps
  · exact execVcvtII_keeps
  · exact execVcvtIF_keeps
  · exact execVcvtFI_keeps
  · exact execVcvtFF_keeps
  · exact execVround_keeps
  · exact execVand_keeps
  · exact execVor_keeps
  · exact execVxor_keeps
  · exact execVshl_keeps
  · exact execVshr_keeps
  · exact execVsar_keeps
  · exact execVperm32_keeps
  · exact execVperm64_keeps
  · exact execVbcast32_keeps
  · exact execVbcast64_keeps
  · exact execVext_keeps
  · exact execVins_keeps
  · exact execVredaddI_keeps
  · exact execVredaddF_keeps
  · exact execVredminI_keeps
  · exact execVredminF_keeps
  · exact execVredmaxI_keeps
  · exact execVredmaxF_keeps
  · exact execVscanI_keeps
  · exact execVscanF_keeps
  · exact execVdot8_keeps
  · exact execVdot16_keeps
  · exact execVmac8_keeps
  · exact execVmac16_keeps
  · exact execVrng_keeps
  · exact execVcompress_keeps
  · exact execVexpand_keeps
  · exact execVpopc_keeps
  · exact execVlane_keeps
  · exact execVmov_keeps
  · exact execMbld8_keeps
  · exact execMbld16_keeps
  · exact execMbrel_keeps
  · exact execMld32_keeps
  · exact execMld16_keeps
  · exact execMst32_keeps
  · exact execMst16_keeps
  · exact execMzero_keeps
  · exact execMmulE2M1_keeps
  · exact execMmul8_keeps
  · exact execMmul16_keeps
  · exact execMmacE2M1_keeps
  · exact execMmac8_keeps
  · exact execMmac16_keeps
  · exact execMfac_keeps
  · exact execMlradd_keeps
  · exact execMlrmul_keeps
  · exact execMreef_keeps
  · exact execMprom_keeps
  · exact execMrank_keeps
  · exact execMcvt_keeps
  · exact execMtr_keeps
  · exact execMscale_keeps
  · exact execMrec_keeps
  · exact execMrun_keeps
  · exact execMwait_keeps
  · exact execMfree_keeps
  · exact execRayopen_keeps
  · exact execRaytrace_keeps
  · exact execRaywait_keeps
  · exact execIvpost_keeps
  · exact execIvread_keeps
  · exact execIvclr_keeps
  · exact execIvstat_keeps
  · exact execHitq_keeps
  · exact execRsvupd_keeps
  · exact execRsvmrg_keeps
  · exact execRsvget_keeps
  · exact execLogset_keeps
  · exact execReplay_keeps
  · exact execAmoI_keeps
  · exact execAmoF_keeps
  · exact execCas_keeps
  · exact execCas2_keeps
  · exact execRedI_keeps
  · exact execRedF_keeps
  · exact execAmsg_keeps
  · exact execGath_keeps
  · exact execFence_keeps
  · exact execLdPath_keeps
  · exact execStPath_keeps
  · exact execVldPath_keeps
  · exact execVstPath_keeps
  · exact execCset_keeps
  · exact execCpygo_keeps
  · exact execCpycan_keeps
  · exact execSemw_keeps
  · exact execSeminc_keeps
  · exact execSemset_keeps
  · exact execMcset_keeps
  · exact execRst_keeps
  · exact execSend_keeps
  · exact execCmask_keeps
  · exact execCunmask_keeps
  · exact execQbind_keeps
  · exact execQlen_keeps
  · exact execQdrop_keeps
  · exact execSpawn_keeps
  · exact execSpawnt_keeps
  · exact execJoin_keeps
  · exact execEjoin_keeps
  · exact execEwait_keeps
  · exact execEset_keeps
  · exact execLaunch_keeps
  · exact execCancel_keeps
  · exact execCtrd_keeps
  · exact execResid_keeps
  · exact execDefer_keeps
  · exact execCastpin_keeps
  · exact execTlbinv_keeps
  · exact execCtxsv_keeps
  · exact execCtxrs_keeps
  · exact execRgload_keeps
  · exact execMtsp_keeps
  · exact execTranslationRegisterWrite_keeps
  · exact execFfbaseWrite_keeps
  · exact execFresRetry_keeps
  · exact execFresAbort_keeps
  · exact execFresDiscard_keeps
  · exact execDcmdHalt_keeps
  · exact execDcmdResume_keeps
  · exact execDcmdStep_keeps
  · exact execDdataWrite_keeps
  · exact execRigNop_keeps
  · exact execRigLdi_keeps
  · exact execRigMov_keeps
  · exact execRigAdd_keeps
  · exact execRigSub_keeps
  · exact execRigAnd_keeps
  · exact execRigOr_keeps
  · exact execRigShl_keeps
  · exact execRigShr_keeps
  · exact execRigCmp_keeps
  · exact execRigRayw_keeps
  · exact execRigFetch_keeps
  · exact execRigNbw_keeps
  · exact execRigBox_keeps
  · exact execRigChild_keeps
  · exact execRigPush_keeps
  · exact execRigPop_keeps
  · exact execRigFront_keeps
  · exact execRigTri_keeps
  · exact execRigSplat_keeps
  · exact execRigLeaf_keeps
  · exact execRigCall_keeps
  · exact execRigRet_keeps
  · exact execRigDone_keeps
  · exact execMicrowordWatchdog_keeps
  · exact execHitTaskPush_keeps
  · exact execListArrival_keeps
  · exact execRayDone_keeps
  · exact execTaskPop_keeps
  · exact execAgingPop_keeps
  · exact execActivationStart_keeps
  · exact execSteal_keeps
  · exact execStealRetry_keeps
  · exact execOverflowRefill_keeps
  · exact execContinuationPush_keeps
  · exact execCoreBind_keeps
  · exact execCoreRelease_keeps
  · exact execLaunchAdmission_keeps
  · exact execUnitDispatch_keeps
  · exact execResidentRelease_keeps
  · exact execEngineFault_keeps
  · exact execMacroParityError_keeps
  · exact execMatrixGrant_keeps
  · exact execMatrixMigration_keeps
  · exact execMatrixCommandComplete_keeps
  · exact execCopyStart_keeps
  · exact execCopyComplete_keeps
  · exact execHomeLoad_keeps
  · exact execHomeStore_keeps
  · exact execStoreAcknowledge_keeps
  · exact execAtomicReply_keeps
  · exact execUCopyMerge_keeps
  · exact execAmsgPerform_keeps
  · exact execAmsgReply_keeps
  · exact execLineFill_keeps
  · exact execWriteBackDrain_keeps
  · exact execPtsTick_keeps
  · exact execTimestampRebase_keeps
  · exact execRouterGrant_keeps
  · exact execRouterAgingGrant_keeps
  · exact execRstDelivery_keeps
  · exact execSendDelivery_keeps
  · exact execPAcknowledge_keeps
  · exact execPacketForward_keeps
  · exact execSwapInstant_keeps
  · exact execCastle_keeps
  · exact execPlacementUpdate_keeps
  · exact execForwardingExpiry_keeps
  · exact execContextDrain_keeps
  · exact execCorrectableError_keeps
  · exact execUncorrectableError_keeps
  · exact execScrub_keeps
  · exact execDoorbellWrite_keeps
  · exact execJobDescriptor_keeps
  · exact execJobCompletion_keeps
  · exact execHostApertureAccess_keeps
  · exact execBilathMemoryWrite_keeps
  · exact execBilathClassMessage_keeps
  · exact execMacsecFrameDrop_keeps
  · exact execSpdmRequest_keeps
  · exact execTdispLock_keeps
  · exact execTdispUnlock_keeps
  · exact execContextCreate_keeps
  · exact execSemaphoreAssign_keeps
  · exact execCastlingControlWordWrite_keeps
  · exact execPartitionRangeWrite_keeps
  · exact execTelemetryRead_keeps
  · exact execBoot_keeps
  · exact execThermalTrip_keeps
  · exact execMonitorSample_keeps
  · exact execHbmRefresh_keeps
  · exact execPhyCalibration_keeps
  · exact execServiceMessageDelivery_keeps
  · exact execCxlCacheResponse_keeps
  · exact execFormatWindowWrite_keeps
  · exact execPartitionCreation_keeps
  · exact execKeySlotFill_keeps
  · exact execSystemImageTimer_keeps
  · exact execBilathRetransmission_keeps
  · exact execCorePowerGating_keeps

/-! #### Issue -/

theorem atInstr_keeps {s : State} {ipc pc : W64} {slot1 inPair : Bool} : Keeps s (atInstr s ipc pc slot1 inPair) := withTh_keeps
theorem afterInstr_keeps {i : Instr} {ptgt : Option W64} {seq : W64} {s : State} : Keeps s (afterInstr i ptgt seq s) := withTh_keeps
theorem holdAt_keeps {s s1 : State} : Keeps s1 (holdAt s s1) := withTh_keeps
theorem KeepsOut.state {s t : State} {o : Out} (k : KeepsOut s o) (h : o = .next t) : Keeps s t := k t h
theorem KeepsOut.refused {s : State} {f : Refusal} : KeepsOut s (.refused f) := fun _ e => nomatch e

theorem issueOne_keeps {s : State} {pc : W64} {r : Raw} {i : Instr} : KeepsOut s (issueOne s pc r i) := by
  unfold issueOne
  split
  · exact .next stalled_keeps
  · have runs := exec_keeps (i := i) (s := atInstr s pc (nextAddr pc) s.th.solo false)
    dsimp only
    split
    · next u e =>
      have hu : Keeps s u := atInstr_keeps.trans (runs.state e)
      refine .next ?_
      split
      · exact stalled_keeps
      · exact hu.trans holdAt_keeps
      · exact hu.trans afterInstr_keeps
    · exact .fault
    · exact .refused

theorem issuePair_keeps {s : State} {pc : W64} {ra rb : Raw} {a b : Instr} : KeepsOut s (issuePair s pc ra rb a b) := by
  unfold issuePair
  split
  · exact .next stalled_keeps
  · dsimp only
    split
    · exact .fault
    · exact .refused
    · next s1 e1 =>
      have h1 : Keeps s s1 := (atInstr_keeps.trans withTh_keeps).trans (exec_keeps.state e1)
      split
      · exact .next stalled_keeps
      · exact .next (h1.trans holdAt_keeps)
      · exact .next (.ite stalled_keeps (h1.trans afterInstr_keeps))
      · split
        · exact .fault
        · exact .refused
        · next s3 e3 =>
          have h3 : Keeps s s3 := h1.trans ((atInstr_keeps.trans withTh_keeps).trans (exec_keeps.state e3))
          split
          · split
            · split
              · exact .next stalled_keeps
              · exact .next (h1.trans withTh_keeps)
            · exact .next stalled_keeps
          · exact .next (.ite (h3.trans (afterInstr_keeps.trans withTh_keeps)) (h3.trans afterInstr_keeps))

theorem issueTrap_keeps {s : State} {pc : W64} {e : Trap} : Keeps s (issueTrap s pc e) := atInstr_keeps.trans takeTrap_keeps

theorem issueLine_keeps {s : State} {pc : W64} {line : V512} : KeepsOut s (issueLine s pc line) := by
  unfold issueLine
  dsimp only
  split
  · exact .next issueTrap_keeps
  · split
    · exact .next issueTrap_keeps
    · split
      · split
        · exact .next issueTrap_keeps
        · split
          · exact issuePair_keeps
          · exact .next issueTrap_keeps
      · exact issueOne_keeps

theorem tryIssue_keeps {s : State} : KeepsOut s (tryIssue s) := by
  unfold tryIssue
  dsimp only
  split
  · exact .next issueTrap_keeps
  · split
    · next e => exact .after (checkedLine_keeps _ _ (by rw [e])) issueLine_keeps
    · next e => exact .next ((checkedLine_keeps _ _ (by rw [e])).trans issueTrap_keeps)
    · exact .next (atInstr_keeps.trans takePage_keeps)
    · exact .next issueTrap_keeps

theorem releaseYields_keeps {s : State} : Keeps s (releaseYields s) := by
  unfold releaseYields
  refine Keeps.foldl fun _ _ => ?_
  dsimp only
  split
  · exact setThread_keeps
  · exact .refl _

theorem endStep_keeps {s : State} : Keeps s (endStep s) := by
  unfold endStep
  split
  · split
    · exact enterHalt_keeps
    · exact enterHalt_keeps
    · exact .refl _
    · exact withTh_keeps
  · exact .refl _

theorem turn_keeps {s : State} {g : Nat} : KeepsOut s (turn s g) := by
  unfold turn
  dsimp only
  split
  · split
    · next t e =>
      refine .next (focus_keeps.trans ((tryIssue_keeps.state e).trans (.trans ?_ endStep_keeps)))
      split
      · exact withCore_keeps.trans (withTh_keeps.trans releaseYields_keeps)
      · exact .refl t
    · exact .fault
    · exact .refused
  · exact .next (focus_keeps.trans stalled_keeps)

/-! #### Auto -/

theorem passTime_keeps {s : State} : Keeps s (passTime s) := (Keeps.update (.refl _)).trans tick_keeps

theorem firstToIssue_keeps {l : List Nat} {s : State} :
    Keeps s (firstToIssue l s).2 ∧ ∀ x, (firstToIssue l s).1 = some x → KeepsOut s x := by
  induction l generalizing s with
  | nil => exact ⟨.refl s, fun _ e => nomatch e⟩
  | cons g l ih =>
    unfold firstToIssue
    split
    · have turns := turn_keeps (s := s) (g := g)
      split
      · next t e =>
        have ht := turns.state e
        split
        · exact ⟨ht.trans ih.1, fun x ex => .after ht (ih.2 x ex)⟩
        · exact ⟨ht, fun x ex => Option.some.inj ex ▸ .next ht⟩
      · exact ⟨.refl s, fun x ex => Option.some.inj ex ▸ turns⟩
    · exact ih

theorem issuedOr_keeps {l : List Nat} {s : State} : KeepsOut s (issuedOr (firstToIssue l s)) := by
  unfold issuedOr
  cases e : (firstToIssue l s).1 with
  | none => exact .next firstToIssue_keeps.1
  | some x => exact firstToIssue_keeps.2 x e

theorem issueCore_keeps {s : State} {c : Nat} : KeepsOut s (issueCore s c) := issuedOr_keeps
theorem judgeYields_keeps {s : State} : Keeps s (judgeYields s) := Keeps.foldl fun _ _ => onThread_keeps

theorem microwords_keep : ∀ e ∈ microwords, RigKeeps e.2 := by
  simp only [microwords, List.forall_mem_cons, List.not_mem_nil, false_imp_iff, implies_true, and_true]
  exact ⟨.pure, .pure, .pure, .pure, .pure, .pure, .pure, .pure, .pure, .pure, fun _ _ _ _ => rigRayw_keeps,
    fun _ _ _ _ => rigFetch_keeps, .pure, fun _ _ _ _ => rigBox_keeps, .pure, .pure, .pure, .pure,
    .leafs fun _ _ _ _ _ => triFn_keeps, .leafs fun _ _ _ _ _ => splatFn_keeps, .leafs fun _ _ _ _ _ => leafFn_keeps,
    fun _ _ _ _ => rigCall_keeps, fun _ _ _ _ => rigRet_keeps, .pure⟩

/-- Every event of a list keeps the canonical form. -/
def EventsKeep (l : List Ev0) : Prop := ∀ e ∈ l, ∀ s, KeepsOpt (fun t => t) s (e s)

theorem EventsKeep.nil : EventsKeep [] := fun _ h => nomatch h

theorem EventsKeep.cons {e : Ev0} {l : List Ev0} (h : ∀ s, KeepsOpt (fun t => t) s (e s)) (k : EventsKeep l) : EventsKeep (e :: l) :=
  List.forall_mem_cons.mpr ⟨h, k⟩

theorem EventsKeep.append {l m : List Ev0} (h : EventsKeep l) (k : EventsKeep m) : EventsKeep (l ++ m) :=
  List.forall_mem_append.mpr ⟨h, k⟩

theorem EventsKeep.map {α : Type} {f : α → Ev0} {l : List α} (h : ∀ x s, KeepsOpt (fun t => t) s (f x s)) : EventsKeep (l.map f) :=
  List.forall_mem_map.mpr fun x _ => h x

theorem EventsKeep.flatMap {α : Type} {f : α → List Ev0} {l : List α} (h : ∀ x, EventsKeep (f x)) : EventsKeep (l.flatMap f) :=
  fun e he => by
    obtain ⟨x, -, hx⟩ := List.mem_flatMap.mp he
    exact h x e hx

theorem EventsKeep.ite {c : Prop} [Decidable c] {l m : List Ev0} (h : EventsKeep l) (k : EventsKeep m) :
    EventsKeep (if c then l else m) := by
  split
  · exact h
  · exact k

theorem rayEvents_keep {k n : Nat} : EventsKeep (rayEvents k n) :=
  .append (List.forall_mem_map.mpr fun e he _ => rig_keeps (microwords_keep e he))
    (.cons (fun _ => evWatchdog_keeps) (.cons (fun _ => evListArrival_keeps) (.cons (fun _ => evRayDone_keeps) .nil)))

theorem clusterEvents_keep {s : State} {k : Nat} : EventsKeep (clusterEvents s k) := by
  have fills : EventsKeep ((getClu s k).miss.flatMap fun e => e.secs.map (evLineFill e.ctx e.slot)) :=
    .flatMap fun _ => .map fun _ _ => evLineFill_keeps
  have copies : EventsKeep ((getClu s k).cq.flatMap fun x => [evCopyStart k x.id 0 [], evCopyComplete k x.id]) :=
    .flatMap fun _ => .cons (fun _ => evCopyStart_keeps) (.cons (fun _ => evCopyComplete_keeps) .nil)
  have rings : EventsKeep ((getClu s k).rings.flatMap fun e =>
      (List.range 8).map (fun p => fun (s : State) => refillOne s k e.1 p) ++ [evSteal k e.1]) :=
    .flatMap fun _ => .append (.map fun _ _ => refillOne_keeps) (.cons (fun _ => evSteal_keeps) .nil)
  exact .append (.append (.append (.append (.append fills (.map fun _ _ => evWriteBack_keeps)) copies) (.flatMap fun _ =>
    rayEvents_keep))
    (.cons (fun _ => evHitTaskPush_keeps) (.cons (fun _ => evMatrixGrant_keeps) .nil))) rings

theorem coreEvents_keep {c : Nat} : EventsKeep (coreEvents c) :=
  .append
    (.flatMap fun _ => .append
      (.append
        (.cons (fun _ => evAccess_keeps) (.cons (fun _ => evHomeStore_keeps) (.cons (fun _ => evStoreAck_keeps)
          (.cons (fun _ => evAtomicReply_keeps) (.cons (fun _ => evKread_keeps) .nil)))))
        (.map fun _ _ => evRed_keeps))
      (.cons (fun _ => evAmsgPerform_keeps) (.cons (fun _ => evAmsgReply_keeps) (.cons (fun _ => evCxlResponse_keeps)
        (.cons (fun _ => evHaltDone_keeps) (.cons (fun _ => evActivation_keeps) (.cons (fun _ => evPop_keeps)
          (.cons (fun _ => evPop_keeps) .nil))))))))
    (.cons (fun _ => evMatrixComplete_keeps) (.cons (fun _ => evMatrixMigration_keeps) (.cons (fun _ => evPlacement_keeps)
      (.cons (fun _ => evExpiry_keeps) (.cons (fun _ => evCoreRelease_keeps) .nil)))))

theorem ctxEvents_keep {s : State} {ctx : Nat} : EventsKeep (ctxEvents s ctx) :=
  .append
    (.append
      (.flatMap fun _ => .append
        (.cons (fun _ => evAdmit_keeps) (.cons (fun _ => evDispatch_keeps) (.cons (fun _ => evResidRelease_keeps) .nil)))
        (.ite (.map fun _ _ => evCoreBind_keeps) .nil))
      (.cons (fun _ => evContPush_keeps) .nil))
    (.ite .nil (.map fun _ _ => evTransWrite_keeps))

theorem meshEvents_keep {s : State} : EventsKeep (meshEvents s) :=
  .append
    (.flatMap fun _ => .append
      (.cons (fun _ => evRstDelivery_keeps) (.cons (fun _ => evSendDelivery_keeps) (.cons (fun _ => evPAck_keeps)
        (.cons (fun _ => evForward_keeps) .nil))))
      (.ite (.flatMap fun _ => .cons (fun _ => evRouterGrant_keeps) (.cons (fun _ => evRouterAging_keeps) .nil))
        (.cons (fun _ => evLink_keeps) .nil)))
    (.map fun _ _ => evService_keeps)

theorem selfEvents_keep {s : State} : EventsKeep (selfEvents s) :=
  .append (.append (.append (.append (.flatMap fun _ => coreEvents_keep) (.flatMap fun _ => clusterEvents_keep))
    (.flatMap fun _ => ctxEvents_keep)) meshEvents_keep)
    (.flatMap fun _ => .cons (fun _ => evCastle_keeps) (.cons (fun _ => evSwap_keeps) .nil))

theorem someEvent_keeps {s : State} : KeepsOpt (fun t => t) s (someEvent s) := by
  intro t h
  obtain ⟨e, he, ht⟩ := List.exists_of_findSome?_eq_some h
  have mem : e ∈ selfEvents s := (List.mem_append.mp he).elim List.mem_of_mem_drop List.mem_of_mem_take
  exact selfEvents_keep e mem s t ht

theorem autoStep_keeps {s : State} : KeepsOut s (autoStep s) := by
  have issues := firstToIssue_keeps (l := candidates s) (s := s)
  unfold autoStep
  split
  · split
    · next x _ e => exact issues.2 x (congrArg Prod.fst e)
    · next t e =>
      have ht : Keeps s t := by
        have h2 : (someIssue s).2 = t := congrArg Prod.snd e
        exact h2 ▸ issues.1
      exact .next (ht.trans (someEvent_keeps.getD (.refl t)))
  · split
    · next t e => exact .next (someEvent_keeps t e)
    · exact issuedOr_keeps

/-! #### Step -/

theorem eventStep_keeps {i : Instr} {s : State} : KeepsOut s (eventStep i s) := by
  unfold eventStep
  split
  · exact .next (.refl _)
  · exact exec_keeps

theorem orStay_keeps {s : State} {x : Option State} (h : KeepsOpt (fun t => t) s x) : KeepsOut s (orStay s x) :=
  .next (h.getD (.refl s))

theorem turnStep_keeps {x : Turn} {s : State} : KeepsOut s (turnStep x s) := by
  cases x with
  | issue c => exact issueCore_keeps
  | event i => exact eventStep_keeps
  | access g => exact orStay_keeps evAccess_keeps
  | kread g n => exact orStay_keeps evKread_keeps
  | red g n => exact orStay_keeps evRed_keeps
  | amsg g n => exact orStay_keeps evAmsgAt_keeps
  | amsgReply g n => exact orStay_keeps evAmsgBack_keeps
  | merge g older => exact orStay_keeps evMerge_keeps
  | walk k ctx va => exact orStay_keeps evWalk_keeps
  | index k id row => exact orStay_keeps evIndex_keeps
  | element k id n => exact orStay_keeps evElement_keeps
  | rows c => exact orStay_keeps evMatrixRows_keeps
  | sector k n sec => exact orStay_keeps evSector_keeps
  | evictL1 c sec => exact orStay_keeps evEvictL1_keeps
  | evictLine l => exact orStay_keeps evEvictLine_keeps
  | link k port cls => exact orStay_keeps evLink_keeps

theorem step_keeps {s : State} : KeepsOut s (step s) := by
  unfold step
  split
  · split
    · exact .after (Keeps.update (.refl _)) exec_keeps
    · exact .fault
  · exact .fault
  · exact .after ((Keeps.update (.refl _)).trans (passTime_keeps.trans judgeYields_keeps)) turnStep_keeps
  · exact .after (passTime_keeps.trans judgeYields_keeps) autoStep_keeps

/-- Settles O6: every write of the two memories goes through `memSetAll`, so every function of the model keeps the canonical form, and
`exec`, `turnStep` and `step` are made of them. -/
theorem memoryKeepsItsCanonicalForm : Obligations.MemoryKeepsItsCanonicalForm :=
  ⟨fun _ _ t c h => exec_keeps t h c, fun _ _ t c h => turnStep_keeps t h c, fun _ t c h => step_keeps t h c⟩

end Machine
end Sys2Proof
end

section
/-! ### O5: what reset leaves -/
namespace Sys2Proof
namespace Machine

@[simp] theorem getCore_reset (c : Nat) : getCore State.reset c = CoreSt.init := by
  unfold getCore
  split
  · rfl
  · rfl
@[simp] theorem getCtx_reset (c : Nat) : getCtx State.reset c = Context.init := rfl
@[simp] theorem getPart_reset (p : Nat) : getPart State.reset p = Partition.init := rfl
@[simp] theorem getClu_reset (k : Nat) : getClu State.reset k = Cluster.init := rfl
@[simp] theorem getRay_reset (k n : Nat) : getRay State.reset k n = Ray.init := rfl
/-- The four records of a core that is reset are the same. -/
theorem slotOf_init (t : Nat) : slotOf CoreSt.init t = Thread.init := by
  simp only [slotOf, CoreSt.init, Vector.toList_replicate, List.getD_eq_getElem?_getD, List.getElem?_replicate]
  split
  · rfl
  · rfl
@[simp] theorem threadAt_reset (g : Nat) : threadAt State.reset g = Thread.init := by
  unfold threadAt
  split
  · rfl
  · rw [getCore_reset, slotOf_init]

theorem shadow_init (i : Fin 9) : Thread.init.shadow[i] = 0 := by simp [Thread.init]
theorem qOf_init (i : Fin 16) : qOf CoreSt.init i = [] := by
  revert i
  decide
theorem binds_init (i : Fin 8) : CoreSt.init.binds[i].bound = false := by simp [CoreSt.init]

/-- Settles O5: every lookup in the empty tables of reset answers the initial record, whose fields stand in its definition. -/
theorem resetLeavesTheStatedValues : Obligations.ResetLeavesTheStatedValues := by
  refine ⟨rfl, rfl, rfl, rfl, rfl, rfl, rfl, rfl, rfl, rfl, rfl, ⟨rfl, rfl⟩, fun _ => rfl, ?_, ?_, ?_, ?_, ?_⟩
  · intro g
    rw [threadAt_reset]
    exact ⟨rfl, rfl, rfl, shadow_init, rfl, rfl, rfl, rfl, rfl, rfl⟩
  · intro c
    rw [getCore_reset]
    exact ⟨rfl, rfl, qOf_init, binds_init, rfl⟩
  · intro c
    exact ⟨rfl, rfl, rfl, rfl, rfl, rfl, rfl, rfl, rfl⟩
  · intro p
    rw [getPart_reset]
    exact ⟨rfl, rfl, rfl, by decide, by decide, by decide, by decide⟩
  · intro k
    exact ⟨rfl, rfl, rfl, rfl, rfl, fun _ => rfl⟩

end Machine
end Sys2Proof
end

section
/-! ### O9: moves, fields, compares and index forms -/
namespace Sys2Proof
namespace Machine

/-- The two readings of a signed pattern are one. -/
theorem signedOf_toNat {w : Nat} (h : 0 < w) (x : BitVec w) : signedOf w x.toNat = x.toInt := by
  obtain ⟨k, rfl⟩ : ∃ k, w = k + 1 := ⟨w - 1, by omega⟩
  have hx : x.toNat % 2 ^ (k + 1) = x.toNat := Nat.mod_eq_of_lt x.isLt
  have half : x.toNat < 2 ^ k ↔ 2 * x.toNat < 2 ^ (k + 1) := by rw [Nat.pow_succ]; omega
  simp only [signedOf, hx, BitVec.toInt_eq_toNat_cond, Nat.add_sub_cancel, half]
theorem sext64_toNat {w : Nat} (h : 0 < w) (x : BitVec w) : sext64 w x.toNat = BitVec.ofInt 64 x.toInt := by
  rw [sext64, signedOf_toNat h]
/-- The mask of `addip` clears the bits below the fetch line. -/
theorem and_lineMask (x : W64) : x &&& ~~~(63 : W64) = BitVec.ofNat 64 (x.toNat / 64 * 64) := by
  refine BitVec.eq_of_getLsbD_eq fun i hi => ?_
  have mask : (63 : W64).getLsbD i = decide (i < 6) := Nat.testBit_two_pow_sub_one 6 i
  have line : (x.toNat / 64 * 64).testBit i = (decide (6 ≤ i) && x.getLsbD i) := by
    have shifted : (x.toNat / 2 ^ 6 * 2 ^ 6).testBit i = (decide (6 ≤ i) && x.getLsbD i) := by
      rw [Nat.testBit_mul_two_pow, Nat.testBit_div_two_pow, BitVec.getLsbD]
      by_cases h : 6 ≤ i
      · simp [h]
      · simp [h]
    exact shifted
  rw [BitVec.getLsbD_and, BitVec.getLsbD_not, BitVec.getLsbD_ofNat, line, mask]
  by_cases h : i < 6
  · simp [h, hi]
  · simp [h, hi, Nat.le_of_not_lt h]
/-- Reduction into the modulus is the remainder of the floored division (R111). -/
theorem xaddVal_eq (x : W32) (a m : W16) :
    xaddVal x a m = if m = 0 then BitVec.ofInt 32 (x.toInt + a.toInt) else BitVec.ofInt 32 ((x.toInt + a.toInt) % (m.toNat : Int)) := by
  simp only [xaddVal, signedOf_toNat (show 0 < 32 by decide), signedOf_toNat (show 0 < 16 by decide), Int.emod_def]
theorem pmovVal_toP (s : State) (r : Fin 8) : BitVec.ofNat 16 (pmovVal s (.p r)) = getP s r :=
  (BitVec.ofNat_toNat 16 _).trans (BitVec.setWidth_eq _)
theorem zext64_toNat {w : Nat} (x : BitVec w) : zext64 w x.toNat = BitVec.ofNat 64 x.toNat := by
  rw [zext64, Nat.mod_eq_of_lt x.isLt]

/-- What a scalar compare leaves when its predicate is set (R109). -/
theorem compared (s : State) (d : Fin 8) (f : Nat) (v : W16) :
    let t := setP (orFlags s f) d v
    OnlyRf s t ∧ SameMemory s t ∧ t.th.rf = { s.th.rf with p := t.th.rf.p, flags := s.th.rf.flags ||| BitVec.ofNat 64 (f % 32) } ∧
      (∀ n : Fin 8, n ≠ d → t.th.rf.p[n] = s.th.rf.p[n]) ∧ (if d = 0 then t.th.rf.p = s.th.rf.p else t.th.rf.p[d] = v) := by
  obtain ⟨_, hrf, hother, hd⟩ := setP_wrote (orFlags s f) d v
  refine ⟨rfl, ⟨fun _ => rfl, fun _ => rfl⟩, hrf, hother, ?_⟩
  split
  · next h => rw [if_pos h] at hd; rw [hd]; rfl
  · next h => rwa [if_neg h] at hd

/-- Settles O9: each form is a write of its value behind bit 0 of its predicate; what is to show beside that is the value itself. -/
theorem movesFieldsComparesAndIndexFormsWriteTheirValue : Obligations.MovesFieldsComparesAndIndexFormsWriteTheirValue := by
  refine ⟨⟨⟨?mov, ?sel, ?li, ?lea, ?addip, ?fields⟩, ?xset, ?xmov, ?xget, ?xadd⟩, ?cmp, ?preds, ?pnot, ?pmovP, ?pmovS, ?pcnt⟩
  case mov => exact fun o => scalarResult_of fun _ => rfl
  case sel => exact fun o => scalarResult_of fun _ => rfl
  case li =>
    exact fun o => registerResult_of fun s => by rw [← sext64_toNat (by decide)]; rfl
  case lea =>
    exact fun o => registerResult_of fun s => by rw [← sext64_toNat (by decide)]; rfl
  case addip =>
    exact fun o => scalarResult_of fun s => by rw [← sext64_toNat (by decide), ← and_lineMask]; rfl
  case fields => exact fun o => ⟨scalarResult_of fun _ => rfl, scalarResult_of fun _ => rfl⟩
  case xset => exact fun o => indexResult_of fun _ => rfl
  case xmov => exact fun o => indexResult_of fun _ => rfl
  case xget =>
    exact fun o => scalarResult_of fun s => by rw [← sext64_toNat (by decide)]; rfl
  case xadd =>
    exact fun o => indexResult_of fun s => by simp only [← xaddVal_eq]; rfl
  case cmp =>
    intro o i hi s
    have runs : exec i s = .next (cmpForm o s) := by
      obtain rfl | rfl := hi
      · rfl
      · rfl
    refine ⟨fun hp => ⟨cmpForm o s, runs, ?_⟩, fun hp => ?_⟩
    · simp only [cmpForm, bit0Form_true _ hp, runBody_ok]
      exact compared s o.d _ _
    · rw [runs, cmpForm, bit0Form_false _ hp]
  case preds => exact fun o => ⟨predicateResult_of fun _ => rfl, predicateResult_of fun _ => rfl, predicateResult_of fun _ => rfl⟩
  case pnot => exact fun o => predicateResult_of fun _ => rfl
  case pmovP =>
    refine fun p d a => predicateResult_of fun s => ?_
    cases a with
    | p r => exact congrArg (fun v => Host.Outcome.next (bit0Form s p (.ok (setP s d v)))) (pmovVal_toP s r)
    | s r => rfl
  case pmovS =>
    exact fun p d a => scalarResult_of fun s => by rw [← zext64_toNat]; rfl
  case pcnt => exact fun o => scalarResult_of fun _ => rfl

end Machine
end Sys2Proof
end

section
/-! ### O30: semaphores -/
namespace Sys2Proof
namespace Machine

@[simp] theorem fieldOf_low (x : W64) (n : Nat) : fieldOf x 0 n = x.toNat % 2 ^ n := by simp [fieldOf, bitsOf]

/-- What a write of a semaphore does, and what it leaves: the other semaphores of its cluster, and everything else. -/
theorem semPut_wrote (s : State) (k n ctx : Nat) (v : W32) :
    let t := semPut s k n ctx v
    t = { s with clusters := t.clusters } ∧ amFind (getClu t k).sems n = some (ctx, v) ∧
      (∀ j m, j ≠ k ∨ m ≠ n → amFind (getClu t j).sems m = amFind (getClu s j).sems m) ∧
      ∀ j, getClu t j = { getClu s j with sems := (getClu t j).sems } := by
  have clu (j : Nat) : getClu (semPut s k n ctx v) j =
      if j = k then { getClu s k with sems := amSet (getClu s k).sems n (ctx, v) } else getClu s j := getClu_setClu s k j _
  refine ⟨rfl, ?_, fun j m h => ?_, fun j => ?_⟩
  · rw [clu, if_pos rfl, amFind_amSet_same]
  · rw [clu]
    split
    · next e => rw [amFind_amSet_other _ _ (h.resolve_left (not_not_intro e)), e]
    · rfl
  · rw [clu]
    split
    · next e => rw [e]
    · rfl

theorem semE_some {s : State} {n : BitVec 6} {v : W32} (h : semOf s (myClu s) n.toNat (myCtx s) = some v) : semE s n = .ok v := by
  rw [semE, h]
theorem semE_none {s : State} {n : BitVec 6} (h : semOf s (myClu s) n.toNat (myCtx s) = none) :
    semE s n = .error (.trap (trapOf cPERM 0)) := by
  rw [semE, h]
  rfl

theorem execSemw_owned {s : State} {p : Pred} {n : BitVec 6} {v : W32} (hp : pred0 s p = true)
    (h : semOf s (myClu s) n.toNat (myCtx s) = some v) (a : Fin 32) :
    exec (.semw ⟨p, a, n⟩) s = .next (if (getS s a).toNat % 2 ^ 32 ≤ v.toNat then s else stalled s) := by
  change Host.Outcome.next (bit0Form s p (semE s n >>= fun w => ready (decide (fieldOf (getS s a) 0 32 ≤ w.toNat)) >>= fun _ => .ok s)) = _
  rw [bit0Form_true _ hp, semE_some h]
  change Host.Outcome.next (runBody s (ready (decide (fieldOf (getS s a) 0 32 ≤ v.toNat)) >>= fun _ => .ok s)) = _
  by_cases hv : (getS s a).toNat % 2 ^ 32 ≤ v.toNat
  · rw [fieldOf_low, decide_eq_true hv, if_pos hv]
    rfl
  · rw [fieldOf_low, decide_eq_false hv, if_neg hv]
    rfl
theorem execSeminc_owned {s : State} {p : Pred} {n : BitVec 6} {v : W32} (hp : pred0 s p = true)
    (h : semOf s (myClu s) n.toNat (myCtx s) = some v) (d a : Fin 32) :
    exec (.seminc ⟨p, d, a, n⟩) s = .next (setS (semPut s (myClu s) n.toNat (myCtx s)
      (clamp32 ((v.toNat : Int) + signedOf 32 (getS s a).toNat))) d (BitVec.ofNat 64 v.toNat)) := by
  change Host.Outcome.next (bit0Form s p (semE s n >>= fun w => .ok (setS (semPut s (myClu s) n.toNat (myCtx s)
    (clamp32 ((w.toNat : Int) + signedOf 32 (getS s a).toNat))) d (zext64 32 w.toNat)))) = _
  rw [bit0Form_true _ hp, semE_some h, ← zext64_toNat]
  rfl
theorem execSemset_owned {s : State} {p : Pred} {n : BitVec 6} {v : W32} (hp : pred0 s p = true)
    (h : semOf s (myClu s) n.toNat (myCtx s) = some v) (a : Fin 32) :
    exec (.semset ⟨p, a, n⟩) s = .next (semPut s (myClu s) n.toNat (myCtx s) (BitVec.ofNat 32 (getS s a).toNat)) := by
  change Host.Outcome.next (bit0Form s p (semE s n >>= fun _ => .ok (semPut s (myClu s) n.toNat (myCtx s)
    (BitVec.ofNat 32 (getS s a).toNat)))) = _
  rw [bit0Form_true _ hp, semE_some h]
  rfl
/-- A form that begins with a semaphore which the context does not own traps (R23). -/
theorem semForm_traps {s : State} {p : Pred} {n : BitVec 6} {k : W32 → Except Stop State} (hp : pred0 s p = true)
    (h : semOf s (myClu s) n.toNat (myCtx s) = none) : bit0Form s p (semE s n >>= k) = takeTrap s (trapOf cPERM 0) := by
  rw [bit0Form_true _ hp, semE_none h]
  rfl

/-- Settles O30: each form goes through `semE`, which answers the owned value or traps, and writes with `semPut`. -/
theorem semaphoreFormsActOnTheirClustersSemaphore : Obligations.SemaphoreFormsActOnTheirClustersSemaphore := by
  refine ⟨fun s p n v hp h => ⟨execSemw_owned hp h, fun d a => ?_, fun a => ?_⟩, fun s p n hp h => ?_, ?_, ?_, ?_⟩
  · obtain ⟨_, found, others, rest⟩ := semPut_wrote s (myClu s) n.toNat (myCtx s)
      (clamp32 ((v.toNat : Int) + signedOf 32 (getS s a).toNat))
    rw [clamp32] at found others rest
    exact ⟨_, semPut s (myClu s) n.toNat (myCtx s) _, execSeminc_owned hp h d a, rfl, ⟨rfl, found, others, rest⟩, setS_wrote _ d _⟩
  · obtain ⟨_, found, others, rest⟩ := semPut_wrote s (myClu s) n.toNat (myCtx s) (BitVec.ofNat 32 (getS s a).toNat)
    exact ⟨_, execSemset_owned hp h a, rfl, rfl, found, others, rest⟩
  · exact ⟨fun a => congrArg _ (semForm_traps hp h), fun d a => congrArg _ (semForm_traps hp h), fun a => congrArg _ (semForm_traps hp h)⟩
  · exact fun o => ⟨fun s hp => congrArg _ (bit0Form_false _ hp), fun s hp => congrArg _ (bit0Form_false _ hp)⟩
  · exact fun o s hp => congrArg _ (bit0Form_false _ hp)
  · intro s k n ctx created assignable inside small
    have assigns : evSemAssign k n ctx s = some (semPut s k n ctx 0) := by simp [evSemAssign, created, assignable, inside, small]
    obtain ⟨same, found, others, _⟩ := semPut_wrote s k n ctx 0
    refine ⟨semPut s k n ctx 0, ?_, same, found, others⟩
    change Host.Outcome.next ((evSemAssign k n ctx s).getD s) = _
    rw [assigns, Option.getD_some]

end Machine
end Sys2Proof
end

section
/-! ### The times of lines, and what home reads as -/
namespace Sys2Proof
namespace Machine

@[simp] theorem getLine_setLine_same (s : State) (l : Nat) (x : Line) : getLine (setLine s l x) l = x := amGet_amSet_same _ _ _ _
theorem getLine_setLine_other (s : State) {l m : Nat} (x : Line) (h : m ≠ l) : getLine (setLine s l x) m = getLine s m :=
  amGet_amSet_other _ _ _ h

/-- The times of every line and of every path stand. -/
def SameTimes (s t : State) : Prop :=
  t.pathTime = s.pathTime ∧ ∀ x, (getLine t x).rts = (getLine s x).rts ∧ (getLine t x).wts = (getLine s x).wts
theorem SameTimes.refl (s : State) : SameTimes s s := ⟨rfl, fun _ => ⟨rfl, rfl⟩⟩
theorem SameTimes.trans {s t u : State} (h : SameTimes s t) (k : SameTimes t u) : SameTimes s u :=
  ⟨k.1.trans h.1, fun x => ⟨(k.2 x).1.trans (h.2 x).1, (k.2 x).2.trans (h.2 x).2⟩⟩
theorem SameTimes.foldl {α : Type} {f : State → α → State} (h : ∀ s x, SameTimes s (f s x)) (l : List α) (s : State) :
    SameTimes s (l.foldl f s) := by
  induction l generalizing s with
  | nil => exact .refl s
  | cons x l ih => exact (h s x).trans (ih _)
/-- A change beside the lines and the times of the paths. -/
theorem SameTimes.beside {s t u : State} (h : SameTimes s t) (hl : u.lines = t.lines) (hp : u.pathTime = t.pathTime) : SameTimes s u := by
  have lines (x : Nat) : getLine u x = getLine t x := congrArg (fun m => amGet Line.init m x) hl
  exact ⟨hp.trans h.1, fun x => by rw [lines]; exact h.2 x⟩
/-- A change of a line that leaves its times. -/
theorem setLine_times {s : State} {l : Nat} {x : Line} (hr : x.rts = (getLine s l).rts) (hw : x.wts = (getLine s l).wts) :
    SameTimes s (setLine s l x) := by
  refine ⟨rfl, fun m => ?_⟩
  by_cases h : m = l
  · rw [h, getLine_setLine_same]
    exact ⟨hr, hw⟩
  · rw [getLine_setLine_other _ _ h]
    exact ⟨rfl, rfl⟩
theorem writeBack_times (s : State) (l : Nat) : SameTimes s (writeBack s l) :=
  (setLine_times (x := { getLine s l with dirty := 0, mask := 0 }) rfl rfl).beside rfl rfl
theorem dropLine_times (s : State) (l : Nat) : SameTimes s (dropLine s l) := by
  unfold dropLine
  dsimp only
  split
  · exact ((SameTimes.refl s).beside rfl rfl).trans (setLine_times rfl rfl)
  · exact setLine_times rfl rfl
theorem drainLine_times (s : State) (l : Nat) : SameTimes s (drainLine s l) := (writeBack_times s l).trans (dropLine_times _ l)
theorem evictLine_times (s : State) (l : Nat) : SameTimes s (evictLine s l) := by
  unfold evictLine
  dsimp only
  split
  · exact .refl s
  · split
    · exact dropLine_times s l
    · have room : SameTimes s (match (getClu s (homeOfLine l)).wbuf with
          | o :: rest => if rest.length < 7 then s else drainLine s o
          | [] => s) := by
        split
        · split
          · exact .refl s
          · exact drainLine_times s _
        · exact .refl s
      have held := setLine_times (x := { getLine s l with buffered := true, valid := 0 }) (room.2 l).1.symm (room.2 l).2.symm
      exact room.trans (held.beside rfl rfl)
theorem lineRoom_times (s : State) (l : Nat) : SameTimes s (lineRoom s l) := by
  have drained : SameTimes s (if (getLine s l).buffered then drainLine s l else s) := by
    split
    · exact drainLine_times s l
    · exact .refl s
  unfold lineRoom
  dsimp only
  refine drained.trans ?_
  generalize (if (getLine s l).buffered then drainLine s l else s) = t
  split
  · exact .refl _
  · split
    · exact .refl _
    · exact evictLine_times _ _
theorem alignSlot_times (s : State) (slot l : Nat) : SameTimes s (alignSlot s slot l) := by
  unfold alignSlot
  dsimp only
  split
  · exact (writeBack_times s l).trans (dropLine_times _ l)
  · exact .refl s
theorem touchLine_times {s : State} (n : s.NoUCopies) (slot l : Nat) : SameTimes s (touchLine s slot l) := by
  rw [touchLine, recallU_none n]
  exact alignSlot_times s slot l
theorem keepOlder_times (s : State) (sec : Nat) : SameTimes s (keepOlder s sec) := by
  unfold keepOlder
  split
  · exact .refl s
  · exact (SameTimes.refl s).beside rfl rfl
theorem rekeySector_times (s : State) (key sec : Nat) : SameTimes s (rekeySector s key sec) := by
  unfold rekeySector
  split
  · exact .refl s
  · exact (SameTimes.refl s).beside rfl rfl
theorem dirtyLine_times (s : State) (ctx slot sec : Nat) :
    (dirtyLine s ctx slot sec).rts = (getLine s (sec / 4)).rts ∧ (dirtyLine s ctx slot sec).wts = (getLine s (sec / 4)).wts := by
  unfold dirtyLine
  dsimp only
  split
  · exact ⟨rfl, rfl⟩
  · exact ⟨rfl, rfl⟩
theorem prepSector_times (s : State) (ctx slot sec : Nat) : SameTimes s (prepSector s ctx slot sec) := by
  have rekeyed := (keepOlder_times (lineRoom s (sec / 4)) sec).trans (rekeySector_times _ (keyOf (lineRoom s (sec / 4)) slot) sec)
  have dirtied := dirtyLine_times (lineRoom s (sec / 4)) ctx slot sec
  exact (lineRoom_times s _).trans (rekeyed.trans (setLine_times (dirtied.1.trans (rekeyed.2 _).1.symm) (dirtied.2.trans (rekeyed.2 _).2.symm)))
theorem markWord_times (s : State) (w : Nat) : SameTimes s (markWord s w) := setLine_times rfl rfl
theorem putBytes_times (s : State) (ctx slot : Nat) (l : List (Nat × Byte)) : SameTimes s (putBytes s ctx slot l) :=
  ((SameTimes.foldl (fun s sec => prepSector_times s ctx slot sec) (sectorsOf l) s).beside rfl rfl).trans (SameTimes.foldl markWord_times _ _)
/-- Touching lines while no U copy stands. -/
theorem foldl_touchLine_times (slot : Nat) (l : List Nat) {s : State} (n : s.NoUCopies) :
    SameTimes s (l.foldl (fun s x => touchLine s slot x) s) := by
  induction l generalizing s with
  | nil => exact .refl s
  | cons x l ih => exact (touchLine_times n slot x).trans (ih ((touchLine_quiet s slot x).2 n).1)

/-- A sector of HBM stands as it was, with its key. -/
def SameSector (s t : State) (x : Nat) : Prop :=
  amFind t.memKey x = amFind s.memKey x ∧ ∀ a, a / 64 = x → memGet t.mem a = memGet s.mem a
theorem SameSector.refl (s : State) (x : Nat) : SameSector s s x := ⟨rfl, fun _ _ => rfl⟩
theorem SameSector.trans {s t u : State} {x : Nat} (h : SameSector s t x) (k : SameSector t u x) : SameSector s u x :=
  ⟨k.1.trans h.1, fun a ha => (k.2 a ha).trans (h.2 a ha)⟩
theorem SameSector.of_eq {s t : State} (hm : t.mem = s.mem) (hk : t.memKey = s.memKey) (x : Nat) : SameSector s t x :=
  ⟨by rw [hk], fun _ _ => by rw [hm]⟩
/-- Such a sector reads as before, under every key. -/
theorem SameSector.homeByte {s t : State} {a : Nat} (h : SameSector s t (a / 64)) (key : Nat) : homeByte t key a = homeByte s key a := by
  have raw : sectorRaw t (a / 64) = sectorRaw s (a / 64) := by
    have bytes : memRead t.mem (a / 64 * 64) 64 = memRead s.mem (a / 64 * 64) 64 := by
      refine List.map_congr_left fun i hi => h.2 _ ?_
      have := List.mem_range.mp hi
      omega
    rw [sectorRaw, sectorRaw, bytes]
  unfold Machine.homeByte sectorAs
  rw [h.1, h.2 a rfl, raw]

theorem homeByte_of_key {s : State} {key a : Nat} (h : amFind s.memKey (a / 64) = some key) : homeByte s key a = memGet s.mem a := by
  rw [homeByte, h]
  exact if_pos rfl
/-- The bytes and the key of one sector are new; every other sector stands. -/
theorem rekeyed_sameSector {s : State} (c : s.MemoryCanonical) (key sec : Nat) {b : List Byte} (hb : b.length = 64) {x : Nat} (hx : x ≠ sec) :
    SameSector s { s with mem := memSetAll s.mem (atAddr (sec * 64) b), memKey := amSet s.memKey sec key } x := by
  refine ⟨amFind_amSet_other _ _ hx, fun a ha => memGet_memSetAll_other c.1 fun e he => ?_⟩
  have := atAddr_ge he
  omega
/-- A sector that takes another key keeps what a reader under it sees, and every other sector. -/
theorem rekeySector_reads {s : State} (c : s.MemoryCanonical) (key sec : Nat) :
    (∀ a, homeByte (rekeySector s key sec) key a = homeByte s key a) ∧ ∀ x, x ≠ sec → SameSector s (rekeySector s key sec) x := by
  unfold rekeySector
  split
  · exact ⟨fun _ => rfl, fun x _ => .refl s x⟩
  · have others (x : Nat) (hx : x ≠ sec) :=
      rekeyed_sameSector c key sec (b := (List.range 64).map fun i => homeByte s key (sec * 64 + i)) (by simp) hx
    refine ⟨fun a => ?_, others⟩
    by_cases ha : a / 64 = sec
    · rw [homeByte_of_key (ha ▸ amFind_amSet_same ..)]
      have hi : a - sec * 64 < 64 := by omega
      have put := memGet_memSetAll_atAddr ((List.range 64).map fun i => homeByte s key (sec * 64 + i)) c.1 (sec * 64) (a - sec * 64)
        (by simpa using hi)
      simpa [show sec * 64 + (a - sec * 64) = a by omega] using put
    · exact (others _ ha).homeByte key
theorem keepOlder_mem (s : State) (sec : Nat) : (keepOlder s sec).mem = s.mem ∧ (keepOlder s sec).memKey = s.memKey := by
  unfold keepOlder
  split
  · exact ⟨rfl, rfl⟩
  · exact ⟨rfl, rfl⟩
theorem prepSector_reads {s : State} (n : s.NoUCopies) (c : s.MemoryCanonical) (ctx slot sec : Nat) :
    (∀ a, homeByte (prepSector s ctx slot sec) (keyOf s slot) a = homeByte s (keyOf s slot) a) ∧
      ∀ x, x ≠ sec → SameSector s (prepSector s ctx slot sec) x := by
  have roomQuiet := lineRoom_quiet s (sec / 4)
  obtain ⟨-, hm, hk⟩ := roomQuiet.2 n
  obtain ⟨om, ok⟩ := keepOlder_mem (lineRoom s (sec / 4)) sec
  have same (x : Nat) : SameSector s (keepOlder (lineRoom s (sec / 4)) sec) x := .of_eq (om.trans hm) (ok.trans hk) x
  have canon := (keepOlder_step (lineRoom s (sec / 4)) sec).2 (roomQuiet.1.2 c)
  have key : keyOf (lineRoom s (sec / 4)) slot = keyOf s slot := keyOf_congr roomQuiet.1.1.ctxs _
  obtain ⟨reads, others⟩ := rekeySector_reads canon (keyOf s slot) sec
  unfold prepSector
  dsimp only
  rw [key]
  exact ⟨fun a => (reads a).trans ((same _).homeByte _), fun x hx => (same x).trans (others x hx)⟩
/-- Sectors made ready for a write read as before under the writer's key, and the other sectors stand. -/
theorem foldl_prepSector_reads (ctx slot : Nat) (secs : List Nat) {s : State} (n : s.NoUCopies) (c : s.MemoryCanonical) :
    let t := secs.foldl (fun s sec => prepSector s ctx slot sec) s
    (∀ a, homeByte t (keyOf s slot) a = homeByte s (keyOf s slot) a) ∧ ∀ x, x ∉ secs → SameSector s t x := by
  induction secs generalizing s with
  | nil => exact ⟨fun _ => rfl, fun x _ => .refl s x⟩
  | cons sec secs ih =>
    have prepStep := prepSector_step s ctx slot sec
    have key : keyOf (prepSector s ctx slot sec) slot = keyOf s slot := keyOf_congr prepStep.1.ctxs _
    obtain ⟨reads, others⟩ := prepSector_reads n c ctx slot sec
    obtain ⟨reads', others'⟩ := ih (prepSector_memKey n ctx slot sec).1 (prepStep.2 c)
    rw [key] at reads'
    refine ⟨fun a => (reads' a).trans (reads a), fun x hx => ?_⟩
    obtain ⟨here, rest⟩ := not_or.mp (mt List.mem_cons.mpr hx)
    exact (others x here).trans (others' x rest)

/-- The last byte listed for an address is the one that stands. -/
theorem memGet_memSetAll_last {m : Mem} (h : Memory.wf m = true) (k l : List (Nat × Byte)) (e : Nat × Byte) (he : ∀ x ∈ l, x.1 ≠ e.1) :
    memGet (memSetAll m (k ++ e :: l)) e.1 = e.2 := by
  have split : memSetAll m (k ++ e :: l) = memSetAll (memSet (memSetAll m k) e.1 e.2) l := by
    simp only [memSetAll, List.foldl_append, List.foldl_cons]
  rw [split, memGet_memSetAll_other (memSet_wf (memSetAll_wf h)) he, memGet_memSet (memSetAll_wf h), if_pos rfl]

end Machine
end Sys2Proof
end

section
/-! ### O23: a write at home -/
namespace Sys2Proof
namespace Machine

/-- The state in which a write at home stores its bytes: its lines are touched, and its sectors ready. -/
def writePrepared (s : State) (ctx slot : Nat) (l : List (Nat × Byte)) : State :=
  (sectorsOf l).foldl (fun s sec => prepSector s ctx slot sec) (((l.map fun e => e.1 / 256).eraseDups).foldl (fun s x => touchLine s slot x) s)
theorem writePrepared_reads {s : State} (n : s.NoUCopies) (c : s.MemoryCanonical) (ctx slot : Nat) (l : List (Nat × Byte)) :
    (∀ a, homeByte (writePrepared s ctx slot l) (keyOf s slot) a = homeByte s (keyOf s slot) a) ∧
      (∀ x, (∀ e ∈ l, e.1 / 64 ≠ x) → SameSector s (writePrepared s ctx slot l) x) ∧ (writePrepared s ctx slot l).MemoryCanonical := by
  have touched := HomeQuiet.foldl (fun s x => touchLine_quiet s slot x) (l.map fun e => e.1 / 256).eraseDups s
  obtain ⟨n', hm, hk⟩ := touched.2 n
  have same (x : Nat) := SameSector.of_eq hm hk x
  have key := keyOf_congr touched.1.1.ctxs slot
  obtain ⟨reads, others⟩ := foldl_prepSector_reads ctx slot (sectorsOf l) n' (touched.1.2 c)
  rw [key] at reads
  refine ⟨fun a => (reads a).trans ((same _).homeByte _), fun x hx => (same x).trans (others x fun mem => ?_),
    (HomeStep.foldl (fun s x => prepSector_step s ctx slot x) _ _).2 (touched.1.2 c)⟩
  obtain ⟨e, he, hex⟩ := List.mem_map.mp (List.mem_eraseDups.mp mem)
  exact hx e he hex
/-- The bytes of HBM, and the keys, after a write at home. -/
theorem homeWrite_mem (s : State) (ctx slot : Nat) (p : Path) (pts : Nat) (l : List (Nat × Byte)) :
    (homeWrite s ctx slot p pts l).2.mem = memSetAll (writePrepared s ctx slot l).mem l ∧
      (homeWrite s ctx slot p pts l).2.memKey = (writePrepared s ctx slot l).memKey := by
  have stored : ∀ {γ : Type} (π : State → γ), (∀ u w x, π (setLine u w x) = π u) → (∀ u p w, π (notePath u p w) = π u) →
      π (homeWrite s ctx slot p pts l).2 = π (storeBytes (writePrepared s ctx slot l) l) := fun π hl hp => by
    change π (notePath _ _ _) = _
    rw [hp, foldl_keeps π fun b a => hl _ _ _]
    exact foldl_keeps π (fun b a => hl _ _ _) _ _
  exact ⟨stored (·.mem) (fun _ _ _ => rfl) fun _ _ _ => rfl, stored (·.memKey) (fun _ _ _ => rfl) fun _ _ _ => rfl⟩
/-- A write at home leaves every sector that holds none of its bytes. -/
theorem homeWrite_sameSector {s : State} (n : s.NoUCopies) (c : s.MemoryCanonical) (ctx slot : Nat) (p : Path) (pts : Nat)
    (l : List (Nat × Byte)) {x : Nat} (hx : ∀ e ∈ l, e.1 / 64 ≠ x) : SameSector s (homeWrite s ctx slot p pts l).2 x := by
  obtain ⟨-, others, canon⟩ := writePrepared_reads n c ctx slot l
  obtain ⟨hm, hk⟩ := homeWrite_mem s ctx slot p pts l
  refine (others x hx).trans ⟨by rw [hk], fun a ha => ?_⟩
  rw [hm, memGet_memSetAll_other canon.1 fun e he h => hx e he (by rw [h, ha])]
/-- A write at home leaves every address that it does not list, as the writer's key reads it. -/
theorem homeByte_homeWrite_other {s : State} (n : s.NoUCopies) (c : s.MemoryCanonical) (ctx slot : Nat) (p : Path) (pts : Nat)
    (l : List (Nat × Byte)) {a : Nat} (ha : ∀ e ∈ l, e.1 ≠ a) :
    homeByte (homeWrite s ctx slot p pts l).2 (keyOf s slot) a = homeByte s (keyOf s slot) a := by
  obtain ⟨reads, -, canon⟩ := writePrepared_reads n c ctx slot l
  obtain ⟨hm, hk⟩ := homeWrite_mem s ctx slot p pts l
  by_cases touched : ∃ e ∈ l, e.1 / 64 = a / 64
  · obtain ⟨e, he, hea⟩ := touched
    have key : amFind (homeWrite s ctx slot p pts l).2.memKey (a / 64) = some (keyOf s slot) :=
      hea ▸ (homeWrite_bytes n c ctx slot p pts l).2 e he
    rw [← reads a, homeByte_of_key key, homeByte_of_key (hk ▸ key), hm, memGet_memSetAll_other canon.1 ha]
  · exact (homeWrite_sameSector n c ctx slot p pts l fun e he h => touched ⟨e, he, h⟩).homeByte _
theorem homeByte_homeWrite_last {s : State} (n : s.NoUCopies) (c : s.MemoryCanonical) (ctx slot : Nat) (p : Path) (pts : Nat)
    (k m : List (Nat × Byte)) (e : Nat × Byte) (he : ∀ x ∈ m, x.1 ≠ e.1) :
    homeByte (homeWrite s ctx slot p pts (k ++ e :: m)).2 (keyOf s slot) e.1 = e.2 := by
  have key := (homeWrite_bytes n c ctx slot p pts (k ++ e :: m)).2 e (by simp)
  rw [homeByte_of_key key, (homeWrite_mem s ctx slot p pts _).1]
  exact memGet_memSetAll_last (writePrepared_reads n c ctx slot _).2.2.1 k m e he

/-- The time of a write is at least where its search starts, and later than each lease that it looks at. -/
theorem le_foldl_max (f : Nat → Nat) (l : List Nat) (b : Nat) :
    b ≤ l.foldl (fun w x => max w (f x)) b ∧ ∀ x ∈ l, f x ≤ l.foldl (fun w x => max w (f x)) b := by
  induction l generalizing b with
  | nil => exact ⟨Nat.le_refl b, fun x hx => nomatch hx⟩
  | cons y l ih =>
    obtain ⟨start, each⟩ := ih (max b (f y))
    refine ⟨(Nat.le_max_left ..).trans start, fun x hx => ?_⟩
    obtain rfl | hx := List.mem_cons.mp hx
    · exact (Nat.le_max_right ..).trans start
    · exact each x hx
/-- Lines that are stamped with a time have it. -/
theorem getLine_foldl_stamp (w : Nat) (l : List Nat) (s : State) (x : Nat)
    (h : x ∈ l ∨ (getLine s x).wts = w ∧ (getLine s x).rts = w) :
    let t := l.foldl (fun s x => setLine s x { getLine s x with wts := w, rts := w }) s
    (getLine t x).wts = w ∧ (getLine t x).rts = w := by
  induction l generalizing s with
  | nil => exact h.resolve_left List.not_mem_nil
  | cons y l ih =>
    refine ih _ ?_
    by_cases hy : x = y
    · subst hy
      exact .inr (by simp)
    · rw [getLine_setLine_other _ _ hy]
      exact h.imp_left fun hx => (List.mem_cons.mp hx).resolve_left hy
/-- What stamping the lines of a write does with the times (R250). -/
theorem stampLines_times (s : State) (p : Path) (pts : Nat) (ls : List Nat) :
    let r := stampLines s p pts ls
    pts ≤ r.1 ∧ floorOf s p ≤ r.1 ∧ (∀ x ∈ ls, (getLine s x).rts < r.1 ∧ (getLine r.2 x).wts = r.1 ∧ (getLine r.2 x).rts = r.1) ∧
      ∀ i : Fin 9, r.2.pathTime[i] = if i.val = pathCode p then max s.pathTime[i] r.1 else s.pathTime[i] := by
  obtain ⟨start, each⟩ := le_foldl_max (fun x => (getLine s x).rts + 1) ls (max pts (floorOf s p))
  refine ⟨(Nat.le_max_left ..).trans start, (Nat.le_max_right ..).trans start, fun x hx => ⟨each x hx, ?_⟩, fun i => ?_⟩
  · exact getLine_foldl_stamp _ ls s x (.inl hx)
  · have paths := foldl_keeps (fun u : State => u.pathTime)
      (f := fun u x => setLine u x { getLine u x with wts := (stampLines s p pts ls).1, rts := (stampLines s p pts ls).1 })
      (fun _ _ => rfl) ls s
    change (notePath _ p _).pathTime[i] = _
    simp only [notePath, Fin.getElem_fin, Vector.getElem_ofFn]
    exact congrArg (fun v : Vector Nat 9 => if i.val = pathCode p then max v[i] (stampLines s p pts ls).1 else v[i]) paths

/-- Settles O23: the sectors of a write are first made ready, which keeps what the writer reads, then its bytes are stored and its lines
stamped. -/
theorem homeWritesStoreExactlyTheirBytes : Obligations.HomeWritesStoreExactlyTheirBytes := by
  intro s ctx slot pts p l n c
  obtain ⟨only, canon⟩ := homeWrite_step s ctx slot p pts l
  have touchedTimes := foldl_touchLine_times slot (l.map fun e => e.1 / 256).eraseDups n
  have touchedStep := HomeStep.foldl (fun s x => touchLine_step s slot x) (l.map fun e => e.1 / 256).eraseDups s
  have putTimes := touchedTimes.trans (putBytes_times _ ctx slot l)
  have fenced : floorOf (putBytes (((l.map fun e => e.1 / 256).eraseDups).foldl (fun s x => touchLine s slot x) s) ctx slot l) p = floorOf s p := by
    have step := (touchedStep.trans (putBytes_step _ ctx slot l)).1.1
    rw [step]
    rfl
  obtain ⟨after, floor, lines, paths⟩ := stampLines_times (putBytes (((l.map fun e => e.1 / 256).eraseDups).foldl
    (fun s x => touchLine s slot x) s) ctx slot l) p pts (l.map fun e => e.1 / 256).eraseDups
  refine ⟨fun a ha => homeByte_homeWrite_other n c ctx slot p pts l ha, ?_, fun any a ha => ?_, after, fenced ▸ floor, fun e he => ?_,
    fun i => ?_, only, canon c⟩
  · rintro k e m rfl he
    exact homeByte_homeWrite_last n c ctx slot p pts k m e he
  · exact (homeWrite_sameSector n c ctx slot p pts l ha).homeByte any
  · have stamped := lines (e.1 / 256) (List.mem_eraseDups.mpr (List.mem_map.mpr ⟨e, he, rfl⟩))
    rwa [(putTimes.2 _).1] at stamped
  · exact putTimes.1 ▸ paths i

end Machine
end Sys2Proof
end

section
/-! ### O15: where a load looks -/
namespace Sys2Proof
namespace Machine

theorem effAddr_eq (s : State) (a : Fin 32) (disp : W32) : effAddr s a disp = getS s a + BitVec.ofInt 64 disp.toInt := by
  rw [effAddr, sext64_toNat (by decide)]

section
variable {s u : State} {acc : Acc} {h : Bool} {ea w : W64} {x : Xl}
theorem xlateE_ok (hx : xlateCore s acc h ea.toNat = .ok x u) : xlateE s acc h ea w = .ok (x, u) := by rw [xlateE, hx]
theorem xlateE_page (hx : xlateCore s acc h ea.toNat = .page) : xlateE s acc h ea w = .error (.page (trapAcc cPAGE ea w)) := by
  rw [xlateE, hx]
  rfl
theorem xlateE_perm (hx : xlateCore s acc h ea.toNat = .perm) : xlateE s acc h ea w = .error (.trap (trapAcc cPERM ea w)) := by
  rw [xlateE, hx]
  rfl
end

/-- A C read in the pool window (R242). -/
theorem readC_pool {s : State} {ea : W64} (hw : inPoolWindow ea.toNat = true) (n : Nat) (kind : CKind) (dst : Nat) :
    readC s ea n kind dst = if poolOk s.core s.th.act (poolOff ea) n then .ok (issueC s (poolReq (poolOff ea) kind ea [] dst))
      else .error (.trap (trapAcc cBOUNDS ea (accWord .C false false n))) := by
  rw [readC, if_pos hw]
  rfl
/-- A C read elsewhere goes to its translation. -/
theorem readC_memory {s : State} {ea : W64} (hw : inPoolWindow ea.toNat = false) (n : Nat) (kind : CKind) (dst : Nat) :
    readC s ea n kind dst = xlateE s .read false ea (accWord .C false false n) >>= fun r => .ok (issueC r.2 (memReq r.1 kind ea [] dst)) := by
  rw [readC, if_neg (by simp [hw])]
theorem readK_memory {s : State} {ea : W64} (hw : inPoolWindow ea.toNat = false) (n : Nat) (ty : Ty) (dst : Nat)
    (vec : Option (W16 × VDst)) : readK s ea n ty dst vec = xlateE s .read false ea (accWord .K false false n) >>= fun r =>
      .ok (issueK r.2 { pa := r.1.pa, slot := r.1.slot, noL1 := r.1.noL1, ty := ty, dst := dst, vec := vec }) := by
  rw [readK, if_neg (by simp [hw])]
theorem xlateCore_noncanonical {s : State} {acc : Acc} {h : Bool} {va : Nat} (hc : canonical va = false) : xlateCore s acc h va = .page := by
  rw [xlateCore, hc]
  rfl
/-- A walk that has ended is under way no more. -/
theorem endWalk_walks (s : State) (ctx k va : Nat) :
    ∀ w ∈ (getClu (endWalk s ctx k va) k).walks, ¬(w.1 = ctx ∧ w.2.1 = va / 4096) := by
  intro w hw
  rw [endWalk, onClu, getClu_setClu, if_pos rfl] at hw
  have other := (List.mem_filter.mp hw).2
  rintro ⟨rfl, hpage⟩
  simp [hpage] at other

/-- What `pref` does when its predicate is set (R122). -/
theorem execPref_on {o : MemA} {s : State} (hp : pred0 s o.p = true) :
    exec (.pref o) s = .next (if inPoolWindow (effAddr s o.a o.disp).toNat then s
      else match xlateCore s .read false (effAddr s o.a o.disp).toNat with
        | .ok x s' => issueC s' (memReq x .pref (effAddr s o.a o.disp) [] 0)
        | _ => endWalk s (myCtx s) (myClu s) (effAddr s o.a o.disp).toNat) :=
  congrArg Host.Outcome.next (bit0Form_true _ hp)

/-- Settles O15: a load's stops are those of its window or of its translation, and what it issues stands in the equation of `readC`,
`readK` or `pref` for that case. -/
theorem loadsLookInThePoolOrAtTheirTranslation : Obligations.LoadsLookInThePoolOrAtTheirTranslation := by
  refine ⟨⟨fun s ea n kind dst hw => ⟨fun ok => ?_, fun bad => ?_⟩, fun s ea n kind dst hw => ⟨fun x u hx => ?_, fun hx => ?_, fun hx => ?_⟩,
    fun s ea n ty dst vec => ⟨fun hw => ?_, fun hw => ⟨fun x u hx => ?_, fun hx => ?_, fun hx => ?_⟩⟩, fun s acc h va hc => ?_⟩,
    fun o s hp => ?_, fun o s hp => congrArg Host.Outcome.next (bit0Form_false _ hp)⟩
  · exact ⟨_, _, (readC_pool hw n kind dst).trans (if_pos ok), rfl, rfl, rfl, rfl, rfl, rfl, rfl⟩
  · exact (readC_pool hw n kind dst).trans (if_neg (by simp [bad]))
  · exact ⟨xlateCore_only hx, _, _, by rw [readC_memory hw, xlateE_ok hx]; rfl, rfl, rfl, rfl, rfl, rfl, rfl, rfl, rfl, rfl, rfl, rfl, rfl⟩
  · rw [readC_memory hw, xlateE_page hx]
    rfl
  · rw [readC_memory hw, xlateE_perm hx]
    rfl
  · rw [readK, if_pos hw]
    rfl
  · exact ⟨xlateCore_only hx, by rw [readK_memory hw, xlateE_ok hx]; rfl⟩
  · rw [readK_memory hw, xlateE_page hx]
    rfl
  · rw [readK_memory hw, xlateE_perm hx]
    rfl
  · exact xlateCore_noncanonical (by simpa [canonical] using hc)
  · dsimp only
    rw [← effAddr_eq]
    refine ⟨fun hw => ?_, fun hw stop => ?_, fun hw x u hx => ⟨xlateCore_only hx, ?_⟩⟩
    · rw [execPref_on hp, if_pos hw]
    · have drops : exec (.pref o) s = .next (endWalk s (myCtx s) (myClu s) (effAddr s o.a o.disp).toNat) := by
        rw [execPref_on hp, if_neg (by simp [hw])]
        obtain hx | hx := stop
        · rw [hx]
        · rw [hx]
      exact ⟨_, drops, endWalk_only .., ⟨fun _ => rfl, fun _ => rfl⟩, endWalk_walks s (myCtx s) (myClu s) _⟩
    · have issues : exec (.pref o) s = .next (issueC u (memReq x .pref (effAddr s o.a o.disp) [] 0)) := by
        rw [execPref_on hp, if_neg (by simp [hw]), hx]
      exact ⟨_, _, issues, rfl, rfl, rfl, rfl, rfl⟩

end Machine
end Sys2Proof
end

section
/-! ### Bytes of a sector, and what a read takes -/
namespace Sys2Proof
namespace Machine

theorem joinDigits_drop (w : Nat) (l : List Nat) (k : Nat) : joinDigits w l / 2 ^ (w * k) = joinDigits w (l.drop k) := by
  induction k generalizing l with
  | zero => simp
  | succ k ih =>
    cases l with
    | nil => simp [joinDigits]
    | cons x l =>
      have e : joinDigits w (x :: l) = x % 2 ^ w + 2 ^ w * joinDigits w l := rfl
      have low : x % 2 ^ w / 2 ^ w = 0 := Nat.div_eq_of_lt (Nat.mod_lt _ (Nat.two_pow_pos w))
      rw [Nat.mul_add, Nat.mul_one, Nat.add_comm (w * k), Nat.pow_add, ← Nat.div_div_eq_div_mul, e,
        Nat.add_mul_div_left _ _ (Nat.two_pow_pos w), low, Nat.zero_add, ih, List.drop_succ_cons]
theorem joinDigits_take (w : Nat) (l : List Nat) (k : Nat) : joinDigits w l % 2 ^ (w * k) = joinDigits w (l.take k) := by
  induction k generalizing l with
  | zero => simp [joinDigits, Nat.mod_one]
  | succ k ih =>
    cases l with
    | nil => simp [joinDigits]
    | cons x l =>
      have e : joinDigits w (x :: l) = x % 2 ^ w + 2 ^ w * joinDigits w l := rfl
      have e' : joinDigits w (x :: l.take k) = x % 2 ^ w + 2 ^ w * joinDigits w (l.take k) := rfl
      have low : x % 2 ^ w / 2 ^ w = 0 := Nat.div_eq_of_lt (Nat.mod_lt _ (Nat.two_pow_pos w))
      rw [Nat.mul_add, Nat.mul_one, Nat.add_comm (w * k), Nat.pow_add, Nat.mod_mul, List.take_succ_cons, e, e',
        Nat.add_mul_mod_self_left, Nat.mod_mod, Nat.add_mul_div_left _ _ (Nat.two_pow_pos w), low, Nat.zero_add, ih]
/-- A run of bytes of a number is the number of that run. -/
theorem bitsOf_ofBytes (l : List Byte) (k n : Nat) : bitsOf (ofBytes l) (8 * k) (8 * n) = ofBytes ((l.drop k).take n) := by
  rw [bitsOf, ofBytes, joinDigits_drop, joinDigits_take, ofBytes, List.map_take, List.map_drop]
theorem ofBytes_lt (l : List Byte) : ofBytes l < 2 ^ (8 * l.length) := by
  have h := joinDigits_lt 8 (l.map (·.toNat))
  rwa [List.length_map] at h

/-- A sector as a reader sees it is the number of the bytes that it sees there (R362). -/
theorem sectorAs_toNat (s : State) (key sec : Nat) :
    (sectorAs s key sec).toNat = ofBytes ((List.range 64).map fun i => homeByte s key (sec * 64 + i)) := by
  have place : ∀ i ∈ List.range 64, (sec * 64 + i) / 64 = sec ∧ (sec * 64 + i) % 64 = i := fun i hi => by
    have := List.mem_range.mp hi
    omega
  have raw : (sectorRaw s sec).toNat = ofBytes ((List.range 64).map fun i => memGet s.mem (sec * 64 + i)) := by
    have short := ofBytes_lt (memRead s.mem (sec * 64) 64)
    rw [show (memRead s.mem (sec * 64) 64).length = 64 by rw [memRead, List.length_map, List.length_range], show 8 * 64 = 512 from rfl] at short
    exact (BitVec.toNat_ofNat ..).trans (Nat.mod_eq_of_lt short)
  have seen : ∀ v : V512, v.toNat = ofBytes ((List.range 64).map fun i => BitVec.ofNat 8 (elem 8 v i)) := fun v =>
    ((ofBytes_toBytes 64 v.toNat).trans (BitVec.toNat_mod_cancel v)).symm
  cases hk : amFind s.memKey sec with
  | none =>
    have bytes : ((List.range 64).map fun i => homeByte s key (sec * 64 + i)) = (List.range 64).map fun i => memGet s.mem (sec * 64 + i) :=
      List.map_congr_left fun i hi => by rw [homeByte, (place i hi).1, hk]
    rw [bytes, ← raw, sectorAs, hk]
  | some k =>
    by_cases hkey : k = key
    · have bytes : ((List.range 64).map fun i => homeByte s key (sec * 64 + i)) = (List.range 64).map fun i => memGet s.mem (sec * 64 + i) :=
        List.map_congr_left fun i hi => homeByte_of_key (by rw [(place i hi).1, hk, hkey])
      rw [bytes, ← raw, sectorAs, hk]
      exact congrArg BitVec.toNat (if_pos hkey)
    · have bytes : ((List.range 64).map fun i => homeByte s key (sec * 64 + i)) =
          (List.range 64).map fun i => BitVec.ofNat 8 (elem 8 (sectorAs s key sec) i) :=
        List.map_congr_left fun i hi => by
          rw [homeByte, (place i hi).1, (place i hi).2, hk]
          exact if_neg hkey
      rw [bytes, ← seen]
/-- Bytes within a sector that a reader sees there. -/
theorem bitsOf_sectorAs (s : State) (slot a n : Nat) (h : a % 64 + n ≤ 64) :
    bitsOf (sectorAs s (keyOf s slot) (a / 64)).toNat (8 * (a % 64)) (8 * n) = ofBytes (homeBytes s slot a n) := by
  rw [sectorAs_toNat, bitsOf_ofBytes]
  refine congrArg ofBytes (List.ext_getElem (by simp [homeBytes]; omega) fun i hi hj => ?_)
  simp only [homeBytes, List.getElem_take, List.getElem_drop, List.getElem_map, List.getElem_range]
  rw [show a / 64 * 64 + (a % 64 + i) = a + i by omega]
theorem sectorAs_congr {s t : State} (hm : t.mem = s.mem) (hk : t.memKey = s.memKey) (key sec : Nat) :
    sectorAs t key sec = sectorAs s key sec := by
  rw [sectorAs, sectorAs, hk, sectorRaw, sectorRaw, hm]

theorem elemOn_lane (pv : W16) (l : Nat) : elemOn pv 32 l = laneOn pv l := by
  rw [elemOn, if_pos (Nat.le_refl 32), Nat.mul_div_cancel_left l (by decide), laneOn]
theorem lanesOver_lanes (m : W16) (data : Nat) (old : V512) : LanesFrom m data old (lanesOver m data old) := by
  intro l hl
  rw [lane, lanesOver, elem_merge 32 m _ old l hl, elemOn_lane, bitsOf, Nat.mod_mod, lane]
/-- What a scalar load writes is a write of its register. -/
theorem rfSetS_wrote (s : State) (n : Nat) (v : W64) (h : n < 32) : WroteS s (withRf s fun f => rfSetS f n v) ⟨n, h⟩ v := by
  have same : (withRf s fun f => rfSetS f n v) = setS s ⟨n, h⟩ v := by
    have zero : (n = 0) = ((⟨n, h⟩ : Fin 32) = 0) := propext ⟨fun e => Fin.ext e, fun e => congrArg Fin.val e⟩
    simp only [setS, rfSetS, h, dif_pos, zero]
  rw [same]
  exact setS_wrote s ⟨n, h⟩ v

/-- A landing does not look at the accesses that wait. -/
theorem endC_landRead (r : CReq) (tag : Nat) (rd : Nat → Nat → Nat) (u : State) :
    endC (landRead r tag rd u) = landRead r tag rd { u with th := { u.th with creqs := u.th.creqs.drop 1 } } := by
  have writes (d : VDst) (v : V512) (u : State) : endC (writeVD u d v) = writeVD (endC u) d v := by
    cases d with
    | base n => rfl
    | ext i => rfl
    | queue n => rfl
  have olds (d : VDst) : oldV (endC u) d = oldV u d := by
    cases d with
    | base n => rfl
    | ext i => rfl
    | queue n => rfl
  change _ = landRead r tag rd (endC u)
  unfold landRead
  split
  · rfl
  · rw [writes, olds]
  · rw [writes, olds]
  · simp only [convWrite]
    rw [writes, olds]
    rfl
  · rfl
/-- A landing writes neither memory. -/
theorem landRead_memory (r : CReq) (tag : Nat) (rd : Nat → Nat → Nat) (u : State) :
    (landRead r tag rd u).mem = u.mem ∧ (landRead r tag rd u).host = u.host := by
  have writes (d : VDst) (v : V512) (u : State) : (writeVD u d v).mem = u.mem ∧ (writeVD u d v).host = u.host := by
    cases d with
    | base n => exact ⟨rfl, rfl⟩
    | ext i => exact ⟨rfl, rfl⟩
    | queue n => exact ⟨rfl, rfl⟩
  unfold landRead
  split
  · exact ⟨rfl, rfl⟩
  · exact writes ..
  · exact writes ..
  · exact writes ..
  · exact ⟨rfl, rfl⟩
/-- A landing leaves the focus where it is. -/
theorem landRead_here (r : CReq) (tag : Nat) (rd : Nat → Nat → Nat) (u : State) : (landRead r tag rd u).here = u.here := by
  have writes (d : VDst) (v : V512) (u : State) : (writeVD u d v).here = u.here := by
    cases d with
    | base n => rfl
    | ext i => rfl
    | queue n => rfl
  unfold landRead
  split
  · rfl
  · exact writes ..
  · exact writes ..
  · exact writes ..
  · rfl
theorem AccessOnly.host {s t : State} (h : AccessOnly s t) : t.host = s.host := by rw [h.1]
theorem AccessOnly.creqs {s t : State} (h : AccessOnly s t) : t.th.creqs = s.th.creqs := by rw [h.1]
/-- The oldest read that lands has taken its value. -/
theorem tookValue_of_landRead {s u : State} {r : CReq} {l : List CReq} {tag : Nat} {rd : Nat → Nat → Nat} (hu : AccessOnly s u)
    (hc : s.th.creqs = r :: l) : TookValue s (endC (landRead r tag rd u)) r l tag rd := by
  refine ⟨u, hu, ?_⟩
  rw [endC_landRead, hu.creqs, hc, List.drop_one, List.tail_cons]
  unfold landRead
  generalize r.kind = kind
  cases kind with
  | load t => exact fun h => rfSetS_wrote _ _ _ h
  | vload m d => exact ⟨_, writeVD_wrote _ _ _, lanesOver_lanes _ _ _⟩
  | gath w m offs d =>
    refine ⟨_, writeVD_wrote _ _ _, fun e he => ?_⟩
    rw [elem_merge w m _ _ e he]
    split
    · cases amFind offs e with
      | none => exact Nat.zero_mod _
      | some o => rfl
    · rfl
  | conv o m d => rfl
  | _ => rfl
theorem sameMemory_of_landRead {s u : State} {r : CReq} {tag : Nat} {rd : Nat → Nat → Nat} (hu : AccessOnly s u) (hm : u.mem = s.mem) :
    SameMemory s (endC (landRead r tag rd u)) := by
  obtain ⟨mem, host⟩ := landRead_memory r tag rd u
  refine ⟨fun a => ?_, fun a => ?_⟩
  · change memGet (landRead r tag rd u).mem a = _
    rw [mem, hm]
  · change memGet (landRead r tag rd u).host a = _
    rw [host, hu.host]

theorem amFind_mem {α : Type} {m : AMap α} {k : Nat} {v : α} (h : amFind m k = some v) : (k, v) ∈ m := by
  induction m with
  | nil => cases h
  | cons e m ih =>
    obtain ⟨j, x⟩ := e
    simp only [amFind] at h
    split at h
    · next hj =>
      cases h
      exact hj ▸ List.mem_cons_self
    · split at h
      · cases h
      · exact List.mem_cons_of_mem _ (ih h)
theorem amFind_amDel_same {α : Type} (m : AMap α) (k : Nat) : amFind (amDel m k) k = none := by
  cases h : amFind (amDel m k) k with
  | none => rfl
  | some v => simpa using (List.mem_filter.mp (amFind_mem h)).2
/-- Two readings that agree on what lies in one of a read's sectors make it land alike (R117, R157). -/
theorem landRead_congr {r : CReq} {tag tag' : Nat} {rd rd' : Nat → Nat → Nat} (fits : ReadFits r)
    (same : ∀ a n, a / 64 ∈ readSecs r → a % 64 + n ≤ 64 → rd a n = rd' a n) (tags : (∀ w m o d, r.kind ≠ .gath w m o d) → tag = tag')
    (u : State) : landRead r tag rd u = landRead r tag' rd' u := by
  have here : (∀ w m o d, r.kind ≠ .gath w m o d) → r.pa / 64 ∈ readSecs r := fun h => by
    unfold readSecs
    split
    · next e => exact absurd e (h _ _ _ _)
    · exact List.mem_singleton.mpr rfl
  unfold ReadFits at fits
  unfold landRead
  split
  · next t e =>
    rw [e] at fits
    rw [same _ _ (here (by simp [e])) fits]
  · next m d e =>
    rw [e] at fits
    rw [same _ _ (here (by simp [e])) (by rw [fits])]
  · next w m offs d e =>
    rw [e] at fits
    refine congrArg (fun f => writeVD u d (mergeElems w m f (oldV u d))) (funext fun n => ?_)
    cases ho : amFind offs n with
    | none => rfl
    | some o =>
      have mem := amFind_mem ho
      refine same _ _ ?_ (fits _ mem)
      rw [readSecs, e]
      exact List.mem_eraseDups.mpr (List.mem_map.mpr ⟨_, mem, rfl⟩)
  · next o m d e =>
    rw [e] at fits
    have nongather : ∀ w m o d, r.kind ≠ .gath w m o d := by simp [e]
    rw [tags nongather]
    refine congrArg (fun f => convWrite o m d f u) (funext fun n => ?_)
    simp only [convElem, convPlan, if_pos fits.1]
    rw [same _ _ (here nongather) fits.2]
  · rfl

/-! ### Reads at home -/

@[simp] theorem focus_here (s : State) : focus s s.here = s := if_pos rfl
theorem threadAt_here (s : State) : threadAt s s.here = s.th := if_pos rfl

/-- The state at home after the fills of a read's sectors (R254). -/
def readFilled (s : State) (ctx slot : Nat) (secs : List Nat) : State :=
  secs.foldl (fun s sec => fillSector (touchLine s slot (sec / 4)) ctx slot sec) s
theorem readFilled_quiet (s : State) (ctx slot : Nat) (secs : List Nat) : HomeQuiet s (readFilled s ctx slot secs) :=
  HomeQuiet.foldl (fun _ _ => (touchLine_quiet _ _ _).trans (fillSector_quiet _ _ _ _)) secs s
/-- Greatest lease end that a read at one program timestamp asks for (R250). -/
def leaseEnd (s : State) (pts : Nat) (secs : List Nat) : Nat :=
  ((secs.map (· / 4)).eraseDups).foldl (fun m l => max m (getLine s l).wts) pts + 64
/-- The copy of a sector that home leases. -/
def leasedCopy (s : State) (slot le sec : Nat) : L1Copy :=
  let ln := getLine s (sec / 4)
  { data := sectorAs s (keyOf s slot) sec, wts := ln.wts, le := le, tag := ln.tag, sc0 := BitVec.ofNat 8 (fieldOf ln.scales (16 * (sec % 4)) 8),
    sc1 := BitVec.ofNat 8 (fieldOf ln.scales (16 * (sec % 4) + 8) 8), slot := slot, born := s.cycle.toNat, leased := false }
theorem leaseHome_copies (s : State) (ctx slot pts : Nat) (secs : List Nat) :
    let t := readFilled s ctx slot secs
    (leaseHome s ctx slot pts secs).1 = secs.foldl (fun m sec => amSet m sec (leasedCopy t slot (leaseEnd t pts secs) sec)) [] := rfl
/-- The leases of a read leave the write times of every line. -/
theorem leaseHome_wts (s : State) (ctx slot pts : Nat) (secs : List Nat) (l : Nat) :
    (getLine (leaseHome s ctx slot pts secs).2 l).wts = (getLine (readFilled s ctx slot secs) l).wts := by
  refine foldl_keeps (fun u : State => (getLine u l).wts) (fun u x => ?_) _ _
  by_cases h : l = x
  · subst h
    rw [getLine_setLine_same]
  · rw [getLine_setLine_other _ _ h]

/-- Updates of a map with one function of the key, key by key. -/
theorem amFind_foldl_amSet {α : Type} (f : Nat → α) (l : List Nat) (m : AMap α) (k : Nat) :
    amFind (l.foldl (fun m x => amSet m x (f x)) m) k = if k ∈ l then some (f k) else amFind m k := by
  induction l generalizing m with
  | nil => rfl
  | cons x l ih =>
    rw [List.foldl_cons, ih]
    by_cases hl : k ∈ l
    · rw [if_pos hl, if_pos (List.mem_cons_of_mem _ hl)]
    · by_cases hx : k = x
      · rw [if_neg hl, hx, amFind_amSet_same, if_pos List.mem_cons_self]
      · rw [if_neg hl, amFind_amSet_other _ _ hx, if_neg fun h => (List.mem_cons.mp h).elim hx hl]
theorem keys_foldl_amSet {α : Type} (f : Nat → α) (l : List Nat) (m : AMap α) :
    ∀ e ∈ l.foldl (fun m x => amSet m x (f x)) m, e.1 ∈ l ∨ e ∈ m := by
  induction l generalizing m with
  | nil => exact fun e he => .inr he
  | cons x l ih =>
    intro e he
    obtain h | h := ih _ e he
    · exact .inl (List.mem_cons_of_mem _ h)
    · obtain h | h := mem_amSet h
      · exact .inr h
      · exact .inl (h ▸ List.mem_cons_self)
/-- What a copy that home leases shows of its sector. -/
theorem copyAt_leaseHome (s : State) (ctx slot pts : Nat) {secs : List Nat} {x : Nat} (hx : x ∈ secs) :
    copyAt (leaseHome s ctx slot pts secs).1 x =
      sectorOf (leasedCopy (readFilled s ctx slot secs) slot (leaseEnd (readFilled s ctx slot secs) pts secs) x) := by
  rw [copyAt, leaseHome_copies, amFind_foldl_amSet, if_pos hx]
/-- Its data are the bytes at home, while no U copy stands. -/
theorem leasedCopy_data {s : State} (n : s.NoUCopies) (ctx slot le : Nat) (secs : List Nat) (x : Nat) :
    (leasedCopy (readFilled s ctx slot secs) slot le x).data = sectorAs s (keyOf s slot) x := by
  have quiet := readFilled_quiet s ctx slot secs
  obtain ⟨-, hm, hk⟩ := quiet.2 n
  rw [leasedCopy, keyOf_congr quiet.1.1.ctxs]
  exact sectorAs_congr hm hk _ _

end Machine
end Sys2Proof
end

section
/-! ### O16: a C read -/
namespace Sys2Proof
namespace Machine

/-- A C load that no copy serves (R250, R252). -/
theorem loadC_home {s : State} {x : Xl} (h : amFind s.core.l1 (x.pa / 64) = none) :
    loadC s x = (copyAt (loadHome s x [x.pa / 64]).1 (x.pa / 64), (loadHome s x [x.pa / 64]).2) := by
  have missed : loadL1 s x = none := by rw [loadL1, h]
  rw [loadC, missed]
/-- What a load of one sector at home returns and keeps. -/
theorem loadC_atHome (s : State) (x : Xl) (n : s.NoUCopies) (h : amFind s.core.l1 (x.pa / 64) = none) :
    let r := loadC s x
    r.1.data.toNat = ofBytes (homeBytes s x.slot (x.pa / 64 * 64) 64) ∧ r.2.mem = s.mem ∧ r.2.memKey = s.memKey ∧
    s.th.pts ≤ r.2.th.pts ∧ (getLine r.2 (x.pa / 256)).wts ≤ r.2.th.pts ∧
    (if x.noL1 then amFind r.2.core.l1 (x.pa / 64) = none
     else ∃ c, amFind r.2.core.l1 (x.pa / 64) = some c ∧ c.data = r.1.data ∧ c.slot = x.slot ∧ c.le = max c.wts s.th.pts + 64) := by
  obtain ⟨-, hm, hk⟩ := (loadC_access s x).2.2 n
  let sec := x.pa / 64
  let t := readFilled s (myCtx s) x.slot [sec]
  let c := leasedCopy t x.slot (leaseEnd t s.th.pts [sec]) sec
  have copies : (leaseHome s (myCtx s) x.slot s.th.pts [sec]).1 = [(sec, c)] := rfl
  have quiet := (leaseHome_quiet s (myCtx s) x.slot s.th.pts [sec]).xlate
  have data : c.data = sectorAs s (keyOf s x.slot) sec := leasedCopy_data n ..
  have value : (loadC s x).1 = sectorOf c := by
    rw [loadC_home h]
    exact copyAt_leaseHome s (myCtx s) x.slot s.th.pts List.mem_cons_self
  have after : (loadC s x).2 = raisePts (keepCopies (leaseHome s (myCtx s) x.slot s.th.pts [sec]).2 x.noL1 [(sec, c)]) (max 0 c.wts) := by
    rw [loadC_home h]
    rfl
  have line : (getLine (leaseHome s (myCtx s) x.slot s.th.pts [sec]).2 (x.pa / 256)).wts = c.wts := by
    rw [leaseHome_wts, show x.pa / 256 = sec / 4 by omega]
    rfl
  refine ⟨?_, hm, hk, ?_, ?_, ?_⟩
  · rw [value]
    change c.data.toNat = _
    rw [data, sectorAs_toNat]
    rfl
  · rw [after]
    change _ ≤ max (leaseHome s (myCtx s) x.slot s.th.pts [sec]).2.th.pts (max 0 c.wts)
    rw [quiet.2.1]
    exact Nat.le_max_left ..
  · rw [after]
    change (getLine (leaseHome s (myCtx s) x.slot s.th.pts [sec]).2 (x.pa / 256)).wts ≤ max _ (max 0 c.wts)
    rw [line, Nat.zero_max]
    exact Nat.le_max_right ..
  · have kept : (loadC s x).2.core.l1 = if x.noL1 then amDel (leaseHome s (myCtx s) x.slot s.th.pts [sec]).2.core.l1 sec
        else l1Put (leaseHome s (myCtx s) x.slot s.th.pts [sec]).2.steps sec c (leaseHome s (myCtx s) x.slot s.th.pts [sec]).2.core.l1 := by
      rw [after]
      rfl
    rw [kept]
    split
    · exact amFind_amDel_same _ _
    · refine ⟨c, amFind_amSet_same _ _ _, by rw [value]; rfl, rfl, ?_⟩
      change max s.th.pts (getLine t (sec / 4)).wts + 64 = max (getLine t (sec / 4)).wts s.th.pts + 64
      rw [Nat.max_comm]

/-- The leave of an empty input buffer changes nothing of its cluster. -/
theorem leaveBuf_access {s : State} {k : Nat} (h : (getClu s k).inbuf = []) (g : Nat) : AccessOnly s (leaveBuf s k g) := by
  refine ⟨rfl, fun j => ?_, fun n => ⟨onClu_noU n k _ fun _ => rfl, rfl, rfl⟩⟩
  rw [leaveBuf, onClu, getClu_setClu]
  split
  · next e =>
    have left : (getClu s k).inbuf.filter (· != g) = (getClu s k).inbuf := by rw [h]; rfl
    rw [e, left]
  · rfl
/-- A line that a slot's read finds in its slice is not moved, while no U copy stands (R363). -/
theorem touchLine_hit {s : State} (n : s.NoUCopies) {slot l : Nat} (hb : (getLine s l).buffered = false) (hs : (getLine s l).slot = slot) :
    touchLine s slot l = s := by
  rw [touchLine, recallU_none n, alignSlot]
  exact if_neg (by simp [hb, hs])
/-- A read that home serves at once, merged with no other (R250, R283). -/
theorem serveRead_alone {s : State} {r : CReq} {l : List CReq} (hc : s.th.creqs = r :: l) (hm : r.merged = []) :
    let c := leaseHome s (myCtx s) r.slot s.th.pts (readSecs r)
    serveRead s.here r (readSecs r) s = endC (landRead r (copyAt c.1 (r.pa / 64)).tag (readCopies c.1)
      (raisePts (keepCopies c.2 r.noL1 c.1) (copiesWts c.1))) := by
  let c := leaseHome s (myCtx s) r.slot s.th.pts (readSecs r)
  have quiet := (leaseHome_quiet s (myCtx s) r.slot s.th.pts (readSecs r)).access
  have here : c.2.here = s.here := quiet.here
  have mine : c.1.filter (fun e => (readSecs r).contains e.1) = c.1 := by
    refine List.filter_eq_self.mpr fun e he => ?_
    have inSecs := (keys_foldl_amSet _ (readSecs r) [] e he).resolve_right List.not_mem_nil
    exact List.contains_iff_mem.mpr inSecs
  have first : serveRead s.here r (readSecs r) s = takeReply c.2 s.here c.1 := by
    rw [serveRead, hm, List.foldl_nil, threadAt_here, show coreNo s.here = myCore s from rfl, getCore_mine]
    rfl
  have landed (u : State) (hu : u.here = s.here) : focus u c.2.here = u := by rw [here, ← hu, focus_here]
  have hl : (landRead r (copyAt c.1 (r.pa / 64)).tag (readCopies c.1) (raisePts (keepCopies c.2 r.noL1 c.1) (copiesWts c.1))).here = s.here := by
    rw [landRead_here]
    exact here
  rw [first, takeReply, ← here, focus_here]
  dsimp only
  rw [quiet.creqs, hc]
  dsimp only
  rw [mine]
  exact landed _ hl

/-! ### O16: the oldest C access -/

theorem nodup_eraseDups (l : List Nat) : l.eraseDups.Nodup := by
  induction h : l.length using Nat.strong_induction_on generalizing l with
  | _ n ih =>
    cases l with
    | nil => exact List.nodup_nil
    | cons a l =>
      rw [List.eraseDups_cons, List.nodup_cons]
      have shorter := List.length_filter_le (fun b => !b == a) l
      refine ⟨fun ha => ?_, ih _ (by simp at h; omega) _ rfl⟩
      simpa using (List.mem_filter.mp (List.mem_eraseDups.mp ha)).2
theorem eraseDups_of_nodup {l : List Nat} (h : l.Nodup) : l.eraseDups = l := by
  induction l with
  | nil => rfl
  | cons a l ih =>
    obtain ⟨notMem, rest⟩ := List.nodup_cons.mp h
    have all : l.filter (fun b => !b == a) = l := List.filter_eq_self.mpr fun b hb => by
      have other : b ≠ a := fun e => notMem (e ▸ hb)
      simp [other]
    rw [List.eraseDups_cons, all, ih rest]
theorem readSecs_nodup (r : CReq) : (readSecs r).Nodup := by
  unfold readSecs
  split
  · exact nodup_eraseDups _
  · exact List.nodup_singleton _
/-- The sectors that a read merged with no other reads at home. -/
theorem homeSecs_alone (s : State) {r : CReq} (hm : r.merged = []) :
    (readSecs r ++ (headReads s r.merged).flatMap fun e => readSecs e.2).eraseDups = readSecs r := by
  rw [hm]
  change (readSecs r ++ []).eraseDups = _
  rw [List.append_nil, eraseDups_of_nodup (readSecs_nodup r)]
theorem foldl_fixed_of {α β : Type} {f : β → α → β} {s : β} {l : List α} (h : ∀ x ∈ l, f s x = s) : l.foldl f s = s := by
  induction l with
  | nil => rfl
  | cons x l ih =>
    rw [List.foldl_cons, h x List.mem_cons_self]
    exact ih fun y hy => h y (List.mem_cons_of_mem _ hy)
/-- A read whose lines stand in their slices with its sectors moves no line. -/
theorem touched_hits {s : State} {r : CReq} (n : s.NoUCopies) (hits : ReadHits s r) :
    (((readSecs r).map (· / 4)).eraseDups).foldl (fun s l => touchLine s r.slot l) s = s :=
  foldl_fixed_of fun x hx => by
    obtain ⟨sec, hsec, rfl⟩ := List.mem_map.mp (List.mem_eraseDups.mp hx)
    obtain ⟨notBuffered, slot, -⟩ := hits sec hsec
    exact touchLine_hit n notBuffered slot
theorem missing_hits {s : State} {r : CReq} (hits : ReadHits s r) : missing s (readSecs r) = [] :=
  List.filter_eq_nil_iff.mpr fun sec hsec => by
    obtain ⟨-, -, valid⟩ := hits sec hsec
    simp [valid]
theorem readFilled_hits {s : State} {r : CReq} (n : s.NoUCopies) (hits : ReadHits s r) (ctx : Nat) :
    readFilled s ctx r.slot (readSecs r) = s :=
  foldl_fixed_of fun sec hsec => by
    obtain ⟨notBuffered, slot, valid⟩ := hits sec hsec
    rw [touchLine_hit n notBuffered slot]
    exact if_pos valid

/-- What a read that home serves alone takes: the bytes at home, as its slot's reader sees them (R24, R362). -/
theorem serveRead_took {s : State} {r : CReq} {l : List CReq} (hc : s.th.creqs = r :: l) (hm : r.merged = []) (n : s.NoUCopies)
    (hits : ReadHits s r) (fits : ReadFits r) :
    TookValue s (serveRead s.here r (readSecs r) s) r l (getLine s (r.pa / 256)).tag (fun a n => ofBytes (homeBytes s r.slot a n)) ∧
    SameMemory s (serveRead s.here r (readSecs r) s) := by
  let c := leaseHome s (myCtx s) r.slot s.th.pts (readSecs r)
  let u := raisePts (keepCopies c.2 r.noL1 c.1) (copiesWts c.1)
  have home : HomeQuiet s c.2 := leaseHome_quiet ..
  have access : AccessOnly s u := (home.access.trans (keepCopies_access ..)).trans (raisePts_access ..)
  have filled := readFilled_hits n hits (myCtx s)
  have copy : ∀ x ∈ readSecs r, copyAt c.1 x = sectorOf (leasedCopy s r.slot (leaseEnd s s.th.pts (readSecs r)) x) := fun x hx => by
    have h := copyAt_leaseHome s (myCtx s) r.slot s.th.pts hx
    rwa [filled] at h
  have bytes : ∀ a n, a / 64 ∈ readSecs r → a % 64 + n ≤ 64 → readCopies c.1 a n = ofBytes (homeBytes s r.slot a n) := fun a n hx hn => by
    rw [readCopies, copy _ hx]
    exact bitsOf_sectorAs s r.slot a n hn
  have tag : (∀ w m o d, r.kind ≠ .gath w m o d) → (copyAt c.1 (r.pa / 64)).tag = (getLine s (r.pa / 256)).tag := fun h => by
    have first : r.pa / 64 ∈ readSecs r := by
      unfold readSecs
      split
      · next e => exact absurd e (h _ _ _ _)
      · exact List.mem_singleton.mpr rfl
    rw [copy _ first, ← Nat.div_div_eq_div_mul r.pa 64 4]
    rfl
  rw [serveRead_alone hc hm, landRead_congr fits bytes tag]
  exact ⟨tookValue_of_landRead access hc, sameMemory_of_landRead access (access.2.2 n).2.1⟩

/-- A read that finds its sectors is served, once its input buffer is empty (R255). -/
theorem readAtHome_hit {s : State} {r : CReq} (hm : r.merged = []) (ha : r.atHome = false) (n : s.NoUCopies)
    (empty : (getClu s (homeOf r.pa)).inbuf = []) (hits : ReadHits s r) :
    readAtHome s.here r s = some (serveRead s.here r (readSecs r) (leaveBuf s (homeOf r.pa) s.here)) := by
  rw [readAtHome, empty, ha, homeSecs_alone s hm]
  dsimp only
  rw [touched_hits n hits, missing_hits hits]
  rfl
/-- A line that lacks a sector lacks it after an access by any slot (R363). -/
theorem touchLine_missing {s : State} (n : s.NoUCopies) (slot l i : Nat) (h : bitOf (getLine s l).valid.toNat i = false) :
    bitOf (getLine (touchLine s slot l) l).valid.toNat i = false := by
  rw [touchLine, recallU_none n, alignSlot]
  split
  · rw [dropLine]
    rw [getLine_setLine_same]
    simp [bitOf]
  · exact h
/-- A sector that is missing from its line enters a miss table that has room and no entry of the line (R255). -/
theorem joinMiss_new {m : List Miss} {sec : Nat} (room : m.length < 64) (new : ∀ e ∈ m, e.line ≠ sec / 4) (ctx slot : Nat) :
    joinMiss ctx slot m sec = some (m ++ [⟨sec / 4, ctx, slot, [sec]⟩]) := by
  have absent : m.find? (·.line == sec / 4) = none := List.find?_eq_none.mpr fun e he => by simpa using new e he
  rw [joinMiss, absent]
  exact if_pos room
theorem readAtHome_miss {s : State} {r : CReq} (hm : r.merged = []) (ha : r.atHome = false) (n : s.NoUCopies)
    (empty : (getClu s (homeOf r.pa)).inbuf = []) (one : readSecs r = [r.pa / 64])
    (absent : bitOf (getLine s (r.pa / 256)).valid.toNat (r.pa / 64 % 4) = false)
    (room : (getClu s (homeOf r.pa)).miss.length < 64) (new : ∀ e ∈ (getClu s (homeOf r.pa)).miss, e.line ≠ r.pa / 256) :
    readAtHome s.here r s = some (onClu (arrived (leaveBuf s (homeOf r.pa) s.here) s.here) (homeOf r.pa) fun c =>
      { c with miss := (getClu s (homeOf r.pa)).miss ++ [⟨r.pa / 256, myCtx s, r.slot, [r.pa / 64]⟩] }) := by
  have line : r.pa / 64 / 4 = r.pa / 256 := Nat.div_div_eq_div_mul ..
  have miss : missing ((([r.pa / 64].map (· / 4)).eraseDups).foldl (fun s l => touchLine s r.slot l) s) [r.pa / 64] = [r.pa / 64] := by
    have h := touchLine_missing n r.slot (r.pa / 256) (r.pa / 64 % 4) absent
    rw [← line] at h
    exact List.filter_cons_of_pos (by rw [List.map_cons, List.map_nil]; exact congrArg Bool.not h)
  have join : joinAll (myCtx s) r.slot (getClu s (homeOf r.pa)).miss [r.pa / 64] = _ :=
    joinMiss_new room (by rwa [line]) (myCtx s) r.slot
  rw [readAtHome, empty, ha, homeSecs_alone s hm, one]
  dsimp only
  rw [miss, show coreNo s.here = myCore s from rfl, getCore_mine, show s.core.ctx.getD 0 = myCtx s from rfl, join, line]
  rfl
theorem evAccess_pool {s : State} {r : CReq} {l : List CReq} (hc : s.th.creqs = r :: l) (hp : r.pool = true) :
    evAccess s.here s = some (focus (poolAccess r s) s.here) := by
  rw [evAccess, focus_here, hc]
  exact if_pos hp
/-- A read from memory that has neither gone stale nor left for home takes a copy of the L1, or goes home (R250, R280). -/
theorem evAccess_read {s : State} {r : CReq} {l : List CReq} (hc : s.th.creqs = r :: l) (hr : r.kind.isRead = true) (hp : r.pool = false)
    (hs : r.stale = false) (hj : r.joined = false) (hm : r.merged = []) (ha : r.atHome = false) :
    (∀ t, readL1 r s = some t → evAccess s.here s = some (focus t s.here)) ∧
    (readL1 r s = none → evAccess s.here s = readAtHome s.here r s) := by
  refine ⟨fun t h => ?_, fun h => ?_⟩ <;>
  · rw [evAccess, focus_here, hc]
    simp only [hp, hs, hr, hj, hm, ha, h, List.isEmpty_nil, Bool.not_true, Bool.not_false, Bool.and_self, Bool.or_self, Bool.false_eq_true,
      if_false, if_true]

/-- What an access answers when its read lands. -/
theorem focus_landRead {s u : State} (h : AccessOnly s u) (r : CReq) (tag : Nat) (rd : Nat → Nat → Nat) :
    focus (endC (landRead r tag rd u)) s.here = endC (landRead r tag rd u) := by
  have here : (endC (landRead r tag rd u)).here = s.here := (landRead_here r tag rd u).trans h.here
  rw [← here, focus_here]
/-- A read of the pool window takes the bytes of the pool (R242). -/
theorem evAccess_pool_took {s : State} {r : CReq} {l : List CReq} (hc : s.th.creqs = r :: l) (hr : r.kind.isRead = true) (hp : r.pool = true) :
    ∃ t, evAccess s.here s = some t ∧ TookValue s t r l 0 (fun a n => ofBytes (poolBytesAt s.core.pool a n)) ∧ SameMemory s t := by
  have access := poolLoaded_access s
  have lands : poolAccess r s = endC (landRead r 0 (fun a n => ofBytes (poolBytesAt s.core.pool a n)) (poolLoaded s)) :=
    congrArg endC (if_pos hr)
  refine ⟨_, ?_, tookValue_of_landRead access hc, sameMemory_of_landRead access rfl⟩
  rw [evAccess_pool hc hp, lands, focus_landRead access]
theorem loadL1_mem {s u : State} {x : Xl} {v : Sector} (h : loadL1 s x = some (v, u)) : u.mem = s.mem := by
  rw [loadL1] at h
  split at h
  · split at h
    · cases h
      rfl
    · cases h
  · cases h
theorem readL1_some {s u : State} {r : CReq} {v : Sector} (h : loadL1 s ⟨r.pa, r.slot, r.noL1, false⟩ = some (v, u))
    (notGather : ∀ w m o d, r.kind ≠ .gath w m o d) :
    readL1 r s = some (endC (landRead r v.tag (fun a n => sectorNat v (a % 64) n) u)) := by
  unfold readL1
  split
  · next e => exact absurd e (notGather _ _ _ _)
  · rw [h]
    rfl
theorem onThread_here (s : State) (f : Thread → Thread) : onThread s s.here f = { s with th := f s.th } := by
  rw [onThread, threadAt_here, setThread, if_pos rfl]
theorem arrived_here {s : State} {r : CReq} {l : List CReq} (hc : s.th.creqs = r :: l) :
    arrived s s.here = { s with th := { s.th with creqs := { r with atHome := true } :: l } } := by
  rw [arrived, onThread_here, hc]
/-- The state of a read that has entered the miss table of its slice (R255). -/
theorem missed_state {s : State} {r : CReq} {l : List CReq} (hc : s.th.creqs = r :: l) (k : Nat) (m : List Miss) :
    let t := onClu (arrived (leaveBuf s k s.here) s.here) k fun c => { c with miss := m }
    SameMemory s t ∧ t.th = { s.th with creqs := { r with atHome := true } :: l } ∧ (getClu t k).miss = m := by
  have waits := arrived_here (s := leaveBuf s k s.here) hc
  rw [show (leaveBuf s k s.here).here = s.here from rfl] at waits
  rw [waits]
  refine ⟨⟨fun _ => rfl, fun _ => rfl⟩, rfl, ?_⟩
  rw [onClu, getClu_setClu, if_pos rfl]

/-- Settles O16, part by part: a load at home, a read of the pool, of an L1 copy, of home, and a miss. -/
theorem aLoadMissReturnsTheBytesAtHome : Obligations.ALoadMissReturnsTheBytesAtHome := by
  refine ⟨fun s x n h => loadC_atHome s x n h, fun s r l hc hr => ⟨evAccess_pool_took hc hr, fun hp hs hj hm ha => ?_⟩⟩
  obtain ⟨fromL1, goesHome⟩ := evAccess_read hc hr hp hs hj hm ha
  refine ⟨fun v u h notGather => ?_, fun noCopy n empty => ⟨fun hits fits => ?_, fun one absent room new => ?_⟩⟩
  · have access := loadL1_access h
    refine ⟨_, ?_, tookValue_of_landRead access hc, sameMemory_of_landRead access (loadL1_mem h)⟩
    rw [fromL1 _ (readL1_some h notGather), focus_landRead access]
  · have quiet : AccessOnly s (leaveBuf s (homeOf r.pa) s.here) := leaveBuf_access empty s.here
    obtain ⟨⟨u, access, took⟩, mem⟩ := serveRead_took (s := leaveBuf s (homeOf r.pa) s.here) hc hm (quiet.2.2 n).1 hits fits
    exact ⟨_, (goesHome noCopy).trans (readAtHome_hit hm ha n empty hits), ⟨u, quiet.trans access, took⟩, mem⟩
  · obtain ⟨mem, th, entry⟩ := missed_state hc (homeOf r.pa)
      ((getClu s (homeOf r.pa)).miss ++ [⟨r.pa / 256, myCtx s, r.slot, [r.pa / 64]⟩])
    exact ⟨_, (goesHome noCopy).trans (readAtHome_miss hm ha n empty one absent room new), mem, th, entry⟩

end Machine
end Sys2Proof
end

section
/-! ### O3: turns of the issue port (R18) -/
namespace Sys2Proof
namespace Machine

/-- The focus moves to a thread set as it stood. -/
theorem focus_th (s : State) (g : Nat) : (focus s g).th = threadAt s g := by
  rw [focus]
  split
  · next h => rw [h, threadAt_here]
  · next h =>
    rw [threadAt, if_neg h]
    dsimp only
    split
    · next hc =>
      have other : g % 4 ≠ s.here % 4 := by unfold coreNo at hc; omega
      rw [slotOf_setSlot _ _ (Nat.mod_lt _ (by decide)) (Nat.mod_lt _ (by decide)), if_neg other, getCore, if_pos hc]
    · next hc => rw [amGet_amSet_other _ _ _ hc, getCore, if_neg hc]
/-- Thread sets that do not issue leave the search to those that come after them. -/
theorem firstToIssue_append {l : List Nat} {s c : State} (l' : List Nat) (h : firstToIssue l s = (none, c)) :
    firstToIssue (l ++ l') s = firstToIssue l' c := by
  induction l generalizing s with
  | nil =>
    cases h
    rfl
  | cons g l ih =>
    rw [List.cons_append]
    rw [firstToIssue] at h ⊢
    by_cases hm : mayIssue (threadAt s g) = true
    · rw [if_pos hm] at h ⊢
      cases ht : turn s g with
      | next t =>
        rw [ht] at h
        dsimp only at h ⊢
        by_cases hs : t.th.res = .stalled
        · rw [if_pos hs] at h ⊢
          exact ih h
        · rw [if_neg hs] at h
          cases h
      | fault f =>
        rw [ht] at h
        cases h
      | refused f =>
        rw [ht] at h
        cases h
    · rw [if_neg hm] at h ⊢
      exact ih h
/-- A step of an agenda that names a core is a turn of its issue port. -/
theorem step_issue {s : State} {core : Nat} {rest : List Turn} (up : s.boot ≠ .failed) (ha : s.agenda = .issue core :: rest) :
    step s = issueCore (judgeYields (passTime { s with agenda := rest })) core := by
  unfold step
  rw [ha]
  split
  · next h _ => exact absurd h up
  · next h _ => exact absurd h up
  · next e _ _ =>
    cases e
    rfl
  · next e _ => cases e
/-- When the thread sets before one do not issue, and it may, its turn decides the issue of its core. -/
theorem issueCore_turn {d c : State} {core n g : Nat} (hg : (coreOrder d core)[n]? = some g)
    (before : firstToIssue ((coreOrder d core).take n) d = (none, c)) (may : mayIssue (focus c g).th = true) :
    (∀ t, turn c g = .next t → t.th.res ≠ .stalled → issueCore d core = .next t) ∧
    (∀ f, turn c g = .fault f → issueCore d core = .fault f) := by
  obtain ⟨hn, rfl⟩ := List.getElem?_eq_some_iff.mp hg
  have search : firstToIssue (coreOrder d core) d = firstToIssue ((coreOrder d core)[n] :: (coreOrder d core).drop (n + 1)) c := by
    rw [← List.drop_eq_getElem_cons hn, ← firstToIssue_append _ before, List.take_append_drop]
  rw [focus_th] at may
  refine ⟨fun t ht hs => ?_, fun f hf => ?_⟩
  · rw [issueCore, issuedOr, search, firstToIssue, if_pos may, ht]
    exact congrArg (fun r : Option Out × State => r.1.getD (.next r.2)) (if_neg hs)
  · rw [issueCore, issuedOr, search, firstToIssue, if_pos may, hf]
    rfl

/-! #### What ends a turn -/

@[simp] theorem setThread_th_other {s : State} {g : Nat} (x : Thread) (h : g ≠ s.here) : (setThread s g x).th = s.th := by
  rw [setThread, if_neg h, setCore_th]
@[simp] theorem setThread_here (s : State) (g : Nat) (x : Thread) : (setThread s g x).here = s.here := by
  unfold setThread
  split
  · rfl
  · exact setCore_here ..
theorem releaseYields_th (s : State) : (releaseYields s).th = s.th := by
  have kept : ∀ (l : List Nat) (t : State), t.here = s.here → (l.foldl (fun t i =>
      if 4 * myCore t + i ≠ s.here ∧ (threadAt t (4 * myCore t + i)).yields.contains s.here then
        setThread t (4 * myCore t + i) { threadAt t (4 * myCore t + i) with
          yields := (threadAt t (4 * myCore t + i)).yields.filter (· != s.here) } else t) t).th = t.th := by
    intro l
    induction l with
    | nil => exact fun t _ => rfl
    | cons i l ih =>
      intro t ht
      rw [List.foldl_cons]
      split
      · next h => rw [ih _ (by rw [setThread_here, ht]), setThread_th_other _ (by rw [ht]; exact h.1)]
      · exact ih t ht
  exact kept _ s rfl
theorem release_th (s : State) : (release s).th = s.th := by
  have e := (mergeAllU_step s (myClu s)).1.1
  change (mergeAllU s (myClu s)).th = s.th
  rw [e]
theorem haltDone_res (s : State) : (haltDone s).th.res = s.th.res := by
  have kept : (release s).th.res = s.th.res := by rw [release_th]
  unfold haltDone
  dsimp only
  split
  · exact kept
  · exact kept
theorem enterHalt_res (s : State) (pc : W64) (solo : Bool) (pt : Option W64) : (enterHalt s pc solo pt).th.res = .trapped := by
  unfold enterHalt
  dsimp only
  split
  · rw [haltDone_res]
    rfl
  · rfl
/-- The end of a single step never leaves the thread set stalled that was not. -/
theorem endStep_ready {s : State} (h : s.th.res ≠ .stalled) : (endStep s).th.res ≠ .stalled := by
  unfold endStep
  split
  · split
    · rw [enterHalt_res]
      decide
    · rw [enterHalt_res]
      decide
    · exact h
    · exact h
  · exact h
/-- A thread set that waits has not ended a single step (R396). -/
theorem endStep_waits {s : State} (h : s.th.res = .stalled ∨ s.th.res = .begun) : endStep s = s := by
  unfold endStep
  refine if_neg ?_
  obtain h | h := h <;> simp [h]
/-- A turn whose issue is refused for now, or waits at its address. -/
theorem turn_waits {c t : State} {g : Nat} (may : canIssue (focus c g) = true) (h : tryIssue (focus c g) = .next t)
    (hr : t.th.res = .stalled ∨ t.th.res = .begun) : turn c g = .next t := by
  have goesOn : ¬(t.th.res = .issued ∨ t.th.res = .trapped) := by
    obtain hr | hr := hr <;> simp [hr]
  rw [turn, if_pos may, h]
  dsimp only
  rw [if_neg goesOn, endStep_waits hr]
/-- What follows the issue of thread set `g` in state `u` (R18, R116, R396). -/
def turnEnds (u : State) (g : Nat) (t : State) : State :=
  endStep (releaseYields (withTh (withCore t fun c => { c with lastTs := g % 4 }) fun h => { h with yields := h.yields.filter (isReady u) }))
theorem turn_issues {c t : State} {g : Nat} (may : canIssue (focus c g) = true) (h : tryIssue (focus c g) = .next t)
    (hr : t.th.res = .issued ∨ t.th.res = .trapped) :
    turn c g = .next (turnEnds (focus c g) g t) ∧ (turnEnds (focus c g) g t).th.res ≠ .stalled := by
  refine ⟨?_, endStep_ready ?_⟩
  · rw [turn, if_pos may, h]
    dsimp only
    rw [if_pos hr]
    rfl
  · rw [releaseYields_th]
    change t.th.res ≠ _
    obtain hr | hr := hr <;> simp [hr]
theorem turn_faults {c : State} {f : Fault} {g : Nat} (may : canIssue (focus c g) = true) (h : tryIssue (focus c g) = .fault f) :
    turn c g = .fault f := by
  rw [turn, if_pos may, h]

/-! #### The issue of what a line holds -/

theorem slotOfPc_eq {pc : W64} (h : instrForm pc = true) : slotOfPc pc = fieldOf pc 0 3 := by
  simp only [instrForm, Bool.and_eq_true, decide_eq_true_eq] at h
  exact Nat.min_eq_left h.2
/-- A fetch whose line and slots pass their parity issues from the line (R46, R48). -/
theorem tryIssue_line {u v : State} {x : Xl} (form : instrForm u.th.pc = true) (out : inPoolWindow u.th.pc.toNat = false)
    (hx : xlateCore u .fetch false (u.th.pc.toNat / 64 * 64) = .ok x v) (lpar : lparOk (loadK v x).1.data = true)
    (spar : sparOk (loadK v x).1.data (fieldOf u.th.pc 0 3) = true)
    (spar' : pairsAt u (loadK v x).1.data (fieldOf u.th.pc 0 3) = true → sparOk (loadK v x).1.data (fieldOf u.th.pc 0 3 + 1) = true) :
    tryIssue u = issueLine (loadK v x).2 u.th.pc (loadK v x).1.data := by
  have fetched : fetchLine u u.th.pc.toNat = .ok (loadK v x).1.data (loadK v x).2 := by
    rw [fetchLine, if_neg (by simp [out]), hx]
  have passes : (!pairsAt u (loadK v x).1.data (fieldOf u.th.pc 0 3) || sparOk (loadK v x).1.data (fieldOf u.th.pc 0 3 + 1)) = true := by
    cases h : pairsAt u (loadK v x).1.data (fieldOf u.th.pc 0 3) with
    | false => rfl
    | true => exact spar' h
  rw [tryIssue]
  dsimp only
  rw [if_neg (by simp [form]), checkedLine, fetched, slotOfPc_eq form]
  simp only [lpar, spar, passes, Bool.and_self, if_true]
theorem fetched_th {u v : State} {x : Xl} {acc : Acc} {hb : Bool} {va : Nat} (hx : xlateCore u acc hb va = .ok x v) :
    (loadK v x).2.th = { u.th with pts := (loadK v x).2.th.pts } := by
  have access := (xlateCore_only hx).1.trans (loadK_access v x)
  rw [access.1]
theorem pairsAt_congr {s t : State} (h : t.th.solo = s.th.solo) (line : V512) (k : Nat) : pairsAt t line k = pairsAt s line k := by
  rw [pairsAt, pairsAt, h]
theorem lineWord_reserved {line : V512} (h : line.toNat / 2 ^ 489 % 2 ^ 17 = 0) : bitsOf (lineWord line) 9 17 = 0 := by
  unfold bitsOf lineWord bitsOf
  omega
/-- The issue of a slot that decodes and stands alone. -/
theorem issueLine_one {s : State} {pc : W64} {line : V512} {i : Instr} (form : instrForm pc = true)
    (res : line.toNat / 2 ^ 489 % 2 ^ 17 = 0) (alone : pairsAt s line (fieldOf pc 0 3) = false)
    (dec : decodeWord (slotWord line (fieldOf pc 0 3)) = .ok i) :
    issueLine s pc line = issueOne s pc (Raw.ofWord (slotWord line (fieldOf pc 0 3))) i := by
  rw [decodeWord] at dec
  rw [issueLine]
  dsimp only
  rw [slotOfPc_eq form, if_neg (by rw [lineWord_reserved res]; simp), dec]
  dsimp only
  rw [if_neg (by rw [alone]; exact Bool.false_ne_true)]
/-- The issue of two slots that decode and are a legal pair. -/
theorem issueLine_pair {s : State} {pc : W64} {line : V512} {a b : Instr} (form : instrForm pc = true)
    (res : line.toNat / 2 ^ 489 % 2 ^ 17 = 0) (pair : pairsAt s line (fieldOf pc 0 3) = true)
    (da : decodeWord (slotWord line (fieldOf pc 0 3)) = .ok a) (db : decodeWord (slotWord line (fieldOf pc 0 3 + 1)) = .ok b)
    (legal : pairLegal s line (fieldOf pc 0 3) (Raw.ofWord (slotWord line (fieldOf pc 0 3)))
      (Raw.ofWord (slotWord line (fieldOf pc 0 3 + 1))) = true) :
    issueLine s pc line = issuePair s pc (Raw.ofWord (slotWord line (fieldOf pc 0 3))) (Raw.ofWord (slotWord line (fieldOf pc 0 3 + 1))) a b := by
  rw [decodeWord] at da db
  rw [issueLine]
  dsimp only
  rw [slotOfPc_eq form, if_neg (by rw [lineWord_reserved res]; simp), da]
  dsimp only
  rw [if_pos pair, db]
  dsimp only
  rw [if_pos legal]

section
variable {s t : State} {pc : W64} {r ra rb : Raw} {i a b : Instr}

theorem issueOne_fault {f : Fault} (sb : scoreboard s r i = false)
    (h : exec i (atInstr s pc (nextAddr pc) s.th.solo false) = .fault f) : issueOne s pc r i = .fault f := by
  rw [issueOne, if_neg (by simp [sb])]
  dsimp only
  rw [h]
theorem issueOne_next (sb : scoreboard s r i = false) (h : exec i (atInstr s pc (nextAddr pc) s.th.solo false) = .next t) :
    (t.th.res = .stalled → issueOne s pc r i = .next (stalled s)) ∧ (t.th.res = .begun → issueOne s pc r i = .next (holdAt s t)) ∧
    (t.th.res = .issued ∨ t.th.res = .trapped → issueOne s pc r i = .next (afterInstr i s.th.ptgt (nextAddr pc) t)) := by
  refine ⟨fun e => ?_, fun e => ?_, fun e => ?_⟩
  all_goals
    rw [issueOne, if_neg (by simp [sb])]
    dsimp only
    rw [h]
    dsimp only
  · rw [e]
  · rw [e]
  · obtain e | e := e <;> rw [e]
/-- The first slot of a pair as it is found (R114). -/
def pairFirst (s : State) (pc : W64) : State := withTh (atInstr s pc (nextAddr (pc + 1)) false true) fun t => { t with ptgt := none }
/-- The second slot of a pair as the first leaves it, on the registers and the pool from before the pair (R45). -/
def pairSecond (s : State) (b : Instr) (pc : W64) (t : State) : State :=
  withTh (atInstr t (pc + 1) (nextAddr (pc + 1)) true true) fun h =>
    { h with snap := some (s.th.rf, s.core.pool, if isEnd b then t.core.mnum else s.core.mnum), ptgt := t.th.ptgt, xfer := none }
theorem issuePair_stalled (sa : scoreboard s ra a = false) (sb : scoreboard s rb b = false) (h : exec a (pairFirst s pc) = .next t)
    (ht : t.th.res = .stalled) : issuePair s pc ra rb a b = .next (stalled s) := by
  rw [pairFirst] at h
  rw [issuePair, if_neg (by simp [sa, sb])]
  dsimp only
  rw [h]
  dsimp only
  rw [ht]
theorem issuePair_second {z : State} (sa : scoreboard s ra a = false) (sb : scoreboard s rb b = false)
    (h : exec a (pairFirst s pc) = .next t) (ht : t.th.res = .issued) (ra' : isReturn a = false) (hz : exec b (pairSecond s b pc t) = .next z) :
    (z.th.res = .stalled → isEnd b = false → issuePair s pc ra rb a b = .next (stalled s)) ∧
    (z.th.res = .issued → issuePair s pc ra rb a b = .next (afterInstr b t.th.ptgt (nextAddr (pc + 1)) z)) := by
  rw [pairFirst] at h
  rw [pairSecond] at hz
  refine ⟨fun e ne => ?_, fun e => ?_⟩
  · rw [issuePair, if_neg (by simp [sa, sb])]
    dsimp only
    rw [h]
    dsimp only
    rw [ht]
    dsimp only
    rw [ra', if_neg Bool.false_ne_true, hz]
    dsimp only
    rw [if_pos e, ne]
  · rw [issuePair, if_neg (by simp [sa, sb])]
    dsimp only
    rw [h]
    dsimp only
    rw [ht]
    dsimp only
    rw [ra', if_neg Bool.false_ne_true, hz]
    dsimp only
    rw [if_neg (by simp [e]), if_neg (by simp)]
end

/-- The turn of the thread set that comes first is the step. -/
theorem step_turn {s c : State} {core n g : Nat} {rest : List Turn} (up : s.boot ≠ .failed) (ha : s.agenda = .issue core :: rest)
    (hg : (coreOrder (judgeYields (passTime { s with agenda := rest })) core)[n]? = some g)
    (before : firstToIssue ((coreOrder (judgeYields (passTime { s with agenda := rest })) core).take n)
      (judgeYields (passTime { s with agenda := rest })) = (none, c)) (may : mayIssue (focus c g).th = true) :
    (∀ t, turn c g = .next t → t.th.res ≠ .stalled → step s = .next t) ∧ (∀ f, turn c g = .fault f → step s = .fault f) := by
  rw [step_issue up ha]
  exact issueCore_turn hg before may
theorem holdAt_at {w t : State} {pc : W64} (h : w.th.pc = pc) : holdAt w t = withTh t fun h =>
    { h with pc := pc, solo := w.th.solo, ptgt := w.th.ptgt, xfer := w.th.xfer, slot1 := false, inPair := false } := by
  subst h
  rfl
theorem afterInstr_res (i : Instr) (p : Option W64) (seq : W64) (s : State) : (afterInstr i p seq s).th.res = s.th.res := by
  unfold afterInstr withTh
  dsimp only
  split
  · split
    · rfl
    · split
      · split <;> rfl
      · rfl
  · rfl

/-- What a turn of an instruction that issues alone answers, once its line has been fetched: `w` is the state after the fetch. -/
theorem turn_one {c w : State} {g : Nat} {r : Raw} {i : Instr} (may : canIssue (focus c g) = true)
    (issue : tryIssue (focus c g) = issueOne w (focus c g).th.pc r i) (hpc : w.th.pc = (focus c g).th.pc) (sb : scoreboard w r i = false) :
    let pc := (focus c g).th.pc
    (∀ f, exec i (atInstr w pc (nextAddr pc) w.th.solo false) = .fault f → turn c g = .fault f) ∧
    ∀ t, exec i (atInstr w pc (nextAddr pc) w.th.solo false) = .next t →
      (t.th.res = .stalled → turn c g = .next (stalled w)) ∧
      (t.th.res = .begun → turn c g = .next (withTh t fun h =>
        { h with pc := pc, solo := w.th.solo, ptgt := w.th.ptgt, xfer := w.th.xfer, slot1 := false, inPair := false })) ∧
      (t.th.res = .issued ∨ t.th.res = .trapped →
        turn c g = .next (turnEnds (focus c g) g (afterInstr i w.th.ptgt (nextAddr pc) t)) ∧
        (turnEnds (focus c g) g (afterInstr i w.th.ptgt (nextAddr pc) t)).th.res ≠ .stalled) := by
  intro pc
  refine ⟨fun f hf => turn_faults may (issue.trans (issueOne_fault sb hf)), fun t ht => ?_⟩
  obtain ⟨stalls, begins, issues⟩ := issueOne_next sb ht
  refine ⟨fun e => turn_waits may (issue.trans (stalls e)) (.inl rfl), fun e => ?_, fun e => ?_⟩
  · rw [← holdAt_at hpc]
    exact turn_waits may (issue.trans (begins e)) (.inr e)
  · exact turn_issues may (issue.trans (issues e)) (by rwa [afterInstr_res])
/-- What the turn of a legal pair answers. -/
theorem turn_pair {c w : State} {g : Nat} {ra rb : Raw} {a b : Instr} (may : canIssue (focus c g) = true)
    (issue : tryIssue (focus c g) = issuePair w (focus c g).th.pc ra rb a b) (sa : scoreboard w ra a = false) (sb : scoreboard w rb b = false) :
    let pc := (focus c g).th.pc
    ∀ t, exec a (pairFirst w pc) = .next t →
      (t.th.res = .stalled → turn c g = .next (stalled w)) ∧
      (isReturn a = false → t.th.res = .issued → ∀ z, exec b (pairSecond w b pc t) = .next z →
        (z.th.res = .stalled → isEnd b = false → turn c g = .next (stalled w)) ∧
        (z.th.res = .issued → turn c g = .next (turnEnds (focus c g) g (afterInstr b t.th.ptgt (nextAddr (pc + 1)) z)) ∧
          (turnEnds (focus c g) g (afterInstr b t.th.ptgt (nextAddr (pc + 1)) z)).th.res ≠ .stalled)) := by
  intro pc t ht
  refine ⟨fun e => turn_waits may (issue.trans (issuePair_stalled sa sb ht e)) (.inl rfl), fun ret e z hz => ?_⟩
  obtain ⟨stalls, issues⟩ := issuePair_second sa sb ht e ret hz
  exact ⟨fun e ne => turn_waits may (issue.trans (stalls e ne)) (.inl rfl),
    fun e => turn_issues may (issue.trans (issues e)) (.inl (by rwa [afterInstr_res]))⟩

/-- Settles O3: the step is the turn of the thread set, its turn the issue of what its line holds, and that issue runs `exec`. -/
theorem stepRunsTheDecodedInstruction : Obligations.StepRunsTheDecodedInstruction := by
  intro s core n g rest c v x up ha d hg before u pc k r line w seq ends may drain gated form out hx lpar spar res
  have canI : canIssue u = true := by simp only [canIssue, may, drain, gated, Bool.not_false, Bool.true_or, Bool.and_self]
  have th : w.th = { u.th with pts := w.th.pts } := fetched_th hx
  have hpc : w.th.pc = pc := by rw [th]
  have solo : w.th.solo = u.th.solo := by rw [th]
  obtain ⟨stepNext, stepFault⟩ := step_turn up ha hg before may
  refine ⟨fun nu absent => ?_, fun i alone dec sb => ?_, fun a b pair spar' da db legal sa sb t ht => ?_⟩
  · have missed : loadK v x = loadC v x := by rw [loadK, absent]
    have data := (loadC_atHome v x nu absent).1
    rwa [← missed] at data
  · have issue := (tryIssue_line form out hx lpar spar fun h => absurd (alone.symm.trans h) Bool.false_ne_true).trans
      (issueLine_one form res ((pairsAt_congr solo line k).trans alone) dec)
    obtain ⟨faults, nexts⟩ := turn_one canI issue hpc sb
    refine ⟨fun f hf => stepFault f (faults f hf), fun t ht => ?_⟩
    obtain ⟨stalls, begins, issues⟩ := nexts t ht
    refine ⟨stalls, fun e => stepNext _ (begins e) ?_, fun e => stepNext _ (issues e).1 (issues e).2⟩
    change t.th.res ≠ _
    rw [e]
    decide
  · have issue := (tryIssue_line form out hx lpar spar fun _ => spar').trans
      (issueLine_pair form res ((pairsAt_congr solo line k).trans pair) da db legal)
    obtain ⟨stalls, seconds⟩ := turn_pair canI issue sa sb t ht
    refine ⟨stalls, fun ret e z hz => ?_⟩
    obtain ⟨stalls', issues⟩ := seconds ret e z hz
    exact ⟨stalls', fun e => stepNext _ (issues e).1 (issues e).2⟩

end Machine
end Sys2Proof
end

section
/-! ### Launch entries and levels of a context -/
namespace Sys2Proof
namespace Machine

theorem getCtx_setCtx_if (s : State) (c d : Nat) (x : Context) : getCtx (setCtx s c x) d = if d = c then x else getCtx s d := by
  split
  · next h => rw [h, getCtx_setCtx]
  · next h => exact amGet_amSet_other _ _ _ h
theorem getCtx_onCtx (s : State) (c d : Nat) (f : Context → Context) :
    getCtx (onCtx s c f) d = if d = c then f (getCtx s c) else getCtx s d := getCtx_setCtx_if ..

/-- Every launch entry stands. -/
structure SameLaunches (s t : State) : Prop where
  all : ∀ c, (getCtx t c).launches = (getCtx s c).launches
section
variable {s t u : State}

theorem SameLaunches.refl (s : State) : SameLaunches s s := ⟨fun _ => rfl⟩
theorem SameLaunches.trans (h : SameLaunches s t) (k : SameLaunches t u) : SameLaunches s u := ⟨fun c => (k.all c).trans (h.all c)⟩
theorem SameLaunches.foldl {α : Type} {f : State → α → State} (h : ∀ s x, SameLaunches s (f s x)) (l : List α) (s : State) :
    SameLaunches s (l.foldl f s) := by
  induction l generalizing s with
  | nil => exact .refl s
  | cons x l ih => exact (h s x).trans (ih _)
theorem SameLaunches.of_ctxs (h : t.ctxs = s.ctxs) : SameLaunches s t := ⟨fun c => by rw [getCtx_congr h]⟩
theorem SameLaunches.launch (h : SameLaunches s t) (ctx lid : Nat) : getLaunch t ctx lid = getLaunch s ctx lid := by
  rw [getLaunch, h.all ctx, getLaunch]
theorem setCtx_launches {ctx : Nat} {x : Context} (h : x.launches = (getCtx s ctx).launches) : SameLaunches s (setCtx s ctx x) := ⟨fun c => by
  rw [getCtx_setCtx_if]
  split
  · next e => rw [h, e]
  · rfl⟩
theorem onCtx_launches {ctx : Nat} {f : Context → Context} (h : ∀ c, (f c).launches = c.launches) : SameLaunches s (onCtx s ctx f) :=
  setCtx_launches (h _)

@[simp] theorem getLaunch_onLaunch (s : State) (ctx lid : Nat) (f : Launch → Launch) :
    getLaunch (onLaunch s ctx lid f) ctx lid = f (getLaunch s ctx lid) := by
  rw [getLaunch, onLaunch, getCtx_onCtx, if_pos rfl]
  exact amGet_amSet_same ..

theorem raiseEvent_launches (s : State) (ctx : Nat) (b : Option Nat) : SameLaunches s (raiseEvent s ctx b).2 := setCtx_launches rfl
theorem raiseMask_launches (s : State) (ctx : Nat) (m : BitVec 256) : SameLaunches s (raiseMask s ctx m) := setCtx_launches rfl
theorem clearMask_launches (s : State) (ctx : Nat) (m : BitVec 256) : SameLaunches s (clearMask s ctx m) := onCtx_launches fun _ => rfl
theorem raiseErr_launches (s : State) (ctx : Nat) (l : Launch) : SameLaunches s (raiseErr s ctx l) := by
  unfold raiseErr
  split
  · exact raiseEvent_launches ..
  · exact .refl s
theorem onPart_launches (s : State) (p : Nat) (f : Partition → Partition) : SameLaunches s (onPart s p f) := .of_ctxs rfl
theorem onLevel_launches (s : State) (ctx key : Nat) (f : Level → Level) : SameLaunches s (onLevel s ctx key f) := onCtx_launches fun _ => rfl
theorem onLevels_launches (s : State) (ctx : Nat) (l : Launch) (f : Level → Level) : SameLaunches s (onLevels s ctx l f) :=
  .foldl (fun s k => onLevel_launches s ctx k f) _ s
theorem openLevels_launches (s : State) (ctx lid : Nat) (l : Launch) : SameLaunches s (openLevels s ctx lid l) := by
  unfold openLevels
  have opened := (onLevels_launches s ctx l fun v =>
    let v := if v.live then v else { Level.init with live := true }
    { v with lids := (v.lids ++ [(lid, l.gen)]).eraseDups }).trans ((onLevel_launches _ ctx (graphKey l) fun v =>
      { v with above := (phaseKey l :: v.above).eraseDups }).trans (onLevel_launches _ ctx (phaseKey l) fun v =>
      { v with above := (jobKey l :: v.above).eraseDups }))
  dsimp only
  split
  · split
    · exact opened.trans ((onLevel_launches ..).trans (onLevel_launches ..))
    · exact opened.trans (onLevel_launches ..)
  · split
    · exact opened.trans (onLevel_launches ..)
    · exact opened
theorem noteJob_launches (s : State) (ctx job cause : Nat) : SameLaunches s (noteJob s ctx job cause) := onPart_launches ..
theorem endJobs_launches (s : State) (ctx key n : Nat) : SameLaunches s (endJobs s ctx key n) := onPart_launches ..
theorem settleLevel_launches (s : State) (ctx key : Nat) : SameLaunches s (settleLevel s ctx key) := by
  unfold settleLevel
  dsimp only
  split
  · have level := onLevel_launches s ctx key fun v => { v with live := false, complete := true }
    have done {t : State} (h : SameLaunches s t) (n : Nat) : SameLaunches s (if 3 ≤ key / 2 ^ 16 then endJobs t ctx key n else t) := by
      split
      · exact h.trans (endJobs_launches ..)
      · exact h
    have told {t : State} (h : SameLaunches s t) (b : Option Nat) : SameLaunches s (match b with
        | some b => (raiseEvent t ctx (some b)).2
        | none => t) := by
      split
      · exact h.trans (raiseEvent_launches ..)
      · exact h
    refine told (done ?_ _) _
    split
    · exact level.trans (onPart_launches ..)
    · exact level
  · exact .refl s
theorem closeLevels_launches (s : State) (ctx : Nat) (l : Launch) (counted : Bool) : SameLaunches s (closeLevels s ctx l counted) := by
  unfold closeLevels
  dsimp only
  refine SameLaunches.trans ?_ (.foldl (fun s k => settleLevel_launches s ctx k) _ _)
  refine SameLaunches.trans ?_ (.foldl (fun s e => ?_) _ _)
  · split
    · exact onLevels_launches ..
    · exact .refl s
  · split
    · exact onLevel_launches ..
    · exact .refl s
theorem writeStatus_launches (s : State) (g reg : Nat) (w : W64) : SameLaunches s (writeStatus s g reg w) := by
  unfold writeStatus
  split
  · exact .refl s
  · exact .of_ctxs (setThread_ctxs ..)
theorem settleCancels_launches (s : State) (ctx : Nat) : SameLaunches s (settleCancels s ctx) := by
  unfold settleCancels
  dsimp only
  refine SameLaunches.trans ?_ (.foldl (fun s (q : CancelReq) => writeStatus_launches s q.g q.dst cancelDone) _ _)
  exact onCtx_launches fun _ => rfl
/-- What the completion of a launch makes of its entry (R35, R323). -/
theorem getLaunch_completeLaunch (s : State) (ctx lid : Nat) :
    getLaunch (completeLaunch s ctx lid) ctx lid = { getLaunch s ctx lid with live := false, complete := true } := by
  have done : ∀ {t u : State}, t = noteJob (onLaunch s ctx lid fun x => { x with live := false, complete := true }) ctx
      (getLaunch s ctx lid).job (getLaunch s ctx lid).cause → SameLaunches t u →
      getLaunch u ctx lid = { getLaunch s ctx lid with live := false, complete := true } := fun {t u} e h => by
    rw [h.launch, e, (noteJob_launches ..).launch, getLaunch_onLaunch]
  refine done rfl (SameLaunches.trans ?_ (closeLevels_launches ..))
  split
  · exact raiseErr_launches ..
  · dsimp only
    split
    · exact raiseMask_launches ..
    · exact (raiseMask_launches ..).trans (raiseErr_launches ..)

/-! #### Reports (R35, R323, R325) -/

theorem XlateOnly.ctxs (h : XlateOnly s t) : t.ctxs = s.ctxs := by rw [h.1.1]
theorem ctxXlate_ctxs {ctx k : Nat} {acc : Acc} {va : Nat} {r : Xl × State} (h : ctxXlate s ctx k acc va = .ok r) : r.2.ctxs = s.ctxs := by
  unfold ctxXlate at h
  split at h
  · next he =>
    cases h
    exact (xlateEngine_only he).ctxs
  · cases h
  · cases h
theorem ctxWrite_ctxs {ctx k : Nat} {acc : Acc} {va : Nat} {b : List Byte} (h : ctxWrite s ctx k acc va b = .ok t) : t.ctxs = s.ctxs := by
  unfold ctxWrite at h
  cases hx : ctxXlate s ctx k acc (va % 2 ^ 64) with
  | error c =>
    rw [hx] at h
    cases h
  | ok x =>
    rw [hx] at h
    cases h
    exact (homeWrite_step _ _ _ _ _ _).1.ctxs.trans (ctxXlate_ctxs hx)
/-- A launch entry with units counted under a status (R325). -/
def countedLaunch (l : Launch) (status n : Nat) : Launch := match status with
  | 0 => { l with completed := l.completed + n }
  | 1 => { l with cancelled := l.cancelled + n }
  | _ => { l with stopped := l.stopped + n }
theorem getLaunch_countUnit (s : State) (ctx lid status n : Nat) :
    getLaunch (countUnit s ctx lid status n) ctx lid = countedLaunch (getLaunch s ctx lid) status n := by
  refine ((onLevels_launches _ ctx (getLaunch s ctx lid) _).launch ctx lid).trans ?_
  rw [getLaunch_onLaunch]
  rfl
/-- A store into the completion ring keeps at most the cause of its failure (R323). -/
theorem getLaunch_ringStore (s : State) (ctx lid i status : Nat) (payload : W64) :
    ∃ c, getLaunch (ringStore s ctx lid i status payload) ctx lid = { getLaunch s ctx lid with rcause := c } := by
  unfold ringStore
  dsimp only
  split
  · exact ⟨_, rfl⟩
  · split
    · next h => exact ⟨_, (SameLaunches.of_ctxs (ctxWrite_ctxs h)).launch ctx lid⟩
    · exact ⟨_, getLaunch_onLaunch ..⟩
/-- The entry of a launch after the report of its head unit (R35, R325); `c` is the cause of a ring store that was dropped. -/
def reportedLaunch (l : Launch) (status c : Nat) : Launch :=
  { countedLaunch l status 1 with rcause := c, head := l.head + 1, recs := l.recs.filter fun r => r.1 != l.head }
/-- What the head unit is reported with, once a record has arrived or a tail status covers it (R35, R326). -/
def headReport (l : Launch) : Option (Nat × W64) := match l.recs.find? fun r => r.1 == l.head with
  | some r => some (r.2.1, r.2.2)
  | none => match l.tail with
    | some t => if t.1 ≤ l.head then some (t.2, 0) else none
    | none => none
theorem countedLaunch_recs (l : Launch) (status n : Nat) : (countedLaunch l status n).recs = l.recs := by
  unfold countedLaunch
  split <;> rfl
/-- The state after the report of a head unit. -/
def reportedState (s : State) (ctx lid : Nat) (e : Nat × W64) : State :=
  let l := getLaunch s ctx lid
  onLaunch (ringStore (countUnit s ctx lid e.1 1) ctx lid l.head e.1 e.2) ctx lid fun x =>
    { x with head := l.head + 1, recs := x.recs.filter fun r => r.1 != l.head }
theorem reportHead_eq (s : State) (ctx lid : Nat) : reportHead s ctx lid = (headReport (getLaunch s ctx lid)).bind fun e =>
    if (getLaunch s ctx lid).head < lpbUnits (getLaunch s ctx lid) then some (reportedState s ctx lid e) else none := by
  unfold reportHead headReport
  dsimp only
  cases (getLaunch s ctx lid).recs.find? fun r => r.1 == (getLaunch s ctx lid).head with
  | some r => rfl
  | none =>
    cases (getLaunch s ctx lid).tail with
    | none => rfl
    | some t =>
      by_cases h : t.1 ≤ (getLaunch s ctx lid).head
      · simp only [if_pos h]
        rfl
      · simp only [if_neg h]
        rfl
theorem reportHead_none {ctx lid : Nat} (h : headReport (getLaunch s ctx lid) = none) : reportHead s ctx lid = none := by
  rw [reportHead_eq, h]
  rfl
theorem reportHead_some {ctx lid : Nat} {e : Nat × W64} (h : headReport (getLaunch s ctx lid) = some e)
    (head : (getLaunch s ctx lid).head < lpbUnits (getLaunch s ctx lid)) :
    reportHead s ctx lid = some (reportedState s ctx lid e) := by
  rw [reportHead_eq, h]
  exact if_pos head
/-- A head unit that is reported had a report. -/
theorem headReport_of_reportHead {ctx lid : Nat} (h : reportHead s ctx lid = some t) :
    ∃ e, headReport (getLaunch s ctx lid) = some e ∧ t = reportedState s ctx lid e := by
  rw [reportHead_eq] at h
  cases he : headReport (getLaunch s ctx lid) with
  | none =>
    rw [he] at h
    cases h
  | some e =>
    rw [he] at h
    refine ⟨e, rfl, ?_⟩
    by_cases head : (getLaunch s ctx lid).head < lpbUnits (getLaunch s ctx lid)
    · exact (Option.some.inj ((if_pos head).symm.trans h)).symm
    · cases (if_neg head).symm.trans h
theorem getLaunch_reportedState (s : State) (ctx lid : Nat) (e : Nat × W64) :
    ∃ c, getLaunch (reportedState s ctx lid e) ctx lid = reportedLaunch (getLaunch s ctx lid) e.1 c := by
  obtain ⟨c, kept⟩ := getLaunch_ringStore (countUnit s ctx lid e.1 1) ctx lid (getLaunch s ctx lid).head e.1 e.2
  rw [getLaunch_countUnit] at kept
  refine ⟨c, ?_⟩
  rw [reportedState, getLaunch_onLaunch, kept, reportedLaunch, countedLaunch_recs]

theorem countedLaunch_counters (l : Launch) (st n : Nat) : (countedLaunch l st n).completed = l.completed + n * bit (decide (st = 0)) ∧
    (countedLaunch l st n).cancelled = l.cancelled + n * bit (decide (st = 1)) ∧
    (countedLaunch l st n).stopped = l.stopped + n * bit (decide (2 ≤ st)) := by
  unfold countedLaunch
  split
  · simp [bit]
  · simp [bit]
  · next h0 h1 =>
    have two : 2 ≤ st := by
      have a : st ≠ 0 := h0
      have b : st ≠ 1 := h1
      omega
    have not0 : st ≠ 0 := by omega
    have not1 : st ≠ 1 := by omega
    simp [bit, two, not0, not1]
theorem countedLaunch_block (l : Launch) (st n : Nat) : (countedLaunch l st n).block = l.block ∧ (countedLaunch l st n).tail = l.tail := by
  unfold countedLaunch
  split
  · exact ⟨rfl, rfl⟩
  · exact ⟨rfl, rfl⟩
  · exact ⟨rfl, rfl⟩
end

end Machine
end Sys2Proof
end

section
/-! ### The window of a launch reports in order (R35, R326) -/
namespace Sys2Proof
namespace Machine

/-- What an entry shows once its head unit has been reported with a status. -/
theorem reportedLaunch_shows (l : Launch) (st c : Nat) :
    (reportedLaunch l st c).head = l.head + 1 ∧ (reportedLaunch l st c).tail = l.tail ∧
    (reportedLaunch l st c).recs = l.recs.filter (fun r => r.1 != l.head) ∧
    (reportedLaunch l st c).completed = l.completed + bit (decide (st = 0)) ∧
    (reportedLaunch l st c).cancelled = l.cancelled + bit (decide (st = 1)) ∧
    (reportedLaunch l st c).stopped = l.stopped + bit (decide (2 ≤ st)) := by
  obtain ⟨completed, cancelled, stopped⟩ := countedLaunch_counters l st 1
  rw [Nat.one_mul] at completed cancelled stopped
  exact ⟨rfl, (countedLaunch_block l st 1).2, rfl, completed, cancelled, stopped⟩
theorem headReport_record {l : Launch} {r : Nat × Nat × W64} (h : l.recs.find? (fun r => r.1 == l.head) = some r) :
    headReport l = some (r.2.1, r.2.2) := by
  rw [headReport, h]
theorem headReport_tail {l : Launch} {t : Nat × Nat} (h : l.recs.find? (fun r => r.1 == l.head) = none) (ht : l.tail = some t) :
    headReport l = if t.1 ≤ l.head then some (t.2, 0) else none := by
  rw [headReport, h, ht]
theorem headReport_nothing {l : Launch} (h : l.recs.find? (fun r => r.1 == l.head) = none) (ht : l.tail = none) : headReport l = none := by
  rw [headReport, h, ht]
/-- A head unit that is reported has a record, or the tail status covers it. -/
theorem headReport_covered {l : Launch} {e : Nat × W64} (h : headReport l = some e) :
    (∃ r ∈ l.recs, r.1 = l.head) ∨ ∃ x, l.tail = some x ∧ x.1 ≤ l.head := by
  cases hr : l.recs.find? (fun r => r.1 == l.head) with
  | some r => exact .inl ⟨r, List.mem_of_find?_eq_some hr, by simpa using List.find?_some hr⟩
  | none =>
    cases ht : l.tail with
    | none =>
      rw [headReport_nothing hr ht] at h
      cases h
    | some t =>
      rw [headReport_tail hr ht] at h
      by_cases hle : t.1 ≤ l.head
      · exact .inr ⟨t, rfl, hle⟩
      · cases (if_neg hle).symm.trans h
/-- However many reports a window makes, its head passes only units that had a record, or that the tail status covers. -/
theorem reportAll_covered (ctx lid n : Nat) (s : State) :
    (getLaunch s ctx lid).head ≤ (getLaunch (reportAll ctx lid n s) ctx lid).head ∧
    ∀ u, (getLaunch s ctx lid).head ≤ u → u < (getLaunch (reportAll ctx lid n s) ctx lid).head →
      (∃ r ∈ (getLaunch s ctx lid).recs, r.1 = u) ∨ ∃ x, (getLaunch s ctx lid).tail = some x ∧ x.1 ≤ u := by
  induction n generalizing s with
  | zero => exact ⟨Nat.le_refl _, fun u hu hu' => absurd hu' (Nat.not_lt.mpr hu)⟩
  | succ n ih =>
    rw [reportAll]
    cases h : reportHead s ctx lid with
    | none => exact ⟨Nat.le_refl _, fun u hu hu' => absurd hu' (Nat.not_lt.mpr hu)⟩
    | some t =>
      dsimp only
      obtain ⟨e, he, rfl⟩ := headReport_of_reportHead h
      obtain ⟨c, entry⟩ := getLaunch_reportedState s ctx lid e
      obtain ⟨head, tail, recs, -⟩ := reportedLaunch_shows (getLaunch s ctx lid) e.1 c
      obtain ⟨rises, covered⟩ := ih (reportedState s ctx lid e)
      rw [entry, head] at rises
      refine ⟨by omega, fun u hu hu' => ?_⟩
      obtain rfl | later := Nat.eq_or_lt_of_le hu
      · exact headReport_covered he
      · have earlier := covered u (by rw [entry, head]; exact later) hu'
        rw [entry, tail, recs] at earlier
        exact earlier.imp (fun ⟨r, hr, hru⟩ => ⟨r, (List.mem_filter.mp hr).1, hru⟩) id

end Machine
end Sys2Proof
end

section
/-! ### O38: events -/
namespace Sys2Proof
namespace Machine

theorem release_same (s : State) : (release s).core = s.core ∧ (release s).ctxs = s.ctxs := by
  have e := (mergeAllU_step s (myClu s)).1.1
  refine ⟨?_, ?_⟩
  · change (mergeAllU s (myClu s)).core = _
    rw [e]
  · change (mergeAllU s (myClu s)).ctxs = _
    rw [e]
theorem release_released (s : State) : s.th.pts ≤ (release s).released ∧ s.released ≤ (release s).released := by
  have e := (mergeAllU_step s (myClu s)).1.1
  have th : (mergeAllU s (myClu s)).th = s.th := by rw [e]
  have old : (mergeAllU s (myClu s)).released = s.released := by rw [e]
  change _ ≤ max (mergeAllU s (myClu s)).released (max (mergeAllU s (myClu s)).th.pts _) ∧
    _ ≤ max (mergeAllU s (myClu s)).released (max (mergeAllU s (myClu s)).th.pts _)
  rw [th, old]
  exact ⟨Nat.le_trans (Nat.le_max_left ..) (Nat.le_max_right ..), Nat.le_max_left ..⟩
/-- What an acquire on every path changes: the timestamp, the times of the later paths, and the marks of the L1's copies (R292, R287). -/
theorem acquire_shows (s : State) : let t := acquire s
    t.th = { s.th with pts := max s.th.pts s.released } ∧ t = { s with th := t.th, fenced := t.fenced, core := { s.core with l1 := t.core.l1 } } ∧
    (∀ i : Fin 9, t.fenced[i] = if 2 ≤ i.val then max s.fenced[i] s.released else s.fenced[i]) ∧
    t.core.l1.map (·.1) = s.core.l1.map (·.1) ∧ ∀ e ∈ t.core.l1, e.2.leased = true := by
  have every : ∀ i : Fin 9, bitOf allPaths.toNat i.val = true := by decide
  refine ⟨rfl, rfl, fun i => ?_, ?_, fun e he => ?_⟩
  · change (Vector.ofFn fun i : Fin 9 => if 2 ≤ i.val ∧ bitOf allPaths.toNat i.val then max s.fenced[i] s.released else s.fenced[i])[i] = _
    rw [Fin.getElem_fin, Vector.getElem_ofFn]
    simp only [every i, and_true]
  · change (s.core.l1.map fun e => (e.1, { e.2 with leased := true })).map (·.1) = _
    rw [List.map_map]
    rfl
  · obtain ⟨x, -, rfl⟩ := List.mem_map.mp he
    rfl

theorem execEset_done {o : Ev} {s : State} (hp : pred0 s o.p = true) (h : allDone s = true) :
    exec (.eset o) s = .next (setCtx (release s) (myCtx s) { getCtx s (myCtx s) with
      evseq := (getCtx s (myCtx s)).evseq + 1
      events := if o.clr then (getCtx s (myCtx s)).events &&& ~~~(1#256 <<< o.n.toNat) else (getCtx s (myCtx s)).events ||| (1#256 <<< o.n.toNat) }) := by
  obtain ⟨core, ctxs⟩ := release_same s
  have ctx : myCtx (release s) = myCtx s := by rw [myCtx, core, myCtx]
  change Host.Outcome.next (bit0Form s o.p (ready (allDone s) >>= fun _ =>
    .ok (if o.clr then setCtx (release s) (myCtx (release s)) { getCtx (release s) (myCtx (release s)) with
        evseq := (getCtx (release s) (myCtx (release s))).evseq + 1
        events := (getCtx (release s) (myCtx (release s))).events &&& ~~~((1 : BitVec 256) <<< o.n.toNat) }
      else (raiseEvent (release s) (myCtx (release s)) (some o.n.toNat)).2))) = _
  rw [bit0Form_true _ hp, h, ctx, getCtx_congr ctxs]
  change Host.Outcome.next (if o.clr then _ else (raiseEvent (release s) (myCtx s) (some o.n.toNat)).2) = _
  rw [raiseEvent, getCtx_congr ctxs]
  cases o.clr with
  | true => rfl
  | false => rfl
theorem execEset_waits {o : Ev} {s : State} (hp : pred0 s o.p = true) (h : allDone s = false) : exec (.eset o) s = .next (stalled s) := by
  change Host.Outcome.next (bit0Form s o.p (ready (allDone s) >>= fun _ => _)) = _
  rw [bit0Form_true _ hp, h]
  rfl
theorem execEwait_waits {o : Ev} {s : State} (hp : pred0 s o.p = true)
    (h : bitOf (getCtx s (myCtx s)).events.toNat o.n.toNat = false) : exec (.ewait o) s = .next (stalled s) := by
  change Host.Outcome.next (bit0Form s o.p (ready (bitOf (getCtx s (myCtx s)).events.toNat o.n.toNat) >>= fun _ => _)) = _
  rw [bit0Form_true _ hp, h]
  rfl
theorem execEwait_set {o : Ev} {s : State} (hp : pred0 s o.p = true) (h : bitOf (getCtx s (myCtx s)).events.toNat o.n.toNat = true) :
    exec (.ewait o) s = .next (acquire (if o.clr then clearMask s (myCtx s) (1#256 <<< o.n.toNat) else s)) := by
  change Host.Outcome.next (bit0Form s o.p (ready (bitOf (getCtx s (myCtx s)).events.toNat o.n.toNat) >>= fun _ =>
    .ok (acquire (if o.clr then clearMask s (myCtx s) ((1 : BitVec 256) <<< o.n.toNat) else s)))) = _
  rw [bit0Form_true _ hp, h]
  rfl

/-! #### The issue of a launch -/

theorem creqs_of_allDone {s : State} (h : allDone s = true) : s.th.creqs = [] := by
  have names : names allPaths .C = true := by decide
  simp only [allDone, quietOn, Bool.and_eq_true, names, Bool.not_true, Bool.false_or] at h
  exact List.isEmpty_iff.mp h.1.1.1.1.1.1.1.1.1
section
variable {s : State} {o : SD2} (hp : pred0 s o.p = true)
include hp

theorem execLaunch_full (h : freeLid s (myCtx s) = none) : exec (.launch o) s = .next (stalled s) := by
  change execLaunch o s = _
  rw [execLaunch, bit0Form_true _ hp, h]
  rfl
theorem execLaunch_misaligned {lid : Nat} (h : freeLid s (myCtx s) = some lid) (ha : (getS s o.a).toNat % 64 ≠ 0) :
    Traps (.launch o) s (trapAcc cMISALIGN (getS s o.a) (accWord .C false false 256)) := by
  have stops : alignCheck (getS s o.a) 64 (accWord .C false false 256) = .error (.trap (trapAcc cMISALIGN (getS s o.a) (accWord .C false false 256))) :=
    if_neg ha
  change execLaunch o s = _
  rw [execLaunch, bit0Form_true _ hp, h]
  dsimp only
  rw [stops]
  rfl
variable {lid : Nat} (h : freeLid s (myCtx s) = some lid) (ha : (getS s o.a).toNat % 64 = 0)
include h ha

theorem execLaunch_aligned : exec (.launch o) s = .next (runBody s (ready s.th.creqs.isEmpty >>= fun _ => loadBlock (getS s o.a) s >>= fun b =>
    ready (allDone s) >>= fun _ => .ok (setS (issueLaunch (release b.2) (myCtx s) (myClu s) lid (BitVec.ofNat 2048 b.1) (getS s o.a) (myJob s)).2 o.d
      (issueLaunch (release b.2) (myCtx s) (myClu s) lid (BitVec.ofNat 2048 b.1) (getS s o.a) (myJob s)).1))) := by
  have passes : alignCheck (getS s o.a) 64 (accWord .C false false 256) = .ok () := if_pos ha
  change execLaunch o s = _
  rw [execLaunch, bit0Form_true _ hp, h]
  dsimp only
  rw [passes]
  rfl
theorem execLaunch_behind (hc : s.th.creqs ≠ []) : exec (.launch o) s = .next (stalled s) := by
  have waits : s.th.creqs.isEmpty = false := by simpa using hc
  rw [execLaunch_aligned hp h ha, waits]
  rfl
theorem execLaunch_stops (hc : s.th.creqs = []) {x : Stop} (hx : loadBlock (getS s o.a) s = .error x) :
    exec (.launch o) s = .next (onStop s x) := by
  rw [execLaunch_aligned hp h ha, hc, hx]
  rfl
theorem execLaunch_waits (hc : s.th.creqs = []) {b : Nat} {u : State} (hb : loadBlock (getS s o.a) s = .ok (b, u)) (hd : allDone s = false) :
    exec (.launch o) s = .next (stalled s) := by
  rw [execLaunch_aligned hp h ha, hc, hb, hd]
  rfl
theorem execLaunch_issues {b : Nat} {u : State} (hb : loadBlock (getS s o.a) s = .ok (b, u)) (hd : allDone s = true) :
    let r := issueLaunch (release u) (myCtx s) (myClu s) lid (BitVec.ofNat 2048 b) (getS s o.a) (myJob s)
    exec (.launch o) s = .next (setS r.2 o.d r.1) := by
  rw [execLaunch_aligned hp h ha, creqs_of_allDone hd, hb, hd]
  rfl
end

/-- What the issue of a block leaves in its entry (R321, R324). -/
theorem issueLaunch_entry (s : State) (ctx k lid : Nat) (blk : BitVec 2048) (addr : W64) (job : Nat) :
    let gen := ((getLaunch s ctx lid).gen + 1) % 2 ^ 32
    let l : Launch := { Launch.init with gen := gen, block := blk, addr := addr, job := job }
    let c := checkLaunch s ctx k l
    let r := issueLaunch s ctx k lid blk addr job
    (c.1 ≠ 0 → r.1 = BitVec.ofNat 64 (2 ^ 63 + c.1) ∧ (getLaunch r.2 ctx lid).live = false ∧ (getLaunch r.2 ctx lid).cause = c.1) ∧
    (c.1 = 0 → aboveCancelled (openLevels (onLaunch c.2.2 ctx lid fun _ => { c.2.1 with live := true, residReleased := c.2.1.rtab.isEmpty }) ctx lid l) ctx l
        = false → r.1 = BitVec.ofNat 64 (gen * 2 ^ 16 + lid) ∧
      getLaunch r.2 ctx lid = { c.2.1 with live := true, residReleased := c.2.1.rtab.isEmpty }) := by
  intro gen l c r
  refine ⟨fun h => ?_, fun h notCancelled => ?_⟩
  · have fails : r = (BitVec.ofNat 64 (2 ^ 63 + c.1), raiseErr (onLaunch c.2.2 ctx lid fun _ => { l with cause := c.1 }) ctx l) := if_pos h
    have entry : getLaunch r.2 ctx lid = { l with cause := c.1 } := by
      rw [fails, (raiseErr_launches ..).launch, getLaunch_onLaunch]
    rw [entry, fails]
    exact ⟨rfl, rfl, rfl⟩
  · have opens : r = (BitVec.ofNat 64 (gen * 2 ^ 16 + lid),
        openLevels (onLaunch c.2.2 ctx lid fun _ => { c.2.1 with live := true, residReleased := c.2.1.rtab.isEmpty }) ctx lid l) :=
      (if_neg (not_not_intro h)).trans (congrArg (Prod.mk _) (if_neg (by rw [notCancelled]; exact Bool.false_ne_true)))
    rw [opens]
    refine ⟨rfl, ?_⟩
    rw [(openLevels_launches ..).launch, getLaunch_onLaunch]

end Machine
end Sys2Proof
end

section
/-! ### O38: the cancel of a launch, and the counters of a level -/
namespace Sys2Proof
namespace Machine

theorem lpbUnits_congr {l m : Launch} (h : m.block = l.block) : lpbUnits m = lpbUnits l := by
  rw [lpbUnits, lpbF, h, lpbUnits, lpbF]
/-- Reports of the units that a tail status from unit 0 on covers count each of them as cancelled (R326). -/
theorem reportAll_cancelled (ctx lid n : Nat) (s : State) (recs : (getLaunch s ctx lid).recs = [])
    (tail : (getLaunch s ctx lid).tail = some (0, 1)) (room : (getLaunch s ctx lid).head + n ≤ lpbUnits (getLaunch s ctx lid)) :
    (getLaunch (reportAll ctx lid n s) ctx lid).cancelled = (getLaunch s ctx lid).cancelled + n := by
  induction n generalizing s with
  | zero => rfl
  | succ n ih =>
    have report : headReport (getLaunch s ctx lid) = some (1, 0) := by
      rw [headReport_tail (by rw [recs]; rfl) tail]
      exact if_pos (Nat.zero_le _)
    obtain ⟨c, entry⟩ := getLaunch_reportedState s ctx lid (1, 0)
    obtain ⟨head', tail', recs', -, cancelled', -⟩ := reportedLaunch_shows (getLaunch s ctx lid) 1 c
    have units : lpbUnits (reportedLaunch (getLaunch s ctx lid) 1 c) = lpbUnits (getLaunch s ctx lid) :=
      lpbUnits_congr (countedLaunch_block (getLaunch s ctx lid) 1 1).1
    rw [reportAll, reportHead_some report (by omega)]
    dsimp only
    rw [ih _ (by rw [entry, recs', recs]; rfl) (by rw [entry, tail', tail]) (by rw [entry, head', units]; omega), entry, cancelled']
    have one : bit (decide (1 = 1)) = 1 := rfl
    rw [one]
    omega
/-- A launch that has not been admitted completes with all of its units cancelled (R323, R326). -/
theorem getLaunch_cancelUnadmitted {s : State} {ctx lid : Nat} (head : (getLaunch s ctx lid).head = 0) (recs : (getLaunch s ctx lid).recs = []) :
    (getLaunch (cancelUnadmitted s ctx lid) ctx lid).complete = true ∧ (getLaunch (cancelUnadmitted s ctx lid) ctx lid).live = false ∧
    (getLaunch (cancelUnadmitted s ctx lid) ctx lid).cancelled = (getLaunch s ctx lid).cancelled + lpbUnits (getLaunch s ctx lid) := by
  have entry := getLaunch_onLaunch s ctx lid fun x => { x with cancelling := true, tail := some (0, 1), residReleased := true }
  rw [cancelUnadmitted, getLaunch_completeLaunch]
  refine ⟨rfl, rfl, ?_⟩
  have units : lpbUnits (getLaunch (onLaunch s ctx lid fun x => { x with cancelling := true, tail := some (0, 1), residReleased := true }) ctx lid) =
      lpbUnits (getLaunch s ctx lid) := lpbUnits_congr (by rw [entry])
  refine (reportAll_cancelled ctx lid _ _ (by rw [entry]; exact recs) (by rw [entry]) ?_).trans ?_
  · rw [entry]
    exact Nat.le_of_eq ((congrArg (· + _) head).trans (Nat.zero_add _))
  · rw [units, entry]

/-- Launch entries that a cancel names, and whether its level names anything live (R326). -/
def cancelLids (s : State) (w : W64) : List Nat :=
  if identOk w then ((getCtx s (myCtx s)).launches.filter fun e => e.2.live && beneath w e.1 e.2).map (·.1) else []
def cancelLive (s : State) (w : W64) : Bool :=
  if fieldOf w 56 2 = 0 then !(cancelLids s w).isEmpty
  else identOk w && (getLevel s (myCtx s) (fieldOf w 56 2 * 2 ^ 16 + fieldOf w 0 16)).live
section
variable {s : State} {o : Cancel} (hp : pred0 s o.p = true)
include hp

theorem execCancel_foreign (ident : identOk (getS s o.a) = true) (lv : fieldOf (getS s o.a) 56 2 = 3) (job : fieldOf (getS s o.a) 0 16 ≠ myJob s) :
    Traps (.cancel o) s (trapOf cPERM 0) := by
  have stops : require (!(identOk (getS s o.a) && fieldOf (getS s o.a) 56 2 == 3 && fieldOf (getS s o.a) 0 16 != myJob s)) cPERM 0 =
      .error (.trap (trapOf cPERM 0)) := by
    rw [ident, lv, bne_iff_ne.mpr job]
    rfl
  change execCancel o s = _
  rw [execCancel, bit0Form_true _ hp]
  dsimp only
  rw [stops]
  rfl
theorem execCancel_nothing (perm : (identOk (getS s o.a) && fieldOf (getS s o.a) 56 2 == 3) = false) (none_ : cancelLive s (getS s o.a) = false) :
    exec (.cancel o) s = .next (setS s o.d cancelNone) := by
  have passes : require (!(identOk (getS s o.a) && fieldOf (getS s o.a) 56 2 == 3 && fieldOf (getS s o.a) 0 16 != myJob s)) cPERM 0 = .ok () := by
    rw [perm]
    rfl
  change execCancel o s = _
  rw [execCancel, bit0Form_true _ hp]
  dsimp only
  rw [passes]
  refine Eq.trans (b := Host.Outcome.next (runBody s (.ok (setS s o.d cancelNone)))) ?_ rfl
  refine congrArg (fun r => Host.Outcome.next (runBody s r)) ?_
  exact if_pos (congrArg Bool.not none_)
/-- A cancel of a launch that reports nowhere (R326). -/
theorem execCancel_launches (lv : fieldOf (getS s o.a) 56 2 = 0) (d : o.d = 0)
    (some_ : cancelLids s (getS s o.a) ≠ []) : ∃ own, exec (.cancel o) s =
      .next (settleCancels ((cancelLids s (getS s o.a)).foldl (cancelLaunch o.hard own (myCtx s)) s) (myCtx s)) := by
  have perm : (identOk (getS s o.a) && fieldOf (getS s o.a) 56 2 == 3) = false := by
    rw [lv]
    exact Bool.and_false _
  have passes : require (!(identOk (getS s o.a) && fieldOf (getS s o.a) 56 2 == 3 && fieldOf (getS s o.a) 0 16 != myJob s)) cPERM 0 = .ok () := by
    rw [perm]
    rfl
  have names : (cancelLids s (getS s o.a)).isEmpty = false := by simpa using some_
  rw [cancelLids] at names ⊢
  refine ⟨?_, ?_⟩
  · exact if s.th.act.isSome then none else (unitOf (getLaunch s (myCtx s) (myLid s)) s.th.task).map fun u => (myLid s, u)
  · change execCancel o s = _
    rw [execCancel, bit0Form_true _ hp]
    dsimp only
    rw [passes, lv, d]
    simp only [names, bne_self_eq_false, Bool.and_false, Bool.not_false, Bool.not_true, Bool.false_eq_true, if_true, if_false, List.foldl_nil]
    rfl
end

/-- The counters and the state of a level as the rules give them, and as the model reads them (R325). -/
theorem ctrdOf_launch (s : State) (ctx : Nat) (w : W64) (k : Nat) (ident : identOk w = true) (lv : fieldOf w 56 2 = 0) :
    let l := getLaunch s ctx (fieldOf w 0 16)
    ctrdOf s ctx w k = if fieldOf w 0 16 ≠ 0 ∧ fieldOf w 0 16 ≤ 255 ∧ l.gen = fieldOf w 16 32 ∧ l.gen ≠ 0 then (match k with
        | 0 => BitVec.ofNat 64 l.completed
        | 1 => BitVec.ofNat 64 l.cancelled
        | 2 => BitVec.ofNat 64 l.stopped
        | _ => BitVec.ofNat 64 (bit l.live + 4 * bit l.complete + 8 * bit l.cancelling + 2 ^ 8 * (if l.cause = 0 then l.rcause else l.cause) +
            2 ^ 32 * bit (l.live && l.admitted))) else 0 := by
  intro l
  rw [ctrdOf, ident, lv]
  by_cases known : fieldOf w 0 16 ≠ 0 ∧ fieldOf w 0 16 ≤ 255 ∧ l.gen = fieldOf w 16 32 ∧ l.gen ≠ 0
  · have within : ¬(fieldOf w 0 16 = 0 ∨ 255 < fieldOf w 0 16 ∨ l.gen ≠ fieldOf w 16 32 ∨ l.gen = 0) := by
      obtain ⟨a, b, c, d⟩ := known
      rintro (h | h | h | h)
      · exact a h
      · omega
      · exact h c
      · exact d h
    rw [if_pos known]
    exact if_neg within
  · have outside : fieldOf w 0 16 = 0 ∨ 255 < fieldOf w 0 16 ∨ l.gen ≠ fieldOf w 16 32 ∨ l.gen = 0 := by
      by_contra h
      simp only [not_or, not_not] at h
      obtain ⟨a, b, c, d⟩ := h
      exact known ⟨a, by omega, c, d⟩
    rw [if_neg known]
    exact if_pos outside
theorem ctrdOf_level (s : State) (ctx : Nat) (w : W64) (k : Nat) (ident : identOk w = true) (lv : fieldOf w 56 2 ≠ 0) :
    ctrdOf s ctx w k =
      match (if fieldOf w 16 32 = 0 then amFind (getCtx s ctx).levels (fieldOf w 56 2 * 2 ^ 16 + fieldOf w 0 16) else none) with
      | none => 0
      | some v => match k with
        | 0 => BitVec.ofNat 64 v.completed
        | 1 => BitVec.ofNat 64 v.cancelledUnits
        | 2 => BitVec.ofNat 64 v.stopped
        | _ => BitVec.ofNat 64 (bit v.live + 2 * bit v.closed + 4 * bit v.complete + 8 * bit v.cancelled + 2 ^ 32 * v.admitted) := by
  rw [ctrdOf, ident]
  obtain ⟨n, hn⟩ := Nat.exists_eq_succ_of_ne_zero lv
  rw [hn]
  rfl

theorem execCancel_one {s : State} {o : Cancel} {lid : Nat} {l : Launch} (hp : pred0 s o.p = true) (ident : identOk (getS s o.a) = true)
    (lv : fieldOf (getS s o.a) 56 2 = 0) (d : o.d = 0) (only : (getCtx s (myCtx s)).launches = [(lid, l)]) (live : l.live = true)
    (waits : l.admitted = false) (head : l.head = 0) (recs : l.recs = []) (under : beneath (getS s o.a) lid l = true) :
    ∃ t, exec (.cancel o) s = .next t ∧ (getLaunch t (myCtx s) lid).complete = true ∧ (getLaunch t (myCtx s) lid).live = false ∧
      (getLaunch t (myCtx s) lid).cancelled = l.cancelled + lpbUnits l := by
  have entry : getLaunch s (myCtx s) lid = l := by
    rw [getLaunch, only, amGet, if_pos rfl]
  have names : cancelLids s (getS s o.a) = [lid] := by
    rw [cancelLids, if_pos ident, only]
    simp [live, under]
  obtain ⟨own, runs⟩ := execCancel_launches hp lv d (by rw [names]; exact List.cons_ne_nil _ _)
  have cancels : (cancelLids s (getS s o.a)).foldl (cancelLaunch o.hard own (myCtx s)) s = cancelUnadmitted s (myCtx s) lid := by
    rw [names, List.foldl_cons, List.foldl_nil, cancelLaunch, entry, live, waits]
    rfl
  have kept := (settleCancels_launches (cancelUnadmitted s (myCtx s) lid) (myCtx s)).launch (myCtx s) lid
  have done := getLaunch_cancelUnadmitted (s := s) (ctx := myCtx s) (lid := lid) (by rw [entry]; exact head) (by rw [entry]; exact recs)
  rw [entry] at done
  refine ⟨_, runs, ?_⟩
  rw [cancels, kept]
  exact done
theorem cancelLive_nothing {s : State} {w : W64} (h : identOk w = false ∨ (fieldOf w 56 2 = 0 ∧
    ∀ e ∈ (getCtx s (myCtx s)).launches, e.2.live = true → beneath w e.1 e.2 = false)) : cancelLive s w = false := by
  rw [cancelLive]
  obtain ident | ⟨lv, dead⟩ := h
  · split
    · rw [cancelLids, ident]
      rfl
    · rw [ident]
      rfl
  · have none_ : (getCtx s (myCtx s)).launches.filter (fun e => e.2.live && beneath w e.1 e.2) = [] :=
      List.filter_eq_nil_iff.mpr fun e he => by
        cases live : e.2.live with
        | false => simp
        | true => simp [dead e he live]
    rw [if_pos lv, cancelLids, none_]
    split <;> rfl

/-- Settles O38, form by form: the events, the issue of a launch and its entry, the cancels and the counters. -/
theorem eventAndLaunchFormsReportAndCancel : Obligations.EventAndLaunchFormsReportAndCancel := by
  refine ⟨fun o s hp => ⟨execEset_waits hp, fun h => ?_, execEwait_waits hp, fun h => ?_⟩, acquire_shows,
    fun s => ⟨release_th s, (release_same s).1, release_released s⟩, fun o s hp => ⟨execLaunch_full hp, fun lid h => ?_⟩, issueLaunch_entry,
    fun o s hp => ⟨fun h => ?_, execCancel_foreign hp, fun ident lv d lid l only live waits head recs under =>
      execCancel_one hp ident lv d only live waits head recs under⟩, ?_, fun o => ⟨fun s hp => ?_, fun s hp => ?_⟩, fun o s hp => ?_, fun o s hp => ?_⟩
  · refine ⟨_, execEset_done hp h, rfl, fun c => ?_⟩
    dsimp only
    rw [getCtx_setCtx_if]
    by_cases e : c = myCtx s
    · rw [if_pos e, if_pos e, e]
    · rw [if_neg e, if_neg e]
      exact getCtx_congr (release_same s).2 c
  · refine ⟨_, ?_, fun c => ?_, execEwait_set hp h⟩
    · split
      · rfl
      · rfl
    · cases o.clr with
      | false => simp
      | true =>
        simp only [and_true, if_true]
        rw [clearMask, getCtx_onCtx]
        split
        · next e => rw [e]
        · rfl
  · exact ⟨execLaunch_misaligned hp h, execLaunch_behind hp h, fun ha hc x => execLaunch_stops hp h ha hc,
      fun ha hc b u hb hd => execLaunch_waits hp h ha hc hb hd, fun ha b u hb hd => ⟨_, execLaunch_issues hp h ha hb hd, setS_wrote _ _ _⟩⟩
  · have perm : (identOk (getS s o.a) && fieldOf (getS s o.a) 56 2 == 3) = false := by
      obtain ident | ⟨lv, -⟩ := h
      · rw [ident]
        rfl
      · rw [lv]
        exact Bool.and_false _
    exact ⟨_, execCancel_nothing hp perm (cancelLive_nothing h), setS_wrote _ _ _⟩
  · refine fun o => registerResult_of fun s => ?_
    refine congrArg (fun v => Host.Outcome.next (bit0Form s o.p (.ok (setS s o.d v)))) ?_
    dsimp only
    cases ident : identOk (getS s o.a) with
    | false =>
      rw [ctrdOf, ident]
      rfl
    | true =>
      rw [if_neg (by decide)]
      by_cases lv : fieldOf (getS s o.a) 56 2 = 0
      · exact (ctrdOf_launch s _ _ _ ident lv).trans (if_pos lv).symm
      · exact (ctrdOf_level s _ _ _ ident lv).trans (if_neg lv).symm
  · exact congrArg Host.Outcome.next (bit0Form_false _ hp)
  · exact congrArg Host.Outcome.next (bit0Form_false _ hp)
  · exact congrArg Host.Outcome.next (bit0Form_false _ hp)
  · exact congrArg Host.Outcome.next (bit0Form_false _ hp)

end Machine
end Sys2Proof
end

section
/-! ### O41: levels -/
namespace Sys2Proof
namespace Machine

theorem getLevel_onLevel (s : State) (ctx key k : Nat) (f : Level → Level) :
    getLevel (onLevel s ctx key f) ctx k = if k = key then f (getLevel s ctx key) else getLevel s ctx k := by
  rw [getLevel, onLevel, getCtx_onCtx, if_pos rfl]
  split
  · next h => rw [h]; exact amGet_amSet_same ..
  · next h => exact amGet_amSet_other _ _ _ h
theorem getLevel_congr {s t : State} {ctx : Nat} (h : (getCtx t ctx).levels = (getCtx s ctx).levels) (k : Nat) :
    getLevel t ctx k = getLevel s ctx k := by
  rw [getLevel, h, getLevel]
/-- Every level of a context is as live as before, and counts as many launches. -/
structure SameCounts (ctx : Nat) (s t : State) : Prop where
  live : ∀ k, (getLevel t ctx k).live = (getLevel s ctx k).live
  admitted : ∀ k, (getLevel t ctx k).admitted = (getLevel s ctx k).admitted
theorem SameCounts.trans {ctx : Nat} {s t u : State} (h : SameCounts ctx s t) (k : SameCounts ctx t u) : SameCounts ctx s u :=
  ⟨fun x => (k.live x).trans (h.live x), fun x => (k.admitted x).trans (h.admitted x)⟩
theorem onLevel_counts {ctx : Nat} {s : State} {f : Level → Level} (key : Nat) (live : ∀ v, (f v).live = v.live)
    (admitted : ∀ v, (f v).admitted = v.admitted) : SameCounts ctx s (onLevel s ctx key f) := by
  refine ⟨fun k => ?_, fun k => ?_⟩
  · rw [getLevel_onLevel]
    split
    · next e => rw [live, e]
    · rfl
  · rw [getLevel_onLevel]
    split
    · next e => rw [admitted, e]
    · rfl
/-- The graph, the phase and the job of a launch are three levels (R324). -/
theorem levelKeys_nodup (l : Launch) : (levelKeys l).Nodup := by
  have graph : lpbF l 39 1 < 2 ^ 8 := Nat.mod_lt _ (by decide)
  have phase : lpbF l 38 1 < 2 ^ 8 := Nat.mod_lt _ (by decide)
  simp only [levelKeys, graphKey, phaseKey, jobKey, List.nodup_cons, List.mem_cons, List.not_mem_nil, List.nodup_nil, or_false, not_or,
    not_false_eq_true, and_true]
  omega
theorem getLevel_foldl_onLevel (ctx : Nat) (f : Level → Level) (keys : List Nat) (h : keys.Nodup) (s : State) (k : Nat) :
    getLevel (keys.foldl (fun s k => onLevel s ctx k f) s) ctx k = if k ∈ keys then f (getLevel s ctx k) else getLevel s ctx k := by
  induction keys generalizing s with
  | nil => rfl
  | cons key keys ih =>
    obtain ⟨notMem, rest⟩ := List.nodup_cons.mp h
    rw [List.foldl_cons, ih rest, getLevel_onLevel]
    by_cases hk : k = key
    · subst hk
      rw [if_neg notMem, if_pos rfl, if_pos List.mem_cons_self]
    · simp only [List.mem_cons, hk, false_or, if_false]
theorem getLevel_onLevels (s : State) (ctx : Nat) (l : Launch) (f : Level → Level) {k : Nat} (hk : k ∈ levelKeys l) :
    getLevel (onLevels s ctx l f) ctx k = f (getLevel s ctx k) :=
  (getLevel_foldl_onLevel ctx f _ (levelKeys_nodup l) s k).trans (if_pos hk)
/-- A level as the launch `lid` that names it opens it (R324). -/
def openedLevel (lid gen : Nat) (v : Level) : Level :=
  let v := if v.live then v else { Level.init with live := true }
  { v with lids := (v.lids ++ [(lid, gen)]).eraseDups }
theorem openedLevel_counts (lid gen : Nat) (v : Level) : (openedLevel lid gen v).live = true ∧
    (openedLevel lid gen v).admitted = if v.live then v.admitted else 0 := by
  unfold openedLevel
  cases h : v.live with
  | true => exact ⟨h, rfl⟩
  | false => exact ⟨rfl, rfl⟩
/-- What follows the opening of the levels leaves their counts. -/
theorem openLevels_counts (s : State) (ctx lid : Nat) (l : Launch) :
    SameCounts ctx (onLevels s ctx l (openedLevel lid l.gen)) (openLevels s ctx lid l) := by
  have above (s : State) (key up : Nat) : SameCounts ctx s (onLevel s ctx key fun v => { v with above := (up :: v.above).eraseDups }) :=
    onLevel_counts key (fun _ => rfl) fun _ => rfl
  have event (s : State) (key b : Nat) : SameCounts ctx s (onLevel s ctx key fun v => { v with event := some b }) :=
    onLevel_counts key (fun _ => rfl) fun _ => rfl
  unfold openLevels
  dsimp only
  split
  · split
    · exact (above ..).trans ((above ..).trans ((event ..).trans (event ..)))
    · exact (above ..).trans ((above ..).trans (event ..))
  · split
    · exact (above ..).trans ((above ..).trans (event ..))
    · exact (above ..).trans (above ..)
/-- A level that a launch names is live, with the count of a level that was live, or zero (R324). -/
theorem getLevel_openLevels (s : State) (ctx lid : Nat) (l : Launch) {k : Nat} (hk : k ∈ levelKeys l) :
    (getLevel (openLevels s ctx lid l) ctx k).live = true ∧
    (getLevel (openLevels s ctx lid l) ctx k).admitted = if (getLevel s ctx k).live then (getLevel s ctx k).admitted else 0 := by
  have counts := openLevels_counts s ctx lid l
  rw [counts.live, counts.admitted, getLevel_onLevels s ctx l _ hk]
  exact openedLevel_counts ..

/-- Changes of levels leave memory and the events of every context. -/
structure SameEvents (s t : State) : Prop where
  mem : t.mem = s.mem
  events : ∀ c, (getCtx t c).events = (getCtx s c).events
section
variable {s t u : State}

theorem SameEvents.refl (s : State) : SameEvents s s := ⟨rfl, fun _ => rfl⟩
theorem SameEvents.trans (h : SameEvents s t) (k : SameEvents t u) : SameEvents s u :=
  ⟨k.mem.trans h.mem, fun c => (k.events c).trans (h.events c)⟩
theorem SameEvents.foldl {α : Type} {f : State → α → State} (h : ∀ s x, SameEvents s (f s x)) (l : List α) (s : State) :
    SameEvents s (l.foldl f s) := by
  induction l generalizing s with
  | nil => exact .refl s
  | cons x l ih => exact (h s x).trans (ih _)
theorem onCtx_events {ctx : Nat} {f : Context → Context} (h : ∀ c, (f c).events = c.events) : SameEvents s (onCtx s ctx f) :=
  ⟨rfl, fun c => by
    rw [getCtx_onCtx]
    split
    · next e => rw [h, e]
    · rfl⟩
theorem onLevel_events (s : State) (ctx key : Nat) (f : Level → Level) : SameEvents s (onLevel s ctx key f) := onCtx_events fun _ => rfl
theorem openLevels_events (s : State) (ctx lid : Nat) (l : Launch) : SameEvents s (openLevels s ctx lid l) := by
  have named (f : Level → Level) : SameEvents s (onLevels s ctx l f) := .foldl (fun s k => onLevel_events s ctx k f) _ s
  unfold openLevels
  dsimp only
  split
  · split
    · exact (named _).trans ((onLevel_events ..).trans ((onLevel_events ..).trans ((onLevel_events ..).trans (onLevel_events ..))))
    · exact (named _).trans ((onLevel_events ..).trans ((onLevel_events ..).trans (onLevel_events ..)))
  · split
    · exact (named _).trans ((onLevel_events ..).trans ((onLevel_events ..).trans (onLevel_events ..)))
    · exact (named _).trans ((onLevel_events ..).trans (onLevel_events ..))
end

/-! #### The binding of a core (R33, R322) -/

/-- Memory and every context stand, but for where instances are placed. -/
structure CtxStands (s t : State) : Prop where
  mem : t.mem = s.mem
  ctx : ∀ c, getCtx t c = { getCtx s c with placement := (getCtx t c).placement }
/-- The clusters, one core but for its residents, and every thread set stand. -/
structure CoreStands (core : Nat) (s t : State) : Prop where
  clusters : t.clusters = s.clusters
  core : getCore t core = { getCore s core with resid := (getCore t core).resid, pcache := (getCore t core).pcache }
  threads : ∀ g, threadAt t g = threadAt s g
section
variable {s t u : State} {core : Nat}

theorem CtxStands.refl (s : State) : CtxStands s s := ⟨rfl, fun _ => rfl⟩
theorem CtxStands.trans (h : CtxStands s t) (k : CtxStands t u) : CtxStands s u :=
  ⟨k.mem.trans h.mem, fun c => by rw [k.ctx c, h.ctx c]⟩
theorem CtxStands.foldl {α : Type} {f : State → α → State} (h : ∀ s x, CtxStands s (f s x)) (l : List α) (s : State) :
    CtxStands s (l.foldl f s) := by
  induction l generalizing s with
  | nil => exact .refl s
  | cons x l ih => exact (h s x).trans (ih _)
theorem CtxStands.of_same (hm : t.mem = s.mem) (hc : t.ctxs = s.ctxs) : CtxStands s t := ⟨hm, fun c => by rw [getCtx_congr hc]⟩
theorem CoreStands.refl (core : Nat) (s : State) : CoreStands core s s := ⟨rfl, rfl, fun _ => rfl⟩
theorem CoreStands.trans (h : CoreStands core s t) (k : CoreStands core t u) : CoreStands core s u :=
  ⟨k.clusters.trans h.clusters, by rw [k.core, h.core], fun g => (k.threads g).trans (h.threads g)⟩
theorem CoreStands.foldl {α : Type} {f : State → α → State} (h : ∀ s x, CoreStands core s (f s x)) (l : List α) (s : State) :
    CoreStands core s (l.foldl f s) := by
  induction l generalizing s with
  | nil => exact .refl core s
  | cons x l ih => exact (h s x).trans (ih _)

@[simp] theorem setCore_mem (s : State) (c : Nat) (x : CoreSt) : (setCore s c x).mem = s.mem := by unfold setCore; split <;> rfl
@[simp] theorem setCore_clusters (s : State) (c : Nat) (x : CoreSt) : (setCore s c x).clusters = s.clusters := by unfold setCore; split <;> rfl
@[simp] theorem setCore_basePts (s : State) (c : Nat) (x : CoreSt) : (setCore s c x).basePts = s.basePts := by unfold setCore; split <;> rfl
@[simp] theorem setThread_mem (s : State) (g : Nat) (x : Thread) : (setThread s g x).mem = s.mem := by
  unfold setThread
  split
  · rfl
  · exact setCore_mem ..
@[simp] theorem setThread_clusters (s : State) (g : Nat) (x : Thread) : (setThread s g x).clusters = s.clusters := by
  unfold setThread
  split
  · rfl
  · exact setCore_clusters ..
@[simp] theorem setThread_basePts (s : State) (g : Nat) (x : Thread) : (setThread s g x).basePts = s.basePts := by
  unfold setThread
  split
  · rfl
  · exact setCore_basePts ..
theorem onCore_stands (s : State) (c : Nat) (f : CoreSt → CoreSt) : CtxStands s (onCore s c f) := .of_same (setCore_mem ..) (setCore_ctxs ..)
theorem getCore_onCore (s : State) (c d : Nat) (f : CoreSt → CoreSt) : getCore (onCore s c f) d = if d = c then f (getCore s c) else getCore s d :=
  getCore_setCore ..
/-- A change of a core that leaves its thread sets. -/
theorem threadAt_onCore {c : Nat} {f : CoreSt → CoreSt} (h : ∀ x, (f x).threads = x.threads) (g : Nat) : threadAt (onCore s c f) g = threadAt s g := by
  rw [threadAt, onCore, setCore_here, setCore_th, getCore_setCore, threadAt]
  split
  · rfl
  · split
    · next e => rw [slotOf, h, slotOf, e]
    · rfl
theorem onCtx_placement_stands (ctx : Nat) (f : Context → AMap Nat) : CtxStands s (onCtx s ctx fun c => { c with placement := f c }) :=
  ⟨rfl, fun c => by
    rw [getCtx_onCtx]
    split
    · next e => rw [e]
    · rfl⟩
theorem placeResidents_stands (s : State) (ctx lid core : Nat) :
    CtxStands s (placeResidents s ctx lid core) ∧ CoreStands core s (placeResidents s ctx lid core) := by
  unfold placeResidents
  refine ⟨.foldl (fun s i => ?_) _ s, .foldl (fun s i => ?_) _ s⟩
  · dsimp only
    split
    · exact .refl s
    · exact (onCtx_placement_stands ctx _).trans (onCore_stands ..)
  · dsimp only
    split
    · exact .refl core s
    · refine ⟨setCore_clusters .., ?_, fun g => ?_⟩
      · rw [getCore_onCore, if_pos rfl]
        rfl
      · rw [threadAt_onCore]
        · rfl
        · exact fun _ => rfl
theorem placeAll_stands (s : State) (ctx core : Nat) : CtxStands s (placeAll s ctx core) ∧ CoreStands core s (placeAll s ctx core) := by
  unfold placeAll
  refine ⟨.foldl (fun s e => ?_) _ s, .foldl (fun s e => ?_) _ s⟩
  · split
    · exact (placeResidents_stands ..).1
    · exact .refl s
  · split
    · exact (placeResidents_stands ..).2
    · exact .refl core s

/-- A thread set as a binding leaves it (R33, R37). -/
def boundThread (ctx base : Nat) (t : Thread) : Thread := { Thread.init with pts := max t.pts base, csel := ctx }
/-- The thread sets of a core that is bound, in turn. -/
def bindThreads (core ctx : Nat) (l : List Nat) (s : State) : State :=
  l.foldl (fun s t => onThread s (4 * core + t) (boundThread ctx s.basePts)) s
theorem bindThreads_same (core ctx : Nat) (l : List Nat) (s : State) : (bindThreads core ctx l s).mem = s.mem ∧
    (bindThreads core ctx l s).clusters = s.clusters ∧ (bindThreads core ctx l s).ctxs = s.ctxs := by
  induction l generalizing s with
  | nil => exact ⟨rfl, rfl, rfl⟩
  | cons t l ih =>
    obtain ⟨mem, clusters, ctxs⟩ := ih (onThread s (4 * core + t) (boundThread ctx s.basePts))
    exact ⟨mem.trans (setThread_mem ..), clusters.trans (setThread_clusters ..), ctxs.trans (setThread_ctxs ..)⟩
theorem threadAt_bindThreads (core ctx : Nat) (l : List Nat) (h : l.Nodup) (s : State) (i : Nat) :
    threadAt (bindThreads core ctx l s) (4 * core + i) =
      if i ∈ l then boundThread ctx s.basePts (threadAt s (4 * core + i)) else threadAt s (4 * core + i) := by
  induction l generalizing s with
  | nil => rfl
  | cons t l ih =>
    obtain ⟨notMem, rest⟩ := List.nodup_cons.mp h
    rw [bindThreads, List.foldl_cons, ← bindThreads, ih rest, onThread, setThread_basePts, threadAt_setThread]
    by_cases hi : i = t
    · subst hi
      rw [if_neg notMem, if_pos rfl, if_pos List.mem_cons_self]
    · have other : ¬(4 * core + i = 4 * core + t) := by omega
      rw [if_neg other]
      simp only [List.mem_cons, hi, false_or]
theorem openRings_holds (s : State) (k ctx : Nat) : holdsRings (openRings s k ctx) k ctx = true := by
  have same : getClu (openRings s k ctx) k = if (amFind (getClu s k).rings ctx).isSome then getClu s k
      else { getClu s k with rings := amSet (getClu s k).rings ctx RingSet.init } := (getClu_setClu ..).trans (if_pos rfl)
  rw [holdsRings, ringSetOf, same]
  split
  · next h => exact h
  · rw [amFind_amSet_same]
    rfl
/-- A core and its cluster as a binding leaves them (R33, R313). -/
theorem bindCore_shows (s : State) (core ctx : Nat) (pw : W64) (alloc : Nat) : let t := bindCore s core ctx pw alloc
    CtxStands s t ∧ (getCore t core).ctx = some ctx ∧ (getCore t core).pword = pw ∧ (getCore t core).alloc = alloc ∧ (getCore t core).pool = [] ∧
    (getCore t core).l1 = [] ∧ (getCore t core).q = Vector.replicate 16 [] ∧ holdsRings t (cluOf core) ctx = true ∧
    ∀ i < 4, threadAt t (4 * core + i) = { Thread.init with pts := max (threadAt s (4 * core + i)).pts s.basePts, csel := ctx } := by
  intro t
  let r := openRings s (cluOf core) ctx
  let b := bindThreads core ctx (List.range 4) r
  obtain ⟨mem, clusters, ctxs⟩ := bindThreads_same core ctx (List.range 4) r
  have bound : t = onCore b core fun c => installBinds
      { CoreSt.init with threads := c.threads, ctx := some ctx, pword := pw, alloc := alloc, cap := c.cap, gated := c.gated, ptime := c.ptime,
                         tlb := c.tlb.filter fun e => e.ctx == ctx, pcache := (getCtx r ctx).placement, fwd := c.fwd, lastTs := c.lastTs,
                         castled := c.castled } (getCtx r ctx).classes := rfl
  have self : getCore t core = installBinds
      { CoreSt.init with threads := (getCore b core).threads, ctx := some ctx, pword := pw, alloc := alloc, cap := (getCore b core).cap,
                         gated := (getCore b core).gated, ptime := (getCore b core).ptime,
                         tlb := (getCore b core).tlb.filter fun e => e.ctx == ctx, pcache := (getCtx r ctx).placement,
                         fwd := (getCore b core).fwd, lastTs := (getCore b core).lastTs, castled := (getCore b core).castled }
        (getCtx r ctx).classes := by
    rw [bound, getCore_onCore, if_pos rfl]
  refine ⟨?_, ?_, ?_, ?_, ?_, ?_, ?_, ?_, fun i hi => ?_⟩
  · have set : CtxStands b t := by
      rw [bound]
      exact onCore_stands ..
    exact CtxStands.trans (.of_same (t := b) mem ctxs) set
  · rw [self]; rfl
  · rw [self]; rfl
  · rw [self]; rfl
  · rw [self]; rfl
  · rw [self]; rfl
  · rw [self]; rfl
  · have same : getClu t (cluOf core) = getClu r (cluOf core) := by
      rw [getClu, bound, onCore, setCore_clusters, clusters, getClu]
    have holds := openRings_holds s (cluOf core) ctx
    rw [holdsRings, ringSetOf] at holds ⊢
    rw [same]
    exact holds
  · rw [bound, threadAt_onCore, threadAt_bindThreads _ _ _ List.nodup_range, if_pos (List.mem_range.mpr hi)]
    · rfl
    · exact fun _ => rfl
end

end Machine
end Sys2Proof
end

section
/-! ### O41: the events of a launch's course -/
namespace Sys2Proof
namespace Machine

/-! #### Core binding and release -/

theorem bindFor_stands (s : State) (ctx lid core : Nat) : CtxStands s (bindFor s ctx lid core) := by
  unfold bindFor
  dsimp only
  refine CtxStands.trans ?_ (placeAll_stands ..).1
  split
  · exact (bindCore_shows ..).1
  · exact .refl s
theorem evCoreBind_binds {s : State} {core ctx lid : Nat} (live : (getLaunch s ctx lid).live = true)
    (admitted : (getLaunch s ctx lid).admitted = true) (named : core ∈ namedCores (getLaunch s ctx lid))
    (free : bindable s ctx (getLaunch s ctx lid) core = true) (runs : (getCtx s ctx).draining = false) :
    evCoreBind core ctx lid s = some (placeAll (bindCore s core ctx (lpbPool (getLaunch s ctx lid)) (lpbAlloc (getLaunch s ctx lid))) ctx core) := by
  have may : ((getLaunch s ctx lid).live && (getLaunch s ctx lid).admitted && (namedCores (getLaunch s ctx lid)).contains core &&
      bindable s ctx (getLaunch s ctx lid) core && !(getCtx s ctx).draining) = true := by
    rw [live, admitted, List.contains_iff_mem.mpr named, free, runs]
    rfl
  have binds : bindFor s ctx lid core = placeAll (bindCore s core ctx (lpbPool (getLaunch s ctx lid)) (lpbAlloc (getLaunch s ctx lid))) ctx core :=
    congrArg (placeAll · ctx core) (if_pos free)
  rw [← binds]
  exact if_pos may
theorem coreBind_shows {s : State} {core ctx lid : Nat} (live : (getLaunch s ctx lid).live = true)
    (admitted : (getLaunch s ctx lid).admitted = true) (named : core ∈ namedCores (getLaunch s ctx lid))
    (free : bindable s ctx (getLaunch s ctx lid) core = true) (runs : (getCtx s ctx).draining = false) :
    ∃ t, exec (.coreBind core ctx lid) s = .next t ∧ (getCore t core).ctx = some ctx ∧ (getCore t core).pword = lpbPool (getLaunch s ctx lid) ∧
      (getCore t core).alloc = lpbAlloc (getLaunch s ctx lid) ∧ (getCore t core).pool = [] ∧ (getCore t core).l1 = [] ∧
      (getCore t core).q = Vector.replicate 16 [] ∧ holdsRings t (cluOf core) ctx = true ∧ t.mem = s.mem ∧
      ∀ i < 4, threadAt t (4 * core + i) = { Thread.init with pts := max (threadAt s (4 * core + i)).pts s.basePts, csel := ctx } := by
  obtain ⟨stands, ctx', pword, alloc, pool, l1, q, rings, threads⟩ :=
    bindCore_shows s core ctx (lpbPool (getLaunch s ctx lid)) (lpbAlloc (getLaunch s ctx lid))
  obtain ⟨placed, same⟩ := placeAll_stands (bindCore s core ctx (lpbPool (getLaunch s ctx lid)) (lpbAlloc (getLaunch s ctx lid))) ctx core
  refine ⟨_, congrArg (fun o : Option State => Host.Outcome.next (o.getD s)) (evCoreBind_binds live admitted named free runs), ?_⟩
  rw [Option.getD_some]
  refine ⟨by rw [same.core]; exact ctx', by rw [same.core]; exact pword, by rw [same.core]; exact alloc, by rw [same.core]; exact pool,
    by rw [same.core]; exact l1, by rw [same.core]; exact q, ?_, placed.mem.trans stands.mem, fun i hi => (same.threads _).trans (threads i hi)⟩
  rw [holdsRings, ringSetOf, getClu] at rings ⊢
  rw [same.clusters]
  exact rings

theorem settleRings_core (s : State) (k ctx c : Nat) : getCore (settleRings s k ctx) c = getCore s c ∧ (settleRings s k ctx).mem = s.mem := by
  unfold settleRings
  split
  · exact ⟨rfl, rfl⟩
  · exact ⟨rfl, rfl⟩
theorem releaseCore_shows {s : State} {core ctx : Nat} (h : (getCore s core).ctx = some ctx) : let t := releaseCore s core
    (getCore t core).ctx = none ∧ (getCore t core).pword = 0 ∧ (getCore t core).l1 = [] ∧
    (getCore t core).binds = Vector.replicate 8 ⟨0, false, false⟩ ∧ t.mem = s.mem := by
  intro t
  let freed : CoreSt → CoreSt := fun c => { c with
    ctx := none, pword := 0, alloc := 0, q := Vector.replicate 16 [], binds := Vector.replicate 8 ⟨0, false, false⟩, resid := [], pcache := [], l1 := [] }
  have released : t = settleRings (onCore s core freed) (cluOf core) ctx := by
    change releaseCore s core = _
    rw [releaseCore, h]
  obtain ⟨kept, mem⟩ := settleRings_core (onCore s core freed) (cluOf core) ctx core
  have self : getCore t core = freed (getCore s core) := by
    rw [released, kept, getCore_onCore, if_pos rfl]
  rw [self]
  refine ⟨rfl, rfl, rfl, rfl, ?_⟩
  rw [released, mem]
  exact setCore_mem ..
theorem evCoreRelease_releases {s : State} {core ctx : Nat} (h : (getCore s core).ctx = some ctx)
    (idle : ∀ i < 4, idleSet s (4 * core + i) = true) (resid : (getCore s core).resid = [])
    (unnamed : ∀ e ∈ (getCtx s ctx).launches, e.2.live = true → e.2.admitted = true → core ∈ namedCores e.2 → boundFor s ctx e.2 core = false)
    (held : (getCore s core).held = false) (noCastle : castling s core = false) (mq : (getCore s core).mq = [])
    (left : holdsRecords s (cluOf core) ctx = false ∨ ∃ i < 8, 8 * cluOf core + i ≠ core ∧ (getCore s (8 * cluOf core + i)).ctx = some ctx) :
    evCoreRelease core s = some (releaseCore s core) := by
  have idles : ((List.range 4).all fun t => idleSet s (4 * core + t)) = true :=
    List.all_eq_true.mpr fun i hi => idle i (List.mem_range.mp hi)
  have named : ((getCtx s ctx).launches.any fun e => e.2.live && e.2.admitted && (namedCores e.2).contains core && boundFor s ctx e.2 core) = false := by
    refine List.any_eq_false.mpr fun e he all => ?_
    simp only [Bool.and_eq_true, List.contains_iff_mem] at all
    obtain ⟨⟨⟨live, admitted⟩, mem⟩, bound⟩ := all
    rw [unnamed e he live admitted mem] at bound
    cases bound
  have records : ((!(List.range 8).any fun i => 8 * cluOf core + i != core && (getCore s (8 * cluOf core + i)).ctx == some ctx) &&
      holdsRecords s (cluOf core) ctx) = false := by
    obtain none_ | ⟨i, hi, other, bound⟩ := left
    · rw [none_, Bool.and_false]
    · have shared : ((List.range 8).any fun i => 8 * cluOf core + i != core && (getCore s (8 * cluOf core + i)).ctx == some ctx) = true :=
        List.any_eq_true.mpr ⟨i, List.mem_range.mpr hi, by simp [other, bound]⟩
      rw [shared]
      rfl
  rw [evCoreRelease, h]
  dsimp only
  rw [idles, resid, named, held, noCastle, records, mq]
  rfl

/-! #### Dispatch (R34, R312) -/

theorem unitRec_shows (l : Launch) (lid i : Nat) : recUnit (unitRec l lid i) = i % 2 ^ 31 ∧ recLU (unitRec l lid i) = true ∧
    recCode (unitRec l lid i) = BitVec.ofNat 64 (lpbF l 0 8) := by
  have fields (code frame join : W64) (unit prio lid : Nat) (hit nosteal : Bool) :
      (mkRec code frame join unit true prio hit nosteal lid).toNat = code.toNat + 2 ^ 64 * (frame.toNat + 2 ^ 64 * (join.toNat + 2 ^ 64 *
        (unit % 2 ^ 31 + 2 ^ 31 * (1 + 2 * (prio % 8 + 8 * (bit hit + 4 * (bit nosteal + 2 ^ 19 * (lid % 256)))))))) := by
    have h1 := code.isLt
    have h2 := frame.isLt
    have h3 := join.isLt
    have h4 : bit hit ≤ 1 := by cases hit <;> decide
    have h5 : bit nosteal ≤ 1 := by cases nosteal <;> decide
    have h6 : bit true = 1 := rfl
    rw [mkRec, BitVec.toNat_ofNat, h6]
    omega
  have code : lpbF l 0 8 < 2 ^ 64 := Nat.mod_lt _ (by decide)
  have toNat : (BitVec.ofNat 64 (lpbF l 0 8)).toNat = lpbF l 0 8 := (BitVec.toNat_ofNat ..).trans (Nat.mod_eq_of_lt code)
  have whole := fields (BitVec.ofNat 64 (lpbF l 0 8)) (BitVec.ofNat 64 (lpbF l 8 8 + i * lpbF l 16 8))
    (BitVec.ofNat 64 (if lpbF l 200 8 = 0 then 0 else lpbF l 200 8 + 64 * i)) i (lpbCtl l 0 3) lid false (lpbCtl l 5 1 == 1)
  have h2 := (BitVec.ofNat 64 (lpbF l 8 8 + i * lpbF l 16 8)).isLt
  have h3 := (BitVec.ofNat 64 (if lpbF l 200 8 = 0 then 0 else lpbF l 200 8 + 64 * i)).isLt
  rw [toNat] at whole
  refine ⟨?_, ?_, ?_⟩
  · change (unitRec l lid i).toNat / 2 ^ 192 % 2 ^ 31 = _
    rw [unitRec, whole]
    omega
  · change ((unitRec l lid i).toNat / 2 ^ 223 % 2 == 1) = true
    rw [unitRec, whole, beq_iff_eq]
    omega
  · change BitVec.ofNat 64 ((unitRec l lid i).toNat / 2 ^ 0 % 2 ^ 64) = _
    rw [unitRec, whole]
    refine congrArg (BitVec.ofNat 64) ?_
    omega
/-- The cluster that the next unit of a launch goes to (R34). -/
def unitCluster (l : Launch) : Nat := (lpbClusters l).getD (l.next % max 1 (lpbClusters l).length) 0
theorem evDispatch_pushes {s u v : State} {ctx lid : Nat} (live : (getLaunch s ctx lid).live = true)
    (admitted : (getLaunch s ctx lid).admitted = true) (tail : (getLaunch s ctx lid).tail = none) (runs : (getCtx s ctx).draining = false)
    (more : (getLaunch s ctx lid).next < lpbUnits (getLaunch s ctx lid)) (window : (getLaunch s ctx lid).next < (getLaunch s ctx lid).head + 256)
    (bound : ∃ c ∈ lpbCores (getLaunch s ctx lid), cluOf c = unitCluster (getLaunch s ctx lid) ∧ boundFor s ctx (getLaunch s ctx lid) c = true)
    (joins : readyJoin s ctx (unitCluster (getLaunch s ctx lid)) lid (getLaunch s ctx lid).next (getLaunch s ctx lid) = .ok u)
    (pushes : pushRec u (unitCluster (getLaunch s ctx lid)) ctx (unitRec (getLaunch s ctx lid) lid (getLaunch s ctx lid).next) = some v) :
    evDispatch ctx lid s = some (onLaunch v ctx lid fun x => { x with next := (getLaunch s ctx lid).next + 1 }) := by
  have ready : ((lpbCores (getLaunch s ctx lid)).any fun c =>
      cluOf c == unitCluster (getLaunch s ctx lid) && boundFor s ctx (getLaunch s ctx lid) c) = true := by
    obtain ⟨c, hc, clu, for_⟩ := bound
    exact List.any_eq_true.mpr ⟨c, hc, by rw [clu, for_, beq_self_eq_true]; rfl⟩
  unfold unitCluster at ready joins pushes
  rw [evDispatch]
  dsimp only
  rw [live, admitted, tail, runs, decide_eq_false (Nat.not_le.mpr more), decide_eq_false (Nat.not_le.mpr window), ready, joins]
  dsimp only
  rw [pushes]
  rfl

/-! #### Residents (R322) -/

theorem getCore_foldl_onCore (f : CoreSt → CoreSt) (l : List Nat) (s : State) (c : Nat) (again : ∀ x, f (f x) = f x) :
    getCore (l.foldl (fun s c => onCore s c f) s) c = if c ∈ l then f (getCore s c) else getCore s c := by
  induction l generalizing s with
  | nil => rfl
  | cons d l ih =>
    rw [List.foldl_cons, ih, getCore_onCore]
    by_cases hd : c = d
    · subst hd
      rw [if_pos rfl, if_pos List.mem_cons_self]
      split
      · exact again _
      · rfl
    · simp only [List.mem_cons, hd, false_or, if_false]
theorem evResidRelease_releases {s : State} {ctx lid : Nat} (complete : (getLaunch s ctx lid).complete = true)
    (held : (getLaunch s ctx lid).residReleased = false)
    (idle : ∀ c ∈ coresOf s ctx, ∀ r ∈ (getCore s c).resid, r.lid = lid → residIdle s c r = true) :
    ∃ t, exec (.residentRelease ctx lid) s = .next t ∧ (getLaunch t ctx lid).residReleased = true ∧
      ∀ c ∈ coresOf s ctx, (getCore t c).resid = (getCore s c).resid.filter fun r => r.lid != lid := by
  let freed : CoreSt → CoreSt := fun x => { x with resid := x.resid.filter fun r => r.lid != lid }
  have idles : ((coresOf s ctx).all fun c => ((getCore s c).resid.filter fun r => r.lid == lid).all (residIdle s c)) = true :=
    List.all_eq_true.mpr fun c hc => List.all_eq_true.mpr fun r hr => by
      obtain ⟨mem, mine⟩ := List.mem_filter.mp hr
      exact idle c hc r mem (by simpa using mine)
  have releases : evResidRelease ctx lid s = some (onLaunch (onCtx ((coresOf s ctx).foldl (fun s c => onCore s c freed) s) ctx fun c =>
      { c with placement := c.placement.filter fun e => e.1 / numCores % 256 != lid }) ctx lid fun x => { x with residReleased := true }) := by
    rw [evResidRelease, complete, held, idles]
    rfl
  refine ⟨_, congrArg (fun o : Option State => Host.Outcome.next (o.getD s)) releases, ?_, fun c hc => ?_⟩
  · rw [Option.getD_some, getLaunch_onLaunch]
  · have core := getCore_foldl_onCore freed (coresOf s ctx) s c fun x => by simp only [freed, List.filter_filter, Bool.and_self]
    rw [if_pos hc] at core
    exact congrArg CoreSt.resid core

/-! #### Admission (R322, R324) -/

/-- Bits that a launch waits for. -/
def waitMask (l : Launch) : BitVec 256 := BitVec.ofNat 256 (lpbF l 96 32)
/-- A launch marked as admitted, and counted in its levels (R322, R324). -/
def admittedEntry (s : State) (ctx lid : Nat) (l : Launch) : State :=
  onLaunch (if lpbCtl l 3 1 = 1 then clearMask s ctx (waitMask l) else s) ctx lid fun x => { x with admitted := true }
def admittedLevels (s : State) (ctx lid : Nat) (l : Launch) : State :=
  onLevels (openLevels (admittedEntry s ctx lid l) ctx lid l) ctx l fun v => { v with admitted := v.admitted + 1 }
/-- Its classes and its overflow table, in the context and on the context's cores. -/
def admittedClasses (s : State) (ctx lid : Nat) (l : Launch) : State :=
  let t := onCtx (admittedLevels s ctx lid l) ctx fun c =>
    { c with classes := l.ctab.foldl (fun m e => amSet m e.1 e.2) c.classes, ovft := if lpbF l 248 8 = 0 then c.ovft else BitVec.ofNat 64 (lpbF l 248 8) }
  (coresOf t ctx).foldl (fun s c => onCore s c fun x => installBinds x l.ctab) t
theorem evAdmit_admits {s : State} {ctx lid : Nat} (live : (getLaunch s ctx lid).live = true)
    (waits : (getLaunch s ctx lid).admitted = false) (runs : (getCtx s ctx).draining = false)
    (set : (getCtx s ctx).events &&& waitMask (getLaunch s ctx lid) = waitMask (getLaunch s ctx lid)) (units : lpbUnits (getLaunch s ctx lid) ≠ 0) :
    evAdmit ctx lid s = some ((namedCores (getLaunch s ctx lid)).foldl (fun s c => bindFor s ctx lid c)
      (admittedClasses s ctx lid (getLaunch s ctx lid))) := by
  have may : ¬((!(getLaunch s ctx lid).live || (getLaunch s ctx lid).admitted || (getCtx s ctx).draining ||
      (getCtx s ctx).events &&& waitMask (getLaunch s ctx lid) != waitMask (getLaunch s ctx lid)) = true) := by
    rw [live, waits, runs, set, bne_self_eq_false]
    decide
  exact (if_neg may).trans (congrArg some (if_neg units))
/-- What stands between the count of a launch in its levels and its admission. -/
theorem admittedClasses_stands (s : State) (ctx lid : Nat) (l : Launch) : let t := admittedLevels s ctx lid l
    let u := (namedCores l).foldl (fun s c => bindFor s ctx lid c) (admittedClasses s ctx lid l)
    u.mem = t.mem ∧ (getCtx u ctx).launches = (getCtx t ctx).launches ∧ (getCtx u ctx).levels = (getCtx t ctx).levels ∧
    (getCtx u ctx).events = (getCtx t ctx).events := by
  intro t u
  let v := onCtx t ctx fun c =>
    { c with classes := l.ctab.foldl (fun m e => amSet m e.1 e.2) c.classes, ovft := if lpbF l 248 8 = 0 then c.ovft else BitVec.ofNat 64 (lpbF l 248 8) }
  have stands : CtxStands v u := (CtxStands.foldl (fun s c => onCore_stands s c _) (coresOf v ctx) v).trans
    (.foldl (fun s c => bindFor_stands s ctx lid c) _ _)
  have classes : getCtx v ctx = { getCtx t ctx with
      classes := l.ctab.foldl (fun m e => amSet m e.1 e.2) (getCtx t ctx).classes
      ovft := if lpbF l 248 8 = 0 then (getCtx t ctx).ovft else BitVec.ofNat 64 (lpbF l 248 8) } := (getCtx_onCtx ..).trans (if_pos rfl)
  refine ⟨stands.mem, ?_, ?_, ?_⟩
  · rw [stands.ctx, classes]
  · rw [stands.ctx, classes]
  · rw [stands.ctx, classes]
theorem admittedEntry_shows (s : State) (ctx lid : Nat) (l : Launch) : let t := admittedEntry s ctx lid l
    getLaunch t ctx lid = { getLaunch s ctx lid with admitted := true } ∧ t.mem = s.mem ∧ (getCtx t ctx).levels = (getCtx s ctx).levels ∧
    (getCtx t ctx).events = if lpbCtl l 3 1 = 1 then (getCtx s ctx).events &&& ~~~waitMask l else (getCtx s ctx).events := by
  intro t
  by_cases h : lpbCtl l 3 1 = 1
  · have entry : t = onLaunch (clearMask s ctx (waitMask l)) ctx lid fun x => { x with admitted := true } :=
      congrArg (onLaunch · ctx lid _) (if_pos h)
    have self : getCtx (clearMask s ctx (waitMask l)) ctx = { getCtx s ctx with events := (getCtx s ctx).events &&& ~~~waitMask l } :=
      (getCtx_onCtx ..).trans (if_pos rfl)
    rw [entry, getLaunch_onLaunch, (clearMask_launches ..).launch, onLaunch, getCtx_onCtx, if_pos rfl, self, if_pos h]
    exact ⟨rfl, rfl, rfl, rfl⟩
  · have entry : t = onLaunch s ctx lid fun x => { x with admitted := true } := congrArg (onLaunch · ctx lid _) (if_neg h)
    rw [entry, getLaunch_onLaunch, onLaunch, getCtx_onCtx, if_pos rfl, if_neg h]
    exact ⟨rfl, rfl, rfl, rfl⟩
/-- The entry, the levels and the events of a launch that has been counted in its levels. -/
theorem admittedLevels_shows (s : State) (ctx lid : Nat) (l : Launch) : let t := admittedLevels s ctx lid l
    getLaunch t ctx lid = { getLaunch s ctx lid with admitted := true } ∧ t.mem = s.mem ∧
    (∀ k ∈ levelKeys l, (getLevel t ctx k).live = true ∧
      (getLevel t ctx k).admitted = (if (getLevel s ctx k).live then (getLevel s ctx k).admitted else 0) + 1) ∧
    (getCtx t ctx).events = (if lpbCtl l 3 1 = 1 then (getCtx s ctx).events &&& ~~~waitMask l else (getCtx s ctx).events) := by
  intro t
  obtain ⟨entry, mem, levels, events⟩ := admittedEntry_shows s ctx lid l
  have sameEvents : SameEvents (admittedEntry s ctx lid l) t :=
    (openLevels_events _ ctx lid l).trans (.foldl (fun s k => onLevel_events s ctx k _) _ _)
  have launches : SameLaunches (admittedEntry s ctx lid l) t := (openLevels_launches _ ctx lid l).trans (onLevels_launches ..)
  refine ⟨(launches.launch ctx lid).trans entry, sameEvents.mem.trans mem, fun k hk => ?_, (sameEvents.events ctx).trans events⟩
  obtain ⟨live, admitted⟩ := getLevel_openLevels (admittedEntry s ctx lid l) ctx lid l hk
  have counted : getLevel t ctx k = { getLevel (openLevels (admittedEntry s ctx lid l) ctx lid l) ctx k with
      admitted := (getLevel (openLevels (admittedEntry s ctx lid l) ctx lid l) ctx k).admitted + 1 } := getLevel_onLevels _ ctx l _ hk
  rw [getLevel_congr levels k] at admitted
  rw [counted]
  exact ⟨live, congrArg (· + 1) admitted⟩
theorem launchAdmission_shows {s : State} {ctx lid : Nat} (live : (getLaunch s ctx lid).live = true)
    (waits : (getLaunch s ctx lid).admitted = false) (runs : (getCtx s ctx).draining = false)
    (set : (getCtx s ctx).events &&& waitMask (getLaunch s ctx lid) = waitMask (getLaunch s ctx lid)) (units : lpbUnits (getLaunch s ctx lid) ≠ 0) :
    ∃ t, exec (.launchAdmission ctx lid) s = .next t ∧ getLaunch t ctx lid = { getLaunch s ctx lid with admitted := true } ∧ t.mem = s.mem ∧
      (∀ k ∈ levelKeys (getLaunch s ctx lid), (getLevel t ctx k).live = true ∧
        (getLevel t ctx k).admitted = (if (getLevel s ctx k).live then (getLevel s ctx k).admitted else 0) + 1) ∧
      (getCtx t ctx).events = (if lpbCtl (getLaunch s ctx lid) 3 1 = 1 then (getCtx s ctx).events &&& ~~~waitMask (getLaunch s ctx lid)
        else (getCtx s ctx).events) := by
  obtain ⟨mem, launches, levels, events⟩ := admittedClasses_stands s ctx lid (getLaunch s ctx lid)
  obtain ⟨entry, mem', levels', events'⟩ := admittedLevels_shows s ctx lid (getLaunch s ctx lid)
  refine ⟨_, congrArg (fun o : Option State => Host.Outcome.next (o.getD s)) (evAdmit_admits live waits runs set units), ?_⟩
  rw [Option.getD_some]
  refine ⟨?_, mem.trans mem', fun k hk => ?_, events.trans events'⟩
  · rw [getLaunch, launches]
    exact entry
  · rw [getLevel_congr levels]
    exact levels' k hk

/-- Settles O41: the events of a launch's course, one by one, and the reports of its window. -/
theorem launchesAreAdmittedBoundDispatchedAndReportedInOrder : Obligations.LaunchesAreAdmittedBoundDispatchedAndReportedInOrder := by
  refine ⟨⟨fun s ctx lid => ?_, fun s core ctx lid => ?_, fun s core ctx h idle resid unnamed held noCastle mq left => ?_,
    fun s u v ctx lid => ?_, fun s ctx lid complete held idle => evResidRelease_releases complete held idle⟩,
    fun s ctx lid st pay => ?_, fun s ctx lid st x => ?_, fun s ctx lid => ?_, fun n s ctx lid => reportAll_covered ctx lid n s⟩
  · intro l wait live waits runs set units
    obtain ⟨t, exec_, entry, mem, levels, events⟩ := launchAdmission_shows live waits runs set units
    refine ⟨t, exec_, ?_, ?_, ?_, ?_, mem, levels, events⟩
    · rw [entry]
    · rw [entry]
      exact live
    · rw [entry]
    · rw [entry]
  · exact fun live admitted named free runs => coreBind_shows live admitted named free runs
  · exact ⟨_, congrArg (fun o : Option State => Host.Outcome.next (o.getD s))
      (evCoreRelease_releases h idle resid unnamed held noCastle mq left), releaseCore_shows h⟩
  · intro l k live admitted tail runs more window bound joins pushes
    refine ⟨_, congrArg (fun o : Option State => Host.Outcome.next (o.getD s))
      (evDispatch_pushes live admitted tail runs more window bound joins pushes), ?_, rfl, unitRec_shows ..⟩
    rw [Option.getD_some, getLaunch_onLaunch]
  · intro l found head
    obtain ⟨c, entry⟩ := getLaunch_reportedState s ctx lid (st, pay)
    obtain ⟨head', -, recs, counts⟩ := reportedLaunch_shows l st c
    refine ⟨_, reportHead_some (headReport_record found) head, ?_⟩
    rw [entry]
    exact ⟨head', recs, counts⟩
  · intro l found tail head
    have report := headReport_tail found tail
    refine ⟨fun before => reportHead_none (report.trans (if_neg (Nat.not_le.mpr before))), fun covered => ?_⟩
    obtain ⟨c, entry⟩ := getLaunch_reportedState s ctx lid (st, 0)
    obtain ⟨head', tail', -, counts⟩ := reportedLaunch_shows l st c
    refine ⟨_, reportHead_some (report.trans (if_pos covered)) head, ?_⟩
    rw [entry]
    exact ⟨head', tail', counts⟩
  · exact fun tail found => reportHead_none (headReport_nothing found tail)

end Machine
end Sys2Proof
end

section
/-! ### O1, O2: instruction words -/
namespace Sys2Proof
namespace Laws
namespace Encoding

/-- The statement of the family, for every constructor: an event shares the word of no instruction. -/
theorem statement (i : Instr) : Statement i := by
  cases i with
  | add o => exact add o | sub o => exact sub o | addi o => exact addi o | mul o => exact mul o | mulh o => exact mulh o
  | mulhn o => exact mulhn o | div o => exact div o | divn o => exact divn o | rem o => exact rem o | remn o => exact remn o
  | and o => exact and o | or o => exact or o | xor o => exact xor o | andn o => exact andn o | orn o => exact orn o
  | shl o => exact shl o | shr o => exact shr o | sar o => exact sar o | rol o => exact rol o | ror o => exact ror o
  | clz o => exact clz o | ctz o => exact ctz o | popc o => exact popc o | min o => exact min o | max o => exact max o
  | minn o => exact minn o | maxn o => exact maxn o | sext o => exact sext o | zext o => exact zext o | bfx o => exact bfx o
  | bfi o => exact bfi o | sel o => exact sel o | li o => exact li o | addip o => exact addip o | lea o => exact lea o
  | mov o => exact mov o | cmpI o => exact cmpI o | cmpF o => exact cmpF o | pand o => exact pand o | por o => exact por o
  | pxor o => exact pxor o | pnot o => exact pnot o | pmov o => exact pmov o | pcnt o => exact pcnt o | xset o => exact xset o
  | xadd o => exact xadd o | xmov o => exact xmov o | xget o => exact xget o | br o => exact br o | jmp o => exact jmp o
  | call o => exact call o | ret o => exact ret o | loop o => exact loop o | brx o => exact brx o | end_ o => exact end_ o
  | yield_ o => exact yield_ o | ld o => exact ld o | st o => exact st o | vld o => exact vld o
  | vldConverting o => exact vldConverting o | vst o => exact vst o | vldm o => exact vldm o | vstm o => exact vstm o
  | ldk o => exact ldk o | pref o => exact pref o | vgath32 o => exact vgath32 o | vgath64 o => exact vgath64 o
  | vscat32 o => exact vscat32 o | vscat64 o => exact vscat64 o | trap o => exact trap o | tret o => exact tret o
  | upret o => exact upret o | mfs o => exact mfs o | mts o => exact mts o | sysc o => exact sysc o | brk o => exact brk o
  | rdtime o => exact rdtime o | ifence o => exact ifence o | halt o => exact halt o | vaddI o => exact vaddI o
  | vaddF o => exact vaddF o | vsubI o => exact vsubI o | vsubF o => exact vsubF o | vmulI o => exact vmulI o | vmulF o => exact vmulF o
  | vfma o => exact vfma o | vfms o => exact vfms o | vfnma o => exact vfnma o | vdiv o => exact vdiv o | vsqrt o => exact vsqrt o
  | vrcp o => exact vrcp o | vrsqrt o => exact vrsqrt o | vexp2 o => exact vexp2 o | vlog2 o => exact vlog2 o | vminI o => exact vminI o
  | vminF o => exact vminF o | vmaxI o => exact vmaxI o | vmaxF o => exact vmaxF o | vabsI o => exact vabsI o | vabsF o => exact vabsF o
  | vnegI o => exact vnegI o | vnegF o => exact vnegF o | vcmpI o => exact vcmpI o | vcmpF o => exact vcmpF o | vsel o => exact vsel o
  | vcvtII o => exact vcvtII o | vcvtIF o => exact vcvtIF o | vcvtFI o => exact vcvtFI o | vcvtFF o => exact vcvtFF o
  | vround o => exact vround o | vand o => exact vand o | vor o => exact vor o | vxor o => exact vxor o | vshl o => exact vshl o
  | vshr o => exact vshr o | vsar o => exact vsar o | vperm32 o => exact vperm32 o | vperm64 o => exact vperm64 o
  | vbcast32 o => exact vbcast32 o | vbcast64 o => exact vbcast64 o | vext o => exact vext o | vins o => exact vins o
  | vredaddI o => exact vredaddI o | vredaddF o => exact vredaddF o | vredminI o => exact vredminI o | vredminF o => exact vredminF o
  | vredmaxI o => exact vredmaxI o | vredmaxF o => exact vredmaxF o | vscanI o => exact vscanI o | vscanF o => exact vscanF o
  | vdot8 o => exact vdot8 o | vdot16 o => exact vdot16 o | vmac8 o => exact vmac8 o | vmac16 o => exact vmac16 o
  | vrng o => exact vrng o | vcompress o => exact vcompress o | vexpand o => exact vexpand o | vpopc o => exact vpopc o
  | vlane o => exact vlane o | vmov o => exact vmov o | mbld8 o => exact mbld8 o | mbld16 o => exact mbld16 o | mbrel o => exact mbrel o
  | mld32 o => exact mld32 o | mld16 o => exact mld16 o | mst32 o => exact mst32 o | mst16 o => exact mst16 o | mzero o => exact mzero o
  | mmulE2M1 o => exact mmulE2M1 o | mmul8 o => exact mmul8 o | mmul16 o => exact mmul16 o | mmacE2M1 o => exact mmacE2M1 o
  | mmac8 o => exact mmac8 o | mmac16 o => exact mmac16 o | mfac o => exact mfac o | mlradd o => exact mlradd o
  | mlrmul o => exact mlrmul o | mreef o => exact mreef o | mprom o => exact mprom o | mrank o => exact mrank o | mcvt o => exact mcvt o
  | mtr o => exact mtr o | mscale o => exact mscale o | mrec o => exact mrec o | mrun o => exact mrun o | mwait o => exact mwait o
  | mfree o => exact mfree o | rayopen o => exact rayopen o | raytrace o => exact raytrace o | raywait o => exact raywait o
  | ivpost o => exact ivpost o | ivread o => exact ivread o | ivclr o => exact ivclr o | ivstat o => exact ivstat o
  | hitq o => exact hitq o | rsvupd o => exact rsvupd o | rsvmrg o => exact rsvmrg o | rsvget o => exact rsvget o
  | logset o => exact logset o | replay o => exact replay o | amoI o => exact amoI o | amoF o => exact amoF o | cas o => exact cas o
  | cas2 o => exact cas2 o | redI o => exact redI o | redF o => exact redF o | amsg o => exact amsg o | gath o => exact gath o
  | fence o => exact fence o | ldPath o => exact ldPath o | stPath o => exact stPath o | vldPath o => exact vldPath o
  | vstPath o => exact vstPath o | cset o => exact cset o | cpygo o => exact cpygo o | cpycan o => exact cpycan o
  | semw o => exact semw o | seminc o => exact seminc o | semset o => exact semset o | mcset o => exact mcset o | rst o => exact rst o
  | send o => exact send o | cmask o => exact cmask o | cunmask o => exact cunmask o | qbind o => exact qbind o | qlen o => exact qlen o
  | qdrop o => exact qdrop o | spawn o => exact spawn o | spawnt o => exact spawnt o | join o => exact join o | ejoin o => exact ejoin o
  | ewait o => exact ewait o | eset o => exact eset o | launch o => exact launch o | cancel o => exact cancel o | ctrd o => exact ctrd o
  | resid o => exact resid o | defer_ o => exact defer_ o | castpin o => exact castpin o | tlbinv o => exact tlbinv o
  | ctxsv o => exact ctxsv o | ctxrs o => exact ctxrs o | rgload o => exact rgload o | mtsp o => exact mtsp o
  | _ => exact of_zero rfl rfl

end Encoding

/-- A well-formed instruction is read back from its word (R49 to R61). -/
theorem decodeWord_encode {i : Instr} (hi : i.isInstruction = true) (hw : i.wf = true) : decodeWord (encode i) = .ok i := by
  have h := Encoding.statement i
  rw [Encoding.Statement, hi] at h
  exact h hw
/-- What a word decodes to is an instruction: the word of an event has opcode 0. -/
theorem isInstruction_of_decodeWord {w : W96} {i : Instr} (h : decodeWord w = .ok i) : i.isInstruction = true := by
  rw [← encode_of_decodeWord h] at h
  have said := Encoding.statement i
  rw [Encoding.Statement] at said
  cases hi : i.isInstruction with
  | true => rfl
  | false =>
    rw [hi] at said
    cases h.symm.trans said
/-- The checks that the fields of a word pass when it decodes (R63 step 3). -/
theorem checks_of_decodeRaw {r : Raw} {i : Instr} (h : decodeRaw r = .ok i) :
    r.opc ≠ 0 ∧ r.pred ≠ 8 ∧ i.wf = true ∧ ∃ row, rows[r.opc.toNat - 1]? = some row ∧ r.fmt.toNat = row.fmt := by
  unfold decodeRaw at h
  split at h
  · cases h
  next assigned =>
  split at h
  · cases h
  next row hrow =>
  split at h
  · cases h
  next fmt =>
  split at h
  · cases h
  next pred =>
  split at h
  · cases h
  split at h
  · cases h
  split at h
  next wf =>
    cases h
    exact ⟨assigned, pred, wf, row, hrow, not_not.mp fmt⟩
  · cases h
theorem rows_length : rows.length = 224 := by decide +kernel
/-- The formats of the opcode map are those of R50. -/
theorem rows_fmt : ∀ row ∈ rows, row.fmt < 8 := by decide +kernel

end Laws

namespace Machine
open Laws

/-- Settles O1: each form is read back by its own law, what decodes has passed the decoder's checks, and a word's fields that fail one
of them are not those of a word that decodes. -/
theorem decodeReadsBackEveryWellFormedWord : Obligations.DecodeReadsBackEveryWellFormedWord := by
  refine ⟨fun i hi hw => decodeWord_encode hi hw, fun w i h => ?_, ?_⟩
  · obtain ⟨-, -, wf, -⟩ := checks_of_decodeRaw h
    exact ⟨isInstruction_of_decodeWord h, wf, encode_of_decodeWord h⟩
  · intro w opc bad i h
    obtain ⟨assigned, pred, -, row, hrow, fmt⟩ := checks_of_decodeRaw h
    have hopc : (Raw.ofWord w).opc.toNat = opc := by simp [Raw.ofWord, opc]
    have hpred : (Raw.ofWord w).pred.toNat = w.toNat / 256 % 16 := by simp [Raw.ofWord, Nat.shiftRight_eq_div_pow]
    have hfmt : (Raw.ofWord w).fmt.toNat = w.toNat / 4096 % 16 := by simp [Raw.ofWord, Nat.shiftRight_eq_div_pow]
    obtain zero | high | negated | foreign := bad
    · exact assigned (BitVec.eq_of_toNat_eq (hopc.trans zero))
    · have inMap := (List.getElem?_eq_some_iff.mp hrow).1
      rw [rows_length, hopc] at inMap
      omega
    · exact pred (BitVec.eq_of_toNat_eq (hpred.trans negated))
    · have := rows_fmt row (List.mem_of_getElem? hrow)
      omega

/-- Settles O2: the model decodes each word. -/
theorem wordsOfTheEncodingTablesDecode : Obligations.WordsOfTheEncodingTablesDecode := by
  unfold Obligations.WordsOfTheEncodingTablesDecode
  decide +kernel

end Machine
end Sys2Proof
end

section
/-! ### O4: the reserved bits of the line word -/
namespace Sys2Proof
namespace Machine

theorem enterAt_res (s : State) (t : Trap) (vec fid : W64) (up : Bool) : (enterAt s t vec fid up).th.res = .trapped := by
  unfold enterAt
  dsimp only
  split <;> rfl
/-- A precise trap marks its instruction as trapped, at its vector or stopped (R127, R376). -/
theorem takeTrap_res (s : State) (t : Trap) : (takeTrap s t).th.res = .trapped := by
  unfold takeTrap
  split
  · rfl
  · exact enterAt_res ..
theorem bitsOf_ne_zero {x lo len i : Nat} (hi : lo ≤ i ∧ i < lo + len) (h : bitOf x i = true) : bitsOf x lo len ≠ 0 := by
  have bit : (bitsOf x lo len).testBit (i - lo) = true := by
    rw [bitsOf, Nat.testBit_mod_two_pow, Nat.testBit_div_two_pow, Nat.sub_add_cancel hi.1, Nat.testBit_eq_decide_div_mod_eq]
    simpa [show i - lo < len by omega, bitOf] using h
  intro zero
  rw [zero, Nat.zero_testBit] at bit
  cases bit
/-- A line whose word has a reserved bit set issues nothing but the trap of R47. -/
theorem issueLine_reserved {s : State} {pc : W64} {line : V512} (h : bitsOf (lineWord line) 9 17 ≠ 0) :
    issueLine s pc line = .next (issueTrap s pc (trapOf cILLEGAL 0)) := by
  rw [issueLine]
  exact if_pos h

/-- Settles O4: the issue of the fetched line is the trap, which is the turn of the thread set that comes first, and so the step. -/
theorem aReservedLineWordBitTrapsIllegal : Obligations.AReservedLineWordBitTrapsIllegal := by
  intro s core n g rest c v x up ha d hg before u pc k r line may drain gated form out hx lpar spar spar' reserved a t
  have canI : canIssue u = true := by simp only [canIssue, may, drain, gated, Bool.not_false, Bool.true_or, Bool.and_self]
  obtain ⟨i, lo, hi, set⟩ := reserved
  have issue : tryIssue u = .next (issueTrap a pc (trapOf cILLEGAL 0)) :=
    (tryIssue_line form out hx lpar spar spar').trans (issueLine_reserved (bitsOf_ne_zero ⟨lo, by omega⟩ set))
  have xfer : a.th.xfer = u.th.xfer := by
    change (loadK v x).2.th.xfer = _
    rw [fetched_th hx]
  have trap : issueTrap a pc (trapOf cILLEGAL 0) = t := by
    rw [issueTrap, xfer]
    rfl
  rw [trap] at issue
  obtain ⟨runs, ready⟩ := turn_issues canI issue (.inr (takeTrap_res ..))
  exact (step_turn up ha hg before may).1 _ runs ready

end Machine
end Sys2Proof
end

section
/-! ### O11: control transfers -/
namespace Sys2Proof
namespace Machine

/-- A target that a check refuses is reported from the state that the reads of its line leave (R43, R46). -/
theorem checkTarget_bad {s s' : State} {va : W64} (h : checkTarget s va = .bad s') : AccessOnly s s' := by
  unfold checkTarget at h
  split at h
  · cases h
    exact .refl s
  · split at h
    · cases h
    · next he =>
      split at h
      · cases h
      · cases h
        exact checkedLine_access he
    · cases h
    · cases h
theorem transfer_went (s : State) (tgt : W64) : WentTo s (transfer s tgt) tgt := rfl

section
variable {s u : State} {tgt : W64}

theorem transferChecked_ok (h : checkTarget s tgt = .ok u) : transferChecked s tgt = .ok (transfer u tgt) := by rw [transferChecked, h]
theorem transferChecked_bad (h : checkTarget s tgt = .bad u) : transferChecked s tgt = .error (.after u (trapOf cBADTARGET tgt)) := by
  rw [transferChecked, h]
theorem transferChecked_linepar (h : checkTarget s tgt = .linepar u) :
    transferChecked s tgt = .error (.after u (trapOf cLINEPAR tgt)) := by
  rw [transferChecked, h]
theorem transferChecked_page (h : checkTarget s tgt = .page) :
    transferChecked s tgt = .error (.page (trapAcc cPAGE tgt (accWord .K false true 64))) := by
  rw [transferChecked, h]
theorem transferChecked_perm (h : checkTarget s tgt = .perm) :
    transferChecked s tgt = .error (.trap (trapAcc cPERM tgt (accWord .K false true 64))) := by
  rw [transferChecked, h]
end

/-- A form whose predicate is set runs its body. -/
theorem next_bit0Form {s : State} {p : Pred} {b b' : Except Stop State} (hp : pred0 s p = true) (h : b = b') :
    (.next (bit0Form s p b) : Out) = .next (runBody s b') := by
  rw [bit0Form_true _ hp, h]
theorem skips_of {i : Instr} {p : Pred} {b : State → Except Stop State} (h : ∀ s, exec i s = .next (bit0Form s p (b s))) : Skips i p :=
  fun s hp => by rw [h, bit0Form_false _ hp]
/-- What a control form writes beside its transfer: the link of a call, the counter of a loop (R112, R113). -/
def linked (i : Instr) (s t : State) : State := match i with
  | .call o => setS t o.d (linkOf s)
  | .brx o => setS t o.d (linkOf s)
  | .loop o => setS t o.d (getS s o.d - 1)
  | _ => t
/-- A form that goes to a target goes there through its check, and writes its link after it. -/
theorem exec_goes {i : Instr} {s : State} {tgt : W64} (h : targetOf i s = some tgt) :
    exec i s = .next (runBody s ((transferChecked s tgt).map (linked i s))) := by
  have plain : (transferChecked s tgt).map (fun t => t) = transferChecked s tgt := by
    cases transferChecked s tgt <;> rfl
  have bound (f : State → State) : (transferChecked s tgt >>= fun t => .ok (f t)) = (transferChecked s tgt).map f := by
    cases transferChecked s tgt <;> rfl
  cases i with
  | br o =>
    obtain ⟨⟨hp, hc⟩, rfl⟩ := Option.ite_some_none_eq_some.mp h
    exact next_bit0Form hp ((if_neg hc).trans plain.symm)
  | jmp o =>
    obtain ⟨hp, rfl⟩ := Option.ite_some_none_eq_some.mp h
    exact next_bit0Form hp plain.symm
  | ret o =>
    obtain ⟨hp, rfl⟩ := Option.ite_some_none_eq_some.mp h
    exact next_bit0Form hp plain.symm
  | call o =>
    obtain ⟨hp, rfl⟩ := Option.ite_some_none_eq_some.mp h
    exact next_bit0Form hp (bound _)
  | brx o =>
    obtain ⟨hp, rfl⟩ := Option.ite_some_none_eq_some.mp h
    exact next_bit0Form hp (bound _)
  | loop o =>
    obtain ⟨⟨hp, hc⟩, rfl⟩ := Option.ite_some_none_eq_some.mp h
    have notZero : getS s o.d ≠ 0 := fun e => by simp [e] at hc
    have notOne : getS s o.d ≠ 1 := fun e => by simp [e] at hc
    exact next_bit0Form hp ((if_neg notZero).trans (if_neg notOne))
  | _ => cases h
/-- Where the check passes, the form has gone to its target and then written its link. -/
theorem exec_went {i : Instr} {s u : State} {tgt : W64} (h : targetOf i s = some tgt) (hu : checkTarget s tgt = .ok u) :
    exec i s = .next (linked i s (transfer u tgt)) ∧ AccessOnly s u ∧ WentTo u (transfer u tgt) tgt := by
  refine ⟨?_, checkTarget_access hu, transfer_went ..⟩
  rw [exec_goes h, transferChecked_ok hu]
  rfl

/-- A fetch of a target's line that passes its parity on the first copy. -/
theorem checkedLine_first {s u : State} {va : Nat} {l : V512} {good : V512 → Bool} (hl : fetchLine s va = .ok l u) (h : good l = true) :
    checkedLine s va good = (true, .ok l u) := by
  rw [checkedLine, hl]
  exact if_pos h
/-- And one whose second copy is judged (R46). -/
theorem checkedLine_second {s u v : State} {va : Nat} {l m : V512} {good : V512 → Bool} (hl : fetchLine s va = .ok l u) (h : good l = false)
    (hm : refetchLine u va = .ok m v) : checkedLine s va good = (good m, .ok m v) := by
  rw [checkedLine, hl]
  dsimp only
  rw [if_neg (by simp [h]), hm]
/-- What the check finds on a line of an instruction address: the TGT bit, or a parity that failed twice (R43, R46). -/
theorem checkTarget_passed {s u : State} {va : W64} {l : V512} (form : fieldOf va 3 3 = 0 ∧ fieldOf va 0 3 ≤ 4)
    (h : checkedLine s va.toNat lparOk = (true, .ok l u)) : checkTarget s va = if tgtBit l (fieldOf va 0 3) then .ok u else .bad u := by
  rw [checkTarget, if_neg (by simpa [form.1] using form.2), h]
theorem checkTarget_failed {s u : State} {va : W64} {l : V512} (form : fieldOf va 3 3 = 0 ∧ fieldOf va 0 3 ≤ 4)
    (h : checkedLine s va.toNat lparOk = (false, .ok l u)) : checkTarget s va = .linepar u := by
  rw [checkTarget, if_neg (by simpa [form.1] using form.2), h]

/-- Settles O11: each form's transfer is `exec_went` or a stop of the check, and the check itself is read off its fetch. -/
theorem branchesGoToTheirCheckedTarget : Obligations.BranchesGoToTheirCheckedTarget := by
  refine ⟨⟨fun o s hp hc u hu => ?_, fun o s hc => ?_, fun o s hp u hu => ?_, fun o s hp u hu => ?_, fun o s hp u hu => ?_,
    fun o s hp u hu => ?_, fun o s hp => ⟨fun h0 => ?_, fun h1 => ?_, fun hc u hu => ?_⟩,
    fun o => skips_of fun _ => rfl, fun o => skips_of fun _ => rfl, fun o => skips_of fun _ => rfl,
    fun o => ⟨skips_of fun _ => rfl, skips_of fun _ => rfl⟩, fun o => skips_of fun _ => rfl⟩,
    fun s va bad => ?_, fun s u va l h3 h0 hl par => ?_, fun s u v va l m h3 h0 hl par hm => ?_,
    fun i s tgt h => ⟨fun u hu => ⟨checkTarget_bad hu, ?_⟩, fun u hu => ⟨checkTarget_linepar hu, ?_⟩, fun hu => ?_, fun hu => ?_⟩⟩
  · exact ⟨_, exec_went (i := .br o) (if_pos ⟨hp, hc⟩) hu⟩
  · change Host.Outcome.next (bit0Form s o.p _) = _
    rw [if_pos hc]
    cases hp : pred0 s o.p with
    | true => rw [bit0Form_true _ hp, runBody_ok]
    | false => rw [bit0Form_false _ hp]
  · exact ⟨_, exec_went (i := .jmp o) (if_pos hp) hu⟩
  · exact ⟨_, exec_went (i := .ret o) (if_pos hp) hu⟩
  · obtain ⟨runs, access, went⟩ := exec_went (i := .call o) (if_pos hp) hu
    exact ⟨_, _, runs, access, went, setS_wrote ..⟩
  · obtain ⟨runs, access, went⟩ := exec_went (i := .brx o) (if_pos hp) hu
    exact ⟨_, _, runs, access, went, setS_wrote ..⟩
  · exact next_bit0Form (b' := .ok s) hp (if_pos h0)
  · have notZero : getS s o.d ≠ 0 := by rw [h1]; decide
    exact ⟨setS s o.d 0, next_bit0Form hp ((if_neg notZero).trans (if_pos h1)), setS_wrote ..⟩
  · obtain ⟨runs, access, went⟩ := exec_went (i := .loop o) (if_pos ⟨hp, hc⟩) hu
    exact ⟨_, _, runs, access, went, setS_wrote ..⟩
  · rw [checkTarget, if_pos (by simpa using bad)]
  · exact checkTarget_passed ⟨h3, h0⟩ (checkedLine_first hl par)
  · have judged := checkedLine_second hl par hm
    cases second : lparOk m with
    | true => exact checkTarget_passed ⟨h3, h0⟩ (judged.trans (by rw [second]))
    | false => exact checkTarget_failed ⟨h3, h0⟩ (judged.trans (by rw [second]))
  · rw [exec_goes h, transferChecked_bad hu]
    rfl
  · rw [exec_goes h, transferChecked_linepar hu]
    rfl
  · rw [exec_goes h, transferChecked_page hu]
    rfl
  · rw [Traps, exec_goes h, transferChecked_perm hu]
    rfl

end Machine
end Sys2Proof
end

section
/-! ### Vector forms: readiness, sources, and forms that act per element (R57, R63, R136) -/
namespace Sys2Proof
namespace Machine

section
variable {s : State} {p : Pred} {w : Nat} {b b' : Except Stop State}

theorem next_elemForm (on : anyOn (predVal s p) w = true) (h : b = b') : (.next (elemForm s p w b) : Out) = .next (runBody s b') := by
  rw [elemForm, if_pos on, h]
theorem next_elemForm_off (off : anyOn (predVal s p) w = false) : (.next (elemForm s p w b) : Out) = .next s := by
  rw [elemForm, if_neg (by simp [off])]
end

section
variable {s : State} {srcs : List VOp} {dst : Option VOp}

theorem vecChecks_stall (h : queuesReady s srcs dst = false) : vecChecks s srcs dst = .error .stall := by
  rw [vecChecks, h]
  rfl
theorem vecChecks_bounds (h : queuesReady s srcs dst = true) (ok : (srcs ++ dst.toList).all (vopOk s) = false) :
    vecChecks s srcs dst = .error (.trap (trapOf cBOUNDS 0)) := by
  rw [vecChecks, h, ok]
  rfl
theorem vecChecks_ok (h : queuesReady s srcs dst = true) (ok : (srcs ++ dst.toList).all (vopOk s) = true) : vecChecks s srcs dst = .ok () := by
  rw [vecChecks, h, ok]
  rfl
end

theorem vw_withTh {s : State} {f : Thread → Thread} (snap : (f s.th).snap = s.th.snap) (rf : (f s.th).rf = s.th.rf) :
    vw (withTh s f) = vw s := by
  rw [vw, vw, show (withTh s f).th = f s.th from rfl, snap, rf]
/-- A pop leaves the registers that an instruction reads. -/
theorem vw_popQ (s : State) (q : Nat) : vw (popQ s q).2 = vw s := by
  unfold popQ
  split
  · rfl
  · next e l _ =>
    refine (vw_withTh (s := withCore s fun c => qSet c q l) ?_ ?_).trans rfl
    · split
      · split <;> rfl
      · rfl
    · split
      · split <;> rfl
      · rfl
theorem vw_readV (s : State) (o : VOp) : vw (readV s o).2 = vw s := by
  cases o with
  | q n => exact vw_popQ ..
  | v n => rfl
  | x i k => rfl
theorem vw_readVs (s : State) (l : List VOp) : vw (readVs s l).2 = vw s := by
  induction l generalizing s with
  | nil => rfl
  | cons o l ih => exact (ih _).trans (vw_readV s o)
/-- A destination resolves by the index registers alone (R55). -/
theorem resolveV_congr {s t : State} (h : (vw t).x = (vw s).x) (d : VOp) : resolveV t d = resolveV s d := by
  cases d with
  | v n => rfl
  | q n => rfl
  | x i k =>
    have index : extIndex t i k = extIndex s i k := by rw [extIndex, extIndex, getX, getX, h]
    rw [resolveV, index]
    rfl
theorem vw_orFlags_x (s : State) (f : Nat) : (vw (orFlags s f)).x = (vw s).x := by
  unfold vw
  rw [orFlags, withRf_th_snap]
  split <;> rfl

/-- A form made by `vecForm` acts per element. -/
theorem elemResult_of {i : Instr} {p : Pred} {w : Nat} {srcs : List VOp} {d : VOp} {f : State → List V512 → Nat → Nat × Nat}
    (h : ∀ s, exec i s = .next (vecForm p w srcs d s (f s))) : ElemResult i p w srcs d f := by
  intro s
  refine ⟨fun off => (h s).trans (next_elemForm_off off), fun on => ⟨fun busy => ?_, fun ok out => ?_, fun ok inside => ?_⟩⟩
  · refine (h s).trans (next_elemForm (b' := .error .stall) on ?_)
    rw [vecChecks_stall busy]
    rfl
  · refine (h s).trans (next_elemForm (b' := .error (.trap (trapOf cBOUNDS 0))) on ?_)
    rw [vecChecks_bounds ok out]
    rfl
  · let r := readVs s srcs
    let x := mapElems w (predVal s p) (f s r.1) (oldV r.2 (resolveV s d))
    have place : resolveV (orFlags r.2 x.2) d = resolveV s d :=
      resolveV_congr (by rw [vw_orFlags_x, vw_readVs]) d
    have body : exec i s = .next (writeV (orFlags r.2 x.2) d x.1) :=
      (h s).trans (next_elemForm (b' := .ok _) on (by rw [vecChecks_ok ok inside]; rfl))
    rw [writeV, place] at body
    refine ⟨_, x.1, body, ?_, fun n hn => elem_mapElems _ _ _ _ n hn⟩
    have conds := flags_mapElems w (predVal s p) (f s r.1) (oldV r.2 (resolveV s d))
    show WroteVD (withRf r.2 fun q => rfOrFlags q _) _ _ _
    rw [← conds]
    exact writeVD_wrote ..

end Machine
end Sys2Proof
end

section
/-! ### O46: the tree of R95 and the scan of R96 -/
namespace Sys2Proof
namespace Machine

section
variable {f : Nat → Nat → Nat × Nat} {leaf leaf' : Nat → TreeVal}

@[simp] theorem treeNode_none_left (b : TreeVal) : treeNode f none b = b := rfl
@[simp] theorem treeNode_none_right (a : TreeVal) : treeNode f a none = a := by cases a <;> rfl
theorem treeNode_isSome {a b : TreeVal} (h : a.isSome = true ∨ b.isSome = true) : (treeNode f a b).isSome = true := by
  cases a with
  | none => simpa using h
  | some x => cases b <;> rfl

/-- A tree reads the leaves of its own block. -/
theorem treeAt_congr {h i : Nat} (same : ∀ j, i * 2 ^ h ≤ j → j < (i + 1) * 2 ^ h → leaf j = leaf' j) :
    treeAt f leaf h i = treeAt f leaf' h i := by
  induction h generalizing i with
  | zero => exact same i (by simp) (by simp)
  | succ h ih =>
    have size : 2 ^ (h + 1) = 2 * 2 ^ h := by rw [Nat.pow_succ, Nat.mul_comm]
    have left : treeAt f leaf h (2 * i) = treeAt f leaf' h (2 * i) := ih fun j lo hi => same j (by rw [size]; nlinarith) (by rw [size]; nlinarith)
    have right : treeAt f leaf h (2 * i + 1) = treeAt f leaf' h (2 * i + 1) :=
      ih fun j lo hi => same j (by rw [size]; nlinarith) (by rw [size]; nlinarith)
    rw [treeAt, treeAt, left, right]
theorem treeAt_none (h i : Nat) : treeAt f (fun _ => none) h i = none := by
  induction h generalizing i with
  | zero => rfl
  | succ h ih => rw [treeAt, ih, ih, treeNode_none_left]
/-- A tree with an element present has a root. -/
theorem treeAt_isSome {h i j : Nat} (lo : i * 2 ^ h ≤ j) (hi : j < (i + 1) * 2 ^ h) (present : (leaf j).isSome = true) :
    (treeAt f leaf h i).isSome = true := by
  induction h generalizing i with
  | zero =>
    have : j = i := by omega
    rwa [treeAt, ← this]
  | succ h ih =>
    have size : 2 ^ (h + 1) = 2 * 2 ^ h := by rw [Nat.pow_succ, Nat.mul_comm]
    rw [treeAt]
    by_cases half : j < (2 * i + 1) * 2 ^ h
    · exact treeNode_isSome (.inl (ih (by rw [size] at lo; nlinarith) half))
    · exact treeNode_isSome (.inr (ih (Nat.le_of_not_lt half) (by rw [size] at hi; nlinarith)))
/-- A tree over the nodes of the lowest level. -/
theorem treeAt_level (h i : Nat) : treeAt f (treeAt f leaf 1) h i = treeAt f leaf (h + 1) i := by
  induction h generalizing i with
  | zero => rfl
  | succ h ih =>
    rw [treeAt, ih, ih]
    rfl
theorem treeLevel_map (leaf : Nat → TreeVal) (m : Nat) :
    treeLevel f ((List.range (2 * m)).map leaf) = (List.range m).map (treeAt f leaf 1) := by
  induction m generalizing leaf with
  | zero => rfl
  | succ m ih =>
    have two : (List.range (2 * (m + 1))).map leaf = leaf 0 :: leaf 1 :: (List.range (2 * m)).map fun j => leaf (j + 2) := by
      rw [show 2 * (m + 1) = 2 * m + 1 + 1 from rfl, List.range_succ_eq_map, List.range_succ_eq_map]
      simp
    rw [two, treeLevel, ih, List.range_succ_eq_map, List.map_cons, List.map_map]
    rfl
/-- The model's root over 2^n leaves is T[n][0] of R95. -/
theorem treeRoot_map (leaf : Nat → TreeVal) (n : Nat) : treeRoot f n ((List.range (2 ^ n)).map leaf) = treeAt f leaf n 0 := by
  induction n generalizing leaf with
  | zero => rfl
  | succ n ih => rw [treeRoot, Nat.pow_succ, Nat.mul_comm, treeLevel_map, ih, treeAt_level]

/-- Elements 0 to `i`, the rest absent (R96). -/
def upTo (leaf : Nat → TreeVal) (i j : Nat) : TreeVal := if j ≤ i then leaf j else none

/-- The loop of R96 has combined, below level h, what the block of output i holds up to it. -/
theorem scanAcc_eq (i h : Nat) : scanAcc f leaf i h = treeAt f (upTo leaf i) h ((i + 1) / 2 ^ h) := by
  induction h with
  | zero =>
    rw [scanAcc, treeAt, upTo, if_neg (by simp)]
  | succ h ih =>
    have half : (i + 1) / 2 ^ (h + 1) = (i + 1) / 2 ^ h / 2 := by rw [Nat.pow_succ, Nat.div_div_eq_div_mul]
    have floor : 2 ^ h * ((i + 1) / 2 ^ h) ≤ i + 1 := Nat.mul_div_le ..
    have ceil : i + 1 < 2 ^ h * ((i + 1) / 2 ^ h + 1) := Nat.lt_mul_div_succ _ (Nat.two_pow_pos h)
    rw [scanAcc, treeAt, ih, half, bitOf]
    generalize hm : (i + 1) / 2 ^ h = m at *
    by_cases odd : m % 2 = 1
    · have start : ((i + 1) - (i + 1) % 2 ^ (h + 1)) / 2 ^ h = 2 * (m / 2) := by
        have whole : (i + 1) - (i + 1) % 2 ^ (h + 1) = 2 ^ h * (2 * (m / 2)) := by
          rw [← half]
          have := Nat.div_add_mod (i + 1) (2 ^ (h + 1))
          rw [Nat.pow_succ] at this ⊢
          rw [← Nat.mul_assoc]
          omega
        rw [whole, Nat.mul_div_cancel_left _ (Nat.two_pow_pos h)]
      have full : treeAt f leaf h (2 * (m / 2)) = treeAt f (upTo leaf i) h (2 * (m / 2)) :=
        treeAt_congr fun j _ hj => by
          have : (2 * (m / 2) + 1) * 2 ^ h ≤ i + 1 := by
            rw [show 2 * (m / 2) + 1 = m by omega, Nat.mul_comm]
            exact floor
          rw [upTo, if_pos (by omega)]
      rw [if_pos (by simpa using odd), start, full, show 2 * (m / 2) + 1 = m by omega]
    · have absent : treeAt f (upTo leaf i) h (2 * (m / 2) + 1) = none := by
        refine (treeAt_congr fun j lo _ => ?_).trans (treeAt_none h _)
        have : i + 1 < (2 * (m / 2) + 1) * 2 ^ h := by
          rw [show 2 * (m / 2) + 1 = m + 1 by omega, Nat.mul_comm]
          exact ceil
        rw [upTo, if_neg (by omega)]
      rw [if_neg (by simpa using odd), absent, treeNode_none_right, show 2 * (m / 2) = m by omega]
/-- The loop through every level of a tree of 2^n leaves is the root over elements 0 to i. -/
theorem scanAcc_root {i n : Nat} (hi : i < 2 ^ n) : scanAcc f leaf i (n + 1) = treeAt f (upTo leaf i) n 0 := by
  have absent : treeAt f (upTo leaf i) n (2 * 0 + 1) = none := by
    refine (treeAt_congr fun j lo _ => ?_).trans (treeAt_none n _)
    rw [upTo, if_neg (by omega)]
  have small : (i + 1) / 2 ^ (n + 1) = 0 := Nat.div_eq_of_lt (by rw [Nat.pow_succ]; omega)
  rw [scanAcc_eq, small, treeAt, absent, treeNode_none_right]
end

/-- The elements of every type are a power of two in number (R90, R95). -/
theorem elems_pow (t : Ty) : 512 / t.w = 2 ^ treeDepth t.w := by cases t <;> rfl
/-- A leaf of a reduction or scan: an active element, with no condition (R95). -/
def elemLeaf (pv : W16) (w : Nat) (v : V512) (n : Nat) : TreeVal := if elemOn pv w n then some (elem w v n, 0) else none
theorem treeRoot_leaves (f : Nat → Nat → Nat × Nat) (t : Ty) (pv : W16) (v : V512) :
    treeRoot f (treeDepth t.w) (treeLeaves pv t.w v) = treeAt f (elemLeaf pv t.w v) (treeDepth t.w) 0 := by
  have leaves : treeLeaves pv t.w v = (List.range (2 ^ treeDepth t.w)).map (elemLeaf pv t.w v) := by
    rw [← elems_pow]
    rfl
  rw [leaves, treeRoot_map]
/-- A reduction with an active element has a result. -/
theorem treeRoot_some (f : Nat → Nat → Nat × Nat) (t : Ty) {pv : W16} (v : V512) (on : anyOn pv t.w = true) :
    ∃ x, treeRoot f (treeDepth t.w) (treeLeaves pv t.w v) = some x := by
  obtain ⟨n, hn, active⟩ := List.any_eq_true.mp on
  have inside : n < 2 ^ treeDepth t.w := by
    rw [← elems_pow]
    exact List.mem_range.mp hn
  rw [treeRoot_leaves, ← Option.isSome_iff_exists]
  exact treeAt_isSome (Nat.zero_mul _ ▸ Nat.zero_le n) (by simpa using inside) (by rw [elemLeaf, if_pos active]; rfl)
/-- An output of a scan is what the loop of R96 gives. -/
theorem scanOut_leaves (f : Nat → Nat → Nat × Nat) (t : Ty) (pv : W16) (v : V512) {n : Nat} (hn : n < 512 / t.w) :
    scanOut f (treeDepth t.w) (treeLeaves pv t.w v) n = scanAcc f (elemLeaf pv t.w v) n (treeDepth t.w + 1) := by
  have length : (treeLeaves pv t.w v).length = 512 / t.w := by simp [treeLeaves]
  have cut : (fun j => if j ≤ n then (treeLeaves pv t.w v).getD j none else none) = upTo (elemLeaf pv t.w v) n := by
    funext j
    rw [upTo]
    split
    · next hj =>
      have inside : j < 512 / t.w := by omega
      rw [List.getD_eq_getElem _ _ (by rw [length]; exact inside)]
      simp [treeLeaves, elemLeaf]
    · rfl
  rw [scanOut, length, elems_pow, cut, treeRoot_map, scanAcc_root (by rwa [← elems_pow])]

/-! #### The nodes -/

theorem bitOf_eq_testBit (x i : Nat) : bitOf x i = x.testBit i := by
  rw [bitOf, Nat.testBit_eq_decide_div_mod_eq, beq_eq_decide]
section
variable {t : Ty} (int : t.isInt = true) (rnd : Rnd) (a b : Nat)
include int

theorem nodeOp_int (op : AOp) : nodeOp t op rnd a b = aopElem t op a b := if_pos int
theorem nodeOp_arith : nodeOp t .add rnd a b = (reduceTo t false (intVal t a + intVal t b), 0) ∧
    nodeOp t .min rnd a b = (reduceTo t false (if intVal t b < intVal t a then intVal t b else intVal t a), 0) ∧
    nodeOp t .max rnd a b = (reduceTo t false (if intVal t a < intVal t b then intVal t b else intVal t a), 0) := by
  have lesser : min (intVal t a) (intVal t b) = if intVal t b < intVal t a then intVal t b else intVal t a := by
    split <;> omega
  have greater : max (intVal t a) (intVal t b) = if intVal t a < intVal t b then intVal t b else intVal t a := by
    split <;> omega
  rw [← lesser, ← greater, nodeOp_int int, nodeOp_int int, nodeOp_int int]
  exact ⟨if_pos int, if_pos int, if_pos int⟩
theorem nodeOp_bits : nodeOp t .and rnd a b = (a % 2 ^ t.w &&& b % 2 ^ t.w, 0) ∧ nodeOp t .or rnd a b = (a % 2 ^ t.w ||| b % 2 ^ t.w, 0) ∧
    nodeOp t .xor rnd a b = (a % 2 ^ t.w ^^^ b % 2 ^ t.w, 0) := by
  rw [nodeOp_int int, nodeOp_int int, nodeOp_int int]
  exact ⟨if_pos int, if_pos int, if_pos int⟩
end

theorem nodeOp_float {t : Ty} (float : t.isInt = false) (rnd : Rnd) (a b : Nat) : nodeOp t .add rnd a b = fAdd t rnd false a b ∧
    nodeOp t .min rnd a b = fMinMax false t a b ∧ nodeOp t .max rnd a b = fMinMax true t a b :=
  ⟨if_neg (by simp [float]), if_neg (by simp [float]), if_neg (by simp [float])⟩
/-- The AND, OR and XOR of two patterns, bit by bit. -/
theorem nodeOp_bitOf {t : Ty} (int : t.isInt = true) (rnd : Rnd) (a b : Nat) {k : Nat} (hk : k < t.w) :
    bitOf (nodeOp t .and rnd a b).1 k = (bitOf a k && bitOf b k) ∧ bitOf (nodeOp t .or rnd a b).1 k = (bitOf a k || bitOf b k) ∧
      bitOf (nodeOp t .xor rnd a b).1 k = (bitOf a k != bitOf b k) := by
  obtain ⟨and, or, xor⟩ := nodeOp_bits int rnd a b
  simp [and, or, xor, bitOf_eq_testBit, hk]
theorem nodeOp_bits_fit {t : Ty} (int : t.isInt = true) (rnd : Rnd) (a b : Nat) :
    ∀ op ∈ [AOp.and, .or, .xor], (nodeOp t op rnd a b).1 < 2 ^ t.w ∧ (nodeOp t op rnd a b).2 = 0 := by
  obtain ⟨and, or, xor⟩ := nodeOp_bits int rnd a b
  have fits : ∀ x : Nat, x % 2 ^ t.w < 2 ^ t.w := fun x => Nat.mod_lt _ (Nat.two_pow_pos _)
  simp only [List.mem_cons, List.not_mem_nil, or_false, forall_eq_or_imp, forall_eq]
  refine ⟨?_, ?_, ?_⟩
  · rw [and]
    exact ⟨Nat.and_lt_two_pow _ (fits b), rfl⟩
  · rw [or]
    exact ⟨Nat.or_lt_two_pow (fits a) (fits b), rfl⟩
  · rw [xor]
    exact ⟨Nat.xor_lt_two_pow (fits a) (fits b), rfl⟩

/-! #### The forms -/

/-- A reduction without an active element gives EMPTY; with one, the root of the tree of R95. -/
theorem redForm_result (o : VRed) (op : AOp) {i : Instr} (h : ∀ s, exec i s = .next (redForm o op s)) (s : State) :
    let w := o.t.w
    let pv := predVal s o.p
    (anyOn pv w = false → ∃ t, exec i s = .next t ∧ WroteSOp s t o.d (extendTo o.t (emptyOf o.t op))) ∧
    (anyOn pv w = true → queuesReady s [o.a] none = false → exec i s = .next (stalled s)) ∧
    (anyOn pv w = true → queuesReady s [o.a] none = true → vopOk s o.a = false → Traps i s (trapOf cBOUNDS 0)) ∧
    (anyOn pv w = true → queuesReady s [o.a] none = true → vopOk s o.a = true →
      ∃ t x, exec i s = .next t ∧
        treeAt (nodeOp o.t op o.rnd) (elemLeaf pv w (readV s o.a).1) (Nat.log2 (512 / w)) 0 = some x ∧
        WroteSOp (withRf (readV s o.a).2 fun q => rfOrFlags q x.2) t o.d (extendTo o.t x.1)) := by
  have active {pv : W16} {w : Nat} (on : anyOn pv w = true) : ¬ (!anyOn pv w) = true := by simp [on]
  refine ⟨fun off => ?_, fun on busy => ?_, fun on ready out => ?_, fun on ready inside => ?_⟩
  · exact ⟨_, by rw [h, redForm, if_pos (by simp [off])], writeS_wrote ..⟩
  · rw [h, redForm, if_neg (active on), vecChecks_stall busy]
    rfl
  · rw [Traps, h, redForm, if_neg (active on), vecChecks_bounds ready (by simp [out])]
    rfl
  · obtain ⟨x, root⟩ := treeRoot_some (nodeOp o.t op o.rnd) o.t (readV s o.a).1 on
    refine ⟨_, x, ?_, ?_, writeS_wrote ..⟩
    · rw [h, redForm, if_neg (active on), vecChecks_ok ready (by simp [inside])]
      dsimp only [bind, Except.bind]
      rw [root]
      rfl
    · rw [← root, treeRoot_leaves]
      rfl

theorem mapElems_congr {w : Nat} {f g : Nat → Nat × Nat} (pv : W16) (old : V512) (same : ∀ n < 512 / w, f n = g n) :
    mapElems w pv f old = mapElems w pv g old := by
  have elems : (List.range (512 / w)).map (fun n => if elemOn pv w n then f n else (elem w old n, 0)) =
      (List.range (512 / w)).map fun n => if elemOn pv w n then g n else (elem w old n, 0) :=
    List.map_congr_left fun n hn => by rw [same n (List.mem_range.mp hn)]
  rw [mapElems, mapElems, elems]
/-- A form per element depends on what it gives the elements that the vector has. -/
theorem vecForm_congr {p : Pred} {w : Nat} {srcs : List VOp} {d : VOp} {s : State} {f g : List V512 → Nat → Nat × Nat}
    (same : ∀ vs, ∀ n < 512 / w, f vs n = g vs n) : vecForm p w srcs d s f = vecForm p w srcs d s g := by
  rw [vecForm, vecForm]
  simp only [mapElems_congr _ _ (same _)]

/-- Settles O46: the model's root of paired levels is the tree of R95, and its root over the elements up to i the loop of R96. -/
theorem reductionsAndScansFollowTheFixedTree : Obligations.ReductionsAndScansFollowTheFixedTree := by
  refine ⟨fun o op i form => redForm_result o op ?_, fun t a b rnd => ⟨fun int => ?_, fun float => nodeOp_float float rnd a b, rfl, rfl, rfl, rfl, rfl, rfl⟩,
    fun o i form => elemResult_of fun s => ?_⟩
  · obtain ⟨rfl | rfl, rfl⟩ | ⟨rfl | rfl, rfl⟩ | ⟨rfl | rfl, rfl⟩ := form <;> exact fun _ => rfl
  · obtain ⟨sum, lesser, greater⟩ := nodeOp_arith int rnd a b
    exact ⟨sum, lesser, greater, fun k hk => nodeOp_bitOf int rnd a b hk, nodeOp_bits_fit int rnd a b⟩
  · have scan : exec i s = .next (scanForm o s) := by obtain rfl | rfl := form <;> rfl
    have loop : ∀ vs : List V512, ∀ n < 512 / o.t.w, _ := fun vs n hn =>
      congrArg (·.getD (0, 0)) (scanOut_leaves (nodeOp o.t o.op o.rnd) o.t (predVal s o.p) (vs.getD 0 0) hn)
    rw [scan, scanForm, vecForm_congr loop]
    rfl

end Machine
end Sys2Proof
end

section
/-! ### O25: the atomics -/
namespace Sys2Proof
namespace Machine

/-! #### The waits of a fence (R286, R287, R305) -/

theorem mergeAllU_th (s : State) (k : Nat) : (mergeAllU s k).th = s.th := by rw [(mergeAllU_step s k).1.1]
theorem mergeAllU_core (s : State) (k : Nat) : (mergeAllU s k).core = s.core := by rw [(mergeAllU_step s k).1.1]
theorem mergeNamed_th (s : State) (b a : PathSet) : (mergeNamed s b a).th = s.th := by
  rw [mergeNamed]
  split
  · exact mergeAllU_th ..
  · rfl
theorem mergeNamed_core (s : State) (b a : PathSet) : (mergeNamed s b a).core = s.core := by
  rw [mergeNamed]
  split
  · exact mergeAllU_core ..
  · rfl

section
variable {s : State} {b a : PathSet} {k : State → Except Stop State}

theorem afterWait_stall (h : fenceQuiet s b a = false) : afterWait s b a k = .error .stall := by
  rw [afterWait, h]
  rfl
theorem afterWait_latch {c : Nat} {w : W64} (h : fenceQuiet s b a = true) (named : names b .P = true) (latched : s.th.platch = some (c, w)) :
    afterWait s b a k = .ok (takeTrap (withTh (mergeNamed s b a) fun t => { t with platch := none }) (trapOf c w)) := by
  have latch : latchTrap (mergeNamed s b a) = some (takeTrap (withTh (mergeNamed s b a) fun t => { t with platch := none }) (trapOf c w)) := by
    rw [latchTrap, mergeNamed_th, latched]
  simp only [afterWait, h, ready, bind, Except.bind, ↓reduceIte, named, latch]
theorem afterWait_goes (h : fenceQuiet s b a = true) (clear : names b .P = true → s.th.platch = none) :
    afterWait s b a k = k (mergeNamed s b a) := by
  have untaken : (if names b .P then latchTrap (mergeNamed s b a) else none) = none := by
    split
    · next named => rw [latchTrap, mergeNamed_th, clear named]
    · rfl
  simp only [afterWait, h, ready, bind, Except.bind, ↓reduceIte, untaken]
end

/-- Before an atomic, its release set alone waits and merges: C is no path with copies (R261, R287). -/
theorem fenceQuiet_toC (s : State) (rel : PathSet) : fenceQuiet s rel 1 = quietOn s rel := Bool.and_true _
theorem mergeNamed_toC (s : State) (rel : PathSet) : mergeNamed s rel 1 = if names rel .U then mergeAllU s (myClu s) else s := by
  rw [mergeNamed, show names 1 .U = false from rfl, Bool.or_false]
/-- An atomic with an acquire set issues after the earlier C accesses and the reds that the set names (R287, R289). -/
theorem acquires_iff (s : State) (acq : PathSet) : (acq == 0 || (s.th.creqs.isEmpty && fenceQuiet s 0 acq)) = true ↔
    acq = 0 ∨ (s.th.creqs = [] ∧ (names acq .U = true → s.th.ureqs = [])) := by
  have quiet : quietOn s 0 = true := rfl
  rw [fenceQuiet, quiet]
  cases names acq .U <;> simp

/-! #### The checks and the issue (R260 to R264) -/

section
variable {s : State} {acc : Acc} {p : Path} {ea : W64} {n : Nat}

theorem atomicXlate_misaligned (h : ea.toNat % n ≠ 0) :
    atomicXlate s acc p ea n = .error (.trap (trapAcc cMISALIGN ea (accWord p true false n))) := by
  rw [atomicXlate, alignCheck, if_neg h]
  rfl
theorem atomicXlate_pool (h : ea.toNat % n = 0) (pool : inPoolWindow ea.toNat = true) :
    atomicXlate s acc p ea n = .error (.trap (trapAcc cPERM ea (accWord p true false n))) := by
  rw [atomicXlate, alignCheck, if_pos h, if_pos pool]
  rfl
theorem atomicXlate_memory (h : ea.toNat % n = 0) (pool : inPoolWindow ea.toNat = false) :
    atomicXlate s acc p ea n = xlateE s acc false ea (accWord p true false n) := by
  rw [atomicXlate, alignCheck, if_pos h, if_neg (by simp [pool])]
  rfl
end

/-- The access of an atomic as it issues. -/
def atomicReq (s : State) (x : Xl) (kind : CKind) (ea : W64) (acq rel : PathSet) (dst : Nat) : CReq :=
  { memReq x kind ea [] dst with behind := behindOf s rel, acq := if (behindOf s rel).isNone then 0 else acq }
/-- An atomic after its waits: its checks, its issue and what its acquire set asks for. -/
def atomicIssue (s : State) (ea : W64) (n : Nat) (acq rel : PathSet) (kind : CKind) (dst : Nat) : Except Stop State := do
  let r ← atomicXlate (if rel = 0 then s else fenceEffects s rel 1) .write .C ea n
  let t := issueC r.2 (atomicReq s r.1 kind ea acq rel dst)
  .ok (if acq = 0 ∨ (behindOf s rel).isSome then t else fenceEffects (settleC t) 1 acq)

section
variable {s : State} {ea : W64} {n : Nat} {acq rel : PathSet} {kind : CKind} {dst : Nat}

theorem atomicForm_stall (h : quietOn s rel = false) : atomicForm s ea n acq rel kind dst = .error .stall :=
  afterWait_stall (by rwa [fenceQuiet_toC])
theorem atomicForm_latch {c : Nat} {w : W64} (h : quietOn s rel = true) (named : names rel .P = true) (latched : s.th.platch = some (c, w)) :
    atomicForm s ea n acq rel kind dst = .ok (takeTrap (withTh (mergeNamed s rel 1) fun t => { t with platch := none }) (trapOf c w)) :=
  afterWait_latch (by rwa [fenceQuiet_toC]) named latched
section
variable (h : quietOn s rel = true) (clear : names rel .P = true → s.th.platch = none)
include h clear

theorem atomicForm_goes : atomicForm s ea n acq rel kind dst =
    ready (acq == 0 || (s.th.creqs.isEmpty && fenceQuiet s 0 acq)) >>= fun _ => atomicIssue (mergeNamed s rel 1) ea n acq rel kind dst := by
  have same : fenceQuiet (mergeNamed s rel 1) 0 acq = fenceQuiet s 0 acq := by
    rw [fenceQuiet, fenceQuiet, mergeNamed_th]
    rfl
  rw [atomicForm, afterWait_goes (by rwa [fenceQuiet_toC]) clear, same, mergeNamed_th]
  rfl
theorem atomicForm_waits (acquires : acq ≠ 0) (earlier : s.th.creqs ≠ [] ∨ (names acq .U = true ∧ s.th.ureqs ≠ [])) :
    atomicForm s ea n acq rel kind dst = .error .stall := by
  have waits : (acq == 0 || (s.th.creqs.isEmpty && fenceQuiet s 0 acq)) = false := by
    rw [← Bool.not_eq_true, acquires_iff]
    tauto
  rw [atomicForm_goes h clear, waits]
  rfl
theorem atomicForm_issues (free : acq = 0 ∨ (s.th.creqs = [] ∧ (names acq .U = true → s.th.ureqs = []))) :
    atomicForm s ea n acq rel kind dst = atomicIssue (mergeNamed s rel 1) ea n acq rel kind dst := by
  rw [atomicForm_goes h clear, (acquires_iff s acq).mpr free]
  rfl
end

theorem atomicIssue_stops {x : Stop} (h : atomicXlate (if rel = 0 then s else fenceEffects s rel 1) .write .C ea n = .error x) :
    atomicIssue s ea n acq rel kind dst = .error x := by
  rw [atomicIssue, h]
  rfl
theorem atomicIssue_ok {x : Xl} {u : State} (h : atomicXlate (if rel = 0 then s else fenceEffects s rel 1) .write .C ea n = .ok (x, u)) :
    atomicIssue s ea n acq rel kind dst = .ok (if acq = 0 ∨ (behindOf s rel).isSome then issueC u (atomicReq s x kind ea acq rel dst)
      else fenceEffects (settleC (issueC u (atomicReq s x kind ea acq rel dst))) 1 acq) := by
  rw [atomicIssue, h]
  rfl
end

/-- Merges leave what an atomic waits for of its pair. -/
theorem behindOf_mergeNamed (s : State) (rel a : PathSet) : behindOf (mergeNamed s rel a) rel =
    if names rel .M = true ∧ vwCmds s < s.core.mnum then some s.core.mnum else none := by
  have cmds : vwCmds (mergeNamed s rel a) = vwCmds s := by rw [vwCmds, vwCmds, mergeNamed_th, mergeNamed_core]
  rw [behindOf, cmds, mergeNamed_core]
  simp only [Bool.and_eq_true, decide_eq_true_eq]

/-- Settles O25: the waits, checks and issue of the atomic, each by its own case lemma. -/
theorem atomicsLeaveAPendingReadModifyWrite : Obligations.AtomicsLeaveAPendingReadModifyWrite := by
  intro s i p ea n acq rel kind dst form
  have exec_eq : exec i s = .next (bit0Form s p (atomicForm s ea n acq rel kind dst)) := by
    have address (a : Fin 32) (d : BitVec 14) : atomicAddr s a d = getS s a + BitVec.ofInt 64 d.toInt := by
      rw [atomicAddr, sext64_toNat (by decide)]
    obtain ⟨o, rfl | rfl, rfl, rfl, rfl, rfl, rfl, rfl, rfl⟩ | ⟨o, rfl, rfl, rfl, rfl, rfl, rfl, rfl, rfl⟩ |
      ⟨o, rfl, rfl, rfl, rfl, rfl, rfl, rfl, rfl⟩ := form <;> rw [← address] <;> rfl
  refine ⟨fun off => by rw [exec_eq, bit0Form_false _ off], fun on => ?_⟩
  have body {b : Except Stop State} (h : atomicForm s ea n acq rel kind dst = b) : exec i s = .next (runBody s b) :=
    exec_eq.trans (next_bit0Form on h)
  rw [← mergeNamed_toC]
  refine ⟨fun busy => body (atomicForm_stall busy), fun quiet named c w latched => body (atomicForm_latch quiet named latched),
    fun quiet clear => ⟨fun acquires earlier => body (atomicForm_waits quiet clear acquires earlier), fun free => ?_⟩⟩
  have issue {b : Except Stop State} (h : atomicIssue (mergeNamed s rel 1) ea n acq rel kind dst = b) : exec i s = .next (runBody s b) :=
    body ((atomicForm_issues quiet clear free).trans h)
  refine ⟨fun odd => issue (atomicIssue_stops (atomicXlate_misaligned odd)),
    fun even pool => issue (atomicIssue_stops (atomicXlate_pool even pool)), fun even pool => ?_⟩
  have memory := atomicXlate_memory (s := if rel = 0 then mergeNamed s rel 1 else fenceEffects (mergeNamed s rel 1) rel 1)
    (acc := .write) (p := .C) even pool
  refine ⟨fun page => issue (atomicIssue_stops (memory.trans (xlateE_page page))),
    fun perm => issue (atomicIssue_stops (memory.trans (xlateE_perm perm))), fun x u ok => ⟨xlateCore_only ok, ?_⟩⟩
  have behind := behindOf_mergeNamed s rel 1
  refine ⟨atomicReq (mergeNamed s rel 1) x kind ea acq rel dst, _, rfl, rfl, rfl, rfl, rfl, rfl, rfl, behind, ?_, rfl, ?_⟩
  · rw [← behind]
    simp only [atomicReq, Option.isNone_iff_eq_none]
  · rw [issue (atomicIssue_ok (memory.trans (xlateE_ok ok))), ← behind]
    simp only [Option.isSome_iff_ne_none]
    rfl

end Machine
end Sys2Proof
end

section
/-! ### O18: vector loads -/
namespace Sys2Proof
namespace Machine

/-! #### The issue of one vector read (R119, R247) -/

theorem alignCheck_ok {ea : W64} {n : Nat} (acc : W64) (h : ea.toNat % n = 0) : alignCheck ea n acc = .ok () := if_pos h
theorem alignCheck_odd {ea : W64} {n : Nat} (acc : W64) (h : ea.toNat % n ≠ 0) :
    alignCheck ea n acc = .error (.trap (trapAcc cMISALIGN ea acc)) := if_neg h

section
variable {s : State} {d : VOp} {k : Bool} {r : Except Stop State}

/-- A read of a base or extended register, or in slot j + 1 or alone, only issues. -/
theorem readInto_later (h : (toQueue d && inSlotJ s) = false) : readInto s d k r = r := by
  rw [readInto, h]
  cases r <;> rfl
/-- A read of a queue register in slot j waits for the earlier reads of its path (log 71). -/
theorem readInto_waits (h : (toQueue d && inSlotJ s) = true) (busy : if k then s.th.kreqs ≠ [] else s.th.creqs ≠ []) :
    readInto s d k r = .error .stall := by
  have unready : (if k then s.th.kreqs.isEmpty else s.th.creqs.isEmpty) = false := by cases k <;> simpa using busy
  rw [readInto, h, unready]
  rfl
/-- Else it takes its entry at issue. -/
theorem readInto_now (h : (toQueue d && inSlotJ s) = true) (idle : ¬ if k then s.th.kreqs ≠ [] else s.th.creqs ≠ []) :
    readInto s d k r = r.map fun u => if k then settleK u else settleRead u := by
  have empty : (if k then s.th.kreqs.isEmpty else s.th.creqs.isEmpty) = true := by cases k <;> simpa using idle
  rw [readInto, h, empty]
  cases r <;> rfl
end

/-- The read that a vector load issues, on path K or C. -/
def vectorRead (k : Bool) (p : Pred) (d : VOp) (ea : W64) (s : State) : Except Stop State :=
  if k then readK s ea 64 .n32 0 (some (predVal s p, resolveV s d)) else readC s ea 64 (.vload (predVal s p) (resolveV s d)) 0

section
variable {i : Instr} {p : Pred} {d : VOp} {a : Fin 32} {disp : W32} {s : State} {k : Bool}
  (h : exec i s = .next (loadVector p d a disp k s)) (on : anyOn (predVal s p) 32 = true)
include h on

theorem loadVector_stalls (busy : queuesReady s [] (some d) = false) : exec i s = .next (stalled s) :=
  h.trans (next_elemForm (b' := .error .stall) on (by rw [vecChecks_stall busy]; rfl))
theorem loadVector_bounds (ready : queuesReady s [] (some d) = true) (out : vopOk s d = false) : Traps i s (trapOf cBOUNDS 0) :=
  h.trans (next_elemForm (b' := .error (.trap (trapOf cBOUNDS 0))) on (by rw [vecChecks_bounds ready (by simp [out])]; rfl))

variable (ready : queuesReady s [] (some d) = true) (inside : vopOk s d = true)
include ready inside

/-- A vector load whose operands are in place is its address check, then its read. -/
theorem loadVector_body : exec i s = .next (runBody s (do
    alignCheck (getS s a + BitVec.ofInt 64 disp.toInt) 64 (accWord (if k then .K else .C) false false 64)
    readInto s d k (vectorRead k p d (getS s a + BitVec.ofInt 64 disp.toInt) s))) := by
  refine h.trans (next_elemForm on ?_)
  rw [vecChecks_ok ready (by simp [inside]), effAddr_eq]
  rfl
theorem loadVector_misaligned (odd : (getS s a + BitVec.ofInt 64 disp.toInt).toNat % 64 ≠ 0) :
    Traps i s (trapAcc cMISALIGN (getS s a + BitVec.ofInt 64 disp.toInt) (accWord (if k then .K else .C) false false 64)) := by
  rw [Traps, loadVector_body h on ready inside, alignCheck_odd _ odd]
  rfl
theorem loadVector_reads (aligned : (getS s a + BitVec.ofInt 64 disp.toInt).toNat % 64 = 0) :
    exec i s = .next (runBody s (readInto s d k (vectorRead k p d (getS s a + BitVec.ofInt 64 disp.toInt) s))) := by
  rw [loadVector_body h on ready inside, alignCheck_ok _ aligned]
  rfl
end
theorem runs_of {i : Instr} {s : State} {r : Except Stop State} (h : exec i s = .next (runBody s r)) : Runs i s r :=
  ⟨fun _ e => by rw [h, e]; rfl, fun _ e => by rw [h, e]; rfl⟩

/-! #### The read that takes its value at once -/

theorem leaseHome_tag (s : State) (ctx slot pts : Nat) (secs : List Nat) (l : Nat) :
    (getLine (leaseHome s ctx slot pts secs).2 l).tag = (getLine (readFilled s ctx slot secs) l).tag := by
  refine foldl_keeps (fun u : State => (getLine u l).tag) (fun u x => ?_) _ _
  by_cases h : l = x
  · subst h
    rw [getLine_setLine_same]
  · rw [getLine_setLine_other _ _ h]
/-- A landing leaves the lines of every slice. -/
theorem landRead_lines (r : CReq) (tag : Nat) (rd : Nat → Nat → Nat) (u : State) : (landRead r tag rd u).lines = u.lines := by
  have writes (d : VDst) (v : V512) (u : State) : (writeVD u d v).lines = u.lines := by
    cases d with
    | base n => rfl
    | ext i => rfl
    | queue n => rfl
  unfold landRead
  split
  · rfl
  · exact writes ..
  · exact writes ..
  · exact writes ..
  · rfl
theorem mem_readSecs {r : CReq} (h : ∀ w m o d, r.kind ≠ .gath w m o d) : r.pa / 64 ∈ readSecs r := by
  unfold readSecs
  split
  · next e => exact absurd e (h _ _ _ _)
  · exact List.mem_singleton.mpr rfl

section
variable {s : State} {r : CReq} {l : List CReq} (hc : s.th.creqs = r :: l)
include hc

theorem settleRead_pool (hp : r.pool = true) : settleRead s = poolAccess r s := by
  rw [settleRead, hc]
  exact if_pos hp
theorem settleRead_home (hp : r.pool = false) (missed : readL1 r s = none) : settleRead s = serveRead s.here r (readSecs r) s := by
  rw [settleRead, hc]
  dsimp only
  rw [if_neg (by simp [hp]), missed]
  rfl
/-- A read of the pool window takes the bytes of the pool (R242). -/
theorem settleRead_pool_took (hr : r.kind.isRead = true) (hp : r.pool = true) :
    TookValue s (settleRead s) r l 0 (fun a n => ofBytes (poolBytesAt s.core.pool a n)) := by
  rw [settleRead_pool hc hp, poolAccess, if_pos hr]
  exact tookValue_of_landRead (poolLoaded_access s) hc
/-- A read that no copy serves takes the bytes at home, with the tag that its line has once filled (R250, R259). -/
theorem settleRead_home_took (hp : r.pool = false) (hm : r.merged = []) (fits : ReadFits r) (missed : readL1 r s = none) (n : s.NoUCopies) :
    TookValue s (settleRead s) r l (getLine (settleRead s) (r.pa / 256)).tag (fun a n => ofBytes (homeBytes s r.slot a n)) := by
  let c := leaseHome s (myCtx s) r.slot s.th.pts (readSecs r)
  let u := raisePts (keepCopies c.2 r.noL1 c.1) (copiesWts c.1)
  have home : HomeQuiet s c.2 := leaseHome_quiet ..
  have access : AccessOnly s u := (home.access.trans (keepCopies_access ..)).trans (raisePts_access ..)
  have served : settleRead s = endC (landRead r (copyAt c.1 (r.pa / 64)).tag (readCopies c.1) u) :=
    (settleRead_home hc hp missed).trans (serveRead_alone hc hm)
  have bytes : ∀ a n, a / 64 ∈ readSecs r → a % 64 + n ≤ 64 → readCopies c.1 a n = ofBytes (homeBytes s r.slot a n) := fun a b hx hb => by
    rw [readCopies, copyAt_leaseHome s (myCtx s) r.slot s.th.pts hx, sectorNat, sectorOf, leasedCopy_data n]
    exact bitsOf_sectorAs s r.slot a b hb
  have line : getLine (settleRead s) (r.pa / 256) = getLine c.2 (r.pa / 256) := by
    rw [served]
    exact congrArg (amGet Line.init · _) (landRead_lines r _ _ u)
  have tag : (∀ w m o d, r.kind ≠ .gath w m o d) → (copyAt c.1 (r.pa / 64)).tag = (getLine (settleRead s) (r.pa / 256)).tag := fun h => by
    rw [line, leaseHome_tag, copyAt_leaseHome s (myCtx s) r.slot s.th.pts (mem_readSecs h), ← Nat.div_div_eq_div_mul r.pa 64 4]
    rfl
  have landed := served.trans (congrArg endC (landRead_congr fits bytes tag u))
  generalize (getLine (settleRead s) (r.pa / 256)).tag = t at landed ⊢
  rw [landed]
  exact tookValue_of_landRead access hc
end

/-! #### Blocks of registers (R120) -/

section
variable {o : MemM} {ea : W64} {s : State}

/-- The read of register `j` of a block. -/
def blockRead (o : MemM) (ea : W64) (s : State) (j : Nat) (t : State) : Except Stop State :=
  readC t (ea + BitVec.ofNat 64 (64 * j)) 64 (.vload 0xFFFF (blockReg s o.d j)) 0

theorem vldmLoop_ok {j : Nat} {l : List Nat} {t u : State} (h : blockRead o ea s j t = .ok u) :
    vldmLoop o ea s (j :: l) t = vldmLoop o ea s l u := by
  rw [vldmLoop, show readC _ _ _ _ _ = _ from h]
theorem vldmLoop_stops {j : Nat} {l : List Nat} {t : State} {x : Stop} (h : blockRead o ea s j t = .error x) :
    vldmLoop o ea s (j :: l) t = blockStop t x j := by
  rw [vldmLoop, show readC _ _ _ _ _ = _ from h]
/-- Reads that issue, one after the other. -/
theorem vldmLoop_append (f : Nat → State) (l : List Nat) {n m : Nat} (h : ∀ j, n ≤ j → j < n + m → blockRead o ea s j (f j) = .ok (f (j + 1))) :
    vldmLoop o ea s (List.range' n m ++ l) (f n) = vldmLoop o ea s l (f (n + m)) := by
  induction m generalizing n with
  | zero => rfl
  | succ m ih =>
    rw [List.range'_succ, List.cons_append, vldmLoop_ok (h n (Nat.le_refl n) (by omega)),
      ih fun j lo hi => h j (by omega) (by omega), show n + 1 + m = n + (m + 1) by omega]
/-- The registers that a block has left, after those before `n`. -/
theorem drop_range {x n c : Nat} (hx : x ≤ n) (hn : n ≤ c) : (List.range c).drop x = List.range' x (n - x) ++ List.range' n (c - n) := by
  have split := List.range'_append_1 (s := x) (m := n - x) (n := c - n)
  rw [show x + (n - x) = n by omega, show n - x + (c - n) = c - x by omega] at split
  rw [split, List.range_eq_range', List.drop_range']
  simp
end

section
variable {o : MemM} {s : State} (on : pred0 s o.p = true)
include on

theorem execVldm_bounds (out : vopOk s o.d = false) : Traps (.vldm o) s (trapOf cBOUNDS 0) := by
  refine congrArg Host.Outcome.next ?_
  rw [blockForm, if_neg (by simp [on]), if_pos (by simp [out])]
  rfl
variable (inside : vopOk s o.d = true)
include inside

theorem execVldm_empty (empty : (getS s o.b).toNat = 0) : exec (.vldm o) s = .next s := by
  refine congrArg Host.Outcome.next ?_
  rw [blockForm, if_neg (by simp [on])]
  dsimp only
  rw [if_neg (by simp [inside]), if_pos empty]
variable (regs : (getS s o.b).toNat ≠ 0)
include regs

theorem execVldm_leaves (out : blockRange s o.d (getS s o.b).toNat = false) : Traps (.vldm o) s (trapOf cBOUNDS 0) := by
  refine congrArg Host.Outcome.next ?_
  rw [blockForm, if_neg (by simp [on])]
  dsimp only
  rw [if_neg (by simp [inside]), if_neg regs, if_pos (by simp [out])]
  rfl
variable (range : blockRange s o.d (getS s o.b).toNat = true)
include range

/-- A block in its file is its address check, then its reads from XFER. -/
theorem execVldm_block : exec (.vldm o) s = .next (runBody s (
    (alignCheck (getS s o.a + BitVec.ofInt 64 o.disp.toInt) 64 (accWord .C false false 64)).map fun _ =>
      vldmLoop o (getS s o.a + BitVec.ofInt 64 o.disp.toInt) s ((List.range (getS s o.b).toNat).drop (s.th.xfer.getD 0)) s)) := by
  refine congrArg Host.Outcome.next ?_
  rw [blockForm, if_neg (by simp [on])]
  dsimp only
  rw [if_neg (by simp [inside]), if_neg regs, if_neg (by simp [range]), effAddr_eq]
  cases alignCheck (getS s o.a + BitVec.ofInt 64 o.disp.toInt) 64 (accWord .C false false 64) <;> rfl
theorem execVldm_misaligned (odd : (getS s o.a + BitVec.ofInt 64 o.disp.toInt).toNat % 64 ≠ 0) :
    Traps (.vldm o) s (trapAcc cMISALIGN (getS s o.a + BitVec.ofInt 64 o.disp.toInt) (accWord .C false false 64)) := by
  rw [Traps, execVldm_block on inside regs range, alignCheck_odd _ odd]
  rfl
/-- The reads from XFER up to `n` issue: the rest of the block goes on from there. -/
theorem execVldm_goes (aligned : (getS s o.a + BitVec.ofInt 64 o.disp.toInt).toNat % 64 = 0) {f : Nat → State} {n : Nat}
    (start : f (s.th.xfer.getD 0) = s) (lo : s.th.xfer.getD 0 ≤ n) (hi : n ≤ (getS s o.b).toNat)
    (h : ∀ j, s.th.xfer.getD 0 ≤ j → j < n → blockRead o (getS s o.a + BitVec.ofInt 64 o.disp.toInt) s j (f j) = .ok (f (j + 1))) :
    exec (.vldm o) s = .next
      (vldmLoop o (getS s o.a + BitVec.ofInt 64 o.disp.toInt) s (List.range' n ((getS s o.b).toNat - n)) (f n)) := by
  have reads := vldmLoop_append f (List.range' n ((getS s o.b).toNat - n)) (m := n - s.th.xfer.getD 0) fun j hj hn => h j hj (by omega)
  rw [start, show s.th.xfer.getD 0 + (n - s.th.xfer.getD 0) = n by omega] at reads
  rw [execVldm_block on inside regs range, alignCheck_ok _ aligned, drop_range lo hi, ← reads]
  rfl
end

/-- A vector load, part by part: its checks, then the issue of its read. -/
theorem vectorLoad_issues (p : Pred) (d : VOp) (a : Fin 32) (disp : W32) (s : State) (i : Instr) (k : Bool)
    (h : exec i s = .next (loadVector p d a disp k s)) :
    let ea := getS s a + BitVec.ofInt 64 disp.toInt
    let r := vectorRead k p d ea s
    let busy := if k then s.th.kreqs ≠ [] else s.th.creqs ≠ []
    (anyOn (predVal s p) 32 = false → exec i s = .next s) ∧
    (anyOn (predVal s p) 32 = true →
      (queuesReady s [] (some d) = false → exec i s = .next (stalled s)) ∧
      (queuesReady s [] (some d) = true → vopOk s d = false → Traps i s (trapOf cBOUNDS 0)) ∧
      (queuesReady s [] (some d) = true → vopOk s d = true →
        (ea.toNat % 64 ≠ 0 → Traps i s (trapAcc cMISALIGN ea (accWord (if k then .K else .C) false false 64))) ∧
        (ea.toNat % 64 = 0 → (∀ q, d ≠ .q q) ∨ inSlotJ s = false → Runs i s r) ∧
        (ea.toNat % 64 = 0 → inSlotJ s = true → ∀ q, d = .q q → (busy → exec i s = .next (stalled s)) ∧
          (¬busy → (∀ x, r = .error x → exec i s = .next (onStop s x)) ∧
            ∀ u, r = .ok u → exec i s = .next (if k then settleK u else settleRead u))))) := by
  refine ⟨fun off => h.trans (next_elemForm_off off), fun on => ⟨loadVector_stalls h on, loadVector_bounds h on, fun ready inside =>
    ⟨loadVector_misaligned h on ready inside, fun aligned later => runs_of ?_, fun aligned slotJ q hd => ?_⟩⟩⟩
  · have plain : (toQueue d && inSlotJ s) = false := by
      obtain other | slot := later
      · cases d with
        | q n => exact absurd rfl (other n)
        | v n => rfl
        | x i n => rfl
      · rw [slot, Bool.and_false]
    rw [loadVector_reads h on ready inside aligned, readInto_later plain]
  · have now : (toQueue d && inSlotJ s) = true := by rw [hd, slotJ]; rfl
    have reads := loadVector_reads h on ready inside aligned
    refine ⟨fun busy => ?_, fun idle => ?_⟩
    · rw [reads, readInto_waits now busy]
      rfl
    · rw [readInto_now now idle] at reads
      exact ⟨fun x e => by rw [reads, e]; rfl, fun u e => by rw [reads, e]; rfl⟩

/-- Settles O18: a vector load is the issue of its read; a read that settles at once lands as one that home serves; a block is the loop of
its reads. -/
theorem vectorLoadsFillTheirActiveLanes : Obligations.VectorLoadsFillTheirActiveLanes := by
  refine ⟨fun p d a disp s i k form => vectorLoad_issues p d a disp s i k ?_,
    fun s r l hc hr => ⟨settleRead_pool_took hc hr, fun hp hm fits missed n => settleRead_home_took hc hp hm fits missed n⟩,
    fun o s on => ?_, fun o s off => ?_⟩
  · obtain ⟨rfl, rfl⟩ | ⟨sc, rfl, rfl⟩ := form <;> rfl
  · refine ⟨execVldm_bounds on, execVldm_empty on, execVldm_leaves on, execVldm_misaligned on, fun inside before range aligned f start reads => ?_,
      fun inside before range aligned f n start lo hi reads => ?_⟩
    · rw [execVldm_goes on inside (by omega) range aligned start (Nat.le_of_lt before) (Nat.le_refl _) reads, Nat.sub_self]
      rfl
    · have left : List.range' n ((getS s o.b).toNat - n) = n :: List.range' (n + 1) ((getS s o.b).toNat - n - 1) := by
        rw [← List.range'_succ, show (getS s o.b).toNat - n - 1 + 1 = (getS s o.b).toNat - n by omega]
      have goes := execVldm_goes on inside (by omega) range aligned start lo (Nat.le_of_lt hi) reads
      rw [left] at goes
      exact ⟨fun y stops => by rw [goes, vldmLoop_stops stops]; rfl, fun y stops => by rw [goes, vldmLoop_stops stops]; rfl⟩
  · exact congrArg Host.Outcome.next (if_pos (by simp [off]))

end Machine
end Sys2Proof
end

section
/-! ### O8: scalar integer forms -/
namespace Sys2Proof
namespace Machine

/-- Settles O8: each form is a write of its value behind bit 0 of its predicate, and its value is the one stated by definition, but for the
immediate of `addi`. -/
theorem scalarIntegerFormsWriteTheirResult : Obligations.ScalarIntegerFormsWriteTheirResult := by
  refine ⟨⟨fun o => ?_, fun o => scalarResult_of fun s => ?_⟩, fun o => ?_, fun o => ?_⟩
  · exact ⟨scalarResult_of fun _ => rfl, scalarResult_of fun _ => rfl, scalarResult_of fun _ => rfl, scalarResult_of fun _ => rfl,
      scalarResult_of fun _ => rfl, scalarResult_of fun _ => rfl, scalarResult_of fun _ => rfl, scalarResult_of fun _ => rfl,
      scalarResult_of fun _ => rfl, scalarResult_of fun _ => rfl, scalarResult_of fun _ => rfl, scalarResult_of fun _ => rfl,
      scalarResult_of fun _ => rfl⟩
  · rw [← signedOf_toNat (by decide)]
    rfl
  · exact ⟨scalarResult_of fun _ => rfl, scalarResult_of fun _ => rfl, scalarResult_of fun _ => rfl, scalarResult_of fun _ => rfl,
      scalarResult_of fun _ => rfl, scalarResult_of fun _ => rfl, scalarResult_of fun _ => rfl, scalarResult_of fun _ => rfl,
      scalarResult_of fun _ => rfl, scalarResult_of fun _ => rfl⟩
  · exact ⟨scalarResult_of fun _ => rfl, scalarResult_of fun _ => rfl, scalarResult_of fun _ => rfl, scalarResult_of fun _ => rfl,
      scalarResult_of fun _ => rfl⟩

end Machine
end Sys2Proof
end

section
/-! ### O10: integer division -/
namespace Sys2Proof
namespace Machine

/-- A remainder toward zero has the dividend's sign and is smaller than the divisor (R76). -/
theorem tmod_of_ne_zero {a b : Int} (h : b ≠ 0) :
    a.tmod b = a - a.tdiv b * b ∧ |a.tmod b| < |b| ∧ (a.tmod b = 0 ∨ (0 < a.tmod b ↔ 0 < a)) ∧ |a.tdiv b * b| ≤ |a| := by
  have parts : a.tdiv b * b + a.tmod b = a := Int.tdiv_mul_add_tmod a b
  have small : |a.tmod b| < |b| := by
    rw [Int.abs_eq_natAbs, Int.abs_eq_natAbs, Int.natAbs_tmod]
    exact_mod_cast Nat.mod_lt _ (Int.natAbs_pos.mpr h)
  have whole : |a.tdiv b * b| ≤ |a| := by
    rw [abs_mul, Int.abs_eq_natAbs, Int.abs_eq_natAbs, Int.abs_eq_natAbs, Int.natAbs_tdiv]
    exact_mod_cast Nat.div_mul_le_self _ _
  refine ⟨by omega, small, ?_, whole⟩
  rcases lt_trichotomy a 0 with neg | rfl | pos
  · have := Int.tmod_nonneg b (a := -a) (by omega)
    rw [Int.neg_tmod] at this
    omega
  · exact .inl (Int.zero_tmod b)
  · have := Int.tmod_nonneg b pos.le
    omega
section
variable (t : Ty)

/-- The all-ones pattern reads as -1, or as the highest value (R74). -/
theorem intVal_allOnes (int : t.isInt = true) : intVal t (2 ^ t.w - 1) = if t.isI then -1 else 2 ^ t.w - 1 := by
  revert int
  cases t <;> decide
/-- The quotient by zero, as a pattern (R76). -/
theorem wrapTo_quotOf_zero (a : Int) : wrapTo t.w (quotOf t a 0) = 2 ^ t.w - 1 := by
  rw [quotOf, if_pos rfl]
  cases t <;> decide
/-- The lowest value divided by -1 leaves the range, and wraps to itself (R76). -/
theorem quotOf_lowest (signed : t.isI = true) : intVal t (wrapTo t.w (quotOf t (intLo t) (-1))) = intLo t := by
  revert signed
  cases t <;> decide
end

/-- Settles O10: the forms write the quotient and the remainder toward zero, and without `sat` a value wraps. -/
theorem integerDivisionTruncatesTowardZero : Obligations.IntegerDivisionTruncatesTowardZero := by
  intro o i j s forms fields on t a b
  have plain : o.sat = false ∧ t.isInt = true := by
    obtain ⟨rfl, -⟩ | ⟨rfl, -⟩ := forms <;> simp_all [Instr.fieldsOk, Ty.isInt, t]
  obtain ⟨unsat, int⟩ := plain
  have reduced (x : Int) : reduceTo t o.sat x = wrapTo t.w x := by rw [reduceTo, unsat]; rfl
  have quotient : exec i s = .next (writeS s o.d (extendTo t (wrapTo t.w (quotOf t a b)))) := by
    rw [← reduced]
    obtain ⟨rfl, -⟩ | ⟨rfl, -⟩ := forms <;> exact congrArg Host.Outcome.next (bit0Form_true _ on)
  have remainder : exec j s = .next (writeS s o.d (extendTo t (wrapTo t.w (remOf a b)))) := by
    rw [← reduced]
    obtain ⟨-, rfl⟩ | ⟨-, rfl⟩ := forms <;> exact congrArg Host.Outcome.next (bit0Form_true _ on)
  refine ⟨quotOf t a b, remOf a b, _, _, quotient, writeS_wrote .., (writeS_wrote ..).memory, remainder, writeS_wrote ..,
    (writeS_wrote ..).memory, fun nonzero => ?_, fun zero => ?_, fun signed lowest minus => ?_⟩
  · rw [quotOf, remOf, if_neg nonzero, if_neg nonzero]
    exact tmod_of_ne_zero nonzero
  · rw [zero, wrapTo_quotOf_zero]
    exact ⟨by simp, intVal_allOnes t int, if_pos rfl⟩
  · rw [lowest, minus]
    exact ⟨quotOf_lowest t signed, by simp [remOf]⟩

end Machine
end Sys2Proof
end

section
/-! ### O42: vector integer forms -/
namespace Sys2Proof
namespace Machine

/-- The top bit of a pattern says that it is in the upper half. -/
theorem bitOf_top {w x : Nat} (hx : x < 2 ^ (w + 1)) : bitOf x w = decide (2 ^ w ≤ x) := by
  rw [Nat.pow_succ] at hx
  have half : x / 2 ^ w < 2 := Nat.div_lt_of_lt_mul hx
  have upper : 1 ≤ x / 2 ^ w ↔ 2 ^ w ≤ x := by rw [Nat.le_div_iff_mul_le (Nat.two_pow_pos w), Nat.one_mul]
  rw [bitOf, beq_eq_decide, decide_eq_decide, ← upper]
  generalize x / 2 ^ w = q at half
  omega
theorem wrapTo_of_lt {w x : Nat} (hx : x < 2 ^ w) : wrapTo w (x : Int) = x := by
  rw [wrapTo, ← Int.natCast_mod, Int.toNat_natCast, Nat.mod_eq_of_lt hx]
theorem wrapTo_neg {w x : Nat} (hx : x < 2 ^ w) : wrapTo w (-((x : Int) + 1)) = 2 ^ w - 1 - x := by
  have up : -((x : Int) + 1) % (2 ^ w : Nat) = ((2 ^ w - 1 - x : Nat) : Int) := by
    rw [← Int.add_emod_right, Int.emod_eq_of_lt (by omega) (by omega)]
    omega
  rw [wrapTo, up, Int.toNat_natCast]
/-- The arithmetic shift of a pattern: zeros, or ones, come in at the top (R106). -/
theorem sarElem_eq {w x : Nat} (n : Nat) (hw : 0 < w) (hx : x < 2 ^ w) : sarElem w x n =
    if bitOf x (w - 1) then (if w ≤ n then 2 ^ w - 1 else 2 ^ w - 1 - (2 ^ w - 1 - x) / 2 ^ n) else if w ≤ n then 0 else x / 2 ^ n := by
  have shifted {y : Nat} (hy : y < 2 ^ w) : y / 2 ^ min n w = if w ≤ n then 0 else y / 2 ^ n := by
    split
    · next wide => rw [Nat.min_eq_right wide, Nat.div_eq_of_lt hy]
    · next narrow => rw [Nat.min_eq_left (by omega)]
  have fits {y : Nat} (hy : y < 2 ^ w) : y / 2 ^ min n w < 2 ^ w := Nat.lt_of_le_of_lt (Nat.div_le_self _ _) hy
  have top : bitOf x (w - 1) = decide (2 ^ (w - 1) ≤ x) := bitOf_top (by rwa [Nat.sub_add_cancel hw])
  rw [sarElem, signedOf, Nat.mod_eq_of_lt hx, top]
  by_cases negative : 2 ^ (w - 1) ≤ x
  · have floor : ((x : Int) - (2 ^ w : Nat)) / (2 ^ min n w : Nat) = -(((2 ^ w - 1 - x) / 2 ^ min n w : Nat) + 1) := by
      have below : (x : Int) - (2 ^ w : Nat) = Int.negSucc (2 ^ w - 1 - x) := by rw [Int.negSucc_eq]; omega
      rw [below, Int.negSucc_ediv _ (by exact_mod_cast Nat.two_pow_pos _)]
      rfl
    rw [if_neg (by omega), floor, wrapTo_neg (fits (by omega)), shifted (by omega), decide_eq_true negative, if_pos rfl]
    split <;> rfl
  · rw [if_pos (by omega), ← Int.natCast_ediv, wrapTo_of_lt (fits hx), shifted hx, decide_eq_false negative, if_neg Bool.false_ne_true]

/-- A sum taken from the left is the start and the sum of the terms. -/
theorem foldl_add_eq_sum {α : Type} (f : α → Int) (l : List α) (x : Int) : l.foldl (fun x i => x + f i) x = x + (l.map f).sum := by
  induction l generalizing x with
  | nil => simp
  | cons i l ih => rw [List.foldl_cons, ih, List.map_cons, List.sum_cons, Int.add_assoc]
/-- A dot product per lane is the accumulator and the sum of the products, reduced once (R97). -/
theorem dotLane_eq (o : VTri) (lane32 : Bool) (vs : List V512) (n : Nat) :
    let wd := if lane32 then 32 else 64
    let acc : Ty := if lane32 then (if o.t.isI then .i32 else .n32) else (if o.t.isI then .i64 else .n64)
    dotLane o lane32 vs n = reduceTo acc o.sat (intVal acc (elem wd (vs.getD 2 0) n) + ((List.range (wd / o.t.w)).map fun i =>
      intVal o.t (elem o.t.w (vs.getD 0 0) (n * (wd / o.t.w) + i)) * intVal o.t (elem o.t.w (vs.getD 1 0) (n * (wd / o.t.w) + i))).sum) :=
  congrArg (reduceTo _ _) (foldl_add_eq_sum _ _ _)

/-- Settles O42: each form is `vecForm` of its element function, which is the stated one by definition or by the law of its operation. -/
theorem vectorIntegerFormsActPerElement : Obligations.VectorIntegerFormsActPerElement := by
  refine ⟨fun o => ⟨elemResult_of fun s => ?_, elemResult_of fun _ => rfl⟩, fun o => ⟨elemResult_of fun _ => rfl, elemResult_of fun _ => rfl,
      elemResult_of fun _ => rfl, elemResult_of fun s => ?_, elemResult_of fun s => ?_⟩, fun o => ⟨elemResult_of fun _ => rfl,
      elemResult_of fun _ => rfl, elemResult_of fun _ => rfl, elemResult_of fun _ => rfl, elemResult_of fun _ => rfl, elemResult_of fun s => ?_⟩,
      fun o => elemResult_of fun _ => rfl, fun o => ?_⟩
  · have sign : (fun x : Int => (x.natAbs : Int)) = fun x => if x < 0 then -x else x := by funext x; split <;> omega
    show (.next (vIntUn o s fun a => (a.natAbs : Int)) : Out) = _
    rw [sign]
    rfl
  · have lesser : (min : Int → Int → Int) = fun x y => if y < x then y else x := by funext x y; split <;> omega
    show (.next (vIntBin o s min) : Out) = _
    rw [lesser]
    rfl
  · have greater : (max : Int → Int → Int) = fun x y => if x < y then y else x := by funext x y; split <;> omega
    show (.next (vIntBin o s max) : Out) = _
    rw [greater]
    rfl
  · refine congrArg Host.Outcome.next (vecForm_congr fun vs n _ => ?_)
    show (sarElem o.t.w (elem o.t.w (vs.getD 0 0) n) (elem o.t.w (vs.getD 1 0) n), 0) = _
    rw [sarElem_eq _ (by cases o.t <;> decide) (elem_lt ..)]
  · intro w dot acc32 acc64
    have lane32 (s : State) : dotForm o true s = vecForm o.p 32 [o.a, o.b, o.c] o.d s (dot 32 acc32 s) :=
      vecForm_congr fun vs n _ => congrArg (·, 0) (dotLane_eq o true vs n)
    have lane64 (s : State) : dotForm o false s = vecForm o.p 64 [o.a, o.b, o.c] o.d s (dot 64 acc64 s) :=
      vecForm_congr fun vs n _ => congrArg (·, 0) (dotLane_eq o false vs n)
    exact ⟨elemResult_of fun s => congrArg Host.Outcome.next (lane32 s), elemResult_of fun s => congrArg Host.Outcome.next (lane32 s),
      elemResult_of fun s => congrArg Host.Outcome.next (lane64 s), elemResult_of fun s => congrArg Host.Outcome.next (lane64 s)⟩

end Machine
end Sys2Proof
end

section
/-! ### O44: compares, selects and conversions -/
namespace Sys2Proof
namespace Machine

/-- A bit of a number made of digits that are each all ones or zero. -/
theorem bitOf_joinDigits_flags {k : Nat} (hk : 0 < k) (l : List Bool) {i : Nat} (hi : i / k < l.length) :
    bitOf (joinDigits k (l.map fun b => if b then 2 ^ k - 1 else 0)) i = l[i / k] := by
  let digits := l.map fun b => if b then 2 ^ k - 1 else 0
  have digit : joinDigits k digits / 2 ^ (k * (i / k)) % 2 ^ k = (if l[i / k] then 2 ^ k - 1 else 0) % 2 ^ k := by
    rw [joinDigits_digit k digits (i / k) (by simpa [digits] using hi)]
    simp [digits]
  have place : (joinDigits k digits).testBit i = (joinDigits k digits / 2 ^ (k * (i / k)) % 2 ^ k).testBit (i % k) := by
    rw [Nat.testBit_mod_two_pow, Nat.testBit_div_two_pow, decide_eq_true (Nat.mod_lt i hk), Bool.true_and, Nat.add_comm, Nat.div_add_mod]
  rw [bitOf_eq_testBit, place, digit]
  cases l[i / k] <;> simp [Nat.mod_lt i hk]

/-- The predicate bits of a compare: one for each lane of 32 bits (R147). -/
theorem vcmp_bits {w : Nat} (width : w = 32 ∨ w = 64) (res : Nat → Bool) {l : Nat} (hl : l < 16) :
    bitOf (BitVec.ofNat 16 (joinDigits (w / 32) (((List.range (512 / w)).map res).map fun b => if b then 2 ^ (w / 32) - 1 else 0))).toNat l =
      res (32 * l / w) := by
  have number : l / (w / 32) = 32 * l / w := by obtain rfl | rfl := width <;> omega
  have inside : l / (w / 32) < 512 / w := by obtain rfl | rfl := width <;> omega
  have low : bitOf (BitVec.ofNat 16 (joinDigits (w / 32) (((List.range (512 / w)).map res).map fun b => if b then 2 ^ (w / 32) - 1 else 0))).toNat l =
      bitOf (joinDigits (w / 32) (((List.range (512 / w)).map res).map fun b => if b then 2 ^ (w / 32) - 1 else 0)) l := by
    rw [bitOf_eq_testBit, bitOf_eq_testBit, BitVec.toNat_ofNat, Nat.testBit_mod_two_pow, decide_eq_true hl, Bool.true_and]
  rw [low, bitOf_joinDigits_flags (by omega) _ (by simpa using inside), List.getElem_map, List.getElem_range, number]

/-- What a compare gives an element: nothing where it is inactive (R147). -/
def cmpAt (o : VCmp) (s : State) (vs : List V512) (n : Nat) : Bool × Nat :=
  if elemOn (predVal s o.p) o.t.w n then cmpElem o.t o.cc (srcElem o.t.w vs 0 n) (srcElem o.t.w vs 1 n) else (false, 0)
/-- A compare, part by part: its checks, then its predicate and its conditions. -/
theorem vcmp_result (o : VCmp) {i : Instr} {s : State} (h : exec i s = .next (vcmpForm o s)) (width : o.t.w = 32 ∨ o.t.w = 64) :
    let w := o.t.w
    let pv := predVal s o.p
    let r := readVs s [o.a, o.b]
    (anyOn pv w = false → exec i s = .next s) ∧
    (anyOn pv w = true → queuesReady s [o.a, o.b] none = false → exec i s = .next (stalled s)) ∧
    (anyOn pv w = true → queuesReady s [o.a, o.b] none = true → (vopOk s o.a && vopOk s o.b) = false → Traps i s (trapOf cBOUNDS 0)) ∧
    (anyOn pv w = true → queuesReady s [o.a, o.b] none = true → (vopOk s o.a && vopOk s o.b) = true →
      ∃ t v, exec i s = .next t ∧ WroteP (orFlags r.2 (orAll ((List.range (512 / w)).map fun n => (cmpAt o s r.1 n).2))) t o.d v ∧
        ∀ l < 16, bitOf v.toNat l = (cmpAt o s r.1 (32 * l / w)).1) := by
  refine ⟨fun off => h.trans (next_elemForm_off off), fun on busy => ?_, fun on ready out => ?_, fun on ready inside => ?_⟩
  · refine h.trans (next_elemForm (b' := .error .stall) on ?_)
    rw [vecChecks_stall busy]
    rfl
  · refine h.trans (next_elemForm (b' := .error (.trap (trapOf cBOUNDS 0))) on ?_)
    rw [vecChecks_bounds ready (by simpa using out)]
    rfl
  · let r := readVs s [o.a, o.b]
    let res := (List.range (512 / o.t.w)).map (cmpAt o s r.1)
    let bits := joinDigits (o.t.w / 32) (res.map fun x => if x.1 then 2 ^ (o.t.w / 32) - 1 else 0)
    have body : exec i s = .next (setP (orFlags r.2 (orAll (res.map (·.2)))) o.d (BitVec.ofNat 16 bits)) :=
      h.trans (next_elemForm (b' := .ok _) on (by rw [vecChecks_ok ready (by simpa using inside)]; rfl))
    refine ⟨_, BitVec.ofNat 16 bits, body, ?_, fun l hl => ?_⟩
    · rw [List.map_map]
      exact setP_wrote ..
    · rw [← vcmp_bits width (fun n => (cmpAt o s r.1 n).1) hl]
      simp only [bits, res, List.map_map, Function.comp_def]

/-- What a conversion gives element `d` of its destination: the converted element that the part names, or else the old element (R149). -/
def cvtElem (o : VCvt) (s : State) (vs : List V512) (d : Nat) : Nat × Nat :=
  let wd := o.t.w
  let ws := o.src.w
  let nc := 512 / max wd ws
  let h := (readS s o.b).toNat % (max wd ws / min wd ws)
  let conv := fun n => convertElem o.t o.src o.rnd o.sat o.rd (elem ws (vs.getD 0 0) n)
  if ws < wd then conv (h * nc + d)
  else if wd < ws then
    (if h * nc ≤ d ∧ d < h * nc + nc then conv (d - h * nc) else (elem wd (oldV (readVs s [o.a]).2 (resolveV s o.d)) d, 0))
  else conv d
/-- What the model gives element `d` of a conversion's destination, read and predicate included. -/
def cvtWritten (o : VCvt) (s : State) (d : Nat) : Nat × Nat :=
  let wd := o.t.w
  let ws := o.src.w
  let nc := 512 / max wd ws
  let h := (readS s o.b).toNat % (max wd ws / min wd ws)
  let r := readV s o.a
  let src := if wd > ws then h * nc + d else if wd < ws then d - h * nc else d
  let named := decide (wd ≥ ws) || (decide (h * nc ≤ d) && decide (d < h * nc + nc))
  if named && elemOn (predVal s o.p) wd d then convertElem o.t o.src o.rnd o.sat o.rd (elem ws r.1 src)
  else (elem wd (oldV r.2 (resolveV s o.d)) d, 0)
theorem cvtWritten_eq (o : VCvt) (s : State) (d : Nat) : cvtWritten o s d =
    if elemOn (predVal s o.p) o.t.w d then cvtElem o s (readVs s [o.a]).1 d else (elem o.t.w (oldV (readVs s [o.a]).2 (resolveV s o.d)) d, 0) := by
  have reads : readVs s [o.a] = ([(readV s o.a).1], (readV s o.a).2) := rfl
  rw [cvtWritten, cvtElem, reads]
  cases on : elemOn (predVal s o.p) o.t.w d with
  | false => simp
  | true =>
    rcases lt_trichotomy o.src.w o.t.w with widening | same | narrowing
    · simp [widening, widening.le]
    · simp [same]
    · simp [narrowing, narrowing.not_ge, narrowing.not_gt]
/-- A conversion acts per element of its destination. -/
theorem vcvtForm_eq (o : VCvt) (s : State) : vcvtForm o s = vecForm o.p o.t.w [o.a] o.d s (cvtElem o s) := by
  let written := (List.range (512 / o.t.w)).map (cvtWritten o s)
  have elements : mapElems o.t.w (predVal s o.p) (cvtElem o s (readVs s [o.a]).1) (oldV (readVs s [o.a]).2 (resolveV s o.d)) =
      (ofElems o.t.w (written.map (·.1)), orAll (written.map (·.2))) := by
    rw [mapElems, List.map_congr_left fun d _ => (cvtWritten_eq o s d).symm]
  refine congrArg (elemForm s o.p o.t.w) ?_
  cases vecChecks s [o.a] (some o.d) with
  | error x => rfl
  | ok _ =>
    dsimp only [bind, Except.bind]
    rw [elements]
    rfl

/-- Settles O44: a compare is `vcmp_result`; a select and a conversion are forms per element. -/
theorem comparesSelectsAndConversionsActPerElement : Obligations.ComparesSelectsAndConversionsActPerElement := by
  refine ⟨fun o i s form width => ?_, fun o => elemResult_of fun s => ?_,
    fun o i form => elemResult_of (f := cvtElem o) fun s => ?_⟩
  · have compare : exec i s = .next (vcmpForm o s) := by obtain rfl | rfl := form <;> rfl
    obtain ⟨off, stall, bounds, goes⟩ := vcmp_result o compare width
    refine ⟨off, stall, bounds, fun on ready inside => ?_⟩
    obtain ⟨t, v, runs, wrote, bits⟩ := goes on ready inside
    simp only [cmpAt, apply_ite Prod.fst, apply_ite Prod.snd] at wrote bits
    refine ⟨t, v, runs, wrote, fun l hl => ?_⟩
    rw [bits l hl]
    cases elemOn (predVal s o.p) o.t.w (32 * l / o.t.w) <;> rfl
  · have chosen : (fun (vs : List V512) n => (if elemOn (getP s o.c) o.t.w n then srcElem o.t.w vs 0 n else srcElem o.t.w vs 1 n, 0)) =
        fun vs n => (elem o.t.w (vs.getD (if elemOn (getP s o.c) o.t.w n then 0 else 1) 0) n, 0) := by
      funext vs n
      split <;> rfl
    exact congrArg (fun f => (.next (vecForm o.p o.t.w [o.a, o.b] o.d s f) : Out)) chosen
  · rw [← vcvtForm_eq]
    obtain rfl | rfl | rfl | rfl := form <;> rfl

end Machine
end Sys2Proof
end

section
/-! ### Rounding an exact magnitude to an integer (R78) -/
namespace Sys2Proof
namespace Machine

/-- A magnitude with its sign. -/
def signed (neg : Bool) (x : ℝ) : ℝ := if neg then -x else x
@[simp] theorem signed_true (x : ℝ) : signed true x = -x := rfl
@[simp] theorem signed_false (x : ℝ) : signed false x = x := rfl
theorem signed_div (neg : Bool) (x y : ℝ) : signed neg x / y = signed neg (x / y) := by cases neg <;> simp [neg_div]
theorem signed_mul (neg : Bool) (x y : ℝ) : signed neg (x * y) = signed neg x * y := by cases neg <;> simp
theorem signInt_cast (neg : Bool) (m : Nat) : ((signInt neg m : Int) : ℝ) = signed neg m := by cases neg <;> simp [signInt]
@[simp] theorem abs_signed (neg : Bool) (x : ℝ) : |signed neg x| = |x| := by cases neg <;> simp
theorem signed_inj (neg : Bool) {x y : ℝ} : signed neg x = signed neg y ↔ x = y := by cases neg <;> simp

@[simp] theorem bit_true : bit true = 1 := rfl
@[simp] theorem bit_false : bit false = 0 := rfl

/-- When a magnitude of integer part `sig` and fraction `fr` rounds away from zero (R78). -/
def AwayFromZero (rnd : Rnd) (neg : Bool) (sig : Nat) (fr : ℝ) : Prop := match rnd with
  | .rne => 1 / 2 < fr ∨ (fr = 1 / 2 ∧ sig % 2 = 1)
  | .rtz => False
  | .rdn => neg = true ∧ fr ≠ 0
  | .rup => neg = false ∧ fr ≠ 0

/-- The mode that rounds the negated value to the negated integer. -/
def mirror : Rnd → Rnd
  | .rne => .rne
  | .rtz => .rtz
  | .rdn => .rup
  | .rup => .rdn
theorem mirror_mirror (rnd : Rnd) : mirror (mirror rnd) = rnd := by cases rnd <;> rfl
theorem AwayFromZero.ne_zero {rnd : Rnd} {neg : Bool} {sig : Nat} {fr : ℝ} (h : AwayFromZero rnd neg sig fr) : fr ≠ 0 := by
  rintro rfl
  cases rnd with
  | rne =>
    obtain past | ⟨tie, -⟩ := h
    · exact absurd past (by norm_num)
    · exact absurd tie (by norm_num)
  | rtz => exact h
  | rdn => exact h.2 rfl
  | rup => exact h.2 rfl
theorem RoundsToInt.neg {rnd : Rnd} {x : ℝ} {n : Int} (h : RoundsToInt rnd x n) : RoundsToInt (mirror rnd) (-x) (-n) := by
  cases rnd with
  | rne =>
    obtain ⟨near, even⟩ := h
    have flip : |(-x) - ((-n : Int) : ℝ)| = |x - n| := by rw [← abs_neg, Int.cast_neg]; ring_nf
    exact ⟨by rwa [flip], fun tie => by have := even (by rwa [← flip]); omega⟩
  | rtz =>
    obtain ⟨down, up⟩ := h
    refine ⟨fun nonpos => ?_, fun neg => ?_⟩
    · rcases (show x ≤ 0 by linarith).lt_or_eq with lt | rfl
      · push_cast
        constructor <;> linarith [up lt]
      · have zero : n = 0 := by
          obtain ⟨le, lt⟩ := down le_rfl
          have le : n ≤ 0 := by exact_mod_cast le
          have lt : 0 < n + 1 := by exact_mod_cast lt
          omega
        simp [zero]
    · push_cast
      constructor <;> linarith [down (by linarith)]
  | rdn => exact ⟨by push_cast; linarith [h.1], by push_cast; linarith [h.2]⟩
  | rup => exact ⟨by push_cast; linarith [h.1], by push_cast; linarith [h.2]⟩
theorem awayFromZero_mirror (rnd : Rnd) (sig : Nat) (fr : ℝ) : AwayFromZero (mirror rnd) false sig fr ↔ AwayFromZero rnd true sig fr := by
  cases rnd <;> simp [mirror, AwayFromZero]
theorem roundsToInt_rne {sig : Nat} {fr : ℝ} (lo : 0 ≤ fr) (hi : fr < 1) {up : Bool} (h : up = true ↔ AwayFromZero .rne false sig fr) :
    RoundsToInt .rne (sig + fr) ((sig + bit up : Nat) : Int) := by
  cases up with
  | true =>
    have away : 1 / 2 < fr ∨ (fr = 1 / 2 ∧ sig % 2 = 1) := h.mp rfl
    have gap : |(sig : ℝ) + fr - ((sig + bit true : Nat) : Int)| = 1 - fr := by
      push_cast [bit_true]
      rw [abs_sub_comm, abs_of_nonneg (by linarith)]
      ring
    rw [RoundsToInt, gap]
    refine ⟨by obtain h | ⟨h, -⟩ := away <;> linarith, fun tie => ?_⟩
    obtain h | ⟨-, odd⟩ := away
    · linarith
    · rw [bit_true]
      omega
  | false =>
    have stay : ¬ (1 / 2 < fr ∨ (fr = 1 / 2 ∧ sig % 2 = 1)) := fun c => Bool.false_ne_true (h.mpr c)
    push Not at stay
    obtain ⟨half, odd⟩ := stay
    have gap : |(sig : ℝ) + fr - ((sig + bit false : Nat) : Int)| = fr := by
      push_cast [bit_false]
      rw [abs_of_nonneg (by simpa using lo)]
      simp
    rw [RoundsToInt, gap]
    refine ⟨half, fun tie => ?_⟩
    have := odd tie
    rw [bit_false]
    omega
theorem roundsToInt_nonneg {rnd : Rnd} {sig : Nat} {fr : ℝ} (lo : 0 ≤ fr) (hi : fr < 1) {up : Bool}
    (h : up = true ↔ AwayFromZero rnd false sig fr) : RoundsToInt rnd (sig + fr) ((sig + bit up : Nat) : Int) := by
  have nonneg : (0 : ℝ) ≤ sig := Nat.cast_nonneg sig
  cases rnd with
  | rne => exact roundsToInt_rne lo hi h
  | rtz =>
    have stays : up = false := Bool.eq_false_iff.mpr h.mp
    subst stays
    exact ⟨fun _ => ⟨by simpa using lo, by simpa using hi⟩, fun neg => absurd neg (by linarith)⟩
  | rdn =>
    have stays : up = false := Bool.eq_false_iff.mpr fun c => Bool.false_ne_true (h.mp c).1
    subst stays
    exact ⟨by simpa using lo, by simpa using hi⟩
  | rup =>
    cases up with
    | true =>
      have pos : 0 < fr := lt_of_le_of_ne lo (h.mp rfl).2.symm
      exact ⟨by simpa using hi.le, by simpa using pos⟩
    | false =>
      have exact_ : fr = 0 := by_contra fun c => Bool.false_ne_true (h.mpr ⟨rfl, c⟩)
      exact ⟨by simp [exact_], by simp [exact_]⟩
/-- An integer part and a fraction round to the integer part, or to the next integer away from zero. -/
theorem roundsToInt_parts {rnd : Rnd} (neg : Bool) {sig : Nat} {fr : ℝ} (lo : 0 ≤ fr) (hi : fr < 1) {up : Bool}
    (h : up = true ↔ AwayFromZero rnd neg sig fr) : RoundsToInt rnd (signed neg (sig + fr)) (signInt neg (sig + bit up)) := by
  cases neg with
  | false => exact roundsToInt_nonneg lo hi h
  | true =>
    have mirrored := (roundsToInt_nonneg lo hi (h.trans (awayFromZero_mirror rnd sig fr).symm)).neg
    rwa [mirror_mirror] at mirrored

/-! #### The model's rounding -/

/-- `M` is the magnitude `m × 2^e`, with a tail below its last bit when `sticky`. -/
def IsMag (m : Nat) (e : Int) (sticky : Bool) (M : ℝ) : Prop :=
  if sticky then (m : ℝ) * 2 ^ e < M ∧ M < (m + 1) * (2 : ℝ) ^ e else M = m * (2 : ℝ) ^ e
theorem IsMag.lower {m : Nat} {e : Int} {sticky : Bool} {M : ℝ} (h : IsMag m e sticky M) : (m : ℝ) * 2 ^ e ≤ M := by
  cases sticky with
  | true => exact h.1.le
  | false => exact h.ge
theorem IsMag.upper {m : Nat} {e : Int} {sticky : Bool} {M : ℝ} (h : IsMag m e sticky M) : M < (m + 1) * (2 : ℝ) ^ e := by
  cases sticky with
  | true => exact h.2
  | false =>
    rw [show M = _ from h]
    have : (0 : ℝ) < 2 ^ e := by positivity
    nlinarith
/-- The magnitude in units of a coarser quantum: its integer part and its fraction. -/
theorem IsMag.parts {m : Nat} {e : Int} {sticky : Bool} {M : ℝ} (h : IsMag m e sticky M) (sh : Nat) :
    ∃ tail : ℝ, 0 ≤ tail ∧ tail < 1 ∧ (tail = 0 ↔ sticky = false) ∧
      M / 2 ^ (e + sh) = (m / 2 ^ sh : Nat) + ((m % 2 ^ sh : Nat) + tail) / (2 : ℝ) ^ sh := by
  have unit : (0 : ℝ) < 2 ^ e := by positivity
  refine ⟨M / 2 ^ e - m, ?_, ?_, ?_, ?_⟩
  · rw [sub_nonneg, le_div_iff₀ unit]
    exact h.lower
  · rw [sub_lt_iff_lt_add', div_lt_iff₀ unit]
    exact h.upper
  · rw [sub_eq_zero, div_eq_iff unit.ne']
    cases sticky with
    | true => exact iff_of_false h.1.ne' (by simp)
    | false => exact iff_of_true h rfl
  · have whole : ((2 ^ sh * (m / 2 ^ sh) + m % 2 ^ sh : Nat) : ℝ) = m := by rw [Nat.div_add_mod]
    push_cast at whole
    rw [zpow_add₀ two_ne_zero, zpow_natCast]
    field_simp
    linear_combination (-(2 : ℝ) ^ e) * whole
/-- A fraction against one half, as `roundShift` compares them. -/
theorem half_iff (m sh : Nat) {sticky : Bool}
    (pos : sticky = true → 0 < sh) {tail : ℝ} (lo : 0 ≤ tail) (hi : tail < 1)
    (exact_ : tail = 0 ↔ sticky = false) :
    (1 / 2 < ((m % 2 ^ sh : Nat) + tail) / (2 : ℝ) ^ sh ↔ 2 ^ sh < 2 * (m % 2 ^ sh) ∨ 2 * (m % 2 ^ sh) = 2 ^ sh ∧ sticky = true) ∧
      (((m % 2 ^ sh : Nat) + tail) / (2 : ℝ) ^ sh = 1 / 2 ↔ 2 * (m % 2 ^ sh) = 2 ^ sh ∧ sticky = false) := by
  have size : (0 : ℝ) < 2 ^ sh := by positivity
  rw [div_lt_div_iff₀ two_pos size, div_eq_div_iff size.ne' two_ne_zero]
  cases sh with
  | zero =>
    have plain : sticky = false := Bool.eq_false_iff.mpr fun c => absurd (pos c) (by omega)
    have none : tail = 0 := exact_.mpr plain
    simp [Nat.mod_one, none]
  | succ k =>
    generalize m % 2 ^ (k + 1) = r
    have double : (2 : Nat) ^ (k + 1) = 2 * 2 ^ k := by rw [Nat.pow_succ, Nat.mul_comm]
    have doubleR : (2 : ℝ) ^ (k + 1) = 2 * 2 ^ k := by rw [pow_succ, mul_comm]
    rw [double, doubleR]
    have apart {x y : Nat} (h : x < y) : (x : ℝ) + 1 ≤ y := by exact_mod_cast h
    rcases lt_trichotomy r (2 ^ k) with below | rfl | above
    · have := apart below
      push_cast at this
      exact ⟨iff_of_false (by linarith) (by omega), iff_of_false (by intro h; linarith) (by omega)⟩
    · push_cast
      cases sticky with
      | true =>
        have some : 0 < tail := lt_of_le_of_ne lo fun c => Bool.false_ne_true (exact_.mp c.symm).symm
        exact ⟨iff_of_true (by linarith) (by simp), iff_of_false (by intro h; linarith) (by simp)⟩
      | false =>
        have none : tail = 0 := exact_.mpr rfl
        simp [none, mul_comm]
    · have := apart above
      push_cast at this
      exact ⟨iff_of_true (by linarith) (by omega), iff_of_false (by intro h; linarith) (by omega)⟩
/-- The fraction that `roundShift` sees, and what it makes of it. -/
theorem roundShift_parts (rnd : Rnd) (neg : Bool) (m sh : Nat) {sticky : Bool}
    (pos : sticky = true → 0 < sh) {tail : ℝ} (lo : 0 ≤ tail) (hi : tail < 1)
    (exact_ : tail = 0 ↔ sticky = false) :
    let fr := ((m % 2 ^ sh : Nat) + tail) / (2 : ℝ) ^ sh
    ∃ up lost : Bool, roundShift rnd neg m sh sticky = (m / 2 ^ sh + bit up, lost) ∧ 0 ≤ fr ∧ fr < 1 ∧
      (lost = true ↔ fr ≠ 0) ∧ (up = true ↔ AwayFromZero rnd neg (m / 2 ^ sh) fr) := by
  intro fr
  have size : (0 : ℝ) < 2 ^ sh := by positivity
  have below : m % 2 ^ sh < 2 ^ sh := Nat.mod_lt _ (Nat.two_pow_pos sh)
  have below' : ((m % 2 ^ sh : Nat) : ℝ) + 1 ≤ 2 ^ sh := by exact_mod_cast below
  have zero : fr = 0 ↔ m % 2 ^ sh = 0 ∧ sticky = false := by
    rw [div_eq_zero_iff, or_iff_left size.ne', add_eq_zero_iff_of_nonneg (Nat.cast_nonneg _) lo, Nat.cast_eq_zero, exact_]
  have lost : (m % 2 ^ sh != 0 || sticky) = true ↔ fr ≠ 0 := by
    rw [ne_eq, zero]
    cases sticky <;> simp
  refine ⟨_, _, rfl, by positivity, by rw [div_lt_one size]; linarith, lost, ?_⟩
  cases rnd with
  | rne =>
    obtain ⟨past, tie⟩ := half_iff m sh pos lo hi exact_
    rw [AwayFromZero, past, tie]
    cases sticky <;> simp
  | rtz => simp [AwayFromZero]
  | rdn => rw [AwayFromZero, ← lost, Bool.and_eq_true]
  | rup => rw [AwayFromZero, ← lost, Bool.and_eq_true, Bool.not_eq_true']
/-- `roundShift` decides as the mode says, and tells whether anything was lost. -/
theorem roundShift_rounds {rnd : Rnd} {neg : Bool} {m sh : Nat} {e : Int} {sticky : Bool} {M : ℝ} (h : IsMag m e sticky M)
    (pos : sticky = true → 0 < sh) :
    RoundsToInt rnd (signed neg (M / 2 ^ (e + sh))) (signInt neg (roundShift rnd neg m sh sticky).1) ∧
      ((roundShift rnd neg m sh sticky).2 = false ↔ ((roundShift rnd neg m sh sticky).1 : ℝ) * 2 ^ (e + sh) = M) := by
  obtain ⟨tail, lo, hi, exact_, units⟩ := h.parts sh
  obtain ⟨up, lost, result, frLo, frHi, isLost, away⟩ := roundShift_parts rnd neg m sh pos lo hi exact_
  rw [result, units]
  refine ⟨roundsToInt_parts neg frLo frHi away, ?_⟩
  rw [← eq_div_iff (by positivity), units, ← Bool.not_eq_true, isLost, not_not]
  push_cast
  rw [add_right_inj]
  cases up with
  | true => exact iff_of_false (away.mp rfl).ne_zero (by simpa using frHi.ne')
  | false => simp [eq_comm]
theorem roundAt_rounds {rnd : Rnd} {neg : Bool} {m : Nat} {e q : Int} {sticky : Bool} {M : ℝ} (h : IsMag m e sticky M)
    (pos : sticky = true → e < q) :
    RoundsToInt rnd (signed neg (M / 2 ^ q)) (signInt neg (roundAt rnd neg m e q sticky).1) ∧
      ((roundAt rnd neg m e q sticky).2 = false ↔ ((roundAt rnd neg m e q sticky).1 : ℝ) * 2 ^ q = M) := by
  rw [roundAt]
  split
  · next coarse =>
    have plain : sticky = false := Bool.eq_false_iff.mpr fun c => by have := pos c; omega
    subst plain
    have place : (2 : ℝ) ^ e = 2 ^ (e - q).toNat * 2 ^ q := by
      rw [← zpow_natCast, ← zpow_add₀ two_ne_zero]
      congr 1
      omega
    have units : M / 2 ^ q = ((m * 2 ^ (e - q).toNat : Nat) : ℝ) := by
      rw [div_eq_iff (by positivity), show M = m * 2 ^ e from h, place]
      push_cast
      ring
    have stays := roundsToInt_parts (rnd := rnd) neg (sig := m * 2 ^ (e - q).toNat) (fr := 0) (up := false) le_rfl one_pos
      (iff_of_false Bool.false_ne_true fun c => c.ne_zero rfl)
    rw [add_zero, ← units] at stays
    exact ⟨stays, iff_of_true rfl (by rw [← units, div_mul_cancel₀ _ (by positivity)])⟩
  · next fine =>
    have place : e + ((q - e).toNat : Int) = q := by omega
    have rounds := roundShift_rounds (rnd := rnd) (neg := neg) (sh := (q - e).toNat) h fun c => by have := pos c; omega
    rwa [place] at rounds

end Machine
end Sys2Proof
end

section
/-! ### Magnitude codes and the values that they are (R77, R83 to R86) -/
namespace Sys2Proof
namespace Machine

/-- A floating format. -/
def IsFloat (t : Ty) : Prop := t.isF = true ∨ t.isNarrow = true
theorem IsFloat.cases {t : Ty} (h : IsFloat t) :
    t = .f64 ∨ t = .f32 ∨ t = .f16 ∨ t = .bf16 ∨ t = .e4m3 ∨ t = .e5m2 ∨ t = .e2m1 := by
  revert h
  cases t <;> simp [IsFloat, Ty.isF, Ty.isNarrow]
theorem fmtOf_w {t : Ty} (h : IsFloat t) (rd : Rd) : (fmtOf t rd).w = t.w := by
  obtain rfl | rfl | rfl | rfl | rfl | rfl | rfl := h.cases <;> cases rd <;> rfl

/-- What the formats have in common: their codes lie below the sign bit, and infinities and NaNs above the finite values. -/
structure FmtOk (f : Fmt) : Prop where
  max_lt : f.maxCode < 2 ^ (f.w - 1)
  inf_gt : ∀ k, f.infCode = some k → f.maxCode < k ∧ k < 2 ^ (f.w - 1)
  nan_lt : ∀ k, f.nanCode = some k → k < 2 ^ (f.w - 1)
  width : 0 < f.w
theorem fmtOk (t : Ty) (rd : Rd) : FmtOk (fmtOf t rd) := by
  cases t <;> cases rd <;> exact ⟨by decide, by decide, by decide, by decide⟩

/-! #### The sign bit -/

section
variable {f : Fmt} (neg : Bool) {c : Nat} (hc : c < 2 ^ (f.w - 1))
include hc

theorem withSign_lt (width : 0 < f.w) : withSign f neg c < 2 ^ f.w := by
  have double : 2 ^ f.w = 2 * 2 ^ (f.w - 1) := by rw [← Nat.pow_succ', Nat.succ_eq_add_one, Nat.sub_add_cancel width]
  rw [withSign]
  split <;> omega
theorem withSign_mod : withSign f neg c % 2 ^ (f.w - 1) = c := by
  cases neg with
  | true => exact (Nat.add_mod_right c _).trans (Nat.mod_eq_of_lt hc)
  | false => exact Nat.mod_eq_of_lt hc
theorem bitOf_withSign : bitOf (withSign f neg c) (f.w - 1) = neg := by
  cases neg with
  | true => simp [withSign, bitOf, Nat.add_div_right _ (Nat.two_pow_pos (f.w - 1)), Nat.div_eq_of_lt hc]
  | false => simp [withSign, bitOf, Nat.div_eq_of_lt hc]
end
/-- A pattern is its magnitude code with its sign bit. -/
theorem withSign_self {f : Fmt} (ok : FmtOk f) {a : Nat} (ha : a < 2 ^ f.w) : withSign f (bitOf a (f.w - 1)) (a % 2 ^ (f.w - 1)) = a := by
  have double : 2 ^ f.w = 2 ^ (f.w - 1) * 2 := by rw [← Nat.pow_succ, Nat.succ_eq_add_one, Nat.sub_add_cancel ok.width]
  have half : a / 2 ^ (f.w - 1) < 2 := Nat.div_lt_of_lt_mul (by omega)
  have parts := Nat.div_add_mod a (2 ^ (f.w - 1))
  rw [withSign, bitOf]
  generalize a / 2 ^ (f.w - 1) = b at *
  obtain rfl | rfl : b = 0 ∨ b = 1 := by omega
  · simpa using parts
  · simp only [Nat.mul_one] at parts
    simpa [Nat.add_comm] using parts

/-! #### The value of a code -/

/-- How many binades a code lies above the lowest, whose quantum the subnormals share. -/
def codeStep (f : Fmt) (c : Nat) : Nat := c / 2 ^ f.mb - 1
/-- The significand of a code, and the exponent of its quantum. -/
def codeMan (f : Fmt) (c : Nat) : Nat := c - codeStep f c * 2 ^ f.mb
def codeExp (f : Fmt) (c : Nat) : Int := 1 - (f.bias : Int) - f.mb + codeStep f c
/-- The value of a code. -/
noncomputable def codeVal (f : Fmt) (c : Nat) : ℝ := codeMan f c * (2 : ℝ) ^ codeExp f c

section
variable (f : Fmt) (c : Nat)

theorem codeStep_mul_le : codeStep f c * 2 ^ f.mb ≤ c :=
  (Nat.mul_le_mul_right _ (Nat.sub_le _ _)).trans (Nat.div_mul_le_self c _)
theorem codeMan_add : codeStep f c * 2 ^ f.mb + codeMan f c = c := Nat.add_sub_cancel' (codeStep_mul_le f c)
theorem codeMan_lt : codeMan f c < 2 ^ (f.mb + 1) := by
  have parts := codeMan_add f c
  have above := Nat.lt_mul_div_succ c (Nat.two_pow_pos f.mb)
  rw [Nat.pow_succ]
  rw [codeStep] at parts
  generalize hq : c / 2 ^ f.mb = q at *
  cases q with
  | zero => simp at *; omega
  | succ q => simp only [Nat.add_sub_cancel] at parts; nlinarith
theorem codeStep_eq_zero_or : codeStep f c = 0 ∨ 2 ^ f.mb ≤ codeMan f c := by
  rw [codeMan, codeStep]
  have below := Nat.mul_div_le c (2 ^ f.mb)
  generalize c / 2 ^ f.mb = q at *
  cases q with
  | zero => exact .inl rfl
  | succ q => exact .inr (by rw [Nat.add_sub_cancel, Nat.mul_comm]; rw [Nat.mul_add] at below; omega)
end

/-- A significand at a binade's quantum is the value of the code that joins them, up to the next binade. -/
theorem codeVal_pack (f : Fmt) {j r : Nat} (hi : r ≤ 2 ^ (f.mb + 1)) (lo : j = 0 ∨ 2 ^ f.mb ≤ r) :
    codeVal f (j * 2 ^ f.mb + r) = r * (2 : ℝ) ^ (1 - (f.bias : Int) - f.mb + j) := by
  have unit : 0 < 2 ^ f.mb := Nat.two_pow_pos _
  have step : codeStep f (j * 2 ^ f.mb + r) = j + (r / 2 ^ f.mb - 1) := by
    rw [codeStep, Nat.mul_comm, Nat.mul_add_div unit]
    obtain rfl | big := lo
    · omega
    · have : 1 ≤ r / 2 ^ f.mb := (Nat.one_le_div_iff unit).mpr big
      omega
  rw [Nat.pow_succ] at hi
  by_cases next : r = 2 * 2 ^ f.mb
  · have two : r / 2 ^ f.mb = 2 := by rw [next, Nat.mul_div_cancel _ unit]
    have man : codeMan f (j * 2 ^ f.mb + r) = 2 ^ f.mb := by
      rw [codeMan, step, two, next, Nat.add_mul]
      omega
    rw [codeVal, man, codeExp, step, two, next]
    push_cast
    rw [← add_assoc, zpow_add_one₀ two_ne_zero]
    ring
  · have one : r / 2 ^ f.mb - 1 = 0 := by
      have : r / 2 ^ f.mb < 2 := Nat.div_lt_of_lt_mul (by omega)
      omega
    rw [codeVal, codeMan, codeExp, step, one, Nat.add_zero, Nat.add_sub_cancel_left]
theorem codeVal_strictMono (f : Fmt) : StrictMono (codeVal f) := by
  refine strictMono_nat_of_lt_succ fun c => ?_
  have small := codeMan_lt f c
  have next := codeVal_pack f (j := codeStep f c) (r := codeMan f c + 1) small ((codeStep_eq_zero_or f c).imp_right Nat.le_succ_of_le)
  rw [← Nat.add_assoc, codeMan_add] at next
  rw [next, codeVal, codeExp]
  push_cast
  have : (0 : ℝ) < 2 ^ (1 - (f.bias : Int) - f.mb + codeStep f c) := by positivity
  linarith
theorem codeVal_zero (f : Fmt) : codeVal f 0 = 0 := by simp [codeVal, codeMan]
theorem codeMan_eq_zero {f : Fmt} {c : Nat} : codeMan f c = 0 ↔ c = 0 := by
  refine ⟨fun h => ?_, fun h => by simp [h, codeMan]⟩
  have : codeVal f c = codeVal f 0 := by rw [codeVal_zero, codeVal, h, Nat.cast_zero, zero_mul]
  exact (codeVal_strictMono f).injective this

/-! #### What a pattern decodes to -/

section
variable (t : Ty) (rd : Rd) {a : Nat}

theorem fdec_finite (h : a % 2 ^ ((fmtOf t rd).w - 1) ≤ (fmtOf t rd).maxCode) :
    let f := fmtOf t rd
    fdec t rd a = if t = .e2m1 ∧ a % 2 ^ (f.w - 1) = 0 then .fin false 0 0
      else .fin (bitOf a (f.w - 1)) (codeMan f (a % 2 ^ (f.w - 1))) (codeExp f (a % 2 ^ (f.w - 1))) := by
  intro f
  rw [fdec]
  change a % 2 ^ (f.w - 1) ≤ f.maxCode at h
  show (if a % 2 ^ (f.w - 1) > f.maxCode then _ else _) = _
  generalize a % 2 ^ (f.w - 1) = c at *
  rw [if_neg (Nat.not_lt.mpr h)]
  by_cases zero : t = .e2m1 ∧ c = 0
  · rw [if_pos (by simpa using zero), if_pos zero]
  · rw [if_neg (by simpa using zero), if_neg zero]
    split
    · next low =>
      have step : codeStep f c = 0 := by rw [codeStep, show c / 2 ^ f.mb = 0 from low]
      have man : c % 2 ^ f.mb = codeMan f c := by
        rw [codeMan, step, Nat.zero_mul, Nat.sub_zero]
        exact Nat.mod_eq_of_lt ((Nat.div_eq_zero_iff_lt (Nat.two_pow_pos _)).mp low)
      rw [codeExp, step, ← man]
      simp [f]
    · next high =>
      have field : c / 2 ^ f.mb = codeStep f c + 1 := (Nat.sub_add_cancel (Nat.one_le_iff_ne_zero.mpr high)).symm
      have man : c % 2 ^ f.mb + 2 ^ f.mb = codeMan f c := by
        have parts := Nat.div_add_mod c (2 ^ f.mb)
        have whole := codeMan_add f c
        rw [field, Nat.mul_comm] at parts
        linarith
      have place : ((c / 2 ^ f.mb : Nat) : Int) - f.bias - f.mb = codeExp f c := by
        rw [field, codeExp]
        push_cast
        ring
      rw [← man, ← place]
theorem fdec_special (h : (fmtOf t rd).maxCode < a % 2 ^ ((fmtOf t rd).w - 1)) :
    (∃ neg, fdec t rd a = .inf neg) ∨ ∃ sig, fdec t rd a = .nan sig := by
  rw [fdec, if_pos h]
  split
  · exact .inl ⟨_, rfl⟩
  · exact .inr ⟨_, rfl⟩
theorem fdec_inf {neg : Bool} : fdec t rd a = .inf neg ↔ (fmtOf t rd).maxCode < a % 2 ^ ((fmtOf t rd).w - 1) ∧
    (fmtOf t rd).infCode = some (a % 2 ^ ((fmtOf t rd).w - 1)) ∧ bitOf a ((fmtOf t rd).w - 1) = neg := by
  by_cases h : (fmtOf t rd).maxCode < a % 2 ^ ((fmtOf t rd).w - 1)
  · rw [fdec, if_pos h]
    split <;> simp_all
  · rw [fdec_finite t rd (Nat.not_lt.mp h)]
    split <;> simp_all
end

end Machine
end Sys2Proof
end

section
/-! ### A finite value rounded to a format once (R78, R81, R92) -/
namespace Sys2Proof
namespace Machine

/-! #### How far rounding moves a value -/

theorem RoundsToInt.near {rnd : Rnd} {x : ℝ} {n : Int} (h : RoundsToInt rnd x n) : |x - n| < 1 := by
  cases rnd with
  | rne => exact lt_of_le_of_lt h.1 (by norm_num)
  | rtz =>
    rw [abs_lt]
    rcases lt_or_ge x 0 with neg | nonneg
    · obtain ⟨le, lt⟩ := h.2 neg
      constructor <;> linarith
    · obtain ⟨le, lt⟩ := h.1 nonneg
      constructor <;> linarith
  | rdn => rw [abs_lt]; constructor <;> linarith [h.1, h.2]
  | rup => rw [abs_lt]; constructor <;> linarith [h.1, h.2]
section
variable {rnd : Rnd} {neg : Bool} {z : ℝ} {r N : Nat} (h : RoundsToInt rnd (signed neg z) (signInt neg r))
include h

theorem roundsToInt_mag_near : |z - r| < 1 := by
  have near := h.near
  rw [signInt_cast] at near
  cases neg with
  | true => rwa [signed_true, signed_true, neg_sub_neg, abs_sub_comm] at near
  | false => exact near
theorem roundsToInt_le (hz : z < N) : r ≤ N := by
  obtain ⟨lo, hi⟩ := abs_lt.mp (roundsToInt_mag_near h)
  have : (r : ℝ) < N + 1 := by linarith
  exact Nat.lt_succ_iff.mp (by exact_mod_cast this)
theorem le_roundsToInt (hz : N ≤ z) : N ≤ r := by
  obtain ⟨lo, hi⟩ := abs_lt.mp (roundsToInt_mag_near h)
  have : (N : ℝ) < r + 1 := by linarith
  exact Nat.lt_succ_iff.mp (by exact_mod_cast this)
end

/-! #### Finite patterns -/

/-- The pattern of a finite code: E2M1 has one zero (R149). -/
def finPat (t : Ty) (rd : Rd) (neg : Bool) (c : Nat) : Nat := if t == .e2m1 && c == 0 then 0 else withSign (fmtOf t rd) neg c
section
variable (t : Ty) (rd : Rd) (neg : Bool) {c : Nat} (hc : c ≤ (fmtOf t rd).maxCode)
include hc

theorem finPat_lt : finPat t rd neg c < 2 ^ (fmtOf t rd).w := by
  rw [finPat]
  split
  · exact Nat.two_pow_pos _
  · exact withSign_lt neg (lt_of_le_of_lt hc (fmtOk t rd).max_lt) (fmtOk t rd).width
theorem fdec_finPat : ∃ m e,
    fdec t rd (finPat t rd neg c) = .fin (neg && !(t == .e2m1 && m == 0)) m e ∧ (m : ℝ) * 2 ^ e = codeVal (fmtOf t rd) c := by
  let f := fmtOf t rd
  have inside : c < 2 ^ (f.w - 1) := lt_of_le_of_lt hc (fmtOk t rd).max_lt
  by_cases zero : t = .e2m1 ∧ c = 0
  · obtain ⟨rfl, rfl⟩ := zero
    refine ⟨0, 0, ?_, by rw [codeVal_zero]; simp⟩
    cases rd <;> cases neg <;> rfl
  · have pat : finPat t rd neg c = withSign f neg c := if_neg (by simpa using zero)
    refine ⟨codeMan f c, codeExp f c, ?_, rfl⟩
    rw [pat, fdec_finite t rd (by rwa [withSign_mod neg inside]), withSign_mod neg inside, if_neg zero, bitOf_withSign neg inside]
    have proper : (t == .e2m1 && codeMan f c == 0) = false := by
      simp only [Bool.and_eq_false_iff, beq_eq_false_iff_ne, ne_eq, codeMan_eq_zero]
      exact not_and_or.mp zero
    rw [proper, Bool.not_false, Bool.and_true]
theorem finPat_is : (fdec t rd (finPat t rd neg c)).Is (signed neg (codeVal (fmtOf t rd) c)) := by
  obtain ⟨m, e, dec, val⟩ := fdec_finPat t rd neg hc
  rw [dec, FV.Is, ← val, signed_mul]
  congr 1
  by_cases zero : t = .e2m1 ∧ m = 0
  · simp [zero.1, zero.2, signed]
  · have proper : (t == .e2m1 && m == 0) = false := by simpa using zero
    rw [proper, Bool.not_false, Bool.and_true]
    rfl
end
/-- The largest finite value of a format. -/
theorem maxCode_is (t : Ty) (rd : Rd) : (fdec t rd (fmtOf t rd).maxCode).Is (codeVal (fmtOf t rd) (fmtOf t rd).maxCode) := by
  have largest := finPat_is t rd false (le_refl (fmtOf t rd).maxCode)
  have pat : finPat t rd false (fmtOf t rd).maxCode = (fmtOf t rd).maxCode := by
    rw [finPat]
    split
    · next h => simp only [Bool.and_eq_true, beq_iff_eq] at h; exact h.2.symm
    · rfl
  rwa [pat] at largest

/-! #### Overflow (R78, R92, R139) -/

/-- When a value that overflows becomes the infinity of its format. -/
def ToInf (rnd : Rnd) (sat neg : Bool) : Prop := (rnd = .rne ∨ (rnd = .rdn ∧ neg = true) ∨ (rnd = .rup ∧ neg = false)) ∧ sat = false

theorem withSign_max_is (t : Ty) (rd : Rd) (neg : Bool) :
    (fdec t rd (withSign (fmtOf t rd) neg (fmtOf t rd).maxCode)).Is (signed neg (codeVal (fmtOf t rd) (fmtOf t rd).maxCode)) := by
  have largest := finPat_is t rd neg (le_refl (fmtOf t rd).maxCode)
  have positive : (fmtOf t rd).maxCode ≠ 0 := by cases t <;> cases rd <;> decide
  have pat : finPat t rd neg (fmtOf t rd).maxCode = withSign (fmtOf t rd) neg (fmtOf t rd).maxCode := if_neg (by simp [positive])
  rwa [pat] at largest
theorem fdec_withSign_inf (t : Ty) (rd : Rd) (neg : Bool) {k : Nat} (hk : (fmtOf t rd).infCode = some k) :
    fdec t rd (withSign (fmtOf t rd) neg k) = .inf neg := by
  obtain ⟨above, inside⟩ := (fmtOk t rd).inf_gt k hk
  rw [fdec_inf, withSign_mod neg inside, bitOf_withSign neg inside]
  exact ⟨above, hk, rfl⟩
/-- What an overflow gives. -/
theorem overflowOf_cases (f : Fmt) (rnd : Rnd) (sat neg : Bool) :
    (¬ ToInf rnd sat neg → overflowOf f rnd sat neg = withSign f neg f.maxCode) ∧
    (ToInf rnd sat neg → (∀ k, f.infCode = some k → overflowOf f rnd sat neg = withSign f neg k) ∧
      (f.infCode = none → ∀ q, f.nanCode = some q → overflowOf f rnd sat neg = q) ∧
      (f.infCode = none → f.nanCode = none → overflowOf f rnd sat neg = withSign f neg f.maxCode)) := by
  cases rnd <;> cases sat <;> cases neg <;> simp +contextual [ToInf, overflowOf]
theorem overflowOf_lt {f : Fmt} (ok : FmtOk f) (rnd : Rnd) (sat neg : Bool) : overflowOf f rnd sat neg < 2 ^ f.w := by
  obtain ⟨finite, infinite⟩ := overflowOf_cases f rnd sat neg
  by_cases toInf : ToInf rnd sat neg
  · obtain ⟨hasInf, hasNan, neither⟩ := infinite toInf
    cases hi : f.infCode with
    | some k => rw [hasInf k hi]; exact withSign_lt neg (ok.inf_gt k hi).2 ok.width
    | none =>
      cases hn : f.nanCode with
      | some k =>
        rw [hasNan hi k hn]
        exact lt_of_lt_of_le (ok.nan_lt k hn) (Nat.pow_le_pow_right two_pos (Nat.sub_le _ _))
      | none => rw [neither hi hn]; exact withSign_lt neg ok.max_lt ok.width
  · rw [finite toInf]
    exact withSign_lt neg ok.max_lt ok.width

/-! #### The rounded magnitude -/

section
variable {m : Nat} {e : Int} {sticky : Bool} {M : ℝ} (mag : IsMag m e sticky M) (hm : m ≠ 0)
include mag hm

/-- The binade of a magnitude. -/
theorem IsMag.binade : (2 : ℝ) ^ (e + Nat.log2 m) ≤ M ∧ M < (2 : ℝ) ^ (e + Nat.log2 m + 1) := by
  have unit : (0 : ℝ) < 2 ^ e := by positivity
  have lo : ((2 ^ Nat.log2 m : Nat) : ℝ) ≤ m := by exact_mod_cast Nat.log2_self_le hm
  have hi : (m : ℝ) + 1 ≤ (2 ^ (Nat.log2 m + 1) : Nat) := by exact_mod_cast Nat.lt_log2_self
  push_cast at lo hi
  rw [add_assoc, zpow_add₀ two_ne_zero, zpow_add₀ two_ne_zero]
  have same : (2 : ℝ) ^ ((Nat.log2 m : Int) + 1) = 2 ^ (Nat.log2 m + 1) := by exact_mod_cast zpow_natCast (2 : ℝ) (Nat.log2 m + 1)
  rw [same, zpow_natCast]
  exact ⟨le_trans (by nlinarith) mag.lower, lt_of_lt_of_le mag.upper (by nlinarith)⟩
theorem IsMag.pos : 0 < M := lt_of_lt_of_le (by positivity) (mag.binade hm).1

variable (f : Fmt) (rnd : Rnd) (neg : Bool) (wide : sticky = true → f.mb < Nat.log2 m)
include wide

/-- A magnitude rounded to a quantum no finer than its own last significant bit's. -/
theorem roundAt_magnitude {q : Int} (hq : e + Nat.log2 m - f.mb ≤ q) :
    let r := (roundAt rnd neg m e q sticky)
    RoundsToInt rnd (signed neg M / 2 ^ q) (signInt neg r.1) ∧ (r.2 = false ↔ (r.1 : ℝ) * 2 ^ q = M) ∧ r.1 ≤ 2 ^ (f.mb + 1) ∧
      (q = e + Nat.log2 m - f.mb → 2 ^ f.mb ≤ r.1) := by
  intro r
  obtain ⟨lo, hi⟩ := mag.binade hm
  obtain ⟨rounds, exact_⟩ := roundAt_rounds (rnd := rnd) (neg := neg) (q := q) mag fun c => by have := wide c; omega
  have unit : (0 : ℝ) < 2 ^ q := by positivity
  have power (k : Nat) : (((2 ^ k : Nat) : ℝ)) * 2 ^ q = 2 ^ (q + k) := by
    rw [zpow_add₀ two_ne_zero, zpow_natCast]
    push_cast
    ring
  refine ⟨by rwa [signed_div], exact_, roundsToInt_le rounds ?_, fun own => le_roundsToInt rounds ?_⟩
  · rw [div_lt_iff₀ unit, power]
    exact lt_of_lt_of_le hi (zpow_le_zpow_right₀ one_le_two (by push_cast; omega))
  · rw [le_div_iff₀ unit, power, own, sub_add_cancel]
    exact lo

/-- The magnitude code that `roundMag` gives. -/
theorem roundMag_code :
    let least : Int := 1 - f.bias
    let q := max (e + Nat.log2 m) least - f.mb
    let r := roundAt rnd neg m e q sticky
    (roundMag f rnd neg m e sticky).1 = (q - (least - f.mb)).toNat * 2 ^ f.mb + r.1 ∧ (roundMag f rnd neg m e sticky).2.1 = r.2 ∧
      codeVal f (roundMag f rnd neg m e sticky).1 = r.1 * (2 : ℝ) ^ q := by
  intro least q r
  obtain ⟨-, -, hi, lo⟩ := roundAt_magnitude mag hm f rnd neg wide (q := q) (by omega)
  refine ⟨rfl, rfl, ?_⟩
  have packed := codeVal_pack f (j := (q - (least - f.mb)).toNat) hi (by
    rcases le_or_gt least (e + Nat.log2 m) with normal | subnormal
    · exact .inr (lo (by omega))
    · exact .inl (by omega))
  have place : 1 - (f.bias : Int) - f.mb + (q - (least - f.mb)).toNat = q := by omega
  rwa [place] at packed
/-- A value is tiny when its rounding with an unbounded exponent range is below the least normal value (R81). -/
theorem roundMag_tiny : (roundMag f rnd neg m e sticky).2.2 = true ↔
    |(signInt neg (roundAt rnd neg m e (e + Nat.log2 m - f.mb) sticky).1 : ℝ) * 2 ^ (e + Nat.log2 m - f.mb)| < (2 : ℝ) ^ (1 - (f.bias : Int)) := by
  obtain ⟨-, -, hi, lo⟩ := roundAt_magnitude mag hm f rnd neg wide (q := e + Nat.log2 m - f.mb) le_rfl
  replace lo := lo rfl
  rw [signInt_cast, abs_mul, abs_signed, Nat.abs_cast, abs_of_pos (by positivity : (0 : ℝ) < 2 ^ (e + Nat.log2 m - f.mb))]
  change (if 1 - (f.bias : Int) ≤ e + Nat.log2 m then false else
    decide (e + Nat.log2 m < 1 - (f.bias : Int) - 1) || decide ((roundAt rnd neg m e (e + Nat.log2 m - f.mb) sticky).1 < 2 ^ (f.mb + 1))) = true ↔ _
  generalize (roundAt rnd neg m e (e + Nat.log2 m - f.mb) sticky).1 = u at *
  generalize e + (Nat.log2 m : Int) = ev at *
  generalize 1 - (f.bias : Int) = least at *
  have unit : (0 : ℝ) < 2 ^ (ev - f.mb) := by positivity
  have power (k : Nat) : (2 : ℝ) ^ (ev - f.mb + k) = 2 ^ k * 2 ^ (ev - f.mb) := by rw [zpow_add₀ two_ne_zero, zpow_natCast, mul_comm]
  have loR : (2 : ℝ) ^ f.mb ≤ u := by exact_mod_cast lo
  have hiR : (u : ℝ) ≤ 2 ^ (f.mb + 1) := by exact_mod_cast hi
  rcases lt_trichotomy (least - 1) ev with normal | at_ | below
  · rw [if_pos (by omega)]
    refine iff_of_false Bool.false_ne_true (not_lt.mpr ?_)
    calc (2 : ℝ) ^ least ≤ 2 ^ (ev - f.mb + f.mb) := zpow_le_zpow_right₀ one_le_two (by omega)
      _ = 2 ^ f.mb * 2 ^ (ev - f.mb) := power _
      _ ≤ u * 2 ^ (ev - f.mb) := by nlinarith
  · have place : (2 : ℝ) ^ least = 2 ^ (f.mb + 1) * 2 ^ (ev - f.mb) := by
      rw [← power]
      congr 1
      push_cast
      omega
    rw [if_neg (by omega), decide_eq_false (by omega), Bool.false_or, decide_eq_true_eq, place, mul_lt_mul_iff_left₀ unit]
    exact_mod_cast Iff.rfl
  · rw [if_neg (by omega), decide_eq_true (by omega), Bool.true_or]
    refine iff_of_true rfl ?_
    calc u * (2 : ℝ) ^ (ev - f.mb) ≤ 2 ^ (f.mb + 1) * 2 ^ (ev - f.mb) := by nlinarith
      _ = 2 ^ (ev - f.mb + (f.mb + 1 : Nat)) := (power _).symm
      _ < 2 ^ least := zpow_lt_zpow_right₀ one_lt_two (by push_cast; omega)
end

/-- What `encFin` gives a nonzero magnitude: its code, or the overflow's result. -/
theorem encFin_eq (t : Ty) (rd : Rd) (rnd : Rnd) (sat neg : Bool) {m : Nat} (e : Int) (sticky : Bool) (hm : m ≠ 0) :
    let f := fmtOf t rd
    let r := roundMag f rnd neg m e sticky
    encFin t rd rnd sat neg m e sticky = if r.1 ≤ f.maxCode then
        (finPat t rd neg r.1, if r.2.1 then (if r.2.2 then flagUF ||| flagNX else flagNX) else 0)
      else (overflowOf f rnd sat neg, flagOF ||| flagNX) := by
  intro f r
  rw [encFin, if_neg hm]
  by_cases fits : r.1 ≤ f.maxCode
  · rw [if_pos fits]
    exact if_neg (Nat.not_lt.mpr fits)
  · rw [if_neg fits]
    exact if_pos (Nat.not_le.mp fits)
theorem signed_lt_zero {neg : Bool} {M : ℝ} (pos : 0 < M) : neg = true ↔ signed neg M < 0 := by cases neg <;> simp [pos, pos.le]

/-- `encFin` rounds the exact value that it is given once. -/
theorem encFin_roundsOnce (t : Ty) (rd : Rd) (rnd : Rnd) (sat neg : Bool) {m : Nat} {e : Int} {sticky : Bool} {M : ℝ}
    (mag : IsMag m e sticky M) (hm : m ≠ 0) (wide : sticky = true → (fmtOf t rd).mb < Nat.log2 m) :
    RoundsOnce t rd rnd sat (signed neg M) (encFin t rd rnd sat neg m e sticky) := by
  have pos := mag.pos hm
  obtain ⟨lo, hi⟩ := mag.binade hm
  obtain ⟨code, lost, val⟩ := roundMag_code mag hm (fmtOf t rd) rnd neg wide
  have tiny := roundMag_tiny mag hm (fmtOf t rd) rnd neg wide
  obtain ⟨rounds, exact_, -⟩ := roundAt_magnitude mag hm (fmtOf t rd) rnd neg wide
    (q := max (e + Nat.log2 m) (1 - (fmtOf t rd).bias) - (fmtOf t rd).mb) (by omega)
  obtain ⟨unbounded, -⟩ := roundAt_magnitude mag hm (fmtOf t rd) rnd neg wide (q := e + Nat.log2 m - (fmtOf t rd).mb) le_rfl
  refine ⟨e + Nat.log2 m, _, _, neg, codeVal (fmtOf t rd) (fmtOf t rd).maxCode, by rwa [abs_signed, abs_of_pos pos],
    by rwa [abs_signed, abs_of_pos pos], signed_lt_zero pos, maxCode_is t rd, rounds, unbounded, ?_⟩
  rw [encFin_eq t rd rnd sat neg e sticky hm]
  generalize (roundAt rnd neg m e (e + Nat.log2 m - (fmtOf t rd).mb) sticky).1 = u at *
  generalize roundMag (fmtOf t rd) rnd neg m e sticky = c at *
  generalize roundAt rnd neg m e (max (e + Nat.log2 m) (1 - (fmtOf t rd).bias) - (fmtOf t rd).mb) sticky = r at *
  have size : (signInt neg r.1 : ℝ) * 2 ^ (max (e + Nat.log2 m) (1 - (fmtOf t rd).bias) - (fmtOf t rd).mb) = signed neg (codeVal (fmtOf t rd) c.1) := by
    rw [val, signed_mul, ← signInt_cast]
  set y := (signInt neg r.1 : ℝ) * 2 ^ (max (e + Nat.log2 m) (1 - (fmtOf t rd).bias) - (fmtOf t rd).mb)
  have fits : |y| ≤ codeVal (fmtOf t rd) (fmtOf t rd).maxCode ↔ c.1 ≤ (fmtOf t rd).maxCode := by
    rw [size, abs_signed, abs_of_nonneg (by rw [val]; positivity), (codeVal_strictMono _).le_iff_le]
  have kept : y = signed neg M ↔ c.2.1 = false := by rw [size, signed_inj, val, lost, exact_]
  by_cases inside : c.1 ≤ (fmtOf t rd).maxCode
  · rw [if_pos inside]
    intro _ isTiny toInf largest
    refine ⟨finPat_lt t rd neg inside, fun _ => ⟨?_, ?_, ?_, ?_, ?_, ?_⟩,
      fun out => absurd (fits.mpr inside) (not_le.mpr out)⟩
    · obtain ⟨m', e', dec, -⟩ := fdec_finPat t rd neg inside
      exact ⟨m', e', dec⟩
    · show (fdec t rd (finPat t rd neg c.1)).Is y
      rw [size]
      exact finPat_is t rd neg inside
    · rintro rfl zero
      have none : r.1 = 0 := by cases neg <;> simpa [signInt] using zero
      have low : c.1 = 0 := (codeVal_strictMono (fmtOf .e2m1 rd)).injective (by rw [val, none, codeVal_zero]; simp)
      rw [low]
      rfl
    · exact fun same => by rw [kept.mp same]; rfl
    · exact fun changed small => by rw [(Bool.not_eq_false _).mp (mt kept.mpr changed), tiny.mpr small]; rfl
    · exact fun changed large => by rw [(Bool.not_eq_false _).mp (mt kept.mpr changed), Bool.eq_false_iff.mpr (mt tiny.mp large)]; rfl
  · obtain ⟨finite, infinite⟩ := overflowOf_cases (fmtOf t rd) rnd sat neg
    rw [if_neg inside]
    intro _ isTiny toInf largest
    refine ⟨?_, fun small => absurd (fits.mp small) inside, fun _ => ⟨rfl, ?_, ?_⟩⟩
    · exact overflowOf_lt (fmtOk t rd) rnd sat neg
    · intro stays
      show (fdec t rd (overflowOf (fmtOf t rd) rnd sat neg)).Is _
      rw [finite stays]
      exact withSign_max_is t rd neg
    · intro toInf
      obtain ⟨hasInf, hasNan, neither⟩ := infinite toInf
      refine ⟨fun some => ?_, hasNan, fun noInf noNan => ?_⟩
      · obtain ⟨k, hk⟩ := Option.isSome_iff_exists.mp some
        rw [hasInf k hk]
        exact fdec_withSign_inf t rd neg hk
      · show (fdec t rd (overflowOf (fmtOf t rd) rnd sat neg)).Is _
        rw [neither noInf noNan]
        exact withSign_max_is t rd neg

end Machine
end Sys2Proof
end

section
/-! ### Sums, products and fused forms (R78, R138) -/
namespace Sys2Proof
namespace Machine

/-- A finite value from its parts. -/
noncomputable def finVal (neg : Bool) (m : Nat) (e : Int) : ℝ := signed neg (m * (2 : ℝ) ^ e)
theorem fin_is (neg : Bool) (m : Nat) (e : Int) (x : ℝ) : (FV.fin neg m e).Is x ↔ x = finVal neg m e := by
  rw [FV.Is, finVal, signed_mul]
  rfl
theorem finVal_eq_zero {neg : Bool} {m : Nat} {e : Int} : finVal neg m e = 0 ↔ m = 0 := by
  cases neg <;> simp [finVal, zpow_ne_zero]
theorem finVal_not (neg : Bool) (m : Nat) (e : Int) : finVal (!neg) m e = -finVal neg m e := by cases neg <;> simp [finVal]
theorem finVal_neg_iff {neg : Bool} {m : Nat} {e : Int} (h : m ≠ 0) : finVal neg m e < 0 ↔ neg = true := (signed_lt_zero (by positivity)).symm
/-- An integer at a quantum not above the value's own. -/
theorem signInt_scaled (neg : Bool) (m : Nat) {e q : Int} (h : q ≤ e) : (signInt neg (m * 2 ^ (e - q).toNat) : ℝ) * 2 ^ q = finVal neg m e := by
  have place : (2 : ℝ) ^ e = 2 ^ (e - q).toNat * 2 ^ q := by
    rw [← zpow_natCast, ← zpow_add₀ two_ne_zero]
    congr 1
    omega
  rw [signInt_cast, finVal, place, ← signed_mul]
  push_cast
  ring_nf
theorem signed_natAbs (v : Int) : signed (decide (v < 0)) v.natAbs = v := by
  rcases lt_or_ge v 0 with neg | nonneg
  · rw [decide_eq_true neg, signed_true]
    rw [← Int.cast_natCast, Int.natCast_natAbs, abs_of_neg neg]
    simp
  · rw [decide_eq_false (by omega), signed_false, ← Int.cast_natCast, Int.natCast_natAbs, abs_of_nonneg nonneg]

/-- A zero of a format that has a sign. -/
def zeroPat (t : Ty) (neg : Bool) : Nat × Nat := (if neg then 2 ^ (t.w - 1) else 0, 0)
/-- The sign of an exact zero sum (R78). -/
def zeroSumSign (rnd : Rnd) (a b : Bool) : Bool := if a = b then a else rnd == .rdn

theorem isFloat_of_isF {t : Ty} (h : t.isF = true) : IsFloat t := .inl h
theorem ne_e2m1_of_isF {t : Ty} (h : t.isF = true) : t ≠ .e2m1 := by rintro rfl; exact absurd h (by decide)
theorem withSign_zero {t : Ty} (h : IsFloat t) (rd : Rd) (neg : Bool) : (withSign (fmtOf t rd) neg 0, 0) = zeroPat t neg := by
  rw [withSign, fmtOf_w h, Nat.zero_add, zeroPat]
/-- A finite value whose exact parts are at hand rounds once. -/
theorem encFin_finVal (t : Ty) (rd : Rd) (rnd : Rnd) (sat neg : Bool) {m : Nat} (e : Int) (hm : m ≠ 0) :
    RoundsOnce t rd rnd sat (finVal neg m e) (encFin t rd rnd sat neg m e false) :=
  encFin_roundsOnce t rd rnd sat neg (show IsMag m e false _ from rfl) hm (fun c => absurd c Bool.false_ne_true)
theorem encFin_zero {t : Ty} (h : IsFloat t) (rd : Rd) (rnd : Rnd) (sat neg : Bool) (e : Int) (sticky : Bool) :
    encFin t rd rnd sat neg 0 e sticky = if t = .e2m1 then (0, 0) else zeroPat t neg := by
  rw [encFin, if_pos rfl, ← withSign_zero h rd]
  split <;> simp_all

/-- An IEEE pattern with a finite value has the sign of its top bit. -/
theorem fdec_of_is {t : Ty} (h : t.isF = true) {rd : Rd} {a : Nat} {x : ℝ} (is : (fdec t rd a).Is x) :
    ∃ m e, fdec t rd a = .fin (bitOf a (t.w - 1)) m e ∧ x = finVal (bitOf a (t.w - 1)) m e := by
  rcases le_or_gt (a % 2 ^ ((fmtOf t rd).w - 1)) (fmtOf t rd).maxCode with fits | above
  · have dec := fdec_finite t rd fits
    dsimp only at dec
    rw [if_neg (fun c => ne_e2m1_of_isF h c.1), fmtOf_w (isFloat_of_isF h)] at dec
    rw [dec, fin_is] at is
    exact ⟨_, _, dec, is⟩
  · obtain ⟨neg, dec⟩ | ⟨sig, dec⟩ := fdec_special t rd above <;> rw [dec] at is <;> exact is.elim
theorem finVal_mul (a b : Bool) (ma mb : Nat) (ea eb : Int) : finVal (a != b) (ma * mb) (ea + eb) = finVal a ma ea * finVal b mb eb := by
  rw [finVal, finVal, finVal, zpow_add₀ two_ne_zero]
  cases a <;> cases b <;> push_cast [signed] <;> simp <;> ring
theorem finVal_bne (a neg : Bool) (m : Nat) (e : Int) : finVal (a != neg) m e = if neg then -finVal a m e else finVal a m e := by
  cases neg
  · simp
  · rw [Bool.bne_true, finVal_not, if_pos rfl]
theorem zeros_of_add {a : Bool} {ma mb : Nat} {ea eb : Int} (h : finVal a ma ea + finVal a mb eb = 0) : ma = 0 ∧ mb = 0 := by
  have same : (ma : ℝ) * 2 ^ ea + mb * 2 ^ eb = 0 := by cases a <;> simp only [finVal, signed_true, signed_false] at h <;> linarith
  rw [add_eq_zero_iff_of_nonneg (by positivity) (by positivity)] at same
  simpa [zpow_ne_zero] using same

section
variable {t : Ty} (ieee : t.isF = true) (rnd : Rnd) (sat : Bool)
include ieee

/-- The sum of two finite values is rounded once; an exact zero sum has the sign of R78. -/
theorem addFV_fin (a b : Bool) (ma mb : Nat) (ea eb : Int) :
    let r := addFV t rnd sat (.fin a ma ea) (.fin b mb eb)
    let z := finVal a ma ea + finVal b mb eb
    (z ≠ 0 → RoundsOnce t .ieee rnd sat z r) ∧ (z = 0 → r = zeroPat t (zeroSumSign rnd a b)) := by
  intro r z
  let e := min ea eb
  let v := signInt a (ma * 2 ^ (ea - e).toNat) + signInt b (mb * 2 ^ (eb - e).toNat)
  have value : (v : ℝ) * 2 ^ e = z := by
    show _ = finVal a ma ea + finVal b mb eb
    rw [← signInt_scaled a ma (min_le_left ea eb), ← signInt_scaled b mb (min_le_right ea eb)]
    push_cast [v]
    ring
  have zero : v = 0 ↔ z = 0 := by rw [← value]; simp [zpow_ne_zero]
  refine ⟨fun nonzero => ?_, fun none => ?_⟩
  · have sum : r = encFin t .ieee rnd sat (decide (v < 0)) v.natAbs e false := if_neg (mt zero.mp nonzero)
    have exact_ : finVal (decide (v < 0)) v.natAbs e = z := by rw [finVal, signed_mul, signed_natAbs, value]
    rw [sum, ← exact_]
    exact encFin_finVal t .ieee rnd sat _ e (Int.natAbs_ne_zero.mpr (mt zero.mp nonzero))
  · have sum : r = (withSign (fmtOf t .ieee) (if ma = 0 && mb = 0 && a = b then a else rnd == .rdn) 0, 0) := if_pos (zero.mpr none)
    rw [sum, withSign_zero (isFloat_of_isF ieee), zeroSumSign]
    by_cases same : a = b
    · subst same
      obtain ⟨za, zb⟩ := zeros_of_add none
      simp [za, zb]
    · simp [same]

/-- What an operation gives whose exact result is a finite value: it rounded once, or its zero. -/
theorem encFin_once (neg : Bool) (m : Nat) (e : Int) :
    let r := encFin t .ieee rnd sat neg m e false
    (finVal neg m e ≠ 0 → RoundsOnce t .ieee rnd sat (finVal neg m e) r) ∧ (finVal neg m e = 0 → r = zeroPat t neg) := by
  refine ⟨fun nonzero => encFin_finVal t .ieee rnd sat neg e (mt finVal_eq_zero.mpr nonzero), fun zero => ?_⟩
  rw [finVal_eq_zero.mp zero, encFin_zero (isFloat_of_isF ieee), if_neg (ne_e2m1_of_isF ieee)]

section
variable {a b : Nat} {x y : ℝ} (hx : (fdec t .ieee a).Is x) (hy : (fdec t .ieee b).Is y)
include hx hy

theorem fAdd_once : (x + y ≠ 0 → RoundsOnce t .ieee rnd sat (x + y) (fAdd t rnd sat a b)) ∧
    (x + y = 0 → fAdd t rnd sat a b = zeroPat t (zeroSumSign rnd (bitOf a (t.w - 1)) (bitOf b (t.w - 1)))) := by
  obtain ⟨ma, ea, da, rfl⟩ := fdec_of_is ieee hx
  obtain ⟨mb, eb, db, rfl⟩ := fdec_of_is ieee hy
  rw [fAdd, da, db]
  exact addFV_fin ieee rnd sat ..
theorem fSub_once : (x - y ≠ 0 → RoundsOnce t .ieee rnd sat (x - y) (fSub t rnd sat a b)) ∧
    (x - y = 0 → fSub t rnd sat a b = zeroPat t (zeroSumSign rnd (bitOf a (t.w - 1)) (!bitOf b (t.w - 1)))) := by
  obtain ⟨ma, ea, da, rfl⟩ := fdec_of_is ieee hx
  obtain ⟨mb, eb, db, rfl⟩ := fdec_of_is ieee hy
  rw [fSub, da, db, sub_eq_add_neg, ← finVal_not]
  exact addFV_fin ieee rnd sat ..
theorem fMul_once : (x * y ≠ 0 → RoundsOnce t .ieee rnd sat (x * y) (fMul t rnd sat a b)) ∧
    (x * y = 0 → fMul t rnd sat a b = zeroPat t (bitOf a (t.w - 1) != bitOf b (t.w - 1))) := by
  obtain ⟨ma, ea, da, rfl⟩ := fdec_of_is ieee hx
  obtain ⟨mb, eb, db, rfl⟩ := fdec_of_is ieee hy
  rw [fMul, da, db, ← finVal_mul]
  exact encFin_once ieee rnd sat ..
theorem fFma_once {c : Nat} {z : ℝ} (negP negC : Bool) (hz : (fdec t .ieee c).Is z) :
    let e := (if negP then -(x * y) else x * y) + (if negC then -z else z)
    (e ≠ 0 → RoundsOnce t .ieee rnd sat e (fFma t rnd sat negP negC a b c)) ∧ (e = 0 → fFma t rnd sat negP negC a b c =
      zeroPat t (zeroSumSign rnd ((bitOf a (t.w - 1) != bitOf b (t.w - 1)) != negP) (bitOf c (t.w - 1) != negC))) := by
  obtain ⟨ma, ea, da, rfl⟩ := fdec_of_is ieee hx
  obtain ⟨mb, eb, db, rfl⟩ := fdec_of_is ieee hy
  obtain ⟨mc, ec, dc, rfl⟩ := fdec_of_is ieee hz
  intro e
  have fused := addFV_fin ieee rnd sat ((bitOf a (t.w - 1) != bitOf b (t.w - 1)) != negP) (bitOf c (t.w - 1) != negC) (ma * mb) mc (ea + eb) ec
  rw [finVal_bne _ negP, finVal_bne _ negC, finVal_mul] at fused
  have runs : fFma t rnd sat negP negC a b c = addFV t rnd sat (.fin ((bitOf a (t.w - 1) != bitOf b (t.w - 1)) != negP) (ma * mb) (ea + eb))
      (.fin (bitOf c (t.w - 1) != negC) mc ec) := by
    rw [fFma, da, db, dc]
    cases negP <;> cases negC <;> simp [fmaFV, FV.isNan, mulFV, FV.negate]
  rw [runs]
  exact fused
end
end
end Machine
end Sys2Proof
end

section
/-! ### Quotients and square roots (R80, R138, R140) -/
namespace Sys2Proof
namespace Machine

/-- An integer part at a quantum, with a tail where the value is not it. -/
theorem isMag_floor {r : Nat} {z : ℝ} (e : Int) {sticky : Bool} (lo : r ≤ z) (hi : z < r + 1) (tail : sticky = false ↔ z = r) :
    IsMag r e sticky (z * 2 ^ e) := by
  have unit : (0 : ℝ) < 2 ^ e := by positivity
  cases sticky with
  | true =>
    have above : (r : ℝ) < z := lt_of_le_of_ne lo fun c => by have := tail.mpr c.symm; contradiction
    exact ⟨by nlinarith, by nlinarith⟩
  | false => exact congrArg (· * (2 : ℝ) ^ e) (tail.mp rfl)
theorem lt_two_pow_bitLen (m : Nat) : m < 2 ^ bitLen m := by
  rw [bitLen]
  split
  · next zero => simp [zero]
  · exact Nat.lt_log2_self

/-! #### Quotients -/

theorem isMag_div (N : Nat) {D : Nat} (pos : 0 < D) (e : Int) : IsMag (N / D) e (N % D != 0) ((N : ℝ) / D * 2 ^ e) := by
  have posR : (0 : ℝ) < D := by exact_mod_cast pos
  refine isMag_floor e ?_ ?_ ?_
  · exact Nat.cast_div_le
  · rw [div_lt_iff₀ posR]
    exact_mod_cast Nat.lt_mul_of_div_lt (Nat.lt_succ_self _) pos
  · have whole : N % D = 0 ↔ N = N / D * D := by
      have parts := Nat.div_add_mod' N D
      omega
    rw [bne_eq_false_iff_eq, whole, div_eq_iff posR.ne']
    exact_mod_cast Iff.rfl
theorem divMag_once (t : Ty) (rnd : Rnd) (sat neg : Bool) {ma mb : Nat} (ea eb : Int) (ha : ma ≠ 0) (hb : mb ≠ 0) :
    RoundsOnce t .ieee rnd sat (signed neg ((ma : ℝ) * 2 ^ ea / (mb * 2 ^ eb))) (divMag t rnd sat neg ma ea mb eb) := by
  let k := (fmtOf t .ieee).mb + 4 + bitLen mb
  have pos : 0 < mb := Nat.pos_of_ne_zero hb
  have value : ((ma * 2 ^ k : Nat) : ℝ) / mb * 2 ^ (ea - eb - k) = (ma : ℝ) * 2 ^ ea / (mb * 2 ^ eb) := by
    rw [zpow_sub₀ two_ne_zero, zpow_sub₀ two_ne_zero, zpow_natCast]
    push_cast
    field_simp
  have long : 2 ^ ((fmtOf t .ieee).mb + 4) ≤ ma * 2 ^ k / mb := by
    rw [Nat.le_div_iff_mul_le pos]
    calc 2 ^ ((fmtOf t .ieee).mb + 4) * mb ≤ 2 ^ ((fmtOf t .ieee).mb + 4) * 2 ^ bitLen mb := Nat.mul_le_mul_left _ (lt_two_pow_bitLen mb).le
      _ = 2 ^ k := (Nat.pow_add ..).symm
      _ ≤ ma * 2 ^ k := Nat.le_mul_of_pos_left _ (Nat.pos_of_ne_zero ha)
  have nonzero : ma * 2 ^ k / mb ≠ 0 := by have := Nat.two_pow_pos ((fmtOf t .ieee).mb + 4); omega
  have wide : (fmtOf t .ieee).mb < Nat.log2 (ma * 2 ^ k / mb) := by have := (Nat.le_log2 nonzero).mpr long; omega
  rw [← value]
  exact encFin_roundsOnce t .ieee rnd sat neg (isMag_div (ma * 2 ^ k) pos _) nonzero fun _ => wide

/-! #### Square roots -/

theorem isqrtFrom_eq (x n r : Nat) (lo : r * r ≤ x) (hi : x < (r + 2 ^ (n + 1)) * (r + 2 ^ (n + 1))) : isqrtFrom x n r = Nat.sqrt x := by
  induction n generalizing r with
  | zero =>
    rw [isqrtFrom]
    split
    · next up => exact Nat.eq_sqrt.mpr ⟨up, hi⟩
    · next stay => exact Nat.eq_sqrt.mpr ⟨lo, Nat.not_le.mp stay⟩
  | succ n ih =>
    rw [isqrtFrom]
    have double : 2 ^ (n + 1 + 1) = 2 ^ (n + 1) + 2 ^ (n + 1) := by rw [Nat.pow_succ]; omega
    split
    · next up => exact ih _ up (by rwa [Nat.add_assoc, ← double])
    · next stay => exact ih _ lo (Nat.not_le.mp stay)
theorem isqrt_eq (x : Nat) : isqrt x = Nat.sqrt x := by
  refine isqrtFrom_eq x _ 0 (Nat.zero_le _) (lt_of_lt_of_le (lt_two_pow_bitLen x) ?_)
  rw [Nat.zero_add, ← Nat.pow_add]
  exact Nat.pow_le_pow_right two_pos (by omega)
/-- A root that lies between two integers' squares. -/
theorem isMag_sqrt {r : Nat} {y : ℝ} (e : Int) {sticky : Bool} (lo : (r : ℝ) * r ≤ y) (hi : y < (r + 1) * (r + 1))
    (tail : sticky = false ↔ y = r * r) : IsMag r e sticky (Real.sqrt y * 2 ^ e) := by
  have nonneg : (0 : ℝ) ≤ r := Nat.cast_nonneg r
  refine isMag_floor e (Real.le_sqrt_of_sq_le (by nlinarith)) ?_ (tail.trans ?_)
  · rw [Real.sqrt_lt' (by linarith), sq]
    exact hi
  · rw [Real.sqrt_eq_iff_mul_self_eq (by nlinarith) nonneg, eq_comm]

/-- A value with its exponent made even. -/
theorem sqrt_even (y : ℝ) (k : Int) : Real.sqrt (y * 2 ^ (2 * k)) = Real.sqrt y * 2 ^ k := by
  rw [two_mul, zpow_add₀ two_ne_zero, Real.sqrt_mul' _ (by positivity), Real.sqrt_mul_self (by positivity)]
theorem log2_sqrt {x n : Nat} (h : 2 ^ (2 * n) ≤ x) : Nat.sqrt x ≠ 0 ∧ n ≤ Nat.log2 (Nat.sqrt x) := by
  have root : 2 ^ n ≤ Nat.sqrt x := Nat.le_sqrt.mpr (by rwa [← Nat.pow_add, ← Nat.two_mul])
  have nonzero : Nat.sqrt x ≠ 0 := by have := Nat.two_pow_pos n; omega
  exact ⟨nonzero, (Nat.le_log2 nonzero).mpr root⟩

section
variable {t : Ty} (ieee : t.isF = true) (rnd : Rnd) (sat : Bool) {a : Nat} {x : ℝ} (hx : (fdec t .ieee a).Is x)
include ieee hx

/-- A positive value is an unsigned finite one. -/
theorem fdec_of_pos (pos : 0 < x) : ∃ m e, fdec t .ieee a = .fin false m e ∧ m ≠ 0 ∧ x = m * (2 : ℝ) ^ e := by
  obtain ⟨m, e, dec, rfl⟩ := fdec_of_is ieee hx
  have nonzero : m ≠ 0 := mt finVal_eq_zero.mpr pos.ne'
  have plus : bitOf a (t.w - 1) = false := Bool.eq_false_iff.mpr fun c => absurd ((finVal_neg_iff nonzero).mpr c) (by linarith)
  exact ⟨m, e, by rw [dec, plus], nonzero, by rw [plus]; rfl⟩
theorem fSqrt_once (pos : 0 < x) : RoundsOnce t .ieee rnd sat (Real.sqrt x) (fSqrt t rnd sat a) := by
  obtain ⟨m, e, dec, nonzero, rfl⟩ := fdec_of_pos ieee hx pos
  let k := 2 * ((fmtOf t .ieee).mb + 4) + (e % 2).toNat
  have result : fSqrt t rnd sat a =
      encFin t .ieee rnd sat false (Nat.sqrt (m * 2 ^ k)) ((e - k) / 2) (Nat.sqrt (m * 2 ^ k) * Nat.sqrt (m * 2 ^ k) != m * 2 ^ k) := by
    rw [fSqrt, dec, ← isqrt_eq]
    simp [nonzero, k]
  have value : (m : ℝ) * 2 ^ e = ((m * 2 ^ k : Nat) : ℝ) * 2 ^ (2 * ((e - k) / 2)) := by
    rw [show 2 * ((e - k) / 2) = e - k by omega, zpow_sub₀ two_ne_zero, zpow_natCast]
    push_cast
    field_simp
  obtain ⟨root, long⟩ := log2_sqrt (x := m * 2 ^ k) (n := (fmtOf t .ieee).mb + 4)
    ((Nat.pow_le_pow_right two_pos (by omega)).trans (Nat.le_mul_of_pos_left _ (Nat.pos_of_ne_zero nonzero)))
  have mag : IsMag _ ((e - k) / 2) (Nat.sqrt (m * 2 ^ k) * Nat.sqrt (m * 2 ^ k) != m * 2 ^ k) _ :=
    isMag_sqrt (r := Nat.sqrt (m * 2 ^ k)) (y := ((m * 2 ^ k : Nat) : ℝ)) ((e - k) / 2) (by exact_mod_cast Nat.sqrt_le _)
    (by exact_mod_cast Nat.lt_succ_sqrt _) (by rw [bne_eq_false_iff_eq, eq_comm]; exact_mod_cast Iff.rfl)
  rw [result, value, sqrt_even]
  exact encFin_roundsOnce t .ieee rnd sat false mag root fun _ => by omega
theorem fSqrt_zero (none : x = 0) : fSqrt t rnd sat a = zeroPat t (bitOf a (t.w - 1)) := by
  obtain ⟨m, e, dec, rfl⟩ := fdec_of_is ieee hx
  rw [fSqrt, dec, ← withSign_zero (isFloat_of_isF ieee) .ieee]
  exact if_pos (finVal_eq_zero.mp none)
theorem fRsqrt_once (pos : 0 < x) : RoundsOnce t .ieee rnd sat (1 / Real.sqrt x) (fRsqrt t rnd sat a) := by
  obtain ⟨m, e, dec, nonzero, rfl⟩ := fdec_of_pos ieee hx pos
  let m' := m * 2 ^ (e % 2).toNat
  let k := (fmtOf t .ieee).mb + 4 + bitLen m'
  let r := Nat.sqrt (2 ^ (2 * k) / m')
  have pos' : 0 < m' := Nat.mul_pos (Nat.pos_of_ne_zero nonzero) (Nat.two_pow_pos _)
  have posR : (0 : ℝ) < m' := by exact_mod_cast pos'
  have result : fRsqrt t rnd sat a = encFin t .ieee rnd sat false r (-(k : Int) - (e - e % 2) / 2) (r * r * m' != 2 ^ (2 * k)) := by
    rw [fRsqrt, dec]
    simp [nonzero, k, r, m', ← isqrt_eq]
  have value : 1 / Real.sqrt (m * 2 ^ e) = Real.sqrt ((2 ^ (2 * k) : Nat) / (m' : ℝ)) * 2 ^ (-(k : Int) - (e - e % 2) / 2) := by
    have even : (m : ℝ) * 2 ^ e = m' * 2 ^ (2 * ((e - e % 2) / 2)) := by
      have parts : e = (e % 2).toNat + 2 * ((e - e % 2) / 2) := by omega
      nth_rw 1 [parts]
      rw [zpow_add₀ two_ne_zero, zpow_natCast]
      push_cast [m']
      ring
    have power : Real.sqrt ((2 ^ (2 * k) : Nat) : ℝ) = 2 ^ k := by
      rw [Nat.mul_comm, Nat.pow_mul]
      push_cast
      exact Real.sqrt_sq (by positivity)
    rw [even, sqrt_even, Real.sqrt_div (Nat.cast_nonneg _), power, zpow_sub₀ two_ne_zero, zpow_neg, zpow_natCast]
    have := (Real.sqrt_pos.mpr posR).ne'
    field_simp
  obtain ⟨root, long⟩ := log2_sqrt (x := 2 ^ (2 * k) / m') (n := (fmtOf t .ieee).mb + 4) (by
    rw [Nat.le_div_iff_mul_le pos']
    calc 2 ^ (2 * ((fmtOf t .ieee).mb + 4)) * m' ≤ 2 ^ (2 * ((fmtOf t .ieee).mb + 4)) * 2 ^ bitLen m' := Nat.mul_le_mul_left _ (lt_two_pow_bitLen m').le
      _ = 2 ^ (2 * ((fmtOf t .ieee).mb + 4) + bitLen m') := (Nat.pow_add ..).symm
      _ ≤ 2 ^ (2 * k) := Nat.pow_le_pow_right two_pos (by omega))
  have mag : IsMag r (-(k : Int) - (e - e % 2) / 2) (r * r * m' != 2 ^ (2 * k)) _ :=
    isMag_sqrt (y := (2 ^ (2 * k) : Nat) / (m' : ℝ)) _ ?_ ?_ ?_
  · rw [result, value]
    exact encFin_roundsOnce t .ieee rnd sat false mag root fun _ => lt_of_lt_of_le (by omega) long
  · rw [le_div_iff₀ posR]
    exact_mod_cast (Nat.le_div_iff_mul_le pos').mp (Nat.sqrt_le (2 ^ (2 * k) / m'))
  · rw [div_lt_iff₀ posR]
    exact_mod_cast (Nat.div_lt_iff_lt_mul pos').mp (Nat.lt_succ_sqrt (2 ^ (2 * k) / m'))
  · rw [bne_eq_false_iff_eq, div_eq_iff posR.ne', eq_comm]
    exact_mod_cast Iff.rfl
theorem fRcp_once (nonzero : x ≠ 0) : RoundsOnce t .ieee rnd sat (1 / x) (fRcp t rnd sat a) := by
  obtain ⟨m, e, dec, rfl⟩ := fdec_of_is ieee hx
  have hm := mt finVal_eq_zero.mpr nonzero
  have value : 1 / finVal (bitOf a (t.w - 1)) m e = signed (bitOf a (t.w - 1)) (((1 : Nat) : ℝ) * 2 ^ (0 : Int) / (m * 2 ^ e)) := by
    rw [finVal]
    cases bitOf a (t.w - 1) <;> simp
  have result : fRcp t rnd sat a = divMag t rnd sat (bitOf a (t.w - 1)) 1 0 m e := by
    rw [fRcp, dec]
    exact if_neg hm
  rw [result, value]
  exact divMag_once t rnd sat _ 0 e one_ne_zero hm
theorem fDiv_once {b : Nat} {y : ℝ} (hy : (fdec t .ieee b).Is y) (hb : y ≠ 0) :
    (x ≠ 0 → RoundsOnce t .ieee rnd sat (x / y) (fDiv t rnd sat a b)) ∧
    (x = 0 → fDiv t rnd sat a b = zeroPat t (bitOf a (t.w - 1) != bitOf b (t.w - 1))) := by
  obtain ⟨ma, ea, da, rfl⟩ := fdec_of_is ieee hx
  obtain ⟨mb, eb, db, rfl⟩ := fdec_of_is ieee hy
  have hmb := mt finVal_eq_zero.mpr hb
  have result : fDiv t rnd sat a b = if ma = 0 then (withSign (fmtOf t .ieee) (bitOf a (t.w - 1) != bitOf b (t.w - 1)) 0, 0)
      else divMag t rnd sat (bitOf a (t.w - 1) != bitOf b (t.w - 1)) ma ea mb eb := by
    rw [fDiv, da, db]
    exact if_neg hmb
  rw [result]
  refine ⟨fun nonzero => ?_, fun zero => ?_⟩
  · have hma := mt finVal_eq_zero.mpr nonzero
    have value : finVal (bitOf a (t.w - 1)) ma ea / finVal (bitOf b (t.w - 1)) mb eb =
        signed (bitOf a (t.w - 1) != bitOf b (t.w - 1)) ((ma : ℝ) * 2 ^ ea / (mb * 2 ^ eb)) := by
      rw [finVal, finVal]
      cases bitOf a (t.w - 1) <;> cases bitOf b (t.w - 1) <;> simp [neg_div, div_neg]
    rw [if_neg hma, value]
    exact divMag_once t rnd sat _ ea eb hma hmb
  · rw [if_pos (finVal_eq_zero.mp zero), withSign_zero (isFloat_of_isF ieee)]
end

end Machine
end Sys2Proof
end

section
/-! ### Powers, logarithms, comparisons and integral values (R80, R140, R141, R143) -/
namespace Sys2Proof
namespace Machine

@[simp] theorem natAbs_signInt (neg : Bool) (m : Nat) : (signInt neg m).natAbs = m := by cases neg <;> simp [signInt]

/-! #### Values that a format has -/

theorem fdec_man_lt {t : Ty} {rd : Rd} {a : Nat} {neg : Bool} {m : Nat} {e : Int} (h : fdec t rd a = .fin neg m e) :
    m < 2 ^ ((fmtOf t rd).mb + 1) := by
  rcases le_or_gt (a % 2 ^ ((fmtOf t rd).w - 1)) (fmtOf t rd).maxCode with fits | above
  · have dec := (fdec_finite t rd fits).symm.trans h
    split at dec <;> cases dec
    · exact Nat.two_pow_pos _
    · exact codeMan_lt ..
  · obtain ⟨s, dec⟩ | ⟨s, dec⟩ := fdec_special t rd above <;> rw [dec] at h <;> cases h
/-- A value that the format has is encoded as its own code, exactly. -/
theorem encFin_own (t : Ty) (rd : Rd) (rnd : Rnd) (sat neg : Bool) {m : Nat} {e : Int} (hm : m ≠ 0)
    (grid : max (e + Nat.log2 m) (1 - ((fmtOf t rd).bias : Int)) - (fmtOf t rd).mb ≤ e)
    (range : (m : ℝ) * 2 ^ e ≤ codeVal (fmtOf t rd) (fmtOf t rd).maxCode) :
    ∃ c ≤ (fmtOf t rd).maxCode, codeVal (fmtOf t rd) c = m * (2 : ℝ) ^ e ∧ encFin t rd rnd sat neg m e false = (finPat t rd neg c, 0) := by
  have mag : IsMag m e false (m * (2 : ℝ) ^ e) := rfl
  obtain ⟨code, lost, val⟩ := roundMag_code mag hm (fmtOf t rd) rnd neg (fun c => absurd c Bool.false_ne_true)
  have exact_ : (roundMag (fmtOf t rd) rnd neg m e false).2.1 = false := by rw [lost, roundAt, if_pos grid]
  have same : codeVal (fmtOf t rd) (roundMag (fmtOf t rd) rnd neg m e false).1 = m * (2 : ℝ) ^ e := by
    obtain ⟨-, kept, -⟩ := roundAt_magnitude mag hm (fmtOf t rd) rnd neg (fun c => absurd c Bool.false_ne_true)
      (q := max (e + Nat.log2 m) (1 - (fmtOf t rd).bias) - (fmtOf t rd).mb) (by omega)
    rw [val]
    exact kept.mp (lost.symm.trans exact_)
  have fits : (roundMag (fmtOf t rd) rnd neg m e false).1 ≤ (fmtOf t rd).maxCode := by
    rwa [← (codeVal_strictMono (fmtOf t rd)).le_iff_le, same]
  exact ⟨_, fits, same, by rw [encFin_eq t rd rnd sat neg e false hm, if_pos fits, exact_]; rfl⟩

section
variable {t : Ty} (ieee : t.isF = true) (rnd : Rnd) (sat : Bool) {a : Nat} {x : ℝ} (hx : (fdec t .ieee a).Is x)
include ieee hx

/-! #### Powers and logarithms -/

omit ieee hx in
theorem two_pow_once (n : Int) : RoundsOnce t .ieee rnd sat ((2 : ℝ) ^ n) (encFin t .ieee rnd sat false 1 n false) := by
  have value : finVal false 1 n = (2 : ℝ) ^ n := by simp [finVal]
  rw [← value]
  exact encFin_finVal t .ieee rnd sat false n one_ne_zero
theorem fExp2_integer {n : Int} (is : x = n) (small : n.natAbs ≤ 8192) : fExp2 t rnd sat a = encFin t .ieee rnd sat false 1 n false := by
  obtain ⟨m, e, dec, rfl⟩ := fdec_of_is ieee hx
  generalize bitOf a (t.w - 1) = neg at *
  rw [fExp2, dec, fvExp2]
  split
  · next zero =>
    have none : n = 0 := by exact_mod_cast is.symm.trans (finVal_eq_zero.mpr zero)
    rw [none]
  · split
    · next nonzero whole =>
      have value : n = signInt neg (m * 2 ^ e.toNat) := by
        have := signInt_scaled neg m whole
        rw [is, Int.sub_zero, zpow_zero, mul_one] at this
        exact_mod_cast this.symm
      have size : m * 2 ^ e.toNat ≤ 8192 := by rwa [value, natAbs_signInt] at small
      have short : e ≤ 64 := by
        by_contra long
        have : 2 ^ 14 ≤ 2 ^ e.toNat := Nat.pow_le_pow_right two_pos (by omega)
        have := Nat.le_mul_of_pos_left (2 ^ e.toNat) (Nat.pos_of_ne_zero nonzero)
        omega
      rw [min_eq_left short, min_eq_left size, ← value]
    · next fraction =>
      have value : signInt neg m = n * (2 ^ (-e).toNat : Nat) := by
        have scaled := signInt_scaled neg m (le_refl e)
        rw [is, Int.sub_self, Int.toNat_zero, Nat.pow_zero, Nat.mul_one, ← eq_div_iff (by positivity), div_eq_mul_inv, ← zpow_neg,
          show -e = ((-e).toNat : Int) by omega, zpow_natCast] at scaled
        exact_mod_cast scaled
      have pos : ((2 ^ (-e).toNat : Nat) : Int) ≠ 0 := by exact_mod_cast (Nat.two_pow_pos _).ne'
      dsimp only
      rw [value, Int.mul_emod_left, Int.mul_ediv_cancel _ pos, Int.toNat_zero, if_pos rfl, min_eq_left (by omega), max_eq_left (by omega)]
theorem fLog2_power {n : Int} (is : x = (2 : ℝ) ^ n) :
    fLog2 t rnd sat a = if n = 0 then (0, 0) else encFin t .ieee rnd sat (decide (n < 0)) n.natAbs 0 false := by
  obtain ⟨m, e, dec, nonzero, rfl⟩ := fdec_of_pos ieee hx (by rw [is]; positivity)
  have power : (m : ℝ) = 2 ^ (n - e) := by rw [zpow_sub₀ two_ne_zero, eq_div_iff (by positivity), is]
  have up : 0 ≤ n - e := by
    by_contra down
    have : (2 : ℝ) ^ (n - e) < 1 := zpow_lt_one_of_neg₀ one_lt_two (by omega)
    rw [← power] at this
    exact nonzero (Nat.lt_one_iff.mp (by exact_mod_cast this))
  obtain ⟨k, hk⟩ := Int.eq_ofNat_of_zero_le up
  have whole : m = 2 ^ k := by
    rw [hk] at power
    exact_mod_cast power
  have log : Nat.log2 m = k := by rw [whole, Nat.log2_two_pow]
  rw [fLog2, dec, fvLog2, if_neg nonzero, if_neg Bool.false_ne_true, log, if_pos whole, show e + (k : Int) = n by omega]
theorem fLog2_once {n : Int} (is : x = (2 : ℝ) ^ n) (nonzero : n ≠ 0) : RoundsOnce t .ieee rnd sat n (fLog2 t rnd sat a) := by
  have value : finVal (decide (n < 0)) n.natAbs 0 = n := by rw [finVal, zpow_zero, mul_one, signed_natAbs]
  rw [fLog2_power ieee rnd sat hx is, if_neg nonzero, ← value]
  exact encFin_finVal t .ieee rnd sat _ 0 (Int.natAbs_ne_zero.mpr nonzero)

/-! #### Comparisons -/

omit ieee hx in
/-- Below, or minus zero against plus zero (R141). -/
theorem ltFV_fin (p q : Bool) (m n : Nat) (e d : Int) : ltFV true (.fin p m e) (.fin q n d) = true ↔
    finVal p m e < finVal q n d ∨ m = 0 ∧ n = 0 ∧ p = true ∧ q = false := by
  have unit : (0 : ℝ) < 2 ^ min e d := by positivity
  rw [← signInt_scaled p m (min_le_left e d), ← signInt_scaled q n (min_le_right e d), mul_lt_mul_iff_left₀ unit, Int.cast_lt]
  simp [ltFV, and_assoc]
theorem fMinMax_lt {b : Nat} {y : ℝ} (hy : (fdec t .ieee b).Is y) (lt : x < y) : fMinMax false t a b = (a, 0) ∧ fMinMax true t a b = (b, 0) ∧
    fMinMax false t b a = (a, 0) ∧ fMinMax true t b a = (b, 0) := by
  obtain ⟨ma, ea, da, rfl⟩ := fdec_of_is ieee hx
  obtain ⟨mb, eb, db, rfl⟩ := fdec_of_is ieee hy
  have below := (ltFV_fin _ _ ma mb ea eb).mpr (.inl lt)
  have above : ltFV true (.fin (bitOf b (t.w - 1)) mb eb) (.fin (bitOf a (t.w - 1)) ma ea) = false := by
    rw [← Bool.not_eq_true, ltFV_fin]
    rintro (gt | ⟨zb, za, -⟩)
    · exact absurd lt gt.not_gt
    · rw [finVal_eq_zero.mpr za, finVal_eq_zero.mpr zb] at lt
      exact lt.false
  simp [fMinMax, da, db, FV.isNan, FV.isSig, below, above]
theorem fMinMax_zeros {b : Nat} (hy : (fdec t .ieee b).Is 0) (hx0 : x = 0) (minus : bitOf a (t.w - 1) = true) (plus : bitOf b (t.w - 1) = false) :
    fMinMax false t a b = (a, 0) ∧ fMinMax true t a b = (b, 0) ∧ fMinMax false t b a = (a, 0) ∧ fMinMax true t b a = (b, 0) := by
  obtain ⟨ma, ea, da, rfl⟩ := fdec_of_is ieee hx
  obtain ⟨mb, eb, db, zb⟩ := fdec_of_is ieee hy
  have za := finVal_eq_zero.mp hx0
  have zb := finVal_eq_zero.mp zb.symm
  have below := (ltFV_fin true false ma mb ea eb).mpr (.inr ⟨za, zb, rfl, rfl⟩)
  have above : ltFV true (.fin false mb eb) (.fin true ma ea) = false := by
    rw [← Bool.not_eq_true, ltFV_fin, za, zb, finVal_eq_zero.mpr rfl, finVal_eq_zero.mpr rfl]
    simp
  rw [minus] at da
  rw [plus] at db
  simp [fMinMax, da, db, FV.isNan, FV.isSig, below, above]
theorem fMinMax_inf {b : Nat} {neg : Bool} (hb : fdec t .ieee b = .inf neg) : fMinMax neg t a b = (a, 0) ∧ fMinMax neg t b a = (a, 0) ∧
    fMinMax (!neg) t a b = (b, 0) ∧ fMinMax (!neg) t b a = (b, 0) := by
  obtain ⟨m, e, da, -⟩ := fdec_of_is ieee hx
  cases neg <;> simp [fMinMax, da, hb, FV.isNan, FV.isSig, ltFV]

/-! #### Integral values -/

omit hx in
/-- The integers up to the significand's size are values of the format. -/
theorem two_pow_mb_le_top : (2 : ℝ) ^ (fmtOf t .ieee).mb ≤ codeVal (fmtOf t .ieee) (fmtOf t .ieee).maxCode := by
  have inside : 0 < (fmtOf t .ieee).bias ∧
      ((fmtOf t .ieee).bias + (fmtOf t .ieee).mb - 1) * 2 ^ (fmtOf t .ieee).mb + 2 ^ (fmtOf t .ieee).mb ≤ (fmtOf t .ieee).maxCode := by
    revert ieee
    cases t <;> decide
  obtain ⟨bias, inside⟩ := inside
  have value := codeVal_pack (fmtOf t .ieee) (j := (fmtOf t .ieee).bias + (fmtOf t .ieee).mb - 1) (r := 2 ^ (fmtOf t .ieee).mb)
    (Nat.pow_le_pow_right two_pos (Nat.le_succ _)) (.inr le_rfl)
  have unit : 1 - ((fmtOf t .ieee).bias : Int) - (fmtOf t .ieee).mb + ((fmtOf t .ieee).bias + (fmtOf t .ieee).mb - 1 : Nat) = 0 := by omega
  rw [unit, zpow_zero, mul_one] at value
  have below := (codeVal_strictMono (fmtOf t .ieee)).monotone inside
  rw [value] at below
  exact_mod_cast below
omit hx in
/-- A pattern of an IEEE format has the sign that it was given. -/
theorem bitOf_finPat (rd : Rd) (neg : Bool) {c : Nat} (hc : c ≤ (fmtOf t rd).maxCode) : bitOf (finPat t rd neg c) (t.w - 1) = neg := by
  have signed_ : finPat t rd neg c = withSign (fmtOf t rd) neg c := if_neg (by simp [ne_e2m1_of_isF ieee])
  rw [signed_, ← fmtOf_w (isFloat_of_isF ieee) rd]
  exact bitOf_withSign neg (lt_of_le_of_lt hc (fmtOk t rd).max_lt)
omit hx in
/-- The pattern of an integer that the format has. -/
theorem integral_pattern (neg : Bool) {r : Nat} (small : r ≤ 2 ^ (fmtOf t .ieee).mb) :
    ∃ c ≤ (fmtOf t .ieee).maxCode, codeVal (fmtOf t .ieee) c = r ∧
      (if r = 0 then withSign (fmtOf t .ieee) neg 0 else (encFin t .ieee .rne false neg r 0 false).1) = finPat t .ieee neg c := by
  have bias : 0 < (fmtOf t .ieee).bias := by cases t <;> decide
  by_cases zero : r = 0
  · refine ⟨0, Nat.zero_le _, by rw [codeVal_zero, zero, Nat.cast_zero], ?_⟩
    rw [if_pos zero, finPat, if_neg (by simp [ne_e2m1_of_isF ieee])]
  · have log : Nat.log2 r ≤ (fmtOf t .ieee).mb := by
      have : Nat.log2 r < (fmtOf t .ieee).mb + 1 := (Nat.log2_lt zero).mpr (by rw [Nat.pow_succ]; have := Nat.two_pow_pos (fmtOf t .ieee).mb; omega)
      omega
    have range : (r : ℝ) * 2 ^ (0 : Int) ≤ codeVal (fmtOf t .ieee) (fmtOf t .ieee).maxCode := by
      rw [zpow_zero, mul_one]
      exact le_trans (by exact_mod_cast small) (two_pow_mb_le_top ieee)
    obtain ⟨c, hc, value, enc⟩ := encFin_own t .ieee .rne false neg (e := 0) zero (by omega) range
    exact ⟨c, hc, by rw [value, zpow_zero, mul_one], by rw [if_neg zero, enc]⟩
theorem fRound_integral : ∃ n : Int, RoundsToInt rnd x n ∧ (x = n → fRound t rnd a = (a, 0)) ∧
    (x ≠ n → (fRound t rnd a).2 = flagNX ∧ (fdec t .ieee (fRound t rnd a).1).Is n ∧
      bitOf (fRound t rnd a).1 (t.w - 1) = bitOf a (t.w - 1) ∧ (fRound t rnd a).1 < 2 ^ t.w) := by
  obtain ⟨m, e, dec, rfl⟩ := fdec_of_is ieee hx
  have size := fdec_man_lt dec
  have shape : fRound t rnd a = let r := roundAt rnd (bitOf a (t.w - 1)) m e 0 false
      if r.2 then (if r.1 = 0 then withSign (fmtOf t .ieee) (bitOf a (t.w - 1)) 0
        else (encFin t .ieee .rne false (bitOf a (t.w - 1)) r.1 0 false).1, flagNX)
      else (a, 0) := by rw [fRound, dec]; rfl
  rw [shape]
  generalize bitOf a (t.w - 1) = neg at *
  obtain ⟨rounds, kept⟩ := roundAt_rounds (rnd := rnd) (neg := neg) (q := 0) (show IsMag m e false (m * (2 : ℝ) ^ e) from rfl)
    (fun c => absurd c Bool.false_ne_true)
  have fraction : (roundAt rnd neg m e 0 false).2 = true → e < 0 := fun lost => by
    by_contra whole
    rw [roundAt, if_pos (Int.not_lt.mp whole)] at lost
    exact Bool.false_ne_true lost
  generalize roundAt rnd neg m e 0 false = r at *
  rw [zpow_zero, div_one] at rounds
  rw [zpow_zero, mul_one] at kept
  have same : finVal neg m e = signInt neg r.1 ↔ r.2 = false := by rw [signInt_cast, finVal, signed_inj, kept, eq_comm]
  refine ⟨_, rounds, fun is => if_neg (by rw [same.mp is]; exact Bool.false_ne_true), fun changed => ?_⟩
  have lost : r.2 = true := (Bool.not_eq_false _).mp (mt same.mpr changed)
  have small : r.1 ≤ 2 ^ (fmtOf t .ieee).mb := by
    refine roundsToInt_le rounds ?_
    have mR : (m : ℝ) < 2 ^ ((fmtOf t .ieee).mb + 1) := by exact_mod_cast size
    have half : (2 : ℝ) ^ e ≤ 2 ^ (-1 : Int) := zpow_le_zpow_right₀ one_le_two (by have := fraction lost; omega)
    push_cast
    rw [pow_succ] at mR
    rw [zpow_neg_one] at half
    have : (0 : ℝ) < 2 ^ e := by positivity
    nlinarith
  obtain ⟨c, hc, value, pattern⟩ := integral_pattern ieee neg small
  dsimp only
  rw [if_pos lost, pattern]
  refine ⟨rfl, ?_, bitOf_finPat ieee .ieee neg hc, by rw [← fmtOf_w (isFloat_of_isF ieee) .ieee]; exact finPat_lt t .ieee neg hc⟩
  rw [signInt_cast, ← value]
  exact finPat_is t .ieee neg hc
end

end Machine
end Sys2Proof
end

section
/-! ### O48: floating operations -/
namespace Sys2Proof
namespace Machine

/-- Settles O48: each operation encodes the exact magnitude of its result, with a tail where a quotient or root does not end, and `encFin`
rounds that once. -/
theorem floatingOperationsRoundTheExactValueOnce : Obligations.FloatingOperationsRoundTheExactValueOnce := by
  intro t member rnd sat a b x y v once minus zero sumSign hx
  have ieee : t.isF = true := decide_eq_true member
  refine ⟨fun hy => ?_, fun neg hb => fMinMax_inf ieee hx hb,
    fun pos => ⟨fSqrt_once ieee rnd sat hx pos, fRsqrt_once ieee rnd sat hx pos⟩, fun none => ?_,
    fRcp_once ieee rnd sat hx, fun n is small => ?_, fun n is => ⟨fLog2_once ieee rnd sat hx is, fun none => ?_⟩, fRound_integral ieee rnd hx⟩
  · obtain ⟨add, addZero⟩ := fAdd_once ieee rnd sat hx hy
    obtain ⟨sub, subZero⟩ := fSub_once ieee rnd sat hx hy
    obtain ⟨mul, mulZero⟩ := fMul_once ieee rnd sat hx hy
    refine ⟨add, addZero, sub, subZero, mul, mulZero, fun c z negP negC hz => fFma_once ieee rnd sat hx hy negP negC hz,
      fun _ nonzero => (fDiv_once ieee rnd sat hx hy nonzero).1 ‹_›, fun none nonzero => (fDiv_once ieee rnd sat hx hy nonzero).2 none,
      fun lt => ?_, fun gt => ?_, fun xz yz => fMinMax_zeros ieee hx (yz ▸ hy) xz⟩
    · obtain ⟨least, greatest, -⟩ := fMinMax_lt ieee hx hy lt
      exact ⟨least, greatest⟩
    · obtain ⟨-, -, least, greatest⟩ := fMinMax_lt ieee hy hx gt
      exact ⟨least, greatest⟩
  · exact fSqrt_zero ieee rnd sat hx none
  · rw [fExp2_integer ieee rnd sat hx is small]
    exact two_pow_once rnd sat n
  · rw [fLog2_power ieee rnd sat hx is, if_pos none]

end Machine
end Sys2Proof
end

section
/-! ### O49: conversions -/
namespace Sys2Proof
namespace Machine

/-- The readings change the narrow formats alone (R83 to R85). -/
theorem fdec_reading {t : Ty} (rd : Rd) (a : Nat) : fdec t (if t.isF then .ieee else rd) a = fdec t rd a := by
  cases t <;> rfl
theorem FV.Is.unique {v : FV} {x y : ℝ} (hx : v.Is x) (hy : v.Is y) : x = y := by
  cases v with
  | nan s => exact hx.elim
  | inf s => exact hx.elim
  | fin neg m e => exact hx.trans (Eq.symm hy)
theorem not_isInt {t : Ty} (h : IsFloat t) : t.isInt = false := by
  obtain rfl | rfl | rfl | rfl | rfl | rfl | rfl := h.cases <;> rfl

/-! #### Into an integer type (R75, R93) -/

theorem intLo_le_intHi (t : Ty) : intLo t ≤ intHi t := by cases t <;> decide
theorem reduceTo_low {t : Ty} {n : Int} (h : n < intLo t) (sat : Bool) : reduceTo t sat n = wrapTo t.w (if sat then intLo t else n) := by
  have ends := intLo_le_intHi t
  cases sat with
  | true => rw [reduceTo, if_pos rfl, if_pos rfl, max_eq_left (by omega)]
  | false => rfl
theorem reduceTo_high {t : Ty} {n : Int} (h : intHi t < n) (sat : Bool) : reduceTo t sat n = wrapTo t.w (if sat then intHi t else n) := by
  have ends := intLo_le_intHi t
  cases sat with
  | true => rw [reduceTo, if_pos rfl, if_pos rfl, min_eq_left (by omega), max_eq_right ends]
  | false => rfl
/-- A finite value in an integer type: rounded to an integer first, then in range or not. -/
theorem fvToInt_fin (t : Ty) (rnd : Rnd) (sat : Bool) {v : FV} {x : ℝ} (is : v.Is x) : ∃ n : Int, RoundsToInt rnd x n ∧
    (intLo t ≤ n → n ≤ intHi t → (fvToInt t rnd sat v).1 = wrapTo t.w n ∧ (x = n → (fvToInt t rnd sat v).2 = 0) ∧
      (x ≠ n → (fvToInt t rnd sat v).2 = flagNX)) ∧
    (n < intLo t → fvToInt t rnd sat v = (wrapTo t.w (if sat then intLo t else n), flagNV)) ∧
    (intHi t < n → fvToInt t rnd sat v = (wrapTo t.w (if sat then intHi t else n), flagNV)) := by
  cases v with
  | nan s => exact is.elim
  | inf s => exact is.elim
  | fin neg m e =>
    rw [fin_is] at is
    subst is
    obtain ⟨rounds, kept⟩ := roundAt_rounds (rnd := rnd) (neg := neg) (q := 0) (show IsMag m e false (m * (2 : ℝ) ^ e) from rfl)
      (fun c => absurd c Bool.false_ne_true)
    have shape : fvToInt t rnd sat (.fin neg m e) = let r := roundAt rnd neg m e 0 false
        if intLo t ≤ signInt neg r.1 ∧ signInt neg r.1 ≤ intHi t then (wrapTo t.w (signInt neg r.1), if r.2 then flagNX else 0)
        else (reduceTo t sat (signInt neg r.1), flagNV) := rfl
    rw [shape]
    generalize roundAt rnd neg m e 0 false = r at *
    rw [zpow_zero, div_one] at rounds
    rw [zpow_zero, mul_one] at kept
    have same : finVal neg m e = signInt neg r.1 ↔ r.2 = false := by rw [signInt_cast, finVal, signed_inj, kept, eq_comm]
    dsimp only
    refine ⟨_, rounds, fun lo hi => ?_, fun low => ?_, fun high => ?_⟩
    · rw [if_pos ⟨lo, hi⟩]
      exact ⟨rfl, fun is => by rw [same.mp is]; rfl, fun changed => by rw [(Bool.not_eq_false _).mp (mt same.mpr changed)]; rfl⟩
    · rw [if_neg (by omega), reduceTo_low low]
    · rw [if_neg (by omega), reduceTo_high high]
theorem fvToInt_inf (t : Ty) (rnd : Rnd) (sat neg : Bool) :
    fvToInt t rnd sat (.inf neg) = (if sat then wrapTo t.w (if neg then intLo t else intHi t) else 0, flagNV) := by
  have ends := intLo_le_intHi t
  cases sat <;> cases neg <;> simp [fvToInt, reduceTo, ends]

/-! #### Into a floating format (R92, R149) -/

/-- The sign that the zero of a source has: E2M1 has one zero, without a sign (R149). -/
def zeroSign (src : Ty) (a : Nat) : Bool := src != .e2m1 && bitOf a (src.w - 1)
section
variable {src : Ty} (hs : IsFloat src) (rd : Rd) {a : Nat} {x : ℝ} (is : (fdec src rd a).Is x)
include hs is

/-- The code and the parts of a finite pattern. -/
theorem fdec_parts : a % 2 ^ (src.w - 1) ≤ (fmtOf src rd).maxCode ∧ ∃ neg m e, fdec src rd a = .fin neg m e ∧ x = finVal neg m e ∧
    (m = 0 → a % 2 ^ (src.w - 1) = 0 ∧ neg = zeroSign src a) ∧
    (m ≠ 0 → neg = bitOf a (src.w - 1) ∧ m = codeMan (fmtOf src rd) (a % 2 ^ (src.w - 1)) ∧ e = codeExp (fmtOf src rd) (a % 2 ^ (src.w - 1))) := by
  rw [← fmtOf_w hs rd]
  rcases le_or_gt (a % 2 ^ ((fmtOf src rd).w - 1)) (fmtOf src rd).maxCode with fits | above
  · have dec := fdec_finite src rd fits
    dsimp only at dec
    refine ⟨fits, ?_⟩
    split at dec
    · next zero =>
      rw [dec, fin_is] at is
      exact ⟨_, _, _, dec, is, fun _ => ⟨zero.2, by simp [zeroSign, zero.1]⟩, fun c => absurd rfl c⟩
    · next proper =>
      rw [dec, fin_is] at is
      refine ⟨_, _, _, dec, is, fun none => ?_, fun _ => ⟨rfl, rfl, rfl⟩⟩
      have code := codeMan_eq_zero.mp none
      have other : src ≠ .e2m1 := fun c => proper ⟨c, code⟩
      exact ⟨code, by simp [zeroSign, other, fmtOf_w hs]⟩
  · obtain ⟨neg, dec⟩ | ⟨sig, dec⟩ := fdec_special src rd above <;> rw [dec] at is <;> exact is.elim
/-- A nonzero pattern rounds to itself in its own format. -/
theorem own_roundsOnce (rnd : Rnd) (sat : Bool) (ha : a < 2 ^ src.w) (nonzero : x ≠ 0) : RoundsOnce src rd rnd sat x (a, 0) := by
  obtain ⟨fits, neg, m, e, dec, rfl, -, parts⟩ := fdec_parts hs rd is
  have hm := mt finVal_eq_zero.mpr nonzero
  obtain ⟨rfl, rfl, rfl⟩ := parts hm
  have man := codeMan_lt (fmtOf src rd) (a % 2 ^ (src.w - 1))
  have log : Nat.log2 (codeMan (fmtOf src rd) (a % 2 ^ (src.w - 1))) < (fmtOf src rd).mb + 1 := (Nat.log2_lt hm).mpr man
  obtain ⟨c, hc, value, enc⟩ := encFin_own src rd rnd sat (bitOf a (src.w - 1)) hm (by rw [codeExp]; omega)
    ((codeVal_strictMono (fmtOf src rd)).monotone fits)
  have code : c = a % 2 ^ (src.w - 1) := (codeVal_strictMono (fmtOf src rd)).injective value
  have pattern : finPat src rd (bitOf a (src.w - 1)) c = a := by
    have proper : c ≠ 0 := by rw [code]; exact mt codeMan_eq_zero.mpr hm
    rw [finPat, if_neg (by simp [proper]), code, ← fmtOf_w hs rd]
    exact withSign_self (fmtOk src rd) (by rwa [fmtOf_w hs])
  rw [pattern] at enc
  rw [← enc]
  exact encFin_finVal src rd rnd sat _ _ hm
end

/-- A conversion between floating formats: a pattern of the same format stays, else its value is encoded. -/
theorem convertElem_float {dt src : Ty} (hd : IsFloat dt) (hs : IsFloat src) (rnd : Rnd) (sat : Bool) (rd : Rd) (a : Nat) :
    convertElem dt src rnd sat rd a = if dt = src ∧ (fdec src rd a).isNan = false then (if dt = .e2m1 ∧ a = 8 then 0 else a, 0)
      else encFV dt rd rnd sat (fdec src rd a) := by
  rw [convertElem, not_isInt hs, if_neg Bool.false_ne_true]
  dsimp only
  rw [fdec_reading, not_isInt hd, if_neg Bool.false_ne_true]
  by_cases same : dt = src
  · cases fdec src rd a <;> simp [same, FV.isNan]
  · rw [if_neg same, if_neg (fun c => same c.1)]
theorem convertElem_nan {dt src : Ty} (hd : IsFloat dt) (hs : IsFloat src) (rnd : Rnd) (sat : Bool) (rd : Rd) {a : Nat} {sig : Bool}
    (dec : fdec src rd a = .nan sig) : convertElem dt src rnd sat rd a = encNan dt rd sig := by
  rw [convertElem_float hd hs, dec, if_neg (by simp [FV.isNan])]
  rfl
section
variable {dt src : Ty} (hd : IsFloat dt) (hs : IsFloat src) (rnd : Rnd) (sat : Bool) (rd : Rd) {a : Nat} (ha : a < 2 ^ src.w)
include hd hs ha

theorem convertElem_fin {x : ℝ} (is : (fdec src rd a).Is x) : (x ≠ 0 → RoundsOnce dt rd rnd sat x (convertElem dt src rnd sat rd a)) ∧
    (x = 0 → convertElem dt src rnd sat rd a = if dt = .e2m1 then (0, 0) else zeroPat dt (zeroSign src a)) := by
  have conv := convertElem_float hd hs rnd sat rd a
  obtain ⟨-, neg, m, e, dec, rfl, zero, parts⟩ := fdec_parts hs rd is
  by_cases same : dt = src
  · subst same
    rw [if_pos ⟨rfl, by rw [dec]; rfl⟩] at conv
    rw [conv]
    have width := (fmtOk dt rd).width
    rw [fmtOf_w hd] at width
    refine ⟨fun nonzero => ?_, fun none => ?_⟩
    · have proper : ¬ (dt = .e2m1 ∧ a = 8) := by
        rintro ⟨rfl, rfl⟩
        exact mt finVal_eq_zero.mpr nonzero (by rw [(parts (mt finVal_eq_zero.mpr nonzero)).2.1]; exact codeMan_eq_zero.mpr rfl)
      rw [if_neg proper]
      exact own_roundsOnce hd rd is rnd sat ha nonzero
    · obtain ⟨code, -⟩ := zero (finVal_eq_zero.mp none)
      have pattern : a = if bitOf a (dt.w - 1) then 2 ^ (dt.w - 1) else 0 := by
        have own := withSign_self (fmtOk dt rd) (a := a) (by rwa [fmtOf_w hd])
        rw [fmtOf_w hd, code, withSign, fmtOf_w hd, Nat.zero_add] at own
        exact own.symm
      by_cases e2m1 : dt = .e2m1
      · subst e2m1
        rw [if_pos rfl]
        cases sign : bitOf a (Ty.w .e2m1 - 1) <;> rw [sign] at pattern <;> simp [pattern, Ty.w]
      · rw [if_neg e2m1, if_neg (fun c => e2m1 c.1), zeroPat, zeroSign, bne_iff_ne.mpr e2m1, Bool.true_and, ← pattern]
  · rw [if_neg (fun c => same c.1), dec] at conv
    rw [conv]
    refine ⟨fun nonzero => encFin_finVal dt rd rnd sat neg e (mt finVal_eq_zero.mpr nonzero), fun none => ?_⟩
    have hm := finVal_eq_zero.mp none
    rw [← (zero hm).2, hm]
    exact encFin_zero hd rd rnd sat neg e false
theorem convertElem_inf {neg : Bool} (dec : fdec src rd a = .inf neg) :
    let r := convertElem dt src rnd sat rd a
    let f := fmtOf dt rd
    (∀ k, f.infCode = some k → r.2 = 0 ∧ r.1 < 2 ^ dt.w ∧ fdec dt rd r.1 = .inf neg) ∧
    (f.infCode = none → (f.nanCode = none ∨ sat = true → r = (withSign f neg f.maxCode, 0)) ∧
      (∀ q, f.nanCode = some q → sat = false → r = (q, flagNV))) := by
  have conv := convertElem_float hd hs rnd sat rd a
  rw [dec] at conv
  by_cases same : dt = src
  · subst same
    rw [if_pos ⟨rfl, rfl⟩] at conv
    obtain ⟨above, code, -⟩ := (fdec_inf dt rd).mp dec
    have proper : ¬ (dt = .e2m1 ∧ a = 8) := by
      rintro ⟨rfl, rfl⟩
      cases code
    rw [if_neg proper] at conv
    rw [conv]
    exact ⟨fun k _ => ⟨rfl, ha, dec⟩, fun c => by rw [code] at c; cases c⟩
  · rw [if_neg (fun c => same c.1)] at conv
    rw [conv]
    dsimp only [encFV, encInf]
    refine ⟨fun k hk => ?_, fun noInf => ⟨?_, fun q hq sat_ => ?_⟩⟩
    · have inside := ((fmtOk dt rd).inf_gt k hk).2
      rw [hk]
      refine ⟨rfl, ?_, fdec_withSign_inf dt rd neg hk⟩
      rw [← fmtOf_w hd rd]
      exact withSign_lt neg inside (fmtOk dt rd).width
    · rw [noInf]
      rintro (noNan | rfl)
      · rw [noNan]
      · cases (fmtOf dt rd).nanCode <;> rfl
    · rw [noInf, hq, sat_]
      rfl
end

/-- Settles O49: an integer is an exact finite value; between floating formats `encFin` rounds, and a pattern of the same format is its own
rounding; to an integer type `fvToInt` rounds to an integer first. -/
theorem conversionsRoundOnceIntoTheirDestination : Obligations.ConversionsRoundOnceIntoTheirDestination := by
  intro dt src rnd sat rd a ha r v f isFloat minus zero
  refine ⟨fun hd int => ?_, fun hd hs => ?_, fun dInt sInt => ?_, fun dInt hs => ?_⟩
  · have conv : r = encFin dt rd rnd sat (decide (intVal src a < 0)) (intVal src a).natAbs 0 false := by
      show convertElem dt src rnd sat rd a = _
      rw [convertElem, if_pos int, not_isInt hd]
      rfl
    have value : finVal (decide (intVal src a < 0)) (intVal src a).natAbs 0 = intVal src a := by rw [finVal, zpow_zero, mul_one, signed_natAbs]
    rw [conv]
    refine ⟨fun nonzero => ?_, fun none => ?_⟩
    · rw [← value]
      exact encFin_finVal dt rd rnd sat _ 0 (Int.natAbs_ne_zero.mpr nonzero)
    · rw [none]
      refine (encFin_zero hd rd rnd sat _ 0 false).trans ?_
      split <;> rfl
  · have reading : v = fdec src rd a := fdec_reading rd a
    rw [reading]
    refine ⟨fun x is => ?_, fun neg dec => ?_, fun sig dec => ?_⟩
    · obtain ⟨once, none⟩ := convertElem_fin hd hs rnd sat rd ha is
      refine ⟨once, fun hx => ⟨fun e2m1 => (none hx).trans (if_pos e2m1), fun proper => ?_⟩⟩
      have result : r = zeroPat dt (zeroSign src a) := (none hx).trans (if_neg proper)
      have sign : minus ↔ zeroSign src a = true := by
        simp [minus, zeroSign, not_isInt hs]
      refine ⟨fun h => ?_, fun h => ?_⟩
      · rw [result, sign.mp h]
        rfl
      · rw [result, Bool.eq_false_iff.mpr (mt sign.mpr h)]
        rfl
    · obtain ⟨infinite, finite⟩ := convertElem_inf hd hs rnd sat rd ha dec
      have maximum (is : r = (withSign f neg f.maxCode, 0)) : ∀ top, (fdec dt rd f.maxCode).Is top →
          r.2 = 0 ∧ r.1 < 2 ^ dt.w ∧ (fdec dt rd r.1).Is (if neg then -top else top) := fun top ht => by
        have inside := (fmtOk dt rd).max_lt
        rw [is, ht.unique (maxCode_is dt rd), ← fmtOf_w hd rd]
        exact ⟨rfl, withSign_lt neg inside (fmtOk dt rd).width, withSign_max_is dt rd neg⟩
      refine ⟨fun some => ?_, fun noInf => ⟨fun q hq => ⟨fun saturates => maximum ((finite noInf).1 (.inr saturates)), (finite noInf).2 q hq⟩,
        fun noNan => maximum ((finite noInf).1 (.inl noNan))⟩⟩
      obtain ⟨k, hk⟩ := Option.isSome_iff_exists.mp some
      exact infinite k hk
    · have result : r = encNan dt rd sig := convertElem_nan hd hs rnd sat rd dec
      rw [result, encNan]
      exact ⟨fun q hq => by rw [show (fmtOf dt rd).nanCode = some q from hq], fun none => by rw [show (fmtOf dt rd).nanCode = _ from none]⟩
  · show convertElem dt src rnd sat rd a = _
    rw [convertElem, if_pos sInt]
    exact if_pos dInt
  · have conv : r = fvToInt dt rnd sat v := by
      show convertElem dt src rnd sat rd a = _
      rw [convertElem, not_isInt hs]
      exact if_pos dInt
    rw [conv]
    exact ⟨fun x is => fvToInt_fin dt rnd sat is, fun neg dec => by rw [dec, fvToInt_inf], fun sig dec => by rw [dec]; rfl⟩

end Machine
end Sys2Proof
end

section
/-! ### O52: matrix products (R98 to R101, R181 to R186) -/
namespace Sys2Proof
namespace Machine

/-! #### Alignment (R98, R99) -/

/-- `rint` scales and rounds to nearest even. -/
theorem rint_rounds {v : FV} {x : ℝ} (is : v.Is x) (p : Int) : RoundsToInt .rne (x * (2 : ℝ) ^ p) (v.rint p) := by
  cases v with
  | nan s => exact is.elim
  | inf s => exact is.elim
  | fin neg m e =>
    rw [fin_is] at is
    obtain ⟨rounds, -⟩ := roundAt_rounds (rnd := .rne) (neg := neg) (q := 0) (show IsMag m (e + p) false (m * (2 : ℝ) ^ (e + p)) from rfl)
      (fun c => absurd c Bool.false_ne_true)
    rwa [zpow_zero, div_one, zpow_add₀ two_ne_zero, ← mul_assoc, signed_mul, ← finVal, ← is] at rounds
theorem rint_integer {v : FV} {n : Int} (is : v.Is n) : v.rint 0 = n := by
  have near := (rint_rounds is 0).near
  rw [zpow_zero, mul_one] at near
  have : |n - v.rint 0| < 1 := by exact_mod_cast near
  rw [abs_lt] at this
  omega
theorem rints_integers {l : List FV} {ns : List Int} (is : List.Forall₂ (fun v (n : Int) => v.Is n) l ns) : l.map (·.rint 0) = ns := by
  induction is with
  | nil => rfl
  | cons h _ ih => rw [List.map_cons, rint_integer h, ih]
theorem scaledInts_map {l : List FV} {xs : List ℝ} (is : List.Forall₂ FV.Is l xs) (p : Int) : ScaledInts p xs (l.map (·.rint p)) := by
  induction is with
  | nil => exact .nil
  | cons h _ ih => exact .cons (rint_rounds h p) ih

/-- The greater of two leading exponents, where there are any. -/
def maxEx (b : Option Int) (v : FV) : Option Int := match b, v.ex with
  | some x, some y => some (max x y)
  | some x, none => some x
  | none, y => y
/-- A bound of the values is exponent `b`: they are all zero, or the largest stands in binade `b`. -/
def TopOf (xs : List ℝ) (b : Option Int) : Prop := match b with
  | none => ∀ x ∈ xs, x = 0
  | some g => (∃ x ∈ xs, (2 : ℝ) ^ g ≤ |x|) ∧ ∀ x ∈ xs, |x| < (2 : ℝ) ^ (g + 1)
theorem ex_of_is {v : FV} {x : ℝ} (is : v.Is x) :
    (v.ex = none ∧ x = 0) ∨ ∃ g, v.ex = some g ∧ (2 : ℝ) ^ g ≤ |x| ∧ |x| < (2 : ℝ) ^ (g + 1) := by
  cases v with
  | nan s => exact is.elim
  | inf s => exact is.elim
  | fin neg m e =>
    rw [fin_is] at is
    by_cases zero : m = 0
    · exact .inl ⟨by simp [FV.ex, zero], by rw [is, finVal_eq_zero, zero]⟩
    · have mag : IsMag m e false (m * (2 : ℝ) ^ e) := rfl
      obtain ⟨lo, hi⟩ := mag.binade zero
      have size : |x| = m * (2 : ℝ) ^ e := by rw [is, finVal, abs_signed, abs_of_pos (mag.pos zero)]
      rw [← size, add_comm e] at lo hi
      exact .inr ⟨Nat.log2 m + e, by simp [FV.ex, zero], lo, hi⟩
theorem topOf_snoc {xs : List ℝ} {b : Option Int} (top : TopOf xs b) {v : FV} {x : ℝ} (is : v.Is x) : TopOf (xs ++ [x]) (maxEx b v) := by
  have each (P : ℝ → Prop) (all : ∀ y ∈ xs, P y) (last : P x) : ∀ y ∈ xs ++ [x], P y := fun y hy => by
    obtain old | rfl : y ∈ xs ∨ y = x := by simpa using hy
    · exact all y old
    · exact last
  have wider {g h : Int} (le : g ≤ h) {y : ℝ} (lt : |y| < 2 ^ (g + 1)) : |y| < (2 : ℝ) ^ (h + 1) :=
    lt_of_lt_of_le lt (zpow_le_zpow_right₀ one_le_two (by omega))
  have zeroBelow (g : Int) : |(0 : ℝ)| < 2 ^ (g + 1) := by rw [abs_zero]; positivity
  obtain ⟨none, zero⟩ | ⟨g, some, lo, hi⟩ := ex_of_is is
  · have kept : maxEx b v = b := by cases b <;> simp [maxEx, none]
    rw [kept]
    cases b with
    | none => exact each _ top zero
    | some h =>
      obtain ⟨⟨y, hy, large⟩, all⟩ := top
      exact ⟨⟨y, List.mem_append_left _ hy, large⟩, each _ all (zero ▸ zeroBelow h)⟩
  · have raised : maxEx b v = Option.some (b.elim g (max · g)) := by cases b <;> simp [maxEx, some]
    rw [raised]
    cases b with
    | none => exact ⟨⟨x, by simp, lo⟩, each _ (fun y hy => top y hy ▸ zeroBelow g) hi⟩
    | some h =>
      change TopOf (xs ++ [x]) (Option.some (max h g))
      obtain ⟨⟨y, hy, large⟩, all⟩ := top
      refine ⟨?_, each _ (fun z hz => wider (le_max_left h g) (all z hz)) (wider (le_max_right h g) hi)⟩
      rcases le_total h g with le | le
      · exact ⟨x, by simp, by rwa [max_eq_right le]⟩
      · exact ⟨y, List.mem_append_left _ hy, by rwa [max_eq_left le]⟩
theorem topOf_foldl {l : List FV} {xs : List ℝ} (is : List.Forall₂ FV.Is l xs) {ys : List ℝ} {b : Option Int} (top : TopOf ys b) :
    TopOf (ys ++ xs) (l.foldl maxEx b) := by
  induction is generalizing ys b with
  | nil => simpa using top
  | cons h _ ih => simpa using ih (topOf_snoc top h)
/-- The model's alignment is that of R98 and R99. -/
theorem alignVals_aligned (w : Nat) {l : List FV} {xs : List ℝ} (is : List.Forall₂ FV.Is l xs) : Aligned w xs (alignVals w l).1 (alignVals w l).2 := by
  have top : TopOf xs (l.foldl maxEx none) := topOf_foldl is (ys := []) (fun _ h => absurd h List.not_mem_nil)
  let g := (l.foldl maxEx none).getD 0
  let b := l.map (·.rint (w - 1 - g))
  have shape : alignVals w l = if b.any fun x => x.natAbs == 2 ^ w then (g + 1, l.map (·.rint (w - 1 - (g + 1)))) else (g, b) := rfl
  have full : (b.any fun x => x.natAbs == 2 ^ w) = true ↔ ∃ n ∈ b, n.natAbs = 2 ^ w := by simp
  refine ⟨g, b, ?_, scaledInts_map is _, ?_⟩
  · cases ht : l.foldl maxEx none with
    | none =>
      rw [ht] at top
      exact .inl ⟨top, by simp [g, ht]⟩
    | some h =>
      rw [ht] at top
      exact .inr (by simp only [g, ht, Option.getD_some]; exact top)
  · rw [shape]
    by_cases carries : ∃ n ∈ b, n.natAbs = 2 ^ w
    · rw [if_pos carries, if_pos (full.mpr carries)]
      exact ⟨rfl, scaledInts_map is _⟩
    · rw [if_neg carries, if_neg (mt full.mp carries)]
      exact ⟨rfl, rfl⟩
theorem not_wild_of_is {l : List FV} {xs : List ℝ} (is : List.Forall₂ FV.Is l xs) : l.any FV.wild = false := by
  induction is with
  | nil => rfl
  | @cons v x _ _ h _ ih =>
    cases v with
    | nan s => exact h.elim
    | inf s => exact h.elim
    | fin neg m e => simpa [FV.wild] using ih

/-! #### The loaded tile (R98, R101) -/

section
variable (t : Ty) (rows : List (List FV)) {j : Nat} (hj : j < 64)
include hj

/-- Column `j` of the rows of a tile. -/
def tileCol (rows : List (List FV)) (j : Nat) : List FV := rows.map fun r => r.getD j (.fin false 0 0)
/-- How a column is aligned. -/
def alignCol (t : Ty) (c : List FV) : Int × List Int :=
  if t = .i8 then (6, c.map fun v => v.rint 0) else if c.any FV.wild then (0, c.map fun _ => 0) else alignVals (if t.w = 16 then 15 else 7) c
theorem buildB_col : (buildB t rows).exps.getD j 0 = (alignCol t (tileCol rows j)).1 ∧
    (buildB t rows).cols.getD j [] = (alignCol t (tileCol rows j)).2 ∧
    bitOf (buildB t rows).marks.toNat j = (tileCol rows j).any FV.wild := by
  have exps : (buildB t rows).exps = (List.range 64).map fun j => (alignCol t (tileCol rows j)).1 := by
    simp only [buildB, List.map_map]
    rfl
  have cols : (buildB t rows).cols = (List.range 64).map fun j => (alignCol t (tileCol rows j)).2 := by
    simp only [buildB, List.map_map]
    rfl
  have marks : (buildB t rows).marks =
      BitVec.ofNat 64 (joinDigits 1 (((List.range 64).map fun j => (tileCol rows j).any FV.wild).map fun b => if b then 2 ^ 1 - 1 else 0)) := by
    simp only [buildB, List.map_map]
    rfl
  refine ⟨by rw [exps]; simp [hj], by rw [cols]; simp [hj], ?_⟩
  have bits := bitOf_joinDigits_flags one_pos ((List.range 64).map fun j => (tileCol rows j).any FV.wild) (i := j) (by simpa using hj)
  rw [marks, bitOf_eq_testBit, BitVec.toNat_ofNat, Nat.testBit_mod_two_pow, decide_eq_true hj, Bool.true_and, ← bitOf_eq_testBit, bits]
  simp
theorem buildB_aligned : let b := buildB t rows
    (∀ xs : List ℝ, List.Forall₂ FV.Is (tileCol rows j) xs → bitOf b.marks.toNat j = false ∧
      (t ≠ .i8 → Aligned b.mB xs (b.exps.getD j 0) (b.cols.getD j [])) ∧
      (∀ ns : List Int, t = .i8 → xs = ns.map (fun (n : Int) => (n : ℝ)) → b.exps.getD j 0 = 6 ∧ b.cols.getD j [] = ns)) ∧
    ((∃ v ∈ tileCol rows j, v.wild = true) → bitOf b.marks.toNat j = true) := by
  obtain ⟨exps, cols, marks⟩ := buildB_col t rows hj
  refine ⟨fun xs is => ⟨by rw [marks, not_wild_of_is is], fun other => ?_, fun ns i8 whole => ?_⟩,
    fun wild => by rw [marks]; exact List.any_eq_true.mpr wild⟩
  · rw [exps, cols, alignCol, if_neg other, not_wild_of_is is, if_neg Bool.false_ne_true]
    exact alignVals_aligned _ is
  · rw [exps, cols, alignCol, if_pos i8]
    refine ⟨rfl, ?_⟩
    subst whole
    rw [List.forall₂_map_right_iff] at is
    exact rints_integers is
end

/-! #### FP32 patterns -/

theorem RoundsOnce.lt {t : Ty} {rd : Rd} {rnd : Rnd} {sat : Bool} {x : ℝ} {r : Nat × Nat} (h : RoundsOnce t rd rnd sat x r) :
    r.1 < 2 ^ (fmtOf t rd).w := by
  obtain ⟨k, n, u, neg, top, -, -, -, -, -, -, fits, -⟩ := h
  exact fits
theorem toNat_w32 {n : Nat} (h : n < 2 ^ 32) : (w32 n).toNat = n := by rw [w32, BitVec.toNat_ofNat, Nat.mod_eq_of_lt h]
theorem encFin_lt (t : Ty) (rd : Rd) (rnd : Rnd) (sat neg : Bool) (m : Nat) (e : Int) (sticky : Bool) :
    (encFin t rd rnd sat neg m e sticky).1 < 2 ^ (fmtOf t rd).w := by
  by_cases zero : m = 0
  · rw [zero, encFin, if_pos rfl]
    split
    · exact Nat.two_pow_pos _
    · exact withSign_lt neg (Nat.two_pow_pos _) (fmtOk t rd).width
  · rw [encFin_eq t rd rnd sat neg e sticky zero]
    split
    · next fits => exact finPat_lt t rd neg fits
    · exact overflowOf_lt (fmtOk t rd) rnd sat neg
section
variable (rnd : Rnd) (sat : Bool)

theorem encInf_f32_lt (neg : Bool) : (encInf .f32 .ieee sat neg).1 < 2 ^ 32 := by cases sat <;> cases neg <;> decide
theorem nanResult_f32_lt (flags : Nat) : (nanResult .f32 flags).1 < 2 ^ 32 := show 0x7FC00000 < 2 ^ 32 by decide
theorem encFin_f32_lt (neg : Bool) (m : Nat) (e : Int) : (encFin .f32 .ieee rnd sat neg m e false).1 < 2 ^ 32 := encFin_lt ..
theorem encFV_f32_lt {v : FV} : (encFV .f32 .ieee rnd sat v).1 < 2 ^ 32 := by
  cases v with
  | nan s => exact show 0x7FC00000 < 2 ^ 32 by decide
  | inf neg => exact encInf_f32_lt sat neg
  | fin neg m e => exact encFin_f32_lt rnd sat neg m e
theorem addFV_f32_lt (x y : FV) : (addFV .f32 rnd sat x y).1 < 2 ^ 32 := by
  rw [addFV.eq_def]
  split
  · split
    · exact encInf_f32_lt sat _
    · exact nanResult_f32_lt _
  · exact encInf_f32_lt sat _
  · exact encInf_f32_lt sat _
  · dsimp only
    split
    · exact withSign_lt _ (Nat.two_pow_pos _) (fmtOk .f32 .ieee).width
    · exact encFin_f32_lt rnd sat _ _ _
  · exact nanResult_f32_lt _
theorem fAdd_f32_lt (a b : Nat) : (fAdd .f32 rnd sat a b).1 < 2 ^ 32 := by
  rw [fAdd]
  split
  · exact nanResult_f32_lt _
  · exact addFV_f32_lt rnd sat _ _
theorem fMul_f32_lt (a b : Nat) : (fMul .f32 rnd sat a b).1 < 2 ^ 32 := by
  rw [fMul]
  split
  · exact nanResult_f32_lt _
  · split
    · exact encFV_f32_lt rnd sat
    · exact nanResult_f32_lt _
theorem fFma_f32_lt (negP negC : Bool) (a b c : Nat) : (fFma .f32 rnd sat negP negC a b c).1 < 2 ^ 32 := by
  rw [fFma, fmaFV]
  split
  · exact nanResult_f32_lt _
  · split
    · exact nanResult_f32_lt _
    · split
      · exact nanResult_f32_lt _
      · exact addFV_f32_lt rnd sat _ _
end
theorem addW_toNat (x y : W32) : (addW x y).toNat = (fAdd .f32 .rne false x.toNat y.toNat).1 := toNat_w32 (fAdd_f32_lt ..)
theorem mulW_toNat (x y : W32) : (mulW x y).toNat = (fMul .f32 .rne false x.toNat y.toNat).1 := toNat_w32 (fMul_f32_lt ..)
theorem fmaW_toNat (x y z : W32) : (fmaW x y z).toNat = (fFma .f32 .rne false false false x.toNat y.toNat z.toNat).1 :=
  toNat_w32 (fFma_f32_lt ..)

/-! #### A row against a tile (R99 to R101) -/

section
variable (mA : Nat) (b : BTile) (row : List FV) {j : Nat} (hj : j < 64)
include hj

theorem mulRow_nan (h : (∃ v ∈ row, v.wild = true) ∨ bitOf b.marks.toNat j = true) : (mulRow mA b row).getD j 0 = nanW := by
  by_cases wild : row.any FV.wild = true
  · rw [mulRow, if_pos wild, List.getD_replicate _ hj]
  · have marked : bitOf b.marks.toNat j = true := h.resolve_left fun c => wild (List.any_eq_true.mpr c)
    rw [mulRow, if_neg wild]
    simp [hj, marked]
theorem mulRow_sum {xs : List ℝ} (is : List.Forall₂ FV.Is row xs) (plain : bitOf b.marks.toNat j = false) :
    let s : Int := ((alignVals mA row).2.zipWith (fun (m n : Int) => m * n) (b.cols.getD j [])).sum
    (mulRow mA b row).getD j 0 = w32 (encFin .f32 .ieee .rne false (decide (s < 0)) s.natAbs
      ((alignVals mA row).1 - (mA - 1) + (b.exps.getD j 0 - (b.mB - 1))) false).1 := by
  rw [mulRow, not_wild_of_is is, if_neg Bool.false_ne_true]
  simp only [List.getD_eq_getElem?_getD, List.getElem?_map, List.getElem?_range hj, Option.map_some, Option.getD_some, plain]
  rw [if_neg Bool.false_ne_true, ← List.sum_eq_foldl, List.map_zip_eq_zipWith]
  rfl
theorem mulRow_once {xs : List ℝ} (is : List.Forall₂ FV.Is row xs) (plain : bitOf b.marks.toNat j = false) :
    ∃ (f : Int) (a : List Int), Aligned mA xs f a ∧
    let p := (mulRow mA b row).getD j 0
    let s : Int := (a.zipWith (fun (m n : Int) => m * n) (b.cols.getD j [])).sum
    (s = 0 → p = 0) ∧ (s ≠ 0 → ∃ flags, RoundsOnce .f32 .ieee .rne false
      ((s : ℝ) * (2 : ℝ) ^ (f - ((mA : Int) - 1)) * (2 : ℝ) ^ (b.exps.getD j 0 - ((b.mB : Int) - 1))) (p.toNat, flags)) := by
  refine ⟨_, _, alignVals_aligned mA is, ?_⟩
  intro p s
  let e : Int := (alignVals mA row).1 - (mA - 1) + (b.exps.getD j 0 - (b.mB - 1))
  have sum : p = w32 (encFin .f32 .ieee .rne false (decide (s < 0)) s.natAbs e false).1 := mulRow_sum mA b row hj is plain
  refine ⟨fun zero => ?_, fun nonzero => ?_⟩
  · rw [sum, zero, Int.natAbs_zero, encFin_zero (t := .f32) (.inl rfl)]
    rfl
  · have value : finVal (decide (s < 0)) s.natAbs e =
        (s : ℝ) * (2 : ℝ) ^ ((alignVals mA row).1 - ((mA : Int) - 1)) * (2 : ℝ) ^ (b.exps.getD j 0 - ((b.mB : Int) - 1)) := by
      rw [finVal, signed_mul, signed_natAbs, zpow_add₀ two_ne_zero, mul_assoc]
    have once := encFin_finVal .f32 .ieee .rne false (decide (s < 0)) e (Int.natAbs_ne_zero.mpr nonzero)
    rw [value] at once
    refine ⟨(encFin .f32 .ieee .rne false (decide (s < 0)) s.natAbs e false).2, ?_⟩
    rw [sum, toNat_w32 once.lt]
    exact once
end

/-! #### Registers, element by element (R181 to R186) -/

theorem mmulReg_rows (mA : Nat) (b : BTile) (rows : List (List W32)) :
    mulRows mA (some b) (rows.map fun l => l.map fvW) = rows.map fun l => mulRow mA b (l.map fun x => fdec .f32 .ieee x.toNat) := List.map_map

theorem dotW_snoc {x y : List W32} (same : x.length = y.length) (a b : W32) : dotW (x ++ [a]) (y ++ [b]) = fmaW a b (dotW x y) := by
  rw [dotW, List.zip_append same, List.foldl_append]
  rfl

section
variable {i j : Nat} (hi : i < 64) (hj : j < 64)
include hi

theorem getD_transposeW (m : List (List W32)) : (transposeW 64 m).getD i [] = m.map fun l => l.getD i 0 := by
  simp [transposeW, rowAcross, at32, hi]

include hj

theorem denseOf_factor (u v : List (List W32)) :
    ((denseOf (.factor u v)).getD i []).getD j 0 = dotW (u.map fun c => c.getD i 0) (v.map fun c => c.getD j 0) := by
  rw [← getD_transposeW hi u, ← getD_transposeW hj v]
  simp [denseOf, transposeW, hi, hj]

variable {p q : List (List W32)} (hp : p.length = 64) (hq : q.length = 64) (full : ∀ l ∈ p ++ q, l.length = 64)
include hp hq full

theorem dense_entries : ∃ x y : List W32, p[i]? = some x ∧ q[i]? = some y ∧ j < x.length ∧ j < y.length := by
  have ip : i < p.length := hp ▸ hi
  have iq : i < q.length := hq ▸ hi
  refine ⟨p[i], q[i], List.getElem?_eq_getElem ip, List.getElem?_eq_getElem iq, ?_, ?_⟩
  · rw [full p[i] (List.mem_append_left _ (List.getElem_mem ip))]
    exact hj
  · rw [full q[i] (List.mem_append_right _ (List.getElem_mem iq))]
    exact hj
theorem dense_elements : let at2 := fun (m : MVal) => ((denseOf m).getD i []).getD j 0
    let old := fun (m : List (List W32)) => (m.getD i []).getD j 0
    at2 (mlraddOf (.dense p) (.dense q)) = addW (old p) (old q) ∧ (∀ c, at2 (mscaleOf c (.dense p)) = mulW (old p) c) ∧
    at2 (mlrmulOf (.dense p) (.dense q)) = dotW (p.getD i []) (q.map fun l => l.getD j 0) := by
  obtain ⟨x, y, px, qy, jx, jy⟩ := dense_entries hi hj hp hq full
  refine ⟨?_, fun c => ?_, ?_⟩
  · simp [mlraddOf, denseOf, List.getElem?_zipWith, px, qy, jx, jy]
  · simp [mscaleOf, denseOf, px, jx]
  · rw [← getD_transposeW hj q]
    simp [mlrmulOf, denseOf, px, transposeW, hj]
end

/-- Settles O52: the tile by `buildB_aligned`, the row by `mulRow_nan` and `mulRow_once`, the FP32 steps as 32-bit patterns of the floating
operations, and the registers element by element. -/
theorem matrixProductsRoundTheExactSumOnce : Obligations.MatrixProductsRoundTheExactSumOnce := by
  unfold Obligations.MatrixProductsRoundTheExactSumOnce
  refine ⟨fun t rows j _ hj => ?_, fun mA b row j hj => ?_, fun mA b r u v => ?_, fun x y z => ⟨addW_toNat x y, mulW_toNat x y, fmaW_toNat x y z⟩,
    fun x y a b same => ⟨rfl, dotW_snoc same a b⟩, fun p q i j hi hj hp hq full => dense_elements hi hj hp hq full,
    fun u v i j hi hj => denseOf_factor hi hj u v⟩
  · obtain ⟨aligned, marked⟩ := buildB_aligned t rows hj
    exact ⟨rfl, aligned, fun wild _ => marked wild⟩
  · exact ⟨fun wild => mulRow_nan mA b row hj (.inl wild), fun marked => mulRow_nan mA b row hj (.inr marked), fun xs is plain =>
      mulRow_once mA b row hj is plain⟩
  · exact ⟨congrArg MVal.dense (mmulReg_rows mA b r), congrArg (MVal.factor u) (mmulReg_rows mA b v), rfl⟩
end Machine
end Sys2Proof
end

section
/-! ### O21: the converting load (R86 to R89, R150) -/
namespace Sys2Proof
namespace Machine

/-! #### What it writes -/

/-- Element `n` under a plan, with the bytes at an address and the sidecar's scale, as R86 to R89 say it. -/
def planElem (o : MemC) (p : ConvPlan) (pa : Nat) (rd : Nat → Nat → Nat) (side n : Nat) : Nat × Nat := match p.fmt with
  | none => (rd pa p.nb / 2 ^ (o.t.w * n) % 2 ^ o.t.w, 0)
  | some (ty, r) =>
    let code := rd pa p.nb / 2 ^ (ty.w * n) % 2 ^ ty.w
    encFV o.t .ieee .rne false (match p.block with
      | some b => scaleFV (e2m1Block code (rd (pa / 256 * 256 + 18 * b + 17) 1)) (rd (pa / 256 * 256 + 18 * b + 16) 1)
      | none => if p.scaled then scaleFV (fdec ty r code) side else fdec ty r code)
theorem convElem_eq (o : MemC) (p : ConvPlan) (pa : Nat) (rd : Nat → Nat → Nat) (side : Nat) : convElem o p pa rd side = planElem o p pa rd side := by
  funext n
  obtain ⟨nb, ok, fmt, scaled, block⟩ := p
  cases fmt with
  | none => rfl
  | some f => cases block <;> rfl
/-- A write of the active elements: the elements, their conditions, and the old elements elsewhere. -/
theorem convWrite_result (o : MemC) (m : W16) (d : VDst) (f : Nat → Nat × Nat) (u : State) : ∃ v,
    WroteVD (orFlags u (orAll ((List.range (512 / o.t.w)).map fun n => if elemOn m o.t.w n then (f n).2 else 0))) (convWrite o m d f u) d v ∧
    ∀ n < 512 / o.t.w, elem o.t.w v n = if elemOn m o.t.w n then (f n).1 % 2 ^ o.t.w else elem o.t.w (oldV u d) n := by
  refine ⟨_, ?_, fun n hn => elem_mapElems o.t.w m f (oldV u d) n hn⟩
  rw [← flags_mapElems o.t.w m f (oldV u d)]
  exact writeVD_wrote ..

/-! #### Its plan -/

section
variable {o : MemC} (ea : W64) (tag : Nat)

theorem convPlan_named (named : o.src ≠ .auto) : convPlan o ea tag =
    { nb := 512 / o.t.w * o.src.w / 8, ok := ea.toNat % (512 / o.t.w * o.src.w / 8) == 0, fmt := some (o.src, readingFor o.rd o.src tag),
      scaled := false, block := none } := if_pos named
section
variable {tag} (auto : o.src = .auto)
include auto

theorem convPlan_raw (raw : tagFormat tag = none) :
    convPlan o ea tag = { nb := 64, ok := ea.toNat % 64 == 0, fmt := none, scaled := false, block := none } := by
  rw [convPlan, if_neg (by simp [auto]), raw]
theorem convPlan_packed {ty : Ty} {sc : Bool} {rd : Rd} (tagged : tagFormat tag = some (ty, sc, rd)) (other : ty ≠ .e2m1) :
    convPlan o ea tag =
    { nb := 512 / o.t.w * ty.w / 8, ok := ea.toNat % (512 / o.t.w * ty.w / 8) == 0, fmt := some (ty, rd), scaled := sc, block := none } := by
  rw [convPlan, if_neg (by simp [auto]), tagged]
  split
  · next e => cases e
  · next e =>
    cases e
    exact absurd rfl other
  · next e =>
    cases e
    rfl
theorem convPlan_block {sc : Bool} {rd : Rd} (tagged : tagFormat tag = some (.e2m1, sc, rd)) :
    convPlan o ea tag =
    { nb := 512 / o.t.w / 2, ok := (e2m1Place (ea.toNat % 256) (512 / o.t.w / 2)).isSome, fmt := some (.e2m1, .fin), scaled := false,
      block := e2m1Place (ea.toNat % 256) (512 / o.t.w / 2) } := by
  rw [convPlan, if_neg (by simp [auto]), tagged]
end
end

/-! #### Its read under AUTO -/

/-- The plan and the copies that a converting load takes at home. -/
def convHome (s : State) (o : MemC) (ea : W64) (x : Xl) : ConvPlan × (Nat → Sector) × State :=
  let t := fillSector (touchLine s x.slot (x.pa / 64 / 4)) (myCtx s) x.slot (x.pa / 64)
  let p := convPlan o ea (getLine t (x.pa / 64 / 4)).tag
  (p, copyAt (loadHome t x (planSecs x.pa p)).1, (loadHome t x (planSecs x.pa p)).2)
theorem convRead_missed {s : State} {x : Xl} (missed : loadL1 s x = none) (o : MemC) (ea : W64) : convRead s o ea x = convHome s o ea x := by
  rw [convRead, missed]
  rfl
/-- The load reads one copy of the L1, or reads at home. -/
theorem convRead_cases (s : State) (o : MemC) (ea : W64) (x : Xl) :
    (∃ v u, loadL1 s x = some (v, u) ∧ convRead s o ea x = (convPlan o ea v.tag, fun _ => v, u)) ∨ convRead s o ea x = convHome s o ea x := by
  cases found : loadL1 s x with
  | none => exact .inr (convRead_missed found o ea)
  | some r =>
    obtain ⟨v, u⟩ := r
    by_cases one : planSecs x.pa (convPlan o ea v.tag) = [x.pa / 64]
    · refine .inl ⟨v, u, rfl, ?_⟩
      rw [convRead, found]
      exact if_pos one
    · refine .inr ?_
      rw [convRead, found]
      exact if_neg one
theorem convHome_filled (s : State) (ctx slot sec : Nat) : HomeQuiet s (fillSector (touchLine s slot (sec / 4)) ctx slot sec) :=
  (touchLine_quiet ..).trans (fillSector_quiet ..)
theorem convRead_access (s : State) (o : MemC) (ea : W64) (x : Xl) : AccessOnly s (convRead s o ea x).2.2 := by
  obtain ⟨v, u, found, e⟩ | e := convRead_cases s o ea x
  · rw [e]
    exact loadL1_access found
  · rw [e]
    exact (convHome_filled ..).access.trans (loadHome_access ..)
theorem convRead_plan (s : State) (o : MemC) (ea : W64) (x : Xl) : ∃ tag, (convRead s o ea x).1 = convPlan o ea tag := by
  obtain ⟨v, u, -, e⟩ | e := convRead_cases s o ea x
  · exact ⟨v.tag, by rw [e]⟩
  · exact ⟨_, by rw [e]; rfl⟩

/-- Sectors that stand read as before under a slot. -/
theorem homeBytes_of_same {s t : State} (h : ∀ x, SameSector s t x) (hc : t.ctxs = s.ctxs) (slot a n : Nat) :
    homeBytes t slot a n = homeBytes s slot a n := by
  rw [homeBytes, homeBytes, keyOf_congr hc]
  exact List.map_congr_left fun i _ => (h _).homeByte _
/-- One byte of a copy that home leases is the byte at home, while no U copy stands. -/
theorem sectorNat_leased {s : State} (n : s.NoUCopies) (ctx slot pts : Nat) {secs : List Nat} {a : Nat} (ha : a / 64 ∈ secs) :
    sectorNat (copyAt (leaseHome s ctx slot pts secs).1 (a / 64)) (a % 64) 1 = ofBytes (homeBytes s slot a 1) := by
  rw [copyAt_leaseHome s ctx slot pts ha, sectorNat, sectorOf, leasedCopy_data n]
  exact bitsOf_sectorAs s slot a 1 (by omega)
theorem readSectors_home {s : State} {slot a n : Nat} {look : Nat → Sector}
    (same : ∀ i < n, sectorNat (look ((a + i) / 64)) ((a + i) % 64) 1 = ofBytes (homeBytes s slot (a + i) 1)) :
    readSectors look a n = ofBytes (homeBytes s slot a n) := by
  refine congrArg ofBytes (List.map_congr_left fun i hi => ?_)
  rw [same i (List.mem_range.mp hi), homeBytes]
  simp [ofBytes, joinDigits, Nat.mod_eq_of_lt (homeByte s (keyOf s slot) (a + i)).isLt]
/-- Where no copy of the L1 serves, the bytes of the planned sectors are those at home. -/
theorem convRead_bytes {s : State} {x : Xl} (quiet : s.NoUCopies) (missed : amFind s.core.l1 (x.pa / 64) = none) (o : MemC) (ea : W64) {a n : Nat}
    (planned : ∀ i < n, (a + i) / 64 ∈ planSecs x.pa (convRead s o ea x).1) :
    readSectors (convRead s o ea x).2.1 a n = ofBytes (homeBytes s x.slot a n) := by
  have e := convRead_missed (show loadL1 s x = none by rw [loadL1, missed]) o ea
  rw [e] at planned ⊢
  have filled := convHome_filled s (myCtx s) x.slot (x.pa / 64)
  obtain ⟨none, hm, hk⟩ := filled.2 quiet
  rw [← homeBytes_of_same (.of_eq hm hk) filled.1.1.ctxs]
  exact readSectors_home fun i hi => sectorNat_leased none _ _ _ (planned i hi)

/-! #### Its stops and what it does -/

section
variable {o : MemC} {s : State} (on : anyOn (predVal s o.p) o.t.w = true)
include on

theorem execVldConverting_auto (auto : o.src = .auto) : exec (.vldConverting o) s = .next (runBody s (convAuto o s)) :=
  next_elemForm on (if_pos auto)
theorem execVldConverting_named (named : o.src ≠ .auto) : exec (.vldConverting o) s = .next (runBody s (do
    vecChecks s [] (some o.d)
    alignCheck (getS s o.a + BitVec.ofInt 64 o.disp.toInt) (512 / o.t.w * o.src.w / 8) (accWord .C false false (512 / o.t.w * o.src.w / 8))
    readInto s o.d false (readC s (getS s o.a + BitVec.ofInt 64 o.disp.toInt) (512 / o.t.w * o.src.w / 8)
      (.conv o (predVal s o.p) (resolveV s o.d)) 0))) := by
  refine next_elemForm on ((if_neg named).trans ?_)
  rw [effAddr_eq]
  dsimp only
  rw [convPlan_named _ 0 named]
theorem execVldConverting_waits (auto : o.src = .auto) (busy : s.th.creqs ≠ []) : exec (.vldConverting o) s = .next (stalled s) := by
  rw [execVldConverting_auto on auto, convAuto, show s.th.creqs.isEmpty = false by simpa using busy]
  rfl
variable (idle : o.src = .auto → s.th.creqs = [])
include idle

/-- The checks of the destination come first. -/
theorem execVldConverting_stops {x : Stop} (h : vecChecks s [] (some o.d) = .error x) : exec (.vldConverting o) s = .next (onStop s x) := by
  by_cases auto : o.src = .auto
  · rw [execVldConverting_auto on auto, convAuto, idle auto, h]
    rfl
  · rw [execVldConverting_named on auto, h]
    rfl
end

section
variable {o : MemC} {s : State} (on : anyOn (predVal s o.p) o.t.w = true) (ready : queuesReady s [] (some o.d) = true) (inside : vopOk s o.d = true)
include on ready inside

section
variable (named : o.src ≠ .auto)
include named

theorem execVldConverting_misaligned (odd : (getS s o.a + BitVec.ofInt 64 o.disp.toInt).toNat % (512 / o.t.w * o.src.w / 8) ≠ 0) :
    Traps (.vldConverting o) s (trapAcc cMISALIGN (getS s o.a + BitVec.ofInt 64 o.disp.toInt)
      (accWord .C false false (512 / o.t.w * o.src.w / 8))) := by
  rw [Traps, execVldConverting_named on named, vecChecks_ok ready (by simp [inside]), alignCheck_odd _ odd]
  rfl
theorem execVldConverting_reads (aligned : (getS s o.a + BitVec.ofInt 64 o.disp.toInt).toNat % (512 / o.t.w * o.src.w / 8) = 0) :
    exec (.vldConverting o) s = .next (runBody s (readInto s o.d false (readC s (getS s o.a + BitVec.ofInt 64 o.disp.toInt)
      (512 / o.t.w * o.src.w / 8) (.conv o (predVal s o.p) (resolveV s o.d)) 0))) := by
  rw [execVldConverting_named on named, vecChecks_ok ready (by simp [inside]), alignCheck_ok _ aligned]
  rfl
end
section
variable (auto : o.src = .auto) (idle : s.th.creqs = [])
include auto idle

theorem execVldConverting_pool (window : inPoolWindow (getS s o.a + BitVec.ofInt 64 o.disp.toInt).toNat = true)
    (aligned : (convPlan o (getS s o.a + BitVec.ofInt 64 o.disp.toInt) 0).ok = true)
    (fits : poolOk s.core s.th.act (poolOff (getS s o.a + BitVec.ofInt 64 o.disp.toInt))
      (convPlan o (getS s o.a + BitVec.ofInt 64 o.disp.toInt) 0).nb = true) :
    exec (.vldConverting o) s = .next (convWrite o (predVal s o.p) (resolveV s o.d)
      (convElem o (convPlan o (getS s o.a + BitVec.ofInt 64 o.disp.toInt) 0) (poolOff (getS s o.a + BitVec.ofInt 64 o.disp.toInt))
        (fun a n => ofBytes (poolBytesAt s.core.pool a n)) 0) (poolLoaded s)) := by
  have raw := convPlan_raw (o := o) (tag := 0) (getS s o.a + BitVec.ofInt 64 o.disp.toInt) auto rfl
  rw [raw] at aligned
  have even : (getS s o.a + BitVec.ofInt 64 o.disp.toInt).toNat % 64 = 0 := by simpa using aligned
  rw [execVldConverting_auto on auto, convAuto, idle, vecChecks_ok ready (by simp [inside]), effAddr_eq]
  dsimp only
  rw [if_pos window, raw, alignCheck_ok _ even, ← raw, if_pos fits]
  rfl
variable (memory : inPoolWindow (getS s o.a + BitVec.ofInt 64 o.disp.toInt).toNat = false) {x : Xl} {u : State}
  (hx : xlateCore s .read false (getS s o.a + BitVec.ofInt 64 o.disp.toInt).toNat = .ok x u)
include memory hx

theorem execVldConverting_odd (odd : (convRead u o (getS s o.a + BitVec.ofInt 64 o.disp.toInt) x).1.ok = false) :
    Traps (.vldConverting o) s (trapAcc cMISALIGN (getS s o.a + BitVec.ofInt 64 o.disp.toInt)
      (accWord .C false false (convRead u o (getS s o.a + BitVec.ofInt 64 o.disp.toInt) x).1.nb)) := by
  rw [Traps, execVldConverting_auto on auto, convAuto, idle, vecChecks_ok ready (by simp [inside]), effAddr_eq]
  dsimp only
  rw [if_neg (Bool.not_eq_true _ ▸ memory), xlateE_ok hx]
  dsimp only [bind, Except.bind]
  rw [odd]
  rfl
theorem execVldConverting_memory (ok : (convRead u o (getS s o.a + BitVec.ofInt 64 o.disp.toInt) x).1.ok = true) :
    let r := convRead u o (getS s o.a + BitVec.ofInt 64 o.disp.toInt) x
    let first := r.2.1 (x.pa / 64)
    exec (.vldConverting o) s = .next (convWrite o (predVal s o.p) (resolveV s o.d)
      (convElem o r.1 x.pa (readSectors r.2.1) (if x.pa % 64 < 32 then first.sc0.toNat else first.sc1.toNat)) r.2.2) := by
  rw [execVldConverting_auto on auto, convAuto, idle, vecChecks_ok ready (by simp [inside]), effAddr_eq]
  dsimp only
  rw [if_neg (Bool.not_eq_true _ ▸ memory), xlateE_ok hx]
  dsimp only [bind, Except.bind]
  rw [ok]
  rfl
end
end

/-- The plan of a named format, of a RAW line, of a packed tag and of E2M1 blocks. -/
theorem convPlan_reads (o : MemC) (ea : W64) (tag : Nat) : let nd := 512 / o.t.w
    let p := convPlan o ea tag
    (o.src ≠ .auto → p.nb = nd * o.src.w / 8 ∧ p.fmt = some (o.src, readingFor o.rd o.src tag) ∧ p.block = none ∧ p.scaled = false) ∧
    (o.src = .auto → tagFormat tag = none → p.nb = 64 ∧ p.fmt = none ∧ (p.ok = true ↔ ea.toNat % 64 = 0)) ∧
    (∀ ty sc rd, o.src = .auto → tagFormat tag = some (ty, sc, rd) → ty ≠ .e2m1 →
      p.nb = nd * ty.w / 8 ∧ p.fmt = some (ty, rd) ∧ p.block = none ∧ p.scaled = sc ∧ (p.ok = true ↔ ea.toNat % p.nb = 0)) ∧
    (∀ sc rd, o.src = .auto → tagFormat tag = some (.e2m1, sc, rd) →
      p.nb = nd / 2 ∧ p.fmt = some (.e2m1, .fin) ∧ p.block = e2m1Place (ea.toNat % 256) (nd / 2) ∧ (p.ok = true ↔ p.block ≠ none)) := by
  refine ⟨fun named => ?_, fun auto raw => ?_, fun ty sc rd auto tagged other => ?_, fun sc rd auto tagged => ?_⟩
  · rw [convPlan_named ea tag named]
    exact ⟨rfl, rfl, rfl, rfl⟩
  · rw [convPlan_raw ea auto raw]
    exact ⟨rfl, rfl, beq_iff_eq⟩
  · rw [convPlan_packed ea auto tagged other]
    exact ⟨rfl, rfl, rfl, rfl, beq_iff_eq⟩
  · rw [convPlan_block ea auto tagged]
    exact ⟨rfl, rfl, rfl, Option.isSome_iff_ne_none⟩

/-- What is written of a plan. -/
theorem convWrite_plan (o : MemC) (m : W16) (d : VDst) (p : ConvPlan) (pa side : Nat) (rd : Nat → Nat → Nat) (u : State) : ∃ v,
    WroteVD (orFlags u (orAll ((List.range (512 / o.t.w)).map fun n => if elemOn m o.t.w n then (planElem o p pa rd side n).2 else 0)))
      (convWrite o m d (convElem o p pa rd side) u) d v ∧
    ∀ n < 512 / o.t.w, elem o.t.w v n =
      if elemOn m o.t.w n then (planElem o p pa rd side n).1 % 2 ^ o.t.w else elem o.t.w (oldV u d) n := by
  rw [convElem_eq]
  exact convWrite_result ..

/-- Settles O21: the load's stops come before its one read; what a plan gives an element is `planElem`, and what is written `convWrite_plan`. -/
theorem convertingLoadsConvertEachActiveElement : Obligations.ConvertingLoadsConvertEachActiveElement := by
  unfold Obligations.ConvertingLoadsConvertEachActiveElement
  refine ⟨fun o s _ _ on => ?_, convPlan_reads, fun o s off => next_elemForm_off off⟩
  intro ea nd on' acc res el
  have writes (u : State) (p : ConvPlan) (pa side : Nat) (rd : Nat → Nat → Nat) :
      res u (convWrite o (predVal s o.p) (resolveV s o.d) (convElem o p pa rd side) u) (el p pa rd side) := convWrite_plan ..
  refine ⟨fun auto busy => execVldConverting_waits on auto busy,
    fun idle busy => execVldConverting_stops on idle (vecChecks_stall busy),
    fun idle ready out => execVldConverting_stops on idle (vecChecks_bounds ready (by simp [out])), fun named ready inside =>
    ⟨execVldConverting_misaligned on ready inside named, fun aligned later => runs_of ?_, fun aligned slotJ q hd idle u issued => ?_⟩,
    writes, fun auto idle ready inside => ⟨fun window => ?_, fun memory x u hx => ?_⟩⟩
  · have plain : (toQueue o.d && inSlotJ s) = false := by
      obtain other | slot := later
      · cases hd : o.d with
        | q n => exact absurd hd (other n)
        | v n => rfl
        | x i n => rfl
      · rw [slot, Bool.and_false]
    rw [execVldConverting_reads on ready inside named aligned, readInto_later plain]
  · have now : (toQueue o.d && inSlotJ s) = true := by rw [hd, slotJ]; rfl
    rw [execVldConverting_reads on ready inside named aligned, readInto_now now (by simp [idle]), issued]
    rfl
  · intro p ok fits
    exact ⟨_, execVldConverting_pool on ready inside auto idle window ok fits,
      writes (poolLoaded s) p (poolOff ea) 0 fun a n => ofBytes (poolBytesAt s.core.pool a n)⟩
  · intro r first
    refine ⟨convRead_access u o ea x, convRead_plan u o ea x, fun quiet missed a n _ planned => convRead_bytes quiet missed o ea planned,
      execVldConverting_odd on ready inside auto idle memory hx, fun ok => ?_⟩
    exact ⟨_, execVldConverting_memory on ready inside auto idle memory hx ok, writes r.2.2 r.1 x.pa _ (readSectors r.2.1)⟩

end Machine
end Sys2Proof
end

section
/-! ### O26: the update-only reductions (R265, R266, R287, R289) -/
namespace Sys2Proof
namespace Machine

/-! #### The waits and the issue -/

/-- The after set of the fence that a red's release set acts as (R265). -/
def redAfter (rel : PathSet) : PathSet := if rel = 0 then 0 else 0b000010000
/-- Before a red, its release set and the thread set's reds wait. -/
theorem fenceQuiet_red (s : State) (rel : PathSet) :
    fenceQuiet s rel (redAfter rel) = true ↔ quietOn s rel = true ∧ (rel ≠ 0 → s.th.ureqs = []) := by
  by_cases none : rel = 0
  · simp [fenceQuiet, redAfter, none, names, bitOf]
  · rw [fenceQuiet, redAfter, if_neg none, show names 0b000010000 .U = true from rfl, Bool.and_eq_true, Bool.not_true, Bool.false_or,
      List.isEmpty_iff]
    exact and_congr_right fun _ => ⟨fun h _ => h, fun h => h none⟩
theorem mergeNamed_red (s : State) (rel : PathSet) : mergeNamed s rel (redAfter rel) = if rel = 0 then s else mergeAllU s (myClu s) := by
  by_cases none : rel = 0
  · rw [none]
    rfl
  · rw [mergeNamed, redAfter, if_neg none, if_neg none, show names 0b000010000 .U = true from rfl, Bool.or_true, if_pos rfl]

/-- A red as it issues. -/
def redReq (o : Red) (s : State) (ea : W64) (x : Xl) : UReq :=
  { va := ea, stale := false, pa := x.pa, slot := x.slot, ubit := x.ubit, ty := o.t, op := o.op, b := (getS s o.b).toNat % 2 ^ o.t.w,
    behind := behindOf s o.rel, acq := if (behindOf s o.rel).isNone then 0 else o.acq }
/-- A red joins the thread set's reds. -/
def issueU (s : State) (q : UReq) : State := withTh s fun t => { t with ureqs := t.ureqs ++ [q] }
/-- A red after its waits: its checks, its issue and what its acquire set asks for. -/
def redIssue (o : Red) (ea : W64) (s : State) : Except Stop State := do
  let r ← atomicXlate (if o.rel = 0 then s else fenceEffects s o.rel 0b000010000) .red .U ea (o.t.w / 8)
  let t := issueU r.2 (redReq o s ea r.1)
  .ok (if o.acq = 0 ∨ (behindOf s o.rel).isSome then t else fenceEffects (settleU t) 0b000010000 o.acq)
theorem redForm2_eq (o : Red) (s : State) : redForm2 o s =
    bit0Form s o.p (afterWait s o.rel (redAfter o.rel) (redIssue o (getS s o.a + BitVec.ofInt 64 o.disp.toInt))) := by
  have address : atomicAddr s o.a o.disp = getS s o.a + BitVec.ofInt 64 o.disp.toInt := by rw [atomicAddr, sext64_toNat (by decide)]
  rw [← address]
  rfl

section
variable {o : Red} {s : State} {ea : W64}

theorem redIssue_stops {x : Stop} (h : atomicXlate (if o.rel = 0 then s else fenceEffects s o.rel 0b000010000) .red .U ea (o.t.w / 8) = .error x) :
    redIssue o ea s = .error x := by
  rw [redIssue, h]
  rfl
theorem redIssue_ok {x : Xl} {u : State}
    (h : atomicXlate (if o.rel = 0 then s else fenceEffects s o.rel 0b000010000) .red .U ea (o.t.w / 8) = .ok (x, u)) :
    redIssue o ea s = .ok (if o.acq = 0 ∨ behindOf s o.rel ≠ none then issueU u (redReq o s ea x)
      else fenceEffects (settleU (issueU u (redReq o s ea x))) 0b000010000 o.acq) := by
  rw [redIssue, h]
  simp only [bind, Except.bind, Option.isSome_iff_ne_none]
end
/-- The merges before a red leave what it issues. -/
theorem redReq_mergeNamed (o : Red) (s : State) (ea : W64) (x : Xl) (a : PathSet) :
    let behind := if names o.rel .M = true ∧ vwCmds s < s.core.mnum then some s.core.mnum else none
    redReq o (mergeNamed s o.rel a) ea x =
      { va := ea, stale := false, pa := x.pa, slot := x.slot, ubit := x.ubit, ty := o.t, op := o.op, b := (getS s o.b).toNat % 2 ^ o.t.w,
        behind := behind, acq := if behind = none then 0 else o.acq } := by
  intro behind
  have operand : getS (mergeNamed s o.rel a) o.b = getS s o.b := by rw [getS, getS, vw, vw, mergeNamed_th]
  rw [redReq, operand, behindOf_mergeNamed]
  simp only [Option.isNone_iff_eq_none]
  rfl

/-! #### A fold at home -/

section
variable {s : State} (n : s.NoUCopies) (c : s.MemoryCanonical) (ctx slot : Nat)
include n c

/-- Bytes put at home read back under their slot, and every other address reads as before under its key. -/
theorem putBytes_reads (a : Nat) (b : List Byte) : homeBytes (putBytes s ctx slot (atAddr a b)) slot a b.length = b ∧
    ∀ i, i < a ∨ a + b.length ≤ i → homeByte (putBytes s ctx slot (atAddr a b)) (keyOf s slot) i = homeByte s (keyOf s slot) i := by
  let l := atAddr a b
  let t := (sectorsOf l).foldl (fun s sec => prepSector s ctx slot sec) s
  obtain ⟨reads, others⟩ := foldl_prepSector_reads ctx slot (sectorsOf l) n c
  have canon : t.MemoryCanonical := (HomeStep.foldl (fun s x => prepSector_step s ctx slot x) (sectorsOf l) s).2 c
  have mem : (putBytes s ctx slot l).mem = memSetAll t.mem l := foldl_keeps (fun u : State => u.mem) (f := markWord) (fun _ _ => rfl) _ _
  have memKey : (putBytes s ctx slot l).memKey = t.memKey := foldl_keeps (fun u : State => u.memKey) (f := markWord) (fun _ _ => rfl) _ _
  have key : keyOf (putBytes s ctx slot l) slot = keyOf s slot := keyOf_congr (putBytes_step s ctx slot l).1.ctxs _
  have keys (x : Nat) (h : x ∈ sectorsOf l) : amFind (putBytes s ctx slot l).memKey x = some (keyOf s slot) := by
    rw [memKey]
    exact foldl_prepSector_memKey ctx slot _ n (.inl h)
  have listed (e : Nat × Byte) (he : e ∈ l) : e.1 / 64 ∈ sectorsOf l := List.mem_eraseDups.mpr (List.mem_map.mpr ⟨e, he, rfl⟩)
  refine ⟨List.ext_getElem (by simp [homeBytes]) fun i hi hl => ?_, fun i out => ?_⟩
  · have put := keys _ (listed _ (mem_atAddr a b hl))
    simp only [homeBytes, List.getElem_map, List.getElem_range]
    rw [key, homeByte_of_key put, mem]
    exact memGet_memSetAll_atAddr b canon.1 a i hl
  · have unlisted : ∀ e ∈ l, e.1 ≠ i := fun e he => by
      have := atAddr_ge he
      omega
    have stored := memGet_memSetAll_other canon.1 unlisted
    rw [← reads i]
    by_cases touched : i / 64 ∈ sectorsOf l
    · have put := keys _ touched
      rw [homeByte_of_key put, homeByte_of_key (memKey ▸ put), mem, stored]
    · have raw : SameSector t (putBytes s ctx slot l) (i / 64) := by
        refine ⟨by rw [memKey], fun j hj => ?_⟩
        rw [mem]
        refine memGet_memSetAll_other canon.1 fun e he h => touched ?_
        rw [← hj, ← h]
        exact listed e he
      exact raw.homeByte _
end

theorem stampLines_reads (s : State) (p : Path) (pts : Nat) (ls : List Nat) (x : Nat) : SameSector s (stampLines s p pts ls).2 x := by
  have stands {γ : Type} (π : State → γ) (lines : ∀ u l w, π (setLine u l w) = π u) (paths : ∀ u p w, π (notePath u p w) = π u) :
      π (stampLines s p pts ls).2 = π s := (paths ..).trans (foldl_keeps π (fun u l => lines u l _) ls s)
  exact .of_eq (stands (·.mem) (fun _ _ _ => rfl) fun _ _ _ => rfl) (stands (·.memKey) (fun _ _ _ => rfl) fun _ _ _ => rfl) x
theorem homeFold_step (s : State) (ctx : Nat) (x : Xl) (t : Ty) (op : AOp) (b : Nat) : HomeStep s (homeFold s ctx x t op b) :=
  ((alignSlot_step ..).trans (fillSector_step ..)).trans ((putBytes_step ..).trans (stampLines_step ..))
/-- A red folded at home: the element is the operation of its old value and the operand, and every byte outside it reads as before. -/
theorem homeFold_reads {s : State} (n : s.NoUCopies) (c : s.MemoryCanonical) (ctx : Nat) (x : Xl) (t : Ty) (op : AOp) (b : Nat) :
    let r := homeFold s ctx x t op b
    homeBytes r x.slot x.pa (t.w / 8) = toBytes (t.w / 8) (aopElem t op (ofBytes (homeBytes s x.slot x.pa (t.w / 8))) b).1 ∧
      ∀ a, a < x.pa ∨ x.pa + t.w / 8 ≤ a → homeByte r (keyOf s x.slot) a = homeByte s (keyOf s x.slot) a := by
  let f := fillSector (alignSlot s x.slot (x.pa / 256)) ctx x.slot (x.pa / 64)
  have filled : HomeQuiet s f := (alignSlot_quiet ..).trans (fillSector_quiet ..)
  obtain ⟨none, hm, hk⟩ := filled.2 n
  have same (a : Nat) : SameSector s f a := .of_eq hm hk a
  have key : keyOf f x.slot = keyOf s x.slot := keyOf_congr filled.1.1.ctxs _
  have old : homeBytes f x.slot x.pa (t.w / 8) = homeBytes s x.slot x.pa (t.w / 8) := homeBytes_of_same same filled.1.1.ctxs ..
  let v := toBytes (t.w / 8) (aopElem t op (ofBytes (homeBytes f x.slot x.pa (t.w / 8))) b).1
  have length : v.length = t.w / 8 := by simp [v, toBytes]
  obtain ⟨back, others⟩ := putBytes_reads none (filled.1.2 c) ctx x.slot x.pa v
  rw [length] at back others
  have stamped := stampLines_reads (putBytes f ctx x.slot (atAddr x.pa v)) .U 0 [x.pa / 256]
  rw [← old]
  refine ⟨(homeBytes_of_same stamped (stampLines_step ..).1.ctxs ..).trans back, fun a out => ?_⟩
  exact ((stamped _).homeByte _).trans (key ▸ (others a out).trans ((same _).homeByte _))

/-! #### A fold into a U copy -/

/-- A fold changes one word of the copy: an absent one counts as the operation's empty value. -/
theorem foldU_words (u : UCopy) (pa b : Nat) :
    amFind (foldU u pa b).words (pa % 256 / 2) = some (BitVec.ofNat 64 (aopElem u.t u.op (match amFind u.words (pa % 256 / 2) with
      | some w => w.toNat
      | none => emptyOf u.t u.op) b).1) ∧
    ∀ k, k ≠ pa % 256 / 2 → amFind (foldU u pa b).words k = amFind u.words k := by
  refine ⟨(amFind_amSet_same ..).trans ?_, fun k other => amFind_amSet_other _ _ other⟩
  cases amFind u.words (pa % 256 / 2) <;> rfl
/-- A cluster takes a U copy of a line. -/
def putU (s : State) (k l : Nat) (u : UCopy) : State := onClu s k fun c => { c with ucopies := amSet c.ucopies l u }
theorem amFind_putU (s : State) (k l : Nat) (u : UCopy) : amFind (getClu (putU s k l u) k).ucopies l = some u := by
  rw [putU, onClu, getClu_setClu, if_pos rfl]
  exact amFind_amSet_same ..
theorem putU_only (s : State) (k l : Nat) (u : UCopy) : HomeOnly s (putU s k l u) := (dropU_step s k fun m => amSet m l u).1
/-- While no U copy stands, room for one is made by a line that leaves. -/
theorem copyRoom_quiet {s : State} (n : s.NoUCopies) (k l : Nat) : HomeOnly s (copyRoom s k l) ∧ (copyRoom s k l).mem = s.mem := by
  have empty : setCopies s k l = [] := by
    rw [setCopies, NoUCopies_getClu n]
    rfl
  unfold copyRoom
  dsimp only
  split
  · exact ⟨.refl s, rfl⟩
  · rw [empty]
    have evicted := evictLine_quiet s
    exact ⟨(evicted _).1.1, ((evicted _).2 n).2.1⟩

section
variable {s : State} {ctx k : Nat} {x : Xl} {t : Ty} {op : AOp}

theorem redFold_home (h : k = homeOf x.pa ∨ x.ubit = false) (b : Nat) : redFold s ctx k x t op b = homeFold s ctx x t op b := by
  rw [redFold, if_pos (by simpa using h)]
variable (away : k ≠ homeOf x.pa) (permits : x.ubit = true)
include away permits

theorem redFold_held {u : UCopy} (held : amFind (getClu s k).ucopies (x.pa / 256) = some u)
    (same : u.op = op ∧ u.t = t ∧ u.slot = x.slot ∧ u.ctx = ctx) (b : Nat) :
    redFold s ctx k x t op b = putU s k (x.pa / 256) (foldU u x.pa b) := by
  rw [redFold, if_neg (by simp [away, permits]), held]
  exact if_pos same
theorem redFold_granted (n : s.NoUCopies) (b : Nat) : redFold s ctx k x t op b =
    putU (copyRoom s k (x.pa / 256)) k (x.pa / 256) (foldU (newU ctx x.slot op t) x.pa b) := by
  have absent : amFind (getClu s k).ucopies (x.pa / 256) = none := by
    rw [NoUCopies_getClu n]
    rfl
  have holders : holdersU s (x.pa / 256) = [] := List.filterMap_eq_nil_iff.mpr fun e he => by
    rw [n e he]
    rfl
  rw [redFold, if_neg (by simp [away, permits]), absent]
  exact (grantU.eq_def ..).trans (if_pos (by rw [holders]; decide))
/-- Where the cluster holds a matching copy, or none stands, the operand is folded into the cluster's copy. -/
theorem redFold_copy {old : UCopy} (copy : (∃ c, amFind (getClu s k).ucopies (x.pa / 256) = some c ∧ c.op = op ∧ c.t = t ∧ c.slot = x.slot ∧
      c.ctx = ctx ∧ old = c) ∨ (s.NoUCopies ∧ old = newU ctx x.slot op t)) (b : Nat) :
    let r := redFold s ctx k x t op b
    HomeOnly s r ∧ r.mem = s.mem ∧ amFind (getClu r k).ucopies (x.pa / 256) = some (foldU old x.pa b) ∧ old.op = op ∧ old.t = t := by
  obtain ⟨u, held, hop, ht, hslot, hctx, rfl⟩ | ⟨n, rfl⟩ := copy
  · rw [redFold_held away permits held ⟨hop, ht, hslot, hctx⟩]
    exact ⟨putU_only .., rfl, amFind_putU .., hop, ht⟩
  · obtain ⟨only, mem⟩ := copyRoom_quiet n k (x.pa / 256)
    rw [redFold_granted away permits n]
    exact ⟨only.trans (putU_only ..), mem, amFind_putU .., rfl, rfl⟩
end

/-- A red that has issued is folded, in any place among the thread set's. -/
theorem evRed_folds {s : State} {n : Nat} {q : UReq} (h : s.th.ureqs[n]? = some q) (behind : q.behind = none) (acq : q.acq = 0)
    (stale : q.stale = false) : evRed s.here n s = some (redFold { s with th := { s.th with ureqs := s.th.ureqs.eraseIdx n } } (myCtx s) (myClu s)
      ⟨q.pa, q.slot, false, q.ubit⟩ q.ty q.op q.b) := by
  have mine : (getCore s (coreNo s.here)).ctx.getD 0 = myCtx s := by rw [show coreNo s.here = myCore s from rfl, getCore_mine]; rfl
  have erased : (onThread s s.here fun t => { t with ureqs := t.ureqs.eraseIdx n }) =
      { s with th := { s.th with ureqs := s.th.ureqs.eraseIdx n } } := by
    rw [onThread, threadAt_here]
    exact if_pos rfl
  rw [evRed, threadAt_here, h]
  dsimp only
  rw [behind, if_neg (by simp [behindCmd]), if_neg (by simp [stale]), Option.map_some, mine, erased, acquired, if_pos acq]
  rfl

/-- Settles O26: the waits, checks and issue of the red by their case lemmas; a fold at home by `homeFold_reads`, a fold into a copy by
`redFold_copy`. -/
theorem reductionsFoldAtHomeOrIntoAUCopy : Obligations.ReductionsFoldAtHomeOrIntoAUCopy := by
  refine ⟨fun o i s form => ?_, fun s n q found behind acq stale => ⟨fun home none canon => ?_, fun away permits old copy => ?_⟩⟩
  · have exec_eq : exec i s = .next (redForm2 o s) := by obtain rfl | rfl := form <;> rfl
    rw [redForm2_eq] at exec_eq
    refine ⟨fun off => by rw [exec_eq, bit0Form_false _ off], fun on => ?_⟩
    have body {b : Except Stop State} (h : afterWait s o.rel (redAfter o.rel) (redIssue o (getS s o.a + BitVec.ofInt 64 o.disp.toInt)) = b) :
        exec i s = .next (runBody s b) := exec_eq.trans (next_bit0Form on h)
    rw [← mergeNamed_red, ← fenceQuiet_red]
    intro s0 s1 quiet ea m b behind
    refine ⟨fun busy => body (afterWait_stall (Bool.not_eq_true _ ▸ busy)), fun still named c w latched => body (afterWait_latch still named latched),
      fun still clear => ?_⟩
    have issue {b : Except Stop State} (h : redIssue o ea (mergeNamed s o.rel (redAfter o.rel)) = b) : exec i s = .next (runBody s b) :=
      body ((afterWait_goes still clear).trans h)
    refine ⟨fun odd => issue (redIssue_stops (atomicXlate_misaligned odd)), fun even pool => issue (redIssue_stops (atomicXlate_pool even pool)),
      fun even pool => ?_⟩
    have memory := atomicXlate_memory (s := s1) (acc := .red) (p := .U) even pool
    refine ⟨fun page => issue (redIssue_stops (memory.trans (xlateE_page page))),
      fun perm => issue (redIssue_stops (memory.trans (xlateE_perm perm))), fun x u ok => ⟨xlateCore_only ok, ?_⟩⟩
    rw [issue (redIssue_ok (memory.trans (xlateE_ok ok))), redReq_mergeNamed, behindOf_mergeNamed]
    rfl
  · have fold := (evRed_folds found behind acq stale).trans (congrArg some (redFold_home (by exact home) q.b))
    obtain ⟨element, others⟩ := homeFold_reads (s := { s with th := { s.th with ureqs := s.th.ureqs.eraseIdx n } }) none canon (myCtx s)
      ⟨q.pa, q.slot, false, q.ubit⟩ q.ty q.op q.b
    exact ⟨_, fold, (homeFold_step ..).1, element, others⟩
  · have fold := evRed_folds found behind acq stale
    obtain ⟨only, mem, held, hop, ht⟩ := redFold_copy
      (s := { s with th := { s.th with ureqs := s.th.ureqs.eraseIdx n } }) (x := ⟨q.pa, q.slot, false, q.ubit⟩)
      away permits copy q.b
    obtain ⟨word, others⟩ := foldU_words old q.pa q.b
    rw [hop, ht] at word
    exact ⟨_, _, fold, only, mem, by rw [only.1], held, word, others⟩

end Machine
end Sys2Proof
end

section
/-! ### O17: scalar loads -/
namespace Sys2Proof
namespace Machine

/-- The read that a scalar load issues, on path K or C (R118, R121). -/
def scalarRead (k : Bool) (o : MemS) (ea : W64) (s : State) : Except Stop State :=
  if k then readK s ea (o.t.w / 8) o.t o.d.val none else readC s ea (o.t.w / 8) (.load o.t) o.d.val

section
variable {o : MemS} {k : Bool} {i : Instr} {s : State} (h : exec i s = .next (loadScalar o k s))
include h

theorem loadScalar_skips (off : pred0 s o.p = false) : exec i s = .next s := h.trans (congrArg _ (bit0Form_false _ off))
/-- A scalar load whose predicate is set is its address check, then its read. -/
theorem loadScalar_body (on : pred0 s o.p = true) : exec i s = .next (runBody s (do
    alignCheck (getS s o.a + BitVec.ofInt 64 o.disp.toInt) (o.t.w / 8) (accWord (if k then .K else .C) false false (o.t.w / 8))
    scalarRead k o (getS s o.a + BitVec.ofInt 64 o.disp.toInt) s)) := by
  refine h.trans (next_bit0Form on ?_)
  rw [effAddr_eq]
  rfl
theorem loadScalar_misaligned (on : pred0 s o.p = true)
    (odd : (getS s o.a + BitVec.ofInt 64 o.disp.toInt).toNat % (o.t.w / 8) ≠ 0) :
    Traps i s (trapAcc cMISALIGN (getS s o.a + BitVec.ofInt 64 o.disp.toInt) (accWord (if k then .K else .C) false false (o.t.w / 8))) := by
  rw [Traps, loadScalar_body h on, alignCheck_odd _ odd]
  rfl
theorem loadScalar_reads (on : pred0 s o.p = true)
    (aligned : (getS s o.a + BitVec.ofInt 64 o.disp.toInt).toNat % (o.t.w / 8) = 0) :
    Runs i s (scalarRead k o (getS s o.a + BitVec.ofInt 64 o.disp.toInt) s) := by
  refine runs_of ?_
  rw [loadScalar_body h on, alignCheck_ok _ aligned]
  rfl
end

theorem writeVD_here (s : State) (d : VDst) (v : V512) : (writeVD s d v).here = s.here := by
  cases d with
  | base n => rfl
  | ext i => rfl
  | queue n => rfl
/-- A K load that takes its value leaves the focus where it is. -/
theorem landK_here (s : State) (q : KReq) : (landK s q).here = s.here := by
  have access := loadK_access s ⟨q.pa, q.slot, q.noL1, false⟩
  unfold landK
  dsimp only
  split
  · exact access.here
  · exact (writeVD_here ..).trans access.here
/-- A K load of the focus thread set that waits behind none of its sector takes its value (R284). -/
theorem evKread_lands {s : State} {n : Nat} {q : KReq} (waits : s.th.kreqs[n]? = some q)
    (first : ∀ e ∈ s.th.kreqs.take n, e.pa / 64 ≠ q.pa / 64) :
    evKread s.here n s = some (landK { s with th := { s.th with kreqs := s.th.kreqs.eraseIdx n } } q) := by
  have alone : ¬ ((s.th.kreqs.take n).any fun e => e.pa / 64 == q.pa / 64) = true := by simpa using first
  have here := landK_here { s with th := { s.th with kreqs := s.th.kreqs.eraseIdx n } } q
  rw [evKread, focus_here, waits]
  dsimp only
  rw [if_neg alone]
  exact congrArg some ((congrArg (focus _) here.symm).trans (focus_here _))
/-- All 64 bytes of a sector are its data. -/
theorem sectorNat_whole (v : Sector) : sectorNat v 0 64 = v.data.toNat := by
  rw [sectorNat, bitsOf, Nat.mul_zero, Nat.pow_zero, Nat.div_one, show 8 * 64 = 512 from rfl]
  exact BitVec.toNat_mod_cancel v.data
theorem landK_scalar {s : State} {q : KReq} (scalar : q.vec = none) (h : q.dst < 32) :
    let r := loadK s ⟨q.pa, q.slot, q.noL1, false⟩
    WroteS r.2 (landK s q) ⟨q.dst, h⟩ (extendTo q.ty (r.1.data.toNat / 2 ^ (8 * (q.pa % 64)) % 2 ^ (8 * (q.ty.w / 8)))) := by
  rw [landK, scalar]
  exact rfSetS_wrote _ _ _ h
theorem landK_vector {s : State} {q : KReq} {m : W16} {d : VDst} (vector : q.vec = some (m, d)) :
    let r := loadK s ⟨q.pa, q.slot, q.noL1, false⟩
    ∃ x, WroteVD r.2 (landK s q) d x ∧ LanesFrom m r.1.data.toNat (oldV r.2 d) x := by
  rw [landK, vector]
  dsimp only
  rw [sectorNat_whole]
  exact ⟨_, writeVD_wrote _ _ _, lanesOver_lanes _ _ _⟩

/-- Settles O17: a scalar load is its address check and the issue of its read; a K load that waits behind none of its sector lands. -/
theorem scalarLoadsExtendWhatTheyRead : Obligations.ScalarLoadsExtendWhatTheyRead := by
  refine ⟨fun p ty d a disp s i k form => ?_, fun s n q waits first => ⟨loadK_access .., fun h scalar => ?_, fun m d vector => ?_⟩⟩
  · have loads : exec i s = .next (loadScalar ⟨p, ty, d, a, disp⟩ k s) := by
      obtain ⟨rfl, rfl⟩ | ⟨rfl, rfl⟩ | ⟨sc, rfl, rfl⟩ := form <;> rfl
    exact ⟨loadScalar_skips loads, loadScalar_misaligned loads, loadScalar_reads loads⟩
  · exact ⟨_, evKread_lands waits first, landK_scalar scalar h⟩
  · obtain ⟨x, wrote, lanes⟩ := landK_vector vector
    exact ⟨_, x, evKread_lands waits first, wrote, lanes⟩

end Machine
end Sys2Proof
end

section
/-! ### O12: the entry of a precise trap -/
namespace Sys2Proof
namespace Machine

/-- The 128 bytes of the frame that a trap saves. -/
def frameBytes (s : State) (t : Trap) (fid : W64) (up : Bool) : List Byte :=
  (frameWords s t (faultInfoOf s.th t) fid up (raiseEvent s (myCtx s) none).1).flatMap fun w => toBytes 8 w.toNat
/-- A state with bytes at its ffbase in the pool of its core, and its two fault registers written. -/
def framed (s : State) (bytes : List Byte) (fi addr : W64) : State :=
  withRf (withCore s fun c => { c with pool := poolPutAll c.pool (atAddr s.th.rf.ffbase.toNat bytes) })
    fun r => { r with faultinfo := fi, faultaddr := addr }
theorem saveFrame_eq (s : State) (t : Trap) (fid : W64) (up : Bool) : saveFrame s t fid up =
    framed (raiseEvent s (myCtx s) none).2 (frameBytes s t fid up) (faultInfoOf s.th t) t.addr := by
  rw [saveFrame, framed, frameBytes, show (raiseEvent s (myCtx s) none).2.th = s.th from rfl]
theorem saveFrame_pool (s : State) (t : Trap) (fid : W64) (up : Bool) : (saveFrame s t fid up).core.pool =
    poolPutAll s.core.pool (atAddr s.th.rf.ffbase.toNat (frameBytes s t fid up)) := by
  rw [saveFrame_eq]
  generalize frameBytes s t fid up = bytes
  rfl
/-- Word `i` of the saved frame, read back from the pool. -/
theorem saveFrame_word (s : State) (t : Trap) (fid : W64) (up : Bool) {i : Nat} (h : i < 16) :
    ofBytes (poolBytesAt (saveFrame s t fid up).core.pool (s.th.rf.ffbase.toNat + 8 * i) 8) =
      ((frameWords s t (faultInfoOf s.th t) fid up (raiseEvent s (myCtx s) none).1)[i]'h).toNat := by
  rw [saveFrame_pool, frameBytes]
  exact frame_word _ _ _ _ h
/-- The frame is 128 bytes: the rest of the pool stands. -/
theorem saveFrame_outside (s : State) (t : Trap) (fid : W64) (up : Bool) {o : Nat}
    (h : o < s.th.rf.ffbase.toNat ∨ s.th.rf.ffbase.toNat + 128 ≤ o) :
    poolByte (saveFrame s t fid up).core.pool o = poolByte s.core.pool o := by
  rw [saveFrame_pool, frameBytes]
  refine poolByte_poolPutAll_other _ fun e he => ?_
  have inside := atAddr_ge he
  rw [flatMap_length8, show (frameWords s t (faultInfoOf s.th t) fid up (raiseEvent s (myCtx s) none).1).length = 16 from rfl] at inside
  omega
/-- Beside the frame and the two fault registers, only the event sequence number of the context is new. -/
theorem saveFrame_only (s : State) (t : Trap) (fid : W64) (up : Bool) : let f := saveFrame s t fid up
    f = { s with th := { s.th with rf := { s.th.rf with faultinfo := faultInfoOf s.th t, faultaddr := t.addr } },
                 core := { s.core with pool := f.core.pool }, ctxs := f.ctxs } := by
  dsimp only
  rw [saveFrame_eq]
  generalize frameBytes s t fid up = bytes
  rfl
theorem saveFrame_ctx (s : State) (t : Trap) (fid : W64) (up : Bool) (c : Nat) : getCtx (saveFrame s t fid up) c =
    if c = myCtx s then { getCtx s c with evseq := (getCtx s c).evseq + 1 } else getCtx s c := by
  have raised : getCtx (saveFrame s t fid up) c = getCtx (raiseEvent s (myCtx s) none).2 c := by
    refine getCtx_congr ?_ c
    rw [saveFrame_eq, framed, withRf_ctxs, withCore_ctxs]
  rw [raised, raiseEvent, getCtx_setCtx_if]
  split
  next own => rw [own]
  next => rfl
/-- The bits of FLAGS in a frame as a number. -/
theorem frameFlags_toNat (a b c : Bool) : (BitVec.ofNat 64 (bit a + 2 * bit b + 4 * bit c + 8 * bit false)).toNat = bit a + 2 * bit b + 4 * bit c := by
  cases a <;> cases b <;> cases c <;> rfl

section
variable {s u : State} {t : Trap} (ha : haBit s.th.rf = false) (frame : s.th.rf.ffbase ≠ 0)
include ha frame

theorem takeTrap_enters : takeTrap s t = enterAt s t s.th.rf.trapvec 0 false := by
  rw [takeTrap, ha, beq_eq_false_iff_ne.mpr frame]
  rfl
theorem takeTrap_entered (h : checkTarget (saveFrame s t 0 false) s.th.rf.trapvec = .ok u) :
    takeTrap s t = { u with th := { u.th with pc := s.th.rf.trapvec, solo := false, ptgt := none, xfer := none, res := .trapped } } := by
  rw [takeTrap_enters ha frame, enterAt]
  rw [h]
  rfl
/-- A vector that the check refuses makes a double trap, from what the reads of its line leave (R376). -/
theorem takeTrap_refused (h : checkTarget (saveFrame s t 0 false) s.th.rf.trapvec = .bad u ∨
    checkTarget (saveFrame s t 0 false) s.th.rf.trapvec = .linepar u) : takeTrap s t = doubleTrap u t := by
  rw [takeTrap_enters ha frame, enterAt]
  obtain h | h := h
  · rw [h]
  · rw [h]
theorem takeTrap_untranslated (h : checkTarget (saveFrame s t 0 false) s.th.rf.trapvec = .page ∨
    checkTarget (saveFrame s t 0 false) s.th.rf.trapvec = .perm) : takeTrap s t = doubleTrap (saveFrame s t 0 false) t := by
  rw [takeTrap_enters ha frame, enterAt]
  obtain h | h := h
  · rw [h]
  · rw [h]
end

theorem takeTrap_doubles {s : State} (t : Trap) (h : haBit s.th.rf = true ∨ s.th.rf.ffbase = 0) : takeTrap s t = doubleTrap s t := by
  rw [takeTrap, if_pos (by simpa using h)]
/-- The message of a double trap goes to the supervisor core of the context's partition (R376, R379). -/
theorem doubleTrap_message (s : State) (t : Trap) : ∃ (fid : W64) (seq : Nat),
    (doubleTrap s t).th.fault = some ⟨t.cause, t.addr, t.acc, fid⟩ ∧
    (doubleTrap s t).services = s.services ++ [{ ctx := (getPart s (getCtx s (myCtx s)).part).sup, core := (getPart s (getCtx s (myCtx s)).part).supCore,
                                                 data := of64 [fid, t.addr, t.acc, BitVec.ofNat 64 (t.cause + 256), BitVec.ofNat 64 seq],
                                                 turn := s.pktNum }] := by
  have part : (getCtx (setCtx s (myCtx s) { getCtx s (myCtx s) with evseq := (getCtx s (myCtx s)).evseq + 1 }) (myCtx s)).part =
      (getCtx s (myCtx s)).part := by rw [getCtx_setCtx]
  refine ⟨(newFault s (myCtx s) 5 s.here (myClu s)).1, ((getCtx s (myCtx s)).evseq + 1).toNat, rfl, ?_⟩
  rw [← part]
  rfl

/-- Settles O12: the words of the frame are read back by `saveFrame_word`, the entry goes through the check of trapvec, and a double trap
changes the thread set's state and tells the supervisor core. -/
theorem trapEntrySavesTheFrameOrStopsTheThreadSet : Obligations.TrapEntrySavesTheFrameOrStopsTheThreadSet := by
  refine ⟨fun s t ha frame => ?_, fun s t stops => ?_⟩
  · have word {i : Nat} (h : i < 16) := saveFrame_word s t 0 false h
    refine ⟨word (i := 0) (by decide), word (i := 1) (by decide), word (i := 2) (by decide), word (i := 3) (by decide), word (i := 4) (by decide),
      (word (i := 5) (by decide)).trans (frameFlags_toNat ..), word (i := 8) (by decide), fun o => saveFrame_outside s t 0 false,
      saveFrame_only s t 0 false, saveFrame_ctx s t 0 false, fun u ok => ⟨checkTarget_access ok, takeTrap_entered ha frame ok⟩,
      fun u refused => ⟨refused.elim checkTarget_bad checkTarget_linepar, takeTrap_refused ha frame refused⟩,
      takeTrap_untranslated ha frame⟩
  · obtain ⟨fid, seq, fault, services⟩ := doubleTrap_message s t
    dsimp only
    rw [takeTrap_doubles t stops]
    exact ⟨rfl, rfl, rfl, rfl, rfl, rfl, rfl, rfl, rfl, fun _ => rfl, fid, seq, _, services, fault, rfl⟩

end Machine
end Sys2Proof
end

section
/-! ### O13: trap instructions and returns -/
namespace Sys2Proof
namespace Machine

/-! #### Debug halt (R393) -/

/-- A halt that is complete stands where it was taken. -/
theorem haltDone_th (s : State) : (haltDone s).th = { s.th with st := .halted, halting := false } := by
  have merged := mergeAllU_th s (myClu s)
  unfold haltDone
  dsimp only
  split
  · exact congrArg (fun t : Thread => { t with st := .halted, halting := false }) merged
  · exact congrArg (fun t : Thread => { t with st := .halted, halting := false }) merged
/-- The thread set after a halt has been taken (R393). -/
theorem enterHalt_th (s : State) (pc : W64) (solo : Bool) (pt : Option W64) : let t := (enterHalt s pc solo pt).th
    t.pc = pc ∧ (haltReady s = true → t.st = .halted) ∧ (haltReady s = false → t.st = s.th.st ∧ t.halting = true) := by
  have same : haltReady (withTh s fun t => { t with pc := pc, solo := solo, ptgt := pt, res := .trapped, dstep := false, stage := 0, halting := true }) =
    haltReady s := rfl
  rw [enterHalt]
  dsimp only
  rw [same]
  cases haltReady s with
  | true =>
    rw [if_pos rfl, haltDone_th]
    exact ⟨rfl, fun _ => rfl, nofun⟩
  | false =>
    rw [if_neg Bool.false_ne_true]
    exact ⟨rfl, nofun, fun _ => ⟨rfl, rfl⟩⟩

/-! #### Returns (R129, R130) -/

/-- Eight bytes make a word. -/
theorem poolWord_toNat (p : AMap V512) (o : Nat) : (BitVec.ofNat 64 (ofBytes (poolBytesAt p o 8))).toNat = ofBytes (poolBytesAt p o 8) := by
  refine (BitVec.toNat_ofNat ..).trans (Nat.mod_eq_of_lt ?_)
  have short := ofBytes_lt (poolBytesAt p o 8)
  rwa [poolBytesAt, List.length_map, List.length_range] at short
theorem resumeFrame_resumed (s : State) (off : Nat) : ResumedFrom s (resumeFrame s off) off := by
  unfold ResumedFrom resumeFrame
  simp only [fieldOf, poolWord_toNat]
  rfl
/-- HA is clear once it has been cleared. -/
theorem haBit_cleared (r : Regs) : haBit { r with faultinfo := r.faultinfo &&& ~~~(0x8000 : W64) } = false := by
  have clear : (r.faultinfo &&& ~~~(0x8000 : W64)).getLsbD 15 = false := by
    rw [BitVec.getLsbD_and, BitVec.getLsbD_not]
    simp
  rw [haBit, bitOf_eq_testBit]
  exact clear

section
variable {s : State} {o : Bare} (on : pred0 s o.p = true)
include on

theorem execTret_resumes (ha : haBit (vw s) = true) : exec (.tret o) s = .next (resumeFrame s (vw s).ffbase.toNat) := by
  refine next_bit0Form (b' := .ok (resumeFrame s (vw s).ffbase.toNat)) on ?_
  rw [require, if_pos ha]
  rfl
theorem execTret_traps (ha : haBit (vw s) = false) : Traps (.tret o) s (trapOf cILLEGAL 0) := by
  refine next_bit0Form (b' := trapE cILLEGAL 0) on ?_
  rw [require, if_neg (by simp [ha])]
  rfl
end

section
variable {s : State} {o : SA1} (on : pred0 s o.p = true)
include on

theorem execUpret_misaligned (odd : (getS s o.a).toNat % 128 ≠ 0) : Traps (.upret o) s (trapOf cMISALIGN (getS s o.a)) := by
  refine next_bit0Form (b' := trapE cMISALIGN (getS s o.a)) on ?_
  dsimp only
  rw [require, if_neg (by simpa using odd)]
  rfl
variable (aligned : (getS s o.a).toNat % 128 = 0)
include aligned
theorem execUpret_outside (out : inScratch s.core (getS s o.a).toNat 128 = false) : Traps (.upret o) s (trapOf cBOUNDS (getS s o.a)) := by
  refine next_bit0Form (b' := trapE cBOUNDS (getS s o.a)) on ?_
  dsimp only
  rw [require, if_pos (by simpa using aligned), require, if_neg (by simp [out])]
  rfl
theorem execUpret_resumes (inside : inScratch s.core (getS s o.a).toNat 128 = true) :
    exec (.upret o) s = .next (resumeFrame s (getS s o.a).toNat) := by
  refine next_bit0Form (b' := .ok (resumeFrame s (getS s o.a).toNat)) on ?_
  dsimp only
  rw [require, if_pos (by simpa using aligned), require, if_pos inside]
  rfl
end

/-! #### A return from a trap (R129, R373) -/

/-- The entry of a trap sets HA: cause, transferred count, SLOT1 and BRK stand below it (R124). -/
theorem haBit_of_entry {r : Regs} {th : Thread} {t : Trap} (cause : t.cause < 256) (count : ∀ k, t.xfer = some k → k < 32)
    (h : r.faultinfo = faultInfoOf th t) : haBit r = true := by
  have short : t.xfer.getD 0 < 32 := by
    cases hx : t.xfer with
    | none => decide
    | some k => exact count k hx
  have slot : bit th.slot1 ≤ 1 := by cases th.slot1 <;> decide
  have brk : bit t.brk ≤ 1 := by cases t.brk <;> decide
  rw [haBit, h, faultInfoOf, BitVec.toNat_ofNat, bitOf]
  simp only [beq_iff_eq]
  omega
theorem bitOf_frameFlags (a b c : Bool) : bitOf (bit a + 2 * bit b + 4 * bit c) 0 = a ∧ bitOf (bit a + 2 * bit b + 4 * bit c) 1 = b := by
  cases a <;> cases b <;> cases c <;> exact ⟨rfl, rfl⟩
/-- The words of a saved frame that a return reads (R129). -/
theorem saveFrame_restart (s : State) (t : Trap) : let p := (saveFrame s t 0 false).core.pool
    ofBytes (poolBytesAt p (s.th.rf.ffbase.toNat + 8 * 0) 8) = (restartOf s.th t.next).1.toNat ∧
    ofBytes (poolBytesAt p (s.th.rf.ffbase.toNat + 8 * 1) 8) = ((restartOf s.th t.next).2.2.getD 0).toNat ∧
    ofBytes (poolBytesAt p (s.th.rf.ffbase.toNat + 8 * 5) 8) = bit (restartOf s.th t.next).2.2.isSome + 2 * bit (restartOf s.th t.next).2.1 + 4 * bit t.xfer.isSome := by
  have word {i : Nat} (hi : i < 16) := saveFrame_word s t 0 false hi
  exact ⟨word (i := 0) (by decide), word (i := 1) (by decide), (word (i := 5) (by decide)).trans (frameFlags_toNat ..)⟩
/-- Where a return restarts, from the words that it reads. -/
theorem ResumedFrom.restart {s r : State} {off at_ target flags : Nat} (h : ResumedFrom s r off)
    (h0 : ofBytes (poolBytesAt s.core.pool (off + 8 * 0) 8) = at_) (h1 : ofBytes (poolBytesAt s.core.pool (off + 8 * 1) 8) = target)
    (h5 : ofBytes (poolBytesAt s.core.pool (off + 8 * 5) 8) = flags) :
    r.th.pc = BitVec.ofNat 64 at_ ∧ r.th.solo = bitOf flags 1 ∧ r.th.ptgt = if bitOf flags 0 then some (BitVec.ofNat 64 target) else none := by
  subst h0 h1 h5
  rw [h]
  exact ⟨rfl, rfl, rfl⟩
/-- The frame of a trap, resumed from where it was saved, restarts at the trap's restart address. -/
theorem resumeFrame_restarts {s h : State} {t : Trap} (pool : h.core.pool = (saveFrame s t 0 false).core.pool) :
    let r := resumeFrame h s.th.rf.ffbase.toNat
    r.th.pc = (restartOf s.th t.next).1 ∧ r.th.solo = (restartOf s.th t.next).2.1 ∧ r.th.ptgt = (restartOf s.th t.next).2.2 := by
  obtain ⟨at_, target, flags⟩ := saveFrame_restart s t
  rw [← pool] at at_ target flags
  obtain ⟨pc, solo, ptgt⟩ := (resumeFrame_resumed h s.th.rf.ffbase.toNat).restart at_ target flags
  obtain ⟨pending, alone⟩ := bitOf_frameFlags (restartOf s.th t.next).2.2.isSome (restartOf s.th t.next).2.1 t.xfer.isSome
  have back (w : W64) : BitVec.ofNat 64 w.toNat = w := (BitVec.ofNat_toNat ..).trans (BitVec.setWidth_eq w)
  refine ⟨pc.trans (back _), solo.trans alone, ptgt.trans ?_⟩
  rw [pending]
  cases (restartOf s.th t.next).2.2 with
  | none => rfl
  | some p => exact congrArg some (back p)

/-! #### Traps -/

/-- What `trap`, `sysc` and `brk` without a debug halt do. -/
theorem execTrap_traps {o : Code} {s : State} (on : pred0 s o.p = true) {i : Instr} {c : Nat} {b : Bool}
    (form : (i = .trap o ∧ c = 0x50 ∧ b = false) ∨ (i = .sysc o ∧ c = 0x51 ∧ b = false) ∨
      (i = .brk o ∧ c = 0x50 ∧ b = true ∧ bitOf (getCtx s (myCtx s)).dbgctl.toNat 0 = false)) :
    Traps i s (softTrap c o.code.toNat b) := by
  obtain ⟨rfl, rfl, rfl⟩ | ⟨rfl, rfl, rfl⟩ | ⟨rfl, rfl, rfl, plain⟩ := form
  · exact next_bit0Form (b' := .error (.trap (softTrap 0x50 o.code.toNat false))) on rfl
  · exact next_bit0Form (b' := .error (.trap (softTrap 0x51 o.code.toNat false))) on rfl
  · exact next_bit0Form (b' := .error (.trap (softTrap 0x50 o.code.toNat true))) on (if_neg (by simp [plain]))
theorem AccessOnly.rf {s t : State} (h : AccessOnly s t) : t.th.rf = s.th.rf := by rw [h.1]

/-- Settles O13: a trap form is its precise trap, whose entry O12's laws describe; a return is `resumeFrame`. -/
theorem trapInstructionsTrapAndReturnsResume : Obligations.TrapInstructionsTrapAndReturnsResume := by
  refine ⟨⟨fun o s on i c b form => ?_, fun o s on enabled => ?_, fun o => ⟨skips_of fun _ => rfl, skips_of fun _ => rfl, skips_of fun _ => rfl⟩⟩,
    fun o s on ha => ⟨_, execTret_resumes on ha, resumeFrame_resumed ..⟩, fun o s on ha => execTret_traps on ha,
    fun o s on => ⟨fun aligned inside => ⟨_, execUpret_resumes on aligned inside, resumeFrame_resumed ..⟩, execUpret_misaligned on,
      execUpret_outside on⟩, fun o => skips_of fun _ => rfl, fun o => skips_of fun _ => rfl,
    fun s h t o cause count ha frame on base info pool => ?_⟩
  · have traps := execTrap_traps on form
    refine ⟨traps, fun ha frame u ok => ⟨_, traps.trans (congrArg _ (takeTrap_entered ha frame ok)), rfl, ?_, ?_⟩⟩
    · exact congrArg Regs.faultaddr (checkTarget_access ok).rf
    · exact congrArg Regs.faultinfo (checkTarget_access ok).rf
  · obtain ⟨pc, halts, waits⟩ := enterHalt_th s s.th.ipc s.th.slot1 (if s.th.slot1 then s.th.ptgt else none)
    exact ⟨_, next_bit0Form (b' := .ok _) on (if_pos enabled), pc, halts, waits⟩
  · have resumes := execTret_resumes on (haBit_of_entry cause count info)
    rw [base] at resumes
    exact ⟨_, resumes, haBit_cleared _, resumeFrame_restarts pool⟩

end Machine
end Sys2Proof
end

section
/-! ### O19: stores -/
namespace Sys2Proof
namespace Machine

/-! #### The issue of one store (R117, R242, R280) -/

section
variable {s u : State} {ea : W64} {x : Xl} (n : Nat) (l : List (Nat × Byte))

theorem storeC_pool (window : inPoolWindow ea.toNat = true) :
    storeC s ea n l = if l.all fun e => poolOk s.core s.th.act (poolOff ea + e.1) 1 then
      .ok (issueC s (poolReq (poolOff ea) .store ea (l.map fun e => (poolOff ea + e.1, e.2)) 0))
    else .error (.trap (trapAcc cBOUNDS ea (accWord .C true false n))) := by
  rw [storeC, if_pos window]
  rfl
theorem storeC_memory (outside : inPoolWindow ea.toNat = false) :
    storeC s ea n l = xlateE s .write false ea (accWord .C true false n) >>= fun r =>
      .ok (issueC r.2 (memReq r.1 .store ea (l.map fun e => (r.1.pa + e.1, e.2)) 0)) := by
  rw [storeC, if_neg (by simp [outside])]
theorem storeC_translated (outside : inPoolWindow ea.toNat = false) (ok : xlateCore s .write false ea.toNat = .ok x u) :
    storeC s ea n l = .ok (issueC u (memReq x .store ea (l.map fun e => (x.pa + e.1, e.2)) 0)) := by
  rw [storeC_memory n l outside, xlateE_ok ok]
  rfl
end
theorem AccessOnly.memory {s t : State} (h : AccessOnly s t) (quiet : s.NoUCopies) : SameMemory s t := sameMemory_of (h.2.2 quiet).2.1 h.host

/-! #### A store of the pool window is performed (R242, R281) -/

/-- The last byte listed for an offset is the one that stands. -/
theorem poolByte_poolPutAll_last (p : AMap V512) (k m : List (Nat × Byte)) (e : Nat × Byte) (last : ∀ x ∈ m, x.1 ≠ e.1) :
    poolByte (poolPutAll p (k ++ e :: m)) e.1 = e.2 := by
  rw [poolPutAll_append, show poolPutAll (poolPutAll p k) (e :: m) = poolPutAll (poolPut (poolPutAll p k) e.1 e.2) m from rfl,
    poolByte_poolPutAll_other _ last, poolByte_poolPut, if_pos rfl]
theorem poolAccess_stores {s : State} {r : CReq} {l : List CReq} (oldest : s.th.creqs = r :: l) (store : r.kind = .store) :
    PoolStored (poolStored { s with th := { s.th with creqs := l } }) (poolAccess r s) r.bytes := by
  have performed : poolAccess r s = withCore (poolStored { s with th := { s.th with creqs := l } })
      fun c => { c with pool := poolPutAll c.pool r.bytes } := by
    rw [poolAccess, store, if_neg (by simp [CKind.isRead]), show l = s.th.creqs.drop 1 by rw [oldest]; rfl]
    rfl
  rw [performed]
  refine ⟨rfl, fun o out => poolByte_poolPutAll_other _ out, ?_⟩
  rintro k e m bytes last
  rw [withCore_core, bytes]
  exact poolByte_poolPutAll_last _ k m e last
theorem evAccess_pool_stored {s : State} {r : CReq} {l : List CReq} (oldest : s.th.creqs = r :: l) (store : r.kind = .store)
    (pool : r.pool = true) :
    ∃ t, evAccess s.here s = some t ∧ PoolStored (poolStored { s with th := { s.th with creqs := l } }) t r.bytes := by
  have stored := poolAccess_stores oldest store
  have here : (poolAccess r s).here = s.here := by rw [stored.1]; rfl
  exact ⟨_, (evAccess_pool oldest pool).trans (congrArg some ((congrArg (focus _) here.symm).trans (focus_here _))), stored⟩

/-! #### A scalar store (R118) -/

section
variable {o : MemS} {s : State} (on : pred0 s o.p = true)
include on

/-- A scalar store whose predicate is set is its address check, then its access. -/
theorem execSt_body : exec (.st o) s = .next (runBody s (do
    alignCheck (getS s o.a + BitVec.ofInt 64 o.disp.toInt) (o.t.w / 8) (accWord .C true false (o.t.w / 8))
    storeC s (getS s o.a + BitVec.ofInt 64 o.disp.toInt) (o.t.w / 8) (atAddr 0 (toBytes (o.t.w / 8) (getS s o.d).toNat)))) := by
  refine next_bit0Form on ?_
  rw [effAddr_eq]
theorem execSt_misaligned (odd : (getS s o.a + BitVec.ofInt 64 o.disp.toInt).toNat % (o.t.w / 8) ≠ 0) :
    Traps (.st o) s (trapAcc cMISALIGN (getS s o.a + BitVec.ofInt 64 o.disp.toInt) (accWord .C true false (o.t.w / 8))) := by
  rw [Traps, execSt_body on, alignCheck_odd _ odd]
  rfl
theorem execSt_stores (aligned : (getS s o.a + BitVec.ofInt 64 o.disp.toInt).toNat % (o.t.w / 8) = 0) :
    Runs (.st o) s (storeC s (getS s o.a + BitVec.ofInt 64 o.disp.toInt) (o.t.w / 8) (atAddr 0 (toBytes (o.t.w / 8) (getS s o.d).toNat))) := by
  refine runs_of ?_
  rw [execSt_body on, alignCheck_ok _ aligned]
  rfl
end

/-! #### A vector store (R119) -/

/-- A field of a field of a number. -/
theorem bitsOf_bitsOf (x lo len i n : Nat) (h : i + n ≤ len) : bitsOf (bitsOf x lo len) i n = bitsOf x (lo + i) n := by
  simp only [bitsOf]
  apply Nat.eq_of_testBit_eq
  intro k
  simp only [Nat.testBit_mod_two_pow, Nat.testBit_div_two_pow]
  by_cases hk : k < n
  · simp [hk, show k + i < len by omega, show k + i + lo = k + (lo + i) by omega]
  · simp [hk]
/-- A byte of a lane is a byte of the register (R90). -/
theorem laneByte (v : V512) (l : Nat) {i : Nat} (h : i < 4) : bitsOf (lane v l) (8 * i) 8 = elem 8 v (4 * l + i) := by
  rw [lane, elem, bitsOf_bitsOf _ _ _ _ _ (by omega), elem, show 8 * (4 * l + i) = 32 * l + 8 * i by omega]
theorem mem_atAddr_iff (o a : Nat) (b : Byte) (l : List Byte) : (a, b) ∈ atAddr o l ↔ ∃ i, a = o + i ∧ l[i]? = some b := by
  constructor
  · intro h
    obtain ⟨i, hi, e⟩ := List.mem_iff_getElem.mp h
    simp [atAddr] at e hi
    exact ⟨i, e.1.symm, by simp [← e.2, hi]⟩
  · rintro ⟨i, rfl, hb⟩
    obtain ⟨hi, rfl⟩ := List.getElem?_eq_some_iff.mp hb
    exact mem_atAddr o l hi
/-- The bytes of a vector store are those of the active lanes, each once. -/
theorem mem_laneBytes (pv : W16) (v : V512) (a : Nat) (b : Byte) :
    (a, b) ∈ laneBytes pv v ↔ a < 64 ∧ laneOn pv (a / 4) = true ∧ b = BitVec.ofNat 8 (elem 8 v a) := by
  simp only [laneBytes, List.mem_flatMap, List.mem_range]
  constructor
  · rintro ⟨l, hl, mem⟩
    split at mem
    · next active =>
      obtain ⟨i, rfl, hb⟩ := (mem_atAddr_iff ..).mp mem
      obtain ⟨hi, rfl⟩ := List.getElem?_eq_some_iff.mp hb
      rw [toBytes_length] at hi
      rw [show (4 * l + i) / 4 = l by omega]
      exact ⟨by omega, active, by simp [toBytes, laneByte v l hi]⟩
    · exact absurd mem List.not_mem_nil
  · rintro ⟨ha, active, rfl⟩
    refine ⟨a / 4, by omega, ?_⟩
    rw [if_pos active]
    have hi : a % 4 < 4 := Nat.mod_lt _ (by decide)
    refine (mem_atAddr_iff ..).mpr ⟨a % 4, by omega, ?_⟩
    simp [toBytes, hi, laneByte v (a / 4) hi, show 4 * (a / 4) + a % 4 = a by omega]

section
variable {o : MemV} {s : State} (on : anyOn (predVal s o.p) 32 = true) (ready : queuesReady s [o.d] none = true) (inside : vopOk s o.d = true)
include on ready inside

theorem execVst_body : exec (.vst o) s = .next (runBody s (do
    alignCheck (getS s o.a + BitVec.ofInt 64 o.disp.toInt) 64 (accWord .C true false 64)
    storeC (readV s o.d).2 (getS s o.a + BitVec.ofInt 64 o.disp.toInt) 64 (laneBytes (predVal s o.p) (readV s o.d).1))) := by
  refine next_elemForm on ?_
  rw [vecChecks_ok ready (by simp [inside]), effAddr_eq]
  rfl
theorem execVst_misaligned (odd : (getS s o.a + BitVec.ofInt 64 o.disp.toInt).toNat % 64 ≠ 0) :
    Traps (.vst o) s (trapAcc cMISALIGN (getS s o.a + BitVec.ofInt 64 o.disp.toInt) (accWord .C true false 64)) := by
  rw [Traps, execVst_body on ready inside, alignCheck_odd _ odd]
  rfl
theorem execVst_stores (aligned : (getS s o.a + BitVec.ofInt 64 o.disp.toInt).toNat % 64 = 0) :
    Runs (.vst o) s (storeC (readV s o.d).2 (getS s o.a + BitVec.ofInt 64 o.disp.toInt) 64 (laneBytes (predVal s o.p) (readV s o.d).1)) := by
  refine runs_of ?_
  rw [execVst_body on ready inside, alignCheck_ok _ aligned]
  rfl
end

/-! #### A scatter (R157) -/

/-- Active elements that all lie in the page of an aligned address pass the checks of R157. -/
theorem lineSetChecks_ok {ea : W64} {w : Nat} {idx : V512} {act : List Nat} (acc : W64) (aligned : ea.toNat % (w / 8) = 0)
    (inside : ∀ e ∈ act, laneAddr ea w idx e < ea.toNat / 4096 * 4096 + 4096) : lineSetChecks ea w idx act acc = .ok () := by
  have none : (act.find? fun n => decide (ea.toNat / 4096 * 4096 + 4096 ≤ laneAddr ea w idx n)) = none := by
    rw [List.find?_eq_none]
    intro e he
    simpa using inside e he
  rw [lineSetChecks, alignCheck_ok _ aligned, none]
  rfl
theorem vscatForm_stores {o : VGs} {s : State} (on : anyOn (predVal s o.p) o.t.w = true) (ready : queuesReady s [o.b, o.d] none = true)
    (index : vopOk s o.b = true) (data : vopOk s o.d = true) :
    let ea := getS s o.a + BitVec.ofInt 64 o.disp.toInt
    let n := o.t.w / 8
    let x := readV s o.b
    let d := readV x.2 o.d
    ea.toNat % n = 0 →
    (∀ e < 512 / o.t.w, elemOn (predVal s o.p) o.t.w e = true → ea.toNat + elem o.t.w x.1 e * n < ea.toNat / 4096 * 4096 + 4096) →
    vscatForm o s = runBody s (storeC d.2 ea n (((List.range (512 / o.t.w)).filter fun e => elemOn (predVal s o.p) o.t.w e).flatMap
      fun e => atAddr (elem o.t.w x.1 e * n) (toBytes n (elem o.t.w d.1 e)))) := by
  intro ea n x d aligned page
  have checks : lineSetChecks ea o.t.w x.1 (activeElems (predVal s o.p) o.t.w) (accWord .C true false n) = .ok () := by
    refine lineSetChecks_ok _ aligned fun e he => ?_
    obtain ⟨range, active⟩ := List.mem_filter.mp he
    exact page e (List.mem_range.mp range) active
  have distance (e : Nat) : laneAddr ea o.t.w x.1 e - ea.toNat = elem o.t.w x.1 e * n := by rw [laneAddr, Nat.add_sub_cancel_left]
  rw [vscatForm, elemForm, if_pos on, vecChecks_ok ready (by simp [index, data]), effAddr_eq]
  refine congrArg (runBody s) ?_
  change (lineSetChecks ea o.t.w x.1 (activeElems (predVal s o.p) o.t.w) (accWord .C true false n) >>= fun _ => _) = _
  rw [checks]
  simp only [← distance]
  rfl

/-! #### Blocks of registers (R120) -/

section
variable {o : MemM} {write : Bool} {loop : W64 → List Nat → State → State} {s : State} (on : pred0 s o.p = true)
include on

theorem blockForm_out (out : vopOk s o.d = false) : blockForm o write loop s = takeTrap s (trapOf cBOUNDS 0) := by
  rw [blockForm, if_neg (by simp [on]), if_pos (by simp [out])]
  rfl
variable (inside : vopOk s o.d = true)
include inside

theorem blockForm_empty (empty : (getS s o.b).toNat = 0) : blockForm o write loop s = s := by
  rw [blockForm, if_neg (by simp [on])]
  dsimp only
  rw [if_neg (by simp [inside]), if_pos empty]
variable (regs : (getS s o.b).toNat ≠ 0)
include regs

theorem blockForm_leaves (out : blockRange s o.d (getS s o.b).toNat = false) : blockForm o write loop s = takeTrap s (trapOf cBOUNDS 0) := by
  rw [blockForm, if_neg (by simp [on])]
  dsimp only
  rw [if_neg (by simp [inside]), if_neg regs, if_pos (by simp [out])]
  rfl
variable (range : blockRange s o.d (getS s o.b).toNat = true)
include range

theorem blockForm_misaligned (odd : (getS s o.a + BitVec.ofInt 64 o.disp.toInt).toNat % 64 ≠ 0) : blockForm o write loop s =
    takeTrap s (trapAcc cMISALIGN (getS s o.a + BitVec.ofInt 64 o.disp.toInt) (accWord .C write false 64)) := by
  rw [blockForm, if_neg (by simp [on])]
  dsimp only
  rw [if_neg (by simp [inside]), if_neg regs, if_neg (by simp [range]), effAddr_eq, alignCheck_odd _ odd]
  rfl
/-- A block in its file goes through its transfers from XFER on. -/
theorem blockForm_loops (aligned : (getS s o.a + BitVec.ofInt 64 o.disp.toInt).toNat % 64 = 0) : blockForm o write loop s =
    loop (getS s o.a + BitVec.ofInt 64 o.disp.toInt) ((List.range (getS s o.b).toNat).drop (s.th.xfer.getD 0)) s := by
  rw [blockForm, if_neg (by simp [on])]
  dsimp only
  rw [if_neg (by simp [inside]), if_neg regs, if_neg (by simp [range]), effAddr_eq, alignCheck_ok _ aligned]
end

section
variable {o : MemM} {ea : W64} {s : State}

/-- The value of a register of a stored block, as it stood before the instruction (R45, R120). -/
def blockData (s : State) (d : VDst) : V512 := match d with
  | .base n => (vw s).v[n]
  | .ext k => poolBlock (vwPool s) (extBlock s.core (s.here % 4) k)
  | .queue _ => 0
/-- The store of register `j` of a block. -/
def blockStore (o : MemM) (ea : W64) (s : State) (j : Nat) (t : State) : Except Stop State :=
  storeC t (ea + BitVec.ofNat 64 (64 * j)) 64 (atAddr 0 (toBytes 64 (blockData s (blockReg s o.d j)).toNat))

theorem vstmLoop_cons (j : Nat) (l : List Nat) (t : State) : vstmLoop o ea s (j :: l) t = match blockStore o ea s j t with
    | .ok u => vstmLoop o ea s l u
    | .error x => blockStop t x j := rfl
/-- Stores that issue, one after the other. -/
theorem vstmLoop_append (f : Nat → State) (l : List Nat) {n m : Nat} (h : ∀ j, n ≤ j → j < n + m → blockStore o ea s j (f j) = .ok (f (j + 1))) :
    vstmLoop o ea s (List.range' n m ++ l) (f n) = vstmLoop o ea s l (f (n + m)) := by
  induction m generalizing n with
  | zero => rfl
  | succ m ih =>
    rw [List.range'_succ, List.cons_append, vstmLoop_cons, h n (Nat.le_refl n) (by omega)]
    exact (ih fun j lo hi => h j (by omega) (by omega)).trans (by rw [show n + 1 + m = n + (m + 1) by omega])
end

section
variable {o : MemM} {s : State} (on : pred0 s o.p = true) (inside : vopOk s o.d = true) (regs : (getS s o.b).toNat ≠ 0)
  (range : blockRange s o.d (getS s o.b).toNat = true) (aligned : (getS s o.a + BitVec.ofInt 64 o.disp.toInt).toNat % 64 = 0)
include on inside regs range aligned

/-- The stores from XFER up to `n` issue: the rest of the block goes on from there. -/
theorem execVstm_goes {f : Nat → State} {n : Nat} (start : f (s.th.xfer.getD 0) = s) (lo : s.th.xfer.getD 0 ≤ n) (hi : n ≤ (getS s o.b).toNat)
    (h : ∀ j, s.th.xfer.getD 0 ≤ j → j < n → blockStore o (getS s o.a + BitVec.ofInt 64 o.disp.toInt) s j (f j) = .ok (f (j + 1))) :
    exec (.vstm o) s = .next
      (vstmLoop o (getS s o.a + BitVec.ofInt 64 o.disp.toInt) s (List.range' n ((getS s o.b).toNat - n)) (f n)) := by
  have stores := vstmLoop_append f (List.range' n ((getS s o.b).toNat - n)) (m := n - s.th.xfer.getD 0) fun j hj hn => h j hj (by omega)
  rw [start, show s.th.xfer.getD 0 + (n - s.th.xfer.getD 0) = n by omega, ← drop_range lo hi] at stores
  rw [← stores]
  exact congrArg Host.Outcome.next (blockForm_loops on inside regs range aligned)
/-- The store of register `n` stops the block, with its index in XFER (R120). -/
theorem execVstm_stops {f : Nat → State} {n : Nat} (start : f (s.th.xfer.getD 0) = s) (lo : s.th.xfer.getD 0 ≤ n) (hi : n < (getS s o.b).toNat)
    (h : ∀ j, s.th.xfer.getD 0 ≤ j → j < n → blockStore o (getS s o.a + BitVec.ofInt 64 o.disp.toInt) s j (f j) = .ok (f (j + 1))) {x : Stop}
    (stop : blockStore o (getS s o.a + BitVec.ofInt 64 o.disp.toInt) s n (f n) = .error x) :
    exec (.vstm o) s = .next (blockStop (f n) x n) := by
  have left : List.range' n ((getS s o.b).toNat - n) = n :: List.range' (n + 1) ((getS s o.b).toNat - n - 1) := by
    rw [← List.range'_succ, show (getS s o.b).toNat - n - 1 + 1 = (getS s o.b).toNat - n by omega]
  rw [execVstm_goes on inside regs range aligned start lo (Nat.le_of_lt hi) h, left, vstmLoop_cons, stop]
end

/-- Settles O19: what issues stands in the equation of `storeC`; a store form is its checks, then that; a block is the loop of its stores. -/
theorem storesReachThePoolOrWaitForTheirHome : Obligations.StoresReachThePoolOrWaitForTheirHome := by
  refine ⟨fun s ea n l window => ⟨fun ok => ?_, fun bad => ?_⟩, fun s r l => evAccess_pool_stored, fun s ea n l outside =>
    ⟨fun x u ok => ?_, fun page => ?_, fun perm => ?_⟩, fun o s on => ⟨execSt_misaligned on, execSt_stores on⟩,
    fun o s on ready inside => ⟨execVst_misaligned on ready inside, fun aligned => ?_⟩,
    fun o s i form on ready index data aligned page => ?_, fun o s on => ?_, fun o => skips_of fun _ => rfl,
    fun o s off => next_elemForm_off off, fun o s off => congrArg Host.Outcome.next (if_pos (by simp [off])),
    fun o => ⟨fun s off => next_elemForm_off off, fun s off => next_elemForm_off off⟩⟩
  · exact ⟨_, _, (storeC_pool n l window).trans (if_pos ok), rfl, rfl, rfl, rfl⟩
  · exact (storeC_pool n l window).trans (if_neg (by simp [bad]))
  · have only := xlateCore_only ok
    exact ⟨only, _, _, storeC_translated n l outside ok, rfl, fun quiet => only.1.memory quiet, rfl, rfl, rfl, rfl, rfl, rfl, rfl⟩
  · rw [storeC_memory n l outside, xlateE_page page]
    rfl
  · rw [storeC_memory n l outside, xlateE_perm perm]
    rfl
  · exact ⟨_, mem_laneBytes _ _, execVst_stores on ready inside aligned⟩
  · have scatters : exec i s = .next (vscatForm o s) := by obtain rfl | rfl := form <;> rfl
    exact runs_of (scatters.trans (congrArg _ (vscatForm_stores on ready index data aligned page)))
  · refine ⟨fun out => congrArg _ (blockForm_out on out), fun inside empty => congrArg _ (blockForm_empty on inside empty),
      fun inside regs out => congrArg _ (blockForm_leaves on inside regs out),
      fun inside regs range odd => congrArg _ (blockForm_misaligned on inside regs range odd),
      fun inside before range aligned f start stores => ?_, fun inside before range aligned f n start lo hi stores => ?_⟩
    · rw [execVstm_goes on inside (by omega) range aligned start (Nat.le_of_lt before) (Nat.le_refl _) stores, Nat.sub_self]
      rfl
    · have stops {x : Stop} := execVstm_stops on inside (by omega) range aligned start lo hi stores (x := x)
      exact ⟨fun y stop => stops stop, fun y stop => stops stop⟩

end Machine
end Sys2Proof
end

section
/-! ### O14: special-register moves -/
namespace Sys2Proof
namespace Machine

/-- Every number below 0x16 is a register of the table of R123. -/
theorem readSpec_assigned (s : State) {n : Nat} (h : n < 0x16) : ∃ v, readSpec s n = some v := by
  interval_cases n <;> exact ⟨_, rfl⟩
theorem readSpec_unassigned (s : State) {n : Nat} (h : 0x16 ≤ n) : readSpec s n = none := by
  unfold readSpec
  dsimp only
  split
  case h_23 => rfl
  all_goals exact absurd h (by decide)
/-- CLUSTER names die, cluster, row and column, of which each follows from the thread set's number (R16). -/
theorem readSpec_cluster (s : State) : readSpec s 0x002 =
    some (BitVec.ofNat 64 ((let k := s.here / 32; (k % 24 / 8 + 3 * (k / 24 / 6)) * 2 ^ 25 + k * 2 ^ 16 + k / 24 * 2 ^ 8 + k % 24))) := by
  have cluster : myClu s = s.here / 32 := Nat.div_div_eq_div_mul ..
  rw [← cluster]
  rfl
/-- A privileged register is read for a context of this partition; for another its number reads as 0 (R352). -/
theorem readPriv_assigned {s : State} {n : Nat} {w : W64} {z : Option W64} (known : n ∈ privNums)
    (own : readPriv s n = if n ≠ 0x800 ∧ (getCtx s s.th.csel).part ≠ myPart s then z else some w) :
    readPriv s n = some (if n = 0x800 ∨ (getCtx s s.th.csel).part = myPart s then w else 0) := by
  by_cases h : n = 0x800 ∨ (getCtx s s.th.csel).part = myPart s
  · rw [own, if_neg (by tauto), if_pos h]
  · refine (if_pos (by tauto)).trans ?_
    rw [if_pos (List.contains_iff_mem.mpr known), if_neg h]
theorem readPriv_unassigned (s : State) {n : Nat} (h : privNums.contains n = false) : readPriv s n = none := by
  unfold readPriv
  dsimp only
  split
  · rw [h]
    rfl
  · split
    case h_17 => rfl
    all_goals exact absurd h (by decide)

/-- The conditions of R123 on a written value, register by register. -/
theorem writeSpecRf_eq (c : CoreSt) (r : Regs) {n : BitVec 12} (h : n.toNat < 0x16) (v : W64) :
    let x := v.toNat % 2 ^ 32
    writeSpecRf c r n.toNat v = { r with
      frame := if n = 0x004 then v else r.frame
      flags := if n = 0x008 then v &&& 31 else r.flags
      mtol := if n = 0x00B ∧ x < 0x7F800000 then BitVec.ofNat 64 x else r.mtol
      mrmax := if n = 0x00C ∧ 1 ≤ v.toNat % 64 ∧ v.toNat % 64 ≤ 32 then BitVec.ofNat 64 (v.toNat % 64) else r.mrmax
      ivstop := if n = 0x00D ∧ 0 < x ∧ x ≤ 0x7F800000 then BitVec.ofNat 64 x else r.ivstop
      mweight := if n = 0x00E ∧ 1 ≤ v.toNat % 16 ∧ v.toNat % 16 ≤ 8 then BitVec.ofNat 64 (v.toNat % 16) else r.mweight
      rngkey := if n = 0x00F then v else r.rngkey
      trapvec := if n = 0x010 then v else r.trapvec
      upvec := if n = 0x011 then v else r.upvec
      ffbase := if n = 0x012 ∧ ffbaseOk c v.toNat then v else r.ffbase
      faultinfo := if n = 0x012 then r.faultinfo &&& ~~~(0x8000 : W64) else r.faultinfo } := by
  obtain ⟨k, low, rfl⟩ : ∃ k, k < 0x16 ∧ n = BitVec.ofNat 12 k := ⟨n.toNat, h, ((BitVec.ofNat_toNat ..).trans (BitVec.setWidth_eq n)).symm⟩
  interval_cases k <;> simp [writeSpecRf, mtolOk, ivstopOk, inf32, clearHA, fieldOf, bitsOf] <;> split <;> simp_all

/-- The register that `mfs` names, where the mode may read it (R123, R353). -/
def mfsValue (s : State) (n : Nat) : Option W64 :=
  if n < 0x800 then readSpec s n else if supMode s then readPriv s n else none
/-- `mfs` writes what it reads, or traps ILLEGAL. -/
theorem execMfs_eq {o : MfsO} {s : State} (on : pred0 s o.p = true) : exec (.mfs o) s = .next (match mfsValue s o.num.toNat with
    | some v => setS s o.d v
    | none => takeTrap s (trapOf cILLEGAL 0)) := by
  refine (congrArg Host.Outcome.next (bit0Form_true _ on)).trans ?_
  dsimp only
  rw [← mfsValue]
  cases mfsValue s o.num.toNat <;> rfl

section
variable {o : MfsO} {s : State} (on : pred0 s o.p = true)
include on

theorem execMfs_reads {v : W64} (h : mfsValue s o.num.toNat = some v) : exec (.mfs o) s = .next (setS s o.d v) := by rw [execMfs_eq on, h]
theorem execMfs_traps (h : mfsValue s o.num.toNat = none) : Traps (.mfs o) s (trapOf cILLEGAL 0) := by rw [Traps, execMfs_eq on, h]
theorem execMfs_readsPriv (sup : supMode s = true) {k : BitVec 12} {w : W64} {z : Option W64} (known : k.toNat ∈ privNums)
    (own : readPriv s k.toNat = if k.toNat ≠ 0x800 ∧ (getCtx s s.th.csel).part ≠ myPart s then z else some w) (e : o.num = k) :
    ∃ t, exec (.mfs o) s = .next t ∧ WroteS s t o.d (if o.num = 0x800 ∨ (getCtx s s.th.csel).part = myPart s then w else 0) := by
  have privileged : ∀ n ∈ privNums, ¬ n < 0x800 := by decide
  have same : k = 0x800 ↔ k.toNat = 0x800 := BitVec.toNat_eq
  refine ⟨_, execMfs_reads on ?_, setS_wrote ..⟩
  rw [mfsValue, e, if_neg (privileged _ known), if_pos sup, readPriv_assigned known own]
  simp only [same]
end

/-- `mts` of an assigned number writes the register file. -/
theorem execMts_writes {o : MtsO} {s : State} (on : pred0 s o.p = true) (h : o.num.toNat < 0x16) :
    exec (.mts o) s = .next (writeSpec s o.num.toNat (getS s o.a)) := by
  refine next_bit0Form (b' := .ok _) on ?_
  rw [require, if_pos (decide_eq_true h)]
  rfl
theorem execMts_traps {o : MtsO} {s : State} (on : pred0 s o.p = true) (h : 0x16 ≤ o.num.toNat) : Traps (.mts o) s (trapOf cILLEGAL 0) := by
  refine next_bit0Form (b' := trapE cILLEGAL 0) on ?_
  rw [require, if_neg (by simpa using h)]
  rfl

/-- Settles O14: reads go through `readSpec` and `readPriv`, a write is `writeSpecRf` of the register file. -/
theorem specialRegisterMovesFollowTheTable : Obligations.SpecialRegisterMovesFollowTheTable := by
  refine ⟨fun o s on low => ?_, fun o s on sup => ?_, fun o s on bad => execMfs_traps on ?_,
    fun o s on low => ⟨_, execMts_writes on low, rfl, writeSpecRf_eq _ _ low _⟩, fun o s on high => execMts_traps on high,
    fun o => registerResult_of fun _ => rfl, fun o => skips_of fun _ => rfl, fun o => skips_of fun _ => rfl⟩
  · obtain ⟨v, reads⟩ := readSpec_assigned s low
    have value {k : BitVec 12} {w : W64} (table : readSpec s k.toNat = some w) (e : o.num = k) : v = w := by
      rw [e, table] at reads
      exact (Option.some.inj reads).symm
    exact ⟨_, v, execMfs_reads on ((if_pos (by omega)).trans reads), setS_wrote .., value rfl, value rfl, value (readSpec_cluster s), value rfl,
      value rfl, value rfl, value rfl, value rfl, value rfl, value rfl, value rfl, value rfl, value rfl, value rfl, value rfl, value rfl, value rfl,
      value rfl, value rfl, value rfl, value rfl, value rfl⟩
  · have reads {k : BitVec 12} {w : W64} {z : Option W64} := execMfs_readsPriv on sup (k := k) (w := w) (z := z)
    refine ⟨reads (z := none) (by decide) rfl, reads (by decide) rfl, reads (by decide) rfl, reads (by decide) rfl, reads (by decide) rfl, reads (by decide) rfl,
      reads (by decide) rfl, reads (by decide) rfl, reads (by decide) rfl, reads (by decide) rfl, reads (by decide) rfl, reads (by decide) rfl,
      reads (by decide) rfl, reads (by decide) rfl, reads (by decide) rfl, reads (by decide) rfl, fun high other => execMfs_traps on ?_⟩
    rw [mfsValue, if_neg (by omega), if_pos sup, readPriv_unassigned s other]
  · obtain ⟨high, low⟩ | ⟨high, user⟩ := bad
    · rw [mfsValue, if_pos low, readSpec_unassigned s high]
    · rw [mfsValue, if_neg (by omega), user]
      rfl

end Machine
end Sys2Proof
end

section
/-! ### O56: privileged forms -/
namespace Sys2Proof
namespace Machine

/-! #### Checks in order -/

section
variable {α : Type} {b : Bool} {c : Nat} {a : W64} {k : Unit → Except Stop α}

theorem require_met (h : b = true) : (require b c a >>= k) = k () := by rw [h]; rfl
theorem require_unmet (h : b = false) : (require b c a >>= k) = trapE c a := by rw [h]; rfl
theorem ready_met (h : b = true) : (ready b >>= k) = k () := by rw [h]; rfl
theorem ready_unmet (h : b = false) : (ready b >>= k) = .error .stall := by rw [h]; rfl
end
/-- A form of the supervisor's traps in user mode (R353). -/
theorem traps_in_user {i : Instr} {s : State} {p : Pred} {k : Unit → Except Stop State} (on : pred0 s p = true) (user : supMode s = false)
    (h : exec i s = .next (bit0Form s p (require (supMode s) cILLEGAL 0 >>= k))) : Traps i s (trapOf cILLEGAL 0) :=
  h.trans (next_bit0Form on (require_unmet user))
/-- The context that a register names, past the checks of R370. -/
theorem ctxE_ok {s : State} {v : W64} (small : v.toNat < 256) (own : (getCtx s v.toNat).created = true → (getCtx s v.toNat).part = myPart s) :
    ctxE s v = .ok v.toNat := by
  rw [ctxE, require_met (decide_eq_true small), require_met ?_]
  cases created : (getCtx s v.toNat).created with
  | false => rfl
  | true => exact beq_iff_eq.mpr (own created)
theorem ctxE_large {s : State} {v : W64} (large : 256 ≤ v.toNat) : ctxE s v = trapE cENGINE 0 := by
  rw [ctxE, require_unmet (decide_eq_false (by omega))]
theorem ctxE_foreign {s : State} {v : W64} (small : v.toNat < 256) (created : (getCtx s v.toNat).created = true)
    (foreign : (getCtx s v.toNat).part ≠ myPart s) : ctxE s v = trapE cPERM 0 := by
  rw [ctxE, require_met (decide_eq_true small), require_unmet (by simp [created, foreign])]

/-! #### Threads and cores -/

/-- A written thread set leaves every other field of its core. -/
theorem getCore_setThread (s : State) (g c : Nat) (x : Thread) :
    getCore (setThread s g x) c = { getCore s c with threads := (getCore (setThread s g x) c).threads } := by
  unfold setThread
  split
  · rfl
  · rw [getCore_setCore]
    split
    next e =>
      rw [e, setSlot]
      split <;> rfl
    next => rfl
theorem setThread_frame (s : State) (g : Nat) (x : Thread) : let u := setThread s g x
    u = { s with th := u.th, core := u.core, cores := u.cores } := by
  unfold setThread setCore
  split
  · rfl
  · split <;> rfl
theorem mem_threadsOf {l : List Nat} {g : Nat} : g ∈ l.flatMap (fun c => (List.range 4).map (4 * c + ·)) ↔ coreNo g ∈ l := by
  rw [List.mem_flatMap]
  constructor
  · rintro ⟨c, hc, hg⟩
    obtain ⟨t, ht, rfl⟩ := List.mem_map.mp hg
    have low := List.mem_range.mp ht
    rwa [coreNo, show (4 * c + t) / 4 = c by omega]
  · intro h
    refine ⟨coreNo g, h, List.mem_map.mpr ⟨g % 4, List.mem_range.mpr (Nat.mod_lt g (by decide)), ?_⟩⟩
    rw [coreNo]
    omega

/-! #### Accesses that are abandoned for retranslation (R361, R384) -/

/-- C accesses from the first held one on, marked for retranslation. -/
def staleFrom (held : Option Nat → Bool) (l : List CReq) : List CReq :=
  let n := (l.takeWhile fun q => !held q.behind).length
  l.take n ++ (l.drop n).map fun q => { q with stale := !q.pool }
/-- A thread set whose held accesses are abandoned. -/
def abandoned (held : Option Nat → Bool) (t : Thread) : Thread :=
  { t with creqs := staleFrom held t.creqs, ureqs := t.ureqs.map fun q => { q with stale := q.stale || held q.behind } }
theorem staleFrom_again (held : Option Nat → Bool) (l : List CReq) : staleFrom held (staleFrom held l) = staleFrom held l := by
  induction l with
  | nil => rfl
  | cons q l ih =>
    cases hq : held q.behind with
    | false =>
      have goes (m : List CReq) : staleFrom held (q :: m) = q :: staleFrom held m := by simp [staleFrom, hq]
      rw [goes, goes, ih]
    | true => simp [staleFrom, hq]
theorem abandoned_again (held : Option Nat → Bool) (t : Thread) : abandoned held (abandoned held t) = abandoned held t := by
  simp [abandoned, staleFrom_again]
/-- One thread set's step of `abandonHeld`. -/
def abandonStep (s : State) (g : Nat) : State := onThread s g (abandoned (faultHeld s g))
theorem abandonHeld_eq (s : State) (ctx : Nat) :
    abandonHeld s ctx = ((coresOf s ctx).flatMap fun c => (List.range 4).map (4 * c + ·)).foldl abandonStep s := rfl
theorem faultHeld_abandonStep (s : State) (g k : Nat) : faultHeld (abandonStep s g) k = faultHeld s k := by
  have mq : (getCore (abandonStep s g) (coreNo k)).mq = (getCore s (coreNo k)).mq := by rw [abandonStep, onThread, getCore_setThread]
  funext n
  unfold faultHeld behindCmd
  rw [mq]
theorem threadAt_abandonStep (s : State) (g k : Nat) :
    threadAt (abandonStep s g) k = if k = g then abandoned (faultHeld s k) (threadAt s k) else threadAt s k := by
  rw [abandonStep, onThread, threadAt_setThread]
  split
  next e => rw [e]
  next => rfl
theorem threadAt_abandonSteps (l : List Nat) (s : State) (k : Nat) :
    threadAt (l.foldl abandonStep s) k = if k ∈ l then abandoned (faultHeld s k) (threadAt s k) else threadAt s k := by
  induction l generalizing s with
  | nil => rfl
  | cons g l ih =>
    rw [List.foldl_cons, ih, faultHeld_abandonStep, threadAt_abandonStep]
    by_cases e : k = g
    · rw [if_pos e, if_pos (List.mem_cons.mpr (.inl e)), abandoned_again, ite_self]
    · rw [if_neg e]
      simp only [List.mem_cons, e, false_or]
theorem abandonSteps_frame (l : List Nat) (s : State) : let u := l.foldl abandonStep s
    u = { s with th := u.th, core := u.core, cores := u.cores } := by
  induction l generalizing s with
  | nil => rfl
  | cons g l ih =>
    have step := setThread_frame s g (abandoned (faultHeld s g) (threadAt s g))
    dsimp only at step ih ⊢
    rw [List.foldl_cons, ih (abandonStep s g), abandonStep, onThread, step]
theorem threadAt_abandonHeld (s : State) (ctx g : Nat) : threadAt (abandonHeld s ctx) g =
    if coreNo g ∈ coresOf s ctx then abandoned (faultHeld s g) (threadAt s g) else threadAt s g := by
  rw [abandonHeld_eq, threadAt_abandonSteps]
  simp only [mem_threadsOf]

/-! #### Invalidation (R361) -/

/-- A lookup in a map of which every entry has been changed. -/
theorem amGet_mapValues {α : Type} {d : α} {f : Nat → α → α} (same : ∀ k, f k d = d) (m : AMap α) (k : Nat) :
    amGet d (m.map fun e => (e.1, f e.1 e.2)) k = f k (amGet d m k) := by
  induction m with
  | nil => exact (same k).symm
  | cons e m ih =>
    rw [List.map_cons, amGet, amGet, ih]
    split
    next here => rw [here]
    next =>
      split
      · exact (same k).symm
      · rfl
/-- What an invalidation leaves of a cluster and of a core. -/
def dropClu (ks : List Nat) (ctx : Nat) (all : Bool) (va k : Nat) (c : Cluster) : Cluster := if ks.contains k then
  { c with tlb := c.tlb.filter fun e => !invalidated ctx all va e, walks := c.walks.filter fun w => w.1 != ctx } else c
def dropCore (ks : List Nat) (ctx : Nat) (all : Bool) (va k : Nat) (c : CoreSt) : CoreSt := if ks.contains (cluOf k) then
  { c with tlb := c.tlb.filter fun e => !invalidated ctx all va e } else c
theorem dropClu_init (ks : List Nat) (ctx : Nat) (all : Bool) (va k : Nat) : dropClu ks ctx all va k Cluster.init = Cluster.init := by
  rw [dropClu]
  split <;> rfl
theorem dropCore_init (ks : List Nat) (ctx : Nat) (all : Bool) (va k : Nat) : dropCore ks ctx all va k CoreSt.init = CoreSt.init := by
  rw [dropCore]
  split <;> rfl
theorem getClu_dropTlb (s : State) (ks : List Nat) (ctx : Nat) (all : Bool) (va k : Nat) :
    getClu (dropTlb s ks ctx all va) k = { getClu s k with
      tlb := if k ∈ ks then (getClu s k).tlb.filter (fun e => !invalidated ctx all va e) else (getClu s k).tlb
      walks := if k ∈ ks then (getClu s k).walks.filter (fun w => w.1 != ctx) else (getClu s k).walks } := by
  refine (amGet_mapValues (f := dropClu ks ctx all va) (dropClu_init ks ctx all va) s.clusters k).trans ?_
  rw [← getClu, dropClu]
  by_cases h : k ∈ ks
  · rw [if_pos (List.contains_iff_mem.mpr h), if_pos h, if_pos h]
  · rw [if_neg (by simpa using h), if_neg h, if_neg h]
theorem getCore_dropTlb (s : State) (ks : List Nat) (ctx : Nat) (all : Bool) (va c : Nat) :
    getCore (dropTlb s ks ctx all va) c = { getCore s c with
      tlb := if cluOf c ∈ ks then (getCore s c).tlb.filter (fun e => !invalidated ctx all va e) else (getCore s c).tlb } := by
  have dropped : getCore (dropTlb s ks ctx all va) c = dropCore ks ctx all va c (getCore s c) := by
    unfold getCore
    by_cases h : c = coreNo s.here
    · rw [if_pos h, h]
      exact if_pos rfl
    · rw [if_neg h]
      exact (if_neg h).trans (amGet_mapValues (dropCore_init ks ctx all va) s.cores c)
  rw [dropped, dropCore]
  by_cases h : cluOf c ∈ ks
  · rw [if_pos (List.contains_iff_mem.mpr h), if_pos h]
  · rw [if_neg (by simpa using h), if_neg h]

/-! #### `tlbinv` -/

section
variable {o : TlbInv} {s : State} (on : pred0 s o.p = true) (sup : supMode s = true)
include on sup

theorem execTlbinv_large (large : 256 ≤ (getS s o.a).toNat) : Traps (.tlbinv o) s (trapOf cENGINE 0) := by
  refine next_bit0Form (b' := trapE cENGINE 0) on ?_
  rw [require_met sup, ctxE_large large]
  rfl
variable (small : (getS s o.a).toNat < 256)
include small
theorem execTlbinv_foreign (foreign : ¬ ((getCtx s (getS s o.a).toNat).created = true ∧ (getCtx s (getS s o.a).toNat).part = myPart s)) :
    Traps (.tlbinv o) s (trapOf cPERM 0) := by
  refine next_bit0Form (b' := trapE cPERM 0) on ?_
  rw [require_met sup]
  cases created : (getCtx s (getS s o.a).toNat).created with
  | true =>
    rw [ctxE_foreign small created fun own => foreign ⟨created, own⟩]
    rfl
  | false =>
    rw [ctxE_ok small (by simp [created])]
    exact require_unmet created
variable (created : (getCtx s (getS s o.a).toNat).created = true) (own : (getCtx s (getS s o.a).toNat).part = myPart s)
include created own
/-- `tlbinv` of a context of the partition, past its checks. -/
theorem execTlbinv_goes : let ctx := (getS s o.a).toNat
    let ks := rectClusters (getPart s (myPart s))
    let count := BitVec.ofNat 64 ks.length
    let u := dropTlb s ks ctx o.all (getS s o.b).toNat
    exec (.tlbinv o) s = .next (runBody s (
      if s.th.stage = 1 then ready (!translatedPending s ctx) >>= fun _ => .ok (setS (withTh (abandonHeld s ctx) fun t => { t with stage := 0 }) o.d count)
      else ready (storesAcked s) >>= fun _ => .ok (if translatedPending u ctx then withTh u fun t => { t with stage := 1, res := .begun }
        else setS (abandonHeld u ctx) o.d count))) := by
  refine next_bit0Form on ?_
  rw [require_met sup, ctxE_ok small fun _ => own]
  exact require_met created
end

/-! #### `mtsp` (R353, R354, R380) -/

section
variable {o : MtsO} {s : State} (on : pred0 s o.p = true)
include on

theorem execMtsp_unwritable (bad : (mtspWrites o.num.toNat && supMode s) = false) : Traps (.mtsp o) s (trapOf cILLEGAL 0) :=
  next_bit0Form (b' := trapE cILLEGAL 0) on (require_unmet bad)
variable (sup : supMode s = true)
include sup

/-- A register of a context that another partition has is out of reach (R352). -/
theorem execMtsp_foreign (writes : mtspWrites o.num.toNat = true) (other : o.num ≠ 0x800) (foreign : (getCtx s s.th.csel).part ≠ myPart s) :
    exec (.mtsp o) s = .next s := by
  refine next_bit0Form (b' := .ok s) on ?_
  dsimp only
  rw [require_met (by rw [writes, sup]; rfl), if_pos ⟨fun e => other (BitVec.eq_of_toNat_eq e), foreign⟩]
/-- A write of register `k` is the effect `r` that stands at its number. -/
theorem execMtsp_at {k : BitVec 12} {r : Except Stop State} (e : o.num = k) (writes : mtspWrites k.toNat = true)
    (own : k = 0x800 ∨ (getCtx s s.th.csel).part = myPart s)
    (shape : exec (.mtsp { o with num := k }) s = .next (bit0Form s o.p (require (mtspWrites k.toNat && supMode s) cILLEGAL 0 >>= fun _ =>
      if k.toNat ≠ 0x800 ∧ (getCtx s s.th.csel).part ≠ myPart s then .ok s else r))) : exec (.mtsp o) s = .next (runBody s r) := by
  subst e
  have here : ¬ (o.num.toNat ≠ 0x800 ∧ (getCtx s s.th.csel).part ≠ myPart s) := fun both =>
    own.elim (fun e => both.1 (congrArg BitVec.toNat e)) both.2
  refine shape.trans (next_bit0Form on ?_)
  rw [require_met (by rw [writes, sup]; rfl), if_neg here]
/-- A write of the register that selects a context (R353). -/
theorem execMtsp_select (e : o.num = 0x800) : let c := (getS s o.a).toNat % 256
    exec (.mtsp o) s = .next (runBody s (require ((getCtx s c).created && (getCtx s c).part == myPart s) cPERM 0 >>= fun _ =>
      .ok (withTh s fun t => { t with csel := c }))) := by
  have byte : fieldOf (getS s o.a) 0 8 = (getS s o.a).toNat % 256 := by
    rw [fieldOf, bitsOf, Nat.pow_zero, Nat.div_one]
    rfl
  dsimp only
  rw [← byte]
  exact execMtsp_at on sup e rfl (.inl rfl) rfl
variable (own : (getCtx s s.th.csel).part = myPart s)
include own

theorem execMtsp_trans (lo : 0x801 ≤ o.num.toNat) (hi : o.num.toNat ≤ 0x806) :
    exec (.mtsp o) s = .next (runBody s (mtspTrans s o.num.toNat (getS s o.a))) := by
  have number : o.num = 0x801 ∨ o.num = 0x802 ∨ o.num = 0x803 ∨ o.num = 0x804 ∨ o.num = 0x805 ∨ o.num = 0x806 := by bv_omega
  obtain e | e | e | e | e | e := number <;> rw [e] <;> exact execMtsp_at on sup e rfl (.inr own) rfl
end

section
variable {s : State} {num : Nat} {v : W64}

theorem mtspTrans_refuses (fresh : s.th.stage ≠ 1) (bad : transOk num v = false) : mtspTrans s num v = .ok s := by
  rw [mtspTrans, if_neg fresh, bad]
  rfl
theorem mtspTrans_waits (fresh : s.th.stage ≠ 1) (fits : transOk num v = true) (busy : amFind (getCtx s s.th.csel).transOld num ≠ none) :
    mtspTrans s num v = .error .stall := by
  rw [mtspTrans, if_neg fresh, fits]
  exact if_pos (Option.isSome_iff_ne_none.mpr busy)
variable (free : amFind (getCtx s s.th.csel).transOld num = none)
include free
theorem mtspTrans_begins (fresh : s.th.stage ≠ 1) (fits : transOk num v = true)
    (clusters : rectClusters (getPart s (getCtx s s.th.csel).part) ≠ []) : ∃ t, mtspTrans s num v = .ok t ∧ t.th.stage = 1 ∧ t.th.res = .begun ∧
      getCtx t s.th.csel = { transPut (getCtx s s.th.csel) num v with
        transOld := amSet (getCtx s s.th.csel).transOld num (transGet (getCtx s s.th.csel) num, []) } := by
  have some_ : (rectClusters (getPart s (getCtx s s.th.csel).part)).isEmpty = false := by simpa using clusters
  rw [mtspTrans, if_neg fresh, fits, free]
  dsimp only
  rw [some_]
  exact ⟨_, rfl, rfl, rfl, getCtx_setCtx ..⟩
theorem mtspTrans_ends (begun : s.th.stage = 1) : mtspTrans s num v = .ok { s with th := { s.th with stage := 0 } } := by
  rw [mtspTrans, if_pos begun, free]
  rfl
end
/-- A cluster takes the new value of a register; the last one completes the write (R354). -/
theorem evTransWrite_takes {s : State} {ctx k num : Nat} {old : W64} {done : List Nat} (inside : k ∈ rectClusters (getPart s (getCtx s ctx).part))
    (open_ : (getCtx s ctx).transOld = [(num, old, done)]) (new : k ∉ done) : evTransWrite ctx k s = some (setCtx s ctx { getCtx s ctx with
      transOld := if (rectClusters (getPart s (getCtx s ctx).part)).all (done ++ [k]).contains then [] else [(num, old, done ++ [k])] }) := by
  rw [evTransWrite, open_]
  dsimp only [List.isEmpty, List.map]
  rw [List.contains_iff_mem.mpr inside, if_neg (show ¬ done.contains k = true by simpa using new)]
  generalize rectClusters (getPart s (getCtx s ctx).part) = ks
  have left : [(num, old, done ++ [k])].filter (fun e => !ks.all e.2.2.contains) =
      if ks.all (done ++ [k]).contains then [] else [(num, old, done ++ [k])] := by
    rw [List.filter_singleton]
    cases ks.all (done ++ [k]).contains <;> rfl
  rw [← left]
  rfl

/-! #### `fres` (R380) -/

section
variable {s : State} {v : W64}

theorem mtspFres_discards (h : ¬ (fieldOf v 40 22 = 0 ∧ fieldOf v 32 8 = s.th.csel ∧ ∃ w ∈ s.waiting, w.fid = BitVec.ofNat 64 (fieldOf v 0 40))) :
    mtspFres s v = .ok s := by
  refine if_pos ?_
  by_contra names
  refine h ?_
  simpa [and_assoc] using names
variable (reserved : fieldOf v 40 22 = 0) (context : fieldOf v 32 8 = s.th.csel)
  (waits : ∃ w ∈ s.waiting, w.fid = BitVec.ofNat 64 (fieldOf v 0 40))
include reserved context waits
theorem mtspFres_answers : mtspFres s v = (ready (storesAcked s) >>= fun _ =>
    .ok ((evFres (BitVec.ofNat 64 (fieldOf v 0 40)) (min 2 (fieldOf v 62 2)) s).getD s)) := by
  obtain ⟨w, mem, fid⟩ := waits
  refine if_neg ?_
  simp only [reserved, context, Bool.not_eq_true, ne_eq, not_true_eq_false, decide_false, Bool.or_false, Bool.not_eq_false', Bool.false_or]
  exact List.any_eq_true.mpr ⟨w, mem, beq_iff_eq.mpr fid⟩
end
theorem exec_fres (s : State) (fid : W64) (n : Nat) : exec (if n = 0 then .fresRetry fid else if n = 1 then .fresAbort fid else .fresDiscard fid) s =
    .next ((evFres fid (min 2 n) s).getD s) := by
  match n with
  | 0 => rfl
  | 1 => rfl
  | n + 2 => rw [if_neg (by omega), if_neg (by omega), show min 2 (n + 2) = 2 by omega]; rfl
/-- A write of ffbase by event clears HA (R124). -/
theorem ffbaseWrite_eq (s : State) (v : W64) : exec (.ffbaseWrite s.here v) s =
    .next (withRf s fun r => clearHA (if ffbaseOk s.core v.toNat then { r with ffbase := v } else r)) := by
  refine (congrArg Host.Outcome.next (onThread_here ..)).trans ?_
  rw [show getCore s (coreNo s.here) = s.core from getCore_mine s]
  rfl

/-! #### `rgload` (R200, R365) -/

theorem setRig_only (s : State) (ctx : Nat) (rig : Rig) (image : List Byte) : let u := setRig s ctx rig image
    u = { s with ctxs := u.ctxs } ∧ (getCtx u ctx).rig = rig ∧
      (getCtx u ctx).rm = BitVec.ofNat 256 (ofBytes (sha256 (toBytes 32 (getCtx s ctx).rm.toNat ++ sha256 image))) := by
  have ctx' : getCtx (setRig s ctx rig image) ctx = _ := (getCtx_onCtx s ctx ctx _).trans (if_pos rfl)
  dsimp only
  rw [ctx']
  exact ⟨rfl, rfl, rfl⟩

/-- What `rgload` writes for an entry, or a count, that it refuses. -/
def rigFailure (i : Nat) : W64 := BitVec.ofNat 64 (2 ^ 63 + i)
/-- The load of a standard rigging by its number (R200). -/
def loadStd (o : S4) (s : State) : State :=
  if 1 < (getS s o.b).toNat then setS s o.d (rigFailure 1024)
  else setS (setRig s (getS s o.c).toNat (.std ((getS s o.b).toNat == 1)) [BitVec.ofNat 8 (getS s o.b).toNat]) o.d 0
/-- The installation of an image that has been read, or the index of its first bad microword (R200). -/
def installImage (o : S4) (s : State) (r : List (BitVec 128) × State) : State :=
  match (List.range (getS s o.b).toNat).find? fun i => !mwOk (getS s o.b).toNat i (r.1.getD i 0) with
  | some i => setS r.2 o.d (rigFailure i)
  | none => setS (setRig r.2 (getS s o.c).toNat (.image r.1) (r.1.flatMap fun w => toBytes 16 w.toNat)) o.d 0

theorem installImage_bad {o : S4} {s : State} {r : List (BitVec 128) × State} {i : Nat} (low : i < (getS s o.b).toNat)
    (bad : mwOk (getS s o.b).toNat i (r.1.getD i 0) = false) (first : ∀ j < i, mwOk (getS s o.b).toNat j (r.1.getD j 0) = true) :
    installImage o s r = setS r.2 o.d (rigFailure i) := by
  have found : ((List.range (getS s o.b).toNat).find? fun i => !mwOk (getS s o.b).toNat i (r.1.getD i 0)) = some i := by
    refine List.find?_range_eq_some.mpr ⟨?_, List.mem_range.mpr low, fun j hj => ?_⟩
    · rw [bad]; rfl
    · rw [first j hj]; rfl
  rw [installImage, found]
theorem installImage_valid {o : S4} {s : State} {r : List (BitVec 128) × State}
    (valid : ∀ i < (getS s o.b).toNat, mwOk (getS s o.b).toNat i (r.1.getD i 0) = true) :
    installImage o s r = setS (setRig r.2 (getS s o.c).toNat (.image r.1) (r.1.flatMap fun w => toBytes 16 w.toNat)) o.d 0 := by
  have none_ : ((List.range (getS s o.b).toNat).find? fun i => !mwOk (getS s o.b).toNat i (r.1.getD i 0)) = none :=
    List.find?_eq_none.mpr fun i hi => by rw [valid i (List.mem_range.mp hi)]; exact Bool.false_ne_true
  rw [installImage, none_]

section
variable {o : S4} {s : State} (on : pred0 s o.p = true) (sup : supMode s = true)
include on sup

theorem execRgload_large (large : 256 ≤ (getS s o.c).toNat) : Traps (.rgload o) s (trapOf cENGINE 0) := by
  refine next_bit0Form (b' := trapE cENGINE 0) on ?_
  rw [require_met sup, require_unmet (decide_eq_false (by omega))]
variable (small : (getS s o.c).toNat < 256)
include small
theorem execRgload_foreign (created : (getCtx s (getS s o.c).toNat).created = true) (foreign : (getCtx s (getS s o.c).toNat).part ≠ myPart s) :
    Traps (.rgload o) s (trapOf cPERM 0) := by
  refine next_bit0Form (b' := trapE cPERM 0) on ?_
  rw [require_met sup, require_met (decide_eq_true (by omega)), require_unmet (by simp [created, foreign])]
theorem execRgload_absent (absent : (getCtx s (getS s o.c).toNat).created = false) : Traps (.rgload o) s (trapOf cENGINE 0) := by
  refine next_bit0Form (b' := trapE cENGINE 0) on ?_
  rw [require_met sup, require_met (decide_eq_true (by omega)), require_met (by simp [absent]), require_unmet absent]
variable (created : (getCtx s (getS s o.c).toNat).created = true) (own : (getCtx s (getS s o.c).toNat).part = myPart s)
include created own
theorem execRgload_goes : exec (.rgload o) s = .next (runBody s (
    if getS s o.a = 0 then .ok (loadStd o s)
    else alignCheck (getS s o.a) 16 (accWord .T false false 16) >>= fun _ =>
      if (getS s o.b).toNat = 0 || 1024 < (getS s o.b).toNat then .ok (setS s o.d (rigFailure 1024))
      else readImage (getS s o.a) (getS s o.b).toNat s >>= fun r => .ok (installImage o s r))) := by
  refine next_bit0Form on ?_
  rw [require_met sup, require_met (decide_eq_true (by omega)), require_met (by simp [own]), require_met created]
  dsimp only
  congr 1
  · rw [loadStd]
    split <;> rfl
  · congr 1
    funext _
    split
    · rfl
    · congr 1
      funext r
      rw [installImage]
      cases (List.range (getS s o.b).toNat).find? fun i => !mwOk (getS s o.b).toNat i (r.1.getD i 0) <;> rfl
theorem execRgload_std (std : getS s o.a = 0) : exec (.rgload o) s = .next (loadStd o s) := by
  rw [execRgload_goes on sup small created own, if_pos std]
  rfl
variable (image : getS s o.a ≠ 0)
include image
theorem execRgload_misaligned (odd : (getS s o.a).toNat % 16 ≠ 0) :
    Traps (.rgload o) s (trapAcc cMISALIGN (getS s o.a) (accWord .T false false 16)) := by
  rw [Traps, execRgload_goes on sup small created own, if_neg image, alignCheck_odd _ odd]
  rfl
variable (aligned : (getS s o.a).toNat % 16 = 0)
include aligned
theorem execRgload_counts (bad : (getS s o.b).toNat = 0 ∨ 1024 < (getS s o.b).toNat) :
    exec (.rgload o) s = .next (setS s o.d (rigFailure 1024)) := by
  rw [execRgload_goes on sup small created own, if_neg image, alignCheck_ok _ aligned]
  exact congrArg (fun r => Host.Outcome.next (runBody s r)) (if_pos (by simpa using bad))
theorem execRgload_image (some_ : 0 < (getS s o.b).toNat) (fits : (getS s o.b).toNat ≤ 1024) {r : List (BitVec 128) × State}
    (read : readImage (getS s o.a) (getS s o.b).toNat s = .ok r) : exec (.rgload o) s = .next (installImage o s r) := by
  rw [execRgload_goes on sup small created own, if_neg image, alignCheck_ok _ aligned, read]
  exact congrArg (fun r => Host.Outcome.next (runBody s r)) (if_neg (by simp; omega))
end

/-! #### Cores and thread sets that stand -/

/-- Every core and thread set stands. -/
structure SameCores (s t : State) : Prop where
  here : t.here = s.here
  th : t.th = s.th
  core : t.core = s.core
  cores : t.cores = s.cores
section
variable {s t u : State}

theorem SameCores.refl (s : State) : SameCores s s := ⟨rfl, rfl, rfl, rfl⟩
theorem SameCores.trans (h : SameCores s t) (k : SameCores t u) : SameCores s u :=
  ⟨k.here.trans h.here, k.th.trans h.th, k.core.trans h.core, k.cores.trans h.cores⟩
theorem HomeOnly.sameCores (h : HomeOnly s t) : SameCores s t := by
  rw [h.1]
  exact ⟨rfl, rfl, rfl, rfl⟩
theorem SameCores.getCore (h : SameCores s t) (c : Nat) : getCore t c = getCore s c := by
  rw [Machine.getCore, h.here, h.core, h.cores]
  rfl
theorem SameCores.threadAt (h : SameCores s t) (g : Nat) : threadAt t g = threadAt s g := by
  rw [Machine.threadAt, h.here, h.th, h.getCore]
  rfl
theorem SameCores.coresOf (h : SameCores s t) (ctx : Nat) : coresOf t ctx = coresOf s ctx := by
  unfold Machine.coresOf
  rw [myCore, h.here, h.core, h.cores]
  rfl
theorem SameCores.keptCore (h : SameCores s t) (c : Nat) : keptCore t c = keptCore s c := by
  simp only [Machine.keptCore, h.getCore, h.threadAt]
end

/-! #### Save (R370, R385) -/

theorem comeHome_ctxs (core : Nat) (s : State) : (comeHome core s).ctxs = s.ctxs := by
  refine foldl_keeps State.ctxs (fun u c => ?_) _ s
  rw [cmdPut, onCore, setCore_ctxs, latchBad]
  have freed : (freeUnit u c).ctxs = u.ctxs := by
    rw [freeUnit]
    split <;> rfl
  split
  · rw [onThread, setThread_ctxs, freed]
  · exact freed
/-- A drain that has begun stands in the context (R385). -/
theorem startDrain_draining (s : State) (ctx : Nat) : (getCtx (startDrain s ctx) ctx).draining = true := by
  have ctxs : (startDrain s ctx).ctxs = (onCtx s ctx fun c => { c with draining := true }).ctxs := foldl_keeps State.ctxs (fun u c => comeHome_ctxs c u) _ _
  rw [getCtx_congr ctxs, getCtx_onCtx, if_pos rfl]
theorem finishDrain_stands (s : State) (ctx : Nat) : SameCores s (finishDrain s ctx) ∧ (finishDrain s ctx).ctxs = s.ctxs := by
  have merged := (HomeStep.foldl (f := mergeAllU) mergeAllU_step (((coresOf s ctx).map cluOf).eraseDups) s).1
  exact ⟨⟨merged.sameCores.here, merged.sameCores.th, merged.sameCores.core, merged.sameCores.cores⟩, merged.ctxs⟩
theorem setThread_bound (s : State) (g c : Nat) (x : Thread) : (getCore (setThread s g x) c).ctx = (getCore s c).ctx := by rw [getCore_setThread]
theorem unbindCore_ctx (s : State) (d c : Nat) : (getCore (unbindCore s d) c).ctx = if c = d then none else (getCore s c).ctx := by
  rw [unbindCore, getCore_onCore]
  split
  · rfl
  · exact foldl_keeps (fun u => (getCore u c).ctx) (fun u t => setThread_bound ..) _ s
theorem unbindCores_ctx (l : List Nat) (s : State) (c : Nat) :
    (getCore (l.foldl unbindCore s) c).ctx = if c ∈ l then none else (getCore s c).ctx := by
  induction l generalizing s with
  | nil => rfl
  | cons d l ih =>
    rw [List.foldl_cons, ih, unbindCore_ctx]
    by_cases e : c = d
    · rw [if_pos e, ite_self, if_pos (List.mem_cons.mpr (.inl e))]
    · rw [if_neg e]
      simp only [List.mem_cons, e, false_or]
theorem settleAll_core (l : List Nat) (s : State) (ctx c : Nat) : getCore (l.foldl (fun s k => settleRings s k ctx) s) c = getCore s c :=
  foldl_keeps (fun u => getCore u c) (fun u k => (settleRings_core u k ctx c).1) l s
/-- What stands after a save: the generation, the kept cores, and no core bound (R370). -/
theorem saveCtx_saves (s : State) (ctx base : Nat) : let v := saveCtx s ctx base
    (∃ u, getCtx v ctx = { getCtx u ctx with savgen := (getCtx s ctx).savgen + 1, saved := some ((coresOf s ctx).map (keptCore s)) }) ∧
    ∀ c ∈ coresOf s ctx, (getCore v c).ctx = none := by
  refine ⟨⟨_, (getCtx_onCtx ..).trans (if_pos rfl)⟩, fun c mem => ?_⟩
  rw [saveCtx]
  exact (congrArg CoreSt.ctx (settleAll_core ..)).trans ((unbindCores_ctx ..).trans (if_pos mem))

section
variable {o : S4} {s : State} (on : pred0 s o.p = true) (sup : supMode s = true)
include on sup

theorem execCtxsv_large (large : 256 ≤ (getS s o.a).toNat) : Traps (.ctxsv o) s (trapOf cENGINE 0) := by
  refine next_bit0Form (b' := trapE cENGINE 0) on ?_
  rw [require_met sup, ctxE_large large]
  rfl
variable (small : (getS s o.a).toNat < 256)
include small
theorem execCtxsv_foreign (created : (getCtx s (getS s o.a).toNat).created = true) (foreign : (getCtx s (getS s o.a).toNat).part ≠ myPart s) :
    Traps (.ctxsv o) s (trapOf cPERM 0) := by
  refine next_bit0Form (b' := trapE cPERM 0) on ?_
  rw [require_met sup, ctxE_foreign small created foreign]
  rfl
/-- The context is the thread set's own, or absent, or saved already. -/
theorem execCtxsv_unfit (own : (getCtx s (getS s o.a).toNat).created = true → (getCtx s (getS s o.a).toNat).part = myPart s)
    (unfit : ((getS s o.a).toNat != myCtx s && (getCtx s (getS s o.a).toNat).created && (getCtx s (getS s o.a).toNat).saved.isNone) = false) :
    Traps (.ctxsv o) s (trapOf cENGINE 0) := by
  refine next_bit0Form (b' := trapE cENGINE 0) on ?_
  rw [require_met sup, ctxE_ok small own]
  exact require_unmet unfit
variable (created : (getCtx s (getS s o.a).toNat).created = true) (own : (getCtx s (getS s o.a).toNat).part = myPart s)
  (other : (getS s o.a).toNat ≠ myCtx s) (unsaved : (getCtx s (getS s o.a).toNat).saved = none)
include created own other unsaved
/-- `ctxsv` past the checks of the context: those of the area, then the save or the drain. -/
theorem execCtxsv_goes : let ctx := (getS s o.a).toNat
    let base := getS s o.b
    let n := (coresOf s ctx).length
    exec (.ctxsv o) s = .next (runBody s (
    require (base.toNat % 4096 == 0) cMISALIGN base >>= fun _ =>
    require (areaIn s (myPart s) base.toNat (getS s o.c).toNat) cPERM base >>= fun _ =>
    require (decide (8192 + 1048576 * n ≤ (getS s o.c).toNat)) cENGINE 0 >>= fun _ =>
    if drained s ctx then .ok (setS (saveCtx (finishDrain s ctx) ctx base.toNat) o.d (BitVec.ofNat 64 n))
    else if !(getCtx s ctx).created || (getCtx s ctx).draining || castleOf s ctx then .error .stall
    else .ok (withTh (startDrain s ctx) fun t => { t with res := .begun }))) := by
  refine next_bit0Form on ?_
  rw [require_met sup, ctxE_ok small fun _ => own]
  refine (require_met (by simp [created, other, unsaved])).trans ?_
  dsimp only [evContextDrain]
  congr 1
  funext _
  congr 1
  funext _
  congr 1
  funext _
  split
  · rfl
  · cases (!(getCtx s (getS s o.a).toNat).created || (getCtx s (getS s o.a).toNat).draining || castleOf s (getS s o.a).toNat) <;> rfl
theorem execCtxsv_misaligned (odd : (getS s o.b).toNat % 4096 ≠ 0) : Traps (.ctxsv o) s (trapOf cMISALIGN (getS s o.b)) := by
  rw [Traps, execCtxsv_goes on sup small created own other unsaved, require_unmet (by simpa using odd)]
  rfl
variable (aligned : (getS s o.b).toNat % 4096 = 0)
include aligned
theorem execCtxsv_outside (out : areaIn s (myPart s) (getS s o.b).toNat (getS s o.c).toNat = false) :
    Traps (.ctxsv o) s (trapOf cPERM (getS s o.b)) := by
  rw [Traps, execCtxsv_goes on sup small created own other unsaved, require_met (by simpa using aligned), require_unmet out]
  rfl
variable (inside : areaIn s (myPart s) (getS s o.b).toNat (getS s o.c).toNat = true)
include inside
theorem execCtxsv_short (short : (getS s o.c).toNat < 8192 + 1048576 * (coresOf s (getS s o.a).toNat).length) :
    Traps (.ctxsv o) s (trapOf cENGINE 0) := by
  rw [Traps, execCtxsv_goes on sup small created own other unsaved, require_met (by simpa using aligned), require_met inside,
    require_unmet (decide_eq_false (by omega))]
  rfl
variable (fits : 8192 + 1048576 * (coresOf s (getS s o.a).toNat).length ≤ (getS s o.c).toNat)
include fits
theorem execCtxsv_begins (going : drained s (getS s o.a).toNat = false) (fresh : (getCtx s (getS s o.a).toNat).draining = false)
    (castle : castleOf s (getS s o.a).toNat = false) :
    exec (.ctxsv o) s = .next (withTh (startDrain s (getS s o.a).toNat) fun t => { t with res := .begun }) := by
  rw [execCtxsv_goes on sup small created own other unsaved, require_met (by simpa using aligned), require_met inside,
    require_met (decide_eq_true fits), going, created, fresh, castle]
  rfl
theorem execCtxsv_saves (done : drained s (getS s o.a).toNat = true) :
    exec (.ctxsv o) s = .next (setS (saveCtx (finishDrain s (getS s o.a).toNat) (getS s o.a).toNat (getS s o.b).toNat) o.d
      (BitVec.ofNat 64 (coresOf s (getS s o.a).toNat).length)) := by
  rw [execCtxsv_goes on sup small created own other unsaved, require_met (by simpa using aligned), require_met inside,
    require_met (decide_eq_true fits), if_pos done]
  rfl
end

/-! #### Restore (R371) -/

theorem areaRead_stands (s : State) (ctx base n : Nat) : SameCores s (areaRead s ctx base n).2 := by
  rw [areaRead]
  split
  · exact (homeRead_step ..).1.sameCores
  · exact .refl s
theorem slotOf_fin (c : CoreSt) (i : Fin 4) : slotOf c i = c.threads[i] := by simp [slotOf]
theorem threadAt_other {s : State} {c : Nat} (i : Fin 4) (h : c ≠ myCore s) : threadAt s (4 * c + i) = slotOf (getCore s c) i := by
  have core : coreNo (4 * c + i) = c := by rw [coreNo]; omega
  have slot : (4 * c + i.val) % 4 = i := by omega
  have foreign : 4 * c + i.val ≠ s.here := fun e => h (core.symm.trans (congrArg coreNo e))
  rw [threadAt, if_neg foreign, core, slot]

/-- A core as a restore leaves it: its record loaded into the core that the save kept (R371). -/
def restoredCore (w : Nat × State) (e : Nat × CoreSt) (c : CoreSt) : CoreSt :=
  let k := loadCore w.1 e.2
  let old := (List.range 4).map fun t => (threadAt w.2 (4 * e.1 + t)).pts
  let ths := Vector.ofFn fun t : Fin 4 =>
    let th := slotOf k t.val
    { th with pts := max w.2.released (max th.pts (old.getD t.val 0)) }
  { k with threads := ths, cap := c.cap, gated := c.gated, castled := c.castled, fwd := c.fwd, ptime := max c.ptime k.ptime }
/-- The restore of one kept core, with its index in the area. -/
def restoreStep (ctx base : Nat) (s : State) (x : (Nat × CoreSt) × Nat) : State :=
  let w := areaRead s ctx (base + 8192 + 1048576 * x.2) 1048576
  onCore (openRings w.2 (cluOf x.1.1) ctx) x.1.1 (restoredCore w x.1)
/-- What a restored core shows of its record. -/
theorem restoredCore_loads (w : Nat × State) (e : Nat × CoreSt) (c : CoreSt) : let k := restoredCore w e c
    k.ctx = e.2.ctx ∧ k.pool = (loadCore w.1 e.2).pool ∧ k.q = (loadCore w.1 e.2).q ∧ ∀ i : Fin 4, (slotOf k i).rf = (loadCore w.1 e.2).threads[i].rf := by
  refine ⟨rfl, rfl, rfl, fun i => ?_⟩
  rw [slotOf_fin, ← slotOf_fin (loadCore w.1 e.2), restoredCore]
  simp
theorem getCore_restoreStep (ctx base : Nat) (s : State) (x : (Nat × CoreSt) × Nat) (c : Nat) :
    getCore (restoreStep ctx base s x) c =
      if c = x.1.1 then restoredCore (areaRead s ctx (base + 8192 + 1048576 * x.2) 1048576) x.1 (getCore s c) else getCore s c := by
  have read := (areaRead_stands s ctx (base + 8192 + 1048576 * x.2) 1048576).getCore c
  have rings : getCore (openRings (areaRead s ctx (base + 8192 + 1048576 * x.2) 1048576).2 (cluOf x.1.1) ctx) c = getCore s c := read
  rw [restoreStep, getCore_onCore]
  split
  next e =>
    subst e
    rw [rings]
  next => exact rings
theorem restoreStep_here (ctx base : Nat) (s : State) (x : (Nat × CoreSt) × Nat) : (restoreStep ctx base s x).here = s.here := by
  rw [restoreStep, onCore, setCore_here]
  exact (areaRead_stands ..).here
theorem restoreSteps_here (ctx base : Nat) (l : List ((Nat × CoreSt) × Nat)) (s : State) : (l.foldl (restoreStep ctx base) s).here = s.here :=
  foldl_keeps State.here (restoreStep_here ctx base) l s
theorem restoreSteps_other {ctx base : Nat} {l : List ((Nat × CoreSt) × Nat)} {c : Nat} (s : State) (h : c ∉ l.map (·.1.1)) :
    getCore (l.foldl (restoreStep ctx base) s) c = getCore s c := by
  induction l generalizing s with
  | nil => rfl
  | cons x l ih =>
    rw [List.map_cons, List.mem_cons, not_or] at h
    rw [List.foldl_cons, ih _ h.2, getCore_restoreStep, if_neg h.1]
/-- Each core of a list without repetition is restored, and no later step changes it. -/
theorem restoreSteps_restores {ctx base : Nat} {l : List ((Nat × CoreSt) × Nat)} (s : State) (once : (l.map (·.1.1)).Nodup)
    {x : (Nat × CoreSt) × Nat} (mem : x ∈ l) : ∃ w c, getCore (l.foldl (restoreStep ctx base) s) x.1.1 = restoredCore w x.1 c := by
  induction l generalizing s with
  | nil => cases mem
  | cons y l ih =>
    rw [List.map_cons, List.nodup_cons] at once
    rw [List.foldl_cons]
    obtain rfl | mem := List.mem_cons.mp mem
    · exact ⟨_, _, (restoreSteps_other _ once.1).trans ((getCore_restoreStep ..).trans (if_pos rfl))⟩
    · exact ih _ once.2 mem
theorem restoreCtx_eq (s : State) (ctx base : Nat) (kept : List (Nat × CoreSt)) : SameCores (kept.zipIdx.foldl (restoreStep ctx base) s) (restoreCtx s ctx base kept) :=
  ⟨rfl, rfl, rfl, rfl⟩
theorem restoreCtx_ends (s : State) (ctx base : Nat) (kept : List (Nat × CoreSt)) :
    (getCtx (restoreCtx s ctx base kept) ctx).saved = none ∧ (getCtx (restoreCtx s ctx base kept) ctx).draining = false := by
  rw [restoreCtx, getCtx_onCtx, if_pos rfl]
  exact ⟨rfl, rfl⟩
/-- Every kept core that is not the focus's is bound again with its record loaded. -/
theorem restoreCtx_restores {s : State} {ctx base : Nat} {kept : List (Nat × CoreSt)} (once : (kept.map (·.1)).Nodup) {e : Nat × CoreSt}
    (mem : e ∈ kept) (other : e.1 ≠ myCore s) : let v := restoreCtx s ctx base kept
    (getCore v e.1).ctx = e.2.ctx ∧ ∃ x, (getCore v e.1).pool = (loadCore x e.2).pool ∧ (getCore v e.1).q = (loadCore x e.2).q ∧
      ∀ i : Fin 4, (threadAt v (4 * e.1 + i)).rf = ((loadCore x e.2).threads[i]).rf := by
  have same := restoreCtx_eq s ctx base kept
  have keys : kept.zipIdx.map (·.1.1) = kept.map (·.1) := by
    rw [← List.zipIdx_map_fst 0 kept, List.map_map, List.zipIdx_map_fst]
    rfl
  obtain ⟨i, hi⟩ : ∃ i, (e, i) ∈ kept.zipIdx := by
    rw [← List.zipIdx_map_fst 0 kept] at mem
    obtain ⟨⟨x, i⟩, hx, rfl⟩ := List.mem_map.mp mem
    exact ⟨i, hx⟩
  obtain ⟨w, c, core⟩ := restoreSteps_restores s (by rwa [keys]) hi (ctx := ctx) (base := base)
  have away : e.1 ≠ myCore (restoreCtx s ctx base kept) := by
    rwa [myCore, same.here, restoreSteps_here]
  obtain ⟨bound, pool, q, threads⟩ := restoredCore_loads w e c
  dsimp only
  rw [same.getCore, core]
  refine ⟨bound, w.1, pool, q, fun i => ?_⟩
  rw [threadAt_other i away, same.getCore, core]
  exact threads i

/-- What `ctxrs` requires of the area's header and of the kept cores, as the model checks it (R371). -/
def restorable (s : State) (ctx w : Nat) (kept : List (Nat × CoreSt)) : Bool :=
  (bitsOf w 0 64 == ctx && bitsOf w 64 64 == (getCtx s ctx).savgen.toNat && bitsOf w 128 64 == kept.length) &&
    (List.range kept.length).map (fun i => bitsOf w (512 + 16 * i) 16) == kept.map (·.1) && kept.all fun e => (getCore s e.1).ctx.isNone
theorem restorable_iff (s : State) (ctx w : Nat) (kept : List (Nat × CoreSt)) : restorable s ctx w kept = true ↔
    w % 2 ^ 64 = ctx ∧ w / 2 ^ 64 % 2 ^ 64 = (getCtx s ctx).savgen.toNat ∧ w / 2 ^ 128 % 2 ^ 64 = kept.length ∧
      (List.range kept.length).map (fun i => w / 2 ^ (512 + 16 * i) % 2 ^ 16) = kept.map (·.1) ∧ ∀ e ∈ kept, (getCore s e.1).ctx = none := by
  simp only [restorable, Bool.and_eq_true, beq_iff_eq, List.all_eq_true, Option.isNone_iff_eq_none, and_assoc, bitsOf, Nat.pow_zero, Nat.div_one]
section
variable {o : S3} {s : State} {kept : List (Nat × CoreSt)} (on : pred0 s o.p = true) (sup : supMode s = true)
  (small : (getS s o.a).toNat < 256) (own : (getCtx s (getS s o.a).toNat).part = myPart s)
  (saved : (getCtx s (getS s o.a).toNat).saved = some kept) (aligned : (getS s o.b).toNat % 4096 = 0)
  (inside : areaIn s (myPart s) (getS s o.b).toNat (8192 + 1048576 * kept.length) = true)
include on sup small own saved aligned inside

/-- `ctxrs` past the checks of its operands: the header's, the rings', then the restore. -/
theorem execCtxrs_goes : let ctx := (getS s o.a).toNat
    let h := areaRead s ctx (getS s o.b).toNat 8192
    exec (.ctxrs o) s = .next (runBody s (
      require (restorable s ctx h.1 kept) cENGINE 0 >>= fun _ =>
      ready (kept.all fun e => ringsFree s (cluOf e.1) ctx) >>= fun _ =>
      .ok (answerAll ctx (setS (restoreCtx h.2 ctx (getS s o.b).toNat kept) o.d (BitVec.ofNat 64 kept.length))))) := by
  refine next_bit0Form on ?_
  rw [require_met sup, ctxE_ok small fun _ => own]
  refine Eq.trans (b := require ((getS s o.b).toNat % 4096 == 0) cMISALIGN (getS s o.b) >>= fun _ => _) rfl ?_
  rw [require_met (by simpa using aligned), saved]
  exact require_met inside
theorem execCtxrs_refuses (bad : ¬ restorable s (getS s o.a).toNat (areaRead s (getS s o.a).toNat (getS s o.b).toNat 8192).1 kept = true) :
    Traps (.ctxrs o) s (trapOf cENGINE 0) := by
  rw [Traps, execCtxrs_goes on sup small own saved aligned inside, require_unmet (Bool.eq_false_iff.mpr bad)]
  rfl
variable (good : restorable s (getS s o.a).toNat (areaRead s (getS s o.a).toNat (getS s o.b).toNat 8192).1 kept = true)
include good
theorem execCtxrs_waits (full : ∃ e ∈ kept, ringsFree s (cluOf e.1) (getS s o.a).toNat = false) : exec (.ctxrs o) s = .next (stalled s) := by
  obtain ⟨e, mem, none_⟩ := full
  have some_ : (kept.all fun e => ringsFree s (cluOf e.1) (getS s o.a).toNat) = false :=
    List.all_eq_false.mpr ⟨e, mem, by rw [none_]; exact Bool.false_ne_true⟩
  rw [execCtxrs_goes on sup small own saved aligned inside, require_met good, ready_unmet some_]
  rfl
theorem execCtxrs_restores (rings : ∀ e ∈ kept, ringsFree s (cluOf e.1) (getS s o.a).toNat = true) :
    exec (.ctxrs o) s = .next (answerAll (getS s o.a).toNat (setS (restoreCtx (areaRead s (getS s o.a).toNat (getS s o.b).toNat 8192).2
      (getS s o.a).toNat (getS s o.b).toNat kept) o.d (BitVec.ofNat 64 kept.length))) := by
  rw [execCtxrs_goes on sup small own saved aligned inside, require_met good, ready_met (List.all_eq_true.mpr rings)]
  rfl
end
/-- No core of another context than the supervisor's own is the core of the thread set in focus. -/
theorem unbound_ne_myCore {s : State} {c : Nat} (sup : supMode s = true) (unbound : (getCore s c).ctx = none) : c ≠ myCore s := by
  rintro rfl
  rw [getCore_mine] at unbound
  rw [supMode, unbound] at sup
  cases sup
/-- Without an answer that came meanwhile, nothing acts. -/
theorem answerAll_none {s : State} {ctx : Nat} (none_ : (getCtx s ctx).answers = []) :
    answerAll ctx s = onCtx s ctx fun c => { c with answers := [] } := by
  rw [answerAll, none_]
  rfl
theorem answerAll_ctx {s : State} {ctx : Nat} (none_ : (getCtx s ctx).answers = []) (c : Nat) : getCtx (answerAll ctx s) c = getCtx s c := by
  rw [answerAll_none none_, getCtx_onCtx]
  split
  next e => rw [e, ← none_]
  next => rfl

/-- Settles O56: each form is its checks in order, then the effect that its law above states. -/
theorem privilegedFormsCheckTheModeAndAct : Obligations.PrivilegedFormsCheckTheModeAndAct := by
  refine ⟨fun s user => ⟨fun o on => traps_in_user on user rfl, fun o on => ⟨traps_in_user on user rfl, traps_in_user on user rfl⟩,
      fun o on => traps_in_user on user rfl, fun o on => execMtsp_unwritable on (by rw [user, Bool.and_false])⟩,
    fun o s on sup => ⟨execTlbinv_large on sup, execTlbinv_foreign on sup, fun small ⟨created, own⟩ fresh => ?_,
      fun small ⟨created, own⟩ begun => ?_⟩,
    fun s ctx g => ⟨abandonSteps_frame _ s, fun out => ?_, fun inside => ?_⟩,
    fun s ks ctx all va => ⟨rfl, getClu_dropTlb s ks ctx all va, getCore_dropTlb s ks ctx all va⟩,
    fun o s on sup => ⟨execCtxsv_large on sup, execCtxsv_foreign on sup, fun small created own unfit => ?_, fun small absent => ?_,
      fun small created own other unsaved => ?_⟩,
    fun o s kept on sup small created own saved aligned inside => ?_,
    fun s ctx none_ => ⟨answerAll_ctx none_, ?_, ?_, ?_⟩,
    fun o s on sup => ⟨execRgload_large on sup, execRgload_foreign on sup, execRgload_absent on sup, fun small created own => ?_⟩,
    fun o s on sup => ?_, fun s ctx k num old done inside open_ new => ?_, fun s v => ?_,
    fun o => skips_of fun _ => rfl, fun o => ⟨skips_of fun _ => rfl, skips_of fun _ => rfl⟩,
    fun o => skips_of fun _ => rfl, fun o => skips_of fun _ => rfl⟩
  · have goes := execTlbinv_goes on sup small created own
    dsimp only at goes
    rw [if_neg fresh] at goes
    refine ⟨fun unacked => ?_, fun acked pending => ?_, fun acked clear => ⟨_, ?_, setS_wrote ..⟩⟩
    · rw [goes, ready_unmet unacked]
      rfl
    · rw [goes, ready_met acked, if_pos pending]
      rfl
    · rw [goes, ready_met acked, clear]
      rfl
  · have goes := execTlbinv_goes on sup small created own
    dsimp only at goes
    rw [if_pos begun] at goes
    refine ⟨fun pending => ?_, fun clear => ⟨_, ?_, setS_wrote ..⟩⟩
    · rw [goes, ready_unmet (by rw [pending]; rfl)]
      rfl
    · rw [goes, ready_met (by rw [clear]; rfl)]
      rfl
  · rw [threadAt_abandonHeld, if_neg out]
  · rw [threadAt_abandonHeld, if_pos inside]
    rfl
  · refine execCtxsv_unfit on sup small (fun _ => own) ?_
    obtain same | saved := unfit
    · simp [same]
    · simp [Option.isNone_eq_false_iff, Option.isSome_iff_ne_none, saved]
  · exact execCtxsv_unfit on sup small (by simp [absent]) (by simp [absent])
  · refine ⟨execCtxsv_misaligned on sup small created own other unsaved, execCtxsv_outside on sup small created own other unsaved,
      fun aligned inside => ⟨execCtxsv_short on sup small created own other unsaved aligned inside, fun fits going fresh castle =>
        ⟨_, execCtxsv_begins on sup small created own other unsaved aligned inside fits going fresh castle, startDrain_draining .., rfl⟩,
        fun fits done => ⟨_, _, execCtxsv_saves on sup small created own other unsaved aligned inside fits done, setS_wrote .., ?_⟩⟩⟩
    obtain ⟨same, ctxs⟩ := finishDrain_stands s (getS s o.a).toNat
    obtain ⟨⟨u, ctx⟩, unbound⟩ := saveCtx_saves (finishDrain s (getS s o.a).toNat) (getS s o.a).toNat (getS s o.b).toNat
    rw [ctx, getCtx_congr ctxs, same.coresOf, funext same.keptCore]
    exact ⟨rfl, rfl, by rwa [same.coresOf] at unbound⟩
  · dsimp only
    rw [← restorable_iff]
    refine ⟨execCtxrs_refuses on sup small own saved aligned inside, execCtxrs_waits on sup small own saved aligned inside, fun good rings =>
      ⟨_, _, execCtxrs_restores on sup small own saved aligned inside good rings, setS_wrote .., (restoreCtx_ends ..).1, (restoreCtx_ends ..).2,
        fun once e mem => restoreCtx_restores once mem ?_⟩⟩
    rw [myCore, (areaRead_stands ..).here]
    obtain ⟨-, -, -, -, unbound⟩ := (restorable_iff ..).mp good
    exact unbound_ne_myCore sup (unbound e mem)
  · rw [answerAll_none none_]
    rfl
  · rw [answerAll_none none_]
    rfl
  · rw [answerAll_none none_]
    rfl
  · refine ⟨fun std few => ?_, fun bad => ?_, execRgload_misaligned on sup small created own, fun image aligned some_ fits l v read =>
      ⟨fun i low bad first => ⟨_, ?_, setS_wrote ..⟩, fun valid => ?_⟩⟩
    · obtain ⟨only, rig, rm⟩ := setRig_only s (getS s o.c).toNat (.std ((getS s o.b).toNat == 1)) [BitVec.ofNat 8 (getS s o.b).toNat]
      refine ⟨_, _, (execRgload_std on sup small created own std).trans (congrArg _ (if_neg (by omega))), only, ⟨rig, rm⟩, setS_wrote ..⟩
    · refine ⟨_, ?_, setS_wrote ..⟩
      obtain ⟨std, many⟩ | ⟨image, aligned, count⟩ := bad
      · exact (execRgload_std on sup small created own std).trans (congrArg _ (if_pos many))
      · exact execRgload_counts on sup small created own image aligned count
    · exact (execRgload_image on sup small created own image aligned some_ fits read).trans (congrArg _ (installImage_bad low bad first))
    · obtain ⟨only, rig, -⟩ := setRig_only v (getS s o.c).toNat (.image l) (l.flatMap fun w => toBytes 16 w.toNat)
      exact ⟨_, _, (execRgload_image on sup small created own image aligned some_ fits read).trans (congrArg _ (installImage_valid valid)),
        only, rig, setS_wrote ..⟩
  · refine ⟨fun bad => execMtsp_unwritable on (by rw [bad, Bool.false_and]), fun e => ⟨fun named => ?_, fun unnamed => ?_⟩,
      execMtsp_foreign on sup, fun own e => ⟨_, execMtsp_at on sup e rfl (.inr own) rfl, rfl, (getCtx_onCtx ..).trans (if_pos rfl)⟩,
      fun own e => ⟨_, execMtsp_at on sup e rfl (.inr own) rfl, rfl, (getCtx_onCtx ..).trans (if_pos rfl)⟩, fun own e => ?_,
      fun own lo hi fresh => ?_, fun own lo hi begun free => ?_⟩
    · rw [execMtsp_select on sup e, require_met (by rw [named.1, named.2]; exact beq_self_eq_true _)]
      rfl
    · rw [Traps, execMtsp_select on sup e, require_unmet (by simpa using unnamed)]
      rfl
    · have writes : exec (.mtsp o) s = .next (runBody s (mtspFres s (getS s o.a))) := execMtsp_at on sup e rfl (.inr own) rfl
      rw [writes]
      refine ⟨fun unnamed => ?_, fun ⟨reserved, context, waits⟩ unacked => ?_, fun ⟨reserved, context, waits⟩ acked => ?_⟩
      · rw [mtspFres_discards unnamed]
        rfl
      · rw [mtspFres_answers reserved context waits, ready_unmet unacked]
        rfl
      · rw [mtspFres_answers reserved context waits, ready_met acked, exec_fres]
        rfl
    · rw [execMtsp_trans on sup own lo hi]
      refine ⟨fun bad => ?_, fun fits busy => ?_, fun fits free clusters => ?_⟩
      · rw [mtspTrans_refuses fresh bad]
        rfl
      · rw [mtspTrans_waits fresh fits busy]
        rfl
      · obtain ⟨t, begins, stage, res, ctx⟩ := mtspTrans_begins free fresh fits clusters
        exact ⟨t, congrArg (fun r => Host.Outcome.next (runBody s r)) begins, stage, res, ctx⟩
    · rw [execMtsp_trans on sup own lo hi, mtspTrans_ends free begun]
      rfl
  · refine ⟨_, congrArg (fun t : Option State => Host.Outcome.next (t.getD s)) (evTransWrite_takes inside open_ new), rfl, ?_⟩
    exact congrArg Context.transOld (getCtx_setCtx ..)
  · refine ⟨_, ffbaseWrite_eq s v, rfl, haBit_cleared _, ?_⟩
    change (if ffbaseOk s.core v.toNat then { s.th.rf with ffbase := v } else s.th.rf).ffbase = _
    split <;> rfl

end Machine
end Sys2Proof
end

section
/-! ### O20: gathers (R157, R158) -/
namespace Sys2Proof
namespace Machine

/-! #### What a pop leaves of the thread set (R57, R331) -/

theorem popQ_th (s : State) (q : Nat) : ∃ a, (popQ s q).2.th = { s.th with act := a } := by
  unfold popQ
  split
  · exact ⟨s.th.act, rfl⟩
  · dsimp only [withTh, withCore]
    split
    · split
      · exact ⟨_, rfl⟩
      · exact ⟨s.th.act, rfl⟩
    · exact ⟨s.th.act, rfl⟩
theorem readV_th (s : State) (o : VOp) : ∃ a, (readV s o).2.th = { s.th with act := a } := by
  cases o with
  | q n => exact popQ_th ..
  | v n => exact ⟨_, rfl⟩
  | x i k => exact ⟨_, rfl⟩
theorem readV_creqs (s : State) (o : VOp) : (readV s o).2.th.creqs = s.th.creqs := by
  obtain ⟨a, th⟩ := readV_th s o
  rw [th]
theorem readV_inSlotJ (s : State) (o : VOp) : inSlotJ (readV s o).2 = inSlotJ s := by
  obtain ⟨a, th⟩ := readV_th s o
  rw [inSlotJ, th]
  rfl

/-! #### The checks of R157 -/

section
variable {ea : W64} {w : Nat} (idx : V512) (acc : W64)

theorem lineSetChecks_misaligned (act : List Nat) (odd : ea.toNat % (w / 8) ≠ 0) :
    lineSetChecks ea w idx act acc = .error (.trap (trapAcc cMISALIGN ea acc)) := by
  rw [lineSetChecks, alignCheck_odd _ odd]
  rfl
/-- The lowest active element beyond the page of the address is the one that traps. -/
theorem lineSetChecks_beyond {pv : W16} {e : Nat} (aligned : ea.toNat % (w / 8) = 0) (range : e < 512 / w) (active : elemOn pv w e = true)
    (beyond : ea.toNat / 4096 * 4096 + 4096 ≤ laneAddr ea w idx e)
    (lowest : ∀ f < e, elemOn pv w f = true → laneAddr ea w idx f < ea.toNat / 4096 * 4096 + 4096) :
    lineSetChecks ea w idx (activeElems pv w) acc = .error (.trap (trapAcc cBOUNDS (BitVec.ofNat 64 (laneAddr ea w idx e)) acc)) := by
  have found : ((activeElems pv w).find? fun n => decide (ea.toNat / 4096 * 4096 + 4096 ≤ laneAddr ea w idx n)) = some e := by
    rw [activeElems, List.find?_filter, List.find?_range_eq_some]
    refine ⟨by simp [active, beyond], List.mem_range.mpr range, fun f below => ?_⟩
    cases on : elemOn pv w f with
    | false => rfl
    | true => simpa using lowest f below on
  rw [lineSetChecks, alignCheck_ok _ aligned, found]
  rfl
end

/-! #### The issue of a gather (R158, R242, R280) -/

/-- The checks of R157 for a gather at an address. -/
def gathChecks (o : VGs) (s : State) (ea : W64) : Except Stop Unit :=
  lineSetChecks ea o.t.w (readV s o.b).1 (activeElems (predVal s o.p) o.t.w) (accWord .C false false (o.t.w / 8))
/-- The active elements of a gather, each with its distance from the address. -/
def gathOffs (o : VGs) (s : State) : List (Nat × Nat) :=
  (activeElems (predVal s o.p) o.t.w).map fun e => (e, elem o.t.w (readV s o.b).1 e * (o.t.w / 8))
/-- What a gather's one read is. -/
def gathKind (o : VGs) (s : State) : CKind := .gath o.t.w (predVal s o.p) (gathOffs o s) (resolveV s o.d)
/-- A gather after its checks: the one read in the pool window or at its translation. -/
def gathIssue (o : VGs) (s : State) (ea : W64) : Except Stop State :=
  let into := fun (u : State) (q : CReq) => readInto (readV s o.b).2 o.d false (.ok (issueC u q))
  if inPoolWindow ea.toNat then
    if (gathOffs o s).all fun e => poolOk s.core s.th.act (poolOff ea + e.2) (o.t.w / 8) then
      into (readV s o.b).2 (poolReq (poolOff ea) (gathKind o s) ea [] 0)
    else boundsStop ea (accWord .C false false (o.t.w / 8))
  else do
    let r ← xlateE (readV s o.b).2 .read false ea (accWord .C false false (o.t.w / 8))
    into r.2 (memReq r.1 (gathKind o s) ea [] 0)

/-- A check of every listed distance is one of every active element's. -/
theorem gathOffs_all (o : VGs) (s : State) (f : Nat → Bool) : ((gathOffs o s).all fun e => f e.2) = true ↔
    ∀ e < 512 / o.t.w, elemOn (predVal s o.p) o.t.w e = true → f (elem o.t.w (readV s o.b).1 e * (o.t.w / 8)) = true := by
  simp [gathOffs, activeElems, or_iff_not_imp_left]

section
variable (o : VGs) (s : State) {ea : W64}

theorem gathIssue_pool (window : inPoolWindow ea.toNat = true) : gathIssue o s ea =
    if (gathOffs o s).all fun e => poolOk s.core s.th.act (poolOff ea + e.2) (o.t.w / 8) then
      readInto (readV s o.b).2 o.d false (.ok (issueC (readV s o.b).2 (poolReq (poolOff ea) (gathKind o s) ea [] 0)))
    else .error (.trap (trapAcc cBOUNDS ea (accWord .C false false (o.t.w / 8)))) := by
  rw [gathIssue]
  exact if_pos window
theorem gathIssue_memory (outside : inPoolWindow ea.toNat = false) : gathIssue o s ea =
    xlateE (readV s o.b).2 .read false ea (accWord .C false false (o.t.w / 8)) >>= fun r =>
      readInto (readV s o.b).2 o.d false (.ok (issueC r.2 (memReq r.1 (gathKind o s) ea [] 0))) := by
  rw [gathIssue]
  exact if_neg (by simp [outside])
end

section
variable {o : VGs} {s : State} {i : Instr} (form : exec i s = .next (vgathForm o s)) (on : anyOn (predVal s o.p) o.t.w = true)
  (ready : queuesReady s [o.b] (some o.d) = true) (index : vopOk s o.b = true) (dest : vopOk s o.d = true)
include form on ready index dest

/-- A gather whose operands are in place is its checks, then its read. -/
theorem vgath_body : exec i s = .next (runBody s (do
    gathChecks o s (getS s o.a + BitVec.ofInt 64 o.disp.toInt)
    gathIssue o s (getS s o.a + BitVec.ofInt 64 o.disp.toInt))) := by
  refine form.trans (next_elemForm on ?_)
  rw [vecChecks_ok ready (by simp [index, dest]), effAddr_eq]
  have offs (ea : W64) : ((activeElems (predVal s o.p) o.t.w).map fun n => (n, laneAddr ea o.t.w (readV s o.b).1 n - ea.toNat)) =
      gathOffs o s := by simp only [laneAddr, Nat.add_sub_cancel_left, gathOffs]
  dsimp only [bind, Except.bind]
  rw [offs]
  rfl
theorem vgath_stops {x : Stop} (stop : gathChecks o s (getS s o.a + BitVec.ofInt 64 o.disp.toInt) = .error x) :
    exec i s = .next (onStop s x) := by
  rw [vgath_body form on ready index dest, stop]
  rfl
theorem vgath_issues (ok : gathChecks o s (getS s o.a + BitVec.ofInt 64 o.disp.toInt) = .ok ()) :
    exec i s = .next (runBody s (gathIssue o s (getS s o.a + BitVec.ofInt 64 o.disp.toInt))) := by
  rw [vgath_body form on ready index dest, ok]
  rfl
end

/-- A read that issues when the index has been read: later, or in slot j into a queue register at once and after the earlier ones (log 71). -/
theorem exec_readInto {i : Instr} {s u : State} {b d : VOp} {q : CReq}
    (h : exec i s = .next (runBody s (readInto (readV s b).2 d false (.ok (issueC u q))))) :
    ((∀ k, d ≠ .q k) ∨ inSlotJ s = false → exec i s = .next (issueC u q)) ∧
    ∀ k, d = .q k → inSlotJ s = true → (s.th.creqs ≠ [] → exec i s = .next (stalled s)) ∧
      (s.th.creqs = [] → exec i s = .next (settleRead (issueC u q))) := by
  refine ⟨fun later => ?_, fun k hd slotJ => ?_⟩
  · have plain : (toQueue d && inSlotJ (readV s b).2) = false := by
      rw [readV_inSlotJ]
      obtain other | slot := later
      · cases d with
        | q n => exact absurd rfl (other n)
        | v n => rfl
        | x i n => rfl
      · rw [slot, Bool.and_false]
    rw [h, readInto_later plain]
    rfl
  · have now : (toQueue d && inSlotJ (readV s b).2) = true := by
      rw [readV_inSlotJ, hd, slotJ]
      rfl
    refine ⟨fun busy => ?_, fun idle => ?_⟩
    · rw [h, readInto_waits now (by simpa [readV_creqs] using busy)]
      rfl
    · rw [h, readInto_now now (by simp [readV_creqs, idle])]
      rfl

/-- Settles O20: the checks of R157 stop the gather or leave its one read, whose issue stands in `gathIssue`. -/
theorem gathersReadEachActiveElement : Obligations.GathersReadEachActiveElement := by
  unfold Obligations.GathersReadEachActiveElement
  refine ⟨fun o s i gather _ on ready index dest => ?_, fun o => ⟨fun s off => next_elemForm_off off, fun s off => next_elemForm_off off⟩⟩
  have form : exec i s = .next (vgathForm o s) := by obtain rfl | rfl := gather <;> rfl
  intro ea n x active off beyond offs done
  refine ⟨fun odd => vgath_stops form on ready index dest (lineSetChecks_misaligned _ _ _ odd), fun e range aligned activeE beyondE lowest =>
    vgath_stops form on ready index dest (lineSetChecks_beyond _ _ aligned range activeE beyondE fun f below activeF =>
      Nat.not_le.mp (lowest f below activeF)), fun aligned inside => ?_⟩
  have page : ∀ e ∈ activeElems (predVal s o.p) o.t.w, laneAddr ea o.t.w x.1 e < ea.toNat / 4096 * 4096 + 4096 := fun e he => by
    obtain ⟨range, activeE⟩ := List.mem_filter.mp he
    exact Nat.not_le.mp (inside e (List.mem_range.mp range) activeE)
  have goes : exec i s = .next (runBody s (gathIssue o s ea)) :=
    vgath_issues form on ready index dest (lineSetChecks_ok _ aligned page)
  have inPool := gathOffs_all o s fun d => poolOk s.core s.th.act (poolOff ea + d) n
  refine ⟨fun window fits => ⟨poolReq (poolOff ea) (gathKind o s) ea [] 0, rfl, rfl, rfl, rfl, rfl, rfl, rfl, exec_readInto (b := o.b) ?_⟩,
    fun window ⟨e, range, activeE, out⟩ => ?_, fun memory => ⟨fun y u hx => ⟨xlateCore_only hx, memReq y (gathKind o s) ea [] 0,
      rfl, rfl, rfl, rfl, rfl, rfl, rfl, rfl, exec_readInto (b := o.b) ?_⟩, fun hx => ?_, fun hx => ?_⟩⟩
  · rw [goes, gathIssue_pool o s window, if_pos (inPool.mpr fits)]
  · have unfit : ¬((gathOffs o s).all fun e => poolOk s.core s.th.act (poolOff ea + e.2) n) = true := fun all =>
      absurd ((inPool.mp all e range activeE).symm.trans out) (by decide)
    rw [Traps, goes, gathIssue_pool o s window, if_neg unfit]
    rfl
  · rw [goes, gathIssue_memory o s memory, xlateE_ok hx]
    rfl
  · rw [goes, gathIssue_memory o s memory, xlateE_page hx]
    rfl
  · rw [Traps, goes, gathIssue_memory o s memory, xlateE_perm hx]
    rfl

end Machine
end Sys2Proof
end

section
/-! ### O45: vector forms that move elements (R151 to R153, R156) -/
namespace Sys2Proof
namespace Machine

/-! #### Elements of a register (R90) -/

/-- A register made of fewer elements than it has room for holds zeros after them. -/
theorem elem_ofElems_after (w : Nat) {l : List Nat} {n : Nat} (after : l.length ≤ n) : elem w (ofElems w l) n = 0 := by
  have small : (ofElems w l).toNat < 2 ^ (w * n) := by
    rw [ofElems, BitVec.toNat_ofNat]
    calc joinDigits w l % 2 ^ 512 ≤ joinDigits w l := Nat.mod_le _ _
      _ < 2 ^ (w * l.length) := joinDigits_lt w l
      _ ≤ 2 ^ (w * n) := Nat.pow_le_pow_right (by decide) (Nat.mul_le_mul_left w after)
  rw [elem, bitsOf, Nat.div_eq_of_lt small, Nat.zero_mod]
/-- The elements of one register placed in a row: in place `n` stands the `n`-th that is named, or zero. -/
theorem elem_ofElems_named {w : Nat} (v : V512) (l : List Nat) {n : Nat} (hn : n < 512 / w) :
    elem w (ofElems w (l.map (elem w v))) n = match l[n]? with
      | some m => elem w v m
      | none => 0 := by
  by_cases named : n < l.length
  · rw [elem_ofElems _ _ _ (by simpa using named) (elem_fits hn), List.getElem?_eq_getElem named, List.getElem_map]
    exact Nat.mod_eq_of_lt (elem_lt ..)
  · rw [elem_ofElems_after _ (by simpa using named), List.getElem?_eq_none (by omega)]
/-- One element of a register replaced. -/
theorem elem_ofElems_set {w : Nat} (v : V512) (m x : Nat) {n : Nat} (hn : n < 512 / w) :
    elem w (ofElems w ((elems w v).set m x)) n = if n = m then x % 2 ^ w else elem w v n := by
  rw [elem_ofElems _ _ _ (by simpa [elems] using hn) (elem_fits hn), List.getElem_set]
  by_cases same : m = n
  · rw [if_pos same, if_pos same.symm]
  · rw [if_neg same, if_neg (Ne.symm same)]
    simpa [elems] using Nat.mod_eq_of_lt (elem_lt w v n)

/-! #### The checks, then the form (R55, R57, R63) -/

/-- The element written is the low bits of what a form gives it. -/
theorem ElemResult.of_reduced {i : Instr} {p : Pred} {w : Nat} {srcs : List VOp} {d : VOp} {f : State → List V512 → Nat → Nat}
    (h : ElemResult i p w srcs d fun s vs n => (f s vs n % 2 ^ w, 0)) : ElemResult i p w srcs d fun s vs n => (f s vs n, 0) := by
  simpa only [ElemResult, Nat.mod_mod] using h

section
variable {s : State} {srcs : List VOp} {dst : Option VOp} (b : Except Stop State)

theorem runBody_vecChecks_stall (busy : queuesReady s srcs dst = false) : runBody s (vecChecks s srcs dst >>= fun _ => b) = stalled s := by
  rw [vecChecks_stall busy]
  rfl
theorem runBody_vecChecks_bounds (ready : queuesReady s srcs dst = true) (out : (srcs ++ dst.toList).all (vopOk s) = false) :
    runBody s (vecChecks s srcs dst >>= fun _ => b) = takeTrap s (trapOf cBOUNDS 0) := by
  rw [vecChecks_bounds ready out]
  rfl
theorem runBody_vecChecks_ok (ready : queuesReady s srcs dst = true) (inside : (srcs ++ dst.toList).all (vopOk s) = true) :
    runBody s (vecChecks s srcs dst >>= fun _ => b) = runBody s b := by
  rw [vecChecks_ok ready inside]
  rfl
end

/-! #### The forms -/

section
variable {o : VExt} {s : State} (on : pred0 s o.p = true)
include on

/-- `vext` under bit 0 of its predicate (R152). -/
theorem execVext_body : exec (.vext o) s = .next (runBody s (vecChecks s [o.a] none >>= fun _ => .ok (writeS (readV s o.a).2 o.d
    (extendTo o.t (elem o.t.w (readV s o.a).1 ((readS s o.b).toNat % (512 / o.t.w))))))) := next_bit0Form on rfl
end
section
variable {o : VIns} {s : State} (on : anyOn (predVal s o.p) o.t.w = true)
include on

/-- `vins` with some active element (R152). -/
theorem execVins_body : exec (.vins o) s = .next (runBody s (vecChecks s [] (some o.d) >>= fun _ =>
    .ok (if elemOn (predVal s o.p) o.t.w ((readS s o.b).toNat % (512 / o.t.w)) then
      writeVD s (resolveV s o.d) (ofElems o.t.w ((elems o.t.w (oldV s (resolveV s o.d))).set ((readS s o.b).toNat % (512 / o.t.w))
        ((readS s o.a).toNat % 2 ^ o.t.w))) else s))) := next_elemForm on rfl
end
section
variable {o : VUnT} {s : State} (on : anyOn (predVal s o.p) o.t.w = true)
include on

/-- `vcompress` with some active element (R153): its destination resolves before its source pops. -/
theorem execVcompress_body : exec (.vcompress o) s = .next (runBody s (vecChecks s [o.a] (some o.d) >>= fun _ =>
    .ok (writeVD (readV s o.a).2 (resolveV s o.d) (ofElems o.t.w ((activeElems (predVal s o.p) o.t.w).map (elem o.t.w (readV s o.a).1)))))) := by
  have place : resolveV (readV s o.a).2 o.d = resolveV s o.d := resolveV_congr (by rw [vw_readV]) o.d
  rw [← place]
  exact next_elemForm on rfl
end

/-- Settles O45: the moves per element are `vecForm` of their stated element; `vext`, `vins` and `vcompress` are their checks, then one write. -/
theorem elementMovesPlaceTheirElements : Obligations.ElementMovesPlaceTheirElements := by
  unfold Obligations.ElementMovesPlaceTheirElements
  refine ⟨fun o i form => elemResult_of fun s => ?_, fun o i form => .of_reduced (elemResult_of fun s => ?_),
    fun o => .of_reduced (elemResult_of fun _ => rfl), fun o => elemResult_of fun _ => rfl, fun o => elemResult_of fun _ => rfl,
    fun o s => ⟨fun off => congrArg Host.Outcome.next (bit0Form_false _ off), fun on busy => ?_, fun on ready out => ?_,
      fun on ready inside => ⟨_, ?_, writeS_wrote ..⟩⟩,
    fun o s => ?_, fun o s => ?_, fun o => elemResult_of fun _ => rfl⟩
  · obtain rfl | rfl := form <;> rfl
  · obtain rfl | rfl := form <;> rfl
  · rw [execVext_body on, runBody_vecChecks_stall _ busy]
  · rw [Traps, execVext_body on, runBody_vecChecks_bounds _ ready (by simp [out])]
  · rw [execVext_body on, runBody_vecChecks_ok _ ready (by simp [inside])]
    rfl
  · intro w m
    refine ⟨next_elemForm_off, fun on ready out => ?_, fun on ready inside => ?_⟩
    · rw [Traps, execVins_body on, runBody_vecChecks_bounds _ ready (by simp [out])]
    · rw [execVins_body on, runBody_vecChecks_ok _ ready (by simp [inside])]
      refine ⟨fun off => congrArg Host.Outcome.next (if_neg (Bool.eq_false_iff.mp off)), fun active =>
        ⟨_, _, congrArg Host.Outcome.next (if_pos active), writeVD_wrote .., fun n hn => ?_⟩⟩
      rw [elem_ofElems_set _ _ _ hn, Nat.mod_mod]
  · intro w act
    refine ⟨next_elemForm_off, fun on busy => ?_, fun on ready out => ?_, fun on ready inside =>
      ⟨_, _, ?_, writeVD_wrote .., fun n hn => elem_ofElems_named _ act hn⟩⟩
    · rw [execVcompress_body on, runBody_vecChecks_stall _ busy]
    · rw [Traps, execVcompress_body on, runBody_vecChecks_bounds _ ready (by simpa using out)]
    · rw [execVcompress_body on, runBody_vecChecks_ok _ ready (by simpa using inside)]
      rfl

end Machine
end Sys2Proof
end

section
/-! ### O50: matrix forms at issue -/
namespace Sys2Proof
namespace Machine

/-- A matrix form that needs a pending record waits, whatever its checks would answer (R161). -/
theorem matrixForm_pending {s : State} {p : Pred} {need : List (Fin 8)} {pre : Except Stop Unit} {k : Except Stop State}
    (on : pred0 s p = true) (pending : ∃ m ∈ need, s.th.shapes[m].known = false) : matrixForm s p need pre k = stalled s := by
  obtain ⟨m, hm, unknown⟩ := pending
  have waits : need.all (fun m => s.th.shapes[m].known) = false :=
    List.all_eq_false.mpr ⟨m, hm, Bool.eq_false_iff.mp unknown⟩
  rw [matrixForm, on, knownE, ready_unmet waits, runBody_error]
  split
  · rfl
  · rfl

/-- Reset, but for the record of M1, which waits for the rank that an `mreef` gives it (R161, R189). -/
def pendingRecord : State := withTh State.reset fun t => { t with shapes := t.shapes.set 1 (.pending 1) }
/-- `mld.f32 M1` from byte 1 of memory, which no row of a location starts at (R175). -/
def misalignedLoad : MLoc := ⟨⟨0, false⟩, .f32, .ieee, 0, 1, false, 1, 0, 0⟩

/-- Refutes O50: where the record of its destination is pending, `mld` of a misaligned location is not ready (R161), as the first clause
says; the clause of the location forms has it trap MISALIGN, since it does not ask for a known record. -/
theorem not_matrixFormsJoinTheQueueOrTrap : ¬ Obligations.MatrixFormsJoinTheQueueOrTrap := by
  intro h
  obtain ⟨-, -, forms, -⟩ := h
  obtain ⟨locations, -⟩ := forms pendingRecord (by decide) rfl
  obtain ⟨stops, -⟩ := locations misalignedLoad (by decide)
  have misaligned : locE pendingRecord .f32 (mlocOf pendingRecord misalignedLoad) = .error (.trap (trapOf cMISALIGN 1)) := by decide
  have traps : exec (.mld32 misalignedLoad) pendingRecord = .next (takeTrap pendingRecord (trapOf cMISALIGN 1)) :=
    stops _ (by simp) _ misaligned
  have waits : exec (.mld32 misalignedLoad) pendingRecord = .next (stalled pendingRecord) :=
    congrArg Host.Outcome.next (matrixForm_pending (by decide) ⟨1, by decide, by decide⟩)
  have same : stalled pendingRecord = takeTrap pendingRecord (trapOf cMISALIGN 1) := Host.Outcome.next.inj (waits.symm.trans traps)
  have marks : Issue.stalled = .trapped := (congrArg (·.th.res) same).trans (takeTrap_res ..)
  cases marks

end Machine
end Sys2Proof
end

section
/-! ### O51: the matrix unit -/
namespace Sys2Proof
namespace Machine

/-! #### A core's queue, macros and thread sets after a change -/

@[simp] theorem onCore_mem (s : State) (core : Nat) (f : CoreSt → CoreSt) : (onCore s core f).mem = s.mem := setCore_mem ..
@[simp] theorem onThread_mem (s : State) (g : Nat) (f : Thread → Thread) : (onThread s g f).mem = s.mem := setThread_mem ..
@[simp] theorem getCore_onCore_same (s : State) (core : Nat) (f : CoreSt → CoreSt) : getCore (onCore s core f) core = f (getCore s core) := by
  rw [getCore_onCore, if_pos rfl]
@[simp] theorem getClu_onCore (s : State) (core k : Nat) (f : CoreSt → CoreSt) : getClu (onCore s core f) k = getClu s k := by
  rw [getClu, onCore, setCore_clusters, getClu]
@[simp] theorem getClu_onClu_same (s : State) (k : Nat) (f : Cluster → Cluster) : getClu (onClu s k f) k = f (getClu s k) := by
  rw [onClu, getClu_setClu, if_pos rfl]
@[simp] theorem threadAt_onThread_same (s : State) (g : Nat) (f : Thread → Thread) : threadAt (onThread s g f) g = f (threadAt s g) := by
  rw [onThread, threadAt_setThread, if_pos rfl]
@[simp] theorem onThread_mq (s : State) (g core : Nat) (f : Thread → Thread) : (getCore (onThread s g f) core).mq = (getCore s core).mq := by
  rw [onThread, getCore_setThread]
@[simp] theorem macroAt_onThread (s : State) (g core n : Nat) (f : Thread → Thread) :
    macroAt (getCore (onThread s g f) core) n = macroAt (getCore s core) n := by
  rw [onThread, getCore_setThread]
  rfl

/-! #### Macros that are emptied (R163, R177) -/

/-- A change of one of its macros leaves every other field of a core. -/
theorem macroPut_frame (x : CoreSt) (n : Nat) (a : MArr) : macroPut x n a = { x with macros := (macroPut x n a).macros } := by
  unfold macroPut
  split
  · rfl
  · rfl
theorem macroFree_frame (x : CoreSt) (n : Nat) : macroFree x n = { x with macros := (macroFree x n).macros } := by
  unfold macroFree
  split
  · rw [macroPut_frame, macroPut_frame x]
  · rw [macroPut_frame, macroPut_frame x]
  · exact macroPut_frame ..
theorem foldl_macroFree_frame (l : List Nat) (x : CoreSt) : l.foldl macroFree x = { x with macros := (l.foldl macroFree x).macros } := by
  induction l generalizing x with
  | nil => rfl
  | cons n l ih => rw [List.foldl_cons, ih, macroFree_frame x n]

theorem macroAt_eq (x : CoreSt) (mac : Fin 8) : macroAt x mac.val = x.macros[mac] := by
  simp [macroAt, List.getD_eq_getElem?_getD]
/-- One of the macros emptied stands empty, and the others as before. -/
theorem macroAt_macroPut_empty (x : CoreSt) (n m : Nat) :
    macroAt (macroPut x n .empty) m = if m = n then .empty else macroAt x m := by
  unfold macroAt macroPut
  split
  · next inside =>
    simp only [Vector.toList_set, List.getD_eq_getElem?_getD, List.getElem?_set, Vector.length_toList]
    by_cases same : m = n
    · simp [same, inside]
    · simp [same, Ne.symm same]
  · next large =>
    by_cases same : m = n
    · rw [if_pos same, same, List.getD_eq_default _ _ (by simpa using large)]
    · rw [if_neg same]
@[simp] theorem macroAt_macroFree_same (x : CoreSt) (n : Nat) : macroAt (macroFree x n) n = .empty := by
  unfold macroFree
  split
  · simp [macroAt_macroPut_empty]
  · simp [macroAt_macroPut_empty]
  · simp [macroAt_macroPut_empty]
theorem macroAt_macroFree_empty {x : CoreSt} {m : Nat} (n : Nat) (h : macroAt x m = .empty) : macroAt (macroFree x n) m = .empty := by
  unfold macroFree
  split
  · simp [macroAt_macroPut_empty, h]
  · simp [macroAt_macroPut_empty, h]
  · simp [macroAt_macroPut_empty, h]
theorem macroAt_foldl_macroFree_empty (l : List Nat) {x : CoreSt} {m : Nat} (h : macroAt x m = .empty) :
    macroAt (l.foldl macroFree x) m = .empty := by
  induction l generalizing x with
  | nil => exact h
  | cons n l ih => exact ih (macroAt_macroFree_empty n h)

/-! #### A command changed in its queue, or gone from it (R165, R169) -/

section
variable (s : State) (core : Nat) (c : MCmd)

@[simp] theorem cmdPut_mem : (cmdPut s core c).mem = s.mem := onCore_mem ..
@[simp] theorem getClu_cmdPut (k : Nat) : getClu (cmdPut s core c) k = getClu s k := getClu_onCore ..
@[simp] theorem cmdPut_mq : (getCore (cmdPut s core c) core).mq = (getCore s core).mq.map fun e => if e.num = c.num then c else e := by
  rw [cmdPut, getCore_onCore_same]
@[simp] theorem threadAt_cmdPut (g : Nat) : threadAt (cmdPut s core c) g = threadAt s g :=
  threadAt_onCore (f := fun x => { x with mq := x.mq.map fun e => if e.num = c.num then c else e }) (fun _ => rfl) g
/-- A changed command keeps its number, and the queue its order. -/
theorem cmdPut_nums : (getCore (cmdPut s core c) core).mq.map (·.num) = (getCore s core).mq.map (·.num) := by
  rw [cmdPut_mq, List.map_map]
  refine List.map_congr_left fun e _ => ?_
  rw [Function.comp_apply]
  split
  · next same => exact same.symm
  · rfl

/-- The arrival of a head changes its cycle alone. -/
theorem noteHead_frame (now : W64) (x : CoreSt) : noteHead now x = { x with mq := (noteHead now x).mq } := by
  unfold noteHead
  split
  · rfl
  · rfl
theorem noteHead_nums (now : W64) (x : CoreSt) : (noteHead now x).mq.map (·.num) = x.mq.map (·.num) := by
  unfold noteHead
  split
  · next e => rw [e, List.map_cons, List.map_cons]
  · next e => rw [e]

/-- The core from which a command has gone (R165, R186). -/
def withoutCmd (now : W64) (c : MCmd) (x : CoreSt) : CoreSt :=
  noteHead now (c.lose.foldl macroFree { x with mq := x.mq.filter fun e => e.num != c.num })

theorem withoutCmd_frame (now : W64) (x : CoreSt) :
    withoutCmd now c x = { x with mq := (withoutCmd now c x).mq, macros := (withoutCmd now c x).macros } := by
  rw [withoutCmd, noteHead_frame, foldl_macroFree_frame]
theorem withoutCmd_nums (now : W64) (x : CoreSt) : (withoutCmd now c x).mq.map (·.num) = (x.mq.filter fun e => e.num != c.num).map (·.num) := by
  rw [withoutCmd, noteHead_nums, foldl_macroFree_frame]
theorem macroAt_withoutCmd_empty (now : W64) {x : CoreSt} {m : Nat} (h : macroAt x m = .empty) : macroAt (withoutCmd now c x) m = .empty := by
  rw [withoutCmd, noteHead_frame]
  exact macroAt_foldl_macroFree_empty (x := { x with mq := x.mq.filter fun e => e.num != c.num }) c.lose h

end

section
variable {s : State} {core : Nat} {c : MCmd} (home : c.migrated = none)
include home

/-- A command that has not migrated changes its own core alone when it ends. -/
theorem cmdEnd_own : cmdEnd s core c = onCore s core (withoutCmd s.cycle c) := by
  rw [cmdEnd, freeUnit, home]
  rfl
theorem cmdEnd_mem : (cmdEnd s core c).mem = s.mem := by rw [cmdEnd_own home, onCore_mem]
theorem cmdEnd_nums : (getCore (cmdEnd s core c) core).mq.map (·.num) = ((getCore s core).mq.filter fun e => e.num != c.num).map (·.num) := by
  rw [cmdEnd_own home, getCore_onCore_same, withoutCmd_nums]
theorem cmdEnd_recprog : (getCore (cmdEnd s core c) core).recprog = (getCore s core).recprog := by
  rw [cmdEnd_own home, getCore_onCore_same, withoutCmd_frame]
theorem macroAt_cmdEnd_empty {n : Nat} (empty : macroAt (getCore s core) n = .empty) : macroAt (getCore (cmdEnd s core c) core) n = .empty := by
  rw [cmdEnd_own home, getCore_onCore_same]
  exact macroAt_withoutCmd_empty _ _ empty
theorem threadAt_cmdEnd (g : Nat) : threadAt (cmdEnd s core c) g = threadAt s g := by
  rw [cmdEnd_own home]
  exact threadAt_onCore (fun x => by rw [withoutCmd_frame]) g
end

/-! #### Grants, migration and parity errors (R168, R169, R172) -/

/-- The core at which the round stands has fewer grants than its next command's weight: that command is granted (R168). -/
theorem exec_matrixGrant {s : State} {k : Nat} {c : MCmd}
    (next : (getCore s (8 * k + (getClu s k).mxCore)).mq.find? (fun e => !e.granted) = some c) (sound : c.fault = none)
    (home : c.migrated = none) (runs : engineRuns s (ctxOfCore s (8 * k + (getClu s k).mxCore)) = true)
    (due : (getClu s k).mxGrants < c.weight) :
    exec (.matrixGrant k) s = .next (cmdPut (onClu s k fun y => { y with mxGrants := y.mxGrants + 1 })
      (8 * k + (getClu s k).mxCore) { c with granted := true }) := by
  refine congrArg Host.Outcome.next ?_
  simp [evMatrixGrant, grantAt, next, sound, home, runs, due]

/-- The first neighbour in the partition's rectangle, when its unit is idle, is the one that a search by port finds. -/
theorem find_neighbour {f : Nat → Option Nat} {ok : Nat → Bool} {p n k : Nat} (hp : p < n) (hk : f p = some k) (good : ok k = true)
    (before : ∀ q < p, ∀ j, f q = some j → ok j = false) : ((List.range n).filterMap f).find? ok = some k := by
  have first : (List.range n).find? (fun q => (f q).any ok) = some p := by
    refine List.find?_range_eq_some.mpr ⟨by simpa [hk] using good, List.mem_range.mpr hp, fun q hq => ?_⟩
    cases hj : f q with
    | none => rfl
    | some j => simp [before q hq j hj]
  rw [List.find?_filterMap, first]
  exact hk

/-- A product by address that has waited 4,096 cycles at the head migrates to the unit that is found (R169). -/
theorem exec_matrixMigration {s : State} {core k : Nat} {c : MCmd} {l : List MCmd} {acc : Bool} {t : Ty} {rd : Rd} {d mac : Fin 8}
    {a : Option (Fin 8)} {x : MLocV} {base t0 : W64} {ty : Ty} (queue : (getCore s core).mq = c :: l)
    (op : c.op = .mmul acc t rd d a x (some base) mac) (waits : c.granted = false) (sound : c.fault = none)
    (runs : engineRuns s (ctxOfCore s core) = true) (head : c.headAt = some t0) (long : 4096 ≤ (s.cycle - t0).toNat)
    (tile : baseType s core base = some ty)
    (found : ((List.range 4).filterMap fun p => neighbourOf (cluOf core) p).find? (fun k =>
      inRect (getPart s (getCtx s (ctxOfCore s core)).part) k && unitIdle s k (ty.w == 16)) = some k) :
    exec (.matrixMigration core) s = .next (cmdPut (onClu s k fun x => { x with migrated := some core }) core
      { c with granted := true, migrated := some k }) := by
  refine congrArg Host.Outcome.next ?_
  have go : (c.granted || c.fault.isSome || !engineRuns s (ctxOfCore s core) || decide ((s.cycle - t0).toNat < 4096)) = false := by
    simp only [waits, sound, runs, Nat.not_lt.mpr long]
    decide
  simp only [evMatrixMigration, queue, op, head, tile, found]
  rw [go]
  rfl

section
variable {s : State} {core src : Nat} {mac : Fin 8} {c : MCmd} {l : List MCmd}

/-- The granted oldest command of a core, when it stages its tile there, is the one that a parity error there meets (R172). -/
theorem stagedAt_own (queue : (getCore s core).mq = c :: l) (granted : c.granted = true) (home : c.migrated = none)
    (stages : stagesIn c mac.val = true) : stagedAt s core mac.val = some (core, c) := by
  have own : (runsIn s core none).filter (stagesIn · mac.val) = some c := by
    simp [runsIn, queue, granted, home, stages, Option.filter]
  rw [stagedAt, own]
/-- The oldest command of the core stages no tile there. -/
theorem no_own_stage (absent : ∀ c, ¬ ((∃ l, (getCore s core).mq = c :: l) ∧ c.granted = true ∧ c.migrated = none ∧
    stagesIn c mac.val = true)) :
    (runsIn s core none).filter (stagesIn · mac.val) = none := by
  rw [Option.filter_eq_none_iff]
  intro c oldest stages
  obtain ⟨head, ready⟩ := Option.filter_eq_some_iff.mp oldest
  obtain ⟨granted, home⟩ := (Bool.and_eq_true _ _).mp ready
  exact absent c ⟨List.head?_eq_some_iff.mp head, granted, beq_iff_eq.mp home, stages⟩
theorem stagedAt_loaded {h : Nat} {cells : List (List Int)} {e : List Int} {m : BitVec 64} {b : Bool}
    (own : (runsIn s core none).filter (stagesIn · mac.val) = none) (loaded : macroAt (getCore s core) mac.val = .loaded h cells e m b) :
    stagedAt s core mac.val = none := by
  rw [stagedAt, own, loaded]
theorem stagedAt_migrated (own : (runsIn s core none).filter (stagesIn · mac.val) = none)
    (empty : macroAt (getCore s core) mac.val = .empty) (unit : (getClu s (cluOf core)).migrated = some src) (queue : (getCore s src).mq = c :: l) (granted : c.granted = true)
    (there : c.migrated = some (cluOf core)) : stagedAt s core mac.val = some (src, c) := by
  have runs : runsIn s src (some (cluOf core)) = some c := by simp [runsIn, queue, granted, there, Option.filter]
  rw [stagedAt, own, empty]
  simp [unit, runs]
theorem exec_parity_staged (staged : stagedAt s core mac.val = some (src, c)) :
    exec (.macroParityError core mac.val) s = .next (cmdPut s src { c with bad := some (c.bad.getD mac.val) }) := by
  refine congrArg Host.Outcome.next ?_
  simp [evMacroParity, staged]
theorem exec_parity_loaded {h : Nat} {cells : List (List Int)} {e : List Int} {m : BitVec 64} {b : Bool}
    (staged : stagedAt s core mac.val = none) (loaded : macroAt (getCore s core) mac.val = .loaded h cells e m b) :
    exec (.macroParityError core mac.val) s = .next (onCore s core fun x => macroPut x mac.val (.loaded h cells e m true)) := by
  refine congrArg Host.Outcome.next ?_
  simp [evMacroParity, staged, loaded]
end

/-! #### Commands of registers (R160, R166, R181 to R186) -/

/-- A command that makes a register from registers or from what its issue read, without the core's macros. -/
@[simp] def MOp.usesNoMacro : MOp → Bool
  | .mzero _ | .mfac _ _ _ | .mlradd _ _ _ | .mlrmul _ _ _ | .mprom _ _ | .mtr _ _ | .mscale _ _ _ => true
  | _ => false
/-- The product of a register with a tile that stands in the core's macros. -/
@[simp] def MOp.onMacro : MOp → Bool
  | .mmul _ _ _ _ (some _) _ none _ => true
  | _ => false
/-- A command that reads no memory and no pool. -/
@[simp] def MOp.onRegisters (op : MOp) : Bool := op.usesNoMacro || op.onMacro

section
variable {s : State} {core : Nat} {c : MCmd}

/-- A command that begins keeps all but its destination's old value. -/
theorem begun_frame (core : Nat) (c : MCmd) (s : State) : begun core c s = { c with prior := (begun core c s).prior } := by
  unfold begun
  split
  · rfl
  · rfl
@[simp] theorem begun_op : (begun core c s).op = c.op := by rw [begun_frame]
@[simp] theorem begun_part : (begun core c s).part = c.part := by rw [begun_frame]
@[simp] theorem begun_num : (begun core c s).num = c.num := by rw [begun_frame]
@[simp] theorem begun_ts : (begun core c s).ts = c.ts := by rw [begun_frame]
@[simp] theorem begun_gran : (begun core c s).gran = c.gran := by rw [begun_frame]
@[simp] theorem begun_migrated : (begun core c s).migrated = c.migrated := by rw [begun_frame]
/-- The operands of a command that begins are the registers as they stand (R160). -/
@[simp] theorem operandOf_begun (fresh : c.prior = none) (m : Fin 8) : operandOf s core (begun core c s) m = mvalOf s core c m := by
  have same : mvalOf s core (begun core c s) = mvalOf s core c := by
    funext m
    rw [mvalOf, begun_ts, mvalOf]
  rw [operandOf, begun_op, same]
  split
  · next dest => simp [begun, dest, fresh]
  · rfl

theorem readOperands_onRegisters {n : Nat} (regs : c.op.onRegisters = true) : readOperands core n c s = .ok ⟨(), c, s⟩ := by
  unfold readOperands
  split
  · next op => simp [op] at regs
  · next areg _ baddr _ op =>
    cases baddr with
    | some base => simp [op] at regs
    | none =>
      cases areg with
      | none => simp [op] at regs
      | some a => rfl
  · rfl
theorem putResult_onRegisters {d : Fin 8} (v : MVal) (regs : c.op.onRegisters = true) (dest : c.op.dest = some d) :
    putResult core c v s = mvalPut core c d v s := by
  unfold putResult
  split
  · next op _ => simp [op] at regs
  · next d' e _ =>
    rw [dest] at e
    cases e
    rfl
  · next e => simp [dest] at e
theorem doneWith_usesNoMacro {p : MVal} (plain : c.op.usesNoMacro = true) : doneWith core c p s = s := by
  unfold doneWith
  split
  · next op => simp [op] at plain
  · next op => simp [op] at plain
  · next op => simp [op] at plain
  · rfl
theorem resultOf_usesNoMacro {p : MVal} (plain : c.op.usesNoMacro = true) : resultOf core c s p = p := by
  unfold resultOf
  split
  · next op => simp [op] at plain
  · rfl
/-- A command of registers computes its whole product and puts its result. -/
theorem runCmd_onRegisters {d : Fin 8} (regs : c.op.onRegisters = true) (dest : c.op.dest = some d) (whole : c.part = []) :
    runCmd core c s = .ok ⟨(), begun core c s,
      let b := begun core c s
      let p := productOf core b s
      mvalPut core b d (resultOf core b s p) (doneWith core b p s)⟩ := by
  have reads : readOperands core 64 (begun core c s) s = .ok ⟨(), begun core c s, s⟩ := readOperands_onRegisters (by simpa using regs)
  unfold runCmd
  split
  · next op => simp [op] at regs
  · next op => simp [op] at regs
  · next op => simp [op] at regs
  · next op => simp [op] at regs
  · next op => simp [op] at regs
  · rw [reads]
    simp [soFar, whole, putResult_onRegisters _ (show (begun core c s).op.onRegisters = true by simpa using regs)
      (show (begun core c s).op.dest = some d by simpa using dest)]
end

/-! #### The oldest command of a core completes (R165, R166, R171) -/

/-- The oldest command of a core may run, has not migrated and has not begun. -/
structure FreshHead (s : State) (core : Nat) (c : MCmd) (l : List MCmd) : Prop where
  queue : (getCore s core).mq = c :: l
  granted : c.granted = true
  sound : c.fault = none
  runs : engineRuns s (ctxOfCore s core) = true
  alone : ∀ e ∈ l, e.num ≠ c.num
  home : c.migrated = none
  fresh : c.prior = none
  whole : c.part = []

/-- MATRIX_COMMAND_COMPLETE leads to `t`, where the oldest command has left the queue, and memory stays. -/
def Completes (s : State) (core : Nat) (l : List MCmd) (t : State) : Prop :=
  exec (.matrixCommandComplete core) s = .next t ∧ (getCore t core).mq.map (·.num) = l.map (·.num) ∧ t.mem = s.mem

section
variable {s : State} {core : Nat} {c : MCmd} {l : List MCmd} (head : FreshHead s core c l)
include head

theorem FreshHead.exec_ok {r : MxOut Unit} (run : runCmd core c s = .ok r) :
    exec (.matrixCommandComplete core) s = .next (cmdEnd r.s core r.c) := by
  refine congrArg Host.Outcome.next ?_
  simp [evMatrixComplete, head.queue, head.granted, head.sound, head.runs, run]
theorem FreshHead.exec_fault {f : MFault} (run : runCmd core c s = .error f) :
    exec (.matrixCommandComplete core) s = .next (cmdFaults f.s core f) := by
  refine congrArg Host.Outcome.next ?_
  simp [evMatrixComplete, head.queue, head.granted, head.sound, head.runs, run]

/-- A command that ran to its end leaves the queue, whatever it left in the core otherwise. -/
theorem FreshHead.completes {r : MxOut Unit} (run : runCmd core c s = .ok r) (num : r.c.num = c.num) (home : r.c.migrated = none)
    (mq : (getCore r.s core).mq = (getCore s core).mq) (mem : r.s.mem = s.mem) :
    Completes s core l (cmdEnd r.s core r.c) := by
  have rest : l.filter (fun e => e.num != c.num) = l := List.filter_eq_self.mpr fun e he => by simpa using head.alone e he
  refine ⟨head.exec_ok run, ?_, (cmdEnd_mem home).trans mem⟩
  rw [cmdEnd_nums home, mq, head.queue, num]
  simp [rest]
end

section
variable (s : State) (core : Nat) (c : MCmd) (d : Fin 8) (v : MVal)

/-- A result put in a register leaves the core's queue and macros, memory, and the other registers of the thread set (R160). -/
@[simp] theorem mvalPut_mem : (mvalPut core c d v s).mem = s.mem := onThread_mem ..
@[simp] theorem mvalPut_mq (k : Nat) : (getCore (mvalPut core c d v s) k).mq = (getCore s k).mq := onThread_mq ..
@[simp] theorem macroAt_mvalPut (k n : Nat) : macroAt (getCore (mvalPut core c d v s) k) n = macroAt (getCore s k) n := macroAt_onThread ..
@[simp] theorem threadAt_mvalPut : threadAt (mvalPut core c d v s) (4 * core + c.ts) =
    { threadAt s (4 * core + c.ts) with m := (threadAt s (4 * core + c.ts)).m.set d v } := threadAt_onThread_same ..
@[simp] theorem mvalOf_mvalPut_same : mvalOf (mvalPut core c d v s) core c d = v := by simp [mvalOf]
theorem mvalOf_mvalPut_other {m : Fin 8} (h : m ≠ d) : mvalOf (mvalPut core c d v s) core c m = mvalOf s core c m := by
  have apart : d.val ≠ m.val := fun e => h (Fin.ext e.symm)
  simp [mvalOf, apart]
theorem mvalOf_cmdPut (e : MCmd) (m : Fin 8) : mvalOf (cmdPut s core e) core c m = mvalOf s core c m := by rw [mvalOf, threadAt_cmdPut, mvalOf]
theorem mvalOf_cmdEnd {e : MCmd} (home : e.migrated = none) (m : Fin 8) : mvalOf (cmdEnd s core e) core c m = mvalOf s core c m := by
  rw [mvalOf, threadAt_cmdEnd home, mvalOf]
theorem mvalPut_begun (t : State) : mvalPut core (begun core c s) d v t = mvalPut core c d v t := by rw [mvalPut, begun_ts, mvalPut]
end

section
variable {s : State} {core : Nat} {c : MCmd} {l : List MCmd} (head : FreshHead s core c l) {d : Fin 8}
include head

/-- A command of registers leaves the queue with its result in its destination, over what `doneWith` made of the state. -/
theorem FreshHead.completes_onRegisters (regs : c.op.onRegisters = true) (dest : c.op.dest = some d) {p : MVal} {u : State}
    (product : productOf core (begun core c s) s = p) (done : doneWith core (begun core c s) p s = u)
    (mq : (getCore u core).mq = (getCore s core).mq) (mem : u.mem = s.mem) :
    Completes s core l (cmdEnd (mvalPut core c d (resultOf core (begun core c s) s p) u) core (begun core c s)) := by
  have run := runCmd_onRegisters (s := s) (core := core) regs dest head.whole
  dsimp only at run
  rw [product, done, mvalPut_begun] at run
  exact head.completes run begun_num (begun_migrated.trans head.home) (by simp [mq]) (by simp [mem])

/-- A command of registers that is done with its macros writes its result alone. -/
theorem FreshHead.writes (regs : c.op.onRegisters = true) (dest : c.op.dest = some d) {p v : MVal}
    (product : productOf core (begun core c s) s = p) (done : doneWith core (begun core c s) p s = s)
    (result : resultOf core (begun core c s) s p = v) :
    ∃ t, Completes s core l t ∧ mvalOf t core c d = v ∧ ∀ m : Fin 8, m ≠ d → mvalOf t core c m = mvalOf s core c m := by
  have own : (begun core c s).migrated = none := begun_migrated.trans head.home
  refine ⟨_, head.completes_onRegisters regs dest product done rfl rfl, ?_, fun m h => ?_⟩
  · rw [mvalOf_cmdEnd _ _ _ own, result, mvalOf_mvalPut_same]
  · rw [mvalOf_cmdEnd _ _ _ own, mvalOf_mvalPut_other _ _ _ _ _ h]
/-- A command of registers that uses none of the macros writes its product. -/
theorem FreshHead.writes_product {op : MOp} (does : c.op = op) (plain : op.usesNoMacro = true) (dest : op.dest = some d) {v : MVal}
    (product : productOf core (begun core c s) s = v) :
    ∃ t, Completes s core l t ∧ mvalOf t core c d = v ∧ ∀ m : Fin 8, m ≠ d → mvalOf t core c m = mvalOf s core c m := by
  have alone : (begun core c s).op.usesNoMacro = true := by rw [begun_op, does, plain]
  exact head.writes (by rw [does, MOp.onRegisters, plain, Bool.true_or]) (by rw [does, dest]) product (doneWith_usesNoMacro alone)
    (resultOf_usesNoMacro alone)
end

/-! #### Macros that a product uses (R164, R172, R186) -/

section
variable {s : State} {core n : Nat} {c : MCmd}

theorem useMacro_whole (good : badMacro (getCore s core) n = none) : useMacro core c n s = s := by
  rw [useMacro, good]
/-- A tile gone bad leaves its macros empty and sets the latch of the command's thread set. -/
theorem useMacro_bad {e : Nat} (bad : badMacro (getCore s core) n = some e) :
    (getCore (useMacro core c n s) core).mq = (getCore s core).mq ∧ macroAt (getCore (useMacro core c n s) core) n = .empty ∧
      (useMacro core c n s).mem = s.mem ∧
      threadAt (useMacro core c n s) (4 * core + c.ts) = { threadAt s (4 * core + c.ts) with mlatch := some e } := by
  rw [useMacro, bad]
  dsimp only
  refine ⟨?_, ?_, by simp, ?_⟩
  · rw [onThread_mq, getCore_onCore_same, macroFree_frame]
    split
    · rfl
    · rfl
  · rw [macroAt_onThread, getCore_onCore_same]
    split
    · exact macroAt_macroFree_same ..
    · exact macroAt_macroFree_same ..
  · rw [threadAt_onThread_same, threadAt_onCore]
    intro x
    rw [macroFree_frame]
    split
    · rfl
    · rfl
theorem mmulReg_ne_zero {w : Nat} {b : Option BTile} {v : MVal} (h : v ≠ .zero) : mmulReg w b v ≠ .zero := by
  cases v with
  | zero => exact absurd rfl h
  | factor u w => simp [mmulReg]
  | dense r => simp [mmulReg]
theorem mmulReg_lost (w : Nat) (r : List (List W32)) : mmulReg w none (.dense r) = .dense (r.map fun _ => List.replicate 64 0x7FC00000) := by
  rw [mmulReg, mulRows, List.map_map]
  rfl
end

/-! #### Split points and faults (R170, R171, R379) -/

/-- The first units that a command completes stand in its destination (R170). -/
theorem keepUnits_first {s : State} {core n : Nat} {c : MCmd} {d : Fin 8} {p : MVal} (dest : c.op.dest = some d) (whole : c.part = [])
    (product : productOf core c s = p) (made : (unitsOf p).take n ≠ []) :
    keepUnits core n c s = ({ c with part := (unitsOf p).take n }, mvalPut core c d (midway ((unitsOf p).take n).length
      (operandOf s core c d) p (resultOf core c s (soFar { c with part := (unitsOf p).take n } p))) s) := by
  unfold keepUnits
  simp only [product, whole, dest, List.nil_append, List.length_nil, List.drop_zero, List.isEmpty_eq_false_iff.mpr made]
  rfl
/-- Rows that are complete already are the ones that the product has (R170). -/
theorem soFar_dense {c : MCmd} {r : List (List W32)} {n : Nat} (done : c.part = r.take n) (few : n ≤ r.length) : soFar c (.dense r) = .dense r := by
  unfold soFar
  split
  · rfl
  · rw [done, List.length_take, Nat.min_eq_left few]
    exact congrArg MVal.dense (List.take_append_drop n r)

section
variable {s : State} {core : Nat} {c : MCmd} {l : List MCmd} (head : FreshHead s core c l)
include head

/-- A promotion runs to its first split point: its first 2^g rows stand over the rows that its destination had (R170). -/
theorem FreshHead.split_mprom {d a : Fin 8} (op : c.op = .mprom d a) (split : c.gran < 6)
    (rows : (denseOf (mvalOf s core c a)).length = 64) :
    evMatrixRows core s = some (cmdPut (mvalPut core c d (.dense ((denseOf (mvalOf s core c a)).take (2 ^ c.gran) ++
      (denseOf (mvalOf s core c d)).drop (2 ^ c.gran))) s) core
        { begun core c s with part := (denseOf (mvalOf s core c a)).take (2 ^ c.gran) }) := by
  have few : 2 ^ c.gran ≤ (denseOf (mvalOf s core c a)).length := rows ▸ Nat.pow_le_pow_right (by decide) (Nat.le_of_lt split)
  have count : ((denseOf (mvalOf s core c a)).take (2 ^ c.gran)).length = 2 ^ c.gran := by rw [List.length_take, Nat.min_eq_left few]
  have made : (denseOf (mvalOf s core c a)).take (2 ^ c.gran) ≠ [] := List.ne_nil_of_length_pos (by rw [count]; exact Nat.two_pow_pos _)
  have dest : (begun core c s).op.dest = some d := by rw [begun_op, op, MOp.dest]
  have product : productOf core (begun core c s) s = .dense (denseOf (mvalOf s core c a)) := by simp [productOf, op, head.fresh]
  have kept := keepUnits_first dest (begun_part.trans head.whole) product made
  rw [soFar_dense rfl few, mvalPut_begun] at kept
  have step : rowStep core c s = some (unitStep core (begun core c s) s) := by
    simp [rowStep, op, product, head.whole, hasUnits, unitsOf, rows, Nat.not_le.mpr split]
  have unit : unitStep core (begun core c s) s = .ok ⟨(), (keepUnits core (2 ^ c.gran) (begun core c s) s).1,
      (keepUnits core (2 ^ c.gran) (begun core c s) s).2⟩ := by
    rw [unitStep, readOperands_onRegisters (by rw [begun_op, op]; rfl), begun_part, head.whole, begun_gran, List.length_nil,
      Nat.zero_add]
  rw [evMatrixRows, head.queue]
  simp [head.granted, head.sound, head.runs, step, unit, kept, unitsOf, count, midway, resultOf, op, head.fresh]
end

@[simp] theorem onCore_waiting (s : State) (core : Nat) (f : CoreSt → CoreSt) : (onCore s core f).waiting = s.waiting := by
  unfold onCore setCore
  split
  · rfl
  · rfl
/-- A command that meets a fault keeps its place and waits for the supervisor under a fresh fault number (R171, R379). -/
theorem cmdFaults_waits (s : State) (core : Nat) (f : MFault) : ∃ id, (cmdFaults s core f).mem = s.mem ∧
    (getCore (cmdFaults s core f) core).mq = (getCore s core).mq.map (fun e => if e.num = f.cmd.num then { f.cmd with fault := some id } else e) ∧
    (cmdFaults s core f).waiting = s.waiting ++ [{ fid := id, va := f.va, acc := f.acc, cause := f.cause, g := 4 * core + f.cmd.ts }] :=
  ⟨_, cmdPut_mem .., cmdPut_mq .., onCore_waiting ..⟩

/-! #### What the oldest command leaves (R164, R172, R186, R187) -/

section
variable {s : State} {core : Nat} {c : MCmd} {l : List MCmd} (head : FreshHead s core c l)
include head

/-- A product of a register with a resident tile (R186): its rows stream against the tile where it is whole. -/
theorem FreshHead.productOf_mmul {acc : Bool} {t : Ty} {rd : Rd} {d a mac : Fin 8} {x : MLocV}
    (op : c.op = .mmul acc t rd d (some a) x none mac) : productOf core (begun core c s) s =
      mmulReg (widthA t) (if (badMacro (getCore s core) mac.val).isSome then none
        else tileOf (macroAt (getCore s core) mac.val) (macroAt (getCore s core) (mac.val + 1))) (mvalOf s core c a) := by
  simp [productOf, tileNow, op, head.fresh]
/-- A product against a tile that is whole writes it, or its sum with the old destination (R186). -/
theorem FreshHead.mmul_whole {acc : Bool} {t : Ty} {rd : Rd} {d a mac : Fin 8} {x : MLocV}
    (op : c.op = .mmul acc t rd d (some a) x none mac) (good : badMacro (getCore s core) mac.val = none) :
    let p := mmulReg (widthA t) (tileOf (macroAt (getCore s core) mac.val) (macroAt (getCore s core) (mac.val + 1))) (mvalOf s core c a)
    ∃ u, Completes s core l u ∧ mvalOf u core c d = (if acc then mlraddOf (mvalOf s core c d) p else p) ∧
      ∀ m : Fin 8, m ≠ d → mvalOf u core c m = mvalOf s core c m := by
  intro p
  have product : productOf core (begun core c s) s = p := by
    rw [head.productOf_mmul op, good]
    rfl
  refine head.writes (by rw [op]; rfl) (by rw [op, MOp.dest]) product (by simp [doneWith, op, useMacro_whole good]) ?_
  cases acc with
  | false => simp [resultOf, op]
  | true => simp [resultOf, op, head.fresh]
/-- A product against a tile gone bad gives NaN everywhere, empties its macros and sets the latch (R172). -/
theorem FreshHead.mmul_bad {acc : Bool} {t : Ty} {rd : Rd} {d a mac : Fin 8} {x : MLocV} {e : Nat}
    (op : c.op = .mmul acc t rd d (some a) x none mac) (bad : badMacro (getCore s core) mac.val = some e)
    (streams : mvalOf s core c a ≠ .zero) : ∃ u, Completes s core l u ∧ (threadAt u (4 * core + c.ts)).mlatch = some e ∧
      macroAt (getCore u core) mac.val = .empty ∧
      (acc = false → ∀ r, mvalOf s core c a = .dense r → mvalOf u core c d = .dense (r.map fun _ => List.replicate 64 0x7FC00000)) := by
  have own : (begun core c s).migrated = none := begun_migrated.trans head.home
  have product := head.productOf_mmul op
  rw [bad, Option.isSome_some, if_pos rfl] at product
  have done : doneWith core (begun core c s) (mmulReg (widthA t) none (mvalOf s core c a)) s = useMacro core (begun core c s) mac.val s := by
    simp [doneWith, op, mmulReg_ne_zero streams]
  obtain ⟨mq, empty, mem, latch⟩ := useMacro_bad (c := begun core c s) bad
  rw [begun_ts] at latch
  refine ⟨_, head.completes_onRegisters (by rw [op]; rfl) (by rw [op, MOp.dest]) product done mq mem, ?_, ?_, ?_⟩
  · rw [threadAt_cmdEnd own, threadAt_mvalPut, latch]
  · exact macroAt_cmdEnd_empty own ((macroAt_mvalPut ..).trans empty)
  · intro plain r dense
    rw [mvalOf_cmdEnd _ _ _ own, mvalOf_mvalPut_same]
    simp [resultOf, op, plain, dense, mmulReg_lost]
theorem FreshHead.mbrel_empties {mac : Fin 8} (op : c.op = .mbrel mac) :
    ∃ t, Completes s core l t ∧ macroAt (getCore t core) mac.val = .empty := by
  have run : runCmd core c s = .ok ⟨(), c, onCore s core fun x => macroFree x mac.val⟩ := by rw [runCmd, op]
  refine ⟨_, head.completes run rfl head.home (by rw [getCore_onCore_same, macroFree_frame]) (onCore_mem ..), ?_⟩
  exact macroAt_cmdEnd_empty head.home (by rw [getCore_onCore_same, macroAt_macroFree_same])
theorem FreshHead.mrec_sets {v : V512} (op : c.op = .mrec v) : ∃ t, Completes s core l t ∧ (getCore t core).recprog = v := by
  have run : runCmd core c s = .ok ⟨(), c, onCore s core fun x => { x with recprog := v }⟩ := by rw [runCmd, op]
  refine ⟨_, head.completes run rfl head.home (by rw [getCore_onCore_same]) (onCore_mem ..), ?_⟩
  exact (cmdEnd_recprog head.home).trans (by rw [getCore_onCore_same])
end

/-- Settles O51: each event by its equation (`exec_matrixGrant`, `exec_matrixMigration`, `exec_parity_staged`, `exec_parity_loaded`), the
completion and its split point by what the oldest command leaves (the lemmas of `FreshHead`), and a fault by `cmdFaults_waits`. -/
theorem theMatrixUnitGrantsRunsAndMigrates : Obligations.TheMatrixUnitGrantsRunsAndMigrates := by
  unfold Obligations.TheMatrixUnitGrantsRunsAndMigrates
  refine ⟨?_, ?_, ?_, ?_⟩
  · intro s k c x core next sound home runs due
    refine ⟨_, exec_matrixGrant next sound home runs due, ?_, ?_, ?_, ?_⟩
    · simp [x]
    · simp [x]
    · exact cmdPut_mq ..
    · exact cmdPut_mem ..
  · intro s core c l queue granted sound runs alone home slot fresh whole reg ends writes
    have head : FreshHead s core c l := ⟨queue, granted, sound, runs, alone, home, fresh, whole⟩
    refine ⟨?_, ?_, ?_, ?_, ?_, ?_, ?_, ?_, ?_, ?_, ?_, ?_, ?_⟩
    · exact fun d op => head.writes_product op rfl rfl (by simp [productOf, op])
    · exact fun d u v op => head.writes_product op rfl rfl (by simp [productOf, op])
    · exact fun d a b op => head.writes_product op rfl rfl (by simp [productOf, op, fresh, mvalOf, reg])
    · exact fun d a b op => head.writes_product op rfl rfl (by simp [productOf, op, fresh, mvalOf, reg])
    · exact fun d a op => head.writes_product op rfl rfl (by simp [productOf, op, fresh, mvalOf, reg])
    · exact fun d a op => head.writes_product op rfl rfl (by simp [productOf, op, fresh, mvalOf, reg])
    · exact fun d a k op => head.writes_product op rfl rfl (by simp [productOf, op, fresh, mvalOf, reg])
    · exact fun acc t rd d a x mac op good => head.mmul_whole op good
    · exact fun acc t rd d a x mac e op bad streams => head.mmul_bad op bad streams
    · intro d a op split rows n
      refine ⟨_, head.split_mprom op split rows, ?_, fun m h => ?_, ?_, ?_⟩
      · exact (mvalOf_cmdPut ..).trans (mvalOf_mvalPut_same ..)
      · exact (mvalOf_cmdPut ..).trans (mvalOf_mvalPut_other _ _ _ _ _ h)
      · exact (cmdPut_nums ..).trans (by rw [mvalPut_mq])
      · exact (cmdPut_mem ..).trans (mvalPut_mem ..)
    · exact fun mac op => head.mbrel_empties op
    · exact fun v op => head.mrec_sets op
    · intro f run
      obtain ⟨id, mem, mq, waits⟩ := cmdFaults_waits f.s core f
      exact ⟨_, id, head.exec_fault run, mem, mq, waits⟩
  · intro s core k c l acc t rd d a x base mac queue op waits sound runs ⟨t0, arrived, long⟩ ty tile ⟨p, low, port, inside, idle, before⟩
    have found : ((List.range 4).filterMap fun p => neighbourOf (cluOf core) p).find? (fun k =>
        inRect (getPart s (getCtx s (ctxOfCore s core)).part) k && unitIdle s k (ty.w == 16)) = some k :=
      find_neighbour low port ((Bool.and_eq_true _ _).mpr ⟨inside, idle⟩)
        fun q hq j hj => (Bool.and_eq_false_iff).mpr (.inl (before q hq j hj))
    refine ⟨_, exec_matrixMigration queue op waits sound runs arrived long tile found, ?_, ?_, ?_⟩
    · simp
    · exact cmdPut_mem ..
    · exact cmdPut_mq ..
  · intro s core mac staged
    refine ⟨?_, ?_, ?_⟩
    · rintro c ⟨⟨l, queue⟩, granted, home, stages⟩
      exact ⟨_, exec_parity_staged (stagedAt_own queue granted home stages), cmdPut_mem .., cmdPut_mq ..⟩
    · intro h c e m b absent loaded
      rw [← macroAt_eq] at loaded
      refine ⟨_, exec_parity_loaded (stagedAt_loaded (no_own_stage absent) loaded) loaded, ?_, onCore_mem ..⟩
      simp [macroPut]
    · intro src c l absent empty unit queue granted there
      rw [← macroAt_eq] at empty
      exact ⟨_, exec_parity_staged (stagedAt_migrated (no_own_stage absent) empty unit queue granted there), cmdPut_mem .., cmdPut_mq ..⟩

end Machine
end Sys2Proof
end

section
/-! ### Ray slots and what a log write leaves of them (R191, R212) -/

namespace Sys2Proof
namespace Machine

/-! #### One slot after a change -/

theorem getRay_putRay (s : State) (k n j m : Nat) (r : Ray) : getRay (putRay s k n r) j m = if j = k ∧ m = n then r else getRay s j m := by
  rw [getRay, putRay, onClu, getClu_setClu]
  by_cases hj : j = k
  · rw [if_pos hj, hj]
    by_cases hm : m = n
    · rw [if_pos ⟨rfl, hm⟩, hm]
      exact amGet_amSet_same ..
    · rw [if_neg (by simp [hm])]
      exact amGet_amSet_other _ _ _ hm
  · rw [if_neg hj, if_neg (by simp [hj]), getRay]
@[simp] theorem getRay_putRay_same (s : State) (k n : Nat) (r : Ray) : getRay (putRay s k n r) k n = r := by
  rw [getRay_putRay, if_pos ⟨rfl, rfl⟩]
@[simp] theorem getRay_onRay_same (s : State) (k n : Nat) (f : Ray → Ray) : getRay (onRay s k n f) k n = f (getRay s k n) := getRay_putRay_same ..
@[simp] theorem getRay_withTh (s : State) (f : Thread → Thread) (k n : Nat) : getRay (withTh s f) k n = getRay s k n := rfl

/-- Only clusters may differ. -/
def ClustersOnly (s t : State) : Prop := t = { s with clusters := t.clusters }
theorem ClustersOnly.trans {s t u : State} (h : ClustersOnly s t) (g : ClustersOnly t u) : ClustersOnly s u :=
  Eq.trans g (congrArg (fun x : State => { x with clusters := u.clusters }) h)
theorem ClustersOnly.mem {s t : State} (h : ClustersOnly s t) : t.mem = s.mem := by
  rw [ClustersOnly] at h
  rw [h]
theorem putRay_only (s : State) (k n : Nat) (r : Ray) : ClustersOnly s (putRay s k n r) := rfl

/-! #### Log writes -/

/-- The thread set in focus stands, and of every ray only the log writes to perform and its fault may differ: what the performance of log
writes leaves (R212). -/
structure LogsOnly (s t : State) : Prop where
  here : t.here = s.here
  th : t.th = s.th
  ray : ∀ k n, getRay t k n = { getRay s k n with pend := (getRay t k n).pend, fault := (getRay t k n).fault }

section
variable {s t u : State}

theorem LogsOnly.refl (s : State) : LogsOnly s s := ⟨rfl, rfl, fun _ _ => rfl⟩
theorem LogsOnly.trans (h : LogsOnly s t) (g : LogsOnly t u) : LogsOnly s u :=
  ⟨g.here.trans h.here, g.th.trans h.th, fun k n => by rw [g.ray, h.ray]⟩
theorem LogsOnly.foldl {α : Type} {f : State → α → State} (h : ∀ s x, LogsOnly s (f s x)) (l : List α) (s : State) :
    LogsOnly s (l.foldl f s) := by
  induction l generalizing s with
  | nil => exact .refl s
  | cons x l ih => exact (h s x).trans (ih _)
theorem LogsOnly.of_rays (here : t.here = s.here) (th : t.th = s.th) (rays : ∀ k, (getClu t k).rays = (getClu s k).rays) : LogsOnly s t :=
  ⟨here, th, fun k n => by rw [getRay, rays k, getRay]⟩
theorem HomeOnly.logs (h : HomeOnly s t) : LogsOnly s t := .of_rays (by rw [h.1]) (by rw [h.1]) fun k => by rw [h.2 k]
theorem XlateOnly.logs (h : XlateOnly s t) : LogsOnly s t := .of_rays h.1.here h.2.1 fun k => by rw [h.1.2.1 k]
theorem onRay_logs {k n : Nat} {f : Ray → Ray} (h : ∀ r, f r = { r with pend := (f r).pend, fault := (f r).fault }) :
    LogsOnly s (onRay s k n f) :=
  ⟨rfl, rfl, fun j m => by
    rw [onRay, getRay_putRay]
    split
    · next e => rw [e.1, e.2]; exact h _
    · rfl⟩
end

theorem ctxXlate_logs {s : State} {ctx k : Nat} {acc : Acc} {va : Nat} {r : Xl × State} (h : ctxXlate s ctx k acc va = .ok r) : LogsOnly s r.2 := by
  unfold ctxXlate at h
  split at h
  · next he =>
    cases h
    exact ((endWalk_only s ctx k va).trans (xlateEngine_only he)).logs
  · cases h
  · cases h
theorem newFault_logs (s : State) (ctx unit ts cluster : Nat) : LogsOnly s (newFault s ctx unit ts cluster).2 :=
  .of_rays rfl rfl fun k => by
    rw [newFault, getClu_setClu]
    split
    · next e => rw [e]
    · rfl
theorem sendFault_logs (s : State) (ctx : Nat) (fid va acc cw : W64) (evs : Nat) : LogsOnly s (sendFault s ctx fid va acc cw evs) :=
  .of_rays rfl rfl fun _ => rfl
theorem setCtx_logs (s : State) (ctx : Nat) (x : Context) : LogsOnly s (setCtx s ctx x) := .of_rays rfl rfl fun _ => rfl
theorem onLaunch_logs (s : State) (ctx lid : Nat) (f : Launch → Launch) : LogsOnly s (onLaunch s ctx lid f) := setCtx_logs ..
theorem rayFault_logs (s : State) (k n : Nat) (va acc : W64) (cause : Nat) : LogsOnly s (rayFault s k n va acc cause) := by
  unfold rayFault
  dsimp only
  have raised (u : State) (ctx : Nat) : LogsOnly u (raiseEvent u ctx none).2 := setCtx_logs ..
  have waits (u : State) (l : List Waiting) : LogsOnly u { u with waiting := l } := .of_rays rfl rfl fun _ => rfl
  exact (newFault_logs ..).trans ((raised ..).trans ((sendFault_logs ..).trans ((waits ..).trans (onRay_logs fun _ => rfl))))
theorem drainLog_logs (k n fuel : Nat) (s : State) : LogsOnly s (drainLog k n fuel s) := by
  induction fuel generalizing s with
  | zero => exact .refl s
  | succ fuel ih =>
    have next (u : State) (rest : List LogW) : LogsOnly u (drainLog k n fuel (onRay u k n fun r => { r with pend := rest })) :=
      (onRay_logs fun _ => rfl).trans (ih _)
    unfold drainLog
    dsimp only
    split
    · exact .refl s
    · split
      · exact .refl s
      · split
        · exact next ..
        · split
          · next x => exact (ctxXlate_logs x).trans ((homeWrite_step ..).1.logs.trans (next ..))
          · exact rayFault_logs ..
theorem drainRay_logs (s : State) (k n : Nat) : LogsOnly s (drainRay s k n) := drainLog_logs ..
/-- A ray with no log write to perform stands. -/
theorem drainRay_idle {s : State} {k n : Nat} (idle : (getRay s k n).pend = []) : drainRay s k n = s := by
  rw [drainRay, idle]
  unfold drainLog
  dsimp only
  rw [idle]
  exact ite_self s
/-- The first ray of a launch that is traced adds log writes, and performs those of the launch's rays (R212). -/
theorem traceLaunch_logs (s : State) (k n : Nat) : LogsOnly s (traceLaunch s k n) := by
  have performed (u : State) (l : List (Nat × Nat)) : LogsOnly u (l.foldl (fun s e => drainRay s e.1 e.2) (drainRay u k n)) :=
    (drainRay_logs ..).trans (.foldl (fun _ _ => drainRay_logs ..) _ _)
  unfold traceLaunch
  dsimp only
  split
  · split
    · exact .refl s
    · exact (onLaunch_logs ..).trans ((onRay_logs fun _ => rfl).trans (performed ..))
  · exact drainRay_logs ..

end Machine
end Sys2Proof
end

section
/-! ### One arrival (R218 to R225) -/

namespace Sys2Proof
namespace Machine

/-! #### The four ways in which an answer arrives -/

/-- The answer as the list would take it: minus zeros read as plus zero, with its arrival number (R218, R219). -/
def incoming (r : Ray) (a : Answer) : Iv :=
  { ivOf a with t0 := plus32 (ivOf a).t0, t1 := plus32 (ivOf a).t1, q := plus32 (ivOf a).q, fl := 0, arr := r.arrCount.toNat % 2 ^ 16 }
/-- The ray with one arrival more counted (R218). -/
def counted (r : Ray) : Ray := { r with arrCount := r.arrCount + 1, arrivals := min (r.arrivals + 1) 65535 }
/-- The answer as clipped to the ray and its frontier; none when it is late (R220). -/
def clippedTo (r : Ray) (a : Answer) : Option Iv := ivClipped (incoming r a) (rayTmin r r.fp64) (rayTmax r r.fp64) r.front.toNat
/-- The list with a record more, and what the overflow merges and the scan make of it (R222 to R225). -/
def inserted (r : Ray) (y : Iv) : List Iv := ivInsert (r.recs.map ivOf) y
def overflowed (r : Ray) (y : Iv) : List Iv × Nat := ivOverflow (rayK r) (inserted r y).length (inserted r y) 0
def scanned (r : Ray) (y : Iv) : List Iv × Option Nat × Nat := ivScan r.ivstop.toNat r.front.toNat 0 (overflowed r y).1
/-- The ray with the record in its list. -/
def listed (r : Ray) (y : Iv) : Ray :=
  { counted r with
    recs := (scanned r y).1.map ivPack, merges := min (r.merges + (overflowed r y).2) 1023, late := min (r.late + (scanned r y).2.2) 4095,
    front := BitVec.ofNat 32 ((scanned r y).2.1.getD r.front.toNat), opq := r.opq || (scanned r y).2.1.isSome }

section
variable {r : Ray} {a : Answer}

theorem arrive_rejected (rejected : ivRejected (incoming r a) = true) :
    (arrive r a).1 = { counted r with reject := min (r.reject + 1) 255 } :=
  congrArg Prod.fst (if_pos rejected)
theorem arrive_accepted (taken : ivRejected (incoming r a) = false) : (arrive r a).1 = match clippedTo r a with
    | none => { counted r with late := min (r.late + 1) 4095 }
    | some y => if ivDup (r.recs.map ivOf) y then { counted r with dup := min (r.dup + 1) 4095 } else listed r y := by
  have accepted : (arrive r a).1 = _ := congrArg Prod.fst (if_neg (by rw [taken]; decide : ¬ ivRejected (incoming r a) = true))
  rw [accepted]
  change Prod.fst (match clippedTo r a with | none => _ | some y => _) = _
  cases clippedTo r a with
  | none => rfl
  | some y =>
    dsimp only
    split
    · rfl
    · rfl
theorem arrive_late (taken : ivRejected (incoming r a) = false) (late : clippedTo r a = none) :
    (arrive r a).1 = { counted r with late := min (r.late + 1) 4095 } := by rw [arrive_accepted taken, late]
/-- An answer is rejected, late, a duplicate, or joins the list. -/
theorem arrive_cases (r : Ray) (a : Answer) : (arrive r a).1 = { counted r with reject := min (r.reject + 1) 255 } ∨
    (arrive r a).1 = { counted r with late := min (r.late + 1) 4095 } ∨ (arrive r a).1 = { counted r with dup := min (r.dup + 1) 4095 } ∨
    ∃ y, clippedTo r a = some y ∧ (arrive r a).1 = listed r y := by
  cases rejected : ivRejected (incoming r a) with
  | true => exact .inl (arrive_rejected rejected)
  | false =>
    rw [arrive_accepted rejected]
    cases clipped : clippedTo r a with
    | none => exact .inr (.inl rfl)
    | some y =>
      dsimp only
      split
      · exact .inr (.inr (.inl rfl))
      · exact .inr (.inr (.inr ⟨y, rfl, rfl⟩))
end

/-- An arrival changes the list, its frontier and its counters, and nothing else of the ray. -/
theorem arrive_frame (r : Ray) (a : Answer) : let x := (arrive r a).1
    x = { r with recs := x.recs, front := x.front, opq := x.opq, arrCount := x.arrCount, arrivals := x.arrivals, late := x.late, dup := x.dup,
                 reject := x.reject, merges := x.merges } := by
  obtain h | h | h | ⟨y, -, h⟩ := arrive_cases r a
  · rw [h, counted]
  · rw [h, counted]
  · rw [h, counted]
  · rw [h, listed, counted]
theorem arrive_counts (r : Ray) (a : Answer) : (arrive r a).1.arrivals = min (r.arrivals + 1) 65535 ∧
    (arrive r a).1.arrCount = r.arrCount + 1 := by
  obtain h | h | h | ⟨y, -, h⟩ := arrive_cases r a
  · rw [h]; exact ⟨rfl, rfl⟩
  · rw [h]; exact ⟨rfl, rfl⟩
  · rw [h]; exact ⟨rfl, rfl⟩
  · rw [h]; exact ⟨rfl, rfl⟩
theorem arrive_opaque {r : Ray} (a : Answer) (opaque_ : r.opq = true) : (arrive r a).1.opq = true := by
  obtain h | h | h | ⟨y, -, h⟩ := arrive_cases r a
  · rw [h]; exact opaque_
  · rw [h]; exact opaque_
  · rw [h]; exact opaque_
  · rw [h, listed]
    dsimp only
    rw [opaque_, Bool.true_or]
/-- An answer that is counted as rejected or as a duplicate leaves the list. -/
theorem arrive_unlisted {r : Ray} {a : Answer} (h : (arrive r a).1.reject ≠ r.reject ∨ (arrive r a).1.dup ≠ r.dup) :
    (arrive r a).1.recs = r.recs ∧ (arrive r a).1.front = r.front ∧ (arrive r a).1.opq = r.opq := by
  obtain e | e | e | ⟨y, -, e⟩ := arrive_cases r a
  · rw [e]; exact ⟨rfl, rfl, rfl⟩
  · rw [e]; exact ⟨rfl, rfl, rfl⟩
  · rw [e]; exact ⟨rfl, rfl, rfl⟩
  · rw [e] at h
    obtain h | h := h
    · exact absurd rfl h
    · exact absurd rfl h

/-! #### Records of a list and their confidence (R215, R222) -/

/-- Every confidence is a byte. -/
def ConfBytes (l : List Iv) : Prop := ∀ r ∈ l, r.conf < 256

theorem ConfBytes.map_ivOf (l : List Answer) : ConfBytes (l.map ivOf) := by
  intro r h
  obtain ⟨a, -, rfl⟩ := List.mem_map.mp h
  exact Nat.mod_lt _ (by decide)
theorem ConfBytes.sub {l m : List Iv} (h : ConfBytes l) (sub : ∀ r ∈ m, r ∈ l) : ConfBytes m := fun r hr => h r (sub r hr)
theorem ConfBytes.append {l m : List Iv} (h : ConfBytes l) (g : ConfBytes m) : ConfBytes (l ++ m) := fun r hr =>
  (List.mem_append.mp hr).elim (h r) (g r)
theorem ConfBytes.cons {x : Iv} {l : List Iv} (hx : x.conf < 256) (h : ConfBytes l) : ConfBytes (x :: l) :=
  List.forall_mem_cons.mpr ⟨hx, h⟩
theorem ivCut_conf (x : Nat) (r : Iv) : ∀ p ∈ ivCut x r, p.conf = r.conf := by
  unfold ivCut
  split
  · simp
  · simp
theorem ConfBytes.splitAll {l : List Iv} (h : ConfBytes l) (x : Nat) : ConfBytes (ivSplitAll l x) := by
  intro p hp
  obtain ⟨r, hr, cut⟩ := List.mem_flatMap.mp hp
  rw [ivCut_conf x r p cut]
  exact h r hr
theorem ConfBytes.splits {l : List Iv} (h : ConfBytes l) (xs : List Nat) : ConfBytes (xs.foldl ivSplitAll l) := by
  induction xs generalizing l with
  | nil => exact h
  | cons x xs ih => exact ih (h.splitAll x)
theorem ConfBytes.place {l : List Iv} {a : Iv} (h : ConfBytes l) (ha : a.conf < 256) : ConfBytes (ivPlace l a) :=
  (h.sub fun _ hr => (List.takeWhile_prefix _).subset hr).append (.cons ha (h.sub fun _ hr => (List.dropWhile_suffix _).subset hr))
theorem ConfBytes.add {l : List Iv} {p : Iv} (h : ConfBytes l) (hp : p.conf < 256) : ConfBytes (ivAdd l p) := by
  unfold ivAdd
  dsimp only
  split
  · intro x hx
    obtain ⟨r, hr, rfl⟩ := List.mem_map.mp hx
    split
    · exact lt_of_le_of_lt (Nat.min_le_left ..) (h r hr)
    · exact h r hr
  · exact h.place hp
theorem ConfBytes.adds {l : List Iv} (h : ConfBytes l) {ps : List Iv} (hps : ConfBytes ps) : ConfBytes (ps.foldl ivAdd l) := by
  induction ps generalizing l with
  | nil => exact h
  | cons p ps ih =>
    obtain ⟨hp, hps⟩ := List.forall_mem_cons.mp hps
    exact ih (h.add hp) hps
theorem mem_putInOrder {α : Type} (le : α → α → Bool) (x y : α) (l : List α) : y ∈ putInOrder le x l ↔ y = x ∨ y ∈ l := by
  induction l with
  | nil => simp [putInOrder]
  | cons z l ih =>
    unfold putInOrder
    split
    · simp
    · simp [ih, or_left_comm]
theorem mem_sortBy {α : Type} (le : α → α → Bool) (y : α) (l : List α) : y ∈ sortBy le l ↔ y ∈ l := by
  induction l with
  | nil => rfl
  | cons z l ih => rw [sortBy, List.foldr_cons, mem_putInOrder, List.mem_cons, ← ih, sortBy]
theorem ConfBytes.insert {l : List Iv} {a : Iv} (h : ConfBytes l) (ha : a.conf < 256) : ConfBytes (ivInsert l a) := by
  unfold ivInsert
  split
  · exact (h.splitAll a.t0).place ha
  · have pieces (xs : List Nat) : ConfBytes (xs.foldl ivSplitAll [a]) := ConfBytes.splits (.cons ha fun _ h => absurd h (by simp)) xs
    exact ((h.splitAll a.t0).splitAll a.t1).adds ((pieces _).sub fun r hr => (mem_sortBy _ r _).mp hr)

/-! #### The overflow merges leave at most K records (R224) -/

theorem foldl_min_mem (l : List Nat) (b : Nat) : l.foldl min b = b ∨ l.foldl min b ∈ l := by
  induction l generalizing b with
  | nil => exact .inl rfl
  | cons x l ih =>
    obtain same | found := ih (min b x)
    · rw [List.foldl_cons, same]
      obtain h | h := min_choice b x
      · exact .inl h
      · rw [h]
        exact .inr (List.mem_cons_self ..)
    · exact .inr (List.mem_cons_of_mem _ found)
theorem foldl_min_le_init (l : List Nat) (b : Nat) : l.foldl min b ≤ b := by
  induction l generalizing b with
  | nil => exact le_rfl
  | cons x l ih => exact (ih _).trans (min_le_left ..)
/-- The pair of least confidence is a pair of the list. -/
theorem ivPair_lt {l : List Iv} (bytes : ConfBytes l) (pair : 2 ≤ l.length) : ivPair l + 1 < l.length := by
  obtain ⟨a, b, rest, rfl⟩ : ∃ a b rest, l = a :: b :: rest := match l, pair with
    | a :: b :: rest, _ => ⟨a, b, rest, rfl⟩
  unfold ivPair
  dsimp only
  generalize sums_eq : ((a :: b :: rest).zip ((a :: b :: rest).drop 1)).map (fun e => e.1.conf + e.2.conf) = sums
  have length : sums.length = rest.length + 1 := by rw [← sums_eq]; simp
  have least : sums.foldl min 511 < 511 := by
    have ha := bytes a (by simp)
    have hb := bytes b (by simp)
    rw [← sums_eq]
    exact lt_of_le_of_lt (foldl_min_le_init _ (min 511 (a.conf + b.conf))) (min_lt_of_right_lt (by omega))
  have found : sums.foldl min 511 ∈ sums := (foldl_min_mem sums 511).resolve_left (by omega)
  have place := List.idxOf_lt_length_of_mem found
  rw [length] at place
  simp only [List.length_cons]
  omega
theorem ivMerge_conf (a b : Iv) : (ivMerge a b).conf = min a.conf b.conf := rfl
/-- Where each merge takes one record away, enough merges leave at most `k`. -/
theorem ivOverflow_length {k : Nat} (some_ : 0 < k) (fuel : Nat) {l : List Iv} (bytes : ConfBytes l) (enough : l.length ≤ fuel + k) (n : Nat) :
    (ivOverflow k fuel l n).1.length ≤ k := by
  induction fuel generalizing l n with
  | zero => simpa [ivOverflow] using enough
  | succ fuel ih =>
    unfold ivOverflow
    split
    · assumption
    · next full =>
      have pair := ivPair_lt bytes (by omega)
      dsimp only
      split
      next a b rest cut =>
        have size : rest.length + 2 + ivPair l = l.length := by
          have := congrArg List.length cut
          simp only [List.length_drop, List.length_cons] at this
          omega
        have inside : ∀ r ∈ a :: b :: rest, r ∈ l := fun r hr => List.mem_of_mem_drop (cut ▸ hr)
        refine ih ?_ ?_ _
        · refine (bytes.sub fun r hr => List.mem_of_mem_take hr).append (.cons ?_ (bytes.sub fun r hr => inside r (by simp [hr])))
          rw [ivMerge_conf]
          exact lt_of_le_of_lt (Nat.min_le_left ..) (bytes a (inside a (by simp)))
        · simp only [List.length_append, List.length_take, List.length_cons]
          omega
      next short =>
        obtain ⟨a, b, rest, cut⟩ : ∃ a b rest, l.drop (ivPair l) = a :: b :: rest := by
          match h : l.drop (ivPair l), (by rw [List.length_drop]; omega : 2 ≤ (l.drop (ivPair l)).length) with
          | a :: b :: rest, _ => exact ⟨a, b, rest, rfl⟩
        exact absurd cut (short a b rest)
theorem ivScan_length (ivstop front acc : Nat) (l : List Iv) : (ivScan ivstop front acc l).1.length ≤ l.length := by
  induction l generalizing acc with
  | nil => exact le_rfl
  | cons r l ih =>
    unfold ivScan
    dsimp only
    split
    · simp
    · simpa using ih _
theorem clipped_conf {x y : Iv} {tmin tmax front : Nat} (h : ivClipped x tmin tmax front = some y) : y.conf = x.conf := by
  unfold ivClipped at h
  dsimp only at h
  split at h
  · split at h
    · cases h
    · cases h; rfl
  · split at h
    · cases h
    · cases h; rfl
/-- A list within K stays within K (R217, R224). -/
theorem arrive_length {r : Ray} (a : Answer) (within : r.recs.length ≤ rayK r) : (arrive r a).1.recs.length ≤ rayK r := by
  obtain h | h | h | ⟨y, clipped, h⟩ := arrive_cases r a
  · rw [h]; exact within
  · rw [h]; exact within
  · rw [h]; exact within
  · have conf : y.conf < 256 := by
      rw [clipped_conf clipped]
      exact Nat.mod_lt _ (by decide)
    have some_ : 0 < rayK r := Nat.mul_pos (by decide) (Nat.two_pow_pos _)
    rw [h, listed, List.length_map]
    exact (ivScan_length ..).trans (ivOverflow_length some_ _ ((ConfBytes.map_ivOf r.recs).insert conf) (Nat.le_add_right ..) 0)

/-! #### The frontier never moves later (R225) -/

/-- Bits above its width do not count in a pattern. -/
theorem fdec32_low (x : Nat) : fdec .f32 .ieee (x % 2 ^ 32) = fdec .f32 .ieee x := by
  have sign : bitOf (x % 2 ^ 32) 31 = bitOf x 31 := by
    unfold bitOf
    congr 1
    omega
  have low : x % 2 ^ 32 % 2 ^ 31 = x % 2 ^ 31 := by omega
  unfold fdec
  simp only [fmtOf, Nat.reduceSub, sign, low]
  rfl
theorem lt32_low (a x : Nat) : lt32 a (x % 2 ^ 32) = lt32 a x := by simp only [lt32, fCmp, fdec32_low]
theorem ltFV_irrefl (x : FV) : ltFV false x x = false := by
  cases x <;> simp [ltFV]
theorem ltFV_asymm {x y : FV} (h : ltFV true x y = true) : ltFV false y x = false := by
  cases x with
  | nan s => cases h
  | inf m =>
    cases y with
    | nan s => rfl
    | inf n => cases m <;> cases n <;> simp_all [ltFV]
    | fin n b e => simp_all [ltFV]
  | fin m a d =>
    cases y with
    | nan s => rfl
    | inf n => simp_all [ltFV]
    | fin n b e =>
      simp only [ltFV, Bool.false_and, Bool.or_false, Bool.true_and, Bool.or_eq_true, decide_eq_true_eq, decide_eq_false_iff_not,
        Bool.and_eq_true, beq_iff_eq, min_comm e d] at h ⊢
      obtain less | ⟨⟨⟨rfl, rfl⟩, -⟩, -⟩ := h
      · omega
      · simp [signInt]
/-- The lesser of two patterns is not above the first, unless that is a NaN. -/
theorem lt32_min32 {f g : Nat} (number : isNan32 f = false) : lt32 f (min32 f g) = false := by
  unfold isNan32 at number
  unfold lt32 min32 fMinMax fCmp
  dsimp only
  rw [number]
  simp only [Bool.false_and, Bool.false_eq_true, if_false]
  split
  · simp [ltFV_irrefl]
  · split
    · next below => simp [ltFV_asymm below]
    · simp [ltFV_irrefl]
theorem ivScan_front {ivstop front acc : Nat} {l : List Iv} {f : Nat} (h : (ivScan ivstop front acc l).2.1 = some f) : ∃ g, f = min32 front g := by
  induction l generalizing acc with
  | nil => cases h
  | cons r l ih =>
    unfold ivScan at h
    dsimp only at h
    split at h
    · cases h
      exact ⟨_, rfl⟩
    · exact ih h
theorem arrive_front {r : Ray} (a : Answer) (number : isNan32 r.front.toNat = false) : lt32 r.front.toNat (arrive r a).1.front.toNat = false := by
  have stands : lt32 r.front.toNat r.front.toNat = false := by simp [lt32, fCmp, ltFV_irrefl]
  obtain h | h | h | ⟨y, -, h⟩ := arrive_cases r a
  · rw [h]; exact stands
  · rw [h]; exact stands
  · rw [h]; exact stands
  · rw [h, listed]
    dsimp only
    rw [BitVec.toNat_ofNat, lt32_low]
    cases scan : (scanned r y).2.1 with
    | none => exact stands
    | some f =>
      obtain ⟨g, rfl⟩ := ivScan_front scan
      exact lt32_min32 number

/-! #### Late answers (R220) -/

theorem ivClipped_none {x : Iv} {tmin tmax front : Nat}
    (late : (if x.surf then lt32 x.t0 tmin || lt32 tmax x.t0 || le32 front x.t0
      else le32 (min32 (min32 x.t1 tmax) front) (max32 x.t0 tmin)) = true) : ivClipped x tmin tmax front = none := by
  unfold ivClipped
  split
  · next surf => rw [surf] at late; exact if_pos late
  · next vol => rw [if_neg vol] at late; exact if_pos late

end Machine
end Sys2Proof
end

section
/-! ### O55: the list of a ray and its end -/

namespace Sys2Proof
namespace Machine

/-! #### A ray that an answer reaches (R218, R226) -/

/-- The ray with an answer arrived, and the entry of its log. -/
def answered (r : Ray) (a : Answer) : Ray := if r.replay then (arrive r a).1 else logAnswer (arrive r a).1 (arrive r a).2
/-- The ray that an answer has reached: a list that it turns opaque may end traversal. -/
def reached (inWord : Bool) (r : Ray) (a : Answer) : Ray :=
  let q := answered r a
  let busy := inWord || q.leafDone != 0 || q.hitWait.isSome || (q.fault.isSome && q.pend.isEmpty)
  if q.st == .run && !q.ended && !q.replay && q.opq && !busy then endTrav q (some stOPAQUE) else q
theorem arriveAt_eq (k n : Nat) (inWord : Bool) (s : State) (a : Answer) :
    arriveAt k n inWord s a = drainRay (putRay s k n (reached inWord (getRay s k n) a)) k n := rfl

theorem logEntry_frame (r : Ray) (visit : Bool) (mk : Nat → Nat → Nat × List Byte) : let x := logEntry r visit mk
    x = { r with stat := x.stat, logOn := x.logOn, pend := x.pend, visits := x.visits, answers := x.answers } := by
  unfold logEntry
  split
  · split
    · rfl
    · dsimp only
      split
      · rfl
      · rfl
  · rfl
theorem answered_frame (r : Ray) (a : Answer) : let x := answered r a
    x = { (arrive r a).1 with stat := x.stat, logOn := x.logOn, pend := x.pend, visits := x.visits, answers := x.answers } := by
  unfold answered
  split
  · rfl
  · exact logEntry_frame ..
theorem endTrav_frame (r : Ray) (b : Option Nat) :
    endTrav r b = { r with ended := true, stack := [], rstack := [], leafDone := 0, ahead := [], cells := [], stat := (endTrav r b).stat } := by
  cases b with
  | none => rfl
  | some i => rfl
/-- Beside the arrival itself, an answer may end traversal and add a log write. -/
theorem reached_frame (inWord : Bool) (r : Ray) (a : Answer) : let x := reached inWord r a
    x = { (arrive r a).1 with stat := x.stat, logOn := x.logOn, pend := x.pend, visits := x.visits, answers := x.answers, ended := x.ended,
                              stack := x.stack, rstack := x.rstack, leafDone := x.leafDone, ahead := x.ahead, cells := x.cells } := by
  unfold reached
  dsimp only
  split
  · rw [endTrav_frame, answered_frame]
  · rw [answered_frame]
/-- A ray without log whose traversal has ended only takes the arrival. -/
theorem reached_unlogged {r : Ray} (log : r.log = none) (ended : r.ended = true) (inWord : Bool) (a : Answer) :
    reached inWord r a = (arrive r a).1 := by
  have unlogged : (arrive r a).1.log = none := by rw [arrive_frame]; exact log
  have still : (arrive r a).1.ended = true := by rw [arrive_frame]; exact ended
  have plain : answered r a = (arrive r a).1 := by
    rw [answered, logAnswer, logEntry, unlogged]
    exact ite_self _
  rw [reached, plain, still]
  simp

/-! #### Queued answers (R218, R230) -/

/-- The oldest queued answer leaves the queue, and reaches the ray. -/
theorem arriveNext_eq {s : State} {k n : Nat} {q : Answer × Nat} {rest : List (Answer × Nat)} (queue : (getRay s k n).queue = q :: rest) :
    arriveNext k n s =
      drainRay (putRay (putRay s k n { getRay s k n with queue := rest }) k n (reached false { getRay s k n with queue := rest } q.1)) k n := by
  rw [arriveNext, queue]
  dsimp only
  rw [arriveAt_eq, getRay_onRay_same, onRay]
theorem listArrival_shows {s : State} {k n g : Nat} {a : Answer} {rest : List (Answer × Nat)} (queue : (getRay s k n).queue = (a, g) :: rest)
    (sound : (getRay s k n).fault = none) (open_ : (getRay s k n).st = .open_ ∨ (getRay s k n).st = .run) :
    ∃ t, exec (.listArrival k n) s = .next t ∧ let x := getRay t k n
      let y := (arrive { getRay s k n with queue := rest } a).1
      x.queue = rest ∧ x.recs = y.recs ∧ x.front = y.front ∧ x.opq = y.opq ∧ x.arrivals = y.arrivals := by
  have goes : evListArrival k n s = some (arriveNext k n s) := by
    refine if_neg ?_
    obtain st | st := open_
    · simp [queue, sound, st]
    · simp [queue, sound, st]
  refine ⟨_, next_of_some goes, ?_⟩
  dsimp only
  rw [arriveNext_eq queue, (drainRay_logs ..).ray, getRay_putRay_same, reached_frame]
  dsimp only
  exact ⟨by rw [arrive_frame], rfl, rfl, rfl, rfl⟩

/-! #### HIT_TASK_PUSH (R208, R209) -/

theorem lane64_of64 (l : List W64) {i : Nat} (h : i < l.length) (low : i < 8) : lane64 (of64 l) i = l[i] := by
  rw [lane64, of64, elem_ofElems 64 _ i (by simpa using h) (by omega), List.getElem_map]
  rw [Nat.mod_eq_of_lt (BitVec.isLt _), BitVec.ofNat_toNat, BitVec.setWidth_eq]
/-- The entry of a ray's hit task. -/
def hitEntry (k n : Nat) (r : Ray) (h : HitWait) : HitEntry :=
  { slot := n, ctx := r.ctx, prio := h.prio, taken := false, d0 := r.d0, d1 := hitReg1 k n r h }
/-- The ray's hit task has its entry, the first of the cluster, and the ray counts it as outstanding. -/
def hitQueued (s : State) (k n : Nat) (r : Ray) (h : HitWait) : State :=
  putRay (onClu s k fun c => { c with hitbuf := amSet c.hitbuf 0 (hitEntry k n r h) }) k n
    { r with hitWait := none, outstanding := r.outstanding + 1, hits := min (r.hits + 1) 65535 }
theorem hitQueued_entry (s : State) (k n : Nat) (r : Ray) (h : HitWait) :
    amFind (getClu (hitQueued s k n r h) k).hitbuf 0 = some (hitEntry k n r h) := by
  rw [hitQueued, putRay, getClu_onClu_same, getClu_onClu_same]
  exact amFind_amSet_same ..
theorem findSome?_head {α β : Type} {f : α → Option β} {a : α} {l : List α} {b : β} (h : f a = some b) : (a :: l).findSome? f = some b := by
  rw [List.findSome?_cons, h]
theorem evHitTaskPush_first {s t : State} {k n : Nat} {r : Ray} {h : HitWait} {l : List (Nat × Ray)} (rays : (getClu s k).rays = (n, r) :: l)
    (waits : r.hitWait = some h) (sound : r.fault = none) (here : r.parked = false) (runs : engineRuns s r.ctx = true)
    (empty : (getClu s k).hitbuf = [])
    (pushed : pushRec (hitQueued s k n r h) k r.ctx (mkRec h.code h.frame 0 r.hunit false h.prio true true r.hlid) = some t) :
    evHitTaskPush k s = some t := by
  unfold evHitTaskPush
  dsimp only
  rw [if_neg (by simp [empty]), rays]
  refine findSome?_head ?_
  dsimp only
  rw [waits]
  dsimp only
  rw [if_neg (by simp [sound, here, runs]), empty]
  exact pushed

/-! #### RAY_DONE of a ray without log (R197, R230) -/

/-- A ray without log whose traversal has ended, with no log write to perform. -/
structure Unlogged (r : Ray) : Prop where
  log : r.log = none
  ended : r.ended = true
  pend : r.pend = []

theorem arriveNext_unlogged {s : State} {k n : Nat} {q : Answer × Nat} {rest : List (Answer × Nat)} (quiet : Unlogged (getRay s k n))
    (queue : (getRay s k n).queue = q :: rest) :
    arriveNext k n s = putRay (putRay s k n { getRay s k n with queue := rest }) k n (arrive { getRay s k n with queue := rest } q.1).1 := by
  rw [arriveNext_eq queue, reached_unlogged (r := { getRay s k n with queue := rest }) quiet.log quiet.ended]
  refine drainRay_idle ?_
  rw [getRay_putRay_same, arrive_frame]
  exact quiet.pend
/-- As the queued answers of such a ray arrive, its list, frontier and counters follow, and nothing else. -/
theorem arriveSome_unlogged {k n c : Nat} {s : State} (quiet : Unlogged (getRay s k n)) (queue : (getRay s k n).queue.length = c) :
    let t := arriveSome k n c s
    let x := getRay t k n
    ClustersOnly s t ∧
      x = { getRay s k n with queue := [], recs := x.recs, front := x.front, opq := x.opq, arrCount := x.arrCount, arrivals := x.arrivals,
                              late := x.late, dup := x.dup, reject := x.reject, merges := x.merges } := by
  induction c generalizing s with
  | zero =>
    have empty := List.eq_nil_of_length_eq_zero queue
    refine ⟨rfl, ?_⟩
    rw [← empty]
    rfl
  | succ c ih =>
    obtain ⟨q, rest, more⟩ := List.exists_cons_of_length_eq_add_one queue
    have step := arriveNext_unlogged quiet more
    have ray : getRay (arriveNext k n s) k n = (arrive { getRay s k n with queue := rest } q.1).1 := by rw [step, getRay_putRay_same]
    rw [arrive_frame] at ray
    obtain ⟨only, frame⟩ := ih (s := arriveNext k n s) (by rw [ray]; exact ⟨quiet.log, quiet.ended, quiet.pend⟩)
      (by rw [ray]; simpa [more] using queue)
    have stepOnly : ClustersOnly s (arriveNext k n s) := by
      rw [step]
      exact (putRay_only ..).trans (putRay_only ..)
    refine ⟨stepOnly.trans only, ?_⟩
    refine frame.trans ?_
    rw [ray]
    rfl
theorem commitLog_unlogged {s : State} {ctx lid : Nat} (log : (getLaunch s ctx lid).log = none) : commitLog s ctx lid = s := by
  unfold commitLog
  dsimp only
  rw [log]
/-- A ray without log, in a launch without log, enters DONE. -/
theorem finishRay_unlogged {s : State} {k n : Nat} (pend : (getRay s k n).pend = []) (sound : (getRay s k n).fault = none)
    (launch : (getRay s k n).lid = 0 ∨ (getLaunch s (getRay s k n).ctx (getRay s k n).lid).log = none) :
    finishRay s k n = putRay s k n (setStat { getRay s k n with st := .done } stDONE) := by
  unfold finishRay
  dsimp only
  rw [if_neg (by simp [pend, sound])]
  split
  · rfl
  · next used => exact commitLog_unlogged (launch.resolve_left used)
theorem enterDone_unlogged {s : State} {k n : Nat} (quiet : Unlogged (getRay s k n)) (sound : (getRay s k n).fault = none)
    (launch : (getRay s k n).lid = 0 ∨ (getLaunch s (getRay s k n).ctx (getRay s k n).lid).log = none) :
    let u := arriveSome k n (getRay s k n).queue.length s
    enterDone s k n = putRay u k n (setStat { getRay u k n with st := .done } stDONE) := by
  intro u
  obtain ⟨only, frame⟩ := arriveSome_unlogged quiet rfl
  change ClustersOnly s u at only
  change getRay u k n = _ at frame
  have pend : (getRay u k n).pend = [] := by rw [frame]; exact quiet.pend
  have fault : (getRay u k n).fault = none := by rw [frame]; exact sound
  have log : (getRay u k n).log = none := by rw [frame]; exact quiet.log
  have done := finishRay_unlogged (s := u) pend fault (by
    rw [frame, only]
    exact launch)
  unfold enterDone
  dsimp only
  rw [show arriveSome k n (getRay s k n).queue.length s = u from rfl, drainRay_idle pend, if_neg (by simp [pend, fault])]
  refine (congrArg (finishRay · k n) (if_neg ?_)).trans done
  rw [log]
  simp
theorem rayDone_shows {s : State} {k n : Nat} (st : (getRay s k n).st = .run) (parked : (getRay s k n).parked = false)
    (sound : (getRay s k n).fault = none) (runs : engineRuns s (getRay s k n).ctx = true) (fresh : (getRay s k n).replay = false)
    (quiet : Unlogged (getRay s k n)) (tasks : (getRay s k n).outstanding = 0) (waits : (getRay s k n).hitWait = none)
    (launch : (getRay s k n).lid = 0 ∨ (getLaunch s (getRay s k n).ctx (getRay s k n).lid).log = none) :
    ∃ t, exec (.rayDone k n) s = .next t ∧ (getRay t k n).st = .done ∧ bitOf (getRay t k n).stat.toNat 0 = true ∧
      (getRay t k n).queue = [] ∧ t.mem = s.mem ∧
      ((getRay s k n).queue = [] → (getRay t k n).recs = (getRay s k n).recs ∧ (getRay t k n).stat = (getRay s k n).stat ||| 1#9) := by
  have goes : evRayDone k n s = some (enterDone s k n) := by
    unfold evRayDone
    dsimp only
    rw [if_neg (by simp [st, parked, sound, runs]), if_neg (by simp [fresh]), if_neg (by simp [quiet.ended, tasks, waits])]
  obtain ⟨only, frame⟩ := arriveSome_unlogged quiet rfl
  refine ⟨_, next_of_some goes, ?_⟩
  rw [enterDone_unlogged quiet sound launch, getRay_putRay_same]
  refine ⟨rfl, ?_, ?_, ?_, fun empty => ?_⟩
  · simp [setStat, stDONE, bitOf_eq_testBit]
  · rw [frame]
    rfl
  · exact (only.trans (putRay_only ..)).mem
  · rw [empty]
    exact ⟨rfl, rfl⟩

/-- Settles O55: an arrival by `arrive_cases`, a list's length by `ivOverflow_length`, the frontier by `lt32_min32`; the events by what
answers leave of a ray (`reached_frame`, `arriveSome_unlogged`). -/
theorem listsKeepTheirContract : Obligations.ListsKeepTheirContract := by
  unfold Obligations.ListsKeepTheirContract
  refine ⟨?_, ?_, ?_, ?_⟩
  · intro r a x
    obtain ⟨arrivals, count⟩ := arrive_counts r a
    refine ⟨arrivals, count, arrive_length a, arrive_opaque a, arrive_front a, arrive_unlisted, ?_⟩
    intro y late
    refine ⟨fun rejected => ?_, fun taken isLate => ?_⟩
    · have h : x = _ := arrive_rejected (r := r) (a := a) rejected
      rw [h]
      exact ⟨rfl, rfl, rfl, rfl, rfl, rfl⟩
    · have h : x = _ := arrive_late (r := r) (a := a) taken (ivClipped_none isLate)
      rw [h]
      exact ⟨rfl, rfl, rfl, rfl, rfl, rfl⟩
  · intro s k n a g rest r queue sound open_
    obtain ⟨t, runs, left, recs, front, opq, arrivals⟩ := listArrival_shows queue sound open_
    exact ⟨t, runs, left, recs, front, opq, arrivals.trans (arrive_counts ..).1⟩
  · intro s k n r h l rays waits sound here runs empty
    refine ⟨_, hitQueued s k n r h, rfl, hitQueued_entry s k n r h, rfl, rfl, rfl, lane64_of64 _ (by simp) (by decide),
      lane64_of64 _ (by simp) (by decide), ?_⟩
    rw [hitQueued, getRay_putRay_same]
    exact ⟨rfl, rfl, rfl, fun t pushed => next_of_some (evHitTaskPush_first rays waits sound here runs empty pushed)⟩
  · intro s k n r st parked sound runs fresh ended tasks waits log pend launch
    exact rayDone_shows st parked sound runs fresh ⟨log, ended, pend⟩ tasks waits launch

end Machine
end Sys2Proof
end

section
/-! ### O53: rays by their handles -/

namespace Sys2Proof
namespace Machine

section
variable {α β ε : Type} {m : Except ε α} {k : α → Except ε β}

theorem bind_found {x : α} (h : m = .ok x) : (m >>= k) = k x := by rw [h]; rfl
theorem bind_stops {e : ε} (h : m = .error e) : (m >>= k) = .error e := by rw [h]; rfl
end

/-! #### `rayopen` (R195) -/

/-- The second register of a descriptor, and `ivstop`, pass the check of `rayopen` (R195). -/
def descriptorFine (s : State) (d1 : V512) : Bool :=
  bitsOf (lane d1 4) 16 2 != 3 && bitsOf (lane d1 4) 18 14 == 0 && ivstopOk (fieldOf (vw s).ivstop 0 32)
theorem descriptorFine_iff (s : State) (d1 : V512) : descriptorFine s d1 = true ↔
    lane d1 4 / 2 ^ 16 % 4 ≠ 3 ∧ lane d1 4 / 2 ^ 18 = 0 ∧ 0 < (vw s).ivstop.toNat % 2 ^ 32 ∧ (vw s).ivstop.toNat % 2 ^ 32 ≤ 0x7F800000 := by
  have low : lane d1 4 / 2 ^ 18 < 2 ^ 14 := by
    have := elem_lt 32 d1 4
    rw [← lane] at this
    omega
  rw [descriptorFine, fieldOf_low, bitsOf, bitsOf, Nat.mod_eq_of_lt low]
  simp only [ivstopOk, Bool.and_eq_true, bne_iff_ne, beq_iff_eq, decide_eq_true_eq, and_assoc]
  exact Iff.rfl
/-- The ray of a descriptor in a slot, before the check of its fields. -/
def descriptorRay (s : State) (n : Nat) (d0 d1 : V512) : Ray :=
  { Ray.init with gen := (getRay s (myClu s) n).gen % 4095 + 1, st := .open_, ctx := myCtx s, d0 := d0, d1 := d1,
                  rig := (getCtx s (myCtx s)).rig, ivstop := w32 (fieldOf (vw s).ivstop 0 32), tracer := s.here }
/-- The ray with BADRAY set when a field of its descriptor is malformed. -/
def withBadRay (r : Ray) : Ray := if badRay r then setStat r stBADRAY else r
/-- The state with a ray in a slot of the cluster, and numbered. -/
def slotOpened (s : State) (n : Nat) (r : Ray) (banks : List (Nat × Rig)) : State :=
  numberRay (putRay (onClu s (myClu s) fun c => { c with banks := banks }) (myClu s) n r) (myClu s) n
/-- The same with the ray's handle written. -/
def rayOpened (s : State) (d : Fin 32) (n : Nat) (r : Ray) (banks : List (Nat × Rig)) : State :=
  setS (slotOpened s n r banks) d (handleOf (myClu s) n r)

theorem bitOf_setStat_same (r : Ray) {b : Nat} (h : b < 9) : bitOf (setStat r b).stat.toNat b = true := by
  simp only [setStat, bitOf_eq_testBit, BitVec.testBit_toNat, BitVec.getLsbD_or, BitVec.getLsbD_shiftLeft]
  simp [h]
theorem bitOf_setStat_other (r : Ray) {b i : Nat} (h : i ≠ b) : bitOf (setStat r b).stat.toNat i = bitOf r.stat.toNat i := by
  simp only [setStat, bitOf_eq_testBit, BitVec.testBit_toNat, BitVec.getLsbD_or, BitVec.getLsbD_shiftLeft]
  by_cases low : i < b
  · simp [low]
  · simp [show ¬ i - b = 0 by omega]
theorem withBadRay_frame (r : Ray) : withBadRay r = { r with stat := (withBadRay r).stat } := by
  unfold withBadRay
  split
  · rfl
  · rfl
theorem withBadRay_bit {r : Ray} (clear : bitOf r.stat.toNat 2 = false) : bitOf (withBadRay r).stat.toNat 2 = badRay (withBadRay r) := by
  have same : badRay (withBadRay r) = badRay r := by rw [withBadRay_frame]; rfl
  rw [same, withBadRay]
  split
  · next bad => rw [bad]; exact bitOf_setStat_same r (by decide)
  · next good => rw [clear, Bool.eq_false_iff.mpr good]

/-- What the numbering of a ray in its launch's log may change: the names of unit and log, the log's writes and LOGOVF (R212). -/
structure NumberedOnly (r x : Ray) : Prop where
  bad : bitOf x.stat.toNat 2 = bitOf r.stat.toNat 2
  frame : x = { r with lid := x.lid, lgen := x.lgen, unit := x.unit, log := x.log, logN := x.logN, logOn := x.logOn, pend := x.pend,
                       stat := x.stat, fault := x.fault }
theorem NumberedOnly.trans {r x y : Ray} (h : NumberedOnly r x) (g : NumberedOnly x y) : NumberedOnly r y :=
  ⟨g.bad.trans h.bad, by rw [g.frame, h.frame]⟩
theorem NumberedOnly.logs {s t : State} (h : LogsOnly s t) (k n : Nat) : NumberedOnly (getRay s k n) (getRay t k n) :=
  ⟨by rw [h.ray], by rw [h.ray]⟩
theorem NumberedOnly.onRay {f : Ray → Ray} (h : ∀ r, NumberedOnly r (f r)) (s : State) (k n : Nat) :
    NumberedOnly (getRay s k n) (getRay (onRay s k n f) k n) := by
  rw [getRay_onRay_same]
  exact h _
theorem numberRay_only (s : State) (k n : Nat) : (numberRay s k n).th = s.th ∧ NumberedOnly (getRay s k n) (getRay (numberRay s k n) k n) := by
  unfold numberRay
  split
  · exact ⟨rfl, rfl, rfl⟩
  · dsimp only
    split
    · refine ⟨rfl, .onRay (fun r => ?_) s k n⟩
      exact ⟨rfl, rfl⟩
    · refine ⟨(drainRay_logs ..).th, ?_⟩
      refine .trans ?_ (.logs (drainRay_logs ..) k n)
      refine .trans ?_ (.onRay (fun r => ?_) _ k n)
      · refine .trans (.onRay (fun r => ?_) s k n) (.logs (onLaunch_logs ..) k n)
        exact ⟨rfl, rfl⟩
      · split
        · exact ⟨rfl, rfl⟩
        · exact ⟨bitOf_setStat_other _ (by decide), rfl⟩

theorem slotOpened_only (s : State) (n : Nat) (r : Ray) (banks : List (Nat × Rig)) :
    (slotOpened s n r banks).th = s.th ∧ NumberedOnly r (getRay (slotOpened s n r banks) (myClu s) n) := by
  obtain ⟨th, only⟩ := numberRay_only (putRay (onClu s (myClu s) fun c => { c with banks := banks }) (myClu s) n r) (myClu s) n
  rw [getRay_putRay_same] at only
  exact ⟨th, only⟩

section
variable {o : RayOpen} {s : State} (on : pred0 s o.p = true)
include on

theorem execRayopen_stops {x : Stop} (h : pairE s o.a = .error x) : exec (.rayopen o) s = .next (onStop s x) :=
  next_bit0Form (b' := .error x) on (bind_stops h)
variable {p : VDst × VDst} (pair : pairE s o.a = .ok p)
include pair
theorem execRayopen_malformed (bad : descriptorFine s (readVD s p.2) = false) : Traps (.rayopen o) s (trapOf cENGINE 0) :=
  next_bit0Form (b' := trapE cENGINE 0) on ((bind_found pair).trans (require_unmet bad))
variable (fine : descriptorFine s (readVD s p.2) = true)
include fine
theorem execRayopen_full (full : (List.range 1024).find? (fun n => (getRay s (myClu s) n).st == .free) = none ∨
    bankFor (getClu s (myClu s)) (myCtx s) (getCtx s (myCtx s)).rig = none) : exec (.rayopen o) s = .next (setS s o.d 0) := by
  refine next_bit0Form (b' := .ok (setS s o.d 0)) on ((bind_found pair).trans ((require_met fine).trans ?_))
  dsimp only
  obtain h | h := full
  · rw [h]
  · rw [h]
    split
    · next e => cases e
    · rfl
theorem execRayopen_opens {n : Nat} {banks : List (Nat × Rig)}
    (free : (List.range 1024).find? (fun n => (getRay s (myClu s) n).st == .free) = some n)
    (bank : bankFor (getClu s (myClu s)) (myCtx s) (getCtx s (myCtx s)).rig = some banks) :
    exec (.rayopen o) s = .next (rayOpened s o.d n (withBadRay (descriptorRay s n (readVD s p.1) (readVD s p.2))) banks) := by
  refine next_bit0Form (b' := .ok (rayOpened s o.d n (withBadRay (descriptorRay s n (readVD s p.1) (readVD s p.2))) banks)) on
    ((bind_found pair).trans ((require_met fine).trans ?_))
  dsimp only
  rw [free, bank]
  rfl
end

/-- The lowest free slot. -/
theorem find_free {s : State} {k n : Nat} (low : n < 1024) (free : (getRay s k n).st = .free) (below : ∀ m < n, (getRay s k m).st ≠ .free) :
    (List.range 1024).find? (fun n => (getRay s k n).st == .free) = some n := by
  rw [List.find?_range_eq_some]
  exact ⟨by simp [free], List.mem_range.mpr low, fun m hm => by simp [below m hm]⟩
theorem find_full {s : State} {k : Nat} (full : ∀ n < 1024, (getRay s k n).st ≠ .free) :
    (List.range 1024).find? (fun n => (getRay s k n).st == .free) = none :=
  List.find?_eq_none.mpr fun n hn => by simp [full n (List.mem_range.mp hn)]
/-- The opened slot holds the descriptor on an empty list, and the handle is written (R191, R195, R217). -/
theorem rayOpened_shows (s : State) (d : Fin 32) (n : Nat) (d0 d1 : V512) (banks : List (Nat × Rig)) :
    let t := rayOpened s d n (withBadRay (descriptorRay s n d0 d1)) banks
    let r := getRay t (myClu s) n
    r.st = .open_ ∧ r.gen = (getRay s (myClu s) n).gen % 4095 + 1 ∧ r.ctx = myCtx s ∧ r.d0 = d0 ∧ r.d1 = d1 ∧
      r.rig = (getCtx s (myCtx s)).rig ∧ r.ivstop.toNat = (vw s).ivstop.toNat % 2 ^ 32 ∧ r.recs = [] ∧ r.front = 0x7F800000 ∧
      r.opq = false ∧ r.arrivals = 0 ∧ bitOf r.stat.toNat 2 = badRay r ∧ (d ≠ 0 → t.th.rf.s[d] = handleOf (myClu s) n r) ∧ SameButS s.th.rf t.th.rf ∧
      ∀ m : Fin 32, m ≠ d → t.th.rf.s[m] = s.th.rf.s[m] := by
  intro t r
  obtain ⟨th, only⟩ := slotOpened_only s n (withBadRay (descriptorRay s n d0 d1)) banks
  change NumberedOnly _ r at only
  obtain ⟨-, same, others, written⟩ := setS_wrote (slotOpened s n (withBadRay (descriptorRay s n d0 d1)) banks) d
    (handleOf (myClu s) n (withBadRay (descriptorRay s n d0 d1)))
  rw [th] at same others
  have malformed : badRay r = badRay (withBadRay (descriptorRay s n d0 d1)) := by rw [only.frame]; rfl
  have handle : handleOf (myClu s) n r = handleOf (myClu s) n (withBadRay (descriptorRay s n d0 d1)) := by rw [only.frame]; rfl
  have frame := only.frame
  rw [withBadRay_frame] at frame
  refine ⟨congrArg Ray.st frame, congrArg Ray.gen frame, congrArg Ray.ctx frame, congrArg Ray.d0 frame, congrArg Ray.d1 frame,
    congrArg Ray.rig frame, ?_, congrArg Ray.recs frame, congrArg Ray.front frame, congrArg Ray.opq frame, congrArg Ray.arrivals frame, ?_,
    fun used => ?_, same, others⟩
  · refine (congrArg (fun r : Ray => r.ivstop.toNat) frame).trans ?_
    simp [descriptorRay, w32]
  · rw [malformed]
    have clear : (descriptorRay s n d0 d1).stat = 0 := rfl
    exact only.bad.trans (withBadRay_bit (by rw [clear]; decide))
  · rw [if_neg used] at written
    rw [handle]
    exact written

/-! #### Handles (R191, R192) -/

section
variable {s : State}

theorem arriveAt_stands (k n : Nat) (inWord : Bool) (s : State) (a : Answer) :
    (arriveAt k n inWord s a).here = s.here ∧ (arriveAt k n inWord s a).th = s.th := by
  rw [arriveAt_eq]
  exact ⟨(drainRay_logs ..).here, (drainRay_logs ..).th⟩
theorem arriveNext_stands (k n : Nat) (s : State) : (arriveNext k n s).here = s.here ∧ (arriveNext k n s).th = s.th := by
  unfold arriveNext
  split
  · exact ⟨rfl, rfl⟩
  · exact arriveAt_stands ..
theorem arriveSome_stands (k n c : Nat) (s : State) : (arriveSome k n c s).here = s.here ∧ (arriveSome k n c s).th = s.th := by
  induction c generalizing s with
  | zero => exact ⟨rfl, rfl⟩
  | succ c ih =>
    obtain ⟨here, th⟩ := arriveNext_stands k n s
    exact ⟨(ih _).1.trans here, (ih _).2.trans th⟩
theorem flushMine_here (s : State) (k n : Nat) : (flushMine s k n).here = s.here := (arriveSome_stands ..).1
theorem flushMine_th (s : State) (k n : Nat) : (flushMine s k n).th = s.th := (arriveSome_stands ..).2
theorem getS_flushMine (s : State) (k n : Nat) (d : Fin 32) : getS (flushMine s k n) d = getS s d := by rw [getS, vw, flushMine_th]; rfl

variable {h : W64} {ok : Ray → Bool}

theorem rayE_dead (dead : ∀ k n r, rayAt s h = some (k, n, r) → r.ctx ≠ myCtx s) : rayE s h ok = trapE cENGINE 0 := by
  unfold rayE
  split
  · next k n r at_ => exact if_pos (by simpa using dead k n r at_)
  · rfl
variable {k n : Nat} {r : Ray} (live : rayAt s h = some (k, n, r)) (own : r.ctx = myCtx s)
include live own

theorem rayE_found (legal : ok (getRay (flushMine s k n) k n) = true) : rayE s h ok = .ok (k, n, flushMine s k n) := by
  rw [rayE, live]
  dsimp only
  rw [if_neg (by simp [own]), if_pos legal]
theorem rayE_illegal (illegal : ok (getRay (flushMine s k n) k n) = false) : rayE s h ok = trapE cENGINE 0 := by
  rw [rayE, live]
  dsimp only
  rw [if_neg (by simp [own]), if_neg (by simp [illegal])]
end

/-! #### Forms whose handle is not a ray of the context -/

section
variable {s : State} {h : W64} (dead : ∀ k n r, rayAt s h = some (k, n, r) → r.ctx ≠ myCtx s)
include dead

theorem rayForms_dead {o : SA1} (on : pred0 s o.p = true) (names : getS s o.a = h) : Traps (.raytrace o) s (trapOf cENGINE 0) ∧
    Traps (.replay o) s (trapOf cENGINE 0) ∧ Traps (.ivclr o) s (trapOf cENGINE 0) := by
  subst names
  exact ⟨next_bit0Form on (bind_stops (rayE_dead dead)), next_bit0Form on (bind_stops (rayE_dead dead)),
    next_bit0Form on (bind_stops (rayE_dead dead))⟩
theorem raywait_dead {o : RayWait} (on : pred0 s o.p = true) (names : getS s o.a = h) : Traps (.raywait o) s (trapOf cENGINE 0) := by
  subst names
  exact next_bit0Form on (bind_stops (rayE_dead dead))
theorem ivstat_dead {o : IvStat} (on : pred0 s o.p = true) (names : getS s o.a = h) : Traps (.ivstat o) s (trapOf cENGINE 0) := by
  subst names
  exact next_bit0Form on (bind_stops (rayE_dead dead))
theorem ivread_dead {o : IvRead} (on : pred0 s o.p = true) (inside : vopOk s o.d = true) (names : getS s o.a = h) :
    Traps (.ivread o) s (trapOf cENGINE 0) := by
  subst names
  refine next_bit0Form (b' := trapE cENGINE 0) on ((require_met inside).trans ?_)
  exact bind_stops (rayE_dead dead)
theorem ivpost_dead {o : IvPost} (on : pred0 s o.p = true) (inside : vopOk s o.b = true) (names : getS s o.a = h) :
    Traps (.ivpost o) s (trapOf cENGINE 0) := by
  subst names
  refine next_bit0Form (b' := trapE cENGINE 0) on ((require_met inside).trans ?_)
  dsimp only
  split
  · next k n r at_ => exact require_unmet (by simp [dead k n r at_])
  · rfl
end

/-! #### Forms of a live ray -/

section
variable {s : State} {h : W64} {k n : Nat} {r : Ray} (live : rayAt s h = some (k, n, r)) (own : r.ctx = myCtx s)
include live own

theorem rayForms_illegal {o : SA1} (on : pred0 s o.p = true) (names : getS s o.a = h) (shut : (getRay (flushMine s k n) k n).st ≠ .open_) :
    Traps (.raytrace o) s (trapOf cENGINE 0) ∧ Traps (.replay o) s (trapOf cENGINE 0) ∧ Traps (.ivclr o) s (trapOf cENGINE 0) := by
  subst names
  have illegal : rayE s (getS s o.a) (fun r => r.st == .open_) = trapE cENGINE 0 := rayE_illegal live own (by simp [shut])
  exact ⟨next_bit0Form on (bind_stops illegal), next_bit0Form on (bind_stops illegal), next_bit0Form on (bind_stops illegal)⟩

/-- Traversal begins; an opaque list, or BADRAY, ends it at once (R195, R196, R226). -/
def tracedRay (r : Ray) : Ray :=
  if r.opq then endTrav r (some stOPAQUE) else if bitOf r.stat.toNat stBADRAY then endTrav r none else r
theorem raytrace_runs {o : SA1} (on : pred0 s o.p = true) (names : getS s o.a = h) (open_ : (getRay (flushMine s k n) k n).st = .open_) :
    exec (.raytrace o) s = .next (traceLaunch (onRay (startRay (flushMine s k n) k n h) k n tracedRay) k n) := by
  subst names
  exact next_bit0Form on (bind_found (rayE_found live own (by simp [open_])))
theorem ivclr_runs {o : SA1} (on : pred0 s o.p = true) (names : getS s o.a = h) (open_ : (getRay (flushMine s k n) k n).st = .open_) :
    exec (.ivclr o) s = .next (onRay (flushMine s k n) k n clearList) := by
  subst names
  exact next_bit0Form on (bind_found (rayE_found live own (by simp [open_])))
/-- The ray of a replay: it reads its log when it ends (R213). -/
def replayingRay (r : Ray) : Ray := setStat { r with replay := true, logOn := false, pend := [] } stREPLAY
section
variable {o : SA1} (on : pred0 s o.p = true) (names : getS s o.a = h) (open_ : (getRay (flushMine s k n) k n).st = .open_)
  (empty : (getRay (flushMine s k n) k n).queue = [])
include on names open_ empty

/-- With no answer queued, `replay` is its check of the ray's log and list (R213). -/
theorem replay_goes : let x := getRay (flushMine s k n) k n
    exec (.replay o) s = .next (runBody s (require (x.log.isSome && x.logN.isSome && x.arrivals == 0) cENGINE 0 >>= fun _ =>
      .ok (onRay (startRay (flushMine s k n) k n h) k n replayingRay))) := by
  subst names
  refine next_bit0Form on ((bind_found (rayE_found live own (by simp [open_]))).trans ?_)
  dsimp only
  rw [empty, List.length_nil, arriveSome, getS_flushMine]
  rfl
theorem replay_runs (log : (getRay (flushMine s k n) k n).log ≠ none) (number : (getRay (flushMine s k n) k n).logN ≠ none)
    (fresh : (getRay (flushMine s k n) k n).arrivals = 0) :
    exec (.replay o) s = .next (onRay (startRay (flushMine s k n) k n h) k n replayingRay) := by
  rw [replay_goes live own on names open_ empty, require_met (by simp [Option.isSome_iff_ne_none, log, number, fresh])]
  rfl
theorem replay_refused (bad : (getRay (flushMine s k n) k n).log = none ∨ (getRay (flushMine s k n) k n).logN = none ∨
    (getRay (flushMine s k n) k n).arrivals ≠ 0) : Traps (.replay o) s (trapOf cENGINE 0) := by
  rw [Traps, replay_goes live own on names open_ empty, require_unmet ?_]
  · rfl
  · obtain log | number | used := bad
    · simp [log]
    · simp [number]
    · simp [used]
end

/-- The focus thread set runs a hit task of this ray (R209). -/
def ownHit (s : State) (k n : Nat) : Bool := match s.th.hit with
  | some (c, e) => c == k && (match amFind (getClu s k).hitbuf e with
    | some x => x.slot == n
    | none => false)
  | none => false
omit live own in
theorem ownHit_iff : ownHit s k n = true ↔ ∃ e y, s.th.hit = some (k, e) ∧ amFind (getClu s k).hitbuf e = some y ∧ y.slot = n := by
  unfold ownHit
  split
  · next c e hit =>
    rw [hit]
    split
    · next y found =>
      constructor
      · simp only [Bool.and_eq_true, beq_iff_eq]
        rintro ⟨rfl, rfl⟩
        exact ⟨e, y, rfl, found, rfl⟩
      · rintro ⟨e', y', eq, found', rfl⟩
        cases eq
        rw [found] at found'
        cases found'
        simp
    · next absent =>
      simp only [Bool.and_false, Bool.false_eq_true, false_iff]
      rintro ⟨e', y', eq, found', -⟩
      cases eq
      rw [absent] at found'
      cases found'
  · next none_ =>
    rw [none_]
    simp
/-- The status word is written, and a DONE slot released when asked (R198). -/
def waited (u : State) (k n : Nat) (o : RayWait) : State :=
  let x := getRay u k n
  if o.rel && x.st == .done then putRay (setS u o.d (statusOf x)) k n { Ray.init with gen := x.gen } else setS u o.d (statusOf x)
omit live own in
theorem waited_releases {u : State} {o : RayWait} (release : o.rel = true) (done : (getRay u k n).st = .done) :
    waited u k n o = putRay (setS u o.d (statusOf (getRay u k n))) k n { Ray.init with gen := (getRay u k n).gen } := if_pos (by simp [release, done])
omit live own in
theorem waited_keeps {u : State} {o : RayWait} (keeps : o.rel = false ∨ (getRay u k n).st ≠ .done) :
    waited u k n o = setS u o.d (statusOf (getRay u k n)) := by
  refine if_neg ?_
  obtain keep | runs := keeps
  · simp [keep]
  · simp [runs]
/-- `raywait` is its check against a wait for the ray's own hit task, then its wait (R198, R209). -/
theorem raywait_goes {o : RayWait} (on : pred0 s o.p = true) (names : getS s o.a = h) : let u := flushMine s k n
    exec (.raywait o) s = .next (runBody s (require (!ownHit s k n) cENGINE 0 >>= fun _ =>
      ready (o.poll || (getRay u k n).st == .done) >>= fun _ => .ok (waited u k n o))) := by
  subst names
  refine next_bit0Form on ((bind_found (rayE_found live own rfl)).trans ?_)
  rfl
omit own in
theorem ivpost_goes {o : IvPost} (on : pred0 s o.p = true) (inside : vopOk s o.b = true) (names : getS s o.a = h) :
    exec (.ivpost o) s = .next (runBody s (require (r.ctx == myCtx s && (r.st == .open_ || (r.st == .run && !r.replay))) cENGINE 0 >>= fun _ =>
      .ok (onRay s k n fun r => { r with queue := r.queue ++ [(BitVec.ofNat 256 (peekV s o.b).toNat, s.here)] }))) := by
  subst names
  refine next_bit0Form on ((require_met inside).trans ?_)
  dsimp only
  rw [live]
theorem ivread_runs {o : IvRead} (on : pred0 s o.p = true) (inside : vopOk s o.d = true) (names : getS s o.a = h) :
    let x := getRay (flushMine s k n) k n
    let i := (getS s o.b).toNat
    exec (.ivread o) s = .next (writeVD (flushMine s k n) (resolveV s o.d)
      (BitVec.ofNat 512 ((recordAt x i).toNat + (recordAt x (i + 1)).toNat * 2 ^ 256))) := by
  subst names
  refine next_bit0Form (b' := .ok _) on ((require_met inside).trans ?_)
  exact bind_found (rayE_found live own rfl)
theorem ivstat_runs {o : IvStat} (on : pred0 s o.p = true) (names : getS s o.a = h) : let x := getRay (flushMine s k n) k n
    exec (.ivstat o) s = .next (setS (flushMine s k n) o.d (BitVec.ofNat 64 (if o.sel then x.front.toNat + x.ivstop.toNat * 2 ^ 32
      else x.dup + x.late * 2 ^ 12 + x.arrivals * 2 ^ 24 + x.reject * 2 ^ 40 + x.merges * 2 ^ 48 + x.recs.length * 2 ^ 58 +
        bit x.opq * 2 ^ 63))) := by
  subst names
  exact next_bit0Form on (bind_found (rayE_found live own rfl))
end

/-! #### What the forms leave -/

theorem clearList_shows (r : Ray) : let y := clearList r
    y.st = r.st ∧ y.recs = [] ∧ y.front = 0x7F800000 ∧ y.opq = false ∧ y.arrCount = 0 ∧ y.arrivals = 0 ∧ y.late = 0 ∧ y.dup = 0 ∧
      y.reject = 0 ∧ y.merges = 0 ∧ y.ivstop = r.ivstop := by
  unfold clearList
  dsimp only
  split
  · split
    · exact ⟨rfl, rfl, rfl, rfl, rfl, rfl, rfl, rfl, rfl, rfl, rfl⟩
    · exact ⟨rfl, rfl, rfl, rfl, rfl, rfl, rfl, rfl, rfl, rfl, rfl⟩
  · exact ⟨rfl, rfl, rfl, rfl, rfl, rfl, rfl, rfl, rfl, rfl, rfl⟩

theorem tracedRay_frame (r : Ray) : let y := tracedRay r
    y = { r with ended := y.ended, stack := y.stack, rstack := y.rstack, leafDone := y.leafDone, ahead := y.ahead,
                 cells := y.cells, stat := y.stat } := by
  unfold tracedRay
  split
  · exact endTrav_frame ..
  · split
    · exact endTrav_frame ..
    · rfl
section
variable {r : Ray}

theorem tracedRay_opaque (opq : r.opq = true) : tracedRay r = endTrav r (some stOPAQUE) := if_pos opq
theorem tracedRay_bad (clear : r.opq = false) (bad : bitOf r.stat.toNat stBADRAY = true) : tracedRay r = endTrav r none := by
  rw [tracedRay, if_neg (by simp [clear]), if_pos bad]
theorem tracedRay_goes (clear : r.opq = false) (good : bitOf r.stat.toNat stBADRAY = false) : tracedRay r = r := by
  rw [tracedRay, if_neg (by simp [clear]), if_neg (by simp [good])]
end
/-- The ray in RUN for the thread set in focus (R196, R209). -/
def startedRay (u : State) (r : Ray) : Ray :=
  { r with st := .run, tracer := u.here, hlid := myLid u, hunit := if u.th.act.isNone then recUnit u.th.task else (u.th.rf.unit).toNat }
theorem getRay_startRay (u : State) (k n : Nat) (h : W64) : getRay (startRay u k n h) k n = startedRay u (getRay u k n) := by
  rw [startRay, getRay_withTh, getRay_onRay_same]
  rfl
/-- The ray that `raytrace` leaves, whose launch's log writes have been performed. -/
theorem getRay_traced (u : State) (k n : Nat) (h : W64) : let y := getRay (traceLaunch (onRay (startRay u k n h) k n tracedRay) k n) k n
    y = { tracedRay (getRay (startRay u k n h) k n) with pend := y.pend, fault := y.fault } := by
  intro y
  refine ((traceLaunch_logs ..).ray k n).trans ?_
  rw [getRay_onRay_same]
theorem recordAt_toNat (r : Ray) (i : Nat) : (recordAt r i).toNat = match r.recs[i]? with
    | some a => a.toNat
    | none => 0x7FC00000 * (2 ^ 32 + 1) := by
  rw [recordAt, List.getD_eq_getElem?_getD]
  cases r.recs[i]? with
  | none => rfl
  | some a => rfl
theorem pair_toNat (a b : Answer) : (BitVec.ofNat 512 (a.toNat + b.toNat * 2 ^ 256)).toNat = a.toNat + 2 ^ 256 * b.toNat := by
  have ha := a.isLt
  have hb := b.isLt
  rw [BitVec.toNat_ofNat, Nat.mod_eq_of_lt (by omega), Nat.mul_comm]

/-! #### `hitq` and `logset` (R211, R212) -/

theorem hitq_copies {o : HitQ} {s : State} {p : VDst × VDst} (on : pred0 s o.p = true) (pair : pairE s o.d = .ok p) {k e : Nat} {x : HitEntry}
    (hit : s.th.hit = some (k, e)) (entry : amFind (getClu s k).hitbuf e = some x) :
    exec (.hitq o) s = .next (writeVD (writeVD s p.1 x.d0) p.2 x.d1) := by
  refine next_bit0Form (b' := .ok (writeVD (writeVD s p.1 x.d0) p.2 x.d1)) on ((bind_found pair).trans ?_)
  rw [hit]
  dsimp only
  rw [entry]
theorem hitq_idle {o : HitQ} {s : State} {p : VDst × VDst} (on : pred0 s o.p = true) (pair : pairE s o.d = .ok p) (hit : s.th.hit = none) :
    Traps (.hitq o) s (trapOf cENGINE 0) := by
  refine next_bit0Form (b' := trapE cENGINE 0) on ((bind_found pair).trans ?_)
  rw [hit]

theorem logBound_iff {s : State} : ((vw s).lpb != 0 && myLid s != 0) = true ↔ (vw s).lpb ≠ 0 ∧ myLid s ≠ 0 := by
  rw [Bool.and_eq_true, bne_iff_ne, bne_iff_ne]
section
variable {o : SA3} {s : State} (on : pred0 s o.p = true)
include on

theorem logset_misaligned (odd : (getS s o.a).toNat % 64 ≠ 0) : Traps (.logset o) s (trapOf cMISALIGN (getS s o.a)) :=
  next_bit0Form (b' := trapE cMISALIGN (getS s o.a)) on (require_unmet (by simp [odd]))
variable (aligned : (getS s o.a).toNat % 64 = 0)
include aligned
theorem logset_goes : let us := (getS s o.b).toNat
    let rs := (getS s o.c).toNat
    let new := (getS s o.a, getS s o.b, getS s o.c)
    let log := (getLaunch s (myCtx s) (myLid s)).log
    exec (.logset o) s = .next (runBody s (require ((vw s).lpb != 0 && myLid s != 0) cENGINE 0 >>= fun _ =>
      require (decide (us % 64 = 0 ∧ rs % 64 = 0 ∧ 64 ≤ rs ∧ 64 + rs ≤ us)) cENGINE 0 >>= fun _ =>
      require (log.isNone || log == some new) cENGINE 0 >>= fun _ => .ok (onLaunch s (myCtx s) (myLid s) fun x => { x with log := some new }))) :=
  next_bit0Form on (require_met (by simp [aligned]))
theorem logset_binds (bound : (vw s).lpb ≠ 0 ∧ myLid s ≠ 0)
    (sizes : (getS s o.b).toNat % 64 = 0 ∧ (getS s o.c).toNat % 64 = 0 ∧ 64 ≤ (getS s o.c).toNat ∧
      64 + (getS s o.c).toNat ≤ (getS s o.b).toNat)
    (same : (getLaunch s (myCtx s) (myLid s)).log = none ∨
      (getLaunch s (myCtx s) (myLid s)).log = some (getS s o.a, getS s o.b, getS s o.c)) :
    exec (.logset o) s = .next (onLaunch s (myCtx s) (myLid s) fun x => { x with log := some (getS s o.a, getS s o.b, getS s o.c) }) := by
  rw [logset_goes on aligned, require_met (logBound_iff.mpr bound), require_met (decide_eq_true sizes), require_met ?_]
  · rfl
  · obtain free | equal := same
    · simp [free]
    · simp [equal]
theorem logset_refused (bad : ¬ (((vw s).lpb ≠ 0 ∧ myLid s ≠ 0) ∧
    ((getS s o.b).toNat % 64 = 0 ∧ (getS s o.c).toNat % 64 = 0 ∧ 64 ≤ (getS s o.c).toNat ∧ 64 + (getS s o.c).toNat ≤ (getS s o.b).toNat) ∧
    ((getLaunch s (myCtx s) (myLid s)).log = none ∨
      (getLaunch s (myCtx s) (myLid s)).log = some (getS s o.a, getS s o.b, getS s o.c)))) : Traps (.logset o) s (trapOf cENGINE 0) := by
  rw [Traps, logset_goes on aligned]
  by_cases bound : (vw s).lpb ≠ 0 ∧ myLid s ≠ 0
  · rw [require_met (logBound_iff.mpr bound)]
    by_cases sizes : (getS s o.b).toNat % 64 = 0 ∧ (getS s o.c).toNat % 64 = 0 ∧ 64 ≤ (getS s o.c).toNat ∧
        64 + (getS s o.c).toNat ≤ (getS s o.b).toNat
    · have other := not_or.mp fun same => bad ⟨bound, sizes, same⟩
      rw [require_met (decide_eq_true sizes), require_unmet (by simp [other, Option.isSome_iff_ne_none])]
      rfl
    · rw [require_unmet (decide_eq_false sizes)]
      rfl
  · rw [require_unmet (Bool.eq_false_iff.mpr fun h => bound (logBound_iff.mp h))]
    rfl
end

/-! #### An open ray's forms, settled -/

section
variable {s : State} {h : W64} {k n : Nat} {r : Ray} (live : rayAt s h = some (k, n, r)) (own : r.ctx = myCtx s) {o : SA1}
  (on : pred0 s o.p = true) (names : getS s o.a = h) (open_ : (getRay (flushMine s k n) k n).st = .open_)
include live own on names open_

theorem raytrace_shows : let x := getRay (flushMine s k n) k n
    ∃ t, exec (.raytrace o) s = .next t ∧ t.th.rays = s.th.rays ++ [h] ∧ let y := getRay t k n
      y.st = .run ∧ y.tracer = s.here ∧ y.recs = x.recs ∧ (x.opq = true → y.ended = true ∧ y.stat = x.stat ||| 8#9) ∧
      (x.opq = false → bitOf x.stat.toNat 2 = true → y.ended = true ∧ y.stat = x.stat) ∧
      (bitOf x.stat.toNat 2 = false → x.opq = false → y.ended = x.ended ∧ y.stat = x.stat) := by
  intro x
  refine ⟨_, raytrace_runs live own on names open_, ?_, ?_⟩
  · rw [(traceLaunch_logs ..).th]
    change (flushMine s k n).th.rays ++ [h] = _
    rw [flushMine_th]
  · dsimp only
    rw [getRay_traced, getRay_startRay]
    refine ⟨by rw [tracedRay_frame]; rfl, by rw [tracedRay_frame]; exact flushMine_here s k n, by rw [tracedRay_frame]; rfl,
      fun opq => ?_, fun clear bad => ?_, fun good clear => ?_⟩
    · rw [tracedRay_opaque (r := startedRay _ x) opq]
      exact ⟨rfl, rfl⟩
    · rw [tracedRay_bad (r := startedRay _ x) clear bad]
      exact ⟨rfl, rfl⟩
    · rw [tracedRay_goes (r := startedRay _ x) clear good]
      exact ⟨rfl, rfl⟩
theorem ivclr_shows : let x := getRay (flushMine s k n) k n
    ∃ t, exec (.ivclr o) s = .next t ∧ let y := getRay t k n
      y.st = .open_ ∧ y.recs = [] ∧ y.front = 0x7F800000 ∧ y.opq = false ∧ y.arrCount = 0 ∧ y.arrivals = 0 ∧ y.late = 0 ∧ y.dup = 0 ∧
      y.reject = 0 ∧ y.merges = 0 ∧ y.ivstop = x.ivstop ∧ t.th = s.th := by
  intro x
  refine ⟨_, ivclr_runs live own on names open_, ?_⟩
  dsimp only
  rw [getRay_onRay_same]
  obtain ⟨st, recs, front, opq, arrCount, arrivals, late, dup, reject, merges, ivstop⟩ := clearList_shows x
  exact ⟨st.trans open_, recs, front, opq, arrCount, arrivals, late, dup, reject, merges, ivstop, flushMine_th s k n⟩
theorem replay_shows (empty : (getRay (flushMine s k n) k n).queue = []) (log : (getRay (flushMine s k n) k n).log ≠ none)
    (number : (getRay (flushMine s k n) k n).logN ≠ none) (fresh : (getRay (flushMine s k n) k n).arrivals = 0) :
    ∃ t, exec (.replay o) s = .next t ∧ (getRay t k n).st = .run ∧ (getRay t k n).replay = true ∧
      (getRay t k n).stat = (getRay (flushMine s k n) k n).stat ||| 2#9 ∧ t.th.rays = s.th.rays ++ [h] := by
  refine ⟨_, replay_runs live own on names open_ empty log number fresh, ?_⟩
  rw [getRay_onRay_same, getRay_startRay]
  refine ⟨rfl, rfl, rfl, ?_⟩
  change (flushMine s k n).th.rays ++ [h] = _
  rw [flushMine_th]
end

section
variable {s : State} {h : W64} {k n : Nat} {r : Ray} (live : rayAt s h = some (k, n, r)) (own : r.ctx = myCtx s)
include live

section
variable {o : RayWait} (on : pred0 s o.p = true) (names : getS s o.a = h)
include own on names

theorem raywait_own (mine : ownHit s k n = true) : Traps (.raywait o) s (trapOf cENGINE 0) := by
  rw [Traps, raywait_goes live own on names, require_unmet (by simp [mine])]
  rfl
variable (other : ownHit s k n = false)
include other
theorem raywait_waits (waits : o.poll = false) (runs : (getRay (flushMine s k n) k n).st ≠ .done) : exec (.raywait o) s = .next (stalled s) := by
  rw [raywait_goes live own on names, require_met (by simp [other]), ready_unmet (by simp [waits, runs])]
  rfl
theorem raywait_shows (ready_ : o.poll = true ∨ (getRay (flushMine s k n) k n).st = .done) : let u := flushMine s k n
    let x := getRay u k n
    ∃ t v, exec (.raywait o) s = .next t ∧ WroteS u v o.d (statusOf x) ∧
      (o.rel = true → x.st = .done → t = putRay v k n { Ray.init with gen := x.gen } ∧ (getRay t k n).st = .free) ∧
      (o.rel = false ∨ x.st ≠ .done → t = v) := by
  intro u x
  refine ⟨waited u k n o, setS u o.d (statusOf x), (raywait_goes live own on names).trans ?_, setS_wrote .., fun release done =>
    ⟨waited_releases release done, by rw [waited_releases release done, getRay_putRay_same]; rfl⟩, waited_keeps⟩
  rw [require_met (by simp [other]), ready_met (by simpa using ready_)]
  rfl
end

section
variable {o : IvPost} (on : pred0 s o.p = true) (inside : vopOk s o.b = true) (names : getS s o.a = h)
include on inside names

theorem ivpost_posts (own : r.ctx = myCtx s) (open_ : r.st = .open_ ∨ (r.st = .run ∧ r.replay = false)) : exec (.ivpost o) s =
    .next (putRay s k n { getRay s k n with queue := (getRay s k n).queue ++ [(BitVec.ofNat 256 (peekV s o.b).toNat, s.here)] }) := by
  rw [ivpost_goes live on inside names, require_met ?_]
  · rfl
  · obtain st | ⟨st, fresh⟩ := open_
    · simp [own, st]
    · simp [own, st, fresh]
theorem ivpost_shut (shut : r.st = .done ∨ (r.st = .run ∧ r.replay = true)) : Traps (.ivpost o) s (trapOf cENGINE 0) := by
  rw [Traps, ivpost_goes live on inside names, require_unmet ?_]
  · rfl
  · obtain st | ⟨st, replays⟩ := shut
    · simp [st]
    · simp [st, replays]
end
end

/-- Settles O53: a handle's forms go through `rayE_found` or trap, `numberRay_only` and `traceLaunch_logs` say what logs leave of a ray,
and each form's effect is its lemma above. -/
theorem rayFormsOpenTraceWaitAndRead : Obligations.RayFormsOpenTraceWaitAndRead := by
  unfold Obligations.RayFormsOpenTraceWaitAndRead
  refine ⟨?_, ?_, ?_, ?_, ?_, fun o => ⟨skips_of fun _ => rfl, skips_of fun _ => rfl, skips_of fun _ => rfl⟩, fun o => skips_of fun _ => rfl,
    fun o => skips_of fun _ => rfl, fun o => skips_of fun _ => rfl, fun o => skips_of fun _ => rfl, fun o => skips_of fun _ => rfl,
    fun o => skips_of fun _ => rfl, fun o => skips_of fun _ => rfl⟩
  · intro o s on
    refine ⟨fun x => execRayopen_stops on, ?_⟩
    intro p pair d1 iv k rig fine
    refine ⟨fun bad => ?_, fun good none_ => ?_, fun good n low free below bank => ?_⟩
    · exact execRayopen_malformed on pair (Bool.eq_false_iff.mpr fun h => bad ((descriptorFine_iff s d1).mp h))
    · exact ⟨_, execRayopen_full on pair ((descriptorFine_iff s d1).mpr good) (none_.imp_left find_full), setS_wrote ..⟩
    · obtain ⟨banks, held⟩ := Option.ne_none_iff_exists'.mp bank
      exact ⟨_, execRayopen_opens on pair ((descriptorFine_iff s d1).mpr good) (find_free low free below) held, rayOpened_shows ..⟩
  · intro s h dead
    exact ⟨fun o on names => rayForms_dead dead on names, fun o on names => raywait_dead dead on names, fun o on names => ivstat_dead dead on names,
      fun o on inside names => ivread_dead dead on inside names, fun o on inside names => ivpost_dead dead on inside names⟩
  · intro s h k n r live own u x
    refine ⟨fun o on names => ⟨fun shut => rayForms_illegal live own on names shut, fun open_ => ⟨raytrace_shows live own on names open_,
      ivclr_shows live own on names open_, replay_shows live own on names open_, replay_refused live own on names open_⟩⟩, ?_,
      fun o on names inside => ⟨ivpost_posts live on inside names own, ivpost_shut live on inside names⟩, fun o on names inside => ?_,
      fun o on names => ⟨_, ivstat_runs live own on names, setS_wrote ..⟩⟩
    · intro o on names mine
      have other (h : ¬ mine) : ownHit s k n = false := Bool.eq_false_iff.mpr fun t => h (ownHit_iff.mp t)
      exact ⟨fun h => raywait_own live own on names (ownHit_iff.mpr h), fun h => raywait_waits live own on names (other h),
        fun h => raywait_shows live own on names (other h)⟩
    · refine ⟨_, _, ivread_runs live own on inside names, writeVD_wrote .., ?_⟩
      dsimp only
      rw [pair_toNat, recordAt_toNat, recordAt_toNat] <;> rfl
  · intro o s p on pair
    exact ⟨fun k e x hit entry => ⟨writeVD s p.1 x.d0, _, hitq_copies on pair hit entry, writeVD_wrote .., writeVD_wrote ..⟩,
      hitq_idle on pair⟩
  · intro o s on base us rs bound sizes log same
    refine ⟨logset_misaligned on, fun aligned => logset_refused on aligned, fun aligned named fits fresh =>
      ⟨_, logset_binds on aligned named fits fresh, rfl, ?_⟩⟩
    rw [getLaunch_onLaunch]

end Machine
end Sys2Proof
end
